-- ==== Sys2Proof/Word.lean ====
section
/-! DEFINITION. The word types of the FY960 and their plainest arithmetic (R2, R3, R93). -/

namespace Sys2Proof

/-- A byte of memory. -/
abbrev Byte := BitVec 8
/-- An instruction word, 32 bits (R39). -/
abbrev Word := BitVec 32
/-- A general register or pointer, 64 bits (R16). -/
abbrev DWord := BitVec 64
/-- A vector register, 512 bytes; byte 0 is bits 7..0 (R16, R69). -/
abbrev VWord := BitVec 4096
/-- A mask register, 1,024 bits (R16). -/
abbrev MWord := BitVec 1024
/-- The 1,024 bytes of a tile payload; byte 0 is bits 7..0 (R209). -/
abbrev PayWord := BitVec 8192

end Sys2Proof
end

