-- ==== Sys2Proof/Syntax.lean ====
section
/-! DEFINITION. The syntax of the FY960: the units of Isatas (R39 to R49) with their operands decoded,
and the events of the device, one constructor of Instr per row of spec/opcode_table.json. -/

namespace Sys2Proof

/-- The sixteen element types, in the order of their T codes (R55, R68). -/
inductive ETy where
  | i4 | n4 | i8 | n8 | i16 | n16 | i32 | n32
  | e2m1 | e4m3 | e5m2 | two8 | f16 | bf16 | f32 | x8
  deriving DecidableEq, Repr

/-- The rounding modes of R80, in the order of their RM codes. -/
inductive Rm where
  | rne | rtz | rdn | rup | rs | rto
  deriving DecidableEq, Repr

/-- The sequencing part of a unit (R24, R26): SEQ, and with SEQ = 11 the sequencing word's kind. An
offset counts words from the sequencing word's own address (R46). -/
inductive Seq where
  | next
  | lend
  | skip
  | jump (off : BitVec 23)
  | brT (p : BitVec 3) (off : BitVec 23)
  | brF (p : BitVec 3) (off : BitVec 23)
  | call (off : BitVec 23)
  | ret
  | jumpw (wy : BitVec 3)
  | callw (wy : BitVec 3)
  deriving DecidableEq, Repr

/-- The two tile families (R208). -/
inductive Fam where
  | a | b
  deriving DecidableEq, Repr

/-- A cluster of the package. -/
structure ClusterId where
  die : BitVec 4
  cl : BitVec 10
  deriving DecidableEq, Repr

/-- A core: an ordinary core at a station of a cluster, or a ramp core of a die (R34, R313). -/
inductive CoreId where
  | ord (die : BitVec 4) (cl : BitVec 10) (st : BitVec 6)
  | ramp (die : BitVec 4) (idx : BitVec 7)
  deriving DecidableEq, Repr

/-- A vector unit: shared vector unit u of a cluster, or a ramp core's private unit (R136, R313). -/
inductive SvuId where
  | shared (k : ClusterId) (u : BitVec 3)
  | priv (die : BitVec 4) (idx : BitVec 7)
  deriving DecidableEq, Repr

/-- A mesh of a die (R258). -/
structure MeshId where
  die : BitVec 4
  mesh : BitVec 5
  deriving DecidableEq, Repr

/-- The physical units that carry a check window (R150). -/
inductive CheckUnit where
  | core (c : CoreId)
  | svu (u : SvuId)
  deriving DecidableEq, Repr

/-- The agents whose HBM accesses are translated (R330, R334). -/
inductive Agent where
  | core (c : CoreId)
  | copy (k : ClusterId)
  | pass (k : ClusterId) (chain : BitVec 2)
  | pour
  | fabric (die : BitVec 4)
  deriving DecidableEq, Repr

/-- A request on a line of a die's L2 or remote-data cache (R329): allocate and pin it, or unpin it. -/
structure LineReq where
  die : BitVec 4
  rdc : Bool
  line : Nat
  unpin : Bool
  deriving DecidableEq, Repr

/-- A package-interface command (R396): who issued it (none is the hypervisor) and its 128 bytes,
byte 0 in bits 7..0. -/
structure PkgCmd where
  issuer : Option (BitVec 4)
  bytes : BitVec 1024
  deriving DecidableEq, Repr

/-- What the random-bit generator and a peer of another package bring to a SEAL_JOIN (R406 to R408): a key and a nonce from
the generator; whether the peer answered; whether each side's certificate chain and signature verified at the other; the
peer's report, byte 0 lowest; and the key and counter that its sealed message opens to, none where it holds no key. -/
structure SealPeer where
  fresh : BitVec 256
  nonce : BitVec 512
  reached : Bool
  verified : Bool
  report : BitVec 4096
  answer : Option (BitVec 256 × BitVec 64)
  deriving DecidableEq, Repr

/-- A port that may go down, and how many of the last packets that it sent its link has then not delivered (R418, R422). -/
structure PortLoss where
  port : BitVec 3
  lost : Nat
  deriving DecidableEq, Repr

/-- A port over which timestamps are exchanged, and the grandmaster whose time they carry (R421). -/
structure ClockPeer where
  port : BitVec 3
  grand : BitVec 20
  deriving DecidableEq, Repr

/-- A fabric packet (R419, R420): its header, its route word, and its bytes with one taint bit each. agent names the engine that
its answer goes to, issuer the core it comes from (R352). -/
structure Packet where
  stamp : Nat
  src : BitVec 20
  dst : BitVec 20
  sseq : BitVec 16
  ordered : Bool
  op : BitVec 4
  spart : BitVec 4
  window : BitVec 8
  offset : BitVec 36
  len : Nat
  tag : BitVec 16
  seq : BitVec 64
  status : BitVec 8
  agent : Nat
  issuer : Nat
  data : List (Byte × Bool)
  deriving DecidableEq, Repr

/-- F-R, three g registers with W32 (R41, R94). -/
structure R3W where
  q : Seq
  d : BitVec 5
  a : BitVec 5
  b : BitVec 5
  ta : Bool
  tb : Bool
  w : Bool
  deriving DecidableEq, Repr

/-- F-R, three g registers without W32. -/
structure R3 where
  q : Seq
  d : BitVec 5
  a : BitVec 5
  b : BitVec 5
  ta : Bool
  tb : Bool
  deriving DecidableEq, Repr

/-- F-R, destination and A, with W32. -/
structure R2W where
  q : Seq
  d : BitVec 5
  a : BitVec 5
  ta : Bool
  w : Bool
  deriving DecidableEq, Repr

/-- F-R, destination and A. -/
structure R2 where
  q : Seq
  d : BitVec 5
  a : BitVec 5
  ta : Bool
  deriving DecidableEq, Repr

/-- F-R compare into a predicate, with W32 (R100). -/
structure C3W where
  q : Seq
  d : BitVec 3
  a : BitVec 5
  b : BitVec 5
  ta : Bool
  tb : Bool
  w : Bool
  deriving DecidableEq, Repr

/-- F-I (R42, R97). -/
structure RI where
  q : Seq
  d : BitVec 5
  a : BitVec 5
  i : BitVec 14
  deriving DecidableEq, Repr

/-- F-I shift (R98). -/
structure ShI where
  q : Seq
  d : BitVec 5
  a : BitVec 5
  w : Bool
  n : BitVec 6
  deriving DecidableEq, Repr

/-- F-I compare (R100). -/
structure CI where
  q : Seq
  d : BitVec 3
  a : BitVec 5
  i : BitVec 14
  deriving DecidableEq, Repr

/-- F-L load immediate (R99). -/
structure LiO where
  q : Seq
  d : BitVec 5
  i : BitVec 19
  deriving DecidableEq, Repr

/-- F-L slot write: slot k, value h (R99). -/
structure LihO where
  q : Seq
  d : BitVec 5
  k : BitVec 2
  h : BitVec 16
  deriving DecidableEq, Repr

/-- F-R floating, rounded (R104). -/
structure F3 where
  q : Seq
  d : BitVec 5
  a : BitVec 5
  b : BitVec 5
  r : Rm
  ta : Bool
  tb : Bool
  deriving DecidableEq, Repr

/-- F-R floating unary, rounded (R104). -/
structure F2 where
  q : Seq
  d : BitVec 5
  a : BitVec 5
  r : Rm
  ta : Bool
  deriving DecidableEq, Repr

/-- F-R floating compare into a predicate (R105). -/
structure C3 where
  q : Seq
  d : BitVec 3
  a : BitVec 5
  b : BitVec 5
  ta : Bool
  tb : Bool
  deriving DecidableEq, Repr

/-- three predicates (R108). -/
structure P3 where
  q : Seq
  d : BitVec 3
  a : BitVec 3
  b : BitVec 3
  deriving DecidableEq, Repr

/-- two predicates (R108). -/
structure P2 where
  q : Seq
  d : BitVec 3
  a : BitVec 3
  deriving DecidableEq, Repr

/-- g source, predicate destination (R108). -/
structure GP where
  q : Seq
  d : BitVec 3
  a : BitVec 5
  ta : Bool
  deriving DecidableEq, Repr

/-- predicate source, g destination (R108). -/
structure PG where
  q : Seq
  d : BitVec 5
  a : BitVec 3
  deriving DecidableEq, Repr

/-- F-M scalar access (R44). -/
structure Mem where
  q : Seq
  d : BitVec 5
  b : BitVec 5
  o : BitVec 14
  deriving DecidableEq, Repr

/-- F-M vector access (R44). -/
structure VMem where
  q : Seq
  d : BitVec 4
  b : BitVec 5
  o : BitVec 14
  deriving DecidableEq, Repr

/-- F-V, two vector sources (R43). -/
structure V3 where
  q : Seq
  d : BitVec 4
  a : BitVec 4
  b : BitVec 4
  t : ETy
  m : BitVec 2
  deriving DecidableEq, Repr

/-- F-V, one vector source. -/
structure V2 where
  q : Seq
  d : BitVec 4
  a : BitVec 4
  t : ETy
  m : BitVec 2
  deriving DecidableEq, Repr

/-- F-V compare into a mask. -/
structure VC3 where
  q : Seq
  d : BitVec 2
  a : BitVec 4
  b : BitVec 4
  t : ETy
  m : BitVec 2
  deriving DecidableEq, Repr

/-- F-V rounded. -/
structure V3R where
  q : Seq
  d : BitVec 4
  a : BitVec 4
  b : BitVec 4
  t : ETy
  m : BitVec 2
  r : Rm
  deriving DecidableEq, Repr

/-- F-VS, vector and scalar (R162). -/
structure VS where
  q : Seq
  d : BitVec 4
  a : BitVec 4
  g : BitVec 5
  t : ETy
  m : BitVec 2
  deriving DecidableEq, Repr

/-- F-VS vsplat. -/
structure VSp where
  q : Seq
  d : BitVec 4
  g : BitVec 5
  t : ETy
  m : BitVec 2
  deriving DecidableEq, Repr

/-- F-VS vget (R163). -/
structure VG where
  q : Seq
  a : BitVec 4
  g : BitVec 5
  t : ETy
  deriving DecidableEq, Repr

/-- VCONV, T destination type, s source type (R164). -/
structure Cvt where
  q : Seq
  d : BitVec 4
  a : BitVec 4
  s : ETy
  t : ETy
  m : BitVec 2
  r : Rm
  deriving DecidableEq, Repr

/-- VCONV pack (R166). -/
structure Pack where
  q : Seq
  d : BitVec 4
  a : BitVec 4
  s : ETy
  t : ETy
  r : Rm
  deriving DecidableEq, Repr

/-- vscatter (R168). -/
structure VSc where
  q : Seq
  a : BitVec 4
  b : BitVec 4
  t : ETy
  m : BitVec 2
  deriving DecidableEq, Repr

/-- vzip (R168). -/
structure VZ where
  q : Seq
  d : BitVec 4
  a : BitVec 4
  b : BitVec 4
  t : ETy
  deriving DecidableEq, Repr

/-- vunzip (R168). -/
structure VU where
  q : Seq
  d : BitVec 4
  a : BitVec 4
  t : ETy
  deriving DecidableEq, Repr

/-- VRED, one source, group code c (R170). -/
structure V2C where
  q : Seq
  d : BitVec 4
  a : BitVec 4
  t : ETy
  m : BitVec 2
  c : BitVec 3
  deriving DecidableEq, Repr

/-- VRED, two sources, group code c (R170). -/
structure V3C where
  q : Seq
  d : BitVec 4
  a : BitVec 4
  b : BitVec 4
  t : ETy
  m : BitVec 2
  c : BitVec 3
  deriving DecidableEq, Repr

/-- three masks (R173). -/
structure M3 where
  q : Seq
  d : BitVec 2
  a : BitVec 2
  b : BitVec 2
  deriving DecidableEq, Repr

/-- two masks (R173). -/
structure M2 where
  q : Seq
  d : BitVec 2
  a : BitVec 2
  deriving DecidableEq, Repr

/-- mfirst (R173). -/
structure M2T where
  q : Seq
  d : BitVec 2
  a : BitVec 2
  t : ETy
  deriving DecidableEq, Repr

/-- viota (R173). -/
structure VIo where
  q : Seq
  d : BitVec 4
  t : ETy
  m : BitVec 2
  deriving DecidableEq, Repr

/-- vmpopc (R173). -/
structure VPc where
  q : Seq
  d : BitVec 4
  a : BitVec 2
  t : ETy
  deriving DecidableEq, Repr

/-- vmtov (R173). -/
structure VMv where
  q : Seq
  d : BitVec 4
  a : BitVec 2
  t : ETy
  m : BitVec 2
  deriving DecidableEq, Repr

/-- vvtom (R173). -/
structure VTm where
  q : Seq
  d : BitVec 2
  a : BitVec 4
  t : ETy
  m : BitVec 2
  deriving DecidableEq, Repr

/-- mask to predicate (R173). -/
structure MPr where
  q : Seq
  d : BitVec 3
  a : BitVec 2
  t : ETy
  deriving DecidableEq, Repr

/-- F-X without operands. -/
structure XQ where
  q : Seq
  deriving DecidableEq, Repr

/-- F-X, g destination. -/
structure XD where
  q : Seq
  d : BitVec 5
  deriving DecidableEq, Repr

/-- F-X, g source with trap bit. -/
structure XA where
  q : Seq
  a : BitVec 5
  ta : Bool
  deriving DecidableEq, Repr

/-- F-X, g destination and g source. -/
structure XDA where
  q : Seq
  d : BitVec 5
  a : BitVec 5
  ta : Bool
  deriving DecidableEq, Repr

/-- F-X, h destination, g source, inbox bit. -/
structure XHA where
  q : Seq
  d : BitVec 3
  a : BitVec 5
  ta : Bool
  inb : Bool
  deriving DecidableEq, Repr

/-- F-X, h destination, two g sources, inbox bit (R289, R297). -/
structure XHAB where
  q : Seq
  d : BitVec 3
  a : BitVec 5
  b : BitVec 5
  ta : Bool
  tb : Bool
  inb : Bool
  deriving DecidableEq, Repr

/-- loop count, L (R109). -/
structure LoopI where
  q : Seq
  cnt : BitVec 16
  len : BitVec 16
  deriving DecidableEq, Repr

/-- loop gA, L (R109). -/
structure LoopR where
  q : Seq
  a : BitVec 5
  ta : Bool
  len : BitVec 16
  deriving DecidableEq, Repr

/-- rpt count, f (R109). -/
structure RptI where
  q : Seq
  cnt : BitVec 16
  f : BitVec 5
  deriving DecidableEq, Repr

/-- rpt gA, f (R109). -/
structure RptR where
  q : Seq
  a : BitVec 5
  ta : Bool
  f : BitVec 5
  deriving DecidableEq, Repr

/-- setw wD, addr (R109). -/
structure SetwI where
  q : Seq
  d : BitVec 3
  addr : BitVec 32
  deriving DecidableEq, Repr

/-- setw wD, gA (R109). -/
structure SetwR where
  q : Seq
  d : BitVec 3
  a : BitVec 5
  ta : Bool
  deriving DecidableEq, Repr

/-- getw gD, wA (R109). -/
structure GetwO where
  q : Seq
  d : BitVec 5
  a : BitVec 3
  deriving DecidableEq, Repr

/-- trap imm (R118). -/
structure TrapO where
  q : Seq
  imm : BitVec 32
  deriving DecidableEq, Repr

/-- mfs gD, sysreg (R118). -/
structure MfsO where
  q : Seq
  d : BitVec 5
  n : BitVec 12
  deriving DecidableEq, Repr

/-- mts sysreg, gA (R118). -/
structure MtsO where
  q : Seq
  a : BitVec 5
  ta : Bool
  n : BitVec 12
  deriving DecidableEq, Repr

/-- cpy (R183); ssp and dsp are the space codes 0-3 of R184. -/
structure CpyO where
  q : Seq
  d : BitVec 3
  a : BitVec 5
  b : BitVec 5
  ta : Bool
  tb : Bool
  inb : Bool
  ssp : BitVec 2
  dsp : BitVec 2
  len : BitVec 23
  deriving DecidableEq, Repr

/-- cpyt (R183). -/
structure CpytO where
  q : Seq
  d : BitVec 3
  a : BitVec 5
  ta : Bool
  inb : Bool
  deriving DecidableEq, Repr

/-- cpyc (R183). -/
structure CpycO where
  q : Seq
  d : BitVec 3
  a : BitVec 5
  ta : Bool
  deriving DecidableEq, Repr

/-- aop (R190). -/
structure AopO where
  q : Seq
  d : BitVec 5
  a : BitVec 5
  b : BitVec 5
  ta : Bool
  tb : Bool
  td : Bool
  inb : Bool
  he : BitVec 3
  ord : BitVec 2
  scope : BitVec 3
  smask : BitVec 5
  op : BitVec 4
  sz : BitVec 1
  deriving DecidableEq, Repr

/-- hwait (R193). -/
structure HwaitO where
  q : Seq
  d : BitVec 5
  a : BitVec 3
  ta : Bool
  scope : BitVec 3
  smask : BitVec 5
  deriving DecidableEq, Repr

/-- htest (R193). -/
structure HtestO where
  q : Seq
  d : BitVec 3
  a : BitVec 3
  deriving DecidableEq, Repr

/-- hcancel (R193). -/
structure HcanO where
  q : Seq
  a : BitVec 3
  deriving DecidableEq, Repr

/-- hmov hD, hA (R193). -/
structure HmovO where
  q : Seq
  d : BitVec 3
  a : BitVec 3
  ta : Bool
  deriving DecidableEq, Repr

/-- hmov hD, gA (R193). -/
structure HmovG where
  q : Seq
  d : BitVec 3
  a : BitVec 5
  ta : Bool
  deriving DecidableEq, Repr

/-- inbox (R193). -/
structure InboxO where
  q : Seq
  d : BitVec 5
  b : BitVec 5
  nb : Bool
  deriving DecidableEq, Repr

/-- fence (R193). -/
structure FenceO where
  q : Seq
  scope : BitVec 3
  smask : BitVec 5
  deriving DecidableEq, Repr

/-- empty vD (R193). -/
structure EmptyV where
  q : Seq
  d : BitVec 4
  deriving DecidableEq, Repr

/-- empty hD (R193). -/
structure EmptyH where
  q : Seq
  d : BitVec 3
  deriving DecidableEq, Repr

/-- bind.kind spN, gA, gB (R201). -/
structure BindO where
  q : Seq
  n : BitVec 2
  a : BitVec 5
  b : BitVec 5
  ta : Bool
  tb : Bool
  kind : BitVec 2
  deriving DecidableEq, Repr

/-- unbind gD, spN (R201). -/
structure UnbindO where
  q : Seq
  d : BitVec 5
  n : BitVec 2
  deriving DecidableEq, Repr

/-- vchain (R174). -/
structure ChainO where
  q : Seq
  d : BitVec 5
  a : BitVec 5
  b : BitVec 5
  td : Bool
  ta : Bool
  tb : Bool
  desc : BitVec 15
  deriving DecidableEq, Repr

/-- vrdac, vwrac (R306). -/
structure VaccO where
  q : Seq
  d : BitVec 4
  a : BitVec 5
  b : BitVec 5
  ta : Bool
  tb : Bool
  deriving DecidableEq, Repr

/-- aclr (R306). -/
structure AclrO where
  q : Seq
  a : BitVec 5
  b : BitVec 5
  ta : Bool
  tb : Bool
  nrows : BitVec 9
  deriving DecidableEq, Repr

/-- rinj.fam gD, gA, gB (R238). -/
structure RinjO where
  q : Seq
  d : BitVec 5
  a : BitVec 5
  b : BitVec 5
  ta : Bool
  tb : Bool
  td : Bool
  fam : BitVec 1
  deriving DecidableEq, Repr

/-- rinjr and ginj (R238, R314). -/
structure RinjrO where
  q : Seq
  d : BitVec 5
  a : BitVec 5
  b : BitVec 5
  ta : Bool
  tb : Bool
  td : Bool
  fam : BitVec 1
  cluster : BitVec 10
  station : BitVec 6
  deriving DecidableEq, Repr

/-- rpark (R238). -/
structure RparkO where
  q : Seq
  d : BitVec 5
  fam : BitVec 1
  deriving DecidableEq, Repr

/-- runpark (R238). -/
structure RunpO where
  q : Seq
  d : BitVec 5
  fam : BitVec 1
  slot : BitVec 1
  deriving DecidableEq, Repr

/-- rtire (R238). -/
structure RtireO where
  q : Seq
  d : BitVec 5
  fam : BitVec 1
  place : BitVec 2
  deriving DecidableEq, Repr

/-- rmode (R238). -/
structure RmodeO where
  q : Seq
  mode : BitVec 1
  record : Bool
  deriving DecidableEq, Repr

/-- jrd (R246). -/
structure JrdO where
  q : Seq
  a : BitVec 5
  ta : Bool
  entry : BitVec 6
  deriving DecidableEq, Repr

/-- join, leave (R249). -/
structure ConvO where
  q : Seq
  id : BitVec 12
  deriving DecidableEq, Repr

/-- bar (R249). -/
structure BarO where
  q : Seq
  d : BitVec 5
  smask : BitVec 5
  scope : BitVec 3
  id : BitVec 12
  deriving DecidableEq, Repr

/-- alease (R289). -/
structure AleaseO where
  q : Seq
  d : BitVec 5
  a : BitVec 5
  ta : Bool
  chain : BitVec 2
  deriving DecidableEq, Repr

/-- gld (R314). -/
structure GldO where
  q : Seq
  d : BitVec 5
  a : BitVec 5
  ta : Bool
  off : BitVec 24
  deriving DecidableEq, Repr

/-- gst (R314). -/
structure GstO where
  q : Seq
  d : BitVec 5
  a : BitVec 5
  ta : Bool
  td : Bool
  off : BitVec 24
  deriving DecidableEq, Repr

/-- gldv, gstv (R314). -/
structure GvO where
  q : Seq
  d : BitVec 4
  a : BitVec 5
  ta : Bool
  space : BitVec 1
  off : BitVec 24
  deriving DecidableEq, Repr

/-- gldt, gstt (R314). -/
structure GtO where
  q : Seq
  d : BitVec 4
  a : BitVec 5
  b : BitVec 5
  ta : Bool
  tb : Bool
  t : ETy
  deriving DecidableEq, Repr

/-- gred (R314). -/
structure GredO where
  q : Seq
  a : BitVec 5
  b : BitVec 5
  ta : Bool
  tb : Bool
  op : BitVec 4
  sz : BitVec 1
  deriving DecidableEq, Repr

/-- gsend vA, chan (R314). -/
structure GsendO where
  q : Seq
  a : BitVec 4
  chan : BitVec 4
  deriving DecidableEq, Repr

/-- grecv vD, chan (R314). -/
structure GrecvO where
  q : Seq
  d : BitVec 4
  chan : BitVec 4
  deriving DecidableEq, Repr

/-- gpfill (R314); nch is NCH - 1. -/
structure GpfO where
  q : Seq
  a : BitVec 5
  b : BitVec 5
  ta : Bool
  tb : Bool
  nch : BitVec 8
  deriving DecidableEq, Repr

/-- tmld, tmst (R321). -/
structure TmO where
  q : Seq
  d : BitVec 5
  a : BitVec 5
  ta : Bool
  td : Bool
  map : BitVec 6
  deriving DecidableEq, Repr

/-- tmwr (R321). -/
structure TmwO where
  q : Seq
  a : BitVec 5
  ta : Bool
  map : BitVec 6
  deriving DecidableEq, Repr

/-- fput (R435). -/
structure FputO where
  q : Seq
  d : BitVec 3
  a : BitVec 5
  b : BitVec 5
  ta : Bool
  tb : Bool
  inb : Bool
  ord : Bool
  sp : BitVec 3
  len : BitVec 23
  deriving DecidableEq, Repr

/-- fget (R435). -/
structure FgetO where
  q : Seq
  d : BitVec 3
  a : BitVec 5
  b : BitVec 5
  ta : Bool
  tb : Bool
  inb : Bool
  sp : BitVec 3
  len : BitVec 23
  deriving DecidableEq, Repr

/-- fsend (R435). -/
structure FsendO where
  q : Seq
  d : BitVec 3
  a : BitVec 5
  b : BitVec 5
  ta : Bool
  tb : Bool
  inb : Bool
  ord : Bool
  tag : BitVec 16
  deriving DecidableEq, Repr

/-- frecv (R435). -/
structure FrecvO where
  q : Seq
  d : BitVec 5
  b : BitVec 5
  queue : BitVec 6
  nb : Bool
  deriving DecidableEq, Repr

/-- fcut (R435). -/
structure FcutO where
  q : Seq
  a : BitVec 5
  b : BitVec 5
  ta : Bool
  tb : Bool
  deriving DecidableEq, Repr

/-- fwin (R435). -/
structure FwinO where
  q : Seq
  a : BitVec 5
  ta : Bool
  window : BitVec 8
  deriving DecidableEq, Repr

/-- fctl (R435). -/
structure FctlO where
  q : Seq
  a : BitVec 5
  ta : Bool
  port : BitVec 3
  deriving DecidableEq, Repr

/-- fpstat (R435). -/
structure FpstO where
  q : Seq
  d : BitVec 5
  port : BitVec 3
  deriving DecidableEq, Repr

/-- One constructor per row of spec/opcode_table.json: the instructions of Isatas, each with its whole unit
(operands and sequencing part), and the indivisible events of the device, each with the unit it happens at. -/
inductive Instr where
  /-- TASK_START (R12). At a task boundary the core takes the launch body, the oldest created task or the next routine-list entry, sets TASK and the coordinate registers, and begins at the start address. -/
  | taskStart (c : CoreId)
  /-- CODE_FETCH_FILL (R125). A word that missed the instruction store arrives from the die through the cluster's code port, and the stalled core resumes. -/
  | codeFetchFill (c : CoreId) (addr : Word)
  /-- PRODUCER_FILL (R17). A long-latency producer's result arrives, with its taint, and marks its destination register full. -/
  | producerFill (c : CoreId)
  /-- SUPERVISOR_KILL (R38). The supervisor ends the launch and writes a completion record that names the cause, core and PC, quarantining a unit where R150 or R387 requires it. -/
  | supervisorKill (c : CoreId)
  /-- SUPERVISOR_RETRY (R38). The supervisor increments TRAPINFO.ATTEMPT and re-executes the trapping unit. -/
  | supervisorRetry (c : CoreId)
  /-- SUPERVISOR_RESUME (R38). The supervisor increments TRAPINFO.ATTEMPT and continues a SOFTWARE or WATCHDOG trap at the next unit. -/
  | supervisorResume (c : CoreId)
  /-- SUPERVISOR_LEAVE (R36). On ABORTED, the core ends its task, discards its station queue and routine list, and leaves the launch. -/
  | supervisorLeave (c : CoreId)
  /-- WATCHDOG (R36). A task's cycle count exceeds the launch record's cycle limit, and the core traps WATCHDOG. -/
  | watchdog (c : CoreId)
  /-- CORE_PART_END (R22). A core whose tasks, queue, routine list and producers are all finished reports the end of its part in the launch and leaves its convoys. -/
  | corePartEnd (c : CoreId)
  /-- ADD (R94). Integer add modulo 2^64, or at 32 bits when W32 is set. -/
  | add (o : R3W)
  /-- SUB (R94). Integer subtract. -/
  | sub (o : R3W)
  /-- MUL (R94). Integer multiply, low bits. -/
  | mul (o : R3W)
  /-- MULH (R94). Signed multiply, high 64 bits. -/
  | mulh (o : R3)
  /-- MULHU (R94). Natural multiply, high 64 bits. -/
  | mulhu (o : R3)
  /-- DIV (R96). Signed division that never traps. -/
  | div (o : R3W)
  /-- DIVU (R96). Natural division that never traps. -/
  | divu (o : R3W)
  /-- REM (R96). Signed remainder. -/
  | rem (o : R3W)
  /-- REMU (R96). Natural remainder. -/
  | remu (o : R3W)
  /-- AND (R94). Bitwise AND. -/
  | and (o : R3W)
  /-- OR (R94). Bitwise OR. -/
  | or (o : R3W)
  /-- XOR (R94). Bitwise XOR. -/
  | xor (o : R3W)
  /-- ANDN (R94). Bitwise a AND NOT b. -/
  | andn (o : R3W)
  /-- SHL (R94). Shift left by a register count. -/
  | shl (o : R3W)
  /-- SHR (R94). Logical shift right by a register count. -/
  | shr (o : R3W)
  /-- SRA (R94). Arithmetic shift right by a register count. -/
  | sra (o : R3W)
  /-- ROL (R94). Rotate left by a register count. -/
  | rol (o : R3W)
  /-- MIN (R94). Signed minimum. -/
  | min (o : R3W)
  /-- MAX (R94). Signed maximum. -/
  | max (o : R3W)
  /-- MINU (R94). Natural minimum. -/
  | minu (o : R3W)
  /-- MAXU (R94). Natural maximum. -/
  | maxu (o : R3W)
  /-- CLZ (R94). Count of leading zero bits. -/
  | clz (o : R2W)
  /-- CTZ (R94). Count of trailing zero bits. -/
  | ctz (o : R2W)
  /-- POPC (R94). Count of one bits. -/
  | popc (o : R2W)
  /-- ADDA (R101). Moves a fat pointer by a register offset, trapping FORMAT on a carry into the tag. -/
  | adda (o : R3)
  /-- PTAG (R102). Builds a pointer from a tag byte and a VA. -/
  | ptag (o : R3)
  /-- PFMT (R102). Extracts a pointer's tag byte. -/
  | pfmt (o : R2)
  /-- PVA (R102). Extracts a pointer's 56-bit VA. -/
  | pva (o : R2)
  /-- CMP_EQ (R100). Sets a predicate to a = b. -/
  | cmpEq (o : C3W)
  /-- CMP_NE (R100). Sets a predicate to a ≠ b. -/
  | cmpNe (o : C3W)
  /-- CMP_LT (R100). Sets a predicate to signed a < b. -/
  | cmpLt (o : C3W)
  /-- CMP_LE (R100). Sets a predicate to signed a ≤ b. -/
  | cmpLe (o : C3W)
  /-- CMP_LTU (R100). Sets a predicate to natural a < b. -/
  | cmpLtu (o : C3W)
  /-- CMP_LEU (R100). Sets a predicate to natural a ≤ b. -/
  | cmpLeu (o : C3W)
  /-- ADDI (R97). Adds a sign-extended 14-bit immediate. -/
  | addi (o : RI)
  /-- ANDI (R97). ANDs a sign-extended immediate. -/
  | andi (o : RI)
  /-- ORI (R97). ORs a sign-extended immediate. -/
  | ori (o : RI)
  /-- XORI (R97). XORs a sign-extended immediate. -/
  | xori (o : RI)
  /-- SHLI (R98). Shifts left by an immediate count. -/
  | shli (o : ShI)
  /-- SHRI (R98). Shifts right logically by an immediate count. -/
  | shri (o : ShI)
  /-- SRAI (R98). Shifts right arithmetically by an immediate count. -/
  | srai (o : ShI)
  /-- ROLI (R98). Rotates left by an immediate count. -/
  | roli (o : ShI)
  /-- CMPI_EQ (R100). Compares a register with an immediate for equality into a predicate. -/
  | cmpiEq (o : CI)
  /-- CMPI_NE (R100). Compares a register with an immediate for inequality. -/
  | cmpiNe (o : CI)
  /-- CMPI_LT (R100). Signed less-than against an immediate. -/
  | cmpiLt (o : CI)
  /-- CMPI_LTU (R100). Natural less-than against an immediate. -/
  | cmpiLtu (o : CI)
  /-- LI (R99). Loads a sign-extended 19-bit immediate. -/
  | li (o : LiO)
  /-- LIH (R99). Writes one 16-bit slot of a register and keeps the rest. -/
  | lih (o : LihO)
  /-- ADDAI (R101). Moves a fat pointer by an immediate offset. -/
  | addai (o : RI)
  /-- FADD (R104). F32 add, rounded once in mode RM. -/
  | fadd (o : F3)
  /-- FSUB (R104). F32 subtract. -/
  | fsub (o : F3)
  /-- FMUL (R104). F32 multiply. -/
  | fmul (o : F3)
  /-- FMA (R104). F32 fused multiply-add into G[D]. -/
  | fma (o : F3)
  /-- FITOF (R104). Converts a signed 64-bit integer to F32. -/
  | fitof (o : F2)
  /-- FFTOI (R104). Converts F32 to a saturated signed 64-bit integer. -/
  | fftoi (o : F2)
  /-- FMIN (R105). F32 minimum by R91. -/
  | fmin (o : R3)
  /-- FMAX (R105). F32 maximum by R91. -/
  | fmax (o : R3)
  /-- FABS (R105). F32 absolute value. -/
  | fabs (o : R2)
  /-- FNEG (R105). F32 negation. -/
  | fneg (o : R2)
  /-- FEQ (R105). F32 equality into a predicate. -/
  | feq (o : C3)
  /-- FLT (R105). F32 less-than into a predicate. -/
  | flt (o : C3)
  /-- FLE (R105). F32 less-or-equal into a predicate. -/
  | fle (o : C3)
  /-- FUN (R105). Tests whether either F32 operand is NaN. -/
  | fun (o : C3)
  /-- FRCP (R106). F32 reciprocal approximation to 12 bits. -/
  | frcp (o : R2)
  /-- FRSQ (R106). F32 reciprocal square-root approximation. -/
  | frsq (o : R2)
  /-- FREF_RCP (R107). One Newton step refining a reciprocal. -/
  | frefRcp (o : R3)
  /-- FREF_RSQ (R107). One Newton step refining a reciprocal square root. -/
  | frefRsq (o : R3)
  /-- FCLASS (R105). Writes the one-hot class of an F32 value. -/
  | fclass (o : R2)
  /-- PAND (R108). Predicate AND. -/
  | pand (o : P3)
  /-- POR (R108). Predicate OR. -/
  | por (o : P3)
  /-- PXOR (R108). Predicate XOR. -/
  | pxor (o : P3)
  /-- PANDN (R108). Predicate AND NOT. -/
  | pandn (o : P3)
  /-- PNOT (R108). Predicate NOT. -/
  | pnot (o : P2)
  /-- PMOV (R108). Predicate copy. -/
  | pmov (o : P2)
  /-- GTOP (R108). Sets a predicate to G[A] ≠ 0. -/
  | gtop (o : GP)
  /-- PTOG (R108). Writes 1 or 0 from a predicate into a g register. -/
  | ptog (o : PG)
  /-- SEL (R108). Selects G[A] or G[B] by p0 as data. -/
  | sel (o : R3)
  /-- LOOP (R111). Pushes a hardware loop with an immediate count and body length. -/
  | loop (o : LoopI)
  /-- LOOP_REG (R111). Pushes a hardware loop whose count comes from a register. -/
  | loopReg (o : LoopR)
  /-- RPT (R112). Decodes a frame of up to 16 units and repeats it an immediate number of times. -/
  | rpt (o : RptI)
  /-- RPT_REG (R112). Decodes and repeats a frame with a register count. -/
  | rptReg (o : RptR)
  /-- SETW (R113). Writes a way register from an immediate address. -/
  | setw (o : SetwI)
  /-- SETW_REG (R113). Writes a way register from a g register. -/
  | setwReg (o : SetwR)
  /-- GETW (R113). Copies a way register into a g register. -/
  | getw (o : GetwO)
  /-- YIELD (R114). Lowers the core's vector queue head for one arbitration. -/
  | yield (o : XQ)
  /-- DONE (R115). Evaluates its sequencing part and ends the task. -/
  | done (o : XQ)
  /-- NOP (R116). No effect; carries a plain transfer of control. -/
  | nop (o : XQ)
  /-- TRAP (R119). Raises SOFTWARE with its immediate as value. -/
  | trap (o : TrapO)
  /-- MFS (R120). Reads a system register into a g register, tainted for timing-dependent registers. -/
  | mfs (o : MfsO)
  /-- MTS (R120). Writes a system register, with privilege and reserved-value checks. -/
  | mts (o : MtsO)
  /-- CAPR (R123). Reads a 64-bit word of the partition's capability view, stalling until it returns. -/
  | capr (o : XDA)
  /-- IFENCE (R124). Discards fetched and stored code words so that later fetches see acquired code writes. -/
  | ifence (o : XQ)
  /-- LD (R179). Loads 8 bytes of local memory. -/
  | ld (o : Mem)
  /-- ST (R179). Stores 8 bytes to local memory. -/
  | st (o : Mem)
  /-- LDV (R179). Loads 512 bytes of local memory into a vector register. -/
  | ldv (o : VMem)
  /-- STV (R179). Stores a vector register to local memory. -/
  | stv (o : VMem)
  /-- LDY (R179). Loads 8 bytes of the yard. -/
  | ldy (o : Mem)
  /-- STY (R179). Stores 8 bytes to the yard. -/
  | sty (o : Mem)
  /-- LDVY (R179). Loads 512 bytes of the yard into a vector register. -/
  | ldvy (o : VMem)
  /-- STVY (R179). Stores a vector register to the yard. -/
  | stvy (o : VMem)
  /-- YARD_STORE_PERFORM (R126). An issued STY is performed at its yard bank at least 10 cycles later. -/
  | yardStorePerform (c : CoreId)
  /-- LOCAL_SCRUB (R129). The scrubber visits a local word once per 2^24 cycles and marks an uncorrectable word poisoned. -/
  | localScrub (c : CoreId) (word : BitVec 12)
  /-- YARD_SCRUB (R233). The scrubber visits a yard word once per 2^24 cycles and marks an uncorrectable word poisoned. -/
  | yardScrub (k : ClusterId) (word : BitVec 16)
  /-- CPY (R185). Checks and appends a copy command between spaces to the cluster's copy engine. -/
  | cpy (o : CpyO)
  /-- CPYT (R188). Reads a tile descriptor and appends a strided copy as one command. -/
  | cpyt (o : CpytO)
  /-- CPYC (R189). Reads a chain of yard records and appends each as a command. -/
  | cpyc (o : CpycO)
  /-- COPY_UNIT (R186). The copy engine reads and then writes one 64-byte-aligned unit of a command, stopping the command on an error. -/
  | copyUnit (k : ClusterId) (seq : Nat)
  /-- COPY_COMPLETE (R187). The copy engine fills a command's handle, in sequence order, and posts the inbox message or DONEWORD. -/
  | copyComplete (k : ClusterId)
  /-- AOP (R191). Issues an atomic on an HBM location with ordering, scope and mask. -/
  | aop (o : AopO)
  /-- ATOMIC_PERFORM (R191). An atomic is performed indivisibly at the line's home slice and returns old value and handle. -/
  | atomicPerform (c : CoreId) (n : Nat)
  /-- HWAIT (R194). Waits for a handle, acquires the command's writes and returns the handle word. -/
  | hwait (o : HwaitO)
  /-- HTEST (R195). Sets a predicate to whether a handle is full, without waiting. -/
  | htest (o : HtestO)
  /-- HCANCEL (R196). Asks the engine of an outstanding handle producer to stop. -/
  | hcancel (o : HcanO)
  /-- HMOV_H (R197). Waits for a handle, acquires its command's writes and copies it. -/
  | hmovH (o : HmovO)
  /-- HMOV_G (R197). Sets a handle register from a g register. -/
  | hmovG (o : HmovG)
  /-- INBOX (R198). Dequeues the oldest inbox message and acquires its command's writes. -/
  | inbox (o : InboxO)
  /-- FENCE_ACQ (R199). Keeps later accesses in SMASK from performing before earlier reads complete. -/
  | fenceAcq (o : FenceO)
  /-- FENCE_REL (R199). Keeps later writes from performing before earlier accesses in SMASK are performed at SCOPE. -/
  | fenceRel (o : FenceO)
  /-- FENCE_FULL (R199). Acts as release and acquire and also orders earlier writes before later reads. -/
  | fenceFull (o : FenceO)
  /-- EMPTY_G (R200). Marks a g register empty with no producer. -/
  | emptyG (o : XD)
  /-- EMPTY_V (R200). Marks a vector register empty with no producer. -/
  | emptyV (o : EmptyV)
  /-- EMPTY_H (R200). Marks a handle register empty with no producer. -/
  | emptyH (o : EmptyH)
  /-- BIND (R201). Binds a stream port to a yard ring or ramp channel. -/
  | bind (o : BindO)
  /-- UNBIND (R204). Releases a stream port after draining an output port. -/
  | unbind (o : UnbindO)
  /-- YOUT_ELEMENT_WRITE (R202). An output yard port writes its next element when the ring has room and then increments WCOUNT as a release. -/
  | youtElementWrite (c : CoreId) (port : BitVec 2)
  /-- YIN_READ_AHEAD (R202). An input yard port reads ahead an element once WCOUNT shows one available. -/
  | yinReadAhead (c : CoreId) (port : BitVec 2)
  /-- VECTOR_GRANT (R137). An arbitration ranks eligible queue heads and grants lane groups, marking destinations empty. -/
  | vectorGrant (u : SvuId)
  /-- VECTOR_COMPLETE (R138). A granted vector instruction frees its lane groups and fills its destination after its latency. -/
  | vectorComplete (c : CoreId) (n : Nat)
  /-- HEAD_AGED (R139). An eligible head that has waited AGE cycles becomes aged. -/
  | headAged (c : CoreId)
  /-- VECTOR_TRAP_DELIVERY (R149). A trap of a queued vector instruction is taken at the core's next unit boundary, discarding later entries. -/
  | vectorTrapDelivery (c : CoreId)
  /-- VADD (R159). Vector integer add. -/
  | vadd (o : V3)
  /-- VSUB (R159). Vector integer subtract. -/
  | vsub (o : V3)
  /-- VMUL (R159). Vector integer multiply. -/
  | vmul (o : V3)
  /-- VMULH (R159). Vector integer multiply, high half. -/
  | vmulh (o : V3)
  /-- VMAC (R159). Vector integer multiply-accumulate. -/
  | vmac (o : V3)
  /-- VADDS (R159). Vector saturating add. -/
  | vadds (o : V3)
  /-- VSUBS (R159). Vector saturating subtract. -/
  | vsubs (o : V3)
  /-- VMULS (R159). Vector saturating multiply. -/
  | vmuls (o : V3)
  /-- VMACS (R159). Vector saturating multiply-accumulate. -/
  | vmacs (o : V3)
  /-- VMIN (R159). Vector integer minimum. -/
  | vmin (o : V3)
  /-- VMAX (R159). Vector integer maximum. -/
  | vmax (o : V3)
  /-- VAND (R159). Vector AND. -/
  | vand (o : V3)
  /-- VOR (R159). Vector OR. -/
  | vor (o : V3)
  /-- VXOR (R159). Vector XOR. -/
  | vxor (o : V3)
  /-- VANDN (R159). Vector AND NOT. -/
  | vandn (o : V3)
  /-- VSHL (R159). Vector shift left. -/
  | vshl (o : V3)
  /-- VSHR (R159). Vector shift right. -/
  | vshr (o : V3)
  /-- VABS (R159). Vector integer absolute value. -/
  | vabs (o : V2)
  /-- VNEG (R159). Vector integer negation. -/
  | vneg (o : V2)
  /-- VADDW (R159). Vector widening add into a register pair. -/
  | vaddw (o : V3)
  /-- VSUBW (R159). Vector widening subtract. -/
  | vsubw (o : V3)
  /-- VMULW (R159). Vector widening multiply. -/
  | vmulw (o : V3)
  /-- VMACW (R159). Vector widening multiply-accumulate. -/
  | vmacw (o : V3)
  /-- VCMP_EQ (R159). Vector integer equality into a mask. -/
  | vcmpEq (o : VC3)
  /-- VCMP_NE (R159). Vector integer inequality into a mask. -/
  | vcmpNe (o : VC3)
  /-- VCMP_LT (R159). Vector integer less-than into a mask. -/
  | vcmpLt (o : VC3)
  /-- VCMP_LE (R159). Vector integer less-or-equal into a mask. -/
  | vcmpLe (o : VC3)
  /-- VFADD (R160). Vector floating add, rounded in mode RM. -/
  | vfadd (o : V3R)
  /-- VFSUB (R160). Vector floating subtract. -/
  | vfsub (o : V3R)
  /-- VFMUL (R160). Vector floating multiply. -/
  | vfmul (o : V3R)
  /-- VFMA (R160). Vector fused multiply-add. -/
  | vfma (o : V3R)
  /-- VFMULW (R160). Vector widening floating multiply. -/
  | vfmulw (o : V3R)
  /-- VFMAW (R160). Vector widening fused multiply-add. -/
  | vfmaw (o : V3R)
  /-- VFMUL2 (R160). Vector multiply by TWO8 weights. -/
  | vfmul2 (o : V3R)
  /-- VFMIN (R161). Vector floating minimum. -/
  | vfmin (o : V3)
  /-- VFMAX (R161). Vector floating maximum. -/
  | vfmax (o : V3)
  /-- VFABS (R161). Vector floating absolute value. -/
  | vfabs (o : V2)
  /-- VFNEG (R161). Vector floating negation. -/
  | vfneg (o : V2)
  /-- VFCMP_EQ (R161). Vector floating equality into a mask. -/
  | vfcmpEq (o : VC3)
  /-- VFCMP_LT (R161). Vector floating less-than into a mask. -/
  | vfcmpLt (o : VC3)
  /-- VFCMP_LE (R161). Vector floating less-or-equal into a mask. -/
  | vfcmpLe (o : VC3)
  /-- VFCMP_UN (R161). Vector unordered test into a mask. -/
  | vfcmpUn (o : VC3)
  /-- VADD_VS (R162). Adds a scalar to each element. -/
  | vaddVs (o : VS)
  /-- VADDS_VS (R162). Saturating add of a scalar. -/
  | vaddsVs (o : VS)
  /-- VSUB_VS (R162). Subtracts a scalar from each element. -/
  | vsubVs (o : VS)
  /-- VSUBS_VS (R162). Saturating subtract of a scalar. -/
  | vsubsVs (o : VS)
  /-- VRSUB_VS (R162). Subtracts each element from a scalar. -/
  | vrsubVs (o : VS)
  /-- VRSUBS_VS (R162). Saturating reverse subtract from a scalar. -/
  | vrsubsVs (o : VS)
  /-- VMUL_VS (R162). Multiplies each element by a scalar. -/
  | vmulVs (o : VS)
  /-- VMULS_VS (R162). Saturating multiply by a scalar. -/
  | vmulsVs (o : VS)
  /-- VMAC_VS (R162). Multiply-accumulate with a scalar. -/
  | vmacVs (o : VS)
  /-- VMACS_VS (R162). Saturating multiply-accumulate with a scalar. -/
  | vmacsVs (o : VS)
  /-- VMIN_VS (R162). Minimum of each element and a scalar. -/
  | vminVs (o : VS)
  /-- VMAX_VS (R162). Maximum of each element and a scalar. -/
  | vmaxVs (o : VS)
  /-- VAND_VS (R162). AND with a scalar. -/
  | vandVs (o : VS)
  /-- VOR_VS (R162). OR with a scalar. -/
  | vorVs (o : VS)
  /-- VXOR_VS (R162). XOR with a scalar. -/
  | vxorVs (o : VS)
  /-- VSHL_VS (R162). Shift left by a scalar count. -/
  | vshlVs (o : VS)
  /-- VSHR_VS (R162). Shift right by a scalar count. -/
  | vshrVs (o : VS)
  /-- VSPLAT (R162). Writes a scalar's raw bits to every active element. -/
  | vsplat (o : VSp)
  /-- VSLUP (R162). Slides elements up by a scalar count, filling with zero. -/
  | vslup (o : VS)
  /-- VROTUP (R162). Rotates elements up by a scalar count. -/
  | vrotup (o : VS)
  /-- VSLDN (R162). Slides elements down by a scalar count, filling with zero. -/
  | vsldn (o : VS)
  /-- VROTDN (R162). Rotates elements down by a scalar count. -/
  | vrotdn (o : VS)
  /-- VGET (R163). Writes element 0 of a vector register into a g register. -/
  | vget (o : VG)
  /-- VCVT (R165). Converts elements between types without saturation. -/
  | vcvt (o : Cvt)
  /-- VCVTS (R165). Converts elements between types with saturation. -/
  | vcvts (o : Cvt)
  /-- VBPACK16 (R166). Packs values into a block-scaled chunk with blocks of 16. -/
  | vbpack16 (o : Pack)
  /-- VBPACK32 (R166). Packs values into a block-scaled chunk with blocks of 32. -/
  | vbpack32 (o : Pack)
  /-- VBPACK64 (R166). Packs values into a block-scaled chunk with blocks of 64. -/
  | vbpack64 (o : Pack)
  /-- VBUNPACK16 (R167). Unpacks a block-scaled chunk with blocks of 16. -/
  | vbunpack16 (o : Cvt)
  /-- VBUNPACK32 (R167). Unpacks a block-scaled chunk with blocks of 32. -/
  | vbunpack32 (o : Cvt)
  /-- VBUNPACK64 (R167). Unpacks a block-scaled chunk with blocks of 64. -/
  | vbunpack64 (o : Cvt)
  /-- VMOV (R168). Copies active elements. -/
  | vmov (o : V2)
  /-- VMERGE (R168). Selects elements of VA or VB by mask. -/
  | vmerge (o : V3)
  /-- VPERM (R168). Permutes elements by an index group. -/
  | vperm (o : V3)
  /-- VCOMPRESS (R168). Packs active elements to the low positions. -/
  | vcompress (o : V2)
  /-- VEXPAND (R168). Spreads low elements to active positions. -/
  | vexpand (o : V2)
  /-- VGATHER (R169). Gathers elements from local memory by an address group. -/
  | vgather (o : V2)
  /-- VSCATTER (R169). Scatters elements to local memory by an address group. -/
  | vscatter (o : VSc)
  /-- VZIP (R168). Interleaves two registers into a pair. -/
  | vzip (o : VZ)
  /-- VUNZIP (R168). De-interleaves a pair into two halves. -/
  | vunzip (o : VU)
  /-- VREV (R168). Reverses element order. -/
  | vrev (o : V2)
  /-- VRSUM (R170). Grouped tree sum. -/
  | vrsum (o : V2C)
  /-- VRMIN (R170). Grouped tree minimum. -/
  | vrmin (o : V2C)
  /-- VRMAX (R170). Grouped tree maximum. -/
  | vrmax (o : V2C)
  /-- VRSUMW (R170). Grouped widening tree sum. -/
  | vrsumw (o : V2C)
  /-- VDOT (R170). Grouped dot product. -/
  | vdot (o : V3C)
  /-- VDOTA (R170). Grouped dot product accumulated into VD. -/
  | vdota (o : V3C)
  /-- VDOT2 (R170). Grouped dot product with TWO8 weights. -/
  | vdot2 (o : V3C)
  /-- VDOT2A (R170). Accumulating grouped dot product with TWO8 weights. -/
  | vdot2a (o : V3C)
  /-- VRCP (R171). Vector reciprocal approximation. -/
  | vrcp (o : V2)
  /-- VRSQ (R171). Vector reciprocal square-root approximation. -/
  | vrsq (o : V2)
  /-- VREF_RCP (R171). Vector reciprocal refinement. -/
  | vrefRcp (o : V3)
  /-- VREF_RSQ (R171). Vector reciprocal square-root refinement. -/
  | vrefRsq (o : V3)
  /-- VSQRT (R172). Vector square root. -/
  | vsqrt (o : V2)
  /-- VEXP2 (R172). Vector 2^x. -/
  | vexp2 (o : V2)
  /-- VEXP (R172). Vector e^x. -/
  | vexp (o : V2)
  /-- VLOG2 (R172). Vector log2. -/
  | vlog2 (o : V2)
  /-- VTANH (R172). Vector tanh. -/
  | vtanh (o : V2)
  /-- VSIG (R172). Vector sigmoid. -/
  | vsig (o : V2)
  /-- MAND (R173). Mask AND. -/
  | mand (o : M3)
  /-- MOR (R173). Mask OR. -/
  | mor (o : M3)
  /-- MXOR (R173). Mask XOR. -/
  | mxor (o : M3)
  /-- MANDN (R173). Mask AND NOT. -/
  | mandn (o : M3)
  /-- MNOT (R173). Mask NOT. -/
  | mnot (o : M2)
  /-- MMOV (R173). Mask copy. -/
  | mmov (o : M2)
  /-- MFIRST (R173). Keeps only the lowest set mask bit below n. -/
  | mfirst (o : M2T)
  /-- VIOTA (R173). Writes each active element's index. -/
  | viota (o : VIo)
  /-- VMPOPC (R173). Counts the set mask bits below n. -/
  | vmpopc (o : VPc)
  /-- VMTOV (R173). Converts mask bits to element values 1 or 0. -/
  | vmtov (o : VMv)
  /-- VVTOM (R173). Sets mask bits for non-zero active elements. -/
  | vvtom (o : VTm)
  /-- VANY (R173). Sets a predicate if any mask bit below n is set. -/
  | vany (o : MPr)
  /-- VALL (R173). Sets a predicate if every mask bit below n is set. -/
  | vall (o : MPr)
  /-- VCHAIN (R177). Streams local element arrays through up to eight operations and writes the output. -/
  | vchain (o : ChainO)
  /-- RINJ (R240). Injects a tile from local memory at the core's station. -/
  | rinj (o : RinjO)
  /-- RINJR (R241). A ramp core injects a tile at a named station of a named cluster. -/
  | rinjr (o : RinjrO)
  /-- RPARK (R243). Moves the station's through tile into a lay-by slot as parked. -/
  | rpark (o : RparkO)
  /-- RUNPARK (R243). Makes a parked lay-by tile queued again. -/
  | runpark (o : RunpO)
  /-- RTIRE (R243). Forcibly retires a tile at the station. -/
  | rtire (o : RtireO)
  /-- RSTAT (R244). Returns the ring status word, tainted. -/
  | rstat (o : XD)
  /-- RWAIT (R244). Waits for the ring to become DONE and acquires its tasks' writes. -/
  | rwait (o : XD)
  /-- RSTART (R245). Moves a LOADING ring to RUNNING. -/
  | rstart (o : XQ)
  /-- RRESET (R245). Discards tiles and returns the ring to IDLE. -/
  | rreset (o : XQ)
  /-- RMODE (R245). Sets the ring mode and recording. -/
  | rmode (o : RmodeO)
  /-- TILE_DEPARTURE (R213). A through tile departs its station, decrementing HOPS and leaving a wake copy. -/
  | tileDeparture (k : ClusterId) (fam : Fam) (st : BitVec 6)
  /-- BEAT (R214). In beat-locked mode every departure of a beat takes place in one cycle. -/
  | beat (k : ClusterId)
  /-- TILE_ARRIVAL (R219). A tile arrives at the next station after 17 cycles and its pair checks are made. -/
  | tileArrival (k : ClusterId) (fam : Fam) (st : BitVec 6)
  /-- HELD_MEETING_TAKEN (R218). A held meeting is taken in the first cycle the station queue has room. -/
  | heldMeetingTaken (k : ClusterId) (st : BitVec 6)
  /-- QUEUED_TILE_ENTRY (R211). A queued lay-by tile enters the through position when it is free. -/
  | queuedTileEntry (k : ClusterId) (fam : Fam) (st : BitVec 6)
  /-- SPENT_TILE_TO_LAYBY (R213). A spent tile moves into a free lay-by slot in the next cycle. -/
  | spentTileToLayby (k : ClusterId) (fam : Fam) (st : BitVec 6)
  /-- SPENT_TILE_RETIRE (R221). Spent tiles retire once no live unspent tile of the other family remains. -/
  | spentTileRetire (k : ClusterId) (fam : Fam)
  /-- WAKE_EXPIRY (R210). A wake copy's 17-cycle life ends. -/
  | wakeExpiry (k : ClusterId) (fam : Fam) (st : BitVec 6)
  /-- RING_DONE (R222). A running ring with every tile retired and every task ended becomes DONE and releases the tasks' writes. -/
  | ringDone (k : ClusterId)
  /-- RING_FAULT (R234). An uncorrectable header or junction error stops the ring and rolls back the gang. -/
  | ringFault (k : ClusterId)
  /-- JWR (R247). Writes a junction-table entry from a local record. -/
  | jwr (o : XA)
  /-- JRD (R248). Reads a junction-table entry to local memory. -/
  | jrd (o : JrdO)
  /-- JOIN (R250). Adds the core to a convoy. -/
  | join (o : ConvO)
  /-- LEAVE (R250). Removes the core from a convoy. -/
  | leave (o : ConvO)
  /-- BAR (R251). Releases, arrives at the convoy's generation and waits for it. -/
  | bar (o : BarO)
  /-- GENERATION_COMPLETE (R228). A generation completes when the convoy is mustered and every required member has arrived, releasing the waiters. -/
  | generationComplete (l : Nat) (die : BitVec 4) (id : BitVec 12)
  /-- ABORT (R252). Raises the abort line of the launch. -/
  | abort (o : XQ)
  /-- ABORT_LINE_ARRIVAL (R231). The raised abort line reaches a cluster, discarding its tiles and queues and cancelling its copies. -/
  | abortLineArrival (l : Nat) (k : ClusterId)
  /-- ABCHK (R252). Samples the abort line and traps ABORTED if raised. -/
  | abchk (o : XQ)
  /-- SSTEP (R253). Waits for producers, queue and ring, releases and arrives at the gang's superstep barrier. -/
  | sstep (o : XD)
  /-- SSTEP_COMPLETE (R253). Once every member has arrived, shadows are emptied, checkpoints captured, SERVICE cleared and SSTEPNO advanced. -/
  | sstepComplete (l : Nat) (gang : Nat)
  /-- TRIG (R255). Marks the member triggered after a release at die scope. -/
  | trig (o : XQ)
  /-- ALEASE (R290). Claims and binds an accumulator window, stalling until one is free. -/
  | alease (o : AleaseO)
  /-- AFREE (R291). Waits for the window's entries and frees it. -/
  | afree (o : XA)
  /-- OPASS (R293). Checks and appends a forward pass to the lease's chain. -/
  | opass (o : XHAB)
  /-- OPASSR (R293). Checks and appends a reverse pass to the lease's chain. -/
  | opassr (o : XHAB)
  /-- OPROBE (R295). Appends a probe entry that activates and probes an image. -/
  | oprobe (o : XHAB)
  /-- PASS_GRANT (R278). At a pass boundary the mesh ranks ready entries, swaps or starts a load, and grants one. -/
  | passGrant (m : MeshId)
  /-- PASS_END (R270). A pass's last code is converted; it commits or joins the guard-mode commit group. -/
  | passEnd (m : MeshId)
  /-- PASS_COMMIT (R271). A pass's outputs are applied to its window and its handle filled in chain order. -/
  | passCommit (m : MeshId)
  /-- BANK_LOAD_COMPLETE (R264). An image has been decompressed and settled into the inactive bank, or the load fails and marks it bad. -/
  | bankLoadComplete (m : MeshId)
  /-- AUTO_PROBE (R277). The probe interval elapses and a probe closes the commit group. -/
  | autoProbe (m : MeshId)
  /-- THERMAL_UNLOCK (R282). The thermal loop loses lock, which is a drift fault on the active image. -/
  | thermalUnlock (m : MeshId)
  /-- THERMAL_RELOCK (R282). The thermal loop regains lock, allowing a later probe to lift the fence. -/
  | thermalRelock (m : MeshId)
  /-- PHLD (R300). Copies an image record from HBM into the mesh's weight buffer. -/
  | phld (o : XHAB)
  /-- PHDEC (R301). Decomposes an FP32 block from the yard into an image. -/
  | phdec (o : XHAB)
  /-- DECOMPOSITION_COMPLETE (R267). A decomposition engine finishes an image and writes it to its granules. -/
  | decompositionComplete (die : BitVec 4) (engine : BitVec 4)
  /-- PHADJ (R303). Adjusts phase codes or trims by deltas and probes. -/
  | phadj (o : XHAB)
  /-- PHWR (R303). Writes phase codes or trims and probes. -/
  | phwr (o : XHAB)
  /-- PHRD (R304). Reads phase codes or trims to the yard. -/
  | phrd (o : XHAB)
  /-- OSTAT (R305). Reads the mesh status word and clears CLIP. -/
  | ostat (o : XDA)
  /-- CHAIN_ENTRY_COMPLETE (R296). A pass, probe or phase chain entry completes with a status and fills its handle in sequence order. -/
  | chainEntryComplete (k : ClusterId) (chain : BitVec 2)
  /-- VRDAC (R307). Reads two window rows into a vector register after the cut's passes complete. -/
  | vrdac (o : VaccO)
  /-- VRDAC_SNOOP (R307). Reads two window rows at once, reflecting whole committed passes. -/
  | vrdacSnoop (o : VaccO)
  /-- VWRAC (R308). Writes a vector register into two window rows. -/
  | vwrac (o : VaccO)
  /-- ACLR (R308). Clears window rows to +0. -/
  | aclr (o : AclrO)
  /-- GLD (R315). A ramp core loads 8 bytes from HBM. -/
  | gld (o : GldO)
  /-- GST (R315). A ramp core stores 8 bytes to HBM. -/
  | gst (o : GstO)
  /-- GLDV (R315). Loads 512 bytes from HBM or a cluster's yard. -/
  | gldv (o : GvO)
  /-- GSTV (R315). Stores 512 bytes to HBM or a cluster's yard. -/
  | gstv (o : GvO)
  /-- GLDT (R316). Typed load of a register's elements or a chunk by index. -/
  | gldt (o : GtO)
  /-- GSTT (R316). Typed store of a register's elements or a chunk by index. -/
  | gstt (o : GtO)
  /-- GRED (R317). Issues a relaxed reduction at the line's home slice. -/
  | gred (o : GredO)
  /-- REDUCTION_PERFORM (R317). A reduction is performed at the home slice, invalidating L1 copies. -/
  | reductionPerform (c : CoreId)
  /-- GSEND (R318). Sends a vector element on a ramp channel once the port has credit. -/
  | gsend (o : GsendO)
  /-- GRECV (R318). Receives a vector element from a ramp channel. -/
  | grecv (o : GrecvO)
  /-- GPFILL (R319). Copies chunks from local memory into pass SRAM slots. -/
  | gpfill (o : GpfO)
  /-- GINJ (R320). Injects a tile whose payload comes from HBM. -/
  | ginj (o : RinjrO)
  /-- TMLD (R323). Walks a tensor map and fills local rows, with zero fill outside the tensor. -/
  | tmld (o : TmO)
  /-- TMST (R324). Walks a tensor map and stores in-bounds elements to HBM. -/
  | tmst (o : TmO)
  /-- TMWR (R322). Writes a tensor-map entry from a local record. -/
  | tmwr (o : TmwO)
  /-- TRANSLATION_FAULT (R333). A failed walk or access posts a fault record to its owner and holds or logs the access. -/
  | translationFault (ag : Agent)
  /-- LINE_ALLOCATE (R329). A unit allocates and pins its L2 or RDC line, waiting when every way is pinned. -/
  | lineAllocate (r : LineReq)
  /-- DSTAT (R364). Returns the die's DSTAT, tainted. -/
  | dstat (o : XD)
  /-- DCLR (R364). Clears CONF, HOSTT, SPACE and ADDR of DSTAT. -/
  | dclr (o : XQ)
  /-- DMARK (R364). Logs or replays a value as a KIND 10 decision. -/
  | dmark (o : XA)
  /-- DDRAIN (R364). Waits until earlier log entries are in the log region. -/
  | ddrain (o : XQ)
  /-- LOG_DRAIN (R359). The drainer copies a log entry to the log region, or stops recording when it is exhausted. -/
  | logDrain (die : BitVec 4)
  /-- REPLAY_DIVERGENCE (R362). A replayed decision that does not match traps REPLAY_DIVERGE and posts a divergence record. -/
  | replayDivergence (c : CoreId)
  /-- DOORBELL (R367). A doorbell write stores a queue tail and sets its pending-kick bit. -/
  | doorbell (die : BitVec 4) (queue : BitVec 8) (tail : BitVec 16)
  /-- KICK_TAKE (R367). The scheduler serves a set bit, clears it, reads the tail and takes the entries. -/
  | kickTake (die : BitVec 4)
  /-- GANG_PLACE (R372). Resources are taken for a gang, junction tables loaded, and every member starts together. -/
  | gangPlace (die : BitVec 4)
  /-- PRIORITY_AGEING (R370). A waiting launch's effective priority rises after each ageing interval. -/
  | priorityAgeing (l : Nat)
  /-- PREEMPTION_STOP (R377). A launch is stopped, drained and captured in an image. -/
  | preemptionStop (l : Nat)
  /-- LAUNCH_RESTORE (R378). A pre-empted launch is restored from its image chain once its resources are free. -/
  | launchRestore (l : Nat)
  /-- SUPERSTEP_ROLLBACK (R381). The gang is parked and returned to its last barrier state, or completed CAST_NEEDED. -/
  | superstepRollback (l : Nat) (gang : Nat)
  /-- THIRD_RUN (R387). A disagreeing superstep runs a third time and settles the disagreement. -/
  | thirdRun (l : Nat) (gang : Nat)
  /-- HELD_BUFFER_FULL (R386). A full held-write buffer performs the primary's writes at once. -/
  | heldBufferFull (l : Nat)
  /-- LLIM_EXPIRY (R365). A launch that has held clusters for LLIM is killed. -/
  | llimExpiry (l : Nat)
  /-- QUANTUM_EXPIRY (R376). A running launch reaches its quantum and becomes eligible for pre-emption. -/
  | quantumExpiry (l : Nat)
  /-- SCHEDULER_TAKEOVER (R383). The standby scheduler core fences the active one, replays the journal and resumes. -/
  | schedulerTakeover (die : BitVec 4)
  /-- LAUNCH_COMPLETE (R388). A completion record is appended to the completion ring and the command die notified. -/
  | launchComplete (l : Nat)
  /-- PART_CREATE (R399). Creates a partition with its dies and stage-2 root. -/
  | partCreate (cmd : PkgCmd)
  /-- PART_DESTROY (R399). Ends the partition's launches, erases its key and zeroes its memory. -/
  | partDestroy (cmd : PkgCmd)
  /-- VF_SET (R400). Sets a virtual function's partition, stage-1 root and SYS. -/
  | vfSet (cmd : PkgCmd)
  /-- FAULT_REPLY (R395). The owner answers a fault record with retry or decline. -/
  | faultReply (cmd : PkgCmd)
  /-- PREEMPT (R395). Level-1 software requests pre-emption of a launch. -/
  | preempt (cmd : PkgCmd)
  /-- UNIT_RETURN (R395). The hypervisor returns a quarantined unit to placement. -/
  | unitReturn (cmd : PkgCmd)
  /-- EXTEND (R405). Extends the partition measurement and erases a held sealing key. -/
  | extend (cmd : PkgCmd)
  /-- SEAL_JOIN (R408). Obtains the tenant sealing key from a peer or starts a new seal group. -/
  | sealJoin (cmd : PkgCmd) (peer : SealPeer)
  /-- RESTORE (R413). Verifies and restores a cast into the partition's ranges. -/
  | restore (cmd : PkgCmd)
  /-- PCAST (R412). Checks a cast descriptor and hands the cast to the pour engine. -/
  | pcast (o : XHA)
  /-- PCTR (R412). Returns the partition's counter C, tainted. -/
  | pctr (o : XD)
  /-- PQUOTE (R412). Writes a signed attestation report over a yard nonce. -/
  | pquote (o : XHA)
  /-- COW_PRECOPY (R410). A write to an undrained marked page waits while its pre-image is staged. -/
  | cowPrecopy (part : BitVec 4) (page : Nat)
  /-- POUR_DRAIN (R412). The pour engine encrypts and sends a segment of a cast. -/
  | pourDrain (part : BitVec 4)
  /-- CAST_COMPLETE (R412). The target's acknowledgement of the last byte sets C and fills the cast handle DONE. -/
  | castComplete (part : BitVec 4)
  /-- SECURITY_ALARM (R411). A sensor event applies its alarm class. -/
  | securityAlarm (sensor : BitVec 2)
  /-- BRING_UP (R415). The package verifies its store, trains links and HBM, calibrates meshes and starts the schedulers. -/
  | bringUp
  /-- POWER_CAP_THROTTLE (R416). Measured power reaching POWERCAP lowers clocks and sample rate in steps. -/
  | powerCapThrottle (watts : Nat)
  /-- POWER_RESTORE_CLOCKS (R416). Clocks are restored as power falls. -/
  | powerRestoreClocks (watts : Nat)
  /-- FPUT (R437). Sends bytes to a peer address. -/
  | fput (o : FputO)
  /-- FGET (R437). Requests bytes from a peer address. -/
  | fget (o : FgetO)
  /-- FSEND (R438). Sends a 16-byte message to a queue window. -/
  | fsend (o : FsendO)
  /-- FRECV (R438). Dequeues a fabric message and acquires earlier ordered writes. -/
  | frecv (o : FrecvO)
  /-- FCUT (R439). Broadcasts a cut marker for a collective step. -/
  | fcut (o : FcutO)
  /-- FWIN (R440). Writes a peer window record. -/
  | fwin (o : FwinO)
  /-- FCTL_POLICY (R440). Sets the fabric policy word AUTOEX and LATEDROP. -/
  | fctlPolicy (o : FctlO)
  /-- FCTL_EXCISE (R440). Excises a port from the frontier. -/
  | fctlExcise (o : FctlO)
  /-- FCTL_READMIT (R440). Readmits a port to the frontier. -/
  | fctlReadmit (o : FctlO)
  /-- FPSTAT (R440). Returns a port status word, tainted. -/
  | fpstat (o : FpstO)
  /-- FABRIC_PACKET_SEND (R426). The fabric engine stamps and injects a command's packets. -/
  | fabricPacketSend (die : BitVec 4)
  /-- FABRIC_ACK (R436). Acknowledgements or get data arrive, and the command's handle fills in sequence order. -/
  | fabricAck (p : Packet)
  /-- ORDERED_ARRIVAL (R431). An ordered packet arrives and waits in the ordered-delivery buffer, or is found late. -/
  | orderedArrival (port : BitVec 3) (p : Packet)
  /-- ORDERED_DELIVERY (R430). An ordered packet is delivered once the frontier passes its stamp. -/
  | orderedDelivery
  /-- UNORDERED_ARRIVAL (R430). An unordered packet is admitted and performed on arrival. -/
  | unorderedArrival (p : Packet)
  /-- MILESTONE_RECEIVE (R430). A milestone flit advances a port's last milestone and the frontier. -/
  | milestoneReceive (port : BitVec 3) (stamp : Nat)
  /-- WAYMARK (R429). After BEACON with no data waiting, a port sends a milestone flit. -/
  | waymark (port : BitVec 3)
  /-- MILESTONE_SEND (R429). After 256 data flits a port sends an advanced milestone. -/
  | milestoneSend (port : BitVec 3)
  /-- FLIT_REPLAY (R418). An uncorrectable codeword discards flits and the sender replays them. -/
  | flitReplay (port : PortLoss)
  /-- LANE_FAIL (R417). A lane that loses signal is taken out of service. -/
  | laneFail (port : PortLoss) (lane : BitVec 7)
  /-- LINK_DOWN (R418). A port goes DOWN and raises a link-down fault. -/
  | linkDown (port : PortLoss)
  /-- ROUTE_RECOMPUTE (R422). Routing tables are recomputed after a link failure, holding affected packets. -/
  | routeRecompute
  /-- STALLED_WATERMARK (R432). A port's milestone unchanged for STALL raises a fault and is excised under AUTOEX. -/
  | stalledWatermark (port : BitVec 3)
  /-- PORT_READMIT (R433). An excised port whose milestone reaches the delivered frontier is readmitted. -/
  | portReadmit (port : BitVec 3)
  /-- TIMESTAMP_EXCHANGE (R421). Links exchange timestamps every 1 µs and steer fabric time, raising a sync fault beyond 1 ns. -/
  | timestampExchange (peer : ClockPeer) (offset : Int)
  /-- RESERVED_WORD (R50). A core decodes a unit whose word 0 has a reserved major, is the all-zero or all-ones word, or has major 0x1A or 0x1B on an ordinary core, and traps RESERVED_CODE at decode. -/
  | reservedWord (w0 : Word) (w1 : Word) (value : Word)
  /-- CHECK_WINDOW_EXPIRY (R150). The check window of 2^30 core cycles after a PIPE_CHECK runs out, so a later PIPE_CHECK on that core or unit is no longer a second one. -/
  | checkWindowExpiry (unit : CheckUnit)
  /-- TRANSLATION_CHANGE (R325). A change of a translation by the owning system software or hypervisor invalidates every ramp-core L1 line, and every group TLB entry, that it covered. -/
  | translationChange (part : BitVec 4) (va : Nat) (len : Nat)
  /-- SCHEDULER_PAIR_FAILURE (R384). Both scheduler cores of a die fail, and the supervisor core completes every launch of the die DIE_LOST through the command die. -/
  | schedulerPairFailure (die : BitVec 4)
  /-- PORT_UP (R417). A Tymas port trains, learns its neighbour's package ID and enters state UP, for example a port returning after it went DOWN. -/
  | portUp (port : BitVec 3) (nbr : BitVec 20)
  deriving DecidableEq, Repr
end Sys2Proof
end

