-- ==== Sys2Proof/WellFormed.lean ====
section
/-! DEFINITION. Which terms of Instr the spec gives a meaning: the element types an entry accepts, the
subfield values it defines (R47 to R49), and the kind of core a form is available on (R50, R237,
R286, R313). An instruction that breaks one of these is RESERVED_CODE at decode. -/

namespace Sys2Proof

/-- Width in bits (R68). -/
def ETy.width : ETy → Nat
  | .i4 | .n4 | .e2m1 => 4
  | .i8 | .n8 | .e4m3 | .e5m2 | .two8 | .x8 => 8
  | .i16 | .n16 | .f16 | .bf16 => 16
  | .i32 | .n32 | .f32 => 32

/-- The integer types, T 0x0 to 0x7 (R68). -/
def ETy.isInt : ETy → Bool
  | .i4 | .n4 | .i8 | .n8 | .i16 | .n16 | .i32 | .n32 => true
  | _ => false

/-- The I types (R70). -/
def ETy.isSigned : ETy → Bool
  | .i4 | .i8 | .i16 | .i32 => true
  | _ => false

/-- F16, BF16 and F32, the types of floating element arithmetic (R160). -/
def ETy.isFlt : ETy → Bool
  | .f16 | .bf16 | .f32 => true
  | _ => false

/-- The types whose products the pair forms take (R160). -/
def ETy.isWideSrc : ETy → Bool
  | .e4m3 | .e5m2 | .f16 | .bf16 => true
  | _ => false

/-- The types a widening reduction takes (R170). -/
def ETy.isRedSrc : ETy → Bool
  | .i32 | .n32 => false
  | .e2m1 | .e4m3 | .e5m2 | .f16 | .bf16 => true
  | t => t.isInt

/-- T 0x0 to 0x5: integer types with a type of twice the width (R159). -/
def ETy.isNarrowInt (t : ETy) : Bool := t.isInt && t.width ≤ 16

/-- Widths whose ratio is 1, 2 or 4 (R152, R165). -/
def ratioOk (a b : ETy) : Bool := max a.width b.width ≤ 4 * min a.width b.width

/-- A pack's types: plain source, destination no wider and at most four times narrower (R166). -/
def packOk (s t : ETy) : Bool := s.isFlt && t ≠ .x8 && t.width ≤ s.width && ratioOk s t

/-- An unpack's types (R167). -/
def unpackOk (s t : ETy) : Bool := t.isFlt && s ≠ .x8 && s.width ≤ t.width && ratioOk s t

/-- A SCOPE of 6 or 7 is reserved (R190, R193, R237). -/
def scopeOk (s : BitVec 3) : Bool := s.toNat < 6

/-- The system register numbers of R120. -/
def sysregKnown (n : BitVec 12) : Bool :=
  n.toNat ∈ [0x000, 0x001, 0x002, 0x003, 0x004, 0x005, 0x006, 0x008, 0x009, 0x00A, 0x00B, 0x00C,
    0x00D, 0x010, 0x011, 0x012]

/-- The system registers that some level may write (R120). -/
def sysregWritable (n : BitVec 12) : Bool := n.toNat ∈ [0x005, 0x006, 0x008, 0x009, 0x00A, 0x00B]

/-- The checks on word 0: element types an entry does not define, and aop.load's unused B. -/
def Instr.wf0 : Instr → Bool
  | .vadd o | .vsub o | .vmul o | .vmulh o | .vmac o | .vadds o | .vsubs o | .vmuls o | .vmacs o
  | .vmin o | .vmax o | .vand o | .vor o | .vxor o | .vandn o | .vshl o | .vshr o => o.t.isInt
  | .vneg o => o.t.isInt
  | .vabs o => o.t.isSigned
  | .vaddw o | .vsubw o | .vmulw o | .vmacw o => o.t.isNarrowInt
  | .vcmpEq o | .vcmpNe o | .vcmpLt o | .vcmpLe o => o.t.isInt
  | .vfadd o | .vfsub o | .vfmul o | .vfma o | .vfmul2 o => o.t.isFlt
  | .vfmulw o | .vfmaw o => o.t.isWideSrc
  | .vfmin o | .vfmax o => o.t.isFlt
  | .vfabs o | .vfneg o => o.t.isFlt
  | .vfcmpEq o | .vfcmpLt o | .vfcmpLe o | .vfcmpUn o => o.t.isFlt
  | .vaddVs o | .vaddsVs o | .vsubVs o | .vsubsVs o | .vrsubVs o | .vrsubsVs o | .vmulVs o
  | .vmulsVs o | .vmacVs o | .vmacsVs o | .vminVs o | .vmaxVs o => o.t.isInt || o.t.isFlt
  | .vandVs o | .vorVs o | .vxorVs o | .vshlVs o | .vshrVs o => o.t.isInt
  | .vcvt o | .vcvts o => ratioOk o.s o.t
  | .vbpack16 o | .vbpack32 o | .vbpack64 o => packOk o.s o.t
  | .vbunpack16 o | .vbunpack32 o | .vbunpack64 o => unpackOk o.s o.t
  | .vgather o => 8 ≤ o.t.width
  | .vscatter o => 8 ≤ o.t.width
  | .vrsum o | .vrmin o | .vrmax o => o.t.isInt || o.t.isFlt
  | .vrsumw o => o.t.isRedSrc
  | .vdot o | .vdota o => o.t.isRedSrc || o.t = .f32
  | .vdot2 o | .vdot2a o => o.t.isFlt
  | .vrcp o | .vrsq o | .vsqrt o | .vexp2 o | .vexp o | .vlog2 o | .vtanh o | .vsig o => o.t.isFlt
  | .vrefRcp o | .vrefRsq o => o.t.isFlt
  | .viota o => o.t.isInt
  | .vmtov o => o.t.isInt || o.t.isFlt
  | .vvtom o => o.t ≠ .x8
  | .aop o => o.op ≠ 11 || o.b = 0
  | _ => true

/-- The checks on the extension word: subfield values an entry does not define. -/
def Instr.wfExt : Instr → Bool
  | .mfs o => sysregKnown o.n
  | .mts o => sysregWritable o.n
  | .aop o => scopeOk o.scope && o.op.toNat < 12 && (o.ord ≠ 0 || (o.scope = 0 && o.smask = 0))
      && (!o.td || o.op = 1) && (o.op ≠ 11 || !o.tb)
  | .hwait o => scopeOk o.scope
  | .fenceAcq o | .fenceRel o | .fenceFull o => scopeOk o.scope
  | .bar o => scopeOk o.scope
  | .rtire o => o.place ≠ 3
  | .gred o => o.op.toNat < 12
  | _ => true

/-- Majors of R40 that only a ramp core decodes. -/
def rampMajor (maj : BitVec 6) : Bool := maj = 0x1A || maj = 0x1B

/-- Whether a form is available on the kind of core that decodes it (R50, R237, R286, R313). -/
def Instr.availableOn (ramp : Bool) : Instr → Bool
  | .cpy _ | .cpyt _ | .cpyc _ | .bind _ | .unbind _ => !ramp
  | .rinj _ | .rpark _ | .runpark _ | .rtire _ | .rstat _ | .rwait _ | .rstart _ | .rreset _
  | .rmode _ | .jwr _ | .jrd _ => !ramp
  | .alease _ | .afree _ | .opass _ | .opassr _ | .oprobe _ => !ramp
  | .phld _ | .phdec _ | .phadj _ | .phwr _ | .phrd _ | .ostat _ => !ramp
  | .vrdac _ | .vrdacSnoop _ | .vwrac _ | .aclr _ => !ramp
  | .rinjr _ => ramp
  | .gld _ | .gst _ | .gldv _ | .gstv _ | .gldt _ | .gstt _ | .gred _ | .gsend _ | .grecv _
  | .gpfill _ | .ginj _ | .tmld _ | .tmst _ | .tmwr _ => ramp
  | _ => true

/-- A well-formed instruction, on some kind of core. -/
def Instr.wf (i : Instr) : Bool := i.wf0 && i.wfExt

end Sys2Proof
end

