-- ==== Sys2Proof/Machine/Flags.lean ====
section
/-! DEFINITION. The five sticky exception flags of FX (R89), one bit each. -/

namespace Sys2Proof.Machine

/-- A set of exception flags, laid out as the FX field of STATUS (R89). -/
abbrev Fx := BitVec 5

/-- Invalid (R89). -/
def Fx.nv : Fx := 16
/-- Divide by zero (R89). -/
def Fx.dz : Fx := 8
/-- Overflow (R89). -/
def Fx.of : Fx := 4
/-- Underflow (R89). -/
def Fx.uf : Fx := 2
/-- Inexact (R89). -/
def Fx.nx : Fx := 1
/-- No flag. -/
def Fx.none : Fx := 0
/-- NX alone when a result differs from the exact value. -/
def Fx.inexact (b : Bool) : Fx := if b then Fx.nx else Fx.none

end Sys2Proof.Machine
end

