-- ==== Sys2Proof/Machine/Number.lean ====
section
/-! DEFINITION. The sixteen element types as exact values (R68 to R79): decoding, rounding and encoding
(R80 to R88), exact arithmetic, comparison, the stochastic-rounding register (R82), the summation tree
(R90) and the function results of R106, R107 and R172. -/

namespace Sys2Proof.Machine

/-- An exact value: NaN, an infinity, or (-1)^s times m times 2^e. -/
inductive Val where
  | nan
  | inf (s : Bool)
  | fin (s : Bool) (m : Nat) (e : Int)
  deriving DecidableEq, Repr

/-- Low n bits. -/
def low (n x : Nat) : Nat := x % 2 ^ n

/-- The signed value of the low w bits of x: sv(x, w) of R93. -/
def svN (w x : Nat) : Int :=
  let y := low w x
  if y < 2 ^ (w - 1) then (y : Int) else (y : Int) - (2 ^ w : Nat)

/-- The w-bit two's-complement pattern of an integer. -/
def wrapInt (w : Nat) (i : Int) : Nat := (i % ((2 ^ w : Nat) : Int)).toNat

/-- m times 2^k for an integer k, rounded down. -/
def shiftInt (m : Nat) (k : Int) : Nat :=
  if 0 ≤ k then m * 2 ^ k.toNat else m / 2 ^ (-k).toNat

/-- An integer as an exact value; zero is +0. -/
def Val.ofInt (i : Int) : Val := .fin (decide (i < 0)) i.natAbs 0

/-- +0. -/
def Val.zero : Val := .fin false 0 0

/-- The value with its sign inverted. -/
def Val.neg : Val → Val
  | .nan => .nan
  | .inf s => .inf (!s)
  | .fin s m e => .fin (!s) m e

/-- The value with its sign cleared. -/
def Val.abs : Val → Val
  | .nan => .nan
  | .inf _ => .inf false
  | .fin _ m e => .fin false m e

/-- Times 2^k, exactly (R76). -/
def Val.scale (k : Int) : Val → Val
  | .nan => .nan
  | .inf s => .inf s
  | .fin s m e => .fin s m (e + k)

/-- Whether the value is NaN. -/
def Val.isNan : Val → Bool
  | .nan => true
  | _ => false

/-- Whether the value is infinite. -/
def Val.isInf : Val → Bool
  | .inf _ => true
  | _ => false

/-- Whether the value is a zero. -/
def Val.isZero : Val → Bool
  | .fin _ m _ => m == 0
  | _ => false

/-- Floor of the base-2 logarithm of m times 2^e, for m > 0. -/
def lg (m : Nat) (e : Int) : Int := (Nat.log2 m : Int) + e

/-! ### Layouts (R71, R72) -/

/-- A binary floating layout: exponent bits, fraction bits, bias, whether it has infinities, the code of
its canonical NaN (0 where it has none), and the code of its largest finite value (R71, R72). -/
structure FLay where
  eb : Nat
  mb : Nat
  bias : Int
  hasInf : Bool
  hasNan : Bool
  nan : Nat
  big : Nat
  deriving DecidableEq, Repr

/-- The layout of a floating type; the other types have none. -/
def ETy.lay : ETy → Option FLay
  | .e2m1 => some ⟨2, 1, 1, false, false, 0, 0x7⟩
  | .e4m3 => some ⟨4, 3, 7, false, true, 0x7F, 0x7E⟩
  | .e5m2 => some ⟨5, 2, 15, true, true, 0x7E, 0x7B⟩
  | .f16 => some ⟨5, 10, 15, true, true, 0x7E00, 0x7BFF⟩
  | .bf16 => some ⟨8, 7, 127, true, true, 0x7FC0, 0x7F7F⟩
  | .f32 => some ⟨8, 23, 127, true, true, 0x7FC00000, 0x7F7FFFFF⟩
  | _ => none

/-- The value of a floating code (R71, R72). -/
def FLay.decode (l : FLay) (c : Nat) : Val :=
  let s := c.testBit (l.eb + l.mb)
  let e := low l.eb (c / 2 ^ l.mb)
  let f := low l.mb c
  if l.hasInf && e == 2 ^ l.eb - 1 then (if f = 0 then .inf s else .nan)
  else if l.hasNan && !l.hasInf && e == 2 ^ l.eb - 1 && f == 2 ^ l.mb - 1 then .nan
  else if e = 0 then .fin s f (1 - l.bias - l.mb)
  else .fin s (f + 2 ^ l.mb) (e - l.bias - l.mb)

/-! ### TWO8 (R73, R74) -/

/-- One term of a TWO8 code, in units of 2^-6 (R73). -/
def two8Term (s : Bool) (e : Nat) : Int :=
  if e = 7 then 0 else (if s then -1 else 1) * ((64 / 2 ^ e : Nat) : Int)

/-- The value of a TWO8 code, in units of 2^-6 (R73). -/
def two8Val (c : Nat) : Int :=
  two8Term (c.testBit 7) (low 3 (c / 16)) + two8Term (c.testBit 3) (low 3 c)

/-- Non-zero terms of a TWO8 code. -/
def two8Terms (c : Nat) : Nat :=
  (if low 3 (c / 16) = 7 then 0 else 1) + (if low 3 c = 7 then 0 else 1)

/-- The codes of a value with n non-zero terms, e1 ≤ e2 or not, least first. -/
def two8Find (v : Int) (n : Nat) (ordered : Bool) : Option Nat :=
  (List.range 256).find? fun c =>
    two8Val c == v && two8Terms c == n && (decide (low 3 (c / 16) ≤ low 3 c) == ordered)

/-- The canonical encoding of a value in units of 2^-6 (R74); none where no code holds it. -/
def two8Canon (v : Int) : Option Nat :=
  if v = 0 then some 0x77
  else ((two8Find v 1 true).or (two8Find v 1 false)).or ((two8Find v 2 true).or (two8Find v 2 false))

/-- Whether n/64 is the magnitude of a TWO8 value: 0, a term, or the sum or difference of two (R73). -/
def two8Rep (n : Nat) : Bool :=
  n == 0 || (List.range 7).any fun i =>
    n == 2 ^ i || (List.range 7).any fun j => n == 2 ^ i + 2 ^ j || n + 2 ^ j == 2 ^ i

/-- Fewest terms that hold n/64 (R81's tie rule). -/
def two8Few (n : Nat) : Nat :=
  if n = 0 then 0 else if (List.range 7).any (fun i => n == 2 ^ i) then 1 else 2

/-- The largest TWO8 magnitude at or below n/64. -/
def two8Down : Nat → Nat
  | 0 => 0
  | n + 1 => if two8Rep (n + 1) then n + 1 else two8Down n

/-- The least TWO8 magnitude above n/64, looking k values up. -/
def two8Up (n : Nat) : Nat → Nat
  | 0 => 128
  | k + 1 => if two8Rep (n + 1) then n + 1 else two8Up (n + 1) k

/-! ### Decoding -/

/-- The exact value of a code of type t (R68 to R75). DESIGN CHOICE (log entry 32): a TWO8 zero, which has no sign
of its own, is +0, so its product with a negative operand is -0. -/
def decodeVal (t : ETy) (c : Nat) : Val :=
  match t with
  | .i4 | .i8 | .i16 | .i32 => .ofInt (svN t.width c)
  | .n4 | .n8 | .n16 | .n32 => .ofInt (low t.width c)
  | .two8 => let v := two8Val (low 8 c); .fin (decide (v < 0)) v.natAbs (-6)
  | .x8 => if low 8 c = 255 then .nan else .fin false 1 ((low 8 c : Int) - 127)
  | _ => match ETy.lay t with
    | some l => l.decode (low t.width c)
    | none => .nan

/-- The zero encoding z(T) (R152). -/
def zeroCode (t : ETy) : Nat := if t = .two8 then 0x77 else 0

/-! ### Rounding (R81) -/

/-- The LFSR of stochastic rounding after one step (R82). -/
def lfsrStep (x : Word) : Word :=
  if x.getLsbD 0 then (x >>> 1) ^^^ 0x80200003#32 else x >>> 1

/-- Whether the magnitude lying num/den of the way from a to its successor rounds up: lsb of a, sign. -/
def roundUp (rm : Rm) (s lsb : Bool) (num den r : Nat) : Bool :=
  match rm with
  | .rne => den < 2 * num || (2 * num == den && lsb)
  | .rtz => false
  | .rdn => s
  | .rup => !s
  | .rs => 2 ^ 32 ≤ num * 2 ^ 32 / den + r
  | .rto => !lsb

/-- Round the magnitude m times 2^k to an integer (R81); the second part says whether it was inexact. -/
def roundGrid (rm : Rm) (s : Bool) (m : Nat) (k : Int) (r : Nat) : Nat × Bool :=
  if 0 ≤ k then (m * 2 ^ k.toNat, false)
  else
    let d := 2 ^ (-k).toNat
    let n := m / d
    let rem := m % d
    if rem = 0 then (n, false)
    else (n + if roundUp rm s (n % 2 == 1) rem d r then 1 else 0, true)

/-- The range of an integer type (R68). -/
def intLo (t : ETy) : Int := if t.isSigned then -((2 ^ (t.width - 1) : Nat) : Int) else 0
def intHi (t : ETy) : Int :=
  if t.isSigned then ((2 ^ (t.width - 1) : Nat) : Int) - 1 else ((2 ^ t.width : Nat) : Int) - 1

/-- Encode into a w-bit integer range, saturating (R88). -/
def encodeRange (w : Nat) (lo hi : Int) (rm : Rm) (r : Nat) : Val → Nat × Fx
  | .nan => (0, Fx.nv)
  | .inf s => (wrapInt w (if s then lo else hi), Fx.nv ||| Fx.nx)
  | .fin s m e =>
    let (n, ix) := roundGrid rm s m e r
    let v : Int := if s then -(n : Int) else n
    if v < lo then (wrapInt w lo, Fx.nv ||| Fx.nx)
    else if hi < v then (wrapInt w hi, Fx.nv ||| Fx.nx)
    else (wrapInt w v, Fx.inexact ix)

/-- Encode into X8 from the magnitude (R81, R86, R87). A zero becomes 2^-127: it raises UF by R86 and, since the
result differs from the exact value, NX by R89. -/
def encodeX8 (rm : Rm) (sat : Bool) (r : Nat) : Val → Nat × Fx
  | .nan => (0xFF, Fx.none)
  | .inf _ => if sat then (0xFE, Fx.none) else (0xFF, Fx.of ||| Fx.nx)
  | .fin _ m e =>
    if m = 0 then (0, Fx.uf ||| Fx.nx)
    else
      let l := Nat.log2 m
      let rem := m - 2 ^ l
      let base : Int := (l : Int) + e + 127
      let code : Int := if rem ≠ 0 && roundUp rm false (base % 2 != 0) rem (2 ^ l) r then base + 1 else base
      if code < 0 then (0, Fx.uf ||| Fx.nx)
      else if 254 < code then ((if sat then 0xFE else 0xFF), Fx.of ||| Fx.nx)
      else (code.toNat, Fx.inexact (rem != 0))

/-- Encode into TWO8 (R74, R81, R86, R87). -/
def encodeTwo8 (rm : Rm) (r : Nat) : Val → Nat × Fx
  | .nan => (0x77, Fx.nv)
  | .inf s => ((two8Canon (if s then -128 else 128)).getD 0, Fx.none)
  | .fin s m e =>
    let sg (n : Nat) : Nat := (two8Canon (if s then -(n : Int) else n)).getD 0
    let d := 2 ^ (-(e + 6)).toNat
    let x := m * 2 ^ (e + 6).toNat
    if 128 * d < x then (sg 128, Fx.of ||| Fx.nx)
    else
      let a := two8Down (x / d)
      if a * d = x then (sg a, Fx.none)
      else
        let b := two8Up a 128
        let num := x - a * d
        let den := (b - a) * d
        let up := match rm with
          | .rne => den < 2 * num || (2 * num == den && decide (two8Few b < two8Few a))
          | rm => roundUp rm s false num den r
        (sg (if up then b else a), Fx.nx)

/-- Encode into a floating layout: rounded once with an unbounded exponent, then R87; the saturating
forms and E2M1 give the largest finite value. DESIGN CHOICE (log entry 32): an unsaturated rto overflow gives the
infinity of R87's table, though R85 would have the finite value of a chain's direct conversion; and an infinity that
stays one gives R86's plain infinity and no flag, in rtz too, though R87 calls it an overflow. -/
def FLay.encode (l : FLay) (rm : Rm) (sat : Bool) (r : Nat) : Val → Nat × Fx
  | .nan => if l.hasNan then (l.nan, Fx.none) else (0, Fx.nv)
  | .inf s =>
    let sb := if s then 2 ^ (l.eb + l.mb) else 0
    if sat || !l.hasNan then (sb + l.big, Fx.none)
    else if l.hasInf then (sb + (2 ^ l.eb - 1) * 2 ^ l.mb, Fx.none)
    else (sb + l.nan, Fx.of ||| Fx.nx)
  | .fin s m e =>
    let sb := if s then 2 ^ (l.eb + l.mb) else 0
    if m = 0 then (sb, Fx.none)
    else
      let emin := 1 - l.bias
      let q := max (lg m e) emin - l.mb
      let (n, ix) := roundGrid rm s m (e - q) r
      if n = 0 then (sb, Fx.inexact ix)
      else
        let en := lg n q
        -- the significand at exponent en, and the code without sign
        let sub := decide (en < emin)
        let code :=
          if sub then n
          else
            let sig := shiftInt n (q - (en - l.mb))
            ((en + l.bias).toNat * 2 ^ l.mb) + (sig - 2 ^ l.mb)
        if l.big < code then
          let toward := rm == .rtz || (rm == .rdn && !s) || (rm == .rup && s)
          if sat || !l.hasNan then (sb + l.big, Fx.of ||| Fx.nx)
          else if !l.hasInf then (sb + l.nan, Fx.of ||| Fx.nx)
          else if toward then (sb + l.big, Fx.of ||| Fx.nx)
          else (sb + (2 ^ l.eb - 1) * 2 ^ l.mb, Fx.of ||| Fx.nx)
        else (sb + code, Fx.inexact ix ||| (if sub && ix then Fx.uf else Fx.none))

/-- Encode an exact value in type t, rounded by R81 in mode rm with the stochastic value r, with or
without saturation (R86 to R88). -/
def encodeVal (t : ETy) (rm : Rm) (sat : Bool) (r : Nat) (x : Val) : Nat × Fx :=
  match t with
  | .two8 => encodeTwo8 rm r x
  | .x8 => encodeX8 rm sat r x
  | t => match ETy.lay t with
    | some l => l.encode rm sat r x
    | none => encodeRange t.width (intLo t) (intHi t) rm r x

/-- Round to nearest even without saturation. -/
def encodeRne (t : ETy) (x : Val) : Nat × Fx := encodeVal t .rne false 0 x

/-- Round one result: with rs it takes one step of the LFSR and uses the state after it (R82). -/
def roundVal (t : ETy) (rm : Rm) (sat : Bool) (lf : Word) (x : Val) : (Nat × Fx) × Word :=
  if rm = .rs then
    let lf' := lfsrStep lf
    (encodeVal t rm sat lf'.toNat x, lf')
  else (encodeVal t rm sat 0 x, lf)

/-! ### Exact arithmetic -/

/-- The signed integer of (-1)^s m times 2^k, k ≥ 0. -/
def signedShift (s : Bool) (m : Nat) (k : Nat) : Int :=
  let v : Int := (m * 2 ^ k : Nat)
  if s then -v else v

/-- The exact sum; the mode fixes the sign of an exact zero (R71), and NV is raised for ∞ − ∞ (R89). -/
def Val.add (rm : Rm) : Val → Val → Val × Fx
  | .nan, _ => (.nan, Fx.none)
  | _, .nan => (.nan, Fx.none)
  | .inf a, .inf b => if a = b then (.inf a, Fx.none) else (.nan, Fx.nv)
  | .inf a, _ => (.inf a, Fx.none)
  | _, .inf b => (.inf b, Fx.none)
  | .fin sa ma ea, .fin sb mb eb =>
    let e := min ea eb
    let v := signedShift sa ma (ea - e).toNat + signedShift sb mb (eb - e).toNat
    if v = 0 then
      (.fin (if ma = 0 && mb = 0 && sa == sb then sa else rm == .rdn) 0 0, Fx.none)
    else (.fin (decide (v < 0)) v.natAbs e, Fx.none)

/-- The exact product; NV is raised for 0 × ∞ (R89). -/
def Val.mul : Val → Val → Val × Fx
  | .nan, _ => (.nan, Fx.none)
  | _, .nan => (.nan, Fx.none)
  | .inf a, .inf b => (.inf (a != b), Fx.none)
  | .inf a, .fin b m _ => if m = 0 then (.nan, Fx.nv) else (.inf (a != b), Fx.none)
  | .fin a m _, .inf b => if m = 0 then (.nan, Fx.nv) else (.inf (a != b), Fx.none)
  | .fin a m e, .fin b n f => (.fin (a != b) (m * n) (e + f), Fx.none)

/-- a × b + c exactly; 0 × ∞ raises NV whatever the addend is (R104). -/
def Val.fma (rm : Rm) (a b c : Val) : Val × Fx :=
  let (p, f) := a.mul b
  if f ≠ Fx.none then (.nan, f) else Val.add rm p c

/-- Order of two values that are not NaN: less, equal or greater; +0 = −0. -/
def Val.cmp : Val → Val → Ordering
  | .inf a, .inf b => if a = b then .eq else if a then .lt else .gt
  | .inf a, _ => if a then .lt else .gt
  | _, .inf b => if b then .gt else .lt
  | .fin sa ma ea, .fin sb mb eb =>
    let e := min ea eb
    compare (signedShift sa ma (ea - e).toNat) (signedShift sb mb (eb - e).toNat)
  | _, _ => .eq

/-- Minimum (big = false) or maximum by R91: −0 below +0, one NaN gives the other operand, two give NaN
and raise NV. -/
def Val.minmax (big : Bool) (a b : Val) : Val × Fx :=
  if a.isNan && b.isNan then (.nan, Fx.nv)
  else if a.isNan then (b, Fx.none)
  else if b.isNan then (a, Fx.none)
  else
    let less : Bool := match a, b with
      | .fin sa 0 _, .fin _ 0 _ => sa
      | a, b => Val.cmp a b == .lt
    let low := if less then a else b
    let high := if less then b else a
    -- when neither is below the other they are equal and either may be returned
    if Val.cmp a b = .eq && !(a.isZero && b.isZero) then (a, Fx.none)
    else (if big then high else low, Fx.none)

/-! ### The tree of R90 -/

/-- One level of the tree: neighbours are combined, an absent one passes the other up. -/
def treeLevel {α σ : Type} (f : σ → α → α → α × σ) : σ → List (Option α) → List (Option α) × σ
  | s, some a :: some b :: t =>
    let (c, s') := f s a b
    let (r, s'') := treeLevel f s' t
    (some c :: r, s'')
  | s, some a :: none :: t => let (r, s') := treeLevel f s t; (some a :: r, s')
  | s, none :: b :: t => let (r, s') := treeLevel f s t; (b :: r, s')
  | s, [a] => ([a], s)
  | s, [] => ([], s)

/-- The summation tree over leaves in ascending index (R90), node by node, level by level (R82); none
when every leaf is absent. fuel bounds the number of levels. -/
def treeFold {α σ : Type} (f : σ → α → α → α × σ) : Nat → σ → List (Option α) → Option α × σ
  | _, s, [] => (none, s)
  | _, s, [a] => (a, s)
  | 0, s, _ => (none, s)
  | k + 1, s, xs => let (ys, s') := treeLevel f s xs; treeFold f k s' ys

/-! ### Block scales (R77) -/

/-- E(T): floor of log2 of the largest finite value (R77). -/
def scaleExp : ETy → Int
  | .i4 | .e2m1 => 2
  | .n4 => 3
  | .i8 => 6
  | .n8 => 7
  | .i16 => 14
  | .n16 => 15
  | .i32 => 30
  | .n32 => 31
  | .e4m3 => 8
  | .e5m2 => 15
  | .two8 => 1
  | .f16 => 15
  | .bf16 | .f32 => 127
  | .x8 => 127

/-- Largest floor(log2) of the finite non-zero values of a block; none when all are zero. -/
def maxLg : List Val → Option Int
  | [] => none
  | .fin _ m e :: t =>
    if m = 0 then maxLg t
    else match maxLg t with
      | none => some (lg m e)
      | some k => some (max k (lg m e))
  | _ :: t => maxLg t

/-- The scale byte of a block (R77). -/
def blockScale (t : ETy) (xs : List Val) : Nat :=
  if xs.any Val.isNan then 0xFF
  else if xs.any Val.isInf then 254
  else match maxLg xs with
    | none => 0
    | some k => (min (max (k - scaleExp t + 127) 0) 254).toNat

/-! ### Approximations and refinements (R106, R107, R171) -/

/-- Significant bits and bias of F32, F16, BF16. -/
def fltPrec (t : ETy) : Nat := if t = .f32 then 24 else if t = .f16 then 11 else 8

/-- Smallest normal exponent. -/
def fltEmin (t : ETy) : Int := if t = .f16 then -14 else -126

/-- Bits k-1 down to 0 of the integer square root of n, given the bits above. -/
def isqrtBits (n : Nat) : Nat → Nat → Nat
  | 0, r => r
  | k + 1, r => isqrtBits n k (if (r + 2 ^ k) * (r + 2 ^ k) ≤ n then r + 2 ^ k else r)

/-- Integer square root, rounded down. -/
def isqrt (n : Nat) : Nat := isqrtBits n (Nat.log2 n / 2 + 1) 0

/-- Round the positive rational num/den times 2^k to p significant bits, nearest even, unbounded
exponent: a value n times 2^j and whether it was inexact. root takes the square root first (den = 1). -/
def sigRound (root : Bool) (num den p : Nat) : (Nat × Int) × Bool :=
  let sh := p + 4 + 2 * (Nat.log2 den + 2)
  let x := if root then num * 2 ^ (2 * sh) / den else num * 2 ^ sh / den
  let f := if root then isqrt x else x
  let exact := if root then f * f * den == num * 2 ^ (2 * sh) else f * den == num * 2 ^ sh
  -- a sticky bit under f keeps the rounding right
  let g := 2 * f + if exact then 0 else 1
  let drop := Nat.log2 g + 1 - p
  let (n, ix) := roundGrid .rne false g (-(drop : Int)) 0
  ((n, (drop : Int) - 1 - (sh : Int)), ix)

/-- Reciprocal or reciprocal square root of a code of type t (R106, R171). -/
def approx (t : ETy) (rsq : Bool) (c : Nat) : Nat × Fx :=
  let enc (x : Val) (f : Fx) : Nat × Fx := ((encodeRne t x).1, f)
  match decodeVal t c with
  | .nan => enc .nan Fx.none
  | .inf s => if s && rsq then enc .nan Fx.nv else enc (.fin s 0 0) Fx.none
  | .fin s m e =>
    if m < 2 ^ (fltPrec t - 1) then enc (.inf s) Fx.dz
    else if s && rsq then enc .nan Fx.nv
    else
      let odd := rsq && e % 2 != 0
      let m' := if odd then 2 * m else m
      let e' := if odd then e - 1 else e
      let ((n, j), ix) := sigRound rsq 1 m' (min 12 (fltPrec t))
      let k := if rsq then j - e' / 2 else j - e'
      if !rsq && lg n k < fltEmin t then enc (.fin s 0 0) (Fx.uf ||| Fx.nx)
      else enc (.fin s n k) (Fx.inexact ix)

/-- One Newton step refining an approximation y of 1/x or 1/√x (R107, R171). -/
def refine (t : ETy) (rsq : Bool) (cx cy : Nat) : Nat × Fx :=
  let x := decodeVal t cx
  let y := decodeVal t cy
  if y.isNan then ((encodeRne t .nan).1, Fx.none)
  else if y.isZero || y.isInf then (low t.width cy, Fx.none)
  else if x.isNan then ((encodeRne t .nan).1, Fx.none)
  else if x.isZero || x.isInf then ((encodeRne t .nan).1, Fx.nv)
  else
    let xy := (x.mul y).1
    let p := if rsq then (xy.mul y).1 else xy
    let d := (Val.add .rne (.fin false 1 0) p.neg).1
    let corr := (y.mul d).1
    let corr := if rsq then corr.scale (-1) else corr
    encodeRne t (Val.add .rne y corr).1

/-- The one-hot class of an F32 value (R105). -/
def fclassF32 (c : Nat) : Nat :=
  match decodeVal .f32 c with
  | .nan => 256
  | .inf s => if s then 1 else 128
  | .fin s m _ =>
    if m = 0 then (if s then 8 else 16)
    else if m < 2 ^ 23 then (if s then 4 else 32)
    else (if s then 2 else 64)

/-! ### The functions of R172

Values are computed to fxp binary places; a result that no code holds exactly carries a sticky bit under
them, so that the one rounding into T sees the exact side of every boundary (log entry 8). -/

/-- Binary places. -/
def fxp : Nat := 704

/-- 1 in fixed point. -/
def fxOne : Nat := 2 ^ fxp

/-- Horner steps of the series of e^f from term k down, f in fixed point. -/
def expSeries (f : Nat) : Nat → Nat → Nat
  | 0, acc => acc
  | k + 1, acc => expSeries f k (fxOne + f * acc / fxOne / (k + 1))

/-- e^f for 0 ≤ f < 1, in fixed point. -/
def fxExp (f : Nat) : Nat := expSeries f 160 fxOne

/-- Horner steps of Σ z2^i / (2i+1) from term k down. -/
def atanhSeries (z2 : Nat) : Nat → Nat → Nat
  | 0, acc => acc
  | k + 1, acc => atanhSeries z2 k (fxOne / (2 * k + 1) + z2 * acc / fxOne)

/-- ln of num/den for 1 ≤ num/den ≤ 2, as 2 atanh((num-den)/(num+den)), in fixed point. -/
def fxLn (num den : Nat) : Nat :=
  let z := (num - den) * fxOne / (num + den)
  2 * (z * atanhSeries (z * z / fxOne) 240 0 / fxOne)

/-- ln 2 in fixed point. -/
def fxLn2 : Nat := fxLn 2 1

/-- An inexact positive value n in fixed point at exponent k, with its sticky bit. -/
def sticky (s : Bool) (n : Nat) (k : Int) : Val := .fin s (2 * n + 1) (k - 1 - fxp)

/-- 2^i times e^f with f in fixed point. -/
def fxScaled (i : Int) (f : Nat) : Val := sticky false (fxExp f) i

/-- e^x for a non-zero finite x, magnitude capped where every type over- or underflows. -/
def expParts (s : Bool) (m : Nat) (e : Int) : Int × Nat :=
  let big := decide (lg m e > 10)
  let x := if big then 1024 * fxOne else shiftInt m (e + fxp)
  if s then
    -- -x = -(q+1) ln2 + f
    let q := x / fxLn2
    (-(q : Int) - 1, (q + 1) * fxLn2 - x)
  else (((x / fxLn2 : Nat) : Int), x % fxLn2)

/-- 2^x (R172). -/
def exp2Val : Val → Val
  | .nan => .nan
  | .inf s => if s then .zero else .inf false
  | .fin s m e =>
    if m = 0 then .fin false 1 0
    else if lg m e > 12 then (if s then .fin false 1 (-4096) else .fin false 1 4096)
    else
      let x : Int := (if s then -1 else 1) * (shiftInt m (e + fxp) : Int)
      let i := x / fxOne
      let f := (x % fxOne).toNat
      if f = 0 then .fin false 1 i else fxScaled i (f * fxLn2 / fxOne)

/-- e^x (R172). -/
def expVal : Val → Val
  | .nan => .nan
  | .inf s => if s then .zero else .inf false
  | .fin s m e =>
    if m = 0 then .fin false 1 0
    else let (i, f) := expParts s m e; fxScaled i f

/-- log2 x with the flags of its special operands (R172). -/
def log2Val : Val → Val × Fx
  | .nan => (.nan, Fx.none)
  | .inf s => if s then (.nan, Fx.nv) else (.inf false, Fx.none)
  | .fin s m e =>
    if m = 0 then (.inf true, Fx.dz)
    else if s then (.nan, Fx.nv)
    else
      let l := Nat.log2 m
      let i : Int := (l : Int) + e
      if m = 2 ^ l then (.ofInt i, Fx.none)
      else
        let f := fxLn m (2 ^ l) * fxOne / fxLn2
        let v : Int := i * fxOne + f
        (sticky (decide (v < 0)) (if v < 0 then (v + 1).natAbs else v.natAbs) 0, Fx.none)

/-- e^(-|x|) in fixed point, capped where it cannot change a rounding. -/
def expNegFx (m : Nat) (e : Int) : Nat :=
  let (i, f) := expParts true m e
  if i < -600 then 1 else shiftInt (fxExp f) i

/-- tanh x (R172). -/
def tanhVal : Val → Val
  | .nan => .nan
  | .inf s => .fin s 1 0
  | .fin s m e =>
    if m = 0 then .fin s 0 0
    else
      let y := expNegFx m (e + 1)
      sticky s ((fxOne - y) * fxOne / (fxOne + y)) 0

/-- 1/(1 + e^-x) (R172). -/
def sigVal : Val → Val
  | .nan => .nan
  | .inf s => if s then .zero else .fin false 1 0
  | .fin s m e =>
    if m = 0 then .fin false 1 (-1)
    else
      let y := expNegFx m e
      if s then sticky false (y * fxOne / (fxOne + y)) 0
      else sticky false (fxOne * fxOne / (fxOne + y)) 0

/-- √x with its special results (R172). -/
def sqrtVal : Val → Val × Fx
  | .nan => (.nan, Fx.none)
  | .inf s => if s then (.nan, Fx.nv) else (.inf false, Fx.none)
  | .fin s m e =>
    if m = 0 then (.fin s 0 0, Fx.none)
    else if s then (.nan, Fx.nv)
    else
      let odd := e % 2 != 0
      let m' := (if odd then 2 * m else m) * 2 ^ 128
      let e' := (if odd then e - 1 else e) / 2 - 64
      let f := isqrt m'
      (.fin false (2 * f + if f * f = m' then 0 else 1) (e' - 1), Fx.none)

/-! ### Integer division (R96) -/

/-- Signed quotient at width w. -/
def divInt (w : Nat) (a b : Int) : Int :=
  if b = 0 then -1
  else if a = -((2 ^ (w - 1) : Nat) : Int) && b == -1 then -((2 ^ (w - 1) : Nat) : Int)
  else Int.tdiv a b

/-- Signed remainder at width w. -/
def remInt (w : Nat) (a b : Int) : Int :=
  if b = 0 then a
  else if a = -((2 ^ (w - 1) : Nat) : Int) && b == -1 then 0
  else a - b * Int.tdiv a b

end Sys2Proof.Machine
end

