-- ==== Sys2Proof/Decode.lean ====
section
/-! DEFINITION. The decoder of Isatas units, total on any words (R39 to R51), and after it the encoder,
written from the same encoding tables. Reserved values are rejected by the word that holds them. -/

namespace Sys2Proof

/-- Which word of a unit holds the first reserved value (R51), or that the unit is cut short. -/
inductive Reject where
  /-- word 0 holds a reserved value -/
  | word0
  /-- the extension word holds a reserved value -/
  | ext
  /-- the sequencing word is reserved -/
  | seq
  /-- a word of the unit is missing -/
  | short
  deriving DecidableEq, Repr

/-- One bit. -/
def bit (b : Bool) : BitVec 1 := BitVec.ofBool b

/-- T code of an element type (R55). -/
def ETy.code : ETy → BitVec 4
  | .i4 => 0x0 | .n4 => 0x1 | .i8 => 0x2 | .n8 => 0x3 | .i16 => 0x4 | .n16 => 0x5 | .i32 => 0x6
  | .n32 => 0x7 | .e2m1 => 0x8 | .e4m3 => 0x9 | .e5m2 => 0xA | .two8 => 0xB | .f16 => 0xC
  | .bf16 => 0xD | .f32 => 0xE | .x8 => 0xF

/-- Element type of a T code (R55): every code names a type. -/
def ETy.ofCode (c : BitVec 4) : ETy :=
  match c.toNat with
  | 0x0 => .i4 | 0x1 => .n4 | 0x2 => .i8 | 0x3 => .n8 | 0x4 => .i16 | 0x5 => .n16 | 0x6 => .i32
  | 0x7 => .n32 | 0x8 => .e2m1 | 0x9 => .e4m3 | 0xA => .e5m2 | 0xB => .two8 | 0xC => .f16
  | 0xD => .bf16 | 0xE => .f32 | _ => .x8

/-- RM code (R80). -/
def Rm.code : Rm → BitVec 3
  | .rne => 0 | .rtz => 1 | .rdn => 2 | .rup => 3 | .rs => 4 | .rto => 5

/-- Rounding mode of an RM code; 6 and 7 are reserved (R80). -/
def Rm.ofCode (c : BitVec 3) : Option Rm :=
  match c.toNat with
  | 0 => some .rne | 1 => some .rtz | 2 => some .rdn | 3 => some .rup | 4 => some .rs
  | 5 => some .rto | _ => none

/-- SEQ of a sequencing part (R58). -/
def Seq.code : Seq → BitVec 2
  | .next => 0 | .lend => 1 | .skip => 2 | _ => 3

/-- The sequencing word (R26, R46), where the part has one. -/
def Seq.word : Seq → Option Word
  | .next | .lend | .skip => none
  | .jump off => some (0#3 ++ 0#3 ++ 0#3 ++ off)
  | .brT p off => some (1#3 ++ p ++ 0#3 ++ off)
  | .brF p off => some (2#3 ++ p ++ 0#3 ++ off)
  | .call off => some (3#3 ++ 0#3 ++ 0#3 ++ off)
  | .ret => some (4#3 ++ 0#3 ++ 0#3 ++ 0#23)
  | .jumpw wy => some (5#3 ++ 0#3 ++ wy ++ 0#23)
  | .callw wy => some (6#3 ++ 0#3 ++ wy ++ 0#23)

/-- The sequencing word's meaning (R26): none where it is reserved. -/
def Seq.ofWord (w : Word) : Option Seq :=
  let p := w.extractLsb' 26 3
  let wy := w.extractLsb' 23 3
  let off := w.extractLsb' 0 23
  match (w.extractLsb' 29 3).toNat with
  | 0 => if p = 0 ∧ wy = 0 then some (.jump off) else none
  | 1 => if wy = 0 then some (.brT p off) else none
  | 2 => if wy = 0 then some (.brF p off) else none
  | 3 => if p = 0 ∧ wy = 0 then some (.call off) else none
  | 4 => if p = 0 ∧ wy = 0 ∧ off = 0 then some .ret else none
  | 5 => if p = 0 ∧ off = 0 then some (.jumpw wy) else none
  | 6 => if p = 0 ∧ off = 0 then some (.callw wy) else none
  | _ => none

/-- The sequencing part of a unit whose SEQ is q, given its sequencing word. -/
def Seq.ofCode (q : BitVec 2) (w : Word) : Option Seq :=
  match q.toNat with
  | 0 => some .next
  | 1 => some .lend
  | 2 => some .skip
  | _ => Seq.ofWord w

/-! The runtime numbers the constructors of a compiled type up to 244 and Instr has more, so the functions
that build an Instr are checked and evaluated by the kernel alone. -/

noncomputable section

/-- Major 0x01 (R40). -/
def decodeInt (q : Seq) (w : Word) : Option Instr :=
  if w.extractLsb' 3 6 = 0#6 then
    some (.add ⟨q, w.extractLsb' 19 5, w.extractLsb' 14 5, w.extractLsb' 9 5, w.getLsbD 2, w.getLsbD 1, w.getLsbD 0⟩)
  else if w.extractLsb' 3 6 = 1#6 then
    some (.sub ⟨q, w.extractLsb' 19 5, w.extractLsb' 14 5, w.extractLsb' 9 5, w.getLsbD 2, w.getLsbD 1, w.getLsbD 0⟩)
  else if w.extractLsb' 3 6 = 2#6 then
    some (.mul ⟨q, w.extractLsb' 19 5, w.extractLsb' 14 5, w.extractLsb' 9 5, w.getLsbD 2, w.getLsbD 1, w.getLsbD 0⟩)
  else if w.extractLsb' 3 6 = 3#6 ∧ w.extractLsb' 0 1 = 0#1 then
    some (.mulh ⟨q, w.extractLsb' 19 5, w.extractLsb' 14 5, w.extractLsb' 9 5, w.getLsbD 2, w.getLsbD 1⟩)
  else if w.extractLsb' 3 6 = 4#6 ∧ w.extractLsb' 0 1 = 0#1 then
    some (.mulhu ⟨q, w.extractLsb' 19 5, w.extractLsb' 14 5, w.extractLsb' 9 5, w.getLsbD 2, w.getLsbD 1⟩)
  else if w.extractLsb' 3 6 = 5#6 then
    some (.div ⟨q, w.extractLsb' 19 5, w.extractLsb' 14 5, w.extractLsb' 9 5, w.getLsbD 2, w.getLsbD 1, w.getLsbD 0⟩)
  else if w.extractLsb' 3 6 = 6#6 then
    some (.divu ⟨q, w.extractLsb' 19 5, w.extractLsb' 14 5, w.extractLsb' 9 5, w.getLsbD 2, w.getLsbD 1, w.getLsbD 0⟩)
  else if w.extractLsb' 3 6 = 7#6 then
    some (.rem ⟨q, w.extractLsb' 19 5, w.extractLsb' 14 5, w.extractLsb' 9 5, w.getLsbD 2, w.getLsbD 1, w.getLsbD 0⟩)
  else if w.extractLsb' 3 6 = 8#6 then
    some (.remu ⟨q, w.extractLsb' 19 5, w.extractLsb' 14 5, w.extractLsb' 9 5, w.getLsbD 2, w.getLsbD 1, w.getLsbD 0⟩)
  else if w.extractLsb' 3 6 = 9#6 then
    some (.and ⟨q, w.extractLsb' 19 5, w.extractLsb' 14 5, w.extractLsb' 9 5, w.getLsbD 2, w.getLsbD 1, w.getLsbD 0⟩)
  else if w.extractLsb' 3 6 = 10#6 then
    some (.or ⟨q, w.extractLsb' 19 5, w.extractLsb' 14 5, w.extractLsb' 9 5, w.getLsbD 2, w.getLsbD 1, w.getLsbD 0⟩)
  else if w.extractLsb' 3 6 = 11#6 then
    some (.xor ⟨q, w.extractLsb' 19 5, w.extractLsb' 14 5, w.extractLsb' 9 5, w.getLsbD 2, w.getLsbD 1, w.getLsbD 0⟩)
  else if w.extractLsb' 3 6 = 12#6 then
    some (.andn ⟨q, w.extractLsb' 19 5, w.extractLsb' 14 5, w.extractLsb' 9 5, w.getLsbD 2, w.getLsbD 1, w.getLsbD 0⟩)
  else if w.extractLsb' 3 6 = 13#6 then
    some (.shl ⟨q, w.extractLsb' 19 5, w.extractLsb' 14 5, w.extractLsb' 9 5, w.getLsbD 2, w.getLsbD 1, w.getLsbD 0⟩)
  else if w.extractLsb' 3 6 = 14#6 then
    some (.shr ⟨q, w.extractLsb' 19 5, w.extractLsb' 14 5, w.extractLsb' 9 5, w.getLsbD 2, w.getLsbD 1, w.getLsbD 0⟩)
  else if w.extractLsb' 3 6 = 15#6 then
    some (.sra ⟨q, w.extractLsb' 19 5, w.extractLsb' 14 5, w.extractLsb' 9 5, w.getLsbD 2, w.getLsbD 1, w.getLsbD 0⟩)
  else if w.extractLsb' 3 6 = 16#6 then
    some (.rol ⟨q, w.extractLsb' 19 5, w.extractLsb' 14 5, w.extractLsb' 9 5, w.getLsbD 2, w.getLsbD 1, w.getLsbD 0⟩)
  else if w.extractLsb' 3 6 = 17#6 then
    some (.min ⟨q, w.extractLsb' 19 5, w.extractLsb' 14 5, w.extractLsb' 9 5, w.getLsbD 2, w.getLsbD 1, w.getLsbD 0⟩)
  else if w.extractLsb' 3 6 = 18#6 then
    some (.max ⟨q, w.extractLsb' 19 5, w.extractLsb' 14 5, w.extractLsb' 9 5, w.getLsbD 2, w.getLsbD 1, w.getLsbD 0⟩)
  else if w.extractLsb' 3 6 = 19#6 then
    some (.minu ⟨q, w.extractLsb' 19 5, w.extractLsb' 14 5, w.extractLsb' 9 5, w.getLsbD 2, w.getLsbD 1, w.getLsbD 0⟩)
  else if w.extractLsb' 3 6 = 20#6 then
    some (.maxu ⟨q, w.extractLsb' 19 5, w.extractLsb' 14 5, w.extractLsb' 9 5, w.getLsbD 2, w.getLsbD 1, w.getLsbD 0⟩)
  else if w.extractLsb' 3 11 = 21#11 ∧ w.extractLsb' 1 1 = 0#1 then
    some (.clz ⟨q, w.extractLsb' 19 5, w.extractLsb' 14 5, w.getLsbD 2, w.getLsbD 0⟩)
  else if w.extractLsb' 3 11 = 22#11 ∧ w.extractLsb' 1 1 = 0#1 then
    some (.ctz ⟨q, w.extractLsb' 19 5, w.extractLsb' 14 5, w.getLsbD 2, w.getLsbD 0⟩)
  else if w.extractLsb' 3 11 = 23#11 ∧ w.extractLsb' 1 1 = 0#1 then
    some (.popc ⟨q, w.extractLsb' 19 5, w.extractLsb' 14 5, w.getLsbD 2, w.getLsbD 0⟩)
  else if w.extractLsb' 3 6 = 24#6 ∧ w.extractLsb' 0 1 = 0#1 then
    some (.adda ⟨q, w.extractLsb' 19 5, w.extractLsb' 14 5, w.extractLsb' 9 5, w.getLsbD 2, w.getLsbD 1⟩)
  else if w.extractLsb' 3 6 = 25#6 ∧ w.extractLsb' 0 1 = 0#1 then
    some (.ptag ⟨q, w.extractLsb' 19 5, w.extractLsb' 14 5, w.extractLsb' 9 5, w.getLsbD 2, w.getLsbD 1⟩)
  else if w.extractLsb' 3 11 = 26#11 ∧ w.extractLsb' 0 2 = 0#2 then
    some (.pfmt ⟨q, w.extractLsb' 19 5, w.extractLsb' 14 5, w.getLsbD 2⟩)
  else if w.extractLsb' 3 11 = 27#11 ∧ w.extractLsb' 0 2 = 0#2 then
    some (.pva ⟨q, w.extractLsb' 19 5, w.extractLsb' 14 5, w.getLsbD 2⟩)
  else if w.extractLsb' 22 2 = 0#2 ∧ w.extractLsb' 3 6 = 28#6 then
    some (.cmpEq ⟨q, w.extractLsb' 19 3, w.extractLsb' 14 5, w.extractLsb' 9 5, w.getLsbD 2, w.getLsbD 1, w.getLsbD 0⟩)
  else if w.extractLsb' 22 2 = 0#2 ∧ w.extractLsb' 3 6 = 29#6 then
    some (.cmpNe ⟨q, w.extractLsb' 19 3, w.extractLsb' 14 5, w.extractLsb' 9 5, w.getLsbD 2, w.getLsbD 1, w.getLsbD 0⟩)
  else if w.extractLsb' 22 2 = 0#2 ∧ w.extractLsb' 3 6 = 30#6 then
    some (.cmpLt ⟨q, w.extractLsb' 19 3, w.extractLsb' 14 5, w.extractLsb' 9 5, w.getLsbD 2, w.getLsbD 1, w.getLsbD 0⟩)
  else if w.extractLsb' 22 2 = 0#2 ∧ w.extractLsb' 3 6 = 31#6 then
    some (.cmpLe ⟨q, w.extractLsb' 19 3, w.extractLsb' 14 5, w.extractLsb' 9 5, w.getLsbD 2, w.getLsbD 1, w.getLsbD 0⟩)
  else if w.extractLsb' 22 2 = 0#2 ∧ w.extractLsb' 3 6 = 32#6 then
    some (.cmpLtu ⟨q, w.extractLsb' 19 3, w.extractLsb' 14 5, w.extractLsb' 9 5, w.getLsbD 2, w.getLsbD 1, w.getLsbD 0⟩)
  else if w.extractLsb' 22 2 = 0#2 ∧ w.extractLsb' 3 6 = 33#6 then
    some (.cmpLeu ⟨q, w.extractLsb' 19 3, w.extractLsb' 14 5, w.extractLsb' 9 5, w.getLsbD 2, w.getLsbD 1, w.getLsbD 0⟩)
  else none

/-- Major 0x02 (R40). -/
def decodeAddi (q : Seq) (w : Word) : Option Instr :=
  some (.addi ⟨q, w.extractLsb' 19 5, w.extractLsb' 14 5, w.extractLsb' 0 14⟩)

/-- Major 0x03 (R40). -/
def decodeAndi (q : Seq) (w : Word) : Option Instr :=
  some (.andi ⟨q, w.extractLsb' 19 5, w.extractLsb' 14 5, w.extractLsb' 0 14⟩)

/-- Major 0x04 (R40). -/
def decodeOri (q : Seq) (w : Word) : Option Instr :=
  some (.ori ⟨q, w.extractLsb' 19 5, w.extractLsb' 14 5, w.extractLsb' 0 14⟩)

/-- Major 0x05 (R40). -/
def decodeXori (q : Seq) (w : Word) : Option Instr :=
  some (.xori ⟨q, w.extractLsb' 19 5, w.extractLsb' 14 5, w.extractLsb' 0 14⟩)

/-- Major 0x06 (R40). -/
def decodeShi (q : Seq) (w : Word) : Option Instr :=
  if w.extractLsb' 9 5 = 0#5 ∧ w.extractLsb' 6 2 = 0#2 then
    some (.shli ⟨q, w.extractLsb' 19 5, w.extractLsb' 14 5, w.getLsbD 8, w.extractLsb' 0 6⟩)
  else if w.extractLsb' 9 5 = 0#5 ∧ w.extractLsb' 6 2 = 1#2 then
    some (.shri ⟨q, w.extractLsb' 19 5, w.extractLsb' 14 5, w.getLsbD 8, w.extractLsb' 0 6⟩)
  else if w.extractLsb' 9 5 = 0#5 ∧ w.extractLsb' 6 2 = 2#2 then
    some (.srai ⟨q, w.extractLsb' 19 5, w.extractLsb' 14 5, w.getLsbD 8, w.extractLsb' 0 6⟩)
  else if w.extractLsb' 9 5 = 0#5 ∧ w.extractLsb' 6 2 = 3#2 then
    some (.roli ⟨q, w.extractLsb' 19 5, w.extractLsb' 14 5, w.getLsbD 8, w.extractLsb' 0 6⟩)
  else none

/-- Major 0x07 (R40). -/
def decodeCmpi (q : Seq) (w : Word) : Option Instr :=
  if w.extractLsb' 22 2 = 0#2 then
    some (.cmpiEq ⟨q, w.extractLsb' 19 3, w.extractLsb' 14 5, w.extractLsb' 0 14⟩)
  else if w.extractLsb' 22 2 = 1#2 then
    some (.cmpiNe ⟨q, w.extractLsb' 19 3, w.extractLsb' 14 5, w.extractLsb' 0 14⟩)
  else if w.extractLsb' 22 2 = 2#2 then
    some (.cmpiLt ⟨q, w.extractLsb' 19 3, w.extractLsb' 14 5, w.extractLsb' 0 14⟩)
  else if w.extractLsb' 22 2 = 3#2 then
    some (.cmpiLtu ⟨q, w.extractLsb' 19 3, w.extractLsb' 14 5, w.extractLsb' 0 14⟩)
  else none

/-- Major 0x08 (R40). -/
def decodeLi (q : Seq) (w : Word) : Option Instr :=
  some (.li ⟨q, w.extractLsb' 19 5, w.extractLsb' 0 19⟩)

/-- Major 0x09 (R40). -/
def decodeLih (q : Seq) (w : Word) : Option Instr :=
  if w.extractLsb' 16 1 = 0#1 then
    some (.lih ⟨q, w.extractLsb' 19 5, w.extractLsb' 17 2, w.extractLsb' 0 16⟩)
  else none

/-- Major 0x0a (R40). -/
def decodeAddai (q : Seq) (w : Word) : Option Instr :=
  some (.addai ⟨q, w.extractLsb' 19 5, w.extractLsb' 14 5, w.extractLsb' 0 14⟩)

/-- Major 0x0b (R40). -/
def decodeFp (q : Seq) (w : Word) : Option Instr :=
  if w.extractLsb' 6 3 = 0#3 ∧ w.extractLsb' 0 1 = 0#1 then
    (Rm.ofCode (w.extractLsb' 3 3)).map fun r => .fadd ⟨q, w.extractLsb' 19 5, w.extractLsb' 14 5, w.extractLsb' 9 5, r, w.getLsbD 2, w.getLsbD 1⟩
  else if w.extractLsb' 6 3 = 1#3 ∧ w.extractLsb' 0 1 = 0#1 then
    (Rm.ofCode (w.extractLsb' 3 3)).map fun r => .fsub ⟨q, w.extractLsb' 19 5, w.extractLsb' 14 5, w.extractLsb' 9 5, r, w.getLsbD 2, w.getLsbD 1⟩
  else if w.extractLsb' 6 3 = 2#3 ∧ w.extractLsb' 0 1 = 0#1 then
    (Rm.ofCode (w.extractLsb' 3 3)).map fun r => .fmul ⟨q, w.extractLsb' 19 5, w.extractLsb' 14 5, w.extractLsb' 9 5, r, w.getLsbD 2, w.getLsbD 1⟩
  else if w.extractLsb' 6 3 = 3#3 ∧ w.extractLsb' 0 1 = 0#1 then
    (Rm.ofCode (w.extractLsb' 3 3)).map fun r => .fma ⟨q, w.extractLsb' 19 5, w.extractLsb' 14 5, w.extractLsb' 9 5, r, w.getLsbD 2, w.getLsbD 1⟩
  else if w.extractLsb' 6 8 = 4#8 ∧ w.extractLsb' 0 2 = 0#2 then
    (Rm.ofCode (w.extractLsb' 3 3)).map fun r => .fitof ⟨q, w.extractLsb' 19 5, w.extractLsb' 14 5, r, w.getLsbD 2⟩
  else if w.extractLsb' 6 8 = 5#8 ∧ w.extractLsb' 0 2 = 0#2 then
    (Rm.ofCode (w.extractLsb' 3 3)).map fun r => .fftoi ⟨q, w.extractLsb' 19 5, w.extractLsb' 14 5, r, w.getLsbD 2⟩
  else if w.extractLsb' 3 6 = 48#6 ∧ w.extractLsb' 0 1 = 0#1 then
    some (.fmin ⟨q, w.extractLsb' 19 5, w.extractLsb' 14 5, w.extractLsb' 9 5, w.getLsbD 2, w.getLsbD 1⟩)
  else if w.extractLsb' 3 6 = 49#6 ∧ w.extractLsb' 0 1 = 0#1 then
    some (.fmax ⟨q, w.extractLsb' 19 5, w.extractLsb' 14 5, w.extractLsb' 9 5, w.getLsbD 2, w.getLsbD 1⟩)
  else if w.extractLsb' 3 11 = 50#11 ∧ w.extractLsb' 0 2 = 0#2 then
    some (.fabs ⟨q, w.extractLsb' 19 5, w.extractLsb' 14 5, w.getLsbD 2⟩)
  else if w.extractLsb' 3 11 = 51#11 ∧ w.extractLsb' 0 2 = 0#2 then
    some (.fneg ⟨q, w.extractLsb' 19 5, w.extractLsb' 14 5, w.getLsbD 2⟩)
  else if w.extractLsb' 22 2 = 0#2 ∧ w.extractLsb' 3 6 = 52#6 ∧ w.extractLsb' 0 1 = 0#1 then
    some (.feq ⟨q, w.extractLsb' 19 3, w.extractLsb' 14 5, w.extractLsb' 9 5, w.getLsbD 2, w.getLsbD 1⟩)
  else if w.extractLsb' 22 2 = 0#2 ∧ w.extractLsb' 3 6 = 53#6 ∧ w.extractLsb' 0 1 = 0#1 then
    some (.flt ⟨q, w.extractLsb' 19 3, w.extractLsb' 14 5, w.extractLsb' 9 5, w.getLsbD 2, w.getLsbD 1⟩)
  else if w.extractLsb' 22 2 = 0#2 ∧ w.extractLsb' 3 6 = 54#6 ∧ w.extractLsb' 0 1 = 0#1 then
    some (.fle ⟨q, w.extractLsb' 19 3, w.extractLsb' 14 5, w.extractLsb' 9 5, w.getLsbD 2, w.getLsbD 1⟩)
  else if w.extractLsb' 22 2 = 0#2 ∧ w.extractLsb' 3 6 = 55#6 ∧ w.extractLsb' 0 1 = 0#1 then
    some (.fun ⟨q, w.extractLsb' 19 3, w.extractLsb' 14 5, w.extractLsb' 9 5, w.getLsbD 2, w.getLsbD 1⟩)
  else if w.extractLsb' 3 11 = 56#11 ∧ w.extractLsb' 0 2 = 0#2 then
    some (.frcp ⟨q, w.extractLsb' 19 5, w.extractLsb' 14 5, w.getLsbD 2⟩)
  else if w.extractLsb' 3 11 = 57#11 ∧ w.extractLsb' 0 2 = 0#2 then
    some (.frsq ⟨q, w.extractLsb' 19 5, w.extractLsb' 14 5, w.getLsbD 2⟩)
  else if w.extractLsb' 3 6 = 58#6 ∧ w.extractLsb' 0 1 = 0#1 then
    some (.frefRcp ⟨q, w.extractLsb' 19 5, w.extractLsb' 14 5, w.extractLsb' 9 5, w.getLsbD 2, w.getLsbD 1⟩)
  else if w.extractLsb' 3 6 = 59#6 ∧ w.extractLsb' 0 1 = 0#1 then
    some (.frefRsq ⟨q, w.extractLsb' 19 5, w.extractLsb' 14 5, w.extractLsb' 9 5, w.getLsbD 2, w.getLsbD 1⟩)
  else if w.extractLsb' 3 11 = 60#11 ∧ w.extractLsb' 0 2 = 0#2 then
    some (.fclass ⟨q, w.extractLsb' 19 5, w.extractLsb' 14 5, w.getLsbD 2⟩)
  else none

/-- Major 0x0c (R40). -/
def decodePred (q : Seq) (w : Word) : Option Instr :=
  if w.extractLsb' 22 2 = 0#2 ∧ w.extractLsb' 17 2 = 0#2 ∧ w.extractLsb' 12 2 = 0#2 ∧ w.extractLsb' 0 9 = 0#9 then
    some (.pand ⟨q, w.extractLsb' 19 3, w.extractLsb' 14 3, w.extractLsb' 9 3⟩)
  else if w.extractLsb' 22 2 = 0#2 ∧ w.extractLsb' 17 2 = 0#2 ∧ w.extractLsb' 12 2 = 0#2 ∧ w.extractLsb' 0 9 = 8#9 then
    some (.por ⟨q, w.extractLsb' 19 3, w.extractLsb' 14 3, w.extractLsb' 9 3⟩)
  else if w.extractLsb' 22 2 = 0#2 ∧ w.extractLsb' 17 2 = 0#2 ∧ w.extractLsb' 12 2 = 0#2 ∧ w.extractLsb' 0 9 = 16#9 then
    some (.pxor ⟨q, w.extractLsb' 19 3, w.extractLsb' 14 3, w.extractLsb' 9 3⟩)
  else if w.extractLsb' 22 2 = 0#2 ∧ w.extractLsb' 17 2 = 0#2 ∧ w.extractLsb' 12 2 = 0#2 ∧ w.extractLsb' 0 9 = 24#9 then
    some (.pandn ⟨q, w.extractLsb' 19 3, w.extractLsb' 14 3, w.extractLsb' 9 3⟩)
  else if w.extractLsb' 22 2 = 0#2 ∧ w.extractLsb' 17 2 = 0#2 ∧ w.extractLsb' 0 14 = 32#14 then
    some (.pnot ⟨q, w.extractLsb' 19 3, w.extractLsb' 14 3⟩)
  else if w.extractLsb' 22 2 = 0#2 ∧ w.extractLsb' 17 2 = 0#2 ∧ w.extractLsb' 0 14 = 40#14 then
    some (.pmov ⟨q, w.extractLsb' 19 3, w.extractLsb' 14 3⟩)
  else if w.extractLsb' 22 2 = 0#2 ∧ w.extractLsb' 3 11 = 6#11 ∧ w.extractLsb' 0 2 = 0#2 then
    some (.gtop ⟨q, w.extractLsb' 19 3, w.extractLsb' 14 5, w.getLsbD 2⟩)
  else if w.extractLsb' 17 2 = 0#2 ∧ w.extractLsb' 0 14 = 56#14 then
    some (.ptog ⟨q, w.extractLsb' 19 5, w.extractLsb' 14 3⟩)
  else if w.extractLsb' 3 6 = 8#6 ∧ w.extractLsb' 0 1 = 0#1 then
    some (.sel ⟨q, w.extractLsb' 19 5, w.extractLsb' 14 5, w.extractLsb' 9 5, w.getLsbD 2, w.getLsbD 1⟩)
  else none

/-- Major 0x10 (R40). -/
def decodeLd (q : Seq) (w : Word) : Option Instr :=
  some (.ld ⟨q, w.extractLsb' 19 5, w.extractLsb' 14 5, w.extractLsb' 0 14⟩)

/-- Major 0x11 (R40). -/
def decodeSt (q : Seq) (w : Word) : Option Instr :=
  some (.st ⟨q, w.extractLsb' 19 5, w.extractLsb' 14 5, w.extractLsb' 0 14⟩)

/-- Major 0x12 (R40). -/
def decodeLdv (q : Seq) (w : Word) : Option Instr :=
  if w.extractLsb' 23 1 = 0#1 then
    some (.ldv ⟨q, w.extractLsb' 19 4, w.extractLsb' 14 5, w.extractLsb' 0 14⟩)
  else none

/-- Major 0x13 (R40). -/
def decodeStv (q : Seq) (w : Word) : Option Instr :=
  if w.extractLsb' 23 1 = 0#1 then
    some (.stv ⟨q, w.extractLsb' 19 4, w.extractLsb' 14 5, w.extractLsb' 0 14⟩)
  else none

/-- Major 0x14 (R40). -/
def decodeLdy (q : Seq) (w : Word) : Option Instr :=
  some (.ldy ⟨q, w.extractLsb' 19 5, w.extractLsb' 14 5, w.extractLsb' 0 14⟩)

/-- Major 0x15 (R40). -/
def decodeSty (q : Seq) (w : Word) : Option Instr :=
  some (.sty ⟨q, w.extractLsb' 19 5, w.extractLsb' 14 5, w.extractLsb' 0 14⟩)

/-- Major 0x16 (R40). -/
def decodeVy (q : Seq) (w : Word) : Option Instr :=
  if w.extractLsb' 23 1 = 0#1 then
    some (.ldvy ⟨q, w.extractLsb' 19 4, w.extractLsb' 14 5, w.extractLsb' 0 14⟩)
  else if w.extractLsb' 23 1 = 1#1 then
    some (.stvy ⟨q, w.extractLsb' 19 4, w.extractLsb' 14 5, w.extractLsb' 0 14⟩)
  else none

/-- Major 0x20 (R40). -/
def decodeVint (q : Seq) (w : Word) : Option Instr :=
  if w.extractLsb' 0 6 = 0#6 then
    some (.vadd ⟨q, w.extractLsb' 20 4, w.extractLsb' 16 4, w.extractLsb' 12 4, ETy.ofCode (w.extractLsb' 8 4), w.extractLsb' 6 2⟩)
  else if w.extractLsb' 0 6 = 1#6 then
    some (.vsub ⟨q, w.extractLsb' 20 4, w.extractLsb' 16 4, w.extractLsb' 12 4, ETy.ofCode (w.extractLsb' 8 4), w.extractLsb' 6 2⟩)
  else if w.extractLsb' 0 6 = 2#6 then
    some (.vmul ⟨q, w.extractLsb' 20 4, w.extractLsb' 16 4, w.extractLsb' 12 4, ETy.ofCode (w.extractLsb' 8 4), w.extractLsb' 6 2⟩)
  else if w.extractLsb' 0 6 = 3#6 then
    some (.vmulh ⟨q, w.extractLsb' 20 4, w.extractLsb' 16 4, w.extractLsb' 12 4, ETy.ofCode (w.extractLsb' 8 4), w.extractLsb' 6 2⟩)
  else if w.extractLsb' 0 6 = 4#6 then
    some (.vmac ⟨q, w.extractLsb' 20 4, w.extractLsb' 16 4, w.extractLsb' 12 4, ETy.ofCode (w.extractLsb' 8 4), w.extractLsb' 6 2⟩)
  else if w.extractLsb' 0 6 = 5#6 then
    some (.vadds ⟨q, w.extractLsb' 20 4, w.extractLsb' 16 4, w.extractLsb' 12 4, ETy.ofCode (w.extractLsb' 8 4), w.extractLsb' 6 2⟩)
  else if w.extractLsb' 0 6 = 6#6 then
    some (.vsubs ⟨q, w.extractLsb' 20 4, w.extractLsb' 16 4, w.extractLsb' 12 4, ETy.ofCode (w.extractLsb' 8 4), w.extractLsb' 6 2⟩)
  else if w.extractLsb' 0 6 = 7#6 then
    some (.vmuls ⟨q, w.extractLsb' 20 4, w.extractLsb' 16 4, w.extractLsb' 12 4, ETy.ofCode (w.extractLsb' 8 4), w.extractLsb' 6 2⟩)
  else if w.extractLsb' 0 6 = 8#6 then
    some (.vmacs ⟨q, w.extractLsb' 20 4, w.extractLsb' 16 4, w.extractLsb' 12 4, ETy.ofCode (w.extractLsb' 8 4), w.extractLsb' 6 2⟩)
  else if w.extractLsb' 0 6 = 9#6 then
    some (.vmin ⟨q, w.extractLsb' 20 4, w.extractLsb' 16 4, w.extractLsb' 12 4, ETy.ofCode (w.extractLsb' 8 4), w.extractLsb' 6 2⟩)
  else if w.extractLsb' 0 6 = 10#6 then
    some (.vmax ⟨q, w.extractLsb' 20 4, w.extractLsb' 16 4, w.extractLsb' 12 4, ETy.ofCode (w.extractLsb' 8 4), w.extractLsb' 6 2⟩)
  else if w.extractLsb' 0 6 = 11#6 then
    some (.vand ⟨q, w.extractLsb' 20 4, w.extractLsb' 16 4, w.extractLsb' 12 4, ETy.ofCode (w.extractLsb' 8 4), w.extractLsb' 6 2⟩)
  else if w.extractLsb' 0 6 = 12#6 then
    some (.vor ⟨q, w.extractLsb' 20 4, w.extractLsb' 16 4, w.extractLsb' 12 4, ETy.ofCode (w.extractLsb' 8 4), w.extractLsb' 6 2⟩)
  else if w.extractLsb' 0 6 = 13#6 then
    some (.vxor ⟨q, w.extractLsb' 20 4, w.extractLsb' 16 4, w.extractLsb' 12 4, ETy.ofCode (w.extractLsb' 8 4), w.extractLsb' 6 2⟩)
  else if w.extractLsb' 0 6 = 14#6 then
    some (.vandn ⟨q, w.extractLsb' 20 4, w.extractLsb' 16 4, w.extractLsb' 12 4, ETy.ofCode (w.extractLsb' 8 4), w.extractLsb' 6 2⟩)
  else if w.extractLsb' 0 6 = 15#6 then
    some (.vshl ⟨q, w.extractLsb' 20 4, w.extractLsb' 16 4, w.extractLsb' 12 4, ETy.ofCode (w.extractLsb' 8 4), w.extractLsb' 6 2⟩)
  else if w.extractLsb' 0 6 = 16#6 then
    some (.vshr ⟨q, w.extractLsb' 20 4, w.extractLsb' 16 4, w.extractLsb' 12 4, ETy.ofCode (w.extractLsb' 8 4), w.extractLsb' 6 2⟩)
  else if w.extractLsb' 12 4 = 0#4 ∧ w.extractLsb' 0 6 = 17#6 then
    some (.vabs ⟨q, w.extractLsb' 20 4, w.extractLsb' 16 4, ETy.ofCode (w.extractLsb' 8 4), w.extractLsb' 6 2⟩)
  else if w.extractLsb' 12 4 = 0#4 ∧ w.extractLsb' 0 6 = 18#6 then
    some (.vneg ⟨q, w.extractLsb' 20 4, w.extractLsb' 16 4, ETy.ofCode (w.extractLsb' 8 4), w.extractLsb' 6 2⟩)
  else if w.extractLsb' 0 6 = 24#6 then
    some (.vaddw ⟨q, w.extractLsb' 20 4, w.extractLsb' 16 4, w.extractLsb' 12 4, ETy.ofCode (w.extractLsb' 8 4), w.extractLsb' 6 2⟩)
  else if w.extractLsb' 0 6 = 25#6 then
    some (.vsubw ⟨q, w.extractLsb' 20 4, w.extractLsb' 16 4, w.extractLsb' 12 4, ETy.ofCode (w.extractLsb' 8 4), w.extractLsb' 6 2⟩)
  else if w.extractLsb' 0 6 = 26#6 then
    some (.vmulw ⟨q, w.extractLsb' 20 4, w.extractLsb' 16 4, w.extractLsb' 12 4, ETy.ofCode (w.extractLsb' 8 4), w.extractLsb' 6 2⟩)
  else if w.extractLsb' 0 6 = 27#6 then
    some (.vmacw ⟨q, w.extractLsb' 20 4, w.extractLsb' 16 4, w.extractLsb' 12 4, ETy.ofCode (w.extractLsb' 8 4), w.extractLsb' 6 2⟩)
  else if w.extractLsb' 22 2 = 0#2 ∧ w.extractLsb' 0 6 = 32#6 then
    some (.vcmpEq ⟨q, w.extractLsb' 20 2, w.extractLsb' 16 4, w.extractLsb' 12 4, ETy.ofCode (w.extractLsb' 8 4), w.extractLsb' 6 2⟩)
  else if w.extractLsb' 22 2 = 0#2 ∧ w.extractLsb' 0 6 = 33#6 then
    some (.vcmpNe ⟨q, w.extractLsb' 20 2, w.extractLsb' 16 4, w.extractLsb' 12 4, ETy.ofCode (w.extractLsb' 8 4), w.extractLsb' 6 2⟩)
  else if w.extractLsb' 22 2 = 0#2 ∧ w.extractLsb' 0 6 = 34#6 then
    some (.vcmpLt ⟨q, w.extractLsb' 20 2, w.extractLsb' 16 4, w.extractLsb' 12 4, ETy.ofCode (w.extractLsb' 8 4), w.extractLsb' 6 2⟩)
  else if w.extractLsb' 22 2 = 0#2 ∧ w.extractLsb' 0 6 = 35#6 then
    some (.vcmpLe ⟨q, w.extractLsb' 20 2, w.extractLsb' 16 4, w.extractLsb' 12 4, ETy.ofCode (w.extractLsb' 8 4), w.extractLsb' 6 2⟩)
  else none

/-- Major 0x21 (R40). -/
def decodeVfp (q : Seq) (w : Word) : Option Instr :=
  if w.extractLsb' 3 3 = 0#3 then
    (Rm.ofCode (w.extractLsb' 0 3)).map fun r => .vfadd ⟨q, w.extractLsb' 20 4, w.extractLsb' 16 4, w.extractLsb' 12 4, ETy.ofCode (w.extractLsb' 8 4), w.extractLsb' 6 2, r⟩
  else if w.extractLsb' 3 3 = 1#3 then
    (Rm.ofCode (w.extractLsb' 0 3)).map fun r => .vfsub ⟨q, w.extractLsb' 20 4, w.extractLsb' 16 4, w.extractLsb' 12 4, ETy.ofCode (w.extractLsb' 8 4), w.extractLsb' 6 2, r⟩
  else if w.extractLsb' 3 3 = 2#3 then
    (Rm.ofCode (w.extractLsb' 0 3)).map fun r => .vfmul ⟨q, w.extractLsb' 20 4, w.extractLsb' 16 4, w.extractLsb' 12 4, ETy.ofCode (w.extractLsb' 8 4), w.extractLsb' 6 2, r⟩
  else if w.extractLsb' 3 3 = 3#3 then
    (Rm.ofCode (w.extractLsb' 0 3)).map fun r => .vfma ⟨q, w.extractLsb' 20 4, w.extractLsb' 16 4, w.extractLsb' 12 4, ETy.ofCode (w.extractLsb' 8 4), w.extractLsb' 6 2, r⟩
  else if w.extractLsb' 3 3 = 4#3 then
    (Rm.ofCode (w.extractLsb' 0 3)).map fun r => .vfmulw ⟨q, w.extractLsb' 20 4, w.extractLsb' 16 4, w.extractLsb' 12 4, ETy.ofCode (w.extractLsb' 8 4), w.extractLsb' 6 2, r⟩
  else if w.extractLsb' 3 3 = 5#3 then
    (Rm.ofCode (w.extractLsb' 0 3)).map fun r => .vfmaw ⟨q, w.extractLsb' 20 4, w.extractLsb' 16 4, w.extractLsb' 12 4, ETy.ofCode (w.extractLsb' 8 4), w.extractLsb' 6 2, r⟩
  else if w.extractLsb' 3 3 = 6#3 then
    (Rm.ofCode (w.extractLsb' 0 3)).map fun r => .vfmul2 ⟨q, w.extractLsb' 20 4, w.extractLsb' 16 4, w.extractLsb' 12 4, ETy.ofCode (w.extractLsb' 8 4), w.extractLsb' 6 2, r⟩
  else if w.extractLsb' 0 6 = 56#6 then
    some (.vfmin ⟨q, w.extractLsb' 20 4, w.extractLsb' 16 4, w.extractLsb' 12 4, ETy.ofCode (w.extractLsb' 8 4), w.extractLsb' 6 2⟩)
  else if w.extractLsb' 0 6 = 57#6 then
    some (.vfmax ⟨q, w.extractLsb' 20 4, w.extractLsb' 16 4, w.extractLsb' 12 4, ETy.ofCode (w.extractLsb' 8 4), w.extractLsb' 6 2⟩)
  else if w.extractLsb' 12 4 = 0#4 ∧ w.extractLsb' 0 6 = 58#6 then
    some (.vfabs ⟨q, w.extractLsb' 20 4, w.extractLsb' 16 4, ETy.ofCode (w.extractLsb' 8 4), w.extractLsb' 6 2⟩)
  else if w.extractLsb' 12 4 = 0#4 ∧ w.extractLsb' 0 6 = 59#6 then
    some (.vfneg ⟨q, w.extractLsb' 20 4, w.extractLsb' 16 4, ETy.ofCode (w.extractLsb' 8 4), w.extractLsb' 6 2⟩)
  else if w.extractLsb' 22 2 = 0#2 ∧ w.extractLsb' 0 6 = 60#6 then
    some (.vfcmpEq ⟨q, w.extractLsb' 20 2, w.extractLsb' 16 4, w.extractLsb' 12 4, ETy.ofCode (w.extractLsb' 8 4), w.extractLsb' 6 2⟩)
  else if w.extractLsb' 22 2 = 0#2 ∧ w.extractLsb' 0 6 = 61#6 then
    some (.vfcmpLt ⟨q, w.extractLsb' 20 2, w.extractLsb' 16 4, w.extractLsb' 12 4, ETy.ofCode (w.extractLsb' 8 4), w.extractLsb' 6 2⟩)
  else if w.extractLsb' 22 2 = 0#2 ∧ w.extractLsb' 0 6 = 62#6 then
    some (.vfcmpLe ⟨q, w.extractLsb' 20 2, w.extractLsb' 16 4, w.extractLsb' 12 4, ETy.ofCode (w.extractLsb' 8 4), w.extractLsb' 6 2⟩)
  else if w.extractLsb' 22 2 = 0#2 ∧ w.extractLsb' 0 6 = 63#6 then
    some (.vfcmpUn ⟨q, w.extractLsb' 20 2, w.extractLsb' 16 4, w.extractLsb' 12 4, ETy.ofCode (w.extractLsb' 8 4), w.extractLsb' 6 2⟩)
  else none

/-- Major 0x22 (R40). -/
def decodeVsc (q : Seq) (w : Word) : Option Instr :=
  if w.extractLsb' 0 5 = 0#5 then
    some (.vaddVs ⟨q, w.extractLsb' 20 4, w.extractLsb' 16 4, w.extractLsb' 11 5, ETy.ofCode (w.extractLsb' 7 4), w.extractLsb' 5 2⟩)
  else if w.extractLsb' 0 5 = 16#5 then
    some (.vaddsVs ⟨q, w.extractLsb' 20 4, w.extractLsb' 16 4, w.extractLsb' 11 5, ETy.ofCode (w.extractLsb' 7 4), w.extractLsb' 5 2⟩)
  else if w.extractLsb' 0 5 = 1#5 then
    some (.vsubVs ⟨q, w.extractLsb' 20 4, w.extractLsb' 16 4, w.extractLsb' 11 5, ETy.ofCode (w.extractLsb' 7 4), w.extractLsb' 5 2⟩)
  else if w.extractLsb' 0 5 = 17#5 then
    some (.vsubsVs ⟨q, w.extractLsb' 20 4, w.extractLsb' 16 4, w.extractLsb' 11 5, ETy.ofCode (w.extractLsb' 7 4), w.extractLsb' 5 2⟩)
  else if w.extractLsb' 0 5 = 2#5 then
    some (.vrsubVs ⟨q, w.extractLsb' 20 4, w.extractLsb' 16 4, w.extractLsb' 11 5, ETy.ofCode (w.extractLsb' 7 4), w.extractLsb' 5 2⟩)
  else if w.extractLsb' 0 5 = 18#5 then
    some (.vrsubsVs ⟨q, w.extractLsb' 20 4, w.extractLsb' 16 4, w.extractLsb' 11 5, ETy.ofCode (w.extractLsb' 7 4), w.extractLsb' 5 2⟩)
  else if w.extractLsb' 0 5 = 3#5 then
    some (.vmulVs ⟨q, w.extractLsb' 20 4, w.extractLsb' 16 4, w.extractLsb' 11 5, ETy.ofCode (w.extractLsb' 7 4), w.extractLsb' 5 2⟩)
  else if w.extractLsb' 0 5 = 19#5 then
    some (.vmulsVs ⟨q, w.extractLsb' 20 4, w.extractLsb' 16 4, w.extractLsb' 11 5, ETy.ofCode (w.extractLsb' 7 4), w.extractLsb' 5 2⟩)
  else if w.extractLsb' 0 5 = 4#5 then
    some (.vmacVs ⟨q, w.extractLsb' 20 4, w.extractLsb' 16 4, w.extractLsb' 11 5, ETy.ofCode (w.extractLsb' 7 4), w.extractLsb' 5 2⟩)
  else if w.extractLsb' 0 5 = 20#5 then
    some (.vmacsVs ⟨q, w.extractLsb' 20 4, w.extractLsb' 16 4, w.extractLsb' 11 5, ETy.ofCode (w.extractLsb' 7 4), w.extractLsb' 5 2⟩)
  else if w.extractLsb' 0 5 = 5#5 then
    some (.vminVs ⟨q, w.extractLsb' 20 4, w.extractLsb' 16 4, w.extractLsb' 11 5, ETy.ofCode (w.extractLsb' 7 4), w.extractLsb' 5 2⟩)
  else if w.extractLsb' 0 5 = 6#5 then
    some (.vmaxVs ⟨q, w.extractLsb' 20 4, w.extractLsb' 16 4, w.extractLsb' 11 5, ETy.ofCode (w.extractLsb' 7 4), w.extractLsb' 5 2⟩)
  else if w.extractLsb' 0 5 = 7#5 then
    some (.vandVs ⟨q, w.extractLsb' 20 4, w.extractLsb' 16 4, w.extractLsb' 11 5, ETy.ofCode (w.extractLsb' 7 4), w.extractLsb' 5 2⟩)
  else if w.extractLsb' 0 5 = 8#5 then
    some (.vorVs ⟨q, w.extractLsb' 20 4, w.extractLsb' 16 4, w.extractLsb' 11 5, ETy.ofCode (w.extractLsb' 7 4), w.extractLsb' 5 2⟩)
  else if w.extractLsb' 0 5 = 9#5 then
    some (.vxorVs ⟨q, w.extractLsb' 20 4, w.extractLsb' 16 4, w.extractLsb' 11 5, ETy.ofCode (w.extractLsb' 7 4), w.extractLsb' 5 2⟩)
  else if w.extractLsb' 0 5 = 10#5 then
    some (.vshlVs ⟨q, w.extractLsb' 20 4, w.extractLsb' 16 4, w.extractLsb' 11 5, ETy.ofCode (w.extractLsb' 7 4), w.extractLsb' 5 2⟩)
  else if w.extractLsb' 0 5 = 11#5 then
    some (.vshrVs ⟨q, w.extractLsb' 20 4, w.extractLsb' 16 4, w.extractLsb' 11 5, ETy.ofCode (w.extractLsb' 7 4), w.extractLsb' 5 2⟩)
  else if w.extractLsb' 16 4 = 0#4 ∧ w.extractLsb' 0 5 = 12#5 then
    some (.vsplat ⟨q, w.extractLsb' 20 4, w.extractLsb' 11 5, ETy.ofCode (w.extractLsb' 7 4), w.extractLsb' 5 2⟩)
  else if w.extractLsb' 0 5 = 13#5 then
    some (.vslup ⟨q, w.extractLsb' 20 4, w.extractLsb' 16 4, w.extractLsb' 11 5, ETy.ofCode (w.extractLsb' 7 4), w.extractLsb' 5 2⟩)
  else if w.extractLsb' 0 5 = 29#5 then
    some (.vrotup ⟨q, w.extractLsb' 20 4, w.extractLsb' 16 4, w.extractLsb' 11 5, ETy.ofCode (w.extractLsb' 7 4), w.extractLsb' 5 2⟩)
  else if w.extractLsb' 0 5 = 14#5 then
    some (.vsldn ⟨q, w.extractLsb' 20 4, w.extractLsb' 16 4, w.extractLsb' 11 5, ETy.ofCode (w.extractLsb' 7 4), w.extractLsb' 5 2⟩)
  else if w.extractLsb' 0 5 = 30#5 then
    some (.vrotdn ⟨q, w.extractLsb' 20 4, w.extractLsb' 16 4, w.extractLsb' 11 5, ETy.ofCode (w.extractLsb' 7 4), w.extractLsb' 5 2⟩)
  else if w.extractLsb' 20 4 = 0#4 ∧ w.extractLsb' 0 7 = 15#7 then
    some (.vget ⟨q, w.extractLsb' 16 4, w.extractLsb' 11 5, ETy.ofCode (w.extractLsb' 7 4)⟩)
  else none

/-- Major 0x23 (R40). -/
def decodeVconv (q : Seq) (w : Word) : Option Instr :=
  if w.extractLsb' 3 3 = 0#3 then
    (Rm.ofCode (w.extractLsb' 0 3)).map fun r => .vcvt ⟨q, w.extractLsb' 20 4, w.extractLsb' 16 4, ETy.ofCode (w.extractLsb' 12 4), ETy.ofCode (w.extractLsb' 8 4), w.extractLsb' 6 2, r⟩
  else if w.extractLsb' 3 3 = 1#3 then
    (Rm.ofCode (w.extractLsb' 0 3)).map fun r => .vcvts ⟨q, w.extractLsb' 20 4, w.extractLsb' 16 4, ETy.ofCode (w.extractLsb' 12 4), ETy.ofCode (w.extractLsb' 8 4), w.extractLsb' 6 2, r⟩
  else if w.extractLsb' 3 5 = 2#5 then
    (Rm.ofCode (w.extractLsb' 0 3)).map fun r => .vbpack16 ⟨q, w.extractLsb' 20 4, w.extractLsb' 16 4, ETy.ofCode (w.extractLsb' 12 4), ETy.ofCode (w.extractLsb' 8 4), r⟩
  else if w.extractLsb' 3 5 = 3#5 then
    (Rm.ofCode (w.extractLsb' 0 3)).map fun r => .vbpack32 ⟨q, w.extractLsb' 20 4, w.extractLsb' 16 4, ETy.ofCode (w.extractLsb' 12 4), ETy.ofCode (w.extractLsb' 8 4), r⟩
  else if w.extractLsb' 3 5 = 4#5 then
    (Rm.ofCode (w.extractLsb' 0 3)).map fun r => .vbpack64 ⟨q, w.extractLsb' 20 4, w.extractLsb' 16 4, ETy.ofCode (w.extractLsb' 12 4), ETy.ofCode (w.extractLsb' 8 4), r⟩
  else if w.extractLsb' 3 3 = 5#3 then
    (Rm.ofCode (w.extractLsb' 0 3)).map fun r => .vbunpack16 ⟨q, w.extractLsb' 20 4, w.extractLsb' 16 4, ETy.ofCode (w.extractLsb' 12 4), ETy.ofCode (w.extractLsb' 8 4), w.extractLsb' 6 2, r⟩
  else if w.extractLsb' 3 3 = 6#3 then
    (Rm.ofCode (w.extractLsb' 0 3)).map fun r => .vbunpack32 ⟨q, w.extractLsb' 20 4, w.extractLsb' 16 4, ETy.ofCode (w.extractLsb' 12 4), ETy.ofCode (w.extractLsb' 8 4), w.extractLsb' 6 2, r⟩
  else if w.extractLsb' 3 3 = 7#3 then
    (Rm.ofCode (w.extractLsb' 0 3)).map fun r => .vbunpack64 ⟨q, w.extractLsb' 20 4, w.extractLsb' 16 4, ETy.ofCode (w.extractLsb' 12 4), ETy.ofCode (w.extractLsb' 8 4), w.extractLsb' 6 2, r⟩
  else none

/-- Major 0x24 (R40). -/
def decodeVperm (q : Seq) (w : Word) : Option Instr :=
  if w.extractLsb' 12 4 = 0#4 ∧ w.extractLsb' 0 6 = 0#6 then
    some (.vmov ⟨q, w.extractLsb' 20 4, w.extractLsb' 16 4, ETy.ofCode (w.extractLsb' 8 4), w.extractLsb' 6 2⟩)
  else if w.extractLsb' 0 6 = 1#6 then
    some (.vmerge ⟨q, w.extractLsb' 20 4, w.extractLsb' 16 4, w.extractLsb' 12 4, ETy.ofCode (w.extractLsb' 8 4), w.extractLsb' 6 2⟩)
  else if w.extractLsb' 0 6 = 2#6 then
    some (.vperm ⟨q, w.extractLsb' 20 4, w.extractLsb' 16 4, w.extractLsb' 12 4, ETy.ofCode (w.extractLsb' 8 4), w.extractLsb' 6 2⟩)
  else if w.extractLsb' 12 4 = 0#4 ∧ w.extractLsb' 0 6 = 3#6 then
    some (.vcompress ⟨q, w.extractLsb' 20 4, w.extractLsb' 16 4, ETy.ofCode (w.extractLsb' 8 4), w.extractLsb' 6 2⟩)
  else if w.extractLsb' 12 4 = 0#4 ∧ w.extractLsb' 0 6 = 4#6 then
    some (.vexpand ⟨q, w.extractLsb' 20 4, w.extractLsb' 16 4, ETy.ofCode (w.extractLsb' 8 4), w.extractLsb' 6 2⟩)
  else if w.extractLsb' 12 4 = 0#4 ∧ w.extractLsb' 0 6 = 5#6 then
    some (.vgather ⟨q, w.extractLsb' 20 4, w.extractLsb' 16 4, ETy.ofCode (w.extractLsb' 8 4), w.extractLsb' 6 2⟩)
  else if w.extractLsb' 20 4 = 0#4 ∧ w.extractLsb' 0 6 = 6#6 then
    some (.vscatter ⟨q, w.extractLsb' 16 4, w.extractLsb' 12 4, ETy.ofCode (w.extractLsb' 8 4), w.extractLsb' 6 2⟩)
  else if w.extractLsb' 0 8 = 7#8 then
    some (.vzip ⟨q, w.extractLsb' 20 4, w.extractLsb' 16 4, w.extractLsb' 12 4, ETy.ofCode (w.extractLsb' 8 4)⟩)
  else if w.extractLsb' 12 4 = 0#4 ∧ w.extractLsb' 0 8 = 8#8 then
    some (.vunzip ⟨q, w.extractLsb' 20 4, w.extractLsb' 16 4, ETy.ofCode (w.extractLsb' 8 4)⟩)
  else if w.extractLsb' 12 4 = 0#4 ∧ w.extractLsb' 0 6 = 9#6 then
    some (.vrev ⟨q, w.extractLsb' 20 4, w.extractLsb' 16 4, ETy.ofCode (w.extractLsb' 8 4), w.extractLsb' 6 2⟩)
  else none

/-- Major 0x25 (R40). -/
def decodeVred (q : Seq) (w : Word) : Option Instr :=
  if w.extractLsb' 12 4 = 0#4 ∧ w.extractLsb' 3 3 = 0#3 then
    some (.vrsum ⟨q, w.extractLsb' 20 4, w.extractLsb' 16 4, ETy.ofCode (w.extractLsb' 8 4), w.extractLsb' 6 2, w.extractLsb' 0 3⟩)
  else if w.extractLsb' 12 4 = 0#4 ∧ w.extractLsb' 3 3 = 1#3 then
    some (.vrmin ⟨q, w.extractLsb' 20 4, w.extractLsb' 16 4, ETy.ofCode (w.extractLsb' 8 4), w.extractLsb' 6 2, w.extractLsb' 0 3⟩)
  else if w.extractLsb' 12 4 = 0#4 ∧ w.extractLsb' 3 3 = 2#3 then
    some (.vrmax ⟨q, w.extractLsb' 20 4, w.extractLsb' 16 4, ETy.ofCode (w.extractLsb' 8 4), w.extractLsb' 6 2, w.extractLsb' 0 3⟩)
  else if w.extractLsb' 12 4 = 0#4 ∧ w.extractLsb' 3 3 = 3#3 then
    some (.vrsumw ⟨q, w.extractLsb' 20 4, w.extractLsb' 16 4, ETy.ofCode (w.extractLsb' 8 4), w.extractLsb' 6 2, w.extractLsb' 0 3⟩)
  else if w.extractLsb' 3 3 = 4#3 then
    some (.vdot ⟨q, w.extractLsb' 20 4, w.extractLsb' 16 4, w.extractLsb' 12 4, ETy.ofCode (w.extractLsb' 8 4), w.extractLsb' 6 2, w.extractLsb' 0 3⟩)
  else if w.extractLsb' 3 3 = 5#3 then
    some (.vdota ⟨q, w.extractLsb' 20 4, w.extractLsb' 16 4, w.extractLsb' 12 4, ETy.ofCode (w.extractLsb' 8 4), w.extractLsb' 6 2, w.extractLsb' 0 3⟩)
  else if w.extractLsb' 3 3 = 6#3 then
    some (.vdot2 ⟨q, w.extractLsb' 20 4, w.extractLsb' 16 4, w.extractLsb' 12 4, ETy.ofCode (w.extractLsb' 8 4), w.extractLsb' 6 2, w.extractLsb' 0 3⟩)
  else if w.extractLsb' 3 3 = 7#3 then
    some (.vdot2a ⟨q, w.extractLsb' 20 4, w.extractLsb' 16 4, w.extractLsb' 12 4, ETy.ofCode (w.extractLsb' 8 4), w.extractLsb' 6 2, w.extractLsb' 0 3⟩)
  else none

/-- Major 0x26 (R40). -/
def decodeVsfu (q : Seq) (w : Word) : Option Instr :=
  if w.extractLsb' 12 4 = 0#4 ∧ w.extractLsb' 0 6 = 0#6 then
    some (.vrcp ⟨q, w.extractLsb' 20 4, w.extractLsb' 16 4, ETy.ofCode (w.extractLsb' 8 4), w.extractLsb' 6 2⟩)
  else if w.extractLsb' 12 4 = 0#4 ∧ w.extractLsb' 0 6 = 1#6 then
    some (.vrsq ⟨q, w.extractLsb' 20 4, w.extractLsb' 16 4, ETy.ofCode (w.extractLsb' 8 4), w.extractLsb' 6 2⟩)
  else if w.extractLsb' 0 6 = 2#6 then
    some (.vrefRcp ⟨q, w.extractLsb' 20 4, w.extractLsb' 16 4, w.extractLsb' 12 4, ETy.ofCode (w.extractLsb' 8 4), w.extractLsb' 6 2⟩)
  else if w.extractLsb' 0 6 = 3#6 then
    some (.vrefRsq ⟨q, w.extractLsb' 20 4, w.extractLsb' 16 4, w.extractLsb' 12 4, ETy.ofCode (w.extractLsb' 8 4), w.extractLsb' 6 2⟩)
  else if w.extractLsb' 12 4 = 0#4 ∧ w.extractLsb' 0 6 = 4#6 then
    some (.vsqrt ⟨q, w.extractLsb' 20 4, w.extractLsb' 16 4, ETy.ofCode (w.extractLsb' 8 4), w.extractLsb' 6 2⟩)
  else if w.extractLsb' 12 4 = 0#4 ∧ w.extractLsb' 0 6 = 5#6 then
    some (.vexp2 ⟨q, w.extractLsb' 20 4, w.extractLsb' 16 4, ETy.ofCode (w.extractLsb' 8 4), w.extractLsb' 6 2⟩)
  else if w.extractLsb' 12 4 = 0#4 ∧ w.extractLsb' 0 6 = 6#6 then
    some (.vexp ⟨q, w.extractLsb' 20 4, w.extractLsb' 16 4, ETy.ofCode (w.extractLsb' 8 4), w.extractLsb' 6 2⟩)
  else if w.extractLsb' 12 4 = 0#4 ∧ w.extractLsb' 0 6 = 7#6 then
    some (.vlog2 ⟨q, w.extractLsb' 20 4, w.extractLsb' 16 4, ETy.ofCode (w.extractLsb' 8 4), w.extractLsb' 6 2⟩)
  else if w.extractLsb' 12 4 = 0#4 ∧ w.extractLsb' 0 6 = 8#6 then
    some (.vtanh ⟨q, w.extractLsb' 20 4, w.extractLsb' 16 4, ETy.ofCode (w.extractLsb' 8 4), w.extractLsb' 6 2⟩)
  else if w.extractLsb' 12 4 = 0#4 ∧ w.extractLsb' 0 6 = 9#6 then
    some (.vsig ⟨q, w.extractLsb' 20 4, w.extractLsb' 16 4, ETy.ofCode (w.extractLsb' 8 4), w.extractLsb' 6 2⟩)
  else none

/-- Major 0x27 (R40). -/
def decodeVmask (q : Seq) (w : Word) : Option Instr :=
  if w.extractLsb' 22 2 = 0#2 ∧ w.extractLsb' 18 2 = 0#2 ∧ w.extractLsb' 14 2 = 0#2 ∧ w.extractLsb' 0 12 = 0#12 then
    some (.mand ⟨q, w.extractLsb' 20 2, w.extractLsb' 16 2, w.extractLsb' 12 2⟩)
  else if w.extractLsb' 22 2 = 0#2 ∧ w.extractLsb' 18 2 = 0#2 ∧ w.extractLsb' 14 2 = 0#2 ∧ w.extractLsb' 0 12 = 1#12 then
    some (.mor ⟨q, w.extractLsb' 20 2, w.extractLsb' 16 2, w.extractLsb' 12 2⟩)
  else if w.extractLsb' 22 2 = 0#2 ∧ w.extractLsb' 18 2 = 0#2 ∧ w.extractLsb' 14 2 = 0#2 ∧ w.extractLsb' 0 12 = 2#12 then
    some (.mxor ⟨q, w.extractLsb' 20 2, w.extractLsb' 16 2, w.extractLsb' 12 2⟩)
  else if w.extractLsb' 22 2 = 0#2 ∧ w.extractLsb' 18 2 = 0#2 ∧ w.extractLsb' 14 2 = 0#2 ∧ w.extractLsb' 0 12 = 3#12 then
    some (.mandn ⟨q, w.extractLsb' 20 2, w.extractLsb' 16 2, w.extractLsb' 12 2⟩)
  else if w.extractLsb' 22 2 = 0#2 ∧ w.extractLsb' 18 2 = 0#2 ∧ w.extractLsb' 0 16 = 4#16 then
    some (.mnot ⟨q, w.extractLsb' 20 2, w.extractLsb' 16 2⟩)
  else if w.extractLsb' 22 2 = 0#2 ∧ w.extractLsb' 18 2 = 0#2 ∧ w.extractLsb' 0 16 = 5#16 then
    some (.mmov ⟨q, w.extractLsb' 20 2, w.extractLsb' 16 2⟩)
  else if w.extractLsb' 22 2 = 0#2 ∧ w.extractLsb' 18 2 = 0#2 ∧ w.extractLsb' 12 4 = 0#4 ∧ w.extractLsb' 0 8 = 6#8 then
    some (.mfirst ⟨q, w.extractLsb' 20 2, w.extractLsb' 16 2, ETy.ofCode (w.extractLsb' 8 4)⟩)
  else if w.extractLsb' 12 8 = 0#8 ∧ w.extractLsb' 0 6 = 7#6 then
    some (.viota ⟨q, w.extractLsb' 20 4, ETy.ofCode (w.extractLsb' 8 4), w.extractLsb' 6 2⟩)
  else if w.extractLsb' 18 2 = 0#2 ∧ w.extractLsb' 12 4 = 0#4 ∧ w.extractLsb' 0 8 = 8#8 then
    some (.vmpopc ⟨q, w.extractLsb' 20 4, w.extractLsb' 16 2, ETy.ofCode (w.extractLsb' 8 4)⟩)
  else if w.extractLsb' 18 2 = 0#2 ∧ w.extractLsb' 12 4 = 0#4 ∧ w.extractLsb' 0 6 = 9#6 then
    some (.vmtov ⟨q, w.extractLsb' 20 4, w.extractLsb' 16 2, ETy.ofCode (w.extractLsb' 8 4), w.extractLsb' 6 2⟩)
  else if w.extractLsb' 22 2 = 0#2 ∧ w.extractLsb' 12 4 = 0#4 ∧ w.extractLsb' 0 6 = 10#6 then
    some (.vvtom ⟨q, w.extractLsb' 20 2, w.extractLsb' 16 4, ETy.ofCode (w.extractLsb' 8 4), w.extractLsb' 6 2⟩)
  else if w.extractLsb' 23 1 = 0#1 ∧ w.extractLsb' 18 2 = 0#2 ∧ w.extractLsb' 12 4 = 0#4 ∧ w.extractLsb' 0 8 = 11#8 then
    some (.vany ⟨q, w.extractLsb' 20 3, w.extractLsb' 16 2, ETy.ofCode (w.extractLsb' 8 4)⟩)
  else if w.extractLsb' 23 1 = 0#1 ∧ w.extractLsb' 18 2 = 0#2 ∧ w.extractLsb' 12 4 = 0#4 ∧ w.extractLsb' 0 8 = 12#8 then
    some (.vall ⟨q, w.extractLsb' 20 3, w.extractLsb' 16 2, ETy.ofCode (w.extractLsb' 8 4)⟩)
  else none

/-- Major 0x0d, F-X (R40, R45). -/
def decodeFlow (q : Seq) (w x : Word) : Except Reject Instr :=
  if w.extractLsb' 0 9 = 0x7#9 then
    if ¬ (w.extractLsb' 9 15 = 0#15) then .error .word0 else
    if x.extractLsb' 0 32 = 0#32 then .ok (.yield ⟨q⟩)
    else .error .ext
  else if w.extractLsb' 0 9 = 0x8#9 then
    if ¬ (w.extractLsb' 9 15 = 0#15) then .error .word0 else
    if x.extractLsb' 0 32 = 0#32 then .ok (.done ⟨q⟩)
    else .error .ext
  else if w.extractLsb' 0 9 = 0x9#9 then
    if ¬ (w.extractLsb' 9 15 = 0#15) then .error .word0 else
    if x.extractLsb' 0 32 = 0#32 then .ok (.nop ⟨q⟩)
    else .error .ext
  else if w.extractLsb' 0 9 = 0x0#9 then
    if ¬ (w.extractLsb' 9 15 = 0#15) then .error .word0 else
    .ok (.loop ⟨q, x.extractLsb' 16 16, x.extractLsb' 0 16⟩)
  else if w.extractLsb' 0 9 = 0x1#9 then
    if ¬ (w.extractLsb' 19 5 = 0#5 ∧ w.extractLsb' 9 5 = 0#5) then .error .word0 else
    if x.extractLsb' 16 15 = 0#15 then .ok (.loopReg ⟨q, w.extractLsb' 14 5, x.getLsbD 31, x.extractLsb' 0 16⟩)
    else .error .ext
  else if w.extractLsb' 0 9 = 0x2#9 then
    if ¬ (w.extractLsb' 9 15 = 0#15) then .error .word0 else
    if x.extractLsb' 5 11 = 0#11 then .ok (.rpt ⟨q, x.extractLsb' 16 16, x.extractLsb' 0 5⟩)
    else .error .ext
  else if w.extractLsb' 0 9 = 0x3#9 then
    if ¬ (w.extractLsb' 19 5 = 0#5 ∧ w.extractLsb' 9 5 = 0#5) then .error .word0 else
    if x.extractLsb' 5 26 = 0#26 then .ok (.rptReg ⟨q, w.extractLsb' 14 5, x.getLsbD 31, x.extractLsb' 0 5⟩)
    else .error .ext
  else if w.extractLsb' 0 9 = 0x4#9 then
    if ¬ (w.extractLsb' 22 2 = 0#2 ∧ w.extractLsb' 9 10 = 0#10) then .error .word0 else
    .ok (.setw ⟨q, w.extractLsb' 19 3, x.extractLsb' 0 32⟩)
  else if w.extractLsb' 0 9 = 0x5#9 then
    if ¬ (w.extractLsb' 22 2 = 0#2 ∧ w.extractLsb' 9 5 = 0#5) then .error .word0 else
    if x.extractLsb' 0 31 = 0#31 then .ok (.setwReg ⟨q, w.extractLsb' 19 3, w.extractLsb' 14 5, x.getLsbD 31⟩)
    else .error .ext
  else if w.extractLsb' 0 9 = 0x6#9 then
    if ¬ (w.extractLsb' 17 2 = 0#2 ∧ w.extractLsb' 9 5 = 0#5) then .error .word0 else
    if x.extractLsb' 0 32 = 0#32 then .ok (.getw ⟨q, w.extractLsb' 19 5, w.extractLsb' 14 3⟩)
    else .error .ext
  else .error .word0

/-- Major 0x0e, F-X (R40, R45). -/
def decodeSys (q : Seq) (w x : Word) : Except Reject Instr :=
  if w.extractLsb' 0 9 = 0x4#9 then
    if ¬ (w.extractLsb' 9 15 = 0#15) then .error .word0 else
    if x.extractLsb' 0 32 = 0#32 then .ok (.ifence ⟨q⟩)
    else .error .ext
  else if w.extractLsb' 0 9 = 0x3#9 then
    if ¬ (w.extractLsb' 9 5 = 0#5) then .error .word0 else
    if x.extractLsb' 0 31 = 0#31 then .ok (.capr ⟨q, w.extractLsb' 19 5, w.extractLsb' 14 5, x.getLsbD 31⟩)
    else .error .ext
  else if w.extractLsb' 0 9 = 0x0#9 then
    if ¬ (w.extractLsb' 9 15 = 0#15) then .error .word0 else
    .ok (.trap ⟨q, x.extractLsb' 0 32⟩)
  else if w.extractLsb' 0 9 = 0x1#9 then
    if ¬ (w.extractLsb' 9 10 = 0#10) then .error .word0 else
    if x.extractLsb' 12 20 = 0#20 then .ok (.mfs ⟨q, w.extractLsb' 19 5, x.extractLsb' 0 12⟩)
    else .error .ext
  else if w.extractLsb' 0 9 = 0x2#9 then
    if ¬ (w.extractLsb' 19 5 = 0#5 ∧ w.extractLsb' 9 5 = 0#5) then .error .word0 else
    if x.extractLsb' 12 19 = 0#19 then .ok (.mts ⟨q, w.extractLsb' 14 5, x.getLsbD 31, x.extractLsb' 0 12⟩)
    else .error .ext
  else .error .word0

/-- Major 0x17, F-X (R40, R45). -/
def decodeAsync (q : Seq) (w x : Word) : Except Reject Instr :=
  if w.extractLsb' 0 9 = 0x1#9 then
    if ¬ (w.extractLsb' 22 2 = 0#2 ∧ w.extractLsb' 9 5 = 0#5) then .error .word0 else
    if x.extractLsb' 0 30 = 0#30 then .ok (.cpyt ⟨q, w.extractLsb' 19 3, w.extractLsb' 14 5, x.getLsbD 31, x.getLsbD 30⟩)
    else .error .ext
  else if w.extractLsb' 0 9 = 0x0#9 then
    if ¬ (w.extractLsb' 22 2 = 0#2) then .error .word0 else
    if x.extractLsb' 28 1 = 0#1 ∧ x.extractLsb' 25 1 = 0#1 then .ok (.cpy ⟨q, w.extractLsb' 19 3, w.extractLsb' 14 5, w.extractLsb' 9 5, x.getLsbD 31, x.getLsbD 30, x.getLsbD 29, x.extractLsb' 26 2, x.extractLsb' 23 2, x.extractLsb' 0 23⟩)
    else .error .ext
  else if w.extractLsb' 0 9 = 0x2#9 then
    if ¬ (w.extractLsb' 22 2 = 0#2 ∧ w.extractLsb' 9 5 = 0#5) then .error .word0 else
    if x.extractLsb' 0 31 = 0#31 then .ok (.cpyc ⟨q, w.extractLsb' 19 3, w.extractLsb' 14 5, x.getLsbD 31⟩)
    else .error .ext
  else if w.extractLsb' 0 9 = 0x3#9 then
    if x.extractLsb' 0 10 = 0#10 then .ok (.aop ⟨q, w.extractLsb' 19 5, w.extractLsb' 14 5, w.extractLsb' 9 5, x.getLsbD 31, x.getLsbD 30, x.getLsbD 29, x.getLsbD 28, x.extractLsb' 25 3, x.extractLsb' 23 2, x.extractLsb' 20 3, x.extractLsb' 15 5, x.extractLsb' 11 4, x.extractLsb' 10 1⟩)
    else .error .ext
  else .error .word0

/-- Major 0x18, F-X (R40, R45). -/
def decodeHandle (q : Seq) (w x : Word) : Except Reject Instr :=
  if w.extractLsb' 0 9 = 0x7#9 then
    if ¬ (w.extractLsb' 9 10 = 0#10) then .error .word0 else
    if x.extractLsb' 0 32 = 0#32 then .ok (.emptyG ⟨q, w.extractLsb' 19 5⟩)
    else .error .ext
  else if w.extractLsb' 0 9 = 0x0#9 then
    if ¬ (w.extractLsb' 17 2 = 0#2 ∧ w.extractLsb' 9 5 = 0#5) then .error .word0 else
    if x.extractLsb' 8 23 = 0#23 then .ok (.hwait ⟨q, w.extractLsb' 19 5, w.extractLsb' 14 3, x.getLsbD 31, x.extractLsb' 5 3, x.extractLsb' 0 5⟩)
    else .error .ext
  else if w.extractLsb' 0 9 = 0x1#9 then
    if ¬ (w.extractLsb' 22 2 = 0#2 ∧ w.extractLsb' 17 2 = 0#2 ∧ w.extractLsb' 9 5 = 0#5) then .error .word0 else
    if x.extractLsb' 0 32 = 0#32 then .ok (.htest ⟨q, w.extractLsb' 19 3, w.extractLsb' 14 3⟩)
    else .error .ext
  else if w.extractLsb' 0 9 = 0x2#9 then
    if ¬ (w.extractLsb' 17 7 = 0#7 ∧ w.extractLsb' 9 5 = 0#5) then .error .word0 else
    if x.extractLsb' 0 32 = 0#32 then .ok (.hcancel ⟨q, w.extractLsb' 14 3⟩)
    else .error .ext
  else if w.extractLsb' 0 9 = 0x3#9 then
    if ¬ (w.extractLsb' 22 2 = 0#2 ∧ w.extractLsb' 17 2 = 0#2 ∧ w.extractLsb' 9 5 = 0#5) then .error .word0 else
    if x.extractLsb' 0 31 = 0#31 then .ok (.hmovH ⟨q, w.extractLsb' 19 3, w.extractLsb' 14 3, x.getLsbD 31⟩)
    else .error .ext
  else if w.extractLsb' 0 9 = 0x4#9 then
    if ¬ (w.extractLsb' 22 2 = 0#2 ∧ w.extractLsb' 9 5 = 0#5) then .error .word0 else
    if x.extractLsb' 0 31 = 0#31 then .ok (.hmovG ⟨q, w.extractLsb' 19 3, w.extractLsb' 14 5, x.getLsbD 31⟩)
    else .error .ext
  else if w.extractLsb' 0 9 = 0x5#9 then
    if ¬ (w.extractLsb' 14 5 = 0#5) then .error .word0 else
    if x.extractLsb' 1 31 = 0#31 then .ok (.inbox ⟨q, w.extractLsb' 19 5, w.extractLsb' 9 5, x.getLsbD 0⟩)
    else .error .ext
  else if w.extractLsb' 0 9 = 0x6#9 then
    if ¬ (w.extractLsb' 9 15 = 0#15) then .error .word0 else
    if x.extractLsb' 10 22 = 0#22 ∧ x.extractLsb' 8 2 = 1#2 then .ok (.fenceAcq ⟨q, x.extractLsb' 5 3, x.extractLsb' 0 5⟩)
    else if x.extractLsb' 10 22 = 0#22 ∧ x.extractLsb' 8 2 = 2#2 then .ok (.fenceRel ⟨q, x.extractLsb' 5 3, x.extractLsb' 0 5⟩)
    else if x.extractLsb' 10 22 = 0#22 ∧ x.extractLsb' 8 2 = 3#2 then .ok (.fenceFull ⟨q, x.extractLsb' 5 3, x.extractLsb' 0 5⟩)
    else .error .ext
  else if w.extractLsb' 0 9 = 0x8#9 then
    if ¬ (w.extractLsb' 23 1 = 0#1 ∧ w.extractLsb' 9 10 = 0#10) then .error .word0 else
    if x.extractLsb' 0 32 = 0#32 then .ok (.emptyV ⟨q, w.extractLsb' 19 4⟩)
    else .error .ext
  else if w.extractLsb' 0 9 = 0x9#9 then
    if ¬ (w.extractLsb' 22 2 = 0#2 ∧ w.extractLsb' 9 10 = 0#10) then .error .word0 else
    if x.extractLsb' 0 32 = 0#32 then .ok (.emptyH ⟨q, w.extractLsb' 19 3⟩)
    else .error .ext
  else .error .word0

/-- Major 0x19, F-X (R40, R45). -/
def decodeStream (q : Seq) (w x : Word) : Except Reject Instr :=
  if w.extractLsb' 0 9 = 0x0#9 then
    if ¬ (w.extractLsb' 21 3 = 0#3) then .error .word0 else
    if x.extractLsb' 2 28 = 0#28 then .ok (.bind ⟨q, w.extractLsb' 19 2, w.extractLsb' 14 5, w.extractLsb' 9 5, x.getLsbD 31, x.getLsbD 30, x.extractLsb' 0 2⟩)
    else .error .ext
  else if w.extractLsb' 0 9 = 0x1#9 then
    if ¬ (w.extractLsb' 16 3 = 0#3 ∧ w.extractLsb' 9 5 = 0#5) then .error .word0 else
    if x.extractLsb' 0 32 = 0#32 then .ok (.unbind ⟨q, w.extractLsb' 19 5, w.extractLsb' 14 2⟩)
    else .error .ext
  else .error .word0

/-- Major 0x1a, F-X (R40, R45). -/
def decodeGmem (q : Seq) (w x : Word) : Except Reject Instr :=
  if w.extractLsb' 0 9 = 0xa#9 then
    if x.extractLsb' 0 12 = 0#12 then .ok (.ginj ⟨q, w.extractLsb' 19 5, w.extractLsb' 14 5, w.extractLsb' 9 5, x.getLsbD 31, x.getLsbD 30, x.getLsbD 29, x.extractLsb' 28 1, x.extractLsb' 18 10, x.extractLsb' 12 6⟩)
    else .error .ext
  else if w.extractLsb' 0 9 = 0x0#9 then
    if ¬ (w.extractLsb' 9 5 = 0#5) then .error .word0 else
    if x.extractLsb' 24 7 = 0#7 then .ok (.gld ⟨q, w.extractLsb' 19 5, w.extractLsb' 14 5, x.getLsbD 31, x.extractLsb' 0 24⟩)
    else .error .ext
  else if w.extractLsb' 0 9 = 0x1#9 then
    if ¬ (w.extractLsb' 9 5 = 0#5) then .error .word0 else
    if x.extractLsb' 24 6 = 0#6 then .ok (.gst ⟨q, w.extractLsb' 19 5, w.extractLsb' 14 5, x.getLsbD 31, x.getLsbD 30, x.extractLsb' 0 24⟩)
    else .error .ext
  else if w.extractLsb' 0 9 = 0x2#9 then
    if ¬ (w.extractLsb' 23 1 = 0#1 ∧ w.extractLsb' 9 5 = 0#5) then .error .word0 else
    if x.extractLsb' 30 1 = 0#1 ∧ x.extractLsb' 24 5 = 0#5 then .ok (.gldv ⟨q, w.extractLsb' 19 4, w.extractLsb' 14 5, x.getLsbD 31, x.extractLsb' 29 1, x.extractLsb' 0 24⟩)
    else .error .ext
  else if w.extractLsb' 0 9 = 0x3#9 then
    if ¬ (w.extractLsb' 23 1 = 0#1 ∧ w.extractLsb' 9 5 = 0#5) then .error .word0 else
    if x.extractLsb' 30 1 = 0#1 ∧ x.extractLsb' 24 5 = 0#5 then .ok (.gstv ⟨q, w.extractLsb' 19 4, w.extractLsb' 14 5, x.getLsbD 31, x.extractLsb' 29 1, x.extractLsb' 0 24⟩)
    else .error .ext
  else if w.extractLsb' 0 9 = 0x4#9 then
    if ¬ (w.extractLsb' 23 1 = 0#1) then .error .word0 else
    if x.extractLsb' 4 26 = 0#26 then .ok (.gldt ⟨q, w.extractLsb' 19 4, w.extractLsb' 14 5, w.extractLsb' 9 5, x.getLsbD 31, x.getLsbD 30, ETy.ofCode (x.extractLsb' 0 4)⟩)
    else .error .ext
  else if w.extractLsb' 0 9 = 0x5#9 then
    if ¬ (w.extractLsb' 23 1 = 0#1) then .error .word0 else
    if x.extractLsb' 4 26 = 0#26 then .ok (.gstt ⟨q, w.extractLsb' 19 4, w.extractLsb' 14 5, w.extractLsb' 9 5, x.getLsbD 31, x.getLsbD 30, ETy.ofCode (x.extractLsb' 0 4)⟩)
    else .error .ext
  else if w.extractLsb' 0 9 = 0x6#9 then
    if ¬ (w.extractLsb' 19 5 = 0#5) then .error .word0 else
    if x.extractLsb' 15 15 = 0#15 ∧ x.extractLsb' 0 10 = 0#10 then .ok (.gred ⟨q, w.extractLsb' 14 5, w.extractLsb' 9 5, x.getLsbD 31, x.getLsbD 30, x.extractLsb' 11 4, x.extractLsb' 10 1⟩)
    else .error .ext
  else if w.extractLsb' 0 9 = 0x7#9 then
    if ¬ (w.extractLsb' 18 6 = 0#6 ∧ w.extractLsb' 9 5 = 0#5) then .error .word0 else
    if x.extractLsb' 4 28 = 0#28 then .ok (.gsend ⟨q, w.extractLsb' 14 4, x.extractLsb' 0 4⟩)
    else .error .ext
  else if w.extractLsb' 0 9 = 0x8#9 then
    if ¬ (w.extractLsb' 23 1 = 0#1 ∧ w.extractLsb' 9 10 = 0#10) then .error .word0 else
    if x.extractLsb' 4 28 = 0#28 then .ok (.grecv ⟨q, w.extractLsb' 19 4, x.extractLsb' 0 4⟩)
    else .error .ext
  else if w.extractLsb' 0 9 = 0x9#9 then
    if ¬ (w.extractLsb' 19 5 = 0#5) then .error .word0 else
    if x.extractLsb' 8 22 = 0#22 then .ok (.gpfill ⟨q, w.extractLsb' 14 5, w.extractLsb' 9 5, x.getLsbD 31, x.getLsbD 30, x.extractLsb' 0 8⟩)
    else .error .ext
  else .error .word0

/-- Major 0x1b, F-X (R40, R45). -/
def decodeTmap (q : Seq) (w x : Word) : Except Reject Instr :=
  if w.extractLsb' 0 9 = 0x0#9 then
    if ¬ (w.extractLsb' 9 5 = 0#5) then .error .word0 else
    if x.extractLsb' 6 24 = 0#24 then .ok (.tmld ⟨q, w.extractLsb' 19 5, w.extractLsb' 14 5, x.getLsbD 31, x.getLsbD 30, x.extractLsb' 0 6⟩)
    else .error .ext
  else if w.extractLsb' 0 9 = 0x1#9 then
    if ¬ (w.extractLsb' 9 5 = 0#5) then .error .word0 else
    if x.extractLsb' 6 24 = 0#24 then .ok (.tmst ⟨q, w.extractLsb' 19 5, w.extractLsb' 14 5, x.getLsbD 31, x.getLsbD 30, x.extractLsb' 0 6⟩)
    else .error .ext
  else if w.extractLsb' 0 9 = 0x2#9 then
    if ¬ (w.extractLsb' 19 5 = 0#5 ∧ w.extractLsb' 9 5 = 0#5) then .error .word0 else
    if x.extractLsb' 6 25 = 0#25 then .ok (.tmwr ⟨q, w.extractLsb' 14 5, x.getLsbD 31, x.extractLsb' 0 6⟩)
    else .error .ext
  else .error .word0

/-- Major 0x28, F-X (R40, R45). -/
def decodeVchain (q : Seq) (w x : Word) : Except Reject Instr :=
  if w.extractLsb' 0 9 = 0x0#9 then
    if x.extractLsb' 15 14 = 0#14 then .ok (.vchain ⟨q, w.extractLsb' 19 5, w.extractLsb' 14 5, w.extractLsb' 9 5, x.getLsbD 31, x.getLsbD 30, x.getLsbD 29, x.extractLsb' 0 15⟩)
    else .error .ext
  else .error .word0

/-- Major 0x29, F-X (R40, R45). -/
def decodeVacc (q : Seq) (w x : Word) : Except Reject Instr :=
  if w.extractLsb' 0 9 = 0x0#9 then
    if ¬ (w.extractLsb' 23 1 = 0#1) then .error .word0 else
    if x.extractLsb' 29 1 = 0#1 ∧ x.extractLsb' 0 29 = 0#29 then .ok (.vrdac ⟨q, w.extractLsb' 19 4, w.extractLsb' 14 5, w.extractLsb' 9 5, x.getLsbD 31, x.getLsbD 30⟩)
    else if x.extractLsb' 29 1 = 1#1 ∧ x.extractLsb' 0 29 = 0#29 then .ok (.vrdacSnoop ⟨q, w.extractLsb' 19 4, w.extractLsb' 14 5, w.extractLsb' 9 5, x.getLsbD 31, x.getLsbD 30⟩)
    else .error .ext
  else if w.extractLsb' 0 9 = 0x1#9 then
    if ¬ (w.extractLsb' 23 1 = 0#1) then .error .word0 else
    if x.extractLsb' 0 30 = 0#30 then .ok (.vwrac ⟨q, w.extractLsb' 19 4, w.extractLsb' 14 5, w.extractLsb' 9 5, x.getLsbD 31, x.getLsbD 30⟩)
    else .error .ext
  else if w.extractLsb' 0 9 = 0x2#9 then
    if ¬ (w.extractLsb' 19 5 = 0#5) then .error .word0 else
    if x.extractLsb' 9 21 = 0#21 then .ok (.aclr ⟨q, w.extractLsb' 14 5, w.extractLsb' 9 5, x.getLsbD 31, x.getLsbD 30, x.extractLsb' 0 9⟩)
    else .error .ext
  else .error .word0

/-- Major 0x30, F-X (R40, R45). -/
def decodeRing (q : Seq) (w x : Word) : Except Reject Instr :=
  if w.extractLsb' 0 9 = 0x7#9 then
    if ¬ (w.extractLsb' 9 15 = 0#15) then .error .word0 else
    if x.extractLsb' 0 32 = 0#32 then .ok (.rstart ⟨q⟩)
    else .error .ext
  else if w.extractLsb' 0 9 = 0x8#9 then
    if ¬ (w.extractLsb' 9 15 = 0#15) then .error .word0 else
    if x.extractLsb' 0 32 = 0#32 then .ok (.rreset ⟨q⟩)
    else .error .ext
  else if w.extractLsb' 0 9 = 0x5#9 then
    if ¬ (w.extractLsb' 9 10 = 0#10) then .error .word0 else
    if x.extractLsb' 0 32 = 0#32 then .ok (.rstat ⟨q, w.extractLsb' 19 5⟩)
    else .error .ext
  else if w.extractLsb' 0 9 = 0x6#9 then
    if ¬ (w.extractLsb' 9 10 = 0#10) then .error .word0 else
    if x.extractLsb' 0 32 = 0#32 then .ok (.rwait ⟨q, w.extractLsb' 19 5⟩)
    else .error .ext
  else if w.extractLsb' 0 9 = 0x0#9 then
    if x.extractLsb' 0 28 = 0#28 then .ok (.rinj ⟨q, w.extractLsb' 19 5, w.extractLsb' 14 5, w.extractLsb' 9 5, x.getLsbD 31, x.getLsbD 30, x.getLsbD 29, x.extractLsb' 28 1⟩)
    else .error .ext
  else if w.extractLsb' 0 9 = 0x1#9 then
    if x.extractLsb' 0 12 = 0#12 then .ok (.rinjr ⟨q, w.extractLsb' 19 5, w.extractLsb' 14 5, w.extractLsb' 9 5, x.getLsbD 31, x.getLsbD 30, x.getLsbD 29, x.extractLsb' 28 1, x.extractLsb' 18 10, x.extractLsb' 12 6⟩)
    else .error .ext
  else if w.extractLsb' 0 9 = 0x2#9 then
    if ¬ (w.extractLsb' 9 10 = 0#10) then .error .word0 else
    if x.extractLsb' 29 3 = 0#3 ∧ x.extractLsb' 0 28 = 0#28 then .ok (.rpark ⟨q, w.extractLsb' 19 5, x.extractLsb' 28 1⟩)
    else .error .ext
  else if w.extractLsb' 0 9 = 0x3#9 then
    if ¬ (w.extractLsb' 9 10 = 0#10) then .error .word0 else
    if x.extractLsb' 29 3 = 0#3 ∧ x.extractLsb' 1 27 = 0#27 then .ok (.runpark ⟨q, w.extractLsb' 19 5, x.extractLsb' 28 1, x.extractLsb' 0 1⟩)
    else .error .ext
  else if w.extractLsb' 0 9 = 0x4#9 then
    if ¬ (w.extractLsb' 9 10 = 0#10) then .error .word0 else
    if x.extractLsb' 29 3 = 0#3 ∧ x.extractLsb' 2 26 = 0#26 then .ok (.rtire ⟨q, w.extractLsb' 19 5, x.extractLsb' 28 1, x.extractLsb' 0 2⟩)
    else .error .ext
  else if w.extractLsb' 0 9 = 0x9#9 then
    if ¬ (w.extractLsb' 9 15 = 0#15) then .error .word0 else
    if x.extractLsb' 2 30 = 0#30 then .ok (.rmode ⟨q, x.extractLsb' 0 1, x.getLsbD 1⟩)
    else .error .ext
  else .error .word0

/-- Major 0x31, F-X (R40, R45). -/
def decodeJunc (q : Seq) (w x : Word) : Except Reject Instr :=
  if w.extractLsb' 0 9 = 0x0#9 then
    if ¬ (w.extractLsb' 19 5 = 0#5 ∧ w.extractLsb' 9 5 = 0#5) then .error .word0 else
    if x.extractLsb' 0 31 = 0#31 then .ok (.jwr ⟨q, w.extractLsb' 14 5, x.getLsbD 31⟩)
    else .error .ext
  else if w.extractLsb' 0 9 = 0x1#9 then
    if ¬ (w.extractLsb' 19 5 = 0#5 ∧ w.extractLsb' 9 5 = 0#5) then .error .word0 else
    if x.extractLsb' 6 25 = 0#25 then .ok (.jrd ⟨q, w.extractLsb' 14 5, x.getLsbD 31, x.extractLsb' 0 6⟩)
    else .error .ext
  else .error .word0

/-- Major 0x32, F-X (R40, R45). -/
def decodeConvoy (q : Seq) (w x : Word) : Except Reject Instr :=
  if w.extractLsb' 0 9 = 0x3#9 then
    if ¬ (w.extractLsb' 9 15 = 0#15) then .error .word0 else
    if x.extractLsb' 0 32 = 0#32 then .ok (.abort ⟨q⟩)
    else .error .ext
  else if w.extractLsb' 0 9 = 0x4#9 then
    if ¬ (w.extractLsb' 9 15 = 0#15) then .error .word0 else
    if x.extractLsb' 0 32 = 0#32 then .ok (.abchk ⟨q⟩)
    else .error .ext
  else if w.extractLsb' 0 9 = 0x6#9 then
    if ¬ (w.extractLsb' 9 15 = 0#15) then .error .word0 else
    if x.extractLsb' 0 32 = 0#32 then .ok (.trig ⟨q⟩)
    else .error .ext
  else if w.extractLsb' 0 9 = 0x5#9 then
    if ¬ (w.extractLsb' 9 10 = 0#10) then .error .word0 else
    if x.extractLsb' 0 32 = 0#32 then .ok (.sstep ⟨q, w.extractLsb' 19 5⟩)
    else .error .ext
  else if w.extractLsb' 0 9 = 0x0#9 then
    if ¬ (w.extractLsb' 9 15 = 0#15) then .error .word0 else
    if x.extractLsb' 12 20 = 0#20 then .ok (.join ⟨q, x.extractLsb' 0 12⟩)
    else .error .ext
  else if w.extractLsb' 0 9 = 0x1#9 then
    if ¬ (w.extractLsb' 9 15 = 0#15) then .error .word0 else
    if x.extractLsb' 12 20 = 0#20 then .ok (.leave ⟨q, x.extractLsb' 0 12⟩)
    else .error .ext
  else if w.extractLsb' 0 9 = 0x2#9 then
    if ¬ (w.extractLsb' 9 10 = 0#10) then .error .word0 else
    if x.extractLsb' 20 12 = 0#12 then .ok (.bar ⟨q, w.extractLsb' 19 5, x.extractLsb' 15 5, x.extractLsb' 12 3, x.extractLsb' 0 12⟩)
    else .error .ext
  else .error .word0

/-- Major 0x38, F-X (R40, R45). -/
def decodeOpt (q : Seq) (w x : Word) : Except Reject Instr :=
  if w.extractLsb' 0 9 = 0x1#9 then
    if ¬ (w.extractLsb' 19 5 = 0#5 ∧ w.extractLsb' 9 5 = 0#5) then .error .word0 else
    if x.extractLsb' 0 31 = 0#31 then .ok (.afree ⟨q, w.extractLsb' 14 5, x.getLsbD 31⟩)
    else .error .ext
  else if w.extractLsb' 0 9 = 0x2#9 then
    if ¬ (w.extractLsb' 22 2 = 0#2) then .error .word0 else
    if x.extractLsb' 0 29 = 0#29 then .ok (.opass ⟨q, w.extractLsb' 19 3, w.extractLsb' 14 5, w.extractLsb' 9 5, x.getLsbD 31, x.getLsbD 30, x.getLsbD 29⟩)
    else .error .ext
  else if w.extractLsb' 0 9 = 0x3#9 then
    if ¬ (w.extractLsb' 22 2 = 0#2) then .error .word0 else
    if x.extractLsb' 0 29 = 0#29 then .ok (.opassr ⟨q, w.extractLsb' 19 3, w.extractLsb' 14 5, w.extractLsb' 9 5, x.getLsbD 31, x.getLsbD 30, x.getLsbD 29⟩)
    else .error .ext
  else if w.extractLsb' 0 9 = 0x4#9 then
    if ¬ (w.extractLsb' 22 2 = 0#2) then .error .word0 else
    if x.extractLsb' 0 29 = 0#29 then .ok (.oprobe ⟨q, w.extractLsb' 19 3, w.extractLsb' 14 5, w.extractLsb' 9 5, x.getLsbD 31, x.getLsbD 30, x.getLsbD 29⟩)
    else .error .ext
  else if w.extractLsb' 0 9 = 0x0#9 then
    if ¬ (w.extractLsb' 9 5 = 0#5) then .error .word0 else
    if x.extractLsb' 2 29 = 0#29 then .ok (.alease ⟨q, w.extractLsb' 19 5, w.extractLsb' 14 5, x.getLsbD 31, x.extractLsb' 0 2⟩)
    else .error .ext
  else .error .word0

/-- Major 0x39, F-X (R40, R45). -/
def decodePhase (q : Seq) (w x : Word) : Except Reject Instr :=
  if w.extractLsb' 0 9 = 0x5#9 then
    if ¬ (w.extractLsb' 9 5 = 0#5) then .error .word0 else
    if x.extractLsb' 0 31 = 0#31 then .ok (.ostat ⟨q, w.extractLsb' 19 5, w.extractLsb' 14 5, x.getLsbD 31⟩)
    else .error .ext
  else if w.extractLsb' 0 9 = 0x0#9 then
    if ¬ (w.extractLsb' 22 2 = 0#2) then .error .word0 else
    if x.extractLsb' 0 29 = 0#29 then .ok (.phld ⟨q, w.extractLsb' 19 3, w.extractLsb' 14 5, w.extractLsb' 9 5, x.getLsbD 31, x.getLsbD 30, x.getLsbD 29⟩)
    else .error .ext
  else if w.extractLsb' 0 9 = 0x1#9 then
    if ¬ (w.extractLsb' 22 2 = 0#2) then .error .word0 else
    if x.extractLsb' 0 29 = 0#29 then .ok (.phdec ⟨q, w.extractLsb' 19 3, w.extractLsb' 14 5, w.extractLsb' 9 5, x.getLsbD 31, x.getLsbD 30, x.getLsbD 29⟩)
    else .error .ext
  else if w.extractLsb' 0 9 = 0x2#9 then
    if ¬ (w.extractLsb' 22 2 = 0#2) then .error .word0 else
    if x.extractLsb' 0 29 = 0#29 then .ok (.phadj ⟨q, w.extractLsb' 19 3, w.extractLsb' 14 5, w.extractLsb' 9 5, x.getLsbD 31, x.getLsbD 30, x.getLsbD 29⟩)
    else .error .ext
  else if w.extractLsb' 0 9 = 0x3#9 then
    if ¬ (w.extractLsb' 22 2 = 0#2) then .error .word0 else
    if x.extractLsb' 0 29 = 0#29 then .ok (.phwr ⟨q, w.extractLsb' 19 3, w.extractLsb' 14 5, w.extractLsb' 9 5, x.getLsbD 31, x.getLsbD 30, x.getLsbD 29⟩)
    else .error .ext
  else if w.extractLsb' 0 9 = 0x4#9 then
    if ¬ (w.extractLsb' 22 2 = 0#2) then .error .word0 else
    if x.extractLsb' 0 29 = 0#29 then .ok (.phrd ⟨q, w.extractLsb' 19 3, w.extractLsb' 14 5, w.extractLsb' 9 5, x.getLsbD 31, x.getLsbD 30, x.getLsbD 29⟩)
    else .error .ext
  else .error .word0

/-- Major 0x3c, F-X (R40, R45). -/
def decodePkg (q : Seq) (w x : Word) : Except Reject Instr :=
  if w.extractLsb' 0 9 = 0x1#9 then
    if ¬ (w.extractLsb' 9 10 = 0#10) then .error .word0 else
    if x.extractLsb' 0 32 = 0#32 then .ok (.pctr ⟨q, w.extractLsb' 19 5⟩)
    else .error .ext
  else if w.extractLsb' 0 9 = 0x0#9 then
    if ¬ (w.extractLsb' 22 2 = 0#2 ∧ w.extractLsb' 9 5 = 0#5) then .error .word0 else
    if x.extractLsb' 30 1 = 0#1 ∧ x.extractLsb' 0 29 = 0#29 then .ok (.pcast ⟨q, w.extractLsb' 19 3, w.extractLsb' 14 5, x.getLsbD 31, x.getLsbD 29⟩)
    else .error .ext
  else if w.extractLsb' 0 9 = 0x2#9 then
    if ¬ (w.extractLsb' 22 2 = 0#2 ∧ w.extractLsb' 9 5 = 0#5) then .error .word0 else
    if x.extractLsb' 30 1 = 0#1 ∧ x.extractLsb' 0 29 = 0#29 then .ok (.pquote ⟨q, w.extractLsb' 19 3, w.extractLsb' 14 5, x.getLsbD 31, x.getLsbD 29⟩)
    else .error .ext
  else .error .word0

/-- Major 0x3d, F-X (R40, R45). -/
def decodeFab (q : Seq) (w x : Word) : Except Reject Instr :=
  if w.extractLsb' 0 9 = 0x0#9 then
    if ¬ (w.extractLsb' 22 2 = 0#2) then .error .word0 else
    if x.extractLsb' 23 2 = 0#2 then .ok (.fput ⟨q, w.extractLsb' 19 3, w.extractLsb' 14 5, w.extractLsb' 9 5, x.getLsbD 31, x.getLsbD 30, x.getLsbD 29, x.getLsbD 28, x.extractLsb' 25 3, x.extractLsb' 0 23⟩)
    else .error .ext
  else if w.extractLsb' 0 9 = 0x1#9 then
    if ¬ (w.extractLsb' 22 2 = 0#2) then .error .word0 else
    if x.extractLsb' 28 1 = 0#1 ∧ x.extractLsb' 23 2 = 0#2 then .ok (.fget ⟨q, w.extractLsb' 19 3, w.extractLsb' 14 5, w.extractLsb' 9 5, x.getLsbD 31, x.getLsbD 30, x.getLsbD 29, x.extractLsb' 25 3, x.extractLsb' 0 23⟩)
    else .error .ext
  else if w.extractLsb' 0 9 = 0x2#9 then
    if ¬ (w.extractLsb' 22 2 = 0#2) then .error .word0 else
    if x.extractLsb' 16 12 = 0#12 then .ok (.fsend ⟨q, w.extractLsb' 19 3, w.extractLsb' 14 5, w.extractLsb' 9 5, x.getLsbD 31, x.getLsbD 30, x.getLsbD 29, x.getLsbD 28, x.extractLsb' 0 16⟩)
    else .error .ext
  else if w.extractLsb' 0 9 = 0x3#9 then
    if ¬ (w.extractLsb' 14 5 = 0#5) then .error .word0 else
    if x.extractLsb' 14 18 = 0#18 ∧ x.extractLsb' 1 7 = 0#7 then .ok (.frecv ⟨q, w.extractLsb' 19 5, w.extractLsb' 9 5, x.extractLsb' 8 6, x.getLsbD 0⟩)
    else .error .ext
  else if w.extractLsb' 0 9 = 0x4#9 then
    if ¬ (w.extractLsb' 19 5 = 0#5) then .error .word0 else
    if x.extractLsb' 0 30 = 0#30 then .ok (.fcut ⟨q, w.extractLsb' 14 5, w.extractLsb' 9 5, x.getLsbD 31, x.getLsbD 30⟩)
    else .error .ext
  else if w.extractLsb' 0 9 = 0x5#9 then
    if ¬ (w.extractLsb' 19 5 = 0#5 ∧ w.extractLsb' 9 5 = 0#5) then .error .word0 else
    if x.extractLsb' 8 23 = 0#23 then .ok (.fwin ⟨q, w.extractLsb' 14 5, x.getLsbD 31, x.extractLsb' 0 8⟩)
    else .error .ext
  else if w.extractLsb' 0 9 = 0x6#9 then
    if ¬ (w.extractLsb' 19 5 = 0#5 ∧ w.extractLsb' 9 5 = 0#5) then .error .word0 else
    if x.extractLsb' 7 24 = 0#24 ∧ x.extractLsb' 0 4 = 0#4 then .ok (.fctlPolicy ⟨q, w.extractLsb' 14 5, x.getLsbD 31, x.extractLsb' 4 3⟩)
    else if x.extractLsb' 7 24 = 0#24 ∧ x.extractLsb' 0 4 = 1#4 then .ok (.fctlExcise ⟨q, w.extractLsb' 14 5, x.getLsbD 31, x.extractLsb' 4 3⟩)
    else if x.extractLsb' 7 24 = 0#24 ∧ x.extractLsb' 0 4 = 2#4 then .ok (.fctlReadmit ⟨q, w.extractLsb' 14 5, x.getLsbD 31, x.extractLsb' 4 3⟩)
    else .error .ext
  else if w.extractLsb' 0 9 = 0x7#9 then
    if ¬ (w.extractLsb' 9 10 = 0#10) then .error .word0 else
    if x.extractLsb' 3 29 = 0#29 then .ok (.fpstat ⟨q, w.extractLsb' 19 5, x.extractLsb' 0 3⟩)
    else .error .ext
  else .error .word0

/-- Major 0x3e, F-X (R40, R45). -/
def decodeDet (q : Seq) (w x : Word) : Except Reject Instr :=
  if w.extractLsb' 0 9 = 0x1#9 then
    if ¬ (w.extractLsb' 9 15 = 0#15) then .error .word0 else
    if x.extractLsb' 0 32 = 0#32 then .ok (.dclr ⟨q⟩)
    else .error .ext
  else if w.extractLsb' 0 9 = 0x3#9 then
    if ¬ (w.extractLsb' 9 15 = 0#15) then .error .word0 else
    if x.extractLsb' 0 32 = 0#32 then .ok (.ddrain ⟨q⟩)
    else .error .ext
  else if w.extractLsb' 0 9 = 0x0#9 then
    if ¬ (w.extractLsb' 9 10 = 0#10) then .error .word0 else
    if x.extractLsb' 0 32 = 0#32 then .ok (.dstat ⟨q, w.extractLsb' 19 5⟩)
    else .error .ext
  else if w.extractLsb' 0 9 = 0x2#9 then
    if ¬ (w.extractLsb' 19 5 = 0#5 ∧ w.extractLsb' 9 5 = 0#5) then .error .word0 else
    if x.extractLsb' 0 31 = 0#31 then .ok (.dmark ⟨q, w.extractLsb' 14 5, x.getLsbD 31⟩)
    else .error .ext
  else .error .word0

/-- Word 0 as majors with a format of one word read it (R40): none where word 0 holds a reserved value. -/
def decodeOne (q : Seq) (w : Word) : Option Instr :=
  match (w.extractLsb' 24 6).toNat with
  | 0x01 => decodeInt q w
  | 0x02 => decodeAddi q w
  | 0x03 => decodeAndi q w
  | 0x04 => decodeOri q w
  | 0x05 => decodeXori q w
  | 0x06 => decodeShi q w
  | 0x07 => decodeCmpi q w
  | 0x08 => decodeLi q w
  | 0x09 => decodeLih q w
  | 0x0a => decodeAddai q w
  | 0x0b => decodeFp q w
  | 0x0c => decodePred q w
  | 0x10 => decodeLd q w
  | 0x11 => decodeSt q w
  | 0x12 => decodeLdv q w
  | 0x13 => decodeStv q w
  | 0x14 => decodeLdy q w
  | 0x15 => decodeSty q w
  | 0x16 => decodeVy q w
  | 0x20 => decodeVint q w
  | 0x21 => decodeVfp q w
  | 0x22 => decodeVsc q w
  | 0x23 => decodeVconv q w
  | 0x24 => decodeVperm q w
  | 0x25 => decodeVred q w
  | 0x26 => decodeVsfu q w
  | 0x27 => decodeVmask q w
  | _ => none

/-- A two-word unit (F-X, R40, R45). -/
def decodeTwo (q : Seq) (w x : Word) : Except Reject Instr :=
  match (w.extractLsb' 24 6).toNat with
  | 0x0d => decodeFlow q w x
  | 0x0e => decodeSys q w x
  | 0x17 => decodeAsync q w x
  | 0x18 => decodeHandle q w x
  | 0x19 => decodeStream q w x
  | 0x1a => decodeGmem q w x
  | 0x1b => decodeTmap q w x
  | 0x28 => decodeVchain q w x
  | 0x29 => decodeVacc q w x
  | 0x30 => decodeRing q w x
  | 0x31 => decodeJunc q w x
  | 0x32 => decodeConvoy q w x
  | 0x38 => decodeOpt q w x
  | 0x39 => decodePhase q w x
  | 0x3c => decodePkg q w x
  | 0x3d => decodeFab q w x
  | 0x3e => decodeDet q w x
  | _ => .error .word0
/-- The majors of R40 whose format is F-X. -/
def majorTwo (maj : BitVec 6) : Bool :=
  maj.toNat ∈ [0x0D, 0x0E, 0x17, 0x18, 0x19, 0x1A, 0x1B, 0x28, 0x29, 0x30, 0x31, 0x32, 0x38, 0x39,
    0x3C, 0x3D, 0x3E]

/-- The majors of R40 whose format is one word. -/
def majorOne (maj : BitVec 6) : Bool :=
  (0x01 ≤ maj.toNat && maj.toNat ≤ 0x0C) || (0x10 ≤ maj.toNat && maj.toNat ≤ 0x16)
    || (0x20 ≤ maj.toNat && maj.toNat ≤ 0x27)

/-- The majors of R40 that are reserved on the decoding kind of core (R50). -/
def majorReserved (ramp : Bool) (maj : BitVec 6) : Bool :=
  !(majorOne maj || majorTwo maj) || (rampMajor maj && !ramp)

/-- Words of a unit, decided by its first word alone (R39). -/
def unitWords (ramp : Bool) (w : Word) : Nat :=
  if majorReserved ramp (w.extractLsb' 24 6) then 1
  else 1 + (if majorTwo (w.extractLsb' 24 6) then 1 else 0)
    + (if w.extractLsb' 30 2 = 3 then 1 else 0)

/-- A unit's instruction read with its sequencing part q, before the checks of WellFormed. -/
def decodeFields (q : Seq) (w x : Word) : Except Reject Instr :=
  if majorTwo (w.extractLsb' 24 6) then decodeTwo q w x
  else match decodeOne q w with
    | some i => .ok i
    | none => .error .word0

/-- Whether word 0 of an F-X unit names a form that is unavailable on the decoding kind of core (R50, R237, R286,
R313), known without its extension word. -/
def unavailable (ramp : Bool) (w : Word) : Bool :=
  let fn := (w.extractLsb' 0 9).toNat
  match (w.extractLsb' 24 6).toNat with
  | 0x17 => ramp && fn ≤ 2
  | 0x19 | 0x29 | 0x31 | 0x38 | 0x39 => ramp
  | 0x30 => if ramp then fn ≠ 1 else fn = 1
  | _ => false

/-- Whether a unit whose extension word is reserved has a reserved value in word 0 as well, which R51 reports
first: an unavailable form, or aop's load with its unused B. -/
def word0Too (ramp : Bool) (w x : Word) : Bool :=
  unavailable ramp w ||
    (w.extractLsb' 24 6 = 0x17#6 && w.extractLsb' 0 9 = 3#9 && x.extractLsb' 11 4 = 11#4 && w.extractLsb' 9 5 ≠ 0#5)

/-- A unit from its word 0, extension word and sequencing word (words it does not have are ignored).
Reserved values are looked for in the order of R51. -/
def decodeUnit (ramp : Bool) (w x sw : Word) : Except Reject Instr :=
  if majorReserved ramp (w.extractLsb' 24 6) then .error .word0
  else
    match decodeFields ((Seq.ofCode (w.extractLsb' 30 2) sw).getD .next) w x with
    | .error e => .error (if word0Too ramp w x then .word0 else e)
    | .ok i =>
      if !(i.wf0 && i.availableOn ramp) then .error .word0
      else if !i.wfExt then .error .ext
      else if (Seq.ofCode (w.extractLsb' 30 2) sw).isNone then .error .seq
      else .ok i

/-- The decoder: the unit at the head of a list of words, with the number of words it takes. -/
def decode (ramp : Bool) : List Word → Except Reject (Instr × Nat)
  | [] => .error .short
  | w :: rest =>
    let n := unitWords ramp w
    if rest.length + 1 < n then .error .short
    else
      let two := majorTwo (w.extractLsb' 24 6)
      let x := if two then rest.headD 0 else 0
      let sw := if two then rest.tail.headD 0 else rest.headD 0
      (decodeUnit ramp w x sw).map fun i => (i, n)

/-- Little-endian words of a list of bytes (R2); bytes past the last whole word are dropped. -/
def wordsOfBytes : List Byte → List Word
  | b0 :: b1 :: b2 :: b3 :: rest => (b3 ++ b2 ++ b1 ++ b0) :: wordsOfBytes rest
  | _ => []

/-- The decoder on bytes. -/
def decodeBytes (ramp : Bool) (bs : List Byte) : Except Reject (Instr × Nat) :=
  decode ramp (wordsOfBytes bs)

/-- The three words of an instruction whose bits are w, bit 0 the least significant of the first. -/
def tableWords (w : Nat) : List Word :=
  [BitVec.ofNat 32 w, BitVec.ofNat 32 (w >>> 32), BitVec.ofNat 32 (w >>> 64)]

/-- The decoder on a word of the opcode table, on the kind of core that has the instruction. -/
def decodeTableWord (nbits w : Nat) : Option Instr :=
  let ws := tableWords (w % 2 ^ nbits)
  match decode false ws with
  | .ok (i, _) => some i
  | .error _ =>
    match decode true ws with
    | .ok (i, _) => some i
    | .error _ => none

end

/-- Word 0 of an instruction, field by field from bit 31 down (R41 to R45); an event has no word. -/
def encode0 : Instr → Word
  | .add o => o.q.code ++ 0x1#6 ++ o.d ++ o.a ++ o.b ++ 0x0#6 ++ bit o.ta ++ bit o.tb ++ bit o.w
  | .sub o => o.q.code ++ 0x1#6 ++ o.d ++ o.a ++ o.b ++ 0x1#6 ++ bit o.ta ++ bit o.tb ++ bit o.w
  | .mul o => o.q.code ++ 0x1#6 ++ o.d ++ o.a ++ o.b ++ 0x2#6 ++ bit o.ta ++ bit o.tb ++ bit o.w
  | .mulh o => o.q.code ++ 0x1#6 ++ o.d ++ o.a ++ o.b ++ 0x3#6 ++ bit o.ta ++ bit o.tb ++ 0x0#1
  | .mulhu o => o.q.code ++ 0x1#6 ++ o.d ++ o.a ++ o.b ++ 0x4#6 ++ bit o.ta ++ bit o.tb ++ 0x0#1
  | .div o => o.q.code ++ 0x1#6 ++ o.d ++ o.a ++ o.b ++ 0x5#6 ++ bit o.ta ++ bit o.tb ++ bit o.w
  | .divu o => o.q.code ++ 0x1#6 ++ o.d ++ o.a ++ o.b ++ 0x6#6 ++ bit o.ta ++ bit o.tb ++ bit o.w
  | .rem o => o.q.code ++ 0x1#6 ++ o.d ++ o.a ++ o.b ++ 0x7#6 ++ bit o.ta ++ bit o.tb ++ bit o.w
  | .remu o => o.q.code ++ 0x1#6 ++ o.d ++ o.a ++ o.b ++ 0x8#6 ++ bit o.ta ++ bit o.tb ++ bit o.w
  | .and o => o.q.code ++ 0x1#6 ++ o.d ++ o.a ++ o.b ++ 0x9#6 ++ bit o.ta ++ bit o.tb ++ bit o.w
  | .or o => o.q.code ++ 0x1#6 ++ o.d ++ o.a ++ o.b ++ 0xa#6 ++ bit o.ta ++ bit o.tb ++ bit o.w
  | .xor o => o.q.code ++ 0x1#6 ++ o.d ++ o.a ++ o.b ++ 0xb#6 ++ bit o.ta ++ bit o.tb ++ bit o.w
  | .andn o => o.q.code ++ 0x1#6 ++ o.d ++ o.a ++ o.b ++ 0xc#6 ++ bit o.ta ++ bit o.tb ++ bit o.w
  | .shl o => o.q.code ++ 0x1#6 ++ o.d ++ o.a ++ o.b ++ 0xd#6 ++ bit o.ta ++ bit o.tb ++ bit o.w
  | .shr o => o.q.code ++ 0x1#6 ++ o.d ++ o.a ++ o.b ++ 0xe#6 ++ bit o.ta ++ bit o.tb ++ bit o.w
  | .sra o => o.q.code ++ 0x1#6 ++ o.d ++ o.a ++ o.b ++ 0xf#6 ++ bit o.ta ++ bit o.tb ++ bit o.w
  | .rol o => o.q.code ++ 0x1#6 ++ o.d ++ o.a ++ o.b ++ 0x10#6 ++ bit o.ta ++ bit o.tb ++ bit o.w
  | .min o => o.q.code ++ 0x1#6 ++ o.d ++ o.a ++ o.b ++ 0x11#6 ++ bit o.ta ++ bit o.tb ++ bit o.w
  | .max o => o.q.code ++ 0x1#6 ++ o.d ++ o.a ++ o.b ++ 0x12#6 ++ bit o.ta ++ bit o.tb ++ bit o.w
  | .minu o => o.q.code ++ 0x1#6 ++ o.d ++ o.a ++ o.b ++ 0x13#6 ++ bit o.ta ++ bit o.tb ++ bit o.w
  | .maxu o => o.q.code ++ 0x1#6 ++ o.d ++ o.a ++ o.b ++ 0x14#6 ++ bit o.ta ++ bit o.tb ++ bit o.w
  | .clz o => o.q.code ++ 0x1#6 ++ o.d ++ o.a ++ 0x15#11 ++ bit o.ta ++ 0x0#1 ++ bit o.w
  | .ctz o => o.q.code ++ 0x1#6 ++ o.d ++ o.a ++ 0x16#11 ++ bit o.ta ++ 0x0#1 ++ bit o.w
  | .popc o => o.q.code ++ 0x1#6 ++ o.d ++ o.a ++ 0x17#11 ++ bit o.ta ++ 0x0#1 ++ bit o.w
  | .adda o => o.q.code ++ 0x1#6 ++ o.d ++ o.a ++ o.b ++ 0x18#6 ++ bit o.ta ++ bit o.tb ++ 0x0#1
  | .ptag o => o.q.code ++ 0x1#6 ++ o.d ++ o.a ++ o.b ++ 0x19#6 ++ bit o.ta ++ bit o.tb ++ 0x0#1
  | .pfmt o => o.q.code ++ 0x1#6 ++ o.d ++ o.a ++ 0x1a#11 ++ bit o.ta ++ 0x0#2
  | .pva o => o.q.code ++ 0x1#6 ++ o.d ++ o.a ++ 0x1b#11 ++ bit o.ta ++ 0x0#2
  | .cmpEq o => o.q.code ++ 0x1#6 ++ 0x0#2 ++ o.d ++ o.a ++ o.b ++ 0x1c#6 ++ bit o.ta ++ bit o.tb ++ bit o.w
  | .cmpNe o => o.q.code ++ 0x1#6 ++ 0x0#2 ++ o.d ++ o.a ++ o.b ++ 0x1d#6 ++ bit o.ta ++ bit o.tb ++ bit o.w
  | .cmpLt o => o.q.code ++ 0x1#6 ++ 0x0#2 ++ o.d ++ o.a ++ o.b ++ 0x1e#6 ++ bit o.ta ++ bit o.tb ++ bit o.w
  | .cmpLe o => o.q.code ++ 0x1#6 ++ 0x0#2 ++ o.d ++ o.a ++ o.b ++ 0x1f#6 ++ bit o.ta ++ bit o.tb ++ bit o.w
  | .cmpLtu o => o.q.code ++ 0x1#6 ++ 0x0#2 ++ o.d ++ o.a ++ o.b ++ 0x20#6 ++ bit o.ta ++ bit o.tb ++ bit o.w
  | .cmpLeu o => o.q.code ++ 0x1#6 ++ 0x0#2 ++ o.d ++ o.a ++ o.b ++ 0x21#6 ++ bit o.ta ++ bit o.tb ++ bit o.w
  | .addi o => o.q.code ++ 0x2#6 ++ o.d ++ o.a ++ o.i
  | .andi o => o.q.code ++ 0x3#6 ++ o.d ++ o.a ++ o.i
  | .ori o => o.q.code ++ 0x4#6 ++ o.d ++ o.a ++ o.i
  | .xori o => o.q.code ++ 0x5#6 ++ o.d ++ o.a ++ o.i
  | .shli o => o.q.code ++ 0x6#6 ++ o.d ++ o.a ++ 0x0#5 ++ bit o.w ++ 0x0#2 ++ o.n
  | .shri o => o.q.code ++ 0x6#6 ++ o.d ++ o.a ++ 0x0#5 ++ bit o.w ++ 0x1#2 ++ o.n
  | .srai o => o.q.code ++ 0x6#6 ++ o.d ++ o.a ++ 0x0#5 ++ bit o.w ++ 0x2#2 ++ o.n
  | .roli o => o.q.code ++ 0x6#6 ++ o.d ++ o.a ++ 0x0#5 ++ bit o.w ++ 0x3#2 ++ o.n
  | .cmpiEq o => o.q.code ++ 0x7#6 ++ 0x0#2 ++ o.d ++ o.a ++ o.i
  | .cmpiNe o => o.q.code ++ 0x7#6 ++ 0x1#2 ++ o.d ++ o.a ++ o.i
  | .cmpiLt o => o.q.code ++ 0x7#6 ++ 0x2#2 ++ o.d ++ o.a ++ o.i
  | .cmpiLtu o => o.q.code ++ 0x7#6 ++ 0x3#2 ++ o.d ++ o.a ++ o.i
  | .li o => o.q.code ++ 0x8#6 ++ o.d ++ o.i
  | .lih o => o.q.code ++ 0x9#6 ++ o.d ++ o.k ++ 0x0#1 ++ o.h
  | .addai o => o.q.code ++ 0xa#6 ++ o.d ++ o.a ++ o.i
  | .fadd o => o.q.code ++ 0xb#6 ++ o.d ++ o.a ++ o.b ++ 0x0#3 ++ o.r.code ++ bit o.ta ++ bit o.tb ++ 0x0#1
  | .fsub o => o.q.code ++ 0xb#6 ++ o.d ++ o.a ++ o.b ++ 0x1#3 ++ o.r.code ++ bit o.ta ++ bit o.tb ++ 0x0#1
  | .fmul o => o.q.code ++ 0xb#6 ++ o.d ++ o.a ++ o.b ++ 0x2#3 ++ o.r.code ++ bit o.ta ++ bit o.tb ++ 0x0#1
  | .fma o => o.q.code ++ 0xb#6 ++ o.d ++ o.a ++ o.b ++ 0x3#3 ++ o.r.code ++ bit o.ta ++ bit o.tb ++ 0x0#1
  | .fitof o => o.q.code ++ 0xb#6 ++ o.d ++ o.a ++ 0x4#8 ++ o.r.code ++ bit o.ta ++ 0x0#2
  | .fftoi o => o.q.code ++ 0xb#6 ++ o.d ++ o.a ++ 0x5#8 ++ o.r.code ++ bit o.ta ++ 0x0#2
  | .fmin o => o.q.code ++ 0xb#6 ++ o.d ++ o.a ++ o.b ++ 0x30#6 ++ bit o.ta ++ bit o.tb ++ 0x0#1
  | .fmax o => o.q.code ++ 0xb#6 ++ o.d ++ o.a ++ o.b ++ 0x31#6 ++ bit o.ta ++ bit o.tb ++ 0x0#1
  | .fabs o => o.q.code ++ 0xb#6 ++ o.d ++ o.a ++ 0x32#11 ++ bit o.ta ++ 0x0#2
  | .fneg o => o.q.code ++ 0xb#6 ++ o.d ++ o.a ++ 0x33#11 ++ bit o.ta ++ 0x0#2
  | .feq o => o.q.code ++ 0xb#6 ++ 0x0#2 ++ o.d ++ o.a ++ o.b ++ 0x34#6 ++ bit o.ta ++ bit o.tb ++ 0x0#1
  | .flt o => o.q.code ++ 0xb#6 ++ 0x0#2 ++ o.d ++ o.a ++ o.b ++ 0x35#6 ++ bit o.ta ++ bit o.tb ++ 0x0#1
  | .fle o => o.q.code ++ 0xb#6 ++ 0x0#2 ++ o.d ++ o.a ++ o.b ++ 0x36#6 ++ bit o.ta ++ bit o.tb ++ 0x0#1
  | .fun o => o.q.code ++ 0xb#6 ++ 0x0#2 ++ o.d ++ o.a ++ o.b ++ 0x37#6 ++ bit o.ta ++ bit o.tb ++ 0x0#1
  | .frcp o => o.q.code ++ 0xb#6 ++ o.d ++ o.a ++ 0x38#11 ++ bit o.ta ++ 0x0#2
  | .frsq o => o.q.code ++ 0xb#6 ++ o.d ++ o.a ++ 0x39#11 ++ bit o.ta ++ 0x0#2
  | .frefRcp o => o.q.code ++ 0xb#6 ++ o.d ++ o.a ++ o.b ++ 0x3a#6 ++ bit o.ta ++ bit o.tb ++ 0x0#1
  | .frefRsq o => o.q.code ++ 0xb#6 ++ o.d ++ o.a ++ o.b ++ 0x3b#6 ++ bit o.ta ++ bit o.tb ++ 0x0#1
  | .fclass o => o.q.code ++ 0xb#6 ++ o.d ++ o.a ++ 0x3c#11 ++ bit o.ta ++ 0x0#2
  | .pand o => o.q.code ++ 0xc#6 ++ 0x0#2 ++ o.d ++ 0x0#2 ++ o.a ++ 0x0#2 ++ o.b ++ 0x0#9
  | .por o => o.q.code ++ 0xc#6 ++ 0x0#2 ++ o.d ++ 0x0#2 ++ o.a ++ 0x0#2 ++ o.b ++ 0x8#9
  | .pxor o => o.q.code ++ 0xc#6 ++ 0x0#2 ++ o.d ++ 0x0#2 ++ o.a ++ 0x0#2 ++ o.b ++ 0x10#9
  | .pandn o => o.q.code ++ 0xc#6 ++ 0x0#2 ++ o.d ++ 0x0#2 ++ o.a ++ 0x0#2 ++ o.b ++ 0x18#9
  | .pnot o => o.q.code ++ 0xc#6 ++ 0x0#2 ++ o.d ++ 0x0#2 ++ o.a ++ 0x20#14
  | .pmov o => o.q.code ++ 0xc#6 ++ 0x0#2 ++ o.d ++ 0x0#2 ++ o.a ++ 0x28#14
  | .gtop o => o.q.code ++ 0xc#6 ++ 0x0#2 ++ o.d ++ o.a ++ 0x6#11 ++ bit o.ta ++ 0x0#2
  | .ptog o => o.q.code ++ 0xc#6 ++ o.d ++ 0x0#2 ++ o.a ++ 0x38#14
  | .sel o => o.q.code ++ 0xc#6 ++ o.d ++ o.a ++ o.b ++ 0x8#6 ++ bit o.ta ++ bit o.tb ++ 0x0#1
  | .ld o => o.q.code ++ 0x10#6 ++ o.d ++ o.b ++ o.o
  | .st o => o.q.code ++ 0x11#6 ++ o.d ++ o.b ++ o.o
  | .ldv o => o.q.code ++ 0x12#6 ++ 0x0#1 ++ o.d ++ o.b ++ o.o
  | .stv o => o.q.code ++ 0x13#6 ++ 0x0#1 ++ o.d ++ o.b ++ o.o
  | .ldy o => o.q.code ++ 0x14#6 ++ o.d ++ o.b ++ o.o
  | .sty o => o.q.code ++ 0x15#6 ++ o.d ++ o.b ++ o.o
  | .ldvy o => o.q.code ++ 0x16#6 ++ 0x0#1 ++ o.d ++ o.b ++ o.o
  | .stvy o => o.q.code ++ 0x16#6 ++ 0x1#1 ++ o.d ++ o.b ++ o.o
  | .vadd o => o.q.code ++ 0x20#6 ++ o.d ++ o.a ++ o.b ++ o.t.code ++ o.m ++ 0x0#6
  | .vsub o => o.q.code ++ 0x20#6 ++ o.d ++ o.a ++ o.b ++ o.t.code ++ o.m ++ 0x1#6
  | .vmul o => o.q.code ++ 0x20#6 ++ o.d ++ o.a ++ o.b ++ o.t.code ++ o.m ++ 0x2#6
  | .vmulh o => o.q.code ++ 0x20#6 ++ o.d ++ o.a ++ o.b ++ o.t.code ++ o.m ++ 0x3#6
  | .vmac o => o.q.code ++ 0x20#6 ++ o.d ++ o.a ++ o.b ++ o.t.code ++ o.m ++ 0x4#6
  | .vadds o => o.q.code ++ 0x20#6 ++ o.d ++ o.a ++ o.b ++ o.t.code ++ o.m ++ 0x5#6
  | .vsubs o => o.q.code ++ 0x20#6 ++ o.d ++ o.a ++ o.b ++ o.t.code ++ o.m ++ 0x6#6
  | .vmuls o => o.q.code ++ 0x20#6 ++ o.d ++ o.a ++ o.b ++ o.t.code ++ o.m ++ 0x7#6
  | .vmacs o => o.q.code ++ 0x20#6 ++ o.d ++ o.a ++ o.b ++ o.t.code ++ o.m ++ 0x8#6
  | .vmin o => o.q.code ++ 0x20#6 ++ o.d ++ o.a ++ o.b ++ o.t.code ++ o.m ++ 0x9#6
  | .vmax o => o.q.code ++ 0x20#6 ++ o.d ++ o.a ++ o.b ++ o.t.code ++ o.m ++ 0xa#6
  | .vand o => o.q.code ++ 0x20#6 ++ o.d ++ o.a ++ o.b ++ o.t.code ++ o.m ++ 0xb#6
  | .vor o => o.q.code ++ 0x20#6 ++ o.d ++ o.a ++ o.b ++ o.t.code ++ o.m ++ 0xc#6
  | .vxor o => o.q.code ++ 0x20#6 ++ o.d ++ o.a ++ o.b ++ o.t.code ++ o.m ++ 0xd#6
  | .vandn o => o.q.code ++ 0x20#6 ++ o.d ++ o.a ++ o.b ++ o.t.code ++ o.m ++ 0xe#6
  | .vshl o => o.q.code ++ 0x20#6 ++ o.d ++ o.a ++ o.b ++ o.t.code ++ o.m ++ 0xf#6
  | .vshr o => o.q.code ++ 0x20#6 ++ o.d ++ o.a ++ o.b ++ o.t.code ++ o.m ++ 0x10#6
  | .vabs o => o.q.code ++ 0x20#6 ++ o.d ++ o.a ++ 0x0#4 ++ o.t.code ++ o.m ++ 0x11#6
  | .vneg o => o.q.code ++ 0x20#6 ++ o.d ++ o.a ++ 0x0#4 ++ o.t.code ++ o.m ++ 0x12#6
  | .vaddw o => o.q.code ++ 0x20#6 ++ o.d ++ o.a ++ o.b ++ o.t.code ++ o.m ++ 0x18#6
  | .vsubw o => o.q.code ++ 0x20#6 ++ o.d ++ o.a ++ o.b ++ o.t.code ++ o.m ++ 0x19#6
  | .vmulw o => o.q.code ++ 0x20#6 ++ o.d ++ o.a ++ o.b ++ o.t.code ++ o.m ++ 0x1a#6
  | .vmacw o => o.q.code ++ 0x20#6 ++ o.d ++ o.a ++ o.b ++ o.t.code ++ o.m ++ 0x1b#6
  | .vcmpEq o => o.q.code ++ 0x20#6 ++ 0x0#2 ++ o.d ++ o.a ++ o.b ++ o.t.code ++ o.m ++ 0x20#6
  | .vcmpNe o => o.q.code ++ 0x20#6 ++ 0x0#2 ++ o.d ++ o.a ++ o.b ++ o.t.code ++ o.m ++ 0x21#6
  | .vcmpLt o => o.q.code ++ 0x20#6 ++ 0x0#2 ++ o.d ++ o.a ++ o.b ++ o.t.code ++ o.m ++ 0x22#6
  | .vcmpLe o => o.q.code ++ 0x20#6 ++ 0x0#2 ++ o.d ++ o.a ++ o.b ++ o.t.code ++ o.m ++ 0x23#6
  | .vfadd o => o.q.code ++ 0x21#6 ++ o.d ++ o.a ++ o.b ++ o.t.code ++ o.m ++ 0x0#3 ++ o.r.code
  | .vfsub o => o.q.code ++ 0x21#6 ++ o.d ++ o.a ++ o.b ++ o.t.code ++ o.m ++ 0x1#3 ++ o.r.code
  | .vfmul o => o.q.code ++ 0x21#6 ++ o.d ++ o.a ++ o.b ++ o.t.code ++ o.m ++ 0x2#3 ++ o.r.code
  | .vfma o => o.q.code ++ 0x21#6 ++ o.d ++ o.a ++ o.b ++ o.t.code ++ o.m ++ 0x3#3 ++ o.r.code
  | .vfmulw o => o.q.code ++ 0x21#6 ++ o.d ++ o.a ++ o.b ++ o.t.code ++ o.m ++ 0x4#3 ++ o.r.code
  | .vfmaw o => o.q.code ++ 0x21#6 ++ o.d ++ o.a ++ o.b ++ o.t.code ++ o.m ++ 0x5#3 ++ o.r.code
  | .vfmul2 o => o.q.code ++ 0x21#6 ++ o.d ++ o.a ++ o.b ++ o.t.code ++ o.m ++ 0x6#3 ++ o.r.code
  | .vfmin o => o.q.code ++ 0x21#6 ++ o.d ++ o.a ++ o.b ++ o.t.code ++ o.m ++ 0x38#6
  | .vfmax o => o.q.code ++ 0x21#6 ++ o.d ++ o.a ++ o.b ++ o.t.code ++ o.m ++ 0x39#6
  | .vfabs o => o.q.code ++ 0x21#6 ++ o.d ++ o.a ++ 0x0#4 ++ o.t.code ++ o.m ++ 0x3a#6
  | .vfneg o => o.q.code ++ 0x21#6 ++ o.d ++ o.a ++ 0x0#4 ++ o.t.code ++ o.m ++ 0x3b#6
  | .vfcmpEq o => o.q.code ++ 0x21#6 ++ 0x0#2 ++ o.d ++ o.a ++ o.b ++ o.t.code ++ o.m ++ 0x3c#6
  | .vfcmpLt o => o.q.code ++ 0x21#6 ++ 0x0#2 ++ o.d ++ o.a ++ o.b ++ o.t.code ++ o.m ++ 0x3d#6
  | .vfcmpLe o => o.q.code ++ 0x21#6 ++ 0x0#2 ++ o.d ++ o.a ++ o.b ++ o.t.code ++ o.m ++ 0x3e#6
  | .vfcmpUn o => o.q.code ++ 0x21#6 ++ 0x0#2 ++ o.d ++ o.a ++ o.b ++ o.t.code ++ o.m ++ 0x3f#6
  | .vaddVs o => o.q.code ++ 0x22#6 ++ o.d ++ o.a ++ o.g ++ o.t.code ++ o.m ++ 0x0#5
  | .vaddsVs o => o.q.code ++ 0x22#6 ++ o.d ++ o.a ++ o.g ++ o.t.code ++ o.m ++ 0x10#5
  | .vsubVs o => o.q.code ++ 0x22#6 ++ o.d ++ o.a ++ o.g ++ o.t.code ++ o.m ++ 0x1#5
  | .vsubsVs o => o.q.code ++ 0x22#6 ++ o.d ++ o.a ++ o.g ++ o.t.code ++ o.m ++ 0x11#5
  | .vrsubVs o => o.q.code ++ 0x22#6 ++ o.d ++ o.a ++ o.g ++ o.t.code ++ o.m ++ 0x2#5
  | .vrsubsVs o => o.q.code ++ 0x22#6 ++ o.d ++ o.a ++ o.g ++ o.t.code ++ o.m ++ 0x12#5
  | .vmulVs o => o.q.code ++ 0x22#6 ++ o.d ++ o.a ++ o.g ++ o.t.code ++ o.m ++ 0x3#5
  | .vmulsVs o => o.q.code ++ 0x22#6 ++ o.d ++ o.a ++ o.g ++ o.t.code ++ o.m ++ 0x13#5
  | .vmacVs o => o.q.code ++ 0x22#6 ++ o.d ++ o.a ++ o.g ++ o.t.code ++ o.m ++ 0x4#5
  | .vmacsVs o => o.q.code ++ 0x22#6 ++ o.d ++ o.a ++ o.g ++ o.t.code ++ o.m ++ 0x14#5
  | .vminVs o => o.q.code ++ 0x22#6 ++ o.d ++ o.a ++ o.g ++ o.t.code ++ o.m ++ 0x5#5
  | .vmaxVs o => o.q.code ++ 0x22#6 ++ o.d ++ o.a ++ o.g ++ o.t.code ++ o.m ++ 0x6#5
  | .vandVs o => o.q.code ++ 0x22#6 ++ o.d ++ o.a ++ o.g ++ o.t.code ++ o.m ++ 0x7#5
  | .vorVs o => o.q.code ++ 0x22#6 ++ o.d ++ o.a ++ o.g ++ o.t.code ++ o.m ++ 0x8#5
  | .vxorVs o => o.q.code ++ 0x22#6 ++ o.d ++ o.a ++ o.g ++ o.t.code ++ o.m ++ 0x9#5
  | .vshlVs o => o.q.code ++ 0x22#6 ++ o.d ++ o.a ++ o.g ++ o.t.code ++ o.m ++ 0xa#5
  | .vshrVs o => o.q.code ++ 0x22#6 ++ o.d ++ o.a ++ o.g ++ o.t.code ++ o.m ++ 0xb#5
  | .vsplat o => o.q.code ++ 0x22#6 ++ o.d ++ 0x0#4 ++ o.g ++ o.t.code ++ o.m ++ 0xc#5
  | .vslup o => o.q.code ++ 0x22#6 ++ o.d ++ o.a ++ o.g ++ o.t.code ++ o.m ++ 0xd#5
  | .vrotup o => o.q.code ++ 0x22#6 ++ o.d ++ o.a ++ o.g ++ o.t.code ++ o.m ++ 0x1d#5
  | .vsldn o => o.q.code ++ 0x22#6 ++ o.d ++ o.a ++ o.g ++ o.t.code ++ o.m ++ 0xe#5
  | .vrotdn o => o.q.code ++ 0x22#6 ++ o.d ++ o.a ++ o.g ++ o.t.code ++ o.m ++ 0x1e#5
  | .vget o => o.q.code ++ 0x22#6 ++ 0x0#4 ++ o.a ++ o.g ++ o.t.code ++ 0xf#7
  | .vcvt o => o.q.code ++ 0x23#6 ++ o.d ++ o.a ++ o.s.code ++ o.t.code ++ o.m ++ 0x0#3 ++ o.r.code
  | .vcvts o => o.q.code ++ 0x23#6 ++ o.d ++ o.a ++ o.s.code ++ o.t.code ++ o.m ++ 0x1#3 ++ o.r.code
  | .vbpack16 o => o.q.code ++ 0x23#6 ++ o.d ++ o.a ++ o.s.code ++ o.t.code ++ 0x2#5 ++ o.r.code
  | .vbpack32 o => o.q.code ++ 0x23#6 ++ o.d ++ o.a ++ o.s.code ++ o.t.code ++ 0x3#5 ++ o.r.code
  | .vbpack64 o => o.q.code ++ 0x23#6 ++ o.d ++ o.a ++ o.s.code ++ o.t.code ++ 0x4#5 ++ o.r.code
  | .vbunpack16 o => o.q.code ++ 0x23#6 ++ o.d ++ o.a ++ o.s.code ++ o.t.code ++ o.m ++ 0x5#3 ++ o.r.code
  | .vbunpack32 o => o.q.code ++ 0x23#6 ++ o.d ++ o.a ++ o.s.code ++ o.t.code ++ o.m ++ 0x6#3 ++ o.r.code
  | .vbunpack64 o => o.q.code ++ 0x23#6 ++ o.d ++ o.a ++ o.s.code ++ o.t.code ++ o.m ++ 0x7#3 ++ o.r.code
  | .vmov o => o.q.code ++ 0x24#6 ++ o.d ++ o.a ++ 0x0#4 ++ o.t.code ++ o.m ++ 0x0#6
  | .vmerge o => o.q.code ++ 0x24#6 ++ o.d ++ o.a ++ o.b ++ o.t.code ++ o.m ++ 0x1#6
  | .vperm o => o.q.code ++ 0x24#6 ++ o.d ++ o.a ++ o.b ++ o.t.code ++ o.m ++ 0x2#6
  | .vcompress o => o.q.code ++ 0x24#6 ++ o.d ++ o.a ++ 0x0#4 ++ o.t.code ++ o.m ++ 0x3#6
  | .vexpand o => o.q.code ++ 0x24#6 ++ o.d ++ o.a ++ 0x0#4 ++ o.t.code ++ o.m ++ 0x4#6
  | .vgather o => o.q.code ++ 0x24#6 ++ o.d ++ o.a ++ 0x0#4 ++ o.t.code ++ o.m ++ 0x5#6
  | .vscatter o => o.q.code ++ 0x24#6 ++ 0x0#4 ++ o.a ++ o.b ++ o.t.code ++ o.m ++ 0x6#6
  | .vzip o => o.q.code ++ 0x24#6 ++ o.d ++ o.a ++ o.b ++ o.t.code ++ 0x7#8
  | .vunzip o => o.q.code ++ 0x24#6 ++ o.d ++ o.a ++ 0x0#4 ++ o.t.code ++ 0x8#8
  | .vrev o => o.q.code ++ 0x24#6 ++ o.d ++ o.a ++ 0x0#4 ++ o.t.code ++ o.m ++ 0x9#6
  | .vrsum o => o.q.code ++ 0x25#6 ++ o.d ++ o.a ++ 0x0#4 ++ o.t.code ++ o.m ++ 0x0#3 ++ o.c
  | .vrmin o => o.q.code ++ 0x25#6 ++ o.d ++ o.a ++ 0x0#4 ++ o.t.code ++ o.m ++ 0x1#3 ++ o.c
  | .vrmax o => o.q.code ++ 0x25#6 ++ o.d ++ o.a ++ 0x0#4 ++ o.t.code ++ o.m ++ 0x2#3 ++ o.c
  | .vrsumw o => o.q.code ++ 0x25#6 ++ o.d ++ o.a ++ 0x0#4 ++ o.t.code ++ o.m ++ 0x3#3 ++ o.c
  | .vdot o => o.q.code ++ 0x25#6 ++ o.d ++ o.a ++ o.b ++ o.t.code ++ o.m ++ 0x4#3 ++ o.c
  | .vdota o => o.q.code ++ 0x25#6 ++ o.d ++ o.a ++ o.b ++ o.t.code ++ o.m ++ 0x5#3 ++ o.c
  | .vdot2 o => o.q.code ++ 0x25#6 ++ o.d ++ o.a ++ o.b ++ o.t.code ++ o.m ++ 0x6#3 ++ o.c
  | .vdot2a o => o.q.code ++ 0x25#6 ++ o.d ++ o.a ++ o.b ++ o.t.code ++ o.m ++ 0x7#3 ++ o.c
  | .vrcp o => o.q.code ++ 0x26#6 ++ o.d ++ o.a ++ 0x0#4 ++ o.t.code ++ o.m ++ 0x0#6
  | .vrsq o => o.q.code ++ 0x26#6 ++ o.d ++ o.a ++ 0x0#4 ++ o.t.code ++ o.m ++ 0x1#6
  | .vrefRcp o => o.q.code ++ 0x26#6 ++ o.d ++ o.a ++ o.b ++ o.t.code ++ o.m ++ 0x2#6
  | .vrefRsq o => o.q.code ++ 0x26#6 ++ o.d ++ o.a ++ o.b ++ o.t.code ++ o.m ++ 0x3#6
  | .vsqrt o => o.q.code ++ 0x26#6 ++ o.d ++ o.a ++ 0x0#4 ++ o.t.code ++ o.m ++ 0x4#6
  | .vexp2 o => o.q.code ++ 0x26#6 ++ o.d ++ o.a ++ 0x0#4 ++ o.t.code ++ o.m ++ 0x5#6
  | .vexp o => o.q.code ++ 0x26#6 ++ o.d ++ o.a ++ 0x0#4 ++ o.t.code ++ o.m ++ 0x6#6
  | .vlog2 o => o.q.code ++ 0x26#6 ++ o.d ++ o.a ++ 0x0#4 ++ o.t.code ++ o.m ++ 0x7#6
  | .vtanh o => o.q.code ++ 0x26#6 ++ o.d ++ o.a ++ 0x0#4 ++ o.t.code ++ o.m ++ 0x8#6
  | .vsig o => o.q.code ++ 0x26#6 ++ o.d ++ o.a ++ 0x0#4 ++ o.t.code ++ o.m ++ 0x9#6
  | .mand o => o.q.code ++ 0x27#6 ++ 0x0#2 ++ o.d ++ 0x0#2 ++ o.a ++ 0x0#2 ++ o.b ++ 0x0#12
  | .mor o => o.q.code ++ 0x27#6 ++ 0x0#2 ++ o.d ++ 0x0#2 ++ o.a ++ 0x0#2 ++ o.b ++ 0x1#12
  | .mxor o => o.q.code ++ 0x27#6 ++ 0x0#2 ++ o.d ++ 0x0#2 ++ o.a ++ 0x0#2 ++ o.b ++ 0x2#12
  | .mandn o => o.q.code ++ 0x27#6 ++ 0x0#2 ++ o.d ++ 0x0#2 ++ o.a ++ 0x0#2 ++ o.b ++ 0x3#12
  | .mnot o => o.q.code ++ 0x27#6 ++ 0x0#2 ++ o.d ++ 0x0#2 ++ o.a ++ 0x4#16
  | .mmov o => o.q.code ++ 0x27#6 ++ 0x0#2 ++ o.d ++ 0x0#2 ++ o.a ++ 0x5#16
  | .mfirst o => o.q.code ++ 0x27#6 ++ 0x0#2 ++ o.d ++ 0x0#2 ++ o.a ++ 0x0#4 ++ o.t.code ++ 0x6#8
  | .viota o => o.q.code ++ 0x27#6 ++ o.d ++ 0x0#8 ++ o.t.code ++ o.m ++ 0x7#6
  | .vmpopc o => o.q.code ++ 0x27#6 ++ o.d ++ 0x0#2 ++ o.a ++ 0x0#4 ++ o.t.code ++ 0x8#8
  | .vmtov o => o.q.code ++ 0x27#6 ++ o.d ++ 0x0#2 ++ o.a ++ 0x0#4 ++ o.t.code ++ o.m ++ 0x9#6
  | .vvtom o => o.q.code ++ 0x27#6 ++ 0x0#2 ++ o.d ++ o.a ++ 0x0#4 ++ o.t.code ++ o.m ++ 0xa#6
  | .vany o => o.q.code ++ 0x27#6 ++ 0x0#1 ++ o.d ++ 0x0#2 ++ o.a ++ 0x0#4 ++ o.t.code ++ 0xb#8
  | .vall o => o.q.code ++ 0x27#6 ++ 0x0#1 ++ o.d ++ 0x0#2 ++ o.a ++ 0x0#4 ++ o.t.code ++ 0xc#8
  | .yield o => o.q.code ++ 0xd#6 ++ 0#15 ++ 0x7#9
  | .done o => o.q.code ++ 0xd#6 ++ 0#15 ++ 0x8#9
  | .nop o => o.q.code ++ 0xd#6 ++ 0#15 ++ 0x9#9
  | .ifence o => o.q.code ++ 0xe#6 ++ 0#15 ++ 0x4#9
  | .rstart o => o.q.code ++ 0x30#6 ++ 0#15 ++ 0x7#9
  | .rreset o => o.q.code ++ 0x30#6 ++ 0#15 ++ 0x8#9
  | .abort o => o.q.code ++ 0x32#6 ++ 0#15 ++ 0x3#9
  | .abchk o => o.q.code ++ 0x32#6 ++ 0#15 ++ 0x4#9
  | .trig o => o.q.code ++ 0x32#6 ++ 0#15 ++ 0x6#9
  | .dclr o => o.q.code ++ 0x3e#6 ++ 0#15 ++ 0x1#9
  | .ddrain o => o.q.code ++ 0x3e#6 ++ 0#15 ++ 0x3#9
  | .emptyG o => o.q.code ++ 0x18#6 ++ o.d ++ 0#10 ++ 0x7#9
  | .rstat o => o.q.code ++ 0x30#6 ++ o.d ++ 0#10 ++ 0x5#9
  | .rwait o => o.q.code ++ 0x30#6 ++ o.d ++ 0#10 ++ 0x6#9
  | .sstep o => o.q.code ++ 0x32#6 ++ o.d ++ 0#10 ++ 0x5#9
  | .dstat o => o.q.code ++ 0x3e#6 ++ o.d ++ 0#10 ++ 0x0#9
  | .pctr o => o.q.code ++ 0x3c#6 ++ o.d ++ 0#10 ++ 0x1#9
  | .jwr o => o.q.code ++ 0x31#6 ++ 0#5 ++ o.a ++ 0#5 ++ 0x0#9
  | .afree o => o.q.code ++ 0x38#6 ++ 0#5 ++ o.a ++ 0#5 ++ 0x1#9
  | .dmark o => o.q.code ++ 0x3e#6 ++ 0#5 ++ o.a ++ 0#5 ++ 0x2#9
  | .capr o => o.q.code ++ 0xe#6 ++ o.d ++ o.a ++ 0#5 ++ 0x3#9
  | .ostat o => o.q.code ++ 0x39#6 ++ o.d ++ o.a ++ 0#5 ++ 0x5#9
  | .pcast o => o.q.code ++ 0x3c#6 ++ 0#2 ++ o.d ++ o.a ++ 0#5 ++ 0x0#9
  | .pquote o => o.q.code ++ 0x3c#6 ++ 0#2 ++ o.d ++ o.a ++ 0#5 ++ 0x2#9
  | .cpyt o => o.q.code ++ 0x17#6 ++ 0#2 ++ o.d ++ o.a ++ 0#5 ++ 0x1#9
  | .opass o => o.q.code ++ 0x38#6 ++ 0#2 ++ o.d ++ o.a ++ o.b ++ 0x2#9
  | .opassr o => o.q.code ++ 0x38#6 ++ 0#2 ++ o.d ++ o.a ++ o.b ++ 0x3#9
  | .oprobe o => o.q.code ++ 0x38#6 ++ 0#2 ++ o.d ++ o.a ++ o.b ++ 0x4#9
  | .phld o => o.q.code ++ 0x39#6 ++ 0#2 ++ o.d ++ o.a ++ o.b ++ 0x0#9
  | .phdec o => o.q.code ++ 0x39#6 ++ 0#2 ++ o.d ++ o.a ++ o.b ++ 0x1#9
  | .phadj o => o.q.code ++ 0x39#6 ++ 0#2 ++ o.d ++ o.a ++ o.b ++ 0x2#9
  | .phwr o => o.q.code ++ 0x39#6 ++ 0#2 ++ o.d ++ o.a ++ o.b ++ 0x3#9
  | .phrd o => o.q.code ++ 0x39#6 ++ 0#2 ++ o.d ++ o.a ++ o.b ++ 0x4#9
  | .loop o => o.q.code ++ 0xd#6 ++ 0#15 ++ 0x0#9
  | .loopReg o => o.q.code ++ 0xd#6 ++ 0#5 ++ o.a ++ 0#5 ++ 0x1#9
  | .rpt o => o.q.code ++ 0xd#6 ++ 0#15 ++ 0x2#9
  | .rptReg o => o.q.code ++ 0xd#6 ++ 0#5 ++ o.a ++ 0#5 ++ 0x3#9
  | .setw o => o.q.code ++ 0xd#6 ++ 0#2 ++ o.d ++ 0#10 ++ 0x4#9
  | .setwReg o => o.q.code ++ 0xd#6 ++ 0#2 ++ o.d ++ o.a ++ 0#5 ++ 0x5#9
  | .getw o => o.q.code ++ 0xd#6 ++ o.d ++ 0#2 ++ o.a ++ 0#5 ++ 0x6#9
  | .trap o => o.q.code ++ 0xe#6 ++ 0#15 ++ 0x0#9
  | .mfs o => o.q.code ++ 0xe#6 ++ o.d ++ 0#10 ++ 0x1#9
  | .mts o => o.q.code ++ 0xe#6 ++ 0#5 ++ o.a ++ 0#5 ++ 0x2#9
  | .cpy o => o.q.code ++ 0x17#6 ++ 0#2 ++ o.d ++ o.a ++ o.b ++ 0x0#9
  | .cpyc o => o.q.code ++ 0x17#6 ++ 0#2 ++ o.d ++ o.a ++ 0#5 ++ 0x2#9
  | .aop o => o.q.code ++ 0x17#6 ++ o.d ++ o.a ++ o.b ++ 0x3#9
  | .hwait o => o.q.code ++ 0x18#6 ++ o.d ++ 0#2 ++ o.a ++ 0#5 ++ 0x0#9
  | .htest o => o.q.code ++ 0x18#6 ++ 0#2 ++ o.d ++ 0#2 ++ o.a ++ 0#5 ++ 0x1#9
  | .hcancel o => o.q.code ++ 0x18#6 ++ 0#7 ++ o.a ++ 0#5 ++ 0x2#9
  | .hmovH o => o.q.code ++ 0x18#6 ++ 0#2 ++ o.d ++ 0#2 ++ o.a ++ 0#5 ++ 0x3#9
  | .hmovG o => o.q.code ++ 0x18#6 ++ 0#2 ++ o.d ++ o.a ++ 0#5 ++ 0x4#9
  | .inbox o => o.q.code ++ 0x18#6 ++ o.d ++ 0#5 ++ o.b ++ 0x5#9
  | .fenceAcq o => o.q.code ++ 0x18#6 ++ 0#15 ++ 0x6#9
  | .fenceRel o => o.q.code ++ 0x18#6 ++ 0#15 ++ 0x6#9
  | .fenceFull o => o.q.code ++ 0x18#6 ++ 0#15 ++ 0x6#9
  | .emptyV o => o.q.code ++ 0x18#6 ++ 0#1 ++ o.d ++ 0#10 ++ 0x8#9
  | .emptyH o => o.q.code ++ 0x18#6 ++ 0#2 ++ o.d ++ 0#10 ++ 0x9#9
  | .bind o => o.q.code ++ 0x19#6 ++ 0#3 ++ o.n ++ o.a ++ o.b ++ 0x0#9
  | .unbind o => o.q.code ++ 0x19#6 ++ o.d ++ 0#3 ++ o.n ++ 0#5 ++ 0x1#9
  | .vchain o => o.q.code ++ 0x28#6 ++ o.d ++ o.a ++ o.b ++ 0x0#9
  | .vrdac o => o.q.code ++ 0x29#6 ++ 0#1 ++ o.d ++ o.a ++ o.b ++ 0x0#9
  | .vrdacSnoop o => o.q.code ++ 0x29#6 ++ 0#1 ++ o.d ++ o.a ++ o.b ++ 0x0#9
  | .vwrac o => o.q.code ++ 0x29#6 ++ 0#1 ++ o.d ++ o.a ++ o.b ++ 0x1#9
  | .aclr o => o.q.code ++ 0x29#6 ++ 0#5 ++ o.a ++ o.b ++ 0x2#9
  | .rinj o => o.q.code ++ 0x30#6 ++ o.d ++ o.a ++ o.b ++ 0x0#9
  | .rinjr o => o.q.code ++ 0x30#6 ++ o.d ++ o.a ++ o.b ++ 0x1#9
  | .ginj o => o.q.code ++ 0x1a#6 ++ o.d ++ o.a ++ o.b ++ 0xa#9
  | .rpark o => o.q.code ++ 0x30#6 ++ o.d ++ 0#10 ++ 0x2#9
  | .runpark o => o.q.code ++ 0x30#6 ++ o.d ++ 0#10 ++ 0x3#9
  | .rtire o => o.q.code ++ 0x30#6 ++ o.d ++ 0#10 ++ 0x4#9
  | .rmode o => o.q.code ++ 0x30#6 ++ 0#15 ++ 0x9#9
  | .jrd o => o.q.code ++ 0x31#6 ++ 0#5 ++ o.a ++ 0#5 ++ 0x1#9
  | .join o => o.q.code ++ 0x32#6 ++ 0#15 ++ 0x0#9
  | .leave o => o.q.code ++ 0x32#6 ++ 0#15 ++ 0x1#9
  | .bar o => o.q.code ++ 0x32#6 ++ o.d ++ 0#10 ++ 0x2#9
  | .alease o => o.q.code ++ 0x38#6 ++ o.d ++ o.a ++ 0#5 ++ 0x0#9
  | .gld o => o.q.code ++ 0x1a#6 ++ o.d ++ o.a ++ 0#5 ++ 0x0#9
  | .gst o => o.q.code ++ 0x1a#6 ++ o.d ++ o.a ++ 0#5 ++ 0x1#9
  | .gldv o => o.q.code ++ 0x1a#6 ++ 0#1 ++ o.d ++ o.a ++ 0#5 ++ 0x2#9
  | .gstv o => o.q.code ++ 0x1a#6 ++ 0#1 ++ o.d ++ o.a ++ 0#5 ++ 0x3#9
  | .gldt o => o.q.code ++ 0x1a#6 ++ 0#1 ++ o.d ++ o.a ++ o.b ++ 0x4#9
  | .gstt o => o.q.code ++ 0x1a#6 ++ 0#1 ++ o.d ++ o.a ++ o.b ++ 0x5#9
  | .gred o => o.q.code ++ 0x1a#6 ++ 0#5 ++ o.a ++ o.b ++ 0x6#9
  | .gsend o => o.q.code ++ 0x1a#6 ++ 0#6 ++ o.a ++ 0#5 ++ 0x7#9
  | .grecv o => o.q.code ++ 0x1a#6 ++ 0#1 ++ o.d ++ 0#10 ++ 0x8#9
  | .gpfill o => o.q.code ++ 0x1a#6 ++ 0#5 ++ o.a ++ o.b ++ 0x9#9
  | .tmld o => o.q.code ++ 0x1b#6 ++ o.d ++ o.a ++ 0#5 ++ 0x0#9
  | .tmst o => o.q.code ++ 0x1b#6 ++ o.d ++ o.a ++ 0#5 ++ 0x1#9
  | .tmwr o => o.q.code ++ 0x1b#6 ++ 0#5 ++ o.a ++ 0#5 ++ 0x2#9
  | .fput o => o.q.code ++ 0x3d#6 ++ 0#2 ++ o.d ++ o.a ++ o.b ++ 0x0#9
  | .fget o => o.q.code ++ 0x3d#6 ++ 0#2 ++ o.d ++ o.a ++ o.b ++ 0x1#9
  | .fsend o => o.q.code ++ 0x3d#6 ++ 0#2 ++ o.d ++ o.a ++ o.b ++ 0x2#9
  | .frecv o => o.q.code ++ 0x3d#6 ++ o.d ++ 0#5 ++ o.b ++ 0x3#9
  | .fcut o => o.q.code ++ 0x3d#6 ++ 0#5 ++ o.a ++ o.b ++ 0x4#9
  | .fwin o => o.q.code ++ 0x3d#6 ++ 0#5 ++ o.a ++ 0#5 ++ 0x5#9
  | .fctlPolicy o => o.q.code ++ 0x3d#6 ++ 0#5 ++ o.a ++ 0#5 ++ 0x6#9
  | .fctlExcise o => o.q.code ++ 0x3d#6 ++ 0#5 ++ o.a ++ 0#5 ++ 0x6#9
  | .fctlReadmit o => o.q.code ++ 0x3d#6 ++ 0#5 ++ o.a ++ 0#5 ++ 0x6#9
  | .fpstat o => o.q.code ++ 0x3d#6 ++ o.d ++ 0#10 ++ 0x7#9
  | .taskStart _ => 0#32
  | .codeFetchFill _ _ => 0#32
  | .producerFill _ => 0#32
  | .supervisorKill _ => 0#32
  | .supervisorRetry _ => 0#32
  | .supervisorResume _ => 0#32
  | .supervisorLeave _ => 0#32
  | .watchdog _ => 0#32
  | .corePartEnd _ => 0#32
  | .yardStorePerform _ => 0#32
  | .localScrub _ _ => 0#32
  | .yardScrub _ _ => 0#32
  | .copyUnit _ _ => 0#32
  | .copyComplete _ => 0#32
  | .atomicPerform _ _ => 0#32
  | .youtElementWrite _ _ => 0#32
  | .yinReadAhead _ _ => 0#32
  | .vectorGrant _ => 0#32
  | .vectorComplete _ _ => 0#32
  | .headAged _ => 0#32
  | .vectorTrapDelivery _ => 0#32
  | .tileDeparture _ _ _ => 0#32
  | .beat _ => 0#32
  | .tileArrival _ _ _ => 0#32
  | .heldMeetingTaken _ _ => 0#32
  | .queuedTileEntry _ _ _ => 0#32
  | .spentTileToLayby _ _ _ => 0#32
  | .spentTileRetire _ _ => 0#32
  | .wakeExpiry _ _ _ => 0#32
  | .ringDone _ => 0#32
  | .ringFault _ => 0#32
  | .generationComplete _ _ _ => 0#32
  | .abortLineArrival _ _ => 0#32
  | .sstepComplete _ _ => 0#32
  | .passGrant _ => 0#32
  | .passEnd _ => 0#32
  | .passCommit _ => 0#32
  | .bankLoadComplete _ => 0#32
  | .autoProbe _ => 0#32
  | .thermalUnlock _ => 0#32
  | .thermalRelock _ => 0#32
  | .decompositionComplete _ _ => 0#32
  | .chainEntryComplete _ _ => 0#32
  | .reductionPerform _ => 0#32
  | .translationFault _ => 0#32
  | .lineAllocate _ => 0#32
  | .logDrain _ => 0#32
  | .replayDivergence _ => 0#32
  | .doorbell _ _ _ => 0#32
  | .kickTake _ => 0#32
  | .gangPlace _ => 0#32
  | .priorityAgeing _ => 0#32
  | .preemptionStop _ => 0#32
  | .launchRestore _ => 0#32
  | .superstepRollback _ _ => 0#32
  | .thirdRun _ _ => 0#32
  | .heldBufferFull _ => 0#32
  | .llimExpiry _ => 0#32
  | .quantumExpiry _ => 0#32
  | .schedulerTakeover _ => 0#32
  | .launchComplete _ => 0#32
  | .partCreate _ => 0#32
  | .partDestroy _ => 0#32
  | .vfSet _ => 0#32
  | .faultReply _ => 0#32
  | .preempt _ => 0#32
  | .unitReturn _ => 0#32
  | .extend _ => 0#32
  | .sealJoin _ _ => 0#32
  | .restore _ => 0#32
  | .cowPrecopy _ _ => 0#32
  | .pourDrain _ => 0#32
  | .castComplete _ => 0#32
  | .securityAlarm _ => 0#32
  | .bringUp => 0#32
  | .powerCapThrottle _ => 0#32
  | .powerRestoreClocks _ => 0#32
  | .fabricPacketSend _ => 0#32
  | .fabricAck _ => 0#32
  | .orderedArrival _ _ => 0#32
  | .orderedDelivery => 0#32
  | .unorderedArrival _ => 0#32
  | .milestoneReceive _ _ => 0#32
  | .waymark _ => 0#32
  | .milestoneSend _ => 0#32
  | .flitReplay _ => 0#32
  | .laneFail _ _ => 0#32
  | .linkDown _ => 0#32
  | .routeRecompute => 0#32
  | .stalledWatermark _ => 0#32
  | .portReadmit _ => 0#32
  | .timestampExchange _ _ => 0#32
  | .reservedWord _ _ _ => 0#32
  | .checkWindowExpiry _ => 0#32
  | .translationChange _ _ _ => 0#32
  | .schedulerPairFailure _ => 0#32
  | .portUp _ _ => 0#32

/-- The extension word of an F-X instruction (R45). -/
def encodeExt : Instr → Option Word
  | .yield _ => some (0#32)
  | .done _ => some (0#32)
  | .nop _ => some (0#32)
  | .ifence _ => some (0#32)
  | .rstart _ => some (0#32)
  | .rreset _ => some (0#32)
  | .abort _ => some (0#32)
  | .abchk _ => some (0#32)
  | .trig _ => some (0#32)
  | .dclr _ => some (0#32)
  | .ddrain _ => some (0#32)
  | .emptyG _ => some (0#32)
  | .rstat _ => some (0#32)
  | .rwait _ => some (0#32)
  | .sstep _ => some (0#32)
  | .dstat _ => some (0#32)
  | .pctr _ => some (0#32)
  | .jwr o => some (bit o.ta ++ 0#31)
  | .afree o => some (bit o.ta ++ 0#31)
  | .dmark o => some (bit o.ta ++ 0#31)
  | .capr o => some (bit o.ta ++ 0#31)
  | .ostat o => some (bit o.ta ++ 0#31)
  | .pcast o => some (bit o.ta ++ 0#1 ++ bit o.inb ++ 0#29)
  | .pquote o => some (bit o.ta ++ 0#1 ++ bit o.inb ++ 0#29)
  | .cpyt o => some (bit o.ta ++ bit o.inb ++ 0#30)
  | .opass o => some (bit o.ta ++ bit o.tb ++ bit o.inb ++ 0#29)
  | .opassr o => some (bit o.ta ++ bit o.tb ++ bit o.inb ++ 0#29)
  | .oprobe o => some (bit o.ta ++ bit o.tb ++ bit o.inb ++ 0#29)
  | .phld o => some (bit o.ta ++ bit o.tb ++ bit o.inb ++ 0#29)
  | .phdec o => some (bit o.ta ++ bit o.tb ++ bit o.inb ++ 0#29)
  | .phadj o => some (bit o.ta ++ bit o.tb ++ bit o.inb ++ 0#29)
  | .phwr o => some (bit o.ta ++ bit o.tb ++ bit o.inb ++ 0#29)
  | .phrd o => some (bit o.ta ++ bit o.tb ++ bit o.inb ++ 0#29)
  | .loop o => some (o.cnt ++ o.len)
  | .loopReg o => some (bit o.ta ++ 0#15 ++ o.len)
  | .rpt o => some (o.cnt ++ 0#11 ++ o.f)
  | .rptReg o => some (bit o.ta ++ 0#26 ++ o.f)
  | .setw o => some (o.addr)
  | .setwReg o => some (bit o.ta ++ 0#31)
  | .getw _ => some (0#32)
  | .trap o => some (o.imm)
  | .mfs o => some (0#20 ++ o.n)
  | .mts o => some (bit o.ta ++ 0#19 ++ o.n)
  | .cpy o => some (bit o.ta ++ bit o.tb ++ bit o.inb ++ 0#1 ++ o.ssp ++ 0#1 ++ o.dsp ++ o.len)
  | .cpyc o => some (bit o.ta ++ 0#31)
  | .aop o => some (bit o.ta ++ bit o.tb ++ bit o.td ++ bit o.inb ++ o.he ++ o.ord ++ o.scope ++ o.smask ++ o.op ++ o.sz ++ 0#10)
  | .hwait o => some (bit o.ta ++ 0#23 ++ o.scope ++ o.smask)
  | .htest _ => some (0#32)
  | .hcancel _ => some (0#32)
  | .hmovH o => some (bit o.ta ++ 0#31)
  | .hmovG o => some (bit o.ta ++ 0#31)
  | .inbox o => some (0#31 ++ bit o.nb)
  | .fenceAcq o => some (0#22 ++ 1#2 ++ o.scope ++ o.smask)
  | .fenceRel o => some (0#22 ++ 2#2 ++ o.scope ++ o.smask)
  | .fenceFull o => some (0#22 ++ 3#2 ++ o.scope ++ o.smask)
  | .emptyV _ => some (0#32)
  | .emptyH _ => some (0#32)
  | .bind o => some (bit o.ta ++ bit o.tb ++ 0#28 ++ o.kind)
  | .unbind _ => some (0#32)
  | .vchain o => some (bit o.td ++ bit o.ta ++ bit o.tb ++ 0#14 ++ o.desc)
  | .vrdac o => some (bit o.ta ++ bit o.tb ++ 0#1 ++ 0#29)
  | .vrdacSnoop o => some (bit o.ta ++ bit o.tb ++ 1#1 ++ 0#29)
  | .vwrac o => some (bit o.ta ++ bit o.tb ++ 0#30)
  | .aclr o => some (bit o.ta ++ bit o.tb ++ 0#21 ++ o.nrows)
  | .rinj o => some (bit o.ta ++ bit o.tb ++ bit o.td ++ o.fam ++ 0#28)
  | .rinjr o => some (bit o.ta ++ bit o.tb ++ bit o.td ++ o.fam ++ o.cluster ++ o.station ++ 0#12)
  | .ginj o => some (bit o.ta ++ bit o.tb ++ bit o.td ++ o.fam ++ o.cluster ++ o.station ++ 0#12)
  | .rpark o => some (0#3 ++ o.fam ++ 0#28)
  | .runpark o => some (0#3 ++ o.fam ++ 0#27 ++ o.slot)
  | .rtire o => some (0#3 ++ o.fam ++ 0#26 ++ o.place)
  | .rmode o => some (0#30 ++ bit o.record ++ o.mode)
  | .jrd o => some (bit o.ta ++ 0#25 ++ o.entry)
  | .join o => some (0#20 ++ o.id)
  | .leave o => some (0#20 ++ o.id)
  | .bar o => some (0#12 ++ o.smask ++ o.scope ++ o.id)
  | .alease o => some (bit o.ta ++ 0#29 ++ o.chain)
  | .gld o => some (bit o.ta ++ 0#7 ++ o.off)
  | .gst o => some (bit o.ta ++ bit o.td ++ 0#6 ++ o.off)
  | .gldv o => some (bit o.ta ++ 0#1 ++ o.space ++ 0#5 ++ o.off)
  | .gstv o => some (bit o.ta ++ 0#1 ++ o.space ++ 0#5 ++ o.off)
  | .gldt o => some (bit o.ta ++ bit o.tb ++ 0#26 ++ o.t.code)
  | .gstt o => some (bit o.ta ++ bit o.tb ++ 0#26 ++ o.t.code)
  | .gred o => some (bit o.ta ++ bit o.tb ++ 0#15 ++ o.op ++ o.sz ++ 0#10)
  | .gsend o => some (0#28 ++ o.chan)
  | .grecv o => some (0#28 ++ o.chan)
  | .gpfill o => some (bit o.ta ++ bit o.tb ++ 0#22 ++ o.nch)
  | .tmld o => some (bit o.ta ++ bit o.td ++ 0#24 ++ o.map)
  | .tmst o => some (bit o.ta ++ bit o.td ++ 0#24 ++ o.map)
  | .tmwr o => some (bit o.ta ++ 0#25 ++ o.map)
  | .fput o => some (bit o.ta ++ bit o.tb ++ bit o.inb ++ bit o.ord ++ o.sp ++ 0#2 ++ o.len)
  | .fget o => some (bit o.ta ++ bit o.tb ++ bit o.inb ++ 0#1 ++ o.sp ++ 0#2 ++ o.len)
  | .fsend o => some (bit o.ta ++ bit o.tb ++ bit o.inb ++ bit o.ord ++ 0#12 ++ o.tag)
  | .frecv o => some (0#18 ++ o.queue ++ 0#7 ++ bit o.nb)
  | .fcut o => some (bit o.ta ++ bit o.tb ++ 0#30)
  | .fwin o => some (bit o.ta ++ 0#23 ++ o.window)
  | .fctlPolicy o => some (bit o.ta ++ 0#24 ++ o.port ++ 0#4)
  | .fctlExcise o => some (bit o.ta ++ 0#24 ++ o.port ++ 1#4)
  | .fctlReadmit o => some (bit o.ta ++ 0#24 ++ o.port ++ 2#4)
  | .fpstat o => some (0#29 ++ o.port)
  | _ => none

/-- The sequencing part of an instruction; an event has none. -/
def Instr.seq : Instr → Option Seq
  | .add o => some o.q
  | .sub o => some o.q
  | .mul o => some o.q
  | .mulh o => some o.q
  | .mulhu o => some o.q
  | .div o => some o.q
  | .divu o => some o.q
  | .rem o => some o.q
  | .remu o => some o.q
  | .and o => some o.q
  | .or o => some o.q
  | .xor o => some o.q
  | .andn o => some o.q
  | .shl o => some o.q
  | .shr o => some o.q
  | .sra o => some o.q
  | .rol o => some o.q
  | .min o => some o.q
  | .max o => some o.q
  | .minu o => some o.q
  | .maxu o => some o.q
  | .clz o => some o.q
  | .ctz o => some o.q
  | .popc o => some o.q
  | .adda o => some o.q
  | .ptag o => some o.q
  | .pfmt o => some o.q
  | .pva o => some o.q
  | .cmpEq o => some o.q
  | .cmpNe o => some o.q
  | .cmpLt o => some o.q
  | .cmpLe o => some o.q
  | .cmpLtu o => some o.q
  | .cmpLeu o => some o.q
  | .addi o => some o.q
  | .andi o => some o.q
  | .ori o => some o.q
  | .xori o => some o.q
  | .shli o => some o.q
  | .shri o => some o.q
  | .srai o => some o.q
  | .roli o => some o.q
  | .cmpiEq o => some o.q
  | .cmpiNe o => some o.q
  | .cmpiLt o => some o.q
  | .cmpiLtu o => some o.q
  | .li o => some o.q
  | .lih o => some o.q
  | .addai o => some o.q
  | .fadd o => some o.q
  | .fsub o => some o.q
  | .fmul o => some o.q
  | .fma o => some o.q
  | .fitof o => some o.q
  | .fftoi o => some o.q
  | .fmin o => some o.q
  | .fmax o => some o.q
  | .fabs o => some o.q
  | .fneg o => some o.q
  | .feq o => some o.q
  | .flt o => some o.q
  | .fle o => some o.q
  | .fun o => some o.q
  | .frcp o => some o.q
  | .frsq o => some o.q
  | .frefRcp o => some o.q
  | .frefRsq o => some o.q
  | .fclass o => some o.q
  | .pand o => some o.q
  | .por o => some o.q
  | .pxor o => some o.q
  | .pandn o => some o.q
  | .pnot o => some o.q
  | .pmov o => some o.q
  | .gtop o => some o.q
  | .ptog o => some o.q
  | .sel o => some o.q
  | .ld o => some o.q
  | .st o => some o.q
  | .ldv o => some o.q
  | .stv o => some o.q
  | .ldy o => some o.q
  | .sty o => some o.q
  | .ldvy o => some o.q
  | .stvy o => some o.q
  | .vadd o => some o.q
  | .vsub o => some o.q
  | .vmul o => some o.q
  | .vmulh o => some o.q
  | .vmac o => some o.q
  | .vadds o => some o.q
  | .vsubs o => some o.q
  | .vmuls o => some o.q
  | .vmacs o => some o.q
  | .vmin o => some o.q
  | .vmax o => some o.q
  | .vand o => some o.q
  | .vor o => some o.q
  | .vxor o => some o.q
  | .vandn o => some o.q
  | .vshl o => some o.q
  | .vshr o => some o.q
  | .vabs o => some o.q
  | .vneg o => some o.q
  | .vaddw o => some o.q
  | .vsubw o => some o.q
  | .vmulw o => some o.q
  | .vmacw o => some o.q
  | .vcmpEq o => some o.q
  | .vcmpNe o => some o.q
  | .vcmpLt o => some o.q
  | .vcmpLe o => some o.q
  | .vfadd o => some o.q
  | .vfsub o => some o.q
  | .vfmul o => some o.q
  | .vfma o => some o.q
  | .vfmulw o => some o.q
  | .vfmaw o => some o.q
  | .vfmul2 o => some o.q
  | .vfmin o => some o.q
  | .vfmax o => some o.q
  | .vfabs o => some o.q
  | .vfneg o => some o.q
  | .vfcmpEq o => some o.q
  | .vfcmpLt o => some o.q
  | .vfcmpLe o => some o.q
  | .vfcmpUn o => some o.q
  | .vaddVs o => some o.q
  | .vaddsVs o => some o.q
  | .vsubVs o => some o.q
  | .vsubsVs o => some o.q
  | .vrsubVs o => some o.q
  | .vrsubsVs o => some o.q
  | .vmulVs o => some o.q
  | .vmulsVs o => some o.q
  | .vmacVs o => some o.q
  | .vmacsVs o => some o.q
  | .vminVs o => some o.q
  | .vmaxVs o => some o.q
  | .vandVs o => some o.q
  | .vorVs o => some o.q
  | .vxorVs o => some o.q
  | .vshlVs o => some o.q
  | .vshrVs o => some o.q
  | .vsplat o => some o.q
  | .vslup o => some o.q
  | .vrotup o => some o.q
  | .vsldn o => some o.q
  | .vrotdn o => some o.q
  | .vget o => some o.q
  | .vcvt o => some o.q
  | .vcvts o => some o.q
  | .vbpack16 o => some o.q
  | .vbpack32 o => some o.q
  | .vbpack64 o => some o.q
  | .vbunpack16 o => some o.q
  | .vbunpack32 o => some o.q
  | .vbunpack64 o => some o.q
  | .vmov o => some o.q
  | .vmerge o => some o.q
  | .vperm o => some o.q
  | .vcompress o => some o.q
  | .vexpand o => some o.q
  | .vgather o => some o.q
  | .vscatter o => some o.q
  | .vzip o => some o.q
  | .vunzip o => some o.q
  | .vrev o => some o.q
  | .vrsum o => some o.q
  | .vrmin o => some o.q
  | .vrmax o => some o.q
  | .vrsumw o => some o.q
  | .vdot o => some o.q
  | .vdota o => some o.q
  | .vdot2 o => some o.q
  | .vdot2a o => some o.q
  | .vrcp o => some o.q
  | .vrsq o => some o.q
  | .vrefRcp o => some o.q
  | .vrefRsq o => some o.q
  | .vsqrt o => some o.q
  | .vexp2 o => some o.q
  | .vexp o => some o.q
  | .vlog2 o => some o.q
  | .vtanh o => some o.q
  | .vsig o => some o.q
  | .mand o => some o.q
  | .mor o => some o.q
  | .mxor o => some o.q
  | .mandn o => some o.q
  | .mnot o => some o.q
  | .mmov o => some o.q
  | .mfirst o => some o.q
  | .viota o => some o.q
  | .vmpopc o => some o.q
  | .vmtov o => some o.q
  | .vvtom o => some o.q
  | .vany o => some o.q
  | .vall o => some o.q
  | .yield o => some o.q
  | .done o => some o.q
  | .nop o => some o.q
  | .ifence o => some o.q
  | .rstart o => some o.q
  | .rreset o => some o.q
  | .abort o => some o.q
  | .abchk o => some o.q
  | .trig o => some o.q
  | .dclr o => some o.q
  | .ddrain o => some o.q
  | .emptyG o => some o.q
  | .rstat o => some o.q
  | .rwait o => some o.q
  | .sstep o => some o.q
  | .dstat o => some o.q
  | .pctr o => some o.q
  | .jwr o => some o.q
  | .afree o => some o.q
  | .dmark o => some o.q
  | .capr o => some o.q
  | .ostat o => some o.q
  | .pcast o => some o.q
  | .pquote o => some o.q
  | .cpyt o => some o.q
  | .opass o => some o.q
  | .opassr o => some o.q
  | .oprobe o => some o.q
  | .phld o => some o.q
  | .phdec o => some o.q
  | .phadj o => some o.q
  | .phwr o => some o.q
  | .phrd o => some o.q
  | .loop o => some o.q
  | .loopReg o => some o.q
  | .rpt o => some o.q
  | .rptReg o => some o.q
  | .setw o => some o.q
  | .setwReg o => some o.q
  | .getw o => some o.q
  | .trap o => some o.q
  | .mfs o => some o.q
  | .mts o => some o.q
  | .cpy o => some o.q
  | .cpyc o => some o.q
  | .aop o => some o.q
  | .hwait o => some o.q
  | .htest o => some o.q
  | .hcancel o => some o.q
  | .hmovH o => some o.q
  | .hmovG o => some o.q
  | .inbox o => some o.q
  | .fenceAcq o => some o.q
  | .fenceRel o => some o.q
  | .fenceFull o => some o.q
  | .emptyV o => some o.q
  | .emptyH o => some o.q
  | .bind o => some o.q
  | .unbind o => some o.q
  | .vchain o => some o.q
  | .vrdac o => some o.q
  | .vrdacSnoop o => some o.q
  | .vwrac o => some o.q
  | .aclr o => some o.q
  | .rinj o => some o.q
  | .rinjr o => some o.q
  | .ginj o => some o.q
  | .rpark o => some o.q
  | .runpark o => some o.q
  | .rtire o => some o.q
  | .rmode o => some o.q
  | .jrd o => some o.q
  | .join o => some o.q
  | .leave o => some o.q
  | .bar o => some o.q
  | .alease o => some o.q
  | .gld o => some o.q
  | .gst o => some o.q
  | .gldv o => some o.q
  | .gstv o => some o.q
  | .gldt o => some o.q
  | .gstt o => some o.q
  | .gred o => some o.q
  | .gsend o => some o.q
  | .grecv o => some o.q
  | .gpfill o => some o.q
  | .tmld o => some o.q
  | .tmst o => some o.q
  | .tmwr o => some o.q
  | .fput o => some o.q
  | .fget o => some o.q
  | .fsend o => some o.q
  | .frecv o => some o.q
  | .fcut o => some o.q
  | .fwin o => some o.q
  | .fctlPolicy o => some o.q
  | .fctlExcise o => some o.q
  | .fctlReadmit o => some o.q
  | .fpstat o => some o.q
  | _ => none

/-- The words of an instruction; an event has none. -/
def encode (i : Instr) : List Word :=
  match i.seq with
  | none => []
  | some q => encode0 i :: ((encodeExt i).toList ++ q.word.toList)

end Sys2Proof
end

