-- ==== Sys2Proof/Config.lean ====
section
/-! DEFINITION. What an implementation fixes, and the values the spec leaves open. An open value is an
opaque constant: it has no body, so no proof can see a number in it, and a statement about it holds
whatever it is. -/

namespace Sys2Proof.Config

/-- Detected code of output j of sample t of the n-th pass, or of vector t of the n-th probe, before any contract binds it
(R270, R273, R279: analog). Free value, log entry 3. -/
opaque detected : Nat → Nat → Nat → Int

/-- Phase codes of the decomposition of a 64 by 64 FP32 block (R267). Free value, log entry 4. -/
opaque decompose : BitVec 131072 → BitVec 98304

/-- ECDSA P-521 signature by the identity key, 132 bytes (R406). Log entry 5. -/
opaque signature : List Byte → BitVec 1056

/-- The hash of a byte at an address, a term of a member's superstep signature (R386). Log entry 5. -/
opaque byteHash : Nat → Byte → BitVec 64

/-- The hash of a register's value, a term of a member's superstep signature (R386). Log entry 5. -/
opaque registerHash : Nat → Nat → BitVec 64

/-- Bytes of the identity certificate chain (R404, R446). Log entry 5. -/
opaque identityCert : List Byte

/-- The firmware of the controllers, that of schedulers and supervisors, and the hypervisor, which the platform
measurement takes and the spec does not give (R405). Log entry 5. -/
opaque controllerFirmware : List Byte
opaque dieFirmware : List Byte
opaque hypervisor : List Byte

/-- Calibrated EBC a die's meshes measure at bring-up (R403). Free value, log entry 3. -/
opaque measuredEbc : BitVec 4 → BitVec 8

/-- The n-th value of the free-value counter, for a value the spec leaves open. Log entry 6. -/
opaque freeValue : Nat → DWord

/-- The port by which the routing tables of an epoch send packets to a package; none where they hold no route
(R422). Log entry 7. -/
opaque route : Nat → BitVec 20 → Option (BitVec 3)

/-- Whether the routing tables of an epoch let a packet pass from an input port to an output port (R428). Log
entry 7. -/
opaque passes : Nat → BitVec 3 → BitVec 3 → Bool

/-- The grandmaster's fabric time at a package's bring-up, of which the spec gives no value (R421). Free value, log entry 74. -/
opaque grandmasterTime : Nat

/-- Where in die 0's HBM bring-up sets the fabric reserve aside, in pages of 4 KiB (R431). Free value, log entry 74. -/
opaque fabricReservePage : Nat

/-- The package's ID in the pod, which the identity certificate binds (R404). Log entry 7. -/
opaque packageId : BitVec 20

end Sys2Proof.Config
end

