-- ==== Sys2Proof/Machine/Table.lean ====
section
/-! DEFINITION. Sparse tables keyed by Nat in one canonical form: keys strictly rising, and no entry
equal to what an unlisted key reads as. Memory, taint, registers and units are all held this way, so
that equal contents are equal data. -/

namespace Sys2Proof.Machine

/-- A sparse table. -/
abbrev Tab (α : Type) := List (Nat × α)

/-- The entry at k; d is what an unlisted key reads as. -/
def Tab.get {α : Type} (d : α) : Tab α → Nat → α
  | [], _ => d
  | (k, v) :: t, n => if k = n then v else Tab.get d t n

/-- Insert or replace, keeping the keys rising. -/
def Tab.insert {α : Type} (k : Nat) (v : α) : Tab α → Tab α
  | [] => [(k, v)]
  | (k', v') :: t =>
    if k < k' then (k, v) :: (k', v') :: t
    else if k = k' then (k, v) :: t
    else (k', v') :: Tab.insert k v t

/-- Remove a key. -/
def Tab.erase {α : Type} (k : Nat) : Tab α → Tab α
  | [] => []
  | (k', v') :: t => if k' = k then Tab.erase k t else (k', v') :: Tab.erase k t

/-- Write v at k: writing what an unlisted key reads as removes the entry. -/
def Tab.put {α : Type} [DecidableEq α] (d : α) (t : Tab α) (k : Nat) (v : α) : Tab α :=
  if v = d then Tab.erase k t else Tab.insert k v t

/-- Keys strictly rising above lo, and no entry equal to d. -/
def Tab.wfFrom {α : Type} [DecidableEq α] (d : α) : Nat → Tab α → Bool
  | _, [] => true
  | lo, (k, v) :: t => decide (lo ≤ k) && decide (v ≠ d) && Tab.wfFrom d (k + 1) t

/-- The canonical form. -/
def Tab.wf {α : Type} [DecidableEq α] (d : α) (t : Tab α) : Bool := Tab.wfFrom d 0 t

/-- The package's byte memory: HBM, local memories, yards, pass SRAM and weight buffers in one space
of flat addresses (see Machine/Ops.lean). -/
abbrev Memory := List Host.Cell

/-- What an unlisted address reads as: HBM is zeroed at bring-up (R415), local memory and yards at
launch start (R131, R232). -/
def Memory.blank : Byte := 0

/-- One byte. -/
def Memory.read (m : Memory) (a : Nat) : Byte := Tab.get Memory.blank m a

/-- Write one byte. -/
def Memory.write (m : Memory) (a : Nat) (b : Byte) : Memory := Tab.put Memory.blank m a b

/-- The canonical form of the byte memory. -/
def Memory.wf (m : Memory) : Bool := Tab.wf Memory.blank m

/-- n bytes from address a up, lowest first. -/
def Memory.readN (m : Memory) (a : Nat) : Nat → List Byte
  | 0 => []
  | n + 1 => m.read a :: Memory.readN m (a + 1) n

/-- Write a list of bytes from address a up. -/
def Memory.writeN (m : Memory) (a : Nat) : List Byte → Memory
  | [] => m
  | b :: bs => Memory.writeN (m.write a b) (a + 1) bs

/-- The natural number whose little-endian bytes are bs (R2). -/
def natOfBytes : List Byte → Nat
  | [] => 0
  | b :: bs => b.toNat + 256 * natOfBytes bs

/-- n little-endian bytes of a natural number (R2). -/
def bytesOfNat : Nat → Nat → List Byte
  | 0, _ => []
  | n + 1, x => BitVec.ofNat 8 x :: bytesOfNat n (x / 256)

/-- Set d at n consecutive keys from k up. -/
def Tab.fill {α : Type} [DecidableEq α] (d : α) (t : Tab α) (k : Nat) (v : α) : Nat → Tab α
  | 0 => t
  | n + 1 => Tab.fill d (Tab.put d t k v) (k + 1) v n

/-- Write a list of entries at consecutive keys from k up. -/
def Tab.putN {α : Type} [DecidableEq α] (d : α) (t : Tab α) (k : Nat) : List α → Tab α
  | [] => t
  | v :: vs => Tab.putN d (Tab.put d t k v) (k + 1) vs

/-- Whether some key of the n from k up reads true. -/
def Tab.anyN (t : Tab Bool) (k : Nat) : Nat → Bool
  | 0 => false
  | n + 1 => Tab.get false t k || Tab.anyN t (k + 1) n

/-- The entries of the n keys from k up. -/
def Tab.getN {α : Type} (d : α) (t : Tab α) (k : Nat) : Nat → List α
  | 0 => []
  | n + 1 => Tab.get d t k :: Tab.getN d t (k + 1) n

end Sys2Proof.Machine
end

