-- ==== Sys2Proof/Machine/State.lean ====
section
/-! DEFINITION. The state of an FY960 package as plain data: cores, vector units, clusters, meshes, dies,
launches, partitions and the fabric, with everything the spec gives each of them, and State.reset. -/

namespace Sys2Proof.Machine

/-! ### Reasons -/

/-- Why a step stops. -/
inductive Fault where
  /-- The configuration store failed verification, so the package offers only its recovery interface,
  which the spec does not describe (R403). Raised by step. Safe: nothing is claimed past it. -/
  | recoveryInterface
  deriving DecidableEq, Repr

/-- Why a step refuses. -/
inductive Refusal where
  /-- The instruction has no meaning yet. Raised by exec's refused arms only. Safe. -/
  | notModelled (mnemonic : String)
  deriving DecidableEq, Repr

/-! ### Registers of a core -/

/-- Whether a register is full, awaits a producer, or was emptied with no producer pending (R17). -/
inductive Fill where
  | full | pending | empty
  deriving DecidableEq, Repr

/-- A register with a full/empty bit and a taint bit (R16). -/
structure Reg (α : Type) where
  val : α
  fill : Fill
  taint : Bool
  deriving DecidableEq, Repr

/-- A register with a taint bit alone: predicates, way registers, loop counters (R16). -/
structure TReg (α : Type) where
  val : α
  taint : Bool
  deriving DecidableEq, Repr

/-- An entry of the loop stack (R28). -/
structure LoopEntry where
  start : Word
  last : Word
  frame : Nat
  deriving DecidableEq, Repr

/-- An active repeat frame: its first word, the address after it, and repetitions left (R31, R32). -/
structure RptFrame where
  start : Word
  after : Word
  left : Nat
  deriving DecidableEq, Repr

/-- A tile payload: 1,024 bytes, a taint bit per byte (R209), a poison bit per 8-byte word (R234). -/
structure Payload where
  bytes : PayWord
  taint : MWord
  poison : BitVec 128
  deriving DecidableEq, Repr

/-- A created task waiting in a station queue (R10, R13, R218). -/
structure CreatedTask where
  start : Word
  i : BitVec 16
  j : BitVec 16
  k : BitVec 16
  je : BitVec 6
  payA : Payload
  payB : Payload
  deriving DecidableEq, Repr

/-- An entry of a core's routine list (R11). -/
structure Routine where
  start : Word
  i : Word
  j : Word
  k : Word
  deriving DecidableEq, Repr

/-- The trap causes of R36, in the order of their codes. -/
inductive Cause where
  | emptyRead | reservedCode | illegalOperand | illegalFrame | alignment | stack | loopStack
  | pipeCheck | localUncorrectable | format | privilege | aborted | replayDiverge | dualMismatch
  | watchdog | codeRange | software | xlateError | yardUncorrectable | hbmUncorrectable
  deriving DecidableEq, Repr

/-- A trap with its VALUE (R36). -/
structure Trap where
  cause : Cause
  value : DWord
  deriving DecidableEq, Repr

/-- What the die supervisor knows of a parked core: its fault message (R33, R34). -/
structure Park where
  cause : Cause
  value : DWord
  pc : Word
  w0 : Word
  w1 : Word
  seqn : Word
  second : Bool
  deriving DecidableEq, Repr

/-- An inbox message: handle word and value, with their taint (R132, R133). -/
structure InboxMsg where
  hw : DWord
  val : DWord
  taint : Bool
  deriving DecidableEq, Repr

/-- Stream port kinds (R201). -/
inductive PortKind where
  | yin | yout | rin | rout
  deriving DecidableEq, Repr

/-- A bound stream port (R134, R135, R202, R203): its far end, its buffered elements oldest first, and
the last element that passed. -/
structure Port where
  kind : PortKind
  base : Nat
  log2n : Nat
  ctl : Nat
  ramp : BitVec 7
  chan : BitVec 4
  buf : List (VWord × Bool)
  last : VWord
  lastTaint : Bool
  deriving DecidableEq, Repr

/-- A tensor map entry (R322). -/
structure TensorMap where
  base : DWord
  rank : Nat
  nea : Nat
  neb : Nat
  nec : Nat
  noa : Nat
  nob : Nat
  noc : Nat
  rowBytes : Nat
  ext : List Nat
  pitch : List Int
  coef : List Int
  lead : List Nat
  deriving DecidableEq, Repr

/-- The registers and hidden task state that a barrier's checkpoint file captures (R130, R381). -/
structure Regs where
  g : Tab (Reg DWord)
  v : Tab (Reg VWord)
  m : Tab (Reg MWord)
  p : Tab (TReg Bool)
  h : Tab (Reg DWord)
  w : Tab (TReg Word)
  lc : Tab (TReg Word)
  pc : Word
  rstack : List Word
  loops : List LoopEntry
  ct : Bool
  rpt : Option RptFrame
  src : BitVec 2
  je : BitVec 6
  rli : BitVec 16
  seqn : Word
  ci : Word
  cj : Word
  ck : Word
  running : Bool
  bodyPending : Bool
  routines : List Routine
  rliNext : Nat
  inbox : List InboxMsg
  held : List InboxMsg
  owed : Nat
  lfsr : Word
  fx : BitVec 5
  fxTaint : BitVec 5
  ports : Tab (Option Port)
  /-- ROLE, MAXLG and WEIGHT (R143) -/
  role : BitVec 2
  maxlg : BitVec 3
  weight : BitVec 4
  /-- tensor maps of a ramp core (R321) -/
  tmaps : Tab (Option TensorMap)
  /-- whether the core has reported the end of its part in the launch (R22) -/
  partEnded : Bool
  deriving DecidableEq, Repr

/-! ### The vector unit's view of a core -/

/-- Element functions of the integer and vector-scalar rows (R159, R162). -/
inductive IFn where
  | add | sub | rsub | mul | mulh | mac | min | max | and | or | xor | andn | shl | shr | abs | neg
  deriving DecidableEq, Repr

/-- Element functions of the floating rows (R160, R161). -/
inductive FFn where
  | add | sub | mul | fma | min | max | abs | neg
  deriving DecidableEq, Repr

/-- Compares into a mask (R159, R161). -/
inductive CmpFn where
  | eq | ne | lt | le | un
  deriving DecidableEq, Repr

/-- Reductions (R170). -/
inductive RedFn where
  | sum | min | max | sumw | dot | dota | dot2 | dot2a
  deriving DecidableEq, Repr

/-- Functions rounded once (R172). -/
inductive SFn where
  | sqrt | exp2 | exp | log2 | tanh | sig
  deriving DecidableEq, Repr

/-- Mask functions on all bits (R173). -/
inductive MFn where
  | and | or | xor | andn | not | mov
  deriving DecidableEq, Repr

/-- What a queued vector instruction computes. -/
inductive VKind where
  | int (f : IFn) (sat : Bool)
  | intW (f : IFn)
  | intCmp (f : CmpFn)
  | flt (f : FFn)
  | fltW (f : FFn)
  | fmul2
  | fltCmp (f : CmpFn)
  | vs (f : IFn) (sat : Bool)
  | splat
  | slide (up rot : Bool)
  | get
  | cvt (sat : Bool)
  | pack
  | unpack
  | mov | merge | perm | compress | expand | gather | scatter | zip | unzip | rev
  | red (f : RedFn)
  | approx (rsq : Bool)
  | refine (rsq : Bool)
  | fn (f : SFn)
  | mask (f : MFn)
  | mfirst | iota | popc | mtov | vtom | any | all
  | chain
  | rdac (snoop : Bool)
  | wrac
  | aclr
  | ldv | stv | ldvy | stvy
  | gldv | gstv | gldt | gstt
  deriving DecidableEq, Repr

/-- A vector instruction as it stands in a queue: what it computes, its register numbers, T, the second
type of R164, the mask, the rounding mode, a number (group code, block length, rows, descriptor address; of
a global access 1 + the cluster of its yard form, or 1 for a block-scaled tag), and the checked address of a load or store. -/
structure VOp where
  kind : VKind
  d : Nat
  a : Nat
  b : Nat
  t : ETy
  s : ETy
  m : BitVec 2
  rm : Rm
  c : Nat
  addr : Nat
  deriving DecidableEq, Repr

/-- A word of local memory as it stood before a scalar store: its address, bytes and taint, and its error bits
(R129, R149). -/
structure UndoWord where
  addr : Nat
  bytes : List (Byte × Bool)
  poison : Bool
  uncorr : Bool
  deriving DecidableEq, Repr

/-- An entry of a core's vector queue (R136): the instruction, its unit's address and words, the g
operands read at the push with their taint, TASK.CT then, the VACC cut (R307), the waiting count of R139,
and what a late trap restores (R149): the registers at the push, brought up to date with the vector
instructions before it, the local words that later scalar stores replaced, newest first, the number of
later yard stores, and the station tasks taken since. num is its place among the core's accesses (R205), and ring the
ring load that its task came from (R352). -/
structure VEntry where
  op : VOp
  pc : Word
  w0 : Word
  w1 : Word
  ga : DWord
  gb : DWord
  gd : DWord
  taintA : Bool
  taintB : Bool
  taintD : Bool
  ct : Bool
  cut : Option Nat
  since : Option Nat
  aged : Bool
  snap : Regs
  undo : List UndoWord
  stores : Nat
  taken : List CreatedTask
  num : Nat
  ring : Option (Nat × Nat)
  deriving DecidableEq, Repr

/-- One write a vector instruction makes when it completes: to a register, or of bytes to the core's local memory, to
the yard of a cluster, or at a VA (R207, R315). -/
inductive VWrite where
  | v (n : Nat) (val : VWord) (taint : Bool)
  | m (n : Nat) (val : MWord) (taint : Bool)
  | g (n : Nat) (val : DWord) (taint : Bool)
  | p (n : Nat) (val : Bool) (taint : Bool)
  | loc (addr : Nat) (bytes : List (Byte × Bool))
  | yard (k : ClusterId) (addr : Nat) (bytes : List (Byte × Bool))
  | hbm (va : Nat) (bytes : List (Byte × Bool))
  deriving DecidableEq, Repr

/-- A granted vector instruction: its lane groups and until when it holds them, when its destination
becomes full (R138), its writes, the flags it raises (R89), and whether a later access of the core to its lines has been
granted, which fixes what it has read (R145, R341). -/
structure InFlight where
  ent : VEntry
  lanes : Nat
  freeAt : Nat
  due : Nat
  writes : List VWrite
  flags : BitVec 5
  flagTaint : Bool
  fixed : Bool
  deriving DecidableEq, Repr

/-! ### Commands of a core's engines -/

/-- A row of a copy command: source and destination in their spaces (R184, R188). -/
structure CopyRow where
  src : Nat
  dst : Nat
  len : Nat
  deriving DecidableEq, Repr

/-- A copy command about to be appended (R183, R188, R189). -/
structure NewCopy where
  ssp : BitVec 2
  dsp : BitVec 2
  rows : List CopyRow
  h : Option (BitVec 3)
  inb : Bool
  taint : Bool
  doneWord : Option Nat
  deriving DecidableEq, Repr

/-- What a pass-chain entry does (R276, R295, R299). -/
inductive ChainKind where
  | pass | passRev | probe | phld | phdec | phadj | phwr | phrd
  deriving DecidableEq, Repr

/-- A dependence (cluster, chain, sequence) of a chain entry (R276). -/
structure Dep where
  cluster : BitVec 10
  chain : BitVec 2
  seq : Word
  deriving DecidableEq, Repr

/-- Progress of a chain entry. -/
inductive ChainStage where
  | waiting | granted | latched | finished (status : BitVec 8)
  deriving DecidableEq, Repr

/-- An entry of a pass chain (R276, R292 to R299). -/
structure ChainEntry where
  seq : Nat
  kind : ChainKind
  core : CoreId
  launch : Nat
  h : BitVec 3
  inb : Bool
  taint : Bool
  dataTaint : Bool
  hTaint : Bool
  mesh : MeshId
  win : BitVec 4
  image : BitVec 12
  target : BitVec 12
  row0 : Nat
  n : Nat
  slot : Nat
  bank : Bool
  set : Bool
  grid : Bool
  shift : Nat
  stage : Bool
  addr : Nat
  first : Nat
  count : Nat
  trim : Bool
  guard : Bool
  pint : Nat
  deps : List Dep
  readyGrants : Nat
  stageOf : ChainStage
  ebc : BitVec 8
  /-- bytes a phld has copied, the token of its translation fault -/
  done : Nat
  token : Option Nat
  /-- whether it has been granted once (R296), the LEN and the bytes that a phld has read (R300), the issuing core's
  accesses before it (R205), and how many mantissa rows and scale words a running pass has read, with their bytes and
  whether one was uncorrectable (R269, R284) -/
  begun : Bool
  len : Option Nat
  bytes : List (Byte × Bool)
  after : Nat
  rows : List (List Byte)
  scales : List (List Byte)
  spoilt : Bool
  /-- the status of a phld that has read its image while a bank load reads granules that it writes (R265) -/
  ending : Option (BitVec 8)
  /-- a pass's converted outputs row by row, or the words of a block in a decomposition engine -/
  out : List Word
  /-- the ring load that the issuing task came from (R352) -/
  ring : Option (Nat × Nat)
  deriving DecidableEq, Repr

/-! ### Waiting inside an instruction -/

/-- How far an instruction that takes several steps has got. -/
inductive Phase where
  | idle
  | bar (id : Nat) (gen : Nat)
  | barDone (gen : Word)
  | sstep
  | sstepDone (num : Word)
  | tile (p : Payload)
  | ringOp
  | found (word : DWord)
  | xlate (token : Nat)
  | refused (va : Nat)
  | afree
  | capture (x : DWord)
  /-- a vector instruction that writes a predicate has been pushed and its unit awaits it (R144) -/
  | vmove
  /-- an alease whose request has reached the scheduler: the mesh of the lease it names, if it names one (R288, R290) -/
  | claim (mesh : Option MeshId)
  /-- a chain entry whose descriptor has been read and whose lease was live, awaiting room in its chain (R288, R293) -/
  | append (chain : BitVec 2) (e : ChainEntry)
  /-- a ddrain, with how many entries each launch had logged on the die (R364) -/
  | ddrain (upTo : List (Nat × Nat))
  /-- copy commands whose descriptor or records have been read, not all appended yet (R188, R189) -/
  | copies (inb : Bool) (ns : List NewCopy)
  deriving DecidableEq, Repr

/-- The bytes, taint and error bits of a 64-byte line as they stood (R129, R130, R233). -/
structure ShadowLine where
  bytes : BitVec 512
  taint : BitVec 64
  poison : BitVec 8
  uncorr : BitVec 8
  deriving DecidableEq, Repr

/-- A yard store on its way to its bank (R126, R180). -/
structure YardStore where
  addr : Nat
  val : DWord
  taint : Bool
  num : Nat
  ring : Option (Nat × Nat)
  deriving DecidableEq, Repr

/-- An atomic or reduction on its way to its home slice (R191, R317). -/
structure AtomicOp where
  num : Nat
  reduction : Bool
  pc : Word
  d : BitVec 5
  he : BitVec 3
  inb : Bool
  va : Nat
  op : BitVec 4
  wide : Bool
  b : DWord
  c : DWord
  taintB : Bool
  taintC : Bool
  ct : Bool
  ord : BitVec 2
  token : Option Nat
  status : Option (BitVec 8)
  /-- where a ramp core's unit translated its address to (R335) -/
  pa : Option Nat
  /-- the ring load that the issuing task came from (R352) -/
  ring : Option (Nat × Nat)
  deriving DecidableEq, Repr

/-- A result on its way to a register (R17). -/
inductive Arrival where
  | g (n : BitVec 5) (val : DWord) (taint : Bool)
  | v (n : BitVec 4) (val : VWord) (taint : Bool)
  | h (n : BitVec 3) (val : DWord) (taint : Bool)
  deriving DecidableEq, Repr

/-- A store-class access that faulted, kept in its agent's side log (R336). -/
structure SideEntry where
  va : Nat
  bytes : List (Byte × Bool)
  atomic : Option AtomicOp
  pc : Word
  seq : Nat
  token : Nat
  refused : Option (BitVec 8)
  sstep : Nat
  ring : Option (Nat × Nat)
  deriving DecidableEq, Repr

/-- A write tag (R352): who wrote, how, for which ring load, in which launch and superstep. -/
structure WTag where
  agent : Nat
  op : Option (BitVec 4 × Bool)
  ring : Option (Nat × Nat)
  launch : Nat
  gang : Nat
  sstep : Word
  deriving DecidableEq, Repr

/-- A line held in a ramp core's L1 (R325): its partition, its bytes, its taint, and the write tag that its fill saw
(R352). -/
structure L1Line where
  part : BitVec 4
  bytes : BitVec 512
  taint : BitVec 64
  pa : Nat
  tag : Option WTag
  deriving DecidableEq, Repr

/-- A core: its checkpointed registers and everything else the spec gives it (R16, R32, R35, R125 to
R151, R313). -/
structure Core extends Regs where
  /-- launch the core belongs to (its index in launches), its gang and its rank -/
  launch : Option Nat
  gang : Nat
  rank : Nat
  left : Bool
  park : Option Park
  pendingTrap : Option (Trap × VEntry)
  lateTrap : Option (Trap × Word)
  phase : Phase
  /-- words of the unit being executed, for the fault message (R34) -/
  uw0 : Word
  uw1 : Word
  /-- TRAPINFO (R35) -/
  tiPc : Word
  tiValid : Bool
  tiAttempt : BitVec 8
  tiCause : BitVec 8
  /-- CYCLE counts from here; cycles saved by a pre-emption; the task's count (R36, R122) -/
  cycleBase : Nat
  cycleSaved : Nat
  taskStart : Nat
  wdogResumed : Bool
  stationQ : List CreatedTask
  /-- SHARE's SERVICE (R143) -/
  service : Word
  yielded : Bool
  vq : List VEntry
  inflight : List InFlight
  ystores : List YardStore
  atomics : List AtomicOp
  atomicCount : Nat
  /-- vector pushes and yard stores so far: they number the core's accesses in program order (R205) -/
  accesses : Nat
  arrivals : List Arrival
  /-- h registers tested since the last wait while a producer had been issued (R195), and those whose
  outstanding producer an hcancel found (R196) -/
  hIssued : BitVec 8
  hCancelled : BitVec 8
  istore : Tab (Option Word)
  shadow : Tab (Option ShadowLine)
  ckpt : Option Regs
  /-- what a rollback restores beside the registers, as it was at the barrier: the count of atomics (R181), the handles
  tested with a producer issued (R195), and the running task's ring load (R352) -/
  mark : Nat × BitVec 8 × Option (Nat × Nat)
  sideLog : List SideEntry
  l1 : Tab (Option L1Line)
  checkAt : Option Nat
  /-- last ring load whose rwait returned DONE (R353), and the ring load, as cluster and count, of the task for which
  the core writes, if a meeting created that task (R352) -/
  sawLoad : Nat
  taskRing : Option (Nat × Nat)
  /-- untainted bytes written in the superstep, for a redundant launch's signature (R386) -/
  written : List (Nat × Byte)
  deriving DecidableEq, Repr

/-! ### Clusters -/

/-- A tile header (R209). -/
structure Header where
  tag : Word
  toll : BitVec 16
  hops : BitVec 8
  origin : BitVec 6
  fam : Fam
  i : BitVec 16
  j : BitVec 16
  k : BitVec 16
  seq : Word
  deriving DecidableEq, Repr

/-- A tile (R209). -/
structure Tile where
  hdr : Header
  pay : Payload
  deriving DecidableEq, Repr

/-- The condition of a lay-by tile (R210). -/
inductive LayCond where
  | queued | parked | spent
  deriving DecidableEq, Repr

/-- A tile on a link: when it departed, and toll notices waiting for it (R208, R220). -/
structure LinkTile where
  tile : Tile
  left : Nat
  notices : Nat
  deriving DecidableEq, Repr

/-- A wake copy and the cycle its tile departed (R210). -/
structure Wake where
  tile : Tile
  left : Nat
  deriving DecidableEq, Repr

/-- One family's places at one station (R210): through, lay-by slots, wake, the link to the next
station, and the count of injections (R209). -/
structure Places where
  through : Option Tile
  lay0 : Option (Tile × LayCond)
  lay1 : Option (Tile × LayCond)
  wake : Option Wake
  link : Option LinkTile
  injected : Nat
  deriving DecidableEq, Repr

/-- A meeting with its entry, as a held one is kept (R218): its two tiles, and which of them is a wake copy. -/
structure Meeting where
  a : Tile
  b : Tile
  wakeA : Bool
  wakeB : Bool
  entry : Nat
  deriving DecidableEq, Repr

/-- Ring states (R212). -/
inductive RingState where
  | idle | loading | running | done
  deriving DecidableEq, Repr

/-- A request of rpark, runpark or rtire that waits for a beat boundary (R242). -/
structure RingReq where
  st : BitVec 6
  fn : BitVec 9
  fam : Fam
  arg : BitVec 2
  deriving DecidableEq, Repr

/-- A carriageway (R208 to R223). -/
structure Ring where
  state : RingState
  elastic : Bool
  record : Bool
  inj : Nat
  ret : Nat
  short : Nat
  aborted : Bool
  fault : Bool
  loads : Nat
  everElastic : Bool
  startedTasks : List CoreId
  placesA : Tab Places
  placesB : Tab Places
  /-- held meetings by station, oldest first -/
  held : Tab (List Meeting)
  reqs : List RingReq
  deriving DecidableEq, Repr

/-- A junction-table entry (R216). -/
structure JEntry where
  atag : Word
  amask : Word
  btag : Word
  bmask : Word
  start : Word
  valid : Bool
  keq : Bool
  deriving DecidableEq, Repr

/-- A copy command (R183 to R189). -/
structure CopyCmd where
  seq : Nat
  core : CoreId
  h : Option (BitVec 3)
  inb : Bool
  ssp : BitVec 2
  dsp : BitVec 2
  rows : List CopyRow
  row : Nat
  done : Nat
  taint : Bool
  status : Option (BitVec 8)
  started : Bool
  cancelled : Bool
  hTaint : Bool
  doneWord : Option Nat
  token : Option Nat
  /-- bytes of the current unit that have been read and not yet written (R186, R341) -/
  buf : List (Byte × Bool)
  /-- which 8-byte words of that unit have been written, and the pin it holds or waits for on its line (R329) -/
  parts : BitVec 8
  pin : Option LineReq
  /-- words of units already executed that no other agent sees yet: their addresses and bytes (R341, R349) -/
  late : List (Nat × List (Byte × Bool))
  /-- the ring load that the issuing task came from (R352) -/
  ring : Option (Nat × Nat)
  deriving DecidableEq, Repr

/-- A pass chain (R276, R392): its next sequence number, its entries oldest first, and the agents that
have appended in the superstep (R356). -/
structure Chain where
  next : Nat
  ents : List ChainEntry
  appenders : List CoreId
  deriving DecidableEq, Repr

/-- A cluster (R208 to R236, R275, R276). -/
structure Cluster where
  ring : Ring
  ringCkpt : Option Ring
  jt : Tab (Option JEntry)
  jtCkpt : Tab (Option JEntry)
  abortLine : Bool
  copyNext : Nat
  /-- the next sequence numbers of the copy engine and of the pass chains at the last barrier (R381, R391) -/
  copyCkpt : Nat
  chainCkpt : Tab Nat
  copies : List CopyCmd
  copyAppenders : List CoreId
  copyLog : List SideEntry
  chains : Tab Chain
  shadow : Tab (Option ShadowLine)
  deriving DecidableEq, Repr

/-- A vector unit's own state (R136 to R143): its policy, ageing threshold and last granted slot. -/
structure Svu where
  age : BitVec 16
  rr : Bool
  lastSlot : Option Nat
  checkAt : Option Nat
  deriving DecidableEq, Repr

/-! ### Meshes -/

/-- What a bank holds of an image (R258 to R263, R302). -/
structure BankImage where
  gran : BitVec 12
  gain : Int
  ebc : BitVec 8
  pint : Nat
  guard : Bool
  probe : BitVec 4096
  expect : List Int
  dpeak : Nat
  /-- whether the last probe of the image in this bank lay within the bound, or none has run (R273, R279; log entry 75) -/
  probed : Bool
  /-- whether the granule still holds this image (R265) -/
  named : Bool
  deriving DecidableEq, Repr

/-- One FP32 element of an accumulator window (R275, R284). -/
structure WinElem where
  val : Word
  taint : Bool
  poison : Bool
  deriving DecidableEq, Repr

/-- A live lease of a window (R275, R287). -/
structure Lease where
  launch : Nat
  cluster : BitVec 10
  chain : BitVec 2
  freeing : Bool
  deriving DecidableEq, Repr

/-- A chain entry named by its cluster, chain and sequence number. -/
structure EntryRef where
  cluster : BitVec 10
  chain : BitVec 2
  seq : Nat
  deriving DecidableEq, Repr

/-- Drift state of an image on a mesh (R279). -/
inductive Drift where
  | clear | warn | fenced | thermal
  deriving DecidableEq, Repr

/-- A mesh (R258 to R284). -/
structure Mesh where
  active : Bool
  bank0 : Option BankImage
  bank1 : Option BankImage
  /-- the phase registers of each bank, packed from register 0 up (R259) -/
  codes0 : BitVec 98304
  codes1 : BitVec 98304
  /-- the trims of each bank (R302) -/
  trims0 : Tab Int
  trims1 : Tab Int
  loading : Option (BitVec 12)
  bad : Tab Bool
  drift : Tab Drift
  wins : Tab WinElem
  leases : Tab (Option Lease)
  running : Option EntryRef
  ended : List EntryRef
  latch : List EntryRef
  latchSamples : Nat
  sinceProbe : Nat
  /-- the thermal loop's error (R282, R283), and whether it has lost lock -/
  temp : BitVec 8
  unlocked : Bool
  lastGrant : Nat
  grants : Nat
  clip : Nat
  unconf : Nat
  dlast : Nat
  written : List (Nat × Nat)
  deriving DecidableEq, Repr

/-! ### Launches -/

/-- A launch record (R365, R366). -/
structure LaunchRec where
  body : Word
  rampBody : Word
  gangSize : Nat
  ramps : Nat
  cluster : Nat
  gangs : Nat
  prio : Nat
  priv : Bool
  pin : Bool
  pre : Bool
  red : Bool
  det : Bool
  rr : BitVec 2
  rollMax : Nat
  dies : BitVec 16
  policy : DWord
  wdog : Nat
  seed : Word
  codeLen : Nat
  segBase : Nat
  segSize : Nat
  localSize : Nat
  yardSize : Nat
  imgBase : Nat
  imgSize : Nat
  logBase : Nat
  logSize : Nat
  depId : Word
  depValid : Bool
  depWhen : Bool
  redBase : Nat
  redSize : Nat
  llim : Nat
  deriving DecidableEq, Repr

/-- A convoy (R226 to R228): members, whether mustered, GEN, and the open generation's required set and
arrivals, with arrivals already made in the next generation. -/
structure Convoy where
  expect : Nat
  members : List CoreId
  mustered : Bool
  gen : Word
  isOpen : Bool
  required : List CoreId
  arrived : List CoreId
  nextArrived : List CoreId
  deriving DecidableEq, Repr

/-- A fabric command (R425, R435 to R439). -/
structure FabCmd where
  seq : Nat
  core : CoreId
  launch : Nat
  h : Option (BitVec 3)
  inb : Bool
  kind : BitVec 3
  ordered : Bool
  sp : BitVec 3
  src : DWord
  peer : DWord
  len : Nat
  tag : BitVec 16
  value : DWord
  taint : Bool
  dataTaint : Bool
  hTaint : Bool
  stamp : Option Nat
  sent : Bool
  token : Option Nat
  unacked : Nat
  statuses : List (BitVec 8)
  /-- get data that has arrived, by offset; how many bytes of it are written; whether a unit's error stopped it (R186,
  R437) -/
  parts : List (Nat × List (Byte × Bool))
  done : Nat
  halted : Bool
  status : Option (BitVec 8)
  /-- whether it has begun to run (R436) -/
  begun : Bool
  /-- the data of a held write on which both copies of a redundant launch have agreed (R386) -/
  data : Option (List (Byte × Bool))
  /-- the ring load that the issuing task came from (R352) -/
  ring : Option (Nat × Nat)
  deriving DecidableEq, Repr

/-- A write held by a redundant copy until its superstep agrees (R386): the storing unit's address, if a unit of the core
stores it, and for a fabric command's write the command. -/
structure HeldWrite where
  core : CoreId
  pc : Option Word
  va : Nat
  bytes : List (Byte × Bool)
  atomic : Option AtomicOp
  peer : Option FabCmd
  /-- the host address of a write to host memory -/
  host : Option Nat
  deriving DecidableEq, Repr

/-- A gang of a launch (R371, R372, R253, R255, R350). -/
structure Gang where
  clusters : List Nat
  ramps : List (BitVec 4 × BitVec 7)
  partner : Bool
  placed : Bool
  members : List CoreId
  arrived : List CoreId
  triggered : List CoreId
  trigDone : Bool
  sstep : Word
  nonReplayable : Bool
  rollbacks : Nat
  /-- while a rollback is under way, the cores whose rank-1 faults it counts (R381) -/
  rolling : Option (List CoreId)
  det : Bool
  rr : BitVec 2
  pendingMode : Option (BitVec 3 × Nat)
  convoyCkpt : Tab (Option Convoy)
  held : List HeldWrite
  /-- messages received by each receive queue, by die and queue, when the superstep began (R442) -/
  rqMark : Tab Nat
  /-- appends to each die's fabric engine when the superstep began (R442) -/
  fabMark : Tab Nat
  /-- whether every member has ended its part, and whether the gang's resources are free again (R22, R384) -/
  done : Bool
  freed : Bool
  /-- the primary that a third run repeats, and the ranks in disagreement (R387) -/
  thirdOf : Option Nat
  /-- the launch's count of PKG commands at the gang's barrier, and how many of them the gang has issued since (R391,
  R412) -/
  pkgMark : Nat
  pkgIssued : Nat
  /-- members that have come from a third copy without their cluster (R387) -/
  guests : List CoreId
  disagree : List Nat
  /-- atomics performed on each line in the superstep, by line VA (R358) -/
  atomicPos : Tab Nat
  deriving DecidableEq, Repr

/-- DSTAT (R355). -/
structure DStat where
  conf : Bool
  trunc : Bool
  rpend : Bool
  hostt : Bool
  space : BitVec 2
  addr : BitVec 56
  deriving DecidableEq, Repr

/-- A record-log entry (R360). -/
structure LogEntry where
  index : Nat
  kind : Nat
  unit : Nat
  pc : Word
  sstep : Word
  va : DWord
  vb : DWord
  deriving DecidableEq, Repr

/-- A die's record log for a launch (R359 to R361): entries still in the buffer, entries already in the
region, the next index, the next entry to replay, and whether recording has stopped. -/
structure DieLog where
  buffer : List LogEntry
  next : Nat
  drained : Nat
  replayed : List Nat
  stopped : Bool
  deriving DecidableEq, Repr

/-- Where a launch stands (R368 to R378). -/
inductive LState where
  | waiting | running | stopping | stopped | ended (status : BitVec 8)
  deriving DecidableEq, Repr

/-- The divergence record of R362. -/
structure Diverge where
  index : Word
  kind : Nat
  unit : Nat
  expected : DWord
  actual : DWord
  sstep : Word
  deriving DecidableEq, Repr

/-- A line saved in a pre-emption image (R379): where its bytes, their taint and its poison stand in the image region. -/
structure SavedLine where
  base : Nat
  off : Nat
  deriving DecidableEq, Repr

/-- A live lease with its window in a pre-emption image (R378). -/
structure SavedWin where
  mesh : MeshId
  win : Nat
  lease : Lease
  elems : List (Nat × WinElem)
  deriving DecidableEq, Repr

/-- A convoy record of an image (R226), a junction entry (R216), a tensor map (R321): what acceptance
reads from the image. -/
structure ImageInfo where
  codeVa : Nat
  localData : List (Nat × List Byte)
  yardData : List (Nat × List Byte)
  hbmData : List (Nat × List Byte)
  junctions : List (Nat × JEntry)
  tmaps : List (Option TensorMap)
  convoys : List (Nat × Nat)
  deriving DecidableEq, Repr

/-- A collective step that fcut named (R434, R439): the issuer's gang, the participants once the engine has
read the group record, the time of the fcut, and whether its cut is taken. -/
structure CutStep where
  step : DWord
  gang : Nat
  core : CoreId
  group : Option (List (BitVec 20))
  taken : Bool
  deriving DecidableEq, Repr

/-- What a die's share of a launch has come to (R369): its status, the trap that decides it, the units it names. -/
structure Share where
  status : BitVec 8
  deciding : Option (CoreId × Park)
  units : List Nat
  deriving DecidableEq, Repr

/-- A launch (R365 to R391). -/
structure Launch where
  id : Word
  compTag : DWord
  die : BitVec 4
  queue : BitVec 8
  /-- the ticket of each die that places its gangs (R368, R369) -/
  tickets : Tab Nat
  rcd : LaunchRec
  img : ImageInfo
  state : LState
  depMet : Bool
  everTriggered : Bool
  waitFrom : Nat
  firstPlaced : Option Nat
  placedAt : Nat
  heldTime : Nat
  boost : Nat
  quantumUp : Bool
  preemptAsked : Bool
  gangs : List Gang
  convoys : Tab (Option Convoy)
  abort : Bool
  dstats : Tab DStat
  logs : Tab DieLog
  /-- divergence records of the launch with the cores that they concern, oldest first (R362) -/
  diverges : List (CoreId × Diverge)
  /-- the shares that dies have finished (R369) -/
  shares : Tab (Option Share)
  deciding : Option (CoreId × Park)
  units : List Nat
  cutSteps : List CutStep
  pkgCount : Nat
  /-- the launch has been ended by its limit LLIM (R389) -/
  overdue : Bool
  imageLinks : Nat
  savedCores : List (Nat × Core)
  savedClusters : List (Nat × Cluster)
  savedLines : List SavedLine
  savedGranules : List (Nat × List (Byte × Bool))
  savedWins : List SavedWin
  stoppedAt : Nat
  /-- whether the completion record has been written -/
  reported : Bool
  imageLen : Nat
  endsAt : Nat
  deriving DecidableEq, Repr

/-! ### Dies and the package -/

/-- A submission queue's context (R367): ring base and length in the owner's stage-1 space, indices, and
the paired completion ring. -/
structure Queue where
  base : Nat
  log2n : Nat
  head : Nat
  tail : Nat
  cbase : Nat
  ctail : Nat
  deriving DecidableEq, Repr

/-- A message in a supervisor's, system software's or hypervisor's mailbox. -/
inductive Mail where
  | trap (c : CoreId) (p : Park) (launch : Nat)
  | drift (m : MeshId) (image : BitVec 12) (d : Nat)
  | ringFault (k : ClusterId)
  | diverge (d : Diverge)
  | xlate (va : Nat) (gpa : Nat) (stage2 : Bool) (nested : Bool) (kind : Nat) (level : Nat)
      (access : Nat) (ag : Agent) (part : BitVec 4) (token : Nat)
  | fabric (kind : Nat) (port : BitVec 3) (nbr : BitVec 20) (mile : Nat) (time : Nat)
  deriving DecidableEq, Repr

/-- A message in a fabric receive queue (R431, R438). -/
structure FabMsg where
  src : BitVec 20
  late : Bool
  ordered : Bool
  tag : BitVec 16
  value : DWord
  taint : Bool
  window : BitVec 8
  deriving DecidableEq, Repr

/-- What a journal entry records (R383). -/
inductive JournalEntry where
  | accept (ticket : Nat)
  | place (launch gang : Nat)
  | stopStart (launch : Nat) | stopEnd (launch : Nat)
  | restoreStart (launch : Nat) | restoreEnd (launch : Nat)
  | complete (launch : Nat)
  | quarantine (unit : BitVec 24)
  | consume (queue index : Nat)
  deriving DecidableEq, Repr

/-- A way of an L2 or RDC set (R327 to R329): its line, its pin count, and when it was last used. -/
structure Way where
  line : Nat
  pins : Nat
  used : Nat
  deriving DecidableEq, Repr

/-- An entry of a group TLB (R326): a virtual function's page, the physical page it is translated to, and the accesses
that both stages permit. -/
structure TlbEntry where
  vf : Nat
  page : Nat
  frame : Nat
  access : List Nat
  deriving DecidableEq, Repr

/-- A die (R311, R364 to R384, R425). -/
structure Die where
  queues : Tab (Option Queue)
  kicks : BitVec 256
  lastQueue : Nat
  ticket : Nat
  takeover : Bool
  heldDone : List Nat
  /-- the journal's entries since the last checkpoint, oldest first, and the checkpoints written (R383) -/
  journal : List JournalEntry
  checkpoints : Nat
  schedDead : Bool
  cores : Nat
  fabNext : Nat
  fab : List FabCmd
  fabAppenders : List CoreId
  ordCount : Nat
  rq : Tab (List FabMsg)
  rqSources : Tab (List (BitVec 20))
  engines : Tab (Option EntryRef)
  l2 : Tab (List Way)
  rdc : Tab (List Way)
  /-- for each line homed here, the dies that hold it in their RDC (R328) -/
  present : Tab (BitVec 16)
  lineWaits : List LineReq
  /-- the sixteen group TLBs (R326) -/
  tlbs : Tab (List TlbEntry)
  deriving DecidableEq, Repr

/-- A virtual function (R400). -/
structure Vf where
  part : BitVec 4
  s1root : Nat
  sys : Bool
  assigned : Bool
  deriving DecidableEq, Repr

/-- A cast in flight (R410, R412, R413): its command, its range table once the cut has read it, the physical
pages marked and not drained, their staged pre-images, the next segment, and packets not yet acknowledged. -/
structure Cast where
  core : CoreId
  launch : Nat
  gang : Nat
  h : BitVec 3
  inb : Bool
  seq : Nat
  taint : Bool
  ranges : Nat
  nrange : Nat
  destPkg : BitVec 20
  destVa : Nat
  cutStep : DWord
  tag : DWord
  stage : Nat
  stageSize : Nat
  cut : Bool
  c : DWord
  sstep : Word
  table : List (Nat × Nat)
  marked : List Nat
  /-- pages of the ranges that no translation gave at the cut and that have not drained (R410) -/
  late : List Nat
  /-- pre-images by physical page; none where a line of the page was uncorrectable -/
  staged : List (Nat × Option (List (Byte × Bool)))
  /-- the sealing key and the partition measurement at the cut (R413) -/
  tsk : BitVec 256
  pmr : BitVec 512
  next : Nat
  offset : Nat
  unacked : Nat
  drained : Bool
  deriving DecidableEq, Repr

/-- A partition (R399, R405, R407, R409). -/
structure Part where
  dies : BitVec 16
  s2root : Nat
  pmr : BitVec 512
  tsk : Option (BitVec 256)
  cast : Option Cast
  /-- a RESTORE that waits for the answer to a translation fault, with the fault's token and the physical addresses of
  the pages it has written (R397, R413) -/
  restoring : Option (PkgCmd × Nat × List Nat)
  deriving DecidableEq, Repr

/-- Port states of R440. -/
inductive PortState where
  | down | training | up | excised | stalled
  deriving DecidableEq, Repr

/-- A Tymas port (R417, R428 to R433): replay holds the packets that wait for the link or for a route (R422),
replays the times of its last replays. -/
structure FPort where
  state : PortState
  linkUp : Bool
  wasUp : Bool
  nbr : BitVec 20
  mile : Nat
  /-- when the received milestone last advanced, and when the port first came up (R432, R440) -/
  advancedAt : Option Nat
  upAt : Nat
  sentMile : Nat
  dataSince : Nat
  sentAt : Nat
  lanes : BitVec 128
  replay : List Packet
  replays : List Nat
  /-- the link failed and the tables have not been computed anew since (R422) -/
  failed : Bool
  deriving DecidableEq, Repr

/-- A peer memory window (R423). -/
structure Window where
  part : BitVec 4
  base : Nat
  len : Nat
  vf : BitVec 5
  valid : Bool
  r : Bool
  w : Bool
  isQueue : Bool
  die : BitVec 4
  queue : BitVec 6
  srcLo : BitVec 20
  srcHi : BitVec 20
  spart : BitVec 4
  deriving DecidableEq, Repr

/-- Who signed a configuration store and what the root controller found (R403): the Sotaryn key, or an owner through a
delegation certificate. -/
inductive StoreSign where
  | sotaryn (valid : Bool)
  | delegated (certificate valid : Bool)
  deriving DecidableEq, Repr

/-- The configuration store (R403). -/
structure ConfStore where
  checkWin : Nat
  ageInt : Nat
  quantum : Nat
  pourShare : Nat
  beacon : Nat
  stall : Nat
  powerCap : Nat
  alarmCls : BitVec 8
  ebcCal : Tab (BitVec 8)
  thermLim : Tab (BitVec 8)
  sign : StoreSign
  deriving DecidableEq, Repr

/-- A translation fault that waits for its owner's answer (R333 to R335); posted once its record has gone
to the owner, vec for an access of a queued vector instruction. -/
structure XFault where
  token : Nat
  ag : Agent
  va : Nat
  gpa : Nat
  stage2 : Bool
  nested : Bool
  kind : Nat
  level : Nat
  access : Nat
  part : BitVec 4
  posted : Bool
  vec : Bool
  deriving DecidableEq, Repr

/-- A response of the package interface (R397). -/
structure Response where
  op : Nat
  part : BitVec 4
  status : Nat
  ctag : Word
  result : BitVec 192
  deriving DecidableEq, Repr

/-- An alarm-log entry (R446). -/
structure Alarm where
  time : Nat
  sensor : BitVec 2
  cls : BitVec 2
  deriving DecidableEq, Repr

/-- The environment's choices: which agent moves next, and what comes from outside. -/
inductive Turn where
  /-- the core that issues from now on -/
  | core (c : CoreId)
  /-- an event of the device -/
  | event (e : Instr)
  /-- cycles pass -/
  | wait (n : Nat)
  /-- a word of local memory, yard or HBM, given by its flat address, becomes uncorrectable -/
  | upset (a : Nat)
  /-- an element of a mesh's windows, given by its key, becomes uncorrectable -/
  | upsetWin (m : MeshId) (key : Nat)
  /-- a checker of a core's unit finds a mismatch -/
  | check (c : CoreId) (id : BitVec 16)
  /-- the j-th word of a granted vector store is performed ahead of the others, or of a granted vector load read once
  more (R341) -/
  | storePart (c : CoreId) (n j : Nat)
  | loadPart (c : CoreId) (n j : Nat)
  /-- the current unit of a copy command is read; or its j-th word is written ahead of the rest; or it counts as written
  but comes to be seen later; or the j-th such word comes to be seen (R341, R349) -/
  | copyRead (k : ClusterId) (seq : Nat)
  | copyWord (k : ClusterId) (seq j : Nat)
  | copyDefer (k : ClusterId) (seq j : Nat)
  | copySeen (k : ClusterId) (seq j : Nat)
  /-- the running pass of a mesh reads its next mantissa row, or its next scale word (R269) -/
  | sampleRow (m : MeshId)
  | sampleScale (m : MeshId)
  /-- the thermal error of a mesh changes (R282) -/
  | temper (m : MeshId) (error : BitVec 8)
  /-- a payload word of a tile in a place of a station becomes uncorrectable (R234) -/
  | upsetTile (k : ClusterId) (station : BitVec 6) (b : Bool) (place : BitVec 3) (word : BitVec 7)
  /-- the controller of a partition unwraps the sealing key in flash (R407) -/
  | unseal (p : BitVec 4)
  /-- level-1 software writes a new configuration store; the package is brought up anew (R403) -/
  | newStore (c : ConfStore)
  | restart
  /-- a host processor writes host memory; the oldest such write comes to be seen; an engine command of a core writes
  n bytes of its local memory to host memory through the command die, or reads them from there (R340, R347, R357) -/
  | hostMemory (a : Nat) (bs : List Byte)
  | hostSeen
  | hostOut (c : CoreId) (a addr n : Nat)
  | hostIn (c : CoreId) (a addr n : Nat)
  /-- an L1 line is dropped to make room -/
  | evict (c : CoreId) (line : Nat)
  /-- the command die writes a queue's context (R367, R394) -/
  | context (d : BitVec 4) (q : Nat) (x : Queue)
  /-- software on the command die writes bytes of HBM -/
  | hostWrite (a : Nat) (bs : List Byte)
  /-- a core's instruction store drops a word -/
  | dropWord (c : CoreId) (addr : Word)
  /-- a DOWN port that has a neighbour begins to train (R417) -/
  | train (port : BitVec 3)
  /-- a core receives its compiled routine list for the current superstep (R11) -/
  | routines (c : CoreId) (rs : List Routine)
  deriving DecidableEq, Repr

/-! ### What unlisted entries are -/

/-- A register that holds zero, full and untainted (R16). -/
def Reg.zero (w : Nat) : Reg (BitVec w) := ⟨0, .full, false⟩
/-- A predicate that is false and untainted (R16). -/
def TReg.no : TReg Bool := ⟨false, false⟩
/-- A way register or loop counter of zero (R16). -/
def TReg.zero : TReg Word := ⟨0, false⟩

/-- The registers of a core at launch start (R16). LFSR's seed is set at placement (R83). -/
def Regs.start : Regs :=
  { g := [], v := [], m := [], p := [], h := [], w := [], lc := [], pc := 0, rstack := [],
    loops := [], ct := false, rpt := none, src := 0, je := 0, rli := 0, seqn := 0, ci := 0, cj := 0,
    ck := 0, running := false, bodyPending := false, routines := [], rliNext := 0, inbox := [],
    held := [], owed := 0, lfsr := 1, fx := 0, fxTaint := 0, ports := [],
    role := 1, maxlg := 4, weight := 1, tmaps := [], partEnded := false }

/-- A core outside any launch: the reset values of its registers (R14, R35, R143). -/
def Core.blank : Core :=
  { toRegs := Regs.start, launch := none, gang := 0, rank := 0, left := false,
    park := none, pendingTrap := none, lateTrap := none, phase := .idle, uw0 := 0, uw1 := 0,
    tiPc := 0, tiValid := false, tiAttempt := 0, tiCause := 0, cycleBase := 0, cycleSaved := 0,
    taskStart := 0, wdogResumed := false, stationQ := [],
    service := 0, yielded := false, vq := [], inflight := [], ystores := [], atomics := [],
    atomicCount := 0, accesses := 0, arrivals := [], hIssued := 0, hCancelled := 0, istore := [], shadow := [],
    ckpt := none, mark := (0, 0, none), sideLog := [], l1 := [], checkAt := none, sawLoad := 0, taskRing := none,
    written := [] }

/-- Empty places of a family at a station. -/
def Places.none : Places :=
  { through := .none, lay0 := .none, lay1 := .none, wake := .none, link := .none,
    injected := 0 }

/-- A carriageway at launch start: IDLE, beat-locked (R212, R223). -/
def Ring.idle : Ring :=
  { state := .idle, elastic := false, record := false, inj := 0, ret := 0, short := 0,
    aborted := false, fault := false, loads := 0, everElastic := false,
    startedTasks := [], placesA := [], placesB := [], held := [], reqs := [] }

/-- A chain at launch start (R392). -/
def Chain.start : Chain := { next := 0, ents := [], appenders := [] }

/-- A cluster at launch start. -/
def Cluster.blank : Cluster :=
  { ring := .idle, ringCkpt := none, jt := [], jtCkpt := [], abortLine := false, copyNext := 0, copyCkpt := 0, chainCkpt := [],
    copies := [], copyAppenders := [], copyLog := [], chains := [], shadow := [] }

/-- A vector unit at bring-up: AGE 64, role priority (R143). -/
def Svu.blank : Svu := { age := 64, rr := false, lastSlot := none, checkAt := none }

/-- A window element of a new lease: +0, untainted (R275). -/
def WinElem.zero : WinElem := ⟨0, false, false⟩

/-- A mesh after reset: no image, sixteen free windows (R283). -/
def Mesh.blank : Mesh :=
  { active := false, bank0 := none, bank1 := none, codes0 := 0, codes1 := 0, trims0 := [], trims1 := [], loading := none, bad := [], drift := [],
    wins := [], leases := [], running := none, ended := [], latch := [], latchSamples := 0,
    sinceProbe := 0, temp := 0, unlocked := false, lastGrant := 4095, grants := 0, clip := 0, unconf := 0,
    dlast := 0, written := [] }

/-- DSTAT at launch start (R355). -/
def DStat.zero : DStat := ⟨false, false, false, false, 0, 0⟩

/-- A die's log at launch start. -/
def DieLog.start : DieLog := { buffer := [], next := 0, drained := 0, replayed := [], stopped := false }

/-- A die after reset. -/
def Die.blank : Die :=
  { queues := [], kicks := 0, lastQueue := 255, ticket := 0, takeover := false, heldDone := [],
    journal := [], checkpoints := 0, schedDead := false, cores := 2, fabNext := 0, fab := [], fabAppenders := [],
    ordCount := 0, rq := [], rqSources := [], engines := [], l2 := [], rdc := [], present := [], lineWaits := [],
    tlbs := [] }

/-- A virtual function before any VF_SET (R400). -/
def Vf.blank : Vf := ⟨0, 0, false, false⟩

/-- A port before bring-up (R417). -/
def FPort.blank : FPort :=
  { state := .down, linkUp := false, wasUp := false, nbr := 0, mile := 0, advancedAt := none, upAt := 0, sentMile := 0,
    dataSince := 0, sentAt := 0, lanes := BitVec.allOnes 128, replay := [], replays := [], failed := false }

/-- The configuration store's default values (R403), with no calibrated value yet. -/
def ConfStore.default : ConfStore :=
  { checkWin := 2 ^ 30, ageInt := 1000, quantum := 1000, pourShare := 16, beacon := 64,
    stall := 20000, powerCap := 10000, alarmCls := 0xD6, ebcCal := [], thermLim := [],
    sign := .sotaryn true }

/-- The state of the package. -/
structure State where
  /-- core cycles since reset; the fabric time at a cycle, that cycle, and whether the time runs slow since (R421) -/
  clock : Nat
  ftimeBase : Nat
  ftimeAt : Nat
  ftimeSlow : Bool
  /-- what the environment does next; with nothing listed, the core cur goes on -/
  agenda : List Turn
  cur : CoreId
  /-- counter of the free values used so far (the model's own field) -/
  free : Nat
  /-- bytes, their taint, uncorrectable words, poisoned words, by flat address -/
  mem : Memory
  taint : Tab Bool
  uncorr : Tab Bool
  poison : Tab Bool
  /-- dirty bits by line (R379) and write tags by granule (R352) -/
  dirty : Tab Bool
  tags : Tab (Option WTag)
  cores : Tab Core
  svus : Tab Svu
  clusters : Tab Cluster
  meshes : Tab Mesh
  dies : Tab Die
  launches : Tab (Option Launch)
  nextLaunch : Nat
  parts : Tab (Option Part)
  counters : Tab DWord
  /-- each slot's sealing key in flash, wrapped with the PMR it was installed under (R407) -/
  wrapped : Tab (Option (BitVec 256 × BitVec 512))
  vfs : Tab Vf
  conf : ConfStore
  /-- a store that takes effect at the next bring-up (R403) -/
  newStore : Option ConfStore
  /-- host memory, and host writes that device reads need not see yet (R340, R347) -/
  host : Memory
  hostWrites : List (Nat × List Byte)
  pmrPlat : BitVec 512
  attests : Bool
  broughtUp : Bool
  /-- quarantined units as UNIT words of R388, oldest first -/
  quarantine : List (BitVec 24)
  /-- cores marked suspect by a third run that equals neither copy (R387) -/
  suspects : List (BitVec 24)
  alarms : List Alarm
  xfaults : List XFault
  nextToken : Nat
  supMail : Tab (List Mail)
  sysMail : Tab (List Mail)
  hypMail : List Mail
  responses : List Response
  /-- answers not yet on the response ring, in command order: a RESTORE of a partition that still runs, or a response
  behind it (R397) -/
  answers : List (Sum (BitVec 4) Response)
  completions : List (Nat × Nat × BitVec 1024)
  notified : List (BitVec 4 × BitVec 8)
  fports : Tab FPort
  windows : Tab (Option Window)
  autoEx : Bool
  lateDrop : Bool
  outbox : List (BitVec 3 × Packet)
  odb : List Packet
  /-- where in die 0's HBM the 1 GiB fabric reserve stands (R431) -/
  fabReserve : Option Nat
  delivered : Option (Nat × Nat × Nat)
  /-- cut markers delivered: step, partition, source, stamp (R434) -/
  markers : List (DWord × BitVec 4 × BitVec 20 × Nat)
  /-- packets whose target access waits for an owner's answer, with its token; packets from the package to
  itself not yet arrived; packets that no route takes; how often the routing tables were computed (R422, R424) -/
  waitPkts : List (Packet × Nat)
  loopIn : List Packet
  unrouted : List Packet
  routeEpoch : Nat
  throttle : Nat
  checkFail : Option (CoreId × BitVec 16)
  deriving DecidableEq, Repr

/-- The package right after reset, before bring-up (R415): nothing launched, every memory zero, every
port down, the configuration store at its defaults. -/
def State.reset : State :=
  { clock := 0, ftimeBase := 0, ftimeAt := 0, ftimeSlow := false, fabReserve := none, agenda := [], cur := .ord 0 0 0, free := 0, mem := [], taint := [],
    uncorr := [], poison := [], dirty := [], tags := [], cores := [], svus := [], clusters := [],
    meshes := [], dies := [], launches := [], nextLaunch := 0, parts := [], counters := [],
    wrapped := [], vfs := [], conf := .default, newStore := none, host := [], hostWrites := [], pmrPlat := 0, attests := true, broughtUp := false,
    quarantine := [], suspects := [], alarms := [], xfaults := [], nextToken := 0, supMail := [], sysMail := [],
    hypMail := [], responses := [], answers := [], completions := [], notified := [], fports := [], windows := [],
    autoEx := false, lateDrop := false, outbox := [], odb := [], delivered := none, markers := [], waitPkts := [],
    loopIn := [], unrouted := [], routeEpoch := 0,
    throttle := 0, checkFail := none }

end Sys2Proof.Machine
end

