-- ==== Sys2Proof/Machine/Ops.lean ====
section
/-! DEFINITION. The named operations over the state: units and their numbers, registers, the byte memory
with taint, poison, pre-images, dirty bits and write tags, handles and inbox, and taking a trap. -/

namespace Sys2Proof.Machine

/-- Every entry of a list, if none is missing. -/
def allSome {α : Type} : List (Option α) → Option (List α)
  | [] => some []
  | none :: _ => none
  | some x :: xs => (allSome xs).map fun ys => x :: ys

/-- An outcome of a step. -/
abbrev Out := Host.Outcome State Fault Refusal

/-! ### Units and their numbers -/

end Sys2Proof.Machine

namespace Sys2Proof

/-- Module-wide core number (R34, R313). -/
def coreNum : CoreId → Nat
  | .ord d c st => d.toNat * 65536 + c.toNat * 64 + st.toNat
  | .ramp d i => 0x100000 + 128 * d.toNat + i.toNat

/-- The core with a module-wide number. -/
def coreOfNum (n : Nat) : CoreId :=
  if 0x100000 ≤ n then .ramp (BitVec.ofNat 4 ((n - 0x100000) / 128)) (BitVec.ofNat 7 n)
  else .ord (BitVec.ofNat 4 (n / 65536)) (BitVec.ofNat 10 (n / 64)) (BitVec.ofNat 6 n)

/-- Whether a core is a ramp core. -/
def CoreId.isRamp : CoreId → Bool
  | .ramp _ _ => true
  | .ord _ _ _ => false

/-- A core's die. -/
def CoreId.die : CoreId → BitVec 4
  | .ord d _ _ => d
  | .ramp d _ => d

/-- An ordinary core's cluster; of a ramp core, cluster 0 of its die (it has none). -/
def CoreId.cluster : CoreId → ClusterId
  | .ord d c _ => ⟨d, c⟩
  | .ramp d _ => ⟨d, 0⟩

/-- An ordinary core's station (R34). -/
def CoreId.station : CoreId → BitVec 6
  | .ord _ _ st => st
  | .ramp _ _ => 0

/-- A core's slot in its vector unit: its station mod 8 (R136). -/
def CoreId.slot (c : CoreId) : Nat := c.station.toNat % 8

/-- A core's vector unit (R136, R313). -/
def CoreId.unit : CoreId → SvuId
  | .ord d c st => .shared ⟨d, c⟩ (BitVec.ofNat 3 (st.toNat / 8))
  | .ramp d i => .priv d i

/-- Number of a cluster in the package. -/
def ClusterId.num (k : ClusterId) : Nat := k.die.toNat * 1024 + k.cl.toNat

/-- Number of a vector unit: die × 8192 + cluster × 8 + unit (R388), private units above. -/
def SvuId.num : SvuId → Nat
  | .shared k u => k.num * 8 + u.toNat
  | .priv d i => 0x100000 + 128 * d.toNat + i.toNat

/-- The cores of a vector unit, in slot order. -/
def SvuId.cores : SvuId → List CoreId
  | .shared k u => (List.range 8).map fun j => .ord k.die k.cl (BitVec.ofNat 6 (u.toNat * 8 + j))
  | .priv d i => [.ramp d i]

/-- Number of a mesh in the package. -/
def MeshId.num (m : MeshId) : Nat := m.die.toNat * 32 + m.mesh.toNat

end Sys2Proof

namespace Sys2Proof.Machine

/-- A core of the package. -/
def State.core (s : State) (c : CoreId) : Core := Tab.get Core.blank s.cores (coreNum c)
/-- Replace a core. -/
def State.setCore (s : State) (c : CoreId) (k : Core) : State :=
  { s with cores := Tab.put Core.blank s.cores (coreNum c) k }
/-- Change a core. -/
def State.modCore (s : State) (c : CoreId) (f : Core → Core) : State := s.setCore c (f (s.core c))
/-- The core that issues. -/
def State.me (s : State) : Core := s.core s.cur
/-- Replace the core that issues. -/
def State.setMe (s : State) (k : Core) : State := s.setCore s.cur k
/-- Change the core that issues. -/
def State.modMe (s : State) (f : Core → Core) : State := s.modCore s.cur f

/-- A cluster. -/
def State.cluster (s : State) (k : ClusterId) : Cluster := Tab.get Cluster.blank s.clusters k.num
/-- Change a cluster. -/
def State.modCluster (s : State) (k : ClusterId) (f : Cluster → Cluster) : State :=
  { s with clusters := Tab.put Cluster.blank s.clusters k.num (f (s.cluster k)) }

/-- A vector unit. -/
def State.svu (s : State) (u : SvuId) : Svu := Tab.get Svu.blank s.svus u.num
/-- Change a vector unit. -/
def State.modSvu (s : State) (u : SvuId) (f : Svu → Svu) : State :=
  { s with svus := Tab.put Svu.blank s.svus u.num (f (s.svu u)) }

/-- A mesh. -/
def State.mesh (s : State) (m : MeshId) : Mesh := Tab.get Mesh.blank s.meshes m.num
/-- Change a mesh. -/
def State.modMesh (s : State) (m : MeshId) (f : Mesh → Mesh) : State :=
  { s with meshes := Tab.put Mesh.blank s.meshes m.num (f (s.mesh m)) }

/-- A die. -/
def State.die (s : State) (d : BitVec 4) : Die := Tab.get Die.blank s.dies d.toNat
/-- Change a die. -/
def State.modDie (s : State) (d : BitVec 4) (f : Die → Die) : State :=
  { s with dies := Tab.put Die.blank s.dies d.toNat (f (s.die d)) }

/-- A record with every field zero. -/
def LaunchRec.blank : LaunchRec :=
  { body := 0, rampBody := 0, gangSize := 0, ramps := 0, cluster := 0, gangs := 0, prio := 0,
    priv := false, pin := false, pre := false, red := false, det := false, rr := 0, rollMax := 0,
    dies := 0, policy := 0, wdog := 0, seed := 0, codeLen := 0, segBase := 0, segSize := 0, localSize := 0, yardSize := 0,
    imgBase := 0, imgSize := 0, logBase := 0, logSize := 0, depId := 0, depValid := false,
    depWhen := false, redBase := 0, redSize := 0, llim := 0 }

/-- An image without sections. -/
def ImageInfo.blank : ImageInfo :=
  { codeVa := 0, localData := [], yardData := [], hbmData := [], junctions := [], tmaps := [],
    convoys := [] }

/-- A gang not yet placed. -/
def Gang.blank : Gang :=
  { clusters := [], ramps := [], partner := false, placed := false, members := [], arrived := [],
    triggered := [], trigDone := false, sstep := 0, nonReplayable := false, rollbacks := 0, rolling := none,
    det := false, rr := 0, pendingMode := none, convoyCkpt := [], held := [], rqMark := [], fabMark := [],
    done := false, freed := false, thirdOf := none, pkgMark := 0, pkgIssued := 0, guests := [],
    disagree := [], atomicPos := [] }

/-- A launch with every field empty. -/
def Launch.blank : Launch :=
  { id := 0, compTag := 0, die := 0, queue := 0, tickets := [], rcd := .blank, img := .blank,
    state := .waiting, depMet := false, everTriggered := false, waitFrom := 0, firstPlaced := none,
    placedAt := 0, heldTime := 0, boost := 0, quantumUp := false, preemptAsked := false, gangs := [],
    convoys := [], abort := false, dstats := [], logs := [], diverges := [], shares := [], deciding := none,
    units := [], cutSteps := [], pkgCount := 0, overdue := false, imageLinks := 0, savedCores := [],
    savedClusters := [], savedLines := [], savedGranules := [], savedWins := [], stoppedAt := 0, reported := false, imageLen := 0, endsAt := 0 }

/-- A launch by its index; a blank one where none stands there. -/
def State.launch (s : State) (l : Nat) : Launch := (Tab.get none s.launches l).getD .blank
/-- Change a launch. -/
def State.modLaunch (s : State) (l : Nat) (f : Launch → Launch) : State :=
  match Tab.get none s.launches l with
  | some x => { s with launches := Tab.put none s.launches l (some (f x)) }
  | none => s
/-- The index of the launch a core belongs to; one past every launch where it belongs to none. -/
def State.launchIx (s : State) (c : CoreId) : Nat := ((s.core c).launch).getD s.nextLaunch
/-- The launch a core belongs to. -/
def State.launchOf (s : State) (c : CoreId) : Launch := s.launch (s.launchIx c)
/-- A gang of a launch. -/
def Launch.gang (l : Launch) (g : Nat) : Gang := l.gangs.getD g .blank
/-- Change a gang of a launch. -/
def Launch.modGang (l : Launch) (g : Nat) (f : Gang → Gang) : Launch :=
  { l with gangs := l.gangs.modify g f }
/-- A core's gang. -/
def State.gangOf (s : State) (c : CoreId) : Gang := (s.launchOf c).gang (s.core c).gang
/-- Change a core's gang. -/
def State.modGangOf (s : State) (c : CoreId) (f : Gang → Gang) : State :=
  s.modLaunch (s.launchIx c) fun l => l.modGang (s.core c).gang f

/-- Mark the superstep of a core's gang non-replayable (R382). -/
def State.nonReplay (s : State) (c : CoreId) : State :=
  s.modGangOf c fun g => { g with nonReplayable := true }

/-! ### Registers (R5, R16) -/

/-- A g register; g0 reads 0, full and untainted (R5). -/
def Core.greg (k : Core) (n : BitVec 5) : Reg DWord :=
  if n = 0 then Reg.zero 64 else Tab.get (Reg.zero 64) k.g n.toNat
/-- Value of a g register. -/
def Core.gv (k : Core) (n : BitVec 5) : DWord := (k.greg n).val
/-- Taint of a g register. -/
def Core.gt (k : Core) (n : BitVec 5) : Bool := (k.greg n).taint
/-- Replace a g register; g0 discards it (R93). -/
def Core.setGreg (k : Core) (n : BitVec 5) (r : Reg DWord) : Core :=
  if n = 0 then k else { k with g := Tab.put (Reg.zero 64) k.g n.toNat r }
/-- Write a result to a g register, left full; TASK.CT enters its taint (R19). -/
def Core.writeG (k : Core) (n : BitVec 5) (v : DWord) (t : Bool) : Core :=
  k.setGreg n ⟨v, .full, t || k.ct⟩
/-- Mark a g register empty for a producer (R17). -/
def Core.pendG (k : Core) (n : BitVec 5) : Core :=
  k.setGreg n { k.greg n with fill := .pending }

/-- A predicate; p7 reads true, untainted (R5). -/
def Core.preg (k : Core) (n : BitVec 3) : TReg Bool :=
  if n = 7 then ⟨true, false⟩ else Tab.get TReg.no k.p n.toNat
/-- Write a predicate; p7 discards it (R93), and TASK.CT enters its taint (R19). -/
def Core.writeP (k : Core) (n : BitVec 3) (v : Bool) (t : Bool) : Core :=
  if n = 7 then k else { k with p := Tab.put TReg.no k.p n.toNat ⟨v, t || k.ct⟩ }

/-- A way register. -/
def Core.wreg (k : Core) (n : BitVec 3) : TReg Word := Tab.get TReg.zero k.w n.toNat
/-- Write a way register. -/
def Core.writeW (k : Core) (n : BitVec 3) (v : Word) (t : Bool) : Core :=
  { k with w := Tab.put TReg.zero k.w n.toNat ⟨v, t || k.ct⟩ }

/-- A loop counter. -/
def Core.lcreg (k : Core) (n : Nat) : TReg Word := Tab.get TReg.zero k.lc n
/-- Write a loop counter. -/
def Core.writeLc (k : Core) (n : Nat) (r : TReg Word) : Core :=
  { k with lc := Tab.put TReg.zero k.lc n r }

/-- A handle register. -/
def Core.hreg (k : Core) (n : BitVec 3) : Reg DWord := Tab.get (Reg.zero 64) k.h n.toNat
/-- Replace a handle register. -/
def Core.setHreg (k : Core) (n : BitVec 3) (r : Reg DWord) : Core :=
  { k with h := Tab.put (Reg.zero 64) k.h n.toNat r }
/-- Write a handle register, left full. -/
def Core.writeH (k : Core) (n : BitVec 3) (v : DWord) (t : Bool) : Core :=
  k.setHreg n ⟨v, .full, t || k.ct⟩
/-- Mark a handle register empty for a producer and note it for htest (R17, R195); what an earlier hcancel
asked no longer concerns it. -/
def Core.pendH (k : Core) (n : BitVec 3) : Core :=
  let k := k.setHreg n { k.hreg n with fill := .pending }
  { k with hIssued := k.hIssued ||| (1#8 <<< n.toNat), hCancelled := k.hCancelled &&& ~~~(1#8 <<< n.toNat) }

/-- A vector register. -/
def Core.vreg (k : Core) (n : BitVec 4) : Reg VWord := Tab.get (Reg.zero 4096) k.v n.toNat
/-- Replace a vector register. -/
def Core.setVreg (k : Core) (n : BitVec 4) (r : Reg VWord) : Core :=
  { k with v := Tab.put (Reg.zero 4096) k.v n.toNat r }

/-- A mask; m0 reads all ones, full and untainted (R5). -/
def Core.mreg (k : Core) (n : BitVec 2) : Reg MWord :=
  if n = 0 then ⟨BitVec.allOnes 1024, .full, false⟩ else Tab.get (Reg.zero 1024) k.m n.toNat
/-- Replace a mask; m0 discards it. -/
def Core.setMreg (k : Core) (n : BitVec 2) (r : Reg MWord) : Core :=
  if n = 0 then k else { k with m := Tab.put (Reg.zero 1024) k.m n.toNat r }

/-- Raise flags, tainted when an instruction with a tainted source raised them (R89). -/
def Core.raise (k : Core) (f : Fx) (t : Bool) : Core :=
  { k with fx := k.fx ||| f, fxTaint := if t || k.ct then k.fxTaint ||| f else k.fxTaint }

/-- TASK.CT after a decision on a tainted operand (R20). -/
def Core.decide (k : Core) (t : Bool) : Core := { k with ct := k.ct || t }

/-- Whether the core has a vector instruction queued or unfinished. -/
def Core.vbusy (k : Core) : Bool := !k.vq.isEmpty || !k.inflight.isEmpty

/-- A producer's result reaches a g register of a running core and of the registers a late vector trap would
restore (R17, R18, R149). -/
def Regs.fillG (r : Regs) (n : BitVec 5) (v : DWord) (t : Bool) : Regs :=
  if n = 0 then r
  else if (Tab.get (Reg.zero 64) r.g n.toNat).fill = .pending then
    { r with g := Tab.put (Reg.zero 64) r.g n.toNat ⟨v, .full, t⟩ }
  else r
/-- As fillG, for a vector register. -/
def Regs.fillV (r : Regs) (n : BitVec 4) (v : VWord) (t : Bool) : Regs :=
  if (Tab.get (Reg.zero 4096) r.v n.toNat).fill = .pending then
    { r with v := Tab.put (Reg.zero 4096) r.v n.toNat ⟨v, .full, t⟩ }
  else r
/-- As fillG, for a handle register. -/
def Regs.fillH (r : Regs) (n : BitVec 3) (v : DWord) (t : Bool) : Regs :=
  if (Tab.get (Reg.zero 64) r.h n.toNat).fill = .pending then
    { r with h := Tab.put (Reg.zero 64) r.h n.toNat ⟨v, .full, t⟩ }
  else r
/-- Apply a change of registers to the core and to the registers that its queued entries, and an entry whose trap is
due, hold (R149). -/
def Core.mapRegs (k : Core) (f : Regs → Regs) : Core :=
  let u (e : VEntry) : VEntry := { e with snap := f e.snap }
  let ui (i : InFlight) : InFlight := { i with ent := u i.ent }
  { k with toRegs := f k.toRegs, vq := k.vq.map u, inflight := k.inflight.map ui
           pendingTrap := k.pendingTrap.map fun x => (x.1, u x.2) }

/-- Apply an arrival (R17). -/
def Core.arrive (k : Core) : Arrival → Core
  | .g n v t => k.mapRegs fun r => r.fillG n v t
  | .v n v t => k.mapRegs fun r => r.fillV n v t
  | .h n v t => k.mapRegs fun r => r.fillH n v t

/-! ### Flat addresses of the byte memory -/

/-- Where local memory of a core begins in the flat byte space. -/
def localBase (c : CoreId) : Nat := 2 ^ 45 + coreNum c * 2 ^ 15
/-- Where a cluster's yard begins. -/
def yardBase (k : ClusterId) : Nat := 2 ^ 46 + k.num * 2 ^ 19
/-- Where a bank of a mesh's pass SRAM begins (R268). -/
def passBase (m : MeshId) (bank : Bool) : Nat := 2 ^ 47 + (m.num * 2 + bank.toNat) * 2 ^ 19
/-- Where a mesh's weight buffer begins (R265). -/
def wbufBase (m : MeshId) : Nat := 2 ^ 48 + m.num * 2 ^ 21
/-- Whether a flat address lies in HBM. -/
def isHbm (a : Nat) : Bool := decide (a < 2 ^ 44)

/-- Bytes with their taint. -/
abbrev TBytes := List (Byte × Bool)

/-- n bytes with their taint. -/
def State.peek (s : State) (a n : Nat) : TBytes :=
  (s.mem.readN a n).zip (Tab.getN false s.taint a n)

/-- Size of the unit that is poisoned or uncorrectable as a whole: a word, or an HBM line (R129, R445). -/
def errUnit (a : Nat) : Nat := if isHbm a then 64 else 8

/-- The bases of the aligned units of u bytes that [a, a+n) touches. -/
def basesIn (u a n : Nat) : List Nat :=
  if n = 0 then [] else (List.range ((a + n - 1) / u - a / u + 1)).map fun i => (a / u + i) * u

/-- The bases of the aligned units of u bytes that lie whole inside [a, a+n). -/
def wholeIn (u a n : Nat) : List Nat := (basesIn u a n).filter fun b => a ≤ b && b + u ≤ a + n

/-- The first uncorrectable or poisoned unit that [a, a+n) touches (R129, R233, R445). -/
def State.bad (s : State) (a n : Nat) : Option Nat :=
  (basesIn (errUnit a) a n).find? fun b => Tab.get false s.uncorr b || Tab.get false s.poison b

/-- The first such unit that [a, a+n) covers only in part: a partial write into it is refused. -/
def State.badPartial (s : State) (a n : Nat) : Option Nat :=
  ((basesIn (errUnit a) a n).filter fun b => !(a ≤ b && b + errUnit a ≤ a + n)).find? fun b =>
    Tab.get false s.uncorr b || Tab.get false s.poison b

/-- A unit read uncorrectable is marked poisoned (R129, R445). -/
def State.markPoison (s : State) (b : Nat) : State :=
  { s with poison := Tab.put false s.poison b true }

/-- Clear the poison of the listed units. -/
def clearAll (t : Tab Bool) : List Nat → Tab Bool
  | [] => t
  | b :: bs => clearAll (Tab.put false t b false) bs

/-- Set the listed keys. -/
def setAll (t : Tab Bool) : List Nat → Tab Bool
  | [] => t
  | b :: bs => setAll (Tab.put false t b true) bs

/-- Write bytes with their taint: units written whole lose their poison (R129, R445), and every line is
dirty (R379). -/
def State.poke (s : State) (a : Nat) (bs : TBytes) : State :=
  { s with
    mem := s.mem.writeN a (bs.map Prod.fst)
    taint := Tab.putN false s.taint a (bs.map Prod.snd)
    poison := clearAll s.poison (wholeIn (errUnit a) a bs.length)
    uncorr := clearAll s.uncorr (wholeIn (errUnit a) a bs.length)
    dirty := setAll s.dirty (basesIn 64 a bs.length) }

/-- The bytes of a 64-bit value, with one taint bit. -/
def bytesOf (n x : Nat) (t : Bool) : TBytes := (bytesOfNat n x).map fun b => (b, t)
/-- The value of bytes, little-endian (R2). -/
def valOf (bs : TBytes) : Nat := natOfBytes (bs.map Prod.fst)
/-- Whether some byte is tainted. -/
def anyTaint (bs : TBytes) : Bool := bs.any Prod.snd
/-- The bytes with a taint added. -/
def addTaint (t : Bool) (bs : TBytes) : TBytes := bs.map fun x => (x.1, x.2 || t)

/-! ### Pre-images (R130, R233) -/

/-- Pack one bit per entry, lowest first. -/
def packBits : List Bool → Nat
  | [] => 0
  | b :: bs => b.toNat + 2 * packBits bs

/-- A 64-byte line as it stands. -/
def State.lineAt (s : State) (a : Nat) : ShadowLine :=
  { bytes := BitVec.ofNat 512 (natOfBytes (s.mem.readN a 64))
    taint := BitVec.ofNat 64 (packBits (Tab.getN false s.taint a 64))
    poison := BitVec.ofNat 8 (packBits ((List.range 8).map fun i => Tab.get false s.poison (a + 8 * i)))
    uncorr := BitVec.ofNat 8 (packBits ((List.range 8).map fun i => Tab.get false s.uncorr (a + 8 * i))) }

/-- Put a pre-image back. -/
def State.putLine (s : State) (a : Nat) (l : ShadowLine) : State :=
  let bs := (bytesOfNat 64 l.bytes.toNat).zip ((List.range 64).map fun i => l.taint.getLsbD i)
  let s := s.poke a bs
  let put (x : BitVec 8) (t : Tab Bool) : Tab Bool :=
    (List.range 8).foldl (fun t i => Tab.put false t (a + 8 * i) (x.getLsbD i)) t
  { s with poison := put l.poison s.poison, uncorr := put l.uncorr s.uncorr }

/-- Copy the pre-images of the lines of [a, a+n) that have none, a line number counting from base, up to
cap lines; the second part says whether one did not fit. -/
def State.shadowLines (s : State) (cap base : Nat) (t : Tab (Option ShadowLine)) :
    List Nat → Tab (Option ShadowLine) × Bool
  | [] => (t, false)
  | l :: ls =>
    let key := (l - base) / 64
    if (Tab.get none t key).isSome then s.shadowLines cap base t ls
    else if cap ≤ t.length then
      let (t', _) := s.shadowLines cap base t ls
      (t', true)
    else s.shadowLines cap base (Tab.put none t key (some (s.lineAt l))) ls

/-- Before a write of n bytes at local address a of core c: pre-images, or overflow (R130). A superstep
that is already non-replayable by overflow copies no more. -/
def State.shadowLocal (s : State) (c : CoreId) (a n : Nat) : State :=
  if (s.core c).launch.isNone then s
  else
    let b := localBase c
    let (t, ovf) := s.shadowLines 128 b (s.core c).shadow (basesIn 64 (b + a) n)
    let s := s.modCore c fun k => { k with shadow := t }
    if ovf then s.nonReplay c else s

/-! ### Write tags and conflicts (R352 to R354) -/

/-- Key of a granule's tag in a launch: tracking belongs to one launch (R351). -/
def tagKey (l g : Nat) : Nat := l * 2 ^ 60 + g

/-- How a stream port's own access to its ring counts: no operation of R191 has this code (log entry 21). -/
def portOp : Option (BitVec 4 × Bool) := some (15, true)

/-- Operations that do not conflict among themselves (R353): add to maxu; and the accesses of stream ports, which share a
ring by its counts (R202, R351; log entry 21). -/
def commutes (op : BitVec 4) : Bool := (2 ≤ op.toNat && op.toNat ≤ 9) || op == 15

/-- The ring load that the task for which a core writes came from (R352). -/
def State.ringLoad (s : State) (c : CoreId) : Option (Nat × Nat) := (s.core c).taskRing

/-- Core c writes from now on for a task with the given ring load (R352). -/
def State.setRing (s : State) (c : CoreId) (r : Option (Nat × Nat)) : State := s.modCore c fun k => { k with taskRing := r }

/-- Perform an access of core c for the task that issued it, whose ring load is given (R352). -/
def State.forTask (s : State) (c : CoreId) (r : Option (Nat × Nat)) (f : State → State) : State :=
  (f (s.setRing c r)).setRing c (s.ringLoad c)

/-- Whether an access by a core conflicts with a tag of its launch (R353). A tag counts while the gang that set it is
in the superstep it names, whichever gang of the launch the accessing core belongs to (log entry 60). -/
def State.tagConflict (s : State) (c : CoreId) (op : Option (BitVec 4 × Bool)) (w : WTag) : Bool :=
  let same := match op, w.op with
    | some o, some p => o == p && commutes o.1
    | _, _ => false
  let seen := match w.ring with
    | some (cl, load) => !c.isRamp && cl == c.cluster.num && decide (load ≤ (s.core c).sawLoad)
    | none => false
  w.agent != coreNum c && w.sstep == ((s.launchOf c).gang w.gang).sstep && !same && !seen

/-- Whether an access by a core to a granule conflicts with its tag (R353). -/
def State.conflicts (s : State) (c : CoreId) (op : Option (BitVec 4 × Bool)) (g : Nat) : Bool :=
  match Tab.get none s.tags (tagKey (s.launchIx c) g) with
  | none => false
  | some w => s.tagConflict c op w

/-- SPACE and ADDR of a granule at flat address g; an HBM granule is named by its VA (R355). -/
def dstatAddr (g va : Nat) : BitVec 2 × BitVec 56 :=
  if isHbm g then (2, BitVec.ofNat 56 (va / 64 * 64))
  else if g < 2 ^ 46 then
    let n := (g - 2 ^ 45) / 2 ^ 15
    let a := g % 2 ^ 15
    if n < 0x100000 then (0, BitVec.ofNat 56 (n % 65536 * 2 ^ 15 + a))
    else (0, BitVec.ofNat 56 (2 ^ 31 + (n - 0x100000) % 128 * 2 ^ 21 + a))
  else (1, BitVec.ofNat 56 ((g - 2 ^ 46) % 2 ^ 29))

/-- The die that holds a local or yard granule; for HBM, the accessing die. -/
def dieOfGranule (g : Nat) (own : BitVec 4) : BitVec 4 :=
  if isHbm g then own
  else if g < 2 ^ 46 then (coreOfNum ((g - 2 ^ 45) / 2 ^ 15)).die
  else BitVec.ofNat 4 ((g - 2 ^ 46) / 2 ^ 29)

/-- A die's DSTAT of a launch (R355). -/
def Launch.dstat (l : Launch) (d : BitVec 4) : DStat := Tab.get DStat.zero l.dstats d.toNat
/-- Change a die's DSTAT of a launch. -/
def Launch.modDstat (l : Launch) (d : BitVec 4) (f : DStat → DStat) : Launch :=
  { l with dstats := Tab.put DStat.zero l.dstats d.toNat (f (l.dstat d)) }

/-- Record a conflict in DSTAT, sampling its address if none was recorded (R354, R355). -/
def State.recordConflict (s : State) (c : CoreId) (g va : Nat) : State :=
  s.modLaunch (s.launchIx c) fun l =>
    let d := (dieOfGranule g c.die).toNat
    let x := Tab.get DStat.zero l.dstats d
    let (sp, ad) := dstatAddr g va
    let x := if x.conf then x else { x with conf := true, space := sp, addr := ad }
    { l with dstats := Tab.put DStat.zero l.dstats d x }

/-- Size of a tracked granule (R352). -/
def granule (a : Nat) : Nat := if isHbm a then 64 else 8

/-- The first granule of [a, a+n) that conflicts. -/
def State.firstConflict (s : State) (c : CoreId) (op : Option (BitVec 4 × Bool)) (a n : Nat) :
    Option Nat :=
  if (s.gangOf c).det then (basesIn (granule a) a n).find? (s.conflicts c op) else none

/-- An access by core c to [a, a+n): whether it conflicts, and the state with the conflict recorded (R354).
va is the virtual address of an HBM access. -/
def State.track (s : State) (c : CoreId) (op : Option (BitVec 4 × Bool)) (a n va : Nat) :
    Bool × State :=
  match s.firstConflict c op a n with
  | none => (false, s)
  | some g => (true, s.recordConflict c g (va + (g - a)))

/-- Tag the granules of a write (R352). -/
def State.tag (s : State) (c : CoreId) (op : Option (BitVec 4 × Bool)) (a n : Nat) : State :=
  let gg := s.gangOf c
  if gg.det then
    let w : WTag := { agent := coreNum c, op := op, ring := s.ringLoad c, launch := s.launchIx c,
                      gang := (s.core c).gang, sstep := gg.sstep }
    let put (t : Tab (Option WTag)) (g : Nat) := Tab.put none t (tagKey (s.launchIx c) g) (some w)
    { s with tags := (basesIn (granule a) a n).foldl put s.tags }
  else s

/-- A tracked read of the flat range by core c: the bytes, all tainted on a conflict (R354). -/
def State.readT (s : State) (c : CoreId) (a n va : Nat) : TBytes × State :=
  let (x, s') := s.track c none a n va
  (addTaint x (s.peek a n), s')

/-- Address of a byte for a redundant launch's signature: the same for a member and its partner (R386). -/
def sigAddr (a va : Nat) : Nat :=
  if isHbm a then 2 ^ 60 + va else if a < 2 ^ 46 then a % 2 ^ 21 else 2 ^ 59 + a % 2 ^ 19

/-- Note the untainted bytes that a member of a redundant launch writes (R386). -/
def State.noteWritten (s : State) (c : CoreId) (base : Nat) (bs : TBytes) : State :=
  if (s.launchOf c).rcd.red then
    let new := ((List.range bs.length).zip bs).filterMap fun x =>
      if x.2.2 then none else some (base + x.1, x.2.1)
    s.modCore c fun k => { k with written := k.written ++ new }
  else s

/-- A tracked write: every byte tainted on a conflict (R354), then the granules tagged (R352). -/
def State.writeT (s : State) (c : CoreId) (op : Option (BitVec 4 × Bool)) (a va : Nat) (bs : TBytes) :
    State :=
  let (x, s) := s.track c op a bs.length va
  let bs := addTaint x bs
  ((s.poke a bs).tag c op a bs.length).noteWritten c (sigAddr a va) bs

/-! ### Local memory and yard -/

/-- A word of core c's local memory as it stands (R149). -/
def State.undoWord (s : State) (c : CoreId) (a : Nat) : UndoWord :=
  { addr := a, bytes := s.peek (localBase c + a) 8, poison := Tab.get false s.poison (localBase c + a)
    uncorr := Tab.get false s.uncorr (localBase c + a) }

/-- Remember the local words that a scalar store of core c replaces, for a late vector trap (R149). -/
def State.noteUndo (s : State) (c : CoreId) (a n : Nat) : State :=
  let k := s.core c
  if k.vbusy then
    let old := (basesIn 8 a n).map (s.undoWord c)
    let u (e : VEntry) : VEntry := { e with undo := old.reverse ++ e.undo }
    let ui (i : InFlight) : InFlight := { i with ent := u i.ent }
    s.setCore c { k with vq := k.vq.map u, inflight := k.inflight.map ui }
  else s

/-- A write to the local memory of core c by agent core w (R130, R352). -/
def State.writeLocal (s : State) (w c : CoreId) (a : Nat) (bs : TBytes) : State :=
  (s.shadowLocal c a bs.length).writeT w none (localBase c + a) 0 bs

/-- Mark the gang that holds a cluster non-replayable (R233). -/
def State.nonReplayCluster (s : State) (k : ClusterId) : State :=
  s.nonReplay (.ord k.die k.cl 0)

/-- Before a write of n bytes at yard address a: pre-images, or overflow (R233). -/
def State.shadowYard (s : State) (k : ClusterId) (a n : Nat) : State :=
  let b := yardBase k
  let (t, ovf) := s.shadowLines 1024 b (s.cluster k).shadow (basesIn 64 (b + a) n)
  let s := s.modCluster k fun x => { x with shadow := t }
  if ovf then s.nonReplayCluster k else s

/-- A write to a yard by agent core w (R232, R233, R352). -/
def State.writeYard (s : State) (w : CoreId) (k : ClusterId) (a : Nat) (bs : TBytes) : State :=
  (s.shadowYard k a bs.length).writeT w none (yardBase k + a) 0 bs

/-! ### Traps (R33 to R37) -/

/-- The code of a cause (R36). -/
def Cause.code : Cause → BitVec 8
  | .emptyRead => 0x01 | .reservedCode => 0x02 | .illegalOperand => 0x03 | .illegalFrame => 0x04
  | .alignment => 0x05 | .stack => 0x06 | .loopStack => 0x07 | .pipeCheck => 0x08
  | .localUncorrectable => 0x09 | .format => 0x0A | .privilege => 0x0B | .aborted => 0x0C
  | .replayDiverge => 0x0D | .dualMismatch => 0x0E | .watchdog => 0x0F | .codeRange => 0x10
  | .software => 0x11 | .xlateError => 0x12 | .yardUncorrectable => 0x13 | .hbmUncorrectable => 0x14

/-- Place of a cause in the ranking of R37, rank by rank and within a rank as listed; the least is
reported. -/
def Cause.place : Cause → Nat
  | .pipeCheck => 10 | .localUncorrectable => 11 | .yardUncorrectable => 12 | .hbmUncorrectable => 13
  | .dualMismatch => 14
  | .codeRange => 20
  | .reservedCode => 30 | .privilege => 31 | .illegalFrame => 32 | .illegalOperand => 33
  | .emptyRead => 40 | .format => 41 | .alignment => 42
  | .stack => 50 | .loopStack => 51 | .software => 52 | .xlateError => 53
  | .aborted => 60 | .watchdog => 61 | .replayDiverge => 62

/-- Whether a cause is of rank 1 (R37). -/
def Cause.rank1 (c : Cause) : Bool := c.place < 20

/-- The trap that is reported of two that arise together (R37). -/
def Trap.top (a b : Trap) : Trap := if b.cause.place < a.cause.place then b else a

/-- An operand outside its entry's limits, at an operand position (R36). -/
def illegal (pos : Nat) : Trap := ⟨.illegalOperand, BitVec.ofNat 64 pos⟩

/-- Post a message to a die supervisor's mailbox. -/
def State.post (s : State) (d : BitVec 4) (m : Mail) : State :=
  { s with supMail := Tab.put [] s.supMail d.toNat (Tab.get [] s.supMail d.toNat ++ [m]) }

/-- A match-created task of a core has ended (R21, R222). -/
def State.ringTaskEnd (s : State) (c : CoreId) : State :=
  if (s.core c).src == 1 && !c.isRamp then
    s.modCluster c.cluster fun x =>
      { x with ring := { x.ring with startedTasks := x.ring.startedTasks.erase c } }
  else s

/-- Whether a check window that began at a time, if any, is still open (R150). -/
def State.windowOpen (s : State) (t : Option Nat) : Bool :=
  match t with
  | some t => decide (s.clock < t + s.conf.checkWin)
  | none => false

/-- Whether a checker's unit has had a PIPE_CHECK within the check window (R150). -/
def State.inWindow (s : State) (c : CoreId) (id : Nat) : Bool :=
  if id / 256 < 0x10 then s.windowOpen (s.core c).checkAt else s.windowOpen (s.svu c.unit).checkAt

/-- Start the check window of a PIPE_CHECK's unit (R150). -/
def State.startWindow (s : State) (c : CoreId) (id : Nat) : State :=
  if id / 256 < 0x10 then s.modCore c fun k => { k with checkAt := some s.clock }
  else s.modSvu c.unit fun u => { u with checkAt := some s.clock }

/-- Whether TRAPINFO records this same trap already, so that ATTEMPT goes on counting (R35; log entry 61). -/
def Core.sameTrap (k : Core) (pc : Word) (c : Cause) : Bool := k.tiValid && k.tiPc == pc && k.tiCause == c.code

/-- TAKING A TRAP (R33, R34, R35): the task ends, the fault message goes to the die supervisor's mailbox,
TRAPINFO records the cause and the unit's address, and the core parks with every register as it stands. A
WATCHDOG or REPLAY_DIVERGE that ends a wait inside a unit leaves the unit's progress, so that a retry goes on waiting
(R32, R38).
pc, w0 and w1 are those of the trapping unit. -/
def State.trapAt (s : State) (c : CoreId) (pc w0 w1 : Word) (t : Trap) : State :=
  let second := t.cause == .pipeCheck && s.inWindow c t.value.toNat
  let s := if t.cause = .pipeCheck then s.startWindow c t.value.toNat else s
  let k := s.core c
  let p : Park := { cause := t.cause, value := t.value, pc := pc, w0 := w0, w1 := w1, seqn := k.seqn,
                    second := second }
  let s := (s.ringTaskEnd c).setCore c
    { k with running := false, park := some p, phase := if t.cause = .watchdog ∨ t.cause = .replayDiverge then k.phase else .idle,
             tiPc := pc, tiValid := true, tiAttempt := if k.sameTrap pc t.cause then k.tiAttempt else 0,
             tiCause := t.cause.code, pendingTrap := none, lateTrap := none }
  s.post c.die (.trap c p (s.launchIx c))

/-- Whether a core stands inside a unit part of whose effect has left it, so that a trap that is due waits for the unit's
end: it is taken at a unit boundary, and the unit would take effect again if it were begun anew (R32, R149). -/
def Core.midUnit (k : Core) : Bool :=
  match k.phase with
  | .bar _ _ | .barDone _ | .sstep | .sstepDone _ | .ringOp | .found _ | .afree | .capture _ | .copies _ _ => true
  | _ => false

/-- A trap of the unit that the issuing core is executing. -/
def State.takeTrap (s : State) (t : Trap) : State :=
  s.trapAt s.cur s.me.pc s.me.uw0 s.me.uw1 t

/-- A trap raised at the next unit boundary of a core, of the unit at pc; of two the one of higher rank
stands (R37). -/
def State.trapLater (s : State) (c : CoreId) (pc : Word) (t : Trap) : State :=
  s.modCore c fun k =>
    match k.lateTrap with
    | some (u, _) => if t.cause.place < u.cause.place then { k with lateTrap := some (t, pc) } else k
    | none => { k with lateTrap := some (t, pc) }

/-- The end of a task (R21). -/
def State.endTask (s : State) (c : CoreId) : State :=
  (s.ringTaskEnd c).modCore c fun k =>
    { k with running := false, rstack := [], loops := [], rpt := none }

/-- The result of an instruction's body: its effect, a trap that leaves the state as it was, a trap after
a part of the effect, a wait with nothing done, a wait in progress, or an effect that sets the pc
itself. -/
inductive Res where
  | done (s : State)
  | trap (t : Trap)
  | trapIn (s : State) (t : Trap)
  | wait
  | stall (s : State)
  | jump (s : State) (pc : Word)

/-! ### Handles, inbox and the end of engine commands -/

/-- A handle word (R181). -/
def handleWord (kind inst seq status ebc : Nat) : DWord :=
  BitVec.ofNat 64 (kind % 16 * 2 ^ 60 + inst % 4096 * 2 ^ 48 + seq % 2 ^ 32 * 2 ^ 16
    + status % 256 * 2 ^ 8 + ebc % 256)

/-- Post a message to a core's inbox of 16 entries, or hold it while the inbox is full (R132). -/
def Core.postInbox (k : Core) (m : InboxMsg) : Core :=
  k.mapRegs fun r =>
    if r.inbox.length < 16 && r.held.isEmpty then { r with inbox := r.inbox ++ [m] }
    else { r with held := r.held ++ [m] }

/-- The oldest message leaves and the oldest held one enters (R132). -/
def Core.takeInbox (k : Core) : Core :=
  match k.held with
  | m :: hs => { k with inbox := k.inbox.tail ++ [m], held := hs }
  | [] => { k with inbox := k.inbox.tail }

/-- An engine fills a handle register, adding the taint of an hcancel that found it outstanding (R196). A handle
that was outstanding at the last barrier, as a cast's may be, is filled in the checkpoint file too. -/
def Core.fillHandle (k : Core) (n : BitVec 3) (w : DWord) (t : Bool) : Core :=
  let t := t || k.hCancelled.getLsbD n.toNat
  let k := k.mapRegs fun r => r.fillH n w t
  { k with ckpt := k.ckpt.map fun r => r.fillH n w t }

/-- The end of an engine command at its core: its handle fills and, with INB, its message goes to the inbox. -/
def Core.complete (k : Core) (h : Option (BitVec 3)) (inb : Bool) (w : DWord) (t : Bool) : Core :=
  let t := t || (match h with | some n => k.hCancelled.getLsbD n.toNat | none => false)
  let k := match h with
    | some n => k.fillHandle n w t
    | none => k
  if inb then k.postInbox { hw := w, val := 0, taint := t } else k

/-- An engine command of core c ends. -/
def State.completeHandle (s : State) (c : CoreId) (h : Option (BitVec 3)) (inb : Bool) (w : DWord)
    (t : Bool) : State :=
  s.modCore c fun k => k.complete h inb w t

/-! ### The abort line (R229, R230) -/

/-- Whether a core finds the abort line of its launch raised: in its cluster, once the line has arrived there
(R229), or on its die for a ramp core. -/
def State.aborted (s : State) (c : CoreId) : Bool :=
  if c.isRamp then (s.launchOf c).abort else (s.cluster c.cluster).abortLine

/-- ABORTED at a sampling point (R230). -/
def abortTrap (point : Nat) : Trap := ⟨.aborted, BitVec.ofNat 64 point⟩

end Sys2Proof.Machine
end

