-- ==== Sys2Proof/Machine/Cache.lean ====
section
/-! DEFINITION. The home slices and the remote-data caches (R327 to R329): sets, pins, presence bits, and the writes of the
package's own agents at a line's home. -/

namespace Sys2Proof.Machine

/-! ### The L2 and the RDC (R327 to R329) -/

/-- The home die of a physical address (R312). -/
def homeDie (pa : Nat) : BitVec 4 := BitVec.ofNat 4 (pa / 2 ^ 40)

/-- The set of a line: of the RDC by line number; of the L2 within the line's slice (R312, R327, R328). -/
def setOf (rdc : Bool) (line : Nat) : Nat :=
  if rdc then line % 32768
  else
    let p := (line / 4 ^^^ line / 512) % 128
    p / 2 * 1024 + line / 4 % 1024

/-- A die's set. -/
def Die.set (d : Die) (rdc : Bool) (n : Nat) : List Way := if rdc then Tab.get [] d.rdc n else Tab.get [] d.l2 n
/-- Replace a die's set. -/
def Die.putSet (d : Die) (rdc : Bool) (n : Nat) (x : List Way) : Die :=
  if rdc then { d with rdc := Tab.put [] d.rdc n x } else { d with l2 := Tab.put [] d.l2 n x }

/-- The victim of a set: the unpinned way least recently used, the lowest way winning ties (R329). -/
def victimOf : List Way → Option Nat
  | [] => none
  | w :: ws =>
    match victimOf ws with
    | some i =>
      let later : Bool := w.used ≤ ((ws[i]?).map (·.used)).getD 0
      if w.pins = 0 && later then some 0 else some (i + 1)
    | none => if w.pins = 0 then some 0 else none

/-- Use a line of a set of sixteen ways at a time, with some pins more: the ways and the line that made room, or none
where the allocation must wait (R329). -/
def useLine (ways : List Way) (line now pins : Nat) : Option (List Way × Option Nat) :=
  match ways.findIdx? fun w => w.line == line with
  | some i =>
    if ways.any fun w => w.line == line && 255 < w.pins + pins then none
    else some (ways.modify i fun w => { w with pins := w.pins + pins, used := now }, none)
  | none =>
    if ways.length < 16 then some (ways ++ [⟨line, pins, now⟩], none)
    else (victimOf ways).map fun i => (ways.set i ⟨line, pins, now⟩, (ways[i]?).map (·.line))

/-- Drop the pins that a unit holds on a line. -/
def unpinLine (ways : List Way) (line : Nat) : List Way :=
  ways.map fun w => if w.line = line then { w with pins := w.pins - 1 } else w

/-- A die's RDC holds a line of another die, or no longer holds it: the bit that the home L2 keeps (R328). -/
def State.setPresent (s : State) (d : BitVec 4) (line : Nat) (b : Bool) : State :=
  s.modDie (homeDie (line * 64)) fun x =>
    let m := Tab.get 0 x.present line
    let bit : BitVec 16 := 1#16 <<< d.toNat
    { x with present := Tab.put 0 x.present line (if b then m ||| bit else m &&& ~~~bit) }

/-- Use a line of a die's L2 or RDC, with some pins more: none where it must wait. -/
def State.useWay (s : State) (d : BitVec 4) (rdc : Bool) (line pins : Nat) : Option State :=
  let n := setOf rdc line
  (useLine ((s.die d).set rdc n) line s.clock pins).map fun x =>
    let s := s.modDie d fun y => y.putSet rdc n x.1
    match x.2 with
    | some old => if rdc then s.setPresent d old false else s
    | none => s

/-- Where a die's agent allocates a line: its own L2 for one homed there, else its RDC (R327, R328). -/
def inRdc (d : BitVec 4) (pa : Nat) : Bool := homeDie pa != d

/-- Pin the line of a physical address for a unit of a die: none where it must wait (R329). -/
def State.pin (s : State) (d : BitVec 4) (pa : Nat) : Option State := s.useWay d (inRdc d pa) (pa / 64) 1

/-- Serve the waiting allocations of a set in arrival order (R329). -/
def State.serveWaits (s : State) (d : BitVec 4) (rdc : Bool) (n : Nat) : List LineReq → State
  | [] => s
  | r :: rs =>
    if r.rdc = rdc && setOf r.rdc r.line = n then
      match s.useWay d rdc r.line 1 with
      | some s => (s.modDie d fun x => { x with lineWaits := x.lineWaits.erase r }).serveWaits d rdc n rs
      | none => s
    else s.serveWaits d rdc n rs

/-- Unpin a line of a die; the set's earliest waiting allocations go through (R329). -/
def State.unpin (s : State) (d : BitVec 4) (rdc : Bool) (line : Nat) : State :=
  let n := setOf rdc line
  let s := s.modDie d fun x => x.putSet rdc n (unpinLine (x.set rdc n) line)
  s.serveWaits d rdc n (s.die d).lineWaits

/-- A unit allocates and pins a line, or waits behind the set's earlier waits (R329). -/
def State.allocate (s : State) (r : LineReq) : State :=
  let later := s.modDie r.die fun x => { x with lineWaits := x.lineWaits ++ [r] }
  if (s.die r.die).lineWaits.any fun w => w.rdc == r.rdc && setOf w.rdc w.line == setOf r.rdc r.line then later
  else (s.useWay r.die r.rdc r.line 1).getD later

/-- A unit gives up the pin it holds or waits for. -/
def State.unallocate (s : State) (r : LineReq) : State :=
  if (s.die r.die).lineWaits.contains r then
    s.modDie r.die fun x => { x with lineWaits := x.lineWaits.erase r }
  else s.unpin r.die r.rdc r.line

/-- Whether a unit of a die can pin the line of a physical address now, as a unit that pins, writes and unpins in one
step must (R329). -/
def State.lineFree (s : State) (d : BitVec 4) (pa : Nat) : Bool :=
  let r := inRdc d pa
  !((s.die d).lineWaits.any fun w => w.rdc == r && setOf w.rdc w.line == setOf r (pa / 64)) && (s.pin d pa).isSome

/-- Whether a unit of a die can pin the lines of physical addresses one after the other now. -/
def State.linesFree (s : State) (d : BitVec 4) (pas : List Nat) : Bool := pas.all (s.lineFree d)

/-- An access of a die's agent reaches a line: the home L2 uses it; a read of another die's line uses the RDC; a write
invalidates every RDC copy of it (R327, R328). A set that is pinned whole is passed by. -/
def State.cacheAccess (s : State) (d : BitVec 4) (pa : Nat) (write : Bool) : State :=
  let line := pa / 64
  let h := homeDie pa
  let s := (s.useWay h false line 0).getD s
  if write then
    let holders := (List.range 16).filter fun i => (Tab.get 0 (s.die h).present line).getLsbD i
    holders.foldl (fun s i =>
      let e : BitVec 4 := BitVec.ofNat 4 i
      let n := setOf true line
      (s.modDie e fun x => x.putSet true n ((x.set true n).filter fun w => w.line != line || w.pins != 0)).setPresent
        e line false) s
  else if h = d then s
  else match s.useWay d true line 0 with
    | some s => s.setPresent d line true
    | none => s

/-- The lines of [a, a+n), accessed at their home slices. -/
def State.cacheLines (s : State) (a n : Nat) (write : Bool) : State :=
  (basesIn 64 a n).foldl (fun s b => s.cacheAccess (homeDie b) b write) s

/-- Untracked bytes are written at their home: no RDC copy of their lines stays (R328). -/
def State.pokeHome (s : State) (pa : Nat) (bs : TBytes) : State := (s.cacheLines pa bs.length true).poke pa bs

end Sys2Proof.Machine
end

