-- ==== Sys2Proof/Machine/Xlate.lean ====
section
/-! DEFINITION. Two-stage translation of HBM addresses (R330, R331, R333): the walk of the tables in
memory. -/

namespace Sys2Proof.Machine

/-- A failed walk or access (R333, R334): the stage, whether stage 1 was being walked, kind, level, and the
guest-physical address for a stage-2 fault. -/
structure XErr where
  stage2 : Bool
  nested : Bool
  kind : Nat
  level : Nat
  gpa : Nat
  deriving DecidableEq, Repr

/-- Kinds of access (R334): 0 read, 1 write, 2 reduction or atomic. -/
abbrev Access := Nat

/-- A decoded table entry (R331): the next table, or a frame with its permissions and scheme. -/
inductive Pte where
  | table (a : Nat)
  | leaf (a : Nat) (r w : Bool) (comp : Nat)
  deriving DecidableEq, Repr

/-- Whether a physical address lies in populated HBM (R312). -/
def populated (pa : Nat) : Bool := pa < 2 ^ 44 && pa % 2 ^ 40 < 0x1800000000

/-- Decode an entry at a level of a walk with depth levels; a fault kind where it breaks R331. Leaves stand
at the last three levels and the last level holds leaves only. -/
def decodePte (depth level e : Nat) : Except Nat Pte :=
  let last := level + 1 = depth
  let a := low 44 (e / 2 ^ 12) * 2 ^ 12
  if !e.testBit 0 then .error 0
  else if low 2 (e / 2 ^ 6) != 0 || low 4 (e / 2 ^ 8) != 0 || e / 2 ^ 56 != 0 then .error 2
  else if e.testBit 1 then
    if last || low 4 (e / 4) != 0 then .error 2 else .ok (.table a)
  else if level + 3 < depth then .error 2
  else if low 2 (e / 16) = 3 then .error 2
  else if a % 2 ^ (12 + 9 * (depth - 1 - level)) != 0 then .error 2
  else .ok (.leaf a (e.testBit 2) (e.testBit 3) (low 2 (e / 16)))
where
  /-- Low n bits. -/
  low (n x : Nat) : Nat := x % 2 ^ n

/-- Index of an address at a level of a walk with depth levels. -/
def pteIndex (depth level a : Nat) : Nat := a / 2 ^ (12 + 9 * (depth - 1 - level)) % 512

/-- A translated address with the permissions, the scheme and the level of its leaf. -/
structure Xlated where
  addr : Nat
  r : Bool
  w : Bool
  comp : Nat
  level : Nat
  deriving DecidableEq, Repr

/-- The stage-2 walk from a table, fuel levels left of four (R330). -/
def walk2 (m : Memory) (gpa : Nat) : Nat → Nat → Except (Nat × Nat) Xlated
  | 0, _ => .error (2, 3)
  | fuel + 1, tbl =>
    let level := 3 - fuel
    let ea := tbl + 8 * pteIndex 4 level gpa
    if !populated ea then .error (3, level)
    else match decodePte 4 level (natOfBytes (m.readN ea 8)) with
      | .error k => .error (k, level)
      | .ok (.table t) => walk2 m gpa fuel t
      | .ok (.leaf a r w c) =>
        let pa := a + gpa % 2 ^ (12 + 9 * (3 - level))
        if populated pa then .ok ⟨pa, r, w, c, level⟩ else .error (3, level)

/-- The stage-1 walk from a table at a GPA, fuel levels left of five; each entry is itself translated by
stage 2 (R330, R333). -/
def walk1 (m : Memory) (s2root va : Nat) : Nat → Nat → Except XErr Xlated
  | 0, _ => .error ⟨false, false, 2, 4, 0⟩
  | fuel + 1, tbl =>
    let level := 4 - fuel
    let eg := tbl + 8 * pteIndex 5 level va
    if 2 ^ 48 ≤ eg then .error ⟨false, false, 2, level, 0⟩
    else match walk2 m eg 4 s2root with
      | .error (k, l) => .error ⟨true, true, k, l, eg⟩
      | .ok x =>
        if !x.r then .error ⟨true, true, 1, x.level, eg⟩
        else match decodePte 5 level (natOfBytes (m.readN x.addr 8)) with
          | .error k => .error ⟨false, false, k, level, 0⟩
          | .ok (.table t) => walk1 m s2root va fuel t
          | .ok (.leaf a r w c) =>
            let gpa := a + va % 2 ^ (12 + 9 * (4 - level))
            if 2 ^ 48 ≤ gpa then .error ⟨false, false, 2, level, 0⟩ else .ok ⟨gpa, r, w, c, level⟩

/-- Translate a VA for an access: the physical address, or the fault, at the level of the entry that refuses it (R330 to
R334). -/
def translate (m : Memory) (s1root s2root va : Nat) (acc : Access) : Except XErr Nat :=
  match walk1 m s2root va 5 s1root with
  | .error e => .error e
  | .ok x =>
    if acc = 0 && !x.r || acc ≠ 0 && !x.w then .error ⟨false, false, 1, x.level, 0⟩
    else match walk2 m x.addr 4 s2root with
      | .error (k, l) => .error ⟨true, false, k, l, x.addr⟩
      | .ok y =>
        if acc = 0 && !y.r || acc ≠ 0 && !y.w then .error ⟨true, false, 1, y.level, x.addr⟩
        else if x.comp ≠ 0 && x.comp ≠ y.comp then .error ⟨false, false, 2, x.level, 0⟩
        else .ok y.addr

/-- Number of a virtual function in the package (R400). -/
def vfNum (d : BitVec 4) (v : Nat) : Nat := d.toNat * 32 + v

/-- The partition context of a launch: stage-1 root, partition and stage-2 root (R400). -/
def State.vfOf (s : State) (l : Nat) : Vf :=
  let x := s.launch l
  Tab.get Vf.blank s.vfs (vfNum x.die (x.queue.toNat / 8))
/-- A partition; none where it was not created. -/
def State.part (s : State) (p : BitVec 4) : Option Part := Tab.get none s.parts p.toNat
/-- The stage-2 root of a partition. -/
def State.s2root (s : State) (p : BitVec 4) : Nat := ((s.part p).map (·.s2root)).getD 0
/-- A partition of a launch. -/
def State.partOf (s : State) (l : Nat) : BitVec 4 := (s.vfOf l).part

/-- Translate a VA in a launch's stage-1 space (R330, R400). -/
def State.xlate (s : State) (l : Nat) (va : Nat) (acc : Access) : Except XErr Nat :=
  let v := s.vfOf l
  translate s.mem v.s1root (s.s2root v.part) va acc

/-- Translate the 64-byte lines of [va, va+n) in order: the physical address of every part with its VA and
length, or the first fault. -/
def State.xlateRange (s : State) (l : Nat) (acc : Access) : List (Nat × Nat) →
    Except (XErr × Nat) (List (Nat × Nat × Nat))
  | [] => .ok []
  | (va, n) :: rest =>
    match s.xlate l va acc with
    | .error e => .error (e, va)
    | .ok pa => match s.xlateRange l acc rest with
      | .error e => .error e
      | .ok xs => .ok ((pa, va, n) :: xs)

/-- The parts of [a, a+n) that lie in one 64-byte line each. -/
def lineParts (a n : Nat) : List (Nat × Nat) :=
  (basesIn 64 a n).map fun b =>
    let lo := max a b
    (lo, min (a + n) (b + 64) - lo)

/-- Untracked bytes of a launch's stage-1 space, as the scheduler and fetch read them; a byte whose
translation fails reads 0 (log entry 9). -/
def State.readVa (s : State) (l va n : Nat) : List Byte :=
  (lineParts va n).flatMap fun x =>
    match s.xlate l x.1 0 with
    | .ok pa => s.mem.readN pa x.2
    | .error _ => List.replicate x.2 0

/-- Untracked bytes with their taint. -/
def State.readVaT (s : State) (l va n : Nat) : TBytes :=
  (lineParts va n).flatMap fun x =>
    match s.xlate l x.1 0 with
    | .ok pa => s.peek pa x.2
    | .error _ => List.replicate x.2 (0, false)

/-! ### Staging for a cast (R410) -/

/-- Whether a physical page holds a page of a cast's ranges that has not drained: one marked at the cut, or one that no
translation gave then and one gives now (R410). -/
def State.castPage (s : State) (k : Cast) (page : Nat) : Bool :=
  k.marked.contains page || k.late.any fun va => match s.xlate k.launch va 0 with
    | .ok pa => pa / 4096 == page
    | .error _ => false

/-- Before a write to a page of a cast that has not drained: its pre-image is kept with the cast and copied to a page of
the staging reserve (log entry 50); of a page with an uncorrectable line none can be kept. -/
def State.stageCast (s : State) (n page : Nat) (y : Part) (k : Cast) : State :=
  if s.castPage k page && !(k.staged.any fun x => x.1 == page) then
    let a := page * 4096
    let bs := s.peek a 4096
    let bad := s.bad a 4096
    let k' : Cast := { k with staged := k.staged ++ [(page, if bad.isSome then none else some bs)] }
    let s := { s.cacheLines a 4096 false with parts := Tab.put none s.parts n (some { y with cast := some k' }) }
    match bad with
    | some b => s.markPoison b
    | none =>
      let slot := k.staged.length % max 1 (k.stageSize / 4096)
      match s.xlate k.launch (k.stage + 4096 * slot) 1 with
      | .ok pa => s.pokeHome pa (addTaint true bs)
      | .error _ => s
  else s

/-- Stage the page of a physical address for every partition's cast. -/
def State.stageFor (s : State) (pa : Nat) : State :=
  s.parts.foldl (fun s x => match x.2 with
    | some y => match y.cast with
      | some k => s.stageCast x.1 (pa / 4096) y k
      | none => s
    | none => s) s

/-- Untracked write of bytes in a launch's stage-1 space by the scheduler, the drainer or a context writer; a partial
write into a poisoned or uncorrectable line is refused (R445). -/
def State.writeVa (s : State) (l va : Nat) (bs : TBytes) : State :=
  ((lineParts va bs.length).foldl (fun (p : State × TBytes) x =>
    let here := p.2.take x.2
    let rest := p.2.drop x.2
    match p.1.xlate l x.1 1 with
    | .ok pa =>
      match p.1.badPartial pa here.length with
      | some b => (p.1.markPoison b, rest)
      | none => ((p.1.stageFor pa).pokeHome pa here, rest)
    | .error _ => (p.1, rest)) (s, bs)).1

end Sys2Proof.Machine
end

