-- ==== Sys2Proof/Machine/Seq.lean ====
section
/-! DEFINITION. A unit of code: fetching its words (R23, R39, R125), the checks that hold before its
effect (R24, R27, R29, R37), its sequencing part (R24 to R30), repeat frames (R31), and the frame that
every instruction's meaning is put in. -/

namespace Sys2Proof.Machine

/-! ### Code -/

/-- Length of the code image of the issuing core's launch, in bytes (R23). -/
def State.codeLen (s : State) (c : CoreId) : Nat := (s.launchOf c).rcd.codeLen

/-- The word of the code image at an address, as memory holds it now. -/
def State.imageWord (s : State) (c : CoreId) (a : Nat) : Word :=
  BitVec.ofNat 32 (natOfBytes (s.readVa (s.launchIx c) ((s.launchOf c).img.codeVa + a) 4))

/-- The word a core sees at an address: from its instruction store, else from the image (R125). -/
def State.codeWord (s : State) (c : CoreId) (a : Nat) : Word :=
  match Tab.get none (s.core c).istore a with
  | some w => w
  | none => s.imageWord c a

/-- Whether a word of code lies inside the image (R23). -/
def State.inImage (s : State) (c : CoreId) (a : Nat) : Bool := a + 4 ≤ s.codeLen c

/-- Length in words of the unit at an address (R23, R39). -/
def State.unitLen (s : State) (c : CoreId) (a : Nat) : Nat := unitWords c.isRamp (s.codeWord c a)

/-- The first word of the n from a up that lies outside the image. -/
def State.outside (s : State) (c : CoreId) (a : Nat) : Nat → Option Nat
  | 0 => none
  | n + 1 => if s.inImage c a then s.outside c (a + 4) n else some a

/-- CODE_RANGE at an address (R23). -/
def codeRange (a : Nat) : Trap := ⟨.codeRange, BitVec.ofNat 64 a⟩

/-- CODE_RANGE of the unit at an address: its first word outside the image (R23). -/
def State.unitRange (s : State) (c : CoreId) (a : Nat) : Option Trap :=
  if !s.inImage c a then some (codeRange a)
  else (s.outside c a (s.unitLen c a)).map codeRange

/-- Words of a unit, for a fault message: word 0 and WORD1 (R34, R51). DESIGN CHOICE (log entry 69): of a unit that
lies outside the code image, in whole or in part, they are what memory holds beyond it. -/
def State.messageWords (s : State) (c : CoreId) (a : Nat) : Word × Word :=
  let w := s.codeWord c a
  (w, if s.unitLen c a > 1 then s.codeWord c (a + 4) else 0)

/-! ### Checks before the effect -/

/-- Depth of the loop stack's innermost entry (R29). -/
def Core.innermost (k : Core) : Option LoopEntry := k.loops.getLast?

/-- Whether a unit of len words at address u breaks R29: the unit that holds word E of the innermost
current-frame entry must end at E and carry LEND, and a unit with LEND must end at the E of the innermost
entry. -/
def Core.frameBreach (k : Core) (u len : Nat) (lend : Bool) : Bool :=
  let last := u + 4 * len - 4
  let outer := match k.innermost with
    | none => false
    | some e => e.frame == k.rstack.length && u ≤ e.last.toNat && e.last.toNat ≤ last
        && (e.last.toNat != last || !lend)
  let own := lend && match k.innermost with
    | none => true
    | some e => e.last.toNat != last
  outer || own

/-- The STACK trap of a sequencing word, known before the effect (R24, R27). -/
def Core.stackTrap (k : Core) (q : Seq) : Option Trap :=
  let d := k.rstack.length
  let t : Trap := ⟨.stack, BitVec.ofNat 64 d⟩
  match q with
  | .call _ | .callw _ => if 8 ≤ d then some t else none
  | .ret => if d = 0 then some t else none
  | _ => none

/-- The trap a unit carries beside its instruction's own (R24, R29, R37). -/
def Core.unitTrap (k : Core) (len : Nat) (q : Seq) : Option Trap :=
  let u := k.pc.toNat
  if k.frameBreach u len (q == .lend) then some ⟨.illegalFrame, BitVec.ofNat 64 u⟩
  else k.stackTrap q

/-! ### Sequencing -/

/-- Pop loop entries of the current frame that do not hold the target (R30). -/
def popTransfer (frame t : Nat) : List LoopEntry → List LoopEntry
  | [] => []
  | e :: es =>
    if e.frame = frame && !(e.start.toNat ≤ t && t ≤ e.last.toNat) then popTransfer frame t es
    else e :: es

/-- Pop the loops of deeper frames (R30). -/
def popFrames (frame : Nat) : List LoopEntry → List LoopEntry
  | [] => []
  | e :: es => if frame < e.frame then popFrames frame es else e :: es

/-- A taken transfer to t: pops, and the pc (R30). -/
def Core.transfer (k : Core) (t : Nat) : Core :=
  { k with loops := (popTransfer k.rstack.length t k.loops.reverse).reverse, pc := BitVec.ofNat 32 t }

/-- The loop-end cascade of R29: entries innermost first, with the depth of the first; the next pc and the
entries that remain. -/
def loopCascade (last after : Nat) (lc : Tab (TReg Word)) :
    List LoopEntry → Tab (TReg Word) × List LoopEntry × Word
  | [] => (lc, [], BitVec.ofNat 32 after)
  | e :: es =>
    if e.last.toNat ≠ last then (lc, e :: es, BitVec.ofNat 32 after)
    else
      let r := Tab.get TReg.zero lc es.length
      let v := r.val - 1
      let lc := Tab.put TReg.zero lc es.length { r with val := v }
      if v ≠ 0 then (lc, e :: es, e.start) else loopCascade last after lc es

/-- The loop-end check of a unit whose last word is last (R29). -/
def Core.loopEnd (k : Core) (unit last after : Nat) : Core × Option Trap :=
  match k.innermost with
  | none => (k, some ⟨.illegalFrame, BitVec.ofNat 64 unit⟩)
  | some e =>
    if e.last.toNat ≠ last then (k, some ⟨.illegalFrame, BitVec.ofNat 64 unit⟩)
    else
      let (lc, ls, pc) := loopCascade last after k.lc k.loops.reverse
      ({ k with lc := lc, loops := ls.reverse, pc := pc }, none)

/-- Offset target of a sequencing word at address sa (R26). -/
def seqTarget (sa : Nat) (off : BitVec 23) : Int := (sa : Int) + 4 * off.toInt

/-- A transfer's target: CODE_RANGE outside the image (R24). DESIGN CHOICE (log entry 69): the VALUE of a target below
address 0 is its difference from 0, sign-extended to 64 bits. -/
def State.target (s : State) (t : Int) : Except Trap Nat :=
  if 0 ≤ t && t + 4 ≤ (s.codeLen s.cur : Int) then .ok t.toNat
  else .error ⟨.codeRange, BitVec.ofInt 64 t⟩

/-- A way register's target: ALIGNMENT before CODE_RANGE (R24, R26). -/
def State.wayTarget (s : State) (w : Word) : Except Trap Nat :=
  if w.toNat % 4 ≠ 0 then .error ⟨.alignment, w.zeroExtend 64⟩ else s.target w.toNat

/-- The sequencing part of the unit of len words at address u, after the instruction's effect (R24): the
state with its next pc, or the state and the trap of the target. DESIGN CHOICE (log entry 69): the CODE_RANGE of a
SKIP that passes over a unit outside the image reports the pc of the SKIP's own unit. -/
def State.sequence (s : State) (u len : Nat) (q : Seq) : State × Option Trap :=
  let k := s.me
  let nxt := u + 4 * len
  let sa := nxt - 4
  let go (k : Core) : State × Option Trap := (s.setMe k, none)
  let plain (k : Core) : Core := { k with pc := BitVec.ofNat 32 nxt }
  let jumpTo (k : Core) (t : Except Trap Nat) (f : Core → Nat → Core) : State × Option Trap :=
    match t with
    | .error e => (s.setMe k, some e)
    | .ok t => (s.setMe (f k t), none)
  let branch (p : BitVec 3) (sense : Bool) (off : BitVec 23) : State × Option Trap :=
    let r := k.preg p
    let k := k.decide r.taint
    if r.val = sense then jumpTo k (s.target (seqTarget sa off)) Core.transfer else go (plain k)
  match q with
  | .next =>
    match k.rpt with
    | some r =>
      if r.after.toNat = nxt then
        if 1 < r.left then go { k with rpt := some { r with left := r.left - 1 }, pc := r.start }
        else go { plain k with rpt := none }
      else go (plain k)
    | none => go (plain k)
  | .lend => let (k, t) := k.loopEnd u (nxt - 4) nxt; (s.setMe k, t)
  | .skip =>
    let r := k.preg 0
    let k := k.decide r.taint
    if !r.val then go (plain k)
    else match s.unitRange s.cur nxt with
      | some t => (s.setMe k, some t)
      | none =>
        let n := s.unitLen s.cur nxt
        let lend := (s.codeWord s.cur nxt).extractLsb' 30 2 == 1
        let after := nxt + 4 * n
        if k.frameBreach nxt n lend then
          (s.setMe { plain k with uw0 := (s.messageWords s.cur nxt).1
                                  uw1 := (s.messageWords s.cur nxt).2 },
            some ⟨.illegalFrame, BitVec.ofNat 64 nxt⟩)
        else if lend then let (k, t) := k.loopEnd nxt (after - 4) after; (s.setMe k, t)
        else go { k with pc := BitVec.ofNat 32 after }
  | .jump off => jumpTo k (s.target (seqTarget sa off)) Core.transfer
  | .brT p off => branch p true off
  | .brF p off => branch p false off
  | .call off =>
    jumpTo k (s.target (seqTarget sa off)) fun k t =>
      { k with rstack := k.rstack ++ [BitVec.ofNat 32 nxt], pc := BitVec.ofNat 32 t }
  | .ret =>
    let t := (k.rstack.getLast?).getD 0
    jumpTo k (s.target t.toNat) fun k t =>
      let rs := k.rstack.dropLast
      let ls := (popFrames rs.length k.loops.reverse).reverse
      ({ k with rstack := rs, loops := ls } : Core).transfer t
  | .jumpw wy =>
    let r := k.wreg wy
    jumpTo (k.decide r.taint) (s.wayTarget r.val) Core.transfer
  | .callw wy =>
    let r := k.wreg wy
    jumpTo (k.decide r.taint) (s.wayTarget r.val) fun k t =>
      { k with rstack := k.rstack ++ [BitVec.ofNat 32 nxt], pc := BitVec.ofNat 32 t }

/-! ### The frame of every instruction -/

/-- A vector entry that moves a value into a g register or predicate stalls the scalar pipeline until it has
completed (R127, R144). -/
def movesScalar : VKind → Bool
  | .get | .any | .all => true
  | _ => false

/-- Whether the core may issue: it runs a task, is not parked, and no such entry is unfinished. -/
def Core.canIssue (k : Core) : Bool :=
  k.running && k.park.isNone && !(k.vq.any fun e => movesScalar e.op.kind)
    && !(k.inflight.any fun i => movesScalar i.ent.op.kind)

/-- The checker's mismatch that awaits the issuing core's scalar unit, if any (R148). -/
def State.scalarCheck (s : State) : Option Trap :=
  match s.checkFail with
  | some (c, id) => if c = s.cur && id.toNat < 0x1000 then some ⟨.pipeCheck, id.zeroExtend 64⟩ else none
  | none => none

/-- After an instruction's own effect: its sequencing part, then what the instruction leaves for last. A
target's trap is raised after the effect (R24); the reported pc is the unit's, or the skipped unit's for
R29. -/
def State.finish (s : State) (len : Nat) (q : Seq) (post : State → State) : State :=
  let u := s.me.pc
  match s.sequence u.toNat len q with
  | (s, none) => post s
  | (s, some t) => s.takeTrap t

/-- The meaning of a unit of len words with sequencing part q: whatever trap the unit itself carries is
ranked against the trap of the instruction's body (R24, R37); with neither, the body's effect, then the
sequencing part, then post. -/
def unitThen (len : Nat) (q : Seq) (post : State → State) (body : State → Res) (s : State) : Out :=
  if !s.me.canIssue then .next s
  else match s.scalarCheck with
  | some t => .next (({ s with checkFail := none } : State).takeTrap t)
  | none =>
    match s.me.unitTrap len q, body s with
    | none, .done s' => .next (s'.finish len q post)
    | none, .trap t => .next (s.takeTrap t)
    | none, .trapIn s' t => .next (s'.takeTrap t)
    | none, .wait => .next s
    | none, .stall s' => .next s'
    | none, .jump s' pc => .next (post (s'.modMe fun k => { k with pc := pc }))
    | some p, .trap t => .next (s.takeTrap (Trap.top t p))
    | some p, .trapIn _ t => .next (s.takeTrap (Trap.top t p))
    | some p, .wait => if p.cause = .stack then .next s else .next (s.takeTrap p)
    | some p, _ => .next (s.takeTrap p)

/-- The meaning of a unit whose instruction leaves nothing for after its sequencing part. -/
def unit (len : Nat) (q : Seq) (body : State → Res) (s : State) : Out := unitThen len q id body s

/-- Words of a one-word format with its sequencing part (R39). -/
def len1 (q : Seq) : Nat := if q.code = 3 then 2 else 1
/-- Words of an F-X unit with its sequencing part (R39). -/
def len2 (q : Seq) : Nat := if q.code = 3 then 3 else 2

end Sys2Proof.Machine
end

