-- ==== Sys2Proof/Machine/Operands.lean ====
section
/-! DEFINITION. Operand forms: sources that stall or trap while empty (R17, R48), destinations that wait for
an outstanding producer (R18), immediates, and effective addresses (R178, R315). -/

namespace Sys2Proof.Machine

/-- A source with a full/empty bit and its trap-on-empty bit (R17, R48): a g or an h register. -/
inductive Src where
  | g (n : BitVec 5) (tb : Bool)
  | h (n : BitVec 3) (tb : Bool)
  deriving DecidableEq, Repr

/-- Whether a source is full. -/
def Core.srcFull (k : Core) : Src → Bool
  | .g n _ => (k.greg n).fill == .full
  | .h n _ => (k.hreg n).fill == .full

/-- The EMPTY_READ trap of an empty source whose trap-on-empty bit is set: class 1 g, 3 h, and number (R17,
R193). -/
def Core.srcTrap (k : Core) (x : Src) : Option Trap :=
  if k.srcFull x then none
  else match x with
    | .g n true => some ⟨.emptyRead, 0x100 + n.zeroExtend 64⟩
    | .h n true => some ⟨.emptyRead, 0x300 + n.zeroExtend 64⟩
    | _ => none

/-- Taint of a source. -/
def Core.srcTaint (k : Core) : Src → Bool
  | .g n _ => k.gt n
  | .h n _ => (k.hreg n).taint

/-- Go on with the sources read, or stop: the first that traps on empty, else a stall while one is empty. -/
def Core.need (k : Core) (xs : List Src) (r : Res) : Res :=
  match xs.findSome? k.srcTrap with
  | some t => .trap t
  | none => if xs.all k.srcFull then r else .wait

/-- As need, for an instruction with checks, each with the sources it looks at: where a source traps on empty, the first
check that fails on full sources decides with EMPTY_READ by the ranks (R37). -/
def Core.needPast (k : Core) (xs : List Src) (checks : List (List Src × Option Trap)) (r : Res) : Res :=
  match xs.findSome? k.srcTrap with
  | some t => .trap (match checks.findSome? fun x => if x.1.all k.srcFull then x.2 else none with
      | some u => Trap.top t u
      | none => t)
  | none => if xs.all k.srcFull then r else .wait

/-- OR of the taint of sources. -/
def Core.taints (k : Core) (xs : List Src) : Bool := xs.any k.srcTaint

/-- A g source without a trap bit. -/
def Src.g0 (n : BitVec 5) : Src := .g n false

/-- Write a result to a g register of the issuing core, waiting while a producer is outstanding into it
(R18). -/
def State.toG (s : State) (d : BitVec 5) (v : DWord) (t : Bool) : Res :=
  if (s.me.greg d).fill = .pending then .wait else .done (s.setMe (s.me.writeG d v t))

/-- The same, raising flags too (R89, R93). -/
def State.toGF (s : State) (d : BitVec 5) (v : DWord) (t : Bool) (f : Fx) : Res :=
  if (s.me.greg d).fill = .pending then .wait else .done (s.setMe ((s.me.writeG d v t).raise f t))

/-- Write a predicate of the issuing core. -/
def State.toP (s : State) (d : BitVec 3) (v : Bool) (t : Bool) : Res :=
  .done (s.setMe (s.me.writeP d v t))

/-- The 64-bit pattern of an integer. -/
def dw (i : Int) : DWord := BitVec.ofInt 64 i

/-- A 14-bit immediate, sign-extended (R97). -/
def sx14 (i : BitVec 14) : DWord := i.signExtend 64

/-- sx(y, 32) of R93. -/
def sx32 (y : Word) : DWord := y.signExtend 64

/-- The low 56 bits of a pointer (R78). -/
def vaOf (p : DWord) : Nat := p.toNat % 2 ^ 56
/-- The format code of a pointer (R78). -/
def fmtOf (p : DWord) : Nat := p.toNat / 2 ^ 58
/-- The block field of a pointer (R78). -/
def blkOf (p : DWord) : Nat := p.toNat / 2 ^ 56 % 4
/-- FORMAT with a pointer as value (R79). -/
def formatTrap (p : DWord) : Trap := ⟨.format, p⟩
/-- A null pointer traps FORMAT at every access (R79). -/
def nullTrap (p : DWord) : Option Trap := if fmtOf p = 63 then some (formatTrap p) else none
/-- ALIGNMENT with an address as value. -/
def alignTrap (a : Nat) : Trap := ⟨.alignment, BitVec.ofNat 64 a⟩

/-- The effective address of an F-M access of size bytes: base plus offset times size, exactly (R178). -/
def effAddr (base : DWord) (off : BitVec 14) (size : Nat) : Int :=
  (base.toNat : Int) + off.toInt * (size : Int)

/-- The checks of R178 in order, for a space of limit bytes: the address, or the trap. -/
def checkAddr (ea : Int) (size align limit : Nat) : Except Trap Nat :=
  if ea < 0 || (limit : Int) < ea + size then .error (illegal 1)
  else if ea.toNat % align ≠ 0 then .error (alignTrap ea.toNat)
  else .ok ea.toNat

end Sys2Proof.Machine
end

