-- ==== Sys2Proof/Machine/Det.lean ====
section
/-! DEFINITION. Record and replay of decision points (R358 to R362), and the DET instructions (R363, R364) with
the events LOG_DRAIN and REPLAY_DIVERGENCE. -/

namespace Sys2Proof.Machine

/-! ### The log -/

/-- Dies of a launch in ascending order. -/
def LaunchRec.dieList (r : LaunchRec) : List (BitVec 4) :=
  ((List.range 16).map fun i => BitVec.ofNat 4 i).filter fun d => r.dies.getLsbD d.toNat

/-- The die of a gang: gang j on the (j mod k)-th set bit of DIES (R369). -/
def LaunchRec.dieOf (r : LaunchRec) (g : Nat) : BitVec 4 :=
  r.dieList.getD (g % max 1 r.gangs % max 1 r.dieList.length) 0

/-- Base and bytes of a die's part of the log region: the region is split evenly over the launch's dies in
ascending order (log entry 11). -/
def LaunchRec.logPart (r : LaunchRec) (d : BitVec 4) : Nat × Nat :=
  let n := max 1 r.dieList.length
  let share := r.logSize / n / 32 * 32
  (r.logBase + (r.dieList.takeWhile fun x => x != d).length * share, share)

/-- A die's log of a launch. -/
def Launch.log (l : Launch) (d : BitVec 4) : DieLog := Tab.get DieLog.start l.logs d.toNat
/-- Change a die's log of a launch. -/
def Launch.modLog (l : Launch) (d : BitVec 4) (f : DieLog → DieLog) : Launch :=
  { l with logs := Tab.put DieLog.start l.logs d.toNat (f (l.log d)) }
/-- The 32 bytes of an entry (R360). -/
def LogEntry.bytes (e : LogEntry) : List Byte :=
  bytesOfNat 4 e.index ++ bytesOfNat 4 (e.kind % 256 + e.unit % 2 ^ 21 * 2 ^ 8) ++ bytesOfNat 4 e.pc.toNat
    ++ bytesOfNat 4 e.sstep.toNat ++ bytesOfNat 8 e.va.toNat ++ bytesOfNat 8 e.vb.toNat

/-- An entry read back. -/
def logEntryOf (bs : List Byte) : LogEntry :=
  let f (a n : Nat) : Nat := natOfBytes ((bs.drop a).take n)
  { index := f 0 4, kind := f 4 4 % 256, unit := f 4 4 / 2 ^ 8 % 2 ^ 21, pc := BitVec.ofNat 32 (f 8 4)
    sstep := BitVec.ofNat 32 (f 12 4), va := BitVec.ofNat 64 (f 16 8), vb := BitVec.ofNat 64 (f 24 8) }

/-- Entry i of a die's recorded log; none past its end. -/
def State.recorded (s : State) (l : Nat) (d : BitVec 4) (i : Nat) : Option LogEntry :=
  let (base, size) := (s.launch l).rcd.logPart d
  if size < 32 * (i + 1) then none
  else
    let e := logEntryOf (s.readVa l (base + 32 * i) 32)
    if e.index = i && e.kind != 0 then some e else none

/-- The next entry of a unit in log order that has not been replayed (R361), from entry i on, n at most. A
station's entries are those of kinds 5 and 6. -/
def State.nextEntry (s : State) (l : Nat) (d : BitVec 4) (unit : Nat) (station : Bool) :
    Nat → Nat → Option LogEntry
  | _, 0 => none
  | i, n + 1 =>
    match s.recorded l d i with
    | none => none
    | some e =>
      let mine := e.unit == unit && ((e.kind == 5 || e.kind == 6) == station)
        && !((s.launch l).log d).replayed.contains i
      if mine then some e else s.nextEntry l d unit station (i + 1) n

/-- The entries that a unit has still to replay, in log order, from entry i on, n at most. -/
def State.entriesOf (s : State) (l : Nat) (d : BitVec 4) (unit : Nat) (station : Bool) : Nat → Nat → List LogEntry
  | _, 0 => []
  | i, n + 1 =>
    match s.nextEntry l d unit station i n with
    | none => []
    | some e => e :: s.entriesOf l d unit station (e.index + 1) n

/-- Whether a die's recorded log was truncated: it fills its part of the region (R359, R361). -/
def State.truncated (s : State) (l : Nat) (d : BitVec 4) : Bool :=
  let n := ((s.launch l).rcd.logPart d).2 / 32
  n != 0 && (s.recorded l d (n - 1)).isSome

/-- Entries in a die's log buffer, which the launches of the die share (R359). -/
def State.buffered (s : State) (d : BitVec 4) : Nat :=
  (s.launches.map fun x => ((s.launch x.1).log d).buffer.length).sum

/-- How a decision point is to be taken. -/
inductive Decision where
  /-- as it falls, recorded when recording is on -/
  | free
  /-- not yet: the log buffer is full (R359) -/
  | held
  /-- as this entry says -/
  | replay (e : LogEntry)
  deriving DecidableEq, Repr

/-- How a decision point of a unit is taken, under a mode (0 off, 1 record, 2 replay). -/
def State.decisionOf (s : State) (l : Nat) (d : BitVec 4) (rr : BitVec 2) (unit : Nat) (station : Bool) :
    Decision :=
  if rr = 1 then
    let g := (s.launch l).log d
    if !g.stopped && 8192 ≤ s.buffered d then .held else .free
  else if rr = 2 then
    match s.nextEntry l d unit station 0 ((s.launch l).rcd.logSize / 32) with
    | some e => .replay e
    | none => .free
  else .free

/-- How a decision point of core c is taken. An entry of an atomic that is still on its way was recorded before
this decision, so the decision waits for it. -/
def State.decision (s : State) (c : CoreId) : Decision :=
  match s.decisionOf (s.launchIx c) c.die (s.gangOf c).rr (coreNum c) false with
  | .replay e => if e.kind = 4 && !(s.core c).atomics.isEmpty then .held else .replay e
  | d => d

/-- Log an entry under recording; past the end of a truncated log, replay goes on unforced and RPEND is set (R359,
R361). -/
def State.logEntry (s : State) (l : Nat) (d : BitVec 4) (rr : BitVec 2) (kind unit : Nat) (pc : Word)
    (sstep : Word) (va vb : DWord) : State :=
  if rr = 1 then
    s.modLaunch l fun x =>
      if (x.log d).stopped then x
      else x.modLog d fun g =>
        { g with buffer := g.buffer ++ [⟨g.next, kind, unit, pc, sstep, va, vb⟩], next := g.next + 1 }
  else if rr = 2 && s.truncated l d then s.modLaunch l fun x => x.modDstat d fun y => { y with rpend := true }
  else s

/-- Log a decision of core c. -/
def State.logCore (s : State) (c : CoreId) (kind : Nat) (va vb : DWord) : State :=
  s.logEntry (s.launchIx c) c.die (s.gangOf c).rr kind (coreNum c) (s.core c).pc (s.gangOf c).sstep va vb

/-- A divergence: the core traps at its next unit boundary, and the record is kept with the core (R362). -/
def State.diverged (s : State) (c : CoreId) (e : LogEntry) (actual : DWord) : State :=
  let r : Diverge := { index := BitVec.ofNat 32 e.index, kind := e.kind, unit := e.unit, expected := e.va,
                       actual := actual, sstep := (s.gangOf c).sstep }
  (s.modLaunch (s.launchIx c) fun l => { l with diverges := l.diverges ++ [(c, r)] }).trapLater c
    (s.core c).pc ⟨.replayDiverge, BitVec.ofNat 64 e.index⟩

/-- An entry has been replayed. -/
def State.consume (s : State) (l : Nat) (d : BitVec 4) (e : LogEntry) : State :=
  s.modLaunch l fun x => x.modLog d fun g => { g with replayed := e.index :: g.replayed }

/-- The kind and PC met, as ACTUAL of a divergence record: KIND in bits 7..0, PC in bits 63..32 (log entry
12). -/
def metValue (kind : Nat) (pc : Word) : DWord := BitVec.ofNat 64 (kind + pc.toNat * 2 ^ 32)

/-- A decision of core c was replayed under entry e: it diverges where the kind, the PC or the compared value
differs (R362). -/
def State.replayed (s : State) (c : CoreId) (e : LogEntry) (kind : Nat) (va : DWord) : State :=
  let pc := (s.core c).pc
  let s := s.consume (s.launchIx c) c.die e
  if e.kind ≠ kind || e.pc ≠ pc then s.diverged c e (metValue kind pc)
  else if e.va ≠ va then s.diverged c e va
  else s

/-- The same for an append, whose sequence number is compared (R361). -/
def State.replayedSeq (s : State) (c : CoreId) (e : LogEntry) (seq : Nat) : State :=
  let pc := (s.core c).pc
  let s := s.consume (s.launchIx c) c.die e
  if e.kind ≠ 9 || e.pc ≠ pc then s.diverged c e (metValue 9 pc)
  else if e.vb ≠ BitVec.ofNat 64 seq then s.diverged c e (BitVec.ofNat 64 seq)
  else s

/-- Whether n appends of one unit must wait: under recording for room in the log buffer for all of them (R359), under
replay for the recorded predecessors of each (R361). -/
def State.appendHeld (s : State) (c : CoreId) (next : Nat) (n : Nat := 1) : Bool :=
  match s.decision c with
  | .held => true
  | .free =>
    (s.gangOf c).rr == 1 && !((s.launchOf c).log c.die).stopped && decide (8192 < s.buffered c.die + n)
  | .replay _ =>
    let l := s.launchIx c
    let es := (s.entriesOf l c.die (coreNum c) false 0 ((s.launch l).rcd.logSize / 32)).take n
    ((List.range es.length).zip es).any fun x => x.2.kind == 9 && decide (next + x.1 < x.2.vb.toNat)

/-- The divergence record that a core's REPLAY_DIVERGE of a VALUE names (R362). -/
def Launch.divergeOf (x : Launch) (c : CoreId) (value : DWord) : Option Diverge :=
  (x.diverges.find? fun y => y.1 == c && y.2.index == value.setWidth 32).map Prod.snd

/-- The divergence record of a core's REPLAY_DIVERGE goes to the supervisor (R362). -/
def State.postDiverge (s : State) (c : CoreId) (t : Trap) : State :=
  match if t.cause = .replayDiverge then (s.launchOf c).divergeOf c t.value else none with
  | some d => s.post c.die (.diverge d)
  | none => s

/-- The decision of an append of core c that received a sequence number (R358). -/
def State.noteAppend (s : State) (c : CoreId) (kind inst seq : Nat) : State :=
  match s.decision c with
  | .replay e => s.replayedSeq c e seq
  | _ => s.logCore c 9 (handleWord kind inst 0 0 0) (BitVec.ofNat 64 seq)

/-! ### DET instructions (R363, R364) -/

/-- DSTAT's word (R355). -/
def DStat.word (d : DStat) : DWord :=
  BitVec.ofNat 64 (d.conf.toNat * 2 ^ 63 + d.trunc.toNat * 2 ^ 62 + d.rpend.toNat * 2 ^ 61
    + d.hostt.toNat * 2 ^ 60 + d.space.toNat * 2 ^ 58 + d.addr.toNat)

/-- The DSTAT of the issuing core's die and launch. -/
def State.myDstat (s : State) : DStat := (s.launchOf s.cur).dstat s.cur.die

/-- DSTAT (R364): tainted. -/
def execDstat (o : XD) (s : State) : Out :=
  unit (len2 o.q) o.q (fun s => s.toG o.d s.myDstat.word true) s

/-- DCLR (R364). -/
def execDclr (o : XQ) (s : State) : Out :=
  unit (len2 o.q) o.q (fun s => .done (s.modLaunch (s.launchIx s.cur) fun l =>
    l.modDstat s.cur.die fun d => { d with conf := false, hostt := false, space := 0, addr := 0 })) s

/-- DMARK (R364): a KIND 10 decision. -/
def execDmark (o : XA) (s : State) : Out :=
  unit (len2 o.q) o.q (fun s => s.me.need [.g o.a o.ta]
    (let v := s.me.gv o.a
     match s.decision s.cur with
     | .held => .wait
     | .free => .done (s.logCore s.cur 10 v 0)
     | .replay e => .done (s.replayed s.cur e 10 v))) s

/-- DDRAIN (R364): waits until every entry logged on the die before it, by whichever of its launches, is in the log
region. -/
def execDdrain (o : XQ) (s : State) : Out :=
  unit (len2 o.q) o.q (fun s =>
    let upTo := match s.me.phase with
      | .ddrain xs => xs
      | _ => s.launches.map fun x => (x.1, ((s.launch x.1).log s.cur.die).next)
    let written (x : Nat × Nat) : Bool :=
      let g := (s.launch x.1).log s.cur.die
      g.stopped || decide (x.2 ≤ g.drained)
    if (s.gangOf s.cur).rr ≠ 1 || upTo.all written then .done (s.modMe fun k => { k with phase := .idle })
    else .stall (s.modMe fun k => { k with phase := .ddrain upTo })) s

/-- LOG_DRAIN (R359): the oldest entry of the first launch with one in the die's buffer goes to the log
region; where it does not fit, recording stops. -/
def execLogDrain (die : BitVec 4) (s : State) : Out :=
  let busy := (s.launches.map Prod.fst).find? fun l => !((s.launch l).log die).buffer.isEmpty
  match busy with
  | none => .next s
  | some l =>
    match ((s.launch l).log die).buffer with
    | [] => .next s
    | e :: es =>
      let (base, size) := (s.launch l).rcd.logPart die
      if 32 * (e.index + 1) ≤ size then
        let s := s.writeVa l (base + 32 * e.index) (e.bytes.map fun b => (b, false))
        .next (s.modLaunch l fun x => x.modLog die fun g =>
          { g with buffer := es, drained := g.drained + 1 })
      else
        .next (s.modLaunch l fun x => (x.modLog die fun g =>
          { g with buffer := [], stopped := true }).modDstat die fun d => { d with trunc := true })

/-- REPLAY_DIVERGENCE (R362): the unit traps REPLAY_DIVERGE and its divergence record goes to the
supervisor. -/
def execReplayDivergence (c : CoreId) (s : State) : Out :=
  let k := s.core c
  match k.lateTrap with
  | some (t, pc) =>
    if t.cause = .replayDiverge && k.park.isNone then
      let w := s.messageWords c pc.toNat
      let s := s.trapAt c pc w.1 w.2 t
      .next (s.postDiverge c t)
    else .next s
  | none => .next s

end Sys2Proof.Machine
end

