-- ==== Sys2Proof/Machine/Hbm.lean ====
section
/-! DEFINITION. HBM accesses after translation (R311, R325, R326, R335, R336, R445): lines, a ramp core's L1,
writes at the home slice, held writes of a redundant launch (R386), pages of a cast (R410), the side log, and
translation faults. -/

namespace Sys2Proof.Machine

/-! ### Translation faults (R333, R334) -/

/-- Raise a translation fault: its record waits to be posted to its owner; the token names it. -/
def State.newFault (s : State) (ag : Agent) (l va : Nat) (e : XErr) (acc : Access) (vec : Bool) :
    State × Nat :=
  let f : XFault :=
    { token := s.nextToken, ag := ag, va := va, gpa := if e.stage2 then e.gpa else 0, stage2 := e.stage2,
      nested := e.nested, kind := e.kind, level := e.level, access := acc, part := s.partOf l,
      posted := false, vec := vec }
  ({ s with xfaults := s.xfaults ++ [f], nextToken := s.nextToken + 1 }, f.token)

/-! ### Group TLBs (R326) -/

/-- The group of eight that a ramp core belongs to. -/
def tlbGroup (c : CoreId) : Nat := coreNum c % 128 / 8

/-- The translation that a ramp core's group TLB holds for a page, if it permits the access (R326). -/
def State.tlbHit (s : State) (c : CoreId) (l va : Nat) (acc : Access) : Option Nat :=
  let x := s.launch l
  let v := vfNum x.die (x.queue.toNat / 8)
  ((Tab.get [] (s.die c.die).tlbs (tlbGroup c)).find? fun e =>
    e.vf == v && e.page == va / 4096 && e.access.contains acc).map fun e => e.frame * 4096 + va % 4096

/-- Translate an access of a core: a ramp core's through its group's TLB (R326, R330). -/
def State.coreXlate (s : State) (c : CoreId) (l va : Nat) (acc : Access) : Except XErr Nat :=
  match if c.isRamp then s.tlbHit c l va acc else none with
  | some pa => .ok pa
  | none => s.xlate l va acc

/-- After a ramp core's access has been translated, its group's TLB holds the page; of 2,048 entries one makes room,
which one being left open (R326; log entry 63). -/
def State.tlbFill (s : State) (c : CoreId) (l va : Nat) (acc : Access) : State :=
  if !c.isRamp || (s.tlbHit c l va acc).isSome then s
  else match s.xlate l va acc with
    | .error _ => s
    | .ok pa =>
      let x := s.launch l
      let v := vfNum x.die (x.queue.toNat / 8)
      let ok (a : Nat) : Bool := match s.xlate l va a with
        | .ok _ => true
        | .error _ => false
      let e : TlbEntry := { vf := v, page := va / 4096, frame := pa / 4096, access := [0, 1, 2].filter ok }
      let old := (Tab.get [] (s.die c.die).tlbs (tlbGroup c)).filter fun e => !(e.vf == v && e.page == va / 4096)
      let full : Bool := 2048 ≤ old.length
      let old := if full then old.eraseIdx ((Config.freeValue s.free).toNat % 2048) else old
      ({ s with free := if full then s.free + 1 else s.free } : State).modDie c.die fun d =>
        { d with tlbs := Tab.put [] d.tlbs (tlbGroup c) (old ++ [e]) }

/-! ### L1 copies (R325, R326) -/

/-- The key of a line in an L1: its virtual line and its partition (R325). -/
def l1Key (part : BitVec 4) (line : Nat) : Nat := part.toNat * 2 ^ 50 + line

/-- Drop a core's L1 lines that satisfy p, given each line's virtual address. -/
def Core.dropL1 (k : Core) (p : Nat → L1Line → Bool) : Core :=
  { k with l1 := k.l1.filter fun x => match x.2 with
      | some l => !p (x.1 % 2 ^ 50) l
      | none => false }

/-- Change every core that the package lists. -/
def State.mapCores (s : State) (f : CoreId → Core → Core) : State :=
  (s.cores.map Prod.fst).foldl (fun s n => s.modCore (coreOfNum n) (f (coreOfNum n))) s

/-- An atomic or reduction at a line invalidates every copy of it in the partition's ramp cores (R325). -/
def State.dropLine (s : State) (part : BitVec 4) (pa : Nat) : State :=
  s.mapCores fun _ k => k.dropL1 fun _ l => l.part == part && l.pa / 64 == pa / 64

/-- Host writes come to be seen by device reads (R347). -/
def State.seeHost (s : State) : State :=
  { s with host := s.hostWrites.foldl (fun m w => m.writeN w.1 w.2) s.host, hostWrites := [] }

/-- An acquire by a core over HBM invalidates a ramp core's L1 (R325); one at system scope over host memory makes
every host write that has been completed seen (R347). -/
def State.acquireHbm (s : State) (c : CoreId) (mask : BitVec 5) : State :=
  if c.isRamp && mask.getLsbD 2 then s.modCore c fun k => { k with l1 := [] } else s

/-- An acquire of a scope over a mask (R344, R347). -/
def State.acquireAt (s : State) (c : CoreId) (scope : BitVec 3) (mask : BitVec 5) : State :=
  let s := s.acquireHbm c mask
  if scope = 5 && mask.getLsbD 4 then s.seeHost else s

/-- The ramp cores of a core's group of eight (R326). -/
def CoreIdGroup (c : CoreId) : List CoreId :=
  match c with
  | .ramp d i => (List.range 8).map fun j => .ramp d (BitVec.ofNat 7 (i.toNat / 8 * 8 + j))
  | .ord _ _ _ => []

/-- Make room in an L1 set of four ways for a line of key n; which of four goes is left open (R325; log entry 63). -/
def State.roomL1 (s : State) (c : CoreId) (n : Nat) : State :=
  let same := (s.core c).l1.filter fun x => x.1 % 256 == n % 256 && x.1 != n
  if same.length < 4 then s
  else
    let out := (same.map Prod.fst).getD ((Config.freeValue s.free).toNat % same.length) 0
    ({ s with free := s.free + 1 } : State).modCore c fun k => { k with l1 := k.l1.filter fun x => x.1 != out }

/-- A line enters an L1: older copies of the physical line in the group go first, and its set has four ways (R325,
R326). -/
def State.fillL1 (s : State) (c : CoreId) (line : Nat) (x : L1Line) : State :=
  let n := l1Key x.part line
  let drop (s : State) (d : CoreId) : State := s.modCore d fun k =>
    { k with l1 := k.l1.filter fun y => match y.2 with
        | some l => l.pa != x.pa || y.1 == n
        | none => false }
  (((CoreIdGroup c).foldl drop s).roomL1 c n).modCore c fun k => { k with l1 := Tab.put none k.l1 n (some x) }

/-- A core's own write updates its L1 copy, if it has one (R341). -/
def Core.writeL1 (k : Core) (pa : Nat) (bs : TBytes) : Core :=
  let one (l : L1Line) : L1Line :=
    let old := (bytesOfNat 64 l.bytes.toNat).zip ((List.range 64).map fun i => l.taint.getLsbD i)
    let new := ((List.range 64).zip old).map fun x =>
      let a := l.pa + x.1
      if pa ≤ a then (bs[a - pa]?).getD x.2 else x.2
    { l with bytes := BitVec.ofNat 512 (valOf new), taint := BitVec.ofNat 64 (packBits (new.map Prod.snd)) }
  { k with l1 := k.l1.map fun x => (x.1, x.2.map fun l => if l.pa / 64 = pa / 64 then one l else l) }

/-! ### Reads -/

/-- What an access to HBM finds. -/
inductive HRes where
  | ok (bs : TBytes) (s : State)
  | fault (e : XErr) (va : Nat)
  | bad (va : Nat) (s : State)

/-- Read n bytes of one line at home, tracked for core c (R353, R445). -/
def State.hbmReadAt (s : State) (c : CoreId) (pa va n : Nat) : HRes :=
  let s := s.cacheAccess c.die pa false
  match s.bad pa n with
  | some b => .bad (va / 64 * 64) (s.markPoison b)
  | none => let (bs, s) := s.readT c pa n va; .ok bs s

/-- Read one part of a line for an engine command of core c. -/
def State.hbmReadPart (s : State) (l : Nat) (c : CoreId) (va n : Nat) : HRes :=
  match s.xlate l va 0 with
  | .error e => .fault e va
  | .ok pa => s.hbmReadAt c pa va n

/-- Read parts of lines in ascending order. -/
def hbmReadParts (f : State → Nat → Nat → HRes) : State → List (Nat × Nat) → HRes
  | s, [] => .ok [] s
  | s, (va, n) :: rest =>
    match f s va n with
    | .ok bs s => match hbmReadParts f s rest with
      | .ok cs s => .ok (bs ++ cs) s
      | r => r
    | r => r

/-- Read n bytes at a VA in launch l's space for an engine command of core c. -/
def State.hbmRead (s : State) (l : Nat) (c : CoreId) (va n : Nat) : HRes :=
  hbmReadParts (fun s va n => s.hbmReadPart l c va n) s (lineParts va n)

/-- The bytes of a part of an L1 line. -/
def L1Line.cut (x : L1Line) (va n : Nat) : TBytes :=
  (((bytesOfNat 64 x.bytes.toNat).zip ((List.range 64).map fun i => x.taint.getLsbD i)).drop (va % 64)).take n

/-- A hit in ramp core c's L1 is judged by the tag that the line's fill saw (R352, R353). -/
def State.l1Hit (s : State) (c : CoreId) (x : L1Line) (va n : Nat) : TBytes × State :=
  match x.tag with
  | some w =>
    if (s.gangOf c).det && s.tagConflict c none w then (addTaint true (x.cut va n), s.recordConflict c x.pa va)
    else (x.cut va n, s)
  | none => (x.cut va n, s)

/-- Read a part of a line through ramp core c's L1: a valid copy is used as it stands, with the tag it saw; else the
line is filled (R325, R352). -/
def State.l1ReadPart (s : State) (l : Nat) (c : CoreId) (va n : Nat) : HRes :=
  let line := va / 64
  let part := s.partOf l
  match Tab.get none (s.core c).l1 (l1Key part line) with
  | some x => let (bs, s) := s.l1Hit c x va n; .ok bs s
  | none =>
    match s.coreXlate c l (line * 64) 0 with
    | .error e => .fault e va
    | .ok pa =>
      let tag := Tab.get none s.tags (tagKey l pa)
      match (s.tlbFill c l (line * 64) 0).hbmReadAt c pa (line * 64) 64 with
      | .ok bs s =>
        let x : L1Line := { part := part, bytes := BitVec.ofNat 512 (valOf bs)
                            taint := BitVec.ofNat 64 (packBits (bs.map Prod.snd)), pa := pa, tag := tag }
        .ok (x.cut va n) (s.fillL1 c line x)
      | r => r

/-! ### Writes -/

/-- A write performed at the home slice, within one line: refused into a poisoned or uncorrectable line unless
it is whole (R445). The superstep is non-replayable (R382). -/
def State.hbmPut (s : State) (c : CoreId) (op : Option (BitVec 4 × Bool)) (pa va : Nat) (bs : TBytes) :
    Option State :=
  if (s.badPartial pa bs.length).isSome then none
  else
    some ((((s.stageFor pa).cacheAccess c.die pa true).writeT c op pa va bs).nonReplay c)

/-- A write of core c itself at the home slice, which updates the copy that its L1 holds (R325, R341); a write that an
engine makes for it leaves the copy as it is (R338). -/
def State.hbmPutOwn (s : State) (c : CoreId) (op : Option (BitVec 4 × Bool)) (pa va : Nat) (bs : TBytes) :
    Option State :=
  (s.hbmPut c op pa va bs).map fun s => s.modCore c fun k => if c.isRamp then k.writeL1 pa (s.peek pa bs.length) else k

/-! ### The side log (R336) -/

/-- Whether a log holds an entry on a line of [va, va+n). -/
def sideHit (log : List SideEntry) (va n : Nat) : Bool :=
  log.any fun e => e.va / 64 * 64 < va + n && va < e.va / 64 * 64 + 64

/-- A store-class access of a ramp core that faults enters its side log. -/
def State.sidePush (s : State) (c : CoreId) (pc : Word) (va : Nat) (bs : TBytes) (at' : Option AtomicOp)
    (e : XErr) : State :=
  let (s, tok) := s.newFault (.core c) (s.launchIx c) va e (if at'.isSome then 2 else 1) false
  let entry : SideEntry := { va := va, bytes := bs, atomic := at', pc := pc, seq := 0, token := tok,
                             refused := none, ring := s.ringLoad c, sstep := (s.gangOf c).sstep.toNat }
  s.modCore c fun k => { k with sideLog := k.sideLog ++ [entry] }

/-- An entry enters the side log of core c's copy engine, for the command with a sequence number (R336). -/
def State.copyPush (s : State) (c : CoreId) (seq va : Nat) (bs : TBytes) (e : XErr) : State :=
  let k := c.cluster
  let (s, tok) := s.newFault (.copy k) (s.launchIx c) va e 1 false
  let entry : SideEntry := { va := va, bytes := bs, atomic := none, pc := 0, seq := seq, token := tok
                             refused := none, ring := s.ringLoad c, sstep := (s.gangOf c).sstep.toNat }
  s.modCluster k fun x => { x with copyLog := x.copyLog ++ [entry] }

/-- HBM_UNCORRECTABLE of a line (R445). -/
def hbmBad (va : Nat) : Trap := ⟨.hbmUncorrectable, BitVec.ofNat 64 (va / 64 * 64)⟩

/-! ### Held writes of a redundant launch (R386) -/

/-- A write of core c's engine to host memory is performed: no taint is stored there, and a tainted byte sets DSTAT.HOSTT
(R340, R357). -/
def State.hostPut (s : State) (c : CoreId) (a : Nat) (bs : TBytes) : State :=
  let s : State := { s with host := s.host.writeN a (bs.map Prod.fst) }
  (if anyTaint bs then
    s.modLaunch (s.launchIx c) fun l => l.modDstat c.die fun d => { d with hostt := true }
  else s).nonReplay c

/-- Perform one held write: a fault enters the side log of its agent, the write staying held where the log is full; a
bad line traps a ramp core with the storing unit's address (R336, R445; log entry 24). -/
def State.performHeld (s : State) (l g : Nat) (h : HeldWrite) : State :=
  s.forTask h.core none fun s =>
  if let some a := h.host then s.hostPut h.core a h.bytes else
  let keep (s : State) : State := s.modLaunch l fun x => x.modGang g fun y => { y with held := y.held ++ [h] }
  match h.peer with
  | some f => s.modDie h.core.die fun x =>
      { x with fab := x.fab ++ [{ f with seq := f.seq + 2 ^ 32, h := none, inb := false, data := some h.bytes }] }
  | none =>
    match s.xlate l h.va 1 with
    | .error e =>
      if h.core.isRamp then
        if 64 ≤ (s.core h.core).sideLog.length then keep s else s.sidePush h.core (h.pc.getD 0) h.va h.bytes h.atomic e
      else if 64 ≤ (s.cluster h.core.cluster).copyLog.length then keep s
      else s.copyPush h.core (2 ^ 32) h.va h.bytes e
    | .ok pa =>
      let s := if h.atomic.isSome then s.dropLine (s.partOf l) pa else s
      let put := if h.pc.isSome then State.hbmPutOwn else State.hbmPut
      match put s h.core (h.atomic.map fun o => (o.op, o.wide)) pa h.va h.bytes with
      | some s => s
      | none => match h.pc with
        | some pc => if h.core.isRamp then s.trapLater h.core pc (hbmBad h.va) else s
        | none => s

/-- Perform a list of held writes in order; those that a full side log keeps out stay held (R386). -/
def State.performAll (s : State) (l g : Nat) (hs : List HeldWrite) : State :=
  hs.foldl (fun s h => s.performHeld l g h) (s.modLaunch l fun x => x.modGang g fun y => { y with held := [] })

/-- Perform a copy's held writes in order. -/
def State.flushHeld (s : State) (l g : Nat) : State := s.performAll l g ((s.launch l).gang g).held

/-- Bytes of the buffer that a held write takes: its data and a 16-byte header (log entry 24). -/
def HeldWrite.size (h : HeldWrite) : Nat := 16 + h.bytes.length

/-- The primary of a gang of a redundant launch, and its partner (R385). -/
def Launch.primaryOf (x : Launch) (g : Nat) : Nat := ((x.gang g).thirdOf.getD g) % max 1 x.rcd.gangs

/-- A copy's half of the buffer is full: the primary's held writes are performed at once, the partner's are dropped,
and the superstep is non-replayable (R386). -/
def State.spillHeld (s : State) (l g : Nat) : State :=
  let p := (s.launch l).primaryOf g
  let s := s.flushHeld l p
  s.modLaunch l fun x =>
    ((x.modGang p fun y => { y with nonReplayable := true }).modGang (p + x.rcd.gangs) fun y =>
      { y with held := [], nonReplayable := true })

/-- Whether a copy's half of the buffer has no room for a write (R386). -/
def Launch.heldFull (x : Launch) (g n : Nat) : Bool :=
  x.rcd.redSize / 2 < (x.gang g).held.foldl (fun k h => k + h.size) 0 + n

/-- Hold a write of core c until its superstep agrees: its untainted bytes enter the member's signature (R386). -/
def State.holdWrite (s : State) (c : CoreId) (h : HeldWrite) : State :=
  let l := s.launchIx c
  let g := (s.core c).gang
  let s := if (s.launch l).heldFull g h.size && ((s.launch l).gang g).thirdOf.isNone then s.spillHeld l g else s
  (s.noteWritten c (2 ^ 60 + h.va) h.bytes).modGangOf c fun y => { y with held := y.held ++ [h] }

/-- What a write finds. -/
inductive WRes where
  | ok (s : State)
  | fault (e : XErr)
  | bad

/-- Write within one line for core c: held in a redundant launch (R386), performed otherwise. pc is the storing unit's,
where the core itself stores. -/
def State.hbmWritePart (s : State) (l : Nat) (c : CoreId) (pc : Option Word) (va : Nat) (bs : TBytes) : WRes :=
  if (s.launch l).rcd.red then
    .ok (s.holdWrite c { core := c, pc := pc, va := va, bytes := bs, atomic := none, peer := none, host := none })
  else match s.xlate l va 1 with
  | .error e => .fault e
  | .ok pa =>
    match s.hbmPut c none pa va bs with
    | some s => .ok s
    | none => .bad

/-! ### Stores of a ramp core (R335, R336) -/

/-- Write within one line for ramp core c, through its group's TLB. -/
def State.rampWritePart (s : State) (c : CoreId) (pc : Word) (va : Nat) (bs : TBytes) : WRes :=
  let l := s.launchIx c
  if (s.launch l).rcd.red then s.hbmWritePart l c (some pc) va bs
  else match s.coreXlate c l va 1 with
  | .error e => .fault e
  | .ok pa =>
    match (s.tlbFill c l va 1).hbmPutOwn c none pa va bs with
    | some s => .ok s
    | none => .bad

/-- A ramp core's store of bytes at a VA, line by line: performed, logged on a fault, or refused with a trap at
the next unit boundary (R336, R445). pc is the storing unit's. -/
def State.rampStore (s : State) (c : CoreId) (pc : Word) : List (Nat × Nat) → TBytes → State
  | [], _ => s
  | (va, n) :: rest, bs =>
    let here := bs.take n
    let s := match s.rampWritePart c pc va here with
      | .ok s => s
      | .fault e => s.sidePush c pc va here none e
      | .bad => s.trapLater c pc (hbmBad va)
    s.rampStore c pc rest (bs.drop n)

/-- Whether a write of core c at a VA would fault now. -/
def State.faultsAt (s : State) (c : CoreId) (va : Nat) : Bool :=
  !(s.launchOf c).rcd.red && match s.coreXlate c (s.launchIx c) va 1 with
    | .ok _ => false
    | .error _ => true

/-- Whether a ramp core's store must wait: for an entry on one of its lines, or, where it faults, for room in the log
(R336). -/
def State.storeWaits (s : State) (c : CoreId) (va n : Nat) : Bool :=
  let log := (s.core c).sideLog
  sideHit log va n || 64 < log.length + ((lineParts va n).filter fun x => s.faultsAt c x.1).length

/-! ### Loads of a ramp core (R335) -/

/-- What a load of the issuing ramp core gives: its bytes, or what its unit does instead. -/
inductive Loaded where
  | ok (bs : TBytes) (s : State)
  | res (r : Res)

/-- XLATE_ERROR of a VA (R36). -/
def xlateTrap (va : Nat) : Trap := ⟨.xlateError, BitVec.ofNat 64 va⟩

/-- Turn what an access found into a load's outcome: a fault holds the unit until the owner answers. -/
def State.loadOutcome (s : State) : HRes → Loaded
  | .ok bs s => .ok bs s
  | .bad va s => .res (.trapIn s (hbmBad va))
  | .fault e va =>
    let (s, tok) := s.newFault (.core s.cur) (s.launchIx s.cur) va e 0 false
    .res (.stall (s.modMe fun k => { k with phase := .xlate tok }))

/-- What the unit does while a translation fault of its own stands: waits, or traps when it was refused
(R335). -/
def Core.xlateHold (k : Core) : Option Res :=
  match k.phase with
  | .xlate _ => some .wait
  | .refused va => some (.trap (xlateTrap va))
  | _ => none

/-- A load of n bytes at a VA by the issuing ramp core through its L1. -/
def State.rampLoad (s : State) (va n : Nat) : Loaded :=
  match s.me.xlateHold with
  | some r => .res r
  | none =>
    if sideHit s.me.sideLog va n then .res .wait
    else s.loadOutcome
      (hbmReadParts (fun s va n => s.l1ReadPart (s.launchIx s.cur) s.cur va n) s (lineParts va n))

end Sys2Proof.Machine
end

