-- ==== Sys2Proof/Machine/Lease.lean ====
section
/-! DEFINITION. Lease words and live leases (R287, R288), and the place of a window's elements (R275). -/

namespace Sys2Proof.Machine

/-- What a live lease names. -/
structure LeaseRef where
  mesh : MeshId
  win : Nat
  chain : BitVec 2
  deriving DecidableEq, Repr

/-- A lease word (R287). -/
def leaseWord (cl : BitVec 10) (mesh : BitVec 5) (win : Nat) (chain : BitVec 2) : DWord :=
  BitVec.ofNat 64 (2 ^ 26 + cl.toNat * 2 ^ 16 + mesh.toNat * 2 ^ 11 + win % 16 * 2 ^ 7 + chain.toNat * 2 ^ 5)

/-- Whether an entry has completed. -/
def ChainEntry.finished (e : ChainEntry) : Bool :=
  match e.stageOf with
  | .finished _ => true
  | _ => false

/-- The lease that a word names for core c, live until its window is freed (R288, R291); those that a predicate on the lease
refuses are not. -/
def State.leaseOf (s : State) (ok : Lease → Bool) (c : CoreId) (w : DWord) : Option LeaseRef :=
  let cl := w.extractLsb' 16 10
  let mesh := w.extractLsb' 11 5
  let win := (w.extractLsb' 7 4).toNat
  let chain := w.extractLsb' 5 2
  if c.isRamp || w != leaseWord cl mesh win chain || cl != c.cluster.cl then none
  else
    let m : MeshId := ⟨c.die, mesh⟩
    match Tab.get none (s.mesh m).leases win with
    | some l =>
      if l.cluster == cl && l.chain == chain && l.launch == s.launchIx c && ok l then
        some ⟨m, win, chain⟩
      else none
    | none => none

/-- The live lease that a VACC operand names at its grant (R288, R291). -/
def State.liveWindow (s : State) (c : CoreId) (w : DWord) : Option LeaseRef := s.leaseOf (fun _ => true) c w

/-- The live lease that an OPT or PHASE operand names at the scheduler: once an afree of it has been applied, a later
request traps (R288, R291). -/
def State.liveLease (s : State) (c : CoreId) (w : DWord) : Option LeaseRef := s.leaseOf (fun l => !l.freeing) c w

/-- Key of an element of a window: window, row, column. -/
def winKey (win row col : Nat) : Nat := win * 2 ^ 14 + row * 64 + col

end Sys2Proof.Machine
end

