-- ==== Sys2Proof/Machine/VecOps.lean ====
section
/-! DEFINITION. Elements of vector registers (R69, R152), masks (R155), the shape of every queued vector
instruction (R153, R156, R158), and the element functions of majors 0x20 to 0x27 (R159 to R173). -/

namespace Sys2Proof.Machine

/-! ### Elements (R69, R152) -/

/-- The codes of the elements of width w in n positions of a register, lowest first. -/
def unpackBits (w : Nat) : Nat → Nat → List Nat
  | 0, _ => []
  | n + 1, x => low w x :: unpackBits w n (x / 2 ^ w)

/-- The elements of a register. -/
def unpackV (w : Nat) (v : VWord) : List Nat := unpackBits w (4096 / w) v.toNat

/-- The number that holds codes of width w, lowest first. -/
def packNat (w : Nat) : List Nat → Nat
  | [] => 0
  | x :: xs => low w x + 2 ^ w * packNat w xs

/-- A register of elements. -/
def packV (w : Nat) (xs : List Nat) : VWord := BitVec.ofNat 4096 (packNat w xs)

/-- Alternate two lists. -/
def alternate : List Nat → List Nat → List Nat
  | a :: as, b :: bs => a :: b :: alternate as bs
  | _, _ => []

/-- Even positions of a list. -/
def evens : List Nat → List Nat
  | a :: _ :: t => a :: evens t
  | [a] => [a]
  | [] => []

/-- Odd positions of a list. -/
def odds : List Nat → List Nat
  | _ :: b :: t => b :: odds t
  | _ => []

/-- Elements of a group of 1, 2 or 4 interleaved registers (R152). -/
def interleave : List (List Nat) → List Nat
  | [a] => a
  | [a, b] => alternate a b
  | [a, b, c, d] => alternate (alternate a c) (alternate b d)
  | _ => []

/-- The registers of a group of k interleaved registers. -/
def deinterleave (k : Nat) (xs : List Nat) : List (List Nat) :=
  if k = 1 then [xs]
  else if k = 2 then [evens xs, odds xs]
  else
    let e := evens xs
    let o := odds xs
    [evens e, evens o, odds e, odds o]

/-- The bits of a mask below n (R155). -/
def maskBits (m : MWord) (n : Nat) : List Bool := (List.range n).map fun i => m.getLsbD i

/-- A mask of bits, lowest first. -/
def packM (bs : List Bool) : MWord := BitVec.ofNat 1024 (packBits bs)

/-- Registers a side of width w spans when the other has width v (R152). -/
def spanOf (w v : Nat) : Nat := if v < w then w / v else 1

/-- The number of elements of an operation (R152). -/
def elemCount (w v : Nat) : Nat := 4096 / min w v

/-- Registers of an index group (R168). -/
def indexRegs (t : ETy) : Nat := max 1 (4096 / t.width / 256)

/-! ### Shapes -/

/-- What a vector instruction reads and writes: registers from VA, VB and to VD, whether VD is read whatever
the mask and whether inactive elements keep it, operands that are masks, whether M is read, a g or predicate
destination, and what R138 needs. posA is the operand position of its VA (R153). -/
structure VShape where
  va : Nat := 0
  vb : Nat := 0
  vd : Nat := 0
  posA : Nat := 1
  readD : Bool := false
  merge : Bool := false
  ma : Bool := false
  mb : Bool := false
  md : Bool := false
  useM : Bool := false
  bytes : Nat := 512
  lat : Nat := 1
  oneLg : Bool := false

/-- Whether a kind has one vector source only. -/
def IFn.unary : IFn → Bool
  | .abs | .neg => true
  | _ => false
/-- The same for floating kinds. -/
def FFn.unary : FFn → Bool
  | .abs | .neg => true
  | _ => false
/-- Whether a reduction takes VB (R170). -/
def RedFn.hasB : RedFn → Bool
  | .dot | .dota | .dot2 | .dot2a => true
  | _ => false
/-- Whether a reduction accumulates into VD. -/
def RedFn.acc : RedFn → Bool
  | .dota | .dot2a => true
  | _ => false

/-- The shape of a vector instruction (R152 to R180, R306, R309). -/
def VOp.shape (o : VOp) : VShape :=
  let one : Bool → Nat := fun u => if u then 0 else 1
  match o.kind with
  | .int f _ => { va := 1, vb := one f.unary, vd := 1, readD := f == .mac, merge := true, useM := true }
  | .intW f =>
    { va := 1, vb := 1, vd := 2, readD := f == .mac, merge := true, useM := true, bytes := 1024 }
  | .intCmp _ => { va := 1, vb := 1, md := true, useM := true }
  | .flt f =>
    { va := 1, vb := one f.unary, vd := 1, readD := f == .fma, merge := true, useM := true, lat := 3 }
  | .fltW f =>
    { va := 1, vb := 1, vd := 2, readD := f == .fma, merge := true, useM := true, bytes := 1024,
      lat := 3 }
  | .fmul2 => { va := 1, vb := 1, vd := 1, merge := true, useM := true, lat := 3 }
  | .fltCmp _ => { va := 1, vb := 1, md := true, useM := true, lat := 3 }
  | .vs f _ => { va := 1, vd := 1, readD := f == .mac, merge := true, useM := true, lat := 3 }
  | .splat => { vd := 1, merge := true, useM := true, lat := 3 }
  | .slide _ _ => { va := 1, vd := 1, merge := true, useM := true, lat := 3 }
  | .get => { va := 1, lat := 3 }
  | .cvt _ =>
    let ka := spanOf o.s.width o.t.width
    let kd := spanOf o.t.width o.s.width
    { va := ka, vd := kd, merge := true, useM := true, bytes := 512 * max ka kd, lat := 3 }
  | .pack =>
    let k := spanOf o.s.width o.t.width
    { va := k, vd := 2, bytes := 512 * k, lat := 3 }
  | .unpack =>
    let k := spanOf o.t.width o.s.width
    { va := 2, vd := k, merge := true, useM := true, bytes := 512 * k, lat := 3 }
  | .mov => { va := 1, vd := 1, merge := true, useM := true }
  | .merge => { va := 1, vb := 1, vd := 1, useM := true }
  | .perm => { va := 1, vb := indexRegs o.t, vd := 1, merge := true, useM := true, bytes := 1024 }
  | .compress | .expand => { va := 1, vd := 1, useM := true }
  | .gather =>
    { va := indexRegs o.t, vd := 1, merge := true, useM := true, bytes := 8 * (4096 / o.t.width) }
  | .scatter => { va := 1, vb := indexRegs o.t, useM := true, bytes := 8 * (4096 / o.t.width) }
  | .zip => { va := 1, vb := 1, vd := 2, bytes := 1024 }
  | .unzip => { va := 2, vd := 2, bytes := 1024 }
  | .rev => { va := 1, vd := 1, merge := true, useM := true }
  | .red f =>
    { va := 1, vb := if f.hasB then 1 else 0, vd := 1, readD := f.acc, useM := true,
      bytes := if f.hasB then 1024 else 512, lat := 6 }
  | .approx _ | .fn _ => { va := 1, vd := 1, merge := true, useM := true, lat := 8 }
  | .refine _ => { va := 1, vb := 1, vd := 1, merge := true, useM := true, lat := 8 }
  | .mask f => { ma := true, mb := f != .not && f != .mov, md := true, bytes := 128 }
  | .mfirst => { ma := true, md := true, bytes := 128 }
  | .iota => { vd := 1, merge := true, useM := true }
  | .popc => { ma := true, vd := 1, bytes := 128 }
  | .mtov => { ma := true, vd := 1, merge := true, useM := true }
  | .vtom => { va := 1, md := true, useM := true }
  | .any | .all => { ma := true, bytes := 128 }
  | .chain => { lat := 4 }
  | .rdac _ => { vd := 1, bytes := 512, lat := 12, oneLg := true }
  | .wrac => { va := 1, posA := 3, bytes := 512, lat := 1, oneLg := true }
  | .aclr => { bytes := 16 * ((o.c + 7) / 8), lat := 1, oneLg := true }
  | .ldv => { vd := 1, lat := 2 }
  | .stv => { va := 1, posA := 3, lat := 2 }
  | .ldvy => { vd := 1, lat := 2, oneLg := true }
  | .stvy => { va := 1, posA := 3, lat := 2, oneLg := true }
  | .gldv => { vd := 1, lat := 2, oneLg := true }
  | .gstv => { va := 1, posA := 3, lat := 2, oneLg := true }
  | .gldt => { vd := 1 + o.c, bytes := 512 + 64 * o.c, lat := 2, oneLg := true }
  | .gstt => { va := 1 + o.c, posA := 3, bytes := 512 + 64 * o.c, lat := 2, oneLg := true }

/-- The predicate that a vector instruction writes. -/
def VOp.pdest (o : VOp) : Option Nat :=
  match o.kind with
  | .any | .all => some o.d
  | _ => none

/-- The g register that a vector instruction writes. -/
def VOp.gdest (o : VOp) : Option Nat :=
  match o.kind with
  | .get => some o.d
  | _ => none

/-- Whether VD is read: as a source, or merged under a mask other than m0 (R155). -/
def VOp.readsD (o : VOp) : Bool := o.shape.readD || (o.shape.merge && o.m != 0)

/-- The vector registers read, as groups with their operand positions. -/
def VOp.vsrcs (o : VOp) : List (Nat × Nat × Nat) :=
  let h := o.shape
  (if h.va = 0 then [] else [(o.a, h.va, h.posA)])
    ++ (if h.vb = 0 then [] else [(o.b, h.vb, 2)])
    ++ (if o.readsD && h.vd != 0 then [(o.d, h.vd, 3)] else [])

/-- The masks read. -/
def VOp.msrcs (o : VOp) : List Nat :=
  let h := o.shape
  (if h.ma then [o.a] else []) ++ (if h.mb then [o.b] else []) ++ (if h.useM then [o.m.toNat] else [])

/-- The vector registers written. -/
def VOp.vdests (o : VOp) : List Nat :=
  if o.shape.vd = 0 then [] else (List.range o.shape.vd).map fun i => o.d + i

/-! ### Integer element functions (R159, R162) -/

/-- An integer element's value. -/
def intVal (t : ETy) (x : Nat) : Int := if t.isSigned then svN t.width x else (low t.width x : Nat)

/-- Saturate to the range of t, or wrap. -/
def narrow (t : ETy) (sat : Bool) (i : Int) : Nat :=
  wrapInt t.width (if sat then max (intLo t) (min (intHi t) i) else i)

/-- One integer element (R159): codes of a, b and d. -/
def intElem (f : IFn) (t : ETy) (sat : Bool) (a b d : Nat) : Nat :=
  let w := t.width
  let x := intVal t a
  let y := intVal t b
  let c := low w b % w
  match f with
  | .add => narrow t sat (x + y)
  | .sub => narrow t sat (x - y)
  | .rsub => narrow t sat (y - x)
  | .mul => narrow t sat (x * y)
  | .mulh => wrapInt w ((x * y) / ((2 ^ w : Nat) : Int))
  | .mac => narrow t sat (intVal t d + x * y)
  | .min => if y < x then low w b else low w a
  | .max => if x < y then low w b else low w a
  | .and => low w (a &&& b)
  | .or => low w (a ||| b)
  | .xor => low w (a ^^^ b)
  | .andn => low w a - (low w a &&& b)
  | .shl => low w (a * 2 ^ c)
  | .shr => wrapInt w (x / ((2 ^ c : Nat) : Int))
  | .abs => wrapInt w x.natAbs
  | .neg => wrapInt w (-x)

/-- One widening integer element in width 2w (R159). -/
def intWide (f : IFn) (t : ETy) (a b d : Nat) : Nat :=
  let x := intVal t a
  let y := intVal t b
  wrapInt (2 * t.width) (match f with
    | .sub => x - y
    | .mul => x * y
    | .mac => (d : Int) + x * y
    | _ => x + y)

/-- An integer compare (R159). -/
def intCmpElem (f : CmpFn) (t : ETy) (a b : Nat) : Bool :=
  let x := intVal t a
  let y := intVal t b
  match f with
  | .eq => x == y
  | .ne => x != y
  | .lt => x < y
  | .le => x ≤ y
  | .un => false

/-! ### Floating element functions (R160, R161) -/

/-- The exact value of a floating row with its flags. -/
def fltExact (f : FFn) (rm : Rm) (x y z : Val) : Val × Fx :=
  match f with
  | .add => Val.add rm x y
  | .sub => Val.add rm x y.neg
  | .mul => x.mul y
  | .fma => Val.fma rm x y z
  | .min => Val.minmax false x y
  | .max => Val.minmax true x y
  | .abs => (x.abs, Fx.none)
  | .neg => (x.neg, Fx.none)

/-- Whether a row rounds. -/
def FFn.rounds : FFn → Bool
  | .add | .sub | .mul | .fma => true
  | _ => false

/-- Round an exact value with flags into t, taking the LFSR step of rs. -/
def roundInto (t : ETy) (rm : Rm) (sat : Bool) (lf : Word) (x : Val × Fx) : (Nat × Fx) × Word :=
  let ((c, g), lf) := roundVal t rm sat lf x.1
  ((c, x.2 ||| g), lf)

/-- A floating compare with its flags (R161). -/
def fltCmpElem (f : CmpFn) (x y : Val) : Bool × Fx :=
  let nan := x.isNan || y.isNan
  let o := Val.cmp x y
  match f with
  | .eq => (!nan && o == .eq, Fx.none)
  | .lt => (!nan && o == .lt, if nan then Fx.nv else Fx.none)
  | .le => (!nan && o != .gt, if nan then Fx.nv else Fx.none)
  | .un => (nan, Fx.none)
  | .ne => (nan || o != .eq, Fx.none)

/-- The type a widening product is rounded into (R160). -/
def wideFlt (t : ETy) : ETy := if t.width = 8 then .bf16 else .f32

/-- One conversion (R86, R165). -/
def convertElem (s t : ETy) (rm : Rm) (sat : Bool) (lf : Word) (c : Nat) : (Nat × Fx) × Word :=
  let step := if rm = .rs then lfsrStep lf else lf
  if s = t then ((encodeVal t rm false step.toNat (decodeVal s c)), step)
  else if s.isInt && t.isInt then
    (if sat then encodeVal t rm true step.toNat (decodeVal s c)
     else (wrapInt t.width (intVal s c), Fx.none), step)
  else roundVal t rm sat lf (decodeVal s c)

/-! ### Elementwise drivers -/

/-- Map over active elements with an accumulator (LFSR and flags); inactive elements keep the old code and do
nothing (R155). -/
def mapActive {α σ : Type} (f : σ → α → Nat × σ) : σ → List Bool → List α → List Nat → List Nat × σ
  | s, m :: ms, x :: xs, o :: os =>
    if m then
      let (y, s) := f s x
      let (ys, s) := mapActive f s ms xs os
      (y :: ys, s)
    else
      let (ys, s) := mapActive f s ms xs os
      (o :: ys, s)
  | s, _, _, _ => ([], s)

/-- LFSR and flags so far. -/
abbrev Acc := Word × Fx

/-- Add an element's rounding to the accumulator. -/
def Acc.take (s : Acc) (r : (Nat × Fx) × Word) : Nat × Acc := (r.1.1, (r.2, s.2 ||| r.1.2))

/-- A compare's mask: the condition for active elements, 0 elsewhere (R159). -/
def cmpMask (f : Nat × Nat → Bool × Fx) : List Bool → List (Nat × Nat) → List Bool × Fx
  | m :: ms, x :: xs =>
    let (bs, g) := cmpMask f ms xs
    if m then let (b, h) := f x; (b :: bs, g ||| h) else (false :: bs, g)
  | _, _ => ([], Fx.none)

/-! ### Reductions (R90, R91, R170) -/

/-- The result type of a reduction (R170). -/
def redType (f : RedFn) (t : ETy) : ETy :=
  match f with
  | .sum | .min | .max => t
  | _ => if t.isInt then (if t.isSigned then .i32 else .n32) else .f32

/-- A leaf with the flags of its product (R170). -/
def redLeaf (f : RedFn) (t : ETy) (a b : Nat) : Nat × Fx :=
  let r := redType f t
  match f with
  | .sum | .min | .max => (a, Fx.none)
  | .sumw => if t.isInt then (wrapInt 32 (intVal t a), Fx.none) else encodeRne r (decodeVal t a)
  | .dot | .dota =>
    if t.isInt then (wrapInt 32 (intVal t a * intVal t b), Fx.none)
    else
      let p := (decodeVal t a).mul (decodeVal t b)
      let c := encodeRne r p.1
      (c.1, p.2 ||| c.2)
  | .dot2 | .dot2a =>
    let p := (decodeVal t a).mul (decodeVal .two8 b)
    let c := encodeRne r p.1
    (c.1, p.2 ||| c.2)

/-- A node of the tree (R90, R91): wraps for integers, rounds to nearest even for floating sums. -/
def redNode (f : RedFn) (t : ETy) (g : Fx) (a b : Nat) : Nat × Fx :=
  let r := redType f t
  let pick (big : Bool) : Nat × Fx :=
    if r.isInt then (intElem (if big then .max else .min) r false a b 0, g)
    else
      let v := Val.minmax big (decodeVal r a) (decodeVal r b)
      ((encodeRne r v.1).1, g ||| v.2)
  match f with
  | .min => pick false
  | .max => pick true
  | _ =>
    if r.isInt then (intElem .add r false a b 0, g)
    else
      let v := Val.add .rne (decodeVal r a) (decodeVal r b)
      let c := encodeRne r v.1
      (c.1, g ||| v.2 ||| c.2)

/-- The identity of an all-absent group (R91). -/
def redIdentity (f : RedFn) (t : ETy) : Nat :=
  match f with
  | .min => if t.isInt then wrapInt t.width (intHi t) else (encodeRne t (.inf false)).1
  | .max => if t.isInt then wrapInt t.width (intLo t) else (encodeRne t (.inf true)).1
  | _ => 0

/-- Split a list into groups of g, fuel groups at most. -/
def chunks {α : Type} (g : Nat) : Nat → List α → List (List α)
  | 0, _ => []
  | n + 1, xs => xs.take g :: chunks g n (xs.drop g)

/-- A group's result as VRED writes it: a NaN that one element passed up alone becomes the canonical NaN (R71). -/
def redCanon (r : ETy) (x : Nat) : Nat := if (decodeVal r x).isNan then (encodeRne r .nan).1 else x

/-- The results of the groups in ascending order, with all flags (R170). -/
def redGroups (f : RedFn) (t : ETy) : Fx → List (List (Option (Nat × Fx))) → List Nat → List Nat × Fx
  | g, [], _ => ([], g)
  | g, grp :: rest, ds =>
    let g := (grp.filterMap fun x => x.map Prod.snd).foldl (· ||| ·) g
    let (r, g) := treeFold (redNode f t) 12 g (grp.map fun x => x.map Prod.fst)
    let v := redCanon (redType f t) (r.getD (redIdentity f t))
    let (v, g) := if f.acc then redNode f t g (ds.headD 0) v else (v, g)
    let (vs, g) := redGroups f t g rest ds.tail
    (v :: vs, g)

/-! ### Packs (R77, R166, R167) -/

/-- One block: its element codes, with LFSR and flags. -/
def packBlock (t : ETy) (rm : Rm) (scale : Nat) : Acc → List Val → List Nat × Acc
  | s, [] => ([], s)
  | s, x :: xs =>
    let special := if x.isNan || x.isInf then Fx.nv else Fx.none
    if scale = 255 then
      let (ys, s) := packBlock t rm scale (s.1, s.2 ||| special) xs
      (zeroCode t :: ys, s)
    else
      let (y, s) := s.take (roundVal t rm true s.1 (x.scale (127 - (scale : Int))))
      let (ys, s) := packBlock t rm scale (s.1, s.2 ||| special) xs
      (y :: ys, s)

/-- Blocks in ascending order: codes, scales, LFSR and flags. -/
def packBlocks (t : ETy) (rm : Rm) : Acc → List (List Val) → List Nat × List Nat × Acc
  | s, [] => ([], [], s)
  | s, b :: bs =>
    let sc := blockScale t b
    let (ys, s) := packBlock t rm sc s b
    let (zs, scs, s) := packBlocks t rm s bs
    (ys ++ zs, sc :: scs, s)

/-- The value of an element under its block's scale (R76). -/
def scaled (t : ETy) (scale c : Nat) : Val :=
  if scale = 255 then .nan else (decodeVal t c).scale ((scale : Int) - 127)

/-- Each code with its block's scale. -/
def withScale (l : Nat) (cs : List Nat) (scales : List Nat) : List (Nat × Nat) :=
  (chunks l scales.length cs).zip scales |>.flatMap fun x => x.1.map fun c => (c, x.2)

/-! ### Permutes (R168) -/

/-- Expand: the low elements of xs to the active positions, zero elsewhere. -/
def expandElems (z : Nat) : List Bool → List Nat → List Nat
  | true :: ms, x :: xs => x :: expandElems z ms xs
  | true :: ms, [] => z :: expandElems z ms []
  | false :: ms, xs => z :: expandElems z ms xs
  | [], _ => []

/-- Pad to n elements with z. -/
def padTo (n z : Nat) (xs : List Nat) : List Nat := xs ++ List.replicate (n - xs.length) z

/-- The active elements. -/
def activeOf (ms : List Bool) (xs : List Nat) : List Nat :=
  (ms.zip xs).filterMap fun x => if x.1 then some x.2 else none

/-- Slides and rotates by c (R162). -/
def slideElems (up rot : Bool) (z c : Nat) (xs : List Nat) : List Nat :=
  let n := xs.length
  if rot then
    let r := c % n
    if up then xs.drop (n - r) ++ xs.take (n - r) else xs.drop r ++ xs.take r
  else if n ≤ c then List.replicate n z
  else if up then List.replicate c z ++ xs.take (n - c) else xs.drop c ++ List.replicate c z

/-! ### Functions (R172) -/

/-- An exact value with its flags, to be rounded once. -/
def fnVal (f : SFn) (x : Val) : Val × Fx :=
  match f with
  | .sqrt => sqrtVal x
  | .exp2 => (exp2Val x, Fx.none)
  | .exp => (expVal x, Fx.none)
  | .log2 => log2Val x
  | .tanh => (tanhVal x, Fx.none)
  | .sig => (sigVal x, Fx.none)

/-! ### Masks (R173) -/

/-- A mask function on all bits. -/
def maskFn (f : MFn) (a b : MWord) : MWord :=
  match f with
  | .and => a &&& b
  | .or => a ||| b
  | .xor => a ^^^ b
  | .andn => a &&& ~~~b
  | .not => ~~~a
  | .mov => a

/-- Only the lowest set bit. -/
def firstOnly : List Bool → List Bool
  | [] => []
  | true :: t => true :: t.map fun _ => false
  | false :: t => false :: firstOnly t

end Sys2Proof.Machine
end

