-- ==== Sys2Proof/Machine/VecRun.lean ====
section
/-! DEFINITION. What a granted vector instruction computes: registers only (R159 to R173), and the ones that
reach local memory, the yard or a window: loads and stores (R179), gather and scatter (R169), chains (R174
to R177) and VACC (R306 to R308). -/

namespace Sys2Proof.Machine

/-! ### Sources -/

/-- The port a vector register is bound to. -/
def Core.portOf (k : Core) (n : Nat) : Option Port :=
  if 12 ≤ n then Tab.get none k.ports (n - 12) else none

/-- Whether a port is an input port. -/
def Port.isIn (p : Port) : Bool := p.kind == .yin || p.kind == .rin

/-- Whether a vector register is bound to an input port. -/
def Core.boundIn (k : Core) (n : Nat) : Bool := match k.portOf n with
  | some p => p.isIn
  | none => false
/-- Whether a vector register is bound to an output port. -/
def Core.boundOut (k : Core) (n : Nat) : Bool := match k.portOf n with
  | some p => !p.isIn
  | none => false

/-- What reading a vector register gives: the port's next element, or the register (R135). -/
def Core.vin (k : Core) (n : Nat) : VWord × Bool :=
  match k.portOf n with
  | some p => if p.isIn then p.buf.headD (0, false)
      else ((k.vreg (BitVec.ofNat 4 n)).val, (k.vreg (BitVec.ofNat 4 n)).taint)
  | none => ((k.vreg (BitVec.ofNat 4 n)).val, (k.vreg (BitVec.ofNat 4 n)).taint)

/-- The elements of width w of a group of k interleaved registers. -/
def Core.codes (k : Core) (w first cnt : Nat) : List Nat :=
  interleave ((List.range cnt).map fun i => unpackV w (k.vin (first + i)).1)

/-- The elements of width w of cnt consecutive registers. -/
def Core.codesSeq (k : Core) (w first cnt : Nat) : List Nat :=
  (List.range cnt).flatMap fun i => unpackV w (k.vin (first + i)).1

/-- Taint of an entry's sources: vector and mask registers, g operands and TASK.CT. The flags it raises take it
(R89). -/
def Core.sourceTaint (k : Core) (e : VEntry) : Bool :=
  (e.op.vsrcs.any fun x => (List.range x.2.1).any fun i => (k.vin (x.1 + i)).2)
    || (e.op.msrcs.any fun n => (k.mreg (BitVec.ofNat 2 n)).taint)
    || e.taintA || e.taintB || e.taintD || e.ct

/-- Taint that every result of an entry takes: its sources', and RM = 4 (R157). -/
def Core.entryTaint (k : Core) (e : VEntry) : Bool := k.sourceTaint e || e.op.rm == .rs

/-- Writes of a group of k interleaved registers. -/
def groupWrites (d k w : Nat) (xs : List Nat) (t : Bool) : List VWrite :=
  ((deinterleave k xs).zip (List.range k)).map fun x => .v (d + x.2) (packV w x.1) t

/-! ### Register-only instructions -/

/-- Widths of an element-wise instruction: its sources and its destination. -/
def VOp.wideW (o : VOp) : Nat := 2 * o.t.width

/-- The result of an entry that touches registers only: its writes, its flags, and the LFSR after it. tn is
the taint of its results. -/
def Core.vecRun (k : Core) (e : VEntry) (tn : Bool) : List VWrite × Fx × Word :=
  let o := e.op
  let t := o.t
  let w := t.width
  let n := 4096 / w
  let lf := k.lfsr
  let act (n : Nat) : List Bool := maskBits (k.mreg o.m).val n
  let a := k.codes w o.a 1
  let b := k.codes w o.b 1
  let old := k.codes w o.d 1
  let plain (xs : List Nat) (g : Fx) (lf : Word) : List VWrite × Fx × Word :=
    (groupWrites o.d 1 w xs tn, g, lf)
  let maskOut (bs : List Bool) (g : Fx) : List VWrite × Fx × Word := ([.m o.d (packM bs) tn], g, lf)
  -- element-wise over (a, b, d)
  let abd : List (Nat × Nat × Nat) := a.zip (b.zip old)
  let each (f : Acc → Nat × Nat × Nat → Nat × Acc) (xs : List (Nat × Nat × Nat)) :=
    let (ys, s) := mapActive f (lf, Fx.none) (act n) xs old
    plain ys s.2 s.1
  -- element-wise into a pair
  let eachW (f : Acc → Nat × Nat × Nat → Nat × Acc) : List VWrite × Fx × Word :=
    let oldW := k.codes (2 * w) o.d 2
    let (ys, s) := mapActive f (lf, Fx.none) (act n) (a.zip (b.zip oldW)) oldW
    (groupWrites o.d 2 (2 * w) ys tn, s.2, s.1)
  let val (x : Nat) : Val := decodeVal t x
  match o.kind with
  | .int f sat => each (fun s x => (intElem f t sat x.1 x.2.1 x.2.2, s)) abd
  | .intW f => eachW fun s x => (intWide f t x.1 x.2.1 x.2.2, s)
  | .intCmp f => maskOut (cmpMask (fun x => (intCmpElem f t x.1 x.2, Fx.none)) (act n) (a.zip b)).1 Fx.none
  | .flt f =>
    let rm := if f.rounds then o.rm else .rne
    each (fun s x =>
      s.take (roundInto t rm false s.1 (fltExact f rm (val x.1) (val x.2.1) (val x.2.2)))) abd
  | .fltW f =>
    let r := wideFlt t
    eachW fun s x =>
      s.take (roundInto r o.rm false s.1 (fltExact f o.rm (val x.1) (val x.2.1) (decodeVal r x.2.2)))
  | .fmul2 =>
    let ts := (k.codes 8 o.b 1).take n
    each (fun s x => s.take (roundInto t o.rm false s.1 ((val x.1).mul (decodeVal .two8 x.2.1))))
      (a.zip (ts.zip old))
  | .fltCmp f =>
    let (bs, g) := cmpMask (fun x => fltCmpElem f (val x.1) (val x.2)) (act n) (a.zip b)
    maskOut bs g
  | .vs f sat =>
    let y := low w e.gb.toNat
    let xs := a.zip ((a.map fun _ => y).zip old)
    if t.isInt then each (fun s x => (intElem f t sat x.1 y x.2.2, s)) xs
    else
      let ex (x : Nat × Nat × Nat) : Val × Fx := match f with
        | .sub => fltExact .sub .rne (val x.1) (val y) .zero
        | .rsub => fltExact .sub .rne (val y) (val x.1) .zero
        | .mul => fltExact .mul .rne (val x.1) (val y) .zero
        | .mac => fltExact .fma .rne (val x.1) (val y) (val x.2.2)
        | .min => fltExact .min .rne (val x.1) (val y) .zero
        | .max => fltExact .max .rne (val x.1) (val y) .zero
        | _ => fltExact .add .rne (val x.1) (val y) .zero
      each (fun s x => s.take (roundInto t .rne sat s.1 (ex x))) xs
  | .splat =>
    let y := low w e.gb.toNat
    each (fun s _ => (y, s)) (old.zip (old.zip old))
  | .slide up rot =>
    let ys := slideElems up rot (zeroCode t) e.gb.toNat a
    each (fun s x => (x.1, s)) (ys.zip (old.zip old))
  | .get =>
    let x := a.headD 0
    let v := if t.isInt then dw (intVal t x) else BitVec.ofNat 64 x
    ([.g o.d v tn], Fx.none, lf)
  | .cvt sat =>
    let ws := o.s.width
    let cnt := elemCount ws w
    let ka := spanOf ws w
    let kd := spanOf w ws
    let oldD := k.codes w o.d kd
    let (ys, s) := mapActive (fun (s : Acc) x => s.take (convertElem o.s t o.rm sat s.1 x)) (lf, Fx.none)
      (act cnt) (k.codes ws o.a ka) oldD
    (groupWrites o.d kd w ys tn, s.2, s.1)
  | .pack =>
    let ka := spanOf o.s.width w
    let xs := (k.codes o.s.width o.a ka).map (decodeVal o.s)
    let (ys, scs, s) := packBlocks t o.rm (lf, Fx.none) (chunks o.c (n / o.c) xs)
    ([.v o.d (packV w ys) tn, .v (o.d + 1) (packV 8 scs) tn], s.2, s.1)
  | .unpack =>
    let ws := o.s.width
    let cnt := 4096 / ws
    let kd := spanOf w ws
    let scs := (unpackV 8 (k.vin (o.a + 1)).1).take (cnt / o.c)
    let xs := withScale o.c (unpackV ws (k.vin o.a).1) scs
    let oldD := k.codes w o.d kd
    let (ys, s) := mapActive (fun (s : Acc) (x : Nat × Nat) =>
      s.take (roundVal t o.rm false s.1 (scaled o.s x.2 x.1))) (lf, Fx.none) (act cnt) xs oldD
    (groupWrites o.d kd w ys tn, s.2, s.1)
  | .mov => each (fun s x => (x.1, s)) abd
  | .merge => plain (((act n).zip (a.zip b)).map fun x => if x.1 then x.2.1 else x.2.2) Fx.none lf
  | .perm =>
    let ix := (k.codesSeq 16 o.b (indexRegs t)).take n
    let ys := ix.map fun x => if x < n then low w ((k.vin o.a).1.toNat / 2 ^ (x * w)) else zeroCode t
    each (fun s x => (x.1, s)) (ys.zip (old.zip old))
  | .compress => plain (padTo n (zeroCode t) (activeOf (act n) a)) Fx.none lf
  | .expand => plain (expandElems (zeroCode t) (act n) a) Fx.none lf
  | .zip =>
    let c := alternate a b
    ([.v o.d (packV w (c.take n)) tn, .v (o.d + 1) (packV w (c.drop n)) tn], Fx.none, lf)
  | .unzip =>
    let c := a ++ unpackV w (k.vin (o.a + 1)).1
    ([.v o.d (packV w (evens c)) tn, .v (o.d + 1) (packV w (odds c)) tn], Fx.none, lf)
  | .rev => each (fun s x => (x.1, s)) (a.reverse.zip (old.zip old))
  | .red f =>
    let r := redType f t
    let g := if o.c = 0 then n else 2 ^ o.c
    let bs := match f with
      | .dot2 | .dot2a => (k.codes 8 o.b 1).take n
      | _ => b
    let leaves := ((act n).zip (a.zip bs)).map fun x =>
      if x.1 then some (redLeaf f t x.2.1 x.2.2) else none
    let ds := k.codes r.width o.d 1
    let (ys, fl) := redGroups f t Fx.none (chunks g (n / g) leaves) ds
    let rest := if f.acc then ds.drop ys.length else List.replicate (4096 / r.width - ys.length) 0
    (groupWrites o.d 1 r.width (ys ++ rest) tn, fl, lf)
  | .approx rsq => each (fun s x => s.take (approx t rsq x.1, s.1)) abd
  | .refine rsq => each (fun s x => s.take (refine t rsq x.1 x.2.1, s.1)) abd
  | .fn f => each (fun s x => s.take (roundInto t .rne false s.1 (fnVal f (val x.1)))) abd
  | .mask f =>
    let ma := (k.mreg (BitVec.ofNat 2 o.a)).val
    let mb := (k.mreg (BitVec.ofNat 2 o.b)).val
    ([.m o.d (maskFn f ma mb) tn], Fx.none, lf)
  | .mfirst => maskOut (firstOnly (maskBits (k.mreg (BitVec.ofNat 2 o.a)).val n)) Fx.none
  | .iota => each (fun s x => (x.1, s)) ((List.range n).zip (old.zip old))
  | .popc =>
    let c := ((maskBits (k.mreg (BitVec.ofNat 2 o.a)).val n).filter id).length
    ([.v o.d (BitVec.ofNat 4096 c) tn], Fx.none, lf)
  | .mtov =>
    let one := if t.isInt then 1 else (encodeRne t (.fin false 1 0)).1
    let ys := (maskBits (k.mreg (BitVec.ofNat 2 o.a)).val n).map fun b => if b then one else 0
    each (fun s x => (x.1, s)) (ys.zip (old.zip old))
  | .vtom => maskOut (((act n).zip a).map fun x => x.1 && !(val x.2).isZero) Fx.none
  | .any => ([.p o.d ((maskBits (k.mreg (BitVec.ofNat 2 o.a)).val n).any id) tn], Fx.none, lf)
  | .all => ([.p o.d ((maskBits (k.mreg (BitVec.ofNat 2 o.a)).val n).all id) tn], Fx.none, lf)
  | .gather | .scatter | .chain | .rdac _ | .wrac | .aclr | .ldv | .stv | .ldvy | .stvy
  | .gldv | .gstv | .gldt | .gstt => ([], Fx.none, lf)

/-! ### Instructions that reach memory -/

/-- Whether a kind of vector instruction may raise a flag (R89): not the plain moves, loads and stores. -/
def VKind.raises : VKind → Bool
  | .wrac | .aclr | .ldv | .stv | .ldvy | .stvy | .gldv | .gstv | .any | .all | .mask _ => false
  | _ => true

/-- Whether an earlier vector instruction of the core that uses rs has still to take its steps; a chain's mode
stands in its descriptor (R82). -/
def Core.rsPending (k : Core) : Bool := k.vq.any fun e => e.op.rm == .rs || e.op.kind == .chain

/-- Whether an earlier vector instruction of the core has still to raise its flags (R89). -/
def Core.flagsPending (k : Core) : Bool :=
  (k.vq.any fun e => e.op.kind.raises) || k.inflight.any fun i => i.ent.op.kind.raises

/-- What a granted entry does: the state with its memory effects, the writes and flags of its completion, and
the bytes that R138 counts; a trap, with the effects already made; or a translation fault that holds it in
the queue (R335). -/
inductive VRes where
  | done (s : State) (ws : List VWrite) (f : Fx) (tn : Bool) (bytes : Nat)
  | trap (s : State) (t : Trap)
  | hold (s : State)

/-- LOCAL_UNCORRECTABLE at a flat address of core c's local memory (R129). -/
def localBad (c : CoreId) (b : Nat) : Trap := ⟨.localUncorrectable, BitVec.ofNat 64 (b - localBase c)⟩
/-- YARD_UNCORRECTABLE at a flat address of a yard (R179). -/
def yardBad (k : ClusterId) (b : Nat) : Trap := ⟨.yardUncorrectable, BitVec.ofNat 64 (b - yardBase k)⟩

/-- A tracked read of n local bytes at a, or the trap of an uncorrectable word (R129). -/
def State.readLocal (s : State) (c : CoreId) (a n : Nat) : Except Trap (TBytes × State) :=
  match s.bad (localBase c + a) n with
  | some b => .error (localBad c b)
  | none => .ok (s.readT c (localBase c + a) n 0)

/-- A tracked read of n yard bytes at a, or the trap of an uncorrectable word (R179). -/
def State.readYard (s : State) (c : CoreId) (a n : Nat) : Except Trap (TBytes × State) :=
  match s.bad (yardBase c.cluster + a) n with
  | some b => .error (yardBad c.cluster b)
  | none => .ok (s.readT c (yardBase c.cluster + a) n 0)

/-- A write by an instruction narrower than a word: into an uncorrectable or poisoned word it traps and
writes nothing (R129). -/
def State.partialLocal (s : State) (c : CoreId) (a : Nat) (bs : TBytes) : Except Trap State :=
  match s.badPartial (localBase c + a) bs.length with
  | some b => .error (localBad c b)
  | none => .ok (s.writeLocal c c a bs)

/-- An instruction of core c that rounds by rs steps its LFSR, also where a late trap would restore it; any other
leaves it (R82, R149). -/
def State.setLfsr (s : State) (c : CoreId) (rm : Rm) (x : Word) : State :=
  if rm = .rs then s.modCore c fun k => k.mapRegs fun r => { r with lfsr := x } else s

/-- The bytes of a vector register with one taint bit. -/
def vbytes (v : VWord) (t : Bool) : TBytes := bytesOf 512 v.toNat t

/-- The first active address that fails the checks of R169. -/
def gatherTrap (sz pos : Nat) : List Bool → List Nat → Option Trap
  | m :: ms, x :: xs =>
    if !m then gatherTrap sz pos ms xs
    else if 2 ^ 15 ≤ x then some (illegal pos)
    else if x % sz ≠ 0 then some (alignTrap x)
    else gatherTrap sz pos ms xs
  | _, _ => none

/-- Gathered codes of the active elements in order; inactive ones keep the old code. -/
def gatherRead (c : CoreId) (sz : Nat) :
    State → List Bool → List Nat → List Nat → Except Trap (List Nat × Bool × State)
  | s, m :: ms, x :: xs, o :: os =>
    if !m then
      match gatherRead c sz s ms xs os with
      | .error t => .error t
      | .ok (ys, tn, s) => .ok (o :: ys, tn, s)
    else match s.readLocal c x sz with
      | .error t => .error t
      | .ok (bs, s) => match gatherRead c sz s ms xs os with
        | .error t => .error t
        | .ok (ys, tn, s) => .ok (valOf bs :: ys, anyTaint bs || tn, s)
  | s, _, _, _ => .ok ([], false, s)

/-- Scattered writes in ascending index (R169). -/
def scatterWrite (c : CoreId) (sz : Nat) (tn : Bool) :
    State → List Bool → List Nat → List Nat → State × Option Trap
  | s, m :: ms, x :: xs, v :: vs =>
    if !m then scatterWrite c sz tn s ms xs vs
    else match s.partialLocal c x (bytesOf sz v tn) with
      | .error t => (s, some t)
      | .ok s => scatterWrite c sz tn s ms xs vs
  | s, _, _, _ => (s, none)

/-! ### Chain commands (R174 to R177) -/

/-- An operation of a chain: its code, whether b is the element of Y, and the constant. -/
structure ChainOp where
  op : Nat
  src : Bool
  const : Nat
  deriving DecidableEq, Repr

/-- A chain descriptor (R175). -/
structure ChainDesc where
  tx : ETy
  tout : ETy
  ty : ETy
  rm : Rm
  sat : Bool
  yen : Bool
  yaddr : Nat
  ops : List ChainOp
  deriving DecidableEq, Repr

/-- Whether an operation takes b. -/
def chainBinary (op : Nat) : Bool := op ≤ 6

/-- Decode an operation dword; none where a field holds a value the table does not allow. -/
def chainOp (yen : Bool) (x : Nat) : Option ChainOp :=
  let op := low 4 x
  let src := x.testBit 4
  if op = 0 || op = 15 || low 27 (x / 32) != 0 || (src && !chainBinary op) || (src && !yen) then none
  else some ⟨op, src, x / 2 ^ 32 % 2 ^ 32⟩

/-- The operation dwords of a descriptor. -/
def chainOps (yen : Bool) : List Nat → Option (List ChainOp)
  | [] => some []
  | x :: xs => match chainOp yen x, chainOps yen xs with
    | some o, some os => some (o :: os)
    | _, _ => none

/-- Decode a descriptor's header and operations. -/
def chainDesc (h : Nat) (xs : List Nat) : Option ChainDesc :=
  let yen := h.testBit 19
  let tx := ETy.ofCode (BitVec.ofNat 4 h)
  let tout := ETy.ofCode (BitVec.ofNat 4 (h / 16))
  let ty := ETy.ofCode (BitVec.ofNat 4 (h / 256))
  match Rm.ofCode (BitVec.ofNat 3 (h / 4096)), chainOps yen xs with
  | some rm, some ops =>
    if tx = .x8 || tout = .x8 || (yen && ty == .x8) || h / 2 ^ 35 != 0 || (rm == .rto && tout == .two8)
    then none
    else some ⟨tx, tout, ty, rm, h.testBit 15, yen, low 15 (h / 2 ^ 20), ops⟩
  | _, _ => none

/-- The correctly rounded reciprocal of an exact value, before rounding (R175): a quotient with a sticky bit
far under every rounding position. -/
def rcpVal : Val → Val × Fx
  | .nan => (.nan, Fx.none)
  | .inf s => (.fin s 0 0, Fx.none)
  | .fin s m e =>
    if m = 0 then (.inf s, Fx.dz)
    else
      let sh := Nat.log2 m + 64
      let q := 2 ^ sh / m
      (.fin s (2 * q + if q * m = 2 ^ sh then 0 else 1) (-e - sh - 1), Fx.none)

/-- One operation of a chain on F32 values: the exact value with its flags (R177). -/
def chainStep (op : Nat) (v b : Val) : Val × Fx :=
  match op with
  | 1 => Val.add .rne v b
  | 2 => Val.add .rne v b.neg
  | 3 => Val.add .rne b v.neg
  | 4 => v.mul b
  | 5 => Val.minmax false v b
  | 6 => Val.minmax true v b
  | 7 => Val.minmax true v .zero
  | 8 => (v.abs, Fx.none)
  | 9 => (v.neg, Fx.none)
  | 10 => sqrtVal v
  | 11 => (exp2Val v, Fx.none)
  | 12 => (tanhVal v, Fx.none)
  | 13 => (sigVal v, Fx.none)
  | _ => rcpVal v

/-- Round to F32 and keep the code, adding flags. -/
def rneF32 (g : Fx) (x : Val × Fx) : Nat × Fx :=
  let c := encodeRne .f32 x.1
  (c.1, g ||| x.2 ||| c.2)

/-- The operations on one element. -/
def chainElem (y : Nat) : List ChainOp → Nat × Fx → Nat × Fx
  | [], v => v
  | o :: os, v =>
    let b := if o.src then y else o.const
    chainElem y os (rneF32 v.2 (chainStep o.op (decodeVal .f32 v.1) (decodeVal .f32 b)))

/-- Byte address and bytes of element i of a stream of type t. -/
def elemAt (t : ETy) (a i : Nat) : Nat × Nat :=
  if t.width = 4 then (a + i / 2, 1) else (a + i * (t.width / 8), t.width / 8)

/-- The code of element i in the bytes of elemAt. -/
def elemCode (t : ETy) (i x : Nat) : Nat :=
  if t.width = 4 then low 4 (x / 2 ^ (4 * (i % 2))) else x

/-- Bytes of a stream. -/
def streamBytes (t : ETy) (n : Nat) : Nat := (n * t.width + 7) / 8

/-- What a chain's loop carries: LFSR, flags, the taint of the last element, which a nibble of the same byte
shares, and the taint of the source bytes so far, which the flags take (R89). -/
structure ChainAcc where
  lf : Word
  fl : Fx
  last : Bool
  src : Bool
  deriving DecidableEq, Repr

/-- One element of a chain (R177). Y is read and rounded only where an operation uses it. -/
def chainIter (c : CoreId) (d : ChainDesc) (xa oa : Nat) (tn : Bool) (i : Nat) (s : State) (g : ChainAcc) :
    Except Trap (State × ChainAcc) :=
  let yuse := d.ops.any fun o => o.src
  let (ax, nx) := elemAt d.tx xa i
  match s.readLocal c ax nx with
  | .error t => .error t
  | .ok (bx, s) =>
    let (ay, ny) := elemAt d.ty d.yaddr i
    match (if yuse then s.readLocal c ay ny else .ok ([], s)) with
    | .error t => .error t
    | .ok (by', s) =>
      let x := rneF32 g.fl (decodeVal d.tx (elemCode d.tx i (valOf bx)), Fx.none)
      let y := if yuse then rneF32 Fx.none (decodeVal d.ty (elemCode d.ty i (valOf by')), Fx.none)
        else (0, Fx.none)
      let v := chainElem y.1 d.ops (x.1, x.2 ||| y.2)
      let ((code, f), lf) := convertElem .f32 d.tout d.rm d.sat g.lf v.1
      let te := tn || anyTaint bx || anyTaint by'
      let (ao, no) := elemAt d.tout oa i
      let old := s.peek (localBase c + ao) no
      let code' := if d.tout.width = 4 then
          if i % 2 = 0 then code + valOf old / 16 * 16 else valOf old % 16 + 16 * code
        else code
      let tb := if d.tout.width = 4 then
          if i % 2 = 0 then te || anyTaint old else te || g.last
        else te
      match s.partialLocal c ao (bytesOf no code' tb) with
      | .error t => .error t
      | .ok s => .ok (s, ⟨lf, v.2 ||| f, te, g.src || anyTaint bx || anyTaint by'⟩)

/-- The loop of R177 over the n elements from i; on a trap the elements before it stand. -/
def chainLoop (c : CoreId) (d : ChainDesc) (xa oa : Nat) (tn : Bool) :
    Nat → Nat → State → ChainAcc → State × ChainAcc × Option Trap
  | 0, _, s, g => (s, g, none)
  | n + 1, i, s, g =>
    match chainIter c d xa oa tn i s g with
    | .error t => (s, g, some t)
    | .ok (s, g) => chainLoop c d xa oa tn n (i + 1) s g

/-- The first trap of a list of conditions. -/
def firstTrap : List (Bool × Trap) → Option Trap
  | [] => none
  | (b, t) :: xs => if b then some t else firstTrap xs

/-- The checks 4 to 6 of R176 on the streams X at xa, output at oa and Y. DESIGN CHOICE (log entry 77): of several streams the
first of X, output and Y is reported, and a stream address above 0x8000 fails with a count of 0 too. -/
def ChainDesc.check (d : ChainDesc) (xa oa n : Nat) : Option Trap :=
  let sz (t : ETy) : Nat := if t.width = 4 then 1 else t.width / 8
  let past (t : ETy) (a : Nat) : Bool := 2 ^ 15 < a + streamBytes t n
  let four := d.tx.width == 4 || d.tout.width == 4 || (d.yen && d.ty.width == 4)
  firstTrap
    [(four && n % 2 == 1, illegal 2),
     (xa % sz d.tx != 0, alignTrap xa),
     (oa % sz d.tout != 0, alignTrap oa),
     (d.yen && d.yaddr % sz d.ty != 0, alignTrap d.yaddr),
     (past d.tx xa, illegal 1),
     (past d.tout oa, illegal 3),
     (d.yen && past d.ty d.yaddr, illegal 0)]

/-- A granted chain command (R174 to R177). -/
def State.chainRun (s : State) (c : CoreId) (e : VEntry) : VRes :=
  let desc := e.op.c
  let n := e.gb.toNat
  let xa := e.ga.toNat
  let oa := e.gd.toNat
  if desc % 8 ≠ 0 then .trap s (alignTrap desc)
  else if 2 ^ 15 < desc + 8 then .trap s (illegal 0)
  else match s.readLocal c desc 8 with
  | .error t => .trap s t
  | .ok (hb, s1) =>
    let nops := low 3 (valOf hb / 2 ^ 16) + 1
    if 2 ^ 15 < desc + 8 + 8 * nops then .trap s (illegal 0)
    else match s1.readLocal c (desc + 8) (8 * nops) with
    | .error t => .trap s t
    | .ok (ob, s2) =>
      let xs := (chunks 8 nops ob).map valOf
      match chainDesc (valOf hb) xs with
      | none => .trap s (illegal 0)
      | some d =>
        match d.check xa oa n with
        | some t => .trap s t
        | none =>
          let src := anyTaint hb || anyTaint ob || e.taintA || e.taintB || e.taintD || e.ct
          let tn := src || d.rm == .rs
          let (s3, g, t) := chainLoop c d xa oa tn n 0 s2 ⟨(s.core c).lfsr, Fx.none, false, src⟩
          match t with
          | some t => .trap s3 t
          | none => .done (s3.setLfsr c d.rm g.lf) [] g.fl g.src (max 16 (4 * n * nops))

/-! ### VACC (R306 to R308) -/

/-- The operands of a VACC instruction: its live lease's mesh and window, and the first row. -/
def State.vaccOperands (s : State) (c : CoreId) (e : VEntry) : Except Trap (MeshId × Nat × Nat) :=
  match s.liveWindow c e.ga with
  | none => .error (illegal 1)
  | some l =>
    let r := e.gb.toNat
    let bad := match e.op.kind with
      | .aclr => 255 < r || 256 < r + e.op.c
      | _ => 254 < r || r % 2 == 1
    if bad then .error (illegal 2) else .ok (l.mesh, l.win, r)

/-- Whether a queued vector instruction may trap at its grant (R149). -/
def VKind.mayTrap : VKind → Bool
  | .gather | .scatter | .chain | .rdac _ | .wrac | .aclr | .ldv | .stv | .ldvy | .stvy | .gldv | .gstv | .gldt
  | .gstt => true
  | _ => false

/-- Whether the operands of a queued VACC instruction are good as they stand: its wait (R307) may end only with a
later outward instruction of its core, so nothing waits behind it (log entry 18). -/
def State.vaccGood (s : State) (c : CoreId) (e : VEntry) : Bool :=
  match e.op.kind, s.vaccOperands c e with
  | .rdac _, .ok _ | .wrac, .ok _ | .aclr, .ok _ => true
  | _, _ => false

/-- The elements of n rows of a window from row r. -/
def Mesh.rows (m : Mesh) (win r n : Nat) : List WinElem :=
  Tab.getN WinElem.zero m.wins (winKey win r 0) (64 * n)

/-- Write elements of a window from row r. -/
def Mesh.setRows (m : Mesh) (win r : Nat) (xs : List WinElem) : Mesh :=
  { m with wins := Tab.putN WinElem.zero m.wins (winKey win r 0) xs }

/-- A granted VACC instruction: vrdac, vwrac or aclr. -/
def State.vaccRun (s : State) (c : CoreId) (e : VEntry) (tn : Bool) : VRes :=
  match s.vaccOperands c e with
  | .error t => .trap s t
  | .ok (m, win, r) =>
    let bytes := e.op.shape.bytes
    let wt := e.taintB || e.ct
    match e.op.kind with
    | .rdac _ =>
      let xs := (s.mesh m).rows win r 2
      let v := packV 32 (xs.map fun x => if x.poison then 0x7FC00000 else x.val.toNat)
      let f := if xs.any (·.poison) then Fx.nv else Fx.none
      .done s [.v e.op.d v true] f true bytes
    | .wrac =>
      let k := s.core c
      let v := k.vin e.op.a
      let old := (s.mesh m).rows win r 2
      let xs := ((unpackV 32 v.1).zip old).map fun (x : Nat × WinElem) =>
        (⟨BitVec.ofNat 32 x.1, wt || v.2, x.2.poison⟩ : WinElem)
      .done ((s.modMesh m fun y => y.setRows win r xs).nonReplay c) [] Fx.none tn bytes
    | _ =>
      let xs := List.replicate (64 * e.op.c) (⟨0, wt, false⟩ : WinElem)
      .done ((s.modMesh m fun y => y.setRows win r xs).nonReplay c) [] Fx.none tn bytes

/-! ### Global memory (R314 to R316) -/

/-- Whether a kind is a vector instruction of GMEM. -/
def VKind.isGmem : VKind → Bool
  | .gldv | .gstv | .gldt | .gstt => true
  | _ => false

/-- Whether one of them stores. -/
def VKind.gstore : VKind → Bool
  | .gstv | .gstt => true
  | _ => false

/-- Whether an entry reaches HBM: every global access but the yard forms. -/
def VOp.onHbm (o : VOp) : Bool :=
  match o.kind with
  | .gldv | .gstv => o.c == 0
  | .gldt | .gstt => true
  | _ => false

/-- The cluster of a yard form. -/
def VOp.yardOf (o : VOp) (c : CoreId) : ClusterId := ⟨c.die, BitVec.ofNat 10 (o.c - 1)⟩

/-- Whether an entry touches a 64-byte line of the n HBM bytes at va. -/
def VOp.touchesHbm (o : VOp) (va n : Nat) : Bool :=
  o.onHbm && o.addr / 64 ≤ (va + n - 1) / 64 && va / 64 ≤ (o.addr + o.shape.bytes - 1) / 64

/-- Whether a queued or unfinished vector access of core k, or a reduction or atomic on its way, touches a line
of the n HBM bytes at va: accesses of one agent to one location keep their order (R341, R342). -/
def Core.hbmWaits (k : Core) (va n : Nat) : Bool :=
  (k.vq.any fun e => e.op.touchesHbm va n) || (k.inflight.any fun i => i.ent.op.touchesHbm va n)
    || k.atomics.any fun o => va / 64 ≤ o.va / 64 && o.va / 64 ≤ (va + n - 1) / 64

/-- Read a yard of the die as a ramp core's yard form does (R315). -/
def State.readYardOf (s : State) (c : CoreId) (k : ClusterId) (a n : Nat) : Except Trap (TBytes × State) :=
  match s.bad (yardBase k + a) n with
  | some b => .error (yardBad k b)
  | none => .ok (s.readT c (yardBase k + a) n 0)

/-- The registers that a global load of bytes bs fills: V[VD], and for a chunk V[VD + 1], whose bytes 64 to 511
are zeroed (R316). -/
def gmemWrites (o : VOp) (bs : TBytes) (t : Bool) : List VWrite :=
  let v (xs : TBytes) : VWord := BitVec.ofNat 4096 (valOf xs)
  let first : VWrite := .v o.d (v (bs.take 512)) t
  if o.shape.vd = 2 then [first, .v (o.d + 1) (v (bs.drop 512)) t] else [first]

/-- A granted global load (R315, R316, R335, R445). -/
def State.gmemLoad (s : State) (c : CoreId) (e : VEntry) (tn : Bool) : VRes :=
  let o := e.op
  let n := o.shape.bytes
  let give (s : State) (bs : TBytes) : VRes :=
    let t := tn || anyTaint bs
    .done s (gmemWrites o bs t) Fx.none t n
  if !o.onHbm then
    match s.readYardOf c (o.yardOf c) o.addr n with
    | .error t => .trap s t
    | .ok (bs, s) => give s bs
  else
    let l := s.launchIx c
    match hbmReadParts (fun s va n => s.l1ReadPart l c va n) s (lineParts o.addr n) with
    | .ok bs s => give s bs
    | .bad va s => .trap s (hbmBad va)
    | .fault f va => .hold (s.newFault (.core c) l va f 0 true).1

/-- The aligned 8-byte words of a vector store, each a write of its own (R207, R341). -/
def storeWords (w : Nat → TBytes → VWrite) (a : Nat) (bs : TBytes) : List VWrite :=
  (List.range (bs.length / 8)).map fun i => w (a + 8 * i) ((bs.drop (8 * i)).take 8)

/-- A granted global store: its words are written when it completes (R315, R316, R341). -/
def State.gmemStore (s : State) (c : CoreId) (e : VEntry) (tn : Bool) : VRes :=
  let o := e.op
  let k := s.core c
  let v := k.vin o.a
  let w := k.vin (o.a + 1)
  let n := o.shape.bytes
  let bs := vbytes v.1 (v.2 || e.ct) ++ (vbytes w.1 (w.2 || e.ct)).take (n - 512)
  .done s (storeWords (if o.onHbm then .hbm else .yard (o.yardOf c)) o.addr bs) Fx.none tn n

/-! ### A granted entry -/

/-- Whether a write goes to memory. -/
def VWrite.isStore : VWrite → Bool
  | .loc _ _ | .yard _ _ _ | .hbm _ _ => true
  | _ => false

/-- The memory effect of one write of a completing vector store (R207); pc is its unit's. -/
def State.storeWrite (s : State) (c : CoreId) (pc : Word) : VWrite → State
  | .loc a bs => s.writeLocal c c a bs
  | .yard k a bs => s.writeYard c k a bs
  | .hbm va bs => s.rampStore c pc [(va, bs.length)] bs
  | _ => s

/-- Join the words that follow one another in a line of HBM, so that a line that faults makes one side-log entry
(R336). -/
def joinWrites : List VWrite → List VWrite
  | [] => []
  | w :: ws =>
    match w, joinWrites ws with
    | .hbm a bs, .hbm b cs :: rest =>
      if a + bs.length = b && a / 64 = b / 64 then .hbm a (bs ++ cs) :: rest else w :: .hbm b cs :: rest
    | w, ws => w :: ws

/-- Perform the memory writes that a granted instruction has not made yet, for the task that issued it (R207, R352). -/
def State.performStores (s : State) (c : CoreId) (i : InFlight) : State :=
  s.forTask c i.ent.ring fun s =>
    (joinWrites (i.writes.filter VWrite.isStore)).foldl (fun s w => s.storeWrite c i.ent.pc w) s

/-- Whether two ranges of bytes touch a common 64-byte line. -/
def sameLine (a n b m : Nat) : Bool :=
  a / 64 ≤ (b + m - 1) / 64 && b / 64 ≤ (a + n - 1) / 64

/-- The memory that a vector instruction reaches: its space (0 local, 1 the core's yard, 2 HBM, 3 and up the yard of a
cluster), where it begins, and its bytes; gathers, scatters and chains may reach any local line. -/
def VOp.range (o : VOp) : Option (Nat × Nat × Nat) :=
  match o.kind with
  | .ldv | .stv => some (0, o.addr, 512)
  | .gather | .scatter | .chain => some (0, 0, 2 ^ 15)
  | .ldvy | .stvy => some (1, o.addr, 512)
  | .gldv | .gstv | .gldt | .gstt => some (if o.onHbm then 2 else 2 + o.c, o.addr, o.shape.bytes)
  | _ => none

/-- Whether two vector instructions of a core may touch a common line (R145, R180). -/
def VOp.meets (o p : VOp) : Bool :=
  match o.range, p.range with
  | some x, some y => x.1 == y.1 && sameLine x.2.1 x.2.2 y.2.1 y.2.2
  | _, _ => false

/-- Whether an access must wait for an earlier vector store of the core to one of its lines, granted and not yet
performed: the two appear in program order, and the store is performed no sooner than its cycle (R145, R180, R207).
DEDUCED (log entry 71). -/
def Core.storeAhead (k : Core) (o : VOp) : Bool :=
  k.inflight.any fun i => i.writes.any VWrite.isStore && i.ent.op.meets o

/-- A granted access fixes what the core's earlier loads of its lines have read (R145, R341). -/
def Core.fixLoads (k : Core) (o : VOp) : Core :=
  { k with inflight := k.inflight.map fun i => if i.ent.op.meets o then { i with fixed := true } else i }

/-- The effect of a granted entry of core c, all sources read as they stand (R156). The state passed on has
the memory effects made at the grant; its register writes, and the writes of stv, stvy and the global stores (R207),
are made when it completes. -/
def State.vecGranted (s : State) (c : CoreId) (e : VEntry) : VRes :=
  let k := s.core c
  let o := e.op
  let tn := k.entryTaint e
  let w := o.t.width
  let n := 4096 / w
  let ms := maskBits (k.mreg o.m).val n
  let bytes := o.shape.bytes
  match o.kind with
  | .gather =>
    let xs := (k.codesSeq 16 o.a (indexRegs o.t)).take n
    match gatherTrap (w / 8) 1 ms xs with
    | some t => .trap s t
    | none => match gatherRead c (w / 8) s ms xs (k.codes w o.d 1) with
      | .error t => .trap s t
      | .ok (ys, tb, s) => .done s (groupWrites o.d 1 w ys (tn || tb)) Fx.none (tn || tb) bytes
  | .scatter =>
    let xs := (k.codesSeq 16 o.b (indexRegs o.t)).take n
    match gatherTrap (w / 8) 2 ms xs with
    | some t => .trap s t
    | none => match scatterWrite c (w / 8) tn s ms xs (k.codes w o.a 1) with
      | (s, some t) => .trap s t
      | (s, none) => .done s [] Fx.none tn bytes
  | .chain => s.chainRun c e
  | .rdac _ | .wrac | .aclr => s.vaccRun c e tn
  | .ldv => match s.readLocal c o.addr 512 with
    | .error t => .trap s t
    | .ok (bs, s) =>
      let tb := tn || anyTaint bs
      .done s [.v o.d (BitVec.ofNat 4096 (valOf bs)) tb] Fx.none tb bytes
  | .ldvy => match s.readYard c o.addr 512 with
    | .error t => .trap s t
    | .ok (bs, s) =>
      let tb := tn || anyTaint bs
      .done s [.v o.d (BitVec.ofNat 4096 (valOf bs)) tb] Fx.none tb bytes
  | .stv =>
    let v := k.vin o.a
    .done s (storeWords .loc o.addr (vbytes v.1 (v.2 || e.ct))) Fx.none tn bytes
  | .stvy =>
    let v := k.vin o.a
    .done s (storeWords (.yard c.cluster) o.addr (vbytes v.1 (v.2 || e.ct))) Fx.none tn bytes
  | .gldv | .gldt => s.gmemLoad c e tn
  | .gstv | .gstt => s.gmemStore c e tn
  | _ =>
    let (ws, f, lf) := k.vecRun e tn
    .done (s.setLfsr c o.rm lf) ws f (k.sourceTaint e) bytes

end Sys2Proof.Machine
end

