-- ==== Sys2Proof/Machine/VectorUnit.lean ====
section
/-! DEFINITION. The vector unit: pushing an entry (R136, R153), eligibility and ranking (R137, R139 to R141),
and the events VECTOR_GRANT, VECTOR_COMPLETE, HEAD_AGED and VECTOR_TRAP_DELIVERY (R138, R149, R156). -/

namespace Sys2Proof.Machine

/-! ### Pushing -/

/-- The trap of a register group (R152, R153, R135): misaligned, bound while it spans several registers, a
read of a bound output port, or a write of a bound input port. -/
def Core.groupTrap (k : Core) (first cnt pos : Nat) (dest : Bool) : Option Trap :=
  let bound := (List.range cnt).any fun i => (k.portOf (first + i)).isSome
  if first % cnt ≠ 0 || (1 < cnt && bound) then some (illegal pos)
  else if cnt = 1 && (if dest then k.boundIn first else k.boundOut first) then some (illegal pos)
  else none

/-- The ILLEGAL_OPERAND of a field other than a register (R81, R170, R306). -/
def VOp.fieldTrap (o : VOp) : Option Trap :=
  match o.kind with
  | .cvt _ | .pack => if o.rm = .rto && (o.t == .two8 || o.t == .x8) then some (illegal 0) else none
  | .red f =>
    let n := 4096 / o.t.width
    let g := if o.c = 0 then n else 2 ^ o.c
    if 4096 / (redType f o.t).width < n / g then some (illegal 0) else none
  | .aclr => if o.c = 0 || 256 < o.c then some (illegal 0) else none
  | _ => none

/-- The trap of a vector instruction's operands, known at its push (R153): of several illegal ones the first of the field, VA,
VB and VD (DESIGN CHOICE, log entry 77). -/
def Core.vopTrap (k : Core) (o : VOp) : Option Trap :=
  let srcs := o.vsrcs.filterMap fun x => k.groupTrap x.1 x.2.1 x.2.2 false
  let dst := if o.shape.vd = 0 then none else k.groupTrap o.d o.shape.vd 3 true
  (o.fieldTrap).or (srcs.head?.or dst)

/-- The value of an optional g operand. -/
def Core.optVal (k : Core) : Option Src → DWord
  | some (.g n _) => k.gv n
  | some (.h n _) => (k.hreg n).val
  | none => 0
/-- The taint of an optional g operand. -/
def Core.optTaint (k : Core) : Option Src → Bool
  | some x => k.srcTaint x
  | none => false

/-- The next sequence number of the chain of a live lease (R307). -/
def State.leaseNext (s : State) (c : CoreId) (w : DWord) : Nat :=
  match s.liveWindow c w with
  | some l => (Tab.get Chain.start (s.cluster c.cluster).chains l.chain.toNat).next
  | none => 0

/-- Whether an instruction is a VACC instruction. -/
def VKind.isVacc : VKind → Bool
  | .rdac _ | .wrac | .aclr => true
  | _ => false

/-- The queue head of a core takes its VACC cut (R307). -/
def State.takeCut (s : State) (c : CoreId) : State :=
  match (s.core c).vq with
  | e :: es =>
    if e.op.kind.isVacc && e.cut.isNone then
      s.modCore c fun k => { k with vq := { e with cut := some (s.leaseNext c e.ga) } :: es }
    else s
  | [] => s

/-- Push an entry: the queue has eight places (R136). -/
def State.pushEntry (s : State) (o : VOp) (a b d : Option Src) : Res :=
  let k := s.me
  if 8 ≤ k.vq.length then .wait
  else
    let e : VEntry :=
      { op := o, pc := k.pc, w0 := k.uw0, w1 := k.uw1, ga := k.optVal a, gb := k.optVal b,
        gd := k.optVal d, taintA := k.optTaint a, taintB := k.optTaint b, taintD := k.optTaint d,
        ct := k.ct, cut := none, since := none, aged := false, snap := k.toRegs, undo := [],
        stores := 0, taken := [], num := k.accesses, ring := s.ringLoad s.cur }
    .done ((s.setMe { k with vq := k.vq ++ [e], accesses := k.accesses + 1 }).takeCut s.cur)

/-- The body of a vector instruction: its operand checks, then its g operands, then the push. -/
def vpushBody (o : VOp) (a b d : Option Src) (s : State) : Res :=
  match s.me.vopTrap o with
  | some t => .trap t
  | none => s.me.need ([a, b, d].filterMap id) (s.pushEntry o a b d)

/-- The meaning of a one-word vector instruction. -/
def vpush1 (q : Seq) (o : VOp) (b : Option Src) (s : State) : Out :=
  unit (len1 q) q (vpushBody o none b none) s

/-! ### Eligibility (R137) -/

/-- Results on their way into a port. -/
def Core.inflightTo (k : Core) (n : Nat) : Nat :=
  (k.inflight.flatMap fun i => i.writes.filter fun w => match w with
    | .v m _ _ => m == n
    | _ => false).length

/-- Whether a source register is full, a stream-bound one included. -/
def Core.vfull (k : Core) (n : Nat) : Bool :=
  match k.portOf n with
  | some p => if p.isIn then !p.buf.isEmpty else (k.vreg (BitVec.ofNat 4 n)).fill == .full
  | none => (k.vreg (BitVec.ofNat 4 n)).fill == .full

/-- Whether a destination register may be written: no producer outstanding, or room in the port. -/
def Core.vroom (k : Core) (n : Nat) : Bool :=
  match k.portOf n with
  | some p => if p.isIn then true else p.buf.length + k.inflightTo n < 2
  | none => (k.vreg (BitVec.ofNat 4 n)).fill != .pending

/-- Whether every entry into a lease's window numbered below the cut has completed (R307). -/
def State.cutDone (s : State) (c : CoreId) (e : VEntry) : Bool :=
  match s.liveWindow c e.ga with
  | none => true
  | some l =>
    let ch := Tab.get Chain.start (s.cluster c.cluster).chains l.chain.toNat
    let below (x : ChainEntry) : Bool :=
      x.seq < e.cut.getD ch.next && x.mesh == l.mesh && x.win.toNat == l.win && !x.finished
    !(ch.ents.any below)

/-- Whether a global access of the queue head must wait: for its own translation fault's answer, for an earlier
reduction or a side-log entry on one of its lines, or for room in the side log (R335, R336). -/
def State.gmemWaits (s : State) (c : CoreId) (o : VOp) : Bool :=
  let k := s.core c
  let n := o.shape.bytes
  (s.xfaults.any fun f => f.ag == .core c && f.vec) || sideHit k.sideLog o.addr n
    || (k.atomics.any fun x => o.touchesHbm x.va 1) || (o.kind.gstore && s.storeWaits c o.addr n)

/-- Whether a core's queue head is eligible (R137, R180, R307, R336); after a store of its core to the same line it waits
until that is performed (R145, log entry 71). -/
def State.eligible (s : State) (c : CoreId) (e : VEntry) : Bool :=
  let k := s.core c
  let o := e.op
  let srcs := o.vsrcs.all fun x => (List.range x.2.1).all fun i => k.vfull (x.1 + i)
  let masks := o.msrcs.all fun n => (k.mreg (BitVec.ofNat 2 n)).fill == .full
  let dst := o.vdests.all k.vroom
  let mdst := !o.shape.md || (k.mreg (BitVec.ofNat 2 o.d)).fill != .pending
  let gdst := match o.gdest with
    | some n => (k.greg (BitVec.ofNat 5 n)).fill != .pending
    | none => true
  let extra := match o.kind with
    | .rdac false | .wrac | .aclr => s.cutDone c e
    | .ldvy | .stvy => !(k.ystores.any fun y => sameLine y.addr 8 o.addr 512)
    | .gldv | .gldt | .gstv | .gstt => !o.onHbm || !s.gmemWaits c o
    | _ => true
  srcs && masks && dst && mdst && gdst && extra && !k.storeAhead o

/-- A head that is eligible starts its waiting count; one that has waited AGE cycles, by the AGE now in force, is
aged (R139, R206). -/
def State.ageHead (s : State) (c : CoreId) : State :=
  match (s.core c).vq with
  | e :: es =>
    if s.eligible c e then
      let t := e.since.getD s.clock
      let age := (s.svu c.unit).age.toNat
      let e := { e with since := some t, aged := age != 0 && decide (t + age ≤ s.clock) }
      s.modCore c fun k => { k with vq := e :: es }
    else s
  | [] => s

/-- The waiting count of every head that is eligible and has none starts in this cycle (R139, R206). -/
def State.markHeads (s : State) : State :=
  (s.cores.map Prod.fst).foldl (fun s n =>
    let c := coreOfNum n
    match (s.core c).vq with
    | e :: _ => if e.since.isNone then s.ageHead c else s
    | [] => s) s

/-! ### Ranking (R139, R140, R141) -/

/-- What a head is ranked by. -/
structure Rank where
  core : CoreId
  yielded : Bool
  aged : Bool
  since : Nat
  role : Nat
  service : Nat
  weight : Nat
  slot : Nat
  deriving DecidableEq, Repr

/-- Whether x ranks above y under role priority. -/
def Rank.above (x y : Rank) : Bool :=
  if x.yielded != y.yielded then y.yielded
  else if x.aged != y.aged then x.aged
  else if x.aged && x.since != y.since then x.since < y.since
  else if x.role != y.role then y.role < x.role
  else if x.service * y.weight != y.service * x.weight then
    x.service * y.weight < y.service * x.weight
  else x.slot < y.slot

/-- Insert in order. -/
def insertRank (f : Rank → Rank → Bool) (x : Rank) : List Rank → List Rank
  | [] => [x]
  | y :: ys => if f x y then x :: y :: ys else y :: insertRank f x ys

/-- The eligible heads of a unit, in rank order. -/
def State.ranked (s : State) (u : SvuId) : List Rank :=
  let v := s.svu u
  let start := match v.lastSlot with
    | some n => n + 1
    | none => 0
  let heads := u.cores.filterMap fun c =>
    let k := s.core c
    match k.vq with
    | e :: _ =>
      if s.eligible c e then
        some { core := c, yielded := k.yielded, aged := e.aged, since := e.since.getD s.clock,
               role := k.role.toNat, service := k.service.toNat, weight := k.weight.toNat,
               slot := c.slot : Rank }
      else none
    | [] => none
  if v.rr then heads.foldr (insertRank fun x y => (x.slot + 8 - start) % 8 < (y.slot + 8 - start) % 8) []
  else heads.foldr (insertRank Rank.above) []

/-- Lane groups in use; a global access holds its own until it completes (R315). -/
def State.lanesUsed (s : State) (u : SvuId) : Nat :=
  (u.cores.flatMap fun c => (s.core c).inflight.filterMap fun i =>
    if s.clock < i.freeAt || i.ent.op.kind.isGmem then some i.lanes else none).sum

/-! ### Granting -/

/-- The input ports an entry pops: each bound register it reads, once (R135). -/
def Core.pops (k : Core) (o : VOp) : List Nat :=
  ((o.vsrcs.flatMap fun x => (List.range x.2.1).map fun i => x.1 + i).filter k.boundIn).eraseDups

/-- A yard write by a stream port of core c, an access of that core's (R233, R338, R352; log entry 21). -/
def State.portWrite (s : State) (c : CoreId) (a : Nat) (bs : TBytes) : State :=
  (s.shadowYard c.cluster a bs.length).writeT c portOp (yardBase c.cluster + a) 0 bs

/-- A yard read by a stream port of core c, tracked as an access of that core's (R338, R353, R354; log entry 21). -/
def State.portRead (s : State) (c : CoreId) (a n : Nat) : TBytes × State :=
  let (x, s') := s.track c portOp (yardBase c.cluster + a) n 0
  (addTaint x (s.peek (yardBase c.cluster + a) n), s')

/-- A yard dword as a stream port reads it. -/
def State.portCount (s : State) (k : ClusterId) (a : Nat) : Nat := valOf (s.peek (yardBase k + a) 8)

/-- Pop one element of a bound input port; a yard port then increments RCOUNT (R135, R202). -/
def State.popPort (s : State) (c : CoreId) (n : Nat) : State :=
  match (s.core c).portOf n with
  | none => s
  | some p =>
    let x := p.buf.headD (p.last, p.lastTaint)
    let p' := { p with buf := p.buf.tail, last := x.1, lastTaint := x.2 }
    let s := s.modCore c fun k => k.mapRegs fun r => { r with ports := Tab.put none r.ports (n - 12) (some p') }
    if p.kind = .yin then
      let (cnt, s) := s.portRead c (p.ctl + 8) 8
      s.portWrite c (p.ctl + 8) (bytesOf 8 (valOf cnt + 1) (anyTaint cnt))
    else s

/-- Mark the destinations of an entry empty (R156); a bound output register stays as it is. -/
def Regs.pendDests (o : VOp) (r : Regs) : Regs :=
  let bound (n : Nat) : Bool := 12 ≤ n && (Tab.get none r.ports (n - 12)).isSome
  let v := (o.vdests.filter fun n => !bound n).foldl
    (fun t n => Tab.put (Reg.zero 4096) t n { Tab.get (Reg.zero 4096) t n with fill := .pending }) r.v
  let m := if o.shape.md && o.d != 0 then
      Tab.put (Reg.zero 1024) r.m o.d { Tab.get (Reg.zero 1024) r.m o.d with fill := .pending }
    else r.m
  { r with v := v, m := m }

/-- The checkers of R148 that a vector instruction of core c meets: a lane group, or its slot's register files. -/
def vectorChecker (c : CoreId) (id : BitVec 16) : Bool :=
  (0x1000 ≤ id.toNat && id.toNat < 0x1004) || id.toNat == 0x1100 + c.slot

/-- Whether a vector instruction uses a lane group's adders and multipliers (R148): those that add, multiply, compare or
compute, not the ones that move, permute, combine bits, load or store. DESIGN CHOICE (log entry 72): R148 names the
checked units and not the instructions that use them. -/
def VKind.usesLanes : VKind → Bool
  | .int f _ | .vs f _ => !(f == .and || f == .or || f == .xor || f == .andn || f == .shl || f == .shr)
  | .intW _ | .intCmp _ | .flt _ | .fltW _ | .fmul2 | .fltCmp _ | .cvt _ | .pack | .unpack | .red _ | .approx _ | .refine _
  | .fn _ | .chain => true
  | .splat | .slide _ _ | .get | .mov | .merge | .perm | .compress | .expand | .gather | .scatter | .zip | .unzip | .rev
  | .mask _ | .mfirst | .iota | .popc | .mtov | .vtom | .any | .all | .rdac _ | .wrac | .aclr | .ldv | .stv | .ldvy | .stvy
  | .gldv | .gstv | .gldt | .gstt => false

/-- Whether a vector instruction uses a checker of its core (R148; log entry 72): a lane group's, or its slot's vector and
mask registers, which a chain and aclr do not reach. -/
def VKind.usesChecker (v : VKind) (id : BitVec 16) : Bool :=
  if id.toNat < 0x1100 then v.usesLanes else !(v == .chain || v == .aclr)

/-- The checker's mismatch that awaits a vector instruction of core c of some kind, if any (R148): of a lane group that
it uses, or of the register files of the core's slot. -/
def State.vectorCheck (s : State) (c : CoreId) (v : VKind) : Option Trap :=
  match s.checkFail with
  | some (d, id) => if d = c && vectorChecker c id && v.usesChecker id then some ⟨.pipeCheck, id.zeroExtend 64⟩ else none
  | none => none

/-- A trap of core c's queue head: it and the later entries leave the queue, and the trap waits for the core's
next unit boundary (R149). -/
def State.vectorTrap (s : State) (c : CoreId) (e : VEntry) (t : Trap) : State :=
  s.modCore c fun k => { k with vq := [], pendingTrap := some (t, (k.vq.head?).getD e) }

/-- Saturating add for SERVICE (R139). -/
def addService (x : Word) (n : Nat) : Word := BitVec.ofNat 32 (min (x.toNat + n) (2 ^ 32 - 1))

/-- Grant core c's head with k lane groups (R137, R138, R156). -/
def State.grantHead (s : State) (c : CoreId) (k : Nat) : State :=
  match (s.core c).vq with
  | [] => s
  | e :: _ =>
    match s.vectorCheck c e.op.kind with
    | some t => ({ s with checkFail := none } : State).vectorTrap c e t
    | none =>
      let own := s.ringLoad c
      match (s.setRing c e.ring).vecGranted c e with
      | .trap s t => (s.setRing c own).vectorTrap c e t
      | .hold s => s.setRing c own
      | .done s ws f tn bytes =>
        let s := s.setRing c own
        let hold := (bytes + 16 * k - 1) / (16 * k)
        let i : InFlight := { ent := e, lanes := k, freeAt := s.clock + hold,
                              due := s.clock + hold + e.op.shape.lat - 1, writes := ws, flags := f,
                              flagTaint := tn, fixed := false }
        let s := ((s.core c).pops e.op).foldl (fun s n => s.popPort c n) s
        let s := s.modCore c fun x =>
          let x := ({ x with vq := x.vq.tail } : Core).fixLoads e.op
          let x := x.mapRegs fun r => r.pendDests e.op
          { x with inflight := x.inflight ++ [i], service := addService x.service (k * hold) }
        (s.modSvu c.unit fun v => { v with lastSlot := some c.slot }).takeCut c

/-- Grant the ranked heads in turn while a lane group is free (R137). -/
def grantAll : List Rank → Nat → State → State
  | [], _, s => s
  | x :: xs, free, s =>
    if free = 0 then s
    else match (s.core x.core).vq with
      | [] => grantAll xs free s
      | e :: _ =>
        let want := if x.core.isRamp then 4 else (s.core x.core).maxlg.toNat
        let k := min free (if e.op.shape.oneLg then 1 else want)
        let s' := s.grantHead x.core k
        -- a head that trapped or is held has no lane group
        let used := if (s'.core x.core).inflight.length = (s.core x.core).inflight.length then 0 else k
        grantAll xs (free - used) s'

/-- VECTOR_GRANT (R137, R139 to R141): one arbitration of a unit. -/
def execVectorGrant (u : SvuId) (s : State) : Out :=
  let s := u.cores.foldl (fun s c => s.ageHead c) s
  let rs := s.ranked u
  let free := 4 - s.lanesUsed u
  if rs.isEmpty || free = 0 then .next s
  else
    let s := grantAll rs free s
    .next (rs.foldl (fun s x => s.modCore x.core fun k => { k with yielded := false }) s)

/-- HEAD_AGED (R139). -/
def execHeadAged (c : CoreId) (s : State) : Out := .next (s.ageHead c)

/-! ### Completing -/

/-- One write of a completing instruction: a bound output register pushes into its port (R135), every other
destination becomes full (R138). -/
def Regs.vwrite (r : Regs) : VWrite → Regs
  | .v n x t =>
    match (if 12 ≤ n then Tab.get none r.ports (n - 12) else none) with
    | some p =>
      let p := { p with buf := p.buf ++ [(x, t)], last := x, lastTaint := t }
      { r with ports := Tab.put none r.ports (n - 12) (some p) }
    | none => { r with v := Tab.put (Reg.zero 4096) r.v n ⟨x, .full, t⟩ }
  | .m n x t => if n = 0 then r else { r with m := Tab.put (Reg.zero 1024) r.m n ⟨x, .full, t⟩ }
  | .g n x t => if n = 0 then r else { r with g := Tab.put (Reg.zero 64) r.g n ⟨x, .full, t⟩ }
  | .p n x t => if n = 7 then r else { r with p := Tab.put TReg.no r.p n ⟨x, t⟩ }
  | .loc _ _ | .yard _ _ _ | .hbm _ _ => r

/-- Everything a completing instruction leaves in the registers, its flags included (R89). -/
def Regs.vcomplete (r : Regs) (i : InFlight) : Regs :=
  let r := i.writes.foldl Regs.vwrite r
  { r with fx := r.fx ||| i.flags,
           fxTaint := if i.flagTaint then r.fxTaint ||| i.flags else r.fxTaint }

/-- Whether a completing global store must wait for an entry of the side log on its lines, or for room there (R336). -/
def State.storeHeldUp (s : State) (c : CoreId) (i : InFlight) : Bool :=
  i.ent.op.onHbm && i.ent.op.kind.gstore && s.storeWaits c i.ent.op.addr i.ent.op.shape.bytes

/-- VECTOR_COMPLETE (R138, R207): the n-th granted instruction of core c performs its store and fills its destinations;
a head that this makes eligible starts its count (R206). -/
def execVectorComplete (c : CoreId) (n : Nat) (s : State) : Out :=
  match (s.core c).inflight[n]? with
  | none => .next s
  | some i =>
    if s.clock < i.due || s.storeHeldUp c i then .next s
    else .next (((s.performStores c i).modCore c fun k =>
      ({ k with inflight := k.inflight.eraseIdx n } : Core).mapRegs fun r => r.vcomplete i).ageHead c)

/-- One word of a granted vector store that has reached its cycle is performed ahead of the others: 512 bytes are not
atomic as a whole (R341). -/
def State.storePart (s : State) (c : CoreId) (n j : Nat) : State :=
  match (s.core c).inflight[n]? with
  | none => s
  | some i =>
    if s.clock < i.due || s.storeHeldUp c i then s
    else match i.writes[j]? with
      | some w =>
        let faults : Bool := match w with
          | .hbm va _ => s.faultsAt c va
          | _ => false
        if w.isStore && !faults then
          (s.forTask c i.ent.ring fun s => s.storeWrite c i.ent.pc w).modCore c fun k =>
            { k with inflight := k.inflight.modify n fun i => { i with writes := i.writes.eraseIdx j } }
        else s
      | none => s

/-- Read the j-th word of a vector load once more, where the load may (R341). -/
def State.readAgain (s : State) (c : CoreId) (o : VOp) (j : Nat) : Option (TBytes × State) :=
  let a := o.addr + 8 * j
  let found (r : Except Trap (TBytes × State)) : Option (TBytes × State) :=
    match r with
    | .ok x => some x
    | .error _ => none
  if o.shape.bytes ≤ 8 * j then none
  else match o.kind with
    | .ldv => found (s.readLocal c a 8)
    | .ldvy => found (s.readYard c a 8)
    | .gldv | .gldt =>
      if !o.onHbm then found (s.readYardOf c (o.yardOf c) a 8)
      else match s.l1ReadPart (s.launchIx c) c a 8 with
        | .ok bs s => some (bs, s)
        | _ => none
    | _ => none

/-- Put a word that was read once more into the write of a vector load that holds it. -/
def VWrite.setWord (j : Nat) (bs : TBytes) : VWrite × Nat → VWrite
  | (.v d x t, i) =>
    if i = j / 64 then
      let a := 8 * (j % 64)
      let ys := (bytesOfNat 512 x.toNat).take a ++ bs.map Prod.fst ++ (bytesOfNat 512 x.toNat).drop (a + 8)
      .v d (BitVec.ofNat 4096 (natOfBytes ys)) (t || anyTaint bs)
    else .v d x (t || anyTaint bs)
  | (w, _) => w

/-- One word of a granted vector load is read once more before it completes: 512 bytes are not read at one moment
(R341). Once a later access of the core to its lines has been granted, what it has read stands, so that the core's accesses
keep their order (R145, R342). -/
def State.loadPart (s : State) (c : CoreId) (n j : Nat) : State :=
  match (s.core c).inflight[n]? with
  | none => s
  | some i =>
    if i.fixed then s
    else match s.readAgain c i.ent.op j with
      | none => s
      | some (bs, s) => s.modCore c fun k =>
        { k with inflight := k.inflight.modify n fun i =>
            { i with writes := i.writes.zipIdx.map (VWrite.setWord j bs) } }

/-! ### A late trap -/

/-- Put a local word back as it stood, its error bits with it (R129, R149). -/
def State.putWord (s : State) (c : CoreId) (u : UndoWord) : State :=
  let a := localBase c + u.addr
  let s := s.poke a u.bytes
  { s with poison := Tab.put false s.poison a u.poison, uncorr := Tab.put false s.uncorr a u.uncorr }

/-- Put local words back as they stood, newest change first. -/
def State.undoLocal (s : State) (c : CoreId) (us : List UndoWord) : State :=
  us.foldl (fun s u => s.putWord c u) s

/-- VECTOR_TRAP_DELIVERY (R149): the core's registers, local memory, unperformed yard stores and station
queue are left as if the trapping unit had been the last one executed, and the trap is taken; a core inside a unit whose
effect has begun to leave it ends the unit first (R32). A core already parked
by another trap takes it once it leaves its parked state (DESIGN CHOICE, log entry 18), and a created task that goes
back may make a third one wait (DESIGN CHOICE, log entry 18). -/
def execVectorTrapDelivery (c : CoreId) (s : State) : Out :=
  let k := s.core c
  match k.pendingTrap with
  | none => .next s
  | some (t, e) =>
    if k.park.isSome || k.midUnit then .next s
    else
      let s := s.undoLocal c e.undo
      let s := if c.isRamp then s else s.modCluster c.cluster fun x =>
        { x with ring := { x.ring with startedTasks := x.ring.startedTasks.filter (· ≠ c) } }
      let s := s.modCore c fun k =>
        { k with toRegs := e.snap, stationQ := e.taken ++ k.stationQ,
                 ystores := k.ystores.take (k.ystores.length - e.stores) }
      .next (s.trapAt c e.pc e.w0 e.w1 t)

end Sys2Proof.Machine
end

