-- ==== Sys2Proof/Machine/Local.lean ====
section
/-! DEFINITION. Local memory and yard accesses of majors 0x10 to 0x16 (R178 to R180), and the scrubbers (R126, R129, R233). -/

namespace Sys2Proof.Machine

/-- Whether a vector access of core c's queue, or one not yet complete, touches a line of the n local bytes at
a (R145); gathers, scatters and chains may touch any line. -/
def Core.vecTouchesLocal (k : Core) (a n : Nat) : Bool :=
  let t (o : VOp) : Bool := match o.kind with
    | .ldv | .stv => sameLine o.addr 512 a n
    | .gather | .scatter | .chain => true
    | _ => false
  (k.vq.any fun e => t e.op) || (k.inflight.any fun i => t i.ent.op)

/-- The same for the yard (R180). -/
def Core.vecTouchesYard (k : Core) (a n : Nat) : Bool :=
  let t (o : VOp) : Bool := match o.kind with
    | .ldvy | .stvy => sameLine o.addr 512 a n
    | _ => false
  (k.vq.any fun e => t e.op) || (k.inflight.any fun i => t i.ent.op)

/-- A scalar store of core c into its own local memory (R149, R179). -/
def State.storeLocal (s : State) (c : CoreId) (a : Nat) (bs : TBytes) : State :=
  (s.noteUndo c a bs.length).writeLocal c c a bs

/-- An F-M scalar access: the base is read, the address checked in its space of limit bytes, then the access
is made (R178). -/
def memAccess (o : Mem) (limit : Nat) (f : State → Nat → Res) (s : State) : Res :=
  s.me.need [.g0 o.b]
    (match checkAddr (effAddr (s.me.gv o.b) o.o 8) 8 8 limit with
     | .error t => .trap t
     | .ok a => f s a)

/-- Load a dword that was read, with its taint and that of the base (R19, R179). -/
def State.loaded (s : State) (d b : BitVec 5) (bs : TBytes) : Res :=
  s.toG d (BitVec.ofNat 64 (valOf bs)) (anyTaint bs || s.me.gt b)

/-- LD (R179). -/
def execLd (o : Mem) (s : State) : Out :=
  unit (len1 o.q) o.q (memAccess o 0x8000 fun s a =>
    if s.me.vecTouchesLocal a 8 then .wait
    else match s.readLocal s.cur a 8 with
      | .error t => .trap t
      | .ok (bs, s) => s.loaded o.d o.b bs) s

/-- ST (R179). -/
def execSt (o : Mem) (s : State) : Out :=
  unit (len1 o.q) o.q (memAccess o 0x8000 fun s a => s.me.need [.g0 o.d]
    (if s.me.vecTouchesLocal a 8 then .wait
     else .done (s.storeLocal s.cur a (bytesOf 8 (s.me.gv o.d).toNat (s.me.gt o.d || s.me.ct))))) s

/-- A ramp core has no yard of its own (R313). -/
def onYard (s : State) (r : Res) : Res := if s.cur.isRamp then .trap (illegal 1) else r

/-- LDY (R179): an own store to the dword that is not yet performed gives its value (R180). -/
def execLdy (o : Mem) (s : State) : Out :=
  unit (len1 o.q) o.q (fun s => onYard s (memAccess o 0x80000 (fun s a =>
    if s.me.vecTouchesYard a 8 then .wait
    else match s.me.ystores.reverse.find? fun y => y.addr == a with
      | some y => s.loaded o.d o.b (bytesOf 8 y.val.toNat y.taint)
      | none => match s.readYard s.cur a 8 with
        | .error t => .trap t
        | .ok (bs, s) => s.loaded o.d o.b bs) s)) s

/-- A later yard store of core k counts for a late vector trap (R149). -/
def Core.noteStore (k : Core) : Core :=
  let u (e : VEntry) : VEntry := { e with stores := e.stores + 1 }
  { k with vq := k.vq.map u, inflight := k.inflight.map fun i => { i with ent := u i.ent } }

/-- STY (R126, R179): the store goes on its way to its bank. -/
def execSty (o : Mem) (s : State) : Out :=
  unit (len1 o.q) o.q (fun s => onYard s (memAccess o 0x80000 (fun s a => s.me.need [.g0 o.d]
    (if s.me.vecTouchesYard a 8 then .wait
     else
       let y : YardStore := ⟨a, s.me.gv o.d, s.me.gt o.d || s.me.ct, s.me.accesses, s.ringLoad s.cur⟩
       .done (s.modMe fun k => { k.noteStore with ystores := k.ystores ++ [y], accesses := k.accesses + 1 }))) s)) s

/-- Whether a core's oldest yard store must wait: a queued vector instruction before it may still trap and discard it
(R149). -/
def State.storeHeld (s : State) (c : CoreId) : Bool :=
  let k := s.core c
  k.vq.any fun e => e.op.kind.mayTrap && !s.vaccGood c e && k.ystores.length ≤ e.stores

/-- YARD_STORE_PERFORM (R126): a core's oldest issued STY is performed at its bank. -/
def execYardStorePerform (c : CoreId) (s : State) : Out :=
  match (s.core c).ystores with
  | [] => .next s
  | y :: ys =>
    if s.storeHeld c then .next s
    else .next ((s.forTask c y.ring fun s => s.writeYard c c.cluster y.addr (bytesOf 8 y.val.toNat y.taint)).modCore c
      fun k => { k with ystores := ys })

/-- A vector load or store: the base is read and the address checked at the push (R178, R180). -/
def vmemPush (o : VMem) (k : VKind) (limit : Nat) (s : State) : Res :=
  let op (a : Nat) : VOp := ⟨k, o.d.toNat, o.d.toNat, 0, .i8, .i8, 0, .rne, 0, a⟩
  match s.me.vopTrap (op 0) with
  | some t => .trap t
  | none => s.me.need [.g0 o.b]
    (match checkAddr (effAddr (s.me.gv o.b) o.o 512) 512 64 limit with
     | .error t => .trap t
     | .ok a => s.pushEntry (op a) (some (.g0 o.b)) none none)

/-- LDV (R179, R180). -/
def execLdv (o : VMem) (s : State) : Out := unit (len1 o.q) o.q (vmemPush o .ldv 0x8000) s
/-- STV (R179, R180). -/
def execStv (o : VMem) (s : State) : Out := unit (len1 o.q) o.q (vmemPush o .stv 0x8000) s
/-- LDVY (R179, R180). -/
def execLdvy (o : VMem) (s : State) : Out :=
  unit (len1 o.q) o.q (fun s => onYard s (vmemPush o .ldvy 0x80000 s)) s
/-- STVY (R179, R180). -/
def execStvy (o : VMem) (s : State) : Out :=
  unit (len1 o.q) o.q (fun s => onYard s (vmemPush o .stvy 0x80000 s)) s

/-- A scrubber's visit: an uncorrectable word is marked poisoned (R129, R233). -/
def State.scrub (s : State) (a : Nat) : State :=
  if Tab.get false s.uncorr a then s.markPoison a else s

/-- LOCAL_SCRUB (R129). -/
def execLocalScrub (c : CoreId) (word : BitVec 12) (s : State) : Out :=
  .next (s.scrub (localBase c + 8 * word.toNat))

/-- YARD_SCRUB (R233). -/
def execYardScrub (k : ClusterId) (word : BitVec 16) (s : State) : Out :=
  .next (s.scrub (yardBase k + 8 * word.toNat))

end Sys2Proof.Machine
end

