-- ==== Sys2Proof/Machine/Atomic.lean ====
section
/-! DEFINITION. Atomics and reductions (R190 to R192, R317) at the home slice, and waiting for earlier accesses
(R199, R336). -/

namespace Sys2Proof.Machine

/-! ### Earlier accesses performed (R199, R344) -/

/-- Whether a queued or unfinished vector instruction reaches local memory. -/
def VOp.onLocal (o : VOp) : Bool :=
  match o.kind with
  | .ldv | .stv | .gather | .scatter | .chain => true
  | _ => false
/-- The same for a yard. -/
def VOp.onYard (o : VOp) : Bool :=
  match o.kind with
  | .ldvy | .stvy => true
  | _ => o.kind.isGmem && !o.onHbm

/-- Whether an unfinished vector instruction satisfies p. -/
def Core.vecPending (k : Core) (p : VOp → Bool) : Bool :=
  (k.vq.any fun e => p e.op) || (k.inflight.any fun i => p i.ent.op)

/-- Whether every earlier access of the core in the mask is performed: local bit 0, yard bit 1, HBM bit 2
(R199, R336). -/
def Core.performed (k : Core) (mask : BitVec 5) : Bool :=
  (!mask.getLsbD 0 || !k.vecPending VOp.onLocal)
    && (!mask.getLsbD 1 || (!k.vecPending VOp.onYard && k.ystores.isEmpty))
    && (!mask.getLsbD 2 || (k.atomics.isEmpty && k.sideLog.isEmpty && !k.vecPending VOp.onHbm))

/-- The part of a mask that a release at a scope orders for a core: an observer of another agent's accesses lies in
the core scope of none, and in the cluster scope only of local memory and yards for a ramp core, which no cluster
contains (R338, R344). -/
def effMask (c : CoreId) (scope : BitVec 3) (mask : BitVec 5) : BitVec 5 :=
  if scope = 0 then 0 else if scope = 1 && c.isRamp then mask &&& 3 else mask

/-- Whether every earlier access of core c in the mask is performed at a scope; a release over HBM waits for the side
log whatever its scope (R199, R336, R344). -/
def Core.performedAt (k : Core) (c : CoreId) (scope : BitVec 3) (mask : BitVec 5) : Bool :=
  k.performed (effMask c scope mask) && (!mask.getLsbD 2 || k.sideLog.isEmpty)

/-! ### The operation -/

/-- The value that an operation stores, at s bytes; none where it stores nothing (R191). -/
def atomicNew (op : BitVec 4) (s old b c : Nat) : Option Nat :=
  let w := 8 * s
  let x := low w b
  match op.toNat with
  | 0 => some x
  | 1 => if low w c = old then some x else none
  | 2 => some (low w (old + x))
  | 3 => some (old &&& x)
  | 4 => some (old ||| x)
  | 5 => some (old ^^^ x)
  | 6 => some (if svN w x < svN w old then x else old)
  | 7 => some (if svN w old < svN w x then x else old)
  | 8 => some (min old x)
  | 9 => some (max old x)
  | 10 =>
    some (encodeRne .f32 (Val.add .rne (decodeVal .f32 old) (decodeVal .f32 x)).1).1
  | _ => none

/-- Bytes of an operation. -/
def AtomicOp.size (o : AtomicOp) : Nat := if o.wide then 8 else 4

/-- The taint of the stored value (R192): old, the operands, TASK.CT, and an intrinsic taint for swap, cas
and fadd. -/
def AtomicOp.stored (o : AtomicOp) (oldTaint : Bool) : Bool :=
  oldTaint || o.taintB || (o.op == 1 && o.taintC) || o.ct || o.op == 0 || o.op == 1 || o.op == 10

/-- INST of an atomic's handle: home die × 64 + L2 slice of the line (R181, R312). -/
def homeInst (pa : Nat) : Nat :=
  let p := (pa / 2 ^ 8 ^^^ pa / 2 ^ 15) % 128
  pa / 2 ^ 40 * 64 + p / 2

/-- The bytes that the held sequence of a redundant copy gives at a VA (R386). -/
def heldView (hs : List HeldWrite) (va : Nat) (bs : TBytes) : TBytes :=
  (hs.filter fun h => h.peer.isNone).foldl (fun bs h => ((List.range bs.length).zip bs).map fun x =>
    let a := va + x.1
    if h.va ≤ a then (h.bytes[a - h.va]?).getD x.2 else x.2) bs

/-- What performing an operation gives: the old value, its taint, a status, and the line's physical
address. -/
structure AtomicDone where
  old : Nat
  taint : Bool
  status : BitVec 8
  pa : Option Nat
  deriving DecidableEq, Repr

/-- Perform an operation of core c at the home slice of pa, indivisibly (R191, R325, R353, R445). -/
def State.atomicAt (s : State) (c : CoreId) (o : AtomicOp) (pa : Nat) : State × AtomicDone :=
  let own := s.ringLoad c
  let n := o.size
  match s.bad pa n with
  | some b => (s.markPoison b, ⟨0, true, 4, some pa⟩)
  | none =>
    let red := (s.launchOf c).rcd.red
    let bs := s.peek pa n
    let bs := if red then heldView (s.gangOf c).held o.va bs else bs
    let old := valOf bs
    let s := s.dropLine (s.partOf (s.launchIx c)) pa
    let s := if red then s else s.nonReplay c
    match atomicNew o.op n old o.b.toNat o.c.toNat with
    | none => let (x, s) := s.track c none pa n o.va; (s, ⟨old, x || anyTaint bs, 0, some pa⟩)
    | some v =>
      let new := bytesOf n v (o.stored (anyTaint bs))
      let done : AtomicDone := ⟨old, true, 0, some pa⟩
      if red then
        (s.holdWrite c { core := c, pc := some o.pc, va := o.va, bytes := new, atomic := some o, peer := none, host := none }, done)
      else match (s.setRing c o.ring).hbmPut c (some (o.op, o.wide)) pa o.va new with
        | some s => (s.setRing c own, done)
        | none => (s, ⟨0, true, 4, some pa⟩)

/-- Whether an operation must wait: an earlier one of the core on its line, or a side-log entry (R336,
R342). -/
def Core.atomicWaits (k : Core) (o : AtomicOp) : Bool :=
  ((k.atomics.takeWhile fun x => x.num != o.num).any fun x => x.va / 64 == o.va / 64) || sideHit k.sideLog o.va o.size

/-- Position of a line in the superstep's order of atomics (R358). -/
def State.linePos (s : State) (c : CoreId) (va : Nat) : Nat :=
  Tab.get 0 (s.gangOf c).atomicPos (va / 64)

/-- Whether replay lets an operation be performed now: its core's next entry is its own, and its recorded
predecessors on the line are done (R361). -/
def State.atomicTurn (s : State) (c : CoreId) (o : AtomicOp) : Bool :=
  match s.decisionOf (s.launchIx c) c.die (s.gangOf c).rr (coreNum c) false with
  | .free => true
  | .held => false
  | .replay e => e.kind == 4 && (e.pc != o.pc || decide (e.vb.toNat ≤ s.linePos c o.va))

/-- The decision of an operation that has been performed: KIND 4 (R358, R361, R362). -/
def State.noteAtomic (s : State) (c : CoreId) (o : AtomicOp) : State :=
  let l := s.launchIx c
  let pos := s.linePos c o.va
  let line := BitVec.ofNat 64 (o.va / 64 * 64)
  let rr := (s.gangOf c).rr
  let s' := s.modGangOf c fun g =>
    { g with atomicPos := Tab.put 0 g.atomicPos (o.va / 64) (pos + 1) }
  match s.decisionOf l c.die rr (coreNum c) false with
  | .replay e =>
    let s' := s'.consume l c.die e
    if e.pc ≠ o.pc then s'.diverged c e (metValue 4 o.pc)
    else if e.va ≠ line then s'.diverged c e line
    else if e.vb ≠ BitVec.ofNat 64 pos then s'.diverged c e (BitVec.ofNat 64 pos)
    else s'
  | _ => s'.logEntry l c.die rr 4 (coreNum c) o.pc (s.gangOf c).sstep line (BitVec.ofNat 64 pos)

/-- Replace an operation on its way. -/
def State.modAtomic (s : State) (c : CoreId) (num : Nat) (f : AtomicOp → AtomicOp) : State :=
  s.modCore c fun k => { k with atomics := k.atomics.map fun o => if o.num = num then f o else o }

/-! ### AOP (R190, R191) -/

/-- The checks of an atomic's address: FORMAT, then ALIGNMENT. -/
def atomicAddr (p : DWord) (size : Nat) : Option Trap :=
  (nullTrap p).or (if vaOf p % size ≠ 0 then some (alignTrap (vaOf p)) else none)

/-- Translate a ramp core's atomic in its unit: the physical address, or what the unit does while the fault stands
(R333, R335). An ordinary core's atomic is translated when it is performed (R191). -/
def State.atomicXlate (s : State) (va : Nat) : Except Res (Option Nat) :=
  if !s.cur.isRamp then .ok none
  else match s.coreXlate s.cur (s.launchIx s.cur) va 2 with
    | .ok pa => .ok (some pa)
    | .error e =>
      let (s, tok) := s.newFault (.core s.cur) (s.launchIx s.cur) va e 2 false
      .error (.stall (s.modMe fun k => { k with phase := .xlate tok }))

/-- AOP (R191): with ORD acq or ar the unit lasts until the atomic is performed. A ramp core's follows its own queued
accesses to the line (R342). -/
def execAop (o : AopO) (s : State) : Out :=
  unit (len2 o.q) o.q (fun s =>
    let k := s.me
    match k.phase with
    | .xlate _ => .wait
    | .refused va => .trap (xlateTrap va)
    | .capture n =>
      if k.atomics.any fun x => x.num == n.toNat then .wait
      else .done ((s.acquireAt s.cur o.scope o.smask).modMe fun k => { k with phase := .idle })
    | _ =>
      if o.op = 10 && o.sz = 1 then .trap (illegal 0)
      else
        let cas := o.op = 1
        let srcs := [Src.g o.a o.ta] ++ (if o.op = 11 then [] else [.g o.b o.tb])
          ++ (if cas then [.g o.d o.td] else [])
        k.need srcs
          (let p := k.gv o.a
           let wide := o.sz == 1
           match atomicAddr p (if wide then 8 else 4) with
           | some t => .trap t
           | none =>
             let rel := o.ord.getLsbD 1
             let acq := o.ord.getLsbD 0
             if (k.greg o.d).fill = .pending || (k.hreg o.he).fill = .pending || k.vecPending (fun v => v.touchesHbm (vaOf p) 1)
                 || (rel && !k.performedAt s.cur o.scope o.smask) then .wait
             else match s.atomicXlate (vaOf p) with
             | .error r => r
             | .ok pa =>
               let op : AtomicOp :=
                 { num := k.atomicCount, reduction := false, pc := k.pc, d := o.d, he := o.he,
                   inb := o.inb, va := vaOf p, op := o.op, wide := wide,
                   b := if o.op = 11 then 0 else k.gv o.b, c := if cas then k.gv o.d else 0,
                   taintB := o.op != 11 && k.gt o.b, taintC := cas && k.gt o.d,
                   ct := k.ct, ord := o.ord, token := none, status := none, pa := pa, ring := s.ringLoad s.cur }
               let k := { (k.pendG o.d).pendH o.he with
                 atomics := k.atomics ++ [op], atomicCount := k.atomicCount + 1,
                 owed := if o.inb then k.owed + 1 else k.owed }
               if acq then .stall (s.setMe { k with phase := .capture (BitVec.ofNat 64 op.num) })
               else .done (s.setMe k))) s

/-- The result of an atomic goes on its way to G[D] and H[HE], and its message to the inbox (R191, R192). -/
def State.atomicResult (s : State) (c : CoreId) (o : AtomicOp) (r : AtomicDone) : State :=
  let inst := match r.pa with
    | some pa => homeInst pa
    | none => (Config.freeValue s.free).toNat % 4096
  let s := match r.pa with
    | some _ => s
    | none => { s with free := s.free + 1 }
  let w := handleWord 2 inst o.num r.status.toNat 0
  let v := dw (svN (8 * o.size) r.old)
  s.modCore c fun k =>
    let k := { k with atomics := k.atomics.filter fun x => x.num != o.num,
                      arrivals := k.arrivals ++ [.g o.d v true, .h o.he w true] }
    if o.inb then k.postInbox { hw := w, val := v, taint := true } else k

/-- ATOMIC_PERFORM (R191): the n-th atomic of core c is performed at its home slice, or completes with the
status of a translation finally refused. -/
def execAtomicPerform (c : CoreId) (n : Nat) (s : State) : Out :=
  match (s.core c).atomics.find? fun o => o.num == n && !o.reduction with
  | none => .next s
  | some o =>
    match o.status with
    | some st => .next (s.atomicResult c o ⟨0, true, st, none⟩)
    | none =>
      if o.token.isSome || (s.core c).atomicWaits o || !s.atomicTurn c o then .next s
      else match (o.pa.map Except.ok).getD (s.xlate (s.launchIx c) o.va 2) with
        | .error e =>
          let (s, tok) := s.newFault (.core c) (s.launchIx c) o.va e 2 false
          .next (s.modAtomic c o.num fun o => { o with token := some tok })
        | .ok pa =>
          let (s, r) := (s.noteAtomic c o).atomicAt c o pa
          .next (s.atomicResult c o r)

/-- PRODUCER_FILL (R17): the oldest result on its way to a register of core c arrives. -/
def execProducerFill (c : CoreId) (s : State) : Out :=
  match (s.core c).arrivals with
  | [] => .next s
  | a :: rest =>
    .next (s.modCore c fun k => ({ k with arrivals := rest } : Core).arrive (match a with
      | .h n w t => .h n w (t || k.hCancelled.getLsbD n.toNat)
      | a => a))

end Sys2Proof.Machine
end

