-- ==== Sys2Proof/Machine/Ring.lean ====
section
/-! DEFINITION. The carriageway (R208 to R225): places of tiles, departures and arrivals, meetings, retirement,
and the ring's events. Time on the ring is the clock of State; the environment names which event comes next, and
no event comes before the cycle the spec gives it. -/

namespace Sys2Proof

/-- The core at a station of a cluster (R208). -/
def ClusterId.station (k : ClusterId) (st : Nat) : CoreId := .ord k.die k.cl (BitVec.ofNat 6 st)

/-- The station that a tile of a family hops to (R208). -/
def Fam.next : Fam → Nat → Nat
  | .a, st => (st + 1) % 64
  | .b, st => (st + 63) % 64
/-- The station a tile of a family comes from. -/
def Fam.prev : Fam → Nat → Nat
  | .a, st => (st + 63) % 64
  | .b, st => (st + 1) % 64
/-- The other family. -/
def Fam.other : Fam → Fam
  | .a => .b
  | .b => .a

end Sys2Proof

namespace Sys2Proof.Machine

/-- The stations of a cluster. -/
def stations : List Nat := List.range 64

/-! ### Places -/

/-- A family's places at a station. -/
def Ring.places (r : Ring) (f : Fam) (st : Nat) : Places :=
  match f with
  | .a => Tab.get Places.none r.placesA st
  | .b => Tab.get Places.none r.placesB st
/-- Change a family's places at a station. -/
def Ring.modPlaces (r : Ring) (f : Fam) (st : Nat) (g : Places → Places) : Ring :=
  match f with
  | .a => { r with placesA := Tab.put Places.none r.placesA st (g (r.places .a st)) }
  | .b => { r with placesB := Tab.put Places.none r.placesB st (g (r.places .b st)) }
/-- Change a family's places at every station. -/
def Ring.mapPlaces (r : Ring) (f : Fam) (g : Places → Places) : Ring :=
  stations.foldl (fun r st => r.modPlaces f st g) r
/-- Change a cluster's carriageway. -/
def State.modRing (s : State) (k : ClusterId) (f : Ring → Ring) : State :=
  s.modCluster k fun x => { x with ring := f x.ring }
/-- The launch that occupies a cluster: that of its first station. -/
def State.clusterLaunch (s : State) (k : ClusterId) : Nat := s.launchIx (k.station 0)

/-- Whether two tiles are the same: family, station of injection and sequence number (R209). -/
def Tile.same (t u : Tile) : Bool :=
  t.hdr.fam == u.hdr.fam && t.hdr.origin == u.hdr.origin && t.hdr.seq == u.hdr.seq

/-- The tiles at a station: through, lay-by slots 0 and 1. -/
def Places.present (p : Places) : List Tile :=
  p.through.toList ++ (p.lay0.map Prod.fst).toList ++ (p.lay1.map Prod.fst).toList
/-- Every live tile of the places: those present and the one on the link to the next station. -/
def Places.live (p : Places) : List Tile := p.present ++ (p.link.map (·.tile)).toList
/-- The live tiles of a family. -/
def Ring.live (r : Ring) (f : Fam) : List Tile := stations.flatMap fun st => (r.places f st).live
/-- Whether a tile has not retired. -/
def Ring.alive (r : Ring) (t : Tile) : Bool := (r.live t.hdr.fam).any t.same

/-- Remove a tile from its places, wake copies included. -/
def Places.drop (p : Places) (t : Tile) : Places :=
  { p with through := p.through.filter fun u => !t.same u
           lay0 := p.lay0.filter fun u => !t.same u.1
           lay1 := p.lay1.filter fun u => !t.same u.1
           wake := p.wake.filter fun u => !t.same u.tile
           link := p.link.filter fun u => !t.same u.tile }

/-- Empty places that keep the count of injections (R209). -/
def Places.clear (p : Places) : Places := { Places.none with injected := p.injected }

/-- Every tile discarded (R231, R245). -/
def Ring.discard (r : Ring) : Ring :=
  { (r.mapPlaces .a Places.clear).mapPlaces .b Places.clear with held := [], reqs := [] }

/-- Retire a tile (R221): RET, SHORT for an A tile with TOLL left, no wake copy, no later check. -/
def Ring.retire (r : Ring) (t : Tile) (short : Bool) : Ring :=
  let owes := short && t.hdr.fam == .a && t.hdr.toll != 0
  let r := r.mapPlaces t.hdr.fam fun p => p.drop t
  let keep (m : Meeting) : Bool := !(t.same m.a || t.same m.b)
  { r with ret := r.ret + 1
           short := if owes then min 65535 (r.short + 1) else r.short
           held := (r.held.map fun x => (x.1, x.2.filter keep)).filter fun x => !x.2.isEmpty }

/-- Tiles on links: family, the station left, the tile (R208). -/
def Ring.flying (r : Ring) : List (Fam × Nat × LinkTile) :=
  [Fam.a, Fam.b].flatMap fun f => stations.filterMap fun st => (r.places f st).link.map fun x => (f, st, x)

/-- Whether no tile on a link is due by cycle c: arrivals come before what follows them. -/
def Ring.settled (r : Ring) (c : Nat) : Bool := r.flying.all fun x => c < x.2.2.left + 17

/-- Whether tiles may hop and meet: RUNNING without a ring fault (R212, R234). -/
def Ring.moving (r : Ring) : Bool := r.state == .running && !r.fault

/-- Held meetings of a station, oldest first. -/
def Ring.heldAt (r : Ring) (st : Nat) : List Meeting := Tab.get [] r.held st
/-- Whether a tile is present in a held meeting of a station, which it then does not leave (R218). -/
def Ring.bound (r : Ring) (st : Nat) (t : Tile) : Bool :=
  (r.heldAt st).any fun m => (t.same m.a && !m.wakeA) || (t.same m.b && !m.wakeB)
/-- Whether a tile is part of some held meeting. -/
def Ring.inHeld (r : Ring) (t : Tile) : Bool := r.held.any fun x => x.2.any fun m => t.same m.a || t.same m.b

/-- Whether a family's through position at a station is free for a new tile: empty, with none on its way to
it. -/
def Ring.throughFree (r : Ring) (f : Fam) (st : Nat) : Bool :=
  (r.places f st).through.isNone && (r.places f (f.prev st)).link.isNone

/-! ### Record and replay of ring events (R358, R361, R362) -/

/-- Whether a carriageway's events are logged and replayed: elastic with recording on (R215, R242, R358). -/
def Ring.logged (r : Ring) : Bool := r.elastic && r.record

/-- UNIT of a station's entries (R360). -/
def stationUnit (k : ClusterId) (st : Nat) : Nat := k.cl.toNat * 64 + st

/-- How a station's decision is taken. -/
def State.ringDecision (s : State) (k : ClusterId) (st : Nat) : Decision :=
  if (s.cluster k).ring.logged then
    s.decisionOf (s.clusterLaunch k) k.die (s.gangOf (k.station 0)).rr (stationUnit k st) true
  else .free

/-- How a core's decision on its carriageway is taken. -/
def State.ringDecide (s : State) (c : CoreId) : Decision :=
  if (s.cluster c.cluster).ring.logged then s.decision c else .free

/-- Log a station's decision. -/
def State.logRing (s : State) (k : ClusterId) (st kind : Nat) (va vb : DWord) : State :=
  if (s.cluster k).ring.logged then
    let g := s.gangOf (k.station 0)
    s.logEntry (s.clusterLaunch k) k.die g.rr kind (stationUnit k st) 0 g.sstep va vb
  else s

/-- ORIGIN × 2^32 + SEQ of a tile (R358). -/
def Tile.word (t : Tile) : DWord := BitVec.ofNat 64 (t.hdr.origin.toNat * 2 ^ 32 + t.hdr.seq.toNat)
/-- The same with FAM in bit 63. -/
def Tile.famWord (t : Tile) : DWord :=
  BitVec.ofNat 64 ((if t.hdr.fam = .b then 2 ^ 63 else 0) + t.hdr.origin.toNat * 2 ^ 32 + t.hdr.seq.toNat)

/-- The first entry of a die's log, not yet replayed, that satisfies p. -/
def State.findRecorded (s : State) (l : Nat) (d : BitVec 4) (p : LogEntry → Bool) : Option LogEntry :=
  (List.range ((s.launch l).rcd.logSize / 32)).findSome? fun i =>
    match s.recorded l d i with
    | some e => if p e && !((s.launch l).log d).replayed.contains i then some e else none
    | none => none

/-- Whether a recorded entry of a station that satisfies p is still to come. -/
def State.stillToCome (s : State) (k : ClusterId) (st : Nat) (p : LogEntry → Bool) : Bool :=
  (s.findRecorded (s.clusterLaunch k) k.die fun e => e.unit == stationUnit k st && p e).isSome

/-- A tile retires, or is spent at a station, before a recorded meeting that has become impossible (R362). -/
def State.noteGone (s : State) (k : ClusterId) (t : Tile) (at' : Option Nat) : State :=
  let g := s.gangOf (k.station 0)
  if g.rr ≠ 2 || !(s.cluster k).ring.logged then s
  else
    let w := t.word
    let names (e : LogEntry) : Bool := e.kind == 5 && (if t.hdr.fam = .a then e.va == w else e.vb == w)
      && e.unit / 64 == k.cl.toNat && (match at' with | some st => e.unit != stationUnit k st | none => true)
    match s.findRecorded (s.clusterLaunch k) k.die names with
    | some e => s.diverged (k.station (e.unit % 64)) e w
    | none => s

/-- Retire a tile of a cluster. -/
def State.retireTile (s : State) (k : ClusterId) (t : Tile) (short : Bool) : State :=
  (s.noteGone k t none).modRing k fun r => r.retire t short

/-! ### Meetings (R217 to R220) -/

/-- Whether an entry matches a pair of tiles (R217). -/
def JEntry.matches (e : JEntry) (a b : Header) : Bool :=
  e.valid && (a.tag ^^^ e.atag) &&& e.amask == 0 && (b.tag ^^^ e.btag) &&& e.bmask == 0
    && (!e.keq || a.k == b.k)

/-- The lowest-numbered matching entry (R217). -/
def matchEntry (jt : Tab (Option JEntry)) (a b : Header) : Option Nat :=
  stations.find? fun i => match Tab.get none jt i with
    | some e => e.matches a b
    | none => false

/-- A meeting takes one from a's TOLL: on a link by a notice, else at once, and at 0 the tile retires (R218,
R220, R221). -/
def State.payToll (s : State) (k : ClusterId) (a : Tile) : State :=
  match ((s.cluster k).ring.live .a).find? a.same with
  | none => s
  | some t =>
    let pay (u : Tile) : Tile :=
      if a.same u then { u with hdr := { u.hdr with toll := u.hdr.toll - 1 } } else u
    let note (x : LinkTile) : LinkTile := if a.same x.tile then { x with notices := x.notices + 1 } else x
    let f (p : Places) : Places :=
      { p with through := p.through.map pay
               lay0 := p.lay0.map fun x => (pay x.1, x.2)
               lay1 := p.lay1.map fun x => (pay x.1, x.2)
               link := p.link.map note }
    let onLink := (s.cluster k).ring.flying.any fun x => a.same x.2.2.tile
    if t.hdr.toll = 0 then s
    else
      let s := s.modRing k fun r => r.mapPlaces .a f
      if !onLink && t.hdr.toll = 1 then s.retireTile k (pay t) false else s

/-- The task that a meeting creates (R218). -/
def Meeting.task (m : Meeting) (start : Word) : CreatedTask :=
  { start := start, i := m.a.hdr.i, j := m.b.hdr.j, k := m.a.hdr.k, je := BitVec.ofNat 6 m.entry,
    payA := m.a.pay, payB := m.b.pay }

/-- Create a meeting's task in the station's queue and take its toll. -/
def State.createTask (s : State) (k : ClusterId) (st : Nat) (m : Meeting) : State :=
  let start := match Tab.get none (s.cluster k).jt m.entry with
    | some e => e.start
    | none => 0
  (s.modCore (k.station st) fun c => { c with stationQ := c.stationQ ++ [m.task start] }).payToll k m.a

/-- Take a meeting with its entry now: none while the station queue is full, or while record or replay makes it
wait. -/
def State.takeMeeting (s : State) (k : ClusterId) (st : Nat) (m : Meeting) : Option State :=
  if 2 ≤ (s.core (k.station st)).stationQ.length then none
  else match s.ringDecision k st with
  | .held => none
  | .free => some ((s.logRing k st 5 m.a.word m.b.word).createTask k st m)
  | .replay e =>
    let mine (e : LogEntry) : Bool := e.kind == 5 && e.va == m.a.word && e.vb == m.b.word
    if mine e then some ((s.consume (s.clusterLaunch k) k.die e).createTask k st m)
    else if s.stillToCome k st mine then none
    else
      let found := if e.kind = 5 then m.a.word else metValue 5 0
      some (((s.consume (s.clusterLaunch k) k.die e).diverged (k.station st) e found).createTask k st m)

/-- A pair of tiles meets at a station (R217 to R219): a pair without an entry has no effect, and neither a
retired tile nor a raised abort line lets a meeting be taken. -/
def State.meet (s : State) (k : ClusterId) (st : Nat) (m : Meeting) : State :=
  let x := s.cluster k
  if x.abortLine || !x.ring.alive m.a || !x.ring.alive m.b then s
  else match matchEntry x.jt m.a.hdr m.b.hdr with
  | none => s
  | some e =>
    let m := { m with entry := e }
    let hold := s.modRing k fun r => { r with held := Tab.put [] r.held st (r.heldAt st ++ [m]) }
    if (x.ring.heldAt st).isEmpty then (s.takeMeeting k st m).getD hold else hold

/-- The pairs a station checks when tiles arrive, with their departure cycles, in the order of R219. -/
def Ring.pairs (r : Ring) (st : Nat) (arrA arrB : Option Nat) : List Meeting :=
  let pa := r.places .a st
  let pb := r.places .b st
  let lay (p : Places) : List Tile := (p.lay0.map Prod.fst).toList ++ (p.lay1.map Prod.fst).toList
  let thA := pa.through.toList
  let thB := pb.through.toList
  let ifSome {α : Type} (o : Option Nat) (f : Nat → List α) : List α := match o with
    | some x => f x
    | none => []
  let both := if arrA.isSome && arrB.isSome then
    thA.flatMap fun a => thB.map fun b => (⟨a, b, false, false, 0⟩ : Meeting) else []
  let fromA := ifSome arrA fun x => thA.flatMap fun a =>
    ((lay pb ++ (if arrB.isSome then [] else thB)).map fun b => (⟨a, b, false, false, 0⟩ : Meeting))
      ++ (pb.wake.toList.filter fun w => x ≤ w.left).map fun w => ⟨a, w.tile, false, true, 0⟩
  let fromB := ifSome arrB fun y => thB.flatMap fun b =>
    ((lay pa ++ (if arrA.isSome then [] else thA)).map fun a => (⟨a, b, false, false, 0⟩ : Meeting))
      ++ (pa.wake.toList.filter fun w => y < w.left).map fun w => ⟨w.tile, b, true, false, 0⟩
  both ++ fromA ++ fromB

/-! ### Departures (R213 to R215) -/

/-- Whether the through tile of a station may depart but for the place ahead. -/
def Ring.wants (r : Ring) (f : Fam) (st : Nat) : Bool :=
  match (r.places f st).through with
  | some t => t.hdr.hops != 0 && !r.bound st t && (r.places f st).link.isNone
  | none => false

/-- The stations whose tiles depart together with that of a station, each vacating the place behind it; none
where the tile cannot depart, or stays for a replay. The fuel is the number of stations: a full ring departs whole. -/
def Ring.train (r : Ring) (stays : Fam → Nat → Bool) (f : Fam) : Nat → Nat → Option (List Nat)
  | _, 0 => some []
  | st, n + 1 =>
    if !r.wants f st || stays f st then none
    else if (r.places f (f.next st)).through.isNone then some [st]
    else (r.train stays f (f.next st) n).map (st :: ·)

/-- The through tile of a station departs in cycle c: HOPS, the wake copy, the link (R208, R210, R213). -/
def Ring.depart (c : Nat) (f : Fam) (r : Ring) (st : Nat) : Ring :=
  r.modPlaces f st fun p => match p.through with
    | some t =>
      let t := { t with hdr := { t.hdr with hops := t.hdr.hops - 1 } }
      { p with through := none, wake := some ⟨t, c⟩, link := some ⟨t, c, 0⟩ }
    | none => p

/-- Whether the launch of a cluster is running: a pre-emption stops departures (R235). -/
def State.clusterRuns (s : State) (k : ClusterId) : Bool := (s.launch (s.clusterLaunch k)).state == .running

/-- Every tile of both families that may depart does, in cycle c. -/
def Ring.departAll (r : Ring) (c : Nat) (stays : Fam → Nat → Bool) : Ring :=
  let go (f : Fam) (r' : Ring) : Ring :=
    (stations.filter fun st => (r.train stays f st 64).isSome).foldl (Ring.depart c f) r'
  go .b (go .a r)

/-- No tile stays. -/
def noStay : Fam → Nat → Bool := fun _ _ => false

/-- Whether the through tile of a station stays there in a replay: its next recorded meeting is at that station (R361). -/
def State.staysFor (s : State) (k : ClusterId) (f : Fam) (st : Nat) : Bool :=
  let r := (s.cluster k).ring
  match (r.places f st).through with
  | none => false
  | some t =>
    let names (e : LogEntry) : Bool := e.kind == 5 && e.unit / 64 == k.cl.toNat
      && (if f = .a then e.va == t.word else e.vb == t.word)
    r.logged && (s.gangOf (k.station 0)).rr == 2
      && match s.findRecorded (s.clusterLaunch k) k.die names with
        | some e => e.unit == stationUnit k st
        | none => false

/-- Whether a queued tile stands to enter a station's through position (R211). -/
def Ring.entry (r : Ring) (f : Fam) (st : Nat) : Option (Tile × Bool) :=
  let p := r.places f st
  let q (o : Option (Tile × LayCond)) : Option Tile := match o with
    | some (t, .queued) => some t
    | _ => none
  if !r.throughFree f st then none
  else match q p.lay0 with
  | some t => some (t, false)
  | none => (q p.lay1).map fun t => (t, true)

/-- Whether a queued tile enters a station's through position before anything else happens there: unless record or
replay makes it wait (R211, R359, R361). -/
def State.entryDue (s : State) (k : ClusterId) (f : Fam) (st : Nat) : Bool :=
  match (s.cluster k).ring.entry f st with
  | none => false
  | some (t, _) =>
    let mine (e : LogEntry) : Bool := e.kind == 6 && e.va == t.famWord
    if (s.cluster k).ring.fault then false
    else match s.ringDecision k st with
    | .held => false
    | .free => true
    | .replay e => mine e || !s.stillToCome k st mine

/-- Whether no queued tile of a carriageway still has its entry to make. -/
def State.entriesMade (s : State) (k : ClusterId) : Bool :=
  [Fam.a, Fam.b].all fun f => stations.all fun st => !s.entryDue k f st

/-- TILE_DEPARTURE (R213, R215) in elastic mode: once the tile of the station named may depart, every tile that may
departs in the same cycle. -/
def execTileDeparture (k : ClusterId) (fam : Fam) (st : BitVec 6) (s : State) : Out :=
  let r := (s.cluster k).ring
  let stays := s.staysFor k
  if r.moving && s.clusterRuns k && r.elastic && r.settled s.clock && s.entriesMade k
      && (r.train stays fam st.toNat 64).isSome then
    .next (s.modRing k fun r => r.departAll s.clock stays)
  else .next s

/-- Whether a spent tile of the through position can move into a lay-by slot (R213). -/
def Ring.spentMoves (r : Ring) (f : Fam) (st : Nat) : Bool :=
  let p := r.places f st
  match p.through with
  | some t => t.hdr.hops == 0 && (p.lay0.isNone || p.lay1.isNone)
  | none => false

/-- The spent tiles of a family at its stations (R213, R221). -/
def Ring.spent (r : Ring) (f : Fam) : List Tile :=
  stations.flatMap fun st =>
    let p := r.places f st
    let lay (o : Option (Tile × LayCond)) : List Tile := match o with
      | some (t, .spent) => [t]
      | _ => []
    (p.through.filter fun t => t.hdr.hops == 0).toList ++ lay p.lay0 ++ lay p.lay1

/-- The spent tiles of a family that retire now: the other family has no live tile that is not spent (R221),
and no meeting of the tile is held. -/
def Ring.retiring (r : Ring) (f : Fam) : List Tile :=
  if (r.live f.other).length = (r.spent f.other).length then (r.spent f).filter fun t => !r.inHeld t else []

/-- Whether everything that comes before a beat's departures has happened. -/
def Ring.beatReady (r : Ring) : Bool :=
  r.flying.isEmpty && r.held.isEmpty && r.reqs.isEmpty
    && [Fam.a, Fam.b].all fun f => (r.retiring f).isEmpty
      && stations.all fun st => (r.entry f st).isNone && !r.spentMoves f st

/-- BEAT (R214): every departure of a beat in one cycle. -/
def execBeat (k : ClusterId) (s : State) : Out :=
  let r := (s.cluster k).ring
  if r.moving && s.clusterRuns k && !r.elastic && r.beatReady then
    .next (s.modRing k fun r => r.departAll s.clock noStay)
  else .next s

/-! ### Park, unpark and forced retirement (R242, R243) -/

/-- A found word (R242). -/
def Tile.found (t : Tile) : DWord :=
  BitVec.ofNat 64 (2 ^ 63 + (if t.hdr.fam = .b then 2 ^ 62 else 0) + t.hdr.origin.toNat * 2 ^ 56
    + t.hdr.hops.toNat * 2 ^ 48 + t.hdr.toll.toNat * 2 ^ 32 + t.hdr.tag.toNat)

/-- rpark, runpark or rtire at its point of effect: the found word and the state (R243). -/
def State.ringAct (s : State) (k : ClusterId) (q : RingReq) : DWord × State :=
  let st := q.st.toNat
  let r := (s.cluster k).ring
  let p := r.places q.fam st
  let free (t : Tile) : Bool := !r.inHeld t
  let none' : DWord × State := (0, s)
  let one (t : Tile) (g : Places → Places) : DWord × State :=
    (t.found, s.modRing k fun r => r.modPlaces q.fam st g)
  match q.fn.toNat with
  | 2 =>
    match p.through with
    | some t =>
      if !free t then none'
      else if p.lay0.isNone then one t fun p => { p with through := none, lay0 := some (t, .parked) }
      else if p.lay1.isNone then one t fun p => { p with through := none, lay1 := some (t, .parked) }
      else none'
    | none => none'
  | 3 =>
    match (if q.arg = 0 then p.lay0 else p.lay1) with
    | some (t, .parked) =>
      if !free t then none'
      else if q.arg = 0 then one t fun p => { p with lay0 := some (t, .queued) }
      else one t fun p => { p with lay1 := some (t, .queued) }
    | _ => none'
  | _ =>
    let t := match q.arg.toNat with
      | 0 => p.through
      | 1 => p.lay0.map Prod.fst
      | _ => p.lay1.map Prod.fst
    match t with
    | some t => if free t then (t.found, s.retireTile k t true) else none'
    | none => none'

/-- A waiting request takes effect at the beat boundary (R242). -/
def State.ringRequest (s : State) (k : ClusterId) (q : RingReq) : State :=
  let (w, s) := s.ringAct k q
  s.modCore (k.station q.st.toNat) fun c =>
    match c.phase with
    | .ringOp => { c with phase := .found w }
    | _ => c

/-! ### Arrivals (R219, R220) -/

/-- A tile on a link arrives: toll notices first, which may retire it, then its place (R220, R221). -/
def State.land (s : State) (k : ClusterId) (x : Fam × Nat × LinkTile) : State :=
  let (f, src, l) := x
  let st := f.next src
  let t := l.tile
  let toll := t.hdr.toll - BitVec.ofNat 16 (min l.notices t.hdr.toll.toNat)
  let u : Tile := { t with hdr := { t.hdr with toll := toll } }
  let s := s.modRing k fun r =>
    (r.modPlaces f src fun p => { p with link := none }).modPlaces f st fun p => { p with through := some u }
  if t.hdr.toll ≠ 0 && toll = 0 then s.retireTile k u false
  else if u.hdr.hops = 0 then s.noteGone k u (some st) else s

/-- Arrivals at one station and their checks. -/
def State.arriveAt (s : State) (k : ClusterId) (xs : List (Fam × Nat × LinkTile)) (st : Nat) : State :=
  let left (f : Fam) : Option Nat := (xs.find? fun x => x.1 == f && f.next x.2.1 == st).map (·.2.2.left)
  ((s.cluster k).ring.pairs st (left .a) (left .b)).foldl (fun s m => s.meet k st m) s

/-- TILE_ARRIVAL (R208, R214, R219): 17 cycles after its departure, earlier departures first, and after the entries of
queued tiles that came before (R211). In elastic mode the
tiles that arrive at a station in one cycle are checked together; in beat-locked mode all arrivals of the beat
are, after which the requests that wait for the beat boundary take effect. -/
def execTileArrival (k : ClusterId) (fam : Fam) (st : BitVec 6) (s : State) : Out :=
  let r := (s.cluster k).ring
  match (r.places fam (fam.prev st.toNat)).link with
  | none => .next s
  | some l =>
    let xs := if r.elastic then
        r.flying.filter fun x => x.1.next x.2.1 == st.toNat && x.2.2.left == l.left
      else r.flying
    if r.moving && l.left + 17 ≤ s.clock && s.entriesMade k && (r.flying.all fun x => l.left ≤ x.2.2.left) then
      let s := xs.foldl (fun s x => s.land k x) s
      let s := stations.foldl (fun s n => s.arriveAt k xs n) s
      if r.elastic then .next s
      else
        let reqs := (s.cluster k).ring.reqs
        let s := s.modRing k fun r => { r with reqs := [] }
        .next (reqs.foldl (fun s q => s.ringRequest k q) s)
    else .next s

/-- HELD_MEETING_TAKEN (R218): the oldest held meeting of a station is taken once the queue has room; under replay
the one whose turn it is (R361). -/
def execHeldMeetingTaken (k : ClusterId) (st : BitVec 6) (s : State) : Out :=
  let r := (s.cluster k).ring
  let ms := r.heldAt st.toNat
  let try' (m : Meeting) : Option State :=
    let s := s.modRing k fun r =>
      { r with held := Tab.put [] r.held st.toNat (ms.filter fun x => x != m) }
    s.takeMeeting k st.toNat m
  if !r.moving then .next s
  else
    let s' := match s.ringDecision k st.toNat with
      | .replay _ => ms.findSome? try'
      | _ => ms.head?.bind try'
    .next (s'.getD s)

/-- QUEUED_TILE_ENTRY (R211): a KIND 6 decision on a recorded carriageway. -/
def execQueuedTileEntry (k : ClusterId) (fam : Fam) (st : BitVec 6) (s : State) : Out :=
  let r := (s.cluster k).ring
  let n := st.toNat
  if r.fault then .next s
  else match r.entry fam n with
  | none => .next s
  | some (t, slot1) =>
    let enter (s : State) : State := s.modRing k fun r => r.modPlaces fam n fun p =>
      if slot1 then { p with through := some t, lay1 := none } else { p with through := some t, lay0 := none }
    match s.ringDecision k n with
    | .held => .next s
    | .free => .next (enter (s.logRing k n 6 t.famWord 0))
    | .replay e =>
      let mine (e : LogEntry) : Bool := e.kind == 6 && e.va == t.famWord
      if mine e then .next (enter (s.consume (s.clusterLaunch k) k.die e))
      else if s.stillToCome k n mine then .next s
      else
        let found := if e.kind = 6 then t.famWord else metValue 6 0
        .next (enter ((s.consume (s.clusterLaunch k) k.die e).diverged (k.station n) e found))

/-- SPENT_TILE_TO_LAYBY (R213): the lowest free slot. -/
def execSpentTileToLayby (k : ClusterId) (fam : Fam) (st : BitVec 6) (s : State) : Out :=
  let r := (s.cluster k).ring
  if r.moving && r.settled s.clock && r.spentMoves fam st.toNat then
    .next (s.modRing k fun r => r.modPlaces fam st.toNat fun p => match p.through with
      | some t =>
        if p.lay0.isNone then { p with through := none, lay0 := some (t, .spent) }
        else { p with through := none, lay1 := some (t, .spent) }
      | none => p)
  else .next s

/-- SPENT_TILE_RETIRE (R221): every spent tile of a family whose time has come. -/
def execSpentTileRetire (k : ClusterId) (fam : Fam) (s : State) : Out :=
  let r := (s.cluster k).ring
  if r.moving then .next ((r.retiring fam).foldl (fun s t => s.retireTile k t true) s) else .next s

/-- WAKE_EXPIRY (R210): after cycle y + 17, once every tile that departed by y has arrived; the copy of a held
meeting is kept in it. -/
def execWakeExpiry (k : ClusterId) (fam : Fam) (st : BitVec 6) (s : State) : Out :=
  let r := (s.cluster k).ring
  match (r.places fam st.toNat).wake with
  | some w =>
    if w.left + 17 < s.clock && (r.flying.all fun x => w.left < x.2.2.left) then
      .next (s.modRing k fun r => r.modPlaces fam st.toNat fun p => { p with wake := none })
    else .next s
  | none => .next s

/-- RING_DONE (R222): no tile, no waiting task and no running task of the ring is left. -/
def execRingDone (k : ClusterId) (s : State) : Out :=
  let r := (s.cluster k).ring
  if r.moving && r.inj == r.ret && r.inj != 0 && r.startedTasks.isEmpty
      && (stations.all fun st => (s.core (k.station st)).stationQ.isEmpty) then
    .next (s.modRing k fun r => { r with state := .done })
  else .next s

/-- The tile at a place of a station: 0 the through position, 1 and 2 the lay-by slots, 3 the link, 4 the wake copy. -/
def Places.at' (p : Places) (place : BitVec 3) : Option Tile :=
  match place.toNat with
  | 0 => p.through
  | 1 => p.lay0.map Prod.fst
  | 2 => p.lay1.map Prod.fst
  | 3 => p.link.map (·.tile)
  | 4 => p.wake.map (·.tile)
  | _ => Option.none

/-- A held meeting of a tile that has been hurt, or of its wake copy: it creates its task from what stands at the station
(R218, R234). -/
def Meeting.hurt (m : Meeting) (t : Tile) (wake : Bool) (g : Tile → Tile) : Meeting :=
  { m with a := if t.same m.a && m.wakeA == wake then g m.a else m.a
           b := if t.same m.b && m.wakeB == wake then g m.b else m.b }

/-- A payload word of a tile at a station, or of a wake copy, becomes uncorrectable, and is carried poisoned from then on,
in a held meeting of that tile too (R234). -/
def State.upsetTile (s : State) (k : ClusterId) (st : BitVec 6) (f : Fam) (place : BitVec 3) (word : BitVec 7) : State :=
  let hurt (t : Tile) : Tile :=
    { t with pay := { t.pay with poison := t.pay.poison ||| (1#128 <<< word.toNat) } }
  match ((s.cluster k).ring.places f st.toNat).at' place with
  | none => s
  | some t =>
    s.modRing k fun r =>
      let r := r.modPlaces f st.toNat fun p =>
        match place.toNat with
        | 0 => { p with through := some (hurt t) }
        | 1 => { p with lay0 := p.lay0.map fun x => (hurt x.1, x.2) }
        | 2 => { p with lay1 := p.lay1.map fun x => (hurt x.1, x.2) }
        | 3 => { p with link := p.link.map fun x => { x with tile := hurt x.tile } }
        | _ => { p with wake := p.wake.map fun x => { x with tile := hurt x.tile } }
      { r with held := r.held.map fun x =>
          (x.1, if x.1 = st.toNat then x.2.map fun m => m.hurt t (place = 4) hurt else x.2) }

/-- RING_FAULT (R234): an uncorrectable header or junction entry stops the carriageway, and the cluster reports
it; the rollback is the supervisor's (SUPERSTEP_ROLLBACK). -/
def execRingFault (k : ClusterId) (s : State) : Out :=
  let x := s.cluster k
  let something := !(x.ring.live .a).isEmpty || !(x.ring.live .b).isEmpty || !x.jt.isEmpty
  if something && !x.ring.fault then
    .next ((s.modRing k fun r => { r with fault := true }).post k.die (.ringFault k))
  else .next s

end Sys2Proof.Machine
end

