-- ==== Sys2Proof/Machine/RingInstr.lean ====
section
/-! DEFINITION. The RING and JUNC instructions (R238 to R248). A request reaches its cluster when the unit
executes; requests are applied in the order in which the environment lets the cores execute (log entry 20). -/

namespace Sys2Proof.Machine

/-! ### Injection (R239 to R241) -/

/-- Check 2 of R240, on the header word. -/
def headerTrap (hw : DWord) (t : Bool) : Option Trap :=
  if hw.extractLsb' 56 8 ≠ 0 || hw.extractLsb' 48 8 = 0 || t then some (illegal 2) else none
/-- Check 3 of R240, on the coordinate word. -/
def coordTrap (cw : DWord) (t : Bool) : Option Trap :=
  if cw.extractLsb' 48 16 ≠ 0 || t then some (illegal 3) else none
/-- Both in their order. -/
def injectTrap (hw cw : DWord) (hwTaint cwTaint : Bool) : Option Trap := (headerTrap hw hwTaint).or (coordTrap cw cwTaint)

/-- Check 1 of R240, on a local payload address. -/
def payloadTrap (x : Nat) : Option Trap :=
  if 0x7C00 < x then some (illegal 1) else if x % 64 ≠ 0 then some (alignTrap x) else none

/-- The checks of an injection with the source each looks at; first that of the payload's address (R240). -/
def Core.injectChecks (k : Core) (first : Option Trap) (a b d : Src) : List (List Src × Option Trap) :=
  let v : Src → DWord
    | .g n _ => k.gv n
    | .h n _ => (k.hreg n).val
  [([a], first), ([b], headerTrap (v b) (k.srcTaint b || k.ct)), ([d], coordTrap (v d) (k.srcTaint d))]

/-- The tile that a station of injection completes (R209). -/
def newTile (f : Fam) (st : BitVec 6) (seq : Nat) (hw cw : DWord) (p : Payload) : Tile :=
  { hdr := { tag := hw.extractLsb' 0 32, toll := hw.extractLsb' 32 16, hops := hw.extractLsb' 48 8,
             origin := st, fam := f, i := cw.extractLsb' 0 16, j := cw.extractLsb' 16 16,
             k := cw.extractLsb' 32 16, seq := BitVec.ofNat 32 seq }
    pay := p }

/-- A load begins with the first injection after IDLE or DONE (R212). -/
def Ring.beginLoad (r : Ring) : Ring :=
  if r.state == .idle || r.state == .done then
    { r with state := .loading, inj := 0, ret := 0, short := 0, aborted := false, loads := r.loads + 1 }
  else r

/-- Place an injected tile (R211): none where all three places are occupied; behind a queued tile it queues too. -/
def Ring.place (r : Ring) (f : Fam) (st : BitVec 6) (hw cw : DWord) (pay : Payload) : Option Ring :=
  let n := st.toNat
  let p := r.places f n
  let t := newTile f st p.injected hw cw pay
  let q : Places := { p with injected := p.injected + 1 }
  let put (q : Places) : Option Ring := some { r.modPlaces f n (fun _ => q) with inj := r.inj + 1 }
  if r.throughFree f n && (r.entry f n).isNone then put { q with through := some t }
  else if p.lay0.isNone then put { q with lay0 := some (t, .queued) }
  else if p.lay1.isNone then put { q with lay1 := some (t, .queued) }
  else none

/-- An injection whose payload has been copied: it ends with no tile under a raised abort line, is refused at a
full count, waits for a place or for a queued tile that enters first (R211), or places its tile (R240). -/
def State.inject (s : State) (k : ClusterId) (f : Fam) (st : BitVec 6) (hw cw : DWord) (pay : Payload) : Res :=
  let x := s.cluster k
  let idle (s : State) : State := s.modMe fun c => { c with phase := .idle }
  if x.abortLine then .done (idle s)
  else if (x.ring.state == .loading || x.ring.state == .running) && x.ring.inj = 65535 then .trap (illegal 0)
  else match if s.entryDue k f st.toNat then none else x.ring.beginLoad.place f st hw cw pay with
  | some r => .done (idle (s.modRing k fun _ => r))
  | none => .stall (s.modMe fun c => { c with phase := .tile pay })

/-- A payload of 1,024 bytes as read, with the poison of its words. -/
def payloadOf (bs : TBytes) (poison : List Bool) : Payload :=
  { bytes := BitVec.ofNat 8192 (valOf bs), taint := BitVec.ofNat 1024 (packBits (bs.map Prod.snd)),
    poison := BitVec.ofNat 128 (packBits poison) }

/-- The family of a FAM bit (R238). -/
def famOf (b : BitVec 1) : Fam := if b = 0 then .a else .b

/-- An injection from the issuing core's local memory: the checks of R240, the payload's copy, then the
placement. -/
def State.injectLocal (s : State) (k : ClusterId) (f : Fam) (st : BitVec 6) (a b d : BitVec 5) : Res :=
  let c := s.me
  let hw := c.gv b
  let cw := c.gv d
  match c.phase with
  | .tile p => s.inject k f st hw cw p
  | _ =>
    let x := (c.gv a).toNat
    let r := (s.cluster k).ring
    match (payloadTrap x).or (injectTrap hw cw (c.gt b || c.ct) (c.gt d)) with
    | some t => .trap t
    | none =>
      if (r.state == .loading || r.state == .running) && r.inj = 65535 then .trap (illegal 0)
      else if c.vecTouchesLocal x 1024 then .wait
      else match s.readLocal s.cur x 1024 with
      | .error t => .trap t
      | .ok (bs, s) => s.inject k f st hw cw (payloadOf bs [])

/-- RINJ (R239, R240). -/
def execRinj (o : RinjO) (s : State) : Out :=
  unit (len2 o.q) o.q (fun s =>
    let c := s.me
    let (a, b, d) := (Src.g o.a o.ta, Src.g o.b o.tb, Src.g o.d o.td)
    c.needPast [a, b, d] (c.injectChecks (payloadTrap (c.gv o.a).toNat) a b d)
      (s.injectLocal s.cur.cluster (famOf o.fam) s.cur.station o.a o.b o.d)) s

/-- Whether the launch of the issuing core occupies a cluster of its die (R241, R315). -/
def State.occupies (s : State) (k : ClusterId) : Bool :=
  (s.core (k.station 0)).launch == s.me.launch && s.me.launch.isSome

/-- RINJR (R241). A cluster that the launch does not occupy is reported before the checks of R240 (DESIGN CHOICE, log entry
77). -/
def execRinjr (o : RinjrO) (s : State) : Out :=
  unit (len2 o.q) o.q (fun s =>
    let c := s.me
    let (a, b, d) := (Src.g o.a o.ta, Src.g o.b o.tb, Src.g o.d o.td)
    let k : ClusterId := ⟨s.cur.die, o.cluster⟩
    if !s.occupies k then c.needPast [a, b, d] [([], some (illegal 0))] (.trap (illegal 0))
    else c.needPast [a, b, d] (c.injectChecks (payloadTrap (c.gv o.a).toNat) a b d)
      (s.injectLocal k (famOf o.fam) o.station o.a o.b o.d)) s

/-! ### Park, unpark, retire (R242, R243) -/

/-- rpark, runpark and rtire of the issuing core (R242): at once, a queued tile that stands to enter going first (R211), or
at the next beat boundary of a beat-locked RUNNING ring; the found word is tainted when the ring is RUNNING then. -/
def State.ringOp (s : State) (d : BitVec 5) (q : RingReq) : Res :=
  let c := s.cur
  let k := c.cluster
  let r := (s.cluster k).ring
  let finish (s : State) (w : DWord) (t : Bool) : Res := (s.modMe fun k => { k with phase := .idle }).toG d w t
  match s.me.phase with
  | .found w => finish s w true
  | p =>
    let waiting := p == .ringOp && r.reqs.contains q
    if waiting || (s.me.greg d).fill = .pending || s.entryDue k q.fam q.st.toNat then .wait
    else if r.moving && !r.elastic && !r.flying.isEmpty then
      .stall ((s.modRing k fun r => { r with reqs := r.reqs ++ [q] }).modMe fun k =>
        { k with phase := .ringOp })
    else
      let run := r.state == .running
      match s.ringDecide c with
      | .held => .wait
      | .free =>
        let (w, s) := s.ringAct k q
        finish (if r.logged then s.logCore c 7 w (q.fn.zeroExtend 64) else s) w run
      | .replay e =>
        let (w, s) := s.ringAct k q
        finish (s.replayed c e 7 w) w run

/-- RPARK (R243). -/
def execRpark (o : RparkO) (s : State) : Out :=
  unit (len2 o.q) o.q (fun s => s.ringOp o.d ⟨s.cur.station, 2, famOf o.fam, 0⟩) s

/-- RUNPARK (R243). -/
def execRunpark (o : RunpO) (s : State) : Out :=
  unit (len2 o.q) o.q (fun s => s.ringOp o.d ⟨s.cur.station, 3, famOf o.fam, o.slot.zeroExtend 2⟩) s

/-- RTIRE (R243). -/
def execRtire (o : RtireO) (s : State) : Out :=
  unit (len2 o.q) o.q (fun s => s.ringOp o.d ⟨s.cur.station, 4, famOf o.fam, o.place⟩) s

/-! ### Status and control (R244, R245) -/

/-- Code of a ring state in RSTAT (R223). -/
def RingState.code : RingState → Nat
  | .idle => 0 | .loading => 1 | .running => 2 | .done => 3

/-- RSTAT (R223). -/
def Ring.rstat (r : Ring) : DWord :=
  BitVec.ofNat 64 (r.inj * 2 ^ 48 + r.ret * 2 ^ 32 + r.short * 2 ^ 16 + r.aborted.toNat * 2 ^ 10
    + r.fault.toNat * 2 ^ 9 + r.record.toNat * 2 ^ 8 + r.elastic.toNat * 2 ^ 7 + r.state.code * 2 ^ 4)

/-- The carriageway of the issuing core's cluster. -/
def State.myRing (s : State) : Ring := (s.cluster s.cur.cluster).ring

/-- RSTAT (R244): tainted. -/
def execRstat (o : XD) (s : State) : Out :=
  unit (len2 o.q) o.q (fun s => s.toG o.d s.myRing.rstat true) s

/-- Whether the writes of the other cores of a cluster are performed, which the change to DONE released (R222,
log entry 22). -/
def State.tasksPerformed (s : State) (c : CoreId) : Bool :=
  stations.all fun st =>
    let d := c.cluster.station st
    d == c || (s.core d).performed 3

/-- RWAIT (R244): samples the abort line throughout; the IDLE word is tainted, the DONE word is not. -/
def execRwait (o : XD) (s : State) : Out :=
  unit (len2 o.q) o.q (fun s =>
    let r := s.myRing
    if s.aborted s.cur then .trap (abortTrap 1)
    else if r.state = .idle then s.toG o.d r.rstat true
    else if r.state = .done && s.tasksPerformed s.cur then
      (s.modMe fun k => { k with sawLoad := r.loads }).toG o.d r.rstat false
    else .wait) s

/-- RSTART (R245). -/
def execRstart (o : XQ) (s : State) : Out :=
  unit (len2 o.q) o.q (fun s => .done (s.modRing s.cur.cluster fun r =>
    if r.state = .loading then { r with state := .running, everElastic := r.everElastic || r.elastic }
    else r)) s

/-- RRESET (R245): MODE, REC and the junction table stay. -/
def execRreset (o : XQ) (s : State) : Out :=
  unit (len2 o.q) o.q (fun s =>
    let r := s.myRing
    if r.state = .running then .trap (illegal 0)
    else if r.state = .idle then .done s
    else .done (s.modRing s.cur.cluster fun r =>
      { r.discard with state := .idle, inj := 0, ret := 0, short := 0, aborted := false, fault := false })) s

/-- RMODE (R245). -/
def execRmode (o : RmodeO) (s : State) : Out :=
  unit (len2 o.q) o.q (fun s =>
    if s.myRing.state = .running then .trap (illegal 0)
    else .done (s.modRing s.cur.cluster fun r => { r with elastic := o.mode == 1, record := o.record })) s

/-! ### The junction table (R246 to R248) -/

/-- Decode a junction record (R216): its entry number and contents; none where it breaks the layout. -/
def junctionRec (bs : List Byte) : Option (Nat × JEntry) :=
  let f (a n : Nat) : Nat := natOfBytes ((bs.drop a).take n)
  if f 20 1 / 4 != 0 || f 21 1 / 64 != 0 || f 22 10 != 0 || f 16 4 % 4 != 0 then none
  else some (f 21 1,
    { atag := BitVec.ofNat 32 (f 0 4), amask := BitVec.ofNat 32 (f 4 4), btag := BitVec.ofNat 32 (f 8 4),
      bmask := BitVec.ofNat 32 (f 12 4), start := BitVec.ofNat 32 (f 16 4), valid := (f 20 1).testBit 0,
      keq := (f 20 1).testBit 1 })

/-- The 32 bytes of an entry; one that nothing has written reads as an invalid record of zeros with its own
number (log entry 23). -/
def junctionBytes (n : Nat) (e : Option JEntry) : List Byte :=
  let e := e.getD ⟨0, 0, 0, 0, 0, false, false⟩
  bytesOfNat 4 e.atag.toNat ++ bytesOfNat 4 e.amask.toNat ++ bytesOfNat 4 e.btag.toNat
    ++ bytesOfNat 4 e.bmask.toNat ++ bytesOfNat 4 e.start.toNat
    ++ bytesOfNat 1 (e.valid.toNat + 2 * e.keq.toNat) ++ bytesOfNat 1 n ++ bytesOfNat 10 0

/-- The local address of a junction record, checked (R247). -/
def junctionAddr (v : DWord) : Except Trap Nat :=
  if 0x7FE0 < v.toNat then .error (illegal 1)
  else if v.toNat % 32 ≠ 0 then .error (alignTrap v.toNat)
  else .ok v.toNat

/-- JWR (R247). -/
def execJwr (o : XA) (s : State) : Out :=
  unit (len2 o.q) o.q (fun s => s.me.need [.g o.a o.ta]
    (let c := s.me
     match junctionAddr (c.gv o.a) with
     | .error t => .trap t
     | .ok a =>
       if c.vecTouchesLocal a 32 then .wait
       else match s.readLocal s.cur a 32 with
       | .error t => .trap t
       | .ok (bs, s) => match junctionRec (bs.map Prod.fst) with
         | none => .trap (illegal 1)
         | some (n, e) =>
           if anyTaint bs || c.gt o.a || c.ct then .trap (illegal 1)
           else if s.myRing.state = .running then .trap (illegal 0)
           else .done (s.modCluster s.cur.cluster fun x => { x with jt := Tab.put none x.jt n (some e) }))) s

/-- JRD (R248): intrinsic taint unless the ring is RUNNING. -/
def execJrd (o : JrdO) (s : State) : Out :=
  unit (len2 o.q) o.q (fun s => s.me.need [.g o.a o.ta]
    (let c := s.me
     match junctionAddr (c.gv o.a) with
     | .error t => .trap t
     | .ok a =>
       if c.vecTouchesLocal a 32 then .wait
       else
         let t := c.gt o.a || c.ct || s.myRing.state != .running
         let n := o.entry.toNat
         let bs := junctionBytes n (Tab.get none (s.cluster s.cur.cluster).jt n)
         .done (s.storeLocal s.cur a (bs.map fun b => (b, t))))) s

end Sys2Proof.Machine
end

