-- ==== Sys2Proof/Machine/Cut.lean ====
section
/-! DEFINITION. Cuts: the ordered frontier (R430), the cut of a collective step (R434), and the cut of a cast
(R410, R412). -/

namespace Sys2Proof.Machine

/-! ### The frontier (R430) -/

/-- Fabric time in quarter nanoseconds: a core cycle is 0.625 ns (R122, R421); a package that is ahead of the grandmaster
runs slow (log entry 74). -/
def State.ftime (s : State) : Nat :=
  s.ftimeBase + (if s.ftimeSlow then 2 * (s.clock - s.ftimeAt) else 5 * (s.clock - s.ftimeAt) / 2)

/-- A Tymas port. -/
def State.fport (s : State) (p : BitVec 3) : FPort := Tab.get FPort.blank s.fports p.toNat
/-- Change a port. -/
def State.modFport (s : State) (p : BitVec 3) (f : FPort → FPort) : State :=
  { s with fports := Tab.put FPort.blank s.fports p.toNat (f (s.fport p)) }

/-- The ports of a package. -/
def allPorts : List (BitVec 3) := (List.range 8).map fun i => BitVec.ofNat 3 i

/-- Whether a port counts in the frontier: UP, stalled, or DOWN or training again after it was up, unless excised (R430, R432,
R433). -/
def FPort.inFrontier (p : FPort) : Bool :=
  match p.state with
  | .up | .stalled => true
  | .down | .training => p.wasUp
  | _ => false

/-- The frontier: the least milestone last received over the ports that count, with the package's own fabric time
for loopback (R430). -/
def State.frontier (s : State) : Nat :=
  allPorts.foldl (fun f p => if (s.fport p).inFrontier then min f (s.fport p).mile else f) s.ftime

end Sys2Proof.Machine

namespace Sys2Proof

/-- The key of an ordered packet (R427). -/
def Packet.key (p : Packet) : Nat × Nat × Nat := (p.stamp, p.src.toNat, p.sseq.toNat)

end Sys2Proof

namespace Sys2Proof.Machine

/-- Order of keys (R427). -/
def keyLt (a b : Nat × Nat × Nat) : Bool :=
  a.1 < b.1 || (a.1 == b.1 && (a.2.1 < b.2.1 || (a.2.1 == b.2.1 && a.2.2 < b.2.2)))

/-! ### The cut of a collective step (R434) -/

/-- The stamps of the delivered markers of a step, by source. -/
def State.markersOf (s : State) (part : BitVec 4) (step : DWord) : List (BitVec 20 × Nat) :=
  s.markers.filterMap fun m => if m.1 == step && m.2.1 == part then some m.2.2 else none

/-- Whether the cut of a step may be taken: every participant's marker is delivered, and so is every ordered packet
stamped at most T (R434). -/
def State.stepReady (s : State) (l : Nat) (x : CutStep) : Bool :=
  match x.group with
  | none => false
  | some ps =>
    let ms := s.markersOf (s.partOf l) x.step
    let t := ms.foldl (fun t m => max t m.2) 0
    (ps.all fun p => ms.any fun m => m.1 == p) && decide (t < s.frontier)
      && (s.odb.all fun p => decide (t < p.stamp))
      && s.waitPkts.all fun w => !w.1.ordered || decide (t < w.1.stamp)

/-- The steps whose cut is a gang's next sstep; the copies of a redundant gang name them together. -/
def State.openSteps (s : State) (l g : Nat) : List CutStep :=
  (s.launch l).cutSteps.filter fun x => x.gang == (s.launch l).primaryOf g && !x.taken

/-- The markers of a partition's steps whose cuts have been taken are done with, once no launch of it that goes on waits
for a cut of the same number (R434). -/
def State.sweepMarkers (s : State) (part : BitVec 4) (steps : List DWord) : State :=
  let waits (n : DWord) : Bool := s.launches.any fun x => match x.2 with
    | some y => !y.reported && s.partOf x.1 == part && y.cutSteps.any fun c => !c.taken && c.step == n
    | none => false
  { s with markers := s.markers.filter fun m => !(m.2.1 == part && steps.contains m.1 && !waits m.1) }

/-- Whether a gang's barrier must wait for a cut (R434). -/
def State.cutHeld (s : State) (l g : Nat) : Bool := (s.openSteps l g).any fun x => !s.stepReady l x

/-! ### The cut of a cast (R410, R412) -/

/-- Handle word of a PKG command: KIND 6, the partition in [11:8] of INST (R412). -/
def pkgHandle (part : BitVec 4) (kind seq status : Nat) : DWord :=
  handleWord 6 (part.toNat * 256 + kind) seq status 0

/-- Change a partition. -/
def State.modPart (s : State) (p : BitVec 4) (f : Part → Part) : State :=
  match s.part p with
  | some x => { s with parts := Tab.put none s.parts p.toNat (some (f x)) }
  | none => s

/-- A cast ends with a status and nothing of it stays: its handle fills, if its core still belongs to the launch; a
pre-emption does not stop the drain, so of a stopped launch it fills in the image (R412). -/
def State.endCast (s : State) (p : BitVec 4) (k : Cast) (st : Nat) : State :=
  let s := s.modPart p fun x => { x with cast := none }
  let w := pkgHandle p 0 k.seq st
  if (s.core k.core).launch = some k.launch then s.completeHandle k.core (some k.h) k.inb w k.taint
  else s.modLaunch k.launch fun x =>
    { x with savedCores := x.savedCores.map fun c =>
        if c.1 = coreNum k.core then (c.1, c.2.complete (some k.h) k.inb w k.taint) else c }

/-- The entries of a range table (R412): none where one breaks its limits. -/
def rangeTable : List Byte → Nat → Option (List (Nat × Nat))
  | _, 0 => some []
  | bs, n + 1 =>
    let va := natOfBytes (bs.take 8)
    let len := natOfBytes ((bs.drop 8).take 8)
    if va % 4096 ≠ 0 || 2 ^ 56 ≤ va || len = 0 || len % 4096 ≠ 0 then none
    else (rangeTable (bs.drop 16) n).map fun t => (va, len) :: t

/-- Whether the ranges of a table lie within a segment and do not overlap. -/
def rangesOk (base size : Nat) : List (Nat × Nat) → Bool
  | [] => true
  | (a, n) :: rest =>
    decide (base ≤ a) && decide (a + n ≤ base + size)
      && (rest.all fun r => decide (r.1 + r.2 ≤ a) || decide (a + n ≤ r.1)) && rangesOk base size rest

/-- The pages of a range table in the order in which they drain. -/
def rangePages (t : List (Nat × Nat)) : List Nat :=
  t.flatMap fun r => (List.range (r.2 / 4096)).map fun i => r.1 + 4096 * i

/-- The physical pages that a launch's translation gives now. -/
def State.physPages (s : State) (l : Nat) (vas : List Nat) : List Nat :=
  vas.filterMap fun va => match s.xlate l va 0 with
    | .ok pa => some (pa / 4096)
    | .error _ => none

/-- A cast's cut at superstep number num: the range table is read, checked, and every page of the ranges is marked, those
that no translation gives now by their addresses (R410, R412). -/
def State.castCut (s : State) (p : BitVec 4) (k : Cast) (num : Word) : State :=
  let x := s.launch k.launch
  match hbmReadParts (fun s va n => s.hbmReadPart k.launch k.core va n) s (lineParts k.ranges (16 * k.nrange)) with
  | .fault _ _ => s.endCast p k 3
  | .bad _ s => s.endCast p k 4
  | .ok bs s =>
    match rangeTable (bs.map Prod.fst) k.nrange with
    | none => s.endCast p k 6
    | some t =>
      if !rangesOk x.rcd.segBase x.rcd.segSize t then s.endCast p k 6
      else
        let c := Tab.get 0 s.counters p.toNat + 1
        match (s.part p).bind (·.tsk) with
        | none => s.endCast p k 6
        | some key => s.modPart p fun y => { y with cast := some { k with
            cut := true, c := c, sstep := num, table := t, marked := s.physPages k.launch (rangePages t)
            late := (rangePages t).filter fun va => (s.physPages k.launch [va]).isEmpty, tsk := key,
            pmr := y.pmr } }

/-- Whether a completed barrier of a gang, or of its copy in a redundant launch, is the cut of a cast. -/
def State.selects (s : State) (l g : Nat) (steps : List DWord) (k : Cast) : Bool :=
  let n := (s.launch l).rcd.gangs
  k.launch == l && (k.gang == g || ((s.launch l).rcd.red && k.gang == g + n)) && !k.cut
    && (k.cutStep == 0 || steps.contains k.cutStep)

/-- Whether the pour engine waits for the answer to a translation fault of a partition. -/
def State.pourWaits (s : State) (p : BitVec 4) : Bool := s.xfaults.any fun f => f.ag == .pour && f.part == p

/-- A barrier whose cut cannot read a cast's range table yet: the state that waits for the owner's answer, or for a line that
cannot be pinned (R329, R333, R412, R414). -/
def State.cutFault (s : State) (l g : Nat) : Option State :=
  let steps := (s.openSteps l g).map (·.step)
  s.parts.findSome? fun x => match x.2.bind (·.cast) with
    | some k =>
      if s.selects l g steps k then
        match hbmReadParts (fun s va n => s.hbmReadPart k.launch k.core va n) s (lineParts k.ranges (16 * k.nrange)) with
        | .fault e va =>
          if s.pourWaits (BitVec.ofNat 4 x.1) then some s else some (s.newFault .pour l va e 0 false).1
        | _ =>
          match s.xlateRange k.launch 0 (lineParts k.ranges (16 * k.nrange)) with
          | .ok xs => if xs.any fun y => !s.lineFree (homeDie y.1) y.1 then some s else none
          | .error _ => none
      else none
    | none => none

/-- Take the cuts of the casts of a gang that select a completed barrier: a local cut, or a step just cut. -/
def State.cutCasts (s : State) (l g : Nat) (steps : List DWord) (num : Word) : State :=
  (s.parts.map Prod.fst).foldl (fun s n =>
    let p := BitVec.ofNat 4 n
    match (s.part p).bind (·.cast) with
    | some k => if s.selects l g steps k then s.castCut p k num else s
    | none => s) s

/-- The cuts that a completed barrier of a gang takes (R410, R434). -/
def State.takeCuts (s : State) (l g : Nat) : State :=
  let steps := (s.openSteps l g).map (·.step)
  let s := s.modLaunch l fun x =>
    { x with cutSteps := x.cutSteps.map fun y => if y.gang = x.primaryOf g then { y with taken := true } else y }
  let s := s.sweepMarkers (s.partOf l) steps
  s.cutCasts l g steps ((s.launch l).gang g).sstep

end Sys2Proof.Machine
end

