-- ==== Sys2Proof/Machine/Gang.lean ====
section
/-! DEFINITION. The gang as a whole: who has ended (R22, R253), triggers (R255), held writes and signatures of
redundant runs (R386), and the global barrier's effect (R130, R233, R253, R350). -/

namespace Sys2Proof.Machine

/-- Whether a member's part in the launch has ended (R22, R36). -/
def State.ended (s : State) (c : CoreId) : Bool := (s.core c).partEnded || (s.core c).left

/-- The clusters of a gang, as named in the package. -/
def Gang.clusterIds (g : Gang) : List ClusterId :=
  g.clusters.map fun n => ⟨BitVec.ofNat 4 (n / 1024), BitVec.ofNat 10 n⟩

/-- Every core of the clusters and every ramp core of a gang, idle stations included. -/
def Gang.placeOf (g : Gang) : List CoreId :=
  (g.clusterIds.flatMap fun k => stations.map fun st => k.station st) ++ g.ramps.map fun r => .ramp r.1 r.2

/-- Every core of a gang: those of its clusters, its ramp cores, and the members that have come to it from a third copy
(R387; log entry 67). -/
def Gang.allCores (g : Gang) : List CoreId := g.placeOf ++ g.guests

/-- Change every core of a list. -/
def State.eachCore (s : State) (cs : List CoreId) (f : CoreId → Core → Core) : State :=
  cs.foldl (fun s c => s.modCore c (f c)) s
/-- Change every cluster of a list. -/
def State.eachCluster (s : State) (ks : List ClusterId) (f : ClusterId → Cluster → Cluster) : State :=
  ks.foldl (fun s k => s.modCluster k (f k)) s
/-- Change a gang of a launch. -/
def State.modGang (s : State) (l g : Nat) (f : Gang → Gang) : State := s.modLaunch l fun x => x.modGang g f

/-! ### Triggers (R255, R374) -/

/-- Whether a gang has triggered. -/
def State.gangTriggered (s : State) (g : Gang) : Bool :=
  g.trigDone || (g.placed && g.members.all fun c => g.triggered.contains c || s.ended c)

/-- The die that accepted a launch: the lowest of its mask, or its queue's (R369). -/
def Launch.home (x : Launch) : BitVec 4 := x.rcd.dieList.headD x.die

/-- The latest launch before l with an ID on the same die. -/
def State.named (s : State) (l : Nat) (id : Word) (d : BitVec 4) : Option Launch :=
  (List.range l).reverse.findSome? fun n => match Tab.get none s.launches n with
    | some y => if y.id = id && y.home = d then some y else none
    | none => none

/-- What a dependence of R375 has come to. -/
inductive DepState where
  | met | waits | failed
  deriving DecidableEq, Repr

/-- The state of a launch's dependence. -/
def State.depState (s : State) (l : Nat) : DepState :=
  let x := s.launch l
  match s.named l x.rcd.depId x.home with
  | none => .met
  | some y =>
    if !x.rcd.depWhen && y.everTriggered then .met
    else if y.reported then (if y.state = .ended 0 then .met else .failed)
    else .waits

/-- The dependences of waiting launches that are met now start their ageing (R375). -/
def State.meetDeps (s : State) : State :=
  (s.launches.map Prod.fst).foldl (fun s l =>
    let x := s.launch l
    if x.state = .waiting && !x.depMet && s.depState l = .met then
      s.modLaunch l fun y => { y with depMet := true, waitFrom := s.clock }
    else s) s

/-- Note the gangs of a launch that have triggered, and the launch's trigger; a trigger stands from then on, and meets
the dependences that name it (R255, R375). -/
def State.noteTriggers (s : State) (l : Nat) : State :=
  (s.modLaunch l fun x =>
    let gs := x.gangs.map fun g => { g with trigDone := s.gangTriggered g }
    { x with gangs := gs
             everTriggered := x.everTriggered || (gs.length ≥ x.rcd.gangs && gs.all fun g => g.trigDone) }).meetDeps

/-! ### Signatures and held writes (R386) -/

/-- The bytes written, the last value at each address. -/
def lastWritten : List (Nat × Byte) → List (Nat × Byte)
  | [] => []
  | x :: xs => if xs.any fun y => y.1 == x.1 then lastWritten xs else x :: lastWritten xs

/-- Terms of the untainted registers of a class whose numbers start at base. -/
def sumRegs {α : Type} (base n : Nat) (get : Nat → α × Bool) (val : α → Nat) : BitVec 64 :=
  (List.range n).foldl (fun x i =>
    let (v, t) := get i
    if t then x else x + Config.registerHash (base + i) (val v)) 0

/-- A member's signature of its superstep (R386). -/
def Core.signature (k : Core) : BitVec 64 :=
  let bytes := (lastWritten k.written).foldl (fun x y => x + Config.byteHash y.1 y.2) 0
  bytes + sumRegs 0 32 (fun i => let r := k.greg (BitVec.ofNat 5 i); (r.val, r.taint)) BitVec.toNat
    + sumRegs 32 16 (fun i => let r := k.vreg (BitVec.ofNat 4 i); (r.val, r.taint)) BitVec.toNat
    + sumRegs 48 4 (fun i => let r := k.mreg (BitVec.ofNat 2 i); (r.val, r.taint)) BitVec.toNat
    + sumRegs 56 8 (fun i => let r := k.preg (BitVec.ofNat 3 i); (r.val, r.taint)) Bool.toNat
    + sumRegs 64 8 (fun i => let r := k.hreg (BitVec.ofNat 3 i); (r.val, r.taint)) BitVec.toNat
    + sumRegs 72 8 (fun i => let r := k.wreg (BitVec.ofNat 3 i); (r.val, r.taint)) BitVec.toNat
    + sumRegs 80 4 (fun i => let r := k.lcreg i; (r.val, r.taint)) BitVec.toNat

/-- The ranks at which two copies of a gang disagree. -/
def State.disagreements (s : State) (a b : Gang) : List Nat :=
  (List.range a.members.length).filter fun r =>
    match a.members[r]?, b.members[r]? with
    | some c, some d => (s.core c).signature != (s.core d).signature
    | _, _ => true

/-- HELD_BUFFER_FULL (R386): a copy's half of the buffer has no room for another line: the primary's held writes are
performed at once. -/
def execHeldBufferFull (l : Nat) (s : State) : Out :=
  let x := s.launch l
  match (List.range (2 * x.rcd.gangs)).find? fun g => x.heldFull g (16 + 64) with
  | some g => if x.rcd.red then .next (s.spillHeld l (x.primaryOf g)) else .next s
  | none => .next s

/-- Whether the held writes on which a gang's copies agreed have all been performed, none of them waiting for room in
a side log or in it (R336, R386). -/
def State.settled (s : State) (l g : Nat) : Bool :=
  let x := (s.launch l).gang g
  x.held.isEmpty && (x.members.all fun c => (s.core c).sideLog.isEmpty)
    && x.clusterIds.all fun k => (s.cluster k).copyLog.isEmpty

/-! ### The global barrier (R253) -/

/-- Messages that every receive queue has received (R442). -/
def State.rqLengths (s : State) : Tab Nat :=
  s.dies.flatMap fun d => d.2.rqSources.map fun q => (d.1 * 64 + q.1, q.2.length)

/-- Appends that every die's fabric engine has taken (R442). -/
def State.fabLengths (s : State) : Tab Nat := s.dies.map fun d => (d.1, d.2.fabAppenders.length)

/-- What completing a barrier does to a gang: shadows emptied and checkpoints captured at every station, which may run
a created task although no member stands there (log entry 59), SERVICE cleared, SSTEPNO counted, the pending mode in force, and every waiting member released. -/
def State.completeBarrier (s : State) (l g : Nat) : State :=
  let x := (s.launch l).gang g
  let num := x.sstep + 1
  let ks := x.clusterIds
  let s := s.eachCore x.allCores fun _ k =>
    { k with service := 0, shadow := [], ckpt := some k.toRegs, written := [],
             mark := (k.atomicCount, k.hIssued, k.taskRing)
             phase := if k.phase = .sstep then .sstepDone num else k.phase }
  let s := x.members.foldl (fun s c => s.acquireHbm c 7) s
  let s := s.eachCluster ks fun _ y =>
    { y with shadow := [], ringCkpt := some y.ring, jtCkpt := y.jt, copyAppenders := [], copyCkpt := y.copyNext
             chainCkpt := y.chains.map fun z => (z.1, z.2.next)
             chains := y.chains.map fun z => (z.1, { z.2 with appenders := [] }) }
  let loading := ks.any fun k => (s.cluster k).ring.state == .loading
  let s := { s with tags := s.tags.filter fun t => match t.2 with
      | some w => !(w.launch == l && w.gang == g)
      | none => false }
  s.modGang l g fun y =>
    let y := match y.pendingMode with
      | some (m, _) => { y with det := m.getLsbD 0, rr := m.extractLsb' 1 2, pendingMode := none }
      | none => y
    { y with pkgMark := (s.launch l).pkgCount, pkgIssued := 0, arrived := [], sstep := num, nonReplayable := loading, rollbacks := 0, atomicPos := [],
             rqMark := s.rqLengths, fabMark := s.fabLengths,
             convoyCkpt := (s.launch l).convoys }

/-- Whether every member of a gang has arrived at the barrier or ended, and at least one waits. -/
def State.barrierReady (s : State) (g : Gang) : Bool :=
  g.placed && !g.arrived.isEmpty && g.members.all fun c => g.arrived.contains c || s.ended c

/-- The fault of a disagreeing pair: both members take DUAL_MISMATCH with the partner as value (R387). -/
def State.mismatch (s : State) (c d : CoreId) : State :=
  let one (s : State) (x y : CoreId) : State :=
    let w := s.messageWords x (s.core x).pc.toNat
    s.trapAt x (s.core x).pc w.1 w.2 ⟨.dualMismatch, BitVec.ofNat 64 (coreNum y)⟩
  one (one s c d) d c

/-- Compare the copies of a redundant gang: all pairs agree, and the primary's held writes are performed and the
partner's discarded; or the disagreeing pairs trap (R386, R387). -/
def State.settle (s : State) (l g : Nat) : Except State State :=
  let x := s.launch l
  let p := g + x.rcd.gangs
  match s.disagreements (x.gang g) (x.gang p) with
  | [] => .ok ((s.flushHeld l g).modGang l p fun y => { y with held := [] })
  | rs =>
    let pairs := (x.gang g).members.zip (x.gang p).members
    let s := rs.foldl (fun s r => match pairs[r]? with
      | some (c, d) => s.mismatch c d
      | none => s) s
    .error (s.modGang l g fun y => { y with disagree := rs })

/-- SSTEP_COMPLETE (R253): every member has arrived or ended; a redundant gang and its partner together. -/
def execSstepComplete (l g : Nat) (s : State) : Out :=
  let x := s.launch l
  if (x.gang g).partner || (x.gang g).thirdOf.isSome || !(x.gang g).disagree.isEmpty then .next s
  else if (x.gang g).rolling.isSome then .next s
  else if !x.rcd.red then
    if s.barrierReady (x.gang g) && !s.cutHeld l g then
      match s.cutFault l g with
      | some s => .next s
      | none => .next ((s.completeBarrier l g).takeCuts l g)
    else .next s
  else
    let p := g + x.rcd.gangs
    if s.barrierReady (x.gang g) && s.barrierReady (x.gang p) && !s.cutHeld l g then
      match s.cutFault l g with
      | some s => .next s
      | none =>
        match s.settle l g with
        | .ok s =>
          if s.settled l g then .next (((s.completeBarrier l g).completeBarrier l p).takeCuts l g) else .next s
        | .error s => .next s
    else .next s

end Sys2Proof.Machine
end

