-- ==== Sys2Proof/Machine/Convoy.lean ====
section
/-! DEFINITION. The CONVOY instructions (R249 to R255): convoys, the abort line, the superstep barrier and the
trigger, with the events GENERATION_COMPLETE and ABORT_LINE_ARRIVAL. -/

namespace Sys2Proof.Machine

/-! ### Convoys (R226 to R228, R250, R251) -/

/-- Key of a convoy of a die in a launch. -/
def convoyKey (d : BitVec 4) (id : BitVec 12) : Nat := d.toNat * 4096 + id.toNat

/-- A convoy as declared (R226). -/
def Convoy.start (expect : Nat) : Convoy :=
  { expect := expect, members := [], mustered := false, gen := 0, isOpen := false, required := [],
    arrived := [], nextArrived := [] }

/-- The convoy an instruction of the issuing core names; ILLEGAL_OPERAND 0 where the launch declares none
(R249). -/
def State.convoy (s : State) (id : BitVec 12) : Except Trap Convoy :=
  match Tab.get none (s.launchOf s.cur).convoys (convoyKey s.cur.die id) with
  | some v => if id = 0 then .error (illegal 0) else .ok v
  | none => .error (illegal 0)

/-- Replace a convoy. -/
def State.setConvoy (s : State) (l : Nat) (key : Nat) (v : Convoy) : State :=
  s.modLaunch l fun x => { x with convoys := Tab.put none x.convoys key (some v) }

/-- A join (R227, R228): a joiner enters an open generation's required set while the convoy is not
mustered. -/
def Convoy.join (v : Convoy) (c : CoreId) : Convoy :=
  if v.members.contains c then v
  else
    let ms := v.members ++ [c]
    { v with members := ms, mustered := v.mustered || v.expect ≤ ms.length
             required := if v.isOpen && !v.mustered then v.required ++ [c] else v.required }

/-- A leave (R227, R228): a convoy without members is dissolved, keeping GEN. -/
def Convoy.leave (v : Convoy) (c : CoreId) : Convoy :=
  let ms := v.members.erase c
  { v with members := ms, mustered := v.mustered && !ms.isEmpty, required := v.required.erase c
           arrived := v.arrived.erase c, nextArrived := v.nextArrived.erase c }

/-- A member's arrival (R228): it opens a generation where none is open, arrives in the open one if it is
required there, and else in the next. -/
def Convoy.arrive (v : Convoy) (c : CoreId) : Convoy :=
  if !v.isOpen then { v with isOpen := true, required := v.members, arrived := [c] }
  else if v.required.contains c then { v with arrived := v.arrived ++ [c] }
  else { v with nextArrived := v.nextArrived ++ [c] }

/-- Whether the open generation is complete (R228). -/
def Convoy.complete (v : Convoy) : Bool :=
  v.isOpen && v.mustered && v.required.all fun c => v.arrived.contains c

/-- After a completion: GEN, and the next generation open if someone has arrived in it (R228). -/
def Convoy.advance (v : Convoy) : Convoy :=
  { v with gen := v.gen + 1, isOpen := !v.nextArrived.isEmpty, required := v.members,
           arrived := v.nextArrived, nextArrived := [] }

/-- A core leaves every convoy of its launch (R227). -/
def State.leaveConvoys (s : State) (c : CoreId) : State :=
  s.modLaunch (s.launchIx c) fun x =>
    { x with convoys := x.convoys.map fun y => (y.1, y.2.map fun v => v.leave c) }

/-- Change the convoy an instruction names. -/
def State.onConvoy (s : State) (id : BitVec 12) (f : Convoy → Convoy) : Res :=
  match s.convoy id with
  | .error t => .trap t
  | .ok v => .done (s.setConvoy (s.launchIx s.cur) (convoyKey s.cur.die id) (f v))

/-- JOIN (R250). -/
def execJoin (o : ConvO) (s : State) : Out :=
  unit (len2 o.q) o.q (fun s => s.onConvoy o.id fun v => v.join s.cur) s

/-- LEAVE (R250). -/
def execLeave (o : ConvO) (s : State) : Out :=
  unit (len2 o.q) o.q (fun s => s.onConvoy o.id fun v => v.leave s.cur) s

/-- BAR (R251): a release, the arrival, the wait for the completion, and an acquire. -/
def execBar (o : BarO) (s : State) : Out :=
  unit (len2 o.q) o.q (fun s =>
    let c := s.cur
    match s.me.phase with
    | .barDone n =>
      ((s.acquireAt c o.scope o.smask).modMe fun k => { k with phase := .idle }).toG o.d (n.setWidth 64) false
    | .bar _ _ => if s.aborted c then .trap (abortTrap 1) else .wait
    | _ =>
      match s.convoy o.id with
      | .error t => .trap t
      | .ok v =>
        if !v.members.contains c then .trap (illegal 0)
        else if s.aborted c then .trap (abortTrap 1)
        else if !s.me.performedAt c o.scope o.smask then .wait
        else .stall ((s.setConvoy (s.launchIx c) (convoyKey c.die o.id) (v.arrive c)).modMe fun k =>
          { k with phase := .bar o.id.toNat v.gen.toNat })) s

/-- GENERATION_COMPLETE (R228): every waiting member of the generation is released at once. -/
def execGenerationComplete (l : Nat) (die : BitVec 4) (id : BitVec 12) (s : State) : Out :=
  match Tab.get none (s.launch l).convoys (convoyKey die id) with
  | some v =>
    if v.complete then
      let w := v.advance
      let free (_ : CoreId) (k : Core) : Core := match k.phase with
        | .bar _ _ => { k with phase := .barDone w.gen }
        | _ => k
      .next ((s.setConvoy l (convoyKey die id) w).eachCore v.arrived free)
    else .next s
  | none => .next s

/-! ### The abort line (R229 to R231, R252) -/

/-- ABORT (R252). -/
def execAbort (o : XQ) (s : State) : Out :=
  unit (len2 o.q) o.q (fun s => .done (s.modLaunch (s.launchIx s.cur) fun x => { x with abort := true })) s

/-- ABCHK (R252). -/
def execAbchk (o : XQ) (s : State) : Out :=
  unit (len2 o.q) o.q (fun s => if s.aborted s.cur then .trap (abortTrap 2) else .done s) s

/-- ABORT_LINE_ARRIVAL (R231): the raised line reaches a cluster of the launch; its tiles and station queues are
discarded. The launch's copy commands complete ABORTED at their next unit (COPY_UNIT). RSTAT.ABORTED is set where the
carriageway is not IDLE, tiles or not (DESIGN CHOICE, log entry 78). -/
def execAbortLineArrival (l : Nat) (k : ClusterId) (s : State) : Out :=
  let x := s.cluster k
  if !(s.launch l).abort || s.clusterLaunch k ≠ l || x.abortLine then .next s
  else
    let n := (x.ring.live .a).length + (x.ring.live .b).length
    let drop (r : Ring) : Ring :=
      { r.discard with ret := r.ret + n, aborted := r.aborted || r.state != .idle }
    let s := s.modCluster k fun y => { y with abortLine := true, ring := drop y.ring }
    .next (s.eachCore (stations.map fun st => k.station st) fun _ c => { c with stationQ := [] })

/-! ### The superstep barrier and the trigger (R253, R255) -/

/-- The handle registers of a core whose producer is a cast not yet cut: the cast is cut at an sstep of the gang or
after the launch, so neither waits for it (R410; log entry 46). -/
def State.castHandles (s : State) (c : CoreId) : List Nat :=
  s.parts.filterMap fun x => match x.2.bind (·.cast) with
    | some k => if k.core = c && !k.cut then some k.h.toNat else none
    | none => none

/-- Whether every producer the core issued has filled its destination and its vector queue is empty (R22,
R253). -/
def State.producersDone (s : State) (c : CoreId) : Bool :=
  let k := s.core c
  !k.vbusy && k.arrivals.isEmpty && (k.atomics.all fun o => o.reduction)
    && (k.g.all fun x => x.2.fill != .pending) && (k.v.all fun x => x.2.fill != .pending)
    && (k.m.all fun x => x.2.fill != .pending)
    && k.h.all fun x => x.2.fill != .pending || (s.castHandles c).contains x.1

/-- Whether the ring of the issuing core's cluster is RUNNING. -/
def State.ringRunning (s : State) : Bool := (s.cluster s.cur.cluster).ring.state == .running

/-- SSTEP (R253). -/
def execSstep (o : XD) (s : State) : Out :=
  unit (len2 o.q) o.q (fun s =>
    let c := s.cur
    let k := s.me
    match k.phase with
    | .sstepDone n => (s.modMe fun k => { k with phase := .idle }).toG o.d (n.setWidth 64) false
    | .sstep => if s.aborted c then .trap (abortTrap 1) else .wait
    | _ =>
      if s.aborted c then .trap (abortTrap 1)
      else if !s.producersDone c || !k.performed 7 || (!c.isRamp && s.ringRunning) then .wait
      else .stall ((s.modGangOf c fun g => { g with arrived := g.arrived ++ [c] }).modMe fun k =>
        { k with phase := .sstep })) s

/-- TRIG (R255): a release over yard and HBM before the mark. -/
def execTrig (o : XQ) (s : State) : Out :=
  unit (len2 o.q) o.q (fun s =>
    if !s.me.performed 6 then .wait
    else
      let c := s.cur
      let mark (g : Gang) : Gang :=
        if g.triggered.contains c then g else { g with triggered := c :: g.triggered }
      .done ((s.modGangOf c mark).noteTriggers (s.launchIx c))) s

end Sys2Proof.Machine
end

