-- ==== Sys2Proof/Machine/Copy.lean ====
section
/-! DEFINITION. The copy engine (R183 to R189, R232): cpy, cpyt, cpyc, and the events COPY_UNIT and
COPY_COMPLETE. -/

namespace Sys2Proof.Machine

/-! ### Addresses (R184) -/

/-- Check a copy address of len bytes in a space, at an operand position; the pointer's FMT is checked
afterwards (R185). -/
def spaceTrap (sp : BitVec 2) (v : DWord) (len pos : Nat) : Option Trap :=
  let x := v.toNat
  let bad : Bool := match sp.toNat with
    | 0 => decide (2 ^ 15 < x + len)
    | 1 => decide (2 ^ 19 < x + len)
    | 2 => decide (2 ^ 21 ≤ x) || decide (2 ^ 15 < x % 2 ^ 15 + len)
    | _ => false
  if bad then some (illegal pos) else none

/-- FORMAT of a null pointer in the hbm space (R185). -/
def spaceFormat (sp : BitVec 2) (v : DWord) : Option Trap :=
  if sp = 3 then nullTrap v else none

/-- The address a command keeps: the VA of a pointer, else the value. -/
def spaceAddr (sp : BitVec 2) (v : DWord) : Nat := if sp = 3 then vaOf v else v.toNat

/-- The checks 3 and 4 of R185 on a source and a destination. -/
def copyTrap (ssp dsp : BitVec 2) (src dst : DWord) (len : Nat) : Option Trap :=
  (spaceTrap ssp src len 1).or <| (spaceTrap dsp dst len 2).or <|
    (spaceFormat ssp src).or (spaceFormat dsp dst)

/-- The flat address of a copy address that is not in HBM, for the issuing core. -/
def copyFlat (c : CoreId) (sp : BitVec 2) (a : Nat) : Nat :=
  match sp.toNat with
  | 0 => localBase c + a
  | 1 => yardBase c.cluster + a
  | _ => localBase (.ord c.die c.cluster.cl (BitVec.ofNat 6 (a / 2 ^ 15))) + a % 2 ^ 15

/-! ### Appending -/

/-- Whether a queued vector access of a core, at station st, touches the own-local lines of a row, in whichever space
the row names them: the command follows it (R205). -/
def Core.rowWaits (k : Core) (st : Nat) (ssp dsp : BitVec 2) (r : CopyRow) : Bool :=
  let own (sp : BitVec 2) (a n : Nat) : Bool :=
    (sp == 0 || (sp == 2 && a / 2 ^ 15 == st)) && k.vecTouchesLocal (a % 2 ^ 15) n
  own ssp r.src r.len || own dsp r.dst r.len

/-- Append one command: it receives the engine's next sequence number (R187). -/
def State.appendCopy (s : State) (c : CoreId) (n : NewCopy) : State :=
  let k := s.cluster c.cluster
  let cmd : CopyCmd :=
    { seq := k.copyNext, core := c, h := n.h, inb := n.inb, ssp := n.ssp, dsp := n.dsp, rows := n.rows,
      row := 0, done := 0, taint := n.taint, status := none, started := false, cancelled := false,
      hTaint := false, doneWord := n.doneWord, token := none, buf := [], parts := 0, pin := none, late := []
      ring := s.ringLoad c }
  (s.noteAppend c 1 c.cluster.cl.toNat k.copyNext).modCluster c.cluster fun x =>
    { x with copyNext := (x.copyNext + 1) % 2 ^ 32, copies := x.copies ++ [cmd],
             copyAppenders := if x.copyAppenders.contains c then x.copyAppenders
               else c :: x.copyAppenders }

/-- Append the commands of one instruction and mark its handle empty, or wait as held says; the engine holds 64
commands (R232). -/
def State.issueCopies (s : State) (d : BitVec 3) (inb : Bool) (ns : List NewCopy) (held : Res) : Res :=
  let c := s.cur
  let k := s.cluster c.cluster
  if (s.me.hreg d).fill = .pending || 64 < k.copies.length + ns.length || s.appendHeld c k.copyNext ns.length
      || (ns.any fun n => n.rows.any fun r => s.me.rowWaits c.station.toNat n.ssp n.dsp r) then held
  else
    let s := ns.foldl (fun s n => s.appendCopy c n) s
    .done (s.modMe fun k => { k.pendH d with phase := .idle, owed := if inb then k.owed + 1 else k.owed })

/-- Append commands read from memory: they are read once, at issue (R188, R189). -/
def State.issueRead (s : State) (d : BitVec 3) (inb : Bool) (ns : List NewCopy) : Res :=
  s.issueCopies d inb ns (.stall (s.modMe fun k => { k with phase := .copies inb ns }))

/-- The body of cpyt and cpyc: the commands as they were read, or reading them. -/
def readOnce (d : BitVec 3) (read : State → Res) (s : State) : Res :=
  match s.me.phase with
  | .copies inb ns => s.issueCopies d inb ns .wait
  | _ => read s

/-- CPY (R183, R185). -/
def execCpy (o : CpyO) (s : State) : Out :=
  unit (len2 o.q) o.q (fun s =>
    if o.len = 0 then .trap (illegal 0)
    else s.me.needPast [.g o.a o.ta, .g o.b o.tb]
      [([.g o.a o.ta], spaceTrap o.ssp (s.me.gv o.a) o.len.toNat 1), ([.g o.b o.tb], spaceTrap o.dsp (s.me.gv o.b) o.len.toNat 2)]
      (let k := s.me
       let src := k.gv o.a
       let dst := k.gv o.b
       match copyTrap o.ssp o.dsp src dst o.len.toNat with
       | some t => .trap t
       | none => s.issueCopies o.d o.inb
          [⟨o.ssp, o.dsp, [⟨spaceAddr o.ssp src, spaceAddr o.dsp dst, o.len.toNat⟩], some o.d, o.inb,
            k.gt o.a || k.gt o.b || k.ct, none⟩] .wait)) s

/-! ### Strided copies (R188) -/

/-- A natural number in n bytes of a descriptor from byte a. -/
def fieldAt (bs : TBytes) (a n : Nat) : Nat := valOf ((bs.drop a).take n)

/-- Row r of a strided copy: its two addresses, exactly; none where one leaves its space. -/
def cpytRow (ssp dsp : BitVec 2) (src dst sst dstr : Int) (len r : Nat) : Option CopyRow :=
  let a := src + (r : Int) * sst
  let b := dst + (r : Int) * dstr
  let ok (sp : BitVec 2) (x : Int) : Bool :=
    0 ≤ x && (if sp = 3 then x + len ≤ (2 ^ 56 : Nat)
      else x < (2 ^ 64 : Nat) && (spaceTrap sp (BitVec.ofInt 64 x) len 1).isNone)
  if ok ssp a && ok dsp b then some ⟨a.toNat, b.toNat, len⟩ else none

/-- The rows of a strided copy in ascending order; none where one is outside its space. -/
def cpytRows (f : Nat → Option CopyRow) : Nat → Nat → Option (List CopyRow)
  | _, 0 => some []
  | r, n + 1 => match f r, cpytRows f (r + 1) n with
    | some x, some xs => some (x :: xs)
    | _, _ => none

/-- Decode a descriptor: its spaces and rows, or the trap. -/
def cpytDesc (bs : TBytes) : Except Trap (BitVec 2 × BitVec 2 × List CopyRow) :=
  let src := BitVec.ofNat 64 (fieldAt bs 0 8)
  let dst := BitVec.ofNat 64 (fieldAt bs 8 8)
  let rowBytes := fieldAt bs 16 4
  let rows := fieldAt bs 20 4
  let sst := svN 64 (fieldAt bs 24 8)
  let dstr := svN 64 (fieldAt bs 32 8)
  let sp := fieldAt bs 40 1
  let ssp := sp % 8
  let dsp := sp / 8 % 8
  if rowBytes = 0 || 2 ^ 20 < rowBytes || rows = 0 || 65535 < rows || 3 < ssp || 3 < dsp || sp / 64 != 0
      || fieldAt bs 41 23 != 0 then .error (illegal 1)
  else
    let s2 := BitVec.ofNat 2 ssp
    let d2 := BitVec.ofNat 2 dsp
    match cpytRows (cpytRow s2 d2 (spaceAddr s2 src) (spaceAddr d2 dst) sst dstr rowBytes) 0 rows with
    | none => .error (illegal 1)
    | some xs =>
      match (spaceFormat s2 src).or (spaceFormat d2 dst) with
      | some t => .error t
      | none => .ok (s2, d2, xs)

/-- The checks of a descriptor's address: aligned, and ending by 0x7FFF (R188, R293). -/
def descTrap (v : DWord) (n align pos : Nat) : Option Trap :=
  if v.toNat % align ≠ 0 then some (alignTrap v.toNat)
  else if 2 ^ 15 < v.toNat + n then some (illegal pos) else none

/-- Read a descriptor of n bytes at a local address held in a register, as a scalar local read: it must be
aligned, end by 0x7FFF, and its lines are not awaited by queued vector accesses (R145, R188). -/
def State.localDesc (s : State) (v : DWord) (n align pos : Nat) (f : TBytes → State → Res) : Res :=
  let a := v.toNat
  match descTrap v n align pos with
  | some t => .trap t
  | none =>
  if s.me.vecTouchesLocal a n then .wait
  else match s.readLocal s.cur a n with
    | .error t => .trap t
    | .ok (bs, s) => f bs s

/-- CPYT (R188). -/
def execCpyt (o : CpytO) (s : State) : Out :=
  unit (len2 o.q) o.q (readOnce o.d fun s => s.me.need [.g o.a o.ta]
    (s.localDesc (s.me.gv o.a) 64 8 1 fun bs s =>
      match cpytDesc bs with
      | .error t => .trap t
      | .ok (ssp, dsp, rows) => s.issueRead o.d o.inb
          [⟨ssp, dsp, rows, some o.d, o.inb, anyTaint bs || s.me.gt o.a || s.me.ct, none⟩])) s

/-! ### Chained copies (R189) -/

/-- A chain record as read: its command, its INB bit, and the next record's address. -/
structure CopyRec where
  cmd : NewCopy
  inb : Bool
  link : Option Nat
  deriving DecidableEq, Repr

/-- Decode a record of the yard at address a: a field that fails traps ILLEGAL_OPERAND 1 (R189), a null pointer
FORMAT (R79, R185). -/
def copyRec (a : Nat) (tn : Bool) (bs : TBytes) : Except Trap CopyRec :=
  let src := BitVec.ofNat 64 (fieldAt bs 0 8)
  let dst := BitVec.ofNat 64 (fieldAt bs 8 8)
  let cmd := fieldAt bs 16 4
  let link := fieldAt bs 20 4
  let ssp := cmd / 2 ^ 26 % 8
  let dsp := cmd / 2 ^ 23 % 8
  let len := cmd % 2 ^ 23
  let s2 := BitVec.ofNat 2 ssp
  let d2 := BitVec.ofNat 2 dsp
  let more := link.testBit 31
  if cmd / 2 ^ 30 != 0 || 3 < ssp || 3 < dsp || len = 0 || link / 2 ^ 19 % 2 ^ 12 != 0
      || ((spaceTrap s2 src len 1).or (spaceTrap d2 dst len 2)).isSome then .error (illegal 1)
  else match (spaceFormat s2 src).or (spaceFormat d2 dst) with
  | some t => .error t
  | none => .ok
    { cmd := ⟨s2, d2, [⟨spaceAddr s2 src, spaceAddr d2 dst, len⟩], none, false, tn || anyTaint bs, some (a + 24)⟩
      inb := cmd.testBit 29
      link := if more then some (link % 2 ^ 19) else none }

/-- Read the run of records from address a, n at most (R189). -/
def State.readRecs (s : State) (tn : Bool) (a : Nat) : Nat → Except Trap (List CopyRec × State)
  | 0 => .error (illegal 1)
  | n + 1 =>
    if a % 32 ≠ 0 then .error (alignTrap a)
    else if 2 ^ 19 < a + 32 then .error (illegal 1)
    else match s.readYard s.cur a 32 with
      | .error t => .error t
      | .ok (bs, s) => match copyRec a tn bs with
        | .error t => .error t
        | .ok r => match r.link with
          | none => .ok ([r], s)
          | some b => match s.readRecs tn b n with
            | .error t => .error t
            | .ok (rs, s) => .ok (r :: rs, s)

/-- The commands of a run: hD names the last, which alone may post to the inbox. -/
def runCommands (d : BitVec 3) : List CopyRec → List NewCopy
  | [] => []
  | [r] => [{ r.cmd with h := some d, inb := r.inb }]
  | r :: rs => r.cmd :: runCommands d rs

/-- CPYC (R189): it follows the core's own earlier yard accesses (R180). -/
def execCpyc (o : CpycO) (s : State) : Out :=
  unit (len2 o.q) o.q (readOnce o.d fun s => s.me.need [.g o.a o.ta]
    (let k := s.me
     if !k.ystores.isEmpty || k.vecTouchesYard 0 0x80000 then .wait
     else match s.readRecs (k.gt o.a || k.ct) (k.gv o.a).toNat 64 with
      | .error t => .trap t
      | .ok (rs, s) =>
        s.issueRead o.d ((rs.getLast?.map (·.inb)).getD false) (runCommands o.d rs))) s

/-! ### COPY_UNIT (R186) -/

/-- Change the command with a sequence number. -/
def State.modCopy (s : State) (k : ClusterId) (seq : Nat) (f : CopyCmd → CopyCmd) : State :=
  s.modCluster k fun x => { x with copies := x.copies.map fun c => if c.seq = seq then f c else c }

/-- The command with a sequence number. -/
def Cluster.copy (x : Cluster) (seq : Nat) : Option CopyCmd := x.copies.find? fun c => c.seq == seq

/-- Give up the pin of the current unit of a command (R329). -/
def State.dropPin (s : State) (k : ClusterId) (seq : Nat) : State :=
  match ((s.cluster k).copy seq).bind (·.pin) with
  | some r => (s.modCopy k seq fun c => { c with pin := none }).unallocate r
  | none => s

/-- End a command with a status. -/
def State.endCopy (s : State) (k : ClusterId) (seq : Nat) (st : BitVec 8) : State :=
  (s.dropPin k seq).modCopy k seq fun c => { c with status := some st, buf := [] }

/-- A step of a unit: done, waiting, or stopping the command. -/
inductive UnitStep where
  | ok (s : State)
  | held (s : State)
  | stop (s : State) (st : BitVec 8)

/-- The current unit of a command: its source, its destination and its bytes (R186). -/
def CopyCmd.unit (c : CopyCmd) : Option (Nat × Nat × Nat) :=
  (c.rows[c.row]?).map fun r =>
    let dst := r.dst + c.done
    (r.src + c.done, dst, min (64 - dst % 64) (r.len - c.done))

/-- The taint of every byte a command writes: its operands', and that of an hcancel that found it outstanding (R186,
R196). -/
def CopyCmd.byteTaint (c : CopyCmd) : Bool := c.taint || c.cancelled

/-- Pin the line that a unit targets, once; a unit whose line is not to be had waits (R329). A held write of a redundant
launch, or one whose translation fails, has no line yet. -/
def State.pinUnit (s : State) (k : ClusterId) (cmd : CopyCmd) (dst : Nat) : UnitStep :=
  let waits (s : State) (r : LineReq) : UnitStep :=
    if (s.die r.die).lineWaits.contains r then .held s else .ok s
  match cmd.pin with
  | some r => waits s r
  | none =>
    if cmd.dsp ≠ 3 || (s.launchOf cmd.core).rcd.red then .ok s
    else match s.xlate (s.launchIx cmd.core) dst 1 with
      | .error _ => .ok s
      | .ok pa =>
        let r : LineReq := ⟨k.die, inRdc k.die pa, pa / 64, false⟩
        waits ((s.allocate r).modCopy k cmd.seq fun c => { c with pin := some r }) r

/-- Change the state that a step leaves. -/
def UnitStep.mapState (f : State → State) : UnitStep → UnitStep
  | .ok s => .ok (f s)
  | .held s => .held (f s)
  | .stop s st => .stop (f s) st

/-- Write bytes of a command at a destination address that is not in HBM, for the task that appended it (R352). -/
def State.putCopy (s : State) (cmd : CopyCmd) (a : Nat) (bs : TBytes) : State :=
  let c := cmd.core
  s.forTask c cmd.ring fun s => match cmd.dsp.toNat with
  | 0 => s.writeLocal c c a bs
  | 1 => s.writeYard c c.cluster a bs
  | _ => s.writeLocal c (.ord c.die c.cluster.cl (BitVec.ofNat 6 (a / 2 ^ 15))) (a % 2 ^ 15) bs

/-- The words of a command that are executed and not yet seen come to be seen where p holds of their addresses. -/
def State.flushLate (s : State) (k : ClusterId) (cmd : CopyCmd) (p : Nat → Bool) : State :=
  let hit := cmd.late.filter fun x => p x.1
  (hit.foldl (fun s x => s.putCopy cmd x.1 (addTaint cmd.byteTaint x.2)) s).modCopy k cmd.seq fun c =>
    { c with late := c.late.filter fun x => !p x.1 }

/-- Those that n bytes at a destination address touch come to be seen first: same-location order holds (R341). -/
def State.flushOver (s : State) (k : ClusterId) (cmd : CopyCmd) (a n : Nat) : State :=
  if cmd.late.isEmpty then s
  else s.flushLate k cmd fun x =>
    copyFlat cmd.core cmd.dsp x < copyFlat cmd.core cmd.dsp a + n && copyFlat cmd.core cmd.dsp a < copyFlat cmd.core cmd.dsp x + 8

/-- Read the source bytes of a command's unit (R186): the command has started. -/
def State.readUnit (s : State) (k : ClusterId) (cmd : CopyCmd) (a n : Nat) : UnitStep :=
  let keep (bs : TBytes) (s : State) : UnitStep :=
    .ok (s.modCopy k cmd.seq fun c => { c with buf := bs, parts := 0, started := true })
  if cmd.ssp = 3 then
    if sideHit (s.cluster k).copyLog a n then .held s
    else match s.hbmRead (s.launchIx cmd.core) cmd.core a n with
      | .ok bs s => keep bs s
      | .bad _ s => .stop s 4
      | .fault e va =>
        let (s, tok) := s.newFault (.copy k) (s.launchIx cmd.core) va e 0 false
        .held (s.modCopy k cmd.seq fun c => { c with token := some tok })
  else
    let f := copyFlat cmd.core cmd.ssp a
    let s := if cmd.late.isEmpty then s
      else s.flushLate k cmd fun x => copyFlat cmd.core cmd.dsp x < f + n && f < copyFlat cmd.core cmd.dsp x + 8
    match s.bad f n with
    | some _ => .stop s 4
    | none => let (bs, s) := s.readT cmd.core f n 0; keep bs s

/-- Write bytes of a unit at an HBM address: a fault enters the copy engine's log, or waits for room in it (R336). -/
def State.copyHbm (s : State) (k : ClusterId) (cmd : CopyCmd) (a : Nat) (bs : TBytes) : UnitStep :=
  let c := cmd.core
  let log := (s.cluster k).copyLog
  if sideHit log a bs.length then .held s
  else match s.hbmWritePart (s.launchIx c) c none a bs with
    | .ok s => .ok s
    | .bad => .stop s 4
    | .fault e => if 64 ≤ log.length then .held s else .ok (s.copyPush c cmd.seq a bs e)

/-- Write bytes of a unit at destination address a. -/
def State.copyWrite (s : State) (k : ClusterId) (cmd : CopyCmd) (a : Nat) (bs : TBytes) : UnitStep :=
  let c := cmd.core
  if cmd.dsp = 3 then
    ((s.setRing c cmd.ring).copyHbm k cmd a bs).mapState fun t => t.setRing c (s.ringLoad c)
  else if (s.badPartial (copyFlat c cmd.dsp a) bs.length).isSome then .stop s 4
  else .ok ((s.flushOver k cmd a bs.length).putCopy cmd a bs)

/-- The bytes of the unit at destination address dst that lie in the word of its line with number j: their address and
data. -/
def CopyCmd.wordPart (c : CopyCmd) (dst j : Nat) : Nat × TBytes :=
  let base := dst / 64 * 64 + 8 * j
  let a := max dst base
  (a, addTaint c.byteTaint ((c.buf.drop (a - dst)).take (base + 8 - a)))

/-- Write one word of a unit that has been read, if it is not written yet. -/
def State.writePart (s : State) (k : ClusterId) (cmd : CopyCmd) (dst j : Nat) : UnitStep :=
  let x := cmd.wordPart dst j
  if cmd.parts.getLsbD j || x.2.isEmpty then .ok s
  else match s.copyWrite k cmd x.1 x.2 with
    | .ok s => .ok (s.modCopy k cmd.seq fun c => { c with parts := c.parts ||| (1#8 <<< j) })
    | r => r

/-- Write what is left of a unit: all of it at once, or word by word once a word of it has been written (R341). -/
def State.writeRest (s : State) (k : ClusterId) (cmd : CopyCmd) (dst : Nat) : UnitStep :=
  if cmd.parts = 0 then s.copyWrite k cmd dst (addTaint cmd.byteTaint cmd.buf)
  else (List.range 8).foldl (fun r j => match r with
    | .ok s => s.writePart k cmd dst j
    | r => r) (.ok s)

/-- The progress of a command after a unit of n bytes. -/
def CopyCmd.advance (c : CopyCmd) (n : Nat) : CopyCmd :=
  match c.rows[c.row]? with
  | none => { c with status := some 0 }
  | some r =>
    let c := { c with buf := [], parts := 0 }
    if c.done + n < r.len then { c with done := c.done + n }
    else if c.row + 1 < c.rows.length then { c with row := c.row + 1, done := 0 }
    else { c with done := r.len, status := some 0 }

/-- Whether a command stands at a unit boundary. -/
def CopyCmd.atUnit (c : CopyCmd) : Bool := c.buf.isEmpty || c.status.isSome

/-- A command of a cluster that may make progress: among the eight oldest unfinished ones (R187), not waiting for a
translation. -/
def State.openCopy (s : State) (k : ClusterId) (seq : Nat) : Option CopyCmd :=
  (((s.cluster k).copies.filter fun c => c.status.isNone).take 8).find? fun c => c.seq == seq && c.token.isNone

/-- The command as it stands after a step of its unit. -/
def copyStep (k : ClusterId) (seq : Nat) (r : UnitStep) (f : State → CopyCmd → State) : State :=
  match r with
  | .held s => s
  | .stop s st => s.endCopy k seq st
  | .ok s => match (s.cluster k).copy seq with
    | some cmd => f s cmd
    | none => s

/-- COPY_UNIT (R186): one unit of a command among the eight oldest unfinished ones; an abort or a cancellation
is found at the unit boundary (R182, R196, R231); one that comes with the command's last unit finds it DONE (DESIGN CHOICE for
an abort, log entry 78). -/
def execCopyUnit (k : ClusterId) (seq : Nat) (s : State) : Out :=
  match s.openCopy k seq with
  | none => .next s
  | some cmd =>
    if cmd.atUnit && (s.cluster k).abortLine then .next (s.endCopy k seq 5)
    else if cmd.atUnit && cmd.cancelled then .next (s.endCopy k seq (if cmd.started then 8 else 2))
    else match cmd.unit with
    | none => .next (s.endCopy k seq 0)
    | some (src, dst, n) =>
      let read := if cmd.atUnit then s.readUnit k cmd src n else .ok s
      .next (copyStep k seq read fun s cmd =>
        copyStep k seq (s.pinUnit k cmd dst) fun s cmd =>
          copyStep k seq (s.writeRest k cmd dst) fun s _ =>
            (s.dropPin k seq).modCopy k seq fun c => c.advance n)

/-- A command whose current unit has been read, with the unit's destination. -/
def State.readCopy (s : State) (k : ClusterId) (seq : Nat) : Option (CopyCmd × Nat) :=
  (s.openCopy k seq).bind fun cmd => if cmd.atUnit then none else cmd.unit.map fun u => (cmd, u.2.1)

/-- The current unit of a command is read ahead of its writes (R341). -/
def State.copyRead (s : State) (k : ClusterId) (seq : Nat) : State :=
  match s.openCopy k seq with
  | none => s
  | some cmd => match cmd.unit with
    | none => s
    | some (src, _, n) =>
      if !cmd.atUnit || (s.cluster k).abortLine || cmd.cancelled then s
      else copyStep k seq (s.readUnit k cmd src n) fun s _ => s

/-- One word of a unit is written ahead of the rest (R341). -/
def State.copyWord (s : State) (k : ClusterId) (seq j : Nat) : State :=
  match s.readCopy k seq with
  | none => s
  | some (cmd, dst) => copyStep k seq (s.pinUnit k cmd dst) fun s cmd =>
      match s.writePart k cmd dst (j % 8) with
      | .ok s => s
      | .held _ | .stop _ _ => s

/-- One whole word of a unit that goes to local memory or a yard is executed but comes to be seen later (R341, R349). -/
def State.copyDefer (s : State) (k : ClusterId) (seq j : Nat) : State :=
  match s.readCopy k seq with
  | none => s
  | some (cmd, dst) =>
    let x := cmd.wordPart dst (j % 8)
    if cmd.dsp = 3 || cmd.parts.getLsbD (j % 8) || x.2.length ≠ 8 then s
    else (s.flushOver k cmd x.1 8).modCopy k seq fun c =>
      { c with parts := c.parts ||| (1#8 <<< (j % 8)), late := c.late ++ [x] }

/-- A word that was executed comes to be seen. -/
def State.copySeen (s : State) (k : ClusterId) (seq j : Nat) : State :=
  match (s.cluster k).copy seq with
  | none => s
  | some cmd => match cmd.late[j]? with
    | none => s
    | some x => (s.putCopy cmd x.1 (addTaint cmd.byteTaint x.2)).modCopy k seq fun c => { c with late := c.late.eraseIdx j }

/-! ### COPY_COMPLETE (R187) -/

/-- COPY_COMPLETE (R187): the oldest command, once it has ended and its side-log entries have left, fills its
handle, posts its message, and writes its DONEWORD (R186, R189, R336). -/
def execCopyComplete (k : ClusterId) (s : State) : Out :=
  let x := s.cluster k
  match x.copies with
  | [] => .next s
  | cmd :: rest =>
    match cmd.status with
    | none => .next s
    | some st =>
      if x.copyLog.any fun e => e.seq == cmd.seq then .next s
      else
        let t := cmd.byteTaint || cmd.hTaint || 1 < x.copyAppenders.length
        let w := handleWord 1 k.cl.toNat cmd.seq st.toNat 0
        let s := (s.flushLate k cmd fun _ => true).modCluster k fun x => { x with copies := rest }
        let s := match cmd.doneWord with
          | some a => s.forTask cmd.core cmd.ring fun s => s.writeYard cmd.core k a (bytesOf 8 (cmd.seq + st.toNat * 2 ^ 32 + 2 ^ 40) t)
          | none => s
        .next (s.completeHandle cmd.core cmd.h cmd.inb w t)

end Sys2Proof.Machine
end

