-- ==== Sys2Proof/Machine/Optics.lean ====
section
/-! DEFINITION. The matrix that a bank's phase registers encode (R258, R259), computed in fixed point; the rounding and
the bounds of the spec's optical rules (R267, R270, R273, R279). -/

namespace Sys2Proof.Machine

/-! ### Rounding and bounds -/

/-- Clamp to lo … hi. -/
def clampInt (lo hi x : Int) : Int := max lo (min hi x)

/-- The nearest integer to y / 2^k, ties to even. -/
def rneShift (y : Int) (k : Nat) : Int :=
  let p : Int := (2 ^ k : Nat)
  let q := y / p
  let r := y % p
  if p < 2 * r || (2 * r = p && q % 2 != 0) then q + 1 else q

/-- Whether a deviation lies within k times the bound of an EBC: (D/k)^16 · 2^EBC ≤ 2^160, exactly (R279). -/
def withinBound (d : Nat) (ebc : BitVec 8) : Bool := d ^ 16 * 2 ^ ebc.toNat ≤ 2 ^ 160

/-! ### Fixed-point sines and cosines

Numbers of 96 binary places, an angle being a count of 16,384ths of a turn: the unit of the attenuators' cos(πc/8192)
(R259; log entry 64). -/

/-- One. -/
def fixOne : Int := (2 ^ 96 : Nat)
/-- A product. -/
def fixMul (a b : Int) : Int := (a * b + (2 ^ 95 : Nat)) / fixOne

/-- π / 8192, the size of an angle's unit, to 96 places. -/
def fixAngle (n : Nat) : Int := ((n * 1069028584064966747859680373161870783300 : Nat) : Int) / (2 ^ 45 : Nat)

/-- The sum of a Taylor series of n terms whose k-th term is the one before times −x² / ((2k + o) (2k + o + 1)). -/
def taylor (x2 : Int) (o : Nat) : Nat → Nat → Int → Int
  | 0, _, _ => 0
  | n + 1, k, t => t + taylor x2 o n (k + 1) (-(fixMul t x2) / (((2 * k + o) * (2 * k + o + 1) : Nat) : Int))

/-- Cosine of at most an eighth of a turn. -/
def cosLow (n : Nat) : Int := let x := fixAngle n; taylor (fixMul x x) 1 18 0 fixOne
/-- Sine of at most an eighth of a turn. -/
def sinLow (n : Nat) : Int := let x := fixAngle n; taylor (fixMul x x) 2 18 0 x

/-- Cosine within the first quarter turn. -/
def cosQuarter (n : Nat) : Int := if n ≤ 2048 then cosLow n else sinLow (4096 - n)

/-- Cosine of an angle. -/
def fixCos (n : Nat) : Int :=
  let m := n % 16384
  let h := if m ≤ 8192 then m else 16384 - m
  if h ≤ 4096 then cosQuarter h else -(cosQuarter (8192 - h))
/-- Sine of an angle. -/
def fixSin (n : Nat) : Int := fixCos (n + 12288)

/-! ### Complex amplitudes -/

/-- A complex amplitude. -/
structure Amp where
  re : Int
  im : Int
  deriving DecidableEq, Repr

/-- Sum of amplitudes. -/
def Amp.add (a b : Amp) : Amp := ⟨a.re + b.re, a.im + b.im⟩
/-- Product of amplitudes. -/
def Amp.mul (a b : Amp) : Amp := ⟨fixMul a.re b.re - fixMul a.im b.im, fixMul a.re b.im + fixMul a.im b.re⟩
/-- A real factor. -/
def Amp.scale (x : Int) (a : Amp) : Amp := ⟨fixMul x a.re, fixMul x a.im⟩
/-- The phase factor of an angle. -/
def Amp.phase (n : Nat) : Amp := ⟨fixCos n, fixSin n⟩

/-! ### Interferometers and meshes (R259) -/

/-- What an interferometer of internal phase θ and external phase φ does to its two arms: i e^(iθ/2) times the rows
(e^(iφ) sin θ/2, cos θ/2) and (e^(iφ) cos θ/2, −sin θ/2), the convention of a Clements mesh (log entry 64). -/
structure Mzi where
  m11 : Amp
  m12 : Amp
  m21 : Amp
  m22 : Amp
  deriving DecidableEq, Repr

/-- The interferometer of two codes. -/
def mziOf (internal external : Nat) : Mzi :=
  let h := 2 * internal
  let g := Amp.phase (h + 4096)
  let e := Amp.mul g (Amp.phase (4 * external))
  ⟨Amp.scale (fixSin h) e, Amp.scale (fixCos h) g, Amp.scale (fixCos h) e, Amp.scale (-(fixSin h)) g⟩

/-- Two registers each. -/
def pairsOf : List Nat → List Mzi
  | a :: b :: xs => mziOf a b :: pairsOf xs
  | _ => []

/-- The columns of a mesh from column n on, up to 64: thirty-two interferometers in an even one, on arms 0 and 1
onwards, thirty-one in an odd one, on arms 1 and 2 onwards. -/
def columnsOf : Nat → Nat → List Mzi → List (Bool × List Mzi)
  | 0, _, _ => []
  | k + 1, n, xs =>
    let odd := n % 2 == 1
    let w := if odd then 31 else 32
    (odd, xs.take w) :: columnsOf k (n + 1) (xs.drop w)

/-- Light through the interferometers of a column, or, sent in at the outputs, back through them. -/
def throughPairs (back : Bool) : List Mzi → List Amp → List Amp
  | p :: ps, a :: b :: xs =>
    let (u, v) := if back then (p.m21, p.m12) else (p.m12, p.m21)
    ((p.m11.mul a).add (u.mul b)) :: ((v.mul a).add (p.m22.mul b)) :: throughPairs back ps xs
  | _, xs => xs

/-- Light through a column. -/
def throughColumn (back : Bool) (xs : List Amp) (c : Bool × List Mzi) : List Amp :=
  match c.1, xs with
  | true, x :: rest => x :: throughPairs back c.2 rest
  | _, _ => throughPairs back c.2 xs

/-- The optics that a bank's codes set: V, Σ, U and the output phases (R258, R259). -/
structure Optics where
  v : List (Bool × List Mzi)
  sigma : List Int
  u : List (Bool × List Mzi)
  out : List Amp
  deriving DecidableEq, Repr

/-- The optics of 8,192 codes (R259). -/
def opticsOf (codes : List Nat) : Optics :=
  { v := columnsOf 64 0 (pairsOf (codes.take 4032))
    sigma := ((codes.drop 4032).take 64).map fixCos
    u := columnsOf 64 0 (pairsOf ((codes.drop 4096).take 4032))
    out := ((codes.drop 8128).take 64).map fun c => Amp.phase (4 * c) }

/-- Real inputs as amplitudes. -/
def amps (q : List Int) : List Amp := q.map fun x => ⟨x * fixOne, 0⟩

/-- The sums Σk M(j,k)·q(k), V first, then the attenuators, then U, then the output phases (R258). -/
def Optics.forward (o : Optics) (q : List Int) : List Int :=
  let x := o.v.foldl (throughColumn false) (amps q)
  let x := o.sigma.zipWith Amp.scale x
  let x := o.u.foldl (throughColumn false) x
  (o.out.zipWith Amp.mul x).map (·.re)

/-- The sums Σk M(k,j)·q(k) of the transposed matrix, the light being sent in at the outputs (R272). -/
def Optics.backward (o : Optics) (q : List Int) : List Int :=
  let x := o.out.zipWith Amp.mul (amps q)
  let x := o.u.reverse.foldl (throughColumn true) x
  let x := o.sigma.zipWith Amp.scale x
  (o.v.reverse.foldl (throughColumn true) x).map (·.re)

/-- The nearest integer to a fixed-point number, ties to even; a number within 2^−56 of a tie is one. -/
def fixRne (x : Int) : Int :=
  let q := x / fixOne
  let r := x % fixOne
  let half := fixOne / 2
  if (r - half).natAbs ≤ 2 ^ 40 then (if q % 2 = 0 then q else q + 1) else if half < r then q + 1 else q

/-! ### The gain of a block (R267) -/

/-- An FP32 pattern times 2^149. -/
def fp32Int (x : Nat) : Int :=
  let e := x / 2 ^ 23 % 256
  let f := x % 2 ^ 23
  let m : Nat := if e = 0 then f else (2 ^ 23 + f) * 2 ^ (e - 1)
  if x.testBit 31 then -(m : Int) else m

/-- Whether a symmetric matrix of integers is positive semidefinite: elimination without fractions, n rows at most. -/
def semidefinite : Nat → Int → List (List Int) → Bool
  | n + 1, prev, (p :: row) :: rest =>
    if p < 0 then false
    else if p = 0 then row.all (· == 0) && semidefinite n prev (rest.map List.tail)
    else semidefinite n p (rest.map fun xs => match xs with
      | h :: t => List.zipWith (fun x y => (p * x - h * y) / prev) t row
      | [] => [])
  | _, _, _ => true

/-- c·I minus the Gram matrix of the columns. -/
def gramGap (c : Int) (cols : List (List Int)) : List (List Int) :=
  ((List.range cols.length).zip cols).map fun x =>
    ((List.range cols.length).zip cols).map fun y =>
      (if x.1 = y.1 then c else 0) - (List.zipWith (· * ·) x.2 y.2).sum

/-- The least g from −32 for which every singular value of W·2^−g is at most 1, that is 4^g·I − WᵀW is positive
semidefinite, and 31 where there is none (R267). ws are the block's FP32 words, row by row. -/
def gainOf (ws : List Nat) : Int :=
  let cols := (List.range 64).map fun k => (List.range 64).map fun j => fp32Int (ws.getD (64 * j + k) 0)
  let fits (i : Nat) : Bool := semidefinite 64 1 (gramGap ((2 ^ (2 * i + 234) : Nat) : Int) cols)
  ((((List.range 64).find? fits).getD 63 : Nat) : Int) - 32

end Sys2Proof.Machine
end

