-- ==== Sys2Proof/Machine/Image.lean ====
section
/-! DEFINITION. Phase images (R261 to R264): the bank codec, the checksum, and records. -/

namespace Sys2Proof.Machine

/-! ### Banks (R259, R263) -/

/-- Code of a phase register. -/
def codeAt (v : BitVec 98304) (i : Nat) : Nat := (v.extractLsb' (12 * i) 12).toNat
/-- Pack codes, register 0 lowest. -/
def packCodes : List Nat → Nat
  | [] => 0
  | x :: xs => x % 4096 + 4096 * packCodes xs
/-- The codes of all 8,192 registers. -/
def codesOf (v : BitVec 98304) : List Nat := (List.range 8192).map (codeAt v)
/-- A bank of codes. -/
def bankOf (xs : List Nat) : BitVec 98304 := BitVec.ofNat 98304 (packCodes xs)

/-- n deltas of w bits packed in a number, sign-extended, as running codes from c (R263). -/
def runDeltas (w : Nat) : Nat → Nat → Nat → List Nat
  | 0, _, _ => []
  | n + 1, c, x =>
    let d : Int := if w = 0 then 0 else svN w (x % 2 ^ w)
    let c' := (((c : Int) + d) % 4096).toNat
    c' :: runDeltas w n c' (x / 2 ^ w)

/-- Decode n groups of SCHEME 1: the codes and the bytes read. -/
def readGroups (bs : List Byte) : Nat → Option (List Nat × Nat)
  | 0 => some ([], 0)
  | n + 1 =>
    match bs with
    | [] => none
    | b :: rest =>
      let w := b.toNat
      if 12 < w || rest.length < 32 * w then none
      else match readGroups (rest.drop (32 * w)) n with
      | none => none
      | some (cs, k) => some (runDeltas w 256 0 (natOfBytes (rest.take (32 * w))) ++ cs, k + 1 + 32 * w)

/-- Decode a bank of a scheme: the codes and the bytes read (R263). -/
def readBank (scheme : Nat) (bs : List Byte) : Option (BitVec 98304 × Nat) :=
  match scheme with
  | 0 => if bs.length < 12288 then none else some (BitVec.ofNat 98304 (natOfBytes (bs.take 12288)), 12288)
  | 1 => (readGroups bs 32).map fun x => (bankOf x.1, x.2)
  | _ => none

/-- The deltas of a group of codes from c. -/
def deltasOf : Nat → List Nat → List Int
  | _, [] => []
  | c, x :: xs =>
    let d := (x + 4096 - c) % 4096
    (if 2048 ≤ d then (d : Int) - 4096 else d) :: deltasOf x xs

/-- The least width that holds deltas. -/
def deltaWidth (ds : List Int) : Nat :=
  ((List.range 13).find? fun w => ds.all fun d =>
    if w = 0 then d == 0 else -(2 ^ (w - 1) : Nat) ≤ d && d < (2 ^ (w - 1) : Nat)).getD 12

/-- Pack deltas of w bits. -/
def packDeltas (w : Nat) : List Int → Nat
  | [] => 0
  | d :: ds => (d % (2 ^ w : Nat)).toNat + 2 ^ w * packDeltas w ds

/-- Encode codes as SCHEME 1, n groups of 256, each of the least width. -/
def writeGroups : Nat → List Nat → List Byte
  | 0, _ => []
  | n + 1, cs =>
    let ds := deltasOf 0 (cs.take 256)
    let w := deltaWidth ds
    BitVec.ofNat 8 w :: bytesOfNat (32 * w) (packDeltas w ds) ++ writeGroups n (cs.drop 256)

/-! ### The checksum (R261) -/

/-- One bit of CRC-32, reflected. -/
def crcBit (c : Word) : Word := if c.getLsbD 0 then (c >>> 1) ^^^ 0xEDB88320#32 else c >>> 1
/-- One byte of CRC-32. -/
def crcByte (c : Word) (b : Byte) : Word :=
  (List.range 8).foldl (fun c _ => crcBit c) (c ^^^ b.zeroExtend 32)
/-- CRC-32 with the IEEE 802.3 polynomial. -/
def crc32 (bs : List Byte) : Word := ~~~(bs.foldl crcByte 0xFFFFFFFF#32)

/-! ### Records (R261) -/

/-- An EXPECT code in its 16 bits. -/
def expectBytes (x : Int) : List Byte := bytesOfNat 2 ((x % 65536).toNat)

/-- The record of an image in SCHEME 1. -/
def imageRecord (gain : Int) (ebc : BitVec 8) (pint : Nat) (guard : Bool) (probe : BitVec 4096)
    (expect : List Int) (codes : BitVec 98304) : List Byte :=
  let bank := writeGroups 32 (codesOf codes)
  let len := (1600 + bank.length + 63) / 64 * 64
  let body := bytesOfNat 512 probe.toNat ++ expect.flatMap expectBytes ++ bank
    ++ List.replicate (len - 1600 - bank.length) 0
  bytesOfNat 4 len ++ bytesOfNat 1 1 ++ bytesOfNat 1 ((gain % 64).toNat) ++ bytesOfNat 1 ebc.toNat
    ++ bytesOfNat 1 (pint + 16 * guard.toNat) ++ bytesOfNat 4 bank.length
    ++ bytesOfNat 4 (crc32 body).toNat ++ List.replicate 48 0 ++ body

/-- A number in n bytes of a list from byte a. -/
def numAt (bs : List Byte) (a n : Nat) : Nat := natOfBytes ((bs.drop a).take n)

/-- Load a record into a bank (R264): what the bank holds, with its codes; none where the load fails. The
first guard group after a load counts as preceded by a probe within the bound (DEDUCED, log entry 75). -/
def loadRecord (gran : BitVec 12) (bs : List Byte) : Option (BankImage × BitVec 98304) :=
  let len := numAt bs 0 4
  let bb := numAt bs 8 4
  let f4 := numAt bs 4 1
  let f5 := numAt bs 5 1
  let f7 := numAt bs 7 1
  if len != bs.length || len % 64 != 0 || len < 1600 + bb || f4 / 4 != 0 || f5 / 64 != 0 || f7 / 32 != 0
      || 7 < f7 % 16 || numAt bs 16 48 != 0 || numAt bs (1600 + bb) (len - 1600 - bb) != 0
      || (crc32 (bs.drop 64)).toNat != numAt bs 12 4 then none
  else match readBank (f4 % 4) ((bs.drop 1600).take bb) with
  | none => none
  | some (codes, used) =>
    if used ≠ bb then none
    else some (
      { gran := gran, gain := svN 6 f5, ebc := BitVec.ofNat 8 (numAt bs 6 1), pint := f7 % 16
        guard := f7.testBit 4, probe := BitVec.ofNat 4096 (numAt bs 64 512)
        expect := (List.range 512).map fun i => svN 10 (numAt bs (576 + 2 * i) 2 % 1024)
        dpeak := 0, probed := true, named := true }, codes)

/-! ### Decomposition (R267) -/

/-- Entry k of row r of the 64-point Sylvester–Hadamard matrix, scaled to ±8. -/
def hadamard (r k : Nat) : Nat :=
  if ((List.range 6).filter fun i => r.testBit i && k.testBit i).length % 2 = 0 then 8 else 248

/-- The probe vectors of a decomposed image: rows 1 to 8. -/
def hadamardProbes : BitVec 4096 :=
  BitVec.ofNat 4096 (natOfBytes ((List.range 8).flatMap fun p =>
    (List.range 64).map fun k => BitVec.ofNat 8 (hadamard (p + 1) k)))

/-- The input codes of probe vector p. -/
def probeVector (probe : BitVec 4096) (p : Nat) : List Int :=
  (List.range 64).map fun k => svN 8 (probe.extractLsb' (8 * (64 * p + k)) 8).toNat

/-- The EXPECT codes of a bank's codes under its probes: 4 · Σk M(j,k)·q(k) for the matrix that the phases encode, to the
nearest even, clamped (R267, R303). -/
def expectOf (codes : BitVec 98304) (probe : BitVec 4096) : List Int :=
  let o := opticsOf (codesOf codes)
  (List.range 8).flatMap fun p => (o.forward (probeVector probe p)).map fun z => clampInt (-512) 511 (fixRne (4 * z))

/-- The image of a block of FP32 words (R267). -/
def decomposeRecord (ws : List Word) (ebc : BitVec 8) (pint : Nat) (guard : Bool) : List Byte :=
  let codes := Config.decompose (BitVec.ofNat 131072 (ws.foldr (fun w x => w.toNat + 2 ^ 32 * x) 0))
  imageRecord (gainOf (ws.map (·.toNat))) ebc pint guard hadamardProbes
    (expectOf codes hadamardProbes) codes

end Sys2Proof.Machine
end

