-- ==== Sys2Proof/Machine/Flow.lean ====
section
/-! DEFINITION. The flow instructions of major 0x0D: loops, repeat frames, way registers, yield, task end
(R28, R31, R109 to R116). -/

namespace Sys2Proof.Machine

/-- ILLEGAL_FRAME with an address as value. -/
def illegalFrame (a : Nat) : Trap := ⟨.illegalFrame, BitVec.ofNat 64 a⟩

/-- LOOP with its count at hand: the checks of R28 in order, then the push, or the skipped body. A count of 2^32 or
more is outside R28's list, so the first of its checks that fails is ranked against it (R37, R111). -/
def loopEnter (s : State) (cnt : Nat) (t : Bool) (len : BitVec 16) : Res :=
  let k := s.me
  let u := k.pc.toNat
  let b := u + 8
  let e := b + 4 * len.toNat - 4
  let nested := match k.innermost with
    | none => true
    | some i => !(i.frame == k.rstack.length && i.start.toNat ≤ b && b ≤ i.last.toNat
        && i.last.toNat < e)
  if len = 0 then .trap (illegalFrame u)
  else if 2 ^ 32 ≤ cnt then
    .trap (if k.loops.length < 4 && !nested then illegalFrame u else illegal 1)
  else
    let k := k.decide t
    if cnt = 0 then .jump (s.setMe k) (BitVec.ofNat 32 (b + 4 * len.toNat))
    else if 4 ≤ k.loops.length then .trap ⟨.loopStack, 4⟩
    else if !nested then .trap (illegalFrame u)
    else
      let d := k.loops.length
      let x : LoopEntry := ⟨BitVec.ofNat 32 b, BitVec.ofNat 32 e, k.rstack.length⟩
      .done (s.setMe ({ k with loops := k.loops ++ [x] }.writeLc d ⟨BitVec.ofNat 32 cnt, t || k.ct⟩))

/-- A LOOP or RPT unit must have SEQ NEXT (R110). -/
def plainSeq (q : Seq) (s : State) (r : Res) : Res :=
  if q = .next then r else .trap (illegalFrame s.me.pc.toNat)

/-- LOOP (R28, R111), count and length immediate. -/
def execLoop (o : LoopI) (s : State) : Out :=
  unit (len2 o.q) o.q (fun s => plainSeq o.q s (loopEnter s o.cnt.toNat false o.len)) s

/-- LOOP_REG (R28, R111): the count is G[A]; L = 0 is reported before anything of the count (R37). -/
def execLoopReg (o : LoopR) (s : State) : Out :=
  unit (len2 o.q) o.q (fun s => plainSeq o.q s
    (if o.len = 0 then .trap (illegalFrame s.me.pc.toNat)
     else s.me.need [.g o.a o.ta] (loopEnter s (s.me.gv o.a).toNat (s.me.gt o.a) o.len))) s

/-- Whether a word may stand in a repeat frame: SEQ NEXT and a major of 0x01 to 0x0C or 0x20 to 0x27
(R31). -/
def frameWord (w : Word) : Bool :=
  let m := (w.extractLsb' 24 6).toNat
  w.extractLsb' 30 2 == 0 && ((1 ≤ m && m ≤ 0x0C) || (0x20 ≤ m && m ≤ 0x27))

/-- The first word of the frame of n words from a that may not stand in it: a word of R31, or the last word
of the enclosing loop body (R112). -/
def State.frameFault (s : State) (a : Nat) : Nat → Option Nat
  | 0 => none
  | n + 1 =>
    let k := s.me
    let ends := match k.innermost with
      | some e => e.frame == k.rstack.length && e.last.toNat == a
      | none => false
    if !frameWord (s.codeWord s.cur a) || ends then some a else s.frameFault (a + 4) n

/-- CODE_RANGE of a frame that begins after the unit of an RPT with another sequencing part than NEXT: it ranks above the
unit's ILLEGAL_FRAME (R31, R37, R110). -/
def State.frameRange (s : State) (q : Seq) (f : Nat) (r : Res) : Res :=
  match if q = .next || f = 0 || 16 < f then none else s.outside s.cur (s.me.pc.toNat + 4 * len2 q) f with
  | some a => .trap (codeRange a)
  | none => plainSeq q s r

/-- The checks of RPT on its frame, made whatever the count (R31, R112). -/
def State.frameTrap (s : State) (f : Nat) : Option Trap :=
  let b := s.me.pc.toNat + 8
  if f = 0 || 16 < f then some (illegal 0)
  else match s.outside s.cur b f with
    | some a => some (codeRange a)
    | none => (s.frameFault b f).map illegalFrame

/-- RPT with its count at hand: the frame starts, or is skipped (R112). -/
def rptEnter (s : State) (cnt : Nat) (t : Bool) (f : Nat) : Res :=
  let b := s.me.pc.toNat + 8
  if 2 ^ 32 ≤ cnt then .trap (illegal 1)
  else
    let k := s.me.decide t
    if cnt = 0 then .jump (s.setMe k) (BitVec.ofNat 32 (b + 4 * f))
    else .done (s.setMe
      { k with rpt := some ⟨BitVec.ofNat 32 b, BitVec.ofNat 32 (b + 4 * f), cnt⟩ })

/-- RPT (R31, R112), count immediate. -/
def execRpt (o : RptI) (s : State) : Out :=
  unit (len2 o.q) o.q (fun s => s.frameRange o.q o.f.toNat
    (match s.frameTrap o.f.toNat with
     | some t => .trap t
     | none => rptEnter s o.cnt.toNat false o.f.toNat)) s

/-- RPT_REG (R31, R112): the count is G[A]. DESIGN CHOICE (log entry 73): of a frame length and a count that both break
their limits the frame length is reported. -/
def execRptReg (o : RptR) (s : State) : Out :=
  unit (len2 o.q) o.q (fun s => s.frameRange o.q o.f.toNat
    (match s.frameTrap o.f.toNat with
     | some t => .trap t
     | none => s.me.need [.g o.a o.ta] (rptEnter s (s.me.gv o.a).toNat (s.me.gt o.a) o.f.toNat))) s

/-- SETW (R113), address immediate. -/
def execSetw (o : SetwI) (s : State) : Out :=
  unit (len2 o.q) o.q (fun s =>
    if o.addr.toNat % 4 ≠ 0 then .trap (illegal 0)
    else .done (s.setMe (s.me.writeW o.d o.addr false))) s

/-- SETW_REG (R113): the address is G[A]. -/
def execSetwReg (o : SetwR) (s : State) : Out :=
  unit (len2 o.q) o.q (fun s => s.me.need [.g o.a o.ta]
    (let v := s.me.gv o.a
     if 2 ^ 32 ≤ v.toNat || v.toNat % 4 ≠ 0 then .trap (illegal 1)
     else .done (s.setMe (s.me.writeW o.d (v.setWidth 32) (s.me.gt o.a))))) s

/-- GETW (R113). -/
def execGetw (o : GetwO) (s : State) : Out :=
  unit (len2 o.q) o.q (fun s =>
    s.toG o.d ((s.me.wreg o.a).val.setWidth 64) (s.me.wreg o.a).taint) s

/-- YIELD (R114, R141): the core's queue head ranks last in one arbitration; no effect under round-robin. -/
def execYield (o : XQ) (s : State) : Out :=
  unit (len2 o.q) o.q (fun s =>
    if (s.svu s.cur.unit).rr then .done s
    else .done (s.modMe fun k => { k with yielded := true })) s

/-- DONE (R115, R21): the sequencing part is evaluated, then the task ends. -/
def execDone (o : XQ) (s : State) : Out :=
  unitThen (len2 o.q) o.q (fun s => s.endTask s.cur) (fun s => .done s) s

/-- NOP (R116). -/
def execNop (o : XQ) (s : State) : Out := unit (len2 o.q) o.q (fun s => .done s) s

end Sys2Proof.Machine
end

