-- ==== Sys2Proof/Machine/System.lean ====
section
/-! DEFINITION. The system instructions of major 0x0E (R117 to R124), the system registers, and the
capability space that capr reads (R401, R402, R446, R447). -/

namespace Sys2Proof.Machine

/-! ### The capability space -/

/-- A capability record: its kind and the dwords after its header. -/
structure CapRecord where
  kind : Nat
  body : List Nat
  deriving DecidableEq, Repr

/-- Bytes of a record (R401). -/
def CapRecord.len (r : CapRecord) : Nat := 8 * (r.body.length + 1)

/-- The dies a package has (R1). -/
def dieCount : Nat := 16

/-- EBCCAL of a die in the configuration store (R403). -/
def State.ebcCal (s : State) (d : BitVec 4) : BitVec 8 := Tab.get 0x78 s.conf.ebcCal d.toNat
/-- THERMLIM of a die (R403). -/
def State.thermLim (s : State) (d : BitVec 4) : BitVec 8 := Tab.get 32 s.conf.thermLim d.toNat
/-- The calibrated EBC of a die: what bring-up measured, never above EBCCAL (R403). -/
def State.calEbc (s : State) (d : BitVec 4) : BitVec 8 :=
  if (Config.measuredEbc d).toNat ≤ (s.ebcCal d).toNat then Config.measuredEbc d else s.ebcCal d

/-- Group bytes into dwords, zero-padded. -/
def dwordsOf : List Byte → Nat → List Nat
  | _, 0 => []
  | bs, n + 1 => natOfBytes (bs.take 8) :: dwordsOf (bs.drop 8) n

/-- The package record (R446). -/
def State.capPackage (s : State) : CapRecord :=
  let mask := packBits ((List.range 16).map fun p => (Tab.get none s.parts p).isSome)
  ⟨1, [Config.packageId.toNat + dieCount * 2 ^ 20 + mask * 2 ^ 28]⟩

/-- The partition records (R446). -/
def State.capParts (s : State) (only : Option Nat) : List CapRecord :=
  (List.range 16).filterMap fun p =>
    if only.isSome && only ≠ some p then none
    else (Tab.get none s.parts p).map fun x =>
      ⟨2, [p + x.dies.toNat * 2 ^ 16, (Tab.get 0 s.counters p).toNat]⟩

/-- The virtual-function records (R446): at level 0 those of the own partition. -/
def State.capVfs (s : State) (only : Option Nat) : List CapRecord :=
  (List.range (32 * dieCount)).filterMap fun n =>
    let v := Tab.get Vf.blank s.vfs n
    if only.isSome && !(v.assigned && only == some v.part.toNat) then none
    else some ⟨3, [n / 32 + n % 32 * 2 ^ 4 + v.part.toNat * 2 ^ 12 + v.sys.toNat * 2 ^ 16
      + v.assigned.toNat * 2 ^ 17]⟩

/-- The configuration record (R447). -/
def State.capConf (s : State) : CapRecord :=
  let c := s.conf
  ⟨4, [c.checkWin, c.ageInt, c.quantum, c.pourShare, c.beacon, c.stall, c.powerCap,
      c.alarmCls.toNat] ++ (List.range 16).map fun d =>
        let d := BitVec.ofNat 4 d
        (s.calEbc d).toNat + (s.ebcCal d).toNat * 2 ^ 8 + (s.thermLim d).toNat % 128 * 2 ^ 16⟩

/-- The identity certificate record (R446). -/
def capCert : CapRecord :=
  ⟨5, dwordsOf Config.identityCert ((Config.identityCert.length + 7) / 8)⟩

/-- The alarm log (R446). -/
def State.capAlarms (s : State) : CapRecord :=
  ⟨6, s.alarms.length :: s.alarms.flatMap fun a =>
    [a.time, a.sensor.toNat + a.cls.toNat * 2 ^ 8]⟩

/-- The die of a quarantined unit word (R388). -/
def unitDie (u : BitVec 24) : Nat :=
  let id := u.toNat % 2 ^ 21
  match u.toNat / 2 ^ 21 with
  | 1 => (coreOfNum id).die.toNat
  | 2 => id / 8192
  | _ => id / 1024

/-- Pair 32-bit words into dwords. -/
def pairWords : List Nat → List Nat
  | a :: b :: t => (a + b * 2 ^ 32) :: pairWords t
  | [a] => [a]
  | [] => []

/-- The quarantine record (R446): at level 0 the units of the own dies. -/
def State.capQuarantine (s : State) (dies : Option (BitVec 16)) : CapRecord :=
  let us := s.quarantine.filter fun u => match dies with
    | some m => m.getLsbD (unitDie u)
    | none => true
  ⟨7, us.length :: pairWords (us.map BitVec.toNat)⟩

/-- The records of a view in order (R401): the whole space at level 1, those visible to partition p at level
0. -/
def State.capView (s : State) (priv : Bool) (p : BitVec 4) : List CapRecord :=
  let only := if priv then none else some p.toNat
  let dies := if priv then none else some (((s.part p).map (·.dies)).getD 0)
  [s.capPackage] ++ s.capParts only ++ s.capVfs only ++ [s.capConf, capCert]
    ++ (if priv then [s.capAlarms] else []) ++ [s.capQuarantine dies]

/-- Lay records out from an offset: headers with LEN and NEXT, then bodies (R401). -/
def layCap (off : Nat) : List CapRecord → List Nat
  | [] => []
  | r :: rs =>
    let next := if rs.isEmpty then 0 else off + r.len
    (r.kind + r.len * 2 ^ 16 + next * 2 ^ 32) :: (r.body ++ layCap (off + r.len) rs)

/-- Offset of the first record of a kind. -/
def capOffset (kind off : Nat) : List CapRecord → Nat
  | [] => 0
  | r :: rs => if r.kind = kind then off else capOffset kind (off + r.len) rs

/-- Privilege level 1 (R117). -/
def State.privileged (s : State) (c : CoreId) : Bool := (s.launchOf c).rcd.priv

/-- The capability view of a core's launch. -/
def State.viewOf (s : State) (c : CoreId) : List CapRecord :=
  s.capView (s.privileged c) (s.partOf (s.launchIx c))

/-- A 64-bit word of the view; beyond its end, 0 (R123). -/
def State.capWord (s : State) (c : CoreId) (off : Nat) : DWord :=
  BitVec.ofNat 64 ((layCap 0 (s.viewOf c)).getD (off / 8) 0)

/-! ### System registers -/

/-- The core whose numbers a redundant partner shows: the primary's at the same rank (R385). -/
def State.twin (s : State) (c : CoreId) : CoreId :=
  let l := s.launchOf c
  let g := (s.core c).gang
  if l.rcd.red && (l.gang g).partner then
    ((l.gang (g - l.rcd.gangs)).members)[(s.core c).rank]?.getD c
  else c

/-- COREID (R121, R385). -/
def State.coreIdReg (s : State) (c : CoreId) : DWord :=
  let idx := match c with
    | .ord _ cl _ => cl.toNat
    | .ramp _ i => i.toNat
  BitVec.ofNat 64 (coreNum (s.twin c) + c.die.toNat * 2 ^ 21 + idx * 2 ^ 25 + c.station.toNat * 2 ^ 35
    + c.isRamp.toNat * 2 ^ 41 + (s.privileged c).toNat * 2 ^ 42)

/-- Whether a launch is pinned (R365). -/
def LaunchRec.pinned (r : LaunchRec) : Bool := r.pin || r.cluster != 0

/-- The value of a system register and the taint it adds (R14, R15, R35, R83, R120 to R122, R143, R146, R254,
R350, R402). -/
def State.sysreg (s : State) (c : CoreId) (n : BitVec 12) : DWord × Bool :=
  let k := s.core c
  let nat (x : Nat) : DWord := BitVec.ofNat 64 x
  match n.toNat with
  | 0x000 =>
    (nat (k.seqn.toNat * 2 ^ 32 + k.rli.toNat * 2 ^ 10 + k.je.toNat * 2 ^ 4 + k.ct.toNat * 4
      + k.src.toNat), !c.isRamp && (s.cluster c.cluster).ring.everElastic)
  | 0x001 => (nat k.ci.toNat, false)
  | 0x002 => (nat k.cj.toNat, false)
  | 0x003 => (nat k.ck.toNat, false)
  | 0x004 =>
    (nat (k.tiPc.toNat * 2 ^ 32 + k.tiValid.toNat * 2 ^ 16 + k.tiAttempt.toNat * 2 ^ 8
      + k.tiCause.toNat), false)
  | 0x005 => (nat k.lfsr.toNat, true)
  | 0x006 => (nat k.fx.toNat, k.fxTaint != 0)
  | 0x008 => (nat (k.maxlg.toNat * 2 ^ 4 + k.role.toNat), false)
  | 0x009 => (nat (k.service.toNat * 2 ^ 32 + k.weight.toNat), true)
  | 0x00A => (nat ((s.svu c.unit).rr.toNat * 2 ^ 16 + (s.svu c.unit).age.toNat), false)
  | 0x00B => (nat ((s.gangOf c).rr.toNat * 2 + (s.gangOf c).det.toNat), false)
  | 0x00C => (nat (s.gangOf c).sstep.toNat, false)
  | 0x00D =>
    let off := capOffset 4 0 (s.viewOf c)
    (nat (s.capConf.len * 2 ^ 32 + off), false)
  | 0x010 => (s.coreIdReg c, c.isRamp || !(s.launchOf c).rcd.pinned)
  | 0x011 => (nat (k.cycleSaved + (s.clock - k.cycleBase)), true)
  | 0x012 => (nat s.ftime, true)
  | _ => (0, false)

/-- Write a system register (R83, R120, R143, R146, R350); a reserved value traps and changes nothing. -/
def State.writeSysreg (s : State) (n : BitVec 12) (v : DWord) (t : Bool) : Except Trap State :=
  let k := s.me
  match n.toNat with
  | 0x005 =>
    let x := v.setWidth 32
    .ok (s.setMe { k with lfsr := if x = 0 then 1 else x })
  | 0x006 =>
    .ok (s.setMe { k with fx := v.setWidth 5, fxTaint := if t || k.ct then 31 else 0 })
  | 0x008 =>
    let lg := v.extractLsb' 4 3
    let r := v.extractLsb' 0 2
    if lg = 0 || 4 < lg.toNat || r = 3 then .error (illegal 1)
    else .ok (s.setMe { k with maxlg := lg, role := r })
  | 0x009 =>
    let w := v.extractLsb' 0 4
    if w = 0 then .error (illegal 1) else .ok (s.setMe { k with weight := w })
  | 0x00A =>
    .ok (s.modSvu s.cur.unit fun u => { u with age := v.extractLsb' 0 16, rr := v.getLsbD 16 })
  | 0x00B =>
    let rr := v.extractLsb' 1 2
    let now := (s.gangOf s.cur).rr
    if rr = 3 || (rr == 2) != (now == 2) then .error (illegal 1)
    else .ok (s.modGangOf s.cur fun g =>
      let mine := (v.extractLsb' 0 3, coreNum s.cur)
      match g.pendingMode with
      | some (_, c) => if coreNum s.cur < c then g else { g with pendingMode := some mine }
      | none => { g with pendingMode := some mine })
  | _ => .ok s

/-- Whether a read or write of a system register waits for earlier vector instructions: of LFSR for those that use
rs, of STATUS for those that raise flags (R82, R89). -/
def Core.queueWait (k : Core) (n : BitVec 12) : Bool :=
  (n == 0x005 && k.rsPending) || (n == 0x006 && k.flagsPending)

/-- TRAP (R119): the sequencing part, its loop end with it, is evaluated only when the task is resumed; a STACK that
the sequencing word would raise arises with the unit (R24) and outranks SOFTWARE (R37). -/
def execTrap (o : TrapO) (s : State) : Out :=
  let t : Trap := ⟨.software, o.imm.setWidth 64⟩
  if !s.me.canIssue then .next s
  else match s.scalarCheck with
  | some t => .next (({ s with checkFail := none } : State).takeTrap t)
  | none => .next (s.takeTrap (((s.me.stackTrap o.q).map t.top).getD t))

/-- MFS (R120). -/
def execMfs (o : MfsO) (s : State) : Out :=
  unit (len2 o.q) o.q (fun s =>
    if s.me.queueWait o.n then .wait
    else
      let r := s.sysreg s.cur o.n
      s.toG o.d r.1 r.2) s

/-- MTS (R120): AGE and MODE are written at level 1 only. -/
def execMts (o : MtsO) (s : State) : Out :=
  unit (len2 o.q) o.q (fun s =>
    if (o.n == 0x00A || o.n == 0x00B) && !s.privileged s.cur then
      .trap ⟨.privilege, o.n.setWidth 64⟩
    else s.me.need [.g o.a o.ta]
      (if s.me.queueWait o.n then .wait
       else match s.writeSysreg o.n (s.me.gv o.a) (s.me.gt o.a) with
         | .error t => .trap t
         | .ok s => .done s)) s

/-- CAPR (R123). -/
def execCapr (o : XDA) (s : State) : Out :=
  unit (len2 o.q) o.q (fun s => s.me.need [.g o.a o.ta]
    (let off := (s.me.gv o.a).toNat
     if off % 8 ≠ 0 then .trap (alignTrap off)
     else s.toG o.d (s.capWord s.cur off) (s.me.gt o.a))) s

/-- IFENCE (R124): every fetched and stored code word is discarded. -/
def execIfence (o : XQ) (s : State) : Out :=
  unit (len2 o.q) o.q (fun s => .done (s.modMe fun k => { k with istore := [] })) s

/-- RESERVED_WORD (R50, R51): a unit with a reserved value traps at decode, before any effect; a checker's
mismatch outranks it (R37). -/
def execReservedWord (w0 w1 value : Word) (s : State) : Out :=
  if !s.me.canIssue then .next s
  else match s.scalarCheck with
  | some t => .next (({ s with checkFail := none } : State).takeTrap t)
  | none => .next (s.trapAt s.cur s.me.pc w0 w1 ⟨.reservedCode, value.setWidth 64⟩)

/-- Make room for a word in a core's instruction store of 2,048 words: which word goes is left open, but for the words
of the unit at the core's pc (R125; log entry 63). -/
def State.roomCode (s : State) (c : CoreId) (addr : Nat) : State :=
  let k := s.core c
  let pc := k.pc.toNat
  let olds := (k.istore.map Prod.fst).filter fun a => a != addr && !(pc ≤ a && a < pc + 12)
  if k.istore.length < 2048 || olds.isEmpty then s
  else
    let out := olds.getD ((Config.freeValue s.free).toNat % olds.length) 0
    ({ s with free := s.free + 1 } : State).modCore c fun k => { k with istore := Tab.put none k.istore out none }

/-- CODE_FETCH_FILL (R125): a word of the code image reaches the core's instruction store. -/
def execCodeFetchFill (c : CoreId) (addr : Word) (s : State) : Out :=
  if s.inImage c addr.toNat then
    .next ((s.roomCode c addr.toNat).modCore c fun k =>
      { k with istore := Tab.put none k.istore addr.toNat (some (s.imageWord c addr.toNat)) })
  else .next s

end Sys2Proof.Machine
end

