-- ==== Sys2Proof/Machine/Mesh.lean ====
section
/-! DEFINITION. The meshes and the pass scheduler (R258 to R284, R296, R300 to R304): banks, probes and fences,
grants, passes and their commits, PHASE commands, and the optical events. -/

namespace Sys2Proof.Machine

/-! ### Banks and chains -/

/-- A bank of a mesh. -/
def Mesh.bank (m : Mesh) (b : Bool) : Option BankImage := if b then m.bank1 else m.bank0
/-- The phase registers of a bank (R259). -/
def Mesh.codes (m : Mesh) (b : Bool) : BitVec 98304 := if b then m.codes1 else m.codes0
/-- Replace the phase registers of a bank. -/
def Mesh.setCodes (m : Mesh) (b : Bool) (c : BitVec 98304) : Mesh :=
  if b then { m with codes1 := c } else { m with codes0 := c }
/-- Replace a bank. -/
def Mesh.setBank (m : Mesh) (b : Bool) (x : Option BankImage) : Mesh :=
  if b then { m with bank1 := x } else { m with bank0 := x }
/-- The active bank (R260). -/
def Mesh.act (m : Mesh) : Option BankImage := m.bank m.active
/-- Whether a bank holds the image that a granule names. -/
def Mesh.bankHolds (m : Mesh) (b : Bool) (g : BitVec 12) : Bool :=
  match m.bank b with
  | some x => x.gran == g && x.named
  | none => false
/-- The bank that holds an image, the active one first (R260). -/
def Mesh.holds (m : Mesh) (g : BitVec 12) : Option Bool :=
  if m.bankHolds m.active g then some m.active
  else if m.bankHolds (!m.active) g then some (!m.active) else none
/-- Drift state of an image (R279). -/
def Mesh.driftOf (m : Mesh) (g : BitVec 12) : Drift := Tab.get .clear m.drift g.toNat
/-- Whether an image is fenced (R280). -/
def Mesh.isFenced (m : Mesh) (g : BitVec 12) : Bool := m.driftOf g == .fenced || m.driftOf g == .thermal
/-- Whether an image is marked bad (R264). -/
def Mesh.isBad (m : Mesh) (g : BitVec 12) : Bool := Tab.get false m.bad g.toNat

/-- A pass chain (R276). -/
def State.chain (s : State) (k : ClusterId) (n : Nat) : Chain := Tab.get Chain.start (s.cluster k).chains n
/-- Change a pass chain. -/
def State.modChain (s : State) (k : ClusterId) (n : Nat) (f : Chain → Chain) : State :=
  s.modCluster k fun x => { x with chains := Tab.put Chain.start x.chains n (f (Tab.get Chain.start x.chains n)) }
/-- Change an entry of a chain. -/
def State.modEntry (s : State) (d : BitVec 4) (r : EntryRef) (f : ChainEntry → ChainEntry) : State :=
  s.modChain ⟨d, r.cluster⟩ r.chain.toNat fun c =>
    { c with ents := c.ents.map fun e => if e.seq = r.seq then f e else e }
/-- An entry of a chain. -/
def State.entry (s : State) (d : BitVec 4) (r : EntryRef) : Option ChainEntry :=
  (s.chain ⟨d, r.cluster⟩ r.chain.toNat).ents.find? fun e => e.seq == r.seq
/-- Complete an entry with a status and an EBC (R296); its handle fills in sequence order. -/
def State.finishEntry (s : State) (d : BitVec 4) (r : EntryRef) (st : BitVec 8) (ebc : BitVec 8) : State :=
  s.modEntry d r fun e => { e with stageOf := .finished st, ebc := ebc, out := [] }

/-- Whether an entry has not been granted. -/
def ChainEntry.waits (e : ChainEntry) : Bool := e.stageOf == .waiting
/-- Whether an entry has started (R296): it has been granted, though a translation fault may hold it. -/
def ChainEntry.started (e : ChainEntry) : Bool := !e.waits || e.begun
/-- Whether an entry is a pass. -/
def ChainEntry.isPass (e : ChainEntry) : Bool := e.kind == .pass || e.kind == .passRev
/-- Whether an entry is a PHASE command (R299). -/
def ChainEntry.isPhase (e : ChainEntry) : Bool := !e.isPass && e.kind != .probe
/-- The image an entry needs in a bank. -/
def ChainEntry.needs (e : ChainEntry) : Option (BitVec 12) :=
  match e.kind with
  | .phld | .phdec => none
  | _ => some e.image

/-- The first granule of the image whose EBC an entry's handle bears where the entry leaves none: the one it would have
written, or acts on (R296, R299, log entry 70). -/
def ChainEntry.names (e : ChainEntry) : BitVec 12 := e.needs.getD e.target

/-- Whether an entry writes an image from its bank (R303). -/
def ChainEntry.writesBank (e : ChainEntry) : Bool := (e.kind == .phadj || e.kind == .phwr) && !e.trim

/-- The clusters of a die that hold chains. -/
def State.chainClusters (s : State) (d : BitVec 4) : List ClusterId :=
  (s.clusters.map fun x => (⟨BitVec.ofNat 4 (x.1 / 1024), BitVec.ofNat 10 x.1⟩ : ClusterId)).filter fun k =>
    k.die == d

/-! ### Readiness (R276, R299) -/

/-- Whether a dependence is met: the entry it names has completed. A 32-bit number that no entry of the chain bears is one
already completed, if it lies behind the chain's next number, else one not yet appended (R276). -/
def State.depMet (s : State) (d : BitVec 4) (x : Dep) : Bool :=
  let c := s.chain ⟨d, x.cluster⟩ x.chain.toNat
  match c.ents.find? fun e => e.seq % 2 ^ 32 == x.seq.toNat with
  | some e => e.finished
  | none =>
    let back := (c.next % 2 ^ 32 + 2 ^ 32 - x.seq.toNat) % 2 ^ 32
    back != 0 && decide (back ≤ 2 ^ 31) && decide (back ≤ c.next)

/-- Whether the issuing core's yard accesses before the entry are performed, for an entry that reaches the yard
(R205). -/
def State.yardClear (s : State) (e : ChainEntry) : Bool :=
  let yard := match e.kind with
    | .pass | .passRev => e.stage
    | .probe | .phld => false
    | _ => true
  let k := s.core e.core
  !yard || !((k.ystores.any fun y => y.num < e.after) || (k.vq.any fun v => v.op.onYard && v.num < e.after)
    || k.inflight.any fun i => i.ent.op.onYard && i.ent.num < e.after)

/-- Whether an entry takes a decomposition engine (R301, R303). -/
def ChainEntry.decomposes (e : ChainEntry) : Bool :=
  e.kind == .phdec || e.writesBank

/-- A free decomposition engine of a die. -/
def State.freeEngine (s : State) (d : BitVec 4) : Option Nat :=
  (List.range 16).find? fun i => (Tab.get none (s.die d).engines i).isNone

/-- The ready entries of a chain for a mesh, given the entries before (R276, R299). -/
def State.readyIn (s : State) (m : MeshId) (k : ClusterId) (n : Nat) :
    List ChainEntry → List ChainEntry → List (EntryRef × ChainEntry)
  | _, [] => []
  | pre, e :: es =>
    let ahead := if e.isPhase then pre.all ChainEntry.finished
      else pre.all fun x => x.finished || (!x.waits && !x.isPhase)
    let ok := e.waits && e.token.isNone && e.ending.isNone && e.mesh == m && ahead && (e.deps.all (s.depMet k.die))
      && (!(s.cluster k).abortLine || e.started) && s.yardClear e
      && (!e.decomposes || (s.freeEngine k.die).isSome)
    let rest := s.readyIn m k n (pre ++ [e]) es
    if ok then (⟨k.cl, BitVec.ofNat 2 n, e.seq⟩, e) :: rest else rest

/-- The ready entries for a mesh. -/
def State.readyFor (s : State) (m : MeshId) : List (EntryRef × ChainEntry) :=
  (s.chainClusters m.die).flatMap fun k => (List.range 4).flatMap fun n =>
    s.readyIn m k n [] (s.chain k n).ents

/-! ### Ranking (R278) -/

/-- Rank of a ready entry: its class, then the longest wait, then cyclic (cluster, chain) order. -/
def Mesh.rank (x : Mesh) (r : EntryRef) (e : ChainEntry) : Nat :=
  let idx := r.cluster.toNat * 4 + r.chain.toNat
  let cyc := (idx + 8192 - (x.lastGrant + 1)) % 4096
  let cls := if 16 ≤ e.readyGrants then 0
    else match e.needs with
      | none => 3
      | some g =>
        if x.isBad g then 3 else if x.bankHolds x.active g then 1 else if x.bankHolds (!x.active) g then 2 else 3
  let wait := if 16 ≤ e.readyGrants then 2 ^ 40 - e.readyGrants else 0
  (cls * 2 ^ 41 + wait) * 4096 + cyc

/-- Whether an entry can be granted without a load. One that needs no image in a bank, or whose image is bad, is of the
fourth class until it has aged, and that class waits for a load in progress (R278). -/
def Mesh.canRun (x : Mesh) (e : ChainEntry) : Bool :=
  let first := x.loading.isNone || decide (16 ≤ e.readyGrants)
  match e.needs with
  | none => first
  | some g => if x.isBad g then first else (x.holds g).isSome

/-- The entry of least rank. -/
def bestOf (f : EntryRef → ChainEntry → Nat) : List (EntryRef × ChainEntry) → Option (EntryRef × ChainEntry)
  | [] => none
  | y :: ys => match bestOf f ys with
    | none => some y
    | some z => if f z.1 z.2 < f y.1 y.2 then some z else some y

/-- Whether the automatic probe's interval has elapsed (R261, R277). -/
def Mesh.probeDue (x : Mesh) : Bool :=
  match x.act with
  | some im => im.pint != 0 && 64 * 2 ^ (im.pint - 1) ≤ x.sinceProbe
  | none => false

/-- Whether the open commit group must be closed before an entry is granted (R277). -/
def Mesh.closeDue (x : Mesh) (none' : Bool) (pick : Option ChainEntry) : Bool :=
  !x.latch.isEmpty && (x.probeDue || none' || match pick with
    | none => false
    | some e =>
      let swap := match e.needs with
        | some g => !x.isBad g && !x.bankHolds x.active g
        | none => false
      (e.isPass && 1024 < x.latchSamples + e.n) || ((e.isPass || e.kind == .probe) && swap)
        || e.kind == .phadj || e.kind == .phwr)

/-! ### Probes and fences (R279 to R282) -/

/-- A drift fault: the image is fenced, the open commit group of the active image and every queued pass that
names it complete DRIFT, and the supervisor is told (R280). -/
def State.driftFault (s : State) (m : MeshId) (g : BitVec 12) (st : Drift) (d : Nat) : State :=
  let x := s.mesh m
  let mine := match x.act with
    | some im => im.gran == g
    | none => false
  let group := if mine then x.latch else []
  let s := s.modMesh m fun x =>
    { x with drift := Tab.put .clear x.drift g.toNat st
             latch := if mine then [] else x.latch, latchSamples := if mine then 0 else x.latchSamples }
  let s := group.foldl (fun s r => s.modEntry m.die r fun e =>
    { e with stageOf := .finished 1, out := [] }) s
  let hit (e : ChainEntry) : ChainEntry :=
    if e.isPass && e.waits && e.mesh == m && e.image == g then { e with stageOf := .finished 1 } else e
  let s := (s.chainClusters m.die).foldl (fun s k => (List.range 4).foldl (fun s n =>
    s.modChain k n fun c => { c with ents := c.ents.map hit }) s) s
  s.post m.die (.drift m g d)

/-- Whether the thermal loop of a mesh has lost lock: it is unlocked, or its error exceeds the limit (R282). -/
def Mesh.lockLost (x : Mesh) (limit : BitVec 8) : Bool := x.unlocked || decide (limit.toNat < x.temp.toInt.natAbs)

/-- The deviation of the n-th probe of an image: the largest difference between the detected codes of its probe vectors,
free values (log entry 3), and EXPECT (R279). -/
def BankImage.deviation (im : BankImage) (n : Nat) : Nat :=
  ((List.range 512).zip im.expect).foldl (fun d x =>
    max d (clampInt (-512) 511 (Config.detected n (x.1 / 64) (x.1 % 64)) - x.2).natAbs) 0

/-- What a probe found: the state after it, whether its deviation lay within the bound, and whether it was good, the
thermal loop being locked too. -/
structure Probed where
  state : State
  within : Bool
  good : Bool

/-- Probe a bank's image (R279): a good probe of the active bank closes and commits the open group (R277). -/
def State.probeBank (s : State) (m : MeshId) (b : Bool) : Probed :=
  let x := s.mesh m
  match x.bank b with
  | none => ⟨s, true, true⟩
  | some im =>
    let d := im.deviation s.free
    let lost := x.lockLost (s.thermLim m.die)
    let good := withinBound d im.ebc && !lost
    let st : Drift := if lost then .thermal else if !withinBound d im.ebc then .fenced
      else if withinBound (2 * d) im.ebc then .clear else .warn
    let act := b == x.active
    let s := ({ s with free := s.free + 1 } : State).modMesh m fun x =>
      { x.setBank b (some { im with dpeak := max im.dpeak d, probed := withinBound d im.ebc }) with
        dlast := d, drift := Tab.put .clear x.drift im.gran.toNat st
        sinceProbe := if act then 0 else x.sinceProbe, unconf := if good then 0 else x.unconf }
    if good then
      ⟨if act then s.modMesh m fun x => { x with ended := x.ended ++ x.latch, latch := [], latchSamples := 0 }
       else s, true, true⟩
    else ⟨s.driftFault m im.gran st d, withinBound d im.ebc, false⟩

/-- AUTO_PROBE (R277): at a pass boundary, when the interval has elapsed or the open group must close. -/
def execAutoProbe (m : MeshId) (s : State) : Out :=
  let x := s.mesh m
  let rs := s.readyFor m
  let pick := bestOf x.rank (rs.filter fun y => x.canRun y.2)
  if x.running.isNone && x.act.isSome && (x.probeDue || x.closeDue rs.isEmpty (pick.map Prod.snd)) then
    .next (s.probeBank m x.active).state
  else .next s

/-- THERMAL_UNLOCK (R282): the error exceeds the limit, which is a drift fault on the active image. -/
def execThermalUnlock (m : MeshId) (s : State) : Out :=
  let x := s.mesh m
  if x.unlocked || !x.lockLost (s.thermLim m.die) then .next s
  else
    let s := s.modMesh m fun x => { x with unlocked := true }
    match x.act with
    | some im => .next (s.driftFault m im.gran .thermal x.dlast)
    | none => .next s

/-- THERMAL_RELOCK (R282): the error is back within the limit, and the loop locks again. -/
def execThermalRelock (m : MeshId) (s : State) : Out :=
  if (s.thermLim m.die).toNat < (s.mesh m).temp.toInt.natAbs then .next s
  else .next (s.modMesh m fun x => { x with unlocked := false })

/-! ### Weight buffers (R265) -/

/-- The EBC of the image at a granule: that of a bank that holds it, else the declared one. -/
def State.imageEbc (s : State) (m : MeshId) (g : BitVec 12) : BitVec 8 :=
  let x := s.mesh m
  match (x.holds g).bind x.bank with
  | some im => im.ebc
  | none => s.mem.read (wbufBase m + 512 * g.toNat + 6)

/-- Whether a bank load in progress reads one of n granules from g: a write into them waits for it (R265). -/
def State.loadReads (s : State) (m : MeshId) (g n : Nat) : Bool :=
  match (s.mesh m).loading with
  | none => false
  | some i =>
    let len := natOfBytes (s.mem.readN (wbufBase m + 512 * i.toNat) 4)
    decide (g < i.toNat + max 1 ((len + 511) / 512)) && decide (i.toNat < g + n)

/-- Bytes of an image are written to granules by an entry: banks that held the granule's image no longer do, its
bad mark goes (R264, R265), and the superstep is non-replayable (R382). A fence stands until a good probe (R280). -/
def State.writeGranules (s : State) (m : MeshId) (e : ChainEntry) (g : BitVec 12) (at' : Nat) (bs : TBytes) :
    State :=
  let un (b : Option BankImage) : Option BankImage :=
    b.map fun im => if im.gran = g then { im with named := false } else im
  let grans := (basesIn 512 (512 * g.toNat + at') bs.length).map fun a => (e.launch, a / 512)
  ((s.poke (wbufBase m + 512 * g.toNat + at') bs).modMesh m fun x =>
    { x with bank0 := un x.bank0, bank1 := un x.bank1, bad := Tab.put false x.bad g.toNat false
             written := x.written ++ grans.filter fun y => !x.written.contains y }).nonReplay e.core

/-! ### PHASE commands (R300 to R304) -/

/-- Signed elements of n bits of bytes. -/
def elementsOf (w : Nat) (bs : List Byte) (n : Nat) : List Int :=
  (List.range n).map fun i => svN (8 * w) (numAt bs (w * i) w)

/-- New codes: register first + i takes f of the old code and element i. -/
def newCodes (f : Nat → Int → Nat) (codes : BitVec 98304) (first : Nat) (xs : List Int) : BitVec 98304 :=
  let ys := codesOf codes
  bankOf (ys.take first ++ (ys.drop first).zipWith f xs ++ ys.drop (first + xs.length))

/-- New trims. -/
def newTrims (f : Int → Int → Int) : Tab Int → Nat → List Int → Tab Int
  | t, _, [] => t
  | t, r, x :: xs => newTrims f (Tab.put 0 t r (f (Tab.get 0 t r) x)) (r + 1) xs

/-- The trims of a bank (R302). -/
def Mesh.trims (m : Mesh) (b : Bool) : Tab Int := if b then m.trims1 else m.trims0
/-- Replace the trims of a bank. -/
def Mesh.setTrims (m : Mesh) (b : Bool) (t : Tab Int) : Mesh :=
  if b then { m with trims1 := t } else { m with trims0 := t }

/-- A free decomposition engine goes to an entry (R301, R303). -/
def State.takeEngine (s : State) (d : BitVec 4) (r : EntryRef) : State :=
  match s.freeEngine d with
  | some i => s.modDie d fun y => { y with engines := Tab.put none y.engines i (some r) }
  | none => s

/-- phadj and phwr on a bank (R303), with their final probe; a form that writes an image takes an engine. -/
def State.adjust (s : State) (m : MeshId) (r : EntryRef) (e : ChainEntry) (b : Bool) (im : BankImage) : State :=
  let wr := e.kind == .phwr
  let size := if wr then 2 else 1
  let fin (s : State) (st : BitVec 8) : State := s.finishEntry m.die r st im.ebc
  if !e.trim && 4096 < e.target.toNat + 28 then fin s 6
  else match s.readYard e.core e.addr (size * e.count) with
  | .error _ => fin s 4
  | .ok (bs, s) =>
    let xs := elementsOf size (bs.map Prod.fst) e.count
    let bad := wr && xs.any fun d => if e.trim then d < -2048 || 2047 < d else d < 0 || 4095 < d
    if bad then fin s 6
    else
      let s := if e.trim then
          s.modMesh m fun x => x.setTrims b
            (newTrims (fun t d => if wr then d else clampInt (-2048) 2047 (t + d)) (x.trims b) e.first xs)
        else
          let f (c : Nat) (d : Int) : Nat := if wr then d.toNat else (((c : Int) + d) % 4096).toNat
          let codes := newCodes f ((s.mesh m).codes b) e.first xs
          let expect := expectOf codes im.probe
          let rcd := imageRecord im.gain im.ebc im.pint im.guard im.probe expect codes
          let t := e.taint || anyTaint bs
          ((s.takeEngine m.die r).writeGranules m e e.target 0 (rcd.map fun y => (y, t))).modMesh m fun x =>
            (x.setBank b (some { im with gran := e.target, expect := expect, named := true })).setCodes b codes
      let s := s.nonReplay e.core
      let p := s.probeBank m b
      fin p.state (if p.within then 0 else 1)

/-- phrd on a bank (R304). -/
def State.readPhases (s : State) (m : MeshId) (r : EntryRef) (e : ChainEntry) (b : Bool) (im : BankImage) : State :=
  let one (i : Nat) : Nat :=
    if e.trim then ((Tab.get 0 ((s.mesh m).trims b) i) % 65536).toNat else codeAt ((s.mesh m).codes b) i
  let bs := (List.range e.count).flatMap fun i => bytesOf 2 (one (e.first + i)) e.taint
  let k := e.core.cluster
  if (s.badPartial (yardBase k + e.addr) bs.length).isSome then s.finishEntry m.die r 4 im.ebc
  else (s.forTask e.core e.ring fun s => s.writeYard e.core k e.addr bs).finishEntry m.die r 0 im.ebc

/-- The bytes that a phld has read go to the weight buffer, each with the OR of the taint of its sources (R299): all of
them, or, where it ends early, those of whole granules (R296). -/
def State.writeImage (s : State) (m : MeshId) (r : EntryRef) (whole : Bool) : State :=
  match s.entry m.die r with
  | none => s
  | some e =>
    let bs := if whole then e.bytes else e.bytes.take (e.bytes.length / 512 * 512)
    if bs.isEmpty then s else s.writeGranules m e e.target 0 (addTaint (e.taint || anyTaint bs) (bs.map fun x => (x.1, false)))

/-- A phld ends, leaving what it has read of its image; its write waits for a bank load that reads one of the granules
(R265). -/
def State.endLoad (s : State) (m : MeshId) (r : EntryRef) (st : BitVec 8) : State :=
  match s.entry m.die r with
  | none => s
  | some e =>
    if s.loadReads m e.target.toNat ((e.bytes.length + 511) / 512) then
      s.modEntry m.die r fun e => { e with ending := some st, token := none }
    else
      let s := s.writeImage m r (st == 0)
      s.finishEntry m.die r st (s.mem.read (wbufBase m + 512 * e.target.toNat + 6))

/-- The phlds of a mesh whose write has waited for a bank load end. -/
def State.endHeldLoads (s : State) (m : MeshId) : State :=
  (s.chainClusters m.die).foldl (fun s k => (List.range 4).foldl (fun s n =>
    (s.chain k n).ents.foldl (fun s e => match e.ending with
      | some st => if e.mesh == m && !e.finished then s.endLoad m ⟨k.cl, BitVec.ofNat 2 n, e.seq⟩ st else s
      | none => s) s) s) s

/-- phld's reads, line by line from where they stand; n bounds the lines (R300). -/
def State.loadImage (s : State) (m : MeshId) (r : EntryRef) (e : ChainEntry) (len : Nat) : Nat → Nat → State
  | _, 0 => s
  | done, n + 1 =>
    if len ≤ done then s.endLoad m r 0
    else match s.hbmRead e.launch e.core (e.addr + done) 64 with
    | .bad _ s => s.endLoad m r 4
    | .fault x va =>
      let (s, tok) := s.newFault (.pass ⟨m.die, r.cluster⟩ r.chain) e.launch va x 0 false
      s.modEntry m.die r fun e => { e with token := some tok }
    | .ok bs s =>
      (s.modEntry m.die r fun e => { e with bytes := e.bytes ++ bs, done := done + 64 }).loadImage m r e len (done + 64) n

/-- A phld whose translation is finally refused: before LEN has been read no byte of an image stands that names an EBC
(R296, R300). -/
def State.refuseLoad (s : State) (d : BitVec 4) (r : EntryRef) (st : BitVec 8) : State :=
  match s.entry d r with
  | none => s
  | some e =>
    if e.len.isSome then s.endLoad e.mesh r st
    else ({ s with free := s.free + 1 } : State).finishEntry d r st ((Config.freeValue s.free).extractLsb' 0 8)

/-- phld (R300): LEN is read once. -/
def State.phld (s : State) (m : MeshId) (r : EntryRef) (e : ChainEntry) : State :=
  let none' (s : State) (st : BitVec 8) : State :=
    ({ s with free := s.free + 1 } : State).finishEntry m.die r st ((Config.freeValue s.free).extractLsb' 0 8)
  match e.len with
  | some len => s.loadImage m r e len e.done (len / 64 + 1)
  | none => match s.hbmRead e.launch e.core e.addr 4 with
    | .bad _ s => none' s 4
    | .fault x va =>
      let (s, tok) := s.newFault (.pass ⟨m.die, r.cluster⟩ r.chain) e.launch va x 0 false
      s.modEntry m.die r fun e => { e with token := some tok }
    | .ok bs s =>
      let len := valOf bs
      if len = 0 || len % 64 != 0 || 2 ^ 21 < 512 * e.target.toNat + len then none' s 6
      else (s.modEntry m.die r fun e => { e with len := some len }).loadImage m r e len 0 (len / 64 + 1)

/-- Whether an FP32 pattern is a NaN or an infinity. -/
def nonFinite (x : Nat) : Bool := x / 2 ^ 23 % 256 == 255

/-- phdec at its grant (R301): the block is read and given to a free engine. -/
def State.phdec (s : State) (m : MeshId) (r : EntryRef) (e : ChainEntry) : State :=
  let none' (s : State) (st : BitVec 8) : State :=
    ({ s with free := s.free + 1 } : State).finishEntry m.die r st ((Config.freeValue s.free).extractLsb' 0 8)
  if 4096 < e.target.toNat + 28 then none' s 6
  else match s.readYard e.core e.addr 16384 with
  | .error _ => none' s 4
  | .ok (bs, s) =>
    let ws := (List.range 4096).map fun i => numAt (bs.map Prod.fst) (4 * i) 4
    if ws.any nonFinite then none' s 6
    else
      let t := anyTaint bs
      (s.modEntry m.die r fun e =>
        { e with stageOf := .granted, out := ws.map (BitVec.ofNat 32), dataTaint := t }).takeEngine m.die r

/-- DECOMPOSITION_COMPLETE (R267, R301, R303): a phdec's image is written from its target granule, and the engine is free
again. -/
def execDecompositionComplete (die : BitVec 4) (engine : BitVec 4) (s : State) : Out :=
  match Tab.get none (s.die die).engines engine.toNat with
  | none => .next s
  | some r =>
    let s' := s.modDie die fun y => { y with engines := Tab.put none y.engines engine.toNat none }
    match s.entry die r with
    | none => .next s'
    | some e =>
      if e.kind ≠ .phdec then .next s'
      else
        let ebc := s.calEbc die
        let bs := decomposeRecord e.out ebc e.pint e.guard
        if s.loadReads e.mesh e.target.toNat ((bs.length + 511) / 512) then .next s
        else
          let s := s'.writeGranules e.mesh e e.target 0 (bs.map fun b => (b, e.taint || e.dataTaint))
          .next (s.finishEntry die r 0 ebc)

/-! ### Grants (R278, R294, R295) -/

/-- A chunk fills eight consecutive sample slots (R268, R319). -/
def State.fillSlots (s : State) (m : MeshId) (bank : Bool) (slot : Nat) (bs : List Byte) : State :=
  let b := passBase m bank
  let put (s : State) (a : Nat) (xs : List Byte) : State := s.poke a (xs.map fun x => (x, false))
  (put s (b + 64 * slot) (bs.take 512)) |> fun s => put s (b + 491520 + 4 * slot) ((bs.drop 512).take 32)

/-- A pass's staging step (R294): none where a yard word is uncorrectable. -/
def State.stagePass (s : State) (m : MeshId) (e : ChainEntry) : Nat → Option State
  | 0 => some s
  | n + 1 =>
    match s.stagePass m e n with
    | none => none
    | some s => match s.readYard e.core (e.addr + 576 * n) 576 with
      | .error _ => none
      | .ok (bs, s) => some (s.fillSlots m e.bank (e.slot + 8 * n) (bs.map Prod.fst))

/-- Make an image of a bank active (R260). -/
def State.swapTo (s : State) (m : MeshId) (g : BitVec 12) : State :=
  s.modMesh m fun x => if x.bankHolds x.active g then x else { x with active := !x.active }

/-- What a granted entry does. -/
def State.runEntry (s : State) (m : MeshId) (r : EntryRef) (e : ChainEntry) : State :=
  let x := s.mesh m
  match e.kind with
  | .phld => s.phld m r e
  | .phdec => s.phdec m r e
  | kind =>
    match (x.holds e.image).bind fun b => (x.bank b).map fun im => (b, im) with
    | none => s.finishEntry m.die r 4 0
    | some (b, im) =>
      match kind with
      | .probe =>
        let p := (s.swapTo m e.image).probeBank m b
        p.state.finishEntry m.die r (if p.good then 0 else 1) im.ebc
      | .phadj | .phwr => s.adjust m r e b im
      | .phrd => s.readPhases m r e b im
      | _ =>
        let s := s.swapTo m e.image
        match (if e.stage then s.stagePass m e ((e.n + 7) / 8) else some s) with
        | none => s.finishEntry m.die r 4 im.ebc
        | some s =>
          (s.modEntry m.die r fun e => { e with stageOf := .granted, ebc := im.ebc, guard := im.guard }).modMesh m
            fun x => { x with running := some r }

/-- PASS_GRANT (R278): at a pass boundary the ready entries are ranked, a load is started when the first of them
needs one, and the first that can run is granted. One that would write granules that a load is reading holds the mesh until
the load ends (R265, log entry 70). -/
def execPassGrant (m : MeshId) (s : State) : Out :=
  let x := s.mesh m
  let rs := s.readyFor m
  let top := bestOf x.rank rs
  let pick := bestOf x.rank (rs.filter fun y => x.canRun y.2)
  if x.running.isSome || x.probeDue || x.closeDue rs.isEmpty (pick.map Prod.snd) then .next s
  else
    let load := match top with
      | some (_, e) => if x.canRun e || x.loading.isSome then none else e.needs
      | none => none
    let (s, x) := match load with
      | some g =>
        let s := s.modMesh m fun x => { x.setBank (!x.active) none with loading := some g }
        (s, s.mesh m)
      | none => (s, x)
    match bestOf x.rank (rs.filter fun y => x.canRun y.2) with
    | none => .next s
    | some (r, e) =>
      if e.writesBank && s.loadReads m e.target.toNat 28 then .next s
      else
      let age (s : State) (y : EntryRef × ChainEntry) : State :=
        if y.1 = r then s else s.modEntry m.die y.1 fun z => { z with readyGrants := z.readyGrants + 1 }
      let s := rs.foldl age s
      let s := (s.modEntry m.die r fun z => { z with begun := true }).modMesh m fun x =>
        { x with lastGrant := r.cluster.toNat * 4 + r.chain.toNat, grants := x.grants + 1 }
      if e.needs.any x.isBad then .next (s.finishEntry m.die r 4 0)
      else .next (s.runEntry m r e)

/-- BANK_LOAD_COMPLETE (R264, R302): the image stands in the inactive bank with its trims at 0, or the load fails and
marks it bad; a write that waited for it is made (R265). -/
def execBankLoadComplete (m : MeshId) (s : State) : Out :=
  let x := s.mesh m
  match x.loading with
  | none => .next s
  | some g =>
    let a := wbufBase m + 512 * g.toNat
    let len := natOfBytes (s.mem.readN a 4)
    let im := if 2 ^ 21 < 512 * g.toNat + len || (s.bad a len).isSome then none
      else loadRecord g (s.mem.readN a len)
    let s := s.modMesh m fun x =>
      { ((x.setBank (!x.active) (im.map Prod.fst)).setCodes (!x.active) ((im.map Prod.snd).getD (x.codes !x.active))).setTrims
          (!x.active) [] with
        loading := none, bad := if im.isNone then Tab.put false x.bad g.toNat true else x.bad }
    .next (s.endHeldLoads m)

/-! ### Passes (R270 to R272) -/

/-- An output from its detected code (R270): plain, or rounded to the grid of shift sh. -/
def outputOf (y : Int) (exg : Int) (grid : Bool) (sh : Nat) : Word :=
  let v := if grid then (Val.ofInt (rneShift y (9 - sh))).scale (exg - sh) else (Val.ofInt y).scale (exg - 9)
  BitVec.ofNat 32 (encodeRne .f32 v).1

/-- Whether a code lies within 2^(10−E) codes of an ideal one, a fixed-point number: the contract |y·LSB − z| ≤
2^(1−E)·FS of an image with E > 0, compared by sixteenth powers (R273). -/
def withinContract (ebc : BitVec 8) (y z : Int) : Bool :=
  (y * fixOne - z).natAbs ^ 16 * 2 ^ ebc.toNat ≤ 2 ^ (160 + 96 * 16)

/-- Whether the contract binds an output of an ideal code on an image: E > 0, guard mode, no probe of the image in its bank,
or the last one within the bound, and |z| ≤ FS − LSB (R273; log entry 75). A pass whose later probe is not good is not
committed (R277). -/
def BankImage.bound (im : BankImage) (z : Int) : Bool :=
  im.guard && im.probed && im.ebc != 0 && decide (z.natAbs ≤ 511 * 2 ^ 96)

/-- The detected code of output j of sample t of the n-th pass, given its ideal code, and whether it was clamped: a free
value (log entry 3), of the codes that the contract allows where it binds (R270, R273); where it allows none, the code next to
the ideal one (DESIGN CHOICE, log entry 75). -/
def detectedCode (im : BankImage) (n t j : Nat) (z : Int) : Int × Bool :=
  let raw := Config.detected n t j
  let y := clampInt (-512) 511 raw
  if !im.bound z || withinContract im.ebc y z then (y, y != raw)
  else
    let ok := ((List.range 1024).map fun i => (i : Int) - 512).filter fun c => withinContract im.ebc c z
    ((ok[raw.natAbs % max 1 ok.length]?).getD (clampInt (-512) 511 (fixRne z)), false)

/-- The outputs of sample t of a pass and how many codes were clamped, from its mantissa row and its scale bytes (R270,
R272). -/
def sampleOut (o : Optics) (im : BankImage) (n t : Nat) (e : ChainEntry) (row scales : List Byte) : List Word × Nat :=
  if scales.any fun x => x == 0xFF then (List.replicate 64 0x7FC00000#32, 0)
  else
    let smax : Nat := scales.foldl (fun a b => max a b.toNat) 0
    let exg := (smax : Int) - 120 + im.gain
    let q := ((List.range 64).zip row).map fun x =>
      rneShift (svN 8 x.2.toNat) (smax - ((scales[x.1 / 16]?).getD (0 : Byte)).toNat)
    let z := if e.kind = .passRev then o.backward q else o.forward q
    let ys := ((List.range 64).zip z).map fun x => detectedCode im n t x.1 (4 * x.2)
    (ys.map fun y => outputOf y.1 exg e.grid e.shift, (ys.filter (·.2)).length)

/-- The running pass of a mesh reads its next mantissa row, or its next scale word: both in ascending sample order, each
whole (R269); an uncorrectable one spoils the pass (R284). -/
def State.sample (s : State) (m : MeshId) (scale : Bool) : State :=
  match (s.mesh m).running with
  | none => s
  | some r => match s.entry m.die r with
    | none => s
    | some e =>
      let i := if scale then e.scales.length else e.rows.length
      let other := if scale then e.rows.length else e.scales.length
      if e.n ≤ i || other < i then s
      else
        let n := if scale then 4 else 64
        let a := passBase m e.bank + (if scale then 491520 else 0) + n * (e.slot + i)
        let bs := s.mem.readN a n
        let bad := e.spoilt || (s.bad a n).isSome
        s.modEntry m.die r fun e =>
          if scale then { e with scales := e.scales ++ [bs], spoilt := bad } else { e with rows := e.rows ++ [bs], spoilt := bad }

/-- The running pass reads every sample that it has not read yet. -/
def State.sampleAll (s : State) (m : MeshId) (n : Nat) : State :=
  (List.range n).foldl (fun s _ => (s.sample m false).sample m true) s

/-- PASS_END (R269 to R273, R277): the samples not yet read are read, and the codes are converted; the pass waits for its
commit, or joins the commit group of guard mode. -/
def execPassEnd (m : MeshId) (s : State) : Out :=
  match (s.mesh m).running with
  | none => .next s
  | some r =>
    let s := s.sampleAll m 256
    let x := s.mesh m
    let s := s.modMesh m fun x => { x with running := none }
    match s.entry m.die r, x.act with
    | some e, some im =>
      if e.spoilt then .next (s.finishEntry m.die r 4 im.ebc)
      else if x.isFenced e.image then .next (s.finishEntry m.die r 1 im.ebc)
      else
        let o := opticsOf (codesOf (x.codes x.active))
        let outs := ((List.range e.n).zip (e.rows.zip e.scales)).map fun y =>
          sampleOut o im s.free y.1 e y.2.1 y.2.2
        let s := ({ s with free := s.free + 1 } : State).modEntry m.die r fun e =>
          { e with stageOf := .latched, out := outs.flatMap Prod.fst, rows := [], scales := [] }
        .next (s.modMesh m fun x =>
          let x := { x with clip := min 65535 (x.clip + (outs.map Prod.snd).sum)
                            sinceProbe := x.sinceProbe + e.n }
          if im.guard then { x with latch := x.latch ++ [r], latchSamples := x.latchSamples + e.n }
          else { x with ended := x.ended ++ [r] })
    | _, _ => .next s

/-- Whether a queued vwrac or aclr must write before a pass commits (R308): its cut does not pass the entry. -/
def State.heldByVacc (s : State) (k : ClusterId) (e : ChainEntry) : Bool :=
  (List.range 64).any fun st =>
    let c : CoreId := .ord k.die k.cl (BitVec.ofNat 6 st)
    (s.core c).vq.any fun v =>
      (v.op.kind == .wrac || v.op.kind == .aclr) && (match v.cut with | some n => n ≤ e.seq | none => false)
        && (match s.liveWindow c v.ga with | some l => l.mesh == e.mesh && l.win == e.win.toNat | none => false)

/-- Whether every earlier entry of an entry's chain has completed: the entries of one chain commit in sequence order,
whatever mesh they run on (R276). -/
def State.chainTurn (s : State) (d : BitVec 4) (r : EntryRef) : Bool :=
  ((s.chain ⟨d, r.cluster⟩ r.chain.toNat).ents.takeWhile fun e => e.seq != r.seq).all ChainEntry.finished

/-- PASS_COMMIT (R271, R276, R284): the oldest ended pass whose turn in its chain has come is applied to its window, whole
or not at all. -/
def execPassCommit (m : MeshId) (s : State) : Out :=
  let x := s.mesh m
  match x.ended.find? fun r => s.chainTurn m.die r with
  | none => .next s
  | some r =>
    let rest := x.ended.erase r
    match s.entry m.die r with
    | none => .next (s.modMesh m fun x => { x with ended := rest })
    | some e =>
      if s.heldByVacc ⟨m.die, r.cluster⟩ e then .next s
      else
        let s := s.modMesh m fun x => { x with ended := rest }
        let old := x.rows e.win.toNat e.row0 e.n
        if !e.set && old.any (·.poison) then .next (s.finishEntry m.die r 4 e.ebc)
        else
          let acc (o : WinElem) (v : Word) : WinElem :=
            if e.set then ⟨v, true, false⟩
            else
              let sum := (Val.add .rne (decodeVal .f32 o.val.toNat) (decodeVal .f32 v.toNat)).1
              ⟨BitVec.ofNat 32 (encodeRne .f32 sum).1, true, false⟩
          let s := s.modMesh m fun x =>
            { x.setRows e.win.toNat e.row0 (old.zipWith acc e.out) with
              unconf := if e.guard then x.unconf else min 15 (x.unconf + 1) }
          .next ((s.nonReplay e.core).finishEntry m.die r 0 e.ebc)

/-! ### CHAIN_ENTRY_COMPLETE (R276, R296) -/

/-- Engine kind of an entry's handle (R294, R295, R299). -/
def ChainEntry.handleKind (e : ChainEntry) : Nat := if e.isPass then 3 else if e.kind == .probe then 7 else 4

/-- CHAIN_ENTRY_COMPLETE (R276, R296): the oldest entry of a chain, once it has completed, fills its handle; under
a raised abort line one that has not started completes ABORTED. A probe's word holds its verdict and is tainted (R6;
log entry 65). -/
def execChainEntryComplete (k : ClusterId) (chain : BitVec 2) (s : State) : Out :=
  let n := chain.toNat
  let c := s.chain k n
  match c.ents with
  | [] => .next s
  | e :: rest =>
    let give (st : BitVec 8) (ebc : BitVec 8) : Out :=
      let w := handleWord e.handleKind (k.cl.toNat * 4 + n) e.seq st.toNat ebc.toNat
      let t := e.taint || e.hTaint || e.kind == .probe || 1 < c.appenders.length
      let s := s.modChain k n fun c => { c with ents := rest }
      .next (s.completeHandle e.core (some e.h) e.inb w t)
    match e.stageOf with
    | .finished st => give st e.ebc
    | _ =>
      if !e.started && (s.cluster k).abortLine then give 5 (s.imageEbc e.mesh e.names) else .next s

end Sys2Proof.Machine
end

