-- ==== Sys2Proof/Machine/Optical.lean ====
section
/-! DEFINITION. The OPT and PHASE instructions (R286 to R305): leases, passes, probes and PHASE commands. -/

namespace Sys2Proof.Machine

/-! ### Leases (R275, R290, R291) -/

/-- The free windows of a mesh. -/
def Mesh.freeWins (x : Mesh) : List Nat :=
  (List.range 16).filter fun w => (Tab.get none x.leases w).isNone

/-- The mesh of a die with the most free windows, the lowest number winning ties (R275). -/
def State.freestMesh (s : State) (d : BitVec 4) : MeshId :=
  (List.range 32).foldl (fun (b : MeshId) i =>
    let m : MeshId := ⟨d, BitVec.ofNat 5 i⟩
    if (s.mesh b).freeWins.length < (s.mesh m).freeWins.length then m else b) ⟨d, 0⟩

/-- Claim a window of a mesh for a cluster; which of the free ones is a free value (log entry 31). -/
def State.claim (s : State) (m : MeshId) (chain : BitVec 2) : Option (DWord × State) :=
  let ws := (s.mesh m).freeWins
  match ws[(Config.freeValue s.free).toNat % max 1 ws.length]? with
  | none => none
  | some w =>
    let k := s.cur.cluster
    let l : Lease := { launch := s.launchIx s.cur, cluster := k.cl, chain := chain, freeing := false }
    some (leaseWord k.cl m.mesh w chain, ({ s with free := s.free + 1 } : State).modMesh m fun x =>
      { x with leases := Tab.put none x.leases w (some l) })

/-- A request for a window, of a mesh or of the freest one, that has reached the scheduler: it is granted, or it waits
(R290). -/
def State.tryClaim (s : State) (o : AleaseO) (mesh : Option MeshId) : Res :=
  let c := s.cur
  let later : Res := .stall (s.modMe fun k => { k with phase := .claim mesh })
  match s.claim (mesh.getD (s.freestMesh c.die)) o.chain with
  | none => later
  | some (w, s') =>
    let s' := s'.modMe fun k => { k with phase := .idle }
    match s.decision c with
    | .held => later
    | .free => (s'.logCore c 8 w 0).toG o.d w true
    | .replay e => (s'.replayed c e 8 w).toG o.d w true

/-- ALEASE (R290): a KIND 8 decision; the lease word is tainted. The lease it names is judged once, when the request
reaches the scheduler (R288). -/
def execAlease (o : AleaseO) (s : State) : Out :=
  unit (len2 o.q) o.q (fun s =>
    match s.me.phase with
    | .claim mesh => s.tryClaim o mesh
    | _ => s.me.need [.g o.a o.ta]
      (let v := s.me.gv o.a
       if (s.me.greg o.d).fill = .pending then .wait
       else if v = 0 then s.tryClaim o none
       else match s.liveLease s.cur v with
         | some l => s.tryClaim o (some l.mesh)
         | none => .trap (illegal 1))) s

/-- Free a window: its contents are discarded (R291). -/
def State.freeWindow (s : State) (m : MeshId) (w : Nat) : State :=
  s.modMesh m fun x =>
    { x with leases := Tab.put none x.leases w none
             wins := x.wins.filter fun y => y.1 / 2 ^ 14 != w }

/-- Whether some entry into a window, appended or judged and waiting for room in its chain, has not completed (R291). -/
def State.windowBusy (s : State) (k : ClusterId) (chain : BitVec 2) (m : MeshId) (w : BitVec 4) : Bool :=
  let into (e : ChainEntry) : Bool := e.mesh == m && e.win == w && !e.finished
  (s.chain k chain.toNat).ents.any into || (List.range 64).any fun st =>
    match (s.core (.ord k.die k.cl (BitVec.ofNat 6 st))).phase with
    | .append _ e => into e
    | _ => false

/-- AFREE (R291): a later request finds the lease no longer live, and the window is freed once every entry appended into it
has completed. -/
def execAfree (o : XA) (s : State) : Out :=
  unit (len2 o.q) o.q (fun s => s.me.need [.g o.a o.ta]
    (let v := s.me.gv o.a
     let m : MeshId := ⟨s.cur.die, v.extractLsb' 11 5⟩
     let w := v.extractLsb' 7 4
     match s.me.phase with
     | .afree =>
       if s.windowBusy s.cur.cluster (v.extractLsb' 5 2) m w then .wait
       else .done ((s.freeWindow m w.toNat).modMe fun k => { k with phase := .idle })
     | _ =>
       match s.liveLease s.cur v with
       | none => .trap (illegal 1)
       | some l =>
         let freeing (y : Lease) : Lease := { y with freeing := true }
         let mark (x : Mesh) : Mesh :=
           { x with leases := Tab.put none x.leases l.win ((Tab.get none x.leases l.win).map freeing) }
         .stall ((s.modMesh l.mesh mark).modMe fun k => { k with phase := .afree }))) s

/-! ### Appending to a chain (R276, R293) -/

/-- An entry with nothing in it but its issuer and lease. -/
def newEntry (s : State) (kind : ChainKind) (l : LeaseRef) (h : BitVec 3) (inb taint : Bool) : ChainEntry :=
  { seq := 0, kind := kind, core := s.cur, launch := s.launchIx s.cur, h := h, inb := inb, taint := taint,
    dataTaint := false, hTaint := false, mesh := l.mesh, win := BitVec.ofNat 4 l.win, image := 0, target := 0,
    row0 := 0, n := 0, slot := 0, bank := false, set := false, grid := false, shift := 0, stage := false,
    addr := 0, first := 0, count := 0, trim := false, guard := false, pint := 0, deps := [], readyGrants := 0,
    stageOf := .waiting, ebc := 0, done := 0, token := none, begun := false, len := none, ending := none, bytes := [],
    after := s.me.accesses, rows := [], scales := [], spoilt := false, out := [], ring := s.ringLoad s.cur }

/-- Append an entry to a chain: it waits for room, and under replay for its predecessors, its descriptor having been read
and its lease judged once; a pass on a fenced image completes DRIFT at once (R276, R280,
R288, R293, R358). -/
def State.appendEntry (s : State) (chain : BitVec 2) (e : ChainEntry) : Res :=
  let c := s.cur
  let k := c.cluster
  let ch := s.chain k chain.toNat
  if 64 ≤ ch.ents.length || s.appendHeld c ch.next then
    .stall (s.modMe fun x => { x with phase := .append chain e })
  else
    let fenced := e.isPass && (s.mesh e.mesh).isFenced e.image
    let e := { e with seq := ch.next, ebc := s.imageEbc e.mesh e.names
                      stageOf := if fenced then .finished 1 else .waiting }
    let s := s.noteAppend c e.handleKind (k.cl.toNat * 4 + chain.toNat) ch.next
    let s := s.modChain k chain.toNat fun y =>
      { y with next := y.next + 1, ents := y.ents ++ [e]
               appenders := if y.appenders.contains c then y.appenders else c :: y.appenders }
    .done (s.modMe fun x => { x.pendH e.h with phase := .idle, owed := if e.inb then x.owed + 1 else x.owed })

/-- An append that waits goes on with its entry as it was read; otherwise the instruction begins. -/
def appendOnce (begin' : State → Res) (s : State) : Res :=
  match s.me.phase with
  | .append chain e => s.appendEntry chain e
  | _ => begin' s

/-- A dependence of a descriptor at byte a: none where its reserved bits are set (R292). -/
def depAt (bs : TBytes) (a : Nat) : Option (List Dep) :=
  let x := fieldAt bs a 8
  if x / 2 ^ 45 != 0 then none
  else if x.testBit 44 then
    some [⟨BitVec.ofNat 10 (x / 2 ^ 32), BitVec.ofNat 2 (x / 2 ^ 42), BitVec.ofNat 32 x⟩]
  else some []

/-- Fill a pass entry from its descriptor; none where a field breaks R292. -/
def passDesc (bs : TBytes) (e : ChainEntry) : Option ChainEntry :=
  let image := fieldAt bs 0 2
  let row0 := fieldAt bs 2 1
  let n := fieldAt bs 3 1 + 1
  let sl := fieldAt bs 4 2
  let slot := sl % 2 ^ 13
  let m := fieldAt bs 6 1
  let shift := m / 4 % 16
  let addr := fieldAt bs 8 4
  let stage := m.testBit 6
  let chunks := (n + 7) / 8
  let bad := image / 4096 != 0 || 256 < row0 + n || sl / 2 ^ 14 != 0 || 7680 < slot + n || m.testBit 7
    || 9 < shift || (!m.testBit 1 && shift != 0) || fieldAt bs 7 1 != 0 || 2 ^ 19 ≤ addr || addr % 64 != 0
    || fieldAt bs 12 4 != 0
    || (if stage then slot % 8 != 0 || 7680 < slot + 8 * chunks || 2 ^ 19 < addr + 576 * chunks else addr != 0)
  match depAt bs 16, depAt bs 24 with
  | some d0, some d1 =>
    if bad then none
    else some { e with image := BitVec.ofNat 12 image, row0 := row0, n := n, slot := slot, bank := sl.testBit 13,
                       set := m.testBit 0, grid := m.testBit 1, shift := shift, stage := stage, addr := addr,
                       deps := d0 ++ d1 }
  | _, _ => none

/-- Append a pass or PHASE command: the checks of R293 and R298 in order, then the append. -/
def State.appendCommand (s : State) (o : XHAB) (kind : ChainKind) (desc : TBytes → ChainEntry → Option ChainEntry)
    (after : ChainEntry → TBytes → Option Trap) : Res :=
  let c := s.me
  let v := c.gv o.b
  let e (s : State) (bs : TBytes) (l : LeaseRef) : Option ChainEntry :=
    desc bs (newEntry s kind l o.d o.inb (c.gt o.b || anyTaint bs || c.ct))
  let noLease : LeaseRef := ⟨⟨0, 0⟩, 0, 0⟩
  let fields : Option Trap := match s.readLocal s.cur v.toNat 32 with
    | .error t => some t
    | .ok (bs, s) => if (e s bs noLease).isNone then some (illegal 2) else none
  let bounds := descTrap v 32 32 2
  if c.srcFull (.g o.b o.tb) && bounds.isNone && c.vecTouchesLocal v.toNat 32 then .wait
  else c.needPast [.g o.a o.ta, .g o.b o.tb] [([.g o.b o.tb], bounds.or fields)]
    (if (c.hreg o.d).fill = .pending then .wait
     else s.localDesc v 32 32 2 fun bs s =>
      if (e s bs noLease).isNone then .trap (illegal 2)
      else match s.liveLease s.cur (c.gv o.a) with
        | none => .trap (illegal 1)
        | some l => match e s bs l with
          | none => .trap (illegal 2)
          | some e => match after e bs with
            | some t => .trap t
            | none => s.appendEntry l.chain e)

/-- OPASS (R293, R294). -/
def execOpass (o : XHAB) (s : State) : Out :=
  unit (len2 o.q) o.q (appendOnce fun s => s.appendCommand o .pass passDesc fun _ _ => none) s

/-- OPASSR (R272, R293). -/
def execOpassr (o : XHAB) (s : State) : Out :=
  unit (len2 o.q) o.q (appendOnce fun s => s.appendCommand o .passRev passDesc fun _ _ => none) s

/-- OPROBE (R295). -/
def execOprobe (o : XHAB) (s : State) : Out :=
  unit (len2 o.q) o.q (appendOnce fun s =>
    let c := s.me
    c.needPast [.g o.a o.ta, .g o.b o.tb]
      [([.g o.b o.tb], if (c.gv o.b).toNat / 4096 ≠ 0 then some (illegal 2) else none)]
      (let v := c.gv o.b
       if (c.hreg o.d).fill = .pending then .wait
       else if v.toNat / 4096 ≠ 0 then .trap (illegal 2)
       else match s.liveLease s.cur (c.gv o.a) with
       | none => .trap (illegal 1)
       | some l =>
         s.appendEntry l.chain { newEntry s .probe l o.d o.inb (c.gt o.b || c.ct) with image := v.setWidth 12 })) s

/-! ### PHASE (R297 to R304) -/

/-- Fill a PHASE entry from its descriptor; none where a field breaks R298. -/
def phaseDesc (bs : TBytes) (e : ChainEntry) : Option ChainEntry :=
  let img := fieldAt bs 0 2
  let tg := fieldAt bs 2 2
  let first := fieldAt bs 4 2
  let count := fieldAt bs 6 2
  let f := fieldAt bs 8 1
  let trim := f.testBit 0
  let addr := fieldAt bs 16 8
  let noImage := e.kind == .phld || e.kind == .phdec
  let span := match e.kind with
    | .phdec => 16384
    | .phadj => count
    | _ => 2 * count
  let tgZero := e.kind == .phrd || (!noImage && trim)
  let bad := img / 4096 != 0 || tg / 4096 != 0 || f / 32 != 0 || fieldAt bs 9 7 != 0
    || (if noImage then img != 0 || first != 0 || count != 0 || trim
        else 8192 ≤ first || count = 0 || 8192 < first + count)
    || (tgZero && tg != 0) || (e.kind != .phdec && f / 2 != 0)
    || (e.kind != .phld && (2 ^ 19 ≤ addr || addr % 64 != 0 || 2 ^ 19 < addr + span))
  match depAt bs 24 with
  | some d =>
    if bad then none
    else some { e with image := BitVec.ofNat 12 img, target := BitVec.ofNat 12 tg, first := first, count := count,
                       trim := trim, guard := f.testBit 1, pint := f / 4 % 8, deps := d
                       addr := if e.kind = .phld then addr % 2 ^ 56 else addr }
  | none => none

/-- A null pointer of phld traps FORMAT (R79). -/
def phldTrap (_ : ChainEntry) (bs : TBytes) : Option Trap := nullTrap (BitVec.ofNat 64 (fieldAt bs 16 8))

/-- PHLD (R300). -/
def execPhld (o : XHAB) (s : State) : Out :=
  unit (len2 o.q) o.q (appendOnce fun s => s.appendCommand o .phld phaseDesc phldTrap) s

/-- PHDEC (R301). -/
def execPhdec (o : XHAB) (s : State) : Out :=
  unit (len2 o.q) o.q (appendOnce fun s => s.appendCommand o .phdec phaseDesc fun _ _ => none) s

/-- PHADJ (R303). -/
def execPhadj (o : XHAB) (s : State) : Out :=
  unit (len2 o.q) o.q (appendOnce fun s => s.appendCommand o .phadj phaseDesc fun _ _ => none) s

/-- PHWR (R303). -/
def execPhwr (o : XHAB) (s : State) : Out :=
  unit (len2 o.q) o.q (appendOnce fun s => s.appendCommand o .phwr phaseDesc fun _ _ => none) s

/-- PHRD (R304). -/
def execPhrd (o : XHAB) (s : State) : Out :=
  unit (len2 o.q) o.q (appendOnce fun s => s.appendCommand o .phrd phaseDesc fun _ _ => none) s

/-! ### OSTAT (R283, R305) -/

/-- DSTATE's code (R279). -/
def Drift.code : Drift → Nat
  | .clear => 0 | .warn => 1 | .fenced => 2 | .thermal => 3

/-- The mesh status word (R283). -/
def Mesh.status (x : Mesh) : DWord :=
  let im := x.act
  BitVec.ofNat 64 (x.dlast * 2 ^ 54 + (im.map BankImage.dpeak).getD 0 * 2 ^ 44
    + ((im.map BankImage.ebc).getD 0).toNat * 2 ^ 36 + x.temp.toNat * 2 ^ 28 + x.clip * 2 ^ 12 + x.unconf * 2 ^ 8
    + ((im.map fun (y : BankImage) => (x.driftOf y.gran).code).getD 0) * 2 ^ 6 + ((im.map BankImage.guard).getD false).toNat * 2 ^ 5
    + x.freeWins.length)

/-- OSTAT (R305): tainted; its read clears CLIP. -/
def execOstat (o : XDA) (s : State) : Out :=
  unit (len2 o.q) o.q (fun s => s.me.need [.g o.a o.ta]
    (match s.liveLease s.cur (s.me.gv o.a) with
     | none => .trap (illegal 1)
     | some l =>
       if (s.me.greg o.d).fill = .pending then .wait
       else
         (s.modMesh l.mesh fun x => { x with clip := 0 }).toG o.d (s.mesh l.mesh).status true)) s

end Sys2Proof.Machine
end

