-- ==== Sys2Proof/Machine/Handle.lean ====
section
/-! DEFINITION. Handles, the inbox, fences and empty (R193 to R200); hcancel stands in Machine/Cancel.lean. -/

namespace Sys2Proof.Machine

/-! ### Waiting for a handle (R194, R195, R197) -/

/-- A core has read H[n] with hwait or hmov: what follows from program order alone is known again (R195). -/
def Core.readHandle (k : Core) (n : BitVec 3) : Core :=
  { k with hIssued := k.hIssued &&& ~~~(1#8 <<< n.toNat) }

/-- Acquiring a command's writes: a ramp core's L1 copies go (R194, R325). -/
def State.acquireCommand (s : State) : State := s.acquireHbm s.cur 4

/-- HWAIT (R194): the abort line is sampled throughout. -/
def execHwait (o : HwaitO) (s : State) : Out :=
  unit (len2 o.q) o.q (fun s =>
    if s.aborted s.cur then .trap (abortTrap 3)
    else s.me.need [.h o.a o.ta]
      (let r := s.me.hreg o.a
       ((s.acquireCommand.acquireAt s.cur o.scope o.smask).modMe fun k => k.readHandle o.a).toG o.d r.val r.taint)) s

/-- HTEST's result with its taint (R195). -/
def Core.htestTaint (k : Core) (n : BitVec 3) : Bool := k.hIssued.getLsbD n.toNat

/-- HTEST (R195): a KIND 1 decision. -/
def execHtest (o : HtestO) (s : State) : Out :=
  unit (len2 o.q) o.q (fun s =>
    let k := s.me
    let full := (k.hreg o.a).fill == .full
    let t := k.htestTaint o.a
    let reg := o.a.zeroExtend 64
    let give (s : State) (b : Bool) : Res := s.toP o.d b t
    match s.decision s.cur with
    | .held => .wait
    | .free => give (s.logCore s.cur 1 (if full then 1 else 0) reg) full
    | .replay e =>
      let one := e.kind == 1 && e.va == 1
      if one && !full then .wait else give (s.replayed s.cur e 1 (if one then 1 else 0)) one) s

/-- HMOV_H (R197): waits as hwait does, without sampling the abort line. -/
def execHmovH (o : HmovO) (s : State) : Out :=
  unit (len2 o.q) o.q (fun s => s.me.need [.h o.a o.ta]
    (let r := s.me.hreg o.a
     if (s.me.hreg o.d).fill = .pending then .wait
     else .done (s.acquireCommand.modMe fun k => (k.readHandle o.a).writeH o.d r.val r.taint))) s

/-- HMOV_G (R197). -/
def execHmovG (o : HmovG) (s : State) : Out :=
  unit (len2 o.q) o.q (fun s => s.me.need [.g o.a o.ta]
    (if (s.me.hreg o.d).fill = .pending then .wait
     else .done (s.modMe fun k => k.writeH o.d (k.gv o.a) (k.gt o.a)))) s

/-! ### The inbox (R132, R133, R198) -/

/-- Write the pair of an inbox result. -/
def Core.inboxPair (k : Core) (d b : BitVec 5) (w v : DWord) (t : Bool) : Core :=
  (k.writeG d w t).writeG b v t

/-- The message at place i leaves; the oldest held one enters (R132). -/
def Core.takeMessage (k : Core) (i : Nat) : Core :=
  match k.held with
  | m :: hs => { k with inbox := k.inbox.eraseIdx i ++ [m], held := hs, owed := k.owed - 1 }
  | [] => { k with inbox := k.inbox.eraseIdx i, owed := k.owed - 1 }

/-- Dequeue the message at place i into G[D], G[B] (R133, R198). -/
def State.dequeue (s : State) (o : InboxO) (i : Nat) : Res :=
  let k := s.me
  match k.inbox[i]? with
  | none => .wait
  | some m =>
    let t := m.taint || k.owed != 1 || o.nb
    .done (s.acquireCommand.modMe fun k => (k.takeMessage i).inboxPair o.d o.b m.hw m.val t)

/-- The place of a recorded message. -/
def Core.messageAt (k : Core) (p : InboxMsg → Bool) : Option Nat := k.inbox.findIdx? p

/-- Wait for a message, sampling the abort line as a handle wait does (R198). -/
def State.inboxWait (s : State) : Res :=
  if s.aborted s.cur then .trap (abortTrap 3) else .wait

/-- Whether two handle words name the same command: KIND, SEQ and, but for an atomic, whose INST follows from the page
mappings, INST (R181, R192). -/
def sameCommand (a b : DWord) : Bool :=
  a.extractLsb' 60 4 == b.extractLsb' 60 4 && a.extractLsb' 16 32 == b.extractLsb' 16 32
    && (a.extractLsb' 60 4 == 2 || a.extractLsb' 48 12 == b.extractLsb' 48 12)

/-- The recorded message has not come: its command may have completed with a different word or value, which has become
impossible to replay and diverges (R362); else it is waited for. -/
def State.inboxMissing (s : State) (o : InboxO) (e : LogEntry) (w : DWord) : Res :=
  match s.me.messageAt fun m => sameCommand m.hw w with
  | some i =>
    let x := (s.me.inbox[i]?).map fun m => if m.hw = w then m.val else m.hw
    ((s.consume (s.launchIx s.cur) s.cur.die e).diverged s.cur e (x.getD 0)).dequeue o i
  | none => s.inboxWait

/-- INBOX with NB = 1 (R198): a KIND 2 decision. -/
def State.inboxNb (s : State) (o : InboxO) : Res :=
  let k := s.me
  let none' (s : State) : Res := .done (s.modMe fun k => k.inboxPair o.d o.b 0 0 (k.owed != 0))
  match s.decision s.cur with
  | .held => .wait
  | .free =>
    match k.inbox with
    | [] => none' (s.logCore s.cur 2 0 0)
    | m :: _ => (s.logCore s.cur 2 1 m.hw).dequeue o 0
  | .replay e =>
    if e.kind = 2 && e.va = 1 then
      match k.messageAt fun m => m.hw == e.vb with
      | some i => (s.replayed s.cur e 2 1).dequeue o i
      | none => s.inboxMissing o e e.vb
    else none' (s.replayed s.cur e 2 0)

/-- INBOX with NB = 0 (R198): with OWED above 1 a KIND 3 decision. -/
def State.inboxBlock (s : State) (o : InboxO) : Res :=
  let k := s.me
  if k.inbox.isEmpty && k.owed = 0 then .trap (illegal 0)
  else if k.owed ≤ 1 then
    if k.inbox.isEmpty then s.inboxWait else s.dequeue o 0
  else match s.decision s.cur with
  | .held => .wait
  | .free =>
    match k.inbox with
    | [] => s.inboxWait
    | m :: _ => (s.logCore s.cur 3 m.hw m.val).dequeue o 0
  | .replay e =>
    if e.kind = 3 then
      match k.messageAt fun m => m.hw == e.va && m.val == e.vb with
      | some i => (s.replayed s.cur e 3 e.va).dequeue o i
      | none => s.inboxMissing o e e.va
    else match k.inbox with
      | [] => s.inboxWait
      | m :: _ => (s.replayed s.cur e 3 m.hw).dequeue o 0

/-- INBOX (R198). -/
def execInbox (o : InboxO) (s : State) : Out :=
  unit (len2 o.q) o.q (fun s =>
    let k := s.me
    if o.d = o.b && o.d ≠ 0 then .trap (illegal 2)
    else if (k.greg o.d).fill = .pending || (k.greg o.b).fill = .pending then .wait
    else if o.nb then s.inboxNb o else s.inboxBlock o) s

/-! ### Fences (R199) -/

/-- Whether earlier reads that a queue still holds are complete, for a mask that covers anything. -/
def Core.readsDone (k : Core) (mask : BitVec 5) : Bool :=
  mask == 0 || (!k.vecPending (fun v => v.onLocal || v.onYard || v.onHbm) && k.atomics.isEmpty)

/-- FENCE_ACQ (R199). -/
def execFenceAcq (o : FenceO) (s : State) : Out :=
  unit (len2 o.q) o.q (fun s =>
    if s.me.readsDone o.smask then .done (s.acquireAt s.cur o.scope o.smask) else .wait) s

/-- FENCE_REL (R199). -/
def execFenceRel (o : FenceO) (s : State) : Out :=
  unit (len2 o.q) o.q (fun s => if s.me.performedAt s.cur o.scope o.smask then .done s else .wait) s

/-- FENCE_FULL (R199): both, and earlier writes before later reads. -/
def execFenceFull (o : FenceO) (s : State) : Out :=
  unit (len2 o.q) o.q (fun s =>
    if s.me.readsDone o.smask && s.me.performedAt s.cur o.scope o.smask then .done (s.acquireAt s.cur o.scope o.smask)
    else .wait) s

/-! ### empty (R200) -/

/-- EMPTY_G (R200): empty g0 has no effect. -/
def execEmptyG (o : XD) (s : State) : Out :=
  unit (len2 o.q) o.q (fun s =>
    if (s.me.greg o.d).fill = .pending then .wait
    else .done (s.modMe fun k => k.setGreg o.d { k.greg o.d with fill := .empty })) s

/-- Whether an unfinished vector instruction reads or writes V[n]. -/
def Core.vecNames (k : Core) (n : Nat) : Bool :=
  let names (o : VOp) : Bool :=
    o.vdests.contains n || o.vsrcs.any fun x => x.1 ≤ n && n < x.1 + x.2.1
  (k.vq.any fun e => names e.op) || (k.inflight.any fun i => names i.ent.op)

/-- EMPTY_V (R200). -/
def execEmptyV (o : EmptyV) (s : State) : Out :=
  unit (len2 o.q) o.q (fun s =>
    let k := s.me
    if (k.portOf o.d.toNat).isSome then .trap (illegal 3)
    else if k.vecNames o.d.toNat || (k.vreg o.d).fill = .pending then .wait
    else .done (s.modMe fun k => k.setVreg o.d { k.vreg o.d with fill := .empty })) s

/-- EMPTY_H (R200). -/
def execEmptyH (o : EmptyH) (s : State) : Out :=
  unit (len2 o.q) o.q (fun s =>
    if (s.me.hreg o.d).fill = .pending then .wait
    else .done (s.modMe fun k => k.setHreg o.d { k.hreg o.d with fill := .empty })) s

end Sys2Proof.Machine
end

