-- ==== Sys2Proof/Machine/Stream.lean ====
section
/-! DEFINITION. Stream ports (R134, R201 to R204): bind, unbind, and the events YOUT_ELEMENT_WRITE and
YIN_READ_AHEAD. -/

namespace Sys2Proof.Machine

/-! ### Bind (R201 to R203) -/

/-- The ring a yard binding describes (R202): base, LOG2N, control block. -/
structure RingDesc where
  base : Nat
  log2n : Nat
  ctl : Nat
  deriving DecidableEq, Repr

/-- The limits of a yard binding's ring operand alone. -/
def ringBreach (a : DWord) : Option Trap :=
  let base := (a.extractLsb' 0 19).toNat
  let lg := (a.extractLsb' 20 4).toNat
  if a.getLsbD 19 || a.toNat / 2 ^ 24 != 0 || 9 < lg || base % 512 != 0 || 2 ^ 19 < base + 512 * 2 ^ lg then
    some (illegal 1)
  else none

/-- The limits of its control operand alone. -/
def ctlBreach (b : DWord) : Option Trap :=
  if b.toNat / 2 ^ 19 != 0 || (b.extractLsb' 0 19).toNat % 32 != 0 then some (illegal 2) else none

/-- Decode the operands of a yard binding, with the position of the first breach. -/
def ringDesc (a b : DWord) : Except Trap RingDesc :=
  let base := (a.extractLsb' 0 19).toNat
  let lg := (a.extractLsb' 20 4).toNat
  let ctl := (b.extractLsb' 0 19).toNat
  match (ringBreach a).or (ctlBreach b) with
  | some t => .error t
  | none => if base < ctl + 32 && ctl < base + 512 * 2 ^ lg then .error (illegal 2) else .ok ⟨base, lg, ctl⟩

/-- Set a ring's FLAGS: the ports' own synchronisation, which no tag records (R202; log entry 21). -/
def State.putFlags (s : State) (k : ClusterId) (ctl flags : Nat) : State :=
  (s.shadowYard k (ctl + 16) 8).poke (yardBase k + (ctl + 16)) (bytesOf 8 flags false)

/-- Replace a port of core c, also where a late trap would restore it (R149). -/
def State.setPort (s : State) (c : CoreId) (n : Nat) (p : Option Port) : State :=
  s.modCore c fun k => k.mapRegs fun r => { r with ports := Tab.put none r.ports n p }

/-- The port that holds a ramp core's channel: its core and number (R203). -/
def State.channelPort (s : State) (die : BitVec 4) (ramp : BitVec 7) (chan : BitVec 4) :
    Option (CoreId × Nat × Port) :=
  s.cores.findSome? fun x =>
    let c := coreOfNum x.1
    if c.die != die then none
    else x.2.ports.findSome? fun p => match p.2 with
      | some q =>
        if (q.kind == .rin || q.kind == .rout) && q.ramp == ramp && q.chan == chan then
          some (c, p.1, q)
        else none
      | none => none

/-- A new port of a kind: nothing has passed, so it shows the register's value (R135). -/
def newPort (k : Core) (n : Nat) (kind : PortKind) (r : RingDesc) (ramp : BitVec 7) (chan : BitVec 4) : Port :=
  let v := k.vreg (BitVec.ofNat 4 (12 + n))
  { kind := kind, base := r.base, log2n := r.log2n, ctl := r.ctl, ramp := ramp, chan := chan, buf := [],
    last := v.val, lastTaint := v.taint }

/-- Bind a yard ring: the FLAGS bit is set indivisibly (R202). A reserved dword of the control block that is not zero traps
ILLEGAL_OPERAND 2 (DESIGN CHOICE, log entry 77). -/
def State.bindYard (s : State) (n : Nat) (kind : PortKind) (a b : DWord) : Res :=
  match ringDesc a b with
  | .error t => .trap t
  | .ok r =>
    let k := s.cur.cluster
    if !s.me.ystores.isEmpty || s.me.vecTouchesYard r.ctl 32 then .wait
    else match s.bad (yardBase k + r.ctl) 32 with
    | some x => .trap (yardBad k x)
    | none =>
      let flags := s.portCount k (r.ctl + 16)
      let bit := if kind = .yout then 0 else 1
      if flags.testBit bit || s.portCount k (r.ctl + 24) != 0 then .trap (illegal 2)
      else
        let s := s.putFlags k r.ctl (flags + 2 ^ bit)
        .done (s.setPort s.cur n (some (newPort s.me n kind r 0 0)))

/-- A breach of the far end's operand alone, or a channel that some port has bound (R203). -/
def State.rampBreach (s : State) (a : DWord) : Option Trap :=
  if a.getLsbD 7 || a.toNat / 2 ^ 12 != 0
      || (s.channelPort s.cur.die (a.extractLsb' 0 7) (a.extractLsb' 8 4)).isSome then some (illegal 1) else none

/-- Bind a ramp channel (R203). -/
def State.bindRamp (s : State) (n : Nat) (kind : PortKind) (a b : DWord) : Res :=
  match s.rampBreach a with
  | some t => .trap t
  | none =>
    if b ≠ 0 then .trap (illegal 2)
    else .done (s.setPort s.cur n (some (newPort s.me n kind ⟨0, 0, 0⟩ (a.extractLsb' 0 7) (a.extractLsb' 8 4))))

/-- The kind of a KIND field. -/
def portKind (k : BitVec 2) : PortKind :=
  match k.toNat with
  | 0 => .yin
  | 1 => .yout
  | 2 => .rin
  | _ => .rout

/-- The checks of a binding that look at one operand each, in their order (R201 to R203). -/
def State.bindChecks (s : State) (o : BindO) : List (List Src × Option Trap) :=
  let a := s.me.gv o.a
  let b := s.me.gv o.b
  let yard : Bool := o.kind.toNat < 2
  [([.g o.a o.ta], if yard then ringBreach a else s.rampBreach a),
   ([.g o.b o.tb], if yard then ctlBreach b else if b ≠ 0 then some (illegal 2) else none)]

/-- BIND (R201). -/
def execBind (o : BindO) (s : State) : Out :=
  unit (len2 o.q) o.q (fun s =>
    let n := o.n.toNat
    let k := s.me
    if k.vecNames (12 + n) then .wait
    else if (k.portOf (12 + n)).isSome then .trap (illegal 3)
    else k.needPast [.g o.a o.ta, .g o.b o.tb] (s.bindChecks o)
      (if (k.vreg (BitVec.ofNat 4 (12 + n))).fill = .pending then .wait
       else
         let kind := portKind o.kind
         if o.kind.toNat < 2 then s.bindYard n kind (k.gv o.a) (k.gv o.b)
         else s.bindRamp n kind (k.gv o.a) (k.gv o.b))) s

/-! ### Unbind (R204) -/

/-- Release a port: its register holds the last element that passed, full (R135). -/
def State.dropPort (s : State) (c : CoreId) (n : Nat) (p : Port) : State :=
  let s := s.setPort c n none
  let s := s.modCore c fun k => k.mapRegs fun r =>
    { r with v := Tab.put (Reg.zero 4096) r.v (12 + n) ⟨p.last, .full, p.lastTaint⟩ }
  let clear (bit : Nat) : State :=
    let flags := s.portCount c.cluster (p.ctl + 16)
    if flags.testBit bit then
      s.putFlags c.cluster p.ctl (flags - 2 ^ bit)
    else s
  match p.kind with
  | .yout => clear 0
  | .yin => clear 1
  | _ => s

/-- UNBIND (R204). -/
def execUnbind (o : UnbindO) (s : State) : Out :=
  unit (len2 o.q) o.q (fun s =>
    let n := o.n.toNat
    let k := s.me
    if (k.greg o.d).fill = .pending || k.vecNames (12 + n) then .wait
    else match k.portOf (12 + n) with
    | none => s.toG o.d 0 false
    | some p =>
      let out := p.kind == .yout || p.kind == .rout
      if out && !p.buf.isEmpty then .wait
      else
        let left := if p.kind = .rin then p.buf.length else 0
        (s.dropPort s.cur n p).toG o.d (BitVec.ofNat 64 left) (p.kind == .rin)) s

/-! ### Elements of yard rings (R202) -/

/-- An output port of core c writes its next element and then counts it, if it has one and the ring has room. -/
def State.putElement (s : State) (c : CoreId) (n : Nat) : State :=
  match (s.core c).portOf (12 + n) with
  | none => s
  | some p =>
    let k := c.cluster
    let wc := s.portCount k p.ctl
    let rc := s.portCount k (p.ctl + 8)
    match p.kind, p.buf with
    | .yout, x :: rest =>
      if wc < rc + 2 ^ p.log2n then
        let (counts, s) := s.portRead c p.ctl 16
        let s := s.portWrite c (p.base + 512 * (wc % 2 ^ p.log2n)) (vbytes x.1 x.2)
        let s := s.portWrite c p.ctl (bytesOf 8 (wc + 1) (anyTaint (counts.take 8)))
        s.setPort c n (some { p with buf := rest })
      else s
    | _, _ => s

/-- YOUT_ELEMENT_WRITE (R202). -/
def execYoutElementWrite (c : CoreId) (port : BitVec 2) (s : State) : Out := .next (s.putElement c port.toNat)

/-- The ports that a core has bound. -/
def Core.boundPorts (k : Core) : List Nat := (List.range 4).filter fun n => (k.portOf (12 + n)).isSome

/-- A core's bindings are released at the end of its launch as if by unbind: buffered elements that their ring has room
for are written, writer and reader flags cleared (R201, R204; log entry 21). -/
def State.releasePorts (s : State) (c : CoreId) : State :=
  (s.core c).boundPorts.foldl (fun s n =>
    let s := (s.putElement c n).putElement c n
    match (s.core c).portOf (12 + n) with
    | some p => s.dropPort c n p
    | none => s) s

/-- YIN_READ_AHEAD (R202): an input port reads ahead the next element; an uncorrectable word of it traps
YARD_UNCORRECTABLE in the port's core (R233, log entry 13). The counts and the element are read as the core's accesses, so
that a plain write of another agent in the superstep taints the element (R353, R354; log entry 21). -/
def execYinReadAhead (c : CoreId) (port : BitVec 2) (s : State) : Out :=
  let n := port.toNat
  match (s.core c).portOf (12 + n) with
  | none => .next s
  | some p =>
    let k := c.cluster
    let wc := s.portCount k p.ctl
    let i := s.portCount k (p.ctl + 8) + p.buf.length
    if p.kind = .yin && p.buf.length < 2 && i < wc then
      let a := p.base + 512 * (i % 2 ^ p.log2n)
      match s.bad (yardBase k + a) 512 with
      | some x => .next (s.trapLater c (s.core c).pc (yardBad k x))
      | none =>
        let (counts, s) := s.portRead c p.ctl 16
        let (bs, s) := s.portRead c a 512
        .next (s.setPort c n (some { p with
          buf := p.buf ++ [(BitVec.ofNat 4096 (valOf bs), anyTaint bs || anyTaint counts)] }))
    else .next s

end Sys2Proof.Machine
end

