-- ==== Sys2Proof/Machine/Supervisor.lean ====
section
/-! DEFINITION. The die supervisor (R33, R36, R38, R150, R366, R390) and the end of a core's part in a launch
(R22): the events SUPERVISOR_KILL, SUPERVISOR_RETRY, SUPERVISOR_RESUME, SUPERVISOR_LEAVE, WATCHDOG, CORE_PART_END
and CHECK_WINDOW_EXPIRY. -/

namespace Sys2Proof.Machine

/-! ### Which action (R36, R38, R366) -/

/-- The default action of a cause, in the codes of R366: 1 kill, 2 rollback, 5 leave, 6 third run (R36). -/
def Cause.default : Cause → Nat
  | .pipeCheck | .localUncorrectable | .yardUncorrectable | .hbmUncorrectable => 2
  | .aborted => 5
  | .dualMismatch => 6
  | _ => 1

/-- The action that POLICY holds for a cause: bits [3c − 1 : 3c − 3] (R366). -/
def LaunchRec.policyOf (r : LaunchRec) (c : Cause) : Nat := r.policy.toNat / 2 ^ (3 * (c.code.toNat - 1)) % 8

/-- Whether R38 permits an action code for a cause. -/
def Cause.permits (c : Cause) (a : Nat) : Bool :=
  match a with
  | 0 | 1 => true
  | 2 => c.rank1
  | 3 => c == .xlateError || c == .watchdog || c.rank1
  | 4 => c == .software || c == .watchdog
  | 5 => c == .aborted
  | 6 => c == .dualMismatch
  | _ => false

/-- The supervisor's action for a parked core: a second PIPE_CHECK within the window is killed whatever POLICY
says, and so is a second WATCHDOG in a task that was resumed (R38, R150, R366). -/
def State.actionOf (s : State) (c : CoreId) (p : Park) : Nat :=
  let a := (s.launchOf c).rcd.policyOf p.cause
  let a := if a = 0 then p.cause.default else a
  if p.second then 1 else if p.cause = .watchdog && a = 4 && (s.core c).wdogResumed then 1 else a

/-- A parked core of a running launch whose action is a. -/
def State.parkedFor (s : State) (c : CoreId) (a : Nat) : Option Park :=
  match (s.core c).park with
  | some p => if (s.launchOf c).state = .running && s.actionOf c p = a then some p else none
  | none => none

/-- A core's fault message leaves its die supervisor's mailbox. -/
def State.dropMail (s : State) (c : CoreId) : State :=
  let keep : Mail → Bool := fun m => match m with
    | .trap d _ _ => d != c
    | _ => true
  { s with supMail := Tab.put [] s.supMail c.die.toNat ((Tab.get [] s.supMail c.die.toNat).filter keep) }

/-- The 32 bytes of a fault message (R34): id is the launch identifier. -/
def faultMessage (c : CoreId) (p : Park) (id : Word) : List Byte :=
  bytesOfNat 4 (coreNum c + p.cause.code.toNat * 2 ^ 21) ++ bytesOfNat 4 p.pc.toNat ++ bytesOfNat 4 p.w0.toNat
    ++ bytesOfNat 4 p.w1.toNat ++ bytesOfNat 8 p.value.toNat ++ bytesOfNat 4 id.toNat ++ bytesOfNat 4 p.seqn.toNat

/-! ### Units (R388, R390) -/

/-- A UNIT word: ID in [20:0], KIND in [23:21]. -/
def unitWord (kind id : Nat) : BitVec 24 := BitVec.ofNat 24 (kind * 2 ^ 21 + id % 2 ^ 21)
/-- The UNIT word of a core. -/
def coreUnit (c : CoreId) : BitVec 24 := unitWord 1 (coreNum c)

/-- The unit that a second PIPE_CHECK quarantines (R150). -/
def secondUnit (c : CoreId) (value : DWord) : BitVec 24 :=
  if value.toNat / 256 < 0x10 || c.isRamp then coreUnit c else unitWord 2 c.unit.num

/-- The scheduler of a die writes a journal entry before it acts; every 4,096 entries it writes a checkpoint, from
which a takeover replays (R383; log entry 66). -/
def State.journal (s : State) (d : BitVec 4) (e : JournalEntry) : State :=
  s.modDie d fun x =>
    if x.journal.length < 4095 then { x with journal := x.journal ++ [e] }
    else { x with journal := [], checkpoints := x.checkpoints + 1 }

/-- Quarantine a unit of a die, with its journal entry (R383, R390). -/
def State.quarantineUnit (s : State) (d : BitVec 4) (u : BitVec 24) : State :=
  if s.quarantine.contains u then s else { s.journal d (.quarantine u) with quarantine := s.quarantine ++ [u] }

/-! ### The end of a launch (R36, R389) -/

/-- Whether every gang of a launch has ended, or after an abort every gang that was placed (R229, R231); what a third
run was placed on is held until then (R387, R390). -/
def Launch.allDone (x : Launch) : Bool :=
  !x.gangs.isEmpty && x.gangs.all fun g => g.done || (x.abort && !g.placed) || g.thirdOf.isSome

/-- The traps of a launch in a die's mailbox whose cores are parked for a kill, earliest first (R389). -/
def State.killTraps (s : State) (l : Nat) (d : BitVec 4) : List (CoreId × Park) :=
  (Tab.get [] s.supMail d.toNat).filterMap fun m => match m with
    | .trap e q n => if n = l && (s.core e).park = some q && s.actionOf e q = 1 then some (e, q) else none
    | _ => none

/-- The second PIPE_CHECKs of a launch that await their kill in a die's mailbox (R38, R150). -/
def State.secondChecks (s : State) (l : Nat) (d : BitVec 4) : List (CoreId × Park) :=
  (s.killTraps l d).filter fun x => x.2.second

/-- What a die's share comes to when a launch ends with a status: the trap that decides it there, by' on its own die or
else the earliest kill in the die's mailbox, and the units named, a second PIPE_CHECK's first (R369, R389). -/
def State.shareOf (s : State) (l : Nat) (d : BitVec 4) (st : BitVec 8) (by' : Option (CoreId × Park)) : Share :=
  let mine : Option (CoreId × Park) := by'.filter fun x => x.1.die == d
  let own := mine.or (if st = 1 then (s.killTraps l d).head? else none)
  let second := (own.filter fun x => x.2.second).or (s.secondChecks l d).head?
  { status := st, deciding := own.or by'
    units := if st = 1 then (second.map fun x => [(secondUnit x.1 x.2.value).toNat]).getD (s.launch l).units
             else (s.launch l).units }

/-- A launch ends with a status; the first end stands. Every die that has not finished its share finishes it so, and
the launch's status is the first that is not DONE in die order (R369, R389). A second PIPE_CHECK of the launch
quarantines its unit, whichever trap decides the record (R38, R150, R366). A stopped launch holds nothing that it could
leave. -/
def State.endLaunch (s : State) (l : Nat) (st : BitVec 8) (by' : Option (CoreId × Park)) : State :=
  let x := s.launch l
  let ds := x.rcd.dieList
  let share (d : BitVec 4) : Share :=
    let y := s.shareOf l d st by'
    if st = 2 then y else (Tab.get none x.shares d.toNat).getD y
  let shares := ds.map fun d => (d, share d)
  let first := ((shares.map Prod.snd).find? fun y => y.status != 0).getD (s.shareOf l x.home st by')
  let seconds := ds.flatMap (s.secondChecks l)
  let gone : Bool := x.state == .stopped
  match x.state with
  | .ended _ => s
  | _ =>
    let s := seconds.foldl (fun s y => s.quarantineUnit y.1.die (secondUnit y.1 y.2.value)) s
    s.modLaunch l fun x =>
      { x with
        state := .ended first.status, deciding := first.deciding, units := first.units
        endsAt := if x.allDone && x.gangs.any (·.done) then x.endsAt else s.clock
        shares := shares.map fun y => (y.1.toNat, some y.2)
        gangs := if gone then x.gangs.map fun g => { g with done := true, freed := true } else x.gangs }

/-- SUPERVISOR_KILL (R38): the launch ends KILLED, by the earliest trap in the die's mailbox that kills (R389). -/
def execSupervisorKill (c : CoreId) (s : State) : Out :=
  match s.parkedFor c 1 with
  | none => .next s
  | some p =>
    let l := s.launchIx c
    .next (s.endLaunch l 1 (some (((s.killTraps l c.die).head?).getD (c, p))))

/-! ### Retry, resume, leave (R35, R38) -/

/-- A member that took DUAL_MISMATCH executes its sstep again: it arrives anew, and once neither member of its pair is
parked for the disagreement the copies may be compared again (R38, R387). -/
def State.remeet (s : State) (c : CoreId) : State :=
  let l := s.launchIx c
  let x := s.launch l
  let g := (s.core c).gang
  let p := g % max 1 x.rcd.gangs
  let parked (d : CoreId) : Bool := d != c && match (s.core d).park with
    | some q => q.cause == .dualMismatch
    | none => false
  let open' (r : Nat) : Bool := [p, p + x.rcd.gangs].any fun i => match (x.gang i).members[r]? with
    | some d => parked d
    | none => false
  let mine (r : Nat) : Bool := (x.gang g).members[r]? == some c
  s.modLaunch l fun x =>
    (x.modGang g fun y => { y with arrived := y.arrived.filter fun d => d != c }).modGang p fun y =>
      { y with disagree := y.disagree.filter fun r => !mine r || open' r }

/-- A core leaves its parked state: TRAPINFO.ATTEMPT counts, saturating, and its task runs again (R35, R38). -/
def State.unpark (s : State) (c : CoreId) : State :=
  let s := s.dropMail c
  let mismatch : Bool := match (s.core c).park with
    | some p => p.cause == .dualMismatch
    | none => false
  let waits := !mismatch || (s.gangOf c).arrived.contains c
  let s := if mismatch then s.remeet c else s
  let s := if (s.core c).src = 1 && !c.isRamp then
      s.modCluster c.cluster fun x =>
        { x with ring := { x.ring with startedTasks := c :: x.ring.startedTasks } }
    else s
  s.modCore c fun k =>
    let dog : Bool := match k.park with
      | some p => p.cause == .watchdog
      | none => false
    { k with park := none, running := waits,
             tiAttempt := if k.tiAttempt = 255 then 255 else k.tiAttempt + 1,
             taskStart := if dog then s.clock else k.taskStart }

/-- One replayed entry of a ramp core's side log: performed as the original would have been; it leaves, stays with
a new fault, or is refused by a bad line and traps the core (R336). -/
def State.replayEntry (s : State) (c : CoreId) (e : SideEntry) : State :=
  let l := s.launchIx c
  let drop (s : State) : State := s.modCore c fun k =>
    { k with sideLog := k.sideLog.filter fun x => x.token != e.token }
  s.forTask c e.ring fun s =>
  match s.xlate l e.va (if e.atomic.isSome then 2 else 1) with
  | .error f =>
    let (s, tok) := s.newFault (.core c) l e.va f (if e.atomic.isSome then 2 else 1) false
    s.modCore c fun k => { k with sideLog := k.sideLog.map fun x =>
      if x.token = e.token then { x with token := tok, refused := none } else x }
  | .ok pa =>
    let s := drop s
    match e.atomic with
    | some o =>
      if e.bytes.isEmpty then
        let (s, r) := (s.noteAtomic c o).atomicAt c o pa
        if r.status = 0 then s else s.trapLater c e.pc (hbmBad e.va)
      else match s.hbmPutOwn c (some (o.op, o.wide)) pa e.va e.bytes with
        | some s => s
        | none => s.trapLater c e.pc (hbmBad e.va)
    | none =>
      match s.hbmPutOwn c none pa e.va e.bytes with
      | some s => s
      | none => s.trapLater c e.pc (hbmBad e.va)

/-- Replay the refused entries of a core's side log, in log order (R336). -/
def State.replayRefused (s : State) (c : CoreId) : State :=
  ((s.core c).sideLog.filter fun e => e.refused.isSome).foldl (fun s e => s.replayEntry c e) s

/-- SUPERVISOR_RETRY (R38): the trapping unit is executed again; a trap of a refused side-log entry replays the
entries and resumes at the parked boundary (R336). -/
def execSupervisorRetry (c : CoreId) (s : State) : Out :=
  match s.parkedFor c 3 with
  | none => .next s
  | some _ => .next ((s.unpark c).replayRefused c)

/-- The sequencing part of the unit at a core's pc, with the unit's length (R39). -/
def State.seqAt (s : State) (c : CoreId) : Option (Nat × Seq) :=
  let a := (s.core c).pc.toNat
  let w := s.codeWord c a
  let n := s.unitLen c a
  (Seq.ofCode (w.extractLsb' 30 2) (s.codeWord c (a + 4 * (n - 1)))).map fun q => (n, q)

/-- SUPERVISOR_RESUME (R38, R119): the sequencing part of the trapped unit is evaluated as if it had completed with
no result, and the task goes on from there. -/
def execSupervisorResume (c : CoreId) (s : State) : Out :=
  match s.parkedFor c 4 with
  | none => .next s
  | some p =>
    let s := s.unpark c
    let s := s.modCore c fun k =>
      { k with phase := .idle, wdogResumed := k.wdogResumed || p.cause == .watchdog }
    match s.seqAt c with
    | none => .next s
    | some (n, q) =>
      match (s.core c).unitTrap n q with
      | some t =>
        let w := s.messageWords c (s.core c).pc.toNat
        .next (s.trapAt c (s.core c).pc w.1 w.2 t)
      | none =>
        let cur := s.cur
        match ({ s with cur := c } : State).sequence (s.core c).pc.toNat n q with
        | (s, none) => .next { s with cur := cur }
        | (s, some t) =>
          let w := s.messageWords c (s.core c).pc.toNat
          .next { s.trapAt c (s.core c).pc w.1 w.2 t with cur := cur }

/-! ### The end of a core's part (R22, R36) -/

/-- Give up the pins of a cluster's copy commands (R329). -/
def State.dropPins (s : State) (k : ClusterId) : State :=
  (s.cluster k).copies.foldl (fun s c => s.dropPin k c.seq) s

/-- A gang's resources are free again: its ports are released, its cores and clusters lose everything but their check
windows, and its leases end (R22, R201, R372). -/
def State.releaseGang (s : State) (l g : Nat) : State :=
  let x := (s.launch l).gang g
  let s := (x.allCores.filter fun c => !(s.core c).boundPorts.isEmpty).foldl State.releasePorts s
  let s := x.clusterIds.foldl State.dropPins s
  let s := s.eachCore x.allCores fun _ k => { Core.blank with checkAt := k.checkAt }
  let s := s.eachCluster x.clusterIds fun _ _ => Cluster.blank
  let ours (m : Nat) (y : Lease) : Bool :=
    y.launch == l && x.clusterIds.any fun k => k.die.toNat == m / 32 && k.cl == y.cluster
  let s := s.meshes.foldl (fun s m =>
    (m.2.leases.foldl (fun s w => match w.2 with
      | some y => if ours m.1 y then s.freeWindow ⟨BitVec.ofNat 4 (m.1 / 32), BitVec.ofNat 5 m.1⟩ w.1 else s
      | none => s) s)) s
  s.modGang l g fun y => { y with done := true, freed := true, held := [] }

/-- Whether a cluster's carriageway lets its launch end: IDLE or DONE, or the abort line raised, so that no later
meeting can create a task (R22, R231; log entry 59). -/
def State.ringQuiet (s : State) (k : ClusterId) : Bool :=
  let x := s.cluster k
  x.abortLine || x.ring.state == .idle || x.ring.state == .done

/-- Whether every member of a placed gang has ended its part and none of its carriageways is LOADING or RUNNING
(R22). -/
def State.gangEnded (s : State) (g : Gang) : Bool :=
  g.placed && !g.done && g.members.all s.ended && g.clusterIds.all s.ringQuiet

/-- A gang is over: it leaves its resources, but for a takeover of its die's scheduler, which holds them; a die whose
gangs are all over has finished its share of the launch (R369, R384). -/
def State.finishGang (s : State) (l g : Nat) : State :=
  let d := (s.launch l).rcd.dieOf g
  let s := if (s.die d).takeover then s.modGang l g fun y => { y with done := true, held := [] } else s.releaseGang l g
  s.modLaunch l fun x =>
    let mine := (List.range x.gangs.length).filter fun i => x.rcd.dieOf i == d && (x.gang i).thirdOf.isNone
    if mine.all fun i => (x.gang i).done then
      { x with shares := Tab.put none x.shares d.toNat (some ⟨0, none, []⟩), endsAt := s.clock }
    else x

/-- When a gang's last member has ended: the gang leaves its resources; a redundant gang and its partner compare
first (R386). -/
def State.gangEnd (s : State) (l g : Nat) : State :=
  let x := s.launch l
  if !x.rcd.red then (if s.gangEnded (x.gang g) then s.finishGang l g else s)
  else
    let a := g % max 1 x.rcd.gangs
    let b := a + x.rcd.gangs
    if s.gangEnded (x.gang a) && s.gangEnded (x.gang b) && (x.gang a).disagree.isEmpty then
      match s.settle l a with
      | .ok s => if s.settled l a then (s.finishGang l a).finishGang l b else s
      | .error s => s
    else s

/-- A core's part in its launch has ended: it leaves its convoys, and an end without trig counts as a trigger
(R22, R227, R255). -/
def State.partEnd (s : State) (c : CoreId) : State :=
  let l := s.launchIx c
  let g := (s.core c).gang
  ((s.leaveConvoys c).noteTriggers l).gangEnd l g

/-- SUPERVISOR_LEAVE (R36): the core's task has ended; its station queue and routine list are discarded, and it
has left the launch. -/
def execSupervisorLeave (c : CoreId) (s : State) : Out :=
  match s.parkedFor c 5 with
  | none => .next s
  | some _ =>
    let s := (s.dropMail c).modCore c fun k =>
      { k with park := none, running := false, left := true, phase := .idle, stationQ := [], routines := []
               inbox := [], held := [] }
    .next (s.partEnd c)

/-- Whether a core is a member of its gang. -/
def State.isMember (s : State) (c : CoreId) : Bool := (s.gangOf c).members.contains c

/-- Whether a core reports the end of its part now (R22). It may report again once its carriageway has come to rest
(log entry 59). -/
def State.partDone (s : State) (c : CoreId) : Bool :=
  let k := s.core c
  (s.launchOf c).state == .running && s.isMember c && !k.left && !k.running && k.park.isNone
    && !k.bodyPending && k.routines.length ≤ k.rliNext && k.stationQ.isEmpty
    && (c.isRamp || s.ringQuiet c.cluster) && k.pendingTrap.isNone && k.lateTrap.isNone
    && s.producersDone c && k.performed 7

/-- CORE_PART_END (R22): the inbox and its held messages are discarded (R132). -/
def execCorePartEnd (c : CoreId) (s : State) : Out :=
  if s.partDone c then
    .next ((s.modCore c fun k => { k with partEnded := true, inbox := [], held := [] }).partEnd c)
  else .next s

/-! ### Watchdog and check window (R36, R150) -/

/-- Cycles that a core's task has run, stalls included. -/
def State.taskCycles (s : State) (c : CoreId) : Nat := s.clock - (s.core c).taskStart

/-- WATCHDOG (R36): the task's cycle count has reached the launch's limit, and no trap of higher rank is due at the
same boundary (R37). -/
def execWatchdog (c : CoreId) (s : State) : Out :=
  let k := s.core c
  let limit := (s.launchOf c).rcd.wdog
  if k.running && k.park.isNone && k.pendingTrap.isNone && k.lateTrap.isNone
      && (s.launchOf c).state = .running && limit ≠ 0 && limit ≤ s.taskCycles c then
    let w := s.messageWords c k.pc.toNat
    .next (s.trapAt c k.pc w.1 w.2 ⟨.watchdog, BitVec.ofNat 64 (s.taskCycles c)⟩)
  else .next s

/-- CHECK_WINDOW_EXPIRY (R150): the window of a PIPE_CHECK runs out after CHECKWIN cycles. -/
def execCheckWindowExpiry (u : CheckUnit) (s : State) : Out :=
  let past (t : Option Nat) : Bool := match t with
    | some t => decide (t + s.conf.checkWin ≤ s.clock)
    | none => false
  match u with
  | .core c => .next (if past (s.core c).checkAt then s.modCore c fun k => { k with checkAt := none } else s)
  | .svu v => .next (if past (s.svu v).checkAt then s.modSvu v fun x => { x with checkAt := none } else s)

end Sys2Proof.Machine
end

