-- ==== Sys2Proof/Machine/Gmem.lean ====
section
/-! DEFINITION. The global-memory instructions of a ramp core (R314 to R320) and the event REDUCTION_PERFORM
(R317). -/

namespace Sys2Proof.Machine

/-! ### Addresses (R315, R316) -/

/-- The trap of a check that may fail. -/
def trapOf {α : Type} : Except Trap α → Option Trap
  | .error t => some t
  | .ok _ => none

/-- The address of an HBM address form of size bytes: FORMAT, then the range, then the alignment (R315). -/
def gmemAddr (p : DWord) (off : BitVec 24) (size align : Nat) : Except Trap Nat :=
  if fmtOf p = 63 then .error (formatTrap p)
  else
    let a : Int := (vaOf p : Int) + off.toInt
    if a < 0 || ((2 ^ 56 : Nat) : Int) < a + size then .error (illegal 1)
    else if a.toNat % align ≠ 0 then .error (alignTrap a.toNat)
    else .ok a.toNat

/-- The cluster and address of a yard form (R315). -/
def State.gmemYard (s : State) (p : DWord) (off : BitVec 24) : Except Trap (ClusterId × Nat) :=
  let k : ClusterId := ⟨s.cur.die, p.extractLsb' 19 10⟩
  let a : Int := (p.toNat % 2 ^ 19 : Nat) + off.toInt
  if p.toNat / 2 ^ 29 ≠ 0 || !s.occupies k || a < 0 || (0x80000 : Int) < a + 512 then .error (illegal 1)
  else if a.toNat % 64 ≠ 0 then .error (alignTrap a.toNat)
  else .ok (k, a.toNat)

/-- How a typed access of gldt or gstt goes (R316): a chunk, or plain elements, at an address. -/
structure TypedAt where
  chunk : Bool
  addr : Nat
  deriving DecidableEq, Repr

/-- Decode a tag against a type (R78, R79): whether it names chunks, and the alignment of its VA. -/
def tagOf (p : DWord) (t : ETy) : Except Trap (Bool × Nat) :=
  let f := fmtOf p
  let al := if t.width = 4 then 1 else t.width / 8
  let ok : Bool :=
    if f = 0 then blkOf p = 0
    else if f ≤ 16 then blkOf p = 0 && ETy.ofCode (BitVec.ofNat 4 (f - 1)) == t
    else decide (f ≤ 31) && blkOf p != 3 && ETy.ofCode (BitVec.ofNat 4 (f - 17)) == t
  if !ok then .error (formatTrap p)
  else if 17 ≤ f then .ok (true, 64)
  else .ok (false, if f = 0 then 1 else al)

/-- The address of a typed access of element or chunk i into a register pair at d (R316); ILLEGAL_OPERAND ranks
above ALIGNMENT (R37). -/
def typedAddr (p : DWord) (t : ETy) (i d : Nat) : Except Trap TypedAt :=
  match tagOf p t with
  | .error e => .error e
  | .ok (chunk, al) =>
    let va := vaOf p
    let bits := if chunk then 8 * 576 * i else i * t.width
    let a := va + bits / 8
    if 2 ^ 56 < a + (if chunk then 576 else 512) then .error (illegal 2)
    else if chunk && d % 2 = 1 then .error (illegal 3)
    else if va % al ≠ 0 then .error (alignTrap va)
    else if bits % 8 ≠ 0 || a % 64 ≠ 0 then .error (alignTrap a)
    else .ok ⟨chunk, a⟩

/-! ### Loads and stores -/

/-- GLD (R315): through the L1; a translation fault holds the unit (R335). -/
def execGld (o : GldO) (s : State) : Out :=
  unit (len2 o.q) o.q (fun s => s.me.need [.g o.a o.ta]
    (match gmemAddr (s.me.gv o.a) o.off 8 8 with
     | .error t => .trap t
     | .ok a =>
       if (s.me.greg o.d).fill = .pending || s.me.hbmWaits a 8 then .wait
       else match s.rampLoad a 8 with
         | .res r => r
         | .ok bs s => s.toG o.d (BitVec.ofNat 64 (valOf bs)) (anyTaint bs || s.me.gt o.a))) s

/-- GST (R315): a store-class access (R335, R336). -/
def execGst (o : GstO) (s : State) : Out :=
  unit (len2 o.q) o.q (fun s => s.me.needPast [.g o.a o.ta, .g o.d o.td]
    [([.g o.a o.ta], trapOf (gmemAddr (s.me.gv o.a) o.off 8 8))]
    (let k := s.me
     match gmemAddr (k.gv o.a) o.off 8 8 with
     | .error t => .trap t
     | .ok a =>
       if k.hbmWaits a 8 || s.storeWaits s.cur a 8 then .wait
       else .done (s.rampStore s.cur k.pc (lineParts a 8)
         (bytesOf 8 (k.gv o.d).toNat (k.gt o.d || k.ct))))) s

/-- The queue entry of a vector access of GMEM. -/
def gmemOp (kind : VKind) (d : BitVec 4) (t : ETy) (c addr : Nat) : VOp :=
  ⟨kind, d.toNat, d.toNat, 0, t, t, 0, .rne, c, addr⟩

/-- The push of gldv or gstv, in either space (R315). -/
def State.gvPush (s : State) (o : GvO) (kind : VKind) : Res :=
  let a := Src.g o.a o.ta
  s.me.need [a]
    (if o.space = 0 then
       match gmemAddr (s.me.gv o.a) o.off 512 64 with
       | .error t => .trap t
       | .ok x => s.pushEntry (gmemOp kind o.d .i8 0 x) (some a) none none
     else match s.gmemYard (s.me.gv o.a) o.off with
       | .error t => .trap t
       | .ok (k, x) => s.pushEntry (gmemOp kind o.d .i8 (1 + k.cl.toNat) x) (some a) none none)

/-- GLDV (R315). -/
def execGldv (o : GvO) (s : State) : Out := unit (len2 o.q) o.q (fun s => s.gvPush o .gldv) s
/-- GSTV (R315). -/
def execGstv (o : GvO) (s : State) : Out := unit (len2 o.q) o.q (fun s => s.gvPush o .gstv) s

/-- The check of a register pair that looks at the pointer alone: a tag that names chunks, and an odd VD (R316). -/
def oddPair (p : DWord) (t : ETy) (d : Nat) : Option Trap :=
  match tagOf p t with
  | .ok (true, _) => if d % 2 = 1 then some (illegal 3) else none
  | _ => none

/-- The push of gldt or gstt (R316). -/
def State.gtPush (s : State) (o : GtO) (kind : VKind) : Res :=
  let a := Src.g o.a o.ta
  let b := Src.g o.b o.tb
  s.me.needPast [a, b] [([a], oddPair (s.me.gv o.a) o.t o.d.toNat)]
    (match typedAddr (s.me.gv o.a) o.t (s.me.gv o.b).toNat o.d.toNat with
     | .error t => .trap t
     | .ok x => s.pushEntry (gmemOp kind o.d o.t x.chunk.toNat x.addr) (some a) (some b) none)

/-- GLDT (R316). -/
def execGldt (o : GtO) (s : State) : Out := unit (len2 o.q) o.q (fun s => s.gtPush o .gldt) s
/-- GSTT (R316). -/
def execGstt (o : GtO) (s : State) : Out := unit (len2 o.q) o.q (fun s => s.gtPush o .gstt) s

/-! ### Reductions (R317) -/

/-- Reductions take numbers of their own, above those of the atomics (R181 numbers the atomics alone). -/
def Core.redNum (k : Core) : Nat :=
  k.atomics.foldl (fun n x => if n ≤ x.num then x.num + 1 else n) (2 ^ 32)

/-- GRED (R317): the reduction goes on its way to the line's home slice. -/
def execGred (o : GredO) (s : State) : Out :=
  unit (len2 o.q) o.q (fun s =>
    if o.op.toNat < 2 || o.op = 11 || (o.op = 10 && o.sz = 1) then .trap (illegal 0)
    else
      let k := s.me
      let srcs := [Src.g o.a o.ta, .g o.b o.tb]
      k.need srcs
        (let wide := o.sz == 1
         let n := if wide then 8 else 4
         match atomicAddr (k.gv o.a) n with
         | some t => .trap t
         | none =>
           let va := vaOf (k.gv o.a)
           if k.vq.any (fun e => e.op.touchesHbm va n) || k.inflight.any (fun i => i.ent.op.touchesHbm va n)
           then .wait
           else
             let op : AtomicOp :=
               { num := k.redNum, reduction := true, pc := k.pc, d := 0, he := 0, inb := false, va := va,
                 op := o.op, wide := wide, b := k.gv o.b, c := 0, taintB := k.gt o.b, taintC := false,
                 ct := k.ct, ord := 0, token := none, status := none, pa := none, ring := s.ringLoad s.cur }
             match s.coreXlate s.cur (s.launchIx s.cur) va 2 with
             | .ok pa => .done ((s.tlbFill s.cur (s.launchIx s.cur) va 2).setMe { k with atomics := k.atomics ++ [{ op with pa := some pa }] })
             | .error e =>
               if 64 ≤ k.sideLog.length || k.atomicWaits op then .wait
               else .done (s.sidePush s.cur k.pc va [] (some op) e))) s

/-- REDUCTION_PERFORM (R317): core c's oldest reduction is performed at its home slice, or retires into the side
log (R336); one refused by a poisoned line traps at the core's next unit boundary (R445). -/
def execReductionPerform (c : CoreId) (s : State) : Out :=
  let k := s.core c
  match k.atomics.find? fun o => o.reduction with
  | none => .next s
  | some o =>
    let drop (s : State) : State := s.modCore c fun k =>
      { k with atomics := k.atomics.filter fun x => x.num != o.num }
    if k.atomicWaits o || !s.atomicTurn c o then .next s
    else match (o.pa.map Except.ok).getD (s.xlate (s.launchIx c) o.va 2) with
      | .error e =>
        if 64 ≤ k.sideLog.length then .next s
        else .next ((drop s).sidePush c o.pc o.va [] (some o) e)
      | .ok pa =>
        let (s, r) := (s.noteAtomic c o).atomicAt c o pa
        let s := drop s
        .next (if r.status = 0 then s else s.trapLater c o.pc (hbmBad o.va))

/-! ### Channels (R318) -/

/-- GSEND (R318): it waits for a rin port with credit for two elements (R203), sampling the abort line. -/
def execGsend (o : GsendO) (s : State) : Out :=
  unit (len2 o.q) o.q (fun s =>
    let k := s.me
    match s.cur with
    | .ord _ _ _ => .wait
    | .ramp d i =>
      let port := s.channelPort d i o.chan
      match port with
      | some (_, _, p) =>
        if p.kind = .rout then .trap (illegal 0)
        else if s.aborted s.cur then .trap (abortTrap 3)
        else if k.vecNames o.a.toNat || (k.vreg o.a).fill != .full || 2 ≤ p.buf.length then .wait
        else
          let r := k.vreg o.a
          match port with
          | some (c, n, p) => .done (s.setPort c n (some { p with buf := p.buf ++ [(r.val, r.taint)] }))
          | none => .wait
      | none => if s.aborted s.cur then .trap (abortTrap 3) else .wait) s

/-- GRECV (R318): it waits for an element of a rout port, sampling the abort line; the destination is filled
when the element arrives (R17). -/
def execGrecv (o : GrecvO) (s : State) : Out :=
  unit (len2 o.q) o.q (fun s =>
    let k := s.me
    match s.cur with
    | .ord _ _ _ => .wait
    | .ramp d i =>
      match s.channelPort d i o.chan with
      | none => if s.aborted s.cur then .trap (abortTrap 3) else .wait
      | some (c, n, p) =>
        if p.kind = .rin then .trap (illegal 0)
        else if s.aborted s.cur then .trap (abortTrap 3)
        else if k.vecNames o.d.toNat || (k.vreg o.d).fill = .pending then .wait
        else match p.buf with
          | [] => .wait
          | x :: rest =>
            .done ((s.setPort c n (some { p with buf := rest })).modMe fun k =>
              { k.setVreg o.d { k.vreg o.d with fill := .pending } with
                arrivals := k.arrivals ++ [.v o.d x.1 (x.2 || k.ct)] })) s

/-! ### Pass SRAM (R319) -/

/-- Fill the slots of n chunks from chunk k on. -/
def State.fillChunks (s : State) (m : MeshId) (bank : Bool) (slot : Nat) (bs : List Byte) : Nat → Nat → State
  | _, 0 => s
  | k, n + 1 =>
    (s.fillSlots m bank (slot + 8 * k) ((bs.drop (576 * k)).take 576)).fillChunks m bank slot bs (k + 1) n

/-- GPFILL (R319): its checks in their order. -/
def execGpfill (o : GpfO) (s : State) : Out :=
  unit (len2 o.q) o.q (fun s =>
    let n := o.nch.toNat + 1
    let a := (s.me.gv o.a).toNat
    let w := s.me.gv o.b
    let slot := (w.extractLsb' 6 13).toNat
    let local' : Option Trap :=
      if a % 64 ≠ 0 then some (alignTrap a) else if 2 ^ 15 < a + 576 * n then some (illegal 1) else none
    let slots : Option Trap :=
      if slot % 8 ≠ 0 || 7680 < slot + 8 * n || w.toNat / 2 ^ 19 ≠ 0 then some (illegal 2) else none
    s.me.needPast [.g o.a o.ta, .g o.b o.tb] [([.g o.a o.ta], local'), ([.g o.b o.tb], slots)]
    (match local'.or slots with
     | some t => .trap t
     | none =>
     if s.me.vecTouchesLocal a (576 * n) then .wait
     else match s.readLocal s.cur a (576 * n) with
       | .error t => .trap t
       | .ok (bs, s) =>
         .done (s.fillChunks ⟨s.cur.die, w.extractLsb' 0 5⟩ (w.getLsbD 5) slot (bs.map Prod.fst) 0 n))) s

/-! ### ginj (R320) -/

/-- GINJ (R320): as rinjr, with its payload read from HBM. -/
def execGinj (o : RinjrO) (s : State) : Out :=
  unit (len2 o.q) o.q (fun s =>
    let c := s.me
    let k : ClusterId := ⟨s.cur.die, o.cluster⟩
    let p := c.gv o.a
    let hw := c.gv o.b
    let cw := c.gv o.d
    let r := (s.cluster k).ring
    let (a, b, d) := (Src.g o.a o.ta, Src.g o.b o.tb, Src.g o.d o.td)
    let first : Option Trap := (nullTrap p).or (if vaOf p % 64 ≠ 0 then some (alignTrap (vaOf p))
      else if 2 ^ 56 < vaOf p + 1024 then some (illegal 1) else none)
    c.needPast [a, b, d] (if s.occupies k then c.injectChecks first a b d else [([], some (illegal 0))])
    (if !s.occupies k then .trap (illegal 0)
     else match c.phase with
     | .tile t => s.inject k (famOf o.fam) o.station hw cw t
     | _ =>
         match first.or (injectTrap hw cw (c.gt o.b || c.ct) (c.gt o.d)) with
         | some t => .trap t
         | none =>
           if (r.state == .loading || r.state == .running) && r.inj = 65535 then .trap (illegal 0)
           else if c.hbmWaits (vaOf p) 1024 then .wait
           else match s.rampLoad (vaOf p) 1024 with
             | .res r => r
             | .ok bs s => s.inject k (famOf o.fam) o.station hw cw (payloadOf bs []))) s

end Sys2Proof.Machine
end

