-- ==== Sys2Proof/Machine/Tmap.lean ====
section
/-! DEFINITION. Tensor maps (R321 to R324): their records, the walk, tmld, tmst, tmwr. -/

namespace Sys2Proof.Machine

/-! ### Records (R322) -/

/-- n little-endian bytes of a record from byte a. -/
def mapField (bs : List Byte) (a n : Nat) : Nat := natOfBytes ((bs.drop a).take n)

/-- The fields of a record, unchecked. -/
def mapFields (bs : List Byte) : TensorMap :=
  { base := BitVec.ofNat 64 (mapField bs 0 8), rank := mapField bs 8 1, nea := mapField bs 9 1
    neb := mapField bs 10 1, nec := mapField bs 11 1, noa := mapField bs 12 1, nob := mapField bs 13 1
    noc := mapField bs 14 1, rowBytes := mapField bs 16 2
    ext := (List.range 4).map fun d => mapField bs (24 + 4 * d) 4
    pitch := (List.range 3).map fun d => svN 64 (mapField bs (40 + 8 * d) 8)
    coef := (List.range 24).map fun i => svN 8 (mapField bs (64 + i) 1)
    lead := (List.range 4).map fun d => mapField bs (88 + d) 1 }

/-- The element type that BASE names. -/
def TensorMap.ty (m : TensorMap) : ETy := ETy.ofCode (BitVec.ofNat 4 (fmtOf m.base - 1))
/-- Bytes of an element. -/
def TensorMap.esize (m : TensorMap) : Nat := m.ty.width / 8
/-- Elements of a row. -/
def TensorMap.rowLen (m : TensorMap) : Nat := m.nea * m.neb * m.nec
/-- Rows. -/
def TensorMap.rows (m : TensorMap) : Nat := m.noa * m.nob * m.noc

/-- The limits of R322 on a record's fields. -/
def TensorMap.ok (m : TensorMap) : Bool :=
  let f := fmtOf m.base
  let counts := [m.nea, m.neb, m.nec, m.noa, m.nob, m.noc].all fun n => n != 0
  let dims := (List.range 4).all fun d =>
    let used := decide (d < m.rank)
    let e := m.ext.getD d 0
    (if used then e != 0 else e == 1) && (used || m.lead.getD d 0 == 0)
      && (used || (List.range 6).all fun n => m.coef.getD (6 * d + n) 0 == 0)
  blkOf m.base == 0 && ((3 ≤ f && f ≤ 8) || (10 ≤ f && f ≤ 15)) && m.rank ≤ 4 && counts && dims
    && m.rowBytes % m.esize == 0 && m.rowLen * m.esize ≤ m.rowBytes
    && m.pitch.all fun p => p % (m.esize : Int) == 0

/-- Decode a record of 128 bytes: none where it breaks R322. -/
def tensorMap (bs : List Byte) : Option TensorMap :=
  let m := mapFields bs
  let zero (a n : Nat) : Bool := mapField bs a n == 0
  if m.ok && zero 15 1 && zero 18 6 && zero 92 36 then some m else none

/-- A map as launch start loads it: BASE's VA is increased by the segment's base; a sum that reaches 2^56
leaves the entry with RANK 0 (R321). -/
def TensorMap.rebase (m : TensorMap) (seg : Nat) : TensorMap :=
  if 2 ^ 56 ≤ vaOf m.base + seg then { m with rank := 0 }
  else { m with base := m.base + BitVec.ofNat 64 seg }

/-! ### The walk (R323) -/

/-- The six counters of element i of the walk: ea, eb, ec, oa, ob, oc. -/
def TensorMap.counters (m : TensorMap) (i : Nat) : List Nat :=
  let e := i % m.rowLen
  let r := i / m.rowLen
  [e % m.nea, e / m.nea % m.neb, e / (m.nea * m.neb), r % m.noa, r / m.noa % m.nob, r / (m.noa * m.nob)]

/-- Coordinate d of element i from origin x. -/
def TensorMap.coord (m : TensorMap) (x : DWord) (i d : Nat) : Int :=
  let origin := (x.extractLsb' (16 * d) 16).toInt
  let sum := ((m.counters i).zip (List.range 6)).foldl
    (fun (t : Int) c => t + m.coef.getD (6 * d + c.2) 0 * (c.1 : Int)) 0
  origin + sum - (m.lead.getD d 0 : Int)

/-- Whether every coordinate of element i is inside the tensor. -/
def TensorMap.inside (m : TensorMap) (x : DWord) (i : Nat) : Bool :=
  (List.range 4).all fun d =>
    let u := m.coord x i d
    decide (0 ≤ u) && decide (u < (m.ext.getD d 0 : Int))

/-- The address of an element inside the tensor, exactly. -/
def TensorMap.elemAddr (m : TensorMap) (x : DWord) (i : Nat) : Int :=
  (vaOf m.base : Int) + m.coord x i 0 * (m.esize : Int) + m.coord x i 1 * m.pitch.getD 0 0
    + m.coord x i 2 * m.pitch.getD 1 0 + m.coord x i 3 * m.pitch.getD 2 0

/-- Whether an element's bytes leave the address space. -/
def TensorMap.badAddr (m : TensorMap) (a : Int) : Bool :=
  a < 0 || ((2 ^ 56 : Nat) : Int) < a + (m.esize : Int)

/-- Local address of element i from local address d. -/
def TensorMap.localAddr (m : TensorMap) (d i : Nat) : Nat :=
  d + i / m.rowLen * m.rowBytes + i % m.rowLen * m.esize

/-- The checks that tmld and tmst make before the walk, in their order (R323, R324). -/
def TensorMap.check (m : TensorMap) (d : Nat) : Option Trap :=
  if m.rank = 0 then some (illegal 0)
  else if d % 8 ≠ 0 then some (alignTrap d)
  else if 0x8000 < d + m.rows * m.rowBytes then some (illegal 3)
  else none

/-- An entry of the table; one that was never loaded has RANK 0 (R321). -/
def Core.tmap (k : Core) (n : BitVec 6) : TensorMap :=
  (Tab.get none k.tmaps n.toNat).getD (mapFields [])

/-- The checks of tmld and tmst with the sources that each looks at: RANK at none, the address at G[D]. -/
def Core.tmChecks (k : Core) (o : TmO) : List (List Src × Option Trap) :=
  let m := k.tmap o.map
  [([], if m.rank = 0 then some (illegal 0) else none), ([.g o.d o.td], m.check (k.gv o.d).toNat)]

/-! ### tmld (R323) -/

/-- Write local bytes of the walk: into a poisoned or uncorrectable word they trap (R129). -/
def State.walkWrite (s : State) (a : Nat) (bs : TBytes) : Except Trap State :=
  match s.badPartial (localBase s.cur + a) bs.length with
  | some b => .error (localBad s.cur b)
  | none => .ok (s.storeLocal s.cur a bs)

/-- The padding after the last element of row r. -/
def State.walkPad (s : State) (m : TensorMap) (d i : Nat) (tn : Bool) : Except Trap State :=
  if i % m.rowLen + 1 = m.rowLen then
    let a := d + i / m.rowLen * m.rowBytes + m.rowLen * m.esize
    s.walkWrite a (bytesOf (m.rowBytes - m.rowLen * m.esize) 0 tn)
  else .ok s

/-- Write element i and what follows it. -/
def State.walkPut (s : State) (m : TensorMap) (d i : Nat) (tn : Bool) (bs : TBytes) : Except Trap State :=
  match s.walkWrite (m.localAddr d i) bs with
  | .error t => .error t
  | .ok s => s.walkPad m d i tn

/-- The walk of tmld over n elements from element i. -/
def State.tmldWalk (s : State) (m : TensorMap) (x : DWord) (d : Nat) (tn : Bool) (i : Nat) : Nat → Res
  | 0 => .done s
  | n + 1 =>
    if m.inside x i then
      let a := m.elemAddr x i
      if m.badAddr a then .trapIn s (illegal 1)
      else match s.rampLoad a.toNat m.esize with
        | .res (.wait) => .stall s
        | .res r => r
        | .ok bs s => match s.walkPut m d i tn (addTaint tn bs) with
          | .error t => .trapIn s t
          | .ok s => s.tmldWalk m x d tn (i + 1) n
    else match s.walkPut m d i tn (bytesOf m.esize (zeroCode m.ty) tn) with
      | .error t => .trapIn s t
      | .ok s => s.tmldWalk m x d tn (i + 1) n

/-- Whether the walk's HBM lines are awaited by an unfinished access of the core itself (R341). -/
def Core.hbmBusy (k : Core) : Bool := k.vecPending VOp.onHbm || !k.atomics.isEmpty

/-- TMLD (R323): a translation fault holds the unit; once it is answered the walk is made anew, with the same
bytes for what it had written. -/
def execTmld (o : TmO) (s : State) : Out :=
  unit (len2 o.q) o.q (fun s => s.me.needPast [.g o.a o.ta, .g o.d o.td] (s.me.tmChecks o)
    (let k := s.me
     let m := k.tmap o.map
     let d := (k.gv o.d).toNat
     match m.check d with
     | some t => .trap t
     | none =>
       match k.xlateHold with
       | some r => r
       | none =>
         if k.vecTouchesLocal d (m.rows * m.rowBytes) || k.hbmBusy then .wait
         else s.tmldWalk m (k.gv o.a) d (k.gt o.a || k.gt o.d || k.ct) 0 (m.rows * m.rowLen))) s

/-! ### tmst (R324) -/

/-- The walk of tmst over n elements from element i; it stalls at an element whose store must wait (R336). -/
def State.tmstWalk (s : State) (m : TensorMap) (x : DWord) (d : Nat) (tn : Bool) (i : Nat) : Nat → Res
  | 0 => .done (s.modMe fun k => { k with phase := .idle })
  | n + 1 =>
    if m.inside x i then
      let a := m.elemAddr x i
      if m.badAddr a then .trapIn s (illegal 1)
      else if s.storeWaits s.cur a.toNat m.esize then
        .stall (s.modMe fun k => { k with phase := .capture (BitVec.ofNat 64 i) })
      else match s.readLocal s.cur (m.localAddr d i) m.esize with
        | .error t => .trapIn s t
        | .ok (bs, s) =>
          (s.rampStore s.cur s.me.pc (lineParts a.toNat m.esize) (addTaint tn bs)).tmstWalk m x d tn (i + 1) n
    else s.tmstWalk m x d tn (i + 1) n

/-- TMST (R324). -/
def execTmst (o : TmO) (s : State) : Out :=
  unit (len2 o.q) o.q (fun s => s.me.needPast [.g o.a o.ta, .g o.d o.td] (s.me.tmChecks o)
    (let k := s.me
     let m := k.tmap o.map
     let d := (k.gv o.d).toNat
     match m.check d with
     | some t => .trap t
     | none =>
       let from' := match k.phase with
         | .capture i => i.toNat
         | _ => 0
       if k.vecTouchesLocal d (m.rows * m.rowBytes) || k.hbmBusy then .wait
       else s.tmstWalk m (k.gv o.a) d (k.gt o.a || k.gt o.d || k.ct) from' (m.rows * m.rowLen - from'))) s

/-! ### tmwr (R321, R322) -/

/-- TMWR (R322): its checks in their order; the table holds no taint. -/
def execTmwr (o : TmwO) (s : State) : Out :=
  unit (len2 o.q) o.q (fun s => s.me.need [.g o.a o.ta]
    (let k := s.me
     let a := (k.gv o.a).toNat
     if a % 64 ≠ 0 then .trap (alignTrap a)
     else if 0x7F80 < a then .trap (illegal 1)
     else if k.vecTouchesLocal a 128 then .wait
     else match s.readLocal s.cur a 128 with
       | .error t => .trap t
       | .ok (bs, s) =>
         match tensorMap (bs.map Prod.fst) with
         | none => .trap (illegal 1)
         | some m =>
           if anyTaint bs || k.gt o.a || k.ct then .trap (illegal 1)
           else .done (s.modMe fun k => { k with tmaps := Tab.put none k.tmaps o.map.toNat (some m) }))) s

end Sys2Proof.Machine
end

