-- ==== Sys2Proof/Machine/Accept.lean ====
section
/-! DEFINITION. Submission and acceptance: the image file (R66, R67), the launch record (R365, R366, R399, R400),
kick entries and tickets (R367 to R369), and the events DOORBELL and KICK_TAKE. -/

namespace Sys2Proof.Machine

/-! ### The image (R66, R67) -/

/-- An entry of the section table (R66). -/
structure Section where
  kind : Nat
  count : Nat
  off : Nat
  size : Nat
  addr : Nat
  deriving DecidableEq, Repr

/-- An image as acceptance reads it: n bytes from an offset. -/
abbrev ImageBytes := Nat → Nat → List Byte

/-- A field of an image. -/
def imField (f : ImageBytes) (a n : Nat) : Nat := natOfBytes (f a n)

/-- Entry i of the section table: none where a must-be-zero byte is not, or the KIND is unknown (R67). -/
def sectionAt (f : ImageBytes) (i : Nat) : Option Section :=
  let a := 16 + 32 * i
  let x : Section := { kind := imField f a 2, count := imField f (a + 4) 4, off := imField f (a + 8) 8
                       size := imField f (a + 16) 8, addr := imField f (a + 24) 8 }
  let counted : Bool := 5 ≤ x.kind && x.kind ≤ 9
  let placed : Bool := (2 ≤ x.kind && x.kind ≤ 4) || x.kind == 7
  if imField f (a + 2) 2 != 0 || x.kind = 0 || 10 < x.kind || (!counted && x.count != 0)
      || (!placed && x.addr != 0) then none
  else some x

/-- The first n sections. -/
def sections (f : ImageBytes) : Nat → Option (List Section)
  | 0 => some []
  | n + 1 =>
    match sections f n, sectionAt f n with
    | some xs, some x => some (xs ++ [x])
    | _, _ => none

/-- Whether two byte ranges overlap. -/
def rangesMeet (a n b m : Nat) : Bool := a < b + m && b < a + n && n != 0 && m != 0

/-- Whether no two sections overlap or repeat a kind that stands once (R67). -/
def sectionsApart : List Section → Bool
  | [] => true
  | x :: xs =>
    let many : Bool := 2 ≤ x.kind && x.kind ≤ 4
    (xs.all fun y => !rangesMeet x.off x.size y.off y.size && (many || x.kind != y.kind)) && sectionsApart xs

/-- The bytes of the n records of a phase-image section, by their LEN fields: none where one starts past size. -/
def phaseBytes (f : ImageBytes) (size : Nat) : Nat → Nat → Option Nat
  | 0, at' => some at'
  | n + 1, at' =>
    if size < at' + 4 then none
    else phaseBytes f size n (at' + imField f at' 4)

/-- Whether a section's SIZE matches its COUNT (R67). -/
def Section.sized (f : ImageBytes) (x : Section) : Bool :=
  match x.kind with
  | 5 => x.size == 32 * x.count
  | 6 => x.size == 128 * x.count
  | 7 => phaseBytes (fun a n => f (x.off + a) n) x.size x.count 0 == some x.size
  | 8 => x.size == 160 * x.count
  | 9 => x.size == 16 * x.count
  | _ => true

/-- The sections of an image at a VA that passes R67 but for what its junction and convoy records hold. Neither the header
nor the kick entry says how long the image is: a section runs past it where it runs past the 56-bit space (DESIGN CHOICE,
log entry 45). -/
def imageSections (f : ImageBytes) (va : Nat) : Option (List Section) :=
  let n := imField f 6 2
  let top := 16 + 32 * n
  if imField f 0 4 != 0x54415349 || imField f 4 2 != 1 || imField f 8 8 != 0 then none
  else match sections f n with
  | none => none
  | some xs =>
    if sectionsApart xs
        && (xs.all fun x => !rangesMeet x.off x.size 0 top && va + x.off + x.size ≤ 2 ^ 56 && x.sized f) then some xs
    else none

/-- The section of a kind that stands at most once. -/
def sectionOf (xs : List Section) (kind : Nat) : Option Section := xs.find? fun x => x.kind == kind

/-- The records of a section, size bytes each. -/
def recordsOf (f : ImageBytes) (xs : List Section) (kind size : Nat) : List (List Byte) :=
  match sectionOf xs kind with
  | some x => (List.range x.count).map fun i => f (x.off + size * i) size
  | none => []

/-- A convoy record: its identifier and EXPECT; none where it breaks R226. -/
def convoyRec (bs : List Byte) : Option (Nat × Nat) :=
  let id := mapField bs 0 4
  let n := mapField bs 4 4
  if id = 0 || 4095 < id || n = 0 || 65664 < n || mapField bs 8 8 != 0 then none else some (id, n)

/-- The contents of the data sections of a kind, with their offsets; bytes past the space's end are left out. -/
def dataOf (f : ImageBytes) (xs : List Section) (kind limit : Nat) : List (Nat × List Byte) :=
  xs.filterMap fun x =>
    if x.kind = kind then some (x.addr, f x.off (min x.size (limit - x.addr))) else none

/-- What an image at a VA holds (R66): none where it is refused (R67). -/
def imageInfo (f : ImageBytes) (va : Nat) : Option (List Section × ImageInfo) :=
  match imageSections f va with
  | none => none
  | some xs =>
    match allSome ((recordsOf f xs 5 32).map junctionRec), allSome ((recordsOf f xs 9 16).map convoyRec) with
    | some js, some cs =>
      some (xs,
        { codeVa := va + ((sectionOf xs 1).map (·.off)).getD 0
          localData := dataOf f xs 2 (2 ^ 15), yardData := dataOf f xs 3 (2 ^ 19)
          hbmData := dataOf f xs 4 (2 ^ 56) ++ dataOf f xs 7 (2 ^ 56), junctions := js
          tmaps := (recordsOf f xs 6 128).map tensorMap, convoys := cs })
    | _, _ => none

/-! ### The launch record (R365, R366) -/

/-- The causes of R36 in the order of their codes. -/
def allCauses : List Cause :=
  [.emptyRead, .reservedCode, .illegalOperand, .illegalFrame, .alignment, .stack, .loopStack, .pipeCheck,
   .localUncorrectable, .format, .privilege, .aborted, .replayDiverge, .dualMismatch, .watchdog, .codeRange,
   .software, .xlateError, .yardUncorrectable, .hbmUncorrectable]

/-- Decode a record of 160 bytes, CODELEN and the queue's die given. -/
def launchFields (bs : List Byte) (code : Nat) (die : BitVec 4) : LaunchRec :=
  let f (a n : Nat) : Nat := mapField bs a n
  let b := f 20 1
  { body := BitVec.ofNat 32 (f 0 4), rampBody := BitVec.ofNat 32 (f 4 4), gangSize := f 8 4, ramps := f 12 2
    cluster := f 14 2 % 1024, gangs := f 16 4, prio := b % 8, priv := b.testBit 3, pin := b.testBit 4
    pre := b.testBit 5, red := b.testBit 6, det := (f 21 1).testBit 0, rr := BitVec.ofNat 2 (f 21 1 / 2)
    rollMax := if f 22 1 = 0 then 3 else f 22 1
    dies := if f 24 2 = 0 then 1#16 <<< die.toNat else BitVec.ofNat 16 (f 24 2)
    policy := BitVec.ofNat 64 (f 32 8), wdog := f 40 8, seed := BitVec.ofNat 32 (f 48 4), codeLen := code
    segBase := f 56 8, segSize := f 64 8, localSize := f 72 4, yardSize := f 76 4
    imgBase := f 80 8, imgSize := f 88 8, logBase := f 96 8
    logSize := f 104 8, depId := BitVec.ofNat 32 (f 112 4), depValid := (f 116 4).testBit 0
    depWhen := (f 116 4).testBit 1, redBase := f 120 8, redSize := f 128 8, llim := f 136 8 }

/-- Whether the bytes of a record that must be zero are. -/
def recordZeros (bs : List Byte) : Bool :=
  let f (a n : Nat) : Nat := mapField bs a n
  f 14 2 < 1024 && f 20 1 < 128 && f 21 1 < 8 && f 23 1 == 0 && f 26 6 == 0 && f 32 8 < 2 ^ 60 && f 116 4 < 4
    && f 144 16 == 0

/-- Clusters of a gang (R371). -/
def LaunchRec.clustersPer (r : LaunchRec) : Nat := (r.gangSize + 63) / 64

/-- The limits of R365 and R366, and that a pinned launch names clusters 0 to 1,023 (R368). -/
def LaunchRec.ok (r : LaunchRec) (segEnd : Nat) : Bool :=
  r.body.toNat % 4 == 0 && (r.ramps == 0 || r.rampBody.toNat % 4 == 0) && 1 ≤ r.gangSize && r.gangSize ≤ 65536
    && r.ramps ≤ 128 && 1 ≤ r.gangs && r.gangs ≤ 65536 && r.rr != 3
    && (allCauses.all fun c => c.permits (r.policyOf c)) && r.segBase % 4096 == 0 && segEnd ≤ r.segSize
    && (r.rr == 0 || (r.logBase != 0 && r.logSize != 0)) && (!r.red || r.redSize != 0)
    && (!r.pinned || r.cluster + r.gangs * r.clustersPer ≤ 1024)

/-- The end of the last HBM data section and of the phase-image area. -/
def segmentEnd (xs : List Section) : Nat :=
  xs.foldl (fun n x => if x.kind = 4 || x.kind = 7 then max n (x.addr + x.size) else n) 0

/-! ### Resources (R371, R390) -/

/-- Whether a cluster holds a quarantined unit. -/
def State.clusterBad (s : State) (d : BitVec 4) (c : Nat) : Bool :=
  let n := d.toNat * 1024 + c
  s.quarantine.any fun u =>
    let id := u.toNat % 2 ^ 21
    match u.toNat / 2 ^ 21 with
    | 1 => decide (id < 0x100000) && id / 64 == n
    | 2 => decide (id < 0x100000) && id / 8 == n
    | 3 => id == n
    | _ => false

/-- Whether a ramp core is quarantined. -/
def State.rampBad (s : State) (d : BitVec 4) (i : Nat) : Bool :=
  s.quarantine.contains (coreUnit (.ramp d (BitVec.ofNat 7 i)))

/-- Clusters of a die with no quarantined unit. -/
def State.goodClusters (s : State) (d : BitVec 4) : List Nat := (List.range 1024).filter fun c => !s.clusterBad d c
/-- Ramp cores of a die that are not quarantined. -/
def State.goodRamps (s : State) (d : BitVec 4) : List Nat := (List.range 128).filter fun i => !s.rampBad d i

/-- The clusters that a pinned gang names (R371). -/
def LaunchRec.pinnedClusters (r : LaunchRec) (g : Nat) : List Nat :=
  if r.pinned then (List.range r.clustersPer).map fun i => r.cluster + g * r.clustersPer + i else []

/-- Copies of a gang (R385). -/
def LaunchRec.copies (r : LaunchRec) : Nat := if r.red then 2 else 1

/-- How many clusters a gang needs beside the pinned ones, its partner's included. -/
def LaunchRec.otherClusters (r : LaunchRec) : Nat :=
  r.clustersPer * (if r.pinned then r.copies - 1 else r.copies)

/-- Whether a gang alone can be placed when everything is free (R368). -/
def State.placeable (s : State) (r : LaunchRec) (g : Nat) : Bool :=
  let good := s.goodClusters (r.dieOf g)
  let w := r.pinnedClusters g
  (w.all fun c => good.contains c) && r.otherClusters + w.length ≤ good.length
    && r.ramps * r.copies ≤ (s.goodRamps (r.dieOf g)).length

/-! ### Acceptance (R368, R369) -/

/-- Give a launch the next ticket of a die. -/
def State.giveTicket (s : State) (l : Nat) (d : BitVec 4) : State :=
  let n := (s.die d).ticket
  (s.modDie d fun x => { x with ticket := n + 1 }).modLaunch l fun x =>
    { x with tickets := Tab.insert d.toNat n x.tickets }

/-- Check 2 of R368: the record named, if it and its submitter pass. -/
def State.recordOf (s : State) (l : Nat) (f : ImageBytes) (xs : List Section) (n : Nat) : Option LaunchRec :=
  let x := s.launch l
  match (recordsOf f xs 8 160)[n]? with
  | none => none
  | some bs =>
    let code := ((sectionOf xs 1).map (·.size)).getD 0
    let r := launchFields bs code x.die
    let v := s.vfOf l
    let own := ((s.part v.part).map (·.dies)).getD 0
    if recordZeros bs && r.ok (segmentEnd xs) && (!r.priv || v.sys) && (r.dies &&& ~~~own) == 0 then some r
    else none

/-- The launch of a kick entry is accepted, or completes with the status of the first check that fails (R368). A dependence
that is met already starts its ageing now (R375). -/
def State.accept (s : State) (l : Nat) (e : List Byte) : State :=
  let x := s.launch l
  let va := mapField e 0 8
  let f : ImageBytes := fun a n => s.readVa l (va + a) n
  let s := (s.journal x.die (.accept (s.die x.die).ticket)).modLaunch l fun y =>
    { y with id := BitVec.ofNat 32 (mapField e 12 4), compTag := BitVec.ofNat 64 (mapField e 16 8), waitFrom := s.clock }
  match imageInfo f va with
  | none => (s.giveTicket l x.die).endLaunch l 3 none
  | some (xs, im) =>
    match s.recordOf l f xs (mapField e 8 2) with
    | none => (s.giveTicket l x.die).endLaunch l 4 none
    | some r =>
      let others := r.dieList.filter fun d => d != x.die
      let s := others.foldl (fun s d => s.journal d (.accept (s.die d).ticket)) s
      let s := r.dieList.foldl (fun s d => s.giveTicket l d) s
      let blanks (p : Bool) : List Gang :=
        List.replicate r.gangs { Gang.blank with partner := p, det := r.det, rr := r.rr }
      let s := s.modLaunch l fun y =>
        { y with rcd := r, img := im, depMet := !r.depValid,
                 gangs := blanks false ++ (if r.red then blanks true else []) }
      if !((List.range r.gangs).all fun g => s.placeable r g) then s.endLaunch l 5 none
      else
        let s := s.meetDeps
        if r.depValid && s.depState l = .failed then s.endLaunch l 6 none else s

/-! ### Queues (R367) -/

/-- DOORBELL (R367): the tail is stored and the queue's bit is set; a queue without a context has no doorbell. -/
def execDoorbell (die : BitVec 4) (queue : BitVec 8) (tail : BitVec 16) (s : State) : Out :=
  match Tab.get none (s.die die).queues queue.toNat with
  | none => .next s
  | some q =>
    .next (s.modDie die fun x =>
      { x with queues := Tab.put none x.queues queue.toNat (some { q with tail := tail.toNat % 2 ^ q.log2n }),
               kicks := x.kicks ||| (1#256 <<< queue.toNat) })

/-- The next queue with its bit set, in cyclic order from the one after the last served. -/
def Die.nextKick (d : Die) : Option Nat :=
  ((List.range 256).map fun i => (d.lastQueue + 1 + i) % 256).find? fun q => d.kicks.getLsbD q

/-- Take n entries of a queue from its head. -/
def State.takeKicks (s : State) (d : BitVec 4) (q : Nat) : Nat → State
  | 0 => s
  | n + 1 =>
    match Tab.get none (s.die d).queues q with
    | none => s
    | some x =>
      let l := s.nextLaunch
      let new : Launch := { Launch.blank with die := d, queue := BitVec.ofNat 8 q }
      let s := { s with nextLaunch := l + 1, launches := Tab.put none s.launches l (some new) }
      let e := s.readVa l (x.base + 32 * x.head) 32
      let s := s.modDie d fun y =>
        { y with queues := Tab.put none y.queues q (some { x with head := (x.head + 1) % 2 ^ x.log2n }) }
      (s.accept l e).takeKicks d q n

/-- Whether a die's scheduler works: after bring-up, outside a takeover (R383, R384, R415). -/
def State.schedules (s : State) (d : BitVec 4) : Bool :=
  s.broughtUp && !(s.die d).takeover && !(s.die d).schedDead

/-- KICK_TAKE (R367): the next set bit is served: cleared, the tail read, and every entry up to it taken. -/
def execKickTake (die : BitVec 4) (s : State) : Out :=
  if !s.schedules die then .next s
  else match (s.die die).nextKick with
  | none => .next s
  | some q =>
    let i := match Tab.get none (s.die die).queues q with
      | some x => x.tail
      | none => 0
    let s := (s.journal die (.consume q i)).modDie die fun x => { x with kicks := x.kicks &&& ~~~(1#256 <<< q), lastQueue := q }
    match Tab.get none (s.die die).queues q with
    | none => .next s
    | some x => .next (s.takeKicks die q ((x.tail + 2 ^ x.log2n - x.head) % 2 ^ x.log2n))

end Sys2Proof.Machine
end

