-- ==== Sys2Proof/Machine/Cancel.lean ====
section
/-! DEFINITION. HCANCEL (R196, R296, R436). -/

namespace Sys2Proof.Machine

/-- Whether an engine command of a core is the producer into its handle n. -/
def isProducer (c d : CoreId) (n : BitVec 3) (h : Option (BitVec 3)) : Bool := c == d && h == some n

/-- Cancel the copy commands that will fill handle n of a core: one not started completes CANCELLED, one started
stops at its next unit (R196). -/
def State.cancelCopies (s : State) (c : CoreId) (n : BitVec 3) : State :=
  let f (x : CopyCmd) : CopyCmd :=
    if isProducer x.core c n x.h then
      { x with hTaint := true, cancelled := true
               status := if x.status.isNone && !x.started then some 2 else x.status }
    else x
  s.modCluster c.cluster fun x => { x with copies := x.copies.map f }

/-- Cancel the chain entries that will fill handle n of a core: only one not started is (R296). -/
def State.cancelChains (s : State) (c : CoreId) (n : BitVec 3) : State :=
  let f (e : ChainEntry) : ChainEntry :=
    if isProducer e.core c n (some e.h) then
      { e with hTaint := true, stageOf := if e.started then e.stageOf else .finished 2 }
    else e
  s.modCluster c.cluster fun x =>
    { x with chains := x.chains.map fun y => (y.1, { y.2 with ents := y.2.ents.map f }) }

/-- Cancel the fabric commands that will fill handle n of a core: only one not started is (R436). -/
def State.cancelFabric (s : State) (c : CoreId) (n : BitVec 3) : State :=
  let f (x : FabCmd) : FabCmd :=
    if isProducer x.core c n x.h then
      { x with hTaint := true, status := if x.sent || x.begun || x.status.isSome then x.status else some 2 }
    else x
  s.modDie c.die fun d => { d with fab := d.fab.map f }

/-- HCANCEL (R196): without an outstanding producer it does nothing; an atomic or a cast goes on. -/
def execHcancel (o : HcanO) (s : State) : Out :=
  unit (len2 o.q) o.q (fun s =>
    let c := s.cur
    if (s.me.hreg o.a).fill ≠ .pending then .done s
    else
      let s := ((if c.isRamp then s else (s.cancelCopies c o.a).cancelChains c o.a).cancelFabric c o.a)
      .done (s.modMe fun k => { k with hCancelled := k.hCancelled ||| (1#8 <<< o.a.toNat) })) s

end Sys2Proof.Machine
end

