-- ==== Sys2Proof/Machine/Crypto.lean ====
section
/-! DEFINITION. The functions that casts, measurements and reports name (R405, R406, R413): SHA-512, HMAC and HKDF over
it, AES-256 and its Galois/Counter mode, as their public standards give them (log entry 5). -/

namespace Sys2Proof.Machine

/-! ### SHA-512 -/

/-- The first eighty primes. -/
def primes80 : List Nat :=
  [2, 3, 5, 7, 11, 13, 17, 19, 23, 29, 31, 37, 41, 43, 47, 53, 59, 61, 67, 71, 73, 79, 83, 89, 97, 101, 103, 107, 109,
   113] ++
  [127, 131, 137, 139, 149, 151, 157, 163, 167, 173, 179, 181, 191, 193, 197, 199, 211, 223, 227, 229, 233, 239, 241,
   251] ++
  [257, 263, 269, 271, 277, 281, 283, 293, 307, 311, 313, 317, 331, 337, 347, 349, 353, 359, 367, 373, 379, 383, 389,
   397, 401, 409]

/-- The largest number whose k-th power is at most x, found from bit n − 1 down. -/
def rootFloor (k x : Nat) : Nat → Nat → Nat
  | 0, a => a
  | n + 1, a => rootFloor k x n (if (a + 2 ^ n) ^ k ≤ x then a + 2 ^ n else a)

/-- The first 64 bits of the fractional part of a prime's k-th root. -/
def rootBits (k p : Nat) : BitVec 64 := BitVec.ofNat 64 (rootFloor k (p * 2 ^ (64 * k)) 70 0)

/-- The round constants. -/
def shaK : List (BitVec 64) := primes80.map (rootBits 3)
/-- The initial chain. -/
def shaInit : List (BitVec 64) := (primes80.take 8).map (rootBits 2)

/-- Extend a message schedule, newest word first. -/
def shaSchedule : Nat → List (BitVec 64) → List (BitVec 64)
  | 0, w => w
  | n + 1, w =>
    let g (i : Nat) : BitVec 64 := w.getD i 0
    let s0 := (g 14).rotateRight 1 ^^^ (g 14).rotateRight 8 ^^^ (g 14) >>> 7
    let s1 := (g 1).rotateRight 19 ^^^ (g 1).rotateRight 61 ^^^ (g 1) >>> 6
    shaSchedule n ((g 15 + s0 + g 6 + s1) :: w)

/-- One round on the eight working words. -/
def shaRound (v : List (BitVec 64)) (kw : BitVec 64) : List (BitVec 64) :=
  let g (i : Nat) : BitVec 64 := v.getD i 0
  let e := g 4
  let a := g 0
  let t1 := g 7 + (e.rotateRight 14 ^^^ e.rotateRight 18 ^^^ e.rotateRight 41) + ((e &&& g 5) ^^^ (~~~e &&& g 6)) + kw
  let t2 := (a.rotateRight 28 ^^^ a.rotateRight 34 ^^^ a.rotateRight 39)
    + ((a &&& g 1) ^^^ (a &&& g 2) ^^^ (g 1 &&& g 2))
  [t1 + t2, a, g 1, g 2, g 3 + t1, e, g 5, g 6]

/-- Take one 128-byte block into a chain. -/
def shaBlock (h : List (BitVec 64)) (block : List Byte) : List (BitVec 64) :=
  let w0 := (List.range 16).map fun i => BitVec.ofNat 64 (natOfBytes ((block.drop (8 * i)).take 8).reverse)
  let w := (shaSchedule 64 w0.reverse).reverse
  let v := ((shaK.zip w).map fun x => x.1 + x.2).foldl shaRound h
  (h.zip v).map fun x => x.1 + x.2

/-- Take n blocks into a chain. -/
def shaBlocks : Nat → List (BitVec 64) → List Byte → List (BitVec 64)
  | 0, h, _ => h
  | n + 1, h, bs => shaBlocks n (shaBlock h (bs.take 128)) (bs.drop 128)

/-- SHA-512 of bytes: 64 bytes. -/
def sha512 (bs : List Byte) : List Byte :=
  let n := bs.length
  let pad := (239 - n % 128) % 128
  let m := bs ++ [0x80] ++ List.replicate pad 0 ++ (bytesOfNat 16 (8 * n)).reverse
  (shaBlocks (m.length / 128) shaInit m).flatMap fun w => (bytesOfNat 8 w.toNat).reverse

/-- HMAC over SHA-512, for a key of at most 128 bytes. -/
def hmac512 (key bs : List Byte) : List Byte :=
  let k := key ++ List.replicate (128 - key.length) 0
  sha512 (k.map (· ^^^ 0x5C) ++ sha512 (k.map (· ^^^ 0x36) ++ bs))

/-- HKDF over SHA-512 without salt: its first 32 bytes. -/
def hkdf512 (key info : List Byte) : List Byte :=
  (hmac512 (hmac512 (List.replicate 64 0) key) (info ++ [0x01])).take 32

/-! ### AES-256 -/

/-- Product in the field of AES, over n bits of the second factor. -/
def gmulAux : Nat → BitVec 8 → BitVec 8 → BitVec 8
  | 0, _, _ => 0
  | n + 1, a, b =>
    let rest := gmulAux n ((a <<< 1) ^^^ (if a.getLsbD 7 then 0x1B else 0)) (b >>> 1)
    if b.getLsbD 0 then a ^^^ rest else rest
/-- Product in the field of AES. -/
def gmul (a b : BitVec 8) : BitVec 8 := gmulAux 8 a b

/-- The substitution of a byte: its inverse, then the affine map. -/
def aesSub (x : BitVec 8) : BitVec 8 :=
  let sq (y : BitVec 8) : BitVec 8 := gmul y y
  let x2 := sq x
  let x4 := sq x2
  let x8 := sq x4
  let x16 := sq x8
  let x32 := sq x16
  let x64 := sq x32
  let i := gmul (gmul (gmul x2 x4) (gmul x8 x16)) (gmul (gmul x32 x64) (sq x64))
  i ^^^ i.rotateLeft 1 ^^^ i.rotateLeft 2 ^^^ i.rotateLeft 3 ^^^ i.rotateLeft 4 ^^^ 0x63

/-- The substitutions of all bytes. -/
def aesTable : List Byte := (List.range 256).map fun i => aesSub (BitVec.ofNat 8 i)
/-- Substitute a byte by a table. -/
def subBy (t : List Byte) (x : Byte) : Byte := t.getD x.toNat 0

/-- Exclusive or of lists of bytes. -/
def xorBytes (a b : List Byte) : List Byte := (a.zip b).map fun x => x.1 ^^^ x.2

/-- Extend a key schedule of four-byte words, newest first: n more from word number i. -/
def aesExpand (t : List Byte) : Nat → Nat → Byte → List (List Byte) → List (List Byte)
  | 0, _, _, w => w
  | n + 1, i, rc, w =>
    let prev := w.getD 0 []
    let rot := prev.drop 1 ++ prev.take 1
    let f := if i % 8 = 0 then xorBytes (rot.map (subBy t)) [rc, 0, 0, 0]
             else if i % 8 = 4 then prev.map (subBy t) else prev
    aesExpand t n (i + 1) (if i % 8 = 0 then gmul rc 2 else rc) (xorBytes f (w.getD 7 []) :: w)

/-- The fifteen round keys of a 32-byte key. -/
def aesKeys (t : List Byte) (key : List Byte) : List (List Byte) :=
  let w0 := ((List.range 8).map fun i => (key.drop (4 * i)).take 4).reverse
  let w := (aesExpand t 52 8 1 w0).reverse
  (List.range 15).map fun r => ((w.drop (4 * r)).take 4).flatten

/-- Shift the rows of a block held column by column. -/
def aesShift (b : List Byte) : List Byte :=
  (List.range 16).map fun i => b.getD ((i + 4 * (i % 4)) % 16) 0

/-- Mix the columns of a block. -/
def aesMix (b : List Byte) : List Byte :=
  (List.range 16).map fun i =>
    let g (j : Nat) : Byte := b.getD (i / 4 * 4 + (i + j) % 4) 0
    gmul 2 (g 0) ^^^ gmul 3 (g 1) ^^^ g 2 ^^^ g 3

/-- Encrypt one block under round keys. -/
def aesBlock (t : List Byte) (keys : List (List Byte)) (b : List Byte) : List Byte :=
  let first := xorBytes b (keys.getD 0 [])
  let mid := ((keys.drop 1).take 13).foldl (fun x k => xorBytes (aesMix (aesShift (x.map (subBy t)))) k) first
  xorBytes (aesShift (mid.map (subBy t))) (keys.getD 14 [])

/-! ### Galois/Counter mode -/

/-- A number from bytes, the first byte highest. -/
def natBig (bs : List Byte) : Nat := natOfBytes bs.reverse
/-- The bytes of a number, the highest first. -/
def bytesBig (n x : Nat) : List Byte := (bytesOfNat n x).reverse

/-- Product in the field of GHASH, over n bits of the first factor, its highest bit first. -/
def ghMulAux : Nat → BitVec 128 → BitVec 128 → BitVec 128
  | 0, _, _ => 0
  | n + 1, x, v =>
    let rest := ghMulAux n x ((v >>> 1) ^^^ (if v.getLsbD 0 then 0xE1#128 <<< 120 else 0))
    if x.getLsbD n then v ^^^ rest else rest
/-- Product in the field of GHASH. -/
def ghMul (x y : BitVec 128) : BitVec 128 := ghMulAux 128 x y

/-- Blocks of 16 bytes, the last filled with zeros; at most n. -/
def blocksOf : Nat → List Byte → List (List Byte)
  | 0, _ => []
  | _, [] => []
  | n + 1, bs => (bs.take 16 ++ List.replicate (16 - bs.length) 0) :: blocksOf n (bs.drop 16)

/-- GHASH of associated data and ciphertext. -/
def ghash (h : BitVec 128) (aad ct : List Byte) : BitVec 128 :=
  let bs := blocksOf (aad.length / 16 + 1) aad ++ blocksOf (ct.length / 16 + 1) ct
    ++ [bytesBig 8 (8 * aad.length) ++ bytesBig 8 (8 * ct.length)]
  bs.foldl (fun y b => ghMul (y ^^^ BitVec.ofNat 128 (natBig b)) h) 0

/-- The key stream and exclusive or of counter mode, from counter n. -/
def ctrMode (t : List Byte) (keys : List (List Byte)) (iv : List Byte) (n : Nat) (bs : List Byte) : List Byte :=
  ((List.range ((bs.length + 15) / 16)).flatMap fun i =>
    xorBytes ((bs.drop (16 * i)).take 16) (aesBlock t keys (iv ++ bytesBig 4 (n + i))))

/-- The tag of associated data and ciphertext. -/
def gcmTag (t : List Byte) (keys : List (List Byte)) (iv aad ct : List Byte) : List Byte :=
  let h := BitVec.ofNat 128 (natBig (aesBlock t keys (List.replicate 16 0)))
  xorBytes (bytesBig 16 (ghash h aad ct).toNat) (aesBlock t keys (iv ++ bytesBig 4 1))

/-- AES-256-GCM with a 12-byte IV: ciphertext and 16-byte tag. -/
def gcmSeal (key iv aad plain : List Byte) : List Byte × List Byte :=
  let t := aesTable
  let keys := aesKeys t key
  let ct := ctrMode t keys iv 2 plain
  (ct, gcmTag t keys iv aad ct)

/-- Open a ciphertext: the plain text if the tag verifies. -/
def gcmOpen (key iv aad ct tag : List Byte) : Option (List Byte) :=
  let t := aesTable
  let keys := aesKeys t key
  if gcmTag t keys iv aad ct = tag then some (ctrMode t keys iv 2 ct) else none

end Sys2Proof.Machine
end

