-- ==== Sys2Proof/Machine/Fabric.lean ====
section
/-! DEFINITION. The Tymas fabric (R417 to R434): packets and routes, ports and milestones, peer windows, the ordered
class and its delivery, with the events of ports and arrivals. -/

namespace Sys2Proof

/-- Flits of a packet (R420). -/
def Packet.flits (p : Packet) : Nat := 1 + (p.data.length - 112 + 127) / 128

/-- The agent number of a packet's issuer: a core of another package is an agent of its own. -/
def Packet.agentNum (p : Packet) : Nat :=
  if p.src = Config.packageId then p.issuer else (p.src.toNat + 1) * 2 ^ 21 + p.issuer

/-- Whether a packet asks for something of its target (R420). -/
def Packet.isRequest (p : Packet) : Bool := p.op == 0 || p.op == 1 || p.op == 3 || p.op == 5 || p.op == 7

end Sys2Proof

namespace Sys2Proof.Machine

/-! ### Packets (R419, R420) -/

/-- Offsets and lengths of the packets of a transfer of n bytes. -/
def packetParts (n : Nat) : List (Nat × Nat) :=
  (List.range ((n + 4079) / 4080)).map fun i => (4080 * i, min 4080 (n - 4080 * i))

/-- The taint that a packet's bytes arrive with: each takes the OR of its aligned 8-byte word's (R357). -/
def wordTaint (bs : TBytes) : TBytes :=
  ((List.range bs.length).zip bs).map fun x => (x.2.1, anyTaint ((bs.drop (x.1 / 8 * 8)).take 8))

/-- Put a packet into the ordered-delivery buffer, in the order of keys (R427, R431). -/
def insertPacket (p : Packet) : List Packet → List Packet
  | [] => [p]
  | q :: qs => if keyLt p.key q.key then p :: q :: qs else q :: insertPacket p qs

/-- Hand a packet to a port: it leaves if the link is up, and waits there if not, or if the tables still are those of
before its failure (R422). -/
def State.toPort (s : State) (port : BitVec 3) (p : Packet) : State :=
  let x := s.fport port
  if x.linkUp && !x.failed then
    { s.modFport port fun x => { x with dataSince := x.dataSince + p.flits } with outbox := s.outbox ++ [(port, p)] }
  else s.modFport port fun x => { x with replay := x.replay ++ [p] }

/-- Whether a package can be reached. -/
def State.hasRoute (s : State) (dst : BitVec 20) : Bool :=
  dst == Config.packageId || (Config.route s.routeEpoch dst).isSome

/-- Send a packet: to the package itself, or by the routing tables; one that they do not route waits for new ones (R422). -/
def State.transmit (s : State) (p : Packet) : State :=
  if p.dst = Config.packageId then
    if p.ordered then { s with odb := insertPacket p s.odb } else { s with loopIn := s.loopIn ++ [p] }
  else match Config.route s.routeEpoch p.dst with
    | some port => s.toPort port p
    | none => { s with unrouted := s.unrouted ++ [p] }

/-- Answer a packet: an acknowledgement, or get data, with a status (R420, R436). -/
def State.answer (s : State) (p : Packet) (op : BitVec 4) (st : BitVec 8) (data : TBytes) : State :=
  s.transmit { p with
    stamp := 0, src := Config.packageId, dst := p.src, sseq := 0, ordered := false, op := op, status := st,
    len := data.length, data := data }

/-! ### Fabric faults (R432) -/

/-- Post a fabric fault to die 0's supervisor. -/
def State.fabricFault (s : State) (kind : Nat) (port : BitVec 3) (nbr : BitVec 20) (mile : Nat) : State :=
  s.post 0 (.fabric kind port nbr mile s.ftime)

/-- The 32 bytes of a fabric fault record. -/
def fabricRecord (kind : Nat) (port : BitVec 3) (nbr : BitVec 20) (mile time : Nat) : List Byte :=
  bytesOfNat 1 kind ++ bytesOfNat 1 port.toNat ++ bytesOfNat 2 0 ++ bytesOfNat 4 nbr.toNat ++ bytesOfNat 8 mile
    ++ bytesOfNat 8 time ++ bytesOfNat 8 0

/-! ### Milestones (R428, R429) -/

/-- Whether an input port counts in a milestone: neither DOWN nor EXCISED. -/
def FPort.counts (p : FPort) : Bool := p.state == .up || p.state == .stalled

/-- The packets that wait in the package to be sent: at a port, whichever it is, since new tables may send them out on
any, those whose replay a failed link has left undone among them; and those that no route takes (R422, R428). -/
def State.waitingOut (s : State) : List Packet := allPorts.flatMap (fun i => (s.fport i).replay) ++ s.unrouted

/-- The milestone of an output port: the least of the fabric time, the stamps of the ordered packets held that may leave
there, and the milestones of the input ports that may pass to it. -/
def State.milestone (s : State) (o : BitVec 3) : Nat :=
  let held := (s.waitingOut.filter (·.ordered)).foldl (fun m p => min m p.stamp) s.ftime
  allPorts.foldl (fun m i =>
    if (s.fport i).counts && Config.passes s.routeEpoch i o then min m (s.fport i).mile else m) held

/-- Send a port's milestone: a computed value below the last one sent is not sent. -/
def State.sendMilestone (s : State) (port : BitVec 3) : State :=
  let m := s.milestone port
  s.modFport port fun x => { x with sentMile := max x.sentMile m, sentAt := s.ftime, dataSince := 0 }

/-- MILESTONE_SEND (R429): after 256 data flits, when the milestone has advanced. -/
def execMilestoneSend (port : BitVec 3) (s : State) : Out :=
  let x := s.fport port
  if x.linkUp && 256 ≤ x.dataSince && x.sentMile < s.milestone port then .next (s.sendMilestone port) else .next s

/-- WAYMARK (R429): BEACON has passed since the last milestone flit and no data flit is waiting. -/
def execWaymark (port : BitVec 3) (s : State) : Out :=
  let x := s.fport port
  if x.linkUp && x.replay.isEmpty && x.sentAt + 4 * s.conf.beacon ≤ s.ftime then .next (s.sendMilestone port)
  else .next s

/-- MILESTONE_RECEIVE (R430): a port's received milestone advances; a stalled port is stalled no longer. -/
def execMilestoneReceive (port : BitVec 3) (stamp : Nat) (s : State) : Out :=
  let x := s.fport port
  if x.linkUp && x.mile < stamp then
    .next (s.modFport port fun x =>
      { x with mile := stamp, advancedAt := some s.ftime, state := if x.state = .stalled then .up else x.state })
  else .next s

/-! ### Ports (R417, R418, R421, R422, R432, R433) -/

/-- PORT_UP (R417): a port trains and learns its neighbour; what waited for its first bring-up leaves, and what waited
because the link failed waits for the new tables (R422). An excised port stays excised until it is readmitted (R433). -/
def execPortUp (port : BitVec 3) (nbr : BitVec 20) (s : State) : Out :=
  let x := s.fport port
  if x.linkUp || !s.broughtUp then .next s
  else
    let s := s.modFport port fun x =>
      { x with state := if x.state = .excised then .excised else .up, linkUp := true, wasUp := true, nbr := nbr,
               upAt := if x.wasUp then x.upAt else s.ftime
               lanes := if x.lanes = 0 then BitVec.allOnes 128 else x.lanes
               replay := if x.failed then x.replay else [], replays := [] }
    .next (if x.failed then s else x.replay.foldl (fun s p => s.toPort port p) s)

/-- Take back the last packets that were sent on a port, n at most and f flits at most, from a list with the latest first:
those packets in the order in which they were sent, and what is left. -/
def takeBack (port : BitVec 3) : Nat → Nat → List (BitVec 3 × Packet) → List Packet × List (BitVec 3 × Packet)
  | _, _, [] => ([], [])
  | n, f, e :: rest =>
    if e.1 ≠ port then
      let r := takeBack port n f rest
      (r.1, e :: r.2)
    else if n = 0 || f < e.2.flits then ([], e :: rest)
    else
      let r := takeBack port (n - 1) (f - e.2.flits) rest
      (r.1 ++ [e.2], r.2)

/-- A port goes DOWN: a fault of kind 2; with AUTOEX it is excised, else it stays in the frontier (R432, R433). The last
packets that it sent and whose flits, among the 1,024 it keeps, have not been received, wait in the package (R418, R422). -/
def State.portDown (s : State) (port : BitVec 3) (lost : Nat) : State :=
  let x := s.fport port
  if !x.linkUp then s
  else
    let r := takeBack port lost 1024 s.outbox.reverse
    let s := ({ s with outbox := r.2.reverse } : State).modFport port fun x =>
      { x with linkUp := false, failed := true, replay := r.1 ++ x.replay
               state := if s.autoEx || x.state = .excised then .excised else .down, replays := [] }
    s.fabricFault 2 port x.nbr x.mile

/-- LINK_DOWN (R418): loss of signal on every lane. -/
def execLinkDown (port : PortLoss) (s : State) : Out := .next (s.portDown port.port port.lost)

/-- LANE_FAIL (R417): a lane is taken out of service; without any lane the port goes DOWN. -/
def execLaneFail (port : PortLoss) (lane : BitVec 7) (s : State) : Out :=
  let s := s.modFport port.port fun x => { x with lanes := x.lanes &&& ~~~(1#128 <<< lane.toNat) }
  .next (if (s.fport port.port).lanes = 0 then s.portDown port.port port.lost else s)

/-- FLIT_REPLAY (R418): discarded flits are sent again and received exactly once; 16 replays within a microsecond put
the port DOWN while it replays the flits of the last packets it sent. -/
def execFlitReplay (port : PortLoss) (s : State) : Out :=
  if !(s.fport port.port).linkUp then .next s
  else
    let s := s.modFport port.port fun x =>
      { x with replays := x.replays.filter (fun t => s.clock < t + 1600) ++ [s.clock] }
    .next (if 16 ≤ (s.fport port.port).replays.length then s.portDown port.port port.lost else s)

/-- ROUTE_RECOMPUTE (R422): new tables, installed in every package; the packets that waited for a failed link go by them. -/
def execRouteRecompute (s : State) : Out :=
  let held := allPorts.flatMap fun i => (s.fport i).replay.map fun p => (i, p)
  let s := allPorts.foldl (fun s i => s.modFport i fun x => { x with replay := [], failed := false }) s
  let lost := s.unrouted
  let s := { s with routeEpoch := s.routeEpoch + 1, unrouted := [] }
  let s := held.foldl (fun s x =>
    if s.hasRoute x.2.dst then s.transmit x.2
    else s.modFport x.1 fun y => { y with replay := y.replay ++ [x.2] }) s
  .next (lost.foldl State.transmit s)

/-- STALLED_WATERMARK (R432): a port UP whose milestone has not advanced for STALL is stalled: a fault of kind 1, and
with AUTOEX it is excised (R433). -/
def execStalledWatermark (port : BitVec 3) (s : State) : Out :=
  let x := s.fport port
  if x.state = .up && x.advancedAt.getD x.upAt + 4 * s.conf.stall ≤ s.ftime then
    let s := s.modFport port fun x => { x with state := if s.autoEx then .excised else .stalled }
    .next (s.fabricFault 1 port x.nbr x.mile)
  else .next s

/-- Readmit an excised port. -/
def State.readmit (s : State) (port : BitVec 3) : State :=
  s.modFport port fun x =>
    if x.state = .excised then { x with state := if x.linkUp then .up else .down } else x

/-- PORT_READMIT (R433): an excised port that is up and whose milestone has reached the stamp of the delivered frontier
is readmitted, with a fault of kind 6. -/
def execPortReadmit (port : BitVec 3) (s : State) : Out :=
  let x := s.fport port
  let reached : Bool := match s.delivered with
    | some k => decide (k.1 ≤ x.mile)
    | none => false
  if x.state = .excised && x.linkUp && reached then .next ((s.readmit port).fabricFault 6 port x.nbr x.mile)
  else .next s

/-- TIMESTAMP_EXCHANGE (R421): over a link that is up, a package that is not the grandmaster, the lowest-numbered one that
is UP, estimates its offset from it, and steers to it: forward to the grandmaster's time where it is behind, and at a slow
rate where it is ahead, never back; an offset beyond 1 ns raises a sync fault (log entry 74). -/
def execTimestampExchange (peer : ClockPeer) (offset : Int) (s : State) : Out :=
  let x := s.fport peer.port
  if !x.linkUp || Config.packageId ≤ peer.grand then .next s
  else
    let s := { s with ftimeBase := s.ftime + offset.toNat, ftimeAt := s.clock, ftimeSlow := decide (offset < 0) }
    .next (if 4 < offset.natAbs then s.fabricFault 3 peer.port x.nbr x.mile else s)

/-! ### Windows (R423, R424) -/

/-- Whether a window admits a packet. -/
def Window.admits (w : Window) (p : Packet) : Bool :=
  let allowed : Bool := match p.op.toNat with
    | 0 | 7 => w.w && !w.isQueue
    | 1 => w.r && !w.isQueue
    | 3 => w.isQueue
    | _ => false
  w.valid && w.srcLo ≤ p.src && p.src ≤ w.srcHi && w.spart == p.spart && allowed
    && (w.isQueue || p.offset.toNat + p.len ≤ w.len)

/-- Translate the parts of a range through a window's stage-1 space and its partition's stage 2 (R424): physical
address, VA and length of each, or the first fault with its VA. -/
def State.windowXlate (s : State) (w : Window) (acc : Access) :
    List (Nat × Nat) → Except (XErr × Nat) (List (Nat × Nat × Nat))
  | [] => .ok []
  | (va, n) :: rest =>
    let v := Tab.get Vf.blank s.vfs (vfNum w.die w.vf.toNat)
    match translate s.mem v.s1root (s.s2root w.part) va acc with
    | .error e => .error (e, va)
    | .ok pa => match s.windowXlate w acc rest with
      | .error e => .error e
      | .ok xs => .ok ((pa, va, n) :: xs)

/-- A target translation fault (R424): its record waits to be posted with CLASS 4. -/
def State.windowFault (s : State) (w : Window) (va : Nat) (e : XErr) (acc : Access) : State × Nat :=
  let f : XFault :=
    { token := s.nextToken, ag := .fabric w.die, va := va, gpa := if e.stage2 then e.gpa else 0, stage2 := e.stage2,
      nested := e.nested, kind := e.kind, level := e.level, access := acc, part := w.part, posted := false,
      vec := false }
  ({ s with xfaults := s.xfaults ++ [f], nextToken := s.nextToken + 1 }, f.token)

/-- Dies that a gang stands on. -/
def Gang.dies (g : Gang) : List (BitVec 4) :=
  (g.clusters.map fun n => BitVec.ofNat 4 (n / 1024)) ++ g.ramps.map Prod.fst

/-- The deterministic launch that receives a fabric write, and its gang: placed on the target die, with an HBM segment
that contains the line (R352). -/
def State.receiver (s : State) (w : Window) (va : Nat) : Option (Nat × Nat) :=
  s.launches.findSome? fun x => match x.2 with
    | some y =>
      let mine := y.state == .running && vfNum y.die (y.queue.toNat / 8) == vfNum w.die w.vf.toNat
        && y.rcd.segBase ≤ va && va < y.rcd.segBase + y.rcd.segSize
      let on (g : Nat) : Bool :=
        let z := y.gang g
        z.placed && !z.done && z.det && z.dies.contains w.die
      if mine then ((List.range y.gangs.length).find? on).map fun g => (x.1, g) else none
    | none => none

/-- Write one part of a packet at the home slice: tagged for its receiving launch, and tainted and recorded where it
conflicts (R352 to R354). -/
def State.fabWrite (s : State) (w : Window) (p : Packet) (pa va : Nat) (bs : TBytes) : State :=
  let s := (s.stageFor pa).cacheAccess w.die pa true
  match s.receiver w va with
  | none => s.poke pa bs
  | some (l, g) =>
    let y := (s.launch l).gang g
    let key := tagKey l (pa / 64 * 64)
    let hit : Bool := match Tab.get none s.tags key with
      | some t => t.agent != p.agentNum && t.sstep == ((s.launch l).gang t.gang).sstep
      | none => false
    let s := if hit then
        s.modLaunch l fun x =>
          let d := Tab.get DStat.zero x.dstats w.die.toNat
          let d := if d.conf then d else
            { d with conf := true, space := 2, addr := BitVec.ofNat 56 (va / 64 * 64) }
          { x with dstats := Tab.put DStat.zero x.dstats w.die.toNat d }
      else s
    let tag : WTag := { agent := p.agentNum, op := none, ring := none, launch := l, gang := g, sstep := y.sstep }
    let s := s.poke pa (addTaint hit bs)
    { s with tags := Tab.put none s.tags key (some tag) }

/-! ### Performing a packet (R424, R430, R433) -/

/-- A packet waits for the owner's answer to its fault; its status remembers whether it was late. -/
def State.holdPacket (s : State) (p : Packet) (late : Bool) (tok : Nat) : State :=
  { s with waitPkts := s.waitPkts ++ [({ p with status := if late then 7 else 0 }, tok)] }

/-- The lengths of the parts of a list of bytes. -/
def cutBytes : List (Nat × Nat × Nat) → TBytes → List (Nat × Nat × TBytes)
  | [], _ => []
  | (pa, va, n) :: rest, bs => (pa, va, bs.take n) :: cutBytes rest (bs.drop n)

/-- Perform an admitted put or cast data. -/
def State.performPut (s : State) (w : Window) (p : Packet) (late : Bool) : State :=
  let bs := addTaint late (wordTaint p.data)
  match s.windowXlate w 1 (lineParts (w.base + p.offset.toNat) bs.length) with
  | .error (e, va) =>
    let (s, tok) := s.windowFault w va e 1
    s.holdPacket p late tok
  | .ok xs =>
    if xs.any fun x => (s.badPartial x.1 x.2.2).isSome then s.answer p 4 4 []
    else
      let s := (cutBytes xs bs).foldl (fun s x => s.fabWrite w p x.1 x.2.1 x.2.2) s
      s.answer p 4 (if late then 7 else 0) []

/-- Perform an admitted get request. -/
def State.performGet (s : State) (w : Window) (p : Packet) : State :=
  match s.windowXlate w 0 (lineParts (w.base + p.offset.toNat) p.len) with
  | .error (e, va) =>
    let (s, tok) := s.windowFault w va e 0
    s.holdPacket p false tok
  | .ok xs =>
    match xs.findSome? fun x => s.bad x.1 x.2.2 with
    | some b => (s.markPoison b).answer p 4 4 []
    | none =>
      let s := xs.foldl (fun s x => s.cacheAccess w.die x.1 false) s
      s.answer p 2 0 (xs.flatMap fun x => s.peek x.1 x.2.2)

/-- Messages that a receive queue holds. -/
def State.rqOf (s : State) (d : BitVec 4) (q : Nat) : List FabMsg := Tab.get [] (s.die d).rq q

/-- Enqueue a message (R431, R433). -/
def State.enqueue (s : State) (w : Window) (p : Packet) (late : Bool) : State :=
  let q := w.queue.toNat
  let m : FabMsg :=
    { src := p.src, late := late, ordered := p.ordered, tag := p.tag,
      value := BitVec.ofNat 64 (valOf ((p.data.drop 8).take 8)), taint := anyTaint p.data || late, window := p.window }
  s.modDie w.die fun d =>
    { d with rq := Tab.put [] d.rq q (Tab.get [] d.rq q ++ [m]),
             rqSources := Tab.put [] d.rqSources q (Tab.get [] d.rqSources q ++ [p.src]) }

/-- A window of the package. -/
def State.window (s : State) (n : BitVec 8) : Option Window := Tab.get none s.windows n.toNat

/-- Whether a packet is a message for a receive queue that is full (R431). -/
def State.queueFull (s : State) (p : Packet) : Bool :=
  p.op == 3 && match s.window p.window with
    | some w => w.admits p && decide (256 ≤ (s.rqOf w.die w.queue.toNat).length)
    | none => false

/-- Whether a put or cast data must wait for a line that it cannot pin now (R329). -/
def State.putWaits (s : State) (p : Packet) : Bool :=
  (p.op == 0 || p.op == 7) && match s.window p.window with
    | some w => w.admits p && match s.windowXlate w 1 (lineParts (w.base + p.offset.toNat) p.data.length) with
      | .ok xs => !s.linesFree w.die (xs.map Prod.fst)
      | .error _ => false
    | none => false

/-- Perform a packet at its target: a marker is recorded without a window; what is not admitted is answered with
PERMISSION (R424, R434). -/
def State.perform (s : State) (p : Packet) (late : Bool) : State :=
  if p.op = 5 then { s with markers := s.markers ++ [(p.seq, p.spart, p.src, p.stamp)] }
  else match s.window p.window with
  | none => s.answer p 4 6 []
  | some w =>
    if !w.admits p then s.answer p 4 6 []
    else match p.op.toNat with
    | 1 => s.performGet w p
    | 3 => (s.enqueue w p late).answer p 4 (if late then 7 else 0) []
    | _ => s.performPut w p late

/-! ### Arrival and delivery (R430 to R434) -/

/-- Bytes that ordered packets take in the buffer and the reserve: flits of 144 bytes (R418, R431). -/
def State.odbBytes (s : State) : Nat :=
  s.odb.foldl (fun n p => n + 144 * p.flits) 0
    + s.dies.foldl (fun n d => n + d.2.rq.foldl (fun n q => n + 144 * (q.2.filter (·.ordered)).length) 0) 0

/-- Whether an ordered packet is late: its key is below the delivered frontier (R433). -/
def State.isLate (s : State) (p : Packet) : Bool := match s.delivered with
  | some k => keyLt p.key k
  | none => false

/-- ORDERED_ARRIVAL (R431, R433): with the buffer and the reserve full no port accepts an ordered packet, and a fault of
kind 5 is posted; a packet on its way elsewhere goes on; one for this package waits in the buffer, or is
found late. A packet of the package itself stands in the buffer from its injection. -/
def execOrderedArrival (port : BitVec 3) (p : Packet) (s : State) : Out :=
  let x := s.fport port
  if !x.linkUp || !p.ordered || p.src = Config.packageId || !p.isRequest then .next s
  else if 2 ^ 23 + 2 ^ 30 < s.odbBytes + 144 * p.flits then .next (s.fabricFault 5 port x.nbr x.mile)
  else if p.dst ≠ Config.packageId then .next (s.transmit p)
  else if s.isLate p then
    if s.queueFull p || s.putWaits p then .next s
    else
      let s := s.fabricFault 4 port p.src p.stamp
      if s.lateDrop then .next (if p.op = 5 then s else s.answer p 4 7 []) else .next (s.perform p true)
  else .next { s with odb := insertPacket p s.odb }

/-- The largest stamp of a step's markers, once all have been delivered (R434). -/
def State.stepStamp (s : State) (l : Nat) (x : CutStep) : Option Nat :=
  match x.group with
  | none => none
  | some ps =>
    let ms := s.markersOf (s.partOf l) x.step
    if ps.all fun p => ms.any fun m => m.1 == p then some (ms.foldl (fun t m => max t m.2) 0) else none

/-- Whether delivery of a stamp waits until an open step's cut is taken (R434). -/
def State.heldByCut (s : State) (stamp : Nat) : Bool :=
  s.launches.any fun x => match x.2 with
    | some y => !y.reported && y.cutSteps.any fun c => !c.taken && (match s.stepStamp x.1 c with
      | some t => decide (t < stamp)
      | none => false)
    | none => false

/-- ORDERED_DELIVERY (R430): the packet of the lowest key is delivered once the frontier is past its stamp, every
earlier one has been performed, its queue has room, its lines can be pinned (R329), and no cut holds it. -/
def execOrderedDelivery (s : State) : Out :=
  match s.odb with
  | [] => .next s
  | p :: rest =>
    if s.frontier ≤ p.stamp || (s.waitPkts.any fun w => w.1.ordered) || s.queueFull p || s.putWaits p || s.heldByCut p.stamp then
      .next s
    else .next (({ s with odb := rest, delivered := some p.key } : State).perform p false)

/-- UNORDERED_ARRIVAL (R430): admitted and performed on arrival, or passed on, as a sealing exchange between other packages
is; a message for a full queue waits, and so does a put whose lines cannot be pinned (R329, R431). -/
def execUnorderedArrival (p : Packet) (s : State) : Out :=
  if p.op = 6 && !p.ordered && p.src ≠ Config.packageId && p.dst ≠ Config.packageId then .next (s.transmit p)
  else if p.ordered || !p.isRequest || (p.dst == Config.packageId && (s.queueFull p || s.putWaits p)) then .next s
  else if p.src = Config.packageId && !s.loopIn.contains p then .next s
  else
    let s := { s with loopIn := s.loopIn.erase p }
    if p.dst ≠ Config.packageId then .next (s.transmit p) else .next (s.perform p false)

/-! ### Answers to target faults (R424) -/

/-- Perform again the packets that waited for a token. -/
def State.retryPackets (s : State) (tok : Nat) : State :=
  let mine := s.waitPkts.filter fun w => w.2 == tok && w.1.isRequest
  let s := { s with waitPkts := s.waitPkts.filter fun w => !(w.2 == tok && w.1.isRequest) }
  mine.foldl (fun s w => s.perform { w.1 with status := 0 } (w.1.status == 7)) s

/-- A final refusal is returned as the status of R333. -/
def State.refusePackets (s : State) (tok : Nat) (st : BitVec 8) : State :=
  let mine := s.waitPkts.filter fun w => w.2 == tok && w.1.isRequest
  let s := { s with waitPkts := s.waitPkts.filter fun w => !(w.2 == tok && w.1.isRequest) }
  mine.foldl (fun s w => s.answer w.1 4 st []) s

end Sys2Proof.Machine
end

