-- ==== Sys2Proof/Machine/FabricUnit.lean ====
section
/-! DEFINITION. The FAB instructions (R435 to R442) and a die's fabric engine (R425, R426, R436): the events
FABRIC_PACKET_SEND and FABRIC_ACK. -/

namespace Sys2Proof.Machine

/-! ### Appending (R425, R436) -/

/-- The checks of R436 on the space and the length of a transfer. -/
def fabForm (ramp : Bool) (sp : BitVec 3) (len : Nat) : Option Trap :=
  if 4 ≤ sp.toNat || sp = 2 || (ramp && sp = 1) then some (illegal 0)
  else if len = 0 then some (illegal 0)
  else none

/-- The checks of R436 on the space, the length and the range of the own side of a transfer. -/
def fabTrap (ramp : Bool) (sp : BitVec 3) (v : DWord) (len pos : Nat) : Option Trap :=
  (fabForm ramp sp len).or <| (spaceTrap (sp.setWidth 2) v len pos).or (spaceFormat (sp.setWidth 2) v)

/-- Whether the issuing core's fabric engine cannot take a command now: it runs 256, or the handle or the command's own
lines wait for earlier work (R18, R205, R425). -/
def State.fabBusy (s : State) (d : BitVec 3) (sp : BitVec 3) (v : DWord) (len : Nat) : Bool :=
  (s.me.hreg d).fill == .pending || 256 ≤ (s.die s.cur.die).fab.length
    || (sp == 0 && s.me.vecTouchesLocal v.toNat len)

/-- Append a command to the die's fabric engine; the superstep is non-replayable (R425, R442). -/
def State.appendFab (s : State) (c : FabCmd) : State :=
  let d := s.cur.die
  let n := (s.die d).fabNext
  (s.modDie d fun x =>
    { x with fabNext := (n + 1) % 2 ^ 32, fab := x.fab ++ [{ c with seq := n }],
             fabAppenders := x.fabAppenders ++ [s.cur] }).nonReplay s.cur

/-- A command of the issuing core, not yet numbered. -/
def State.newFab (s : State) (kind : BitVec 3) (h : Option (BitVec 3)) (inb : Bool) : FabCmd :=
  { seq := 0, core := s.cur, launch := s.launchIx s.cur, h := h, inb := inb, kind := kind, ordered := false, sp := 0,
    src := 0, peer := 0, len := 0, tag := 0, value := 0, taint := false, dataTaint := false, hTaint := false,
    stamp := none, sent := false, token := none, unacked := 0, statuses := [], status := none, begun := false, data := none,
    parts := [], done := 0, halted := false, ring := s.ringLoad s.cur }

/-- Append a command with a handle: hD is marked empty, and INB adds one to OWED. -/
def State.issueFab (s : State) (d : BitVec 3) (c : FabCmd) : Res :=
  .done ((s.appendFab c).modMe fun k => { k.pendH d with owed := if c.inb then k.owed + 1 else k.owed })

/-- FPUT (R436, R437). -/
def execFput (o : FputO) (s : State) : Out :=
  unit (len2 o.q) o.q (fun s => s.me.needPast [.g o.a o.ta, .g o.b o.tb]
    [([], fabForm s.cur.isRamp o.sp o.len.toNat), ([.g o.a o.ta], fabTrap s.cur.isRamp o.sp (s.me.gv o.a) o.len.toNat 1)]
    (let k := s.me
     let v := k.gv o.a
     let n := o.len.toNat
     match fabTrap s.cur.isRamp o.sp v n 1 with
     | some t => .trap t
     | none =>
       if s.fabBusy o.d o.sp v n then .wait
       else
         let t := k.gt o.a || k.gt o.b || k.ct
         s.issueFab o.d { s.newFab 0 (some o.d) o.inb with
           ordered := o.ord, sp := o.sp, src := v, peer := k.gv o.b, len := n, taint := t, dataTaint := t })) s

/-- FGET (R436, R437). -/
def execFget (o : FgetO) (s : State) : Out :=
  unit (len2 o.q) o.q (fun s => s.me.needPast [.g o.a o.ta, .g o.b o.tb]
    [([], fabForm s.cur.isRamp o.sp o.len.toNat), ([.g o.b o.tb], fabTrap s.cur.isRamp o.sp (s.me.gv o.b) o.len.toNat 2)]
    (let k := s.me
     let v := k.gv o.b
     let n := o.len.toNat
     match fabTrap s.cur.isRamp o.sp v n 2 with
     | some t => .trap t
     | none =>
       if s.fabBusy o.d o.sp v n then .wait
       else
         let t := k.gt o.a || k.gt o.b || k.ct
         s.issueFab o.d { s.newFab 1 (some o.d) o.inb with
           sp := o.sp, src := v, peer := k.gv o.a, len := n, taint := t, dataTaint := t })) s

/-- The check of a message's peer address: its offset is 0 (R438). -/
def sendTrap (p : DWord) : Option Trap := if p.toNat % 2 ^ 36 ≠ 0 then some (illegal 1) else none

/-- FSEND (R438). -/
def execFsend (o : FsendO) (s : State) : Out :=
  unit (len2 o.q) o.q (fun s => s.me.needPast [.g o.a o.ta, .g o.b o.tb] [([.g o.a o.ta], sendTrap (s.me.gv o.a))]
    (let k := s.me
     let p := k.gv o.a
     if let some t := sendTrap p then .trap t
     else if s.fabBusy o.d 1 0 0 then .wait
     else
       s.issueFab o.d { s.newFab 2 (some o.d) o.inb with
         ordered := o.ord, peer := p, len := 16, tag := o.tag, value := k.gv o.b
         taint := k.gt o.a || k.gt o.b || k.ct, dataTaint := k.gt o.a || k.gt o.b || k.ct })) s

/-- FCUT (R439): the marker broadcast is handed to the fabric engine; a second fcut with the same step from the gang, the
copies of a redundant gang being one, has no effect. -/
def execFcut (o : FcutO) (s : State) : Out :=
  unit (len2 o.q) o.q (fun s => s.me.needPast [.g o.a o.ta, .g o.b o.tb]
    [([.g o.a o.ta], if s.me.gv o.a = 0 then some (illegal 1) else none)]
    (let k := s.me
     let n := k.gv o.a
     let l := s.launchIx s.cur
     if n = 0 then .trap (illegal 1)
     else if let some t := nullTrap (k.gv o.b) then .trap t
     else if (s.launch l).cutSteps.any fun x => x.step == n && x.gang == (s.launch l).primaryOf k.gang then
       .done (s.nonReplay s.cur)
     else if 256 ≤ (s.die s.cur.die).fab.length then .wait
     else
       let x : CutStep :=
         { step := n, gang := (s.launch l).primaryOf k.gang, core := s.cur, group := none, taken := false }
       .done ((s.modLaunch l fun y => { y with cutSteps := y.cutSteps ++ [x] }).appendFab
         { s.newFab 3 none false with
           ordered := true, peer := k.gv o.b, value := n, src := k.pc.setWidth 64 }))) s

/-! ### Messages (R438, R442) -/

/-- Whether some window that feeds a queue admits more than one source package. -/
def State.openQueue (s : State) (d : BitVec 4) (q : Nat) : Bool :=
  s.windows.any fun x => match x.2 with
    | some w => w.valid && w.isQueue && w.die == d && w.queue.toNat == q && w.srcLo != w.srcHi
    | none => false

/-- Whether the messages that a queue has received in the dequeuing gang's superstep, up to the oldest it holds, came
from more than one package. -/
def State.manySources (s : State) (d : BitVec 4) (q : Nat) : Bool :=
  let all := Tab.get [] (s.die d).rqSources q
  let upTo := all.length - (s.rqOf d q).length + 1
  let mark := Tab.get 0 (s.gangOf s.cur).rqMark (d.toNat * 64 + q)
  1 < ((all.take upTo).drop mark).eraseDups.length

/-- Write the pair that frecv gives. -/
def Core.recvPair (k : Core) (d b : BitVec 5) (w v : DWord) (tw tv : Bool) : Core := (k.writeG d w tw).writeG b v tv

/-- FRECV (R438): the oldest message of the queue; an ordered one acquires the ordered writes delivered before it. -/
def execFrecv (o : FrecvO) (s : State) : Out :=
  unit (len2 o.q) o.q (fun s =>
    let k := s.me
    let d := s.cur.die
    let q := o.queue.toNat
    if o.d = o.b && o.d ≠ 0 then .trap (illegal 2)
    else if (k.greg o.d).fill = .pending || (k.greg o.b).fill = .pending then .wait
    else match s.rqOf d q with
    | [] =>
      if o.nb then .done ((s.nonReplay s.cur).modMe fun k => k.recvPair o.d o.b 0 0 true true)
      else if s.aborted s.cur then .trap (abortTrap 3) else .wait
    | m :: rest =>
      let t := m.late || s.openQueue d q || s.manySources d q
      let w : DWord := BitVec.ofNat 64 (m.src.toNat * 2 ^ 44 + m.late.toNat * 2 ^ 43 + m.ordered.toNat * 2 ^ 42
        + m.tag.toNat)
      let s := s.modDie d fun x => { x with rq := Tab.put [] x.rq q rest }
      let s := if m.ordered then s.acquireHbm s.cur 4 else s
      .done ((s.nonReplay s.cur).modMe fun k => k.recvPair o.d o.b w m.value t (t || m.taint))) s

/-! ### Windows, policy and port status (R440) -/

/-- PRIVILEGE with the word as value (R435). -/
def privilegeWord (s : State) : Trap := ⟨.privilege, s.me.uw0.setWidth 64⟩

/-- Decode a window record: none where it breaks R423. -/
def windowRec (bs : List Byte) (part : BitVec 4) : Option Window :=
  let f (a n : Nat) : Nat := numAt' bs a n
  let b := f 16 2
  let isQ := b.testBit 8
  if 2 ^ 56 ≤ f 0 8 || f 0 8 % 4096 ≠ 0 || f 8 8 % 4096 ≠ 0 || (isQ && f 8 8 ≠ 0) || 512 ≤ b || 16 ≤ f 18 1
      || 64 ≤ f 19 1 || 2 ^ 20 ≤ f 20 4 || 2 ^ 20 ≤ f 24 4 || 16 ≤ f 28 1 || f 29 3 ≠ 0 then none
  else some
    { part := part, base := f 0 8, len := f 8 8, vf := BitVec.ofNat 5 b, valid := b.testBit 5, r := b.testBit 6
      w := b.testBit 7, isQueue := isQ, die := BitVec.ofNat 4 (f 18 1), queue := BitVec.ofNat 6 (f 19 1)
      srcLo := BitVec.ofNat 20 (f 20 4), srcHi := BitVec.ofNat 20 (f 24 4), spart := BitVec.ofNat 4 (f 28 1) }
where
  /-- A number in n bytes from byte a. -/
  numAt' (bs : List Byte) (a n : Nat) : Nat := natOfBytes ((bs.drop a).take n)

/-- FWIN (R440): its checks in their order, then the window is replaced, claimed for the partition. -/
def execFwin (o : FwinO) (s : State) : Out :=
  unit (len2 o.q) o.q (fun s =>
    if !s.privileged s.cur then .trap (privilegeWord s)
    else s.me.need [.g o.a o.ta]
      (let a := (s.me.gv o.a).toNat
       let part := s.partOf (s.launchIx s.cur)
       if a % 32 ≠ 0 then .trap (alignTrap a)
       else if 0x7FE0 < a then .trap (illegal 1)
       else if s.me.vecTouchesLocal a 32 then .wait
       else match s.readLocal s.cur a 32 with
         | .error t => .trap t
         | .ok (bs, s) =>
           let foreign : Bool := match s.window o.window with
             | some w => w.part != part
             | none => false
           match windowRec (bs.map Prod.fst) part with
           | none => .trap (illegal 1)
           | some w =>
             if anyTaint bs || foreign then .trap (illegal 1)
             else .done (({ s with windows := Tab.put none s.windows o.window.toNat (some w) } : State).nonReplay
               s.cur))) s

/-- A form of fctl: level 1 only, its operand read (R435, R440). -/
def fctl (o : FctlO) (f : State → DWord → Res) (s : State) : Out :=
  unit (len2 o.q) o.q (fun s =>
    if !s.privileged s.cur then .trap (privilegeWord s)
    else s.me.need [.g o.a o.ta] (f s (s.me.gv o.a))) s

/-- FCTL_POLICY (R433, R440): bit 0 AUTOEX, bit 1 LATEDROP. -/
def execFctlPolicy (o : FctlO) (s : State) : Out :=
  fctl o (fun s v =>
    if 4 ≤ v.toNat then .trap (illegal 1)
    else .done ({ s.nonReplay s.cur with autoEx := v.getLsbD 0, lateDrop := v.getLsbD 1 })) s

/-- FCTL_EXCISE (R433, R440). -/
def execFctlExcise (o : FctlO) (s : State) : Out :=
  fctl o (fun s _ => .done ((s.nonReplay s.cur).modFport o.port fun x => { x with state := .excised })) s

/-- FCTL_READMIT (R433, R440). -/
def execFctlReadmit (o : FctlO) (s : State) : Out :=
  fctl o (fun s _ => .done ((s.nonReplay s.cur).readmit o.port)) s

/-- Code of a port's state (R440). -/
def PortState.code : PortState → Nat
  | .down => 0 | .training => 1 | .up => 2 | .excised => 3 | .stalled => 4

/-- The status word of a port: AGE is 0 until a milestone has been received (R440). -/
def State.portStatus (s : State) (port : BitVec 3) : DWord :=
  let x := s.fport port
  let age := match x.advancedAt with
    | some t => min (2 ^ 32 - 1) (s.ftime - t)
    | none => 0
  BitVec.ofNat 64 (age * 2 ^ 32 + x.nbr.toNat * 2 ^ 12 + x.state.code)

/-- FPSTAT (R440): tainted. -/
def execFpstat (o : FpstO) (s : State) : Out :=
  unit (len2 o.q) o.q (fun s => (s.nonReplay s.cur).toG o.d (s.portStatus o.port) true) s

/-! ### The end of a command (R425, R436, R442) -/

/-- The status of a command, from those of its packets (R436). -/
def fabStatus (xs : List (BitVec 8)) : BitVec 8 :=
  if xs.contains 6 then 6 else if xs.contains 3 then 3 else if xs.contains 4 then 4 else if xs.contains 7 then 7 else 0

/-- Whether more than one agent has appended to a die's engine in a gang's current superstep (R442). -/
def State.fabShared (s : State) (d : BitVec 4) (c : FabCmd) : Bool :=
  let mark := Tab.get 0 ((s.launch c.launch).gang (s.core c.core).gang).fabMark d.toNat
  1 < ((s.die d).fabAppenders.drop mark).eraseDups.length

/-- A command ends: its handle fills, if its core still belongs to the launch. -/
def State.endFab (s : State) (d : BitVec 4) (c : FabCmd) (st : BitVec 8) : State :=
  if (s.core c.core).launch = some c.launch then
    s.completeHandle c.core c.h c.inb (handleWord 5 d.toNat c.seq st.toNat 0)
      (c.taint || c.hTaint || st = 7 || s.fabShared d c)
  else s

/-- Fill the handles of the oldest commands of a die that have ended, in sequence order; at most n. -/
def State.drainFab (s : State) (d : BitVec 4) : Nat → State
  | 0 => s
  | n + 1 =>
    match (s.die d).fab with
    | [] => s
    | c :: rest =>
      match c.status with
      | none => s
      | some st => ((s.modDie d fun x => { x with fab := rest }).endFab d c st).drainFab d n

/-- Change the command of a die with a sequence number. -/
def State.modFab (s : State) (d : BitVec 4) (seq : Nat) (f : FabCmd → FabCmd) : State :=
  s.modDie d fun x => { x with fab := x.fab.map fun c => if c.seq = seq then f c else c }

/-- A command ends with a status, and every handle that may fill does. -/
def State.finishFab (s : State) (d : BitVec 4) (seq : Nat) (st : BitVec 8) : State :=
  (s.modFab d seq fun c => { c with status := some st, token := none }).drainFab d 256

/-! ### Writing get data (R186, R437) -/

/-- Where a get's data goes: the address of its first byte. -/
def FabCmd.base (c : FabCmd) : Nat := if c.sp = 3 then vaOf c.src else c.src.toNat

/-- The byte at an offset of a get's data, once it has arrived. -/
def FabCmd.arrived (c : FabCmd) (i : Nat) : Option (Byte × Bool) :=
  c.parts.findSome? fun x => if x.1 ≤ i then x.2[i - x.1]? else none

/-- The next unit of a get that can be written: its destination and its bytes, all of which have arrived; the units ascend
(R186, R437). -/
def FabCmd.unit (c : FabCmd) : Option (Nat × TBytes) :=
  let a := c.base + c.done
  let n := min (64 - a % 64) (c.len - c.done)
  if c.halted || n = 0 then none
  else (allSome ((List.range n).map fun i => c.arrived (c.done + i))).map fun bs => (a, bs)

/-- A command of a die that has no more to wait for ends with the status of its packets. -/
def State.settleFab (s : State) (d : BitVec 4) (seq : Nat) : State :=
  match (s.die d).fab.find? fun c => c.seq == seq && c.sent && c.status.isNone with
  | some c => if c.unacked = 0 && c.token.isNone && c.unit.isNone then s.finishFab d seq (fabStatus c.statuses) else s
  | none => s

/-- Write one unit of get data for the task that asked for it (R186, R352): an error stops the command's later units, a
translation fault holds it. -/
def State.storeUnit (s : State) (d : BitVec 4) (c : FabCmd) (a : Nat) (bs : TBytes) : State :=
  let next (s : State) : State := s.modFab d c.seq fun x => { x with done := x.done + bs.length }
  let stop (s : State) : State := s.modFab d c.seq fun x => { x with halted := true, statuses := x.statuses ++ [4] }
  let own := s.ringLoad c.core
  if c.sp = 3 then
    match (s.setRing c.core c.ring).hbmWritePart c.launch c.core none a bs with
    | .ok t => next (t.setRing c.core own)
    | .bad => stop s
    | .fault e =>
      let (s, tok) := s.newFault (.fabric d) c.launch a e 1 false
      s.modFab d c.seq fun x => { x with token := some tok }
  else if (s.badPartial (copyFlat c.core (c.sp.setWidth 2) a) bs.length).isSome then stop s
  else next (s.forTask c.core c.ring fun s =>
    if c.sp = 0 then s.writeLocal c.core c.core a bs else s.writeYard c.core c.core.cluster a bs)

/-- Whether a unit of get data waits for a line that it cannot pin now (R329). -/
def State.unitWaits (s : State) (d : BitVec 4) (c : FabCmd) (a : Nat) : Bool :=
  c.sp == 3 && !(s.launch c.launch).rcd.red && match s.xlate c.launch a 1 with
    | .ok pa => !s.linesFree d [pa]
    | .error _ => false

/-- Write the units of a get that have arrived, in ascending order; n at most. -/
def State.storeUnits (s : State) (d : BitVec 4) (seq : Nat) : Nat → State
  | 0 => s
  | n + 1 =>
    match (s.die d).fab.find? fun c => c.seq == seq && c.sent && c.status.isNone && c.token.isNone with
    | none => s
    | some c => match c.unit with
      | none => s
      | some (a, bs) => if s.unitWaits d c a then s else (s.storeUnit d c a bs).storeUnits d seq n

/-- Write what can be written of a get, and end it if that was all. -/
def State.storeGet (s : State) (d : BitVec 4) (seq len : Nat) : State :=
  (s.storeUnits d seq (len / 64 + 2)).settleFab d seq

/-- Every get of a die that waited for a line goes on if it can (R329). -/
def State.storeGets (s : State) (d : BitVec 4) : State :=
  ((s.die d).fab.filter fun c => c.sent && c.kind == 1).foldl (fun s c => s.storeGet d c.seq c.len) s

/-! ### FABRIC_PACKET_SEND (R426, R434, R437 to R439) -/

/-- Whether an ordered command must wait for the cut of a step that its launch named before it (R434). -/
def State.stepBlocks (s : State) (d : BitVec 4) (c : FabCmd) : Bool :=
  let later (x : CutStep) : Bool := (s.die d).fab.any fun y => y.kind == 3 && y.value == x.step && c.seq < y.seq
  (s.launch c.launch).cutSteps.any fun x => !x.taken && !later x

/-- Whether a command of a die may be injected now: its ordered commands go in append order (R426), and those of a launch
after its fcut wait for its cut (R434). -/
def State.fabReady (s : State) (d : BitVec 4) (c : FabCmd) : Bool :=
  let waiting (x : FabCmd) : Bool := !x.sent && x.status.isNone
  let before := (s.die d).fab.takeWhile fun x => x.seq != c.seq
  waiting c && c.token.isNone
    && (!c.ordered || ((before.all fun x => !(waiting x && x.ordered))
      && (c.kind == 3 || !s.stepBlocks d c)))

/-- The packet that a command's packets are made from. -/
def State.fabPacket (s : State) (d : BitVec 4) (c : FabCmd) : Packet :=
  { stamp := 0, src := Config.packageId, dst := c.peer.extractLsb' 44 20, sseq := 0, ordered := c.ordered, op := 0
    spart := s.partOf c.launch, window := c.peer.extractLsb' 36 8, offset := c.peer.extractLsb' 0 36, len := 0
    tag := c.tag, seq := BitVec.ofNat 64 c.seq, status := 0, agent := d.toNat, issuer := coreNum c.core, data := [] }

/-- Stamp and inject packets of one command: an ordered command's share the fabric time and take consecutive SSEQ
values (R426). -/
def State.inject' (s : State) (d : BitVec 4) (ordered : Bool) (ps : List Packet) : State :=
  if ordered then
    let t := s.ftime
    let n := (s.die d).ordCount
    let s := s.modDie d fun x => { x with ordCount := x.ordCount + ps.length }
    ((List.range ps.length).zip ps).foldl (fun s x =>
      s.transmit { x.2 with stamp := t, sseq := BitVec.ofNat 16 (d.toNat * 4096 + (n + x.1) % 4096) }) s
  else ps.foldl State.transmit s

/-- The packets of a command's data, at rising offsets. -/
def dataPackets (p : Packet) (bs : TBytes) : List Packet :=
  (packetParts bs.length).map fun x =>
    { p with offset := p.offset + BitVec.ofNat 36 x.1, len := x.2, data := (bs.drop x.1).take x.2 }

/-- Read a command's source (R437). -/
def State.fabRead (s : State) (c : FabCmd) : HRes :=
  if c.sp = 3 then s.hbmRead c.launch c.core (vaOf c.src) c.len
  else
    let a := copyFlat c.core (c.sp.setWidth 2) c.src.toNat
    match s.bad a c.len with
    | some _ => .bad 0 s
    | none => let (bs, s) := s.readT c.core a c.len 0; .ok bs s

/-- A command's packets have left: its answers are counted. -/
def State.fabSent (s : State) (d : BitVec 4) (c : FabCmd) (ps : List Packet) : State :=
  if (s.hasRoute (c.peer.extractLsb' 44 20)) then
    (s.inject' d c.ordered ps).modFab d c.seq fun x => { x with sent := true, unacked := ps.length, stamp := some s.ftime }
  else s.finishFab d c.seq 6

/-- End a launch for a bad group record or a fifth step (R439). -/
def State.killCut (s : State) (c : FabCmd) : State :=
  let p : Park := { cause := .illegalOperand, value := 2, pc := c.src.setWidth 32, w0 := 0, w1 := 0
                    seqn := (s.core c.core).seqn, second := false }
  s.endLaunch c.launch 1 (some (c.core, p))

/-- The participants that a group record names: none where it breaks R434. -/
def groupOf (n : Nat) (bs : TBytes) : Option (List (BitVec 20)) :=
  let ps := (List.range n).map fun i => BitVec.ofNat 20 (valOf ((bs.drop (4 * i)).take 4))
  if ps.contains Config.packageId then some ps.eraseDups else none

/-- Broadcast a marker once the group record has been read (R434, R439, R444). -/
def State.fabCut (s : State) (d : BitVec 4) (c : FabCmd) : State :=
  let l := c.launch
  let bad (s : State) : State := (s.killCut c).finishFab d c.seq 0
  let read (s : State) (a n : Nat) : HRes := s.hbmRead l c.core a n
  let held (s : State) (e : XErr) (va : Nat) : State :=
    let (s, tok) := s.newFault (.fabric d) l va e 0 false
    s.modFab d c.seq fun x => { x with token := some tok }
  if 4 < (((s.launch l).cutSteps.filter fun x => !x.taken).map (·.step)).eraseDups.length then bad s
  else match read s (vaOf c.peer) 8 with
  | .fault e va => held s e va
  | .bad _ s => bad s
  | .ok hd s =>
    let n := valOf hd
    if n = 0 || 1048576 < n then bad s
    else match read s (vaOf c.peer + 8) (4 * n) with
    | .fault e va => held s e va
    | .bad _ s => bad s
    | .ok bs s =>
      match groupOf n bs with
      | none => bad s
      | some ps =>
        let s := s.modLaunch l fun x => { x with cutSteps := x.cutSteps.map fun y =>
          if y.step = c.value && y.core = c.core then { y with group := some ps } else y }
        let p := { s.fabPacket d c with op := 5, seq := c.value, window := 0, offset := 0 }
        (s.inject' d true (ps.map fun q => { p with dst := q })).finishFab d c.seq 0

/-- The data of a put or a message leaves the engine: a redundant copy's is held, its command done, until the copies of
the superstep agree (R386; log entry 24). -/
def State.sendData (s : State) (d : BitVec 4) (c : FabCmd) (bs : TBytes) : State :=
  if (s.launch c.launch).rcd.red && c.data.isNone then
    (s.holdWrite c.core { core := c.core, pc := none, va := 2 ^ 61 + c.peer.toNat, bytes := bs, atomic := none,
                          peer := some c, host := none }).finishFab d c.seq 0
  else
    let p := s.fabPacket d c
    s.fabSent d c (if c.kind = 0 then dataPackets p bs else [{ p with op := 3, len := 16, data := bs }])

/-- FABRIC_PACKET_SEND (R426): the first command of the die's engine that may be injected sends its packets. -/
def execFabricPacketSend (die : BitVec 4) (s : State) : Out :=
  let s := (s.drainFab die 256).storeGets die
  match (s.die die).fab.find? (s.fabReady die) with
  | none => .next s
  | some c =>
    match c.data, c.kind.toNat with
    | some bs, _ => .next (s.sendData die c bs)
    | none, 0 =>
      match s.fabRead c with
      | .fault e va =>
        let (s, tok) := s.newFault (.fabric die) c.launch va e 0 false
        .next (s.modFab die c.seq fun x => { x with token := some tok, begun := true })
      | .bad _ s => .next (s.finishFab die c.seq 4)
      | .ok bs s => .next (s.sendData die c (addTaint c.dataTaint bs))
    | none, 1 =>
      let p := s.fabPacket die c
      .next (s.fabSent die c ((packetParts c.len).map fun x =>
        { p with op := 1, offset := p.offset + BitVec.ofNat 36 x.1, len := x.2 }))
    | none, 2 =>
      .next (s.sendData die c (bytesOf 8 c.tag.toNat c.dataTaint ++ bytesOf 8 c.value.toNat c.dataTaint))
    | none, _ => .next (s.fabCut die c)

/-! ### FABRIC_ACK (R436, R437) -/

/-- One packet of a command has been answered: its status counts, and with the last the command ends. -/
def State.countAnswer (s : State) (d : BitVec 4) (seq : Nat) (st : BitVec 8) : State :=
  (s.modFab d seq fun c => { c with unacked := c.unacked - 1, statuses := c.statuses ++ [st] }).settleFab d seq

/-- Take an answer to a command of a die: get data is kept until its units can be written. -/
def State.takeAnswer (s : State) (p : Packet) : State :=
  let d := BitVec.ofNat 4 p.agent
  let seq := p.seq.toNat
  match (s.die d).fab.find? fun c => c.seq == seq && c.sent && c.status.isNone with
  | none => s
  | some c =>
    if p.op = 2 && p.status = 0 && (s.core c.core).launch = some c.launch then
      let i := (p.offset - c.peer.extractLsb' 0 36).toNat
      let bs := addTaint c.dataTaint (wordTaint p.data)
      (s.modFab d seq fun c => { c with unacked := c.unacked - 1, parts := c.parts ++ [(i, bs)] }).storeGet d seq c.len
    else s.countAnswer d seq p.status

/-- Take an answer to a packet of a cast: any status but DONE abandons it (R412). -/
def State.castAnswer (s : State) (p : Packet) : State :=
  let n := BitVec.ofNat 4 (p.agent - 16)
  match (s.part n).bind (·.cast) with
  | none => s
  | some k =>
    if k.seq % 2 ^ 32 ≠ p.seq.toNat then s
    else if p.status ≠ 0 then s.endCast n k p.status.toNat
    else s.modPart n fun x => { x with cast := some { k with unacked := k.unacked - 1 } }

/-- FABRIC_ACK (R436): an acknowledgement or get data arrives at its source. -/
def execFabricAck (p : Packet) (s : State) : Out :=
  if !(p.op == 2 || p.op == 4) then .next s
  else if p.dst ≠ Config.packageId then .next (s.transmit p)
  else if p.src = Config.packageId && !s.loopIn.contains p then .next s
  else
    let s := { s with loopIn := s.loopIn.erase p }
    if p.agent < 16 then .next (s.takeAnswer p) else .next (s.castAnswer p)

/-! ### Answers to the engine's own faults (R335) -/

/-- Retry for a die's fabric engine: a held command goes on, and so does a get whose unit was held. -/
def State.retryFab (s : State) (d : BitVec 4) (tok : Nat) : State :=
  let held := (s.die d).fab.find? fun c => c.token == some tok
  let s := s.modDie d fun x =>
    { x with fab := x.fab.map fun c => if c.token = some tok then { c with token := none } else c }
  match held with
  | some c => if c.sent then s.storeGet d c.seq c.len else s
  | none => s

/-- Final refusal for a die's fabric engine: the command ends with the status; a group record that cannot be read breaks
R434. -/
def State.refuseFab (s : State) (d : BitVec 4) (tok : Nat) (st : BitVec 8) : State :=
  match (s.die d).fab.find? fun c => c.token == some tok with
  | some c => (if c.kind = 3 then s.killCut c else s).finishFab d c.seq (if c.kind = 3 then 0 else st)
  | none => s

end Sys2Proof.Machine
end

