-- ==== Sys2Proof/Machine/Cast.lean ====
section
/-! DEFINITION. The PKG instructions (R412), the pour engine that drains a cast (R410, R412, R413), and the reports
that attest (R406): the events COW_PRECOPY, POUR_DRAIN and CAST_COMPLETE. -/

namespace Sys2Proof.Machine

/-! ### PCAST (R412) -/

/-- Decode a cast descriptor: none where a field breaks its limits; the package field of DESTVA is 0, the target package
standing in DESTPKG (R412, R424). -/
def castDesc (bs : List Byte) : Except Trap Cast :=
  let f (a n : Nat) : Nat := natOfBytes ((bs.drop a).take n)
  let rp := BitVec.ofNat 64 (f 0 8)
  let sp := BitVec.ofNat 64 (f 40 8)
  let n := f 8 2
  let size := f 48 8
  if vaOf rp % 16 ≠ 0 || n = 0 || 1024 < n || 2 ^ 56 < vaOf rp + 16 * n || f 10 2 ≠ 0
      || 2 ^ 20 ≤ f 12 4 || f 16 8 % 4096 ≠ 0 || 2 ^ 44 ≤ f 16 8 || vaOf sp % 4096 ≠ 0 || size % 4096 ≠ 0
      || size < 65536 || f 56 8 ≠ 0 then .error (illegal 1)
  else match (nullTrap rp).or (nullTrap sp) with
  | some t => .error t
  | none => .ok
    { core := .ord 0 0 0, launch := 0, gang := 0, h := 0, inb := false, seq := 0, taint := false, ranges := vaOf rp
      nrange := n, destPkg := BitVec.ofNat 20 (f 12 4), destVa := f 16 8, cutStep := BitVec.ofNat 64 (f 24 8)
      tag := BitVec.ofNat 64 (f 32 8), stage := vaOf sp, stageSize := size, cut := false, c := 0, sstep := 0
      table := [], marked := [], late := [], staged := [], tsk := 0, pmr := 0, next := 0, offset := 0, unacked := 0
      drained := false }

/-- The next sequence number of the PKG commands of a launch, for the issuing core's gang. -/
def State.nextPkg (s : State) (l : Nat) : Nat × State :=
  ((s.launch l).pkgCount, s.modLaunch l fun x =>
    ({ x with pkgCount := x.pkgCount + 1 } : Launch).modGang s.me.gang fun y => { y with pkgIssued := y.pkgIssued + 1 })

/-- Mark hD empty for a PKG command; INB adds one to OWED. -/
def State.pendPkg (s : State) (d : BitVec 3) (inb : Bool) : State :=
  s.modMe fun k => { k.pendH d with owed := if inb then k.owed + 1 else k.owed }

/-- Whether a partition has a cast in flight or a restore running. -/
def State.castBusy (s : State) (p : BitVec 4) : Bool := match s.part p with
  | some x => x.cast.isSome || x.restoring.isSome
  | none => false

/-- Hand a cast to the pour engine: with a cast in flight it is CANCELLED, without a sealing key refused. -/
def State.startCast (s : State) (k : Cast) : State :=
  let l := s.launchIx s.cur
  let p := s.partOf l
  let (n, s) := s.nextPkg l
  let k : Cast := { k with core := s.cur, launch := l, gang := s.me.gang, seq := n }
  let s := s.pendPkg k.h k.inb
  let now (st : Nat) : State := s.completeHandle k.core (some k.h) k.inb (pkgHandle p 0 n st) k.taint
  if s.castBusy p then now 2
  else if ((s.part p).bind (·.tsk)).isNone then now 6
  else s.modPart p fun x => { x with cast := some k }

/-- PCAST (R412): the descriptor is checked at issue. -/
def execPcast (o : XHA) (s : State) : Out :=
  unit (len2 o.q) o.q (fun s => s.me.need [.g o.a o.ta]
    (let k := s.me
     let a := (k.gv o.a).toNat
     if a % 64 ≠ 0 then .trap (alignTrap a)
     else if 0x7FC0 < a then .trap (illegal 1)
     else if (k.hreg o.d).fill = .pending || k.vecTouchesLocal a 64 then .wait
     else match s.readLocal s.cur a 64 with
       | .error t => .trap t
       | .ok (bs, s) =>
         if anyTaint bs || k.ct then .trap (illegal 1)
         else match castDesc (bs.map Prod.fst) with
         | .error t => .trap t
         | .ok x => .done (s.startCast { x with h := o.d, inb := o.inb, taint := k.gt o.a }))) s

/-- PCTR (R412): tainted. -/
def execPctr (o : XD) (s : State) : Out :=
  unit (len2 o.q) o.q (fun s => s.toG o.d (Tab.get 0 s.counters (s.partOf (s.launchIx s.cur)).toNat) true) s

/-! ### PQUOTE (R406, R412) -/

/-- Bytes 0 to 255 of a report. -/
def State.reportBody (s : State) (p : BitVec 4) (nonce : List Byte) : List Byte :=
  nonce ++ bytesOfNat 64 (((s.part p).map fun (x : Part) => x.pmr).getD 0).toNat ++ bytesOfNat 64 s.pmrPlat.toNat
    ++ bytesOfNat 8 (Tab.get 0 s.counters p.toNat).toNat
    ++ bytesOfNat 4 (Config.packageId.toNat + p.toNat * 2 ^ 20) ++ List.replicate 52 0

/-- An attestation report: 512 bytes, signed over SHA-512 of its first 256. -/
def State.report (s : State) (p : BitVec 4) (nonce : List Byte) : List Byte :=
  let body := s.reportBody p nonce
  body ++ bytesOfNat 132 (Config.signature (sha512 body)).toNat ++ List.replicate 124 0

/-- Produce a report over the nonce in the issuing core's yard: its status, and the yard written. -/
def State.quote (s : State) (a : Nat) : State × Nat :=
  let c := s.cur
  match s.readYard c a 64 with
  | .error _ => (s, 4)
  | .ok (bs, s) =>
    if !s.attests then (s, 6)
    else
      let rep := s.report (s.partOf (s.launchIx c)) (bs.map Prod.fst)
      (s.writeYard c c.cluster a (rep.map fun b => (b, true)), 0)

/-- PQUOTE (R412): a ramp core has no yard, so its address is outside it. -/
def execPquote (o : XHA) (s : State) : Out :=
  unit (len2 o.q) o.q (fun s => s.me.need [.g o.a o.ta]
    (let k := s.me
     let a := (k.gv o.a).toNat
     if a % 64 ≠ 0 then .trap (alignTrap a)
     else if s.cur.isRamp || 2 ^ 19 < a + 512 then .trap (illegal 1)
     else if (k.hreg o.d).fill = .pending || !k.ystores.isEmpty || k.vecTouchesYard a 512 then .wait
     else
       let l := s.launchIx s.cur
       let (n, s) := s.nextPkg l
       let (s, st) := (s.pendPkg o.d o.inb).quote a
       .done (s.completeHandle s.cur (some o.d) o.inb (pkgHandle (s.partOf l) 1 n st) (k.gt o.a || k.ct)))) s

/-! ### Sealing (R412, R413; log entry 51) -/

/-- The content key of a cast. -/
def castKey (tsk : BitVec 256) (pmr : BitVec 512) (c : DWord) (pkg : BitVec 20) : List Byte :=
  hkdf512 (bytesOfNat 32 tsk.toNat) (bytesOfNat 64 pmr.toNat ++ bytesOfNat 8 c.toNat ++ bytesOfNat 4 pkg.toNat)

/-- The IV of a segment: c mod 2^32, then the segment index. -/
def castIv (c : DWord) (i : Nat) : List Byte := bytesOfNat 4 c.toNat ++ bytesOfNat 8 i

/-- The index under which the header is authenticated. -/
def headerIndex : Nat := 2 ^ 64 - 1

/-- The header of a cast. -/
def castHeader (p : BitVec 4) (k : Cast) : List Byte :=
  [0x43, 0x41, 0x53, 0x54] ++ bytesOfNat 4 1 ++ bytesOfNat 64 k.pmr.toNat ++ bytesOfNat 8 k.c.toNat
    ++ bytesOfNat 4 (Config.packageId.toNat + p.toNat * 2 ^ 20) ++ bytesOfNat 4 k.sstep.toNat
    ++ bytesOfNat 8 k.cutStep.toNat ++ bytesOfNat 8 k.tag.toNat ++ bytesOfNat 4 k.nrange ++ bytesOfNat 4 0

/-- A range table's bytes. -/
def tableBytes (t : List (Nat × Nat)) : List Byte := t.flatMap fun r => bytesOfNat 8 r.1 ++ bytesOfNat 8 r.2

/-- The content key of a cast that has been cut. -/
def Cast.key (k : Cast) : List Byte := castKey k.tsk k.pmr k.c Config.packageId

/-- Header, range table, and the tag that authenticates both. -/
def Cast.headBytes (p : BitVec 4) (k : Cast) : List Byte :=
  let aad := castHeader p k ++ tableBytes k.table
  aad ++ (gcmSeal k.key (castIv k.c headerIndex) aad []).2

/-- The taint bits of bytes, eight to a byte, bit i of a byte for its i-th. -/
def taintBytes (bs : TBytes) : List Byte :=
  (List.range (bs.length / 8)).map fun i =>
    BitVec.ofNat 8 (packBits (((bs.drop (8 * i)).take 8).map Prod.snd))

/-- A sealed segment: data and taint bits under one tag. -/
def Cast.sealSegment (k : Cast) (i : Nat) (bs : TBytes) : List Byte :=
  let (ct, tag) := gcmSeal k.key (castIv k.c i) [] (bs.map Prod.fst ++ taintBytes bs)
  ct ++ tag

/-- The pages of segment i of a cast: sixteen, fewer at its end. -/
def segmentPages (t : List (Nat × Nat)) (i : Nat) : List Nat := ((rangePages t).drop (16 * i)).take 16

/-! ### Draining (R410, R412, R414) -/

/-- What the pour engine reads of a page: its pre-image if one is staged, else the page; the first line that is bad
or faults ends the cast or waits. -/
def State.pourPage (s : State) (k : Cast) (va : Nat) : HRes :=
  match s.xlate k.launch va 0 with
  | .error e => .fault e va
  | .ok pa =>
    match k.staged.find? fun x => x.1 == pa / 4096 with
    | some (_, some bs) => .ok bs s
    | some (_, none) => .bad va s
    | none =>
      let t := s.cacheLines pa 4096 false
      match s.bad pa 4096 with
      | some b => .bad va (t.markPoison b)
      | none => .ok (s.peek pa 4096) t

/-- Read pages one after another. -/
def State.pourPages (s : State) (k : Cast) : List Nat → HRes
  | [] => .ok [] s
  | va :: rest =>
    match s.pourPage k va with
    | .ok bs s => match s.pourPages k rest with
      | .ok cs s => .ok (bs ++ cs) s
      | r => r
    | r => r

/-- Drained pages are unmarked and leave the staging reserve. -/
def Cast.unmark (k : Cast) (vas pas : List Nat) : Cast :=
  { k with marked := k.marked.filter fun p => !pas.contains p, late := k.late.filter fun a => !vas.contains a, staged := k.staged.filter fun x => !pas.contains x.1 }

/-- Send a cast's next bytes to its target: unordered packets whose bytes are tainted, since they follow from C. -/
def State.sendCast (s : State) (p : BitVec 4) (k : Cast) (bs : List Byte) : State :=
  let at' := k.destVa % 2 ^ 36 + k.offset
  if !s.hasRoute k.destPkg || 2 ^ 36 < at' + bs.length then s.endCast p k 6
  else
    let q : Packet :=
      { stamp := 0, src := Config.packageId, dst := k.destPkg, sseq := 0, ordered := false, op := 7, spart := p
        window := BitVec.ofNat 8 (k.destVa / 2 ^ 36), offset := BitVec.ofNat 36 at', len := 0, tag := 0
        seq := BitVec.ofNat 64 (k.seq % 2 ^ 32), status := 0, agent := 16 + p.toNat, issuer := coreNum k.core
        data := [] }
    let ps := dataPackets q (bs.map fun b => (b, true))
    let k := { k with next := k.next + 1, offset := k.offset + bs.length, unacked := k.unacked + ps.length }
    (s.modPart p fun x => { x with cast := some k }).inject' 0 false ps

/-- Whether the pour engine must wait for a line of its pages that it cannot pin now: it pins at the line's home (R329,
R414). -/
def State.pourBlocked (s : State) (k : Cast) (pages : List Nat) : Bool :=
  (s.physPages k.launch pages).any fun p =>
    !s.linesFree (homeDie (4096 * p)) ((List.range 64).map fun i => 4096 * p + 64 * i)

/-- POUR_DRAIN (R412): the header and the range table go first, then one segment after another; what cannot be read
abandons the cast. -/
def execPourDrain (part : BitVec 4) (s : State) : Out :=
  match (s.part part).bind (·.cast) with
  | none => .next s
  | some k =>
    if !k.cut || k.drained || s.pourWaits part then .next s
    else if k.next = 0 then .next (s.sendCast part k (k.headBytes part))
    else
      let pages := segmentPages k.table (k.next - 1)
      if pages.isEmpty then .next (s.modPart part fun x => { x with cast := some { k with drained := true } })
      else if s.pourBlocked k pages then .next s
      else match s.pourPages k pages with
        | .fault e va => .next (s.newFault .pour k.launch va e 0 false).1
        | .bad _ s => .next (s.endCast part k 4)
        | .ok bs s =>
          let rest := s.physPages k.launch ((rangePages k.table).drop (16 * k.next))
          let pas := (s.physPages k.launch pages).filter fun p => !rest.contains p
          .next (s.sendCast part (k.unmark pages pas) (k.sealSegment (k.next - 1) bs))

/-- CAST_COMPLETE (R412): with the target's acknowledgement of the last byte, C takes the cast's number and the handle
fills, in one step. -/
def execCastComplete (part : BitVec 4) (s : State) : Out :=
  match (s.part part).bind (·.cast) with
  | none => .next s
  | some k =>
    if k.cut && k.drained && k.unacked = 0 then
      .next (({ s with counters := Tab.put 0 s.counters part.toNat k.c } : State).endCast part k 0)
    else .next s

/-- COW_PRECOPY (R410): the pre-image of a marked page goes to the staging reserve before the page is written. -/
def execCowPrecopy (part : BitVec 4) (page : Nat) (s : State) : Out :=
  match s.part part with
  | none => .next s
  | some y => match y.cast with
    | some k => .next (s.stageCast part.toNat page y k)
    | none => .next s

end Sys2Proof.Machine
end

