-- ==== Sys2Proof/Machine/Place.lean ====
section
/-! DEFINITION. Ordering and placement of gangs (R369 to R375, R131, R232, R216, R321): the events PRIORITY_AGEING,
GANG_PLACE, LLIM_EXPIRY and QUANTUM_EXPIRY. -/

namespace Sys2Proof.Machine

/-- Core cycles of a microsecond (R122). -/
def cyclesPerMicro : Nat := 1600

/-! ### Effective priority (R370) -/

/-- Ageing intervals that a launch has waited. -/
def State.agedBy (s : State) (x : Launch) : Nat := (s.clock - x.waitFrom) / (cyclesPerMicro * max 1 s.conf.ageInt)

/-- Whether a launch waits for placement or for its restore. -/
def Launch.waits (x : Launch) : Bool := x.depMet && (x.state == .waiting || x.state == .stopped)

/-- Bring a launch's boost up to date: it ages while it waits, or while it has gangs unplaced. -/
def State.age (s : State) (x : Launch) : Launch :=
  if x.waits || (x.state == .running && x.gangs.any fun g => !g.placed) then { x with boost := s.agedBy x } else x

/-- Effective priority. -/
def Launch.effPrio (x : Launch) : Nat := min 7 (x.rcd.prio + x.boost)

/-- PRIORITY_AGEING (R370). -/
def execPriorityAgeing (l : Nat) (s : State) : Out := .next (s.modLaunch l s.age)

/-! ### Dependences (R374, R375) -/

/-- Resolve the dependences of the waiting launches: one that is met starts the ageing (R375). -/
def State.resolveDeps (s : State) : State :=
  (s.launches.map Prod.fst).foldl (fun s l =>
    let x := s.launch l
    if x.state = .waiting && !x.depMet && s.depState l = .failed then s.endLaunch l 6 none else s) s.meetDeps

/-! ### Free resources (R371, R372) -/

/-- Whether a launch still holds what its gangs were given: not once stopped, nor after its record is written. -/
def Launch.holding (x : Launch) : Bool := !x.reported && x.state != .stopped

/-- The gangs that hold resources. -/
def State.holders (s : State) : List Gang :=
  s.launches.flatMap fun x => match x.2 with
    | some y => if y.holding then y.gangs.filter fun g => !g.freed else []
    | none => []

/-- Clusters of a die, from 0, that are good and free. -/
def State.freeClusters (s : State) (d : BitVec 4) : List Nat :=
  let held := s.holders.flatMap fun g => g.clusters
  (s.goodClusters d).filter fun c => !held.contains (d.toNat * 1024 + c)

/-- Ramp cores of a die that are good and free. -/
def State.freeRamps (s : State) (d : BitVec 4) : List Nat :=
  let held := s.holders.flatMap fun g => g.ramps
  (s.goodRamps d).filter fun i => !held.contains (d, BitVec.ofNat 7 i)

/-- Put a number into a rising list. -/
def insertNat (n : Nat) : List Nat → List Nat
  | [] => [n]
  | m :: ms => if n ≤ m then n :: m :: ms else m :: insertNat n ms
/-- Sort numbers. -/
def sortNats : List Nat → List Nat
  | [] => []
  | n :: ns => insertNat n (sortNats ns)

/-- What can be had of w named and k further ones, from those held and those free, the lowest free first. -/
def gather (w : List Nat) (k : Nat) (have' free : List Nat) : List Nat :=
  (w.filter fun c => have'.contains c || free.contains c)
    ++ ((have'.filter fun c => !w.contains c) ++ free.filter fun c => !w.contains c).take k

/-- The clusters and ramp cores that a gang could hold now, its partner's included, numbered from 0 on its die. -/
def State.couldHold (s : State) (l g : Nat) (noClusters noRamps : List Nat) : List Nat × List Nat :=
  let x := s.launch l
  let r := x.rcd
  let y := x.gang g
  let d := r.dieOf g
  let third := y.thirdOf.isSome
  let w := if third then [] else r.pinnedClusters g
  let k := if third then r.clustersPer else r.otherClusters
  let n := if third then r.ramps else r.ramps * r.copies
  (gather w k (y.clusters.map fun c => c % 1024) ((s.freeClusters d).filter fun c => !noClusters.contains c),
   gather [] n (y.ramps.map fun p => p.2.toNat) ((s.freeRamps d).filter fun i => !noRamps.contains i))

/-- Whether that is all a gang needs. -/
def State.wholeNow (s : State) (l g : Nat) (h : List Nat × List Nat) : Bool :=
  let r := (s.launch l).rcd
  let n := if ((s.launch l).gang g).thirdOf.isSome then 1 else r.copies
  h.1.length == r.clustersPer * n && h.2.length == r.ramps * n

/-! ### The order (R370) -/

/-- Rank of an unplaced gang: a third run first, then effective priority, ticket, gang (R370, R387). -/
def State.orderKey (s : State) (d : BitVec 4) (p : Nat × Nat) : List Nat :=
  let x := s.launch p.1
  [if (x.gang p.2).thirdOf.isSome then 0 else 1, 7 - x.effPrio, Tab.get 0 x.tickets d.toNat, p.2]

/-- Order of ranks. -/
def keyBefore : List Nat → List Nat → Bool
  | x :: xs, y :: ys => x < y || (x == y && keyBefore xs ys)
  | _, _ => false

/-- Put a gang in its place of the order. -/
def State.insertGang (s : State) (d : BitVec 4) (p : Nat × Nat) : List (Nat × Nat) → List (Nat × Nat)
  | [] => [p]
  | q :: qs =>
    if keyBefore (s.orderKey d p) (s.orderKey d q) then p :: q :: qs else q :: s.insertGang d p qs

/-- Whether a partition restores a cast, which holds its placement (R413). -/
def State.placementHeld (s : State) (l : Nat) : Bool := ((s.part (s.partOf l)).map fun p => p.restoring.isSome).getD false

/-- The unplaced gangs of a die, a stopped launch's among them, in order. -/
def State.unplaced (s : State) (d : BitVec 4) : List (Nat × Nat) :=
  let of (l : Nat) : List (Nat × Nat) :=
    let x := s.launch l
    let open' (g : Nat) : Bool :=
      let y := x.gang g
      x.rcd.dieOf g == d && !y.partner && !y.done && (!y.placed || x.state == .stopped)
    if (x.waits || (x.state == .running && !x.abort)) && !s.placementHeld l then
      ((List.range x.gangs.length).filter open').map fun g => (l, g)
    else []
  (s.launches.flatMap fun x => of x.1).foldl (fun qs p => s.insertGang d p qs) []

/-! ### Placing a gang (R371, R372) -/

/-- Every byte of [a, a+n) zero, untainted and good, its lines clean (R131, R232, R379). -/
def State.clearRange (s : State) (a n : Nat) : State :=
  let out {α : Type} (t : Tab α) : Tab α := t.filter fun x => x.1 < a || a + n ≤ x.1
  { s with mem := out s.mem, taint := out s.taint, uncorr := out s.uncorr, poison := out s.poison,
           dirty := out s.dirty }

/-- Contents of a space at launch start: the image's sections, clean. -/
def State.loadSpace (s : State) (a n : Nat) (xs : List (Nat × List Byte)) : State :=
  let s := s.clearRange a n
  let dirty := s.dirty
  { xs.foldl (fun s x => s.poke (a + x.1) (x.2.map fun b => (b, false))) s with dirty := dirty }

/-- The members of a gang in rank order: rank r on station r mod 64 of its ⌊r/64⌋-th cluster, then its ramp cores
(R371). -/
def rankedMembers (size : Nat) (cs : List Nat) (rs : List (BitVec 4 × BitVec 7)) : List CoreId :=
  ((List.range size).map fun r =>
    let n := cs.getD (r / 64) 0
    CoreId.ord (BitVec.ofNat 4 (n / 1024)) (BitVec.ofNat 10 n) (BitVec.ofNat 6 r))
    ++ rs.map fun p => .ramp p.1 p.2

/-- The tensor maps of a ramp core at launch start (R321). -/
def startMaps (im : ImageInfo) (seg : Nat) : Tab (Option TensorMap) :=
  ((List.range 64).zip im.tmaps).filterMap fun x => x.2.map fun m => (x.1, some (m.rebase seg))

/-- A core at launch start (R14, R16, R35, R83, R122, R131): a member with its body to run, or an idle station, whose local
memory holds zeros without data sections (DESIGN CHOICE, log entry 76). -/
def State.startCore (s : State) (l g : Nat) (rank : Option Nat) (twin : CoreId) (c : CoreId) : State :=
  let x := s.launch l
  let seed := x.rcd.seed ^^^ BitVec.ofNat 32 (coreNum twin)
  let s := s.loadSpace (localBase c) (2 ^ 15) (if rank.isSome then x.img.localData else [])
  s.modCore c fun k =>
    let k := { Core.blank with
      checkAt := k.checkAt, launch := some l, gang := g, rank := rank.getD 0, cycleBase := s.clock,
      lfsr := if seed = 0 then 1 else seed, bodyPending := rank.isSome, partEnded := rank.isNone,
      tmaps := if c.isRamp then startMaps x.img x.rcd.segBase else [] }
    { k with ckpt := some k.toRegs }

/-- A cluster at launch start: its yard loaded, its junction table written, its ring IDLE (R216, R223, R232). -/
def State.startCluster (s : State) (l : Nat) (k : ClusterId) : State :=
  let x := s.launch l
  let jt := x.img.junctions.foldl (fun t e => Tab.insert e.1 (some e.2) t) []
  (s.loadSpace (yardBase k) (2 ^ 19) x.img.yardData).modCluster k fun _ =>
    { Cluster.blank with jt := jt, jtCkpt := jt, ringCkpt := some Cluster.blank.ring }

/-- Before a launch's first gang starts: its HBM data sections and its phase-image area at SEGBASE + ADDR, and its
convoys declared (R226, R368). -/
def State.startLaunch (s : State) (l : Nat) : State :=
  let x := s.launch l
  if x.firstPlaced.isSome then s
  else
    let s := x.img.hbmData.foldl (fun s d =>
      s.writeVa l (x.rcd.segBase + d.1) (d.2.map fun b => (b, false))) s
    let cs : Tab (Option Convoy) := x.rcd.dieList.foldl (fun t d =>
      x.img.convoys.foldl (fun t c =>
        Tab.insert (d.toNat * 4096 + c.1) (some (Convoy.start c.2)) t) t) []
    s.modLaunch l fun y =>
      { y with state := .running, firstPlaced := some s.clock, placedAt := s.clock, convoys := cs }

/-- One copy of a gang takes its clusters and ramp cores, and its members are ready to start; its vector units have
granted nothing in the launch (R140). -/
def State.startGang (s : State) (l g : Nat) (twins : List CoreId) (cs : List Nat) (rs : List (BitVec 4 × BitVec 7)) :
    State :=
  let x := s.launch l
  let ms := rankedMembers x.rcd.gangSize cs rs
  let s := s.modGang l g fun y =>
    { y with clusters := cs, ramps := rs, members := ms, placed := true, convoyCkpt := x.convoys,
             rqMark := s.rqLengths, fabMark := s.fabLengths }
  let y := (s.launch l).gang g
  let s := y.clusterIds.foldl (fun s k => s.startCluster l k) s
  let s := y.allCores.foldl (fun s c => s.modSvu c.unit fun u => { u with lastSlot := none }) s
  let rankOf (c : CoreId) : Option Nat := let n := ms.idxOf c; if n < ms.length then some n else none
  y.allCores.foldl (fun s c =>
    let r := rankOf c
    s.startCore l g r ((twins[r.getD ms.length]?).getD c) c) s

/-- Place a gang, and its partner with it, on clusters and ramp cores numbered from 0 on its die (R371, R372,
R385): every member starts its launch body. -/
def State.placeGang (s : State) (l g : Nat) (h : List Nat × List Nat) : State :=
  let d := (s.launch l).rcd.dieOf g
  let s := (s.journal d (.place l g)).startLaunch l
  let r := (s.launch l).rcd
  let global (cs : List Nat) : List Nat := (sortNats cs).map fun c => d.toNat * 1024 + c
  let ramps (is : List Nat) : List (BitVec 4 × BitVec 7) := (sortNats is).map fun i => (d, BitVec.ofNat 7 i)
  let w := r.pinnedClusters g
  let cs := w ++ sortNats (h.1.filter fun c => !w.contains c)
  let is := sortNats h.2
  let mine := global (cs.take r.clustersPer)
  let myRamps := ramps (is.take r.ramps)
  let s := s.startGang l g [] mine myRamps
  if r.red then
    let twins := rankedMembers r.gangSize mine myRamps
    s.startGang l (g + r.gangs) twins (global (cs.drop r.clustersPer)) (ramps (is.drop r.ramps))
  else s

/-! ### Third runs (R387) -/

/-- The local memory or yard of a copy's unit as at the primary's last barrier: its bytes now, with the shadow's
pre-images over them. -/
def State.copySpace (s : State) (from' to' n : Nat) (shadow : Tab (Option ShadowLine)) : State :=
  let s := s.clearRange to' n
  let move {α : Type} (t : Tab α) : Tab α :=
    t.filterMap fun x => if from' ≤ x.1 && x.1 < from' + n then some (x.1 - from' + to', x.2) else none
  let put {α : Type} [DecidableEq α] (d : α) (t : Tab α) : Tab α :=
    (move t).foldl (fun u x => Tab.put d u x.1 x.2) t
  let s := { s with mem := put 0 s.mem, taint := put false s.taint, poison := put false s.poison,
                    uncorr := put false s.uncorr }
  shadow.foldl (fun s x => match x.2 with
    | some l => s.putLine (to' + 64 * x.1) l
    | none => s) s

/-- The phase in which a member goes on from a barrier: it leaves its sstep, or has not begun. -/
def Regs.barrierPhase (r : Regs) (num : Word) : Phase := if r.running then .sstepDone num else .idle

/-- A member of a third run takes its primary's barrier state. -/
def State.startThirdCore (s : State) (l g rank : Nat) (p c : CoreId) (num : Word) : State :=
  let k := s.core p
  let regs := k.ckpt.getD k.toRegs
  let s := s.copySpace (localBase p) (localBase c) (2 ^ 15) k.shadow
  s.modCore c fun x =>
    { Core.blank with
      toRegs := regs, checkAt := x.checkAt, launch := some l, gang := g, rank := rank, left := k.left,
      cycleBase := k.cycleBase, cycleSaved := k.cycleSaved, taskStart := s.clock, phase := regs.barrierPhase num
      ckpt := some regs }

/-- Place a third run: the primary's members, clusters and barrier state on spare clusters (R387). -/
def State.placeThird (s : State) (l t p : Nat) (h : List Nat × List Nat) : State :=
  let d := (s.launch l).rcd.dieOf p
  let s := s.journal d (.place l t)
  let y := (s.launch l).gang p
  let cs := (sortNats h.1).map fun c => d.toNat * 1024 + c
  let rs := (sortNats h.2).map fun i => (d, BitVec.ofNat 7 i)
  let ms := rankedMembers (s.launch l).rcd.gangSize cs rs
  let s := s.modGang l t fun z =>
    { z with clusters := cs, ramps := rs, members := ms, placed := true, sstep := y.sstep, det := y.det, rr := y.rr,
             convoyCkpt := y.convoyCkpt, rqMark := y.rqMark, fabMark := y.fabMark }
  let z := (s.launch l).gang t
  let s := (y.clusterIds.zip z.clusterIds).foldl (fun s k =>
    let from' := s.cluster k.1
    let ring := (from'.ringCkpt.getD .idle).discard
    (s.copySpace (yardBase k.1) (yardBase k.2) (2 ^ 19) from'.shadow).modCluster k.2 fun _ =>
      { Cluster.blank with
        ring := ring, ringCkpt := some ring, jt := from'.jtCkpt, jtCkpt := from'.jtCkpt, copyNext := from'.copyCkpt
        copyCkpt := from'.copyCkpt, chainCkpt := from'.chainCkpt
        chains := from'.chainCkpt.map fun c => (c.1, { next := c.2, ents := [], appenders := [] }) }) s
  let s := z.allCores.foldl (fun s c =>
    if ms.contains c then s
    else (s.clearRange (localBase c) (2 ^ 15)).modCore c fun k =>
      { Core.blank with checkAt := k.checkAt, launch := some l, gang := t, partEnded := true }) s
  ((List.range ms.length).zip (y.members.zip ms)).foldl (fun s x =>
    s.startThirdCore l t x.1 x.2.1 x.2.2 y.sstep) s

/-- Place an unplaced gang. -/
def State.placeAny (s : State) (p : Nat × Nat) (h : List Nat × List Nat) : State :=
  match ((s.launch p.1).gang p.2).thirdOf with
  | some q => s.placeThird p.1 p.2 q h
  | none => s.placeGang p.1 p.2 h

/-! ### Restore (R378) -/

/-- Whether a stopped launch may be restored: the same clusters, ramp cores and windows are free, and no scheduler of its
dies is being taken over (R378, R384). -/
def State.canRestore (s : State) (l : Nat) : Bool :=
  let x := s.launch l
  let gs := x.gangs.filter fun g => g.placed && !g.done
  x.state == .stopped && x.waits && x.rcd.dieList.all s.schedules
    && (gs.all fun g =>
      (g.clusters.all fun c => (s.freeClusters (BitVec.ofNat 4 (c / 1024))).contains (c % 1024))
        && g.ramps.all fun p => (s.freeRamps p.1).contains p.2.toNat)
    && x.savedWins.all fun w => (Tab.get none (s.mesh w.mesh).leases w.win).isNone

/-! ### GANG_PLACE -/

/-- The first gang of a list that can be placed whole, those before it not. A stopped launch that may be restored
goes first. -/
def State.firstWhole (s : State) (noC noR : List Nat) : List (Nat × Nat) → Option (Nat × Nat)
  | [] => none
  | p :: ps =>
    if (s.launch p.1).state = .stopped then (if s.canRestore p.1 then none else s.firstWhole noC noR ps)
    else if s.wholeNow p.1 p.2 (s.couldHold p.1 p.2 noC noR) then some p
    else s.firstWhole noC noR ps

/-- Only the oldest unplaced gang holds part of its resources (R372). -/
def State.dropPartial (s : State) (ps : List (Nat × Nat)) : State :=
  ps.foldl (fun s p =>
    if (s.launch p.1).state = .stopped then s
    else s.modGang p.1 p.2 fun g => { g with clusters := [], ramps := [] }) s

/-- GANG_PLACE (R372): the oldest unplaced gang takes what is free of its resources, and is placed once whole;
else the first gang in order that can be placed whole is. -/
def execGangPlace (die : BitVec 4) (s : State) : Out :=
  if !s.schedules die then .next s
  else
    let s := s.resolveDeps
    let s := (s.launches.map Prod.fst).foldl (fun s l => s.modLaunch l s.age) s
    match s.unplaced die with
    | [] => .next s
    | p :: ps =>
      let s := s.dropPartial ps
      let y := (s.launch p.1).gang p.2
      if (s.launch p.1).state = .stopped then
        if s.canRestore p.1 then .next s
        else
          match s.firstWhole (y.clusters.map fun c => c % 1024) (y.ramps.map fun q => q.2.toNat) ps with
          | some q => .next (s.placeAny q (s.couldHold q.1 q.2 (y.clusters.map fun c => c % 1024)
              (y.ramps.map fun r => r.2.toNat)))
          | none => .next s
      else
        let h := s.couldHold p.1 p.2 [] []
        if s.wholeNow p.1 p.2 h then .next (s.placeAny p h)
        else
          let s := s.modGang p.1 p.2 fun g =>
            { g with clusters := h.1.map fun c => die.toNat * 1024 + c,
                     ramps := h.2.map fun i => (die, BitVec.ofNat 7 i) }
          match s.firstWhole [] [] ps with
          | some q => .next (s.placeAny q (s.couldHold q.1 q.2 [] []))
          | none => .next s

/-! ### Limits of a running launch (R365, R376) -/

/-- Cycles for which a launch has held clusters, time spent pre-empted excluded. -/
def State.heldFor (s : State) (x : Launch) : Nat :=
  x.heldTime + (if x.state == .running || x.state == .stopping then s.clock - x.placedAt else 0)

/-- The trap that names a launch killed at its LLIM: WATCHDOG, core 0 and PC 0 (R389). -/
def llimTrap (micros : Nat) : CoreId × Park :=
  (.ord 0 0 0, { cause := .watchdog, value := BitVec.ofNat 64 micros, pc := 0, w0 := 0, w1 := 0, seqn := 0,
                 second := false })

/-- LLIM_EXPIRY (R365): a launch that has held clusters for its LLIM is killed. -/
def execLlimExpiry (l : Nat) (s : State) : Out :=
  let x := s.launch l
  let t := s.heldFor x
  if (x.state == .running || x.state == .stopping) && x.rcd.llim != 0 && x.rcd.llim * cyclesPerMicro ≤ t then
    .next ((s.modLaunch l fun y => { y with overdue := true }).endLaunch l 1 (some (llimTrap (t / cyclesPerMicro))))
  else .next s

/-- QUANTUM_EXPIRY (R376): a running launch has run its quantum since its last placement. -/
def execQuantumExpiry (l : Nat) (s : State) : Out :=
  let x := s.launch l
  if x.state == .running && s.conf.quantum * cyclesPerMicro ≤ s.clock - x.placedAt then
    .next (s.modLaunch l fun y => { y with quantumUp := true })
  else .next s

end Sys2Proof.Machine
end

