-- ==== Sys2Proof/Machine/Task.lean ====
section
/-! DEFINITION. The event TASK_START (R11 to R13): which task a core takes next, and its beginning. -/

namespace Sys2Proof.Machine

/-- A task about to begin (R11): its start address and coordinate, and the fields of TASK. -/
structure NewTask where
  start : Word
  i : Word
  j : Word
  k : Word
  src : BitVec 2
  je : BitVec 6
  rli : BitVec 16
  deriving DecidableEq, Repr

/-- The launch body of a member: i is its rank, j its gang's index in the grid, which a partner and a third run share
with the gang they repeat (R11, R385, R387). -/
def State.bodyTask (s : State) (c : CoreId) : NewTask :=
  let r := (s.launchOf c).rcd
  let k := s.core c
  { start := if c.isRamp then r.rampBody else r.body, i := BitVec.ofNat 32 k.rank
    j := BitVec.ofNat 32 ((s.gangOf c).thirdOf.getD k.gang % max 1 r.gangs), k := 0, src := 2, je := 0, rli := 0 }

/-- A match-created task (R11, R15). -/
def CreatedTask.task (t : CreatedTask) : NewTask :=
  { start := t.start, i := t.i.setWidth 32, j := t.j.setWidth 32, k := t.k.setWidth 32, src := 1, je := t.je
    rli := 0 }

/-- The n-th entry of a routine list (R11). -/
def Routine.task (r : Routine) (n : Nat) : NewTask :=
  { start := r.start, i := r.i, j := r.j, k := r.k, src := 0, je := 0, rli := BitVec.ofNat 16 n }

/-- Begin a task on a core: TASK and the coordinates, an empty control state, a new count of cycles (R14, R15, R16,
R36). -/
def State.beginTask (s : State) (c : CoreId) (t : NewTask) : State :=
  let load := if t.src = 1 then some (c.cluster.num, (s.cluster c.cluster).ring.loads) else none
  s.modCore c fun k =>
    { k with seqn := k.seqn + 1, src := t.src, je := t.je, rli := t.rli, ci := t.i, cj := t.j, ck := t.k,
             ct := false, pc := t.start, rstack := [], loops := [], rpt := none, running := true,
             phase := .idle, taskStart := s.clock, wdogResumed := false, taskRing := load }

/-- The first poisoned word of a payload. -/
def Payload.badWord (p : Payload) : Option Nat := (List.range 128).find? fun i => p.poison.getLsbD i
/-- A payload's bytes with their taint. -/
def Payload.tbytes (p : Payload) : TBytes :=
  (bytesOfNat 1024 p.bytes.toNat).zip ((List.range 1024).map fun i => p.taint.getLsbD i)

/-- Fill an operand window from a payload (R13); a poisoned word stays poisoned (R234). -/
def State.fillWindow (s : State) (c : CoreId) (a : Nat) (p : Payload) : State :=
  let s := s.storeLocal c a p.tbytes
  ((List.range 128).filter fun i => p.poison.getLsbD i).foldl
    (fun s i => s.markPoison (localBase c + a + 8 * i)) s

/-- A match-created task is taken: it leaves the station queue and counts as started for its ring (R12, R222). -/
def State.takeCreated (s : State) (c : CoreId) (t : CreatedTask) : State :=
  let s := (s.beginTask c t.task).modCore c fun k =>
    { k with stationQ := k.stationQ.tail, vq := k.vq.map fun e => { e with taken := e.taken ++ [t] } }
  s.modCluster c.cluster fun x => { x with ring := { x.ring with startedTasks := x.ring.startedTasks ++ [c] } }

/-- A match-created task that was taken fills the operand windows, and traps LOCAL_UNCORRECTABLE where a payload
word is poisoned (R13, R129, R234). -/
def State.fillCreated (s : State) (c : CoreId) (t : CreatedTask) : State :=
  let s := (s.fillWindow c 0x7800 t.payA).fillWindow c 0x7C00 t.payB
  let bad := (t.payA.badWord.map fun i => 0x7800 + 8 * i).or (t.payB.badWord.map fun i => 0x7C00 + 8 * i)
  match bad with
  | none => s
  | some a =>
    let w := s.messageWords c t.start.toNat
    s.trapAt c t.start w.1 w.2 ⟨.localUncorrectable, BitVec.ofNat 64 a⟩

/-- What a core takes next, in the order of R12: the launch body, the oldest created task, the next routine. -/
inductive NextTask where
  | body
  | created (t : CreatedTask)
  | routine (r : Routine)
  deriving DecidableEq, Repr

/-- The next task of a core. -/
def Core.nextTask (k : Core) : Option NextTask :=
  if k.bodyPending then some .body
  else match k.stationQ with
  | t :: _ => some (.created t)
  | [] => (k.routines[k.rliNext]?).map NextTask.routine

/-- Whether a core stands at a task boundary of a running launch. A core whose part has ended, or that is no member,
still runs a task that a meeting creates at its station (R11, R12; log entry 59). -/
def State.atBoundary (s : State) (c : CoreId) : Bool :=
  let k := s.core c
  (s.launchOf c).state == .running && k.launch.isSome && !k.running && k.park.isNone && !k.left
    && k.pendingTrap.isNone && k.lateTrap.isNone && (s.gangOf c).rolling.isNone

/-- Take what a core takes next, all but the window fill of a created task. -/
def State.take (s : State) (c : CoreId) : NextTask → State
  | .body => (s.modCore c fun k => { k with bodyPending := false }).beginTask c (s.bodyTask c)
  | .created t => s.takeCreated c t
  | .routine r =>
    (s.modCore c fun k => { k with rliNext := k.rliNext + 1 }).beginTask c (r.task (s.core c).rliNext)

/-- Begin what a core takes next. -/
def State.begin' (s : State) (c : CoreId) (t : NextTask) : State :=
  match t with
  | .created x => (s.take c t).fillCreated c x
  | _ => s.take c t

/-- Whether a window fill must wait: for a queued or unfinished vector access of an earlier task to the operand
windows, whose store the fill overwrites (R13, R145). -/
def Core.fillWaits (k : Core) (t : NextTask) : Bool :=
  match t with
  | .created _ => k.vecTouchesLocal 0x7800 0x800
  | _ => false

/-- TASK_START (R12): the abort line is sampled before the first instruction and the window fill, and its trap is
the starting task's (R34, R230). -/
def execTaskStart (c : CoreId) (s : State) : Out :=
  if !s.atBoundary c then .next s
  else match (s.core c).nextTask with
  | none => .next s
  | some t =>
    if s.aborted c then
      let s := s.take c t
      let pc := (s.core c).pc
      let w := s.messageWords c pc.toNat
      .next (s.trapAt c pc w.1 w.2 (abortTrap 0))
    else if (s.core c).fillWaits t then .next s
    else .next (s.begin' c t)

end Sys2Proof.Machine
end

