-- ==== Sys2Proof/Machine/Complete.lean ====
section
/-! DEFINITION. The end of a launch (R388, R389, R398), scheduler takeover (R383, R384): the events LAUNCH_COMPLETE,
SCHEDULER_TAKEOVER and SCHEDULER_PAIR_FAILURE. -/

namespace Sys2Proof.Machine

/-! ### Status (R389) -/

/-- The status a launch that has ended completes with: none while it has not. -/
def Launch.finalStatus (x : Launch) : Option (BitVec 8) :=
  match x.state with
  | .ended st => some st
  | .running => if x.allDone then some (if x.abort then 2 else 0) else none
  | _ => none

/-! ### The record (R388) -/

/-- KIND and UNIT of a divergence record, and the rest of its 32 bytes (R362). -/
def Diverge.bytes (d : Diverge) : List Byte :=
  bytesOfNat 4 d.index.toNat ++ bytesOfNat 4 (d.kind % 256 + d.unit % 2 ^ 21 * 2 ^ 8) ++ bytesOfNat 8 d.expected.toNat
    ++ bytesOfNat 8 d.actual.toNat ++ bytesOfNat 4 d.sstep.toNat ++ bytesOfNat 4 0

/-- The DSTAT field: bits [63:60] of every die of the launch, SPACE and ADDR from the lowest die with CONF. -/
def Launch.dstatField (x : Launch) : Nat :=
  let ds := x.rcd.dieList.map x.dstat
  let bit (f : DStat → Bool) (n : Nat) : Nat := if ds.any f then 2 ^ n else 0
  let low := match ds.find? fun d => d.conf with
    | some d => d.word.toNat % 2 ^ 60
    | none => 0
  bit (·.conf) 63 + bit (·.trunc) 62 + bit (·.rpend) 61 + bit (·.hostt) 60 + low

/-- SSTEPNO.NUM at the end: of the deciding core's gang, else of gang 0, as where the limit LLIM ends the launch and no
core is named (R388, R389). -/
def Launch.lastStep (x : Launch) : Nat :=
  let g := match x.deciding with
    | some (c, _) => if x.overdue then 0 else ((List.range x.gangs.length).find? fun i => (x.gang i).allCores.contains c).getD 0
    | none => 0
  (x.gang g).sstep.toNat

/-- The divergence record of a launch's end: its deciding core's, else the first (R362, R388). -/
def Launch.diverge (x : Launch) : Option Diverge :=
  ((x.deciding.filter fun _ => !x.overdue).bind fun d => x.divergeOf d.1 d.2.value).or (x.diverges.head?.map Prod.snd)

/-- The 128 bytes of a completion record. -/
def Launch.completionRecord (x : Launch) (st : BitVec 8) : List Byte :=
  let named : Bool := st == 1 || st == 8
  let core := match x.deciding with
    | some (c, p) => if named then bytesOfNat 4 (coreNum c) ++ bytesOfNat 4 p.pc.toNat ++ bytesOfNat 8 p.value.toNat
                     else bytesOfNat 16 0
    | none => bytesOfNat 16 0
  let cause := match x.deciding with
    | some (_, p) => if named then p.cause.code.toNat else 0
    | none => 0
  let cycles := match x.firstPlaced with
    | some t => x.endsAt - t
    | none => 0
  bytesOfNat 4 x.id.toNat ++ bytesOfNat 1 st.toNat ++ bytesOfNat 1 cause ++ bytesOfNat 2 0 ++ core
    ++ bytesOfNat 8 x.compTag.toNat
    ++ ((List.range 3).flatMap fun i => bytesOfNat 4 (x.units.getD i 0))
    ++ bytesOfNat 4 x.lastStep ++ bytesOfNat 8 x.dstatField ++ bytesOfNat 8 cycles
    ++ ((x.diverge.map Diverge.bytes).getD (bytesOfNat 32 0)) ++ bytesOfNat 32 0

/-- Append a record to the completion ring of a launch's queue: its bytes, then the ring's tail, then the
notification (R388, R398). -/
def State.appendRecord (s : State) (l : Nat) (bs : List Byte) : State :=
  let x := s.launch l
  let q := x.queue.toNat
  match Tab.get none (s.die x.die).queues q with
  | none => s
  | some y =>
    let s := s.writeVa l (y.cbase + 128 * y.ctail) (bs.map fun b => (b, false))
    let s := s.modDie x.die fun d =>
      { d with queues := Tab.put none d.queues q (some { y with ctail := (y.ctail + 1) % 2 ^ y.log2n }) }
    { s with completions := s.completions ++ [(x.die.toNat, q, BitVec.ofNat 1024 (natOfBytes bs))],
             notified := s.notified ++ [(x.die, x.queue)] }

/-! ### What a launch leaves -/

/-- The casts of a launch that are not yet cut: a local cut falls at the end of the launch; a pod cut that was not
taken, or an abort, ends the cast ABORTED (R410, R412). -/
def State.endCuts (s : State) (l : Nat) : State :=
  (s.parts.map Prod.fst).foldl (fun s n =>
    let p := BitVec.ofNat 4 n
    match (s.part p).bind (·.cast) with
    | some k =>
      if k.launch = l && !k.cut then
        if k.cutStep = 0 && !(s.launch l).abort then s.castCut p k ((s.launch l).gang k.gang).sstep
        else s.endCast p k 5
      else s
    | none => s) s

/-- Mesh and engine references to chain entries that are gone. -/
def State.sweepMeshes (s : State) : State :=
  let live (d : BitVec 4) (r : EntryRef) : Bool := (s.entry d r).isSome
  let one (x : Nat × Mesh) : Nat × Mesh :=
    let d := BitVec.ofNat 4 (x.1 / 32)
    (x.1, { x.2 with running := x.2.running.filter (live d), ended := x.2.ended.filter (live d),
                     latch := x.2.latch.filter (live d) })
  let die (x : Nat × Die) : Nat × Die :=
    (x.1, { x.2 with engines := x.2.engines.filter fun e => match e.2 with
      | some r => live (BitVec.ofNat 4 x.1) r
      | none => false })
  { s with meshes := s.meshes.map one, dies := s.dies.map die }

/-- A launch's translation faults, fault messages and fabric commands not yet sent leave with it; the markers of its fcuts
still go out, since the other participants wait for them (R434). -/
def State.dropLaunchWork (s : State) (l : Nat) : State :=
  let x := s.launch l
  let gs := x.gangs.filter fun g => !g.freed
  let cores := gs.flatMap Gang.allCores
  let ks := gs.flatMap Gang.clusterIds
  let ours (f : XFault) : Bool := match f.ag with
    | .core c => cores.contains c
    | .copy k => ks.contains k
    | .pass k _ => ks.contains k
    | .pour | .fabric _ => false
  let mine (m : Mail) : Bool := match m with
    | .trap _ _ n => n == l
    | _ => false
  { s with
    xfaults := s.xfaults.filter fun f => !ours f
    supMail := (s.supMail.map fun b => (b.1, b.2.filter fun m => !mine m)).filter fun b => !b.2.isEmpty
    dies := s.dies.map fun d => (d.1, { d.2 with fab := d.2.fab.filter fun c => c.launch != l || c.sent || c.kind == 3 }) }

/-- A launch that has ended is done with: its cuts are taken, its resources released, its record appended, once (R388). -/
def State.finishLaunch (s : State) (l : Nat) (st : BitVec 8) : State :=
  if (s.launch l).reported then s else
  let s := (s.endLaunch l st none).endCuts l
  let s := s.dropLaunchWork l
  let gs := (List.range (s.launch l).gangs.length).filter fun g => !((s.launch l).gang g).freed
  let bs := (s.launch l).completionRecord st
  let s := gs.foldl (fun s g =>
    if ((s.launch l).gang g).placed then s.releaseGang l g
    else s.modGang l g fun y => { y with clusters := [], ramps := [], done := true, freed := true }) s
  let s := s.sweepMeshes
  let s := s.appendRecord l bs
  let s := s.modLaunch l fun x =>
    { x with reported := true, savedCores := [], savedClusters := [], savedLines := [], savedGranules := [],
             savedWins := [] }
  let s := s.sweepMarkers (s.partOf l) ((s.launch l).cutSteps.map (·.step))
  s.resolveDeps

/-- Whether the scheduler of one of a launch's dies is in a takeover (R384). -/
def State.takenOver (s : State) (x : Launch) : Bool := (x.home :: x.rcd.dieList).any fun d => (s.die d).takeover

/-- LAUNCH_COMPLETE (R388): a launch that has ended gets its record; during a takeover on any of its dies the record, its
dependants and its resources are held (R384). -/
def execLaunchComplete (l : Nat) (s : State) : Out :=
  let x := s.launch l
  match x.finalStatus with
  | none => .next s
  | some st =>
    if x.reported then .next s
    else if s.takenOver x then
      if (s.die x.home).heldDone.contains l then .next s
      else .next ((s.endLaunch l st none).modDie x.home fun d => { d with heldDone := d.heldDone ++ [l] })
    else .next ((s.journal x.home (.complete l)).finishLaunch l st)

/-! ### Takeover (R383, R384) -/

/-- Put a launch into a list in the order in which launches ended. -/
def State.insertEnded (s : State) (l : Nat) : List Nat → List Nat
  | [] => [l]
  | m :: ms => if (s.launch l).endsAt < (s.launch m).endsAt then l :: m :: ms else m :: s.insertEnded l ms

/-- The launches whose completion the end of a die's takeover lets through, in the order in which they ended: no other of
their dies is in one (R384). -/
def State.heldLaunches (s : State) (d : BitVec 4) : List Nat :=
  let held (l : Nat) : Bool :=
    let x := s.launch l
    (x.home :: x.rcd.dieList).contains d && !x.reported && x.finalStatus.isSome && !s.takenOver x
  ((s.launches.map Prod.fst).filter held).foldl (fun ls l => s.insertEnded l ls) []

/-- The resources of gangs that ended during a die's takeover, held until it is over (R384). -/
def State.freeHeld (s : State) (d : BitVec 4) : State :=
  (s.launches.map Prod.fst).foldl (fun s l =>
    (List.range (s.launch l).gangs.length).foldl (fun s g =>
      let y := (s.launch l).gang g
      if (s.launch l).rcd.dieOf g == d && y.placed && y.done && !y.freed then s.releaseGang l g else s) s) s

/-- SCHEDULER_TAKEOVER (R383): the standby core fences the active one; while it replays the journal, nothing is
placed, pre-empted, restored or completed. A second event ends the takeover: the standby has replayed the journal from
the last checkpoint and completed what it found half done, held records are written in the order in which their launches
ended, held resources are free, and the whole bitmap is scanned again. A die whose standby core has already taken over
has none left. -/
def execSchedulerTakeover (die : BitVec 4) (s : State) : Out :=
  let d := s.die die
  if !s.broughtUp || d.schedDead then .next s
  else if !d.takeover then
    if d.cores < 2 then .next s
    else .next (s.modDie die fun x => { x with takeover := true, cores := 1 })
  else
    let s := s.modDie die fun x => { x with takeover := false, heldDone := [], lastQueue := 255 }
    let held := s.heldLaunches die
    let s := held.foldl (fun s l => match (s.launch l).finalStatus with
      | some st => (s.journal (s.launch l).home (.complete l)).finishLaunch l st
      | none => s) s
    .next (s.freeHeld die)

/-- The launches that a predicate names, and that have not completed, end with a status where they have not ended, and complete
in the order of their acceptance: none of them is resolved by the end of another. -/
def State.finishAll (s : State) (p : Nat → Bool) (st : BitVec 8) : State :=
  let ls := (s.launches.map Prod.fst).filter fun l => p l && !(s.launch l).reported
  let s := ls.foldl (fun s l => s.endLaunch l st none) s
  ls.foldl (fun s l => s.finishLaunch l (((s.launch l).finalStatus).getD st)) s

/-- SCHEDULER_PAIR_FAILURE (R384): both scheduler cores of a die fail, and the supervisor core completes every launch
of the die DIE_LOST through the command die. -/
def execSchedulerPairFailure (die : BitVec 4) (s : State) : Out :=
  let s := s.modDie die fun x => { x with schedDead := true, takeover := false, heldDone := [], cores := 0 }
  .next (s.finishAll (fun l =>
    let x := s.launch l
    x.home == die || x.die == die || x.rcd.dieList.contains die) 0x0A)

end Sys2Proof.Machine
end

