-- ==== Sys2Proof/Machine/Preempt.lean ====
section
/-! DEFINITION. Pre-emption of a launch, its image chain and its restore (R235, R236, R376 to R380): the events
PREEMPTION_STOP and LAUNCH_RESTORE. -/

namespace Sys2Proof.Machine

/-! ### Who is stopped (R376) -/

/-- Whether a launch may be stopped for another: running, PRE, with an image region, its quantum run. -/
def Launch.eligible (x : Launch) : Bool :=
  x.state == .running && x.rcd.pre && x.rcd.imgSize != 0 && x.quantumUp

/-- The victim on a die for its oldest unplaced gang: the lowest base priority, then the highest ticket. -/
def State.victim (s : State) (d : BitVec 4) : Option Nat :=
  match s.unplaced d with
  | [] => none
  | p :: _ =>
    let e := (s.launch p.1).effPrio
    let can (l : Nat) : Bool :=
      let x := s.launch l
      x.eligible && l != p.1 && x.rcd.dieList.contains d && x.rcd.prio < e
    let key (l : Nat) : Nat × Nat := ((s.launch l).rcd.prio, Tab.get 0 (s.launch l).tickets d.toNat)
    let better (a b : Nat) : Bool := (key a).1 < (key b).1 || ((key a).1 == (key b).1 && (key b).2 < (key a).2)
    ((s.launches.map Prod.fst).filter can).foldl (fun v l => match v with
      | none => some l
      | some w => if better l w then some l else some w) none

/-- Whether a running launch is to be stopped: asked for, or the victim on one of its dies. -/
def State.toStop (s : State) (l : Nat) : Bool :=
  let x := s.launch l
  (x.preemptAsked && x.rcd.imgSize != 0) || x.rcd.dieList.any fun d => s.schedules d && s.victim d == some l

/-! ### Stopping (R377) -/

/-- The gangs of a launch that hold resources. -/
def Launch.liveGangs (x : Launch) : List Gang := x.gangs.filter fun g => g.placed && !g.done

/-- Whether a core has come to rest: its queues and producers have drained, and no load of it waits for a
translation. -/
def Core.atRest (k : Core) : Bool :=
  let held : Bool := match k.phase with
    | .xlate _ => true
    | _ => false
  !k.vbusy && k.arrivals.isEmpty && k.atomics.isEmpty && k.ystores.isEmpty && k.pendingTrap.isNone && !held

/-- Whether a cluster has come to rest: no tile on a link, no copy or chain command left. -/
def Cluster.atRest (x : Cluster) : Bool :=
  x.ring.flying.isEmpty && x.copies.isEmpty && x.copyLog.isEmpty && x.chains.all fun c => c.2.ents.isEmpty

/-- Whether a launch that stops has drained. -/
def State.drained (s : State) (l : Nat) : Bool :=
  let gs := (s.launch l).liveGangs
  ((gs.flatMap Gang.allCores).all fun c => (s.core c).atRest)
    && ((gs.flatMap Gang.clusterIds).all fun k => (s.cluster k).atRest)
    && s.dies.all fun d => d.2.fab.all fun c => c.launch != l

/-- A trap that waits for the next unit boundary is taken: the core is recorded as parked (R377). -/
def State.deliverLate (s : State) (c : CoreId) : State :=
  match (s.core c).lateTrap with
  | some (t, pc) =>
    if (s.core c).park.isSome then s
    else
      let w := s.messageWords c pc.toNat
      let s := s.trapAt c pc w.1 w.2 t
      s.postDiverge c t
  | none => s

/-! ### The image (R378, R379) -/

/-- The local memories and yards of a launch: base and bytes. -/
def Launch.spaces (x : Launch) : List (Nat × Nat) :=
  ((x.liveGangs.flatMap Gang.allCores).map fun c => (localBase c, 2 ^ 15))
    ++ (x.liveGangs.flatMap Gang.clusterIds).map fun k => (yardBase k, 2 ^ 19)

/-- The keys of a table in [a, a+n), as bases of lines. -/
def linesOf {α : Type} (t : Tab α) (a n : Nat) : List Nat :=
  (t.filter fun x => a ≤ x.1 && x.1 < a + n).map fun x => x.1 / 64 * 64

/-- Save lines at an offset of the image region, 80 bytes apart: bytes, their taint and the line's poison go to the region
through the launch's stage-1 translation, a word that is uncorrectable reads back poisoned (R379; log entry 44). -/
def State.saveLines (s : State) (l off : Nat) (bs : List Nat) : List SavedLine × State :=
  let base := (s.launch l).rcd.imgBase
  let saved := ((List.range bs.length).zip bs).map fun x => (⟨x.2, off + 80 * x.1⟩ : SavedLine)
  (saved, saved.foldl (fun s x =>
    let y := s.lineAt x.base
    s.writeVa l (base + x.off) (s.peek x.base 64 ++ bytesOf 1 (y.poison ||| y.uncorr).toNat false)) s)

/-- The lines of a full image: every line that is not as launch start leaves it. -/
def State.fullLines (s : State) (sp : List (Nat × Nat)) : List Nat :=
  (sp.flatMap fun x => linesOf s.mem x.1 x.2 ++ linesOf s.taint x.1 x.2 ++ linesOf s.poison x.1 x.2
    ++ linesOf s.uncorr x.1 x.2).eraseDups

/-- The lines of a delta: every dirty line. -/
def State.dirtyLines (s : State) (sp : List (Nat × Nat)) : List Nat :=
  (sp.flatMap fun x => linesOf s.dirty x.1 x.2).eraseDups

/-- Clear the dirty bits of spaces. -/
def State.cleanSpaces (s : State) (sp : List (Nat × Nat)) : State :=
  { s with dirty := s.dirty.filter fun x => !(sp.any fun y => y.1 ≤ x.1 && x.1 < y.1 + y.2) }

/-- Bytes of an image with n lines: the state of its cores and clusters, and 80 bytes a line (log entry 49). -/
def Launch.imageBytes (x : Launch) (n : Nat) : Nat :=
  (x.liveGangs.flatMap Gang.allCores).length * 16384 + (x.liveGangs.flatMap Gang.clusterIds).length * 131072 + 80 * n

/-- A core as an image keeps it: with its counts of cycles brought up to the stop, and nothing of its L1 or its
instruction store. -/
def State.savedCore (s : State) (c : CoreId) : Core :=
  let k := s.core c
  { k with cycleSaved := k.cycleSaved + (s.clock - k.cycleBase), l1 := [], istore := [], inflight := [], vq := [] }

/-- The leases of a launch with their windows. -/
def State.savedWins (s : State) (l : Nat) : List SavedWin :=
  s.meshes.flatMap fun m => m.2.leases.filterMap fun w => match w.2 with
    | some y => if y.launch = l then
        some { mesh := ⟨BitVec.ofNat 4 (m.1 / 32), BitVec.ofNat 5 m.1⟩, win := w.1, lease := y,
               elems := m.2.wins.filter fun e => e.1 / 2 ^ 14 == w.1 }
      else none
    | none => none

/-- The weight-buffer granules that a launch has written, by flat address. -/
def State.savedGranules (s : State) (l : Nat) : List (Nat × List (Byte × Bool)) :=
  s.meshes.flatMap fun m => m.2.written.filterMap fun w =>
    if w.1 = l then
      let a := wbufBase ⟨BitVec.ofNat 4 (m.1 / 32), BitVec.ofNat 5 m.1⟩ + 512 * w.2
      some (a, s.peek a 512)
    else none

/-- Capture a drained launch and take it off its resources (R377, R378, R379). -/
def State.capture (s : State) (l : Nat) : State :=
  let cores := (s.launch l).liveGangs.flatMap Gang.allCores
  let s := cores.foldl State.deliverLate s
  let x := s.launch l
  let ks := x.liveGangs.flatMap Gang.clusterIds
  let delta := s.dirtyLines x.spaces
  let full := x.imageLinks = 0 || 8 ≤ x.imageLinks || x.rcd.imgSize < x.imageLen + x.imageBytes delta.length
  let bases := if full then s.fullLines x.spaces else delta
  let old := if full then 0 else x.imageLen
  let (saved, s) := s.saveLines l (old + x.imageBytes 0) bases
  let lines := if full then saved else x.savedLines ++ saved
  let links := if full then 1 else x.imageLinks + 1
  let len := old + x.imageBytes bases.length
  let s := s.modLaunch l fun y =>
    { y with
      state := .stopped, savedCores := cores.map fun c => (coreNum c, s.savedCore c)
      savedClusters := ks.map fun k => (k.num, s.cluster k), savedLines := lines, imageLinks := links
      imageLen := len, savedWins := s.savedWins l, savedGranules := s.savedGranules l
      heldTime := y.heldTime + (s.clock - y.placedAt), waitFrom := s.clock, stoppedAt := s.clock, boost := 0
      quantumUp := false, preemptAsked := false }
  let s := s.cleanSpaces x.spaces
  let s := s.eachCore cores fun _ k => { Core.blank with checkAt := k.checkAt }
  let s := s.eachCluster ks fun _ _ => Cluster.blank
  let s := (s.launch l).savedWins.foldl (fun s w => s.freeWindow w.mesh w.win) s
  { s with meshes := s.meshes.map fun m => (m.1, { m.2 with written := m.2.written.filter fun w => w.1 != l }) }

/-- PREEMPTION_STOP (R376, R377): a launch that is to be stopped begins to stop, once a rollback in progress is
complete; once it has drained, it is captured in an image and waits for its restore. A takeover on any of its dies holds
the stop (R384). -/
def execPreemptionStop (l : Nat) (s : State) : Out :=
  let x := s.launch l
  if !(s.schedules x.home && x.rcd.dieList.all s.schedules) then .next s
  else match x.state with
  | .running =>
    if s.toStop l && x.gangs.all fun g => g.rolling.isNone then
      .next ((s.journal x.home (.stopStart l)).modLaunch l fun y => { y with state := .stopping })
    else .next s
  | .stopping => if s.drained l then .next ((s.journal x.home (.stopEnd l)).capture l) else .next s
  | _ => .next s

/-! ### Restore (R236, R378, R380) -/

/-- Whether some line of a launch's image reads back with an uncorrectable error, or its translation is refused
(R380). -/
def State.imageLost (s : State) (l : Nat) : Bool :=
  let x := s.launch l
  (lineParts x.rcd.imgBase x.imageLen).any fun p => match s.xlate l p.1 0 with
    | .ok pa => (s.bad pa p.2).isSome
    | .error _ => true

/-- A cluster as restored: its wake copies keep their remaining lives (R236). -/
def Cluster.later (x : Cluster) (t : Nat) : Cluster :=
  let shift (p : Places) : Places := { p with wake := p.wake.map fun w => { w with left := w.left + t } }
  { x with ring := (x.ring.mapPlaces .a shift).mapPlaces .b shift }

/-- A core as restored, t cycles after the stop; its checker's window is the physical core's. -/
def Core.later (k : Core) (now t : Nat) (window : Option Nat) : Core :=
  { k with cycleBase := now, taskStart := k.taskStart + t, checkAt := window }

/-- A side-log entry goes on after a restore: one whose owner has answered retry replays, one that was refused traps
(R336). -/
def State.resumeEntry (s : State) (c : CoreId) (e : SideEntry) : State :=
  if e.refused.isSome then s.trapLater c e.pc (xlateTrap e.va)
  else if s.xfaults.any fun f => f.token == e.token then s
  else s.replayEntry c e

/-- Rewrite a saved granule (R378): the banks no longer hold what its granule held, its bad mark and drift state are
clear. -/
def State.restoreGranule (s : State) (l : Nat) (a : Nat) (bs : TBytes) : State :=
  let n := (a - 2 ^ 48) / 2 ^ 21
  let m : MeshId := ⟨BitVec.ofNat 4 (n / 32), BitVec.ofNat 5 n⟩
  let g := (a - 2 ^ 48) % 2 ^ 21 / 512
  let un (b : Option BankImage) : Option BankImage :=
    b.map fun im => if im.gran.toNat = g then { im with named := false } else im
  (s.poke a bs).modMesh m fun x =>
    { x with bank0 := un x.bank0, bank1 := un x.bank1, bad := Tab.put false x.bad g false,
             drift := Tab.put .clear x.drift g .clear,
             written := if x.written.contains (l, g) then x.written else x.written ++ [(l, g)] }

/-- A line of a space as the image region holds it (R379). -/
def State.restoreLine (s : State) (l : Nat) (y : SavedLine) : State :=
  let a := (s.launch l).rcd.imgBase + y.off
  let bs := s.readVaT l a 64
  s.putLine y.base
    { bytes := BitVec.ofNat 512 (valOf bs), taint := BitVec.ofNat 64 (packBits (bs.map Prod.snd))
      poison := BitVec.ofNat 8 (valOf (s.readVaT l (a + 64) 1)), uncorr := 0 }

/-- Put a stopped launch back (R378): spaces from the chain of images, cores, clusters, windows and granules; every
member resumes together. -/
def State.restoreLaunch (s : State) (l : Nat) : State :=
  let x := s.launch l
  let t := s.clock - x.stoppedAt
  let sp := x.spaces
  let s := sp.foldl (fun s y => s.clearRange y.1 y.2) s
  let dirty := s.dirty
  let s := x.savedLines.foldl (fun s y => s.restoreLine l y) s
  let s := { s with dirty := dirty }
  let s := x.savedCores.foldl (fun s y =>
    s.modCore (coreOfNum y.1) fun k => y.2.later s.clock t k.checkAt) s
  let s := x.savedClusters.foldl (fun s y =>
    s.modCluster ⟨BitVec.ofNat 4 (y.1 / 1024), BitVec.ofNat 10 y.1⟩ fun _ => y.2.later t) s
  let s := x.savedWins.foldl (fun s w => s.modMesh w.mesh fun m =>
    { m with leases := Tab.put none m.leases w.win (some w.lease),
             wins := w.elems.foldl (fun u e => Tab.put WinElem.zero u e.1 e.2) m.wins }) s
  let s := x.savedGranules.foldl (fun s g => s.restoreGranule l g.1 g.2) s
  let s := s.modLaunch l fun y => { y with state := .running, placedAt := s.clock }
  x.savedCores.foldl (fun s y =>
    y.2.sideLog.foldl (fun s e => s.resumeEntry (coreOfNum y.1) e) s) s

/-- Whether a stopped launch's turn has come: on none of its dies can a gang ahead of it be placed whole. -/
def State.restoreTurn (s : State) (l : Nat) : Bool :=
  (s.launch l).rcd.dieList.all fun d =>
    ((s.unplaced d).takeWhile fun p => p.1 != l).all fun p =>
      (s.launch p.1).state == .stopped || !s.wholeNow p.1 p.2 (s.couldHold p.1 p.2 [] [])

/-- LAUNCH_RESTORE (R378): once the same clusters, ramp cores and windows are free; a chain that cannot be read
whole ends the launch IMAGE_LOST (R380). -/
def execLaunchRestore (l : Nat) (s : State) : Out :=
  let x := s.launch l
  if s.schedules x.home && s.canRestore l && !s.placementHeld l && s.restoreTurn l then
    let s := s.journal x.home (.restoreStart l)
    if s.imageLost l then .next (s.endLaunch l 7 none)
    else .next ((s.restoreLaunch l).journal x.home (.restoreEnd l))
  else .next s

end Sys2Proof.Machine
end

