-- ==== Sys2Proof/Machine/Xfault.lean ====
section
/-! DEFINITION. Translation faults on their way to their owners (R333 to R336) and what an answer does; changes of
a translation (R325, R326); pinned lines of the L2 and the RDC (R329). -/

namespace Sys2Proof.Machine

/-! ### Posting a fault (R333, R334) -/

/-- CLASS, INST, DIE and STATION of a faulting agent (R334). -/
def Agent.place : Agent → Nat × Nat × Nat × Nat
  | .core c => if c.isRamp then (0, coreNum c % 128, c.die.toNat, 0) else (5, c.cluster.cl.toNat, c.die.toNat, c.station.toNat)
  | .copy k => (1, k.cl.toNat, k.die.toNat, 0)
  | .pass k n => (2, k.cl.toNat * 4 + n.toNat, k.die.toNat, 0)
  | .pour => (3, 0, 0, 0)
  | .fabric d => (4, 0, d.toNat, 0)

/-- The 32 bytes of a fault record (R334). -/
def faultRecord (f : XFault) : List Byte :=
  let (cls, inst, die, st) := Agent.place f.ag
  bytesOfNat 8 f.va ++ bytesOfNat 8 (if f.stage2 then f.gpa else 0)
    ++ bytesOfNat 1 (f.stage2.toNat + 2 * f.nested.toNat + 4 * (f.kind % 4) + 16 * (f.level % 8))
    ++ bytesOfNat 1 (f.access % 8) ++ bytesOfNat 2 (cls * 4096 + inst % 4096)
    ++ bytesOfNat 4 (die + f.part.toNat * 16 + st * 256) ++ bytesOfNat 8 f.token

/-- Post the record of a fault to its owner: the hypervisor for stage 2, the partition's system software for stage
1. -/
def State.postFault (s : State) (f : XFault) : State :=
  let m : Mail := .xlate f.va f.gpa f.stage2 f.nested f.kind f.level f.access f.ag f.part f.token
  let s := { s with xfaults := s.xfaults.map fun (x : XFault) => if x.token = f.token then { x with posted := true } else x }
  if f.stage2 then { s with hypMail := s.hypMail ++ [m] }
  else { s with sysMail := Tab.put [] s.sysMail f.part.toNat (Tab.get [] s.sysMail f.part.toNat ++ [m]) }

/-- TRANSLATION_FAULT (R333): the oldest unposted fault of an agent goes to its owner. -/
def execTranslationFault (ag : Agent) (s : State) : Out :=
  match s.xfaults.find? fun f => f.ag == ag && !f.posted with
  | some f => .next (s.postFault f)
  | none => .next s

/-! ### Retry (R335, R336) -/

/-- Status of a final refusal: PERMISSION for kind 1, XLATE_ERROR for every other (R333). -/
def refusalStatus (kind : Nat) : BitVec 8 := if kind = 1 then 6 else 3

/-- Replay an entry of a copy engine's log: the bytes of a command that an hcancel found started carry its intrinsic
taint; an entry of a held write on which the copies of a redundant launch agreed has no command (R196, R336, R386). -/
def State.replayCopy (s : State) (k : ClusterId) (e : SideEntry) : State :=
  let drop (s : State) : State := s.modCluster k fun x =>
    { x with copyLog := x.copyLog.filter fun y => y.token != e.token }
  let cmd := (s.cluster k).copy e.seq
  let c := (cmd.map (·.core)).getD (k.station 0)
  let bs := addTaint ((cmd.map (·.cancelled)).getD false) e.bytes
  if cmd.isNone && e.seq < 2 ^ 32 then drop s
  else match s.xlate (s.launchIx c) e.va 1 with
  | .ok pa => match (s.setRing c e.ring).hbmPut c none pa e.va bs with
    | some t => drop (t.setRing c (s.ringLoad c))
    | none => (drop s).endCopy k e.seq 4
  | .error f =>
    let (s, tok) := s.newFault (.copy k) (s.launchIx c) e.va f 1 false
    s.modCluster k fun x =>
      { x with copyLog := x.copyLog.map fun y => if y.token = e.token then { y with token := tok } else y }

/-- The entries of a log on a fault's page, in log order. -/
def pageEntries (log : List SideEntry) (va : Nat) : List SideEntry :=
  log.filter fun e => e.va / 4096 == va / 4096

/-- Drop the faults that named the listed tokens. -/
def State.dropFaults (s : State) (toks : List Nat) : State :=
  { s with xfaults := s.xfaults.filter fun f => !toks.contains f.token }

/-- Retry for a core: its held unit goes on, its atomic is performed anew, and the page's entries of its side log
replay. -/
def State.retryCore (s : State) (c : CoreId) (f : XFault) : State :=
  let s := s.modCore c fun k =>
    { k with phase := if k.phase = .xlate f.token then .idle else k.phase,
             atomics := k.atomics.map fun o => if o.token = some f.token then { o with token := none } else o }
  if (s.core c).sideLog.any fun e => e.token == f.token then
    let es := pageEntries (s.core c).sideLog f.va
    es.foldl (fun s e => s.replayEntry c e) (s.dropFaults (es.map (·.token)))
  else s

/-- Retry for a copy engine: its held command goes on, and the page's entries replay. -/
def State.retryCopy (s : State) (k : ClusterId) (f : XFault) : State :=
  let s := s.modCluster k fun x =>
    { x with copies := x.copies.map fun c => if c.token = some f.token then { c with token := none } else c }
  if (s.cluster k).copyLog.any fun e => e.token == f.token then
    let es := pageEntries (s.cluster k).copyLog f.va
    es.foldl (fun s e => s.replayCopy k e) (s.dropFaults (es.map (·.token)))
  else s

/-- Retry for a pass chain: a held phld goes on. -/
def State.retryChain (s : State) (k : ClusterId) (n : BitVec 2) (f : XFault) : State :=
  s.modChain k n.toNat fun x =>
    { x with ents := x.ents.map fun e => if e.token = some f.token then { e with token := none } else e }

/-! ### Final refusal (R333, R335, R336) -/

/-- XLATE_ERROR at the next unit boundary, of a core's oldest refused side-log entry: it takes the place of one that
named a younger entry (R336). -/
def State.trapOldest (s : State) (c : CoreId) : State :=
  match (s.core c).sideLog.find? fun e => e.refused.isSome with
  | none => s
  | some e =>
    let s := s.modCore c fun k => { k with lateTrap := k.lateTrap.filter fun x => x.1.cause != .xlateError }
    s.trapLater c e.pc (xlateTrap e.va)

/-- Final refusal for a core: its held load or queued vector access traps XLATE_ERROR, an ordinary core's atomic ends
with the status, and a refused side-log entry traps at the next unit boundary. -/
def State.refuseCore (s : State) (c : CoreId) (f : XFault) : State :=
  let st := refusalStatus f.kind
  let s := s.modCore c fun k =>
    { k with phase := if k.phase = .xlate f.token then .refused f.va else k.phase,
             atomics := k.atomics.map fun o =>
               if o.token = some f.token then { o with token := none, status := some st } else o,
             sideLog := k.sideLog.map fun e => if e.token = f.token then { e with refused := some st } else e }
  let s := if f.vec then
      match (s.core c).vq with
      | e :: _ => s.vectorTrap c e (xlateTrap f.va)
      | [] => s
    else s
  if (s.core c).sideLog.any fun e => e.token == f.token then s.trapOldest c else s

/-- Final refusal for a copy engine: the command ends with the status, and its entries are discarded; a held command
that an hcancel has ended stays as it is (R196). -/
def State.refuseCopy (s : State) (k : ClusterId) (f : XFault) : State :=
  let x := s.cluster k
  let seqs := (x.copies.filter fun c => c.token == some f.token && c.status.isNone).map (·.seq)
    ++ (x.copyLog.filter fun e => e.token == f.token).map (·.seq)
  seqs.foldl (fun s n =>
    let gone := ((s.cluster k).copyLog.filter fun e => e.seq == n).map (·.token)
    let s := (s.dropFaults gone).modCluster k fun x =>
      { x with copyLog := x.copyLog.filter fun e => e.seq != n,
               copies := x.copies.map fun c => if c.seq = n then { c with token := none } else c }
    s.endCopy k n (refusalStatus f.kind)) s

/-- Final refusal for a pass chain: its phld ends with the status (R296). -/
def State.refuseChain (s : State) (k : ClusterId) (n : BitVec 2) (f : XFault) : State :=
  match (s.chain k n.toNat).ents.find? fun e => e.token == some f.token with
  | some e =>
    let r : EntryRef := ⟨k.cl, n, e.seq⟩
    (s.modEntry k.die r fun e => { e with token := none }).refuseLoad k.die r (refusalStatus f.kind)
  | none => s

/-! ### Changes of a translation (R325, R326) -/

/-- TRANSLATION_CHANGE (R325, R326): the L1 lines and the group TLB entries that a change covered are dropped in every
ramp core of the partition. -/
def execTranslationChange (part : BitVec 4) (va len : Nat) (s : State) : Out :=
  let hit (a n : Nat) : Bool := a < va + len && va < a + n
  let s := s.mapCores fun _ k => k.dropL1 fun n l => l.part == part && hit (n * 64) 64
  let ours (e : TlbEntry) : Bool := (Tab.get Vf.blank s.vfs e.vf).part == part && hit (e.page * 4096) 4096
  let drop (d : Die) : Die :=
    { d with tlbs := (d.tlbs.map fun x => (x.1, x.2.filter fun e => !ours e)).filter fun x => !x.2.isEmpty }
  .next { s with dies := s.dies.map fun d => (d.1, drop d.2) }

/-! ### Pins (R329) -/

/-- LINE_ALLOCATE (R327 to R329): a unit outside the model's own allocates and pins a line, in its die's L2 where the line
is homed there and in the RDC otherwise, or waits; an unpin lets the set's earliest waiting allocation through. -/
def execLineAllocate (r : LineReq) (s : State) : Out :=
  if r.rdc != inRdc r.die (r.line * 64) then .next s
  else .next (if r.unpin then s.unpin r.die r.rdc r.line else s.allocate r)

end Sys2Proof.Machine
end

