-- ==== Sys2Proof/Machine/Package.lean ====
section
/-! DEFINITION. The package interface (R395 to R400, R405, R408, R413): the commands of level-1 software and their
responses. -/

namespace Sys2Proof

/-- n bytes of a command from byte a, as a number. -/
def PkgCmd.num (c : PkgCmd) (a n : Nat) : Nat := c.bytes.toNat / 2 ^ (8 * a) % 2 ^ (8 * n)
/-- OP (R396). -/
def PkgCmd.op (c : PkgCmd) : Nat := c.num 0 2
/-- PART (R396). -/
def PkgCmd.part (c : PkgCmd) : BitVec 4 := c.bytes.extractLsb' 16 4
/-- CTAG (R396). -/
def PkgCmd.ctag (c : PkgCmd) : BitVec 32 := c.bytes.extractLsb' 32 32
/-- Whether every byte from byte 8 on that is not among the used ones is zero, and so are the bits of bytes 2 and 3
beside PART (R396). -/
def PkgCmd.restZero (c : PkgCmd) (used : List (Nat × Nat)) : Bool :=
  c.num 2 2 < 16 && (List.range 120).all fun i =>
    (used.any fun u => u.1 ≤ i + 8 && i + 8 < u.1 + u.2) || c.num (i + 8) 1 == 0

/-- The package and the partition that a SEAL_JOIN names as its peer (R396). -/
def PkgCmd.peerOf (c : PkgCmd) : BitVec 20 × BitVec 4 := (c.bytes.extractLsb' 64 20, c.bytes.extractLsb' 84 4)

end Sys2Proof

namespace Sys2Proof.Machine

/-! ### Commands and responses (R395 to R397) -/

/-- The response of a command. -/
def PkgCmd.response (c : PkgCmd) (status : Nat) (result : BitVec 192) : Response :=
  { op := c.op, part := c.part, status := status, ctag := c.ctag, result := result }

/-- The 32 bytes of a response (R397). -/
def responseRecord (r : Response) : List Byte :=
  bytesOfNat 2 r.op ++ bytesOfNat 1 r.part.toNat ++ bytesOfNat 1 r.status ++ bytesOfNat 4 r.ctag.toNat
    ++ bytesOfNat 24 r.result.toNat

/-- The answers at the head of the waiting ones that are there go on the response ring (R397). -/
def State.drainAnswers (s : State) : List (Sum (BitVec 4) Response) → State
  | .inr r :: rest => ({ s with responses := s.responses ++ [r], answers := rest } : State).drainAnswers rest
  | xs => { s with answers := xs }

/-- Answer a command: on the response ring, in command order, behind a RESTORE that still runs (R395, R397). -/
def State.respond (s : State) (c : PkgCmd) (status : Nat) (result : BitVec 192 := 0) : State :=
  let r := PkgCmd.response c status result
  if s.answers.isEmpty then { s with responses := s.responses ++ [r] } else { s with answers := s.answers ++ [.inr r] }

/-- Answer the RESTORE of a partition that was held, in its place. -/
def State.answerRestore (s : State) (c : PkgCmd) (status : Nat) (result : BitVec 192 := 0) : State :=
  s.drainAnswers (s.answers.map fun a => if a = .inl c.part then .inr (PkgCmd.response c status result) else a)

/-- Run a command: an issuer that is not entitled is DENIED, a record that breaks R396 is BADARG; else f answers with
its state and status. -/
def State.command (s : State) (c : PkgCmd) (op : Nat) (entitled : Bool) (used : List (Nat × Nat))
    (f : State → State × Nat) : Out :=
  if !entitled then .next (s.respond c 1)
  else if c.op ≠ op || !c.restZero used then .next (s.respond c 2)
  else
    let (s, st) := f s
    .next (s.respond c st)

/-- Whether the hypervisor issued a command. -/
def PkgCmd.byHypervisor (c : PkgCmd) : Bool := c.issuer.isNone
/-- Whether the partition that a command names issued it. -/
def PkgCmd.byOwner (c : PkgCmd) : Bool := c.issuer == some c.part

/-! ### Partitions and virtual functions (R399, R400) -/

/-- Dies that a partition owns. -/
def State.ownedBy (s : State) (p : BitVec 4) : BitVec 16 := ((s.part p).map fun (x : Part) => x.dies).getD 0
/-- Dies that some partition owns. -/
def State.ownedDies (s : State) : BitVec 16 :=
  s.parts.foldl (fun m x => m ||| (x.2.map fun (y : Part) => y.dies).getD 0) 0

/-- The vector units of dies that pass to a partition take their reset policy (R143). -/
def State.resetUnits (s : State) (dies : BitVec 16) : State :=
  let dieOf (n : Nat) : Nat := if n < 0x100000 then n / 8192 else (n - 0x100000) / 128
  let one (x : Nat × Svu) : Nat × Svu :=
    if dies.getLsbD (dieOf x.1) then (x.1, { x.2 with age := 64, rr := false }) else x
  { s with svus := s.svus.map one }

/-- PART_CREATE (R399). -/
def execPartCreate (cmd : PkgCmd) (s : State) : Out :=
  s.command cmd 1 (PkgCmd.byHypervisor cmd) [(8, 2), (16, 8)] fun s =>
    let dies := BitVec.ofNat 16 (cmd.num 8 2)
    let root := cmd.num 16 8
    if root % 4096 ≠ 0 || 2 ^ 44 ≤ root then (s, 2)
    else if (s.part cmd.part).isSome || dies &&& s.ownedDies ≠ 0 then (s, 3)
    else
      let x : Part := { dies := dies, s2root := root, pmr := 0, tsk := none, cast := none, restoring := none }
      let s := s.resetUnits dies
      ({ s with parts := Tab.put none s.parts cmd.part.toNat (some x) }, 0)

/-- The die of a flat address. -/
def dieOfFlat (a : Nat) : Nat :=
  if a < 2 ^ 44 then a / 2 ^ 40
  else if a < 2 ^ 46 then (coreOfNum ((a - 2 ^ 45) / 2 ^ 15)).die.toNat
  else if a < 2 ^ 47 then (a - 2 ^ 46) / 2 ^ 29
  else if a < 2 ^ 48 then (a - 2 ^ 47) / 2 ^ 25
  else (a - 2 ^ 48) / 2 ^ 26

/-- Zero the SRAM and HBM of dies: their bytes, meshes, receive queues and caches. -/
def State.zeroDies (s : State) (dies : BitVec 16) : State :=
  let out {α : Type} (t : Tab α) : Tab α := t.filter fun x => !dies.getLsbD (dieOfFlat x.1)
  let die (x : Nat × Die) : Nat × Die :=
    if dies.getLsbD x.1 then (x.1, { x.2 with rq := [], rqSources := [], engines := [], l2 := [], rdc := [], present := [],
                                                    lineWaits := [], tlbs := [] }) else x
  { s with mem := out s.mem, taint := out s.taint, uncorr := out s.uncorr, poison := out s.poison
           dirty := out s.dirty, meshes := s.meshes.filter fun m => !dies.getLsbD (m.1 / 32)
           dies := s.dies.map die }

/-- The translation faults of a partition go unanswered: packets of other packages that wait for them are refused. -/
def State.dropPartFaults (s : State) (p : BitVec 4) : State :=
  let mine := s.xfaults.filter fun f => f.part == p
  let s := mine.foldl (fun s f => s.refusePackets f.token 3) s
  { s with xfaults := s.xfaults.filter fun f => f.part != p }

/-- PART_DESTROY (R399): its sealing key is erased from SRAM and flash; a RESTORE of the partition that still runs ends XLATE, its pages zeroed with the rest (log entry
54). -/
def execPartDestroy (cmd : PkgCmd) (s : State) : Out :=
  s.command cmd 2 (PkgCmd.byHypervisor cmd) [] fun s =>
    let p := cmd.part
    match s.part p with
    | none => (s, 2)
    | some x =>
      let s := match x.restoring with
        | some (r, _, _) => s.answerRestore r 9
        | none => s
      let s := s.modPart p fun y => { y with cast := none, restoring := none }
      let s := s.finishAll (fun l => s.partOf l == p) 0x0A
      let s := (s.dropPartFaults p).zeroDies x.dies
      ({ s with parts := Tab.put none s.parts p.toNat none, wrapped := Tab.put none s.wrapped p.toNat none }, 0)

/-- VF_SET (R400). -/
def execVfSet (cmd : PkgCmd) (s : State) : Out :=
  s.command cmd 3 (PkgCmd.byHypervisor cmd) [(8, 3), (16, 8)] fun s =>
    let root := cmd.num 16 8
    if 16 ≤ cmd.num 8 1 || 32 ≤ cmd.num 9 1 || 2 ≤ cmd.num 10 1 || root % 4096 ≠ 0 || 2 ^ 48 ≤ root
        || !(s.ownedBy cmd.part).getLsbD (cmd.num 8 1) then (s, 2)
    else
      let v : Vf := { part := cmd.part, s1root := root, sys := (cmd.num 10 1).testBit 0, assigned := true }
      ({ s with vfs := Tab.put Vf.blank s.vfs (vfNum (BitVec.ofNat 4 (cmd.num 8 1)) (cmd.num 9 1)) v }, 0)

/-! ### PREEMPT, UNIT_RETURN, EXTEND, SEAL_JOIN (R376, R390, R405, R407, R408) -/

/-- PREEMPT (R376, R395): the running launch that a die of the partition accepted under an ID. -/
def execPreempt (cmd : PkgCmd) (s : State) : Out :=
  let d := BitVec.ofNat 4 (cmd.num 8 1)
  let owns : Bool := 16 ≤ cmd.num 8 1 || (s.ownedBy cmd.part).getLsbD d.toNat
  s.command cmd 5 (PkgCmd.byOwner cmd && owns) [(8, 1), (12, 4)] fun s =>
    if 16 ≤ cmd.num 8 1 then (s, 2)
    else
      let id := BitVec.ofNat 32 (cmd.num 12 4)
      let hit (x : Nat × Option Launch) : Bool := match x.2 with
        | some y => y.die == d && y.id == id && y.state == .running && s.partOf x.1 == cmd.part
        | none => false
      match s.launches.find? hit with
      | some (l, _) => (s.modLaunch l fun y => { y with preemptAsked := true }, 0)
      | none => (s, 10)

/-- UNIT_RETURN (R390). -/
def execUnitReturn (cmd : PkgCmd) (s : State) : Out :=
  s.command cmd 6 (PkgCmd.byHypervisor cmd) [(8, 4)] fun s =>
    let u := cmd.num 8 4
    if 2 ^ 24 ≤ u then (s, 2)
    else if s.quarantine.contains (BitVec.ofNat 24 u) then
      ({ s with quarantine := s.quarantine.erase (BitVec.ofNat 24 u) }, 0)
    else (s, 10)

/-- PMR extended by data (R405). -/
def extendPmr (pmr : BitVec 512) (data : List Byte) : BitVec 512 :=
  BitVec.ofNat 512 (natOfBytes (sha512 (bytesOfNat 64 pmr.toNat ++ data)))

/-- EXTEND (R405): a held sealing key is erased, in flash too (R407). -/
def execExtend (cmd : PkgCmd) (s : State) : Out :=
  s.command cmd 7 (PkgCmd.byOwner cmd) [(8, 64)] fun s =>
    if (s.part cmd.part).isNone then (s, 2)
    else
      let data := bytesOfNat 64 (cmd.num 8 64)
      let held : Bool := ((s.part cmd.part).bind (·.tsk)).isSome
      let s := s.modPart cmd.part fun x => { x with pmr := extendPmr x.pmr data, tsk := none }
      (if held then { s with wrapped := Tab.put none s.wrapped cmd.part.toNat none } else s, 0)

/-- A partition's controller installs a sealing key: in its SRAM, and in flash wrapped with the PMR of now (R407). -/
def State.installKey (s : State) (p : BitVec 4) (key : BitVec 256) : State :=
  match s.part p with
  | none => s
  | some x =>
    { s.modPart p fun y => { y with tsk := some key } with
      wrapped := Tab.put none s.wrapped p.toNat (some (key, x.pmr)) }

/-- A wrapped key whose PMR is the partition's unwraps, where the partition holds none and the package can attest (R407;
log entry 68). -/
def State.unseal (s : State) (p : BitVec 4) : State :=
  match s.part p, Tab.get none s.wrapped p.toNat with
  | some x, some (key, pmr) =>
    if x.tsk.isNone && x.pmr == pmr && s.attests && s.broughtUp then s.modPart p fun y => { y with tsk := some key } else s
  | _, _ => s

/-- What an exchange with a peer gives the joining partition: the status that ends it, or the peer's key and counter. -/
abbrev SealAnswer := Except Nat (BitVec 256 × DWord)

/-- The exchange with a partition of this package: both sides are reported by one root controller, so that each side's checks
come down to one measurement (R406, R408). -/
def State.sealLocal (s : State) (p q : BitVec 4) : SealAnswer :=
  match s.part p, s.part q with
  | some x, some y =>
    if !s.attests || x.pmr != y.pmr then .error 8
    else match y.tsk with
      | none => .error 4
      | some k => .ok (k, Tab.get 0 s.counters q.toNat)
  | _, _ => .error 8

/-- The exchange with a partition of another package: the peer's report must be over the joiner's nonce, of the partition that
the command names, and with the joiner's own measurement (R406, R408; log entry 54). -/
def State.sealRemote (s : State) (p : BitVec 4) (whom : BitVec 20 × BitVec 4) (peer : SealPeer) : SealAnswer :=
  let rep := peer.report
  let named := rep.extractLsb' 1600 20 == whom.1 && rep.extractLsb' 1620 4 == whom.2 && rep.extractLsb' 1624 8 == 0
  let measured := (s.part p).any fun x => rep.extractLsb' 512 512 == x.pmr
  if !peer.reached || !peer.verified || !s.attests || rep.extractLsb' 0 512 != peer.nonce || !named || !measured then .error 8
  else match peer.answer with
    | none => .error 4
    | some x => .ok x

/-- SEAL_JOIN (R407, R408): a new seal group for a partition without a key, or the peer's key and counter. -/
def execSealJoin (cmd : PkgCmd) (peer : SealPeer) (s : State) : Out :=
  let p := cmd.part
  let joins := (cmd.num 8 4).testBit 24
  let holds : Bool := ((s.part p).bind (·.tsk)).isSome
  s.command cmd 8 (PkgCmd.byOwner cmd && (joins || !holds)) [(8, 4)] fun s =>
    if 2 ^ 25 ≤ cmd.num 8 4 || (s.part p).isNone then (s, 2)
    else if s.castBusy p then (s, 3)
    else if !joins then (s.installKey p peer.fresh, 0)
    else match if cmd.peerOf.1 = Config.packageId then s.sealLocal p cmd.peerOf.2 else s.sealRemote p cmd.peerOf peer with
    | .error st => (s, st)
    | .ok (key, ctr) =>
      let c := Tab.get 0 s.counters p.toNat
      let s := s.installKey p key
      ({ s with counters := Tab.put 0 s.counters p.toNat (if c.toNat < ctr.toNat then ctr else c) }, 0)

/-! ### RESTORE (R413) -/

/-- What a RESTORE comes to: done, refused with a status, or held by a fault, the latter two with the physical addresses of
the pages written so far. -/
inductive Restored where
  | done (s : State) (sstep : Word) (cutStep tag : DWord)
  | failed (s : State) (status : Nat) (written : List Nat)
  | fault (s : State) (e : XErr) (va acc : Nat) (written : List Nat)

/-- What RESTORE reads and writes through: a virtual function's stage-1 space. -/
def State.vfXlate (s : State) (v : Vf) (va : Nat) (acc : Access) : Except XErr Nat :=
  translate s.mem v.s1root (s.s2root v.part) va acc

/-- Read bytes of the cast: a bad line gives none, as its tag cannot verify. -/
def State.vfRead (s : State) (v : Vf) : List (Nat × Nat) → Except (XErr × Nat) (Option (List Byte))
  | [] => .ok (some [])
  | (va, n) :: rest =>
    match s.vfXlate v va 0 with
    | .error e => .error (e, va)
    | .ok pa => match s.vfRead v rest with
      | .error e => .error e
      | .ok none => .ok none
      | .ok (some bs) => if (s.bad pa n).isSome then .ok none else .ok (some (s.mem.readN pa n ++ bs))

/-- The fields of a cast header: PMR, c, package, SSTEP, CUTSTEP, TAG and NRANGE; none where it is no header. -/
structure CastHead where
  pmr : BitVec 512
  c : DWord
  pkg : BitVec 20
  sstep : Word
  cutStep : DWord
  tag : DWord
  nrange : Nat
  deriving DecidableEq, Repr

/-- Decode a cast header. -/
def castHead (bs : List Byte) : Option CastHead :=
  let f (a n : Nat) : Nat := natOfBytes ((bs.drop a).take n)
  if bs.take 4 ≠ [0x43, 0x41, 0x53, 0x54] || f 4 4 ≠ 1 then none
  else some { pmr := BitVec.ofNat 512 (f 8 64), c := BitVec.ofNat 64 (f 72 8), pkg := BitVec.ofNat 20 (f 80 4)
              sstep := BitVec.ofNat 32 (f 84 4), cutStep := BitVec.ofNat 64 (f 88 8), tag := BitVec.ofNat 64 (f 96 8)
              nrange := f 104 4 }

/-- Write the pages of one segment; the physical addresses of the written pages, newest first, with a fault if one stops
it. -/
def State.restorePages (s : State) (v : Vf) (done : List Nat) : List Nat → TBytes →
    State × List Nat × Option (XErr × Nat)
  | [], _ => (s, done, none)
  | va :: rest, bs =>
    match s.vfXlate v va 1 with
    | .error e => (s, done, some (e, va))
    | .ok pa => ((s.stageFor pa).pokeHome pa (bs.take 4096)).restorePages v (pa :: done) rest (bs.drop 4096)

/-- Zero the pages that a RESTORE wrote (R397, R413). -/
def State.zeroPages (s : State) (pas : List Nat) : State :=
  pas.foldl (fun s pa => s.pokeHome pa (List.replicate 4096 (0, false))) s

/-- Bytes with the taint bits that follow them in a segment. -/
def openTaint (bs ts : List Byte) : TBytes :=
  ((List.range bs.length).zip bs).map fun x => (x.2, (ts.getD (x.1 / 8) 0).getLsbD (x.1 % 8))

/-- Verify and write the segments from index i on, at most n; off is the next segment's offset in the cast. -/
def State.restoreSegments (s : State) (v : Vf) (key : List Byte) (c : DWord) (t : List (Nat × Nat)) (va len : Nat)
    (h : CastHead) : Nat → Nat → Nat → List Nat → Restored
  | 0, _, _, _ => .done s h.sstep h.cutStep h.tag
  | n + 1, i, off, done =>
    let pages := segmentPages t i
    let size := 4096 * pages.length
    let all := size + size / 8
    if pages.isEmpty then .done s h.sstep h.cutStep h.tag
    else if len < off + all + 16 then .failed s 5 done
    else match s.vfRead v (lineParts (va + off) (all + 16)) with
    | .error (e, a) => .fault s e a 0 done
    | .ok none => .failed s 5 done
    | .ok (some bs) =>
      match gcmOpen key (castIv c i) [] (bs.take all) (bs.drop all) with
      | none => .failed s 5 done
      | some pt =>
        match s.restorePages v done pages (openTaint (pt.take size) (pt.drop size)) with
        | (s, done, some (e, a)) => .fault s e a 1 done
        | (s, done, none) => s.restoreSegments v key c t va len h n (i + 1) (off + all + 16) done

/-- RESTORE's checks in their order, then its writes; done are the pages that it had written before a fault held it (R413). -/
def State.restoreRun (s : State) (p : BitVec 4) (v : Vf) (va len : Nat) (tsk : BitVec 256) (done : List Nat) : Restored :=
  if len < 128 then .failed s 5 done
  else match s.vfRead v (lineParts va 112) with
  | .error (e, a) => .fault s e a 0 done
  | .ok none => .failed s 5 done
  | .ok (some hd) =>
    match castHead hd with
    | none => .failed s 5 done
    | some h =>
      let n := 16 * h.nrange
      if len < 128 + n then .failed s 5 done
      else match s.vfRead v (lineParts (va + 112) (n + 16)) with
      | .error (e, a) => .fault s e a 0 done
      | .ok none => .failed s 5 done
      | .ok (some bs) =>
        let key := castKey tsk h.pmr h.c h.pkg
        let tb := bs.take n
        match gcmOpen key (castIv h.c headerIndex) (hd ++ tb) [] (bs.drop n), rangeTable tb h.nrange with
        | some _, some t =>
          if some h.pmr ≠ (s.part p).map (fun (x : Part) => x.pmr) then .failed s 6 done
          else if h.c.toNat < (Tab.get 0 s.counters p.toNat).toNat then .failed s 7 done
          else
            let pages := (t.map Prod.snd).sum / 4096
            match s.restoreSegments v key h.c t va len h (pages / 16 + 1) 0 (128 + n) done with
            | .done s a b d => .done { s with counters := Tab.put 0 s.counters p.toNat h.c } a b d
            | r => r
        | _, _ => .failed s 5 done

/-- The virtual function whose stage-1 space a RESTORE uses. -/
def State.restoreVf (s : State) (cmd : PkgCmd) : Vf :=
  Tab.get Vf.blank s.vfs (vfNum (BitVec.ofNat 4 (cmd.num 8 1)) (cmd.num 9 1))

/-- Run a RESTORE that may run, from its start: its status and result, or none where a fault holds it. One that ends with
another status than OK leaves every page that it has written zeroed, on this run or an earlier one (R397, R413). -/
def State.runRestore (s : State) (cmd : PkgCmd) (done : List Nat) : State × Option (Nat × BitVec 192) :=
  let p := cmd.part
  match (s.part p).bind (·.tsk) with
  | none => (s.zeroPages done, some (4, 0))
  | some tsk =>
    match s.restoreRun p (s.restoreVf cmd) (cmd.num 16 8) (cmd.num 24 8) tsk done with
    | .done s a b d => (s, some (0, BitVec.ofNat 192 (a.toNat + b.toNat * 2 ^ 64 + d.toNat * 2 ^ 128)))
    | .failed s st done => (s.zeroPages done, some (st, 0))
    | .fault s e va acc done =>
      let f : XFault :=
        { token := s.nextToken, ag := .pour, va := va, gpa := if e.stage2 then e.gpa else 0, stage2 := e.stage2
          nested := e.nested, kind := e.kind, level := e.level, access := acc, part := p, posted := false
          vec := false }
      let s := { s with xfaults := s.xfaults ++ [f], nextToken := s.nextToken + 1 }
      (s.modPart p fun x => { x with restoring := some (cmd, f.token, done) }, none)

/-- RESTORE (R395, R397, R413). -/
def execRestore (cmd : PkgCmd) (s : State) : Out :=
  let p := cmd.part
  let v := s.restoreVf cmd
  let limits : Bool := 16 ≤ cmd.num 8 1 || 32 ≤ cmd.num 9 1
  if !PkgCmd.byOwner cmd || (!limits && !(v.assigned && v.part == p)) then .next (s.respond cmd 1)
  else if cmd.op ≠ 9 || !cmd.restZero [(8, 2), (16, 16)] || limits || (s.part p).isNone
      || 2 ^ 56 < cmd.num 16 8 + cmd.num 24 8 then .next (s.respond cmd 2)
  else if s.castBusy p then .next (s.respond cmd 3)
  else match s.runRestore cmd [] with
  | (s, some (st, r)) => .next (s.respond cmd st r)
  | (s, none) => .next { s with answers := s.answers ++ [.inl p] }

/-! ### FAULT_REPLY (R333 to R336, R395) -/

/-- A RESTORE goes on, or ends XLATE with the pages it has written zeroed. -/
def State.resumeRestore (s : State) (p : BitVec 4) (tok : Nat) (retry : Bool) : State :=
  match (s.part p).bind (·.restoring) with
  | some (cmd, t, done) =>
    if t ≠ tok then s
    else
      let s := s.modPart p fun x => { x with restoring := none }
      if retry then
        match s.runRestore cmd done with
        | (s, some (st, r)) => s.answerRestore cmd st r
        | (s, none) => s
      else (s.zeroPages done).answerRestore cmd 9
  | none => s

/-- A stopped launch remembers that an owner has declined an entry of a side log in its image. -/
def State.refuseSaved (s : State) (tok : Nat) (st : BitVec 8) : State :=
  let entry (e : SideEntry) : SideEntry := if e.token = tok then { e with refused := some st } else e
  let core (c : Nat × Core) : Nat × Core := (c.1, { c.2 with sideLog := c.2.sideLog.map entry })
  { s with launches := s.launches.map fun x =>
      (x.1, x.2.map fun (y : Launch) => { y with savedCores := y.savedCores.map core }) }

/-- The owner answers retry: the agent's held work goes on. -/
def State.retryFault (s : State) (f : XFault) : State :=
  match f.ag with
  | .core c => s.retryCore c f
  | .copy k => s.retryCopy k f
  | .pass k n => s.retryChain k n f
  | .pour => s.resumeRestore f.part f.token true
  | .fabric d => (s.retryPackets f.token).retryFab d f.token

/-- A final refusal reaches the agent; a cast ends XLATE_ERROR whatever the fault's kind (R412). -/
def State.refuseFault (s : State) (f : XFault) : State :=
  let st := refusalStatus f.kind
  match f.ag with
  | .core c => (s.refuseCore c f).refuseSaved f.token st
  | .copy k => s.refuseCopy k f
  | .pass k n => s.refuseChain k n f
  | .pour =>
    if ((s.part f.part).bind (·.restoring)).isSome then s.resumeRestore f.part f.token false
    else match (s.part f.part).bind (·.cast) with
      | some k => s.endCast f.part k 3
      | none => s
  | .fabric d => (s.refusePackets f.token st).refuseFab d f.token st

/-- FAULT_REPLY (R334, R395, R397): the owner of a record answers it once: the hypervisor for stage 2, the partition for
stage 1; another partition's record is not its to answer. -/
def execFaultReply (cmd : PkgCmd) (s : State) : Out :=
  let named := s.xfaults.find? fun f => f.token == cmd.num 8 8 && f.posted
  let fault := named.filter fun f => f.part == cmd.part
  let owner : Bool := match named with
    | some f => if f.stage2 then PkgCmd.byHypervisor cmd else PkgCmd.byOwner cmd && f.part == cmd.part
    | none => PkgCmd.byHypervisor cmd || PkgCmd.byOwner cmd
  s.command cmd 4 owner [(8, 9)] fun s =>
    match fault with
    | none => (s, 10)
    | some f =>
      if 2 ≤ cmd.num 16 1 then (s, 2)
      else
        let s := { s with xfaults := s.xfaults.filter fun x => x.token != f.token }
        (if cmd.num 16 1 = 0 then s.retryFault f else s.refuseFault f, 0)

end Sys2Proof.Machine
end

