-- ==== Sys2Proof/Machine/Power.lean ====
section
/-! DEFINITION. Bring-up, the power cap and the security alarm (R403, R411, R415, R416). -/

namespace Sys2Proof.Machine

/-! ### The security alarm (R411) -/

/-- The alarm class of a sensor: two bits of ALARMCLS each (R447). -/
def ConfStore.alarmOf (c : ConfStore) (sensor : BitVec 2) : BitVec 2 :=
  (c.alarmCls >>> (2 * sensor.toNat)).setWidth 2

/-- Class 1: every launch of the package completes DIE_LOST, and casts in flight are abandoned. -/
def State.loseAll (s : State) : State :=
  let s := { s with parts := s.parts.map fun (x : Nat × Option Part) =>
    (x.1, x.2.map fun (y : Part) => { y with cast := none }) }
  s.finishAll (fun _ => true) 0x0A

/-- Class 2: every sealing key is erased in SRAM and flash, a RESTORE that waits finds no key, and all SRAM, the ports'
and the ordered-delivery buffer's among it, and HBM is cleared. -/
def State.eraseAll (s : State) : State :=
  let s := s.parts.foldl (fun s x => match x.2.bind (·.restoring) with
    | some (cmd, tok, _) => (s.answerRestore cmd 4).dropFaults [tok]
    | none => s) s
  let s := { s with parts := s.parts.map fun (x : Nat × Option Part) =>
    (x.1, x.2.map fun (y : Part) => { y with tsk := none, restoring := none }) }
  { s.zeroDies (BitVec.allOnes 16) with
    odb := [], loopIn := [], unrouted := [], waitPkts := [], wrapped := []
    fports := s.fports.map fun x => (x.1, { x.2 with replay := [] }) }

/-- SECURITY_ALARM (R411): the event is logged, and every class up to the sensor's has its effect; no class touches
the counters. -/
def execSecurityAlarm (sensor : BitVec 2) (s : State) : Out :=
  let cls := s.conf.alarmOf sensor
  let all := s.alarms ++ [{ time := s.ftime, sensor := sensor, cls := cls }]
  let s := { s with alarms := all.drop (all.length - 16) }
  let s := if 1 ≤ cls.toNat then s.loseAll else s
  let s := if 2 ≤ cls.toNat then s.eraseAll else s
  .next (if cls = 3 then { s with attests := false } else s)

/-! ### Bring-up (R415) -/

/-- Whether a store's signature verifies: against the Sotaryn key hash, or through a delegation certificate that itself
verifies (R403). -/
def StoreSign.verifies : StoreSign → Bool
  | .sotaryn ok => ok
  | .delegated certificate ok => certificate && ok

/-- Whether every item of a store lies in its range (R403, R429, R432). -/
def ConfStore.inRange (c : ConfStore) : Bool :=
  let within (n lo hi : Nat) : Bool := lo ≤ n && n ≤ hi
  within c.checkWin (2 ^ 20) (2 ^ 40) && within c.ageInt 100 1000000 && within c.quantum 100 1000000
    && within c.pourShare 1 64 && within c.beacon 16 1024 && c.beacon % 4 == 0 && within c.stall 1000 10000000
    && within c.powerCap 2000 10000 && c.powerCap % 250 == 0
    && c.thermLim.all fun x => within x.2.toNat 1 127

/-- Whether a store passes at bring-up: signed, and every item in range (R403; log entry 68). -/
def ConfStore.verified (c : ConfStore) : Bool := c.sign.verifies && c.inRange

/-- Level-1 software writes a new store, which takes effect at the next bring-up (R403). -/
def State.writeStore (s : State) (c : ConfStore) : State := { s with newStore := some c }

/-- The package is reset: what stands in flash stays, the stores, the counters, the wrapped sealing keys, the identity's helper data, the withdrawn
units and the alarm log (R390, R403, R404, R407, R409, R411; log entry 68). -/
def State.restart (s : State) : State :=
  { State.reset with
    agenda := s.agenda, cur := s.cur, free := s.free, conf := s.conf, newStore := s.newStore, counters := s.counters
    wrapped := s.wrapped
    attests := s.attests, quarantine := s.quarantine, alarms := s.alarms, host := s.host, hostWrites := s.hostWrites }

/-- The bytes of a store as the platform measurement takes them: its items in the order of R447, dword by dword (log
entry 5). -/
def ConfStore.bytes (c : ConfStore) : List Byte :=
  ([c.checkWin, c.ageInt, c.quantum, c.pourShare, c.beacon, c.stall, c.powerCap, c.alarmCls.toNat]
    ++ (List.range 16).map fun d => (Tab.get 0x78 c.ebcCal d).toNat * 2 ^ 8 + (Tab.get 32 c.thermLim d).toNat * 2 ^ 16).flatMap
      (bytesOfNat 8)

/-- PLAT: the SHA-512 chain over the controller firmware, the store, the scheduler and supervisor firmware and the
hypervisor (R405). -/
def ConfStore.plat (c : ConfStore) : BitVec 512 :=
  [Config.controllerFirmware, c.bytes, Config.dieFirmware, Config.hypervisor].foldl extendPmr 0

/-- BRING_UP (R415): with its store verified the package takes PLAT, zeroes the HBM, sets the fabric reserve aside (R431),
takes the grandmaster's fabric time (R421) and starts its schedulers, and its ports may train (the environment's turn); a store that fails verification leaves only the recovery interface (R403). -/
def execBringUp (s : State) : Out :=
  let conf := s.newStore.getD s.conf
  if s.broughtUp then .next s
  else if !conf.verified then .fault .recoveryInterface
  else
    let out {α : Type} (t : Tab α) : Tab α := t.filter fun x => !isHbm x.1
    .next { s with
      mem := out s.mem, taint := out s.taint, uncorr := out s.uncorr, poison := out s.poison, dirty := out s.dirty
      conf := conf, newStore := none, pmrPlat := conf.plat, broughtUp := true
      ftimeBase := Config.grandmasterTime, ftimeAt := s.clock, ftimeSlow := false
      fabReserve := some (Config.fabricReservePage % (2 ^ 28 - 2 ^ 18) * 4096) }

/-! ### Power (R416) -/

/-- POWER_CAP_THROTTLE (R416): at or above POWERCAP the clocks go down one step; only timing changes. -/
def execPowerCapThrottle (watts : Nat) (s : State) : Out :=
  .next (if s.conf.powerCap ≤ watts then { s with throttle := s.throttle + 1 } else s)

/-- POWER_RESTORE_CLOCKS (R416): below POWERCAP the clocks come back one step. -/
def execPowerRestoreClocks (watts : Nat) (s : State) : Out :=
  .next (if watts < s.conf.powerCap then { s with throttle := s.throttle - 1 } else s)

end Sys2Proof.Machine
end

