-- ==== Sys2Proof/Machine/Rollback.lean ====
section
/-! DEFINITION. Superstep rollback (R381, R382) and third runs (R386, R387): the events SUPERSTEP_ROLLBACK and
THIRD_RUN. -/

namespace Sys2Proof.Machine

/-! ### When a gang rolls back -/

/-- The earliest parked core of a gang whose action is rollback, a station that runs a created task without a member
included (R38, R389; log entry 59). -/
def State.rollbackFor (s : State) (l g : Nat) : Option (CoreId × Park) :=
  let cs := ((s.launch l).gang g).allCores
  let parked := cs.filterMap fun c => (s.parkedFor c 2).map fun p => (c, p)
  let first := parked.findSome? fun x =>
    (Tab.get [] s.supMail x.1.die.toNat).findSome? fun m => match m with
      | .trap d q _ => if cs.contains d && s.parkedFor d 2 = some q then some (d, q) else none
      | _ => none
  first.or parked.head?

/-- Whether a carriageway of a gang has faulted (R234). -/
def State.gangRingFault (s : State) (l g : Nat) : Bool :=
  ((s.launch l).gang g).clusterIds.any fun k => (s.cluster k).ring.fault

/-- Whether every started unit of a gang's pass chains and copy engines has finished (R381). -/
def State.unitsFinished (s : State) (l g : Nat) : Bool :=
  ((s.launch l).gang g).clusterIds.all fun k =>
    ((s.cluster k).chains.all fun c => c.2.ents.all fun e => e.waits || e.finished)
      && (s.cluster k).copies.all fun c => c.atUnit

/-! ### What a rollback restores (R381) -/

/-- Local memory of a core and its registers as at the barrier; its queues empty. -/
def State.rollCore (s : State) (sstep : Word) (c : CoreId) : State :=
  let k := s.core c
  let s := k.shadow.foldl (fun s x => match x.2 with
    | some y => s.putLine (localBase c + 64 * x.1) y
    | none => s) s
  let loads := ((s.cluster c.cluster).ringCkpt.map (·.loads)).getD 0
  let regs := k.ckpt.getD k.toRegs
  let (atomics, issued, ring) := if k.ckpt.isSome then k.mark else (0, 0, none)
  let keep := k.sideLog.filter fun e => e.sstep != sstep.toNat
  let gone := (k.sideLog.filter fun e => e.sstep == sstep.toNat).map (·.token)
    ++ k.atomics.filterMap (·.token) ++ (match k.phase with | .xlate t => [t] | _ => [])
  let trapped := match k.park with
    | some p => p.cause.rank1
    | none => false
  ((s.dropFaults gone).dropMail c).modCore c fun k =>
    { k with
      toRegs := regs, phase := regs.barrierPhase sstep, park := none, pendingTrap := none, lateTrap := none
      stationQ := [], yielded := false, vq := [], inflight := [], ystores := [], atomics := [], arrivals := []
      atomicCount := atomics, hIssued := issued, taskRing := ring, hCancelled := 0, shadow := [], sideLog := keep, sawLoad := min k.sawLoad loads, written := []
      tiAttempt := if trapped && k.tiAttempt != 255 then k.tiAttempt + 1 else k.tiAttempt }

/-- A ring as at the barrier, every tile discarded; that it ran in elastic mode in the launch stands (R14, R381). -/
def Ring.rollTo (x : Ring) (old : Option Ring) : Ring :=
  let y := old.getD .idle
  { y.discard with everElastic := x.everElastic || y.everElastic }

/-- A cluster as at the barrier: its yard, junction table and ring, every tile discarded; its engines' commands
cancelled without completion, and their sequence numbers given again (R391). -/
def State.rollCluster (s : State) (k : ClusterId) : State :=
  let s := s.dropPins k
  let x := s.cluster k
  let s := x.shadow.foldl (fun s y => match y.2 with
    | some z => s.putLine (yardBase k + 64 * y.1) z
    | none => s) s
  let toks := x.copies.filterMap (·.token) ++ x.copyLog.map (·.token)
    ++ x.chains.flatMap fun c => c.2.ents.filterMap (·.token)
  (s.dropFaults toks).modCluster k fun x =>
    { x with
      shadow := [], ring := x.ring.rollTo x.ringCkpt, jt := x.jtCkpt, copies := [], copyLog := []
      copyNext := x.copyCkpt, copyAppenders := []
      chains := x.chains.map fun c => (c.1, { next := Tab.get 0 x.chainCkpt c.1, ents := [], appenders := [] }) }

/-- A convoy of a launch as at a gang's barrier (R228): one that none of the gang's cores has been in stays; of one that
cores of another gang share, which is not rolled back, GEN and the gang's part of the lists are as at the barrier, and the
others keep theirs: what they have arrived in stays open, and the convoy is mustered where its members reach EXPECT (log
entry 62). -/
def Convoy.rollTo (v old : Convoy) (ms : List CoreId) : Convoy :=
  let ours (c : CoreId) : Bool := ms.contains c
  let all := v.members ++ old.members
  if all.all ours then old
  else if !all.any ours then v
  else
    let mix (a b : List CoreId) : List CoreId := (a.filter fun c => !ours c) ++ b.filter ours
    let need (w : Convoy) : List CoreId := if w.isOpen then w.required else w.members
    let members := mix v.members old.members
    let arrived := mix v.arrived old.arrived
    { old with
      members := members, mustered := old.mustered || decide (old.expect ≤ members.length)
      isOpen := old.isOpen || !arrived.isEmpty, required := mix (need v) (need old)
      arrived := arrived, nextArrived := mix v.nextArrived old.nextArrived }

/-- The convoys of a launch after a gang's rollback. -/
def rollConvoys (now old : Tab (Option Convoy)) (ms : List CoreId) : Tab (Option Convoy) :=
  now.map fun x => (x.1, match x.2, Tab.get none old x.1 with
    | some v, some o => some (v.rollTo o ms)
    | v, _ => v)

/-- Casts that members of a gang issued in the superstep, not cut yet, are cancelled with no completion. -/
def State.dropCasts (s : State) (ms : List CoreId) : State :=
  let gone (k : Cast) : Bool := !k.cut && ms.contains k.core && ((s.core k.core).hreg k.h).fill != .pending
  { s with parts := s.parts.map fun x => (x.1, x.2.map fun y =>
      { y with cast := y.cast.filter fun k => !gone k }) }

/-- Roll a gang back to its last barrier. -/
def State.rollGang (s : State) (l g : Nat) : State :=
  let y := (s.launch l).gang g
  let s := y.allCores.foldl (fun s c => s.rollCore y.sstep c) s
  let s := y.clusterIds.foldl State.rollCluster s
  let keep (t : Nat × Option WTag) : Bool := match t.2 with
    | some w => !(w.launch == l && w.gang == g)
    | none => false
  let s := { s with tags := s.tags.filter keep }
  let s := (s.dropCasts y.members).sweepMeshes
  s.modLaunch l fun x =>
    { x.modGang g fun y =>
        { y with pkgIssued := 0, arrived := [], rollbacks := y.rollbacks + 1, rolling := none, pendingMode := none, held := [],
                 disagree := [], atomicPos := [] }
      with convoys := rollConvoys x.convoys y.convoyCkpt y.allCores }

/-- The PKG commands that gangs of a launch issued in the superstep are undone with it, and their sequence numbers given
again, where no other gang of the launch has taken a number since (R391, R412; log entry 62). -/
def Launch.rollPkg (x : Launch) (gs : List Nat) : Launch :=
  let n := gs.foldl (fun n g => n + (x.gang g).pkgIssued) 0
  if gs.all fun g => x.pkgCount = (x.gang g).pkgMark + n then { x with pkgCount := x.pkgCount - n } else x

/-- The gangs that roll back together: both copies of a redundant gang, or the one gang. -/
def Launch.pairOf (x : Launch) (g : Nat) : List Nat :=
  if x.rcd.red && (x.gang g).thirdOf.isNone then [g % max 1 x.rcd.gangs, g % max 1 x.rcd.gangs + x.rcd.gangs] else [g]

/-- The cores of a gang that are parked by a rank-1 fault whose action is rollback. -/
def State.faulted (s : State) (l g : Nat) : List CoreId :=
  ((s.launch l).gang g).allCores.filter fun c => (s.parkedFor c 2).isSome

/-- Cancel the commands of a gang's copy engines and pass chains that have not started, with no completion (R381). -/
def State.cancelUnstarted (s : State) (l g : Nat) : State :=
  s.eachCluster ((s.launch l).gang g).clusterIds fun _ x =>
    { x with copies := x.copies.filter fun c => c.started
             chains := x.chains.map fun c => (c.1, { c.2 with ents := c.2.ents.filter fun e => !e.waits }) }

/-- A rollback of a gang begins, or goes on: its members issue nothing more and its carriageways stand still, commands
not started are cancelled, and a rank-1 fault met since it began restarts it and counts against ROLLMAX (R381). -/
def State.noteRolling (s : State) (l g : Nat) : State :=
  let now := s.faulted l g
  let s := s.cancelUnstarted l g
  s.modGang l g fun y =>
    match y.rolling with
    | none => { y with rolling := some now }
    | some old =>
      let new := now.filter fun c => !old.contains c
      { y with rolling := some (old ++ new), rollbacks := y.rollbacks + new.length }

/-- The cluster that a ring fault names in the record of a launch that ends for it (R9, R234, R388). -/
def State.nameRingFault (s : State) (l g : Nat) : State :=
  match ((s.launch l).gang g).clusterIds.find? fun k => (s.cluster k).ring.fault with
  | some k => s.modLaunch l fun x => { x with units := [(unitWord 3 k.num).toNat] }
  | none => s

/-- SUPERSTEP_ROLLBACK (R381): for a rank-1 cause whose action is rollback, or a ring fault. It first stops the gang,
and rolls it back once started units have finished. A non-replayable superstep, or one that has been rolled back
ROLLMAX times, completes the launch CAST_NEEDED; with the abort line raised it completes ABORTED. A second PIPE_CHECK that
awaits its kill is not rolled back: the launch is killed and the unit quarantined (R38, R150, R366). -/
def execSuperstepRollback (l gang : Nat) (s : State) : Out :=
  let x := s.launch l
  let y := x.gang gang
  let who := s.rollbackFor l gang
  let pair := x.pairOf gang
  let wanted := who.isSome || s.gangRingFault l gang
  if x.state != .running || !y.placed || y.done || !wanted then .next s
  else if x.abort then .next (s.endLaunch l 2 none)
  else if let some p := (x.rcd.dieList.flatMap (s.secondChecks l)).head? then
    .next (s.endLaunch l 1 (some (((s.killTraps l p.1.die).head?).getD p)))
  else
    let s := pair.foldl (fun s g => s.noteRolling l g) s
    let x := s.launch l
    if !(pair.all fun g => s.unitsFinished l g) then .next s
    else if pair.any fun g => (x.gang g).nonReplayable || x.rcd.rollMax ≤ (x.gang g).rollbacks then
      .next ((if who.isSome then s else s.nameRingFault l gang).endLaunch l 8 who)
    else .next (pair.foldl (fun s g => s.rollGang l g) (s.modLaunch l fun x => x.rollPkg pair))

/-! ### Third runs (R387) -/

/-- The third run of a gang. -/
def Launch.thirdRun (x : Launch) (g : Nat) : Option Nat :=
  (List.range x.gangs.length).find? fun t => (x.gang t).thirdOf == some g && !(x.gang t).members.isEmpty
    || (x.gang t).thirdOf == some g && !(x.gang t).placed

/-- Outcome of a rank of a third run: the copy that is wrong, primary or partner; none where it equals neither. -/
def State.wrongCopy (s : State) (a b t : CoreId) : Option Bool :=
  let sig (c : CoreId) : BitVec 64 := (s.core c).signature
  if sig t = sig a then some true else if sig t = sig b then some false else none

/-- A member that took DUAL_MISMATCH and whose copy stands waits at its barrier again, or has ended as it had. -/
def State.unmismatch (s : State) (y : Gang) (c : CoreId) : State :=
  match (s.core c).park with
  | some p =>
    if p.cause = .dualMismatch then
      let waiting := y.arrived.contains c
      (s.dropMail c).modCore c fun k =>
        { k with park := none, running := waiting, phase := if waiting then .sstep else .idle
                 tiAttempt := if k.tiAttempt = 255 then 255 else k.tiAttempt + 1 }
    else s
  | none => s

/-- A core named by another in a convoy's lists. -/
def Convoy.rename (v : Convoy) (f : CoreId → CoreId) : Convoy :=
  let m (xs : List CoreId) : List CoreId := (xs.map f).eraseDups
  { v with members := m v.members, required := m v.required, arrived := m v.arrived, nextArrived := m v.nextArrived }

/-- Ranks of a gang whose members stand in one place: those of a cluster, or one ramp core. -/
def LaunchRec.ranksOf (r : LaunchRec) (place : Nat) : List Nat :=
  if place < r.clustersPer then (List.range (min 64 (r.gangSize - 64 * place))).map fun i => 64 * place + i
  else [r.gangSize + (place - r.clustersPer)]

/-- Every core of a place of a gang, idle stations included. -/
def Gang.placeCores (g : Gang) (r : LaunchRec) (place : Nat) : List CoreId :=
  if place < r.clustersPer then ((g.clusterIds.drop place).take 1).flatMap fun k => stations.map fun st => k.station st
  else ((g.ramps.drop (place - r.clustersPer)).take 1).map fun p => .ramp p.1 p.2

/-- A core that leaves a copy: it stands in the launch without a part in it, and keeps its check window. -/
def State.retire (s : State) (l t : Nat) (cs : List CoreId) : State :=
  (cs.foldl State.dropMail s).eachCore cs fun _ k =>
    { Core.blank with checkAt := k.checkAt, launch := some l, gang := t, partEnded := true }

/-- The third copy's cluster or ramp core takes a place in copy w of its pair; the old one stays with the launch, in the
third copy (R387, R390). -/
def State.replacePlace (s : State) (l w t place : Nat) : State :=
  let r := (s.launch l).rcd
  let old := (s.launch l).gang w
  let new := (s.launch l).gang t
  let outs := old.placeCores r place
  let ins := new.placeCores r place
  let s := s.retire l t outs
  let s := s.eachCluster ((old.clusterIds.drop place).take 1) fun _ _ => Cluster.blank
  let s := s.eachCore ins fun _ k => { k with gang := w }
  let pairs := outs.zip ins
  let f (c : CoreId) : CoreId := ((pairs.find? fun p => p.1 == c).map Prod.snd).getD c
  let i := place - r.clustersPer
  let swap {α : Type} (xs ys : List α) (n : Nat) : List α := match ys[n]? with
    | some y => xs.set n y
    | none => xs
  let (cs, ds) := if place < r.clustersPer then (swap old.clusters new.clusters place, swap new.clusters old.clusters place)
    else (old.clusters, new.clusters)
  let (rs, qs) := if place < r.clustersPer then (old.ramps, new.ramps) else (swap old.ramps new.ramps i, swap new.ramps old.ramps i)
  s.modLaunch l fun x =>
    { x with
      gangs := (x.gangs.modify w fun y =>
        { y with clusters := cs, ramps := rs, members := y.members.map f
                 arrived := (y.arrived.filter fun c => !outs.contains c) ++ new.arrived.filter ins.contains }).modify t
          fun y => { y with clusters := ds, ramps := qs }
      convoys := x.convoys.map fun c => (c.1, c.2.map fun v => v.rename f) }

/-- The third copy's core alone takes a member's place in copy w of its pair, because the ranks of its cluster have been
settled in opposite directions (R387; log entry 67). -/
def State.replaceMember (s : State) (l w t : Nat) (c third : CoreId) : State :=
  let new := (s.launch l).gang t
  let s := (s.retire l t [c]).modCore third fun k => { k with gang := w }
  let f (d : CoreId) : CoreId := if d = c then third else d
  s.modLaunch l fun x =>
    ({ x with convoys := x.convoys.map fun v => (v.1, v.2.map fun v => v.rename f) } : Launch).modGang w fun y =>
      { y with members := y.members.map f, guests := y.guests ++ [third]
               arrived := (y.arrived.filter fun d => d != c) ++ new.arrived.filter fun d => d == third }

/-- A rank that disagreed: its number, the members of the two copies and of the third run, and which copy is wrong. -/
structure Verdict where
  rank : Nat
  prim : CoreId
  part : CoreId
  third : CoreId
  partnerWrong : Option Bool
  deriving DecidableEq, Repr

/-- The verdicts on the ranks that disagreed, in rank order. -/
def State.verdicts (s : State) (l g t : Nat) : List Verdict :=
  let x := s.launch l
  (x.gang g).disagree.filterMap fun r =>
    match (x.gang g).members[r]?, (x.gang (g + x.rcd.gangs)).members[r]?, (x.gang t).members[r]? with
    | some a, some b, some c => some ⟨r, a, b, c, s.wrongCopy a b c⟩
    | _, _, _ => none

/-- The core of a verdict that is wrong. -/
def Verdict.wrong (v : Verdict) : CoreId := if v.partnerWrong.getD true then v.part else v.prim

/-- Settle the ranks of one place: the third copy's cluster or ramp core takes the place of the copy that is wrong there;
where the ranks of a place are settled in opposite directions, each rank's third core takes its place alone (R387). -/
def State.settlePlace (s : State) (l g t : Nat) (vs : List Verdict) (place : Nat) : State :=
  let x := s.launch l
  let here := vs.filter fun v => (x.rcd.ranksOf place).contains v.rank
  match here.head? with
  | none => s
  | some v0 =>
    let copyOf (v : Verdict) : Nat := if v.partnerWrong.getD true then g + x.rcd.gangs else g
    if here.all fun v => copyOf v = copyOf v0 then s.replacePlace l (copyOf v0) t place
    else here.foldl (fun s v => s.replaceMember l (copyOf v) t v.wrong v.third) s

/-- The held writes of an agreed superstep: the primary's, with those of a wrong member taken from its partner. -/
def agreedWrites (prim part : List HeldWrite) (vs : List Verdict) : List HeldWrite :=
  let bad := vs.filter fun v => !v.partnerWrong.getD true
  (prim.filter fun h => !bad.any fun v => v.prim == h.core) ++ part.filter fun h => bad.any fun v => v.part == h.core

/-- Settle a disagreement by its third run, rank by rank (R387). -/
def State.settleThird (s : State) (l g t : Nat) : State :=
  let x := s.launch l
  let p := g + x.rcd.gangs
  let vs := s.verdicts l g t
  let lost := vs.filter fun v => v.partnerWrong.isNone
  match lost.head? with
  | some v =>
    let three (v : Verdict) : List (BitVec 24) := [coreUnit v.prim, coreUnit v.part, coreUnit v.third]
    let s := { s with suspects := s.suspects ++ (lost.flatMap three).filter fun u => !s.suspects.contains u }
    (s.modLaunch l fun x => { x with units := (three v).map BitVec.toNat }).endLaunch l 9 none
  | none =>
    let s := vs.foldl (fun s v => s.quarantineUnit v.wrong.die (coreUnit v.wrong)) s
    let hs := agreedWrites (x.gang g).held (x.gang p).held vs
    let s := (s.performAll l g hs).modGang l p fun y => { y with held := [] }
    let places := List.range (x.rcd.clustersPer + x.rcd.ramps)
    let s := places.foldl (fun s n => s.settlePlace l g t vs n) s
    let s := [g, p].foldl (fun s w =>
      ((s.launch l).gang w).members.foldl (fun s c => s.unmismatch ((s.launch l).gang w) c) s) s
    let ours (c : CoreId) : Bool := (s.core c).gang == t
    let s := s.retire l t (((s.launch l).gang t).allCores.filter ours)
    let s := s.eachCluster (((s.launch l).gang t).clusterIds.filter fun k => stations.all fun st => ours (k.station st))
      fun _ _ => Cluster.blank
    let s := s.modLaunch l fun x =>
      (x.modGang g fun y => { y with disagree := [] }).modGang t fun y =>
        { y with members := [], arrived := [], held := [] }
    s.gangEnd l g

/-- Whether the members of a disagreeing gang are parked for a third run. -/
def State.wantsThird (s : State) (l g : Nat) : Bool :=
  let y := (s.launch l).gang g
  !y.disagree.isEmpty && y.disagree.all fun r => match y.members[r]? with
    | some c => (s.parkedFor c 6).isSome
    | none => false

/-- THIRD_RUN (R387): a disagreement first asks for a third run, which GANG_PLACE places; once that run has come to
its barrier or its end, it settles the disagreement. A non-replayable superstep cannot be run again: the launch is
KILLED, both cores named. -/
def execThirdRun (l gang : Nat) (s : State) : Out :=
  let x := s.launch l
  let y := x.gang gang
  let p := gang + x.rcd.gangs
  if x.state != .running || !s.wantsThird l gang then .next s
  else match x.thirdRun gang with
  | none =>
    if y.nonReplayable || (x.gang p).nonReplayable then
      let r := y.disagree.headD 0
      match y.members[r]?, (x.gang p).members[r]? with
      | some a, some b =>
        let s := s.modLaunch l fun x => { x with units := [(coreUnit a).toNat, (coreUnit b).toNat] }
        .next (s.endLaunch l 1 ((s.core a).park.map fun q => (a, q)))
      | _, _ => .next s
    else
      .next (s.modLaunch l fun x =>
        { x with gangs := x.gangs ++ [{ Gang.blank with thirdOf := some gang, det := y.det, rr := y.rr }] })
  | some t =>
    let z := x.gang t
    if z.placed && (s.barrierReady z || s.gangEnded z) then .next (s.settleThird l gang t) else .next s

end Sys2Proof.Machine
end

