-- ==== Sys2Proof/Machine/Scalar.lean ====
section
/-! DEFINITION. The scalar instructions of majors 0x01 to 0x0C: integer, immediate, compare, pointer, F32 and
predicate instructions (R92 to R108). -/

namespace Sys2Proof.Machine

/-! ### Shared forms -/

/-- A one-word instruction that reads sources and writes one g register; the taint is that of its sources
(R19, R92). -/
def scalarG (q : Seq) (d : BitVec 5) (xs : List Src) (f : Core → DWord) (s : State) : Out :=
  unit (len1 q) q (fun s => s.me.need xs (s.toG d (f s.me) (s.me.taints xs))) s

/-- The same for a predicate destination. -/
def scalarP (q : Seq) (d : BitVec 3) (xs : List Src) (f : Core → Bool) (s : State) : Out :=
  unit (len1 q) q (fun s => s.me.need xs (s.toP d (f s.me) (s.me.taints xs))) s

/-- Width 64, or width 32 with the result sign-extended (R94, R95). -/
def intOp (w32 : Bool) (f : (w : Nat) → BitVec w → BitVec w → BitVec w) (a b : DWord) : DWord :=
  if w32 then sx32 (f 32 (a.setWidth 32) (b.setWidth 32)) else f 64 a b

/-- A compare at width 64 or 32 (R95, R100). -/
def intCmp (w32 : Bool) (f : (w : Nat) → BitVec w → BitVec w → Bool) (a b : DWord) : Bool :=
  if w32 then f 32 (a.setWidth 32) (b.setWidth 32) else f 64 a b

/-- An F-R integer instruction with W32 (R94). -/
def int3 (o : R3W) (f : (w : Nat) → BitVec w → BitVec w → BitVec w) (s : State) : Out :=
  scalarG o.q o.d [.g o.a o.ta, .g o.b o.tb] (fun k => intOp o.w f (k.gv o.a) (k.gv o.b)) s

/-- An F-R instruction on two g registers without W32. -/
def reg3 (o : R3) (f : DWord → DWord → DWord) (s : State) : Out :=
  scalarG o.q o.d [.g o.a o.ta, .g o.b o.tb] (fun k => f (k.gv o.a) (k.gv o.b)) s

/-- An F-R integer instruction on one register with W32. -/
def int2 (o : R2W) (f : (w : Nat) → BitVec w → BitVec w) (s : State) : Out :=
  scalarG o.q o.d [.g o.a o.ta] (fun k => intOp o.w (fun w x _ => f w x) (k.gv o.a) 0) s

/-- An F-R instruction on one g register. -/
def reg2 (o : R2) (f : DWord → DWord) (s : State) : Out :=
  scalarG o.q o.d [.g o.a o.ta] (fun k => f (k.gv o.a)) s

/-- An F-R compare (R100). -/
def cmp3 (o : C3W) (f : (w : Nat) → BitVec w → BitVec w → Bool) (s : State) : Out :=
  scalarP o.q o.d [.g o.a o.ta, .g o.b o.tb] (fun k => intCmp o.w f (k.gv o.a) (k.gv o.b)) s

/-- An F-I instruction (R97). -/
def immG (o : RI) (f : DWord → DWord → DWord) (s : State) : Out :=
  scalarG o.q o.d [.g0 o.a] (fun k => f (k.gv o.a) (sx14 o.i)) s

/-- An F-I compare, at 64 bits (R100). -/
def immP (o : CI) (f : DWord → DWord → Bool) (s : State) : Out :=
  scalarP o.q o.d [.g0 o.a] (fun k => f (k.gv o.a) (sx14 o.i)) s

/-- An F-I shift; a W32 form with a count of 32 or more traps (R98). DESIGN CHOICE (log entry 69): the trap's VALUE is
0, R98 naming no position for the immediate field. -/
def immShift (o : ShI) (f : (w : Nat) → BitVec w → BitVec w → BitVec w) (s : State) : Out :=
  unit (len1 o.q) o.q (fun s =>
    if o.w && decide (32 ≤ o.n.toNat) then .trap (illegal 0)
    else s.me.need [.g0 o.a] (s.toG o.d (intOp o.w f (s.me.gv o.a) (o.n.zeroExtend 64)) (s.me.gt o.a))) s

/-! ### The integer functions (R94, R96) -/

/-- Leading zero bits. -/
def clzBits (w : Nat) (x : BitVec w) : Nat := if x = 0 then w else w - 1 - Nat.log2 x.toNat

/-- Trailing zero bits among the n from bit i up. -/
def ctzFrom (x : Nat) : Nat → Nat → Nat
  | _, 0 => 0
  | i, n + 1 => if x.testBit i then 0 else 1 + ctzFrom x (i + 1) n

/-- One bits among the low n. -/
def popcount (x : Nat) : Nat → Nat
  | 0 => 0
  | n + 1 => popcount x n + (x.testBit n).toNat

/-- Shift or rotate count: nv(b) mod w (R94). -/
def shCount {w : Nat} (b : BitVec w) : Nat := b.toNat % w

/-- Rotate left by n < w. -/
def rotl {w : Nat} (a : BitVec w) (n : Nat) : BitVec w := (a <<< n) ||| (a >>> (w - n))

/-- Signed and natural division (R96). -/
def divS (w : Nat) (a b : BitVec w) : BitVec w := BitVec.ofInt w (divInt w a.toInt b.toInt)
def remS (w : Nat) (a b : BitVec w) : BitVec w := BitVec.ofInt w (remInt w a.toInt b.toInt)
def divU (w : Nat) (a b : BitVec w) : BitVec w :=
  if b = 0 then BitVec.allOnes w else BitVec.ofNat w (a.toNat / b.toNat)
def remU (w : Nat) (a b : BitVec w) : BitVec w :=
  if b = 0 then a else BitVec.ofNat w (a.toNat % b.toNat)

/-! ### INT (0x01) -/

/-- ADD (R94). -/
def execAdd (o : R3W) (s : State) : Out := int3 o (fun _ a b => a + b) s
/-- SUB (R94). -/
def execSub (o : R3W) (s : State) : Out := int3 o (fun _ a b => a - b) s
/-- MUL (R94). -/
def execMul (o : R3W) (s : State) : Out := int3 o (fun _ a b => a * b) s
/-- MULH (R94). -/
def execMulh (o : R3) (s : State) : Out :=
  reg3 o (fun a b => dw (a.toInt * b.toInt / 2 ^ 64)) s
/-- MULHU (R94). -/
def execMulhu (o : R3) (s : State) : Out :=
  reg3 o (fun a b => BitVec.ofNat 64 (a.toNat * b.toNat / 2 ^ 64)) s
/-- DIV (R96). -/
def execDiv (o : R3W) (s : State) : Out := int3 o divS s
/-- DIVU (R96). -/
def execDivu (o : R3W) (s : State) : Out := int3 o divU s
/-- REM (R96). -/
def execRem (o : R3W) (s : State) : Out := int3 o remS s
/-- REMU (R96). -/
def execRemu (o : R3W) (s : State) : Out := int3 o remU s
/-- AND (R94). -/
def execAnd (o : R3W) (s : State) : Out := int3 o (fun _ a b => a &&& b) s
/-- OR (R94). -/
def execOr (o : R3W) (s : State) : Out := int3 o (fun _ a b => a ||| b) s
/-- XOR (R94). -/
def execXor (o : R3W) (s : State) : Out := int3 o (fun _ a b => a ^^^ b) s
/-- ANDN (R94). -/
def execAndn (o : R3W) (s : State) : Out := int3 o (fun _ a b => a &&& ~~~b) s
/-- SHL (R94). -/
def execShl (o : R3W) (s : State) : Out := int3 o (fun _ a b => a <<< shCount b) s
/-- SHR (R94). -/
def execShr (o : R3W) (s : State) : Out := int3 o (fun _ a b => a >>> shCount b) s
/-- SRA (R94). -/
def execSra (o : R3W) (s : State) : Out := int3 o (fun _ a b => a.sshiftRight (shCount b)) s
/-- ROL (R94). -/
def execRol (o : R3W) (s : State) : Out := int3 o (fun _ a b => rotl a (shCount b)) s
/-- MIN (R94). -/
def execMin (o : R3W) (s : State) : Out := int3 o (fun _ a b => if b.slt a then b else a) s
/-- MAX (R94). -/
def execMax (o : R3W) (s : State) : Out := int3 o (fun _ a b => if a.slt b then b else a) s
/-- MINU (R94). -/
def execMinu (o : R3W) (s : State) : Out := int3 o (fun _ a b => if b.ult a then b else a) s
/-- MAXU (R94). -/
def execMaxu (o : R3W) (s : State) : Out := int3 o (fun _ a b => if a.ult b then b else a) s
/-- CLZ (R94). -/
def execClz (o : R2W) (s : State) : Out := int2 o (fun w a => BitVec.ofNat w (clzBits w a)) s
/-- CTZ (R94). -/
def execCtz (o : R2W) (s : State) : Out := int2 o (fun w a => BitVec.ofNat w (ctzFrom a.toNat 0 w)) s
/-- POPC (R94). -/
def execPopc (o : R2W) (s : State) : Out := int2 o (fun w a => BitVec.ofNat w (popcount a.toNat w)) s

/-- A pointer moved by a signed byte offset, or none on a carry into or a borrow from the tag (R101). -/
def movePtr (p : DWord) (off : Int) : Option DWord :=
  let va := (vaOf p : Int) + off
  if va < 0 || 2 ^ 56 ≤ va then none
  else some ((p &&& 0xFF00000000000000#64) ||| dw va)

/-- ADDA and ADDAI: the moved pointer, or FORMAT with the pointer as value (R101). -/
def ptrMove (q : Seq) (d : BitVec 5) (xs : List Src) (p off : Core → DWord) (s : State) : Out :=
  unit (len1 q) q (fun s => s.me.need xs
    (match movePtr (p s.me) (off s.me).toInt with
     | none => .trap (formatTrap (p s.me))
     | some v => s.toG d v (s.me.taints xs))) s

/-- ADDA (R101). -/
def execAdda (o : R3) (s : State) : Out :=
  ptrMove o.q o.d [.g o.a o.ta, .g o.b o.tb] (·.gv o.a) (·.gv o.b) s
/-- PTAG (R102). -/
def execPtag (o : R3) (s : State) : Out :=
  reg3 o (fun a b => ((b.setWidth 8).setWidth 64 <<< 56) ||| ((a.setWidth 56).setWidth 64)) s
/-- PFMT (R102). -/
def execPfmt (o : R2) (s : State) : Out := reg2 o (fun a => a >>> 56) s
/-- PVA (R102). -/
def execPva (o : R2) (s : State) : Out := reg2 o (fun a => (a.setWidth 56).setWidth 64) s

/-- CMP_EQ (R100). -/
def execCmpEq (o : C3W) (s : State) : Out := cmp3 o (fun _ a b => a == b) s
/-- CMP_NE (R100). -/
def execCmpNe (o : C3W) (s : State) : Out := cmp3 o (fun _ a b => a != b) s
/-- CMP_LT (R100). -/
def execCmpLt (o : C3W) (s : State) : Out := cmp3 o (fun _ a b => a.slt b) s
/-- CMP_LE (R100). -/
def execCmpLe (o : C3W) (s : State) : Out := cmp3 o (fun _ a b => a.sle b) s
/-- CMP_LTU (R100). -/
def execCmpLtu (o : C3W) (s : State) : Out := cmp3 o (fun _ a b => a.ult b) s
/-- CMP_LEU (R100). -/
def execCmpLeu (o : C3W) (s : State) : Out := cmp3 o (fun _ a b => a.ule b) s

/-! ### Immediates (0x02 to 0x0A) -/

/-- ADDI (R97). -/
def execAddi (o : RI) (s : State) : Out := immG o (fun a i => a + i) s
/-- ANDI (R97). -/
def execAndi (o : RI) (s : State) : Out := immG o (fun a i => a &&& i) s
/-- ORI (R97). -/
def execOri (o : RI) (s : State) : Out := immG o (fun a i => a ||| i) s
/-- XORI (R97). -/
def execXori (o : RI) (s : State) : Out := immG o (fun a i => a ^^^ i) s
/-- SHLI (R98). -/
def execShli (o : ShI) (s : State) : Out := immShift o (fun _ a b => a <<< shCount b) s
/-- SHRI (R98). -/
def execShri (o : ShI) (s : State) : Out := immShift o (fun _ a b => a >>> shCount b) s
/-- SRAI (R98). -/
def execSrai (o : ShI) (s : State) : Out := immShift o (fun _ a b => a.sshiftRight (shCount b)) s
/-- ROLI (R98). -/
def execRoli (o : ShI) (s : State) : Out := immShift o (fun _ a b => rotl a (shCount b)) s
/-- CMPI_EQ (R100). -/
def execCmpiEq (o : CI) (s : State) : Out := immP o (fun a i => a == i) s
/-- CMPI_NE (R100). -/
def execCmpiNe (o : CI) (s : State) : Out := immP o (fun a i => a != i) s
/-- CMPI_LT (R100). -/
def execCmpiLt (o : CI) (s : State) : Out := immP o (fun a i => a.slt i) s
/-- CMPI_LTU (R100). -/
def execCmpiLtu (o : CI) (s : State) : Out := immP o (fun a i => a.ult i) s
/-- LI (R99). -/
def execLi (o : LiO) (s : State) : Out := scalarG o.q o.d [] (fun _ => o.i.signExtend 64) s

/-- A 64-bit value with its 16-bit slot k replaced (R99). -/
def setSlot (v : DWord) (k : BitVec 2) (h : BitVec 16) : DWord :=
  (v &&& ~~~(0xFFFF#64 <<< (16 * k.toNat))) ||| (h.setWidth 64 <<< (16 * k.toNat))

/-- LIH (R99): G[D] is also a source. -/
def execLih (o : LihO) (s : State) : Out :=
  scalarG o.q o.d [.g0 o.d] (fun k => setSlot (k.gv o.d) o.k o.h) s
/-- ADDAI (R101). -/
def execAddai (o : RI) (s : State) : Out :=
  ptrMove o.q o.d [.g0 o.a] (·.gv o.a) (fun _ => sx14 o.i) s

/-! ### Scalar floating point (0x0B) -/

/-- The F32 code in bits [31:0] of a register (R103). -/
def f32Of (x : DWord) : Nat := x.toNat % 2 ^ 32
/-- Its value. -/
def f32Val (x : DWord) : Val := decodeVal .f32 (f32Of x)
/-- A result of type F32 with bits [63:32] zero. -/
def f32Res (c : Nat) : DWord := BitVec.ofNat 64 (c % 2 ^ 32)

/-- A rounding FP instruction (R104): the exact value and its flags, rounded once by enc with the stochastic
value r; with rs it takes one LFSR step after every queued one (R82) and its result is tainted (R84). -/
def fpRound (q : Seq) (d : BitVec 5) (rm : Rm) (xs : List Src) (f : Core → Val × Fx)
    (enc : Rm → Nat → Val → Nat × Fx) (s : State) : Out :=
  unit (len1 q) q (fun s => s.me.need xs
    (let k := s.me
     let rs := rm == .rs
     if (k.greg d).fill = .pending || (rs && k.rsPending) then .wait
     else
       let lf := if rs then lfsrStep k.lfsr else k.lfsr
       let (x, f0) := f k
       let (c, f1) := enc rm (if rs then lf.toNat else 0) x
       let t := k.taints xs
       .done (s.setMe { (k.writeG d (BitVec.ofNat 64 c) (t || rs)).raise (f0 ||| f1) t with lfsr := lf }))) s

/-- F32 without saturation (R104). -/
def encF32 (rm : Rm) (r : Nat) (x : Val) : Nat × Fx := encodeVal .f32 rm false r x
/-- A signed 64-bit integer, saturating (R88, R104). -/
def encI64 (rm : Rm) (r : Nat) (x : Val) : Nat × Fx :=
  encodeRange 64 (-(2 ^ 63 : Int)) (2 ^ 63 - 1) rm r x

/-- FADD (R104). -/
def execFadd (o : F3) (s : State) : Out :=
  fpRound o.q o.d o.r [.g o.a o.ta, .g o.b o.tb]
    (fun k => Val.add o.r (f32Val (k.gv o.a)) (f32Val (k.gv o.b))) encF32 s
/-- FSUB (R104). -/
def execFsub (o : F3) (s : State) : Out :=
  fpRound o.q o.d o.r [.g o.a o.ta, .g o.b o.tb]
    (fun k => Val.add o.r (f32Val (k.gv o.a)) (f32Val (k.gv o.b)).neg) encF32 s
/-- FMUL (R104). -/
def execFmul (o : F3) (s : State) : Out :=
  fpRound o.q o.d o.r [.g o.a o.ta, .g o.b o.tb]
    (fun k => Val.mul (f32Val (k.gv o.a)) (f32Val (k.gv o.b))) encF32 s
/-- FMA (R104): G[D] is the addend. -/
def execFma (o : F3) (s : State) : Out :=
  fpRound o.q o.d o.r [.g o.a o.ta, .g o.b o.tb, .g0 o.d]
    (fun k => Val.fma o.r (f32Val (k.gv o.a)) (f32Val (k.gv o.b)) (f32Val (k.gv o.d))) encF32 s
/-- FITOF (R104). -/
def execFitof (o : F2) (s : State) : Out :=
  fpRound o.q o.d o.r [.g o.a o.ta] (fun k => (Val.ofInt (k.gv o.a).toInt, Fx.none)) encF32 s
/-- FFTOI (R104). -/
def execFftoi (o : F2) (s : State) : Out :=
  fpRound o.q o.d o.r [.g o.a o.ta] (fun k => (f32Val (k.gv o.a), Fx.none)) encI64 s

/-- A non-rounding FP instruction that writes a code and raises flags (R105 to R107). -/
def fpG (q : Seq) (d : BitVec 5) (xs : List Src) (f : Core → Nat × Fx) (s : State) : Out :=
  unit (len1 q) q (fun s => s.me.need xs
    (let r := f s.me
     s.toGF d (f32Res r.1) (s.me.taints xs) r.2)) s

/-- An FP compare: the predicate and the flags (R105). -/
def fpP (o : C3) (f : Val → Val → Bool × Fx) (s : State) : Out :=
  unit (len1 o.q) o.q (fun s =>
    let xs : List Src := [.g o.a o.ta, .g o.b o.tb]
    s.me.need xs
      (let r := f (f32Val (s.me.gv o.a)) (f32Val (s.me.gv o.b))
       let t := s.me.taints xs
       .done (s.setMe ((s.me.writeP o.d r.1 t).raise r.2 t)))) s

/-- Two-operand and one-operand forms over F32 codes. -/
def fp3 (o : R3) (f : Nat → Nat → Nat × Fx) (s : State) : Out :=
  fpG o.q o.d [.g o.a o.ta, .g o.b o.tb] (fun k => f (f32Of (k.gv o.a)) (f32Of (k.gv o.b))) s
def fp2 (o : R2) (f : Nat → Nat × Fx) (s : State) : Out :=
  fpG o.q o.d [.g o.a o.ta] (fun k => f (f32Of (k.gv o.a))) s

/-- Minimum or maximum of two codes of a floating type (R91): the code and the flags. -/
def minmaxCode (t : ETy) (big : Bool) (a b : Nat) : Nat × Fx :=
  let r := Val.minmax big (decodeVal t a) (decodeVal t b)
  ((encodeRne t r.1).1, r.2)

/-- Absolute value or negation of a floating code; NaN gives the canonical NaN (R105). -/
def signCode (t : ETy) (flip : Bool) (a : Nat) : Nat :=
  let sb := 2 ^ (t.width - 1)
  if (decodeVal t a).isNan then (encodeRne t .nan).1
  else if flip then (a % (2 * sb) + sb) % (2 * sb) else a % sb

/-- Equality, order and unordered tests of values (R105). -/
def valEq (x y : Val) : Bool := !x.isNan && !y.isNan && Val.cmp x y == .eq
def valLt (x y : Val) : Bool := !x.isNan && !y.isNan && Val.cmp x y == .lt
def valLe (x y : Val) : Bool := valLt x y || valEq x y
def valUn (x y : Val) : Bool := x.isNan || y.isNan
/-- NV of an ordered compare with a NaN (R105). -/
def nvUn (x y : Val) : Fx := if valUn x y then Fx.nv else Fx.none

/-- FMIN (R105). -/
def execFmin (o : R3) (s : State) : Out := fp3 o (minmaxCode .f32 false) s
/-- FMAX (R105). -/
def execFmax (o : R3) (s : State) : Out := fp3 o (minmaxCode .f32 true) s
/-- FABS (R105). -/
def execFabs (o : R2) (s : State) : Out := fp2 o (fun a => (signCode .f32 false a, Fx.none)) s
/-- FNEG (R105). -/
def execFneg (o : R2) (s : State) : Out := fp2 o (fun a => (signCode .f32 true a, Fx.none)) s
/-- FEQ (R105). -/
def execFeq (o : C3) (s : State) : Out := fpP o (fun x y => (valEq x y, Fx.none)) s
/-- FLT (R105). -/
def execFlt (o : C3) (s : State) : Out := fpP o (fun x y => (valLt x y, nvUn x y)) s
/-- FLE (R105). -/
def execFle (o : C3) (s : State) : Out := fpP o (fun x y => (valLe x y, nvUn x y)) s
/-- FUN (R105). -/
def execFun (o : C3) (s : State) : Out := fpP o (fun x y => (valUn x y, Fx.none)) s
/-- FRCP (R106). -/
def execFrcp (o : R2) (s : State) : Out := fp2 o (approx .f32 false) s
/-- FRSQ (R106). -/
def execFrsq (o : R2) (s : State) : Out := fp2 o (approx .f32 true) s
/-- FREF_RCP (R107). -/
def execFrefRcp (o : R3) (s : State) : Out := fp3 o (refine .f32 false) s
/-- FREF_RSQ (R107). -/
def execFrefRsq (o : R3) (s : State) : Out := fp3 o (refine .f32 true) s
/-- FCLASS (R105). -/
def execFclass (o : R2) (s : State) : Out := fp2 o (fun a => (fclassF32 a, Fx.none)) s

/-! ### Predicates (0x0C) -/

/-- Two predicates into a predicate (R108). -/
def pred3 (o : P3) (f : Bool → Bool → Bool) (s : State) : Out :=
  unit (len1 o.q) o.q (fun s =>
    let a := s.me.preg o.a
    let b := s.me.preg o.b
    s.toP o.d (f a.val b.val) (a.taint || b.taint)) s

/-- One predicate into a predicate (R108). -/
def pred2 (o : P2) (f : Bool → Bool) (s : State) : Out :=
  unit (len1 o.q) o.q (fun s => s.toP o.d (f (s.me.preg o.a).val) (s.me.preg o.a).taint) s

/-- PAND (R108). -/
def execPand (o : P3) (s : State) : Out := pred3 o (fun a b => a && b) s
/-- POR (R108). -/
def execPor (o : P3) (s : State) : Out := pred3 o (fun a b => a || b) s
/-- PXOR (R108). -/
def execPxor (o : P3) (s : State) : Out := pred3 o (fun a b => a != b) s
/-- PANDN (R108). -/
def execPandn (o : P3) (s : State) : Out := pred3 o (fun a b => a && !b) s
/-- PNOT (R108). -/
def execPnot (o : P2) (s : State) : Out := pred2 o (fun a => !a) s
/-- PMOV (R108). -/
def execPmov (o : P2) (s : State) : Out := pred2 o (fun a => a) s
/-- GTOP (R108). -/
def execGtop (o : GP) (s : State) : Out :=
  scalarP o.q o.d [.g o.a o.ta] (fun k => k.gv o.a != 0) s
/-- PTOG (R108). -/
def execPtog (o : PG) (s : State) : Out :=
  unit (len1 o.q) o.q (fun s =>
    s.toG o.d (if (s.me.preg o.a).val then 1 else 0) (s.me.preg o.a).taint) s
/-- SEL (R108): p0 is data, so its taint enters the result and CT stays. -/
def execSel (o : R3) (s : State) : Out :=
  unit (len1 o.q) o.q (fun s =>
    let xs : List Src := [.g o.a o.ta, .g o.b o.tb]
    s.me.need xs (s.toG o.d (if (s.me.preg 0).val then s.me.gv o.a else s.me.gv o.b)
      (s.me.taints xs || (s.me.preg 0).taint))) s

end Sys2Proof.Machine
end

