-- ==== Sys2Proof/Machine/Vector.lean ====
section
/-! DEFINITION. The vector instructions of majors 0x20 to 0x28 (R159 to R177): each is pushed into the core's queue. -/

namespace Sys2Proof

open Machine

/-- A two-source operation in a queue entry. -/
def V3.op (o : V3) (k : VKind) : VOp :=
  ⟨k, o.d.toNat, o.a.toNat, o.b.toNat, o.t, o.t, o.m, .rne, 0, 0⟩
/-- A one-source operation. -/
def V2.op (o : V2) (k : VKind) : VOp :=
  ⟨k, o.d.toNat, o.a.toNat, 0, o.t, o.t, o.m, .rne, 0, 0⟩
/-- A compare. -/
def VC3.op (o : VC3) (k : VKind) : VOp :=
  ⟨k, o.d.toNat, o.a.toNat, o.b.toNat, o.t, o.t, o.m, .rne, 0, 0⟩
/-- A rounded operation. -/
def V3R.op (o : V3R) (k : VKind) : VOp :=
  ⟨k, o.d.toNat, o.a.toNat, o.b.toNat, o.t, o.t, o.m, o.r, 0, 0⟩
/-- A vector-scalar operation. -/
def VS.op (o : VS) (k : VKind) : VOp :=
  ⟨k, o.d.toNat, o.a.toNat, 0, o.t, o.t, o.m, .rne, 0, 0⟩
/-- A conversion; c is the block length of a pack or unpack. -/
def Cvt.op (o : Cvt) (k : VKind) (c : Nat) : VOp :=
  ⟨k, o.d.toNat, o.a.toNat, 0, o.t, o.s, o.m, o.r, c, 0⟩
/-- A pack. -/
def Pack.op (o : Pack) (c : Nat) : VOp :=
  ⟨.pack, o.d.toNat, o.a.toNat, 0, o.t, o.s, 0, o.r, c, 0⟩
/-- A one-source reduction. -/
def V2C.op (o : V2C) (f : RedFn) : VOp :=
  ⟨.red f, o.d.toNat, o.a.toNat, 0, o.t, o.t, o.m, .rne, o.c.toNat, 0⟩
/-- A two-source reduction. -/
def V3C.op (o : V3C) (f : RedFn) : VOp :=
  ⟨.red f, o.d.toNat, o.a.toNat, o.b.toNat, o.t, o.t, o.m, .rne, o.c.toNat, 0⟩
/-- A VACC entry. -/
def VaccO.op (o : VaccO) (k : VKind) : VOp :=
  ⟨k, o.d.toNat, o.d.toNat, 0, .f32, .f32, 0, .rne, 0, 0⟩

end Sys2Proof

namespace Sys2Proof.Machine

/-- A mask operation with register numbers d, a and b. -/
def maskOp (k : VKind) (d a b : Nat) (t : ETy) (m : BitVec 2) : VOp :=
  ⟨k, d, a, b, t, t, m, .rne, 0, 0⟩

/-- A vector-scalar instruction: the scalar is G[GB], read at the push (R136, R162). -/
def vsPush (o : VS) (k : VKind) (s : State) : Out := vpush1 o.q (o.op k) (some (.g0 o.g)) s

/-- VADD (R159). -/
def execVadd (o : V3) (s : State) : Out := vpush1 o.q (o.op (.int .add false)) none s
/-- VSUB (R159). -/
def execVsub (o : V3) (s : State) : Out := vpush1 o.q (o.op (.int .sub false)) none s
/-- VMUL (R159). -/
def execVmul (o : V3) (s : State) : Out := vpush1 o.q (o.op (.int .mul false)) none s
/-- VMULH (R159). -/
def execVmulh (o : V3) (s : State) : Out := vpush1 o.q (o.op (.int .mulh false)) none s
/-- VMAC (R159). -/
def execVmac (o : V3) (s : State) : Out := vpush1 o.q (o.op (.int .mac false)) none s
/-- VADDS (R159). -/
def execVadds (o : V3) (s : State) : Out := vpush1 o.q (o.op (.int .add true)) none s
/-- VSUBS (R159). -/
def execVsubs (o : V3) (s : State) : Out := vpush1 o.q (o.op (.int .sub true)) none s
/-- VMULS (R159). -/
def execVmuls (o : V3) (s : State) : Out := vpush1 o.q (o.op (.int .mul true)) none s
/-- VMACS (R159). -/
def execVmacs (o : V3) (s : State) : Out := vpush1 o.q (o.op (.int .mac true)) none s
/-- VMIN (R159). -/
def execVmin (o : V3) (s : State) : Out := vpush1 o.q (o.op (.int .min false)) none s
/-- VMAX (R159). -/
def execVmax (o : V3) (s : State) : Out := vpush1 o.q (o.op (.int .max false)) none s
/-- VAND (R159). -/
def execVand (o : V3) (s : State) : Out := vpush1 o.q (o.op (.int .and false)) none s
/-- VOR (R159). -/
def execVor (o : V3) (s : State) : Out := vpush1 o.q (o.op (.int .or false)) none s
/-- VXOR (R159). -/
def execVxor (o : V3) (s : State) : Out := vpush1 o.q (o.op (.int .xor false)) none s
/-- VANDN (R159). -/
def execVandn (o : V3) (s : State) : Out := vpush1 o.q (o.op (.int .andn false)) none s
/-- VSHL (R159). -/
def execVshl (o : V3) (s : State) : Out := vpush1 o.q (o.op (.int .shl false)) none s
/-- VSHR (R159). -/
def execVshr (o : V3) (s : State) : Out := vpush1 o.q (o.op (.int .shr false)) none s
/-- VABS (R159). -/
def execVabs (o : V2) (s : State) : Out := vpush1 o.q (o.op (.int .abs false)) none s
/-- VNEG (R159). -/
def execVneg (o : V2) (s : State) : Out := vpush1 o.q (o.op (.int .neg false)) none s
/-- VADDW (R159). -/
def execVaddw (o : V3) (s : State) : Out := vpush1 o.q (o.op (.intW .add)) none s
/-- VSUBW (R159). -/
def execVsubw (o : V3) (s : State) : Out := vpush1 o.q (o.op (.intW .sub)) none s
/-- VMULW (R159). -/
def execVmulw (o : V3) (s : State) : Out := vpush1 o.q (o.op (.intW .mul)) none s
/-- VMACW (R159). -/
def execVmacw (o : V3) (s : State) : Out := vpush1 o.q (o.op (.intW .mac)) none s
/-- VCMP_EQ (R159). -/
def execVcmpEq (o : VC3) (s : State) : Out := vpush1 o.q (o.op (.intCmp .eq)) none s
/-- VCMP_NE (R159). -/
def execVcmpNe (o : VC3) (s : State) : Out := vpush1 o.q (o.op (.intCmp .ne)) none s
/-- VCMP_LT (R159). -/
def execVcmpLt (o : VC3) (s : State) : Out := vpush1 o.q (o.op (.intCmp .lt)) none s
/-- VCMP_LE (R159). -/
def execVcmpLe (o : VC3) (s : State) : Out := vpush1 o.q (o.op (.intCmp .le)) none s
/-- VFADD (R160). -/
def execVfadd (o : V3R) (s : State) : Out := vpush1 o.q (o.op (.flt .add)) none s
/-- VFSUB (R160). -/
def execVfsub (o : V3R) (s : State) : Out := vpush1 o.q (o.op (.flt .sub)) none s
/-- VFMUL (R160). -/
def execVfmul (o : V3R) (s : State) : Out := vpush1 o.q (o.op (.flt .mul)) none s
/-- VFMA (R160). -/
def execVfma (o : V3R) (s : State) : Out := vpush1 o.q (o.op (.flt .fma)) none s
/-- VFMULW (R160). -/
def execVfmulw (o : V3R) (s : State) : Out := vpush1 o.q (o.op (.fltW .mul)) none s
/-- VFMAW (R160). -/
def execVfmaw (o : V3R) (s : State) : Out := vpush1 o.q (o.op (.fltW .fma)) none s
/-- VFMUL2 (R160). -/
def execVfmul2 (o : V3R) (s : State) : Out := vpush1 o.q (o.op .fmul2) none s
/-- VFMIN (R161). -/
def execVfmin (o : V3) (s : State) : Out := vpush1 o.q (o.op (.flt .min)) none s
/-- VFMAX (R161). -/
def execVfmax (o : V3) (s : State) : Out := vpush1 o.q (o.op (.flt .max)) none s
/-- VFABS (R161). -/
def execVfabs (o : V2) (s : State) : Out := vpush1 o.q (o.op (.flt .abs)) none s
/-- VFNEG (R161). -/
def execVfneg (o : V2) (s : State) : Out := vpush1 o.q (o.op (.flt .neg)) none s
/-- VFCMP_EQ (R161). -/
def execVfcmpEq (o : VC3) (s : State) : Out := vpush1 o.q (o.op (.fltCmp .eq)) none s
/-- VFCMP_LT (R161). -/
def execVfcmpLt (o : VC3) (s : State) : Out := vpush1 o.q (o.op (.fltCmp .lt)) none s
/-- VFCMP_LE (R161). -/
def execVfcmpLe (o : VC3) (s : State) : Out := vpush1 o.q (o.op (.fltCmp .le)) none s
/-- VFCMP_UN (R161). -/
def execVfcmpUn (o : VC3) (s : State) : Out := vpush1 o.q (o.op (.fltCmp .un)) none s
/-- VADD_VS (R162). -/
def execVaddVs (o : VS) (s : State) : Out := vsPush o (.vs .add false) s
/-- VADDS_VS (R162). -/
def execVaddsVs (o : VS) (s : State) : Out := vsPush o (.vs .add true) s
/-- VSUB_VS (R162). -/
def execVsubVs (o : VS) (s : State) : Out := vsPush o (.vs .sub false) s
/-- VSUBS_VS (R162). -/
def execVsubsVs (o : VS) (s : State) : Out := vsPush o (.vs .sub true) s
/-- VRSUB_VS (R162). -/
def execVrsubVs (o : VS) (s : State) : Out := vsPush o (.vs .rsub false) s
/-- VRSUBS_VS (R162). -/
def execVrsubsVs (o : VS) (s : State) : Out := vsPush o (.vs .rsub true) s
/-- VMUL_VS (R162). -/
def execVmulVs (o : VS) (s : State) : Out := vsPush o (.vs .mul false) s
/-- VMULS_VS (R162). -/
def execVmulsVs (o : VS) (s : State) : Out := vsPush o (.vs .mul true) s
/-- VMAC_VS (R162). -/
def execVmacVs (o : VS) (s : State) : Out := vsPush o (.vs .mac false) s
/-- VMACS_VS (R162). -/
def execVmacsVs (o : VS) (s : State) : Out := vsPush o (.vs .mac true) s
/-- VMIN_VS (R162). -/
def execVminVs (o : VS) (s : State) : Out := vsPush o (.vs .min false) s
/-- VMAX_VS (R162). -/
def execVmaxVs (o : VS) (s : State) : Out := vsPush o (.vs .max false) s
/-- VAND_VS (R162). -/
def execVandVs (o : VS) (s : State) : Out := vsPush o (.vs .and false) s
/-- VOR_VS (R162). -/
def execVorVs (o : VS) (s : State) : Out := vsPush o (.vs .or false) s
/-- VXOR_VS (R162). -/
def execVxorVs (o : VS) (s : State) : Out := vsPush o (.vs .xor false) s
/-- VSHL_VS (R162). -/
def execVshlVs (o : VS) (s : State) : Out := vsPush o (.vs .shl false) s
/-- VSHR_VS (R162). -/
def execVshrVs (o : VS) (s : State) : Out := vsPush o (.vs .shr false) s
/-- VSPLAT (R162). -/
def execVsplat (o : VSp) (s : State) : Out :=
  vpush1 o.q ⟨.splat, o.d.toNat, 0, 0, o.t, o.t, o.m, .rne, 0, 0⟩ (some (.g0 o.g)) s
/-- VSLUP (R162). -/
def execVslup (o : VS) (s : State) : Out := vsPush o (.slide true false) s
/-- VROTUP (R162). -/
def execVrotup (o : VS) (s : State) : Out := vsPush o (.slide true true) s
/-- VSLDN (R162). -/
def execVsldn (o : VS) (s : State) : Out := vsPush o (.slide false false) s
/-- VROTDN (R162). -/
def execVrotdn (o : VS) (s : State) : Out := vsPush o (.slide false true) s
/-- VGET (R163): GB names its destination. -/
def execVget (o : VG) (s : State) : Out :=
  vpush1 o.q ⟨.get, o.g.toNat, o.a.toNat, 0, o.t, o.t, 0, .rne, 0, 0⟩ none s
/-- VCVT (R165). -/
def execVcvt (o : Cvt) (s : State) : Out := vpush1 o.q (o.op (.cvt false) 0) none s
/-- VCVTS (R165). -/
def execVcvts (o : Cvt) (s : State) : Out := vpush1 o.q (o.op (.cvt true) 0) none s
/-- VBPACK16 (R166). -/
def execVbpack16 (o : Pack) (s : State) : Out := vpush1 o.q (o.op 16) none s
/-- VBPACK32 (R166). -/
def execVbpack32 (o : Pack) (s : State) : Out := vpush1 o.q (o.op 32) none s
/-- VBPACK64 (R166). -/
def execVbpack64 (o : Pack) (s : State) : Out := vpush1 o.q (o.op 64) none s
/-- VBUNPACK16 (R167). -/
def execVbunpack16 (o : Cvt) (s : State) : Out := vpush1 o.q (o.op .unpack 16) none s
/-- VBUNPACK32 (R167). -/
def execVbunpack32 (o : Cvt) (s : State) : Out := vpush1 o.q (o.op .unpack 32) none s
/-- VBUNPACK64 (R167). -/
def execVbunpack64 (o : Cvt) (s : State) : Out := vpush1 o.q (o.op .unpack 64) none s
/-- VMOV (R168). -/
def execVmov (o : V2) (s : State) : Out := vpush1 o.q (o.op .mov) none s
/-- VMERGE (R168). -/
def execVmerge (o : V3) (s : State) : Out := vpush1 o.q (o.op .merge) none s
/-- VPERM (R168). -/
def execVperm (o : V3) (s : State) : Out := vpush1 o.q (o.op .perm) none s
/-- VCOMPRESS (R168). -/
def execVcompress (o : V2) (s : State) : Out := vpush1 o.q (o.op .compress) none s
/-- VEXPAND (R168). -/
def execVexpand (o : V2) (s : State) : Out := vpush1 o.q (o.op .expand) none s
/-- VGATHER (R169). -/
def execVgather (o : V2) (s : State) : Out := vpush1 o.q (o.op .gather) none s
/-- VSCATTER (R169). -/
def execVscatter (o : VSc) (s : State) : Out := vpush1 o.q ⟨.scatter, 0, o.a.toNat, o.b.toNat, o.t, o.t, o.m, .rne, 0, 0⟩ none s
/-- VZIP (R168). -/
def execVzip (o : VZ) (s : State) : Out := vpush1 o.q ⟨.zip, o.d.toNat, o.a.toNat, o.b.toNat, o.t, o.t, 0, .rne, 0, 0⟩ none s
/-- VUNZIP (R168). -/
def execVunzip (o : VU) (s : State) : Out := vpush1 o.q ⟨.unzip, o.d.toNat, o.a.toNat, 0, o.t, o.t, 0, .rne, 0, 0⟩ none s
/-- VREV (R168). -/
def execVrev (o : V2) (s : State) : Out := vpush1 o.q (o.op .rev) none s
/-- VRSUM (R170). -/
def execVrsum (o : V2C) (s : State) : Out := vpush1 o.q (o.op .sum) none s
/-- VRMIN (R170). -/
def execVrmin (o : V2C) (s : State) : Out := vpush1 o.q (o.op .min) none s
/-- VRMAX (R170). -/
def execVrmax (o : V2C) (s : State) : Out := vpush1 o.q (o.op .max) none s
/-- VRSUMW (R170). -/
def execVrsumw (o : V2C) (s : State) : Out := vpush1 o.q (o.op .sumw) none s
/-- VDOT (R170). -/
def execVdot (o : V3C) (s : State) : Out := vpush1 o.q (o.op .dot) none s
/-- VDOTA (R170). -/
def execVdota (o : V3C) (s : State) : Out := vpush1 o.q (o.op .dota) none s
/-- VDOT2 (R170). -/
def execVdot2 (o : V3C) (s : State) : Out := vpush1 o.q (o.op .dot2) none s
/-- VDOT2A (R170). -/
def execVdot2a (o : V3C) (s : State) : Out := vpush1 o.q (o.op .dot2a) none s
/-- VRCP (R171). -/
def execVrcp (o : V2) (s : State) : Out := vpush1 o.q (o.op (.approx false)) none s
/-- VRSQ (R171). -/
def execVrsq (o : V2) (s : State) : Out := vpush1 o.q (o.op (.approx true)) none s
/-- VREF_RCP (R171). -/
def execVrefRcp (o : V3) (s : State) : Out := vpush1 o.q (o.op (.refine false)) none s
/-- VREF_RSQ (R171). -/
def execVrefRsq (o : V3) (s : State) : Out := vpush1 o.q (o.op (.refine true)) none s
/-- VSQRT (R172). -/
def execVsqrt (o : V2) (s : State) : Out := vpush1 o.q (o.op (.fn .sqrt)) none s
/-- VEXP2 (R172). -/
def execVexp2 (o : V2) (s : State) : Out := vpush1 o.q (o.op (.fn .exp2)) none s
/-- VEXP (R172). -/
def execVexp (o : V2) (s : State) : Out := vpush1 o.q (o.op (.fn .exp)) none s
/-- VLOG2 (R172). -/
def execVlog2 (o : V2) (s : State) : Out := vpush1 o.q (o.op (.fn .log2)) none s
/-- VTANH (R172). -/
def execVtanh (o : V2) (s : State) : Out := vpush1 o.q (o.op (.fn .tanh)) none s
/-- VSIG (R172). -/
def execVsig (o : V2) (s : State) : Out := vpush1 o.q (o.op (.fn .sig)) none s
/-- MAND (R173). -/
def execMand (o : M3) (s : State) : Out := vpush1 o.q (maskOp (.mask .and) o.d.toNat o.a.toNat o.b.toNat .i4 0) none s
/-- MOR (R173). -/
def execMor (o : M3) (s : State) : Out := vpush1 o.q (maskOp (.mask .or) o.d.toNat o.a.toNat o.b.toNat .i4 0) none s
/-- MXOR (R173). -/
def execMxor (o : M3) (s : State) : Out := vpush1 o.q (maskOp (.mask .xor) o.d.toNat o.a.toNat o.b.toNat .i4 0) none s
/-- MANDN (R173). -/
def execMandn (o : M3) (s : State) : Out := vpush1 o.q (maskOp (.mask .andn) o.d.toNat o.a.toNat o.b.toNat .i4 0) none s
/-- MNOT (R173). -/
def execMnot (o : M2) (s : State) : Out := vpush1 o.q (maskOp (.mask .not) o.d.toNat o.a.toNat 0 .i4 0) none s
/-- MMOV (R173). -/
def execMmov (o : M2) (s : State) : Out := vpush1 o.q (maskOp (.mask .mov) o.d.toNat o.a.toNat 0 .i4 0) none s
/-- MFIRST (R173). -/
def execMfirst (o : M2T) (s : State) : Out := vpush1 o.q (maskOp .mfirst o.d.toNat o.a.toNat 0 o.t 0) none s
/-- VIOTA (R173). -/
def execViota (o : VIo) (s : State) : Out := vpush1 o.q (maskOp .iota o.d.toNat 0 0 o.t o.m) none s
/-- VMPOPC (R173). -/
def execVmpopc (o : VPc) (s : State) : Out := vpush1 o.q (maskOp .popc o.d.toNat o.a.toNat 0 o.t 0) none s
/-- VMTOV (R173). -/
def execVmtov (o : VMv) (s : State) : Out := vpush1 o.q (maskOp .mtov o.d.toNat o.a.toNat 0 o.t o.m) none s
/-- VVTOM (R173). -/
def execVvtom (o : VTm) (s : State) : Out := vpush1 o.q (maskOp .vtom o.d.toNat o.a.toNat 0 o.t o.m) none s
/-- The meaning of a vector instruction that writes a predicate: it stalls at its push until it has completed, and only
then is its unit's sequencing part evaluated, on the predicate as written (R24, R144, R156). -/
def vpushP (q : Seq) (o : VOp) (s : State) : Out :=
  unit (len1 q) q (fun s =>
    if s.me.phase = .vmove then .done (s.modMe fun k => { k with phase := .idle })
    else match vpushBody o none none none s with
      | .done s => .stall (s.modMe fun k => { k with phase := .vmove })
      | r => r) s

/-- VANY (R173). -/
def execVany (o : MPr) (s : State) : Out := vpushP o.q (maskOp .any o.d.toNat o.a.toNat 0 o.t 0) s
/-- VALL (R173). -/
def execVall (o : MPr) (s : State) : Out := vpushP o.q (maskOp .all o.d.toNat o.a.toNat 0 o.t 0) s
/-- VCHAIN (R174): the three g operands are read at the push, the descriptor when it is granted. -/
def execVchain (o : ChainO) (s : State) : Out :=
  unit (len2 o.q) o.q
    (vpushBody ⟨.chain, 0, 0, 0, .i8, .i8, 0, .rne, o.desc.toNat, 0⟩ (some (.g o.a o.ta))
      (some (.g o.b o.tb)) (some (.g o.d o.td))) s

/-! ### VACC (R306 to R308) -/

/-- VRDAC (R307): the lease and the row are checked at the grant. -/
def execVrdac (o : VaccO) (s : State) : Out :=
  unit (len2 o.q) o.q
    (vpushBody (o.op (.rdac false)) (some (.g o.a o.ta)) (some (.g o.b o.tb)) none) s
/-- VRDAC_SNOOP (R307). -/
def execVrdacSnoop (o : VaccO) (s : State) : Out :=
  unit (len2 o.q) o.q
    (vpushBody (o.op (.rdac true)) (some (.g o.a o.ta)) (some (.g o.b o.tb)) none) s
/-- VWRAC (R308). -/
def execVwrac (o : VaccO) (s : State) : Out :=
  unit (len2 o.q) o.q
    (vpushBody (o.op .wrac) (some (.g o.a o.ta)) (some (.g o.b o.tb)) none) s
/-- ACLR (R308). -/
def execAclr (o : AclrO) (s : State) : Out :=
  unit (len2 o.q) o.q
    (vpushBody ⟨.aclr, 0, 0, 0, .f32, .f32, 0, .rne, o.nrows.toNat, 0⟩ (some (.g o.a o.ta))
      (some (.g o.b o.tb)) none) s

end Sys2Proof.Machine
end

