-- ==== Sys2Proof/Machine/Dispatch.lean ====
section
/-! DEFINITION. Dispatch: one arm per constructor of Instr, each one call of its meaning. -/

namespace Sys2Proof.Machine

def exec (i : Instr) (s : State) : Host.Outcome State Fault Refusal :=
  match i with
  | .taskStart c => Sys2Proof.Machine.execTaskStart c s
  | .codeFetchFill c addr => Sys2Proof.Machine.execCodeFetchFill c addr s
  | .producerFill c => Sys2Proof.Machine.execProducerFill c s
  | .supervisorKill c => Sys2Proof.Machine.execSupervisorKill c s
  | .supervisorRetry c => Sys2Proof.Machine.execSupervisorRetry c s
  | .supervisorResume c => Sys2Proof.Machine.execSupervisorResume c s
  | .supervisorLeave c => Sys2Proof.Machine.execSupervisorLeave c s
  | .watchdog c => Sys2Proof.Machine.execWatchdog c s
  | .corePartEnd c => Sys2Proof.Machine.execCorePartEnd c s
  | .add o => Sys2Proof.Machine.execAdd o s
  | .sub o => Sys2Proof.Machine.execSub o s
  | .mul o => Sys2Proof.Machine.execMul o s
  | .mulh o => Sys2Proof.Machine.execMulh o s
  | .mulhu o => Sys2Proof.Machine.execMulhu o s
  | .div o => Sys2Proof.Machine.execDiv o s
  | .divu o => Sys2Proof.Machine.execDivu o s
  | .rem o => Sys2Proof.Machine.execRem o s
  | .remu o => Sys2Proof.Machine.execRemu o s
  | .and o => Sys2Proof.Machine.execAnd o s
  | .or o => Sys2Proof.Machine.execOr o s
  | .xor o => Sys2Proof.Machine.execXor o s
  | .andn o => Sys2Proof.Machine.execAndn o s
  | .shl o => Sys2Proof.Machine.execShl o s
  | .shr o => Sys2Proof.Machine.execShr o s
  | .sra o => Sys2Proof.Machine.execSra o s
  | .rol o => Sys2Proof.Machine.execRol o s
  | .min o => Sys2Proof.Machine.execMin o s
  | .max o => Sys2Proof.Machine.execMax o s
  | .minu o => Sys2Proof.Machine.execMinu o s
  | .maxu o => Sys2Proof.Machine.execMaxu o s
  | .clz o => Sys2Proof.Machine.execClz o s
  | .ctz o => Sys2Proof.Machine.execCtz o s
  | .popc o => Sys2Proof.Machine.execPopc o s
  | .adda o => Sys2Proof.Machine.execAdda o s
  | .ptag o => Sys2Proof.Machine.execPtag o s
  | .pfmt o => Sys2Proof.Machine.execPfmt o s
  | .pva o => Sys2Proof.Machine.execPva o s
  | .cmpEq o => Sys2Proof.Machine.execCmpEq o s
  | .cmpNe o => Sys2Proof.Machine.execCmpNe o s
  | .cmpLt o => Sys2Proof.Machine.execCmpLt o s
  | .cmpLe o => Sys2Proof.Machine.execCmpLe o s
  | .cmpLtu o => Sys2Proof.Machine.execCmpLtu o s
  | .cmpLeu o => Sys2Proof.Machine.execCmpLeu o s
  | .addi o => Sys2Proof.Machine.execAddi o s
  | .andi o => Sys2Proof.Machine.execAndi o s
  | .ori o => Sys2Proof.Machine.execOri o s
  | .xori o => Sys2Proof.Machine.execXori o s
  | .shli o => Sys2Proof.Machine.execShli o s
  | .shri o => Sys2Proof.Machine.execShri o s
  | .srai o => Sys2Proof.Machine.execSrai o s
  | .roli o => Sys2Proof.Machine.execRoli o s
  | .cmpiEq o => Sys2Proof.Machine.execCmpiEq o s
  | .cmpiNe o => Sys2Proof.Machine.execCmpiNe o s
  | .cmpiLt o => Sys2Proof.Machine.execCmpiLt o s
  | .cmpiLtu o => Sys2Proof.Machine.execCmpiLtu o s
  | .li o => Sys2Proof.Machine.execLi o s
  | .lih o => Sys2Proof.Machine.execLih o s
  | .addai o => Sys2Proof.Machine.execAddai o s
  | .fadd o => Sys2Proof.Machine.execFadd o s
  | .fsub o => Sys2Proof.Machine.execFsub o s
  | .fmul o => Sys2Proof.Machine.execFmul o s
  | .fma o => Sys2Proof.Machine.execFma o s
  | .fitof o => Sys2Proof.Machine.execFitof o s
  | .fftoi o => Sys2Proof.Machine.execFftoi o s
  | .fmin o => Sys2Proof.Machine.execFmin o s
  | .fmax o => Sys2Proof.Machine.execFmax o s
  | .fabs o => Sys2Proof.Machine.execFabs o s
  | .fneg o => Sys2Proof.Machine.execFneg o s
  | .feq o => Sys2Proof.Machine.execFeq o s
  | .flt o => Sys2Proof.Machine.execFlt o s
  | .fle o => Sys2Proof.Machine.execFle o s
  | .fun o => Sys2Proof.Machine.execFun o s
  | .frcp o => Sys2Proof.Machine.execFrcp o s
  | .frsq o => Sys2Proof.Machine.execFrsq o s
  | .frefRcp o => Sys2Proof.Machine.execFrefRcp o s
  | .frefRsq o => Sys2Proof.Machine.execFrefRsq o s
  | .fclass o => Sys2Proof.Machine.execFclass o s
  | .pand o => Sys2Proof.Machine.execPand o s
  | .por o => Sys2Proof.Machine.execPor o s
  | .pxor o => Sys2Proof.Machine.execPxor o s
  | .pandn o => Sys2Proof.Machine.execPandn o s
  | .pnot o => Sys2Proof.Machine.execPnot o s
  | .pmov o => Sys2Proof.Machine.execPmov o s
  | .gtop o => Sys2Proof.Machine.execGtop o s
  | .ptog o => Sys2Proof.Machine.execPtog o s
  | .sel o => Sys2Proof.Machine.execSel o s
  | .loop o => Sys2Proof.Machine.execLoop o s
  | .loopReg o => Sys2Proof.Machine.execLoopReg o s
  | .rpt o => Sys2Proof.Machine.execRpt o s
  | .rptReg o => Sys2Proof.Machine.execRptReg o s
  | .setw o => Sys2Proof.Machine.execSetw o s
  | .setwReg o => Sys2Proof.Machine.execSetwReg o s
  | .getw o => Sys2Proof.Machine.execGetw o s
  | .yield o => Sys2Proof.Machine.execYield o s
  | .done o => Sys2Proof.Machine.execDone o s
  | .nop o => Sys2Proof.Machine.execNop o s
  | .trap o => Sys2Proof.Machine.execTrap o s
  | .mfs o => Sys2Proof.Machine.execMfs o s
  | .mts o => Sys2Proof.Machine.execMts o s
  | .capr o => Sys2Proof.Machine.execCapr o s
  | .ifence o => Sys2Proof.Machine.execIfence o s
  | .ld o => Sys2Proof.Machine.execLd o s
  | .st o => Sys2Proof.Machine.execSt o s
  | .ldv o => Sys2Proof.Machine.execLdv o s
  | .stv o => Sys2Proof.Machine.execStv o s
  | .ldy o => Sys2Proof.Machine.execLdy o s
  | .sty o => Sys2Proof.Machine.execSty o s
  | .ldvy o => Sys2Proof.Machine.execLdvy o s
  | .stvy o => Sys2Proof.Machine.execStvy o s
  | .yardStorePerform c => Sys2Proof.Machine.execYardStorePerform c s
  | .localScrub c word => Sys2Proof.Machine.execLocalScrub c word s
  | .yardScrub k word => Sys2Proof.Machine.execYardScrub k word s
  | .cpy o => Sys2Proof.Machine.execCpy o s
  | .cpyt o => Sys2Proof.Machine.execCpyt o s
  | .cpyc o => Sys2Proof.Machine.execCpyc o s
  | .copyUnit k seq => Sys2Proof.Machine.execCopyUnit k seq s
  | .copyComplete k => Sys2Proof.Machine.execCopyComplete k s
  | .aop o => Sys2Proof.Machine.execAop o s
  | .atomicPerform c n => Sys2Proof.Machine.execAtomicPerform c n s
  | .hwait o => Sys2Proof.Machine.execHwait o s
  | .htest o => Sys2Proof.Machine.execHtest o s
  | .hcancel o => Sys2Proof.Machine.execHcancel o s
  | .hmovH o => Sys2Proof.Machine.execHmovH o s
  | .hmovG o => Sys2Proof.Machine.execHmovG o s
  | .inbox o => Sys2Proof.Machine.execInbox o s
  | .fenceAcq o => Sys2Proof.Machine.execFenceAcq o s
  | .fenceRel o => Sys2Proof.Machine.execFenceRel o s
  | .fenceFull o => Sys2Proof.Machine.execFenceFull o s
  | .emptyG o => Sys2Proof.Machine.execEmptyG o s
  | .emptyV o => Sys2Proof.Machine.execEmptyV o s
  | .emptyH o => Sys2Proof.Machine.execEmptyH o s
  | .bind o => Sys2Proof.Machine.execBind o s
  | .unbind o => Sys2Proof.Machine.execUnbind o s
  | .youtElementWrite c port => Sys2Proof.Machine.execYoutElementWrite c port s
  | .yinReadAhead c port => Sys2Proof.Machine.execYinReadAhead c port s
  | .vectorGrant u => Sys2Proof.Machine.execVectorGrant u s
  | .vectorComplete c n => Sys2Proof.Machine.execVectorComplete c n s
  | .headAged c => Sys2Proof.Machine.execHeadAged c s
  | .vectorTrapDelivery c => Sys2Proof.Machine.execVectorTrapDelivery c s
  | .vadd o => Sys2Proof.Machine.execVadd o s
  | .vsub o => Sys2Proof.Machine.execVsub o s
  | .vmul o => Sys2Proof.Machine.execVmul o s
  | .vmulh o => Sys2Proof.Machine.execVmulh o s
  | .vmac o => Sys2Proof.Machine.execVmac o s
  | .vadds o => Sys2Proof.Machine.execVadds o s
  | .vsubs o => Sys2Proof.Machine.execVsubs o s
  | .vmuls o => Sys2Proof.Machine.execVmuls o s
  | .vmacs o => Sys2Proof.Machine.execVmacs o s
  | .vmin o => Sys2Proof.Machine.execVmin o s
  | .vmax o => Sys2Proof.Machine.execVmax o s
  | .vand o => Sys2Proof.Machine.execVand o s
  | .vor o => Sys2Proof.Machine.execVor o s
  | .vxor o => Sys2Proof.Machine.execVxor o s
  | .vandn o => Sys2Proof.Machine.execVandn o s
  | .vshl o => Sys2Proof.Machine.execVshl o s
  | .vshr o => Sys2Proof.Machine.execVshr o s
  | .vabs o => Sys2Proof.Machine.execVabs o s
  | .vneg o => Sys2Proof.Machine.execVneg o s
  | .vaddw o => Sys2Proof.Machine.execVaddw o s
  | .vsubw o => Sys2Proof.Machine.execVsubw o s
  | .vmulw o => Sys2Proof.Machine.execVmulw o s
  | .vmacw o => Sys2Proof.Machine.execVmacw o s
  | .vcmpEq o => Sys2Proof.Machine.execVcmpEq o s
  | .vcmpNe o => Sys2Proof.Machine.execVcmpNe o s
  | .vcmpLt o => Sys2Proof.Machine.execVcmpLt o s
  | .vcmpLe o => Sys2Proof.Machine.execVcmpLe o s
  | .vfadd o => Sys2Proof.Machine.execVfadd o s
  | .vfsub o => Sys2Proof.Machine.execVfsub o s
  | .vfmul o => Sys2Proof.Machine.execVfmul o s
  | .vfma o => Sys2Proof.Machine.execVfma o s
  | .vfmulw o => Sys2Proof.Machine.execVfmulw o s
  | .vfmaw o => Sys2Proof.Machine.execVfmaw o s
  | .vfmul2 o => Sys2Proof.Machine.execVfmul2 o s
  | .vfmin o => Sys2Proof.Machine.execVfmin o s
  | .vfmax o => Sys2Proof.Machine.execVfmax o s
  | .vfabs o => Sys2Proof.Machine.execVfabs o s
  | .vfneg o => Sys2Proof.Machine.execVfneg o s
  | .vfcmpEq o => Sys2Proof.Machine.execVfcmpEq o s
  | .vfcmpLt o => Sys2Proof.Machine.execVfcmpLt o s
  | .vfcmpLe o => Sys2Proof.Machine.execVfcmpLe o s
  | .vfcmpUn o => Sys2Proof.Machine.execVfcmpUn o s
  | .vaddVs o => Sys2Proof.Machine.execVaddVs o s
  | .vaddsVs o => Sys2Proof.Machine.execVaddsVs o s
  | .vsubVs o => Sys2Proof.Machine.execVsubVs o s
  | .vsubsVs o => Sys2Proof.Machine.execVsubsVs o s
  | .vrsubVs o => Sys2Proof.Machine.execVrsubVs o s
  | .vrsubsVs o => Sys2Proof.Machine.execVrsubsVs o s
  | .vmulVs o => Sys2Proof.Machine.execVmulVs o s
  | .vmulsVs o => Sys2Proof.Machine.execVmulsVs o s
  | .vmacVs o => Sys2Proof.Machine.execVmacVs o s
  | .vmacsVs o => Sys2Proof.Machine.execVmacsVs o s
  | .vminVs o => Sys2Proof.Machine.execVminVs o s
  | .vmaxVs o => Sys2Proof.Machine.execVmaxVs o s
  | .vandVs o => Sys2Proof.Machine.execVandVs o s
  | .vorVs o => Sys2Proof.Machine.execVorVs o s
  | .vxorVs o => Sys2Proof.Machine.execVxorVs o s
  | .vshlVs o => Sys2Proof.Machine.execVshlVs o s
  | .vshrVs o => Sys2Proof.Machine.execVshrVs o s
  | .vsplat o => Sys2Proof.Machine.execVsplat o s
  | .vslup o => Sys2Proof.Machine.execVslup o s
  | .vrotup o => Sys2Proof.Machine.execVrotup o s
  | .vsldn o => Sys2Proof.Machine.execVsldn o s
  | .vrotdn o => Sys2Proof.Machine.execVrotdn o s
  | .vget o => Sys2Proof.Machine.execVget o s
  | .vcvt o => Sys2Proof.Machine.execVcvt o s
  | .vcvts o => Sys2Proof.Machine.execVcvts o s
  | .vbpack16 o => Sys2Proof.Machine.execVbpack16 o s
  | .vbpack32 o => Sys2Proof.Machine.execVbpack32 o s
  | .vbpack64 o => Sys2Proof.Machine.execVbpack64 o s
  | .vbunpack16 o => Sys2Proof.Machine.execVbunpack16 o s
  | .vbunpack32 o => Sys2Proof.Machine.execVbunpack32 o s
  | .vbunpack64 o => Sys2Proof.Machine.execVbunpack64 o s
  | .vmov o => Sys2Proof.Machine.execVmov o s
  | .vmerge o => Sys2Proof.Machine.execVmerge o s
  | .vperm o => Sys2Proof.Machine.execVperm o s
  | .vcompress o => Sys2Proof.Machine.execVcompress o s
  | .vexpand o => Sys2Proof.Machine.execVexpand o s
  | .vgather o => Sys2Proof.Machine.execVgather o s
  | .vscatter o => Sys2Proof.Machine.execVscatter o s
  | .vzip o => Sys2Proof.Machine.execVzip o s
  | .vunzip o => Sys2Proof.Machine.execVunzip o s
  | .vrev o => Sys2Proof.Machine.execVrev o s
  | .vrsum o => Sys2Proof.Machine.execVrsum o s
  | .vrmin o => Sys2Proof.Machine.execVrmin o s
  | .vrmax o => Sys2Proof.Machine.execVrmax o s
  | .vrsumw o => Sys2Proof.Machine.execVrsumw o s
  | .vdot o => Sys2Proof.Machine.execVdot o s
  | .vdota o => Sys2Proof.Machine.execVdota o s
  | .vdot2 o => Sys2Proof.Machine.execVdot2 o s
  | .vdot2a o => Sys2Proof.Machine.execVdot2a o s
  | .vrcp o => Sys2Proof.Machine.execVrcp o s
  | .vrsq o => Sys2Proof.Machine.execVrsq o s
  | .vrefRcp o => Sys2Proof.Machine.execVrefRcp o s
  | .vrefRsq o => Sys2Proof.Machine.execVrefRsq o s
  | .vsqrt o => Sys2Proof.Machine.execVsqrt o s
  | .vexp2 o => Sys2Proof.Machine.execVexp2 o s
  | .vexp o => Sys2Proof.Machine.execVexp o s
  | .vlog2 o => Sys2Proof.Machine.execVlog2 o s
  | .vtanh o => Sys2Proof.Machine.execVtanh o s
  | .vsig o => Sys2Proof.Machine.execVsig o s
  | .mand o => Sys2Proof.Machine.execMand o s
  | .mor o => Sys2Proof.Machine.execMor o s
  | .mxor o => Sys2Proof.Machine.execMxor o s
  | .mandn o => Sys2Proof.Machine.execMandn o s
  | .mnot o => Sys2Proof.Machine.execMnot o s
  | .mmov o => Sys2Proof.Machine.execMmov o s
  | .mfirst o => Sys2Proof.Machine.execMfirst o s
  | .viota o => Sys2Proof.Machine.execViota o s
  | .vmpopc o => Sys2Proof.Machine.execVmpopc o s
  | .vmtov o => Sys2Proof.Machine.execVmtov o s
  | .vvtom o => Sys2Proof.Machine.execVvtom o s
  | .vany o => Sys2Proof.Machine.execVany o s
  | .vall o => Sys2Proof.Machine.execVall o s
  | .vchain o => Sys2Proof.Machine.execVchain o s
  | .rinj o => Sys2Proof.Machine.execRinj o s
  | .rinjr o => Sys2Proof.Machine.execRinjr o s
  | .rpark o => Sys2Proof.Machine.execRpark o s
  | .runpark o => Sys2Proof.Machine.execRunpark o s
  | .rtire o => Sys2Proof.Machine.execRtire o s
  | .rstat o => Sys2Proof.Machine.execRstat o s
  | .rwait o => Sys2Proof.Machine.execRwait o s
  | .rstart o => Sys2Proof.Machine.execRstart o s
  | .rreset o => Sys2Proof.Machine.execRreset o s
  | .rmode o => Sys2Proof.Machine.execRmode o s
  | .tileDeparture k fam st => Sys2Proof.Machine.execTileDeparture k fam st s
  | .beat k => Sys2Proof.Machine.execBeat k s
  | .tileArrival k fam st => Sys2Proof.Machine.execTileArrival k fam st s
  | .heldMeetingTaken k st => Sys2Proof.Machine.execHeldMeetingTaken k st s
  | .queuedTileEntry k fam st => Sys2Proof.Machine.execQueuedTileEntry k fam st s
  | .spentTileToLayby k fam st => Sys2Proof.Machine.execSpentTileToLayby k fam st s
  | .spentTileRetire k fam => Sys2Proof.Machine.execSpentTileRetire k fam s
  | .wakeExpiry k fam st => Sys2Proof.Machine.execWakeExpiry k fam st s
  | .ringDone k => Sys2Proof.Machine.execRingDone k s
  | .ringFault k => Sys2Proof.Machine.execRingFault k s
  | .jwr o => Sys2Proof.Machine.execJwr o s
  | .jrd o => Sys2Proof.Machine.execJrd o s
  | .join o => Sys2Proof.Machine.execJoin o s
  | .leave o => Sys2Proof.Machine.execLeave o s
  | .bar o => Sys2Proof.Machine.execBar o s
  | .generationComplete l die id => Sys2Proof.Machine.execGenerationComplete l die id s
  | .abort o => Sys2Proof.Machine.execAbort o s
  | .abortLineArrival l k => Sys2Proof.Machine.execAbortLineArrival l k s
  | .abchk o => Sys2Proof.Machine.execAbchk o s
  | .sstep o => Sys2Proof.Machine.execSstep o s
  | .sstepComplete l gang => Sys2Proof.Machine.execSstepComplete l gang s
  | .trig o => Sys2Proof.Machine.execTrig o s
  | .alease o => Sys2Proof.Machine.execAlease o s
  | .afree o => Sys2Proof.Machine.execAfree o s
  | .opass o => Sys2Proof.Machine.execOpass o s
  | .opassr o => Sys2Proof.Machine.execOpassr o s
  | .oprobe o => Sys2Proof.Machine.execOprobe o s
  | .passGrant m => Sys2Proof.Machine.execPassGrant m s
  | .passEnd m => Sys2Proof.Machine.execPassEnd m s
  | .passCommit m => Sys2Proof.Machine.execPassCommit m s
  | .bankLoadComplete m => Sys2Proof.Machine.execBankLoadComplete m s
  | .autoProbe m => Sys2Proof.Machine.execAutoProbe m s
  | .thermalUnlock m => Sys2Proof.Machine.execThermalUnlock m s
  | .thermalRelock m => Sys2Proof.Machine.execThermalRelock m s
  | .phld o => Sys2Proof.Machine.execPhld o s
  | .phdec o => Sys2Proof.Machine.execPhdec o s
  | .decompositionComplete die engine => Sys2Proof.Machine.execDecompositionComplete die engine s
  | .phadj o => Sys2Proof.Machine.execPhadj o s
  | .phwr o => Sys2Proof.Machine.execPhwr o s
  | .phrd o => Sys2Proof.Machine.execPhrd o s
  | .ostat o => Sys2Proof.Machine.execOstat o s
  | .chainEntryComplete k chain => Sys2Proof.Machine.execChainEntryComplete k chain s
  | .vrdac o => Sys2Proof.Machine.execVrdac o s
  | .vrdacSnoop o => Sys2Proof.Machine.execVrdacSnoop o s
  | .vwrac o => Sys2Proof.Machine.execVwrac o s
  | .aclr o => Sys2Proof.Machine.execAclr o s
  | .gld o => Sys2Proof.Machine.execGld o s
  | .gst o => Sys2Proof.Machine.execGst o s
  | .gldv o => Sys2Proof.Machine.execGldv o s
  | .gstv o => Sys2Proof.Machine.execGstv o s
  | .gldt o => Sys2Proof.Machine.execGldt o s
  | .gstt o => Sys2Proof.Machine.execGstt o s
  | .gred o => Sys2Proof.Machine.execGred o s
  | .reductionPerform c => Sys2Proof.Machine.execReductionPerform c s
  | .gsend o => Sys2Proof.Machine.execGsend o s
  | .grecv o => Sys2Proof.Machine.execGrecv o s
  | .gpfill o => Sys2Proof.Machine.execGpfill o s
  | .ginj o => Sys2Proof.Machine.execGinj o s
  | .tmld o => Sys2Proof.Machine.execTmld o s
  | .tmst o => Sys2Proof.Machine.execTmst o s
  | .tmwr o => Sys2Proof.Machine.execTmwr o s
  | .translationFault ag => Sys2Proof.Machine.execTranslationFault ag s
  | .lineAllocate r => Sys2Proof.Machine.execLineAllocate r s
  | .dstat o => Sys2Proof.Machine.execDstat o s
  | .dclr o => Sys2Proof.Machine.execDclr o s
  | .dmark o => Sys2Proof.Machine.execDmark o s
  | .ddrain o => Sys2Proof.Machine.execDdrain o s
  | .logDrain die => Sys2Proof.Machine.execLogDrain die s
  | .replayDivergence c => Sys2Proof.Machine.execReplayDivergence c s
  | .doorbell die queue tail => Sys2Proof.Machine.execDoorbell die queue tail s
  | .kickTake die => Sys2Proof.Machine.execKickTake die s
  | .gangPlace die => Sys2Proof.Machine.execGangPlace die s
  | .priorityAgeing l => Sys2Proof.Machine.execPriorityAgeing l s
  | .preemptionStop l => Sys2Proof.Machine.execPreemptionStop l s
  | .launchRestore l => Sys2Proof.Machine.execLaunchRestore l s
  | .superstepRollback l gang => Sys2Proof.Machine.execSuperstepRollback l gang s
  | .thirdRun l gang => Sys2Proof.Machine.execThirdRun l gang s
  | .heldBufferFull l => Sys2Proof.Machine.execHeldBufferFull l s
  | .llimExpiry l => Sys2Proof.Machine.execLlimExpiry l s
  | .quantumExpiry l => Sys2Proof.Machine.execQuantumExpiry l s
  | .schedulerTakeover die => Sys2Proof.Machine.execSchedulerTakeover die s
  | .launchComplete l => Sys2Proof.Machine.execLaunchComplete l s
  | .partCreate cmd => Sys2Proof.Machine.execPartCreate cmd s
  | .partDestroy cmd => Sys2Proof.Machine.execPartDestroy cmd s
  | .vfSet cmd => Sys2Proof.Machine.execVfSet cmd s
  | .faultReply cmd => Sys2Proof.Machine.execFaultReply cmd s
  | .preempt cmd => Sys2Proof.Machine.execPreempt cmd s
  | .unitReturn cmd => Sys2Proof.Machine.execUnitReturn cmd s
  | .extend cmd => Sys2Proof.Machine.execExtend cmd s
  | .sealJoin cmd peer => Sys2Proof.Machine.execSealJoin cmd peer s
  | .restore cmd => Sys2Proof.Machine.execRestore cmd s
  | .pcast o => Sys2Proof.Machine.execPcast o s
  | .pctr o => Sys2Proof.Machine.execPctr o s
  | .pquote o => Sys2Proof.Machine.execPquote o s
  | .cowPrecopy part page => Sys2Proof.Machine.execCowPrecopy part page s
  | .pourDrain part => Sys2Proof.Machine.execPourDrain part s
  | .castComplete part => Sys2Proof.Machine.execCastComplete part s
  | .securityAlarm sensor => Sys2Proof.Machine.execSecurityAlarm sensor s
  | .bringUp => Sys2Proof.Machine.execBringUp s
  | .powerCapThrottle watts => Sys2Proof.Machine.execPowerCapThrottle watts s
  | .powerRestoreClocks watts => Sys2Proof.Machine.execPowerRestoreClocks watts s
  | .fput o => Sys2Proof.Machine.execFput o s
  | .fget o => Sys2Proof.Machine.execFget o s
  | .fsend o => Sys2Proof.Machine.execFsend o s
  | .frecv o => Sys2Proof.Machine.execFrecv o s
  | .fcut o => Sys2Proof.Machine.execFcut o s
  | .fwin o => Sys2Proof.Machine.execFwin o s
  | .fctlPolicy o => Sys2Proof.Machine.execFctlPolicy o s
  | .fctlExcise o => Sys2Proof.Machine.execFctlExcise o s
  | .fctlReadmit o => Sys2Proof.Machine.execFctlReadmit o s
  | .fpstat o => Sys2Proof.Machine.execFpstat o s
  | .fabricPacketSend die => Sys2Proof.Machine.execFabricPacketSend die s
  | .fabricAck p => Sys2Proof.Machine.execFabricAck p s
  | .orderedArrival port p => Sys2Proof.Machine.execOrderedArrival port p s
  | .orderedDelivery => Sys2Proof.Machine.execOrderedDelivery s
  | .unorderedArrival p => Sys2Proof.Machine.execUnorderedArrival p s
  | .milestoneReceive port stamp => Sys2Proof.Machine.execMilestoneReceive port stamp s
  | .waymark port => Sys2Proof.Machine.execWaymark port s
  | .milestoneSend port => Sys2Proof.Machine.execMilestoneSend port s
  | .flitReplay port => Sys2Proof.Machine.execFlitReplay port s
  | .laneFail port lane => Sys2Proof.Machine.execLaneFail port lane s
  | .linkDown port => Sys2Proof.Machine.execLinkDown port s
  | .routeRecompute => Sys2Proof.Machine.execRouteRecompute s
  | .stalledWatermark port => Sys2Proof.Machine.execStalledWatermark port s
  | .portReadmit port => Sys2Proof.Machine.execPortReadmit port s
  | .timestampExchange peer offset => Sys2Proof.Machine.execTimestampExchange peer offset s
  | .reservedWord w0 w1 value => Sys2Proof.Machine.execReservedWord w0 w1 value s
  | .checkWindowExpiry unit => Sys2Proof.Machine.execCheckWindowExpiry unit s
  | .translationChange part va len => Sys2Proof.Machine.execTranslationChange part va len s
  | .schedulerPairFailure die => Sys2Proof.Machine.execSchedulerPairFailure die s
  | .portUp port nbr => Sys2Proof.Machine.execPortUp port nbr s

end Sys2Proof.Machine
end

