-- ==== Sys2Proof/Machine/HostMem.lean ====
section
/-! DEFINITION. Host memory behind the command die (R340, R347, R356, R357): writes of host processors and when device
reads see them, and the accesses that a core's engines make to it. No instruction of the table names host memory: its
accesses are turns of the environment (log entry 16). -/

namespace Sys2Proof.Machine

/-- A host processor writes host memory: a device read need not see it yet (R347). -/
def State.hostMemory (s : State) (a : Nat) (bs : List Byte) : State := { s with hostWrites := s.hostWrites ++ [(a, bs)] }

/-- The oldest host write that device reads need not see comes to be seen. -/
def State.hostSeen (s : State) : State :=
  match s.hostWrites with
  | [] => s
  | w :: ws => { s with host := s.host.writeN w.1 w.2, hostWrites := ws }

/-- Whether a core belongs to a running launch and n bytes from addr lie in its local memory. -/
def State.hostRange (s : State) (c : CoreId) (addr n : Nat) : Bool :=
  (s.core c).launch.isSome && (s.launchOf c).state == .running && addr + n ≤ 2 ^ 15

/-- An engine of a core writes n bytes of its local memory to host memory, performed once the command die has reported
it done (R340); in a redundant launch it is held until the copies of the superstep agree (R386). -/
def State.hostOut (s : State) (c : CoreId) (a addr n : Nat) : State :=
  if s.hostRange c addr n && (s.bad (localBase c + addr) n).isNone then
    let (bs, s) := s.readT c (localBase c + addr) n 0
    if (s.launchOf c).rcd.red then
      s.holdWrite c { core := c, pc := none, va := 2 ^ 62 + a, bytes := bs, atomic := none, peer := none, host := some a }
    else s.hostPut c a bs
  else s

/-- An engine of a core reads n bytes of host memory into its local memory: every byte arrives tainted (R356, R357). -/
def State.hostIn (s : State) (c : CoreId) (a addr n : Nat) : State :=
  if s.hostRange c addr n && (s.badPartial (localBase c + addr) n).isNone then
    s.writeLocal c c addr ((s.host.readN a n).map fun b => (b, true))
  else s

end Sys2Proof.Machine
end

