-- ==== Sys2Proof/Machine/Issue.lean ====
section
/-! DEFINITION. What a core does at its next unit boundary: deliver a late trap, start a task, fetch, decode
(R12, R23, R50, R51, R125, R149), and what each of the environment's turns does. -/

noncomputable section

namespace Sys2Proof.Machine

/-- The first of a unit's n words that the instruction store does not hold (R125). -/
def Core.missing (k : Core) (a : Nat) : Nat → Option Nat
  | 0 => none
  | n + 1 => if (Tab.get none k.istore a).isNone then some a else k.missing (a + 4) n

/-- The reserved value's word, for RESERVED_CODE's VALUE (R51). -/
def rejectValue (e : Reject) (w x sw : Word) : Word :=
  match e with
  | .word0 => w
  | .ext => x
  | .seq => sw
  | .short => w

/-- The unit at a core's pc, decoded from its words: the instruction to execute, RESERVED_WORD where the
decoder rejects it (R50, R51). -/
def State.decodeAt (s : State) (c : CoreId) : Instr :=
  let a := (s.core c).pc.toNat
  let w := s.codeWord c a
  let two := majorTwo (w.extractLsb' 24 6)
  let x := if two then s.codeWord c (a + 4) else 0
  let sw := s.codeWord c (a + (if two then 8 else 4))
  match decodeUnit c.isRamp w x sw with
  | .ok i => i
  | .error e => .reservedWord w (s.messageWords c a).2 (rejectValue e w x sw)

/-- Note the words of the unit to be executed, for its fault message (R34; of a unit outside the image, DESIGN CHOICE,
log entry 69). -/
def State.noteWords (s : State) : State :=
  let w := s.messageWords s.cur s.me.pc.toNat
  s.modMe fun k => { k with uw0 := w.1, uw1 := w.2 }

end Sys2Proof.Machine

namespace Sys2Proof

/-- The scalar checkers of R148. -/
def scalarChecker (id : BitVec 16) : Bool :=
  id == 0x0100 || id == 0x0200 || id == 0x0300 || id == 0x0400 || id == 0x0500 || id == 0x0600

/-- Whether an instruction uses a scalar checker (R148). DESIGN CHOICE (log entry 72): R148 names the checked units and
not the instructions that use them. The register files serve every instruction with a register operand; the others serve
the instructions that add (address sums of loads and stores, minimum and maximum too), multiply or divide, shift, and add
or multiply in F32; compares, conversions and reciprocal estimates use none of these. -/
def Instr.bodyChecker (i : Instr) (id : BitVec 16) : Bool :=
  match i with
  | .add _ | .sub _ | .min _ | .max _ | .minu _ | .maxu _ | .adda _ | .addi _ | .addai _ =>
    id == 0x0100 || id == 0x0600
  | .ld _ | .st _ | .ldv _ | .stv _ | .ldy _ | .sty _ | .ldvy _ | .stvy _ | .gld _ | .gst _ | .gldv _ | .gstv _ =>
    id == 0x0100 || id == 0x0600
  | .mul _ | .mulh _ | .mulhu _ | .div _ | .divu _ | .rem _ | .remu _ => id == 0x0200 || id == 0x0600
  | .shl _ | .shr _ | .sra _ | .rol _ | .shli _ | .shri _ | .srai _ | .roli _ => id == 0x0300 || id == 0x0600
  | .fadd _ | .fsub _ => id == 0x0400 || id == 0x0600
  | .fmul _ => id == 0x0500 || id == 0x0600
  | .fma _ | .frefRcp _ | .frefRsq _ => id == 0x0400 || id == 0x0500 || id == 0x0600
  | .yield _ | .done _ | .nop _ | .ifence _ | .trap _ | .loop _ | .rpt _ => false
  | _ => id == 0x0600

/-- Whether a unit uses a scalar checker (R148): its instruction's, and the way registers where its sequencing part reads
one. DESIGN CHOICE (log entry 72): which scalar instructions use which checker. -/
def Instr.usesChecker (i : Instr) (id : BitVec 16) : Bool :=
  i.bodyChecker id || (id == 0x0600 && match i.seq with
    | some (.jumpw _) | some (.callw _) => true
    | _ => false)

/-- Instructions whose effect leaves the core, so that it could not be discarded after it. -/
def Instr.outward : Instr → Bool
  | .cpy _ | .cpyt _ | .cpyc _ | .aop _ | .hcancel _ | .bind _ | .unbind _ => true
  | .rinj _ | .rinjr _ | .rpark _ | .runpark _ | .rtire _ | .rstart _ | .rreset _ | .rmode _ | .jwr _ => true
  | .join _ | .leave _ | .bar _ | .abort _ | .sstep _ | .trig _ | .alease _ | .afree _ => true
  | .opass _ | .opassr _ | .oprobe _ | .phld _ | .phdec _ | .phadj _ | .phwr _ | .phrd _ => true
  | .gst _ | .gred _ | .gsend _ | .grecv _ | .gpfill _ | .ginj _ | .tmst _ | .tmwr _ => true
  | .dclr _ | .dmark _ | .ddrain _ | .mts _ | .pcast _ | .pquote _ => true
  | .fput _ | .fget _ | .fsend _ | .frecv _ | .fcut _ | .fwin _ | .fctlPolicy _ | .fctlExcise _ => true
  | .fctlReadmit _ => true
  | _ => false

end Sys2Proof

namespace Sys2Proof.Machine

/-- Whether a unit must wait at its issue: its effect leaves the core, and an earlier vector instruction may still
trap and discard it (R149). -/
def State.holdsOutward (s : State) (i : Instr) : Bool :=
  i.outward && s.me.vq.any fun e => e.op.kind.mayTrap && !s.vaccGood s.cur e

/-- A mismatch of a scalar checker that the unit does not use cannot arise on it (R148). -/
def State.dropCheck (s : State) (i : Instr) : State :=
  match s.checkFail with
  | some (c, id) => if c = s.cur && id.toNat < 0x1000 && !i.usesChecker id then { s with checkFail := none } else s
  | none => s

/-- What the issuing core does next: an instruction or event to execute in a state, or only a new state. A trap that is due
is taken at a unit boundary, so that a core inside a unit whose effect has begun to leave it goes on with that unit (R32). -/
def State.issue (s : State) : State × Option Instr :=
  let k := s.me
  if k.launch.isNone || k.park.isSome || k.left || (s.launchOf s.cur).state != .running
      || (s.gangOf s.cur).rolling.isSome then (s, none)
  else if k.pendingTrap.isSome && !k.midUnit then (s, some (.vectorTrapDelivery s.cur))
  else match k.lateTrap.filter fun x => !k.midUnit || x.1.cause == .replayDiverge with
  | some (t, pc) =>
    if t.cause = .replayDiverge then (s, some (.replayDivergence s.cur))
    else
      let w := s.messageWords s.cur pc.toNat
      (s.trapAt s.cur pc w.1 w.2 t, none)
  | none =>
    if !k.running then (s, some (.taskStart s.cur))
    else match s.unitRange s.cur k.pc.toNat with
    | some t => (s.noteWords.takeTrap t, none)
    | none =>
      match k.missing k.pc.toNat (s.unitLen s.cur k.pc.toNat) with
      | some a => (s, some (.codeFetchFill s.cur (BitVec.ofNat 32 a)))
      | none =>
        let i := s.decodeAt s.cur
        if s.holdsOutward i then (s, none) else ((s.dropCheck i).noteWords, some i)

/-- What one of the environment's turns does: a new state, or an event to execute. -/
def State.turn (s : State) : Turn → State × Option Instr
  | .core c => ({ s with cur := c }, none)
  | .event e => (s, some e)
  | .wait n => ({ s with clock := s.clock + n }, none)
  | .upset a => ({ s with uncorr := Tab.put false s.uncorr (a / errUnit a * errUnit a) true }, none)
  | .upsetWin m key => (s.modMesh m fun x =>
      { x with wins := Tab.put WinElem.zero x.wins key { Tab.get WinElem.zero x.wins key with poison := true } },
      none)
  | .check c id => (if scalarChecker id || vectorChecker c id then { s with checkFail := some (c, id) } else s, none)
  | .storePart c n j => (s.storePart c n j, none)
  | .loadPart c n j => (s.loadPart c n j, none)
  | .copyRead k n => (s.copyRead k n, none)
  | .copyWord k n j => (s.copyWord k n j, none)
  | .copyDefer k n j => (s.copyDefer k n j, none)
  | .copySeen k n j => (s.copySeen k n j, none)
  | .sampleRow m => (s.sample m false, none)
  | .sampleScale m => (s.sample m true, none)
  | .temper m t => (s.modMesh m fun x => { x with temp := t }, none)
  | .upsetTile k st b place word => (s.upsetTile k st (if b then .b else .a) place word, none)
  | .newStore c => (s.writeStore c, none)
  | .restart => (s.restart, none)
  | .hostMemory a bs => (s.hostMemory a bs, none)
  | .hostSeen => (s.hostSeen, none)
  | .hostOut c a addr n => (s.hostOut c a addr n, none)
  | .hostIn c a addr n => (s.hostIn c a addr n, none)
  | .context d q x => (s.modDie d fun y => { y with queues := Tab.put none y.queues q (some x) }, none)
  | .hostWrite a bs =>
    (if a + bs.length ≤ 2 ^ 44 then
      let pages := (List.range (bs.length / 4096 + 2)).map fun i => a + 4096 * i
      (pages.foldl State.stageFor s).pokeHome a (bs.map fun b => (b, false))
    else s, none)
  | .evict c line => (s.modCore c fun k => { k with l1 := Tab.put none k.l1 line none }, none)
  | .dropWord c a => (s.modCore c fun k => { k with istore := Tab.put none k.istore a.toNat none }, none)
  | .routines c rs =>
    (if (s.core c).launch.isSome then s.modCore c fun k => { k with routines := rs, rliNext := 0 } else s, none)
  | .unseal p => (s.unseal p, none)
  | .train p =>
    (if s.broughtUp then s.modFport p fun x => if x.state = .down then { x with state := .training } else x else s,
      none)

/-- What the machine does next, once the heads that are eligible in this cycle have started their waiting counts
(R206). -/
def State.next (s : State) : State × Option Instr :=
  let s := s.markHeads
  match s.agenda with
  | t :: rest => ({ s with agenda := rest } : State).turn t
  | [] => if s.broughtUp then s.issue else (s, some .bringUp)

/-- A launch with one gang of one core, as withFetchWord sets it up. -/
def fetchLaunch (c : CoreId) : Launch :=
  { Launch.blank with
    state := .running
    rcd := { LaunchRec.blank with codeLen := 12, gangs := 1, gangSize := 1 }
    gangs := [{ Gang.blank with
      placed := true, members := [c], clusters := if c.isRamp then [] else [0],
      ramps := if c.isRamp then [(0, 0)] else [] }] }

/-- s with the unit of the table's numbering as the next one that the issuing core fetches (log entry 10): the
package brought up, a launch of one core, its task running at address 0 of a code image of three words. -/
def State.placeUnit (s : State) (ws : List Word) : State :=
  let ramp := match decode false ws with
    | .ok _ => false
    | .error _ => match decode true ws with
      | .ok _ => true
      | .error _ => false
  let c : CoreId := if ramp then .ramp 0 0 else .ord 0 0 0
  let l := s.nextLaunch
  let st := ws.foldl (fun (p : Nat × Tab (Option Word)) w => (p.1 + 4, Tab.put none p.2 p.1 (some w)))
    (0, [])
  let k := { s.core c with
    launch := some l, gang := 0, rank := 0, running := true, park := none, left := false,
    partEnded := false, pendingTrap := none, lateTrap := none, phase := .idle, pc := 0,
    istore := st.2 }
  ({ s with broughtUp := true, agenda := [], cur := c, nextLaunch := l + 1,
            launches := Tab.put none s.launches l (some (fetchLaunch c)) } : State).setCore c k

end Sys2Proof.Machine

end
end

