-- ==== Sys2Proof/Machine/Perform.lean ====
section
/-! DEFINITION. How an instruction that a step has chosen is performed: a reserved sequencing word is ranked against the
causes that its unit's instruction raises (R24, R37). -/

noncomputable section

namespace Sys2Proof.Machine

/-- A sequencing part that goes on with the next unit whatever the registers hold: p7 is true (R5). -/
def Seq.never : Seq := .brF 7 0

/-- The unit at the issuing core's pc with that sequencing part, where its own sequencing word alone is reserved (R24,
R51). -/
def State.plainUnit (s : State) : Option Instr :=
  let c := s.cur
  let a := s.me.pc.toNat
  let w := s.codeWord c a
  let two := majorTwo (w.extractLsb' 24 6)
  let x := if two then s.codeWord c (a + 4) else 0
  let sw := s.codeWord c (a + (if two then 8 else 4))
  match decodeUnit c.isRamp w x sw with
  | .error .seq => (decodeUnit c.isRamp w x (Seq.never.word.getD 0)).toOption
  | _ => none

/-- What the unit's instruction does where it raises a cause that ranks above RESERVED_CODE (R37). -/
def State.outranked (s : State) : Option State :=
  match s.plainUnit with
  | none => none
  | some i => match exec i s with
    | .next t => match t.me.park with
      | some p => if s.me.park.isNone && p.cause.place < Cause.reservedCode.place then some t else none
      | none => none
    | _ => none

/-- Perform an instruction: a reserved sequencing word arises at the same moment as the causes of its unit's instruction,
and the highest-ranked cause is reported (R24, R37). -/
def State.execute (s : State) (i : Instr) : Out :=
  match i with
  | .reservedWord _ _ _ => match s.outranked with
    | some t => .next t
    | none => exec i s
  | _ => exec i s

end Sys2Proof.Machine

end
end

