-- ==== Sys2Proof/Machine/Step.lean ====
section
/-! DEFINITION. One step of the package, and the placing of an instruction where the next step fetches
it. -/

noncomputable section

namespace Sys2Proof.Machine

/-- One step: a core cycle passes, then the environment's next turn is taken, or with none listed the
issuing core goes on. -/
def step (s : State) : Host.Outcome State Fault Refusal :=
  match State.next { s with clock := s.clock + 1 } with
  | (s', some i) => s'.execute i
  | (s', none) => .next s'

/-- s with the instruction of the opcode table's numbering placed where step fetches its next instruction. -/
def State.withFetchWord (s : State) (_nbits w : Nat) : State := s.placeUnit (tableWords w)

end Sys2Proof.Machine

end
end

