-- ==== Sys2Proof/Laws/PerInstr.lean ====
section
/-! SUPPORT. Decoding what the encoder writes, constructor by constructor: the family RoundTrip of LAWS.json, whose
lemmas read every field of every encoding back. -/

set_option linter.unusedSimpArgs false

namespace Sys2Proof.Laws

/-! ### Slices of a word built field by field -/

theorem ex_hi {w v : Nat} (a : BitVec w) (b : BitVec v) (s n : Nat) (h : v ≤ s) :
    (a ++ b).extractLsb' s n = a.extractLsb' (s - v) n := BitVec.extractLsb'_append_eq_of_le h

theorem ex_lo {w v : Nat} (a : BitVec w) (b : BitVec v) (s n : Nat) (h : s + n ≤ v) :
    (a ++ b).extractLsb' s n = b.extractLsb' s n := BitVec.extractLsb'_append_eq_of_add_le h

theorem ex_all {w : Nat} (a : BitVec w) : a.extractLsb' 0 w = a := BitVec.extractLsb'_eq_self

theorem gl_hi {w v : Nat} (a : BitVec w) (b : BitVec v) (i : Nat) (h : v ≤ i) :
    (a ++ b).getLsbD i = a.getLsbD (i - v) := by
  rw [BitVec.getLsbD_append, if_neg (by omega)]

theorem gl_lo {w v : Nat} (a : BitVec w) (b : BitVec v) (i : Nat) (h : i < v) :
    (a ++ b).getLsbD i = b.getLsbD i := by
  rw [BitVec.getLsbD_append, if_pos h]

theorem bit_get (b : Bool) : (bit b).getLsbD 0 = b := by cases b <;> rfl

/-- A slice is not c if a part of it is not the same part of c. -/
theorem slice_ne {x : BitVec 32} {s n t m : Nat} {k : BitVec m} {c : BitVec n} (h : x.extractLsb' (s + t) m = k)
    (ht : t + m ≤ n) (hk : k ≠ c.extractLsb' t m) : ¬ x.extractLsb' s n = c := by
  intro e; apply hk; rw [← h, ← e]
  ext i hi
  simp [show t + i < n by omega, Nat.add_assoc]

theorem ETy.ofCode_code (t : ETy) : ETy.ofCode t.code = t := by cases t <;> rfl

theorem Rm.ofCode_code (r : Rm) : Rm.ofCode r.code = some r := by cases r <;> rfl

/-- The four fields of a sequencing word read back (R26). -/
theorem seqWord_fields (k p wy : BitVec 3) (off : BitVec 23) (w : Word) (h : w = k ++ p ++ wy ++ off) :
    w.extractLsb' 29 3 = k ∧ w.extractLsb' 26 3 = p ∧ w.extractLsb' 23 3 = wy ∧ w.extractLsb' 0 23 = off := by
  subst h
  refine ⟨?_, ?_, ?_, ?_⟩ <;> simp (disch := decide) only [ex_hi, ex_lo, ex_all, Nat.reduceSub]

/-- The sequencing word read back (R26). -/
theorem Seq.ofWord_word (q : Seq) (w : Word) (h : q.word = some w) : Seq.ofWord w = some q := by
  cases q <;> simp only [Seq.word, Option.some.injEq, reduceCtorEq] at h
  all_goals
    obtain ⟨h1, h2, h3, h4⟩ := seqWord_fields _ _ _ _ w h.symm
    unfold Seq.ofWord
    rw [h1, h2, h3, h4]
    rfl

theorem Seq.word_none (q : Seq) (h : q.word = none) : ∀ w, Seq.ofCode q.code w = some q := by
  cases q <;> simp [Seq.word] at h <;> intro w <;> rfl

theorem Seq.word_some (q : Seq) (w : Word) (h : q.word = some w) : q.code = 3 ∧ Seq.ofCode q.code w = some q := by
  have e := Seq.ofWord_word q w h
  cases q <;> simp [Seq.word] at h <;> exact ⟨rfl, e⟩

theorem Seq.code_three (q : Seq) (h : q.word = none) : q.code ≠ 3 := by
  cases q <;> simp [Seq.word] at h <;> decide

/-! ### A whole unit -/

/-- What the round trip says of one instruction: on every kind of core that has it, a well-formed instruction's words
decode to it, all of them, whatever follows. An event has no words. -/
def RoundTrip.Statement (i : Instr) : Prop :=
  i.seq.isSome = true → i.wf = true → ∀ (ramp : Bool) (rest : List Word), i.availableOn ramp = true →
    decode ramp (encode i ++ rest) = .ok (i, (encode i).length)

theorem decodeUnit_ok {ramp : Bool} {i : Instr} {q : Seq} {w x sw : Word}
    (hm : majorReserved ramp (w.extractLsb' 24 6) = false) (hq : Seq.ofCode (w.extractLsb' 30 2) sw = some q)
    (hd : decodeFields q w x = .ok i) (hw : i.wf = true) (ha : i.availableOn ramp = true) :
    decodeUnit ramp w x sw = .ok i := by
  simp only [Instr.wf, Bool.and_eq_true] at hw
  simp [decodeUnit, hm, hq, hd, hw.1, hw.2, ha]

theorem roundTrip_one {i : Instr} {q : Seq} {w : Word} {m : BitVec 6} (hW : encode0 i = w) (hs : i.seq = some q)
    (hx : encodeExt i = none) (hm : w.extractLsb' 24 6 = m)
    (h1 : (majorOne m && !majorTwo m && !rampMajor m) = true) (hq : w.extractLsb' 30 2 = q.code)
    (hd : decodeOne q w = some i) : RoundTrip.Statement i := by
  intro _ hwf ramp rest ha
  simp only [Bool.and_eq_true, Bool.not_eq_true'] at h1
  have hr : majorReserved ramp (w.extractLsb' 24 6) = false := by simp [majorReserved, hm, h1]
  have hf : ∀ x, decodeFields q w x = .ok i := by intro x; simp [decodeFields, hm, h1, hd]
  have ht : majorTwo (w.extractLsb' 24 6) = false := by rw [hm]; exact h1.1.2
  cases hw : q.word with
  | none =>
    have h3 : ¬ w.extractLsb' 30 2 = 3#2 := by rw [hq]; exact Seq.code_three q hw
    have hu := fun x sw => decodeUnit_ok (x := x) (sw := sw) hr (by rw [hq]; exact Seq.word_none q hw _) (hf x) hwf ha
    simp [encode, hs, hx, hw, hW, decode, unitWords, hr, ht, h3, hu, Except.map]
  | some sw =>
    have h3 := Seq.word_some q sw hw
    have h4 : w.extractLsb' 30 2 = 3#2 := by rw [hq]; exact h3.1
    have hu := fun x => decodeUnit_ok (x := x) (sw := sw) hr (by rw [hq]; exact h3.2) (hf x) hwf ha
    simp [encode, hs, hx, hw, hW, decode, unitWords, hr, ht, h4, hu, Except.map]

theorem roundTrip_two {i : Instr} {q : Seq} {w x : Word} {m : BitVec 6} (hW : encode0 i = w)
    (hX : (encodeExt i).getD 0 = x) (hs : i.seq = some q) (hx : (encodeExt i).isSome = true)
    (hm : w.extractLsb' 24 6 = m) (h1 : majorTwo m = true)
    (hra : rampMajor m = true → ∀ r, i.availableOn r = r) (hq : w.extractLsb' 30 2 = q.code)
    (hd : decodeTwo q w x = .ok i) : RoundTrip.Statement i := by
  intro _ hwf ramp rest ha
  obtain ⟨y, hy⟩ := Option.isSome_iff_exists.mp hx
  have hyx : y = x := by rw [← hX, hy]; rfl
  subst hyx
  have hr : majorReserved ramp (w.extractLsb' 24 6) = false := by
    simp only [majorReserved, hm, h1, Bool.or_true, Bool.not_true, Bool.false_or, Bool.and_eq_false_iff,
      Bool.not_eq_false']
    cases h : rampMajor m with
    | false => exact .inl rfl
    | true => exact .inr (by rw [← hra h ramp]; exact ha)
  have hf : decodeFields q w y = .ok i := by simp [decodeFields, hm, h1, hd]
  have ht : majorTwo (w.extractLsb' 24 6) = true := by rw [hm]; exact h1
  cases hw : q.word with
  | none =>
    have h3 : ¬ w.extractLsb' 30 2 = 3#2 := by rw [hq]; exact Seq.code_three q hw
    have hu := fun sw => decodeUnit_ok (sw := sw) hr (by rw [hq]; exact Seq.word_none q hw _) hf hwf ha
    simp [encode, hs, hy, hw, hW, decode, unitWords, hr, ht, h3, hu, Except.map]
  | some sw =>
    have h3 := Seq.word_some q sw hw
    have h4 : w.extractLsb' 30 2 = 3#2 := by rw [hq]; exact h3.1
    have hu := decodeUnit_ok (sw := sw) hr (by rw [hq]; exact h3.2) hf hwf ha
    simp [encode, hs, hy, hw, hW, decode, unitWords, hr, ht, h4, hu, Except.map]


theorem decodeOne_01 (q : Seq) (w : Word) (h : w.extractLsb' 24 6 = 0x1#6) : decodeOne q w = decodeInt q w := by
  unfold decodeOne; rw [h]; rfl

theorem decodeOne_02 (q : Seq) (w : Word) (h : w.extractLsb' 24 6 = 0x2#6) : decodeOne q w = decodeAddi q w := by
  unfold decodeOne; rw [h]; rfl

theorem decodeOne_03 (q : Seq) (w : Word) (h : w.extractLsb' 24 6 = 0x3#6) : decodeOne q w = decodeAndi q w := by
  unfold decodeOne; rw [h]; rfl

theorem decodeOne_04 (q : Seq) (w : Word) (h : w.extractLsb' 24 6 = 0x4#6) : decodeOne q w = decodeOri q w := by
  unfold decodeOne; rw [h]; rfl

theorem decodeOne_05 (q : Seq) (w : Word) (h : w.extractLsb' 24 6 = 0x5#6) : decodeOne q w = decodeXori q w := by
  unfold decodeOne; rw [h]; rfl

theorem decodeOne_06 (q : Seq) (w : Word) (h : w.extractLsb' 24 6 = 0x6#6) : decodeOne q w = decodeShi q w := by
  unfold decodeOne; rw [h]; rfl

theorem decodeOne_07 (q : Seq) (w : Word) (h : w.extractLsb' 24 6 = 0x7#6) : decodeOne q w = decodeCmpi q w := by
  unfold decodeOne; rw [h]; rfl

theorem decodeOne_08 (q : Seq) (w : Word) (h : w.extractLsb' 24 6 = 0x8#6) : decodeOne q w = decodeLi q w := by
  unfold decodeOne; rw [h]; rfl

theorem decodeOne_09 (q : Seq) (w : Word) (h : w.extractLsb' 24 6 = 0x9#6) : decodeOne q w = decodeLih q w := by
  unfold decodeOne; rw [h]; rfl

theorem decodeOne_0a (q : Seq) (w : Word) (h : w.extractLsb' 24 6 = 0xa#6) : decodeOne q w = decodeAddai q w := by
  unfold decodeOne; rw [h]; rfl

theorem decodeOne_0b (q : Seq) (w : Word) (h : w.extractLsb' 24 6 = 0xb#6) : decodeOne q w = decodeFp q w := by
  unfold decodeOne; rw [h]; rfl

theorem decodeOne_0c (q : Seq) (w : Word) (h : w.extractLsb' 24 6 = 0xc#6) : decodeOne q w = decodePred q w := by
  unfold decodeOne; rw [h]; rfl

theorem decodeOne_10 (q : Seq) (w : Word) (h : w.extractLsb' 24 6 = 0x10#6) : decodeOne q w = decodeLd q w := by
  unfold decodeOne; rw [h]; rfl

theorem decodeOne_11 (q : Seq) (w : Word) (h : w.extractLsb' 24 6 = 0x11#6) : decodeOne q w = decodeSt q w := by
  unfold decodeOne; rw [h]; rfl

theorem decodeOne_12 (q : Seq) (w : Word) (h : w.extractLsb' 24 6 = 0x12#6) : decodeOne q w = decodeLdv q w := by
  unfold decodeOne; rw [h]; rfl

theorem decodeOne_13 (q : Seq) (w : Word) (h : w.extractLsb' 24 6 = 0x13#6) : decodeOne q w = decodeStv q w := by
  unfold decodeOne; rw [h]; rfl

theorem decodeOne_14 (q : Seq) (w : Word) (h : w.extractLsb' 24 6 = 0x14#6) : decodeOne q w = decodeLdy q w := by
  unfold decodeOne; rw [h]; rfl

theorem decodeOne_15 (q : Seq) (w : Word) (h : w.extractLsb' 24 6 = 0x15#6) : decodeOne q w = decodeSty q w := by
  unfold decodeOne; rw [h]; rfl

theorem decodeOne_16 (q : Seq) (w : Word) (h : w.extractLsb' 24 6 = 0x16#6) : decodeOne q w = decodeVy q w := by
  unfold decodeOne; rw [h]; rfl

theorem decodeOne_20 (q : Seq) (w : Word) (h : w.extractLsb' 24 6 = 0x20#6) : decodeOne q w = decodeVint q w := by
  unfold decodeOne; rw [h]; rfl

theorem decodeOne_21 (q : Seq) (w : Word) (h : w.extractLsb' 24 6 = 0x21#6) : decodeOne q w = decodeVfp q w := by
  unfold decodeOne; rw [h]; rfl

theorem decodeOne_22 (q : Seq) (w : Word) (h : w.extractLsb' 24 6 = 0x22#6) : decodeOne q w = decodeVsc q w := by
  unfold decodeOne; rw [h]; rfl

theorem decodeOne_23 (q : Seq) (w : Word) (h : w.extractLsb' 24 6 = 0x23#6) : decodeOne q w = decodeVconv q w := by
  unfold decodeOne; rw [h]; rfl

theorem decodeOne_24 (q : Seq) (w : Word) (h : w.extractLsb' 24 6 = 0x24#6) : decodeOne q w = decodeVperm q w := by
  unfold decodeOne; rw [h]; rfl

theorem decodeOne_25 (q : Seq) (w : Word) (h : w.extractLsb' 24 6 = 0x25#6) : decodeOne q w = decodeVred q w := by
  unfold decodeOne; rw [h]; rfl

theorem decodeOne_26 (q : Seq) (w : Word) (h : w.extractLsb' 24 6 = 0x26#6) : decodeOne q w = decodeVsfu q w := by
  unfold decodeOne; rw [h]; rfl

theorem decodeOne_27 (q : Seq) (w : Word) (h : w.extractLsb' 24 6 = 0x27#6) : decodeOne q w = decodeVmask q w := by
  unfold decodeOne; rw [h]; rfl

theorem decodeTwo_0d (q : Seq) (w x : Word) (h : w.extractLsb' 24 6 = 0xd#6) :
    decodeTwo q w x = decodeFlow q w x := by
  unfold decodeTwo; rw [h]; rfl

theorem decodeTwo_0e (q : Seq) (w x : Word) (h : w.extractLsb' 24 6 = 0xe#6) :
    decodeTwo q w x = decodeSys q w x := by
  unfold decodeTwo; rw [h]; rfl

theorem decodeTwo_17 (q : Seq) (w x : Word) (h : w.extractLsb' 24 6 = 0x17#6) :
    decodeTwo q w x = decodeAsync q w x := by
  unfold decodeTwo; rw [h]; rfl

theorem decodeTwo_18 (q : Seq) (w x : Word) (h : w.extractLsb' 24 6 = 0x18#6) :
    decodeTwo q w x = decodeHandle q w x := by
  unfold decodeTwo; rw [h]; rfl

theorem decodeTwo_19 (q : Seq) (w x : Word) (h : w.extractLsb' 24 6 = 0x19#6) :
    decodeTwo q w x = decodeStream q w x := by
  unfold decodeTwo; rw [h]; rfl

theorem decodeTwo_1a (q : Seq) (w x : Word) (h : w.extractLsb' 24 6 = 0x1a#6) :
    decodeTwo q w x = decodeGmem q w x := by
  unfold decodeTwo; rw [h]; rfl

theorem decodeTwo_1b (q : Seq) (w x : Word) (h : w.extractLsb' 24 6 = 0x1b#6) :
    decodeTwo q w x = decodeTmap q w x := by
  unfold decodeTwo; rw [h]; rfl

theorem decodeTwo_28 (q : Seq) (w x : Word) (h : w.extractLsb' 24 6 = 0x28#6) :
    decodeTwo q w x = decodeVchain q w x := by
  unfold decodeTwo; rw [h]; rfl

theorem decodeTwo_29 (q : Seq) (w x : Word) (h : w.extractLsb' 24 6 = 0x29#6) :
    decodeTwo q w x = decodeVacc q w x := by
  unfold decodeTwo; rw [h]; rfl

theorem decodeTwo_30 (q : Seq) (w x : Word) (h : w.extractLsb' 24 6 = 0x30#6) :
    decodeTwo q w x = decodeRing q w x := by
  unfold decodeTwo; rw [h]; rfl

theorem decodeTwo_31 (q : Seq) (w x : Word) (h : w.extractLsb' 24 6 = 0x31#6) :
    decodeTwo q w x = decodeJunc q w x := by
  unfold decodeTwo; rw [h]; rfl

theorem decodeTwo_32 (q : Seq) (w x : Word) (h : w.extractLsb' 24 6 = 0x32#6) :
    decodeTwo q w x = decodeConvoy q w x := by
  unfold decodeTwo; rw [h]; rfl

theorem decodeTwo_38 (q : Seq) (w x : Word) (h : w.extractLsb' 24 6 = 0x38#6) :
    decodeTwo q w x = decodeOpt q w x := by
  unfold decodeTwo; rw [h]; rfl

theorem decodeTwo_39 (q : Seq) (w x : Word) (h : w.extractLsb' 24 6 = 0x39#6) :
    decodeTwo q w x = decodePhase q w x := by
  unfold decodeTwo; rw [h]; rfl

theorem decodeTwo_3c (q : Seq) (w x : Word) (h : w.extractLsb' 24 6 = 0x3c#6) :
    decodeTwo q w x = decodePkg q w x := by
  unfold decodeTwo; rw [h]; rfl

theorem decodeTwo_3d (q : Seq) (w x : Word) (h : w.extractLsb' 24 6 = 0x3d#6) :
    decodeTwo q w x = decodeFab q w x := by
  unfold decodeTwo; rw [h]; rfl

theorem decodeTwo_3e (q : Seq) (w x : Word) (h : w.extractLsb' 24 6 = 0x3e#6) :
    decodeTwo q w x = decodeDet q w x := by
  unfold decodeTwo; rw [h]; rfl

/-! ### Every constructor -/

theorem RoundTrip.taskStart (c : CoreId) : RoundTrip.Statement (.taskStart c) := fun h => nomatch h

theorem RoundTrip.codeFetchFill (c : CoreId) (addr : Word) : RoundTrip.Statement (.codeFetchFill c addr) := fun h => nomatch h

theorem RoundTrip.producerFill (c : CoreId) : RoundTrip.Statement (.producerFill c) := fun h => nomatch h

theorem RoundTrip.supervisorKill (c : CoreId) : RoundTrip.Statement (.supervisorKill c) := fun h => nomatch h

theorem RoundTrip.supervisorRetry (c : CoreId) : RoundTrip.Statement (.supervisorRetry c) := fun h => nomatch h

theorem RoundTrip.supervisorResume (c : CoreId) : RoundTrip.Statement (.supervisorResume c) := fun h => nomatch h

theorem RoundTrip.supervisorLeave (c : CoreId) : RoundTrip.Statement (.supervisorLeave c) := fun h => nomatch h

theorem RoundTrip.watchdog (c : CoreId) : RoundTrip.Statement (.watchdog c) := fun h => nomatch h

theorem RoundTrip.corePartEnd (c : CoreId) : RoundTrip.Statement (.corePartEnd c) := fun h => nomatch h

theorem RoundTrip.add (o : R3W) : RoundTrip.Statement (.add o) := by
  obtain ⟨q, d, a, b, ta, tb, w⟩ := o
  generalize hW' : encode0 (.add ⟨q, d, a, b, ta, tb, w⟩) = W
  have hW : W = q.code ++ 0x1#6 ++ d ++ a ++ b ++ 0x0#6 ++ bit ta ++ bit tb ++ bit w := hW'.symm
  have wf3_6 : W.extractLsb' 3 6 = 0x0#6 := by rw [hW]; simp (disch := decide) only [ex_hi, ex_lo, ex_all, Nat.reduceSub]
  have wf19_5 : W.extractLsb' 19 5 = d := by rw [hW]; simp (disch := decide) only [ex_hi, ex_lo, ex_all, Nat.reduceSub]
  have wf14_5 : W.extractLsb' 14 5 = a := by rw [hW]; simp (disch := decide) only [ex_hi, ex_lo, ex_all, Nat.reduceSub]
  have wf9_5 : W.extractLsb' 9 5 = b := by rw [hW]; simp (disch := decide) only [ex_hi, ex_lo, ex_all, Nat.reduceSub]
  have wb2 : W.getLsbD 2 = ta := by rw [hW]; simp (disch := decide) only [gl_hi, gl_lo, bit_get, Nat.reduceSub]
  have wb1 : W.getLsbD 1 = tb := by rw [hW]; simp (disch := decide) only [gl_hi, gl_lo, bit_get, Nat.reduceSub]
  have wb0 : W.getLsbD 0 = w := by rw [hW]; simp (disch := decide) only [gl_hi, gl_lo, bit_get, Nat.reduceSub]
  have wf24_6 : W.extractLsb' 24 6 = 0x1#6 := by rw [hW]; simp (disch := decide) only [ex_hi, ex_lo, ex_all, Nat.reduceSub]
  have wf30_2 : W.extractLsb' 30 2 = q.code := by rw [hW]; simp (disch := decide) only [ex_hi, ex_lo, ex_all, Nat.reduceSub]
  exact roundTrip_one hW' rfl rfl wf24_6 rfl wf30_2 (by
    rw [decodeOne_01 _ _ wf24_6]
    simp only [decodeInt, ↓reduceIte, BitVec.reduceEq, and_false, false_and, and_self, not_true_eq_false, and_true, true_and, wf3_6, wf19_5, wf14_5, wf9_5, wb2, wb1, wb0])

theorem RoundTrip.sub (o : R3W) : RoundTrip.Statement (.sub o) := by
  obtain ⟨q, d, a, b, ta, tb, w⟩ := o
  generalize hW' : encode0 (.sub ⟨q, d, a, b, ta, tb, w⟩) = W
  have hW : W = q.code ++ 0x1#6 ++ d ++ a ++ b ++ 0x1#6 ++ bit ta ++ bit tb ++ bit w := hW'.symm
  have wf3_6 : W.extractLsb' 3 6 = 0x1#6 := by rw [hW]; simp (disch := decide) only [ex_hi, ex_lo, ex_all, Nat.reduceSub]
  have wf19_5 : W.extractLsb' 19 5 = d := by rw [hW]; simp (disch := decide) only [ex_hi, ex_lo, ex_all, Nat.reduceSub]
  have wf14_5 : W.extractLsb' 14 5 = a := by rw [hW]; simp (disch := decide) only [ex_hi, ex_lo, ex_all, Nat.reduceSub]
  have wf9_5 : W.extractLsb' 9 5 = b := by rw [hW]; simp (disch := decide) only [ex_hi, ex_lo, ex_all, Nat.reduceSub]
  have wb2 : W.getLsbD 2 = ta := by rw [hW]; simp (disch := decide) only [gl_hi, gl_lo, bit_get, Nat.reduceSub]
  have wb1 : W.getLsbD 1 = tb := by rw [hW]; simp (disch := decide) only [gl_hi, gl_lo, bit_get, Nat.reduceSub]
  have wb0 : W.getLsbD 0 = w := by rw [hW]; simp (disch := decide) only [gl_hi, gl_lo, bit_get, Nat.reduceSub]
  have wf24_6 : W.extractLsb' 24 6 = 0x1#6 := by rw [hW]; simp (disch := decide) only [ex_hi, ex_lo, ex_all, Nat.reduceSub]
  have wf30_2 : W.extractLsb' 30 2 = q.code := by rw [hW]; simp (disch := decide) only [ex_hi, ex_lo, ex_all, Nat.reduceSub]
  exact roundTrip_one hW' rfl rfl wf24_6 rfl wf30_2 (by
    rw [decodeOne_01 _ _ wf24_6]
    simp only [decodeInt, ↓reduceIte, BitVec.reduceEq, and_false, false_and, and_self, not_true_eq_false, and_true, true_and, wf3_6, wf19_5, wf14_5, wf9_5, wb2, wb1, wb0])

theorem RoundTrip.mul (o : R3W) : RoundTrip.Statement (.mul o) := by
  obtain ⟨q, d, a, b, ta, tb, w⟩ := o
  generalize hW' : encode0 (.mul ⟨q, d, a, b, ta, tb, w⟩) = W
  have hW : W = q.code ++ 0x1#6 ++ d ++ a ++ b ++ 0x2#6 ++ bit ta ++ bit tb ++ bit w := hW'.symm
  have wf3_6 : W.extractLsb' 3 6 = 0x2#6 := by rw [hW]; simp (disch := decide) only [ex_hi, ex_lo, ex_all, Nat.reduceSub]
  have wf19_5 : W.extractLsb' 19 5 = d := by rw [hW]; simp (disch := decide) only [ex_hi, ex_lo, ex_all, Nat.reduceSub]
  have wf14_5 : W.extractLsb' 14 5 = a := by rw [hW]; simp (disch := decide) only [ex_hi, ex_lo, ex_all, Nat.reduceSub]
  have wf9_5 : W.extractLsb' 9 5 = b := by rw [hW]; simp (disch := decide) only [ex_hi, ex_lo, ex_all, Nat.reduceSub]
  have wb2 : W.getLsbD 2 = ta := by rw [hW]; simp (disch := decide) only [gl_hi, gl_lo, bit_get, Nat.reduceSub]
  have wb1 : W.getLsbD 1 = tb := by rw [hW]; simp (disch := decide) only [gl_hi, gl_lo, bit_get, Nat.reduceSub]
  have wb0 : W.getLsbD 0 = w := by rw [hW]; simp (disch := decide) only [gl_hi, gl_lo, bit_get, Nat.reduceSub]
  have wf24_6 : W.extractLsb' 24 6 = 0x1#6 := by rw [hW]; simp (disch := decide) only [ex_hi, ex_lo, ex_all, Nat.reduceSub]
  have wf30_2 : W.extractLsb' 30 2 = q.code := by rw [hW]; simp (disch := decide) only [ex_hi, ex_lo, ex_all, Nat.reduceSub]
  exact roundTrip_one hW' rfl rfl wf24_6 rfl wf30_2 (by
    rw [decodeOne_01 _ _ wf24_6]
    simp only [decodeInt, ↓reduceIte, BitVec.reduceEq, and_false, false_and, and_self, not_true_eq_false, and_true, true_and, wf3_6, wf19_5, wf14_5, wf9_5, wb2, wb1, wb0])

theorem RoundTrip.mulh (o : R3) : RoundTrip.Statement (.mulh o) := by
  obtain ⟨q, d, a, b, ta, tb⟩ := o
  generalize hW' : encode0 (.mulh ⟨q, d, a, b, ta, tb⟩) = W
  have hW : W = q.code ++ 0x1#6 ++ d ++ a ++ b ++ 0x3#6 ++ bit ta ++ bit tb ++ 0x0#1 := hW'.symm
  have wf3_6 : W.extractLsb' 3 6 = 0x3#6 := by rw [hW]; simp (disch := decide) only [ex_hi, ex_lo, ex_all, Nat.reduceSub]
  have wf0_1 : W.extractLsb' 0 1 = 0x0#1 := by rw [hW]; simp (disch := decide) only [ex_hi, ex_lo, ex_all, Nat.reduceSub]
  have wf19_5 : W.extractLsb' 19 5 = d := by rw [hW]; simp (disch := decide) only [ex_hi, ex_lo, ex_all, Nat.reduceSub]
  have wf14_5 : W.extractLsb' 14 5 = a := by rw [hW]; simp (disch := decide) only [ex_hi, ex_lo, ex_all, Nat.reduceSub]
  have wf9_5 : W.extractLsb' 9 5 = b := by rw [hW]; simp (disch := decide) only [ex_hi, ex_lo, ex_all, Nat.reduceSub]
  have wb2 : W.getLsbD 2 = ta := by rw [hW]; simp (disch := decide) only [gl_hi, gl_lo, bit_get, Nat.reduceSub]
  have wb1 : W.getLsbD 1 = tb := by rw [hW]; simp (disch := decide) only [gl_hi, gl_lo, bit_get, Nat.reduceSub]
  have wf24_6 : W.extractLsb' 24 6 = 0x1#6 := by rw [hW]; simp (disch := decide) only [ex_hi, ex_lo, ex_all, Nat.reduceSub]
  have wf30_2 : W.extractLsb' 30 2 = q.code := by rw [hW]; simp (disch := decide) only [ex_hi, ex_lo, ex_all, Nat.reduceSub]
  exact roundTrip_one hW' rfl rfl wf24_6 rfl wf30_2 (by
    rw [decodeOne_01 _ _ wf24_6]
    simp only [decodeInt, ↓reduceIte, BitVec.reduceEq, and_false, false_and, and_self, not_true_eq_false, and_true, true_and, wf3_6, wf0_1, wf19_5, wf14_5, wf9_5, wb2, wb1])

theorem RoundTrip.mulhu (o : R3) : RoundTrip.Statement (.mulhu o) := by
  obtain ⟨q, d, a, b, ta, tb⟩ := o
  generalize hW' : encode0 (.mulhu ⟨q, d, a, b, ta, tb⟩) = W
  have hW : W = q.code ++ 0x1#6 ++ d ++ a ++ b ++ 0x4#6 ++ bit ta ++ bit tb ++ 0x0#1 := hW'.symm
  have wf3_6 : W.extractLsb' 3 6 = 0x4#6 := by rw [hW]; simp (disch := decide) only [ex_hi, ex_lo, ex_all, Nat.reduceSub]
  have wf0_1 : W.extractLsb' 0 1 = 0x0#1 := by rw [hW]; simp (disch := decide) only [ex_hi, ex_lo, ex_all, Nat.reduceSub]
  have wf19_5 : W.extractLsb' 19 5 = d := by rw [hW]; simp (disch := decide) only [ex_hi, ex_lo, ex_all, Nat.reduceSub]
  have wf14_5 : W.extractLsb' 14 5 = a := by rw [hW]; simp (disch := decide) only [ex_hi, ex_lo, ex_all, Nat.reduceSub]
  have wf9_5 : W.extractLsb' 9 5 = b := by rw [hW]; simp (disch := decide) only [ex_hi, ex_lo, ex_all, Nat.reduceSub]
  have wb2 : W.getLsbD 2 = ta := by rw [hW]; simp (disch := decide) only [gl_hi, gl_lo, bit_get, Nat.reduceSub]
  have wb1 : W.getLsbD 1 = tb := by rw [hW]; simp (disch := decide) only [gl_hi, gl_lo, bit_get, Nat.reduceSub]
  have wf24_6 : W.extractLsb' 24 6 = 0x1#6 := by rw [hW]; simp (disch := decide) only [ex_hi, ex_lo, ex_all, Nat.reduceSub]
  have wf30_2 : W.extractLsb' 30 2 = q.code := by rw [hW]; simp (disch := decide) only [ex_hi, ex_lo, ex_all, Nat.reduceSub]
  exact roundTrip_one hW' rfl rfl wf24_6 rfl wf30_2 (by
    rw [decodeOne_01 _ _ wf24_6]
    simp only [decodeInt, ↓reduceIte, BitVec.reduceEq, and_false, false_and, and_self, not_true_eq_false, and_true, true_and, wf3_6, wf0_1, wf19_5, wf14_5, wf9_5, wb2, wb1])

theorem RoundTrip.div (o : R3W) : RoundTrip.Statement (.div o) := by
  obtain ⟨q, d, a, b, ta, tb, w⟩ := o
  generalize hW' : encode0 (.div ⟨q, d, a, b, ta, tb, w⟩) = W
  have hW : W = q.code ++ 0x1#6 ++ d ++ a ++ b ++ 0x5#6 ++ bit ta ++ bit tb ++ bit w := hW'.symm
  have wf3_6 : W.extractLsb' 3 6 = 0x5#6 := by rw [hW]; simp (disch := decide) only [ex_hi, ex_lo, ex_all, Nat.reduceSub]
  have wf19_5 : W.extractLsb' 19 5 = d := by rw [hW]; simp (disch := decide) only [ex_hi, ex_lo, ex_all, Nat.reduceSub]
  have wf14_5 : W.extractLsb' 14 5 = a := by rw [hW]; simp (disch := decide) only [ex_hi, ex_lo, ex_all, Nat.reduceSub]
  have wf9_5 : W.extractLsb' 9 5 = b := by rw [hW]; simp (disch := decide) only [ex_hi, ex_lo, ex_all, Nat.reduceSub]
  have wb2 : W.getLsbD 2 = ta := by rw [hW]; simp (disch := decide) only [gl_hi, gl_lo, bit_get, Nat.reduceSub]
  have wb1 : W.getLsbD 1 = tb := by rw [hW]; simp (disch := decide) only [gl_hi, gl_lo, bit_get, Nat.reduceSub]
  have wb0 : W.getLsbD 0 = w := by rw [hW]; simp (disch := decide) only [gl_hi, gl_lo, bit_get, Nat.reduceSub]
  have wf24_6 : W.extractLsb' 24 6 = 0x1#6 := by rw [hW]; simp (disch := decide) only [ex_hi, ex_lo, ex_all, Nat.reduceSub]
  have wf30_2 : W.extractLsb' 30 2 = q.code := by rw [hW]; simp (disch := decide) only [ex_hi, ex_lo, ex_all, Nat.reduceSub]
  exact roundTrip_one hW' rfl rfl wf24_6 rfl wf30_2 (by
    rw [decodeOne_01 _ _ wf24_6]
    simp only [decodeInt, ↓reduceIte, BitVec.reduceEq, and_false, false_and, and_self, not_true_eq_false, and_true, true_and, wf3_6, wf19_5, wf14_5, wf9_5, wb2, wb1, wb0])

theorem RoundTrip.divu (o : R3W) : RoundTrip.Statement (.divu o) := by
  obtain ⟨q, d, a, b, ta, tb, w⟩ := o
  generalize hW' : encode0 (.divu ⟨q, d, a, b, ta, tb, w⟩) = W
  have hW : W = q.code ++ 0x1#6 ++ d ++ a ++ b ++ 0x6#6 ++ bit ta ++ bit tb ++ bit w := hW'.symm
  have wf3_6 : W.extractLsb' 3 6 = 0x6#6 := by rw [hW]; simp (disch := decide) only [ex_hi, ex_lo, ex_all, Nat.reduceSub]
  have wf19_5 : W.extractLsb' 19 5 = d := by rw [hW]; simp (disch := decide) only [ex_hi, ex_lo, ex_all, Nat.reduceSub]
  have wf14_5 : W.extractLsb' 14 5 = a := by rw [hW]; simp (disch := decide) only [ex_hi, ex_lo, ex_all, Nat.reduceSub]
  have wf9_5 : W.extractLsb' 9 5 = b := by rw [hW]; simp (disch := decide) only [ex_hi, ex_lo, ex_all, Nat.reduceSub]
  have wb2 : W.getLsbD 2 = ta := by rw [hW]; simp (disch := decide) only [gl_hi, gl_lo, bit_get, Nat.reduceSub]
  have wb1 : W.getLsbD 1 = tb := by rw [hW]; simp (disch := decide) only [gl_hi, gl_lo, bit_get, Nat.reduceSub]
  have wb0 : W.getLsbD 0 = w := by rw [hW]; simp (disch := decide) only [gl_hi, gl_lo, bit_get, Nat.reduceSub]
  have wf24_6 : W.extractLsb' 24 6 = 0x1#6 := by rw [hW]; simp (disch := decide) only [ex_hi, ex_lo, ex_all, Nat.reduceSub]
  have wf30_2 : W.extractLsb' 30 2 = q.code := by rw [hW]; simp (disch := decide) only [ex_hi, ex_lo, ex_all, Nat.reduceSub]
  exact roundTrip_one hW' rfl rfl wf24_6 rfl wf30_2 (by
    rw [decodeOne_01 _ _ wf24_6]
    simp only [decodeInt, ↓reduceIte, BitVec.reduceEq, and_false, false_and, and_self, not_true_eq_false, and_true, true_and, wf3_6, wf19_5, wf14_5, wf9_5, wb2, wb1, wb0])

theorem RoundTrip.rem (o : R3W) : RoundTrip.Statement (.rem o) := by
  obtain ⟨q, d, a, b, ta, tb, w⟩ := o
  generalize hW' : encode0 (.rem ⟨q, d, a, b, ta, tb, w⟩) = W
  have hW : W = q.code ++ 0x1#6 ++ d ++ a ++ b ++ 0x7#6 ++ bit ta ++ bit tb ++ bit w := hW'.symm
  have wf3_6 : W.extractLsb' 3 6 = 0x7#6 := by rw [hW]; simp (disch := decide) only [ex_hi, ex_lo, ex_all, Nat.reduceSub]
  have wf19_5 : W.extractLsb' 19 5 = d := by rw [hW]; simp (disch := decide) only [ex_hi, ex_lo, ex_all, Nat.reduceSub]
  have wf14_5 : W.extractLsb' 14 5 = a := by rw [hW]; simp (disch := decide) only [ex_hi, ex_lo, ex_all, Nat.reduceSub]
  have wf9_5 : W.extractLsb' 9 5 = b := by rw [hW]; simp (disch := decide) only [ex_hi, ex_lo, ex_all, Nat.reduceSub]
  have wb2 : W.getLsbD 2 = ta := by rw [hW]; simp (disch := decide) only [gl_hi, gl_lo, bit_get, Nat.reduceSub]
  have wb1 : W.getLsbD 1 = tb := by rw [hW]; simp (disch := decide) only [gl_hi, gl_lo, bit_get, Nat.reduceSub]
  have wb0 : W.getLsbD 0 = w := by rw [hW]; simp (disch := decide) only [gl_hi, gl_lo, bit_get, Nat.reduceSub]
  have wf24_6 : W.extractLsb' 24 6 = 0x1#6 := by rw [hW]; simp (disch := decide) only [ex_hi, ex_lo, ex_all, Nat.reduceSub]
  have wf30_2 : W.extractLsb' 30 2 = q.code := by rw [hW]; simp (disch := decide) only [ex_hi, ex_lo, ex_all, Nat.reduceSub]
  exact roundTrip_one hW' rfl rfl wf24_6 rfl wf30_2 (by
    rw [decodeOne_01 _ _ wf24_6]
    simp only [decodeInt, ↓reduceIte, BitVec.reduceEq, and_false, false_and, and_self, not_true_eq_false, and_true, true_and, wf3_6, wf19_5, wf14_5, wf9_5, wb2, wb1, wb0])

theorem RoundTrip.remu (o : R3W) : RoundTrip.Statement (.remu o) := by
  obtain ⟨q, d, a, b, ta, tb, w⟩ := o
  generalize hW' : encode0 (.remu ⟨q, d, a, b, ta, tb, w⟩) = W
  have hW : W = q.code ++ 0x1#6 ++ d ++ a ++ b ++ 0x8#6 ++ bit ta ++ bit tb ++ bit w := hW'.symm
  have wf3_6 : W.extractLsb' 3 6 = 0x8#6 := by rw [hW]; simp (disch := decide) only [ex_hi, ex_lo, ex_all, Nat.reduceSub]
  have wf19_5 : W.extractLsb' 19 5 = d := by rw [hW]; simp (disch := decide) only [ex_hi, ex_lo, ex_all, Nat.reduceSub]
  have wf14_5 : W.extractLsb' 14 5 = a := by rw [hW]; simp (disch := decide) only [ex_hi, ex_lo, ex_all, Nat.reduceSub]
  have wf9_5 : W.extractLsb' 9 5 = b := by rw [hW]; simp (disch := decide) only [ex_hi, ex_lo, ex_all, Nat.reduceSub]
  have wb2 : W.getLsbD 2 = ta := by rw [hW]; simp (disch := decide) only [gl_hi, gl_lo, bit_get, Nat.reduceSub]
  have wb1 : W.getLsbD 1 = tb := by rw [hW]; simp (disch := decide) only [gl_hi, gl_lo, bit_get, Nat.reduceSub]
  have wb0 : W.getLsbD 0 = w := by rw [hW]; simp (disch := decide) only [gl_hi, gl_lo, bit_get, Nat.reduceSub]
  have wf24_6 : W.extractLsb' 24 6 = 0x1#6 := by rw [hW]; simp (disch := decide) only [ex_hi, ex_lo, ex_all, Nat.reduceSub]
  have wf30_2 : W.extractLsb' 30 2 = q.code := by rw [hW]; simp (disch := decide) only [ex_hi, ex_lo, ex_all, Nat.reduceSub]
  exact roundTrip_one hW' rfl rfl wf24_6 rfl wf30_2 (by
    rw [decodeOne_01 _ _ wf24_6]
    simp only [decodeInt, ↓reduceIte, BitVec.reduceEq, and_false, false_and, and_self, not_true_eq_false, and_true, true_and, wf3_6, wf19_5, wf14_5, wf9_5, wb2, wb1, wb0])

theorem RoundTrip.and (o : R3W) : RoundTrip.Statement (.and o) := by
  obtain ⟨q, d, a, b, ta, tb, w⟩ := o
  generalize hW' : encode0 (.and ⟨q, d, a, b, ta, tb, w⟩) = W
  have hW : W = q.code ++ 0x1#6 ++ d ++ a ++ b ++ 0x9#6 ++ bit ta ++ bit tb ++ bit w := hW'.symm
  have wf3_6 : W.extractLsb' 3 6 = 0x9#6 := by rw [hW]; simp (disch := decide) only [ex_hi, ex_lo, ex_all, Nat.reduceSub]
  have wf19_5 : W.extractLsb' 19 5 = d := by rw [hW]; simp (disch := decide) only [ex_hi, ex_lo, ex_all, Nat.reduceSub]
  have wf14_5 : W.extractLsb' 14 5 = a := by rw [hW]; simp (disch := decide) only [ex_hi, ex_lo, ex_all, Nat.reduceSub]
  have wf9_5 : W.extractLsb' 9 5 = b := by rw [hW]; simp (disch := decide) only [ex_hi, ex_lo, ex_all, Nat.reduceSub]
  have wb2 : W.getLsbD 2 = ta := by rw [hW]; simp (disch := decide) only [gl_hi, gl_lo, bit_get, Nat.reduceSub]
  have wb1 : W.getLsbD 1 = tb := by rw [hW]; simp (disch := decide) only [gl_hi, gl_lo, bit_get, Nat.reduceSub]
  have wb0 : W.getLsbD 0 = w := by rw [hW]; simp (disch := decide) only [gl_hi, gl_lo, bit_get, Nat.reduceSub]
  have wf24_6 : W.extractLsb' 24 6 = 0x1#6 := by rw [hW]; simp (disch := decide) only [ex_hi, ex_lo, ex_all, Nat.reduceSub]
  have wf30_2 : W.extractLsb' 30 2 = q.code := by rw [hW]; simp (disch := decide) only [ex_hi, ex_lo, ex_all, Nat.reduceSub]
  exact roundTrip_one hW' rfl rfl wf24_6 rfl wf30_2 (by
    rw [decodeOne_01 _ _ wf24_6]
    simp only [decodeInt, ↓reduceIte, BitVec.reduceEq, and_false, false_and, and_self, not_true_eq_false, and_true, true_and, wf3_6, wf19_5, wf14_5, wf9_5, wb2, wb1, wb0])

theorem RoundTrip.or (o : R3W) : RoundTrip.Statement (.or o) := by
  obtain ⟨q, d, a, b, ta, tb, w⟩ := o
  generalize hW' : encode0 (.or ⟨q, d, a, b, ta, tb, w⟩) = W
  have hW : W = q.code ++ 0x1#6 ++ d ++ a ++ b ++ 0xa#6 ++ bit ta ++ bit tb ++ bit w := hW'.symm
  have wf3_6 : W.extractLsb' 3 6 = 0xa#6 := by rw [hW]; simp (disch := decide) only [ex_hi, ex_lo, ex_all, Nat.reduceSub]
  have wf19_5 : W.extractLsb' 19 5 = d := by rw [hW]; simp (disch := decide) only [ex_hi, ex_lo, ex_all, Nat.reduceSub]
  have wf14_5 : W.extractLsb' 14 5 = a := by rw [hW]; simp (disch := decide) only [ex_hi, ex_lo, ex_all, Nat.reduceSub]
  have wf9_5 : W.extractLsb' 9 5 = b := by rw [hW]; simp (disch := decide) only [ex_hi, ex_lo, ex_all, Nat.reduceSub]
  have wb2 : W.getLsbD 2 = ta := by rw [hW]; simp (disch := decide) only [gl_hi, gl_lo, bit_get, Nat.reduceSub]
  have wb1 : W.getLsbD 1 = tb := by rw [hW]; simp (disch := decide) only [gl_hi, gl_lo, bit_get, Nat.reduceSub]
  have wb0 : W.getLsbD 0 = w := by rw [hW]; simp (disch := decide) only [gl_hi, gl_lo, bit_get, Nat.reduceSub]
  have wf24_6 : W.extractLsb' 24 6 = 0x1#6 := by rw [hW]; simp (disch := decide) only [ex_hi, ex_lo, ex_all, Nat.reduceSub]
  have wf30_2 : W.extractLsb' 30 2 = q.code := by rw [hW]; simp (disch := decide) only [ex_hi, ex_lo, ex_all, Nat.reduceSub]
  exact roundTrip_one hW' rfl rfl wf24_6 rfl wf30_2 (by
    rw [decodeOne_01 _ _ wf24_6]
    simp only [decodeInt, ↓reduceIte, BitVec.reduceEq, and_false, false_and, and_self, not_true_eq_false, and_true, true_and, wf3_6, wf19_5, wf14_5, wf9_5, wb2, wb1, wb0])

theorem RoundTrip.xor (o : R3W) : RoundTrip.Statement (.xor o) := by
  obtain ⟨q, d, a, b, ta, tb, w⟩ := o
  generalize hW' : encode0 (.xor ⟨q, d, a, b, ta, tb, w⟩) = W
  have hW : W = q.code ++ 0x1#6 ++ d ++ a ++ b ++ 0xb#6 ++ bit ta ++ bit tb ++ bit w := hW'.symm
  have wf3_6 : W.extractLsb' 3 6 = 0xb#6 := by rw [hW]; simp (disch := decide) only [ex_hi, ex_lo, ex_all, Nat.reduceSub]
  have wf19_5 : W.extractLsb' 19 5 = d := by rw [hW]; simp (disch := decide) only [ex_hi, ex_lo, ex_all, Nat.reduceSub]
  have wf14_5 : W.extractLsb' 14 5 = a := by rw [hW]; simp (disch := decide) only [ex_hi, ex_lo, ex_all, Nat.reduceSub]
  have wf9_5 : W.extractLsb' 9 5 = b := by rw [hW]; simp (disch := decide) only [ex_hi, ex_lo, ex_all, Nat.reduceSub]
  have wb2 : W.getLsbD 2 = ta := by rw [hW]; simp (disch := decide) only [gl_hi, gl_lo, bit_get, Nat.reduceSub]
  have wb1 : W.getLsbD 1 = tb := by rw [hW]; simp (disch := decide) only [gl_hi, gl_lo, bit_get, Nat.reduceSub]
  have wb0 : W.getLsbD 0 = w := by rw [hW]; simp (disch := decide) only [gl_hi, gl_lo, bit_get, Nat.reduceSub]
  have wf24_6 : W.extractLsb' 24 6 = 0x1#6 := by rw [hW]; simp (disch := decide) only [ex_hi, ex_lo, ex_all, Nat.reduceSub]
  have wf30_2 : W.extractLsb' 30 2 = q.code := by rw [hW]; simp (disch := decide) only [ex_hi, ex_lo, ex_all, Nat.reduceSub]
  exact roundTrip_one hW' rfl rfl wf24_6 rfl wf30_2 (by
    rw [decodeOne_01 _ _ wf24_6]
    simp only [decodeInt, ↓reduceIte, BitVec.reduceEq, and_false, false_and, and_self, not_true_eq_false, and_true, true_and, wf3_6, wf19_5, wf14_5, wf9_5, wb2, wb1, wb0])

theorem RoundTrip.andn (o : R3W) : RoundTrip.Statement (.andn o) := by
  obtain ⟨q, d, a, b, ta, tb, w⟩ := o
  generalize hW' : encode0 (.andn ⟨q, d, a, b, ta, tb, w⟩) = W
  have hW : W = q.code ++ 0x1#6 ++ d ++ a ++ b ++ 0xc#6 ++ bit ta ++ bit tb ++ bit w := hW'.symm
  have wf3_6 : W.extractLsb' 3 6 = 0xc#6 := by rw [hW]; simp (disch := decide) only [ex_hi, ex_lo, ex_all, Nat.reduceSub]
  have wf19_5 : W.extractLsb' 19 5 = d := by rw [hW]; simp (disch := decide) only [ex_hi, ex_lo, ex_all, Nat.reduceSub]
  have wf14_5 : W.extractLsb' 14 5 = a := by rw [hW]; simp (disch := decide) only [ex_hi, ex_lo, ex_all, Nat.reduceSub]
  have wf9_5 : W.extractLsb' 9 5 = b := by rw [hW]; simp (disch := decide) only [ex_hi, ex_lo, ex_all, Nat.reduceSub]
  have wb2 : W.getLsbD 2 = ta := by rw [hW]; simp (disch := decide) only [gl_hi, gl_lo, bit_get, Nat.reduceSub]
  have wb1 : W.getLsbD 1 = tb := by rw [hW]; simp (disch := decide) only [gl_hi, gl_lo, bit_get, Nat.reduceSub]
  have wb0 : W.getLsbD 0 = w := by rw [hW]; simp (disch := decide) only [gl_hi, gl_lo, bit_get, Nat.reduceSub]
  have wf24_6 : W.extractLsb' 24 6 = 0x1#6 := by rw [hW]; simp (disch := decide) only [ex_hi, ex_lo, ex_all, Nat.reduceSub]
  have wf30_2 : W.extractLsb' 30 2 = q.code := by rw [hW]; simp (disch := decide) only [ex_hi, ex_lo, ex_all, Nat.reduceSub]
  exact roundTrip_one hW' rfl rfl wf24_6 rfl wf30_2 (by
    rw [decodeOne_01 _ _ wf24_6]
    simp only [decodeInt, ↓reduceIte, BitVec.reduceEq, and_false, false_and, and_self, not_true_eq_false, and_true, true_and, wf3_6, wf19_5, wf14_5, wf9_5, wb2, wb1, wb0])

theorem RoundTrip.shl (o : R3W) : RoundTrip.Statement (.shl o) := by
  obtain ⟨q, d, a, b, ta, tb, w⟩ := o
  generalize hW' : encode0 (.shl ⟨q, d, a, b, ta, tb, w⟩) = W
  have hW : W = q.code ++ 0x1#6 ++ d ++ a ++ b ++ 0xd#6 ++ bit ta ++ bit tb ++ bit w := hW'.symm
  have wf3_6 : W.extractLsb' 3 6 = 0xd#6 := by rw [hW]; simp (disch := decide) only [ex_hi, ex_lo, ex_all, Nat.reduceSub]
  have wf19_5 : W.extractLsb' 19 5 = d := by rw [hW]; simp (disch := decide) only [ex_hi, ex_lo, ex_all, Nat.reduceSub]
  have wf14_5 : W.extractLsb' 14 5 = a := by rw [hW]; simp (disch := decide) only [ex_hi, ex_lo, ex_all, Nat.reduceSub]
  have wf9_5 : W.extractLsb' 9 5 = b := by rw [hW]; simp (disch := decide) only [ex_hi, ex_lo, ex_all, Nat.reduceSub]
  have wb2 : W.getLsbD 2 = ta := by rw [hW]; simp (disch := decide) only [gl_hi, gl_lo, bit_get, Nat.reduceSub]
  have wb1 : W.getLsbD 1 = tb := by rw [hW]; simp (disch := decide) only [gl_hi, gl_lo, bit_get, Nat.reduceSub]
  have wb0 : W.getLsbD 0 = w := by rw [hW]; simp (disch := decide) only [gl_hi, gl_lo, bit_get, Nat.reduceSub]
  have wf24_6 : W.extractLsb' 24 6 = 0x1#6 := by rw [hW]; simp (disch := decide) only [ex_hi, ex_lo, ex_all, Nat.reduceSub]
  have wf30_2 : W.extractLsb' 30 2 = q.code := by rw [hW]; simp (disch := decide) only [ex_hi, ex_lo, ex_all, Nat.reduceSub]
  exact roundTrip_one hW' rfl rfl wf24_6 rfl wf30_2 (by
    rw [decodeOne_01 _ _ wf24_6]
    simp only [decodeInt, ↓reduceIte, BitVec.reduceEq, and_false, false_and, and_self, not_true_eq_false, and_true, true_and, wf3_6, wf19_5, wf14_5, wf9_5, wb2, wb1, wb0])

theorem RoundTrip.shr (o : R3W) : RoundTrip.Statement (.shr o) := by
  obtain ⟨q, d, a, b, ta, tb, w⟩ := o
  generalize hW' : encode0 (.shr ⟨q, d, a, b, ta, tb, w⟩) = W
  have hW : W = q.code ++ 0x1#6 ++ d ++ a ++ b ++ 0xe#6 ++ bit ta ++ bit tb ++ bit w := hW'.symm
  have wf3_6 : W.extractLsb' 3 6 = 0xe#6 := by rw [hW]; simp (disch := decide) only [ex_hi, ex_lo, ex_all, Nat.reduceSub]
  have wf19_5 : W.extractLsb' 19 5 = d := by rw [hW]; simp (disch := decide) only [ex_hi, ex_lo, ex_all, Nat.reduceSub]
  have wf14_5 : W.extractLsb' 14 5 = a := by rw [hW]; simp (disch := decide) only [ex_hi, ex_lo, ex_all, Nat.reduceSub]
  have wf9_5 : W.extractLsb' 9 5 = b := by rw [hW]; simp (disch := decide) only [ex_hi, ex_lo, ex_all, Nat.reduceSub]
  have wb2 : W.getLsbD 2 = ta := by rw [hW]; simp (disch := decide) only [gl_hi, gl_lo, bit_get, Nat.reduceSub]
  have wb1 : W.getLsbD 1 = tb := by rw [hW]; simp (disch := decide) only [gl_hi, gl_lo, bit_get, Nat.reduceSub]
  have wb0 : W.getLsbD 0 = w := by rw [hW]; simp (disch := decide) only [gl_hi, gl_lo, bit_get, Nat.reduceSub]
  have wf24_6 : W.extractLsb' 24 6 = 0x1#6 := by rw [hW]; simp (disch := decide) only [ex_hi, ex_lo, ex_all, Nat.reduceSub]
  have wf30_2 : W.extractLsb' 30 2 = q.code := by rw [hW]; simp (disch := decide) only [ex_hi, ex_lo, ex_all, Nat.reduceSub]
  exact roundTrip_one hW' rfl rfl wf24_6 rfl wf30_2 (by
    rw [decodeOne_01 _ _ wf24_6]
    simp only [decodeInt, ↓reduceIte, BitVec.reduceEq, and_false, false_and, and_self, not_true_eq_false, and_true, true_and, wf3_6, wf19_5, wf14_5, wf9_5, wb2, wb1, wb0])

theorem RoundTrip.sra (o : R3W) : RoundTrip.Statement (.sra o) := by
  obtain ⟨q, d, a, b, ta, tb, w⟩ := o
  generalize hW' : encode0 (.sra ⟨q, d, a, b, ta, tb, w⟩) = W
  have hW : W = q.code ++ 0x1#6 ++ d ++ a ++ b ++ 0xf#6 ++ bit ta ++ bit tb ++ bit w := hW'.symm
  have wf3_6 : W.extractLsb' 3 6 = 0xf#6 := by rw [hW]; simp (disch := decide) only [ex_hi, ex_lo, ex_all, Nat.reduceSub]
  have wf19_5 : W.extractLsb' 19 5 = d := by rw [hW]; simp (disch := decide) only [ex_hi, ex_lo, ex_all, Nat.reduceSub]
  have wf14_5 : W.extractLsb' 14 5 = a := by rw [hW]; simp (disch := decide) only [ex_hi, ex_lo, ex_all, Nat.reduceSub]
  have wf9_5 : W.extractLsb' 9 5 = b := by rw [hW]; simp (disch := decide) only [ex_hi, ex_lo, ex_all, Nat.reduceSub]
  have wb2 : W.getLsbD 2 = ta := by rw [hW]; simp (disch := decide) only [gl_hi, gl_lo, bit_get, Nat.reduceSub]
  have wb1 : W.getLsbD 1 = tb := by rw [hW]; simp (disch := decide) only [gl_hi, gl_lo, bit_get, Nat.reduceSub]
  have wb0 : W.getLsbD 0 = w := by rw [hW]; simp (disch := decide) only [gl_hi, gl_lo, bit_get, Nat.reduceSub]
  have wf24_6 : W.extractLsb' 24 6 = 0x1#6 := by rw [hW]; simp (disch := decide) only [ex_hi, ex_lo, ex_all, Nat.reduceSub]
  have wf30_2 : W.extractLsb' 30 2 = q.code := by rw [hW]; simp (disch := decide) only [ex_hi, ex_lo, ex_all, Nat.reduceSub]
  exact roundTrip_one hW' rfl rfl wf24_6 rfl wf30_2 (by
    rw [decodeOne_01 _ _ wf24_6]
    simp only [decodeInt, ↓reduceIte, BitVec.reduceEq, and_false, false_and, and_self, not_true_eq_false, and_true, true_and, wf3_6, wf19_5, wf14_5, wf9_5, wb2, wb1, wb0])

theorem RoundTrip.rol (o : R3W) : RoundTrip.Statement (.rol o) := by
  obtain ⟨q, d, a, b, ta, tb, w⟩ := o
  generalize hW' : encode0 (.rol ⟨q, d, a, b, ta, tb, w⟩) = W
  have hW : W = q.code ++ 0x1#6 ++ d ++ a ++ b ++ 0x10#6 ++ bit ta ++ bit tb ++ bit w := hW'.symm
  have wf3_6 : W.extractLsb' 3 6 = 0x10#6 := by rw [hW]; simp (disch := decide) only [ex_hi, ex_lo, ex_all, Nat.reduceSub]
  have wf19_5 : W.extractLsb' 19 5 = d := by rw [hW]; simp (disch := decide) only [ex_hi, ex_lo, ex_all, Nat.reduceSub]
  have wf14_5 : W.extractLsb' 14 5 = a := by rw [hW]; simp (disch := decide) only [ex_hi, ex_lo, ex_all, Nat.reduceSub]
  have wf9_5 : W.extractLsb' 9 5 = b := by rw [hW]; simp (disch := decide) only [ex_hi, ex_lo, ex_all, Nat.reduceSub]
  have wb2 : W.getLsbD 2 = ta := by rw [hW]; simp (disch := decide) only [gl_hi, gl_lo, bit_get, Nat.reduceSub]
  have wb1 : W.getLsbD 1 = tb := by rw [hW]; simp (disch := decide) only [gl_hi, gl_lo, bit_get, Nat.reduceSub]
  have wb0 : W.getLsbD 0 = w := by rw [hW]; simp (disch := decide) only [gl_hi, gl_lo, bit_get, Nat.reduceSub]
  have wf24_6 : W.extractLsb' 24 6 = 0x1#6 := by rw [hW]; simp (disch := decide) only [ex_hi, ex_lo, ex_all, Nat.reduceSub]
  have wf30_2 : W.extractLsb' 30 2 = q.code := by rw [hW]; simp (disch := decide) only [ex_hi, ex_lo, ex_all, Nat.reduceSub]
  exact roundTrip_one hW' rfl rfl wf24_6 rfl wf30_2 (by
    rw [decodeOne_01 _ _ wf24_6]
    simp only [decodeInt, ↓reduceIte, BitVec.reduceEq, and_false, false_and, and_self, not_true_eq_false, and_true, true_and, wf3_6, wf19_5, wf14_5, wf9_5, wb2, wb1, wb0])

theorem RoundTrip.min (o : R3W) : RoundTrip.Statement (.min o) := by
  obtain ⟨q, d, a, b, ta, tb, w⟩ := o
  generalize hW' : encode0 (.min ⟨q, d, a, b, ta, tb, w⟩) = W
  have hW : W = q.code ++ 0x1#6 ++ d ++ a ++ b ++ 0x11#6 ++ bit ta ++ bit tb ++ bit w := hW'.symm
  have wf3_6 : W.extractLsb' 3 6 = 0x11#6 := by rw [hW]; simp (disch := decide) only [ex_hi, ex_lo, ex_all, Nat.reduceSub]
  have wf19_5 : W.extractLsb' 19 5 = d := by rw [hW]; simp (disch := decide) only [ex_hi, ex_lo, ex_all, Nat.reduceSub]
  have wf14_5 : W.extractLsb' 14 5 = a := by rw [hW]; simp (disch := decide) only [ex_hi, ex_lo, ex_all, Nat.reduceSub]
  have wf9_5 : W.extractLsb' 9 5 = b := by rw [hW]; simp (disch := decide) only [ex_hi, ex_lo, ex_all, Nat.reduceSub]
  have wb2 : W.getLsbD 2 = ta := by rw [hW]; simp (disch := decide) only [gl_hi, gl_lo, bit_get, Nat.reduceSub]
  have wb1 : W.getLsbD 1 = tb := by rw [hW]; simp (disch := decide) only [gl_hi, gl_lo, bit_get, Nat.reduceSub]
  have wb0 : W.getLsbD 0 = w := by rw [hW]; simp (disch := decide) only [gl_hi, gl_lo, bit_get, Nat.reduceSub]
  have wf24_6 : W.extractLsb' 24 6 = 0x1#6 := by rw [hW]; simp (disch := decide) only [ex_hi, ex_lo, ex_all, Nat.reduceSub]
  have wf30_2 : W.extractLsb' 30 2 = q.code := by rw [hW]; simp (disch := decide) only [ex_hi, ex_lo, ex_all, Nat.reduceSub]
  exact roundTrip_one hW' rfl rfl wf24_6 rfl wf30_2 (by
    rw [decodeOne_01 _ _ wf24_6]
    simp only [decodeInt, ↓reduceIte, BitVec.reduceEq, and_false, false_and, and_self, not_true_eq_false, and_true, true_and, wf3_6, wf19_5, wf14_5, wf9_5, wb2, wb1, wb0])

theorem RoundTrip.max (o : R3W) : RoundTrip.Statement (.max o) := by
  obtain ⟨q, d, a, b, ta, tb, w⟩ := o
  generalize hW' : encode0 (.max ⟨q, d, a, b, ta, tb, w⟩) = W
  have hW : W = q.code ++ 0x1#6 ++ d ++ a ++ b ++ 0x12#6 ++ bit ta ++ bit tb ++ bit w := hW'.symm
  have wf3_6 : W.extractLsb' 3 6 = 0x12#6 := by rw [hW]; simp (disch := decide) only [ex_hi, ex_lo, ex_all, Nat.reduceSub]
  have wf19_5 : W.extractLsb' 19 5 = d := by rw [hW]; simp (disch := decide) only [ex_hi, ex_lo, ex_all, Nat.reduceSub]
  have wf14_5 : W.extractLsb' 14 5 = a := by rw [hW]; simp (disch := decide) only [ex_hi, ex_lo, ex_all, Nat.reduceSub]
  have wf9_5 : W.extractLsb' 9 5 = b := by rw [hW]; simp (disch := decide) only [ex_hi, ex_lo, ex_all, Nat.reduceSub]
  have wb2 : W.getLsbD 2 = ta := by rw [hW]; simp (disch := decide) only [gl_hi, gl_lo, bit_get, Nat.reduceSub]
  have wb1 : W.getLsbD 1 = tb := by rw [hW]; simp (disch := decide) only [gl_hi, gl_lo, bit_get, Nat.reduceSub]
  have wb0 : W.getLsbD 0 = w := by rw [hW]; simp (disch := decide) only [gl_hi, gl_lo, bit_get, Nat.reduceSub]
  have wf24_6 : W.extractLsb' 24 6 = 0x1#6 := by rw [hW]; simp (disch := decide) only [ex_hi, ex_lo, ex_all, Nat.reduceSub]
  have wf30_2 : W.extractLsb' 30 2 = q.code := by rw [hW]; simp (disch := decide) only [ex_hi, ex_lo, ex_all, Nat.reduceSub]
  exact roundTrip_one hW' rfl rfl wf24_6 rfl wf30_2 (by
    rw [decodeOne_01 _ _ wf24_6]
    simp only [decodeInt, ↓reduceIte, BitVec.reduceEq, and_false, false_and, and_self, not_true_eq_false, and_true, true_and, wf3_6, wf19_5, wf14_5, wf9_5, wb2, wb1, wb0])

theorem RoundTrip.minu (o : R3W) : RoundTrip.Statement (.minu o) := by
  obtain ⟨q, d, a, b, ta, tb, w⟩ := o
  generalize hW' : encode0 (.minu ⟨q, d, a, b, ta, tb, w⟩) = W
  have hW : W = q.code ++ 0x1#6 ++ d ++ a ++ b ++ 0x13#6 ++ bit ta ++ bit tb ++ bit w := hW'.symm
  have wf3_6 : W.extractLsb' 3 6 = 0x13#6 := by rw [hW]; simp (disch := decide) only [ex_hi, ex_lo, ex_all, Nat.reduceSub]
  have wf19_5 : W.extractLsb' 19 5 = d := by rw [hW]; simp (disch := decide) only [ex_hi, ex_lo, ex_all, Nat.reduceSub]
  have wf14_5 : W.extractLsb' 14 5 = a := by rw [hW]; simp (disch := decide) only [ex_hi, ex_lo, ex_all, Nat.reduceSub]
  have wf9_5 : W.extractLsb' 9 5 = b := by rw [hW]; simp (disch := decide) only [ex_hi, ex_lo, ex_all, Nat.reduceSub]
  have wb2 : W.getLsbD 2 = ta := by rw [hW]; simp (disch := decide) only [gl_hi, gl_lo, bit_get, Nat.reduceSub]
  have wb1 : W.getLsbD 1 = tb := by rw [hW]; simp (disch := decide) only [gl_hi, gl_lo, bit_get, Nat.reduceSub]
  have wb0 : W.getLsbD 0 = w := by rw [hW]; simp (disch := decide) only [gl_hi, gl_lo, bit_get, Nat.reduceSub]
  have wf24_6 : W.extractLsb' 24 6 = 0x1#6 := by rw [hW]; simp (disch := decide) only [ex_hi, ex_lo, ex_all, Nat.reduceSub]
  have wf30_2 : W.extractLsb' 30 2 = q.code := by rw [hW]; simp (disch := decide) only [ex_hi, ex_lo, ex_all, Nat.reduceSub]
  exact roundTrip_one hW' rfl rfl wf24_6 rfl wf30_2 (by
    rw [decodeOne_01 _ _ wf24_6]
    simp only [decodeInt, ↓reduceIte, BitVec.reduceEq, and_false, false_and, and_self, not_true_eq_false, and_true, true_and, wf3_6, wf19_5, wf14_5, wf9_5, wb2, wb1, wb0])

theorem RoundTrip.maxu (o : R3W) : RoundTrip.Statement (.maxu o) := by
  obtain ⟨q, d, a, b, ta, tb, w⟩ := o
  generalize hW' : encode0 (.maxu ⟨q, d, a, b, ta, tb, w⟩) = W
  have hW : W = q.code ++ 0x1#6 ++ d ++ a ++ b ++ 0x14#6 ++ bit ta ++ bit tb ++ bit w := hW'.symm
  have wf3_6 : W.extractLsb' 3 6 = 0x14#6 := by rw [hW]; simp (disch := decide) only [ex_hi, ex_lo, ex_all, Nat.reduceSub]
  have wf19_5 : W.extractLsb' 19 5 = d := by rw [hW]; simp (disch := decide) only [ex_hi, ex_lo, ex_all, Nat.reduceSub]
  have wf14_5 : W.extractLsb' 14 5 = a := by rw [hW]; simp (disch := decide) only [ex_hi, ex_lo, ex_all, Nat.reduceSub]
  have wf9_5 : W.extractLsb' 9 5 = b := by rw [hW]; simp (disch := decide) only [ex_hi, ex_lo, ex_all, Nat.reduceSub]
  have wb2 : W.getLsbD 2 = ta := by rw [hW]; simp (disch := decide) only [gl_hi, gl_lo, bit_get, Nat.reduceSub]
  have wb1 : W.getLsbD 1 = tb := by rw [hW]; simp (disch := decide) only [gl_hi, gl_lo, bit_get, Nat.reduceSub]
  have wb0 : W.getLsbD 0 = w := by rw [hW]; simp (disch := decide) only [gl_hi, gl_lo, bit_get, Nat.reduceSub]
  have wf24_6 : W.extractLsb' 24 6 = 0x1#6 := by rw [hW]; simp (disch := decide) only [ex_hi, ex_lo, ex_all, Nat.reduceSub]
  have wf30_2 : W.extractLsb' 30 2 = q.code := by rw [hW]; simp (disch := decide) only [ex_hi, ex_lo, ex_all, Nat.reduceSub]
  exact roundTrip_one hW' rfl rfl wf24_6 rfl wf30_2 (by
    rw [decodeOne_01 _ _ wf24_6]
    simp only [decodeInt, ↓reduceIte, BitVec.reduceEq, and_false, false_and, and_self, not_true_eq_false, and_true, true_and, wf3_6, wf19_5, wf14_5, wf9_5, wb2, wb1, wb0])

theorem RoundTrip.clz (o : R2W) : RoundTrip.Statement (.clz o) := by
  obtain ⟨q, d, a, ta, w⟩ := o
  generalize hW' : encode0 (.clz ⟨q, d, a, ta, w⟩) = W
  have hW : W = q.code ++ 0x1#6 ++ d ++ a ++ 0x15#11 ++ bit ta ++ 0x0#1 ++ bit w := hW'.symm
  have wf3_6 : W.extractLsb' 3 6 = 21#6 := by rw [hW]; simp (disch := decide) only [ex_hi, ex_lo, ex_all, Nat.reduceSub]; rfl
  have wf3_11 : W.extractLsb' 3 11 = 0x15#11 := by rw [hW]; simp (disch := decide) only [ex_hi, ex_lo, ex_all, Nat.reduceSub]
  have wf1_1 : W.extractLsb' 1 1 = 0x0#1 := by rw [hW]; simp (disch := decide) only [ex_hi, ex_lo, ex_all, Nat.reduceSub]
  have wf19_5 : W.extractLsb' 19 5 = d := by rw [hW]; simp (disch := decide) only [ex_hi, ex_lo, ex_all, Nat.reduceSub]
  have wf14_5 : W.extractLsb' 14 5 = a := by rw [hW]; simp (disch := decide) only [ex_hi, ex_lo, ex_all, Nat.reduceSub]
  have wb2 : W.getLsbD 2 = ta := by rw [hW]; simp (disch := decide) only [gl_hi, gl_lo, bit_get, Nat.reduceSub]
  have wb0 : W.getLsbD 0 = w := by rw [hW]; simp (disch := decide) only [gl_hi, gl_lo, bit_get, Nat.reduceSub]
  have wf24_6 : W.extractLsb' 24 6 = 0x1#6 := by rw [hW]; simp (disch := decide) only [ex_hi, ex_lo, ex_all, Nat.reduceSub]
  have wf30_2 : W.extractLsb' 30 2 = q.code := by rw [hW]; simp (disch := decide) only [ex_hi, ex_lo, ex_all, Nat.reduceSub]
  exact roundTrip_one hW' rfl rfl wf24_6 rfl wf30_2 (by
    rw [decodeOne_01 _ _ wf24_6]
    simp only [decodeInt, ↓reduceIte, BitVec.reduceEq, and_false, false_and, and_self, not_true_eq_false, and_true, true_and, wf3_6, wf3_11, wf1_1, wf19_5, wf14_5, wb2, wb0])

theorem RoundTrip.ctz (o : R2W) : RoundTrip.Statement (.ctz o) := by
  obtain ⟨q, d, a, ta, w⟩ := o
  generalize hW' : encode0 (.ctz ⟨q, d, a, ta, w⟩) = W
  have hW : W = q.code ++ 0x1#6 ++ d ++ a ++ 0x16#11 ++ bit ta ++ 0x0#1 ++ bit w := hW'.symm
  have wf3_6 : W.extractLsb' 3 6 = 22#6 := by rw [hW]; simp (disch := decide) only [ex_hi, ex_lo, ex_all, Nat.reduceSub]; rfl
  have wf3_11 : W.extractLsb' 3 11 = 0x16#11 := by rw [hW]; simp (disch := decide) only [ex_hi, ex_lo, ex_all, Nat.reduceSub]
  have wf1_1 : W.extractLsb' 1 1 = 0x0#1 := by rw [hW]; simp (disch := decide) only [ex_hi, ex_lo, ex_all, Nat.reduceSub]
  have wf19_5 : W.extractLsb' 19 5 = d := by rw [hW]; simp (disch := decide) only [ex_hi, ex_lo, ex_all, Nat.reduceSub]
  have wf14_5 : W.extractLsb' 14 5 = a := by rw [hW]; simp (disch := decide) only [ex_hi, ex_lo, ex_all, Nat.reduceSub]
  have wb2 : W.getLsbD 2 = ta := by rw [hW]; simp (disch := decide) only [gl_hi, gl_lo, bit_get, Nat.reduceSub]
  have wb0 : W.getLsbD 0 = w := by rw [hW]; simp (disch := decide) only [gl_hi, gl_lo, bit_get, Nat.reduceSub]
  have wf24_6 : W.extractLsb' 24 6 = 0x1#6 := by rw [hW]; simp (disch := decide) only [ex_hi, ex_lo, ex_all, Nat.reduceSub]
  have wf30_2 : W.extractLsb' 30 2 = q.code := by rw [hW]; simp (disch := decide) only [ex_hi, ex_lo, ex_all, Nat.reduceSub]
  exact roundTrip_one hW' rfl rfl wf24_6 rfl wf30_2 (by
    rw [decodeOne_01 _ _ wf24_6]
    simp only [decodeInt, ↓reduceIte, BitVec.reduceEq, and_false, false_and, and_self, not_true_eq_false, and_true, true_and, wf3_6, wf3_11, wf1_1, wf19_5, wf14_5, wb2, wb0])

theorem RoundTrip.popc (o : R2W) : RoundTrip.Statement (.popc o) := by
  obtain ⟨q, d, a, ta, w⟩ := o
  generalize hW' : encode0 (.popc ⟨q, d, a, ta, w⟩) = W
  have hW : W = q.code ++ 0x1#6 ++ d ++ a ++ 0x17#11 ++ bit ta ++ 0x0#1 ++ bit w := hW'.symm
  have wf3_6 : W.extractLsb' 3 6 = 23#6 := by rw [hW]; simp (disch := decide) only [ex_hi, ex_lo, ex_all, Nat.reduceSub]; rfl
  have wf3_11 : W.extractLsb' 3 11 = 0x17#11 := by rw [hW]; simp (disch := decide) only [ex_hi, ex_lo, ex_all, Nat.reduceSub]
  have wf1_1 : W.extractLsb' 1 1 = 0x0#1 := by rw [hW]; simp (disch := decide) only [ex_hi, ex_lo, ex_all, Nat.reduceSub]
  have wf19_5 : W.extractLsb' 19 5 = d := by rw [hW]; simp (disch := decide) only [ex_hi, ex_lo, ex_all, Nat.reduceSub]
  have wf14_5 : W.extractLsb' 14 5 = a := by rw [hW]; simp (disch := decide) only [ex_hi, ex_lo, ex_all, Nat.reduceSub]
  have wb2 : W.getLsbD 2 = ta := by rw [hW]; simp (disch := decide) only [gl_hi, gl_lo, bit_get, Nat.reduceSub]
  have wb0 : W.getLsbD 0 = w := by rw [hW]; simp (disch := decide) only [gl_hi, gl_lo, bit_get, Nat.reduceSub]
  have wf24_6 : W.extractLsb' 24 6 = 0x1#6 := by rw [hW]; simp (disch := decide) only [ex_hi, ex_lo, ex_all, Nat.reduceSub]
  have wf30_2 : W.extractLsb' 30 2 = q.code := by rw [hW]; simp (disch := decide) only [ex_hi, ex_lo, ex_all, Nat.reduceSub]
  exact roundTrip_one hW' rfl rfl wf24_6 rfl wf30_2 (by
    rw [decodeOne_01 _ _ wf24_6]
    simp only [decodeInt, ↓reduceIte, BitVec.reduceEq, and_false, false_and, and_self, not_true_eq_false, and_true, true_and, wf3_6, wf3_11, wf1_1, wf19_5, wf14_5, wb2, wb0])

theorem RoundTrip.adda (o : R3) : RoundTrip.Statement (.adda o) := by
  obtain ⟨q, d, a, b, ta, tb⟩ := o
  generalize hW' : encode0 (.adda ⟨q, d, a, b, ta, tb⟩) = W
  have hW : W = q.code ++ 0x1#6 ++ d ++ a ++ b ++ 0x18#6 ++ bit ta ++ bit tb ++ 0x0#1 := hW'.symm
  have wf3_6 : W.extractLsb' 3 6 = 0x18#6 := by rw [hW]; simp (disch := decide) only [ex_hi, ex_lo, ex_all, Nat.reduceSub]
  have wn3_11_21 : ¬ W.extractLsb' 3 11 = 21#11 := slice_ne (t := 0) wf3_6 (by decide) (by decide)
  have wn3_11_22 : ¬ W.extractLsb' 3 11 = 22#11 := slice_ne (t := 0) wf3_6 (by decide) (by decide)
  have wn3_11_23 : ¬ W.extractLsb' 3 11 = 23#11 := slice_ne (t := 0) wf3_6 (by decide) (by decide)
  have wf0_1 : W.extractLsb' 0 1 = 0x0#1 := by rw [hW]; simp (disch := decide) only [ex_hi, ex_lo, ex_all, Nat.reduceSub]
  have wf19_5 : W.extractLsb' 19 5 = d := by rw [hW]; simp (disch := decide) only [ex_hi, ex_lo, ex_all, Nat.reduceSub]
  have wf14_5 : W.extractLsb' 14 5 = a := by rw [hW]; simp (disch := decide) only [ex_hi, ex_lo, ex_all, Nat.reduceSub]
  have wf9_5 : W.extractLsb' 9 5 = b := by rw [hW]; simp (disch := decide) only [ex_hi, ex_lo, ex_all, Nat.reduceSub]
  have wb2 : W.getLsbD 2 = ta := by rw [hW]; simp (disch := decide) only [gl_hi, gl_lo, bit_get, Nat.reduceSub]
  have wb1 : W.getLsbD 1 = tb := by rw [hW]; simp (disch := decide) only [gl_hi, gl_lo, bit_get, Nat.reduceSub]
  have wf24_6 : W.extractLsb' 24 6 = 0x1#6 := by rw [hW]; simp (disch := decide) only [ex_hi, ex_lo, ex_all, Nat.reduceSub]
  have wf30_2 : W.extractLsb' 30 2 = q.code := by rw [hW]; simp (disch := decide) only [ex_hi, ex_lo, ex_all, Nat.reduceSub]
  exact roundTrip_one hW' rfl rfl wf24_6 rfl wf30_2 (by
    rw [decodeOne_01 _ _ wf24_6]
    simp only [decodeInt, ↓reduceIte, BitVec.reduceEq, and_false, false_and, and_self, not_true_eq_false, and_true, true_and, wf3_6, wn3_11_21, wn3_11_22, wn3_11_23, wf0_1, wf19_5, wf14_5, wf9_5, wb2, wb1])

theorem RoundTrip.ptag (o : R3) : RoundTrip.Statement (.ptag o) := by
  obtain ⟨q, d, a, b, ta, tb⟩ := o
  generalize hW' : encode0 (.ptag ⟨q, d, a, b, ta, tb⟩) = W
  have hW : W = q.code ++ 0x1#6 ++ d ++ a ++ b ++ 0x19#6 ++ bit ta ++ bit tb ++ 0x0#1 := hW'.symm
  have wf3_6 : W.extractLsb' 3 6 = 0x19#6 := by rw [hW]; simp (disch := decide) only [ex_hi, ex_lo, ex_all, Nat.reduceSub]
  have wn3_11_21 : ¬ W.extractLsb' 3 11 = 21#11 := slice_ne (t := 0) wf3_6 (by decide) (by decide)
  have wn3_11_22 : ¬ W.extractLsb' 3 11 = 22#11 := slice_ne (t := 0) wf3_6 (by decide) (by decide)
  have wn3_11_23 : ¬ W.extractLsb' 3 11 = 23#11 := slice_ne (t := 0) wf3_6 (by decide) (by decide)
  have wf0_1 : W.extractLsb' 0 1 = 0x0#1 := by rw [hW]; simp (disch := decide) only [ex_hi, ex_lo, ex_all, Nat.reduceSub]
  have wf19_5 : W.extractLsb' 19 5 = d := by rw [hW]; simp (disch := decide) only [ex_hi, ex_lo, ex_all, Nat.reduceSub]
  have wf14_5 : W.extractLsb' 14 5 = a := by rw [hW]; simp (disch := decide) only [ex_hi, ex_lo, ex_all, Nat.reduceSub]
  have wf9_5 : W.extractLsb' 9 5 = b := by rw [hW]; simp (disch := decide) only [ex_hi, ex_lo, ex_all, Nat.reduceSub]
  have wb2 : W.getLsbD 2 = ta := by rw [hW]; simp (disch := decide) only [gl_hi, gl_lo, bit_get, Nat.reduceSub]
  have wb1 : W.getLsbD 1 = tb := by rw [hW]; simp (disch := decide) only [gl_hi, gl_lo, bit_get, Nat.reduceSub]
  have wf24_6 : W.extractLsb' 24 6 = 0x1#6 := by rw [hW]; simp (disch := decide) only [ex_hi, ex_lo, ex_all, Nat.reduceSub]
  have wf30_2 : W.extractLsb' 30 2 = q.code := by rw [hW]; simp (disch := decide) only [ex_hi, ex_lo, ex_all, Nat.reduceSub]
  exact roundTrip_one hW' rfl rfl wf24_6 rfl wf30_2 (by
    rw [decodeOne_01 _ _ wf24_6]
    simp only [decodeInt, ↓reduceIte, BitVec.reduceEq, and_false, false_and, and_self, not_true_eq_false, and_true, true_and, wf3_6, wn3_11_21, wn3_11_22, wn3_11_23, wf0_1, wf19_5, wf14_5, wf9_5, wb2, wb1])

theorem RoundTrip.pfmt (o : R2) : RoundTrip.Statement (.pfmt o) := by
  obtain ⟨q, d, a, ta⟩ := o
  generalize hW' : encode0 (.pfmt ⟨q, d, a, ta⟩) = W
  have hW : W = q.code ++ 0x1#6 ++ d ++ a ++ 0x1a#11 ++ bit ta ++ 0x0#2 := hW'.symm
  have wf3_6 : W.extractLsb' 3 6 = 26#6 := by rw [hW]; simp (disch := decide) only [ex_hi, ex_lo, ex_all, Nat.reduceSub]; rfl
  have wf3_11 : W.extractLsb' 3 11 = 0x1a#11 := by rw [hW]; simp (disch := decide) only [ex_hi, ex_lo, ex_all, Nat.reduceSub]
  have wf0_2 : W.extractLsb' 0 2 = 0x0#2 := by rw [hW]; simp (disch := decide) only [ex_hi, ex_lo, ex_all, Nat.reduceSub]
  have wf19_5 : W.extractLsb' 19 5 = d := by rw [hW]; simp (disch := decide) only [ex_hi, ex_lo, ex_all, Nat.reduceSub]
  have wf14_5 : W.extractLsb' 14 5 = a := by rw [hW]; simp (disch := decide) only [ex_hi, ex_lo, ex_all, Nat.reduceSub]
  have wb2 : W.getLsbD 2 = ta := by rw [hW]; simp (disch := decide) only [gl_hi, gl_lo, bit_get, Nat.reduceSub]
  have wf24_6 : W.extractLsb' 24 6 = 0x1#6 := by rw [hW]; simp (disch := decide) only [ex_hi, ex_lo, ex_all, Nat.reduceSub]
  have wf30_2 : W.extractLsb' 30 2 = q.code := by rw [hW]; simp (disch := decide) only [ex_hi, ex_lo, ex_all, Nat.reduceSub]
  exact roundTrip_one hW' rfl rfl wf24_6 rfl wf30_2 (by
    rw [decodeOne_01 _ _ wf24_6]
    simp only [decodeInt, ↓reduceIte, BitVec.reduceEq, and_false, false_and, and_self, not_true_eq_false, and_true, true_and, wf3_6, wf3_11, wf0_2, wf19_5, wf14_5, wb2])

theorem RoundTrip.pva (o : R2) : RoundTrip.Statement (.pva o) := by
  obtain ⟨q, d, a, ta⟩ := o
  generalize hW' : encode0 (.pva ⟨q, d, a, ta⟩) = W
  have hW : W = q.code ++ 0x1#6 ++ d ++ a ++ 0x1b#11 ++ bit ta ++ 0x0#2 := hW'.symm
  have wf3_6 : W.extractLsb' 3 6 = 27#6 := by rw [hW]; simp (disch := decide) only [ex_hi, ex_lo, ex_all, Nat.reduceSub]; rfl
  have wf3_11 : W.extractLsb' 3 11 = 0x1b#11 := by rw [hW]; simp (disch := decide) only [ex_hi, ex_lo, ex_all, Nat.reduceSub]
  have wf0_2 : W.extractLsb' 0 2 = 0x0#2 := by rw [hW]; simp (disch := decide) only [ex_hi, ex_lo, ex_all, Nat.reduceSub]
  have wf19_5 : W.extractLsb' 19 5 = d := by rw [hW]; simp (disch := decide) only [ex_hi, ex_lo, ex_all, Nat.reduceSub]
  have wf14_5 : W.extractLsb' 14 5 = a := by rw [hW]; simp (disch := decide) only [ex_hi, ex_lo, ex_all, Nat.reduceSub]
  have wb2 : W.getLsbD 2 = ta := by rw [hW]; simp (disch := decide) only [gl_hi, gl_lo, bit_get, Nat.reduceSub]
  have wf24_6 : W.extractLsb' 24 6 = 0x1#6 := by rw [hW]; simp (disch := decide) only [ex_hi, ex_lo, ex_all, Nat.reduceSub]
  have wf30_2 : W.extractLsb' 30 2 = q.code := by rw [hW]; simp (disch := decide) only [ex_hi, ex_lo, ex_all, Nat.reduceSub]
  exact roundTrip_one hW' rfl rfl wf24_6 rfl wf30_2 (by
    rw [decodeOne_01 _ _ wf24_6]
    simp only [decodeInt, ↓reduceIte, BitVec.reduceEq, and_false, false_and, and_self, not_true_eq_false, and_true, true_and, wf3_6, wf3_11, wf0_2, wf19_5, wf14_5, wb2])

theorem RoundTrip.cmpEq (o : C3W) : RoundTrip.Statement (.cmpEq o) := by
  obtain ⟨q, d, a, b, ta, tb, w⟩ := o
  generalize hW' : encode0 (.cmpEq ⟨q, d, a, b, ta, tb, w⟩) = W
  have hW : W = q.code ++ 0x1#6 ++ 0x0#2 ++ d ++ a ++ b ++ 0x1c#6 ++ bit ta ++ bit tb ++ bit w := hW'.symm
  have wf3_6 : W.extractLsb' 3 6 = 0x1c#6 := by rw [hW]; simp (disch := decide) only [ex_hi, ex_lo, ex_all, Nat.reduceSub]
  have wn3_11_21 : ¬ W.extractLsb' 3 11 = 21#11 := slice_ne (t := 0) wf3_6 (by decide) (by decide)
  have wn3_11_22 : ¬ W.extractLsb' 3 11 = 22#11 := slice_ne (t := 0) wf3_6 (by decide) (by decide)
  have wn3_11_23 : ¬ W.extractLsb' 3 11 = 23#11 := slice_ne (t := 0) wf3_6 (by decide) (by decide)
  have wn3_11_26 : ¬ W.extractLsb' 3 11 = 26#11 := slice_ne (t := 0) wf3_6 (by decide) (by decide)
  have wn3_11_27 : ¬ W.extractLsb' 3 11 = 27#11 := slice_ne (t := 0) wf3_6 (by decide) (by decide)
  have wf22_2 : W.extractLsb' 22 2 = 0x0#2 := by rw [hW]; simp (disch := decide) only [ex_hi, ex_lo, ex_all, Nat.reduceSub]
  have wf19_3 : W.extractLsb' 19 3 = d := by rw [hW]; simp (disch := decide) only [ex_hi, ex_lo, ex_all, Nat.reduceSub]
  have wf14_5 : W.extractLsb' 14 5 = a := by rw [hW]; simp (disch := decide) only [ex_hi, ex_lo, ex_all, Nat.reduceSub]
  have wf9_5 : W.extractLsb' 9 5 = b := by rw [hW]; simp (disch := decide) only [ex_hi, ex_lo, ex_all, Nat.reduceSub]
  have wb2 : W.getLsbD 2 = ta := by rw [hW]; simp (disch := decide) only [gl_hi, gl_lo, bit_get, Nat.reduceSub]
  have wb1 : W.getLsbD 1 = tb := by rw [hW]; simp (disch := decide) only [gl_hi, gl_lo, bit_get, Nat.reduceSub]
  have wb0 : W.getLsbD 0 = w := by rw [hW]; simp (disch := decide) only [gl_hi, gl_lo, bit_get, Nat.reduceSub]
  have wf24_6 : W.extractLsb' 24 6 = 0x1#6 := by rw [hW]; simp (disch := decide) only [ex_hi, ex_lo, ex_all, Nat.reduceSub]
  have wf30_2 : W.extractLsb' 30 2 = q.code := by rw [hW]; simp (disch := decide) only [ex_hi, ex_lo, ex_all, Nat.reduceSub]
  exact roundTrip_one hW' rfl rfl wf24_6 rfl wf30_2 (by
    rw [decodeOne_01 _ _ wf24_6]
    simp only [decodeInt, ↓reduceIte, BitVec.reduceEq, and_false, false_and, and_self, not_true_eq_false, and_true, true_and, wf3_6, wn3_11_21, wn3_11_22, wn3_11_23, wn3_11_26, wn3_11_27, wf22_2, wf19_3, wf14_5, wf9_5, wb2, wb1, wb0])

theorem RoundTrip.cmpNe (o : C3W) : RoundTrip.Statement (.cmpNe o) := by
  obtain ⟨q, d, a, b, ta, tb, w⟩ := o
  generalize hW' : encode0 (.cmpNe ⟨q, d, a, b, ta, tb, w⟩) = W
  have hW : W = q.code ++ 0x1#6 ++ 0x0#2 ++ d ++ a ++ b ++ 0x1d#6 ++ bit ta ++ bit tb ++ bit w := hW'.symm
  have wf3_6 : W.extractLsb' 3 6 = 0x1d#6 := by rw [hW]; simp (disch := decide) only [ex_hi, ex_lo, ex_all, Nat.reduceSub]
  have wn3_11_21 : ¬ W.extractLsb' 3 11 = 21#11 := slice_ne (t := 0) wf3_6 (by decide) (by decide)
  have wn3_11_22 : ¬ W.extractLsb' 3 11 = 22#11 := slice_ne (t := 0) wf3_6 (by decide) (by decide)
  have wn3_11_23 : ¬ W.extractLsb' 3 11 = 23#11 := slice_ne (t := 0) wf3_6 (by decide) (by decide)
  have wn3_11_26 : ¬ W.extractLsb' 3 11 = 26#11 := slice_ne (t := 0) wf3_6 (by decide) (by decide)
  have wn3_11_27 : ¬ W.extractLsb' 3 11 = 27#11 := slice_ne (t := 0) wf3_6 (by decide) (by decide)
  have wf22_2 : W.extractLsb' 22 2 = 0x0#2 := by rw [hW]; simp (disch := decide) only [ex_hi, ex_lo, ex_all, Nat.reduceSub]
  have wf19_3 : W.extractLsb' 19 3 = d := by rw [hW]; simp (disch := decide) only [ex_hi, ex_lo, ex_all, Nat.reduceSub]
  have wf14_5 : W.extractLsb' 14 5 = a := by rw [hW]; simp (disch := decide) only [ex_hi, ex_lo, ex_all, Nat.reduceSub]
  have wf9_5 : W.extractLsb' 9 5 = b := by rw [hW]; simp (disch := decide) only [ex_hi, ex_lo, ex_all, Nat.reduceSub]
  have wb2 : W.getLsbD 2 = ta := by rw [hW]; simp (disch := decide) only [gl_hi, gl_lo, bit_get, Nat.reduceSub]
  have wb1 : W.getLsbD 1 = tb := by rw [hW]; simp (disch := decide) only [gl_hi, gl_lo, bit_get, Nat.reduceSub]
  have wb0 : W.getLsbD 0 = w := by rw [hW]; simp (disch := decide) only [gl_hi, gl_lo, bit_get, Nat.reduceSub]
  have wf24_6 : W.extractLsb' 24 6 = 0x1#6 := by rw [hW]; simp (disch := decide) only [ex_hi, ex_lo, ex_all, Nat.reduceSub]
  have wf30_2 : W.extractLsb' 30 2 = q.code := by rw [hW]; simp (disch := decide) only [ex_hi, ex_lo, ex_all, Nat.reduceSub]
  exact roundTrip_one hW' rfl rfl wf24_6 rfl wf30_2 (by
    rw [decodeOne_01 _ _ wf24_6]
    simp only [decodeInt, ↓reduceIte, BitVec.reduceEq, and_false, false_and, and_self, not_true_eq_false, and_true, true_and, wf3_6, wn3_11_21, wn3_11_22, wn3_11_23, wn3_11_26, wn3_11_27, wf22_2, wf19_3, wf14_5, wf9_5, wb2, wb1, wb0])

theorem RoundTrip.cmpLt (o : C3W) : RoundTrip.Statement (.cmpLt o) := by
  obtain ⟨q, d, a, b, ta, tb, w⟩ := o
  generalize hW' : encode0 (.cmpLt ⟨q, d, a, b, ta, tb, w⟩) = W
  have hW : W = q.code ++ 0x1#6 ++ 0x0#2 ++ d ++ a ++ b ++ 0x1e#6 ++ bit ta ++ bit tb ++ bit w := hW'.symm
  have wf3_6 : W.extractLsb' 3 6 = 0x1e#6 := by rw [hW]; simp (disch := decide) only [ex_hi, ex_lo, ex_all, Nat.reduceSub]
  have wn3_11_21 : ¬ W.extractLsb' 3 11 = 21#11 := slice_ne (t := 0) wf3_6 (by decide) (by decide)
  have wn3_11_22 : ¬ W.extractLsb' 3 11 = 22#11 := slice_ne (t := 0) wf3_6 (by decide) (by decide)
  have wn3_11_23 : ¬ W.extractLsb' 3 11 = 23#11 := slice_ne (t := 0) wf3_6 (by decide) (by decide)
  have wn3_11_26 : ¬ W.extractLsb' 3 11 = 26#11 := slice_ne (t := 0) wf3_6 (by decide) (by decide)
  have wn3_11_27 : ¬ W.extractLsb' 3 11 = 27#11 := slice_ne (t := 0) wf3_6 (by decide) (by decide)
  have wf22_2 : W.extractLsb' 22 2 = 0x0#2 := by rw [hW]; simp (disch := decide) only [ex_hi, ex_lo, ex_all, Nat.reduceSub]
  have wf19_3 : W.extractLsb' 19 3 = d := by rw [hW]; simp (disch := decide) only [ex_hi, ex_lo, ex_all, Nat.reduceSub]
  have wf14_5 : W.extractLsb' 14 5 = a := by rw [hW]; simp (disch := decide) only [ex_hi, ex_lo, ex_all, Nat.reduceSub]
  have wf9_5 : W.extractLsb' 9 5 = b := by rw [hW]; simp (disch := decide) only [ex_hi, ex_lo, ex_all, Nat.reduceSub]
  have wb2 : W.getLsbD 2 = ta := by rw [hW]; simp (disch := decide) only [gl_hi, gl_lo, bit_get, Nat.reduceSub]
  have wb1 : W.getLsbD 1 = tb := by rw [hW]; simp (disch := decide) only [gl_hi, gl_lo, bit_get, Nat.reduceSub]
  have wb0 : W.getLsbD 0 = w := by rw [hW]; simp (disch := decide) only [gl_hi, gl_lo, bit_get, Nat.reduceSub]
  have wf24_6 : W.extractLsb' 24 6 = 0x1#6 := by rw [hW]; simp (disch := decide) only [ex_hi, ex_lo, ex_all, Nat.reduceSub]
  have wf30_2 : W.extractLsb' 30 2 = q.code := by rw [hW]; simp (disch := decide) only [ex_hi, ex_lo, ex_all, Nat.reduceSub]
  exact roundTrip_one hW' rfl rfl wf24_6 rfl wf30_2 (by
    rw [decodeOne_01 _ _ wf24_6]
    simp only [decodeInt, ↓reduceIte, BitVec.reduceEq, and_false, false_and, and_self, not_true_eq_false, and_true, true_and, wf3_6, wn3_11_21, wn3_11_22, wn3_11_23, wn3_11_26, wn3_11_27, wf22_2, wf19_3, wf14_5, wf9_5, wb2, wb1, wb0])

theorem RoundTrip.cmpLe (o : C3W) : RoundTrip.Statement (.cmpLe o) := by
  obtain ⟨q, d, a, b, ta, tb, w⟩ := o
  generalize hW' : encode0 (.cmpLe ⟨q, d, a, b, ta, tb, w⟩) = W
  have hW : W = q.code ++ 0x1#6 ++ 0x0#2 ++ d ++ a ++ b ++ 0x1f#6 ++ bit ta ++ bit tb ++ bit w := hW'.symm
  have wf3_6 : W.extractLsb' 3 6 = 0x1f#6 := by rw [hW]; simp (disch := decide) only [ex_hi, ex_lo, ex_all, Nat.reduceSub]
  have wn3_11_21 : ¬ W.extractLsb' 3 11 = 21#11 := slice_ne (t := 0) wf3_6 (by decide) (by decide)
  have wn3_11_22 : ¬ W.extractLsb' 3 11 = 22#11 := slice_ne (t := 0) wf3_6 (by decide) (by decide)
  have wn3_11_23 : ¬ W.extractLsb' 3 11 = 23#11 := slice_ne (t := 0) wf3_6 (by decide) (by decide)
  have wn3_11_26 : ¬ W.extractLsb' 3 11 = 26#11 := slice_ne (t := 0) wf3_6 (by decide) (by decide)
  have wn3_11_27 : ¬ W.extractLsb' 3 11 = 27#11 := slice_ne (t := 0) wf3_6 (by decide) (by decide)
  have wf22_2 : W.extractLsb' 22 2 = 0x0#2 := by rw [hW]; simp (disch := decide) only [ex_hi, ex_lo, ex_all, Nat.reduceSub]
  have wf19_3 : W.extractLsb' 19 3 = d := by rw [hW]; simp (disch := decide) only [ex_hi, ex_lo, ex_all, Nat.reduceSub]
  have wf14_5 : W.extractLsb' 14 5 = a := by rw [hW]; simp (disch := decide) only [ex_hi, ex_lo, ex_all, Nat.reduceSub]
  have wf9_5 : W.extractLsb' 9 5 = b := by rw [hW]; simp (disch := decide) only [ex_hi, ex_lo, ex_all, Nat.reduceSub]
  have wb2 : W.getLsbD 2 = ta := by rw [hW]; simp (disch := decide) only [gl_hi, gl_lo, bit_get, Nat.reduceSub]
  have wb1 : W.getLsbD 1 = tb := by rw [hW]; simp (disch := decide) only [gl_hi, gl_lo, bit_get, Nat.reduceSub]
  have wb0 : W.getLsbD 0 = w := by rw [hW]; simp (disch := decide) only [gl_hi, gl_lo, bit_get, Nat.reduceSub]
  have wf24_6 : W.extractLsb' 24 6 = 0x1#6 := by rw [hW]; simp (disch := decide) only [ex_hi, ex_lo, ex_all, Nat.reduceSub]
  have wf30_2 : W.extractLsb' 30 2 = q.code := by rw [hW]; simp (disch := decide) only [ex_hi, ex_lo, ex_all, Nat.reduceSub]
  exact roundTrip_one hW' rfl rfl wf24_6 rfl wf30_2 (by
    rw [decodeOne_01 _ _ wf24_6]
    simp only [decodeInt, ↓reduceIte, BitVec.reduceEq, and_false, false_and, and_self, not_true_eq_false, and_true, true_and, wf3_6, wn3_11_21, wn3_11_22, wn3_11_23, wn3_11_26, wn3_11_27, wf22_2, wf19_3, wf14_5, wf9_5, wb2, wb1, wb0])

theorem RoundTrip.cmpLtu (o : C3W) : RoundTrip.Statement (.cmpLtu o) := by
  obtain ⟨q, d, a, b, ta, tb, w⟩ := o
  generalize hW' : encode0 (.cmpLtu ⟨q, d, a, b, ta, tb, w⟩) = W
  have hW : W = q.code ++ 0x1#6 ++ 0x0#2 ++ d ++ a ++ b ++ 0x20#6 ++ bit ta ++ bit tb ++ bit w := hW'.symm
  have wf3_6 : W.extractLsb' 3 6 = 0x20#6 := by rw [hW]; simp (disch := decide) only [ex_hi, ex_lo, ex_all, Nat.reduceSub]
  have wn3_11_21 : ¬ W.extractLsb' 3 11 = 21#11 := slice_ne (t := 0) wf3_6 (by decide) (by decide)
  have wn3_11_22 : ¬ W.extractLsb' 3 11 = 22#11 := slice_ne (t := 0) wf3_6 (by decide) (by decide)
  have wn3_11_23 : ¬ W.extractLsb' 3 11 = 23#11 := slice_ne (t := 0) wf3_6 (by decide) (by decide)
  have wn3_11_26 : ¬ W.extractLsb' 3 11 = 26#11 := slice_ne (t := 0) wf3_6 (by decide) (by decide)
  have wn3_11_27 : ¬ W.extractLsb' 3 11 = 27#11 := slice_ne (t := 0) wf3_6 (by decide) (by decide)
  have wf22_2 : W.extractLsb' 22 2 = 0x0#2 := by rw [hW]; simp (disch := decide) only [ex_hi, ex_lo, ex_all, Nat.reduceSub]
  have wf19_3 : W.extractLsb' 19 3 = d := by rw [hW]; simp (disch := decide) only [ex_hi, ex_lo, ex_all, Nat.reduceSub]
  have wf14_5 : W.extractLsb' 14 5 = a := by rw [hW]; simp (disch := decide) only [ex_hi, ex_lo, ex_all, Nat.reduceSub]
  have wf9_5 : W.extractLsb' 9 5 = b := by rw [hW]; simp (disch := decide) only [ex_hi, ex_lo, ex_all, Nat.reduceSub]
  have wb2 : W.getLsbD 2 = ta := by rw [hW]; simp (disch := decide) only [gl_hi, gl_lo, bit_get, Nat.reduceSub]
  have wb1 : W.getLsbD 1 = tb := by rw [hW]; simp (disch := decide) only [gl_hi, gl_lo, bit_get, Nat.reduceSub]
  have wb0 : W.getLsbD 0 = w := by rw [hW]; simp (disch := decide) only [gl_hi, gl_lo, bit_get, Nat.reduceSub]
  have wf24_6 : W.extractLsb' 24 6 = 0x1#6 := by rw [hW]; simp (disch := decide) only [ex_hi, ex_lo, ex_all, Nat.reduceSub]
  have wf30_2 : W.extractLsb' 30 2 = q.code := by rw [hW]; simp (disch := decide) only [ex_hi, ex_lo, ex_all, Nat.reduceSub]
  exact roundTrip_one hW' rfl rfl wf24_6 rfl wf30_2 (by
    rw [decodeOne_01 _ _ wf24_6]
    simp only [decodeInt, ↓reduceIte, BitVec.reduceEq, and_false, false_and, and_self, not_true_eq_false, and_true, true_and, wf3_6, wn3_11_21, wn3_11_22, wn3_11_23, wn3_11_26, wn3_11_27, wf22_2, wf19_3, wf14_5, wf9_5, wb2, wb1, wb0])

theorem RoundTrip.cmpLeu (o : C3W) : RoundTrip.Statement (.cmpLeu o) := by
  obtain ⟨q, d, a, b, ta, tb, w⟩ := o
  generalize hW' : encode0 (.cmpLeu ⟨q, d, a, b, ta, tb, w⟩) = W
  have hW : W = q.code ++ 0x1#6 ++ 0x0#2 ++ d ++ a ++ b ++ 0x21#6 ++ bit ta ++ bit tb ++ bit w := hW'.symm
  have wf3_6 : W.extractLsb' 3 6 = 0x21#6 := by rw [hW]; simp (disch := decide) only [ex_hi, ex_lo, ex_all, Nat.reduceSub]
  have wn3_11_21 : ¬ W.extractLsb' 3 11 = 21#11 := slice_ne (t := 0) wf3_6 (by decide) (by decide)
  have wn3_11_22 : ¬ W.extractLsb' 3 11 = 22#11 := slice_ne (t := 0) wf3_6 (by decide) (by decide)
  have wn3_11_23 : ¬ W.extractLsb' 3 11 = 23#11 := slice_ne (t := 0) wf3_6 (by decide) (by decide)
  have wn3_11_26 : ¬ W.extractLsb' 3 11 = 26#11 := slice_ne (t := 0) wf3_6 (by decide) (by decide)
  have wn3_11_27 : ¬ W.extractLsb' 3 11 = 27#11 := slice_ne (t := 0) wf3_6 (by decide) (by decide)
  have wf22_2 : W.extractLsb' 22 2 = 0x0#2 := by rw [hW]; simp (disch := decide) only [ex_hi, ex_lo, ex_all, Nat.reduceSub]
  have wf19_3 : W.extractLsb' 19 3 = d := by rw [hW]; simp (disch := decide) only [ex_hi, ex_lo, ex_all, Nat.reduceSub]
  have wf14_5 : W.extractLsb' 14 5 = a := by rw [hW]; simp (disch := decide) only [ex_hi, ex_lo, ex_all, Nat.reduceSub]
  have wf9_5 : W.extractLsb' 9 5 = b := by rw [hW]; simp (disch := decide) only [ex_hi, ex_lo, ex_all, Nat.reduceSub]
  have wb2 : W.getLsbD 2 = ta := by rw [hW]; simp (disch := decide) only [gl_hi, gl_lo, bit_get, Nat.reduceSub]
  have wb1 : W.getLsbD 1 = tb := by rw [hW]; simp (disch := decide) only [gl_hi, gl_lo, bit_get, Nat.reduceSub]
  have wb0 : W.getLsbD 0 = w := by rw [hW]; simp (disch := decide) only [gl_hi, gl_lo, bit_get, Nat.reduceSub]
  have wf24_6 : W.extractLsb' 24 6 = 0x1#6 := by rw [hW]; simp (disch := decide) only [ex_hi, ex_lo, ex_all, Nat.reduceSub]
  have wf30_2 : W.extractLsb' 30 2 = q.code := by rw [hW]; simp (disch := decide) only [ex_hi, ex_lo, ex_all, Nat.reduceSub]
  exact roundTrip_one hW' rfl rfl wf24_6 rfl wf30_2 (by
    rw [decodeOne_01 _ _ wf24_6]
    simp only [decodeInt, ↓reduceIte, BitVec.reduceEq, and_false, false_and, and_self, not_true_eq_false, and_true, true_and, wf3_6, wn3_11_21, wn3_11_22, wn3_11_23, wn3_11_26, wn3_11_27, wf22_2, wf19_3, wf14_5, wf9_5, wb2, wb1, wb0])

theorem RoundTrip.addi (o : RI) : RoundTrip.Statement (.addi o) := by
  obtain ⟨q, d, a, i⟩ := o
  generalize hW' : encode0 (.addi ⟨q, d, a, i⟩) = W
  have hW : W = q.code ++ 0x2#6 ++ d ++ a ++ i := hW'.symm
  have wf19_5 : W.extractLsb' 19 5 = d := by rw [hW]; simp (disch := decide) only [ex_hi, ex_lo, ex_all, Nat.reduceSub]
  have wf14_5 : W.extractLsb' 14 5 = a := by rw [hW]; simp (disch := decide) only [ex_hi, ex_lo, ex_all, Nat.reduceSub]
  have wf0_14 : W.extractLsb' 0 14 = i := by rw [hW]; simp (disch := decide) only [ex_hi, ex_lo, ex_all, Nat.reduceSub]
  have wf24_6 : W.extractLsb' 24 6 = 0x2#6 := by rw [hW]; simp (disch := decide) only [ex_hi, ex_lo, ex_all, Nat.reduceSub]
  have wf30_2 : W.extractLsb' 30 2 = q.code := by rw [hW]; simp (disch := decide) only [ex_hi, ex_lo, ex_all, Nat.reduceSub]
  exact roundTrip_one hW' rfl rfl wf24_6 rfl wf30_2 (by
    rw [decodeOne_02 _ _ wf24_6]
    simp only [decodeAddi, ↓reduceIte, BitVec.reduceEq, and_false, false_and, and_self, not_true_eq_false, and_true, true_and, wf19_5, wf14_5, wf0_14])

theorem RoundTrip.andi (o : RI) : RoundTrip.Statement (.andi o) := by
  obtain ⟨q, d, a, i⟩ := o
  generalize hW' : encode0 (.andi ⟨q, d, a, i⟩) = W
  have hW : W = q.code ++ 0x3#6 ++ d ++ a ++ i := hW'.symm
  have wf19_5 : W.extractLsb' 19 5 = d := by rw [hW]; simp (disch := decide) only [ex_hi, ex_lo, ex_all, Nat.reduceSub]
  have wf14_5 : W.extractLsb' 14 5 = a := by rw [hW]; simp (disch := decide) only [ex_hi, ex_lo, ex_all, Nat.reduceSub]
  have wf0_14 : W.extractLsb' 0 14 = i := by rw [hW]; simp (disch := decide) only [ex_hi, ex_lo, ex_all, Nat.reduceSub]
  have wf24_6 : W.extractLsb' 24 6 = 0x3#6 := by rw [hW]; simp (disch := decide) only [ex_hi, ex_lo, ex_all, Nat.reduceSub]
  have wf30_2 : W.extractLsb' 30 2 = q.code := by rw [hW]; simp (disch := decide) only [ex_hi, ex_lo, ex_all, Nat.reduceSub]
  exact roundTrip_one hW' rfl rfl wf24_6 rfl wf30_2 (by
    rw [decodeOne_03 _ _ wf24_6]
    simp only [decodeAndi, ↓reduceIte, BitVec.reduceEq, and_false, false_and, and_self, not_true_eq_false, and_true, true_and, wf19_5, wf14_5, wf0_14])

theorem RoundTrip.ori (o : RI) : RoundTrip.Statement (.ori o) := by
  obtain ⟨q, d, a, i⟩ := o
  generalize hW' : encode0 (.ori ⟨q, d, a, i⟩) = W
  have hW : W = q.code ++ 0x4#6 ++ d ++ a ++ i := hW'.symm
  have wf19_5 : W.extractLsb' 19 5 = d := by rw [hW]; simp (disch := decide) only [ex_hi, ex_lo, ex_all, Nat.reduceSub]
  have wf14_5 : W.extractLsb' 14 5 = a := by rw [hW]; simp (disch := decide) only [ex_hi, ex_lo, ex_all, Nat.reduceSub]
  have wf0_14 : W.extractLsb' 0 14 = i := by rw [hW]; simp (disch := decide) only [ex_hi, ex_lo, ex_all, Nat.reduceSub]
  have wf24_6 : W.extractLsb' 24 6 = 0x4#6 := by rw [hW]; simp (disch := decide) only [ex_hi, ex_lo, ex_all, Nat.reduceSub]
  have wf30_2 : W.extractLsb' 30 2 = q.code := by rw [hW]; simp (disch := decide) only [ex_hi, ex_lo, ex_all, Nat.reduceSub]
  exact roundTrip_one hW' rfl rfl wf24_6 rfl wf30_2 (by
    rw [decodeOne_04 _ _ wf24_6]
    simp only [decodeOri, ↓reduceIte, BitVec.reduceEq, and_false, false_and, and_self, not_true_eq_false, and_true, true_and, wf19_5, wf14_5, wf0_14])

theorem RoundTrip.xori (o : RI) : RoundTrip.Statement (.xori o) := by
  obtain ⟨q, d, a, i⟩ := o
  generalize hW' : encode0 (.xori ⟨q, d, a, i⟩) = W
  have hW : W = q.code ++ 0x5#6 ++ d ++ a ++ i := hW'.symm
  have wf19_5 : W.extractLsb' 19 5 = d := by rw [hW]; simp (disch := decide) only [ex_hi, ex_lo, ex_all, Nat.reduceSub]
  have wf14_5 : W.extractLsb' 14 5 = a := by rw [hW]; simp (disch := decide) only [ex_hi, ex_lo, ex_all, Nat.reduceSub]
  have wf0_14 : W.extractLsb' 0 14 = i := by rw [hW]; simp (disch := decide) only [ex_hi, ex_lo, ex_all, Nat.reduceSub]
  have wf24_6 : W.extractLsb' 24 6 = 0x5#6 := by rw [hW]; simp (disch := decide) only [ex_hi, ex_lo, ex_all, Nat.reduceSub]
  have wf30_2 : W.extractLsb' 30 2 = q.code := by rw [hW]; simp (disch := decide) only [ex_hi, ex_lo, ex_all, Nat.reduceSub]
  exact roundTrip_one hW' rfl rfl wf24_6 rfl wf30_2 (by
    rw [decodeOne_05 _ _ wf24_6]
    simp only [decodeXori, ↓reduceIte, BitVec.reduceEq, and_false, false_and, and_self, not_true_eq_false, and_true, true_and, wf19_5, wf14_5, wf0_14])

theorem RoundTrip.shli (o : ShI) : RoundTrip.Statement (.shli o) := by
  obtain ⟨q, d, a, w, n⟩ := o
  generalize hW' : encode0 (.shli ⟨q, d, a, w, n⟩) = W
  have hW : W = q.code ++ 0x6#6 ++ d ++ a ++ 0x0#5 ++ bit w ++ 0x0#2 ++ n := hW'.symm
  have wf9_5 : W.extractLsb' 9 5 = 0x0#5 := by rw [hW]; simp (disch := decide) only [ex_hi, ex_lo, ex_all, Nat.reduceSub]
  have wf6_2 : W.extractLsb' 6 2 = 0x0#2 := by rw [hW]; simp (disch := decide) only [ex_hi, ex_lo, ex_all, Nat.reduceSub]
  have wf19_5 : W.extractLsb' 19 5 = d := by rw [hW]; simp (disch := decide) only [ex_hi, ex_lo, ex_all, Nat.reduceSub]
  have wf14_5 : W.extractLsb' 14 5 = a := by rw [hW]; simp (disch := decide) only [ex_hi, ex_lo, ex_all, Nat.reduceSub]
  have wb8 : W.getLsbD 8 = w := by rw [hW]; simp (disch := decide) only [gl_hi, gl_lo, bit_get, Nat.reduceSub]
  have wf0_6 : W.extractLsb' 0 6 = n := by rw [hW]; simp (disch := decide) only [ex_hi, ex_lo, ex_all, Nat.reduceSub]
  have wf24_6 : W.extractLsb' 24 6 = 0x6#6 := by rw [hW]; simp (disch := decide) only [ex_hi, ex_lo, ex_all, Nat.reduceSub]
  have wf30_2 : W.extractLsb' 30 2 = q.code := by rw [hW]; simp (disch := decide) only [ex_hi, ex_lo, ex_all, Nat.reduceSub]
  exact roundTrip_one hW' rfl rfl wf24_6 rfl wf30_2 (by
    rw [decodeOne_06 _ _ wf24_6]
    simp only [decodeShi, ↓reduceIte, BitVec.reduceEq, and_false, false_and, and_self, not_true_eq_false, and_true, true_and, wf9_5, wf6_2, wf19_5, wf14_5, wb8, wf0_6])

theorem RoundTrip.shri (o : ShI) : RoundTrip.Statement (.shri o) := by
  obtain ⟨q, d, a, w, n⟩ := o
  generalize hW' : encode0 (.shri ⟨q, d, a, w, n⟩) = W
  have hW : W = q.code ++ 0x6#6 ++ d ++ a ++ 0x0#5 ++ bit w ++ 0x1#2 ++ n := hW'.symm
  have wf6_2 : W.extractLsb' 6 2 = 0x1#2 := by rw [hW]; simp (disch := decide) only [ex_hi, ex_lo, ex_all, Nat.reduceSub]
  have wf9_5 : W.extractLsb' 9 5 = 0x0#5 := by rw [hW]; simp (disch := decide) only [ex_hi, ex_lo, ex_all, Nat.reduceSub]
  have wf19_5 : W.extractLsb' 19 5 = d := by rw [hW]; simp (disch := decide) only [ex_hi, ex_lo, ex_all, Nat.reduceSub]
  have wf14_5 : W.extractLsb' 14 5 = a := by rw [hW]; simp (disch := decide) only [ex_hi, ex_lo, ex_all, Nat.reduceSub]
  have wb8 : W.getLsbD 8 = w := by rw [hW]; simp (disch := decide) only [gl_hi, gl_lo, bit_get, Nat.reduceSub]
  have wf0_6 : W.extractLsb' 0 6 = n := by rw [hW]; simp (disch := decide) only [ex_hi, ex_lo, ex_all, Nat.reduceSub]
  have wf24_6 : W.extractLsb' 24 6 = 0x6#6 := by rw [hW]; simp (disch := decide) only [ex_hi, ex_lo, ex_all, Nat.reduceSub]
  have wf30_2 : W.extractLsb' 30 2 = q.code := by rw [hW]; simp (disch := decide) only [ex_hi, ex_lo, ex_all, Nat.reduceSub]
  exact roundTrip_one hW' rfl rfl wf24_6 rfl wf30_2 (by
    rw [decodeOne_06 _ _ wf24_6]
    simp only [decodeShi, ↓reduceIte, BitVec.reduceEq, and_false, false_and, and_self, not_true_eq_false, and_true, true_and, wf6_2, wf9_5, wf19_5, wf14_5, wb8, wf0_6])

theorem RoundTrip.srai (o : ShI) : RoundTrip.Statement (.srai o) := by
  obtain ⟨q, d, a, w, n⟩ := o
  generalize hW' : encode0 (.srai ⟨q, d, a, w, n⟩) = W
  have hW : W = q.code ++ 0x6#6 ++ d ++ a ++ 0x0#5 ++ bit w ++ 0x2#2 ++ n := hW'.symm
  have wf6_2 : W.extractLsb' 6 2 = 0x2#2 := by rw [hW]; simp (disch := decide) only [ex_hi, ex_lo, ex_all, Nat.reduceSub]
  have wf9_5 : W.extractLsb' 9 5 = 0x0#5 := by rw [hW]; simp (disch := decide) only [ex_hi, ex_lo, ex_all, Nat.reduceSub]
  have wf19_5 : W.extractLsb' 19 5 = d := by rw [hW]; simp (disch := decide) only [ex_hi, ex_lo, ex_all, Nat.reduceSub]
  have wf14_5 : W.extractLsb' 14 5 = a := by rw [hW]; simp (disch := decide) only [ex_hi, ex_lo, ex_all, Nat.reduceSub]
  have wb8 : W.getLsbD 8 = w := by rw [hW]; simp (disch := decide) only [gl_hi, gl_lo, bit_get, Nat.reduceSub]
  have wf0_6 : W.extractLsb' 0 6 = n := by rw [hW]; simp (disch := decide) only [ex_hi, ex_lo, ex_all, Nat.reduceSub]
  have wf24_6 : W.extractLsb' 24 6 = 0x6#6 := by rw [hW]; simp (disch := decide) only [ex_hi, ex_lo, ex_all, Nat.reduceSub]
  have wf30_2 : W.extractLsb' 30 2 = q.code := by rw [hW]; simp (disch := decide) only [ex_hi, ex_lo, ex_all, Nat.reduceSub]
  exact roundTrip_one hW' rfl rfl wf24_6 rfl wf30_2 (by
    rw [decodeOne_06 _ _ wf24_6]
    simp only [decodeShi, ↓reduceIte, BitVec.reduceEq, and_false, false_and, and_self, not_true_eq_false, and_true, true_and, wf6_2, wf9_5, wf19_5, wf14_5, wb8, wf0_6])

theorem RoundTrip.roli (o : ShI) : RoundTrip.Statement (.roli o) := by
  obtain ⟨q, d, a, w, n⟩ := o
  generalize hW' : encode0 (.roli ⟨q, d, a, w, n⟩) = W
  have hW : W = q.code ++ 0x6#6 ++ d ++ a ++ 0x0#5 ++ bit w ++ 0x3#2 ++ n := hW'.symm
  have wf6_2 : W.extractLsb' 6 2 = 0x3#2 := by rw [hW]; simp (disch := decide) only [ex_hi, ex_lo, ex_all, Nat.reduceSub]
  have wf9_5 : W.extractLsb' 9 5 = 0x0#5 := by rw [hW]; simp (disch := decide) only [ex_hi, ex_lo, ex_all, Nat.reduceSub]
  have wf19_5 : W.extractLsb' 19 5 = d := by rw [hW]; simp (disch := decide) only [ex_hi, ex_lo, ex_all, Nat.reduceSub]
  have wf14_5 : W.extractLsb' 14 5 = a := by rw [hW]; simp (disch := decide) only [ex_hi, ex_lo, ex_all, Nat.reduceSub]
  have wb8 : W.getLsbD 8 = w := by rw [hW]; simp (disch := decide) only [gl_hi, gl_lo, bit_get, Nat.reduceSub]
  have wf0_6 : W.extractLsb' 0 6 = n := by rw [hW]; simp (disch := decide) only [ex_hi, ex_lo, ex_all, Nat.reduceSub]
  have wf24_6 : W.extractLsb' 24 6 = 0x6#6 := by rw [hW]; simp (disch := decide) only [ex_hi, ex_lo, ex_all, Nat.reduceSub]
  have wf30_2 : W.extractLsb' 30 2 = q.code := by rw [hW]; simp (disch := decide) only [ex_hi, ex_lo, ex_all, Nat.reduceSub]
  exact roundTrip_one hW' rfl rfl wf24_6 rfl wf30_2 (by
    rw [decodeOne_06 _ _ wf24_6]
    simp only [decodeShi, ↓reduceIte, BitVec.reduceEq, and_false, false_and, and_self, not_true_eq_false, and_true, true_and, wf6_2, wf9_5, wf19_5, wf14_5, wb8, wf0_6])

theorem RoundTrip.cmpiEq (o : CI) : RoundTrip.Statement (.cmpiEq o) := by
  obtain ⟨q, d, a, i⟩ := o
  generalize hW' : encode0 (.cmpiEq ⟨q, d, a, i⟩) = W
  have hW : W = q.code ++ 0x7#6 ++ 0x0#2 ++ d ++ a ++ i := hW'.symm
  have wf22_2 : W.extractLsb' 22 2 = 0x0#2 := by rw [hW]; simp (disch := decide) only [ex_hi, ex_lo, ex_all, Nat.reduceSub]
  have wf19_3 : W.extractLsb' 19 3 = d := by rw [hW]; simp (disch := decide) only [ex_hi, ex_lo, ex_all, Nat.reduceSub]
  have wf14_5 : W.extractLsb' 14 5 = a := by rw [hW]; simp (disch := decide) only [ex_hi, ex_lo, ex_all, Nat.reduceSub]
  have wf0_14 : W.extractLsb' 0 14 = i := by rw [hW]; simp (disch := decide) only [ex_hi, ex_lo, ex_all, Nat.reduceSub]
  have wf24_6 : W.extractLsb' 24 6 = 0x7#6 := by rw [hW]; simp (disch := decide) only [ex_hi, ex_lo, ex_all, Nat.reduceSub]
  have wf30_2 : W.extractLsb' 30 2 = q.code := by rw [hW]; simp (disch := decide) only [ex_hi, ex_lo, ex_all, Nat.reduceSub]
  exact roundTrip_one hW' rfl rfl wf24_6 rfl wf30_2 (by
    rw [decodeOne_07 _ _ wf24_6]
    simp only [decodeCmpi, ↓reduceIte, BitVec.reduceEq, and_false, false_and, and_self, not_true_eq_false, and_true, true_and, wf22_2, wf19_3, wf14_5, wf0_14])

theorem RoundTrip.cmpiNe (o : CI) : RoundTrip.Statement (.cmpiNe o) := by
  obtain ⟨q, d, a, i⟩ := o
  generalize hW' : encode0 (.cmpiNe ⟨q, d, a, i⟩) = W
  have hW : W = q.code ++ 0x7#6 ++ 0x1#2 ++ d ++ a ++ i := hW'.symm
  have wf22_2 : W.extractLsb' 22 2 = 0x1#2 := by rw [hW]; simp (disch := decide) only [ex_hi, ex_lo, ex_all, Nat.reduceSub]
  have wf19_3 : W.extractLsb' 19 3 = d := by rw [hW]; simp (disch := decide) only [ex_hi, ex_lo, ex_all, Nat.reduceSub]
  have wf14_5 : W.extractLsb' 14 5 = a := by rw [hW]; simp (disch := decide) only [ex_hi, ex_lo, ex_all, Nat.reduceSub]
  have wf0_14 : W.extractLsb' 0 14 = i := by rw [hW]; simp (disch := decide) only [ex_hi, ex_lo, ex_all, Nat.reduceSub]
  have wf24_6 : W.extractLsb' 24 6 = 0x7#6 := by rw [hW]; simp (disch := decide) only [ex_hi, ex_lo, ex_all, Nat.reduceSub]
  have wf30_2 : W.extractLsb' 30 2 = q.code := by rw [hW]; simp (disch := decide) only [ex_hi, ex_lo, ex_all, Nat.reduceSub]
  exact roundTrip_one hW' rfl rfl wf24_6 rfl wf30_2 (by
    rw [decodeOne_07 _ _ wf24_6]
    simp only [decodeCmpi, ↓reduceIte, BitVec.reduceEq, and_false, false_and, and_self, not_true_eq_false, and_true, true_and, wf22_2, wf19_3, wf14_5, wf0_14])

theorem RoundTrip.cmpiLt (o : CI) : RoundTrip.Statement (.cmpiLt o) := by
  obtain ⟨q, d, a, i⟩ := o
  generalize hW' : encode0 (.cmpiLt ⟨q, d, a, i⟩) = W
  have hW : W = q.code ++ 0x7#6 ++ 0x2#2 ++ d ++ a ++ i := hW'.symm
  have wf22_2 : W.extractLsb' 22 2 = 0x2#2 := by rw [hW]; simp (disch := decide) only [ex_hi, ex_lo, ex_all, Nat.reduceSub]
  have wf19_3 : W.extractLsb' 19 3 = d := by rw [hW]; simp (disch := decide) only [ex_hi, ex_lo, ex_all, Nat.reduceSub]
  have wf14_5 : W.extractLsb' 14 5 = a := by rw [hW]; simp (disch := decide) only [ex_hi, ex_lo, ex_all, Nat.reduceSub]
  have wf0_14 : W.extractLsb' 0 14 = i := by rw [hW]; simp (disch := decide) only [ex_hi, ex_lo, ex_all, Nat.reduceSub]
  have wf24_6 : W.extractLsb' 24 6 = 0x7#6 := by rw [hW]; simp (disch := decide) only [ex_hi, ex_lo, ex_all, Nat.reduceSub]
  have wf30_2 : W.extractLsb' 30 2 = q.code := by rw [hW]; simp (disch := decide) only [ex_hi, ex_lo, ex_all, Nat.reduceSub]
  exact roundTrip_one hW' rfl rfl wf24_6 rfl wf30_2 (by
    rw [decodeOne_07 _ _ wf24_6]
    simp only [decodeCmpi, ↓reduceIte, BitVec.reduceEq, and_false, false_and, and_self, not_true_eq_false, and_true, true_and, wf22_2, wf19_3, wf14_5, wf0_14])

theorem RoundTrip.cmpiLtu (o : CI) : RoundTrip.Statement (.cmpiLtu o) := by
  obtain ⟨q, d, a, i⟩ := o
  generalize hW' : encode0 (.cmpiLtu ⟨q, d, a, i⟩) = W
  have hW : W = q.code ++ 0x7#6 ++ 0x3#2 ++ d ++ a ++ i := hW'.symm
  have wf22_2 : W.extractLsb' 22 2 = 0x3#2 := by rw [hW]; simp (disch := decide) only [ex_hi, ex_lo, ex_all, Nat.reduceSub]
  have wf19_3 : W.extractLsb' 19 3 = d := by rw [hW]; simp (disch := decide) only [ex_hi, ex_lo, ex_all, Nat.reduceSub]
  have wf14_5 : W.extractLsb' 14 5 = a := by rw [hW]; simp (disch := decide) only [ex_hi, ex_lo, ex_all, Nat.reduceSub]
  have wf0_14 : W.extractLsb' 0 14 = i := by rw [hW]; simp (disch := decide) only [ex_hi, ex_lo, ex_all, Nat.reduceSub]
  have wf24_6 : W.extractLsb' 24 6 = 0x7#6 := by rw [hW]; simp (disch := decide) only [ex_hi, ex_lo, ex_all, Nat.reduceSub]
  have wf30_2 : W.extractLsb' 30 2 = q.code := by rw [hW]; simp (disch := decide) only [ex_hi, ex_lo, ex_all, Nat.reduceSub]
  exact roundTrip_one hW' rfl rfl wf24_6 rfl wf30_2 (by
    rw [decodeOne_07 _ _ wf24_6]
    simp only [decodeCmpi, ↓reduceIte, BitVec.reduceEq, and_false, false_and, and_self, not_true_eq_false, and_true, true_and, wf22_2, wf19_3, wf14_5, wf0_14])

theorem RoundTrip.li (o : LiO) : RoundTrip.Statement (.li o) := by
  obtain ⟨q, d, i⟩ := o
  generalize hW' : encode0 (.li ⟨q, d, i⟩) = W
  have hW : W = q.code ++ 0x8#6 ++ d ++ i := hW'.symm
  have wf19_5 : W.extractLsb' 19 5 = d := by rw [hW]; simp (disch := decide) only [ex_hi, ex_lo, ex_all, Nat.reduceSub]
  have wf0_19 : W.extractLsb' 0 19 = i := by rw [hW]; simp (disch := decide) only [ex_hi, ex_lo, ex_all, Nat.reduceSub]
  have wf24_6 : W.extractLsb' 24 6 = 0x8#6 := by rw [hW]; simp (disch := decide) only [ex_hi, ex_lo, ex_all, Nat.reduceSub]
  have wf30_2 : W.extractLsb' 30 2 = q.code := by rw [hW]; simp (disch := decide) only [ex_hi, ex_lo, ex_all, Nat.reduceSub]
  exact roundTrip_one hW' rfl rfl wf24_6 rfl wf30_2 (by
    rw [decodeOne_08 _ _ wf24_6]
    simp only [decodeLi, ↓reduceIte, BitVec.reduceEq, and_false, false_and, and_self, not_true_eq_false, and_true, true_and, wf19_5, wf0_19])

theorem RoundTrip.lih (o : LihO) : RoundTrip.Statement (.lih o) := by
  obtain ⟨q, d, k, h⟩ := o
  generalize hW' : encode0 (.lih ⟨q, d, k, h⟩) = W
  have hW : W = q.code ++ 0x9#6 ++ d ++ k ++ 0x0#1 ++ h := hW'.symm
  have wf16_1 : W.extractLsb' 16 1 = 0x0#1 := by rw [hW]; simp (disch := decide) only [ex_hi, ex_lo, ex_all, Nat.reduceSub]
  have wf19_5 : W.extractLsb' 19 5 = d := by rw [hW]; simp (disch := decide) only [ex_hi, ex_lo, ex_all, Nat.reduceSub]
  have wf17_2 : W.extractLsb' 17 2 = k := by rw [hW]; simp (disch := decide) only [ex_hi, ex_lo, ex_all, Nat.reduceSub]
  have wf0_16 : W.extractLsb' 0 16 = h := by rw [hW]; simp (disch := decide) only [ex_hi, ex_lo, ex_all, Nat.reduceSub]
  have wf24_6 : W.extractLsb' 24 6 = 0x9#6 := by rw [hW]; simp (disch := decide) only [ex_hi, ex_lo, ex_all, Nat.reduceSub]
  have wf30_2 : W.extractLsb' 30 2 = q.code := by rw [hW]; simp (disch := decide) only [ex_hi, ex_lo, ex_all, Nat.reduceSub]
  exact roundTrip_one hW' rfl rfl wf24_6 rfl wf30_2 (by
    rw [decodeOne_09 _ _ wf24_6]
    simp only [decodeLih, ↓reduceIte, BitVec.reduceEq, and_false, false_and, and_self, not_true_eq_false, and_true, true_and, wf16_1, wf19_5, wf17_2, wf0_16])

theorem RoundTrip.addai (o : RI) : RoundTrip.Statement (.addai o) := by
  obtain ⟨q, d, a, i⟩ := o
  generalize hW' : encode0 (.addai ⟨q, d, a, i⟩) = W
  have hW : W = q.code ++ 0xa#6 ++ d ++ a ++ i := hW'.symm
  have wf19_5 : W.extractLsb' 19 5 = d := by rw [hW]; simp (disch := decide) only [ex_hi, ex_lo, ex_all, Nat.reduceSub]
  have wf14_5 : W.extractLsb' 14 5 = a := by rw [hW]; simp (disch := decide) only [ex_hi, ex_lo, ex_all, Nat.reduceSub]
  have wf0_14 : W.extractLsb' 0 14 = i := by rw [hW]; simp (disch := decide) only [ex_hi, ex_lo, ex_all, Nat.reduceSub]
  have wf24_6 : W.extractLsb' 24 6 = 0xa#6 := by rw [hW]; simp (disch := decide) only [ex_hi, ex_lo, ex_all, Nat.reduceSub]
  have wf30_2 : W.extractLsb' 30 2 = q.code := by rw [hW]; simp (disch := decide) only [ex_hi, ex_lo, ex_all, Nat.reduceSub]
  exact roundTrip_one hW' rfl rfl wf24_6 rfl wf30_2 (by
    rw [decodeOne_0a _ _ wf24_6]
    simp only [decodeAddai, ↓reduceIte, BitVec.reduceEq, and_false, false_and, and_self, not_true_eq_false, and_true, true_and, wf19_5, wf14_5, wf0_14])

theorem RoundTrip.fadd (o : F3) : RoundTrip.Statement (.fadd o) := by
  obtain ⟨q, d, a, b, r, ta, tb⟩ := o
  generalize hW' : encode0 (.fadd ⟨q, d, a, b, r, ta, tb⟩) = W
  have hW : W = q.code ++ 0xb#6 ++ d ++ a ++ b ++ 0x0#3 ++ r.code ++ bit ta ++ bit tb ++ 0x0#1 := hW'.symm
  have wf6_3 : W.extractLsb' 6 3 = 0x0#3 := by rw [hW]; simp (disch := decide) only [ex_hi, ex_lo, ex_all, Nat.reduceSub]
  have wf0_1 : W.extractLsb' 0 1 = 0x0#1 := by rw [hW]; simp (disch := decide) only [ex_hi, ex_lo, ex_all, Nat.reduceSub]
  have wf19_5 : W.extractLsb' 19 5 = d := by rw [hW]; simp (disch := decide) only [ex_hi, ex_lo, ex_all, Nat.reduceSub]
  have wf14_5 : W.extractLsb' 14 5 = a := by rw [hW]; simp (disch := decide) only [ex_hi, ex_lo, ex_all, Nat.reduceSub]
  have wf9_5 : W.extractLsb' 9 5 = b := by rw [hW]; simp (disch := decide) only [ex_hi, ex_lo, ex_all, Nat.reduceSub]
  have wf3_3 : W.extractLsb' 3 3 = r.code := by rw [hW]; simp (disch := decide) only [ex_hi, ex_lo, ex_all, Nat.reduceSub]
  have wb2 : W.getLsbD 2 = ta := by rw [hW]; simp (disch := decide) only [gl_hi, gl_lo, bit_get, Nat.reduceSub]
  have wb1 : W.getLsbD 1 = tb := by rw [hW]; simp (disch := decide) only [gl_hi, gl_lo, bit_get, Nat.reduceSub]
  have wf24_6 : W.extractLsb' 24 6 = 0xb#6 := by rw [hW]; simp (disch := decide) only [ex_hi, ex_lo, ex_all, Nat.reduceSub]
  have wf30_2 : W.extractLsb' 30 2 = q.code := by rw [hW]; simp (disch := decide) only [ex_hi, ex_lo, ex_all, Nat.reduceSub]
  exact roundTrip_one hW' rfl rfl wf24_6 rfl wf30_2 (by
    rw [decodeOne_0b _ _ wf24_6]
    simp only [decodeFp, ↓reduceIte, BitVec.reduceEq, and_false, false_and, and_self, not_true_eq_false, and_true, true_and, wf6_3, wf0_1, wf19_5, wf14_5, wf9_5, wf3_3, Rm.ofCode_code, Option.map_some, wb2, wb1])

theorem RoundTrip.fsub (o : F3) : RoundTrip.Statement (.fsub o) := by
  obtain ⟨q, d, a, b, r, ta, tb⟩ := o
  generalize hW' : encode0 (.fsub ⟨q, d, a, b, r, ta, tb⟩) = W
  have hW : W = q.code ++ 0xb#6 ++ d ++ a ++ b ++ 0x1#3 ++ r.code ++ bit ta ++ bit tb ++ 0x0#1 := hW'.symm
  have wf6_3 : W.extractLsb' 6 3 = 0x1#3 := by rw [hW]; simp (disch := decide) only [ex_hi, ex_lo, ex_all, Nat.reduceSub]
  have wf0_1 : W.extractLsb' 0 1 = 0x0#1 := by rw [hW]; simp (disch := decide) only [ex_hi, ex_lo, ex_all, Nat.reduceSub]
  have wf19_5 : W.extractLsb' 19 5 = d := by rw [hW]; simp (disch := decide) only [ex_hi, ex_lo, ex_all, Nat.reduceSub]
  have wf14_5 : W.extractLsb' 14 5 = a := by rw [hW]; simp (disch := decide) only [ex_hi, ex_lo, ex_all, Nat.reduceSub]
  have wf9_5 : W.extractLsb' 9 5 = b := by rw [hW]; simp (disch := decide) only [ex_hi, ex_lo, ex_all, Nat.reduceSub]
  have wf3_3 : W.extractLsb' 3 3 = r.code := by rw [hW]; simp (disch := decide) only [ex_hi, ex_lo, ex_all, Nat.reduceSub]
  have wb2 : W.getLsbD 2 = ta := by rw [hW]; simp (disch := decide) only [gl_hi, gl_lo, bit_get, Nat.reduceSub]
  have wb1 : W.getLsbD 1 = tb := by rw [hW]; simp (disch := decide) only [gl_hi, gl_lo, bit_get, Nat.reduceSub]
  have wf24_6 : W.extractLsb' 24 6 = 0xb#6 := by rw [hW]; simp (disch := decide) only [ex_hi, ex_lo, ex_all, Nat.reduceSub]
  have wf30_2 : W.extractLsb' 30 2 = q.code := by rw [hW]; simp (disch := decide) only [ex_hi, ex_lo, ex_all, Nat.reduceSub]
  exact roundTrip_one hW' rfl rfl wf24_6 rfl wf30_2 (by
    rw [decodeOne_0b _ _ wf24_6]
    simp only [decodeFp, ↓reduceIte, BitVec.reduceEq, and_false, false_and, and_self, not_true_eq_false, and_true, true_and, wf6_3, wf0_1, wf19_5, wf14_5, wf9_5, wf3_3, Rm.ofCode_code, Option.map_some, wb2, wb1])

theorem RoundTrip.fmul (o : F3) : RoundTrip.Statement (.fmul o) := by
  obtain ⟨q, d, a, b, r, ta, tb⟩ := o
  generalize hW' : encode0 (.fmul ⟨q, d, a, b, r, ta, tb⟩) = W
  have hW : W = q.code ++ 0xb#6 ++ d ++ a ++ b ++ 0x2#3 ++ r.code ++ bit ta ++ bit tb ++ 0x0#1 := hW'.symm
  have wf6_3 : W.extractLsb' 6 3 = 0x2#3 := by rw [hW]; simp (disch := decide) only [ex_hi, ex_lo, ex_all, Nat.reduceSub]
  have wf0_1 : W.extractLsb' 0 1 = 0x0#1 := by rw [hW]; simp (disch := decide) only [ex_hi, ex_lo, ex_all, Nat.reduceSub]
  have wf19_5 : W.extractLsb' 19 5 = d := by rw [hW]; simp (disch := decide) only [ex_hi, ex_lo, ex_all, Nat.reduceSub]
  have wf14_5 : W.extractLsb' 14 5 = a := by rw [hW]; simp (disch := decide) only [ex_hi, ex_lo, ex_all, Nat.reduceSub]
  have wf9_5 : W.extractLsb' 9 5 = b := by rw [hW]; simp (disch := decide) only [ex_hi, ex_lo, ex_all, Nat.reduceSub]
  have wf3_3 : W.extractLsb' 3 3 = r.code := by rw [hW]; simp (disch := decide) only [ex_hi, ex_lo, ex_all, Nat.reduceSub]
  have wb2 : W.getLsbD 2 = ta := by rw [hW]; simp (disch := decide) only [gl_hi, gl_lo, bit_get, Nat.reduceSub]
  have wb1 : W.getLsbD 1 = tb := by rw [hW]; simp (disch := decide) only [gl_hi, gl_lo, bit_get, Nat.reduceSub]
  have wf24_6 : W.extractLsb' 24 6 = 0xb#6 := by rw [hW]; simp (disch := decide) only [ex_hi, ex_lo, ex_all, Nat.reduceSub]
  have wf30_2 : W.extractLsb' 30 2 = q.code := by rw [hW]; simp (disch := decide) only [ex_hi, ex_lo, ex_all, Nat.reduceSub]
  exact roundTrip_one hW' rfl rfl wf24_6 rfl wf30_2 (by
    rw [decodeOne_0b _ _ wf24_6]
    simp only [decodeFp, ↓reduceIte, BitVec.reduceEq, and_false, false_and, and_self, not_true_eq_false, and_true, true_and, wf6_3, wf0_1, wf19_5, wf14_5, wf9_5, wf3_3, Rm.ofCode_code, Option.map_some, wb2, wb1])

theorem RoundTrip.fma (o : F3) : RoundTrip.Statement (.fma o) := by
  obtain ⟨q, d, a, b, r, ta, tb⟩ := o
  generalize hW' : encode0 (.fma ⟨q, d, a, b, r, ta, tb⟩) = W
  have hW : W = q.code ++ 0xb#6 ++ d ++ a ++ b ++ 0x3#3 ++ r.code ++ bit ta ++ bit tb ++ 0x0#1 := hW'.symm
  have wf6_3 : W.extractLsb' 6 3 = 0x3#3 := by rw [hW]; simp (disch := decide) only [ex_hi, ex_lo, ex_all, Nat.reduceSub]
  have wf0_1 : W.extractLsb' 0 1 = 0x0#1 := by rw [hW]; simp (disch := decide) only [ex_hi, ex_lo, ex_all, Nat.reduceSub]
  have wf19_5 : W.extractLsb' 19 5 = d := by rw [hW]; simp (disch := decide) only [ex_hi, ex_lo, ex_all, Nat.reduceSub]
  have wf14_5 : W.extractLsb' 14 5 = a := by rw [hW]; simp (disch := decide) only [ex_hi, ex_lo, ex_all, Nat.reduceSub]
  have wf9_5 : W.extractLsb' 9 5 = b := by rw [hW]; simp (disch := decide) only [ex_hi, ex_lo, ex_all, Nat.reduceSub]
  have wf3_3 : W.extractLsb' 3 3 = r.code := by rw [hW]; simp (disch := decide) only [ex_hi, ex_lo, ex_all, Nat.reduceSub]
  have wb2 : W.getLsbD 2 = ta := by rw [hW]; simp (disch := decide) only [gl_hi, gl_lo, bit_get, Nat.reduceSub]
  have wb1 : W.getLsbD 1 = tb := by rw [hW]; simp (disch := decide) only [gl_hi, gl_lo, bit_get, Nat.reduceSub]
  have wf24_6 : W.extractLsb' 24 6 = 0xb#6 := by rw [hW]; simp (disch := decide) only [ex_hi, ex_lo, ex_all, Nat.reduceSub]
  have wf30_2 : W.extractLsb' 30 2 = q.code := by rw [hW]; simp (disch := decide) only [ex_hi, ex_lo, ex_all, Nat.reduceSub]
  exact roundTrip_one hW' rfl rfl wf24_6 rfl wf30_2 (by
    rw [decodeOne_0b _ _ wf24_6]
    simp only [decodeFp, ↓reduceIte, BitVec.reduceEq, and_false, false_and, and_self, not_true_eq_false, and_true, true_and, wf6_3, wf0_1, wf19_5, wf14_5, wf9_5, wf3_3, Rm.ofCode_code, Option.map_some, wb2, wb1])

theorem RoundTrip.fitof (o : F2) : RoundTrip.Statement (.fitof o) := by
  obtain ⟨q, d, a, r, ta⟩ := o
  generalize hW' : encode0 (.fitof ⟨q, d, a, r, ta⟩) = W
  have hW : W = q.code ++ 0xb#6 ++ d ++ a ++ 0x4#8 ++ r.code ++ bit ta ++ 0x0#2 := hW'.symm
  have wf6_3 : W.extractLsb' 6 3 = 4#3 := by rw [hW]; simp (disch := decide) only [ex_hi, ex_lo, ex_all, Nat.reduceSub]; rfl
  have wf6_8 : W.extractLsb' 6 8 = 0x4#8 := by rw [hW]; simp (disch := decide) only [ex_hi, ex_lo, ex_all, Nat.reduceSub]
  have wf0_2 : W.extractLsb' 0 2 = 0x0#2 := by rw [hW]; simp (disch := decide) only [ex_hi, ex_lo, ex_all, Nat.reduceSub]
  have wf19_5 : W.extractLsb' 19 5 = d := by rw [hW]; simp (disch := decide) only [ex_hi, ex_lo, ex_all, Nat.reduceSub]
  have wf14_5 : W.extractLsb' 14 5 = a := by rw [hW]; simp (disch := decide) only [ex_hi, ex_lo, ex_all, Nat.reduceSub]
  have wf3_3 : W.extractLsb' 3 3 = r.code := by rw [hW]; simp (disch := decide) only [ex_hi, ex_lo, ex_all, Nat.reduceSub]
  have wb2 : W.getLsbD 2 = ta := by rw [hW]; simp (disch := decide) only [gl_hi, gl_lo, bit_get, Nat.reduceSub]
  have wf24_6 : W.extractLsb' 24 6 = 0xb#6 := by rw [hW]; simp (disch := decide) only [ex_hi, ex_lo, ex_all, Nat.reduceSub]
  have wf30_2 : W.extractLsb' 30 2 = q.code := by rw [hW]; simp (disch := decide) only [ex_hi, ex_lo, ex_all, Nat.reduceSub]
  exact roundTrip_one hW' rfl rfl wf24_6 rfl wf30_2 (by
    rw [decodeOne_0b _ _ wf24_6]
    simp only [decodeFp, ↓reduceIte, BitVec.reduceEq, and_false, false_and, and_self, not_true_eq_false, and_true, true_and, wf6_3, wf6_8, wf0_2, wf19_5, wf14_5, wf3_3, Rm.ofCode_code, Option.map_some, wb2])

theorem RoundTrip.fftoi (o : F2) : RoundTrip.Statement (.fftoi o) := by
  obtain ⟨q, d, a, r, ta⟩ := o
  generalize hW' : encode0 (.fftoi ⟨q, d, a, r, ta⟩) = W
  have hW : W = q.code ++ 0xb#6 ++ d ++ a ++ 0x5#8 ++ r.code ++ bit ta ++ 0x0#2 := hW'.symm
  have wf6_3 : W.extractLsb' 6 3 = 5#3 := by rw [hW]; simp (disch := decide) only [ex_hi, ex_lo, ex_all, Nat.reduceSub]; rfl
  have wf6_8 : W.extractLsb' 6 8 = 0x5#8 := by rw [hW]; simp (disch := decide) only [ex_hi, ex_lo, ex_all, Nat.reduceSub]
  have wf0_2 : W.extractLsb' 0 2 = 0x0#2 := by rw [hW]; simp (disch := decide) only [ex_hi, ex_lo, ex_all, Nat.reduceSub]
  have wf19_5 : W.extractLsb' 19 5 = d := by rw [hW]; simp (disch := decide) only [ex_hi, ex_lo, ex_all, Nat.reduceSub]
  have wf14_5 : W.extractLsb' 14 5 = a := by rw [hW]; simp (disch := decide) only [ex_hi, ex_lo, ex_all, Nat.reduceSub]
  have wf3_3 : W.extractLsb' 3 3 = r.code := by rw [hW]; simp (disch := decide) only [ex_hi, ex_lo, ex_all, Nat.reduceSub]
  have wb2 : W.getLsbD 2 = ta := by rw [hW]; simp (disch := decide) only [gl_hi, gl_lo, bit_get, Nat.reduceSub]
  have wf24_6 : W.extractLsb' 24 6 = 0xb#6 := by rw [hW]; simp (disch := decide) only [ex_hi, ex_lo, ex_all, Nat.reduceSub]
  have wf30_2 : W.extractLsb' 30 2 = q.code := by rw [hW]; simp (disch := decide) only [ex_hi, ex_lo, ex_all, Nat.reduceSub]
  exact roundTrip_one hW' rfl rfl wf24_6 rfl wf30_2 (by
    rw [decodeOne_0b _ _ wf24_6]
    simp only [decodeFp, ↓reduceIte, BitVec.reduceEq, and_false, false_and, and_self, not_true_eq_false, and_true, true_and, wf6_3, wf6_8, wf0_2, wf19_5, wf14_5, wf3_3, Rm.ofCode_code, Option.map_some, wb2])

theorem RoundTrip.fmin (o : R3) : RoundTrip.Statement (.fmin o) := by
  obtain ⟨q, d, a, b, ta, tb⟩ := o
  generalize hW' : encode0 (.fmin ⟨q, d, a, b, ta, tb⟩) = W
  have hW : W = q.code ++ 0xb#6 ++ d ++ a ++ b ++ 0x30#6 ++ bit ta ++ bit tb ++ 0x0#1 := hW'.symm
  have wf6_3 : W.extractLsb' 6 3 = 6#3 := by rw [hW]; simp (disch := decide) only [ex_hi, ex_lo, ex_all, Nat.reduceSub]; rfl
  have wn6_8_4 : ¬ W.extractLsb' 6 8 = 4#8 := slice_ne (t := 0) wf6_3 (by decide) (by decide)
  have wn6_8_5 : ¬ W.extractLsb' 6 8 = 5#8 := slice_ne (t := 0) wf6_3 (by decide) (by decide)
  have wf3_6 : W.extractLsb' 3 6 = 0x30#6 := by rw [hW]; simp (disch := decide) only [ex_hi, ex_lo, ex_all, Nat.reduceSub]
  have wf0_1 : W.extractLsb' 0 1 = 0x0#1 := by rw [hW]; simp (disch := decide) only [ex_hi, ex_lo, ex_all, Nat.reduceSub]
  have wf19_5 : W.extractLsb' 19 5 = d := by rw [hW]; simp (disch := decide) only [ex_hi, ex_lo, ex_all, Nat.reduceSub]
  have wf14_5 : W.extractLsb' 14 5 = a := by rw [hW]; simp (disch := decide) only [ex_hi, ex_lo, ex_all, Nat.reduceSub]
  have wf9_5 : W.extractLsb' 9 5 = b := by rw [hW]; simp (disch := decide) only [ex_hi, ex_lo, ex_all, Nat.reduceSub]
  have wb2 : W.getLsbD 2 = ta := by rw [hW]; simp (disch := decide) only [gl_hi, gl_lo, bit_get, Nat.reduceSub]
  have wb1 : W.getLsbD 1 = tb := by rw [hW]; simp (disch := decide) only [gl_hi, gl_lo, bit_get, Nat.reduceSub]
  have wf24_6 : W.extractLsb' 24 6 = 0xb#6 := by rw [hW]; simp (disch := decide) only [ex_hi, ex_lo, ex_all, Nat.reduceSub]
  have wf30_2 : W.extractLsb' 30 2 = q.code := by rw [hW]; simp (disch := decide) only [ex_hi, ex_lo, ex_all, Nat.reduceSub]
  exact roundTrip_one hW' rfl rfl wf24_6 rfl wf30_2 (by
    rw [decodeOne_0b _ _ wf24_6]
    simp only [decodeFp, ↓reduceIte, BitVec.reduceEq, and_false, false_and, and_self, not_true_eq_false, and_true, true_and, wf6_3, wn6_8_4, wn6_8_5, wf3_6, wf0_1, wf19_5, wf14_5, wf9_5, wb2, wb1])

theorem RoundTrip.fmax (o : R3) : RoundTrip.Statement (.fmax o) := by
  obtain ⟨q, d, a, b, ta, tb⟩ := o
  generalize hW' : encode0 (.fmax ⟨q, d, a, b, ta, tb⟩) = W
  have hW : W = q.code ++ 0xb#6 ++ d ++ a ++ b ++ 0x31#6 ++ bit ta ++ bit tb ++ 0x0#1 := hW'.symm
  have wf6_3 : W.extractLsb' 6 3 = 6#3 := by rw [hW]; simp (disch := decide) only [ex_hi, ex_lo, ex_all, Nat.reduceSub]; rfl
  have wn6_8_4 : ¬ W.extractLsb' 6 8 = 4#8 := slice_ne (t := 0) wf6_3 (by decide) (by decide)
  have wn6_8_5 : ¬ W.extractLsb' 6 8 = 5#8 := slice_ne (t := 0) wf6_3 (by decide) (by decide)
  have wf3_6 : W.extractLsb' 3 6 = 0x31#6 := by rw [hW]; simp (disch := decide) only [ex_hi, ex_lo, ex_all, Nat.reduceSub]
  have wf0_1 : W.extractLsb' 0 1 = 0x0#1 := by rw [hW]; simp (disch := decide) only [ex_hi, ex_lo, ex_all, Nat.reduceSub]
  have wf19_5 : W.extractLsb' 19 5 = d := by rw [hW]; simp (disch := decide) only [ex_hi, ex_lo, ex_all, Nat.reduceSub]
  have wf14_5 : W.extractLsb' 14 5 = a := by rw [hW]; simp (disch := decide) only [ex_hi, ex_lo, ex_all, Nat.reduceSub]
  have wf9_5 : W.extractLsb' 9 5 = b := by rw [hW]; simp (disch := decide) only [ex_hi, ex_lo, ex_all, Nat.reduceSub]
  have wb2 : W.getLsbD 2 = ta := by rw [hW]; simp (disch := decide) only [gl_hi, gl_lo, bit_get, Nat.reduceSub]
  have wb1 : W.getLsbD 1 = tb := by rw [hW]; simp (disch := decide) only [gl_hi, gl_lo, bit_get, Nat.reduceSub]
  have wf24_6 : W.extractLsb' 24 6 = 0xb#6 := by rw [hW]; simp (disch := decide) only [ex_hi, ex_lo, ex_all, Nat.reduceSub]
  have wf30_2 : W.extractLsb' 30 2 = q.code := by rw [hW]; simp (disch := decide) only [ex_hi, ex_lo, ex_all, Nat.reduceSub]
  exact roundTrip_one hW' rfl rfl wf24_6 rfl wf30_2 (by
    rw [decodeOne_0b _ _ wf24_6]
    simp only [decodeFp, ↓reduceIte, BitVec.reduceEq, and_false, false_and, and_self, not_true_eq_false, and_true, true_and, wf6_3, wn6_8_4, wn6_8_5, wf3_6, wf0_1, wf19_5, wf14_5, wf9_5, wb2, wb1])

theorem RoundTrip.fabs (o : R2) : RoundTrip.Statement (.fabs o) := by
  obtain ⟨q, d, a, ta⟩ := o
  generalize hW' : encode0 (.fabs ⟨q, d, a, ta⟩) = W
  have hW : W = q.code ++ 0xb#6 ++ d ++ a ++ 0x32#11 ++ bit ta ++ 0x0#2 := hW'.symm
  have wf6_3 : W.extractLsb' 6 3 = 6#3 := by rw [hW]; simp (disch := decide) only [ex_hi, ex_lo, ex_all, Nat.reduceSub]; rfl
  have wf6_8 : W.extractLsb' 6 8 = 6#8 := by rw [hW]; simp (disch := decide) only [ex_hi, ex_lo, ex_all, Nat.reduceSub]; rfl
  have wf3_6 : W.extractLsb' 3 6 = 50#6 := by rw [hW]; simp (disch := decide) only [ex_hi, ex_lo, ex_all, Nat.reduceSub]; rfl
  have wf3_11 : W.extractLsb' 3 11 = 0x32#11 := by rw [hW]; simp (disch := decide) only [ex_hi, ex_lo, ex_all, Nat.reduceSub]
  have wf0_2 : W.extractLsb' 0 2 = 0x0#2 := by rw [hW]; simp (disch := decide) only [ex_hi, ex_lo, ex_all, Nat.reduceSub]
  have wf19_5 : W.extractLsb' 19 5 = d := by rw [hW]; simp (disch := decide) only [ex_hi, ex_lo, ex_all, Nat.reduceSub]
  have wf14_5 : W.extractLsb' 14 5 = a := by rw [hW]; simp (disch := decide) only [ex_hi, ex_lo, ex_all, Nat.reduceSub]
  have wb2 : W.getLsbD 2 = ta := by rw [hW]; simp (disch := decide) only [gl_hi, gl_lo, bit_get, Nat.reduceSub]
  have wf24_6 : W.extractLsb' 24 6 = 0xb#6 := by rw [hW]; simp (disch := decide) only [ex_hi, ex_lo, ex_all, Nat.reduceSub]
  have wf30_2 : W.extractLsb' 30 2 = q.code := by rw [hW]; simp (disch := decide) only [ex_hi, ex_lo, ex_all, Nat.reduceSub]
  exact roundTrip_one hW' rfl rfl wf24_6 rfl wf30_2 (by
    rw [decodeOne_0b _ _ wf24_6]
    simp only [decodeFp, ↓reduceIte, BitVec.reduceEq, and_false, false_and, and_self, not_true_eq_false, and_true, true_and, wf6_3, wf6_8, wf3_6, wf3_11, wf0_2, wf19_5, wf14_5, wb2])

theorem RoundTrip.fneg (o : R2) : RoundTrip.Statement (.fneg o) := by
  obtain ⟨q, d, a, ta⟩ := o
  generalize hW' : encode0 (.fneg ⟨q, d, a, ta⟩) = W
  have hW : W = q.code ++ 0xb#6 ++ d ++ a ++ 0x33#11 ++ bit ta ++ 0x0#2 := hW'.symm
  have wf6_3 : W.extractLsb' 6 3 = 6#3 := by rw [hW]; simp (disch := decide) only [ex_hi, ex_lo, ex_all, Nat.reduceSub]; rfl
  have wf6_8 : W.extractLsb' 6 8 = 6#8 := by rw [hW]; simp (disch := decide) only [ex_hi, ex_lo, ex_all, Nat.reduceSub]; rfl
  have wf3_6 : W.extractLsb' 3 6 = 51#6 := by rw [hW]; simp (disch := decide) only [ex_hi, ex_lo, ex_all, Nat.reduceSub]; rfl
  have wf3_11 : W.extractLsb' 3 11 = 0x33#11 := by rw [hW]; simp (disch := decide) only [ex_hi, ex_lo, ex_all, Nat.reduceSub]
  have wf0_2 : W.extractLsb' 0 2 = 0x0#2 := by rw [hW]; simp (disch := decide) only [ex_hi, ex_lo, ex_all, Nat.reduceSub]
  have wf19_5 : W.extractLsb' 19 5 = d := by rw [hW]; simp (disch := decide) only [ex_hi, ex_lo, ex_all, Nat.reduceSub]
  have wf14_5 : W.extractLsb' 14 5 = a := by rw [hW]; simp (disch := decide) only [ex_hi, ex_lo, ex_all, Nat.reduceSub]
  have wb2 : W.getLsbD 2 = ta := by rw [hW]; simp (disch := decide) only [gl_hi, gl_lo, bit_get, Nat.reduceSub]
  have wf24_6 : W.extractLsb' 24 6 = 0xb#6 := by rw [hW]; simp (disch := decide) only [ex_hi, ex_lo, ex_all, Nat.reduceSub]
  have wf30_2 : W.extractLsb' 30 2 = q.code := by rw [hW]; simp (disch := decide) only [ex_hi, ex_lo, ex_all, Nat.reduceSub]
  exact roundTrip_one hW' rfl rfl wf24_6 rfl wf30_2 (by
    rw [decodeOne_0b _ _ wf24_6]
    simp only [decodeFp, ↓reduceIte, BitVec.reduceEq, and_false, false_and, and_self, not_true_eq_false, and_true, true_and, wf6_3, wf6_8, wf3_6, wf3_11, wf0_2, wf19_5, wf14_5, wb2])

theorem RoundTrip.feq (o : C3) : RoundTrip.Statement (.feq o) := by
  obtain ⟨q, d, a, b, ta, tb⟩ := o
  generalize hW' : encode0 (.feq ⟨q, d, a, b, ta, tb⟩) = W
  have hW : W = q.code ++ 0xb#6 ++ 0x0#2 ++ d ++ a ++ b ++ 0x34#6 ++ bit ta ++ bit tb ++ 0x0#1 := hW'.symm
  have wf6_3 : W.extractLsb' 6 3 = 6#3 := by rw [hW]; simp (disch := decide) only [ex_hi, ex_lo, ex_all, Nat.reduceSub]; rfl
  have wn6_8_4 : ¬ W.extractLsb' 6 8 = 4#8 := slice_ne (t := 0) wf6_3 (by decide) (by decide)
  have wn6_8_5 : ¬ W.extractLsb' 6 8 = 5#8 := slice_ne (t := 0) wf6_3 (by decide) (by decide)
  have wf3_6 : W.extractLsb' 3 6 = 0x34#6 := by rw [hW]; simp (disch := decide) only [ex_hi, ex_lo, ex_all, Nat.reduceSub]
  have wn3_11_50 : ¬ W.extractLsb' 3 11 = 50#11 := slice_ne (t := 0) wf3_6 (by decide) (by decide)
  have wn3_11_51 : ¬ W.extractLsb' 3 11 = 51#11 := slice_ne (t := 0) wf3_6 (by decide) (by decide)
  have wf22_2 : W.extractLsb' 22 2 = 0x0#2 := by rw [hW]; simp (disch := decide) only [ex_hi, ex_lo, ex_all, Nat.reduceSub]
  have wf0_1 : W.extractLsb' 0 1 = 0x0#1 := by rw [hW]; simp (disch := decide) only [ex_hi, ex_lo, ex_all, Nat.reduceSub]
  have wf19_3 : W.extractLsb' 19 3 = d := by rw [hW]; simp (disch := decide) only [ex_hi, ex_lo, ex_all, Nat.reduceSub]
  have wf14_5 : W.extractLsb' 14 5 = a := by rw [hW]; simp (disch := decide) only [ex_hi, ex_lo, ex_all, Nat.reduceSub]
  have wf9_5 : W.extractLsb' 9 5 = b := by rw [hW]; simp (disch := decide) only [ex_hi, ex_lo, ex_all, Nat.reduceSub]
  have wb2 : W.getLsbD 2 = ta := by rw [hW]; simp (disch := decide) only [gl_hi, gl_lo, bit_get, Nat.reduceSub]
  have wb1 : W.getLsbD 1 = tb := by rw [hW]; simp (disch := decide) only [gl_hi, gl_lo, bit_get, Nat.reduceSub]
  have wf24_6 : W.extractLsb' 24 6 = 0xb#6 := by rw [hW]; simp (disch := decide) only [ex_hi, ex_lo, ex_all, Nat.reduceSub]
  have wf30_2 : W.extractLsb' 30 2 = q.code := by rw [hW]; simp (disch := decide) only [ex_hi, ex_lo, ex_all, Nat.reduceSub]
  exact roundTrip_one hW' rfl rfl wf24_6 rfl wf30_2 (by
    rw [decodeOne_0b _ _ wf24_6]
    simp only [decodeFp, ↓reduceIte, BitVec.reduceEq, and_false, false_and, and_self, not_true_eq_false, and_true, true_and, wf6_3, wn6_8_4, wn6_8_5, wf3_6, wn3_11_50, wn3_11_51, wf22_2, wf0_1, wf19_3, wf14_5, wf9_5, wb2, wb1])

theorem RoundTrip.flt (o : C3) : RoundTrip.Statement (.flt o) := by
  obtain ⟨q, d, a, b, ta, tb⟩ := o
  generalize hW' : encode0 (.flt ⟨q, d, a, b, ta, tb⟩) = W
  have hW : W = q.code ++ 0xb#6 ++ 0x0#2 ++ d ++ a ++ b ++ 0x35#6 ++ bit ta ++ bit tb ++ 0x0#1 := hW'.symm
  have wf6_3 : W.extractLsb' 6 3 = 6#3 := by rw [hW]; simp (disch := decide) only [ex_hi, ex_lo, ex_all, Nat.reduceSub]; rfl
  have wn6_8_4 : ¬ W.extractLsb' 6 8 = 4#8 := slice_ne (t := 0) wf6_3 (by decide) (by decide)
  have wn6_8_5 : ¬ W.extractLsb' 6 8 = 5#8 := slice_ne (t := 0) wf6_3 (by decide) (by decide)
  have wf3_6 : W.extractLsb' 3 6 = 0x35#6 := by rw [hW]; simp (disch := decide) only [ex_hi, ex_lo, ex_all, Nat.reduceSub]
  have wn3_11_50 : ¬ W.extractLsb' 3 11 = 50#11 := slice_ne (t := 0) wf3_6 (by decide) (by decide)
  have wn3_11_51 : ¬ W.extractLsb' 3 11 = 51#11 := slice_ne (t := 0) wf3_6 (by decide) (by decide)
  have wf22_2 : W.extractLsb' 22 2 = 0x0#2 := by rw [hW]; simp (disch := decide) only [ex_hi, ex_lo, ex_all, Nat.reduceSub]
  have wf0_1 : W.extractLsb' 0 1 = 0x0#1 := by rw [hW]; simp (disch := decide) only [ex_hi, ex_lo, ex_all, Nat.reduceSub]
  have wf19_3 : W.extractLsb' 19 3 = d := by rw [hW]; simp (disch := decide) only [ex_hi, ex_lo, ex_all, Nat.reduceSub]
  have wf14_5 : W.extractLsb' 14 5 = a := by rw [hW]; simp (disch := decide) only [ex_hi, ex_lo, ex_all, Nat.reduceSub]
  have wf9_5 : W.extractLsb' 9 5 = b := by rw [hW]; simp (disch := decide) only [ex_hi, ex_lo, ex_all, Nat.reduceSub]
  have wb2 : W.getLsbD 2 = ta := by rw [hW]; simp (disch := decide) only [gl_hi, gl_lo, bit_get, Nat.reduceSub]
  have wb1 : W.getLsbD 1 = tb := by rw [hW]; simp (disch := decide) only [gl_hi, gl_lo, bit_get, Nat.reduceSub]
  have wf24_6 : W.extractLsb' 24 6 = 0xb#6 := by rw [hW]; simp (disch := decide) only [ex_hi, ex_lo, ex_all, Nat.reduceSub]
  have wf30_2 : W.extractLsb' 30 2 = q.code := by rw [hW]; simp (disch := decide) only [ex_hi, ex_lo, ex_all, Nat.reduceSub]
  exact roundTrip_one hW' rfl rfl wf24_6 rfl wf30_2 (by
    rw [decodeOne_0b _ _ wf24_6]
    simp only [decodeFp, ↓reduceIte, BitVec.reduceEq, and_false, false_and, and_self, not_true_eq_false, and_true, true_and, wf6_3, wn6_8_4, wn6_8_5, wf3_6, wn3_11_50, wn3_11_51, wf22_2, wf0_1, wf19_3, wf14_5, wf9_5, wb2, wb1])

theorem RoundTrip.fle (o : C3) : RoundTrip.Statement (.fle o) := by
  obtain ⟨q, d, a, b, ta, tb⟩ := o
  generalize hW' : encode0 (.fle ⟨q, d, a, b, ta, tb⟩) = W
  have hW : W = q.code ++ 0xb#6 ++ 0x0#2 ++ d ++ a ++ b ++ 0x36#6 ++ bit ta ++ bit tb ++ 0x0#1 := hW'.symm
  have wf6_3 : W.extractLsb' 6 3 = 6#3 := by rw [hW]; simp (disch := decide) only [ex_hi, ex_lo, ex_all, Nat.reduceSub]; rfl
  have wn6_8_4 : ¬ W.extractLsb' 6 8 = 4#8 := slice_ne (t := 0) wf6_3 (by decide) (by decide)
  have wn6_8_5 : ¬ W.extractLsb' 6 8 = 5#8 := slice_ne (t := 0) wf6_3 (by decide) (by decide)
  have wf3_6 : W.extractLsb' 3 6 = 0x36#6 := by rw [hW]; simp (disch := decide) only [ex_hi, ex_lo, ex_all, Nat.reduceSub]
  have wn3_11_50 : ¬ W.extractLsb' 3 11 = 50#11 := slice_ne (t := 0) wf3_6 (by decide) (by decide)
  have wn3_11_51 : ¬ W.extractLsb' 3 11 = 51#11 := slice_ne (t := 0) wf3_6 (by decide) (by decide)
  have wf22_2 : W.extractLsb' 22 2 = 0x0#2 := by rw [hW]; simp (disch := decide) only [ex_hi, ex_lo, ex_all, Nat.reduceSub]
  have wf0_1 : W.extractLsb' 0 1 = 0x0#1 := by rw [hW]; simp (disch := decide) only [ex_hi, ex_lo, ex_all, Nat.reduceSub]
  have wf19_3 : W.extractLsb' 19 3 = d := by rw [hW]; simp (disch := decide) only [ex_hi, ex_lo, ex_all, Nat.reduceSub]
  have wf14_5 : W.extractLsb' 14 5 = a := by rw [hW]; simp (disch := decide) only [ex_hi, ex_lo, ex_all, Nat.reduceSub]
  have wf9_5 : W.extractLsb' 9 5 = b := by rw [hW]; simp (disch := decide) only [ex_hi, ex_lo, ex_all, Nat.reduceSub]
  have wb2 : W.getLsbD 2 = ta := by rw [hW]; simp (disch := decide) only [gl_hi, gl_lo, bit_get, Nat.reduceSub]
  have wb1 : W.getLsbD 1 = tb := by rw [hW]; simp (disch := decide) only [gl_hi, gl_lo, bit_get, Nat.reduceSub]
  have wf24_6 : W.extractLsb' 24 6 = 0xb#6 := by rw [hW]; simp (disch := decide) only [ex_hi, ex_lo, ex_all, Nat.reduceSub]
  have wf30_2 : W.extractLsb' 30 2 = q.code := by rw [hW]; simp (disch := decide) only [ex_hi, ex_lo, ex_all, Nat.reduceSub]
  exact roundTrip_one hW' rfl rfl wf24_6 rfl wf30_2 (by
    rw [decodeOne_0b _ _ wf24_6]
    simp only [decodeFp, ↓reduceIte, BitVec.reduceEq, and_false, false_and, and_self, not_true_eq_false, and_true, true_and, wf6_3, wn6_8_4, wn6_8_5, wf3_6, wn3_11_50, wn3_11_51, wf22_2, wf0_1, wf19_3, wf14_5, wf9_5, wb2, wb1])

theorem RoundTrip.fun (o : C3) : RoundTrip.Statement (.fun o) := by
  obtain ⟨q, d, a, b, ta, tb⟩ := o
  generalize hW' : encode0 (.fun ⟨q, d, a, b, ta, tb⟩) = W
  have hW : W = q.code ++ 0xb#6 ++ 0x0#2 ++ d ++ a ++ b ++ 0x37#6 ++ bit ta ++ bit tb ++ 0x0#1 := hW'.symm
  have wf6_3 : W.extractLsb' 6 3 = 6#3 := by rw [hW]; simp (disch := decide) only [ex_hi, ex_lo, ex_all, Nat.reduceSub]; rfl
  have wn6_8_4 : ¬ W.extractLsb' 6 8 = 4#8 := slice_ne (t := 0) wf6_3 (by decide) (by decide)
  have wn6_8_5 : ¬ W.extractLsb' 6 8 = 5#8 := slice_ne (t := 0) wf6_3 (by decide) (by decide)
  have wf3_6 : W.extractLsb' 3 6 = 0x37#6 := by rw [hW]; simp (disch := decide) only [ex_hi, ex_lo, ex_all, Nat.reduceSub]
  have wn3_11_50 : ¬ W.extractLsb' 3 11 = 50#11 := slice_ne (t := 0) wf3_6 (by decide) (by decide)
  have wn3_11_51 : ¬ W.extractLsb' 3 11 = 51#11 := slice_ne (t := 0) wf3_6 (by decide) (by decide)
  have wf22_2 : W.extractLsb' 22 2 = 0x0#2 := by rw [hW]; simp (disch := decide) only [ex_hi, ex_lo, ex_all, Nat.reduceSub]
  have wf0_1 : W.extractLsb' 0 1 = 0x0#1 := by rw [hW]; simp (disch := decide) only [ex_hi, ex_lo, ex_all, Nat.reduceSub]
  have wf19_3 : W.extractLsb' 19 3 = d := by rw [hW]; simp (disch := decide) only [ex_hi, ex_lo, ex_all, Nat.reduceSub]
  have wf14_5 : W.extractLsb' 14 5 = a := by rw [hW]; simp (disch := decide) only [ex_hi, ex_lo, ex_all, Nat.reduceSub]
  have wf9_5 : W.extractLsb' 9 5 = b := by rw [hW]; simp (disch := decide) only [ex_hi, ex_lo, ex_all, Nat.reduceSub]
  have wb2 : W.getLsbD 2 = ta := by rw [hW]; simp (disch := decide) only [gl_hi, gl_lo, bit_get, Nat.reduceSub]
  have wb1 : W.getLsbD 1 = tb := by rw [hW]; simp (disch := decide) only [gl_hi, gl_lo, bit_get, Nat.reduceSub]
  have wf24_6 : W.extractLsb' 24 6 = 0xb#6 := by rw [hW]; simp (disch := decide) only [ex_hi, ex_lo, ex_all, Nat.reduceSub]
  have wf30_2 : W.extractLsb' 30 2 = q.code := by rw [hW]; simp (disch := decide) only [ex_hi, ex_lo, ex_all, Nat.reduceSub]
  exact roundTrip_one hW' rfl rfl wf24_6 rfl wf30_2 (by
    rw [decodeOne_0b _ _ wf24_6]
    simp only [decodeFp, ↓reduceIte, BitVec.reduceEq, and_false, false_and, and_self, not_true_eq_false, and_true, true_and, wf6_3, wn6_8_4, wn6_8_5, wf3_6, wn3_11_50, wn3_11_51, wf22_2, wf0_1, wf19_3, wf14_5, wf9_5, wb2, wb1])

theorem RoundTrip.frcp (o : R2) : RoundTrip.Statement (.frcp o) := by
  obtain ⟨q, d, a, ta⟩ := o
  generalize hW' : encode0 (.frcp ⟨q, d, a, ta⟩) = W
  have hW : W = q.code ++ 0xb#6 ++ d ++ a ++ 0x38#11 ++ bit ta ++ 0x0#2 := hW'.symm
  have wf6_3 : W.extractLsb' 6 3 = 7#3 := by rw [hW]; simp (disch := decide) only [ex_hi, ex_lo, ex_all, Nat.reduceSub]; rfl
  have wf6_8 : W.extractLsb' 6 8 = 7#8 := by rw [hW]; simp (disch := decide) only [ex_hi, ex_lo, ex_all, Nat.reduceSub]; rfl
  have wf3_6 : W.extractLsb' 3 6 = 56#6 := by rw [hW]; simp (disch := decide) only [ex_hi, ex_lo, ex_all, Nat.reduceSub]; rfl
  have wf3_11 : W.extractLsb' 3 11 = 0x38#11 := by rw [hW]; simp (disch := decide) only [ex_hi, ex_lo, ex_all, Nat.reduceSub]
  have wf0_2 : W.extractLsb' 0 2 = 0x0#2 := by rw [hW]; simp (disch := decide) only [ex_hi, ex_lo, ex_all, Nat.reduceSub]
  have wf19_5 : W.extractLsb' 19 5 = d := by rw [hW]; simp (disch := decide) only [ex_hi, ex_lo, ex_all, Nat.reduceSub]
  have wf14_5 : W.extractLsb' 14 5 = a := by rw [hW]; simp (disch := decide) only [ex_hi, ex_lo, ex_all, Nat.reduceSub]
  have wb2 : W.getLsbD 2 = ta := by rw [hW]; simp (disch := decide) only [gl_hi, gl_lo, bit_get, Nat.reduceSub]
  have wf24_6 : W.extractLsb' 24 6 = 0xb#6 := by rw [hW]; simp (disch := decide) only [ex_hi, ex_lo, ex_all, Nat.reduceSub]
  have wf30_2 : W.extractLsb' 30 2 = q.code := by rw [hW]; simp (disch := decide) only [ex_hi, ex_lo, ex_all, Nat.reduceSub]
  exact roundTrip_one hW' rfl rfl wf24_6 rfl wf30_2 (by
    rw [decodeOne_0b _ _ wf24_6]
    simp only [decodeFp, ↓reduceIte, BitVec.reduceEq, and_false, false_and, and_self, not_true_eq_false, and_true, true_and, wf6_3, wf6_8, wf3_6, wf3_11, wf0_2, wf19_5, wf14_5, wb2])

theorem RoundTrip.frsq (o : R2) : RoundTrip.Statement (.frsq o) := by
  obtain ⟨q, d, a, ta⟩ := o
  generalize hW' : encode0 (.frsq ⟨q, d, a, ta⟩) = W
  have hW : W = q.code ++ 0xb#6 ++ d ++ a ++ 0x39#11 ++ bit ta ++ 0x0#2 := hW'.symm
  have wf6_3 : W.extractLsb' 6 3 = 7#3 := by rw [hW]; simp (disch := decide) only [ex_hi, ex_lo, ex_all, Nat.reduceSub]; rfl
  have wf6_8 : W.extractLsb' 6 8 = 7#8 := by rw [hW]; simp (disch := decide) only [ex_hi, ex_lo, ex_all, Nat.reduceSub]; rfl
  have wf3_6 : W.extractLsb' 3 6 = 57#6 := by rw [hW]; simp (disch := decide) only [ex_hi, ex_lo, ex_all, Nat.reduceSub]; rfl
  have wf3_11 : W.extractLsb' 3 11 = 0x39#11 := by rw [hW]; simp (disch := decide) only [ex_hi, ex_lo, ex_all, Nat.reduceSub]
  have wf0_2 : W.extractLsb' 0 2 = 0x0#2 := by rw [hW]; simp (disch := decide) only [ex_hi, ex_lo, ex_all, Nat.reduceSub]
  have wf19_5 : W.extractLsb' 19 5 = d := by rw [hW]; simp (disch := decide) only [ex_hi, ex_lo, ex_all, Nat.reduceSub]
  have wf14_5 : W.extractLsb' 14 5 = a := by rw [hW]; simp (disch := decide) only [ex_hi, ex_lo, ex_all, Nat.reduceSub]
  have wb2 : W.getLsbD 2 = ta := by rw [hW]; simp (disch := decide) only [gl_hi, gl_lo, bit_get, Nat.reduceSub]
  have wf24_6 : W.extractLsb' 24 6 = 0xb#6 := by rw [hW]; simp (disch := decide) only [ex_hi, ex_lo, ex_all, Nat.reduceSub]
  have wf30_2 : W.extractLsb' 30 2 = q.code := by rw [hW]; simp (disch := decide) only [ex_hi, ex_lo, ex_all, Nat.reduceSub]
  exact roundTrip_one hW' rfl rfl wf24_6 rfl wf30_2 (by
    rw [decodeOne_0b _ _ wf24_6]
    simp only [decodeFp, ↓reduceIte, BitVec.reduceEq, and_false, false_and, and_self, not_true_eq_false, and_true, true_and, wf6_3, wf6_8, wf3_6, wf3_11, wf0_2, wf19_5, wf14_5, wb2])

theorem RoundTrip.frefRcp (o : R3) : RoundTrip.Statement (.frefRcp o) := by
  obtain ⟨q, d, a, b, ta, tb⟩ := o
  generalize hW' : encode0 (.frefRcp ⟨q, d, a, b, ta, tb⟩) = W
  have hW : W = q.code ++ 0xb#6 ++ d ++ a ++ b ++ 0x3a#6 ++ bit ta ++ bit tb ++ 0x0#1 := hW'.symm
  have wf6_3 : W.extractLsb' 6 3 = 7#3 := by rw [hW]; simp (disch := decide) only [ex_hi, ex_lo, ex_all, Nat.reduceSub]; rfl
  have wn6_8_4 : ¬ W.extractLsb' 6 8 = 4#8 := slice_ne (t := 0) wf6_3 (by decide) (by decide)
  have wn6_8_5 : ¬ W.extractLsb' 6 8 = 5#8 := slice_ne (t := 0) wf6_3 (by decide) (by decide)
  have wf3_6 : W.extractLsb' 3 6 = 0x3a#6 := by rw [hW]; simp (disch := decide) only [ex_hi, ex_lo, ex_all, Nat.reduceSub]
  have wn3_11_50 : ¬ W.extractLsb' 3 11 = 50#11 := slice_ne (t := 0) wf3_6 (by decide) (by decide)
  have wn3_11_51 : ¬ W.extractLsb' 3 11 = 51#11 := slice_ne (t := 0) wf3_6 (by decide) (by decide)
  have wn3_11_56 : ¬ W.extractLsb' 3 11 = 56#11 := slice_ne (t := 0) wf3_6 (by decide) (by decide)
  have wn3_11_57 : ¬ W.extractLsb' 3 11 = 57#11 := slice_ne (t := 0) wf3_6 (by decide) (by decide)
  have wf0_1 : W.extractLsb' 0 1 = 0x0#1 := by rw [hW]; simp (disch := decide) only [ex_hi, ex_lo, ex_all, Nat.reduceSub]
  have wf19_5 : W.extractLsb' 19 5 = d := by rw [hW]; simp (disch := decide) only [ex_hi, ex_lo, ex_all, Nat.reduceSub]
  have wf14_5 : W.extractLsb' 14 5 = a := by rw [hW]; simp (disch := decide) only [ex_hi, ex_lo, ex_all, Nat.reduceSub]
  have wf9_5 : W.extractLsb' 9 5 = b := by rw [hW]; simp (disch := decide) only [ex_hi, ex_lo, ex_all, Nat.reduceSub]
  have wb2 : W.getLsbD 2 = ta := by rw [hW]; simp (disch := decide) only [gl_hi, gl_lo, bit_get, Nat.reduceSub]
  have wb1 : W.getLsbD 1 = tb := by rw [hW]; simp (disch := decide) only [gl_hi, gl_lo, bit_get, Nat.reduceSub]
  have wf24_6 : W.extractLsb' 24 6 = 0xb#6 := by rw [hW]; simp (disch := decide) only [ex_hi, ex_lo, ex_all, Nat.reduceSub]
  have wf30_2 : W.extractLsb' 30 2 = q.code := by rw [hW]; simp (disch := decide) only [ex_hi, ex_lo, ex_all, Nat.reduceSub]
  exact roundTrip_one hW' rfl rfl wf24_6 rfl wf30_2 (by
    rw [decodeOne_0b _ _ wf24_6]
    simp only [decodeFp, ↓reduceIte, BitVec.reduceEq, and_false, false_and, and_self, not_true_eq_false, and_true, true_and, wf6_3, wn6_8_4, wn6_8_5, wf3_6, wn3_11_50, wn3_11_51, wn3_11_56, wn3_11_57, wf0_1, wf19_5, wf14_5, wf9_5, wb2, wb1])

theorem RoundTrip.frefRsq (o : R3) : RoundTrip.Statement (.frefRsq o) := by
  obtain ⟨q, d, a, b, ta, tb⟩ := o
  generalize hW' : encode0 (.frefRsq ⟨q, d, a, b, ta, tb⟩) = W
  have hW : W = q.code ++ 0xb#6 ++ d ++ a ++ b ++ 0x3b#6 ++ bit ta ++ bit tb ++ 0x0#1 := hW'.symm
  have wf6_3 : W.extractLsb' 6 3 = 7#3 := by rw [hW]; simp (disch := decide) only [ex_hi, ex_lo, ex_all, Nat.reduceSub]; rfl
  have wn6_8_4 : ¬ W.extractLsb' 6 8 = 4#8 := slice_ne (t := 0) wf6_3 (by decide) (by decide)
  have wn6_8_5 : ¬ W.extractLsb' 6 8 = 5#8 := slice_ne (t := 0) wf6_3 (by decide) (by decide)
  have wf3_6 : W.extractLsb' 3 6 = 0x3b#6 := by rw [hW]; simp (disch := decide) only [ex_hi, ex_lo, ex_all, Nat.reduceSub]
  have wn3_11_50 : ¬ W.extractLsb' 3 11 = 50#11 := slice_ne (t := 0) wf3_6 (by decide) (by decide)
  have wn3_11_51 : ¬ W.extractLsb' 3 11 = 51#11 := slice_ne (t := 0) wf3_6 (by decide) (by decide)
  have wn3_11_56 : ¬ W.extractLsb' 3 11 = 56#11 := slice_ne (t := 0) wf3_6 (by decide) (by decide)
  have wn3_11_57 : ¬ W.extractLsb' 3 11 = 57#11 := slice_ne (t := 0) wf3_6 (by decide) (by decide)
  have wf0_1 : W.extractLsb' 0 1 = 0x0#1 := by rw [hW]; simp (disch := decide) only [ex_hi, ex_lo, ex_all, Nat.reduceSub]
  have wf19_5 : W.extractLsb' 19 5 = d := by rw [hW]; simp (disch := decide) only [ex_hi, ex_lo, ex_all, Nat.reduceSub]
  have wf14_5 : W.extractLsb' 14 5 = a := by rw [hW]; simp (disch := decide) only [ex_hi, ex_lo, ex_all, Nat.reduceSub]
  have wf9_5 : W.extractLsb' 9 5 = b := by rw [hW]; simp (disch := decide) only [ex_hi, ex_lo, ex_all, Nat.reduceSub]
  have wb2 : W.getLsbD 2 = ta := by rw [hW]; simp (disch := decide) only [gl_hi, gl_lo, bit_get, Nat.reduceSub]
  have wb1 : W.getLsbD 1 = tb := by rw [hW]; simp (disch := decide) only [gl_hi, gl_lo, bit_get, Nat.reduceSub]
  have wf24_6 : W.extractLsb' 24 6 = 0xb#6 := by rw [hW]; simp (disch := decide) only [ex_hi, ex_lo, ex_all, Nat.reduceSub]
  have wf30_2 : W.extractLsb' 30 2 = q.code := by rw [hW]; simp (disch := decide) only [ex_hi, ex_lo, ex_all, Nat.reduceSub]
  exact roundTrip_one hW' rfl rfl wf24_6 rfl wf30_2 (by
    rw [decodeOne_0b _ _ wf24_6]
    simp only [decodeFp, ↓reduceIte, BitVec.reduceEq, and_false, false_and, and_self, not_true_eq_false, and_true, true_and, wf6_3, wn6_8_4, wn6_8_5, wf3_6, wn3_11_50, wn3_11_51, wn3_11_56, wn3_11_57, wf0_1, wf19_5, wf14_5, wf9_5, wb2, wb1])

theorem RoundTrip.fclass (o : R2) : RoundTrip.Statement (.fclass o) := by
  obtain ⟨q, d, a, ta⟩ := o
  generalize hW' : encode0 (.fclass ⟨q, d, a, ta⟩) = W
  have hW : W = q.code ++ 0xb#6 ++ d ++ a ++ 0x3c#11 ++ bit ta ++ 0x0#2 := hW'.symm
  have wf6_3 : W.extractLsb' 6 3 = 7#3 := by rw [hW]; simp (disch := decide) only [ex_hi, ex_lo, ex_all, Nat.reduceSub]; rfl
  have wf6_8 : W.extractLsb' 6 8 = 7#8 := by rw [hW]; simp (disch := decide) only [ex_hi, ex_lo, ex_all, Nat.reduceSub]; rfl
  have wf3_6 : W.extractLsb' 3 6 = 60#6 := by rw [hW]; simp (disch := decide) only [ex_hi, ex_lo, ex_all, Nat.reduceSub]; rfl
  have wf3_11 : W.extractLsb' 3 11 = 0x3c#11 := by rw [hW]; simp (disch := decide) only [ex_hi, ex_lo, ex_all, Nat.reduceSub]
  have wf0_2 : W.extractLsb' 0 2 = 0x0#2 := by rw [hW]; simp (disch := decide) only [ex_hi, ex_lo, ex_all, Nat.reduceSub]
  have wf19_5 : W.extractLsb' 19 5 = d := by rw [hW]; simp (disch := decide) only [ex_hi, ex_lo, ex_all, Nat.reduceSub]
  have wf14_5 : W.extractLsb' 14 5 = a := by rw [hW]; simp (disch := decide) only [ex_hi, ex_lo, ex_all, Nat.reduceSub]
  have wb2 : W.getLsbD 2 = ta := by rw [hW]; simp (disch := decide) only [gl_hi, gl_lo, bit_get, Nat.reduceSub]
  have wf24_6 : W.extractLsb' 24 6 = 0xb#6 := by rw [hW]; simp (disch := decide) only [ex_hi, ex_lo, ex_all, Nat.reduceSub]
  have wf30_2 : W.extractLsb' 30 2 = q.code := by rw [hW]; simp (disch := decide) only [ex_hi, ex_lo, ex_all, Nat.reduceSub]
  exact roundTrip_one hW' rfl rfl wf24_6 rfl wf30_2 (by
    rw [decodeOne_0b _ _ wf24_6]
    simp only [decodeFp, ↓reduceIte, BitVec.reduceEq, and_false, false_and, and_self, not_true_eq_false, and_true, true_and, wf6_3, wf6_8, wf3_6, wf3_11, wf0_2, wf19_5, wf14_5, wb2])

theorem RoundTrip.pand (o : P3) : RoundTrip.Statement (.pand o) := by
  obtain ⟨q, d, a, b⟩ := o
  generalize hW' : encode0 (.pand ⟨q, d, a, b⟩) = W
  have hW : W = q.code ++ 0xc#6 ++ 0x0#2 ++ d ++ 0x0#2 ++ a ++ 0x0#2 ++ b ++ 0x0#9 := hW'.symm
  have wf22_2 : W.extractLsb' 22 2 = 0x0#2 := by rw [hW]; simp (disch := decide) only [ex_hi, ex_lo, ex_all, Nat.reduceSub]
  have wf17_2 : W.extractLsb' 17 2 = 0x0#2 := by rw [hW]; simp (disch := decide) only [ex_hi, ex_lo, ex_all, Nat.reduceSub]
  have wf12_2 : W.extractLsb' 12 2 = 0x0#2 := by rw [hW]; simp (disch := decide) only [ex_hi, ex_lo, ex_all, Nat.reduceSub]
  have wf0_9 : W.extractLsb' 0 9 = 0x0#9 := by rw [hW]; simp (disch := decide) only [ex_hi, ex_lo, ex_all, Nat.reduceSub]
  have wf19_3 : W.extractLsb' 19 3 = d := by rw [hW]; simp (disch := decide) only [ex_hi, ex_lo, ex_all, Nat.reduceSub]
  have wf14_3 : W.extractLsb' 14 3 = a := by rw [hW]; simp (disch := decide) only [ex_hi, ex_lo, ex_all, Nat.reduceSub]
  have wf9_3 : W.extractLsb' 9 3 = b := by rw [hW]; simp (disch := decide) only [ex_hi, ex_lo, ex_all, Nat.reduceSub]
  have wf24_6 : W.extractLsb' 24 6 = 0xc#6 := by rw [hW]; simp (disch := decide) only [ex_hi, ex_lo, ex_all, Nat.reduceSub]
  have wf30_2 : W.extractLsb' 30 2 = q.code := by rw [hW]; simp (disch := decide) only [ex_hi, ex_lo, ex_all, Nat.reduceSub]
  exact roundTrip_one hW' rfl rfl wf24_6 rfl wf30_2 (by
    rw [decodeOne_0c _ _ wf24_6]
    simp only [decodePred, ↓reduceIte, BitVec.reduceEq, and_false, false_and, and_self, not_true_eq_false, and_true, true_and, wf22_2, wf17_2, wf12_2, wf0_9, wf19_3, wf14_3, wf9_3])

theorem RoundTrip.por (o : P3) : RoundTrip.Statement (.por o) := by
  obtain ⟨q, d, a, b⟩ := o
  generalize hW' : encode0 (.por ⟨q, d, a, b⟩) = W
  have hW : W = q.code ++ 0xc#6 ++ 0x0#2 ++ d ++ 0x0#2 ++ a ++ 0x0#2 ++ b ++ 0x8#9 := hW'.symm
  have wf0_9 : W.extractLsb' 0 9 = 0x8#9 := by rw [hW]; simp (disch := decide) only [ex_hi, ex_lo, ex_all, Nat.reduceSub]
  have wf22_2 : W.extractLsb' 22 2 = 0x0#2 := by rw [hW]; simp (disch := decide) only [ex_hi, ex_lo, ex_all, Nat.reduceSub]
  have wf17_2 : W.extractLsb' 17 2 = 0x0#2 := by rw [hW]; simp (disch := decide) only [ex_hi, ex_lo, ex_all, Nat.reduceSub]
  have wf12_2 : W.extractLsb' 12 2 = 0x0#2 := by rw [hW]; simp (disch := decide) only [ex_hi, ex_lo, ex_all, Nat.reduceSub]
  have wf19_3 : W.extractLsb' 19 3 = d := by rw [hW]; simp (disch := decide) only [ex_hi, ex_lo, ex_all, Nat.reduceSub]
  have wf14_3 : W.extractLsb' 14 3 = a := by rw [hW]; simp (disch := decide) only [ex_hi, ex_lo, ex_all, Nat.reduceSub]
  have wf9_3 : W.extractLsb' 9 3 = b := by rw [hW]; simp (disch := decide) only [ex_hi, ex_lo, ex_all, Nat.reduceSub]
  have wf24_6 : W.extractLsb' 24 6 = 0xc#6 := by rw [hW]; simp (disch := decide) only [ex_hi, ex_lo, ex_all, Nat.reduceSub]
  have wf30_2 : W.extractLsb' 30 2 = q.code := by rw [hW]; simp (disch := decide) only [ex_hi, ex_lo, ex_all, Nat.reduceSub]
  exact roundTrip_one hW' rfl rfl wf24_6 rfl wf30_2 (by
    rw [decodeOne_0c _ _ wf24_6]
    simp only [decodePred, ↓reduceIte, BitVec.reduceEq, and_false, false_and, and_self, not_true_eq_false, and_true, true_and, wf0_9, wf22_2, wf17_2, wf12_2, wf19_3, wf14_3, wf9_3])

theorem RoundTrip.pxor (o : P3) : RoundTrip.Statement (.pxor o) := by
  obtain ⟨q, d, a, b⟩ := o
  generalize hW' : encode0 (.pxor ⟨q, d, a, b⟩) = W
  have hW : W = q.code ++ 0xc#6 ++ 0x0#2 ++ d ++ 0x0#2 ++ a ++ 0x0#2 ++ b ++ 0x10#9 := hW'.symm
  have wf0_9 : W.extractLsb' 0 9 = 0x10#9 := by rw [hW]; simp (disch := decide) only [ex_hi, ex_lo, ex_all, Nat.reduceSub]
  have wf22_2 : W.extractLsb' 22 2 = 0x0#2 := by rw [hW]; simp (disch := decide) only [ex_hi, ex_lo, ex_all, Nat.reduceSub]
  have wf17_2 : W.extractLsb' 17 2 = 0x0#2 := by rw [hW]; simp (disch := decide) only [ex_hi, ex_lo, ex_all, Nat.reduceSub]
  have wf12_2 : W.extractLsb' 12 2 = 0x0#2 := by rw [hW]; simp (disch := decide) only [ex_hi, ex_lo, ex_all, Nat.reduceSub]
  have wf19_3 : W.extractLsb' 19 3 = d := by rw [hW]; simp (disch := decide) only [ex_hi, ex_lo, ex_all, Nat.reduceSub]
  have wf14_3 : W.extractLsb' 14 3 = a := by rw [hW]; simp (disch := decide) only [ex_hi, ex_lo, ex_all, Nat.reduceSub]
  have wf9_3 : W.extractLsb' 9 3 = b := by rw [hW]; simp (disch := decide) only [ex_hi, ex_lo, ex_all, Nat.reduceSub]
  have wf24_6 : W.extractLsb' 24 6 = 0xc#6 := by rw [hW]; simp (disch := decide) only [ex_hi, ex_lo, ex_all, Nat.reduceSub]
  have wf30_2 : W.extractLsb' 30 2 = q.code := by rw [hW]; simp (disch := decide) only [ex_hi, ex_lo, ex_all, Nat.reduceSub]
  exact roundTrip_one hW' rfl rfl wf24_6 rfl wf30_2 (by
    rw [decodeOne_0c _ _ wf24_6]
    simp only [decodePred, ↓reduceIte, BitVec.reduceEq, and_false, false_and, and_self, not_true_eq_false, and_true, true_and, wf0_9, wf22_2, wf17_2, wf12_2, wf19_3, wf14_3, wf9_3])

theorem RoundTrip.pandn (o : P3) : RoundTrip.Statement (.pandn o) := by
  obtain ⟨q, d, a, b⟩ := o
  generalize hW' : encode0 (.pandn ⟨q, d, a, b⟩) = W
  have hW : W = q.code ++ 0xc#6 ++ 0x0#2 ++ d ++ 0x0#2 ++ a ++ 0x0#2 ++ b ++ 0x18#9 := hW'.symm
  have wf0_9 : W.extractLsb' 0 9 = 0x18#9 := by rw [hW]; simp (disch := decide) only [ex_hi, ex_lo, ex_all, Nat.reduceSub]
  have wf22_2 : W.extractLsb' 22 2 = 0x0#2 := by rw [hW]; simp (disch := decide) only [ex_hi, ex_lo, ex_all, Nat.reduceSub]
  have wf17_2 : W.extractLsb' 17 2 = 0x0#2 := by rw [hW]; simp (disch := decide) only [ex_hi, ex_lo, ex_all, Nat.reduceSub]
  have wf12_2 : W.extractLsb' 12 2 = 0x0#2 := by rw [hW]; simp (disch := decide) only [ex_hi, ex_lo, ex_all, Nat.reduceSub]
  have wf19_3 : W.extractLsb' 19 3 = d := by rw [hW]; simp (disch := decide) only [ex_hi, ex_lo, ex_all, Nat.reduceSub]
  have wf14_3 : W.extractLsb' 14 3 = a := by rw [hW]; simp (disch := decide) only [ex_hi, ex_lo, ex_all, Nat.reduceSub]
  have wf9_3 : W.extractLsb' 9 3 = b := by rw [hW]; simp (disch := decide) only [ex_hi, ex_lo, ex_all, Nat.reduceSub]
  have wf24_6 : W.extractLsb' 24 6 = 0xc#6 := by rw [hW]; simp (disch := decide) only [ex_hi, ex_lo, ex_all, Nat.reduceSub]
  have wf30_2 : W.extractLsb' 30 2 = q.code := by rw [hW]; simp (disch := decide) only [ex_hi, ex_lo, ex_all, Nat.reduceSub]
  exact roundTrip_one hW' rfl rfl wf24_6 rfl wf30_2 (by
    rw [decodeOne_0c _ _ wf24_6]
    simp only [decodePred, ↓reduceIte, BitVec.reduceEq, and_false, false_and, and_self, not_true_eq_false, and_true, true_and, wf0_9, wf22_2, wf17_2, wf12_2, wf19_3, wf14_3, wf9_3])

theorem RoundTrip.pnot (o : P2) : RoundTrip.Statement (.pnot o) := by
  obtain ⟨q, d, a⟩ := o
  generalize hW' : encode0 (.pnot ⟨q, d, a⟩) = W
  have hW : W = q.code ++ 0xc#6 ++ 0x0#2 ++ d ++ 0x0#2 ++ a ++ 0x20#14 := hW'.symm
  have wf0_9 : W.extractLsb' 0 9 = 32#9 := by rw [hW]; simp (disch := decide) only [ex_hi, ex_lo, ex_all, Nat.reduceSub]; rfl
  have wf22_2 : W.extractLsb' 22 2 = 0x0#2 := by rw [hW]; simp (disch := decide) only [ex_hi, ex_lo, ex_all, Nat.reduceSub]
  have wf17_2 : W.extractLsb' 17 2 = 0x0#2 := by rw [hW]; simp (disch := decide) only [ex_hi, ex_lo, ex_all, Nat.reduceSub]
  have wf0_14 : W.extractLsb' 0 14 = 0x20#14 := by rw [hW]; simp (disch := decide) only [ex_hi, ex_lo, ex_all, Nat.reduceSub]
  have wf19_3 : W.extractLsb' 19 3 = d := by rw [hW]; simp (disch := decide) only [ex_hi, ex_lo, ex_all, Nat.reduceSub]
  have wf14_3 : W.extractLsb' 14 3 = a := by rw [hW]; simp (disch := decide) only [ex_hi, ex_lo, ex_all, Nat.reduceSub]
  have wf24_6 : W.extractLsb' 24 6 = 0xc#6 := by rw [hW]; simp (disch := decide) only [ex_hi, ex_lo, ex_all, Nat.reduceSub]
  have wf30_2 : W.extractLsb' 30 2 = q.code := by rw [hW]; simp (disch := decide) only [ex_hi, ex_lo, ex_all, Nat.reduceSub]
  exact roundTrip_one hW' rfl rfl wf24_6 rfl wf30_2 (by
    rw [decodeOne_0c _ _ wf24_6]
    simp only [decodePred, ↓reduceIte, BitVec.reduceEq, and_false, false_and, and_self, not_true_eq_false, and_true, true_and, wf0_9, wf22_2, wf17_2, wf0_14, wf19_3, wf14_3])

theorem RoundTrip.pmov (o : P2) : RoundTrip.Statement (.pmov o) := by
  obtain ⟨q, d, a⟩ := o
  generalize hW' : encode0 (.pmov ⟨q, d, a⟩) = W
  have hW : W = q.code ++ 0xc#6 ++ 0x0#2 ++ d ++ 0x0#2 ++ a ++ 0x28#14 := hW'.symm
  have wf0_9 : W.extractLsb' 0 9 = 40#9 := by rw [hW]; simp (disch := decide) only [ex_hi, ex_lo, ex_all, Nat.reduceSub]; rfl
  have wf0_14 : W.extractLsb' 0 14 = 0x28#14 := by rw [hW]; simp (disch := decide) only [ex_hi, ex_lo, ex_all, Nat.reduceSub]
  have wf22_2 : W.extractLsb' 22 2 = 0x0#2 := by rw [hW]; simp (disch := decide) only [ex_hi, ex_lo, ex_all, Nat.reduceSub]
  have wf17_2 : W.extractLsb' 17 2 = 0x0#2 := by rw [hW]; simp (disch := decide) only [ex_hi, ex_lo, ex_all, Nat.reduceSub]
  have wf19_3 : W.extractLsb' 19 3 = d := by rw [hW]; simp (disch := decide) only [ex_hi, ex_lo, ex_all, Nat.reduceSub]
  have wf14_3 : W.extractLsb' 14 3 = a := by rw [hW]; simp (disch := decide) only [ex_hi, ex_lo, ex_all, Nat.reduceSub]
  have wf24_6 : W.extractLsb' 24 6 = 0xc#6 := by rw [hW]; simp (disch := decide) only [ex_hi, ex_lo, ex_all, Nat.reduceSub]
  have wf30_2 : W.extractLsb' 30 2 = q.code := by rw [hW]; simp (disch := decide) only [ex_hi, ex_lo, ex_all, Nat.reduceSub]
  exact roundTrip_one hW' rfl rfl wf24_6 rfl wf30_2 (by
    rw [decodeOne_0c _ _ wf24_6]
    simp only [decodePred, ↓reduceIte, BitVec.reduceEq, and_false, false_and, and_self, not_true_eq_false, and_true, true_and, wf0_9, wf0_14, wf22_2, wf17_2, wf19_3, wf14_3])

theorem RoundTrip.gtop (o : GP) : RoundTrip.Statement (.gtop o) := by
  obtain ⟨q, d, a, ta⟩ := o
  generalize hW' : encode0 (.gtop ⟨q, d, a, ta⟩) = W
  have hW : W = q.code ++ 0xc#6 ++ 0x0#2 ++ d ++ a ++ 0x6#11 ++ bit ta ++ 0x0#2 := hW'.symm
  have wf3_6 : W.extractLsb' 3 6 = 6#6 := by rw [hW]; simp (disch := decide) only [ex_hi, ex_lo, ex_all, Nat.reduceSub]; rfl
  have wn0_9_0 : ¬ W.extractLsb' 0 9 = 0#9 := slice_ne (t := 3) wf3_6 (by decide) (by decide)
  have wn0_9_8 : ¬ W.extractLsb' 0 9 = 8#9 := slice_ne (t := 3) wf3_6 (by decide) (by decide)
  have wn0_9_16 : ¬ W.extractLsb' 0 9 = 16#9 := slice_ne (t := 3) wf3_6 (by decide) (by decide)
  have wn0_9_24 : ¬ W.extractLsb' 0 9 = 24#9 := slice_ne (t := 3) wf3_6 (by decide) (by decide)
  have wf3_11 : W.extractLsb' 3 11 = 0x6#11 := by rw [hW]; simp (disch := decide) only [ex_hi, ex_lo, ex_all, Nat.reduceSub]
  have wn0_14_32 : ¬ W.extractLsb' 0 14 = 32#14 := slice_ne (t := 3) wf3_11 (by decide) (by decide)
  have wn0_14_40 : ¬ W.extractLsb' 0 14 = 40#14 := slice_ne (t := 3) wf3_11 (by decide) (by decide)
  have wf22_2 : W.extractLsb' 22 2 = 0x0#2 := by rw [hW]; simp (disch := decide) only [ex_hi, ex_lo, ex_all, Nat.reduceSub]
  have wf0_2 : W.extractLsb' 0 2 = 0x0#2 := by rw [hW]; simp (disch := decide) only [ex_hi, ex_lo, ex_all, Nat.reduceSub]
  have wf19_3 : W.extractLsb' 19 3 = d := by rw [hW]; simp (disch := decide) only [ex_hi, ex_lo, ex_all, Nat.reduceSub]
  have wf14_5 : W.extractLsb' 14 5 = a := by rw [hW]; simp (disch := decide) only [ex_hi, ex_lo, ex_all, Nat.reduceSub]
  have wb2 : W.getLsbD 2 = ta := by rw [hW]; simp (disch := decide) only [gl_hi, gl_lo, bit_get, Nat.reduceSub]
  have wf24_6 : W.extractLsb' 24 6 = 0xc#6 := by rw [hW]; simp (disch := decide) only [ex_hi, ex_lo, ex_all, Nat.reduceSub]
  have wf30_2 : W.extractLsb' 30 2 = q.code := by rw [hW]; simp (disch := decide) only [ex_hi, ex_lo, ex_all, Nat.reduceSub]
  exact roundTrip_one hW' rfl rfl wf24_6 rfl wf30_2 (by
    rw [decodeOne_0c _ _ wf24_6]
    simp only [decodePred, ↓reduceIte, BitVec.reduceEq, and_false, false_and, and_self, not_true_eq_false, and_true, true_and, wn0_9_0, wn0_9_8, wn0_9_16, wn0_9_24, wn0_14_32, wn0_14_40, wf22_2, wf3_11, wf0_2, wf19_3, wf14_5, wb2])

theorem RoundTrip.ptog (o : PG) : RoundTrip.Statement (.ptog o) := by
  obtain ⟨q, d, a⟩ := o
  generalize hW' : encode0 (.ptog ⟨q, d, a⟩) = W
  have hW : W = q.code ++ 0xc#6 ++ d ++ 0x0#2 ++ a ++ 0x38#14 := hW'.symm
  have wf0_9 : W.extractLsb' 0 9 = 56#9 := by rw [hW]; simp (disch := decide) only [ex_hi, ex_lo, ex_all, Nat.reduceSub]; rfl
  have wf0_14 : W.extractLsb' 0 14 = 0x38#14 := by rw [hW]; simp (disch := decide) only [ex_hi, ex_lo, ex_all, Nat.reduceSub]
  have wf3_11 : W.extractLsb' 3 11 = 7#11 := by rw [hW]; simp (disch := decide) only [ex_hi, ex_lo, ex_all, Nat.reduceSub]; rfl
  have wf17_2 : W.extractLsb' 17 2 = 0x0#2 := by rw [hW]; simp (disch := decide) only [ex_hi, ex_lo, ex_all, Nat.reduceSub]
  have wf19_5 : W.extractLsb' 19 5 = d := by rw [hW]; simp (disch := decide) only [ex_hi, ex_lo, ex_all, Nat.reduceSub]
  have wf14_3 : W.extractLsb' 14 3 = a := by rw [hW]; simp (disch := decide) only [ex_hi, ex_lo, ex_all, Nat.reduceSub]
  have wf24_6 : W.extractLsb' 24 6 = 0xc#6 := by rw [hW]; simp (disch := decide) only [ex_hi, ex_lo, ex_all, Nat.reduceSub]
  have wf30_2 : W.extractLsb' 30 2 = q.code := by rw [hW]; simp (disch := decide) only [ex_hi, ex_lo, ex_all, Nat.reduceSub]
  exact roundTrip_one hW' rfl rfl wf24_6 rfl wf30_2 (by
    rw [decodeOne_0c _ _ wf24_6]
    simp only [decodePred, ↓reduceIte, BitVec.reduceEq, and_false, false_and, and_self, not_true_eq_false, and_true, true_and, wf0_9, wf0_14, wf3_11, wf17_2, wf19_5, wf14_3])

theorem RoundTrip.sel (o : R3) : RoundTrip.Statement (.sel o) := by
  obtain ⟨q, d, a, b, ta, tb⟩ := o
  generalize hW' : encode0 (.sel ⟨q, d, a, b, ta, tb⟩) = W
  have hW : W = q.code ++ 0xc#6 ++ d ++ a ++ b ++ 0x8#6 ++ bit ta ++ bit tb ++ 0x0#1 := hW'.symm
  have wf3_6 : W.extractLsb' 3 6 = 0x8#6 := by rw [hW]; simp (disch := decide) only [ex_hi, ex_lo, ex_all, Nat.reduceSub]
  have wn0_9_0 : ¬ W.extractLsb' 0 9 = 0#9 := slice_ne (t := 3) wf3_6 (by decide) (by decide)
  have wn0_9_8 : ¬ W.extractLsb' 0 9 = 8#9 := slice_ne (t := 3) wf3_6 (by decide) (by decide)
  have wn0_9_16 : ¬ W.extractLsb' 0 9 = 16#9 := slice_ne (t := 3) wf3_6 (by decide) (by decide)
  have wn0_9_24 : ¬ W.extractLsb' 0 9 = 24#9 := slice_ne (t := 3) wf3_6 (by decide) (by decide)
  have wn0_14_32 : ¬ W.extractLsb' 0 14 = 32#14 := slice_ne (t := 3) wf3_6 (by decide) (by decide)
  have wn0_14_40 : ¬ W.extractLsb' 0 14 = 40#14 := slice_ne (t := 3) wf3_6 (by decide) (by decide)
  have wn3_11_6 : ¬ W.extractLsb' 3 11 = 6#11 := slice_ne (t := 0) wf3_6 (by decide) (by decide)
  have wn0_14_56 : ¬ W.extractLsb' 0 14 = 56#14 := slice_ne (t := 3) wf3_6 (by decide) (by decide)
  have wf0_1 : W.extractLsb' 0 1 = 0x0#1 := by rw [hW]; simp (disch := decide) only [ex_hi, ex_lo, ex_all, Nat.reduceSub]
  have wf19_5 : W.extractLsb' 19 5 = d := by rw [hW]; simp (disch := decide) only [ex_hi, ex_lo, ex_all, Nat.reduceSub]
  have wf14_5 : W.extractLsb' 14 5 = a := by rw [hW]; simp (disch := decide) only [ex_hi, ex_lo, ex_all, Nat.reduceSub]
  have wf9_5 : W.extractLsb' 9 5 = b := by rw [hW]; simp (disch := decide) only [ex_hi, ex_lo, ex_all, Nat.reduceSub]
  have wb2 : W.getLsbD 2 = ta := by rw [hW]; simp (disch := decide) only [gl_hi, gl_lo, bit_get, Nat.reduceSub]
  have wb1 : W.getLsbD 1 = tb := by rw [hW]; simp (disch := decide) only [gl_hi, gl_lo, bit_get, Nat.reduceSub]
  have wf24_6 : W.extractLsb' 24 6 = 0xc#6 := by rw [hW]; simp (disch := decide) only [ex_hi, ex_lo, ex_all, Nat.reduceSub]
  have wf30_2 : W.extractLsb' 30 2 = q.code := by rw [hW]; simp (disch := decide) only [ex_hi, ex_lo, ex_all, Nat.reduceSub]
  exact roundTrip_one hW' rfl rfl wf24_6 rfl wf30_2 (by
    rw [decodeOne_0c _ _ wf24_6]
    simp only [decodePred, ↓reduceIte, BitVec.reduceEq, and_false, false_and, and_self, not_true_eq_false, and_true, true_and, wn0_9_0, wn0_9_8, wn0_9_16, wn0_9_24, wn0_14_32, wn0_14_40, wn3_11_6, wn0_14_56, wf3_6, wf0_1, wf19_5, wf14_5, wf9_5, wb2, wb1])

theorem RoundTrip.loop (o : LoopI) : RoundTrip.Statement (.loop o) := by
  obtain ⟨q, cnt, len⟩ := o
  generalize hW' : encode0 (.loop ⟨q, cnt, len⟩) = W
  have hW : W = q.code ++ 0xd#6 ++ 0#15 ++ 0x0#9 := hW'.symm
  have wf0_9 : W.extractLsb' 0 9 = 0x0#9 := by rw [hW]; simp (disch := decide) only [ex_hi, ex_lo, ex_all, Nat.reduceSub]
  have wf9_15 : W.extractLsb' 9 15 = 0#15 := by rw [hW]; simp (disch := decide) only [ex_hi, ex_lo, ex_all, Nat.reduceSub]
  have wf24_6 : W.extractLsb' 24 6 = 0xd#6 := by rw [hW]; simp (disch := decide) only [ex_hi, ex_lo, ex_all, Nat.reduceSub]
  have wf30_2 : W.extractLsb' 30 2 = q.code := by rw [hW]; simp (disch := decide) only [ex_hi, ex_lo, ex_all, Nat.reduceSub]
  generalize hX' : (encodeExt (.loop ⟨q, cnt, len⟩)).getD 0 = X
  have hX : X = cnt ++ len := hX'.symm
  have xf16_16 : X.extractLsb' 16 16 = cnt := by rw [hX]; simp (disch := decide) only [ex_hi, ex_lo, ex_all, Nat.reduceSub]
  have xf0_16 : X.extractLsb' 0 16 = len := by rw [hX]; simp (disch := decide) only [ex_hi, ex_lo, ex_all, Nat.reduceSub]
  exact roundTrip_two hW' hX' rfl rfl wf24_6 rfl (fun h => nomatch h) wf30_2 (by
    rw [decodeTwo_0d _ _ _ wf24_6]
    simp only [decodeFlow, ↓reduceIte, BitVec.reduceEq, and_false, false_and, and_self, not_true_eq_false, and_true, true_and, wf0_9, wf9_15, xf16_16, xf0_16])

theorem RoundTrip.loopReg (o : LoopR) : RoundTrip.Statement (.loopReg o) := by
  obtain ⟨q, a, ta, len⟩ := o
  generalize hW' : encode0 (.loopReg ⟨q, a, ta, len⟩) = W
  have hW : W = q.code ++ 0xd#6 ++ 0#5 ++ a ++ 0#5 ++ 0x1#9 := hW'.symm
  have wf0_9 : W.extractLsb' 0 9 = 0x1#9 := by rw [hW]; simp (disch := decide) only [ex_hi, ex_lo, ex_all, Nat.reduceSub]
  have wf19_5 : W.extractLsb' 19 5 = 0#5 := by rw [hW]; simp (disch := decide) only [ex_hi, ex_lo, ex_all, Nat.reduceSub]
  have wf9_5 : W.extractLsb' 9 5 = 0#5 := by rw [hW]; simp (disch := decide) only [ex_hi, ex_lo, ex_all, Nat.reduceSub]
  have wf14_5 : W.extractLsb' 14 5 = a := by rw [hW]; simp (disch := decide) only [ex_hi, ex_lo, ex_all, Nat.reduceSub]
  have wf24_6 : W.extractLsb' 24 6 = 0xd#6 := by rw [hW]; simp (disch := decide) only [ex_hi, ex_lo, ex_all, Nat.reduceSub]
  have wf30_2 : W.extractLsb' 30 2 = q.code := by rw [hW]; simp (disch := decide) only [ex_hi, ex_lo, ex_all, Nat.reduceSub]
  generalize hX' : (encodeExt (.loopReg ⟨q, a, ta, len⟩)).getD 0 = X
  have hX : X = bit ta ++ 0#15 ++ len := hX'.symm
  have xf16_15 : X.extractLsb' 16 15 = 0#15 := by rw [hX]; simp (disch := decide) only [ex_hi, ex_lo, ex_all, Nat.reduceSub]
  have xb31 : X.getLsbD 31 = ta := by rw [hX]; simp (disch := decide) only [gl_hi, gl_lo, bit_get, Nat.reduceSub]
  have xf0_16 : X.extractLsb' 0 16 = len := by rw [hX]; simp (disch := decide) only [ex_hi, ex_lo, ex_all, Nat.reduceSub]
  exact roundTrip_two hW' hX' rfl rfl wf24_6 rfl (fun h => nomatch h) wf30_2 (by
    rw [decodeTwo_0d _ _ _ wf24_6]
    simp only [decodeFlow, ↓reduceIte, BitVec.reduceEq, and_false, false_and, and_self, not_true_eq_false, and_true, true_and, wf0_9, wf19_5, wf9_5, xf16_15, wf14_5, xb31, xf0_16])

theorem RoundTrip.rpt (o : RptI) : RoundTrip.Statement (.rpt o) := by
  obtain ⟨q, cnt, f⟩ := o
  generalize hW' : encode0 (.rpt ⟨q, cnt, f⟩) = W
  have hW : W = q.code ++ 0xd#6 ++ 0#15 ++ 0x2#9 := hW'.symm
  have wf0_9 : W.extractLsb' 0 9 = 0x2#9 := by rw [hW]; simp (disch := decide) only [ex_hi, ex_lo, ex_all, Nat.reduceSub]
  have wf9_15 : W.extractLsb' 9 15 = 0#15 := by rw [hW]; simp (disch := decide) only [ex_hi, ex_lo, ex_all, Nat.reduceSub]
  have wf24_6 : W.extractLsb' 24 6 = 0xd#6 := by rw [hW]; simp (disch := decide) only [ex_hi, ex_lo, ex_all, Nat.reduceSub]
  have wf30_2 : W.extractLsb' 30 2 = q.code := by rw [hW]; simp (disch := decide) only [ex_hi, ex_lo, ex_all, Nat.reduceSub]
  generalize hX' : (encodeExt (.rpt ⟨q, cnt, f⟩)).getD 0 = X
  have hX : X = cnt ++ 0#11 ++ f := hX'.symm
  have xf5_11 : X.extractLsb' 5 11 = 0#11 := by rw [hX]; simp (disch := decide) only [ex_hi, ex_lo, ex_all, Nat.reduceSub]
  have xf16_16 : X.extractLsb' 16 16 = cnt := by rw [hX]; simp (disch := decide) only [ex_hi, ex_lo, ex_all, Nat.reduceSub]
  have xf0_5 : X.extractLsb' 0 5 = f := by rw [hX]; simp (disch := decide) only [ex_hi, ex_lo, ex_all, Nat.reduceSub]
  exact roundTrip_two hW' hX' rfl rfl wf24_6 rfl (fun h => nomatch h) wf30_2 (by
    rw [decodeTwo_0d _ _ _ wf24_6]
    simp only [decodeFlow, ↓reduceIte, BitVec.reduceEq, and_false, false_and, and_self, not_true_eq_false, and_true, true_and, wf0_9, wf9_15, xf5_11, xf16_16, xf0_5])

theorem RoundTrip.rptReg (o : RptR) : RoundTrip.Statement (.rptReg o) := by
  obtain ⟨q, a, ta, f⟩ := o
  generalize hW' : encode0 (.rptReg ⟨q, a, ta, f⟩) = W
  have hW : W = q.code ++ 0xd#6 ++ 0#5 ++ a ++ 0#5 ++ 0x3#9 := hW'.symm
  have wf0_9 : W.extractLsb' 0 9 = 0x3#9 := by rw [hW]; simp (disch := decide) only [ex_hi, ex_lo, ex_all, Nat.reduceSub]
  have wf19_5 : W.extractLsb' 19 5 = 0#5 := by rw [hW]; simp (disch := decide) only [ex_hi, ex_lo, ex_all, Nat.reduceSub]
  have wf9_5 : W.extractLsb' 9 5 = 0#5 := by rw [hW]; simp (disch := decide) only [ex_hi, ex_lo, ex_all, Nat.reduceSub]
  have wf14_5 : W.extractLsb' 14 5 = a := by rw [hW]; simp (disch := decide) only [ex_hi, ex_lo, ex_all, Nat.reduceSub]
  have wf24_6 : W.extractLsb' 24 6 = 0xd#6 := by rw [hW]; simp (disch := decide) only [ex_hi, ex_lo, ex_all, Nat.reduceSub]
  have wf30_2 : W.extractLsb' 30 2 = q.code := by rw [hW]; simp (disch := decide) only [ex_hi, ex_lo, ex_all, Nat.reduceSub]
  generalize hX' : (encodeExt (.rptReg ⟨q, a, ta, f⟩)).getD 0 = X
  have hX : X = bit ta ++ 0#26 ++ f := hX'.symm
  have xf5_26 : X.extractLsb' 5 26 = 0#26 := by rw [hX]; simp (disch := decide) only [ex_hi, ex_lo, ex_all, Nat.reduceSub]
  have xb31 : X.getLsbD 31 = ta := by rw [hX]; simp (disch := decide) only [gl_hi, gl_lo, bit_get, Nat.reduceSub]
  have xf0_5 : X.extractLsb' 0 5 = f := by rw [hX]; simp (disch := decide) only [ex_hi, ex_lo, ex_all, Nat.reduceSub]
  exact roundTrip_two hW' hX' rfl rfl wf24_6 rfl (fun h => nomatch h) wf30_2 (by
    rw [decodeTwo_0d _ _ _ wf24_6]
    simp only [decodeFlow, ↓reduceIte, BitVec.reduceEq, and_false, false_and, and_self, not_true_eq_false, and_true, true_and, wf0_9, wf19_5, wf9_5, xf5_26, wf14_5, xb31, xf0_5])

theorem RoundTrip.setw (o : SetwI) : RoundTrip.Statement (.setw o) := by
  obtain ⟨q, d, addr⟩ := o
  generalize hW' : encode0 (.setw ⟨q, d, addr⟩) = W
  have hW : W = q.code ++ 0xd#6 ++ 0#2 ++ d ++ 0#10 ++ 0x4#9 := hW'.symm
  have wf0_9 : W.extractLsb' 0 9 = 0x4#9 := by rw [hW]; simp (disch := decide) only [ex_hi, ex_lo, ex_all, Nat.reduceSub]
  have wf22_2 : W.extractLsb' 22 2 = 0#2 := by rw [hW]; simp (disch := decide) only [ex_hi, ex_lo, ex_all, Nat.reduceSub]
  have wf9_10 : W.extractLsb' 9 10 = 0#10 := by rw [hW]; simp (disch := decide) only [ex_hi, ex_lo, ex_all, Nat.reduceSub]
  have wf19_3 : W.extractLsb' 19 3 = d := by rw [hW]; simp (disch := decide) only [ex_hi, ex_lo, ex_all, Nat.reduceSub]
  have wf24_6 : W.extractLsb' 24 6 = 0xd#6 := by rw [hW]; simp (disch := decide) only [ex_hi, ex_lo, ex_all, Nat.reduceSub]
  have wf30_2 : W.extractLsb' 30 2 = q.code := by rw [hW]; simp (disch := decide) only [ex_hi, ex_lo, ex_all, Nat.reduceSub]
  generalize hX' : (encodeExt (.setw ⟨q, d, addr⟩)).getD 0 = X
  have hX : X = addr := hX'.symm
  have xf0_32 : X.extractLsb' 0 32 = addr := by rw [hX]; simp (disch := decide) only [ex_hi, ex_lo, ex_all, Nat.reduceSub]
  exact roundTrip_two hW' hX' rfl rfl wf24_6 rfl (fun h => nomatch h) wf30_2 (by
    rw [decodeTwo_0d _ _ _ wf24_6]
    simp only [decodeFlow, ↓reduceIte, BitVec.reduceEq, and_false, false_and, and_self, not_true_eq_false, and_true, true_and, wf0_9, wf22_2, wf9_10, wf19_3, xf0_32])

theorem RoundTrip.setwReg (o : SetwR) : RoundTrip.Statement (.setwReg o) := by
  obtain ⟨q, d, a, ta⟩ := o
  generalize hW' : encode0 (.setwReg ⟨q, d, a, ta⟩) = W
  have hW : W = q.code ++ 0xd#6 ++ 0#2 ++ d ++ a ++ 0#5 ++ 0x5#9 := hW'.symm
  have wf0_9 : W.extractLsb' 0 9 = 0x5#9 := by rw [hW]; simp (disch := decide) only [ex_hi, ex_lo, ex_all, Nat.reduceSub]
  have wf22_2 : W.extractLsb' 22 2 = 0#2 := by rw [hW]; simp (disch := decide) only [ex_hi, ex_lo, ex_all, Nat.reduceSub]
  have wf9_5 : W.extractLsb' 9 5 = 0#5 := by rw [hW]; simp (disch := decide) only [ex_hi, ex_lo, ex_all, Nat.reduceSub]
  have wf19_3 : W.extractLsb' 19 3 = d := by rw [hW]; simp (disch := decide) only [ex_hi, ex_lo, ex_all, Nat.reduceSub]
  have wf14_5 : W.extractLsb' 14 5 = a := by rw [hW]; simp (disch := decide) only [ex_hi, ex_lo, ex_all, Nat.reduceSub]
  have wf24_6 : W.extractLsb' 24 6 = 0xd#6 := by rw [hW]; simp (disch := decide) only [ex_hi, ex_lo, ex_all, Nat.reduceSub]
  have wf30_2 : W.extractLsb' 30 2 = q.code := by rw [hW]; simp (disch := decide) only [ex_hi, ex_lo, ex_all, Nat.reduceSub]
  generalize hX' : (encodeExt (.setwReg ⟨q, d, a, ta⟩)).getD 0 = X
  have hX : X = bit ta ++ 0#31 := hX'.symm
  have xf0_31 : X.extractLsb' 0 31 = 0#31 := by rw [hX]; simp (disch := decide) only [ex_hi, ex_lo, ex_all, Nat.reduceSub]
  have xb31 : X.getLsbD 31 = ta := by rw [hX]; simp (disch := decide) only [gl_hi, gl_lo, bit_get, Nat.reduceSub]
  exact roundTrip_two hW' hX' rfl rfl wf24_6 rfl (fun h => nomatch h) wf30_2 (by
    rw [decodeTwo_0d _ _ _ wf24_6]
    simp only [decodeFlow, ↓reduceIte, BitVec.reduceEq, and_false, false_and, and_self, not_true_eq_false, and_true, true_and, wf0_9, wf22_2, wf9_5, xf0_31, wf19_3, wf14_5, xb31])

theorem RoundTrip.getw (o : GetwO) : RoundTrip.Statement (.getw o) := by
  obtain ⟨q, d, a⟩ := o
  generalize hW' : encode0 (.getw ⟨q, d, a⟩) = W
  have hW : W = q.code ++ 0xd#6 ++ d ++ 0#2 ++ a ++ 0#5 ++ 0x6#9 := hW'.symm
  have wf0_9 : W.extractLsb' 0 9 = 0x6#9 := by rw [hW]; simp (disch := decide) only [ex_hi, ex_lo, ex_all, Nat.reduceSub]
  have wf17_2 : W.extractLsb' 17 2 = 0#2 := by rw [hW]; simp (disch := decide) only [ex_hi, ex_lo, ex_all, Nat.reduceSub]
  have wf9_5 : W.extractLsb' 9 5 = 0#5 := by rw [hW]; simp (disch := decide) only [ex_hi, ex_lo, ex_all, Nat.reduceSub]
  have wf19_5 : W.extractLsb' 19 5 = d := by rw [hW]; simp (disch := decide) only [ex_hi, ex_lo, ex_all, Nat.reduceSub]
  have wf14_3 : W.extractLsb' 14 3 = a := by rw [hW]; simp (disch := decide) only [ex_hi, ex_lo, ex_all, Nat.reduceSub]
  have wf24_6 : W.extractLsb' 24 6 = 0xd#6 := by rw [hW]; simp (disch := decide) only [ex_hi, ex_lo, ex_all, Nat.reduceSub]
  have wf30_2 : W.extractLsb' 30 2 = q.code := by rw [hW]; simp (disch := decide) only [ex_hi, ex_lo, ex_all, Nat.reduceSub]
  generalize hX' : (encodeExt (.getw ⟨q, d, a⟩)).getD 0 = X
  have hX : X = 0#32 := hX'.symm
  have xf0_32 : X.extractLsb' 0 32 = 0#32 := by rw [hX]; simp (disch := decide) only [ex_hi, ex_lo, ex_all, Nat.reduceSub]
  exact roundTrip_two hW' hX' rfl rfl wf24_6 rfl (fun h => nomatch h) wf30_2 (by
    rw [decodeTwo_0d _ _ _ wf24_6]
    simp only [decodeFlow, ↓reduceIte, BitVec.reduceEq, and_false, false_and, and_self, not_true_eq_false, and_true, true_and, wf0_9, wf17_2, wf9_5, xf0_32, wf19_5, wf14_3])

theorem RoundTrip.yield (o : XQ) : RoundTrip.Statement (.yield o) := by
  obtain ⟨q⟩ := o
  generalize hW' : encode0 (.yield ⟨q⟩) = W
  have hW : W = q.code ++ 0xd#6 ++ 0#15 ++ 0x7#9 := hW'.symm
  have wf0_9 : W.extractLsb' 0 9 = 0x7#9 := by rw [hW]; simp (disch := decide) only [ex_hi, ex_lo, ex_all, Nat.reduceSub]
  have wf9_15 : W.extractLsb' 9 15 = 0#15 := by rw [hW]; simp (disch := decide) only [ex_hi, ex_lo, ex_all, Nat.reduceSub]
  have wf24_6 : W.extractLsb' 24 6 = 0xd#6 := by rw [hW]; simp (disch := decide) only [ex_hi, ex_lo, ex_all, Nat.reduceSub]
  have wf30_2 : W.extractLsb' 30 2 = q.code := by rw [hW]; simp (disch := decide) only [ex_hi, ex_lo, ex_all, Nat.reduceSub]
  generalize hX' : (encodeExt (.yield ⟨q⟩)).getD 0 = X
  have hX : X = 0#32 := hX'.symm
  have xf0_32 : X.extractLsb' 0 32 = 0#32 := by rw [hX]; simp (disch := decide) only [ex_hi, ex_lo, ex_all, Nat.reduceSub]
  exact roundTrip_two hW' hX' rfl rfl wf24_6 rfl (fun h => nomatch h) wf30_2 (by
    rw [decodeTwo_0d _ _ _ wf24_6]
    simp only [decodeFlow, ↓reduceIte, BitVec.reduceEq, and_false, false_and, and_self, not_true_eq_false, and_true, true_and, wf0_9, wf9_15, xf0_32])

theorem RoundTrip.done (o : XQ) : RoundTrip.Statement (.done o) := by
  obtain ⟨q⟩ := o
  generalize hW' : encode0 (.done ⟨q⟩) = W
  have hW : W = q.code ++ 0xd#6 ++ 0#15 ++ 0x8#9 := hW'.symm
  have wf0_9 : W.extractLsb' 0 9 = 0x8#9 := by rw [hW]; simp (disch := decide) only [ex_hi, ex_lo, ex_all, Nat.reduceSub]
  have wf9_15 : W.extractLsb' 9 15 = 0#15 := by rw [hW]; simp (disch := decide) only [ex_hi, ex_lo, ex_all, Nat.reduceSub]
  have wf24_6 : W.extractLsb' 24 6 = 0xd#6 := by rw [hW]; simp (disch := decide) only [ex_hi, ex_lo, ex_all, Nat.reduceSub]
  have wf30_2 : W.extractLsb' 30 2 = q.code := by rw [hW]; simp (disch := decide) only [ex_hi, ex_lo, ex_all, Nat.reduceSub]
  generalize hX' : (encodeExt (.done ⟨q⟩)).getD 0 = X
  have hX : X = 0#32 := hX'.symm
  have xf0_32 : X.extractLsb' 0 32 = 0#32 := by rw [hX]; simp (disch := decide) only [ex_hi, ex_lo, ex_all, Nat.reduceSub]
  exact roundTrip_two hW' hX' rfl rfl wf24_6 rfl (fun h => nomatch h) wf30_2 (by
    rw [decodeTwo_0d _ _ _ wf24_6]
    simp only [decodeFlow, ↓reduceIte, BitVec.reduceEq, and_false, false_and, and_self, not_true_eq_false, and_true, true_and, wf0_9, wf9_15, xf0_32])

theorem RoundTrip.nop (o : XQ) : RoundTrip.Statement (.nop o) := by
  obtain ⟨q⟩ := o
  generalize hW' : encode0 (.nop ⟨q⟩) = W
  have hW : W = q.code ++ 0xd#6 ++ 0#15 ++ 0x9#9 := hW'.symm
  have wf0_9 : W.extractLsb' 0 9 = 0x9#9 := by rw [hW]; simp (disch := decide) only [ex_hi, ex_lo, ex_all, Nat.reduceSub]
  have wf9_15 : W.extractLsb' 9 15 = 0#15 := by rw [hW]; simp (disch := decide) only [ex_hi, ex_lo, ex_all, Nat.reduceSub]
  have wf24_6 : W.extractLsb' 24 6 = 0xd#6 := by rw [hW]; simp (disch := decide) only [ex_hi, ex_lo, ex_all, Nat.reduceSub]
  have wf30_2 : W.extractLsb' 30 2 = q.code := by rw [hW]; simp (disch := decide) only [ex_hi, ex_lo, ex_all, Nat.reduceSub]
  generalize hX' : (encodeExt (.nop ⟨q⟩)).getD 0 = X
  have hX : X = 0#32 := hX'.symm
  have xf0_32 : X.extractLsb' 0 32 = 0#32 := by rw [hX]; simp (disch := decide) only [ex_hi, ex_lo, ex_all, Nat.reduceSub]
  exact roundTrip_two hW' hX' rfl rfl wf24_6 rfl (fun h => nomatch h) wf30_2 (by
    rw [decodeTwo_0d _ _ _ wf24_6]
    simp only [decodeFlow, ↓reduceIte, BitVec.reduceEq, and_false, false_and, and_self, not_true_eq_false, and_true, true_and, wf0_9, wf9_15, xf0_32])

theorem RoundTrip.trap (o : TrapO) : RoundTrip.Statement (.trap o) := by
  obtain ⟨q, imm⟩ := o
  generalize hW' : encode0 (.trap ⟨q, imm⟩) = W
  have hW : W = q.code ++ 0xe#6 ++ 0#15 ++ 0x0#9 := hW'.symm
  have wf0_9 : W.extractLsb' 0 9 = 0x0#9 := by rw [hW]; simp (disch := decide) only [ex_hi, ex_lo, ex_all, Nat.reduceSub]
  have wf9_15 : W.extractLsb' 9 15 = 0#15 := by rw [hW]; simp (disch := decide) only [ex_hi, ex_lo, ex_all, Nat.reduceSub]
  have wf24_6 : W.extractLsb' 24 6 = 0xe#6 := by rw [hW]; simp (disch := decide) only [ex_hi, ex_lo, ex_all, Nat.reduceSub]
  have wf30_2 : W.extractLsb' 30 2 = q.code := by rw [hW]; simp (disch := decide) only [ex_hi, ex_lo, ex_all, Nat.reduceSub]
  generalize hX' : (encodeExt (.trap ⟨q, imm⟩)).getD 0 = X
  have hX : X = imm := hX'.symm
  have xf0_32 : X.extractLsb' 0 32 = imm := by rw [hX]; simp (disch := decide) only [ex_hi, ex_lo, ex_all, Nat.reduceSub]
  exact roundTrip_two hW' hX' rfl rfl wf24_6 rfl (fun h => nomatch h) wf30_2 (by
    rw [decodeTwo_0e _ _ _ wf24_6]
    simp only [decodeSys, ↓reduceIte, BitVec.reduceEq, and_false, false_and, and_self, not_true_eq_false, and_true, true_and, wf0_9, wf9_15, xf0_32])

theorem RoundTrip.mfs (o : MfsO) : RoundTrip.Statement (.mfs o) := by
  obtain ⟨q, d, n⟩ := o
  generalize hW' : encode0 (.mfs ⟨q, d, n⟩) = W
  have hW : W = q.code ++ 0xe#6 ++ d ++ 0#10 ++ 0x1#9 := hW'.symm
  have wf0_9 : W.extractLsb' 0 9 = 0x1#9 := by rw [hW]; simp (disch := decide) only [ex_hi, ex_lo, ex_all, Nat.reduceSub]
  have wf9_10 : W.extractLsb' 9 10 = 0#10 := by rw [hW]; simp (disch := decide) only [ex_hi, ex_lo, ex_all, Nat.reduceSub]
  have wf19_5 : W.extractLsb' 19 5 = d := by rw [hW]; simp (disch := decide) only [ex_hi, ex_lo, ex_all, Nat.reduceSub]
  have wf24_6 : W.extractLsb' 24 6 = 0xe#6 := by rw [hW]; simp (disch := decide) only [ex_hi, ex_lo, ex_all, Nat.reduceSub]
  have wf30_2 : W.extractLsb' 30 2 = q.code := by rw [hW]; simp (disch := decide) only [ex_hi, ex_lo, ex_all, Nat.reduceSub]
  generalize hX' : (encodeExt (.mfs ⟨q, d, n⟩)).getD 0 = X
  have hX : X = 0#20 ++ n := hX'.symm
  have xf12_20 : X.extractLsb' 12 20 = 0#20 := by rw [hX]; simp (disch := decide) only [ex_hi, ex_lo, ex_all, Nat.reduceSub]
  have xf0_12 : X.extractLsb' 0 12 = n := by rw [hX]; simp (disch := decide) only [ex_hi, ex_lo, ex_all, Nat.reduceSub]
  exact roundTrip_two hW' hX' rfl rfl wf24_6 rfl (fun h => nomatch h) wf30_2 (by
    rw [decodeTwo_0e _ _ _ wf24_6]
    simp only [decodeSys, ↓reduceIte, BitVec.reduceEq, and_false, false_and, and_self, not_true_eq_false, and_true, true_and, wf0_9, wf9_10, xf12_20, wf19_5, xf0_12])

theorem RoundTrip.mts (o : MtsO) : RoundTrip.Statement (.mts o) := by
  obtain ⟨q, a, ta, n⟩ := o
  generalize hW' : encode0 (.mts ⟨q, a, ta, n⟩) = W
  have hW : W = q.code ++ 0xe#6 ++ 0#5 ++ a ++ 0#5 ++ 0x2#9 := hW'.symm
  have wf0_9 : W.extractLsb' 0 9 = 0x2#9 := by rw [hW]; simp (disch := decide) only [ex_hi, ex_lo, ex_all, Nat.reduceSub]
  have wf19_5 : W.extractLsb' 19 5 = 0#5 := by rw [hW]; simp (disch := decide) only [ex_hi, ex_lo, ex_all, Nat.reduceSub]
  have wf9_5 : W.extractLsb' 9 5 = 0#5 := by rw [hW]; simp (disch := decide) only [ex_hi, ex_lo, ex_all, Nat.reduceSub]
  have wf14_5 : W.extractLsb' 14 5 = a := by rw [hW]; simp (disch := decide) only [ex_hi, ex_lo, ex_all, Nat.reduceSub]
  have wf24_6 : W.extractLsb' 24 6 = 0xe#6 := by rw [hW]; simp (disch := decide) only [ex_hi, ex_lo, ex_all, Nat.reduceSub]
  have wf30_2 : W.extractLsb' 30 2 = q.code := by rw [hW]; simp (disch := decide) only [ex_hi, ex_lo, ex_all, Nat.reduceSub]
  generalize hX' : (encodeExt (.mts ⟨q, a, ta, n⟩)).getD 0 = X
  have hX : X = bit ta ++ 0#19 ++ n := hX'.symm
  have xf12_19 : X.extractLsb' 12 19 = 0#19 := by rw [hX]; simp (disch := decide) only [ex_hi, ex_lo, ex_all, Nat.reduceSub]
  have xb31 : X.getLsbD 31 = ta := by rw [hX]; simp (disch := decide) only [gl_hi, gl_lo, bit_get, Nat.reduceSub]
  have xf0_12 : X.extractLsb' 0 12 = n := by rw [hX]; simp (disch := decide) only [ex_hi, ex_lo, ex_all, Nat.reduceSub]
  exact roundTrip_two hW' hX' rfl rfl wf24_6 rfl (fun h => nomatch h) wf30_2 (by
    rw [decodeTwo_0e _ _ _ wf24_6]
    simp only [decodeSys, ↓reduceIte, BitVec.reduceEq, and_false, false_and, and_self, not_true_eq_false, and_true, true_and, wf0_9, wf19_5, wf9_5, xf12_19, wf14_5, xb31, xf0_12])

theorem RoundTrip.capr (o : XDA) : RoundTrip.Statement (.capr o) := by
  obtain ⟨q, d, a, ta⟩ := o
  generalize hW' : encode0 (.capr ⟨q, d, a, ta⟩) = W
  have hW : W = q.code ++ 0xe#6 ++ d ++ a ++ 0#5 ++ 0x3#9 := hW'.symm
  have wf0_9 : W.extractLsb' 0 9 = 0x3#9 := by rw [hW]; simp (disch := decide) only [ex_hi, ex_lo, ex_all, Nat.reduceSub]
  have wf9_5 : W.extractLsb' 9 5 = 0#5 := by rw [hW]; simp (disch := decide) only [ex_hi, ex_lo, ex_all, Nat.reduceSub]
  have wf19_5 : W.extractLsb' 19 5 = d := by rw [hW]; simp (disch := decide) only [ex_hi, ex_lo, ex_all, Nat.reduceSub]
  have wf14_5 : W.extractLsb' 14 5 = a := by rw [hW]; simp (disch := decide) only [ex_hi, ex_lo, ex_all, Nat.reduceSub]
  have wf24_6 : W.extractLsb' 24 6 = 0xe#6 := by rw [hW]; simp (disch := decide) only [ex_hi, ex_lo, ex_all, Nat.reduceSub]
  have wf30_2 : W.extractLsb' 30 2 = q.code := by rw [hW]; simp (disch := decide) only [ex_hi, ex_lo, ex_all, Nat.reduceSub]
  generalize hX' : (encodeExt (.capr ⟨q, d, a, ta⟩)).getD 0 = X
  have hX : X = bit ta ++ 0#31 := hX'.symm
  have xf0_31 : X.extractLsb' 0 31 = 0#31 := by rw [hX]; simp (disch := decide) only [ex_hi, ex_lo, ex_all, Nat.reduceSub]
  have xb31 : X.getLsbD 31 = ta := by rw [hX]; simp (disch := decide) only [gl_hi, gl_lo, bit_get, Nat.reduceSub]
  exact roundTrip_two hW' hX' rfl rfl wf24_6 rfl (fun h => nomatch h) wf30_2 (by
    rw [decodeTwo_0e _ _ _ wf24_6]
    simp only [decodeSys, ↓reduceIte, BitVec.reduceEq, and_false, false_and, and_self, not_true_eq_false, and_true, true_and, wf0_9, wf9_5, xf0_31, wf19_5, wf14_5, xb31])

theorem RoundTrip.ifence (o : XQ) : RoundTrip.Statement (.ifence o) := by
  obtain ⟨q⟩ := o
  generalize hW' : encode0 (.ifence ⟨q⟩) = W
  have hW : W = q.code ++ 0xe#6 ++ 0#15 ++ 0x4#9 := hW'.symm
  have wf0_9 : W.extractLsb' 0 9 = 0x4#9 := by rw [hW]; simp (disch := decide) only [ex_hi, ex_lo, ex_all, Nat.reduceSub]
  have wf9_15 : W.extractLsb' 9 15 = 0#15 := by rw [hW]; simp (disch := decide) only [ex_hi, ex_lo, ex_all, Nat.reduceSub]
  have wf24_6 : W.extractLsb' 24 6 = 0xe#6 := by rw [hW]; simp (disch := decide) only [ex_hi, ex_lo, ex_all, Nat.reduceSub]
  have wf30_2 : W.extractLsb' 30 2 = q.code := by rw [hW]; simp (disch := decide) only [ex_hi, ex_lo, ex_all, Nat.reduceSub]
  generalize hX' : (encodeExt (.ifence ⟨q⟩)).getD 0 = X
  have hX : X = 0#32 := hX'.symm
  have xf0_32 : X.extractLsb' 0 32 = 0#32 := by rw [hX]; simp (disch := decide) only [ex_hi, ex_lo, ex_all, Nat.reduceSub]
  exact roundTrip_two hW' hX' rfl rfl wf24_6 rfl (fun h => nomatch h) wf30_2 (by
    rw [decodeTwo_0e _ _ _ wf24_6]
    simp only [decodeSys, ↓reduceIte, BitVec.reduceEq, and_false, false_and, and_self, not_true_eq_false, and_true, true_and, wf0_9, wf9_15, xf0_32])

theorem RoundTrip.ld (o : Mem) : RoundTrip.Statement (.ld o) := by
  obtain ⟨q, d, b, o⟩ := o
  generalize hW' : encode0 (.ld ⟨q, d, b, o⟩) = W
  have hW : W = q.code ++ 0x10#6 ++ d ++ b ++ o := hW'.symm
  have wf19_5 : W.extractLsb' 19 5 = d := by rw [hW]; simp (disch := decide) only [ex_hi, ex_lo, ex_all, Nat.reduceSub]
  have wf14_5 : W.extractLsb' 14 5 = b := by rw [hW]; simp (disch := decide) only [ex_hi, ex_lo, ex_all, Nat.reduceSub]
  have wf0_14 : W.extractLsb' 0 14 = o := by rw [hW]; simp (disch := decide) only [ex_hi, ex_lo, ex_all, Nat.reduceSub]
  have wf24_6 : W.extractLsb' 24 6 = 0x10#6 := by rw [hW]; simp (disch := decide) only [ex_hi, ex_lo, ex_all, Nat.reduceSub]
  have wf30_2 : W.extractLsb' 30 2 = q.code := by rw [hW]; simp (disch := decide) only [ex_hi, ex_lo, ex_all, Nat.reduceSub]
  exact roundTrip_one hW' rfl rfl wf24_6 rfl wf30_2 (by
    rw [decodeOne_10 _ _ wf24_6]
    simp only [decodeLd, ↓reduceIte, BitVec.reduceEq, and_false, false_and, and_self, not_true_eq_false, and_true, true_and, wf19_5, wf14_5, wf0_14])

theorem RoundTrip.st (o : Mem) : RoundTrip.Statement (.st o) := by
  obtain ⟨q, d, b, o⟩ := o
  generalize hW' : encode0 (.st ⟨q, d, b, o⟩) = W
  have hW : W = q.code ++ 0x11#6 ++ d ++ b ++ o := hW'.symm
  have wf19_5 : W.extractLsb' 19 5 = d := by rw [hW]; simp (disch := decide) only [ex_hi, ex_lo, ex_all, Nat.reduceSub]
  have wf14_5 : W.extractLsb' 14 5 = b := by rw [hW]; simp (disch := decide) only [ex_hi, ex_lo, ex_all, Nat.reduceSub]
  have wf0_14 : W.extractLsb' 0 14 = o := by rw [hW]; simp (disch := decide) only [ex_hi, ex_lo, ex_all, Nat.reduceSub]
  have wf24_6 : W.extractLsb' 24 6 = 0x11#6 := by rw [hW]; simp (disch := decide) only [ex_hi, ex_lo, ex_all, Nat.reduceSub]
  have wf30_2 : W.extractLsb' 30 2 = q.code := by rw [hW]; simp (disch := decide) only [ex_hi, ex_lo, ex_all, Nat.reduceSub]
  exact roundTrip_one hW' rfl rfl wf24_6 rfl wf30_2 (by
    rw [decodeOne_11 _ _ wf24_6]
    simp only [decodeSt, ↓reduceIte, BitVec.reduceEq, and_false, false_and, and_self, not_true_eq_false, and_true, true_and, wf19_5, wf14_5, wf0_14])

theorem RoundTrip.ldv (o : VMem) : RoundTrip.Statement (.ldv o) := by
  obtain ⟨q, d, b, o⟩ := o
  generalize hW' : encode0 (.ldv ⟨q, d, b, o⟩) = W
  have hW : W = q.code ++ 0x12#6 ++ 0x0#1 ++ d ++ b ++ o := hW'.symm
  have wf23_1 : W.extractLsb' 23 1 = 0x0#1 := by rw [hW]; simp (disch := decide) only [ex_hi, ex_lo, ex_all, Nat.reduceSub]
  have wf19_4 : W.extractLsb' 19 4 = d := by rw [hW]; simp (disch := decide) only [ex_hi, ex_lo, ex_all, Nat.reduceSub]
  have wf14_5 : W.extractLsb' 14 5 = b := by rw [hW]; simp (disch := decide) only [ex_hi, ex_lo, ex_all, Nat.reduceSub]
  have wf0_14 : W.extractLsb' 0 14 = o := by rw [hW]; simp (disch := decide) only [ex_hi, ex_lo, ex_all, Nat.reduceSub]
  have wf24_6 : W.extractLsb' 24 6 = 0x12#6 := by rw [hW]; simp (disch := decide) only [ex_hi, ex_lo, ex_all, Nat.reduceSub]
  have wf30_2 : W.extractLsb' 30 2 = q.code := by rw [hW]; simp (disch := decide) only [ex_hi, ex_lo, ex_all, Nat.reduceSub]
  exact roundTrip_one hW' rfl rfl wf24_6 rfl wf30_2 (by
    rw [decodeOne_12 _ _ wf24_6]
    simp only [decodeLdv, ↓reduceIte, BitVec.reduceEq, and_false, false_and, and_self, not_true_eq_false, and_true, true_and, wf23_1, wf19_4, wf14_5, wf0_14])

theorem RoundTrip.stv (o : VMem) : RoundTrip.Statement (.stv o) := by
  obtain ⟨q, d, b, o⟩ := o
  generalize hW' : encode0 (.stv ⟨q, d, b, o⟩) = W
  have hW : W = q.code ++ 0x13#6 ++ 0x0#1 ++ d ++ b ++ o := hW'.symm
  have wf23_1 : W.extractLsb' 23 1 = 0x0#1 := by rw [hW]; simp (disch := decide) only [ex_hi, ex_lo, ex_all, Nat.reduceSub]
  have wf19_4 : W.extractLsb' 19 4 = d := by rw [hW]; simp (disch := decide) only [ex_hi, ex_lo, ex_all, Nat.reduceSub]
  have wf14_5 : W.extractLsb' 14 5 = b := by rw [hW]; simp (disch := decide) only [ex_hi, ex_lo, ex_all, Nat.reduceSub]
  have wf0_14 : W.extractLsb' 0 14 = o := by rw [hW]; simp (disch := decide) only [ex_hi, ex_lo, ex_all, Nat.reduceSub]
  have wf24_6 : W.extractLsb' 24 6 = 0x13#6 := by rw [hW]; simp (disch := decide) only [ex_hi, ex_lo, ex_all, Nat.reduceSub]
  have wf30_2 : W.extractLsb' 30 2 = q.code := by rw [hW]; simp (disch := decide) only [ex_hi, ex_lo, ex_all, Nat.reduceSub]
  exact roundTrip_one hW' rfl rfl wf24_6 rfl wf30_2 (by
    rw [decodeOne_13 _ _ wf24_6]
    simp only [decodeStv, ↓reduceIte, BitVec.reduceEq, and_false, false_and, and_self, not_true_eq_false, and_true, true_and, wf23_1, wf19_4, wf14_5, wf0_14])

theorem RoundTrip.ldy (o : Mem) : RoundTrip.Statement (.ldy o) := by
  obtain ⟨q, d, b, o⟩ := o
  generalize hW' : encode0 (.ldy ⟨q, d, b, o⟩) = W
  have hW : W = q.code ++ 0x14#6 ++ d ++ b ++ o := hW'.symm
  have wf19_5 : W.extractLsb' 19 5 = d := by rw [hW]; simp (disch := decide) only [ex_hi, ex_lo, ex_all, Nat.reduceSub]
  have wf14_5 : W.extractLsb' 14 5 = b := by rw [hW]; simp (disch := decide) only [ex_hi, ex_lo, ex_all, Nat.reduceSub]
  have wf0_14 : W.extractLsb' 0 14 = o := by rw [hW]; simp (disch := decide) only [ex_hi, ex_lo, ex_all, Nat.reduceSub]
  have wf24_6 : W.extractLsb' 24 6 = 0x14#6 := by rw [hW]; simp (disch := decide) only [ex_hi, ex_lo, ex_all, Nat.reduceSub]
  have wf30_2 : W.extractLsb' 30 2 = q.code := by rw [hW]; simp (disch := decide) only [ex_hi, ex_lo, ex_all, Nat.reduceSub]
  exact roundTrip_one hW' rfl rfl wf24_6 rfl wf30_2 (by
    rw [decodeOne_14 _ _ wf24_6]
    simp only [decodeLdy, ↓reduceIte, BitVec.reduceEq, and_false, false_and, and_self, not_true_eq_false, and_true, true_and, wf19_5, wf14_5, wf0_14])

theorem RoundTrip.sty (o : Mem) : RoundTrip.Statement (.sty o) := by
  obtain ⟨q, d, b, o⟩ := o
  generalize hW' : encode0 (.sty ⟨q, d, b, o⟩) = W
  have hW : W = q.code ++ 0x15#6 ++ d ++ b ++ o := hW'.symm
  have wf19_5 : W.extractLsb' 19 5 = d := by rw [hW]; simp (disch := decide) only [ex_hi, ex_lo, ex_all, Nat.reduceSub]
  have wf14_5 : W.extractLsb' 14 5 = b := by rw [hW]; simp (disch := decide) only [ex_hi, ex_lo, ex_all, Nat.reduceSub]
  have wf0_14 : W.extractLsb' 0 14 = o := by rw [hW]; simp (disch := decide) only [ex_hi, ex_lo, ex_all, Nat.reduceSub]
  have wf24_6 : W.extractLsb' 24 6 = 0x15#6 := by rw [hW]; simp (disch := decide) only [ex_hi, ex_lo, ex_all, Nat.reduceSub]
  have wf30_2 : W.extractLsb' 30 2 = q.code := by rw [hW]; simp (disch := decide) only [ex_hi, ex_lo, ex_all, Nat.reduceSub]
  exact roundTrip_one hW' rfl rfl wf24_6 rfl wf30_2 (by
    rw [decodeOne_15 _ _ wf24_6]
    simp only [decodeSty, ↓reduceIte, BitVec.reduceEq, and_false, false_and, and_self, not_true_eq_false, and_true, true_and, wf19_5, wf14_5, wf0_14])

theorem RoundTrip.ldvy (o : VMem) : RoundTrip.Statement (.ldvy o) := by
  obtain ⟨q, d, b, o⟩ := o
  generalize hW' : encode0 (.ldvy ⟨q, d, b, o⟩) = W
  have hW : W = q.code ++ 0x16#6 ++ 0x0#1 ++ d ++ b ++ o := hW'.symm
  have wf23_1 : W.extractLsb' 23 1 = 0x0#1 := by rw [hW]; simp (disch := decide) only [ex_hi, ex_lo, ex_all, Nat.reduceSub]
  have wf19_4 : W.extractLsb' 19 4 = d := by rw [hW]; simp (disch := decide) only [ex_hi, ex_lo, ex_all, Nat.reduceSub]
  have wf14_5 : W.extractLsb' 14 5 = b := by rw [hW]; simp (disch := decide) only [ex_hi, ex_lo, ex_all, Nat.reduceSub]
  have wf0_14 : W.extractLsb' 0 14 = o := by rw [hW]; simp (disch := decide) only [ex_hi, ex_lo, ex_all, Nat.reduceSub]
  have wf24_6 : W.extractLsb' 24 6 = 0x16#6 := by rw [hW]; simp (disch := decide) only [ex_hi, ex_lo, ex_all, Nat.reduceSub]
  have wf30_2 : W.extractLsb' 30 2 = q.code := by rw [hW]; simp (disch := decide) only [ex_hi, ex_lo, ex_all, Nat.reduceSub]
  exact roundTrip_one hW' rfl rfl wf24_6 rfl wf30_2 (by
    rw [decodeOne_16 _ _ wf24_6]
    simp only [decodeVy, ↓reduceIte, BitVec.reduceEq, and_false, false_and, and_self, not_true_eq_false, and_true, true_and, wf23_1, wf19_4, wf14_5, wf0_14])

theorem RoundTrip.stvy (o : VMem) : RoundTrip.Statement (.stvy o) := by
  obtain ⟨q, d, b, o⟩ := o
  generalize hW' : encode0 (.stvy ⟨q, d, b, o⟩) = W
  have hW : W = q.code ++ 0x16#6 ++ 0x1#1 ++ d ++ b ++ o := hW'.symm
  have wf23_1 : W.extractLsb' 23 1 = 0x1#1 := by rw [hW]; simp (disch := decide) only [ex_hi, ex_lo, ex_all, Nat.reduceSub]
  have wf19_4 : W.extractLsb' 19 4 = d := by rw [hW]; simp (disch := decide) only [ex_hi, ex_lo, ex_all, Nat.reduceSub]
  have wf14_5 : W.extractLsb' 14 5 = b := by rw [hW]; simp (disch := decide) only [ex_hi, ex_lo, ex_all, Nat.reduceSub]
  have wf0_14 : W.extractLsb' 0 14 = o := by rw [hW]; simp (disch := decide) only [ex_hi, ex_lo, ex_all, Nat.reduceSub]
  have wf24_6 : W.extractLsb' 24 6 = 0x16#6 := by rw [hW]; simp (disch := decide) only [ex_hi, ex_lo, ex_all, Nat.reduceSub]
  have wf30_2 : W.extractLsb' 30 2 = q.code := by rw [hW]; simp (disch := decide) only [ex_hi, ex_lo, ex_all, Nat.reduceSub]
  exact roundTrip_one hW' rfl rfl wf24_6 rfl wf30_2 (by
    rw [decodeOne_16 _ _ wf24_6]
    simp only [decodeVy, ↓reduceIte, BitVec.reduceEq, and_false, false_and, and_self, not_true_eq_false, and_true, true_and, wf23_1, wf19_4, wf14_5, wf0_14])

theorem RoundTrip.yardStorePerform (c : CoreId) : RoundTrip.Statement (.yardStorePerform c) := fun h => nomatch h

theorem RoundTrip.localScrub (c : CoreId) (word : BitVec 12) : RoundTrip.Statement (.localScrub c word) := fun h => nomatch h

theorem RoundTrip.yardScrub (k : ClusterId) (word : BitVec 16) : RoundTrip.Statement (.yardScrub k word) := fun h => nomatch h

theorem RoundTrip.cpy (o : CpyO) : RoundTrip.Statement (.cpy o) := by
  obtain ⟨q, d, a, b, ta, tb, inb, ssp, dsp, len⟩ := o
  generalize hW' : encode0 (.cpy ⟨q, d, a, b, ta, tb, inb, ssp, dsp, len⟩) = W
  have hW : W = q.code ++ 0x17#6 ++ 0#2 ++ d ++ a ++ b ++ 0x0#9 := hW'.symm
  have wf0_9 : W.extractLsb' 0 9 = 0x0#9 := by rw [hW]; simp (disch := decide) only [ex_hi, ex_lo, ex_all, Nat.reduceSub]
  have wf22_2 : W.extractLsb' 22 2 = 0#2 := by rw [hW]; simp (disch := decide) only [ex_hi, ex_lo, ex_all, Nat.reduceSub]
  have wf19_3 : W.extractLsb' 19 3 = d := by rw [hW]; simp (disch := decide) only [ex_hi, ex_lo, ex_all, Nat.reduceSub]
  have wf14_5 : W.extractLsb' 14 5 = a := by rw [hW]; simp (disch := decide) only [ex_hi, ex_lo, ex_all, Nat.reduceSub]
  have wf9_5 : W.extractLsb' 9 5 = b := by rw [hW]; simp (disch := decide) only [ex_hi, ex_lo, ex_all, Nat.reduceSub]
  have wf24_6 : W.extractLsb' 24 6 = 0x17#6 := by rw [hW]; simp (disch := decide) only [ex_hi, ex_lo, ex_all, Nat.reduceSub]
  have wf30_2 : W.extractLsb' 30 2 = q.code := by rw [hW]; simp (disch := decide) only [ex_hi, ex_lo, ex_all, Nat.reduceSub]
  generalize hX' : (encodeExt (.cpy ⟨q, d, a, b, ta, tb, inb, ssp, dsp, len⟩)).getD 0 = X
  have hX : X = bit ta ++ bit tb ++ bit inb ++ 0#1 ++ ssp ++ 0#1 ++ dsp ++ len := hX'.symm
  have xf28_1 : X.extractLsb' 28 1 = 0#1 := by rw [hX]; simp (disch := decide) only [ex_hi, ex_lo, ex_all, Nat.reduceSub]
  have xf25_1 : X.extractLsb' 25 1 = 0#1 := by rw [hX]; simp (disch := decide) only [ex_hi, ex_lo, ex_all, Nat.reduceSub]
  have xb31 : X.getLsbD 31 = ta := by rw [hX]; simp (disch := decide) only [gl_hi, gl_lo, bit_get, Nat.reduceSub]
  have xb30 : X.getLsbD 30 = tb := by rw [hX]; simp (disch := decide) only [gl_hi, gl_lo, bit_get, Nat.reduceSub]
  have xb29 : X.getLsbD 29 = inb := by rw [hX]; simp (disch := decide) only [gl_hi, gl_lo, bit_get, Nat.reduceSub]
  have xf26_2 : X.extractLsb' 26 2 = ssp := by rw [hX]; simp (disch := decide) only [ex_hi, ex_lo, ex_all, Nat.reduceSub]
  have xf23_2 : X.extractLsb' 23 2 = dsp := by rw [hX]; simp (disch := decide) only [ex_hi, ex_lo, ex_all, Nat.reduceSub]
  have xf0_23 : X.extractLsb' 0 23 = len := by rw [hX]; simp (disch := decide) only [ex_hi, ex_lo, ex_all, Nat.reduceSub]
  exact roundTrip_two hW' hX' rfl rfl wf24_6 rfl (fun h => nomatch h) wf30_2 (by
    rw [decodeTwo_17 _ _ _ wf24_6]
    simp only [decodeAsync, ↓reduceIte, BitVec.reduceEq, and_false, false_and, and_self, not_true_eq_false, and_true, true_and, wf0_9, wf22_2, xf28_1, xf25_1, wf19_3, wf14_5, wf9_5, xb31, xb30, xb29, xf26_2, xf23_2, xf0_23])

theorem RoundTrip.cpyt (o : CpytO) : RoundTrip.Statement (.cpyt o) := by
  obtain ⟨q, d, a, ta, inb⟩ := o
  generalize hW' : encode0 (.cpyt ⟨q, d, a, ta, inb⟩) = W
  have hW : W = q.code ++ 0x17#6 ++ 0#2 ++ d ++ a ++ 0#5 ++ 0x1#9 := hW'.symm
  have wf0_9 : W.extractLsb' 0 9 = 0x1#9 := by rw [hW]; simp (disch := decide) only [ex_hi, ex_lo, ex_all, Nat.reduceSub]
  have wf22_2 : W.extractLsb' 22 2 = 0#2 := by rw [hW]; simp (disch := decide) only [ex_hi, ex_lo, ex_all, Nat.reduceSub]
  have wf9_5 : W.extractLsb' 9 5 = 0#5 := by rw [hW]; simp (disch := decide) only [ex_hi, ex_lo, ex_all, Nat.reduceSub]
  have wf19_3 : W.extractLsb' 19 3 = d := by rw [hW]; simp (disch := decide) only [ex_hi, ex_lo, ex_all, Nat.reduceSub]
  have wf14_5 : W.extractLsb' 14 5 = a := by rw [hW]; simp (disch := decide) only [ex_hi, ex_lo, ex_all, Nat.reduceSub]
  have wf24_6 : W.extractLsb' 24 6 = 0x17#6 := by rw [hW]; simp (disch := decide) only [ex_hi, ex_lo, ex_all, Nat.reduceSub]
  have wf30_2 : W.extractLsb' 30 2 = q.code := by rw [hW]; simp (disch := decide) only [ex_hi, ex_lo, ex_all, Nat.reduceSub]
  generalize hX' : (encodeExt (.cpyt ⟨q, d, a, ta, inb⟩)).getD 0 = X
  have hX : X = bit ta ++ bit inb ++ 0#30 := hX'.symm
  have xf0_30 : X.extractLsb' 0 30 = 0#30 := by rw [hX]; simp (disch := decide) only [ex_hi, ex_lo, ex_all, Nat.reduceSub]
  have xb31 : X.getLsbD 31 = ta := by rw [hX]; simp (disch := decide) only [gl_hi, gl_lo, bit_get, Nat.reduceSub]
  have xb30 : X.getLsbD 30 = inb := by rw [hX]; simp (disch := decide) only [gl_hi, gl_lo, bit_get, Nat.reduceSub]
  exact roundTrip_two hW' hX' rfl rfl wf24_6 rfl (fun h => nomatch h) wf30_2 (by
    rw [decodeTwo_17 _ _ _ wf24_6]
    simp only [decodeAsync, ↓reduceIte, BitVec.reduceEq, and_false, false_and, and_self, not_true_eq_false, and_true, true_and, wf0_9, wf22_2, wf9_5, xf0_30, wf19_3, wf14_5, xb31, xb30])

theorem RoundTrip.cpyc (o : CpycO) : RoundTrip.Statement (.cpyc o) := by
  obtain ⟨q, d, a, ta⟩ := o
  generalize hW' : encode0 (.cpyc ⟨q, d, a, ta⟩) = W
  have hW : W = q.code ++ 0x17#6 ++ 0#2 ++ d ++ a ++ 0#5 ++ 0x2#9 := hW'.symm
  have wf0_9 : W.extractLsb' 0 9 = 0x2#9 := by rw [hW]; simp (disch := decide) only [ex_hi, ex_lo, ex_all, Nat.reduceSub]
  have wf22_2 : W.extractLsb' 22 2 = 0#2 := by rw [hW]; simp (disch := decide) only [ex_hi, ex_lo, ex_all, Nat.reduceSub]
  have wf9_5 : W.extractLsb' 9 5 = 0#5 := by rw [hW]; simp (disch := decide) only [ex_hi, ex_lo, ex_all, Nat.reduceSub]
  have wf19_3 : W.extractLsb' 19 3 = d := by rw [hW]; simp (disch := decide) only [ex_hi, ex_lo, ex_all, Nat.reduceSub]
  have wf14_5 : W.extractLsb' 14 5 = a := by rw [hW]; simp (disch := decide) only [ex_hi, ex_lo, ex_all, Nat.reduceSub]
  have wf24_6 : W.extractLsb' 24 6 = 0x17#6 := by rw [hW]; simp (disch := decide) only [ex_hi, ex_lo, ex_all, Nat.reduceSub]
  have wf30_2 : W.extractLsb' 30 2 = q.code := by rw [hW]; simp (disch := decide) only [ex_hi, ex_lo, ex_all, Nat.reduceSub]
  generalize hX' : (encodeExt (.cpyc ⟨q, d, a, ta⟩)).getD 0 = X
  have hX : X = bit ta ++ 0#31 := hX'.symm
  have xf0_31 : X.extractLsb' 0 31 = 0#31 := by rw [hX]; simp (disch := decide) only [ex_hi, ex_lo, ex_all, Nat.reduceSub]
  have xb31 : X.getLsbD 31 = ta := by rw [hX]; simp (disch := decide) only [gl_hi, gl_lo, bit_get, Nat.reduceSub]
  exact roundTrip_two hW' hX' rfl rfl wf24_6 rfl (fun h => nomatch h) wf30_2 (by
    rw [decodeTwo_17 _ _ _ wf24_6]
    simp only [decodeAsync, ↓reduceIte, BitVec.reduceEq, and_false, false_and, and_self, not_true_eq_false, and_true, true_and, wf0_9, wf22_2, wf9_5, xf0_31, wf19_3, wf14_5, xb31])

theorem RoundTrip.copyUnit (k : ClusterId) (seq : Nat) : RoundTrip.Statement (.copyUnit k seq) := fun h => nomatch h

theorem RoundTrip.copyComplete (k : ClusterId) : RoundTrip.Statement (.copyComplete k) := fun h => nomatch h

theorem RoundTrip.aop (o : AopO) : RoundTrip.Statement (.aop o) := by
  obtain ⟨q, d, a, b, ta, tb, td, inb, he, ord, scope, smask, op, sz⟩ := o
  generalize hW' : encode0 (.aop ⟨q, d, a, b, ta, tb, td, inb, he, ord, scope, smask, op, sz⟩) = W
  have hW : W = q.code ++ 0x17#6 ++ d ++ a ++ b ++ 0x3#9 := hW'.symm
  have wf0_9 : W.extractLsb' 0 9 = 0x3#9 := by rw [hW]; simp (disch := decide) only [ex_hi, ex_lo, ex_all, Nat.reduceSub]
  have wf19_5 : W.extractLsb' 19 5 = d := by rw [hW]; simp (disch := decide) only [ex_hi, ex_lo, ex_all, Nat.reduceSub]
  have wf14_5 : W.extractLsb' 14 5 = a := by rw [hW]; simp (disch := decide) only [ex_hi, ex_lo, ex_all, Nat.reduceSub]
  have wf9_5 : W.extractLsb' 9 5 = b := by rw [hW]; simp (disch := decide) only [ex_hi, ex_lo, ex_all, Nat.reduceSub]
  have wf24_6 : W.extractLsb' 24 6 = 0x17#6 := by rw [hW]; simp (disch := decide) only [ex_hi, ex_lo, ex_all, Nat.reduceSub]
  have wf30_2 : W.extractLsb' 30 2 = q.code := by rw [hW]; simp (disch := decide) only [ex_hi, ex_lo, ex_all, Nat.reduceSub]
  generalize hX' : (encodeExt (.aop ⟨q, d, a, b, ta, tb, td, inb, he, ord, scope, smask, op, sz⟩)).getD 0 = X
  have hX : X = bit ta ++ bit tb ++ bit td ++ bit inb ++ he ++ ord ++ scope ++ smask ++ op ++ sz ++ 0#10 := hX'.symm
  have xf0_10 : X.extractLsb' 0 10 = 0#10 := by rw [hX]; simp (disch := decide) only [ex_hi, ex_lo, ex_all, Nat.reduceSub]
  have xb31 : X.getLsbD 31 = ta := by rw [hX]; simp (disch := decide) only [gl_hi, gl_lo, bit_get, Nat.reduceSub]
  have xb30 : X.getLsbD 30 = tb := by rw [hX]; simp (disch := decide) only [gl_hi, gl_lo, bit_get, Nat.reduceSub]
  have xb29 : X.getLsbD 29 = td := by rw [hX]; simp (disch := decide) only [gl_hi, gl_lo, bit_get, Nat.reduceSub]
  have xb28 : X.getLsbD 28 = inb := by rw [hX]; simp (disch := decide) only [gl_hi, gl_lo, bit_get, Nat.reduceSub]
  have xf25_3 : X.extractLsb' 25 3 = he := by rw [hX]; simp (disch := decide) only [ex_hi, ex_lo, ex_all, Nat.reduceSub]
  have xf23_2 : X.extractLsb' 23 2 = ord := by rw [hX]; simp (disch := decide) only [ex_hi, ex_lo, ex_all, Nat.reduceSub]
  have xf20_3 : X.extractLsb' 20 3 = scope := by rw [hX]; simp (disch := decide) only [ex_hi, ex_lo, ex_all, Nat.reduceSub]
  have xf15_5 : X.extractLsb' 15 5 = smask := by rw [hX]; simp (disch := decide) only [ex_hi, ex_lo, ex_all, Nat.reduceSub]
  have xf11_4 : X.extractLsb' 11 4 = op := by rw [hX]; simp (disch := decide) only [ex_hi, ex_lo, ex_all, Nat.reduceSub]
  have xf10_1 : X.extractLsb' 10 1 = sz := by rw [hX]; simp (disch := decide) only [ex_hi, ex_lo, ex_all, Nat.reduceSub]
  exact roundTrip_two hW' hX' rfl rfl wf24_6 rfl (fun h => nomatch h) wf30_2 (by
    rw [decodeTwo_17 _ _ _ wf24_6]
    simp only [decodeAsync, ↓reduceIte, BitVec.reduceEq, and_false, false_and, and_self, not_true_eq_false, and_true, true_and, wf0_9, xf0_10, wf19_5, wf14_5, wf9_5, xb31, xb30, xb29, xb28, xf25_3, xf23_2, xf20_3, xf15_5, xf11_4, xf10_1])

theorem RoundTrip.atomicPerform (c : CoreId) (n : Nat) : RoundTrip.Statement (.atomicPerform c n) := fun h => nomatch h

theorem RoundTrip.hwait (o : HwaitO) : RoundTrip.Statement (.hwait o) := by
  obtain ⟨q, d, a, ta, scope, smask⟩ := o
  generalize hW' : encode0 (.hwait ⟨q, d, a, ta, scope, smask⟩) = W
  have hW : W = q.code ++ 0x18#6 ++ d ++ 0#2 ++ a ++ 0#5 ++ 0x0#9 := hW'.symm
  have wf0_9 : W.extractLsb' 0 9 = 0x0#9 := by rw [hW]; simp (disch := decide) only [ex_hi, ex_lo, ex_all, Nat.reduceSub]
  have wf17_2 : W.extractLsb' 17 2 = 0#2 := by rw [hW]; simp (disch := decide) only [ex_hi, ex_lo, ex_all, Nat.reduceSub]
  have wf9_5 : W.extractLsb' 9 5 = 0#5 := by rw [hW]; simp (disch := decide) only [ex_hi, ex_lo, ex_all, Nat.reduceSub]
  have wf19_5 : W.extractLsb' 19 5 = d := by rw [hW]; simp (disch := decide) only [ex_hi, ex_lo, ex_all, Nat.reduceSub]
  have wf14_3 : W.extractLsb' 14 3 = a := by rw [hW]; simp (disch := decide) only [ex_hi, ex_lo, ex_all, Nat.reduceSub]
  have wf24_6 : W.extractLsb' 24 6 = 0x18#6 := by rw [hW]; simp (disch := decide) only [ex_hi, ex_lo, ex_all, Nat.reduceSub]
  have wf30_2 : W.extractLsb' 30 2 = q.code := by rw [hW]; simp (disch := decide) only [ex_hi, ex_lo, ex_all, Nat.reduceSub]
  generalize hX' : (encodeExt (.hwait ⟨q, d, a, ta, scope, smask⟩)).getD 0 = X
  have hX : X = bit ta ++ 0#23 ++ scope ++ smask := hX'.symm
  have xf8_23 : X.extractLsb' 8 23 = 0#23 := by rw [hX]; simp (disch := decide) only [ex_hi, ex_lo, ex_all, Nat.reduceSub]
  have xb31 : X.getLsbD 31 = ta := by rw [hX]; simp (disch := decide) only [gl_hi, gl_lo, bit_get, Nat.reduceSub]
  have xf5_3 : X.extractLsb' 5 3 = scope := by rw [hX]; simp (disch := decide) only [ex_hi, ex_lo, ex_all, Nat.reduceSub]
  have xf0_5 : X.extractLsb' 0 5 = smask := by rw [hX]; simp (disch := decide) only [ex_hi, ex_lo, ex_all, Nat.reduceSub]
  exact roundTrip_two hW' hX' rfl rfl wf24_6 rfl (fun h => nomatch h) wf30_2 (by
    rw [decodeTwo_18 _ _ _ wf24_6]
    simp only [decodeHandle, ↓reduceIte, BitVec.reduceEq, and_false, false_and, and_self, not_true_eq_false, and_true, true_and, wf0_9, wf17_2, wf9_5, xf8_23, wf19_5, wf14_3, xb31, xf5_3, xf0_5])

theorem RoundTrip.htest (o : HtestO) : RoundTrip.Statement (.htest o) := by
  obtain ⟨q, d, a⟩ := o
  generalize hW' : encode0 (.htest ⟨q, d, a⟩) = W
  have hW : W = q.code ++ 0x18#6 ++ 0#2 ++ d ++ 0#2 ++ a ++ 0#5 ++ 0x1#9 := hW'.symm
  have wf0_9 : W.extractLsb' 0 9 = 0x1#9 := by rw [hW]; simp (disch := decide) only [ex_hi, ex_lo, ex_all, Nat.reduceSub]
  have wf22_2 : W.extractLsb' 22 2 = 0#2 := by rw [hW]; simp (disch := decide) only [ex_hi, ex_lo, ex_all, Nat.reduceSub]
  have wf17_2 : W.extractLsb' 17 2 = 0#2 := by rw [hW]; simp (disch := decide) only [ex_hi, ex_lo, ex_all, Nat.reduceSub]
  have wf9_5 : W.extractLsb' 9 5 = 0#5 := by rw [hW]; simp (disch := decide) only [ex_hi, ex_lo, ex_all, Nat.reduceSub]
  have wf19_3 : W.extractLsb' 19 3 = d := by rw [hW]; simp (disch := decide) only [ex_hi, ex_lo, ex_all, Nat.reduceSub]
  have wf14_3 : W.extractLsb' 14 3 = a := by rw [hW]; simp (disch := decide) only [ex_hi, ex_lo, ex_all, Nat.reduceSub]
  have wf24_6 : W.extractLsb' 24 6 = 0x18#6 := by rw [hW]; simp (disch := decide) only [ex_hi, ex_lo, ex_all, Nat.reduceSub]
  have wf30_2 : W.extractLsb' 30 2 = q.code := by rw [hW]; simp (disch := decide) only [ex_hi, ex_lo, ex_all, Nat.reduceSub]
  generalize hX' : (encodeExt (.htest ⟨q, d, a⟩)).getD 0 = X
  have hX : X = 0#32 := hX'.symm
  have xf0_32 : X.extractLsb' 0 32 = 0#32 := by rw [hX]; simp (disch := decide) only [ex_hi, ex_lo, ex_all, Nat.reduceSub]
  exact roundTrip_two hW' hX' rfl rfl wf24_6 rfl (fun h => nomatch h) wf30_2 (by
    rw [decodeTwo_18 _ _ _ wf24_6]
    simp only [decodeHandle, ↓reduceIte, BitVec.reduceEq, and_false, false_and, and_self, not_true_eq_false, and_true, true_and, wf0_9, wf22_2, wf17_2, wf9_5, xf0_32, wf19_3, wf14_3])

theorem RoundTrip.hcancel (o : HcanO) : RoundTrip.Statement (.hcancel o) := by
  obtain ⟨q, a⟩ := o
  generalize hW' : encode0 (.hcancel ⟨q, a⟩) = W
  have hW : W = q.code ++ 0x18#6 ++ 0#7 ++ a ++ 0#5 ++ 0x2#9 := hW'.symm
  have wf0_9 : W.extractLsb' 0 9 = 0x2#9 := by rw [hW]; simp (disch := decide) only [ex_hi, ex_lo, ex_all, Nat.reduceSub]
  have wf17_7 : W.extractLsb' 17 7 = 0#7 := by rw [hW]; simp (disch := decide) only [ex_hi, ex_lo, ex_all, Nat.reduceSub]
  have wf9_5 : W.extractLsb' 9 5 = 0#5 := by rw [hW]; simp (disch := decide) only [ex_hi, ex_lo, ex_all, Nat.reduceSub]
  have wf14_3 : W.extractLsb' 14 3 = a := by rw [hW]; simp (disch := decide) only [ex_hi, ex_lo, ex_all, Nat.reduceSub]
  have wf24_6 : W.extractLsb' 24 6 = 0x18#6 := by rw [hW]; simp (disch := decide) only [ex_hi, ex_lo, ex_all, Nat.reduceSub]
  have wf30_2 : W.extractLsb' 30 2 = q.code := by rw [hW]; simp (disch := decide) only [ex_hi, ex_lo, ex_all, Nat.reduceSub]
  generalize hX' : (encodeExt (.hcancel ⟨q, a⟩)).getD 0 = X
  have hX : X = 0#32 := hX'.symm
  have xf0_32 : X.extractLsb' 0 32 = 0#32 := by rw [hX]; simp (disch := decide) only [ex_hi, ex_lo, ex_all, Nat.reduceSub]
  exact roundTrip_two hW' hX' rfl rfl wf24_6 rfl (fun h => nomatch h) wf30_2 (by
    rw [decodeTwo_18 _ _ _ wf24_6]
    simp only [decodeHandle, ↓reduceIte, BitVec.reduceEq, and_false, false_and, and_self, not_true_eq_false, and_true, true_and, wf0_9, wf17_7, wf9_5, xf0_32, wf14_3])

theorem RoundTrip.hmovH (o : HmovO) : RoundTrip.Statement (.hmovH o) := by
  obtain ⟨q, d, a, ta⟩ := o
  generalize hW' : encode0 (.hmovH ⟨q, d, a, ta⟩) = W
  have hW : W = q.code ++ 0x18#6 ++ 0#2 ++ d ++ 0#2 ++ a ++ 0#5 ++ 0x3#9 := hW'.symm
  have wf0_9 : W.extractLsb' 0 9 = 0x3#9 := by rw [hW]; simp (disch := decide) only [ex_hi, ex_lo, ex_all, Nat.reduceSub]
  have wf22_2 : W.extractLsb' 22 2 = 0#2 := by rw [hW]; simp (disch := decide) only [ex_hi, ex_lo, ex_all, Nat.reduceSub]
  have wf17_2 : W.extractLsb' 17 2 = 0#2 := by rw [hW]; simp (disch := decide) only [ex_hi, ex_lo, ex_all, Nat.reduceSub]
  have wf9_5 : W.extractLsb' 9 5 = 0#5 := by rw [hW]; simp (disch := decide) only [ex_hi, ex_lo, ex_all, Nat.reduceSub]
  have wf19_3 : W.extractLsb' 19 3 = d := by rw [hW]; simp (disch := decide) only [ex_hi, ex_lo, ex_all, Nat.reduceSub]
  have wf14_3 : W.extractLsb' 14 3 = a := by rw [hW]; simp (disch := decide) only [ex_hi, ex_lo, ex_all, Nat.reduceSub]
  have wf24_6 : W.extractLsb' 24 6 = 0x18#6 := by rw [hW]; simp (disch := decide) only [ex_hi, ex_lo, ex_all, Nat.reduceSub]
  have wf30_2 : W.extractLsb' 30 2 = q.code := by rw [hW]; simp (disch := decide) only [ex_hi, ex_lo, ex_all, Nat.reduceSub]
  generalize hX' : (encodeExt (.hmovH ⟨q, d, a, ta⟩)).getD 0 = X
  have hX : X = bit ta ++ 0#31 := hX'.symm
  have xf0_31 : X.extractLsb' 0 31 = 0#31 := by rw [hX]; simp (disch := decide) only [ex_hi, ex_lo, ex_all, Nat.reduceSub]
  have xb31 : X.getLsbD 31 = ta := by rw [hX]; simp (disch := decide) only [gl_hi, gl_lo, bit_get, Nat.reduceSub]
  exact roundTrip_two hW' hX' rfl rfl wf24_6 rfl (fun h => nomatch h) wf30_2 (by
    rw [decodeTwo_18 _ _ _ wf24_6]
    simp only [decodeHandle, ↓reduceIte, BitVec.reduceEq, and_false, false_and, and_self, not_true_eq_false, and_true, true_and, wf0_9, wf22_2, wf17_2, wf9_5, xf0_31, wf19_3, wf14_3, xb31])

theorem RoundTrip.hmovG (o : HmovG) : RoundTrip.Statement (.hmovG o) := by
  obtain ⟨q, d, a, ta⟩ := o
  generalize hW' : encode0 (.hmovG ⟨q, d, a, ta⟩) = W
  have hW : W = q.code ++ 0x18#6 ++ 0#2 ++ d ++ a ++ 0#5 ++ 0x4#9 := hW'.symm
  have wf0_9 : W.extractLsb' 0 9 = 0x4#9 := by rw [hW]; simp (disch := decide) only [ex_hi, ex_lo, ex_all, Nat.reduceSub]
  have wf22_2 : W.extractLsb' 22 2 = 0#2 := by rw [hW]; simp (disch := decide) only [ex_hi, ex_lo, ex_all, Nat.reduceSub]
  have wf9_5 : W.extractLsb' 9 5 = 0#5 := by rw [hW]; simp (disch := decide) only [ex_hi, ex_lo, ex_all, Nat.reduceSub]
  have wf19_3 : W.extractLsb' 19 3 = d := by rw [hW]; simp (disch := decide) only [ex_hi, ex_lo, ex_all, Nat.reduceSub]
  have wf14_5 : W.extractLsb' 14 5 = a := by rw [hW]; simp (disch := decide) only [ex_hi, ex_lo, ex_all, Nat.reduceSub]
  have wf24_6 : W.extractLsb' 24 6 = 0x18#6 := by rw [hW]; simp (disch := decide) only [ex_hi, ex_lo, ex_all, Nat.reduceSub]
  have wf30_2 : W.extractLsb' 30 2 = q.code := by rw [hW]; simp (disch := decide) only [ex_hi, ex_lo, ex_all, Nat.reduceSub]
  generalize hX' : (encodeExt (.hmovG ⟨q, d, a, ta⟩)).getD 0 = X
  have hX : X = bit ta ++ 0#31 := hX'.symm
  have xf0_31 : X.extractLsb' 0 31 = 0#31 := by rw [hX]; simp (disch := decide) only [ex_hi, ex_lo, ex_all, Nat.reduceSub]
  have xb31 : X.getLsbD 31 = ta := by rw [hX]; simp (disch := decide) only [gl_hi, gl_lo, bit_get, Nat.reduceSub]
  exact roundTrip_two hW' hX' rfl rfl wf24_6 rfl (fun h => nomatch h) wf30_2 (by
    rw [decodeTwo_18 _ _ _ wf24_6]
    simp only [decodeHandle, ↓reduceIte, BitVec.reduceEq, and_false, false_and, and_self, not_true_eq_false, and_true, true_and, wf0_9, wf22_2, wf9_5, xf0_31, wf19_3, wf14_5, xb31])

theorem RoundTrip.inbox (o : InboxO) : RoundTrip.Statement (.inbox o) := by
  obtain ⟨q, d, b, nb⟩ := o
  generalize hW' : encode0 (.inbox ⟨q, d, b, nb⟩) = W
  have hW : W = q.code ++ 0x18#6 ++ d ++ 0#5 ++ b ++ 0x5#9 := hW'.symm
  have wf0_9 : W.extractLsb' 0 9 = 0x5#9 := by rw [hW]; simp (disch := decide) only [ex_hi, ex_lo, ex_all, Nat.reduceSub]
  have wf14_5 : W.extractLsb' 14 5 = 0#5 := by rw [hW]; simp (disch := decide) only [ex_hi, ex_lo, ex_all, Nat.reduceSub]
  have wf19_5 : W.extractLsb' 19 5 = d := by rw [hW]; simp (disch := decide) only [ex_hi, ex_lo, ex_all, Nat.reduceSub]
  have wf9_5 : W.extractLsb' 9 5 = b := by rw [hW]; simp (disch := decide) only [ex_hi, ex_lo, ex_all, Nat.reduceSub]
  have wf24_6 : W.extractLsb' 24 6 = 0x18#6 := by rw [hW]; simp (disch := decide) only [ex_hi, ex_lo, ex_all, Nat.reduceSub]
  have wf30_2 : W.extractLsb' 30 2 = q.code := by rw [hW]; simp (disch := decide) only [ex_hi, ex_lo, ex_all, Nat.reduceSub]
  generalize hX' : (encodeExt (.inbox ⟨q, d, b, nb⟩)).getD 0 = X
  have hX : X = 0#31 ++ bit nb := hX'.symm
  have xf1_31 : X.extractLsb' 1 31 = 0#31 := by rw [hX]; simp (disch := decide) only [ex_hi, ex_lo, ex_all, Nat.reduceSub]
  have xb0 : X.getLsbD 0 = nb := by rw [hX]; simp (disch := decide) only [gl_hi, gl_lo, bit_get, Nat.reduceSub]
  exact roundTrip_two hW' hX' rfl rfl wf24_6 rfl (fun h => nomatch h) wf30_2 (by
    rw [decodeTwo_18 _ _ _ wf24_6]
    simp only [decodeHandle, ↓reduceIte, BitVec.reduceEq, and_false, false_and, and_self, not_true_eq_false, and_true, true_and, wf0_9, wf14_5, xf1_31, wf19_5, wf9_5, xb0])

theorem RoundTrip.fenceAcq (o : FenceO) : RoundTrip.Statement (.fenceAcq o) := by
  obtain ⟨q, scope, smask⟩ := o
  generalize hW' : encode0 (.fenceAcq ⟨q, scope, smask⟩) = W
  have hW : W = q.code ++ 0x18#6 ++ 0#15 ++ 0x6#9 := hW'.symm
  have wf0_9 : W.extractLsb' 0 9 = 0x6#9 := by rw [hW]; simp (disch := decide) only [ex_hi, ex_lo, ex_all, Nat.reduceSub]
  have wf9_15 : W.extractLsb' 9 15 = 0#15 := by rw [hW]; simp (disch := decide) only [ex_hi, ex_lo, ex_all, Nat.reduceSub]
  have wf24_6 : W.extractLsb' 24 6 = 0x18#6 := by rw [hW]; simp (disch := decide) only [ex_hi, ex_lo, ex_all, Nat.reduceSub]
  have wf30_2 : W.extractLsb' 30 2 = q.code := by rw [hW]; simp (disch := decide) only [ex_hi, ex_lo, ex_all, Nat.reduceSub]
  generalize hX' : (encodeExt (.fenceAcq ⟨q, scope, smask⟩)).getD 0 = X
  have hX : X = 0#22 ++ 1#2 ++ scope ++ smask := hX'.symm
  have xf10_22 : X.extractLsb' 10 22 = 0#22 := by rw [hX]; simp (disch := decide) only [ex_hi, ex_lo, ex_all, Nat.reduceSub]
  have xf8_2 : X.extractLsb' 8 2 = 1#2 := by rw [hX]; simp (disch := decide) only [ex_hi, ex_lo, ex_all, Nat.reduceSub]
  have xf5_3 : X.extractLsb' 5 3 = scope := by rw [hX]; simp (disch := decide) only [ex_hi, ex_lo, ex_all, Nat.reduceSub]
  have xf0_5 : X.extractLsb' 0 5 = smask := by rw [hX]; simp (disch := decide) only [ex_hi, ex_lo, ex_all, Nat.reduceSub]
  exact roundTrip_two hW' hX' rfl rfl wf24_6 rfl (fun h => nomatch h) wf30_2 (by
    rw [decodeTwo_18 _ _ _ wf24_6]
    simp only [decodeHandle, ↓reduceIte, BitVec.reduceEq, and_false, false_and, and_self, not_true_eq_false, and_true, true_and, wf0_9, wf9_15, xf10_22, xf8_2, xf5_3, xf0_5])

theorem RoundTrip.fenceRel (o : FenceO) : RoundTrip.Statement (.fenceRel o) := by
  obtain ⟨q, scope, smask⟩ := o
  generalize hW' : encode0 (.fenceRel ⟨q, scope, smask⟩) = W
  have hW : W = q.code ++ 0x18#6 ++ 0#15 ++ 0x6#9 := hW'.symm
  have wf0_9 : W.extractLsb' 0 9 = 0x6#9 := by rw [hW]; simp (disch := decide) only [ex_hi, ex_lo, ex_all, Nat.reduceSub]
  have wf9_15 : W.extractLsb' 9 15 = 0#15 := by rw [hW]; simp (disch := decide) only [ex_hi, ex_lo, ex_all, Nat.reduceSub]
  have wf24_6 : W.extractLsb' 24 6 = 0x18#6 := by rw [hW]; simp (disch := decide) only [ex_hi, ex_lo, ex_all, Nat.reduceSub]
  have wf30_2 : W.extractLsb' 30 2 = q.code := by rw [hW]; simp (disch := decide) only [ex_hi, ex_lo, ex_all, Nat.reduceSub]
  generalize hX' : (encodeExt (.fenceRel ⟨q, scope, smask⟩)).getD 0 = X
  have hX : X = 0#22 ++ 2#2 ++ scope ++ smask := hX'.symm
  have xf8_2 : X.extractLsb' 8 2 = 2#2 := by rw [hX]; simp (disch := decide) only [ex_hi, ex_lo, ex_all, Nat.reduceSub]
  have xf10_22 : X.extractLsb' 10 22 = 0#22 := by rw [hX]; simp (disch := decide) only [ex_hi, ex_lo, ex_all, Nat.reduceSub]
  have xf5_3 : X.extractLsb' 5 3 = scope := by rw [hX]; simp (disch := decide) only [ex_hi, ex_lo, ex_all, Nat.reduceSub]
  have xf0_5 : X.extractLsb' 0 5 = smask := by rw [hX]; simp (disch := decide) only [ex_hi, ex_lo, ex_all, Nat.reduceSub]
  exact roundTrip_two hW' hX' rfl rfl wf24_6 rfl (fun h => nomatch h) wf30_2 (by
    rw [decodeTwo_18 _ _ _ wf24_6]
    simp only [decodeHandle, ↓reduceIte, BitVec.reduceEq, and_false, false_and, and_self, not_true_eq_false, and_true, true_and, wf0_9, wf9_15, xf8_2, xf10_22, xf5_3, xf0_5])

theorem RoundTrip.fenceFull (o : FenceO) : RoundTrip.Statement (.fenceFull o) := by
  obtain ⟨q, scope, smask⟩ := o
  generalize hW' : encode0 (.fenceFull ⟨q, scope, smask⟩) = W
  have hW : W = q.code ++ 0x18#6 ++ 0#15 ++ 0x6#9 := hW'.symm
  have wf0_9 : W.extractLsb' 0 9 = 0x6#9 := by rw [hW]; simp (disch := decide) only [ex_hi, ex_lo, ex_all, Nat.reduceSub]
  have wf9_15 : W.extractLsb' 9 15 = 0#15 := by rw [hW]; simp (disch := decide) only [ex_hi, ex_lo, ex_all, Nat.reduceSub]
  have wf24_6 : W.extractLsb' 24 6 = 0x18#6 := by rw [hW]; simp (disch := decide) only [ex_hi, ex_lo, ex_all, Nat.reduceSub]
  have wf30_2 : W.extractLsb' 30 2 = q.code := by rw [hW]; simp (disch := decide) only [ex_hi, ex_lo, ex_all, Nat.reduceSub]
  generalize hX' : (encodeExt (.fenceFull ⟨q, scope, smask⟩)).getD 0 = X
  have hX : X = 0#22 ++ 3#2 ++ scope ++ smask := hX'.symm
  have xf8_2 : X.extractLsb' 8 2 = 3#2 := by rw [hX]; simp (disch := decide) only [ex_hi, ex_lo, ex_all, Nat.reduceSub]
  have xf10_22 : X.extractLsb' 10 22 = 0#22 := by rw [hX]; simp (disch := decide) only [ex_hi, ex_lo, ex_all, Nat.reduceSub]
  have xf5_3 : X.extractLsb' 5 3 = scope := by rw [hX]; simp (disch := decide) only [ex_hi, ex_lo, ex_all, Nat.reduceSub]
  have xf0_5 : X.extractLsb' 0 5 = smask := by rw [hX]; simp (disch := decide) only [ex_hi, ex_lo, ex_all, Nat.reduceSub]
  exact roundTrip_two hW' hX' rfl rfl wf24_6 rfl (fun h => nomatch h) wf30_2 (by
    rw [decodeTwo_18 _ _ _ wf24_6]
    simp only [decodeHandle, ↓reduceIte, BitVec.reduceEq, and_false, false_and, and_self, not_true_eq_false, and_true, true_and, wf0_9, wf9_15, xf8_2, xf10_22, xf5_3, xf0_5])

theorem RoundTrip.emptyG (o : XD) : RoundTrip.Statement (.emptyG o) := by
  obtain ⟨q, d⟩ := o
  generalize hW' : encode0 (.emptyG ⟨q, d⟩) = W
  have hW : W = q.code ++ 0x18#6 ++ d ++ 0#10 ++ 0x7#9 := hW'.symm
  have wf0_9 : W.extractLsb' 0 9 = 0x7#9 := by rw [hW]; simp (disch := decide) only [ex_hi, ex_lo, ex_all, Nat.reduceSub]
  have wf9_10 : W.extractLsb' 9 10 = 0#10 := by rw [hW]; simp (disch := decide) only [ex_hi, ex_lo, ex_all, Nat.reduceSub]
  have wf19_5 : W.extractLsb' 19 5 = d := by rw [hW]; simp (disch := decide) only [ex_hi, ex_lo, ex_all, Nat.reduceSub]
  have wf24_6 : W.extractLsb' 24 6 = 0x18#6 := by rw [hW]; simp (disch := decide) only [ex_hi, ex_lo, ex_all, Nat.reduceSub]
  have wf30_2 : W.extractLsb' 30 2 = q.code := by rw [hW]; simp (disch := decide) only [ex_hi, ex_lo, ex_all, Nat.reduceSub]
  generalize hX' : (encodeExt (.emptyG ⟨q, d⟩)).getD 0 = X
  have hX : X = 0#32 := hX'.symm
  have xf0_32 : X.extractLsb' 0 32 = 0#32 := by rw [hX]; simp (disch := decide) only [ex_hi, ex_lo, ex_all, Nat.reduceSub]
  exact roundTrip_two hW' hX' rfl rfl wf24_6 rfl (fun h => nomatch h) wf30_2 (by
    rw [decodeTwo_18 _ _ _ wf24_6]
    simp only [decodeHandle, ↓reduceIte, BitVec.reduceEq, and_false, false_and, and_self, not_true_eq_false, and_true, true_and, wf0_9, wf9_10, xf0_32, wf19_5])

theorem RoundTrip.emptyV (o : EmptyV) : RoundTrip.Statement (.emptyV o) := by
  obtain ⟨q, d⟩ := o
  generalize hW' : encode0 (.emptyV ⟨q, d⟩) = W
  have hW : W = q.code ++ 0x18#6 ++ 0#1 ++ d ++ 0#10 ++ 0x8#9 := hW'.symm
  have wf0_9 : W.extractLsb' 0 9 = 0x8#9 := by rw [hW]; simp (disch := decide) only [ex_hi, ex_lo, ex_all, Nat.reduceSub]
  have wf23_1 : W.extractLsb' 23 1 = 0#1 := by rw [hW]; simp (disch := decide) only [ex_hi, ex_lo, ex_all, Nat.reduceSub]
  have wf9_10 : W.extractLsb' 9 10 = 0#10 := by rw [hW]; simp (disch := decide) only [ex_hi, ex_lo, ex_all, Nat.reduceSub]
  have wf19_4 : W.extractLsb' 19 4 = d := by rw [hW]; simp (disch := decide) only [ex_hi, ex_lo, ex_all, Nat.reduceSub]
  have wf24_6 : W.extractLsb' 24 6 = 0x18#6 := by rw [hW]; simp (disch := decide) only [ex_hi, ex_lo, ex_all, Nat.reduceSub]
  have wf30_2 : W.extractLsb' 30 2 = q.code := by rw [hW]; simp (disch := decide) only [ex_hi, ex_lo, ex_all, Nat.reduceSub]
  generalize hX' : (encodeExt (.emptyV ⟨q, d⟩)).getD 0 = X
  have hX : X = 0#32 := hX'.symm
  have xf0_32 : X.extractLsb' 0 32 = 0#32 := by rw [hX]; simp (disch := decide) only [ex_hi, ex_lo, ex_all, Nat.reduceSub]
  exact roundTrip_two hW' hX' rfl rfl wf24_6 rfl (fun h => nomatch h) wf30_2 (by
    rw [decodeTwo_18 _ _ _ wf24_6]
    simp only [decodeHandle, ↓reduceIte, BitVec.reduceEq, and_false, false_and, and_self, not_true_eq_false, and_true, true_and, wf0_9, wf23_1, wf9_10, xf0_32, wf19_4])

theorem RoundTrip.emptyH (o : EmptyH) : RoundTrip.Statement (.emptyH o) := by
  obtain ⟨q, d⟩ := o
  generalize hW' : encode0 (.emptyH ⟨q, d⟩) = W
  have hW : W = q.code ++ 0x18#6 ++ 0#2 ++ d ++ 0#10 ++ 0x9#9 := hW'.symm
  have wf0_9 : W.extractLsb' 0 9 = 0x9#9 := by rw [hW]; simp (disch := decide) only [ex_hi, ex_lo, ex_all, Nat.reduceSub]
  have wf22_2 : W.extractLsb' 22 2 = 0#2 := by rw [hW]; simp (disch := decide) only [ex_hi, ex_lo, ex_all, Nat.reduceSub]
  have wf9_10 : W.extractLsb' 9 10 = 0#10 := by rw [hW]; simp (disch := decide) only [ex_hi, ex_lo, ex_all, Nat.reduceSub]
  have wf19_3 : W.extractLsb' 19 3 = d := by rw [hW]; simp (disch := decide) only [ex_hi, ex_lo, ex_all, Nat.reduceSub]
  have wf24_6 : W.extractLsb' 24 6 = 0x18#6 := by rw [hW]; simp (disch := decide) only [ex_hi, ex_lo, ex_all, Nat.reduceSub]
  have wf30_2 : W.extractLsb' 30 2 = q.code := by rw [hW]; simp (disch := decide) only [ex_hi, ex_lo, ex_all, Nat.reduceSub]
  generalize hX' : (encodeExt (.emptyH ⟨q, d⟩)).getD 0 = X
  have hX : X = 0#32 := hX'.symm
  have xf0_32 : X.extractLsb' 0 32 = 0#32 := by rw [hX]; simp (disch := decide) only [ex_hi, ex_lo, ex_all, Nat.reduceSub]
  exact roundTrip_two hW' hX' rfl rfl wf24_6 rfl (fun h => nomatch h) wf30_2 (by
    rw [decodeTwo_18 _ _ _ wf24_6]
    simp only [decodeHandle, ↓reduceIte, BitVec.reduceEq, and_false, false_and, and_self, not_true_eq_false, and_true, true_and, wf0_9, wf22_2, wf9_10, xf0_32, wf19_3])

theorem RoundTrip.bind (o : BindO) : RoundTrip.Statement (.bind o) := by
  obtain ⟨q, n, a, b, ta, tb, kind⟩ := o
  generalize hW' : encode0 (.bind ⟨q, n, a, b, ta, tb, kind⟩) = W
  have hW : W = q.code ++ 0x19#6 ++ 0#3 ++ n ++ a ++ b ++ 0x0#9 := hW'.symm
  have wf0_9 : W.extractLsb' 0 9 = 0x0#9 := by rw [hW]; simp (disch := decide) only [ex_hi, ex_lo, ex_all, Nat.reduceSub]
  have wf21_3 : W.extractLsb' 21 3 = 0#3 := by rw [hW]; simp (disch := decide) only [ex_hi, ex_lo, ex_all, Nat.reduceSub]
  have wf19_2 : W.extractLsb' 19 2 = n := by rw [hW]; simp (disch := decide) only [ex_hi, ex_lo, ex_all, Nat.reduceSub]
  have wf14_5 : W.extractLsb' 14 5 = a := by rw [hW]; simp (disch := decide) only [ex_hi, ex_lo, ex_all, Nat.reduceSub]
  have wf9_5 : W.extractLsb' 9 5 = b := by rw [hW]; simp (disch := decide) only [ex_hi, ex_lo, ex_all, Nat.reduceSub]
  have wf24_6 : W.extractLsb' 24 6 = 0x19#6 := by rw [hW]; simp (disch := decide) only [ex_hi, ex_lo, ex_all, Nat.reduceSub]
  have wf30_2 : W.extractLsb' 30 2 = q.code := by rw [hW]; simp (disch := decide) only [ex_hi, ex_lo, ex_all, Nat.reduceSub]
  generalize hX' : (encodeExt (.bind ⟨q, n, a, b, ta, tb, kind⟩)).getD 0 = X
  have hX : X = bit ta ++ bit tb ++ 0#28 ++ kind := hX'.symm
  have xf2_28 : X.extractLsb' 2 28 = 0#28 := by rw [hX]; simp (disch := decide) only [ex_hi, ex_lo, ex_all, Nat.reduceSub]
  have xb31 : X.getLsbD 31 = ta := by rw [hX]; simp (disch := decide) only [gl_hi, gl_lo, bit_get, Nat.reduceSub]
  have xb30 : X.getLsbD 30 = tb := by rw [hX]; simp (disch := decide) only [gl_hi, gl_lo, bit_get, Nat.reduceSub]
  have xf0_2 : X.extractLsb' 0 2 = kind := by rw [hX]; simp (disch := decide) only [ex_hi, ex_lo, ex_all, Nat.reduceSub]
  exact roundTrip_two hW' hX' rfl rfl wf24_6 rfl (fun h => nomatch h) wf30_2 (by
    rw [decodeTwo_19 _ _ _ wf24_6]
    simp only [decodeStream, ↓reduceIte, BitVec.reduceEq, and_false, false_and, and_self, not_true_eq_false, and_true, true_and, wf0_9, wf21_3, xf2_28, wf19_2, wf14_5, wf9_5, xb31, xb30, xf0_2])

theorem RoundTrip.unbind (o : UnbindO) : RoundTrip.Statement (.unbind o) := by
  obtain ⟨q, d, n⟩ := o
  generalize hW' : encode0 (.unbind ⟨q, d, n⟩) = W
  have hW : W = q.code ++ 0x19#6 ++ d ++ 0#3 ++ n ++ 0#5 ++ 0x1#9 := hW'.symm
  have wf0_9 : W.extractLsb' 0 9 = 0x1#9 := by rw [hW]; simp (disch := decide) only [ex_hi, ex_lo, ex_all, Nat.reduceSub]
  have wf16_3 : W.extractLsb' 16 3 = 0#3 := by rw [hW]; simp (disch := decide) only [ex_hi, ex_lo, ex_all, Nat.reduceSub]
  have wf9_5 : W.extractLsb' 9 5 = 0#5 := by rw [hW]; simp (disch := decide) only [ex_hi, ex_lo, ex_all, Nat.reduceSub]
  have wf19_5 : W.extractLsb' 19 5 = d := by rw [hW]; simp (disch := decide) only [ex_hi, ex_lo, ex_all, Nat.reduceSub]
  have wf14_2 : W.extractLsb' 14 2 = n := by rw [hW]; simp (disch := decide) only [ex_hi, ex_lo, ex_all, Nat.reduceSub]
  have wf24_6 : W.extractLsb' 24 6 = 0x19#6 := by rw [hW]; simp (disch := decide) only [ex_hi, ex_lo, ex_all, Nat.reduceSub]
  have wf30_2 : W.extractLsb' 30 2 = q.code := by rw [hW]; simp (disch := decide) only [ex_hi, ex_lo, ex_all, Nat.reduceSub]
  generalize hX' : (encodeExt (.unbind ⟨q, d, n⟩)).getD 0 = X
  have hX : X = 0#32 := hX'.symm
  have xf0_32 : X.extractLsb' 0 32 = 0#32 := by rw [hX]; simp (disch := decide) only [ex_hi, ex_lo, ex_all, Nat.reduceSub]
  exact roundTrip_two hW' hX' rfl rfl wf24_6 rfl (fun h => nomatch h) wf30_2 (by
    rw [decodeTwo_19 _ _ _ wf24_6]
    simp only [decodeStream, ↓reduceIte, BitVec.reduceEq, and_false, false_and, and_self, not_true_eq_false, and_true, true_and, wf0_9, wf16_3, wf9_5, xf0_32, wf19_5, wf14_2])

theorem RoundTrip.youtElementWrite (c : CoreId) (port : BitVec 2) : RoundTrip.Statement (.youtElementWrite c port) := fun h => nomatch h

theorem RoundTrip.yinReadAhead (c : CoreId) (port : BitVec 2) : RoundTrip.Statement (.yinReadAhead c port) := fun h => nomatch h

theorem RoundTrip.vectorGrant (u : SvuId) : RoundTrip.Statement (.vectorGrant u) := fun h => nomatch h

theorem RoundTrip.vectorComplete (c : CoreId) (n : Nat) : RoundTrip.Statement (.vectorComplete c n) := fun h => nomatch h

theorem RoundTrip.headAged (c : CoreId) : RoundTrip.Statement (.headAged c) := fun h => nomatch h

theorem RoundTrip.vectorTrapDelivery (c : CoreId) : RoundTrip.Statement (.vectorTrapDelivery c) := fun h => nomatch h

theorem RoundTrip.vadd (o : V3) : RoundTrip.Statement (.vadd o) := by
  obtain ⟨q, d, a, b, t, m⟩ := o
  generalize hW' : encode0 (.vadd ⟨q, d, a, b, t, m⟩) = W
  have hW : W = q.code ++ 0x20#6 ++ d ++ a ++ b ++ t.code ++ m ++ 0x0#6 := hW'.symm
  have wf0_6 : W.extractLsb' 0 6 = 0x0#6 := by rw [hW]; simp (disch := decide) only [ex_hi, ex_lo, ex_all, Nat.reduceSub]
  have wf20_4 : W.extractLsb' 20 4 = d := by rw [hW]; simp (disch := decide) only [ex_hi, ex_lo, ex_all, Nat.reduceSub]
  have wf16_4 : W.extractLsb' 16 4 = a := by rw [hW]; simp (disch := decide) only [ex_hi, ex_lo, ex_all, Nat.reduceSub]
  have wf12_4 : W.extractLsb' 12 4 = b := by rw [hW]; simp (disch := decide) only [ex_hi, ex_lo, ex_all, Nat.reduceSub]
  have wf8_4 : W.extractLsb' 8 4 = t.code := by rw [hW]; simp (disch := decide) only [ex_hi, ex_lo, ex_all, Nat.reduceSub]
  have wf6_2 : W.extractLsb' 6 2 = m := by rw [hW]; simp (disch := decide) only [ex_hi, ex_lo, ex_all, Nat.reduceSub]
  have wf24_6 : W.extractLsb' 24 6 = 0x20#6 := by rw [hW]; simp (disch := decide) only [ex_hi, ex_lo, ex_all, Nat.reduceSub]
  have wf30_2 : W.extractLsb' 30 2 = q.code := by rw [hW]; simp (disch := decide) only [ex_hi, ex_lo, ex_all, Nat.reduceSub]
  exact roundTrip_one hW' rfl rfl wf24_6 rfl wf30_2 (by
    rw [decodeOne_20 _ _ wf24_6]
    simp only [decodeVint, ↓reduceIte, BitVec.reduceEq, and_false, false_and, and_self, not_true_eq_false, and_true, true_and, wf0_6, wf20_4, wf16_4, wf12_4, wf8_4, ETy.ofCode_code, wf6_2])

theorem RoundTrip.vsub (o : V3) : RoundTrip.Statement (.vsub o) := by
  obtain ⟨q, d, a, b, t, m⟩ := o
  generalize hW' : encode0 (.vsub ⟨q, d, a, b, t, m⟩) = W
  have hW : W = q.code ++ 0x20#6 ++ d ++ a ++ b ++ t.code ++ m ++ 0x1#6 := hW'.symm
  have wf0_6 : W.extractLsb' 0 6 = 0x1#6 := by rw [hW]; simp (disch := decide) only [ex_hi, ex_lo, ex_all, Nat.reduceSub]
  have wf20_4 : W.extractLsb' 20 4 = d := by rw [hW]; simp (disch := decide) only [ex_hi, ex_lo, ex_all, Nat.reduceSub]
  have wf16_4 : W.extractLsb' 16 4 = a := by rw [hW]; simp (disch := decide) only [ex_hi, ex_lo, ex_all, Nat.reduceSub]
  have wf12_4 : W.extractLsb' 12 4 = b := by rw [hW]; simp (disch := decide) only [ex_hi, ex_lo, ex_all, Nat.reduceSub]
  have wf8_4 : W.extractLsb' 8 4 = t.code := by rw [hW]; simp (disch := decide) only [ex_hi, ex_lo, ex_all, Nat.reduceSub]
  have wf6_2 : W.extractLsb' 6 2 = m := by rw [hW]; simp (disch := decide) only [ex_hi, ex_lo, ex_all, Nat.reduceSub]
  have wf24_6 : W.extractLsb' 24 6 = 0x20#6 := by rw [hW]; simp (disch := decide) only [ex_hi, ex_lo, ex_all, Nat.reduceSub]
  have wf30_2 : W.extractLsb' 30 2 = q.code := by rw [hW]; simp (disch := decide) only [ex_hi, ex_lo, ex_all, Nat.reduceSub]
  exact roundTrip_one hW' rfl rfl wf24_6 rfl wf30_2 (by
    rw [decodeOne_20 _ _ wf24_6]
    simp only [decodeVint, ↓reduceIte, BitVec.reduceEq, and_false, false_and, and_self, not_true_eq_false, and_true, true_and, wf0_6, wf20_4, wf16_4, wf12_4, wf8_4, ETy.ofCode_code, wf6_2])

theorem RoundTrip.vmul (o : V3) : RoundTrip.Statement (.vmul o) := by
  obtain ⟨q, d, a, b, t, m⟩ := o
  generalize hW' : encode0 (.vmul ⟨q, d, a, b, t, m⟩) = W
  have hW : W = q.code ++ 0x20#6 ++ d ++ a ++ b ++ t.code ++ m ++ 0x2#6 := hW'.symm
  have wf0_6 : W.extractLsb' 0 6 = 0x2#6 := by rw [hW]; simp (disch := decide) only [ex_hi, ex_lo, ex_all, Nat.reduceSub]
  have wf20_4 : W.extractLsb' 20 4 = d := by rw [hW]; simp (disch := decide) only [ex_hi, ex_lo, ex_all, Nat.reduceSub]
  have wf16_4 : W.extractLsb' 16 4 = a := by rw [hW]; simp (disch := decide) only [ex_hi, ex_lo, ex_all, Nat.reduceSub]
  have wf12_4 : W.extractLsb' 12 4 = b := by rw [hW]; simp (disch := decide) only [ex_hi, ex_lo, ex_all, Nat.reduceSub]
  have wf8_4 : W.extractLsb' 8 4 = t.code := by rw [hW]; simp (disch := decide) only [ex_hi, ex_lo, ex_all, Nat.reduceSub]
  have wf6_2 : W.extractLsb' 6 2 = m := by rw [hW]; simp (disch := decide) only [ex_hi, ex_lo, ex_all, Nat.reduceSub]
  have wf24_6 : W.extractLsb' 24 6 = 0x20#6 := by rw [hW]; simp (disch := decide) only [ex_hi, ex_lo, ex_all, Nat.reduceSub]
  have wf30_2 : W.extractLsb' 30 2 = q.code := by rw [hW]; simp (disch := decide) only [ex_hi, ex_lo, ex_all, Nat.reduceSub]
  exact roundTrip_one hW' rfl rfl wf24_6 rfl wf30_2 (by
    rw [decodeOne_20 _ _ wf24_6]
    simp only [decodeVint, ↓reduceIte, BitVec.reduceEq, and_false, false_and, and_self, not_true_eq_false, and_true, true_and, wf0_6, wf20_4, wf16_4, wf12_4, wf8_4, ETy.ofCode_code, wf6_2])

theorem RoundTrip.vmulh (o : V3) : RoundTrip.Statement (.vmulh o) := by
  obtain ⟨q, d, a, b, t, m⟩ := o
  generalize hW' : encode0 (.vmulh ⟨q, d, a, b, t, m⟩) = W
  have hW : W = q.code ++ 0x20#6 ++ d ++ a ++ b ++ t.code ++ m ++ 0x3#6 := hW'.symm
  have wf0_6 : W.extractLsb' 0 6 = 0x3#6 := by rw [hW]; simp (disch := decide) only [ex_hi, ex_lo, ex_all, Nat.reduceSub]
  have wf20_4 : W.extractLsb' 20 4 = d := by rw [hW]; simp (disch := decide) only [ex_hi, ex_lo, ex_all, Nat.reduceSub]
  have wf16_4 : W.extractLsb' 16 4 = a := by rw [hW]; simp (disch := decide) only [ex_hi, ex_lo, ex_all, Nat.reduceSub]
  have wf12_4 : W.extractLsb' 12 4 = b := by rw [hW]; simp (disch := decide) only [ex_hi, ex_lo, ex_all, Nat.reduceSub]
  have wf8_4 : W.extractLsb' 8 4 = t.code := by rw [hW]; simp (disch := decide) only [ex_hi, ex_lo, ex_all, Nat.reduceSub]
  have wf6_2 : W.extractLsb' 6 2 = m := by rw [hW]; simp (disch := decide) only [ex_hi, ex_lo, ex_all, Nat.reduceSub]
  have wf24_6 : W.extractLsb' 24 6 = 0x20#6 := by rw [hW]; simp (disch := decide) only [ex_hi, ex_lo, ex_all, Nat.reduceSub]
  have wf30_2 : W.extractLsb' 30 2 = q.code := by rw [hW]; simp (disch := decide) only [ex_hi, ex_lo, ex_all, Nat.reduceSub]
  exact roundTrip_one hW' rfl rfl wf24_6 rfl wf30_2 (by
    rw [decodeOne_20 _ _ wf24_6]
    simp only [decodeVint, ↓reduceIte, BitVec.reduceEq, and_false, false_and, and_self, not_true_eq_false, and_true, true_and, wf0_6, wf20_4, wf16_4, wf12_4, wf8_4, ETy.ofCode_code, wf6_2])

theorem RoundTrip.vmac (o : V3) : RoundTrip.Statement (.vmac o) := by
  obtain ⟨q, d, a, b, t, m⟩ := o
  generalize hW' : encode0 (.vmac ⟨q, d, a, b, t, m⟩) = W
  have hW : W = q.code ++ 0x20#6 ++ d ++ a ++ b ++ t.code ++ m ++ 0x4#6 := hW'.symm
  have wf0_6 : W.extractLsb' 0 6 = 0x4#6 := by rw [hW]; simp (disch := decide) only [ex_hi, ex_lo, ex_all, Nat.reduceSub]
  have wf20_4 : W.extractLsb' 20 4 = d := by rw [hW]; simp (disch := decide) only [ex_hi, ex_lo, ex_all, Nat.reduceSub]
  have wf16_4 : W.extractLsb' 16 4 = a := by rw [hW]; simp (disch := decide) only [ex_hi, ex_lo, ex_all, Nat.reduceSub]
  have wf12_4 : W.extractLsb' 12 4 = b := by rw [hW]; simp (disch := decide) only [ex_hi, ex_lo, ex_all, Nat.reduceSub]
  have wf8_4 : W.extractLsb' 8 4 = t.code := by rw [hW]; simp (disch := decide) only [ex_hi, ex_lo, ex_all, Nat.reduceSub]
  have wf6_2 : W.extractLsb' 6 2 = m := by rw [hW]; simp (disch := decide) only [ex_hi, ex_lo, ex_all, Nat.reduceSub]
  have wf24_6 : W.extractLsb' 24 6 = 0x20#6 := by rw [hW]; simp (disch := decide) only [ex_hi, ex_lo, ex_all, Nat.reduceSub]
  have wf30_2 : W.extractLsb' 30 2 = q.code := by rw [hW]; simp (disch := decide) only [ex_hi, ex_lo, ex_all, Nat.reduceSub]
  exact roundTrip_one hW' rfl rfl wf24_6 rfl wf30_2 (by
    rw [decodeOne_20 _ _ wf24_6]
    simp only [decodeVint, ↓reduceIte, BitVec.reduceEq, and_false, false_and, and_self, not_true_eq_false, and_true, true_and, wf0_6, wf20_4, wf16_4, wf12_4, wf8_4, ETy.ofCode_code, wf6_2])

theorem RoundTrip.vadds (o : V3) : RoundTrip.Statement (.vadds o) := by
  obtain ⟨q, d, a, b, t, m⟩ := o
  generalize hW' : encode0 (.vadds ⟨q, d, a, b, t, m⟩) = W
  have hW : W = q.code ++ 0x20#6 ++ d ++ a ++ b ++ t.code ++ m ++ 0x5#6 := hW'.symm
  have wf0_6 : W.extractLsb' 0 6 = 0x5#6 := by rw [hW]; simp (disch := decide) only [ex_hi, ex_lo, ex_all, Nat.reduceSub]
  have wf20_4 : W.extractLsb' 20 4 = d := by rw [hW]; simp (disch := decide) only [ex_hi, ex_lo, ex_all, Nat.reduceSub]
  have wf16_4 : W.extractLsb' 16 4 = a := by rw [hW]; simp (disch := decide) only [ex_hi, ex_lo, ex_all, Nat.reduceSub]
  have wf12_4 : W.extractLsb' 12 4 = b := by rw [hW]; simp (disch := decide) only [ex_hi, ex_lo, ex_all, Nat.reduceSub]
  have wf8_4 : W.extractLsb' 8 4 = t.code := by rw [hW]; simp (disch := decide) only [ex_hi, ex_lo, ex_all, Nat.reduceSub]
  have wf6_2 : W.extractLsb' 6 2 = m := by rw [hW]; simp (disch := decide) only [ex_hi, ex_lo, ex_all, Nat.reduceSub]
  have wf24_6 : W.extractLsb' 24 6 = 0x20#6 := by rw [hW]; simp (disch := decide) only [ex_hi, ex_lo, ex_all, Nat.reduceSub]
  have wf30_2 : W.extractLsb' 30 2 = q.code := by rw [hW]; simp (disch := decide) only [ex_hi, ex_lo, ex_all, Nat.reduceSub]
  exact roundTrip_one hW' rfl rfl wf24_6 rfl wf30_2 (by
    rw [decodeOne_20 _ _ wf24_6]
    simp only [decodeVint, ↓reduceIte, BitVec.reduceEq, and_false, false_and, and_self, not_true_eq_false, and_true, true_and, wf0_6, wf20_4, wf16_4, wf12_4, wf8_4, ETy.ofCode_code, wf6_2])

theorem RoundTrip.vsubs (o : V3) : RoundTrip.Statement (.vsubs o) := by
  obtain ⟨q, d, a, b, t, m⟩ := o
  generalize hW' : encode0 (.vsubs ⟨q, d, a, b, t, m⟩) = W
  have hW : W = q.code ++ 0x20#6 ++ d ++ a ++ b ++ t.code ++ m ++ 0x6#6 := hW'.symm
  have wf0_6 : W.extractLsb' 0 6 = 0x6#6 := by rw [hW]; simp (disch := decide) only [ex_hi, ex_lo, ex_all, Nat.reduceSub]
  have wf20_4 : W.extractLsb' 20 4 = d := by rw [hW]; simp (disch := decide) only [ex_hi, ex_lo, ex_all, Nat.reduceSub]
  have wf16_4 : W.extractLsb' 16 4 = a := by rw [hW]; simp (disch := decide) only [ex_hi, ex_lo, ex_all, Nat.reduceSub]
  have wf12_4 : W.extractLsb' 12 4 = b := by rw [hW]; simp (disch := decide) only [ex_hi, ex_lo, ex_all, Nat.reduceSub]
  have wf8_4 : W.extractLsb' 8 4 = t.code := by rw [hW]; simp (disch := decide) only [ex_hi, ex_lo, ex_all, Nat.reduceSub]
  have wf6_2 : W.extractLsb' 6 2 = m := by rw [hW]; simp (disch := decide) only [ex_hi, ex_lo, ex_all, Nat.reduceSub]
  have wf24_6 : W.extractLsb' 24 6 = 0x20#6 := by rw [hW]; simp (disch := decide) only [ex_hi, ex_lo, ex_all, Nat.reduceSub]
  have wf30_2 : W.extractLsb' 30 2 = q.code := by rw [hW]; simp (disch := decide) only [ex_hi, ex_lo, ex_all, Nat.reduceSub]
  exact roundTrip_one hW' rfl rfl wf24_6 rfl wf30_2 (by
    rw [decodeOne_20 _ _ wf24_6]
    simp only [decodeVint, ↓reduceIte, BitVec.reduceEq, and_false, false_and, and_self, not_true_eq_false, and_true, true_and, wf0_6, wf20_4, wf16_4, wf12_4, wf8_4, ETy.ofCode_code, wf6_2])

theorem RoundTrip.vmuls (o : V3) : RoundTrip.Statement (.vmuls o) := by
  obtain ⟨q, d, a, b, t, m⟩ := o
  generalize hW' : encode0 (.vmuls ⟨q, d, a, b, t, m⟩) = W
  have hW : W = q.code ++ 0x20#6 ++ d ++ a ++ b ++ t.code ++ m ++ 0x7#6 := hW'.symm
  have wf0_6 : W.extractLsb' 0 6 = 0x7#6 := by rw [hW]; simp (disch := decide) only [ex_hi, ex_lo, ex_all, Nat.reduceSub]
  have wf20_4 : W.extractLsb' 20 4 = d := by rw [hW]; simp (disch := decide) only [ex_hi, ex_lo, ex_all, Nat.reduceSub]
  have wf16_4 : W.extractLsb' 16 4 = a := by rw [hW]; simp (disch := decide) only [ex_hi, ex_lo, ex_all, Nat.reduceSub]
  have wf12_4 : W.extractLsb' 12 4 = b := by rw [hW]; simp (disch := decide) only [ex_hi, ex_lo, ex_all, Nat.reduceSub]
  have wf8_4 : W.extractLsb' 8 4 = t.code := by rw [hW]; simp (disch := decide) only [ex_hi, ex_lo, ex_all, Nat.reduceSub]
  have wf6_2 : W.extractLsb' 6 2 = m := by rw [hW]; simp (disch := decide) only [ex_hi, ex_lo, ex_all, Nat.reduceSub]
  have wf24_6 : W.extractLsb' 24 6 = 0x20#6 := by rw [hW]; simp (disch := decide) only [ex_hi, ex_lo, ex_all, Nat.reduceSub]
  have wf30_2 : W.extractLsb' 30 2 = q.code := by rw [hW]; simp (disch := decide) only [ex_hi, ex_lo, ex_all, Nat.reduceSub]
  exact roundTrip_one hW' rfl rfl wf24_6 rfl wf30_2 (by
    rw [decodeOne_20 _ _ wf24_6]
    simp only [decodeVint, ↓reduceIte, BitVec.reduceEq, and_false, false_and, and_self, not_true_eq_false, and_true, true_and, wf0_6, wf20_4, wf16_4, wf12_4, wf8_4, ETy.ofCode_code, wf6_2])

theorem RoundTrip.vmacs (o : V3) : RoundTrip.Statement (.vmacs o) := by
  obtain ⟨q, d, a, b, t, m⟩ := o
  generalize hW' : encode0 (.vmacs ⟨q, d, a, b, t, m⟩) = W
  have hW : W = q.code ++ 0x20#6 ++ d ++ a ++ b ++ t.code ++ m ++ 0x8#6 := hW'.symm
  have wf0_6 : W.extractLsb' 0 6 = 0x8#6 := by rw [hW]; simp (disch := decide) only [ex_hi, ex_lo, ex_all, Nat.reduceSub]
  have wf20_4 : W.extractLsb' 20 4 = d := by rw [hW]; simp (disch := decide) only [ex_hi, ex_lo, ex_all, Nat.reduceSub]
  have wf16_4 : W.extractLsb' 16 4 = a := by rw [hW]; simp (disch := decide) only [ex_hi, ex_lo, ex_all, Nat.reduceSub]
  have wf12_4 : W.extractLsb' 12 4 = b := by rw [hW]; simp (disch := decide) only [ex_hi, ex_lo, ex_all, Nat.reduceSub]
  have wf8_4 : W.extractLsb' 8 4 = t.code := by rw [hW]; simp (disch := decide) only [ex_hi, ex_lo, ex_all, Nat.reduceSub]
  have wf6_2 : W.extractLsb' 6 2 = m := by rw [hW]; simp (disch := decide) only [ex_hi, ex_lo, ex_all, Nat.reduceSub]
  have wf24_6 : W.extractLsb' 24 6 = 0x20#6 := by rw [hW]; simp (disch := decide) only [ex_hi, ex_lo, ex_all, Nat.reduceSub]
  have wf30_2 : W.extractLsb' 30 2 = q.code := by rw [hW]; simp (disch := decide) only [ex_hi, ex_lo, ex_all, Nat.reduceSub]
  exact roundTrip_one hW' rfl rfl wf24_6 rfl wf30_2 (by
    rw [decodeOne_20 _ _ wf24_6]
    simp only [decodeVint, ↓reduceIte, BitVec.reduceEq, and_false, false_and, and_self, not_true_eq_false, and_true, true_and, wf0_6, wf20_4, wf16_4, wf12_4, wf8_4, ETy.ofCode_code, wf6_2])

theorem RoundTrip.vmin (o : V3) : RoundTrip.Statement (.vmin o) := by
  obtain ⟨q, d, a, b, t, m⟩ := o
  generalize hW' : encode0 (.vmin ⟨q, d, a, b, t, m⟩) = W
  have hW : W = q.code ++ 0x20#6 ++ d ++ a ++ b ++ t.code ++ m ++ 0x9#6 := hW'.symm
  have wf0_6 : W.extractLsb' 0 6 = 0x9#6 := by rw [hW]; simp (disch := decide) only [ex_hi, ex_lo, ex_all, Nat.reduceSub]
  have wf20_4 : W.extractLsb' 20 4 = d := by rw [hW]; simp (disch := decide) only [ex_hi, ex_lo, ex_all, Nat.reduceSub]
  have wf16_4 : W.extractLsb' 16 4 = a := by rw [hW]; simp (disch := decide) only [ex_hi, ex_lo, ex_all, Nat.reduceSub]
  have wf12_4 : W.extractLsb' 12 4 = b := by rw [hW]; simp (disch := decide) only [ex_hi, ex_lo, ex_all, Nat.reduceSub]
  have wf8_4 : W.extractLsb' 8 4 = t.code := by rw [hW]; simp (disch := decide) only [ex_hi, ex_lo, ex_all, Nat.reduceSub]
  have wf6_2 : W.extractLsb' 6 2 = m := by rw [hW]; simp (disch := decide) only [ex_hi, ex_lo, ex_all, Nat.reduceSub]
  have wf24_6 : W.extractLsb' 24 6 = 0x20#6 := by rw [hW]; simp (disch := decide) only [ex_hi, ex_lo, ex_all, Nat.reduceSub]
  have wf30_2 : W.extractLsb' 30 2 = q.code := by rw [hW]; simp (disch := decide) only [ex_hi, ex_lo, ex_all, Nat.reduceSub]
  exact roundTrip_one hW' rfl rfl wf24_6 rfl wf30_2 (by
    rw [decodeOne_20 _ _ wf24_6]
    simp only [decodeVint, ↓reduceIte, BitVec.reduceEq, and_false, false_and, and_self, not_true_eq_false, and_true, true_and, wf0_6, wf20_4, wf16_4, wf12_4, wf8_4, ETy.ofCode_code, wf6_2])

theorem RoundTrip.vmax (o : V3) : RoundTrip.Statement (.vmax o) := by
  obtain ⟨q, d, a, b, t, m⟩ := o
  generalize hW' : encode0 (.vmax ⟨q, d, a, b, t, m⟩) = W
  have hW : W = q.code ++ 0x20#6 ++ d ++ a ++ b ++ t.code ++ m ++ 0xa#6 := hW'.symm
  have wf0_6 : W.extractLsb' 0 6 = 0xa#6 := by rw [hW]; simp (disch := decide) only [ex_hi, ex_lo, ex_all, Nat.reduceSub]
  have wf20_4 : W.extractLsb' 20 4 = d := by rw [hW]; simp (disch := decide) only [ex_hi, ex_lo, ex_all, Nat.reduceSub]
  have wf16_4 : W.extractLsb' 16 4 = a := by rw [hW]; simp (disch := decide) only [ex_hi, ex_lo, ex_all, Nat.reduceSub]
  have wf12_4 : W.extractLsb' 12 4 = b := by rw [hW]; simp (disch := decide) only [ex_hi, ex_lo, ex_all, Nat.reduceSub]
  have wf8_4 : W.extractLsb' 8 4 = t.code := by rw [hW]; simp (disch := decide) only [ex_hi, ex_lo, ex_all, Nat.reduceSub]
  have wf6_2 : W.extractLsb' 6 2 = m := by rw [hW]; simp (disch := decide) only [ex_hi, ex_lo, ex_all, Nat.reduceSub]
  have wf24_6 : W.extractLsb' 24 6 = 0x20#6 := by rw [hW]; simp (disch := decide) only [ex_hi, ex_lo, ex_all, Nat.reduceSub]
  have wf30_2 : W.extractLsb' 30 2 = q.code := by rw [hW]; simp (disch := decide) only [ex_hi, ex_lo, ex_all, Nat.reduceSub]
  exact roundTrip_one hW' rfl rfl wf24_6 rfl wf30_2 (by
    rw [decodeOne_20 _ _ wf24_6]
    simp only [decodeVint, ↓reduceIte, BitVec.reduceEq, and_false, false_and, and_self, not_true_eq_false, and_true, true_and, wf0_6, wf20_4, wf16_4, wf12_4, wf8_4, ETy.ofCode_code, wf6_2])

theorem RoundTrip.vand (o : V3) : RoundTrip.Statement (.vand o) := by
  obtain ⟨q, d, a, b, t, m⟩ := o
  generalize hW' : encode0 (.vand ⟨q, d, a, b, t, m⟩) = W
  have hW : W = q.code ++ 0x20#6 ++ d ++ a ++ b ++ t.code ++ m ++ 0xb#6 := hW'.symm
  have wf0_6 : W.extractLsb' 0 6 = 0xb#6 := by rw [hW]; simp (disch := decide) only [ex_hi, ex_lo, ex_all, Nat.reduceSub]
  have wf20_4 : W.extractLsb' 20 4 = d := by rw [hW]; simp (disch := decide) only [ex_hi, ex_lo, ex_all, Nat.reduceSub]
  have wf16_4 : W.extractLsb' 16 4 = a := by rw [hW]; simp (disch := decide) only [ex_hi, ex_lo, ex_all, Nat.reduceSub]
  have wf12_4 : W.extractLsb' 12 4 = b := by rw [hW]; simp (disch := decide) only [ex_hi, ex_lo, ex_all, Nat.reduceSub]
  have wf8_4 : W.extractLsb' 8 4 = t.code := by rw [hW]; simp (disch := decide) only [ex_hi, ex_lo, ex_all, Nat.reduceSub]
  have wf6_2 : W.extractLsb' 6 2 = m := by rw [hW]; simp (disch := decide) only [ex_hi, ex_lo, ex_all, Nat.reduceSub]
  have wf24_6 : W.extractLsb' 24 6 = 0x20#6 := by rw [hW]; simp (disch := decide) only [ex_hi, ex_lo, ex_all, Nat.reduceSub]
  have wf30_2 : W.extractLsb' 30 2 = q.code := by rw [hW]; simp (disch := decide) only [ex_hi, ex_lo, ex_all, Nat.reduceSub]
  exact roundTrip_one hW' rfl rfl wf24_6 rfl wf30_2 (by
    rw [decodeOne_20 _ _ wf24_6]
    simp only [decodeVint, ↓reduceIte, BitVec.reduceEq, and_false, false_and, and_self, not_true_eq_false, and_true, true_and, wf0_6, wf20_4, wf16_4, wf12_4, wf8_4, ETy.ofCode_code, wf6_2])

theorem RoundTrip.vor (o : V3) : RoundTrip.Statement (.vor o) := by
  obtain ⟨q, d, a, b, t, m⟩ := o
  generalize hW' : encode0 (.vor ⟨q, d, a, b, t, m⟩) = W
  have hW : W = q.code ++ 0x20#6 ++ d ++ a ++ b ++ t.code ++ m ++ 0xc#6 := hW'.symm
  have wf0_6 : W.extractLsb' 0 6 = 0xc#6 := by rw [hW]; simp (disch := decide) only [ex_hi, ex_lo, ex_all, Nat.reduceSub]
  have wf20_4 : W.extractLsb' 20 4 = d := by rw [hW]; simp (disch := decide) only [ex_hi, ex_lo, ex_all, Nat.reduceSub]
  have wf16_4 : W.extractLsb' 16 4 = a := by rw [hW]; simp (disch := decide) only [ex_hi, ex_lo, ex_all, Nat.reduceSub]
  have wf12_4 : W.extractLsb' 12 4 = b := by rw [hW]; simp (disch := decide) only [ex_hi, ex_lo, ex_all, Nat.reduceSub]
  have wf8_4 : W.extractLsb' 8 4 = t.code := by rw [hW]; simp (disch := decide) only [ex_hi, ex_lo, ex_all, Nat.reduceSub]
  have wf6_2 : W.extractLsb' 6 2 = m := by rw [hW]; simp (disch := decide) only [ex_hi, ex_lo, ex_all, Nat.reduceSub]
  have wf24_6 : W.extractLsb' 24 6 = 0x20#6 := by rw [hW]; simp (disch := decide) only [ex_hi, ex_lo, ex_all, Nat.reduceSub]
  have wf30_2 : W.extractLsb' 30 2 = q.code := by rw [hW]; simp (disch := decide) only [ex_hi, ex_lo, ex_all, Nat.reduceSub]
  exact roundTrip_one hW' rfl rfl wf24_6 rfl wf30_2 (by
    rw [decodeOne_20 _ _ wf24_6]
    simp only [decodeVint, ↓reduceIte, BitVec.reduceEq, and_false, false_and, and_self, not_true_eq_false, and_true, true_and, wf0_6, wf20_4, wf16_4, wf12_4, wf8_4, ETy.ofCode_code, wf6_2])

theorem RoundTrip.vxor (o : V3) : RoundTrip.Statement (.vxor o) := by
  obtain ⟨q, d, a, b, t, m⟩ := o
  generalize hW' : encode0 (.vxor ⟨q, d, a, b, t, m⟩) = W
  have hW : W = q.code ++ 0x20#6 ++ d ++ a ++ b ++ t.code ++ m ++ 0xd#6 := hW'.symm
  have wf0_6 : W.extractLsb' 0 6 = 0xd#6 := by rw [hW]; simp (disch := decide) only [ex_hi, ex_lo, ex_all, Nat.reduceSub]
  have wf20_4 : W.extractLsb' 20 4 = d := by rw [hW]; simp (disch := decide) only [ex_hi, ex_lo, ex_all, Nat.reduceSub]
  have wf16_4 : W.extractLsb' 16 4 = a := by rw [hW]; simp (disch := decide) only [ex_hi, ex_lo, ex_all, Nat.reduceSub]
  have wf12_4 : W.extractLsb' 12 4 = b := by rw [hW]; simp (disch := decide) only [ex_hi, ex_lo, ex_all, Nat.reduceSub]
  have wf8_4 : W.extractLsb' 8 4 = t.code := by rw [hW]; simp (disch := decide) only [ex_hi, ex_lo, ex_all, Nat.reduceSub]
  have wf6_2 : W.extractLsb' 6 2 = m := by rw [hW]; simp (disch := decide) only [ex_hi, ex_lo, ex_all, Nat.reduceSub]
  have wf24_6 : W.extractLsb' 24 6 = 0x20#6 := by rw [hW]; simp (disch := decide) only [ex_hi, ex_lo, ex_all, Nat.reduceSub]
  have wf30_2 : W.extractLsb' 30 2 = q.code := by rw [hW]; simp (disch := decide) only [ex_hi, ex_lo, ex_all, Nat.reduceSub]
  exact roundTrip_one hW' rfl rfl wf24_6 rfl wf30_2 (by
    rw [decodeOne_20 _ _ wf24_6]
    simp only [decodeVint, ↓reduceIte, BitVec.reduceEq, and_false, false_and, and_self, not_true_eq_false, and_true, true_and, wf0_6, wf20_4, wf16_4, wf12_4, wf8_4, ETy.ofCode_code, wf6_2])

theorem RoundTrip.vandn (o : V3) : RoundTrip.Statement (.vandn o) := by
  obtain ⟨q, d, a, b, t, m⟩ := o
  generalize hW' : encode0 (.vandn ⟨q, d, a, b, t, m⟩) = W
  have hW : W = q.code ++ 0x20#6 ++ d ++ a ++ b ++ t.code ++ m ++ 0xe#6 := hW'.symm
  have wf0_6 : W.extractLsb' 0 6 = 0xe#6 := by rw [hW]; simp (disch := decide) only [ex_hi, ex_lo, ex_all, Nat.reduceSub]
  have wf20_4 : W.extractLsb' 20 4 = d := by rw [hW]; simp (disch := decide) only [ex_hi, ex_lo, ex_all, Nat.reduceSub]
  have wf16_4 : W.extractLsb' 16 4 = a := by rw [hW]; simp (disch := decide) only [ex_hi, ex_lo, ex_all, Nat.reduceSub]
  have wf12_4 : W.extractLsb' 12 4 = b := by rw [hW]; simp (disch := decide) only [ex_hi, ex_lo, ex_all, Nat.reduceSub]
  have wf8_4 : W.extractLsb' 8 4 = t.code := by rw [hW]; simp (disch := decide) only [ex_hi, ex_lo, ex_all, Nat.reduceSub]
  have wf6_2 : W.extractLsb' 6 2 = m := by rw [hW]; simp (disch := decide) only [ex_hi, ex_lo, ex_all, Nat.reduceSub]
  have wf24_6 : W.extractLsb' 24 6 = 0x20#6 := by rw [hW]; simp (disch := decide) only [ex_hi, ex_lo, ex_all, Nat.reduceSub]
  have wf30_2 : W.extractLsb' 30 2 = q.code := by rw [hW]; simp (disch := decide) only [ex_hi, ex_lo, ex_all, Nat.reduceSub]
  exact roundTrip_one hW' rfl rfl wf24_6 rfl wf30_2 (by
    rw [decodeOne_20 _ _ wf24_6]
    simp only [decodeVint, ↓reduceIte, BitVec.reduceEq, and_false, false_and, and_self, not_true_eq_false, and_true, true_and, wf0_6, wf20_4, wf16_4, wf12_4, wf8_4, ETy.ofCode_code, wf6_2])

theorem RoundTrip.vshl (o : V3) : RoundTrip.Statement (.vshl o) := by
  obtain ⟨q, d, a, b, t, m⟩ := o
  generalize hW' : encode0 (.vshl ⟨q, d, a, b, t, m⟩) = W
  have hW : W = q.code ++ 0x20#6 ++ d ++ a ++ b ++ t.code ++ m ++ 0xf#6 := hW'.symm
  have wf0_6 : W.extractLsb' 0 6 = 0xf#6 := by rw [hW]; simp (disch := decide) only [ex_hi, ex_lo, ex_all, Nat.reduceSub]
  have wf20_4 : W.extractLsb' 20 4 = d := by rw [hW]; simp (disch := decide) only [ex_hi, ex_lo, ex_all, Nat.reduceSub]
  have wf16_4 : W.extractLsb' 16 4 = a := by rw [hW]; simp (disch := decide) only [ex_hi, ex_lo, ex_all, Nat.reduceSub]
  have wf12_4 : W.extractLsb' 12 4 = b := by rw [hW]; simp (disch := decide) only [ex_hi, ex_lo, ex_all, Nat.reduceSub]
  have wf8_4 : W.extractLsb' 8 4 = t.code := by rw [hW]; simp (disch := decide) only [ex_hi, ex_lo, ex_all, Nat.reduceSub]
  have wf6_2 : W.extractLsb' 6 2 = m := by rw [hW]; simp (disch := decide) only [ex_hi, ex_lo, ex_all, Nat.reduceSub]
  have wf24_6 : W.extractLsb' 24 6 = 0x20#6 := by rw [hW]; simp (disch := decide) only [ex_hi, ex_lo, ex_all, Nat.reduceSub]
  have wf30_2 : W.extractLsb' 30 2 = q.code := by rw [hW]; simp (disch := decide) only [ex_hi, ex_lo, ex_all, Nat.reduceSub]
  exact roundTrip_one hW' rfl rfl wf24_6 rfl wf30_2 (by
    rw [decodeOne_20 _ _ wf24_6]
    simp only [decodeVint, ↓reduceIte, BitVec.reduceEq, and_false, false_and, and_self, not_true_eq_false, and_true, true_and, wf0_6, wf20_4, wf16_4, wf12_4, wf8_4, ETy.ofCode_code, wf6_2])

theorem RoundTrip.vshr (o : V3) : RoundTrip.Statement (.vshr o) := by
  obtain ⟨q, d, a, b, t, m⟩ := o
  generalize hW' : encode0 (.vshr ⟨q, d, a, b, t, m⟩) = W
  have hW : W = q.code ++ 0x20#6 ++ d ++ a ++ b ++ t.code ++ m ++ 0x10#6 := hW'.symm
  have wf0_6 : W.extractLsb' 0 6 = 0x10#6 := by rw [hW]; simp (disch := decide) only [ex_hi, ex_lo, ex_all, Nat.reduceSub]
  have wf20_4 : W.extractLsb' 20 4 = d := by rw [hW]; simp (disch := decide) only [ex_hi, ex_lo, ex_all, Nat.reduceSub]
  have wf16_4 : W.extractLsb' 16 4 = a := by rw [hW]; simp (disch := decide) only [ex_hi, ex_lo, ex_all, Nat.reduceSub]
  have wf12_4 : W.extractLsb' 12 4 = b := by rw [hW]; simp (disch := decide) only [ex_hi, ex_lo, ex_all, Nat.reduceSub]
  have wf8_4 : W.extractLsb' 8 4 = t.code := by rw [hW]; simp (disch := decide) only [ex_hi, ex_lo, ex_all, Nat.reduceSub]
  have wf6_2 : W.extractLsb' 6 2 = m := by rw [hW]; simp (disch := decide) only [ex_hi, ex_lo, ex_all, Nat.reduceSub]
  have wf24_6 : W.extractLsb' 24 6 = 0x20#6 := by rw [hW]; simp (disch := decide) only [ex_hi, ex_lo, ex_all, Nat.reduceSub]
  have wf30_2 : W.extractLsb' 30 2 = q.code := by rw [hW]; simp (disch := decide) only [ex_hi, ex_lo, ex_all, Nat.reduceSub]
  exact roundTrip_one hW' rfl rfl wf24_6 rfl wf30_2 (by
    rw [decodeOne_20 _ _ wf24_6]
    simp only [decodeVint, ↓reduceIte, BitVec.reduceEq, and_false, false_and, and_self, not_true_eq_false, and_true, true_and, wf0_6, wf20_4, wf16_4, wf12_4, wf8_4, ETy.ofCode_code, wf6_2])

theorem RoundTrip.vabs (o : V2) : RoundTrip.Statement (.vabs o) := by
  obtain ⟨q, d, a, t, m⟩ := o
  generalize hW' : encode0 (.vabs ⟨q, d, a, t, m⟩) = W
  have hW : W = q.code ++ 0x20#6 ++ d ++ a ++ 0x0#4 ++ t.code ++ m ++ 0x11#6 := hW'.symm
  have wf0_6 : W.extractLsb' 0 6 = 0x11#6 := by rw [hW]; simp (disch := decide) only [ex_hi, ex_lo, ex_all, Nat.reduceSub]
  have wf12_4 : W.extractLsb' 12 4 = 0x0#4 := by rw [hW]; simp (disch := decide) only [ex_hi, ex_lo, ex_all, Nat.reduceSub]
  have wf20_4 : W.extractLsb' 20 4 = d := by rw [hW]; simp (disch := decide) only [ex_hi, ex_lo, ex_all, Nat.reduceSub]
  have wf16_4 : W.extractLsb' 16 4 = a := by rw [hW]; simp (disch := decide) only [ex_hi, ex_lo, ex_all, Nat.reduceSub]
  have wf8_4 : W.extractLsb' 8 4 = t.code := by rw [hW]; simp (disch := decide) only [ex_hi, ex_lo, ex_all, Nat.reduceSub]
  have wf6_2 : W.extractLsb' 6 2 = m := by rw [hW]; simp (disch := decide) only [ex_hi, ex_lo, ex_all, Nat.reduceSub]
  have wf24_6 : W.extractLsb' 24 6 = 0x20#6 := by rw [hW]; simp (disch := decide) only [ex_hi, ex_lo, ex_all, Nat.reduceSub]
  have wf30_2 : W.extractLsb' 30 2 = q.code := by rw [hW]; simp (disch := decide) only [ex_hi, ex_lo, ex_all, Nat.reduceSub]
  exact roundTrip_one hW' rfl rfl wf24_6 rfl wf30_2 (by
    rw [decodeOne_20 _ _ wf24_6]
    simp only [decodeVint, ↓reduceIte, BitVec.reduceEq, and_false, false_and, and_self, not_true_eq_false, and_true, true_and, wf0_6, wf12_4, wf20_4, wf16_4, wf8_4, ETy.ofCode_code, wf6_2])

theorem RoundTrip.vneg (o : V2) : RoundTrip.Statement (.vneg o) := by
  obtain ⟨q, d, a, t, m⟩ := o
  generalize hW' : encode0 (.vneg ⟨q, d, a, t, m⟩) = W
  have hW : W = q.code ++ 0x20#6 ++ d ++ a ++ 0x0#4 ++ t.code ++ m ++ 0x12#6 := hW'.symm
  have wf0_6 : W.extractLsb' 0 6 = 0x12#6 := by rw [hW]; simp (disch := decide) only [ex_hi, ex_lo, ex_all, Nat.reduceSub]
  have wf12_4 : W.extractLsb' 12 4 = 0x0#4 := by rw [hW]; simp (disch := decide) only [ex_hi, ex_lo, ex_all, Nat.reduceSub]
  have wf20_4 : W.extractLsb' 20 4 = d := by rw [hW]; simp (disch := decide) only [ex_hi, ex_lo, ex_all, Nat.reduceSub]
  have wf16_4 : W.extractLsb' 16 4 = a := by rw [hW]; simp (disch := decide) only [ex_hi, ex_lo, ex_all, Nat.reduceSub]
  have wf8_4 : W.extractLsb' 8 4 = t.code := by rw [hW]; simp (disch := decide) only [ex_hi, ex_lo, ex_all, Nat.reduceSub]
  have wf6_2 : W.extractLsb' 6 2 = m := by rw [hW]; simp (disch := decide) only [ex_hi, ex_lo, ex_all, Nat.reduceSub]
  have wf24_6 : W.extractLsb' 24 6 = 0x20#6 := by rw [hW]; simp (disch := decide) only [ex_hi, ex_lo, ex_all, Nat.reduceSub]
  have wf30_2 : W.extractLsb' 30 2 = q.code := by rw [hW]; simp (disch := decide) only [ex_hi, ex_lo, ex_all, Nat.reduceSub]
  exact roundTrip_one hW' rfl rfl wf24_6 rfl wf30_2 (by
    rw [decodeOne_20 _ _ wf24_6]
    simp only [decodeVint, ↓reduceIte, BitVec.reduceEq, and_false, false_and, and_self, not_true_eq_false, and_true, true_and, wf0_6, wf12_4, wf20_4, wf16_4, wf8_4, ETy.ofCode_code, wf6_2])

theorem RoundTrip.vaddw (o : V3) : RoundTrip.Statement (.vaddw o) := by
  obtain ⟨q, d, a, b, t, m⟩ := o
  generalize hW' : encode0 (.vaddw ⟨q, d, a, b, t, m⟩) = W
  have hW : W = q.code ++ 0x20#6 ++ d ++ a ++ b ++ t.code ++ m ++ 0x18#6 := hW'.symm
  have wf0_6 : W.extractLsb' 0 6 = 0x18#6 := by rw [hW]; simp (disch := decide) only [ex_hi, ex_lo, ex_all, Nat.reduceSub]
  have wf20_4 : W.extractLsb' 20 4 = d := by rw [hW]; simp (disch := decide) only [ex_hi, ex_lo, ex_all, Nat.reduceSub]
  have wf16_4 : W.extractLsb' 16 4 = a := by rw [hW]; simp (disch := decide) only [ex_hi, ex_lo, ex_all, Nat.reduceSub]
  have wf12_4 : W.extractLsb' 12 4 = b := by rw [hW]; simp (disch := decide) only [ex_hi, ex_lo, ex_all, Nat.reduceSub]
  have wf8_4 : W.extractLsb' 8 4 = t.code := by rw [hW]; simp (disch := decide) only [ex_hi, ex_lo, ex_all, Nat.reduceSub]
  have wf6_2 : W.extractLsb' 6 2 = m := by rw [hW]; simp (disch := decide) only [ex_hi, ex_lo, ex_all, Nat.reduceSub]
  have wf24_6 : W.extractLsb' 24 6 = 0x20#6 := by rw [hW]; simp (disch := decide) only [ex_hi, ex_lo, ex_all, Nat.reduceSub]
  have wf30_2 : W.extractLsb' 30 2 = q.code := by rw [hW]; simp (disch := decide) only [ex_hi, ex_lo, ex_all, Nat.reduceSub]
  exact roundTrip_one hW' rfl rfl wf24_6 rfl wf30_2 (by
    rw [decodeOne_20 _ _ wf24_6]
    simp only [decodeVint, ↓reduceIte, BitVec.reduceEq, and_false, false_and, and_self, not_true_eq_false, and_true, true_and, wf0_6, wf20_4, wf16_4, wf12_4, wf8_4, ETy.ofCode_code, wf6_2])

theorem RoundTrip.vsubw (o : V3) : RoundTrip.Statement (.vsubw o) := by
  obtain ⟨q, d, a, b, t, m⟩ := o
  generalize hW' : encode0 (.vsubw ⟨q, d, a, b, t, m⟩) = W
  have hW : W = q.code ++ 0x20#6 ++ d ++ a ++ b ++ t.code ++ m ++ 0x19#6 := hW'.symm
  have wf0_6 : W.extractLsb' 0 6 = 0x19#6 := by rw [hW]; simp (disch := decide) only [ex_hi, ex_lo, ex_all, Nat.reduceSub]
  have wf20_4 : W.extractLsb' 20 4 = d := by rw [hW]; simp (disch := decide) only [ex_hi, ex_lo, ex_all, Nat.reduceSub]
  have wf16_4 : W.extractLsb' 16 4 = a := by rw [hW]; simp (disch := decide) only [ex_hi, ex_lo, ex_all, Nat.reduceSub]
  have wf12_4 : W.extractLsb' 12 4 = b := by rw [hW]; simp (disch := decide) only [ex_hi, ex_lo, ex_all, Nat.reduceSub]
  have wf8_4 : W.extractLsb' 8 4 = t.code := by rw [hW]; simp (disch := decide) only [ex_hi, ex_lo, ex_all, Nat.reduceSub]
  have wf6_2 : W.extractLsb' 6 2 = m := by rw [hW]; simp (disch := decide) only [ex_hi, ex_lo, ex_all, Nat.reduceSub]
  have wf24_6 : W.extractLsb' 24 6 = 0x20#6 := by rw [hW]; simp (disch := decide) only [ex_hi, ex_lo, ex_all, Nat.reduceSub]
  have wf30_2 : W.extractLsb' 30 2 = q.code := by rw [hW]; simp (disch := decide) only [ex_hi, ex_lo, ex_all, Nat.reduceSub]
  exact roundTrip_one hW' rfl rfl wf24_6 rfl wf30_2 (by
    rw [decodeOne_20 _ _ wf24_6]
    simp only [decodeVint, ↓reduceIte, BitVec.reduceEq, and_false, false_and, and_self, not_true_eq_false, and_true, true_and, wf0_6, wf20_4, wf16_4, wf12_4, wf8_4, ETy.ofCode_code, wf6_2])

theorem RoundTrip.vmulw (o : V3) : RoundTrip.Statement (.vmulw o) := by
  obtain ⟨q, d, a, b, t, m⟩ := o
  generalize hW' : encode0 (.vmulw ⟨q, d, a, b, t, m⟩) = W
  have hW : W = q.code ++ 0x20#6 ++ d ++ a ++ b ++ t.code ++ m ++ 0x1a#6 := hW'.symm
  have wf0_6 : W.extractLsb' 0 6 = 0x1a#6 := by rw [hW]; simp (disch := decide) only [ex_hi, ex_lo, ex_all, Nat.reduceSub]
  have wf20_4 : W.extractLsb' 20 4 = d := by rw [hW]; simp (disch := decide) only [ex_hi, ex_lo, ex_all, Nat.reduceSub]
  have wf16_4 : W.extractLsb' 16 4 = a := by rw [hW]; simp (disch := decide) only [ex_hi, ex_lo, ex_all, Nat.reduceSub]
  have wf12_4 : W.extractLsb' 12 4 = b := by rw [hW]; simp (disch := decide) only [ex_hi, ex_lo, ex_all, Nat.reduceSub]
  have wf8_4 : W.extractLsb' 8 4 = t.code := by rw [hW]; simp (disch := decide) only [ex_hi, ex_lo, ex_all, Nat.reduceSub]
  have wf6_2 : W.extractLsb' 6 2 = m := by rw [hW]; simp (disch := decide) only [ex_hi, ex_lo, ex_all, Nat.reduceSub]
  have wf24_6 : W.extractLsb' 24 6 = 0x20#6 := by rw [hW]; simp (disch := decide) only [ex_hi, ex_lo, ex_all, Nat.reduceSub]
  have wf30_2 : W.extractLsb' 30 2 = q.code := by rw [hW]; simp (disch := decide) only [ex_hi, ex_lo, ex_all, Nat.reduceSub]
  exact roundTrip_one hW' rfl rfl wf24_6 rfl wf30_2 (by
    rw [decodeOne_20 _ _ wf24_6]
    simp only [decodeVint, ↓reduceIte, BitVec.reduceEq, and_false, false_and, and_self, not_true_eq_false, and_true, true_and, wf0_6, wf20_4, wf16_4, wf12_4, wf8_4, ETy.ofCode_code, wf6_2])

theorem RoundTrip.vmacw (o : V3) : RoundTrip.Statement (.vmacw o) := by
  obtain ⟨q, d, a, b, t, m⟩ := o
  generalize hW' : encode0 (.vmacw ⟨q, d, a, b, t, m⟩) = W
  have hW : W = q.code ++ 0x20#6 ++ d ++ a ++ b ++ t.code ++ m ++ 0x1b#6 := hW'.symm
  have wf0_6 : W.extractLsb' 0 6 = 0x1b#6 := by rw [hW]; simp (disch := decide) only [ex_hi, ex_lo, ex_all, Nat.reduceSub]
  have wf20_4 : W.extractLsb' 20 4 = d := by rw [hW]; simp (disch := decide) only [ex_hi, ex_lo, ex_all, Nat.reduceSub]
  have wf16_4 : W.extractLsb' 16 4 = a := by rw [hW]; simp (disch := decide) only [ex_hi, ex_lo, ex_all, Nat.reduceSub]
  have wf12_4 : W.extractLsb' 12 4 = b := by rw [hW]; simp (disch := decide) only [ex_hi, ex_lo, ex_all, Nat.reduceSub]
  have wf8_4 : W.extractLsb' 8 4 = t.code := by rw [hW]; simp (disch := decide) only [ex_hi, ex_lo, ex_all, Nat.reduceSub]
  have wf6_2 : W.extractLsb' 6 2 = m := by rw [hW]; simp (disch := decide) only [ex_hi, ex_lo, ex_all, Nat.reduceSub]
  have wf24_6 : W.extractLsb' 24 6 = 0x20#6 := by rw [hW]; simp (disch := decide) only [ex_hi, ex_lo, ex_all, Nat.reduceSub]
  have wf30_2 : W.extractLsb' 30 2 = q.code := by rw [hW]; simp (disch := decide) only [ex_hi, ex_lo, ex_all, Nat.reduceSub]
  exact roundTrip_one hW' rfl rfl wf24_6 rfl wf30_2 (by
    rw [decodeOne_20 _ _ wf24_6]
    simp only [decodeVint, ↓reduceIte, BitVec.reduceEq, and_false, false_and, and_self, not_true_eq_false, and_true, true_and, wf0_6, wf20_4, wf16_4, wf12_4, wf8_4, ETy.ofCode_code, wf6_2])

theorem RoundTrip.vcmpEq (o : VC3) : RoundTrip.Statement (.vcmpEq o) := by
  obtain ⟨q, d, a, b, t, m⟩ := o
  generalize hW' : encode0 (.vcmpEq ⟨q, d, a, b, t, m⟩) = W
  have hW : W = q.code ++ 0x20#6 ++ 0x0#2 ++ d ++ a ++ b ++ t.code ++ m ++ 0x20#6 := hW'.symm
  have wf0_6 : W.extractLsb' 0 6 = 0x20#6 := by rw [hW]; simp (disch := decide) only [ex_hi, ex_lo, ex_all, Nat.reduceSub]
  have wf22_2 : W.extractLsb' 22 2 = 0x0#2 := by rw [hW]; simp (disch := decide) only [ex_hi, ex_lo, ex_all, Nat.reduceSub]
  have wf20_2 : W.extractLsb' 20 2 = d := by rw [hW]; simp (disch := decide) only [ex_hi, ex_lo, ex_all, Nat.reduceSub]
  have wf16_4 : W.extractLsb' 16 4 = a := by rw [hW]; simp (disch := decide) only [ex_hi, ex_lo, ex_all, Nat.reduceSub]
  have wf12_4 : W.extractLsb' 12 4 = b := by rw [hW]; simp (disch := decide) only [ex_hi, ex_lo, ex_all, Nat.reduceSub]
  have wf8_4 : W.extractLsb' 8 4 = t.code := by rw [hW]; simp (disch := decide) only [ex_hi, ex_lo, ex_all, Nat.reduceSub]
  have wf6_2 : W.extractLsb' 6 2 = m := by rw [hW]; simp (disch := decide) only [ex_hi, ex_lo, ex_all, Nat.reduceSub]
  have wf24_6 : W.extractLsb' 24 6 = 0x20#6 := by rw [hW]; simp (disch := decide) only [ex_hi, ex_lo, ex_all, Nat.reduceSub]
  have wf30_2 : W.extractLsb' 30 2 = q.code := by rw [hW]; simp (disch := decide) only [ex_hi, ex_lo, ex_all, Nat.reduceSub]
  exact roundTrip_one hW' rfl rfl wf24_6 rfl wf30_2 (by
    rw [decodeOne_20 _ _ wf24_6]
    simp only [decodeVint, ↓reduceIte, BitVec.reduceEq, and_false, false_and, and_self, not_true_eq_false, and_true, true_and, wf0_6, wf22_2, wf20_2, wf16_4, wf12_4, wf8_4, ETy.ofCode_code, wf6_2])

theorem RoundTrip.vcmpNe (o : VC3) : RoundTrip.Statement (.vcmpNe o) := by
  obtain ⟨q, d, a, b, t, m⟩ := o
  generalize hW' : encode0 (.vcmpNe ⟨q, d, a, b, t, m⟩) = W
  have hW : W = q.code ++ 0x20#6 ++ 0x0#2 ++ d ++ a ++ b ++ t.code ++ m ++ 0x21#6 := hW'.symm
  have wf0_6 : W.extractLsb' 0 6 = 0x21#6 := by rw [hW]; simp (disch := decide) only [ex_hi, ex_lo, ex_all, Nat.reduceSub]
  have wf22_2 : W.extractLsb' 22 2 = 0x0#2 := by rw [hW]; simp (disch := decide) only [ex_hi, ex_lo, ex_all, Nat.reduceSub]
  have wf20_2 : W.extractLsb' 20 2 = d := by rw [hW]; simp (disch := decide) only [ex_hi, ex_lo, ex_all, Nat.reduceSub]
  have wf16_4 : W.extractLsb' 16 4 = a := by rw [hW]; simp (disch := decide) only [ex_hi, ex_lo, ex_all, Nat.reduceSub]
  have wf12_4 : W.extractLsb' 12 4 = b := by rw [hW]; simp (disch := decide) only [ex_hi, ex_lo, ex_all, Nat.reduceSub]
  have wf8_4 : W.extractLsb' 8 4 = t.code := by rw [hW]; simp (disch := decide) only [ex_hi, ex_lo, ex_all, Nat.reduceSub]
  have wf6_2 : W.extractLsb' 6 2 = m := by rw [hW]; simp (disch := decide) only [ex_hi, ex_lo, ex_all, Nat.reduceSub]
  have wf24_6 : W.extractLsb' 24 6 = 0x20#6 := by rw [hW]; simp (disch := decide) only [ex_hi, ex_lo, ex_all, Nat.reduceSub]
  have wf30_2 : W.extractLsb' 30 2 = q.code := by rw [hW]; simp (disch := decide) only [ex_hi, ex_lo, ex_all, Nat.reduceSub]
  exact roundTrip_one hW' rfl rfl wf24_6 rfl wf30_2 (by
    rw [decodeOne_20 _ _ wf24_6]
    simp only [decodeVint, ↓reduceIte, BitVec.reduceEq, and_false, false_and, and_self, not_true_eq_false, and_true, true_and, wf0_6, wf22_2, wf20_2, wf16_4, wf12_4, wf8_4, ETy.ofCode_code, wf6_2])

theorem RoundTrip.vcmpLt (o : VC3) : RoundTrip.Statement (.vcmpLt o) := by
  obtain ⟨q, d, a, b, t, m⟩ := o
  generalize hW' : encode0 (.vcmpLt ⟨q, d, a, b, t, m⟩) = W
  have hW : W = q.code ++ 0x20#6 ++ 0x0#2 ++ d ++ a ++ b ++ t.code ++ m ++ 0x22#6 := hW'.symm
  have wf0_6 : W.extractLsb' 0 6 = 0x22#6 := by rw [hW]; simp (disch := decide) only [ex_hi, ex_lo, ex_all, Nat.reduceSub]
  have wf22_2 : W.extractLsb' 22 2 = 0x0#2 := by rw [hW]; simp (disch := decide) only [ex_hi, ex_lo, ex_all, Nat.reduceSub]
  have wf20_2 : W.extractLsb' 20 2 = d := by rw [hW]; simp (disch := decide) only [ex_hi, ex_lo, ex_all, Nat.reduceSub]
  have wf16_4 : W.extractLsb' 16 4 = a := by rw [hW]; simp (disch := decide) only [ex_hi, ex_lo, ex_all, Nat.reduceSub]
  have wf12_4 : W.extractLsb' 12 4 = b := by rw [hW]; simp (disch := decide) only [ex_hi, ex_lo, ex_all, Nat.reduceSub]
  have wf8_4 : W.extractLsb' 8 4 = t.code := by rw [hW]; simp (disch := decide) only [ex_hi, ex_lo, ex_all, Nat.reduceSub]
  have wf6_2 : W.extractLsb' 6 2 = m := by rw [hW]; simp (disch := decide) only [ex_hi, ex_lo, ex_all, Nat.reduceSub]
  have wf24_6 : W.extractLsb' 24 6 = 0x20#6 := by rw [hW]; simp (disch := decide) only [ex_hi, ex_lo, ex_all, Nat.reduceSub]
  have wf30_2 : W.extractLsb' 30 2 = q.code := by rw [hW]; simp (disch := decide) only [ex_hi, ex_lo, ex_all, Nat.reduceSub]
  exact roundTrip_one hW' rfl rfl wf24_6 rfl wf30_2 (by
    rw [decodeOne_20 _ _ wf24_6]
    simp only [decodeVint, ↓reduceIte, BitVec.reduceEq, and_false, false_and, and_self, not_true_eq_false, and_true, true_and, wf0_6, wf22_2, wf20_2, wf16_4, wf12_4, wf8_4, ETy.ofCode_code, wf6_2])

theorem RoundTrip.vcmpLe (o : VC3) : RoundTrip.Statement (.vcmpLe o) := by
  obtain ⟨q, d, a, b, t, m⟩ := o
  generalize hW' : encode0 (.vcmpLe ⟨q, d, a, b, t, m⟩) = W
  have hW : W = q.code ++ 0x20#6 ++ 0x0#2 ++ d ++ a ++ b ++ t.code ++ m ++ 0x23#6 := hW'.symm
  have wf0_6 : W.extractLsb' 0 6 = 0x23#6 := by rw [hW]; simp (disch := decide) only [ex_hi, ex_lo, ex_all, Nat.reduceSub]
  have wf22_2 : W.extractLsb' 22 2 = 0x0#2 := by rw [hW]; simp (disch := decide) only [ex_hi, ex_lo, ex_all, Nat.reduceSub]
  have wf20_2 : W.extractLsb' 20 2 = d := by rw [hW]; simp (disch := decide) only [ex_hi, ex_lo, ex_all, Nat.reduceSub]
  have wf16_4 : W.extractLsb' 16 4 = a := by rw [hW]; simp (disch := decide) only [ex_hi, ex_lo, ex_all, Nat.reduceSub]
  have wf12_4 : W.extractLsb' 12 4 = b := by rw [hW]; simp (disch := decide) only [ex_hi, ex_lo, ex_all, Nat.reduceSub]
  have wf8_4 : W.extractLsb' 8 4 = t.code := by rw [hW]; simp (disch := decide) only [ex_hi, ex_lo, ex_all, Nat.reduceSub]
  have wf6_2 : W.extractLsb' 6 2 = m := by rw [hW]; simp (disch := decide) only [ex_hi, ex_lo, ex_all, Nat.reduceSub]
  have wf24_6 : W.extractLsb' 24 6 = 0x20#6 := by rw [hW]; simp (disch := decide) only [ex_hi, ex_lo, ex_all, Nat.reduceSub]
  have wf30_2 : W.extractLsb' 30 2 = q.code := by rw [hW]; simp (disch := decide) only [ex_hi, ex_lo, ex_all, Nat.reduceSub]
  exact roundTrip_one hW' rfl rfl wf24_6 rfl wf30_2 (by
    rw [decodeOne_20 _ _ wf24_6]
    simp only [decodeVint, ↓reduceIte, BitVec.reduceEq, and_false, false_and, and_self, not_true_eq_false, and_true, true_and, wf0_6, wf22_2, wf20_2, wf16_4, wf12_4, wf8_4, ETy.ofCode_code, wf6_2])

theorem RoundTrip.vfadd (o : V3R) : RoundTrip.Statement (.vfadd o) := by
  obtain ⟨q, d, a, b, t, m, r⟩ := o
  generalize hW' : encode0 (.vfadd ⟨q, d, a, b, t, m, r⟩) = W
  have hW : W = q.code ++ 0x21#6 ++ d ++ a ++ b ++ t.code ++ m ++ 0x0#3 ++ r.code := hW'.symm
  have wf3_3 : W.extractLsb' 3 3 = 0x0#3 := by rw [hW]; simp (disch := decide) only [ex_hi, ex_lo, ex_all, Nat.reduceSub]
  have wf20_4 : W.extractLsb' 20 4 = d := by rw [hW]; simp (disch := decide) only [ex_hi, ex_lo, ex_all, Nat.reduceSub]
  have wf16_4 : W.extractLsb' 16 4 = a := by rw [hW]; simp (disch := decide) only [ex_hi, ex_lo, ex_all, Nat.reduceSub]
  have wf12_4 : W.extractLsb' 12 4 = b := by rw [hW]; simp (disch := decide) only [ex_hi, ex_lo, ex_all, Nat.reduceSub]
  have wf8_4 : W.extractLsb' 8 4 = t.code := by rw [hW]; simp (disch := decide) only [ex_hi, ex_lo, ex_all, Nat.reduceSub]
  have wf6_2 : W.extractLsb' 6 2 = m := by rw [hW]; simp (disch := decide) only [ex_hi, ex_lo, ex_all, Nat.reduceSub]
  have wf0_3 : W.extractLsb' 0 3 = r.code := by rw [hW]; simp (disch := decide) only [ex_hi, ex_lo, ex_all, Nat.reduceSub]
  have wf24_6 : W.extractLsb' 24 6 = 0x21#6 := by rw [hW]; simp (disch := decide) only [ex_hi, ex_lo, ex_all, Nat.reduceSub]
  have wf30_2 : W.extractLsb' 30 2 = q.code := by rw [hW]; simp (disch := decide) only [ex_hi, ex_lo, ex_all, Nat.reduceSub]
  exact roundTrip_one hW' rfl rfl wf24_6 rfl wf30_2 (by
    rw [decodeOne_21 _ _ wf24_6]
    simp only [decodeVfp, ↓reduceIte, BitVec.reduceEq, and_false, false_and, and_self, not_true_eq_false, and_true, true_and, wf3_3, wf20_4, wf16_4, wf12_4, wf8_4, ETy.ofCode_code, wf6_2, wf0_3, Rm.ofCode_code, Option.map_some])

theorem RoundTrip.vfsub (o : V3R) : RoundTrip.Statement (.vfsub o) := by
  obtain ⟨q, d, a, b, t, m, r⟩ := o
  generalize hW' : encode0 (.vfsub ⟨q, d, a, b, t, m, r⟩) = W
  have hW : W = q.code ++ 0x21#6 ++ d ++ a ++ b ++ t.code ++ m ++ 0x1#3 ++ r.code := hW'.symm
  have wf3_3 : W.extractLsb' 3 3 = 0x1#3 := by rw [hW]; simp (disch := decide) only [ex_hi, ex_lo, ex_all, Nat.reduceSub]
  have wf20_4 : W.extractLsb' 20 4 = d := by rw [hW]; simp (disch := decide) only [ex_hi, ex_lo, ex_all, Nat.reduceSub]
  have wf16_4 : W.extractLsb' 16 4 = a := by rw [hW]; simp (disch := decide) only [ex_hi, ex_lo, ex_all, Nat.reduceSub]
  have wf12_4 : W.extractLsb' 12 4 = b := by rw [hW]; simp (disch := decide) only [ex_hi, ex_lo, ex_all, Nat.reduceSub]
  have wf8_4 : W.extractLsb' 8 4 = t.code := by rw [hW]; simp (disch := decide) only [ex_hi, ex_lo, ex_all, Nat.reduceSub]
  have wf6_2 : W.extractLsb' 6 2 = m := by rw [hW]; simp (disch := decide) only [ex_hi, ex_lo, ex_all, Nat.reduceSub]
  have wf0_3 : W.extractLsb' 0 3 = r.code := by rw [hW]; simp (disch := decide) only [ex_hi, ex_lo, ex_all, Nat.reduceSub]
  have wf24_6 : W.extractLsb' 24 6 = 0x21#6 := by rw [hW]; simp (disch := decide) only [ex_hi, ex_lo, ex_all, Nat.reduceSub]
  have wf30_2 : W.extractLsb' 30 2 = q.code := by rw [hW]; simp (disch := decide) only [ex_hi, ex_lo, ex_all, Nat.reduceSub]
  exact roundTrip_one hW' rfl rfl wf24_6 rfl wf30_2 (by
    rw [decodeOne_21 _ _ wf24_6]
    simp only [decodeVfp, ↓reduceIte, BitVec.reduceEq, and_false, false_and, and_self, not_true_eq_false, and_true, true_and, wf3_3, wf20_4, wf16_4, wf12_4, wf8_4, ETy.ofCode_code, wf6_2, wf0_3, Rm.ofCode_code, Option.map_some])

theorem RoundTrip.vfmul (o : V3R) : RoundTrip.Statement (.vfmul o) := by
  obtain ⟨q, d, a, b, t, m, r⟩ := o
  generalize hW' : encode0 (.vfmul ⟨q, d, a, b, t, m, r⟩) = W
  have hW : W = q.code ++ 0x21#6 ++ d ++ a ++ b ++ t.code ++ m ++ 0x2#3 ++ r.code := hW'.symm
  have wf3_3 : W.extractLsb' 3 3 = 0x2#3 := by rw [hW]; simp (disch := decide) only [ex_hi, ex_lo, ex_all, Nat.reduceSub]
  have wf20_4 : W.extractLsb' 20 4 = d := by rw [hW]; simp (disch := decide) only [ex_hi, ex_lo, ex_all, Nat.reduceSub]
  have wf16_4 : W.extractLsb' 16 4 = a := by rw [hW]; simp (disch := decide) only [ex_hi, ex_lo, ex_all, Nat.reduceSub]
  have wf12_4 : W.extractLsb' 12 4 = b := by rw [hW]; simp (disch := decide) only [ex_hi, ex_lo, ex_all, Nat.reduceSub]
  have wf8_4 : W.extractLsb' 8 4 = t.code := by rw [hW]; simp (disch := decide) only [ex_hi, ex_lo, ex_all, Nat.reduceSub]
  have wf6_2 : W.extractLsb' 6 2 = m := by rw [hW]; simp (disch := decide) only [ex_hi, ex_lo, ex_all, Nat.reduceSub]
  have wf0_3 : W.extractLsb' 0 3 = r.code := by rw [hW]; simp (disch := decide) only [ex_hi, ex_lo, ex_all, Nat.reduceSub]
  have wf24_6 : W.extractLsb' 24 6 = 0x21#6 := by rw [hW]; simp (disch := decide) only [ex_hi, ex_lo, ex_all, Nat.reduceSub]
  have wf30_2 : W.extractLsb' 30 2 = q.code := by rw [hW]; simp (disch := decide) only [ex_hi, ex_lo, ex_all, Nat.reduceSub]
  exact roundTrip_one hW' rfl rfl wf24_6 rfl wf30_2 (by
    rw [decodeOne_21 _ _ wf24_6]
    simp only [decodeVfp, ↓reduceIte, BitVec.reduceEq, and_false, false_and, and_self, not_true_eq_false, and_true, true_and, wf3_3, wf20_4, wf16_4, wf12_4, wf8_4, ETy.ofCode_code, wf6_2, wf0_3, Rm.ofCode_code, Option.map_some])

theorem RoundTrip.vfma (o : V3R) : RoundTrip.Statement (.vfma o) := by
  obtain ⟨q, d, a, b, t, m, r⟩ := o
  generalize hW' : encode0 (.vfma ⟨q, d, a, b, t, m, r⟩) = W
  have hW : W = q.code ++ 0x21#6 ++ d ++ a ++ b ++ t.code ++ m ++ 0x3#3 ++ r.code := hW'.symm
  have wf3_3 : W.extractLsb' 3 3 = 0x3#3 := by rw [hW]; simp (disch := decide) only [ex_hi, ex_lo, ex_all, Nat.reduceSub]
  have wf20_4 : W.extractLsb' 20 4 = d := by rw [hW]; simp (disch := decide) only [ex_hi, ex_lo, ex_all, Nat.reduceSub]
  have wf16_4 : W.extractLsb' 16 4 = a := by rw [hW]; simp (disch := decide) only [ex_hi, ex_lo, ex_all, Nat.reduceSub]
  have wf12_4 : W.extractLsb' 12 4 = b := by rw [hW]; simp (disch := decide) only [ex_hi, ex_lo, ex_all, Nat.reduceSub]
  have wf8_4 : W.extractLsb' 8 4 = t.code := by rw [hW]; simp (disch := decide) only [ex_hi, ex_lo, ex_all, Nat.reduceSub]
  have wf6_2 : W.extractLsb' 6 2 = m := by rw [hW]; simp (disch := decide) only [ex_hi, ex_lo, ex_all, Nat.reduceSub]
  have wf0_3 : W.extractLsb' 0 3 = r.code := by rw [hW]; simp (disch := decide) only [ex_hi, ex_lo, ex_all, Nat.reduceSub]
  have wf24_6 : W.extractLsb' 24 6 = 0x21#6 := by rw [hW]; simp (disch := decide) only [ex_hi, ex_lo, ex_all, Nat.reduceSub]
  have wf30_2 : W.extractLsb' 30 2 = q.code := by rw [hW]; simp (disch := decide) only [ex_hi, ex_lo, ex_all, Nat.reduceSub]
  exact roundTrip_one hW' rfl rfl wf24_6 rfl wf30_2 (by
    rw [decodeOne_21 _ _ wf24_6]
    simp only [decodeVfp, ↓reduceIte, BitVec.reduceEq, and_false, false_and, and_self, not_true_eq_false, and_true, true_and, wf3_3, wf20_4, wf16_4, wf12_4, wf8_4, ETy.ofCode_code, wf6_2, wf0_3, Rm.ofCode_code, Option.map_some])

theorem RoundTrip.vfmulw (o : V3R) : RoundTrip.Statement (.vfmulw o) := by
  obtain ⟨q, d, a, b, t, m, r⟩ := o
  generalize hW' : encode0 (.vfmulw ⟨q, d, a, b, t, m, r⟩) = W
  have hW : W = q.code ++ 0x21#6 ++ d ++ a ++ b ++ t.code ++ m ++ 0x4#3 ++ r.code := hW'.symm
  have wf3_3 : W.extractLsb' 3 3 = 0x4#3 := by rw [hW]; simp (disch := decide) only [ex_hi, ex_lo, ex_all, Nat.reduceSub]
  have wf20_4 : W.extractLsb' 20 4 = d := by rw [hW]; simp (disch := decide) only [ex_hi, ex_lo, ex_all, Nat.reduceSub]
  have wf16_4 : W.extractLsb' 16 4 = a := by rw [hW]; simp (disch := decide) only [ex_hi, ex_lo, ex_all, Nat.reduceSub]
  have wf12_4 : W.extractLsb' 12 4 = b := by rw [hW]; simp (disch := decide) only [ex_hi, ex_lo, ex_all, Nat.reduceSub]
  have wf8_4 : W.extractLsb' 8 4 = t.code := by rw [hW]; simp (disch := decide) only [ex_hi, ex_lo, ex_all, Nat.reduceSub]
  have wf6_2 : W.extractLsb' 6 2 = m := by rw [hW]; simp (disch := decide) only [ex_hi, ex_lo, ex_all, Nat.reduceSub]
  have wf0_3 : W.extractLsb' 0 3 = r.code := by rw [hW]; simp (disch := decide) only [ex_hi, ex_lo, ex_all, Nat.reduceSub]
  have wf24_6 : W.extractLsb' 24 6 = 0x21#6 := by rw [hW]; simp (disch := decide) only [ex_hi, ex_lo, ex_all, Nat.reduceSub]
  have wf30_2 : W.extractLsb' 30 2 = q.code := by rw [hW]; simp (disch := decide) only [ex_hi, ex_lo, ex_all, Nat.reduceSub]
  exact roundTrip_one hW' rfl rfl wf24_6 rfl wf30_2 (by
    rw [decodeOne_21 _ _ wf24_6]
    simp only [decodeVfp, ↓reduceIte, BitVec.reduceEq, and_false, false_and, and_self, not_true_eq_false, and_true, true_and, wf3_3, wf20_4, wf16_4, wf12_4, wf8_4, ETy.ofCode_code, wf6_2, wf0_3, Rm.ofCode_code, Option.map_some])

theorem RoundTrip.vfmaw (o : V3R) : RoundTrip.Statement (.vfmaw o) := by
  obtain ⟨q, d, a, b, t, m, r⟩ := o
  generalize hW' : encode0 (.vfmaw ⟨q, d, a, b, t, m, r⟩) = W
  have hW : W = q.code ++ 0x21#6 ++ d ++ a ++ b ++ t.code ++ m ++ 0x5#3 ++ r.code := hW'.symm
  have wf3_3 : W.extractLsb' 3 3 = 0x5#3 := by rw [hW]; simp (disch := decide) only [ex_hi, ex_lo, ex_all, Nat.reduceSub]
  have wf20_4 : W.extractLsb' 20 4 = d := by rw [hW]; simp (disch := decide) only [ex_hi, ex_lo, ex_all, Nat.reduceSub]
  have wf16_4 : W.extractLsb' 16 4 = a := by rw [hW]; simp (disch := decide) only [ex_hi, ex_lo, ex_all, Nat.reduceSub]
  have wf12_4 : W.extractLsb' 12 4 = b := by rw [hW]; simp (disch := decide) only [ex_hi, ex_lo, ex_all, Nat.reduceSub]
  have wf8_4 : W.extractLsb' 8 4 = t.code := by rw [hW]; simp (disch := decide) only [ex_hi, ex_lo, ex_all, Nat.reduceSub]
  have wf6_2 : W.extractLsb' 6 2 = m := by rw [hW]; simp (disch := decide) only [ex_hi, ex_lo, ex_all, Nat.reduceSub]
  have wf0_3 : W.extractLsb' 0 3 = r.code := by rw [hW]; simp (disch := decide) only [ex_hi, ex_lo, ex_all, Nat.reduceSub]
  have wf24_6 : W.extractLsb' 24 6 = 0x21#6 := by rw [hW]; simp (disch := decide) only [ex_hi, ex_lo, ex_all, Nat.reduceSub]
  have wf30_2 : W.extractLsb' 30 2 = q.code := by rw [hW]; simp (disch := decide) only [ex_hi, ex_lo, ex_all, Nat.reduceSub]
  exact roundTrip_one hW' rfl rfl wf24_6 rfl wf30_2 (by
    rw [decodeOne_21 _ _ wf24_6]
    simp only [decodeVfp, ↓reduceIte, BitVec.reduceEq, and_false, false_and, and_self, not_true_eq_false, and_true, true_and, wf3_3, wf20_4, wf16_4, wf12_4, wf8_4, ETy.ofCode_code, wf6_2, wf0_3, Rm.ofCode_code, Option.map_some])

theorem RoundTrip.vfmul2 (o : V3R) : RoundTrip.Statement (.vfmul2 o) := by
  obtain ⟨q, d, a, b, t, m, r⟩ := o
  generalize hW' : encode0 (.vfmul2 ⟨q, d, a, b, t, m, r⟩) = W
  have hW : W = q.code ++ 0x21#6 ++ d ++ a ++ b ++ t.code ++ m ++ 0x6#3 ++ r.code := hW'.symm
  have wf3_3 : W.extractLsb' 3 3 = 0x6#3 := by rw [hW]; simp (disch := decide) only [ex_hi, ex_lo, ex_all, Nat.reduceSub]
  have wf20_4 : W.extractLsb' 20 4 = d := by rw [hW]; simp (disch := decide) only [ex_hi, ex_lo, ex_all, Nat.reduceSub]
  have wf16_4 : W.extractLsb' 16 4 = a := by rw [hW]; simp (disch := decide) only [ex_hi, ex_lo, ex_all, Nat.reduceSub]
  have wf12_4 : W.extractLsb' 12 4 = b := by rw [hW]; simp (disch := decide) only [ex_hi, ex_lo, ex_all, Nat.reduceSub]
  have wf8_4 : W.extractLsb' 8 4 = t.code := by rw [hW]; simp (disch := decide) only [ex_hi, ex_lo, ex_all, Nat.reduceSub]
  have wf6_2 : W.extractLsb' 6 2 = m := by rw [hW]; simp (disch := decide) only [ex_hi, ex_lo, ex_all, Nat.reduceSub]
  have wf0_3 : W.extractLsb' 0 3 = r.code := by rw [hW]; simp (disch := decide) only [ex_hi, ex_lo, ex_all, Nat.reduceSub]
  have wf24_6 : W.extractLsb' 24 6 = 0x21#6 := by rw [hW]; simp (disch := decide) only [ex_hi, ex_lo, ex_all, Nat.reduceSub]
  have wf30_2 : W.extractLsb' 30 2 = q.code := by rw [hW]; simp (disch := decide) only [ex_hi, ex_lo, ex_all, Nat.reduceSub]
  exact roundTrip_one hW' rfl rfl wf24_6 rfl wf30_2 (by
    rw [decodeOne_21 _ _ wf24_6]
    simp only [decodeVfp, ↓reduceIte, BitVec.reduceEq, and_false, false_and, and_self, not_true_eq_false, and_true, true_and, wf3_3, wf20_4, wf16_4, wf12_4, wf8_4, ETy.ofCode_code, wf6_2, wf0_3, Rm.ofCode_code, Option.map_some])

theorem RoundTrip.vfmin (o : V3) : RoundTrip.Statement (.vfmin o) := by
  obtain ⟨q, d, a, b, t, m⟩ := o
  generalize hW' : encode0 (.vfmin ⟨q, d, a, b, t, m⟩) = W
  have hW : W = q.code ++ 0x21#6 ++ d ++ a ++ b ++ t.code ++ m ++ 0x38#6 := hW'.symm
  have wf3_3 : W.extractLsb' 3 3 = 7#3 := by rw [hW]; simp (disch := decide) only [ex_hi, ex_lo, ex_all, Nat.reduceSub]; rfl
  have wf0_6 : W.extractLsb' 0 6 = 0x38#6 := by rw [hW]; simp (disch := decide) only [ex_hi, ex_lo, ex_all, Nat.reduceSub]
  have wf20_4 : W.extractLsb' 20 4 = d := by rw [hW]; simp (disch := decide) only [ex_hi, ex_lo, ex_all, Nat.reduceSub]
  have wf16_4 : W.extractLsb' 16 4 = a := by rw [hW]; simp (disch := decide) only [ex_hi, ex_lo, ex_all, Nat.reduceSub]
  have wf12_4 : W.extractLsb' 12 4 = b := by rw [hW]; simp (disch := decide) only [ex_hi, ex_lo, ex_all, Nat.reduceSub]
  have wf8_4 : W.extractLsb' 8 4 = t.code := by rw [hW]; simp (disch := decide) only [ex_hi, ex_lo, ex_all, Nat.reduceSub]
  have wf6_2 : W.extractLsb' 6 2 = m := by rw [hW]; simp (disch := decide) only [ex_hi, ex_lo, ex_all, Nat.reduceSub]
  have wf24_6 : W.extractLsb' 24 6 = 0x21#6 := by rw [hW]; simp (disch := decide) only [ex_hi, ex_lo, ex_all, Nat.reduceSub]
  have wf30_2 : W.extractLsb' 30 2 = q.code := by rw [hW]; simp (disch := decide) only [ex_hi, ex_lo, ex_all, Nat.reduceSub]
  exact roundTrip_one hW' rfl rfl wf24_6 rfl wf30_2 (by
    rw [decodeOne_21 _ _ wf24_6]
    simp only [decodeVfp, ↓reduceIte, BitVec.reduceEq, and_false, false_and, and_self, not_true_eq_false, and_true, true_and, wf3_3, wf0_6, wf20_4, wf16_4, wf12_4, wf8_4, ETy.ofCode_code, wf6_2])

theorem RoundTrip.vfmax (o : V3) : RoundTrip.Statement (.vfmax o) := by
  obtain ⟨q, d, a, b, t, m⟩ := o
  generalize hW' : encode0 (.vfmax ⟨q, d, a, b, t, m⟩) = W
  have hW : W = q.code ++ 0x21#6 ++ d ++ a ++ b ++ t.code ++ m ++ 0x39#6 := hW'.symm
  have wf3_3 : W.extractLsb' 3 3 = 7#3 := by rw [hW]; simp (disch := decide) only [ex_hi, ex_lo, ex_all, Nat.reduceSub]; rfl
  have wf0_6 : W.extractLsb' 0 6 = 0x39#6 := by rw [hW]; simp (disch := decide) only [ex_hi, ex_lo, ex_all, Nat.reduceSub]
  have wf20_4 : W.extractLsb' 20 4 = d := by rw [hW]; simp (disch := decide) only [ex_hi, ex_lo, ex_all, Nat.reduceSub]
  have wf16_4 : W.extractLsb' 16 4 = a := by rw [hW]; simp (disch := decide) only [ex_hi, ex_lo, ex_all, Nat.reduceSub]
  have wf12_4 : W.extractLsb' 12 4 = b := by rw [hW]; simp (disch := decide) only [ex_hi, ex_lo, ex_all, Nat.reduceSub]
  have wf8_4 : W.extractLsb' 8 4 = t.code := by rw [hW]; simp (disch := decide) only [ex_hi, ex_lo, ex_all, Nat.reduceSub]
  have wf6_2 : W.extractLsb' 6 2 = m := by rw [hW]; simp (disch := decide) only [ex_hi, ex_lo, ex_all, Nat.reduceSub]
  have wf24_6 : W.extractLsb' 24 6 = 0x21#6 := by rw [hW]; simp (disch := decide) only [ex_hi, ex_lo, ex_all, Nat.reduceSub]
  have wf30_2 : W.extractLsb' 30 2 = q.code := by rw [hW]; simp (disch := decide) only [ex_hi, ex_lo, ex_all, Nat.reduceSub]
  exact roundTrip_one hW' rfl rfl wf24_6 rfl wf30_2 (by
    rw [decodeOne_21 _ _ wf24_6]
    simp only [decodeVfp, ↓reduceIte, BitVec.reduceEq, and_false, false_and, and_self, not_true_eq_false, and_true, true_and, wf3_3, wf0_6, wf20_4, wf16_4, wf12_4, wf8_4, ETy.ofCode_code, wf6_2])

theorem RoundTrip.vfabs (o : V2) : RoundTrip.Statement (.vfabs o) := by
  obtain ⟨q, d, a, t, m⟩ := o
  generalize hW' : encode0 (.vfabs ⟨q, d, a, t, m⟩) = W
  have hW : W = q.code ++ 0x21#6 ++ d ++ a ++ 0x0#4 ++ t.code ++ m ++ 0x3a#6 := hW'.symm
  have wf3_3 : W.extractLsb' 3 3 = 7#3 := by rw [hW]; simp (disch := decide) only [ex_hi, ex_lo, ex_all, Nat.reduceSub]; rfl
  have wf0_6 : W.extractLsb' 0 6 = 0x3a#6 := by rw [hW]; simp (disch := decide) only [ex_hi, ex_lo, ex_all, Nat.reduceSub]
  have wf12_4 : W.extractLsb' 12 4 = 0x0#4 := by rw [hW]; simp (disch := decide) only [ex_hi, ex_lo, ex_all, Nat.reduceSub]
  have wf20_4 : W.extractLsb' 20 4 = d := by rw [hW]; simp (disch := decide) only [ex_hi, ex_lo, ex_all, Nat.reduceSub]
  have wf16_4 : W.extractLsb' 16 4 = a := by rw [hW]; simp (disch := decide) only [ex_hi, ex_lo, ex_all, Nat.reduceSub]
  have wf8_4 : W.extractLsb' 8 4 = t.code := by rw [hW]; simp (disch := decide) only [ex_hi, ex_lo, ex_all, Nat.reduceSub]
  have wf6_2 : W.extractLsb' 6 2 = m := by rw [hW]; simp (disch := decide) only [ex_hi, ex_lo, ex_all, Nat.reduceSub]
  have wf24_6 : W.extractLsb' 24 6 = 0x21#6 := by rw [hW]; simp (disch := decide) only [ex_hi, ex_lo, ex_all, Nat.reduceSub]
  have wf30_2 : W.extractLsb' 30 2 = q.code := by rw [hW]; simp (disch := decide) only [ex_hi, ex_lo, ex_all, Nat.reduceSub]
  exact roundTrip_one hW' rfl rfl wf24_6 rfl wf30_2 (by
    rw [decodeOne_21 _ _ wf24_6]
    simp only [decodeVfp, ↓reduceIte, BitVec.reduceEq, and_false, false_and, and_self, not_true_eq_false, and_true, true_and, wf3_3, wf0_6, wf12_4, wf20_4, wf16_4, wf8_4, ETy.ofCode_code, wf6_2])

theorem RoundTrip.vfneg (o : V2) : RoundTrip.Statement (.vfneg o) := by
  obtain ⟨q, d, a, t, m⟩ := o
  generalize hW' : encode0 (.vfneg ⟨q, d, a, t, m⟩) = W
  have hW : W = q.code ++ 0x21#6 ++ d ++ a ++ 0x0#4 ++ t.code ++ m ++ 0x3b#6 := hW'.symm
  have wf3_3 : W.extractLsb' 3 3 = 7#3 := by rw [hW]; simp (disch := decide) only [ex_hi, ex_lo, ex_all, Nat.reduceSub]; rfl
  have wf0_6 : W.extractLsb' 0 6 = 0x3b#6 := by rw [hW]; simp (disch := decide) only [ex_hi, ex_lo, ex_all, Nat.reduceSub]
  have wf12_4 : W.extractLsb' 12 4 = 0x0#4 := by rw [hW]; simp (disch := decide) only [ex_hi, ex_lo, ex_all, Nat.reduceSub]
  have wf20_4 : W.extractLsb' 20 4 = d := by rw [hW]; simp (disch := decide) only [ex_hi, ex_lo, ex_all, Nat.reduceSub]
  have wf16_4 : W.extractLsb' 16 4 = a := by rw [hW]; simp (disch := decide) only [ex_hi, ex_lo, ex_all, Nat.reduceSub]
  have wf8_4 : W.extractLsb' 8 4 = t.code := by rw [hW]; simp (disch := decide) only [ex_hi, ex_lo, ex_all, Nat.reduceSub]
  have wf6_2 : W.extractLsb' 6 2 = m := by rw [hW]; simp (disch := decide) only [ex_hi, ex_lo, ex_all, Nat.reduceSub]
  have wf24_6 : W.extractLsb' 24 6 = 0x21#6 := by rw [hW]; simp (disch := decide) only [ex_hi, ex_lo, ex_all, Nat.reduceSub]
  have wf30_2 : W.extractLsb' 30 2 = q.code := by rw [hW]; simp (disch := decide) only [ex_hi, ex_lo, ex_all, Nat.reduceSub]
  exact roundTrip_one hW' rfl rfl wf24_6 rfl wf30_2 (by
    rw [decodeOne_21 _ _ wf24_6]
    simp only [decodeVfp, ↓reduceIte, BitVec.reduceEq, and_false, false_and, and_self, not_true_eq_false, and_true, true_and, wf3_3, wf0_6, wf12_4, wf20_4, wf16_4, wf8_4, ETy.ofCode_code, wf6_2])

theorem RoundTrip.vfcmpEq (o : VC3) : RoundTrip.Statement (.vfcmpEq o) := by
  obtain ⟨q, d, a, b, t, m⟩ := o
  generalize hW' : encode0 (.vfcmpEq ⟨q, d, a, b, t, m⟩) = W
  have hW : W = q.code ++ 0x21#6 ++ 0x0#2 ++ d ++ a ++ b ++ t.code ++ m ++ 0x3c#6 := hW'.symm
  have wf3_3 : W.extractLsb' 3 3 = 7#3 := by rw [hW]; simp (disch := decide) only [ex_hi, ex_lo, ex_all, Nat.reduceSub]; rfl
  have wf0_6 : W.extractLsb' 0 6 = 0x3c#6 := by rw [hW]; simp (disch := decide) only [ex_hi, ex_lo, ex_all, Nat.reduceSub]
  have wf22_2 : W.extractLsb' 22 2 = 0x0#2 := by rw [hW]; simp (disch := decide) only [ex_hi, ex_lo, ex_all, Nat.reduceSub]
  have wf20_2 : W.extractLsb' 20 2 = d := by rw [hW]; simp (disch := decide) only [ex_hi, ex_lo, ex_all, Nat.reduceSub]
  have wf16_4 : W.extractLsb' 16 4 = a := by rw [hW]; simp (disch := decide) only [ex_hi, ex_lo, ex_all, Nat.reduceSub]
  have wf12_4 : W.extractLsb' 12 4 = b := by rw [hW]; simp (disch := decide) only [ex_hi, ex_lo, ex_all, Nat.reduceSub]
  have wf8_4 : W.extractLsb' 8 4 = t.code := by rw [hW]; simp (disch := decide) only [ex_hi, ex_lo, ex_all, Nat.reduceSub]
  have wf6_2 : W.extractLsb' 6 2 = m := by rw [hW]; simp (disch := decide) only [ex_hi, ex_lo, ex_all, Nat.reduceSub]
  have wf24_6 : W.extractLsb' 24 6 = 0x21#6 := by rw [hW]; simp (disch := decide) only [ex_hi, ex_lo, ex_all, Nat.reduceSub]
  have wf30_2 : W.extractLsb' 30 2 = q.code := by rw [hW]; simp (disch := decide) only [ex_hi, ex_lo, ex_all, Nat.reduceSub]
  exact roundTrip_one hW' rfl rfl wf24_6 rfl wf30_2 (by
    rw [decodeOne_21 _ _ wf24_6]
    simp only [decodeVfp, ↓reduceIte, BitVec.reduceEq, and_false, false_and, and_self, not_true_eq_false, and_true, true_and, wf3_3, wf0_6, wf22_2, wf20_2, wf16_4, wf12_4, wf8_4, ETy.ofCode_code, wf6_2])

theorem RoundTrip.vfcmpLt (o : VC3) : RoundTrip.Statement (.vfcmpLt o) := by
  obtain ⟨q, d, a, b, t, m⟩ := o
  generalize hW' : encode0 (.vfcmpLt ⟨q, d, a, b, t, m⟩) = W
  have hW : W = q.code ++ 0x21#6 ++ 0x0#2 ++ d ++ a ++ b ++ t.code ++ m ++ 0x3d#6 := hW'.symm
  have wf3_3 : W.extractLsb' 3 3 = 7#3 := by rw [hW]; simp (disch := decide) only [ex_hi, ex_lo, ex_all, Nat.reduceSub]; rfl
  have wf0_6 : W.extractLsb' 0 6 = 0x3d#6 := by rw [hW]; simp (disch := decide) only [ex_hi, ex_lo, ex_all, Nat.reduceSub]
  have wf22_2 : W.extractLsb' 22 2 = 0x0#2 := by rw [hW]; simp (disch := decide) only [ex_hi, ex_lo, ex_all, Nat.reduceSub]
  have wf20_2 : W.extractLsb' 20 2 = d := by rw [hW]; simp (disch := decide) only [ex_hi, ex_lo, ex_all, Nat.reduceSub]
  have wf16_4 : W.extractLsb' 16 4 = a := by rw [hW]; simp (disch := decide) only [ex_hi, ex_lo, ex_all, Nat.reduceSub]
  have wf12_4 : W.extractLsb' 12 4 = b := by rw [hW]; simp (disch := decide) only [ex_hi, ex_lo, ex_all, Nat.reduceSub]
  have wf8_4 : W.extractLsb' 8 4 = t.code := by rw [hW]; simp (disch := decide) only [ex_hi, ex_lo, ex_all, Nat.reduceSub]
  have wf6_2 : W.extractLsb' 6 2 = m := by rw [hW]; simp (disch := decide) only [ex_hi, ex_lo, ex_all, Nat.reduceSub]
  have wf24_6 : W.extractLsb' 24 6 = 0x21#6 := by rw [hW]; simp (disch := decide) only [ex_hi, ex_lo, ex_all, Nat.reduceSub]
  have wf30_2 : W.extractLsb' 30 2 = q.code := by rw [hW]; simp (disch := decide) only [ex_hi, ex_lo, ex_all, Nat.reduceSub]
  exact roundTrip_one hW' rfl rfl wf24_6 rfl wf30_2 (by
    rw [decodeOne_21 _ _ wf24_6]
    simp only [decodeVfp, ↓reduceIte, BitVec.reduceEq, and_false, false_and, and_self, not_true_eq_false, and_true, true_and, wf3_3, wf0_6, wf22_2, wf20_2, wf16_4, wf12_4, wf8_4, ETy.ofCode_code, wf6_2])

theorem RoundTrip.vfcmpLe (o : VC3) : RoundTrip.Statement (.vfcmpLe o) := by
  obtain ⟨q, d, a, b, t, m⟩ := o
  generalize hW' : encode0 (.vfcmpLe ⟨q, d, a, b, t, m⟩) = W
  have hW : W = q.code ++ 0x21#6 ++ 0x0#2 ++ d ++ a ++ b ++ t.code ++ m ++ 0x3e#6 := hW'.symm
  have wf3_3 : W.extractLsb' 3 3 = 7#3 := by rw [hW]; simp (disch := decide) only [ex_hi, ex_lo, ex_all, Nat.reduceSub]; rfl
  have wf0_6 : W.extractLsb' 0 6 = 0x3e#6 := by rw [hW]; simp (disch := decide) only [ex_hi, ex_lo, ex_all, Nat.reduceSub]
  have wf22_2 : W.extractLsb' 22 2 = 0x0#2 := by rw [hW]; simp (disch := decide) only [ex_hi, ex_lo, ex_all, Nat.reduceSub]
  have wf20_2 : W.extractLsb' 20 2 = d := by rw [hW]; simp (disch := decide) only [ex_hi, ex_lo, ex_all, Nat.reduceSub]
  have wf16_4 : W.extractLsb' 16 4 = a := by rw [hW]; simp (disch := decide) only [ex_hi, ex_lo, ex_all, Nat.reduceSub]
  have wf12_4 : W.extractLsb' 12 4 = b := by rw [hW]; simp (disch := decide) only [ex_hi, ex_lo, ex_all, Nat.reduceSub]
  have wf8_4 : W.extractLsb' 8 4 = t.code := by rw [hW]; simp (disch := decide) only [ex_hi, ex_lo, ex_all, Nat.reduceSub]
  have wf6_2 : W.extractLsb' 6 2 = m := by rw [hW]; simp (disch := decide) only [ex_hi, ex_lo, ex_all, Nat.reduceSub]
  have wf24_6 : W.extractLsb' 24 6 = 0x21#6 := by rw [hW]; simp (disch := decide) only [ex_hi, ex_lo, ex_all, Nat.reduceSub]
  have wf30_2 : W.extractLsb' 30 2 = q.code := by rw [hW]; simp (disch := decide) only [ex_hi, ex_lo, ex_all, Nat.reduceSub]
  exact roundTrip_one hW' rfl rfl wf24_6 rfl wf30_2 (by
    rw [decodeOne_21 _ _ wf24_6]
    simp only [decodeVfp, ↓reduceIte, BitVec.reduceEq, and_false, false_and, and_self, not_true_eq_false, and_true, true_and, wf3_3, wf0_6, wf22_2, wf20_2, wf16_4, wf12_4, wf8_4, ETy.ofCode_code, wf6_2])

theorem RoundTrip.vfcmpUn (o : VC3) : RoundTrip.Statement (.vfcmpUn o) := by
  obtain ⟨q, d, a, b, t, m⟩ := o
  generalize hW' : encode0 (.vfcmpUn ⟨q, d, a, b, t, m⟩) = W
  have hW : W = q.code ++ 0x21#6 ++ 0x0#2 ++ d ++ a ++ b ++ t.code ++ m ++ 0x3f#6 := hW'.symm
  have wf3_3 : W.extractLsb' 3 3 = 7#3 := by rw [hW]; simp (disch := decide) only [ex_hi, ex_lo, ex_all, Nat.reduceSub]; rfl
  have wf0_6 : W.extractLsb' 0 6 = 0x3f#6 := by rw [hW]; simp (disch := decide) only [ex_hi, ex_lo, ex_all, Nat.reduceSub]
  have wf22_2 : W.extractLsb' 22 2 = 0x0#2 := by rw [hW]; simp (disch := decide) only [ex_hi, ex_lo, ex_all, Nat.reduceSub]
  have wf20_2 : W.extractLsb' 20 2 = d := by rw [hW]; simp (disch := decide) only [ex_hi, ex_lo, ex_all, Nat.reduceSub]
  have wf16_4 : W.extractLsb' 16 4 = a := by rw [hW]; simp (disch := decide) only [ex_hi, ex_lo, ex_all, Nat.reduceSub]
  have wf12_4 : W.extractLsb' 12 4 = b := by rw [hW]; simp (disch := decide) only [ex_hi, ex_lo, ex_all, Nat.reduceSub]
  have wf8_4 : W.extractLsb' 8 4 = t.code := by rw [hW]; simp (disch := decide) only [ex_hi, ex_lo, ex_all, Nat.reduceSub]
  have wf6_2 : W.extractLsb' 6 2 = m := by rw [hW]; simp (disch := decide) only [ex_hi, ex_lo, ex_all, Nat.reduceSub]
  have wf24_6 : W.extractLsb' 24 6 = 0x21#6 := by rw [hW]; simp (disch := decide) only [ex_hi, ex_lo, ex_all, Nat.reduceSub]
  have wf30_2 : W.extractLsb' 30 2 = q.code := by rw [hW]; simp (disch := decide) only [ex_hi, ex_lo, ex_all, Nat.reduceSub]
  exact roundTrip_one hW' rfl rfl wf24_6 rfl wf30_2 (by
    rw [decodeOne_21 _ _ wf24_6]
    simp only [decodeVfp, ↓reduceIte, BitVec.reduceEq, and_false, false_and, and_self, not_true_eq_false, and_true, true_and, wf3_3, wf0_6, wf22_2, wf20_2, wf16_4, wf12_4, wf8_4, ETy.ofCode_code, wf6_2])

theorem RoundTrip.vaddVs (o : VS) : RoundTrip.Statement (.vaddVs o) := by
  obtain ⟨q, d, a, g, t, m⟩ := o
  generalize hW' : encode0 (.vaddVs ⟨q, d, a, g, t, m⟩) = W
  have hW : W = q.code ++ 0x22#6 ++ d ++ a ++ g ++ t.code ++ m ++ 0x0#5 := hW'.symm
  have wf0_5 : W.extractLsb' 0 5 = 0x0#5 := by rw [hW]; simp (disch := decide) only [ex_hi, ex_lo, ex_all, Nat.reduceSub]
  have wf20_4 : W.extractLsb' 20 4 = d := by rw [hW]; simp (disch := decide) only [ex_hi, ex_lo, ex_all, Nat.reduceSub]
  have wf16_4 : W.extractLsb' 16 4 = a := by rw [hW]; simp (disch := decide) only [ex_hi, ex_lo, ex_all, Nat.reduceSub]
  have wf11_5 : W.extractLsb' 11 5 = g := by rw [hW]; simp (disch := decide) only [ex_hi, ex_lo, ex_all, Nat.reduceSub]
  have wf7_4 : W.extractLsb' 7 4 = t.code := by rw [hW]; simp (disch := decide) only [ex_hi, ex_lo, ex_all, Nat.reduceSub]
  have wf5_2 : W.extractLsb' 5 2 = m := by rw [hW]; simp (disch := decide) only [ex_hi, ex_lo, ex_all, Nat.reduceSub]
  have wf24_6 : W.extractLsb' 24 6 = 0x22#6 := by rw [hW]; simp (disch := decide) only [ex_hi, ex_lo, ex_all, Nat.reduceSub]
  have wf30_2 : W.extractLsb' 30 2 = q.code := by rw [hW]; simp (disch := decide) only [ex_hi, ex_lo, ex_all, Nat.reduceSub]
  exact roundTrip_one hW' rfl rfl wf24_6 rfl wf30_2 (by
    rw [decodeOne_22 _ _ wf24_6]
    simp only [decodeVsc, ↓reduceIte, BitVec.reduceEq, and_false, false_and, and_self, not_true_eq_false, and_true, true_and, wf0_5, wf20_4, wf16_4, wf11_5, wf7_4, ETy.ofCode_code, wf5_2])

theorem RoundTrip.vaddsVs (o : VS) : RoundTrip.Statement (.vaddsVs o) := by
  obtain ⟨q, d, a, g, t, m⟩ := o
  generalize hW' : encode0 (.vaddsVs ⟨q, d, a, g, t, m⟩) = W
  have hW : W = q.code ++ 0x22#6 ++ d ++ a ++ g ++ t.code ++ m ++ 0x10#5 := hW'.symm
  have wf0_5 : W.extractLsb' 0 5 = 0x10#5 := by rw [hW]; simp (disch := decide) only [ex_hi, ex_lo, ex_all, Nat.reduceSub]
  have wf20_4 : W.extractLsb' 20 4 = d := by rw [hW]; simp (disch := decide) only [ex_hi, ex_lo, ex_all, Nat.reduceSub]
  have wf16_4 : W.extractLsb' 16 4 = a := by rw [hW]; simp (disch := decide) only [ex_hi, ex_lo, ex_all, Nat.reduceSub]
  have wf11_5 : W.extractLsb' 11 5 = g := by rw [hW]; simp (disch := decide) only [ex_hi, ex_lo, ex_all, Nat.reduceSub]
  have wf7_4 : W.extractLsb' 7 4 = t.code := by rw [hW]; simp (disch := decide) only [ex_hi, ex_lo, ex_all, Nat.reduceSub]
  have wf5_2 : W.extractLsb' 5 2 = m := by rw [hW]; simp (disch := decide) only [ex_hi, ex_lo, ex_all, Nat.reduceSub]
  have wf24_6 : W.extractLsb' 24 6 = 0x22#6 := by rw [hW]; simp (disch := decide) only [ex_hi, ex_lo, ex_all, Nat.reduceSub]
  have wf30_2 : W.extractLsb' 30 2 = q.code := by rw [hW]; simp (disch := decide) only [ex_hi, ex_lo, ex_all, Nat.reduceSub]
  exact roundTrip_one hW' rfl rfl wf24_6 rfl wf30_2 (by
    rw [decodeOne_22 _ _ wf24_6]
    simp only [decodeVsc, ↓reduceIte, BitVec.reduceEq, and_false, false_and, and_self, not_true_eq_false, and_true, true_and, wf0_5, wf20_4, wf16_4, wf11_5, wf7_4, ETy.ofCode_code, wf5_2])

theorem RoundTrip.vsubVs (o : VS) : RoundTrip.Statement (.vsubVs o) := by
  obtain ⟨q, d, a, g, t, m⟩ := o
  generalize hW' : encode0 (.vsubVs ⟨q, d, a, g, t, m⟩) = W
  have hW : W = q.code ++ 0x22#6 ++ d ++ a ++ g ++ t.code ++ m ++ 0x1#5 := hW'.symm
  have wf0_5 : W.extractLsb' 0 5 = 0x1#5 := by rw [hW]; simp (disch := decide) only [ex_hi, ex_lo, ex_all, Nat.reduceSub]
  have wf20_4 : W.extractLsb' 20 4 = d := by rw [hW]; simp (disch := decide) only [ex_hi, ex_lo, ex_all, Nat.reduceSub]
  have wf16_4 : W.extractLsb' 16 4 = a := by rw [hW]; simp (disch := decide) only [ex_hi, ex_lo, ex_all, Nat.reduceSub]
  have wf11_5 : W.extractLsb' 11 5 = g := by rw [hW]; simp (disch := decide) only [ex_hi, ex_lo, ex_all, Nat.reduceSub]
  have wf7_4 : W.extractLsb' 7 4 = t.code := by rw [hW]; simp (disch := decide) only [ex_hi, ex_lo, ex_all, Nat.reduceSub]
  have wf5_2 : W.extractLsb' 5 2 = m := by rw [hW]; simp (disch := decide) only [ex_hi, ex_lo, ex_all, Nat.reduceSub]
  have wf24_6 : W.extractLsb' 24 6 = 0x22#6 := by rw [hW]; simp (disch := decide) only [ex_hi, ex_lo, ex_all, Nat.reduceSub]
  have wf30_2 : W.extractLsb' 30 2 = q.code := by rw [hW]; simp (disch := decide) only [ex_hi, ex_lo, ex_all, Nat.reduceSub]
  exact roundTrip_one hW' rfl rfl wf24_6 rfl wf30_2 (by
    rw [decodeOne_22 _ _ wf24_6]
    simp only [decodeVsc, ↓reduceIte, BitVec.reduceEq, and_false, false_and, and_self, not_true_eq_false, and_true, true_and, wf0_5, wf20_4, wf16_4, wf11_5, wf7_4, ETy.ofCode_code, wf5_2])

theorem RoundTrip.vsubsVs (o : VS) : RoundTrip.Statement (.vsubsVs o) := by
  obtain ⟨q, d, a, g, t, m⟩ := o
  generalize hW' : encode0 (.vsubsVs ⟨q, d, a, g, t, m⟩) = W
  have hW : W = q.code ++ 0x22#6 ++ d ++ a ++ g ++ t.code ++ m ++ 0x11#5 := hW'.symm
  have wf0_5 : W.extractLsb' 0 5 = 0x11#5 := by rw [hW]; simp (disch := decide) only [ex_hi, ex_lo, ex_all, Nat.reduceSub]
  have wf20_4 : W.extractLsb' 20 4 = d := by rw [hW]; simp (disch := decide) only [ex_hi, ex_lo, ex_all, Nat.reduceSub]
  have wf16_4 : W.extractLsb' 16 4 = a := by rw [hW]; simp (disch := decide) only [ex_hi, ex_lo, ex_all, Nat.reduceSub]
  have wf11_5 : W.extractLsb' 11 5 = g := by rw [hW]; simp (disch := decide) only [ex_hi, ex_lo, ex_all, Nat.reduceSub]
  have wf7_4 : W.extractLsb' 7 4 = t.code := by rw [hW]; simp (disch := decide) only [ex_hi, ex_lo, ex_all, Nat.reduceSub]
  have wf5_2 : W.extractLsb' 5 2 = m := by rw [hW]; simp (disch := decide) only [ex_hi, ex_lo, ex_all, Nat.reduceSub]
  have wf24_6 : W.extractLsb' 24 6 = 0x22#6 := by rw [hW]; simp (disch := decide) only [ex_hi, ex_lo, ex_all, Nat.reduceSub]
  have wf30_2 : W.extractLsb' 30 2 = q.code := by rw [hW]; simp (disch := decide) only [ex_hi, ex_lo, ex_all, Nat.reduceSub]
  exact roundTrip_one hW' rfl rfl wf24_6 rfl wf30_2 (by
    rw [decodeOne_22 _ _ wf24_6]
    simp only [decodeVsc, ↓reduceIte, BitVec.reduceEq, and_false, false_and, and_self, not_true_eq_false, and_true, true_and, wf0_5, wf20_4, wf16_4, wf11_5, wf7_4, ETy.ofCode_code, wf5_2])

theorem RoundTrip.vrsubVs (o : VS) : RoundTrip.Statement (.vrsubVs o) := by
  obtain ⟨q, d, a, g, t, m⟩ := o
  generalize hW' : encode0 (.vrsubVs ⟨q, d, a, g, t, m⟩) = W
  have hW : W = q.code ++ 0x22#6 ++ d ++ a ++ g ++ t.code ++ m ++ 0x2#5 := hW'.symm
  have wf0_5 : W.extractLsb' 0 5 = 0x2#5 := by rw [hW]; simp (disch := decide) only [ex_hi, ex_lo, ex_all, Nat.reduceSub]
  have wf20_4 : W.extractLsb' 20 4 = d := by rw [hW]; simp (disch := decide) only [ex_hi, ex_lo, ex_all, Nat.reduceSub]
  have wf16_4 : W.extractLsb' 16 4 = a := by rw [hW]; simp (disch := decide) only [ex_hi, ex_lo, ex_all, Nat.reduceSub]
  have wf11_5 : W.extractLsb' 11 5 = g := by rw [hW]; simp (disch := decide) only [ex_hi, ex_lo, ex_all, Nat.reduceSub]
  have wf7_4 : W.extractLsb' 7 4 = t.code := by rw [hW]; simp (disch := decide) only [ex_hi, ex_lo, ex_all, Nat.reduceSub]
  have wf5_2 : W.extractLsb' 5 2 = m := by rw [hW]; simp (disch := decide) only [ex_hi, ex_lo, ex_all, Nat.reduceSub]
  have wf24_6 : W.extractLsb' 24 6 = 0x22#6 := by rw [hW]; simp (disch := decide) only [ex_hi, ex_lo, ex_all, Nat.reduceSub]
  have wf30_2 : W.extractLsb' 30 2 = q.code := by rw [hW]; simp (disch := decide) only [ex_hi, ex_lo, ex_all, Nat.reduceSub]
  exact roundTrip_one hW' rfl rfl wf24_6 rfl wf30_2 (by
    rw [decodeOne_22 _ _ wf24_6]
    simp only [decodeVsc, ↓reduceIte, BitVec.reduceEq, and_false, false_and, and_self, not_true_eq_false, and_true, true_and, wf0_5, wf20_4, wf16_4, wf11_5, wf7_4, ETy.ofCode_code, wf5_2])

theorem RoundTrip.vrsubsVs (o : VS) : RoundTrip.Statement (.vrsubsVs o) := by
  obtain ⟨q, d, a, g, t, m⟩ := o
  generalize hW' : encode0 (.vrsubsVs ⟨q, d, a, g, t, m⟩) = W
  have hW : W = q.code ++ 0x22#6 ++ d ++ a ++ g ++ t.code ++ m ++ 0x12#5 := hW'.symm
  have wf0_5 : W.extractLsb' 0 5 = 0x12#5 := by rw [hW]; simp (disch := decide) only [ex_hi, ex_lo, ex_all, Nat.reduceSub]
  have wf20_4 : W.extractLsb' 20 4 = d := by rw [hW]; simp (disch := decide) only [ex_hi, ex_lo, ex_all, Nat.reduceSub]
  have wf16_4 : W.extractLsb' 16 4 = a := by rw [hW]; simp (disch := decide) only [ex_hi, ex_lo, ex_all, Nat.reduceSub]
  have wf11_5 : W.extractLsb' 11 5 = g := by rw [hW]; simp (disch := decide) only [ex_hi, ex_lo, ex_all, Nat.reduceSub]
  have wf7_4 : W.extractLsb' 7 4 = t.code := by rw [hW]; simp (disch := decide) only [ex_hi, ex_lo, ex_all, Nat.reduceSub]
  have wf5_2 : W.extractLsb' 5 2 = m := by rw [hW]; simp (disch := decide) only [ex_hi, ex_lo, ex_all, Nat.reduceSub]
  have wf24_6 : W.extractLsb' 24 6 = 0x22#6 := by rw [hW]; simp (disch := decide) only [ex_hi, ex_lo, ex_all, Nat.reduceSub]
  have wf30_2 : W.extractLsb' 30 2 = q.code := by rw [hW]; simp (disch := decide) only [ex_hi, ex_lo, ex_all, Nat.reduceSub]
  exact roundTrip_one hW' rfl rfl wf24_6 rfl wf30_2 (by
    rw [decodeOne_22 _ _ wf24_6]
    simp only [decodeVsc, ↓reduceIte, BitVec.reduceEq, and_false, false_and, and_self, not_true_eq_false, and_true, true_and, wf0_5, wf20_4, wf16_4, wf11_5, wf7_4, ETy.ofCode_code, wf5_2])

theorem RoundTrip.vmulVs (o : VS) : RoundTrip.Statement (.vmulVs o) := by
  obtain ⟨q, d, a, g, t, m⟩ := o
  generalize hW' : encode0 (.vmulVs ⟨q, d, a, g, t, m⟩) = W
  have hW : W = q.code ++ 0x22#6 ++ d ++ a ++ g ++ t.code ++ m ++ 0x3#5 := hW'.symm
  have wf0_5 : W.extractLsb' 0 5 = 0x3#5 := by rw [hW]; simp (disch := decide) only [ex_hi, ex_lo, ex_all, Nat.reduceSub]
  have wf20_4 : W.extractLsb' 20 4 = d := by rw [hW]; simp (disch := decide) only [ex_hi, ex_lo, ex_all, Nat.reduceSub]
  have wf16_4 : W.extractLsb' 16 4 = a := by rw [hW]; simp (disch := decide) only [ex_hi, ex_lo, ex_all, Nat.reduceSub]
  have wf11_5 : W.extractLsb' 11 5 = g := by rw [hW]; simp (disch := decide) only [ex_hi, ex_lo, ex_all, Nat.reduceSub]
  have wf7_4 : W.extractLsb' 7 4 = t.code := by rw [hW]; simp (disch := decide) only [ex_hi, ex_lo, ex_all, Nat.reduceSub]
  have wf5_2 : W.extractLsb' 5 2 = m := by rw [hW]; simp (disch := decide) only [ex_hi, ex_lo, ex_all, Nat.reduceSub]
  have wf24_6 : W.extractLsb' 24 6 = 0x22#6 := by rw [hW]; simp (disch := decide) only [ex_hi, ex_lo, ex_all, Nat.reduceSub]
  have wf30_2 : W.extractLsb' 30 2 = q.code := by rw [hW]; simp (disch := decide) only [ex_hi, ex_lo, ex_all, Nat.reduceSub]
  exact roundTrip_one hW' rfl rfl wf24_6 rfl wf30_2 (by
    rw [decodeOne_22 _ _ wf24_6]
    simp only [decodeVsc, ↓reduceIte, BitVec.reduceEq, and_false, false_and, and_self, not_true_eq_false, and_true, true_and, wf0_5, wf20_4, wf16_4, wf11_5, wf7_4, ETy.ofCode_code, wf5_2])

theorem RoundTrip.vmulsVs (o : VS) : RoundTrip.Statement (.vmulsVs o) := by
  obtain ⟨q, d, a, g, t, m⟩ := o
  generalize hW' : encode0 (.vmulsVs ⟨q, d, a, g, t, m⟩) = W
  have hW : W = q.code ++ 0x22#6 ++ d ++ a ++ g ++ t.code ++ m ++ 0x13#5 := hW'.symm
  have wf0_5 : W.extractLsb' 0 5 = 0x13#5 := by rw [hW]; simp (disch := decide) only [ex_hi, ex_lo, ex_all, Nat.reduceSub]
  have wf20_4 : W.extractLsb' 20 4 = d := by rw [hW]; simp (disch := decide) only [ex_hi, ex_lo, ex_all, Nat.reduceSub]
  have wf16_4 : W.extractLsb' 16 4 = a := by rw [hW]; simp (disch := decide) only [ex_hi, ex_lo, ex_all, Nat.reduceSub]
  have wf11_5 : W.extractLsb' 11 5 = g := by rw [hW]; simp (disch := decide) only [ex_hi, ex_lo, ex_all, Nat.reduceSub]
  have wf7_4 : W.extractLsb' 7 4 = t.code := by rw [hW]; simp (disch := decide) only [ex_hi, ex_lo, ex_all, Nat.reduceSub]
  have wf5_2 : W.extractLsb' 5 2 = m := by rw [hW]; simp (disch := decide) only [ex_hi, ex_lo, ex_all, Nat.reduceSub]
  have wf24_6 : W.extractLsb' 24 6 = 0x22#6 := by rw [hW]; simp (disch := decide) only [ex_hi, ex_lo, ex_all, Nat.reduceSub]
  have wf30_2 : W.extractLsb' 30 2 = q.code := by rw [hW]; simp (disch := decide) only [ex_hi, ex_lo, ex_all, Nat.reduceSub]
  exact roundTrip_one hW' rfl rfl wf24_6 rfl wf30_2 (by
    rw [decodeOne_22 _ _ wf24_6]
    simp only [decodeVsc, ↓reduceIte, BitVec.reduceEq, and_false, false_and, and_self, not_true_eq_false, and_true, true_and, wf0_5, wf20_4, wf16_4, wf11_5, wf7_4, ETy.ofCode_code, wf5_2])

theorem RoundTrip.vmacVs (o : VS) : RoundTrip.Statement (.vmacVs o) := by
  obtain ⟨q, d, a, g, t, m⟩ := o
  generalize hW' : encode0 (.vmacVs ⟨q, d, a, g, t, m⟩) = W
  have hW : W = q.code ++ 0x22#6 ++ d ++ a ++ g ++ t.code ++ m ++ 0x4#5 := hW'.symm
  have wf0_5 : W.extractLsb' 0 5 = 0x4#5 := by rw [hW]; simp (disch := decide) only [ex_hi, ex_lo, ex_all, Nat.reduceSub]
  have wf20_4 : W.extractLsb' 20 4 = d := by rw [hW]; simp (disch := decide) only [ex_hi, ex_lo, ex_all, Nat.reduceSub]
  have wf16_4 : W.extractLsb' 16 4 = a := by rw [hW]; simp (disch := decide) only [ex_hi, ex_lo, ex_all, Nat.reduceSub]
  have wf11_5 : W.extractLsb' 11 5 = g := by rw [hW]; simp (disch := decide) only [ex_hi, ex_lo, ex_all, Nat.reduceSub]
  have wf7_4 : W.extractLsb' 7 4 = t.code := by rw [hW]; simp (disch := decide) only [ex_hi, ex_lo, ex_all, Nat.reduceSub]
  have wf5_2 : W.extractLsb' 5 2 = m := by rw [hW]; simp (disch := decide) only [ex_hi, ex_lo, ex_all, Nat.reduceSub]
  have wf24_6 : W.extractLsb' 24 6 = 0x22#6 := by rw [hW]; simp (disch := decide) only [ex_hi, ex_lo, ex_all, Nat.reduceSub]
  have wf30_2 : W.extractLsb' 30 2 = q.code := by rw [hW]; simp (disch := decide) only [ex_hi, ex_lo, ex_all, Nat.reduceSub]
  exact roundTrip_one hW' rfl rfl wf24_6 rfl wf30_2 (by
    rw [decodeOne_22 _ _ wf24_6]
    simp only [decodeVsc, ↓reduceIte, BitVec.reduceEq, and_false, false_and, and_self, not_true_eq_false, and_true, true_and, wf0_5, wf20_4, wf16_4, wf11_5, wf7_4, ETy.ofCode_code, wf5_2])

theorem RoundTrip.vmacsVs (o : VS) : RoundTrip.Statement (.vmacsVs o) := by
  obtain ⟨q, d, a, g, t, m⟩ := o
  generalize hW' : encode0 (.vmacsVs ⟨q, d, a, g, t, m⟩) = W
  have hW : W = q.code ++ 0x22#6 ++ d ++ a ++ g ++ t.code ++ m ++ 0x14#5 := hW'.symm
  have wf0_5 : W.extractLsb' 0 5 = 0x14#5 := by rw [hW]; simp (disch := decide) only [ex_hi, ex_lo, ex_all, Nat.reduceSub]
  have wf20_4 : W.extractLsb' 20 4 = d := by rw [hW]; simp (disch := decide) only [ex_hi, ex_lo, ex_all, Nat.reduceSub]
  have wf16_4 : W.extractLsb' 16 4 = a := by rw [hW]; simp (disch := decide) only [ex_hi, ex_lo, ex_all, Nat.reduceSub]
  have wf11_5 : W.extractLsb' 11 5 = g := by rw [hW]; simp (disch := decide) only [ex_hi, ex_lo, ex_all, Nat.reduceSub]
  have wf7_4 : W.extractLsb' 7 4 = t.code := by rw [hW]; simp (disch := decide) only [ex_hi, ex_lo, ex_all, Nat.reduceSub]
  have wf5_2 : W.extractLsb' 5 2 = m := by rw [hW]; simp (disch := decide) only [ex_hi, ex_lo, ex_all, Nat.reduceSub]
  have wf24_6 : W.extractLsb' 24 6 = 0x22#6 := by rw [hW]; simp (disch := decide) only [ex_hi, ex_lo, ex_all, Nat.reduceSub]
  have wf30_2 : W.extractLsb' 30 2 = q.code := by rw [hW]; simp (disch := decide) only [ex_hi, ex_lo, ex_all, Nat.reduceSub]
  exact roundTrip_one hW' rfl rfl wf24_6 rfl wf30_2 (by
    rw [decodeOne_22 _ _ wf24_6]
    simp only [decodeVsc, ↓reduceIte, BitVec.reduceEq, and_false, false_and, and_self, not_true_eq_false, and_true, true_and, wf0_5, wf20_4, wf16_4, wf11_5, wf7_4, ETy.ofCode_code, wf5_2])

theorem RoundTrip.vminVs (o : VS) : RoundTrip.Statement (.vminVs o) := by
  obtain ⟨q, d, a, g, t, m⟩ := o
  generalize hW' : encode0 (.vminVs ⟨q, d, a, g, t, m⟩) = W
  have hW : W = q.code ++ 0x22#6 ++ d ++ a ++ g ++ t.code ++ m ++ 0x5#5 := hW'.symm
  have wf0_5 : W.extractLsb' 0 5 = 0x5#5 := by rw [hW]; simp (disch := decide) only [ex_hi, ex_lo, ex_all, Nat.reduceSub]
  have wf20_4 : W.extractLsb' 20 4 = d := by rw [hW]; simp (disch := decide) only [ex_hi, ex_lo, ex_all, Nat.reduceSub]
  have wf16_4 : W.extractLsb' 16 4 = a := by rw [hW]; simp (disch := decide) only [ex_hi, ex_lo, ex_all, Nat.reduceSub]
  have wf11_5 : W.extractLsb' 11 5 = g := by rw [hW]; simp (disch := decide) only [ex_hi, ex_lo, ex_all, Nat.reduceSub]
  have wf7_4 : W.extractLsb' 7 4 = t.code := by rw [hW]; simp (disch := decide) only [ex_hi, ex_lo, ex_all, Nat.reduceSub]
  have wf5_2 : W.extractLsb' 5 2 = m := by rw [hW]; simp (disch := decide) only [ex_hi, ex_lo, ex_all, Nat.reduceSub]
  have wf24_6 : W.extractLsb' 24 6 = 0x22#6 := by rw [hW]; simp (disch := decide) only [ex_hi, ex_lo, ex_all, Nat.reduceSub]
  have wf30_2 : W.extractLsb' 30 2 = q.code := by rw [hW]; simp (disch := decide) only [ex_hi, ex_lo, ex_all, Nat.reduceSub]
  exact roundTrip_one hW' rfl rfl wf24_6 rfl wf30_2 (by
    rw [decodeOne_22 _ _ wf24_6]
    simp only [decodeVsc, ↓reduceIte, BitVec.reduceEq, and_false, false_and, and_self, not_true_eq_false, and_true, true_and, wf0_5, wf20_4, wf16_4, wf11_5, wf7_4, ETy.ofCode_code, wf5_2])

theorem RoundTrip.vmaxVs (o : VS) : RoundTrip.Statement (.vmaxVs o) := by
  obtain ⟨q, d, a, g, t, m⟩ := o
  generalize hW' : encode0 (.vmaxVs ⟨q, d, a, g, t, m⟩) = W
  have hW : W = q.code ++ 0x22#6 ++ d ++ a ++ g ++ t.code ++ m ++ 0x6#5 := hW'.symm
  have wf0_5 : W.extractLsb' 0 5 = 0x6#5 := by rw [hW]; simp (disch := decide) only [ex_hi, ex_lo, ex_all, Nat.reduceSub]
  have wf20_4 : W.extractLsb' 20 4 = d := by rw [hW]; simp (disch := decide) only [ex_hi, ex_lo, ex_all, Nat.reduceSub]
  have wf16_4 : W.extractLsb' 16 4 = a := by rw [hW]; simp (disch := decide) only [ex_hi, ex_lo, ex_all, Nat.reduceSub]
  have wf11_5 : W.extractLsb' 11 5 = g := by rw [hW]; simp (disch := decide) only [ex_hi, ex_lo, ex_all, Nat.reduceSub]
  have wf7_4 : W.extractLsb' 7 4 = t.code := by rw [hW]; simp (disch := decide) only [ex_hi, ex_lo, ex_all, Nat.reduceSub]
  have wf5_2 : W.extractLsb' 5 2 = m := by rw [hW]; simp (disch := decide) only [ex_hi, ex_lo, ex_all, Nat.reduceSub]
  have wf24_6 : W.extractLsb' 24 6 = 0x22#6 := by rw [hW]; simp (disch := decide) only [ex_hi, ex_lo, ex_all, Nat.reduceSub]
  have wf30_2 : W.extractLsb' 30 2 = q.code := by rw [hW]; simp (disch := decide) only [ex_hi, ex_lo, ex_all, Nat.reduceSub]
  exact roundTrip_one hW' rfl rfl wf24_6 rfl wf30_2 (by
    rw [decodeOne_22 _ _ wf24_6]
    simp only [decodeVsc, ↓reduceIte, BitVec.reduceEq, and_false, false_and, and_self, not_true_eq_false, and_true, true_and, wf0_5, wf20_4, wf16_4, wf11_5, wf7_4, ETy.ofCode_code, wf5_2])

theorem RoundTrip.vandVs (o : VS) : RoundTrip.Statement (.vandVs o) := by
  obtain ⟨q, d, a, g, t, m⟩ := o
  generalize hW' : encode0 (.vandVs ⟨q, d, a, g, t, m⟩) = W
  have hW : W = q.code ++ 0x22#6 ++ d ++ a ++ g ++ t.code ++ m ++ 0x7#5 := hW'.symm
  have wf0_5 : W.extractLsb' 0 5 = 0x7#5 := by rw [hW]; simp (disch := decide) only [ex_hi, ex_lo, ex_all, Nat.reduceSub]
  have wf20_4 : W.extractLsb' 20 4 = d := by rw [hW]; simp (disch := decide) only [ex_hi, ex_lo, ex_all, Nat.reduceSub]
  have wf16_4 : W.extractLsb' 16 4 = a := by rw [hW]; simp (disch := decide) only [ex_hi, ex_lo, ex_all, Nat.reduceSub]
  have wf11_5 : W.extractLsb' 11 5 = g := by rw [hW]; simp (disch := decide) only [ex_hi, ex_lo, ex_all, Nat.reduceSub]
  have wf7_4 : W.extractLsb' 7 4 = t.code := by rw [hW]; simp (disch := decide) only [ex_hi, ex_lo, ex_all, Nat.reduceSub]
  have wf5_2 : W.extractLsb' 5 2 = m := by rw [hW]; simp (disch := decide) only [ex_hi, ex_lo, ex_all, Nat.reduceSub]
  have wf24_6 : W.extractLsb' 24 6 = 0x22#6 := by rw [hW]; simp (disch := decide) only [ex_hi, ex_lo, ex_all, Nat.reduceSub]
  have wf30_2 : W.extractLsb' 30 2 = q.code := by rw [hW]; simp (disch := decide) only [ex_hi, ex_lo, ex_all, Nat.reduceSub]
  exact roundTrip_one hW' rfl rfl wf24_6 rfl wf30_2 (by
    rw [decodeOne_22 _ _ wf24_6]
    simp only [decodeVsc, ↓reduceIte, BitVec.reduceEq, and_false, false_and, and_self, not_true_eq_false, and_true, true_and, wf0_5, wf20_4, wf16_4, wf11_5, wf7_4, ETy.ofCode_code, wf5_2])

theorem RoundTrip.vorVs (o : VS) : RoundTrip.Statement (.vorVs o) := by
  obtain ⟨q, d, a, g, t, m⟩ := o
  generalize hW' : encode0 (.vorVs ⟨q, d, a, g, t, m⟩) = W
  have hW : W = q.code ++ 0x22#6 ++ d ++ a ++ g ++ t.code ++ m ++ 0x8#5 := hW'.symm
  have wf0_5 : W.extractLsb' 0 5 = 0x8#5 := by rw [hW]; simp (disch := decide) only [ex_hi, ex_lo, ex_all, Nat.reduceSub]
  have wf20_4 : W.extractLsb' 20 4 = d := by rw [hW]; simp (disch := decide) only [ex_hi, ex_lo, ex_all, Nat.reduceSub]
  have wf16_4 : W.extractLsb' 16 4 = a := by rw [hW]; simp (disch := decide) only [ex_hi, ex_lo, ex_all, Nat.reduceSub]
  have wf11_5 : W.extractLsb' 11 5 = g := by rw [hW]; simp (disch := decide) only [ex_hi, ex_lo, ex_all, Nat.reduceSub]
  have wf7_4 : W.extractLsb' 7 4 = t.code := by rw [hW]; simp (disch := decide) only [ex_hi, ex_lo, ex_all, Nat.reduceSub]
  have wf5_2 : W.extractLsb' 5 2 = m := by rw [hW]; simp (disch := decide) only [ex_hi, ex_lo, ex_all, Nat.reduceSub]
  have wf24_6 : W.extractLsb' 24 6 = 0x22#6 := by rw [hW]; simp (disch := decide) only [ex_hi, ex_lo, ex_all, Nat.reduceSub]
  have wf30_2 : W.extractLsb' 30 2 = q.code := by rw [hW]; simp (disch := decide) only [ex_hi, ex_lo, ex_all, Nat.reduceSub]
  exact roundTrip_one hW' rfl rfl wf24_6 rfl wf30_2 (by
    rw [decodeOne_22 _ _ wf24_6]
    simp only [decodeVsc, ↓reduceIte, BitVec.reduceEq, and_false, false_and, and_self, not_true_eq_false, and_true, true_and, wf0_5, wf20_4, wf16_4, wf11_5, wf7_4, ETy.ofCode_code, wf5_2])

theorem RoundTrip.vxorVs (o : VS) : RoundTrip.Statement (.vxorVs o) := by
  obtain ⟨q, d, a, g, t, m⟩ := o
  generalize hW' : encode0 (.vxorVs ⟨q, d, a, g, t, m⟩) = W
  have hW : W = q.code ++ 0x22#6 ++ d ++ a ++ g ++ t.code ++ m ++ 0x9#5 := hW'.symm
  have wf0_5 : W.extractLsb' 0 5 = 0x9#5 := by rw [hW]; simp (disch := decide) only [ex_hi, ex_lo, ex_all, Nat.reduceSub]
  have wf20_4 : W.extractLsb' 20 4 = d := by rw [hW]; simp (disch := decide) only [ex_hi, ex_lo, ex_all, Nat.reduceSub]
  have wf16_4 : W.extractLsb' 16 4 = a := by rw [hW]; simp (disch := decide) only [ex_hi, ex_lo, ex_all, Nat.reduceSub]
  have wf11_5 : W.extractLsb' 11 5 = g := by rw [hW]; simp (disch := decide) only [ex_hi, ex_lo, ex_all, Nat.reduceSub]
  have wf7_4 : W.extractLsb' 7 4 = t.code := by rw [hW]; simp (disch := decide) only [ex_hi, ex_lo, ex_all, Nat.reduceSub]
  have wf5_2 : W.extractLsb' 5 2 = m := by rw [hW]; simp (disch := decide) only [ex_hi, ex_lo, ex_all, Nat.reduceSub]
  have wf24_6 : W.extractLsb' 24 6 = 0x22#6 := by rw [hW]; simp (disch := decide) only [ex_hi, ex_lo, ex_all, Nat.reduceSub]
  have wf30_2 : W.extractLsb' 30 2 = q.code := by rw [hW]; simp (disch := decide) only [ex_hi, ex_lo, ex_all, Nat.reduceSub]
  exact roundTrip_one hW' rfl rfl wf24_6 rfl wf30_2 (by
    rw [decodeOne_22 _ _ wf24_6]
    simp only [decodeVsc, ↓reduceIte, BitVec.reduceEq, and_false, false_and, and_self, not_true_eq_false, and_true, true_and, wf0_5, wf20_4, wf16_4, wf11_5, wf7_4, ETy.ofCode_code, wf5_2])

theorem RoundTrip.vshlVs (o : VS) : RoundTrip.Statement (.vshlVs o) := by
  obtain ⟨q, d, a, g, t, m⟩ := o
  generalize hW' : encode0 (.vshlVs ⟨q, d, a, g, t, m⟩) = W
  have hW : W = q.code ++ 0x22#6 ++ d ++ a ++ g ++ t.code ++ m ++ 0xa#5 := hW'.symm
  have wf0_5 : W.extractLsb' 0 5 = 0xa#5 := by rw [hW]; simp (disch := decide) only [ex_hi, ex_lo, ex_all, Nat.reduceSub]
  have wf20_4 : W.extractLsb' 20 4 = d := by rw [hW]; simp (disch := decide) only [ex_hi, ex_lo, ex_all, Nat.reduceSub]
  have wf16_4 : W.extractLsb' 16 4 = a := by rw [hW]; simp (disch := decide) only [ex_hi, ex_lo, ex_all, Nat.reduceSub]
  have wf11_5 : W.extractLsb' 11 5 = g := by rw [hW]; simp (disch := decide) only [ex_hi, ex_lo, ex_all, Nat.reduceSub]
  have wf7_4 : W.extractLsb' 7 4 = t.code := by rw [hW]; simp (disch := decide) only [ex_hi, ex_lo, ex_all, Nat.reduceSub]
  have wf5_2 : W.extractLsb' 5 2 = m := by rw [hW]; simp (disch := decide) only [ex_hi, ex_lo, ex_all, Nat.reduceSub]
  have wf24_6 : W.extractLsb' 24 6 = 0x22#6 := by rw [hW]; simp (disch := decide) only [ex_hi, ex_lo, ex_all, Nat.reduceSub]
  have wf30_2 : W.extractLsb' 30 2 = q.code := by rw [hW]; simp (disch := decide) only [ex_hi, ex_lo, ex_all, Nat.reduceSub]
  exact roundTrip_one hW' rfl rfl wf24_6 rfl wf30_2 (by
    rw [decodeOne_22 _ _ wf24_6]
    simp only [decodeVsc, ↓reduceIte, BitVec.reduceEq, and_false, false_and, and_self, not_true_eq_false, and_true, true_and, wf0_5, wf20_4, wf16_4, wf11_5, wf7_4, ETy.ofCode_code, wf5_2])

theorem RoundTrip.vshrVs (o : VS) : RoundTrip.Statement (.vshrVs o) := by
  obtain ⟨q, d, a, g, t, m⟩ := o
  generalize hW' : encode0 (.vshrVs ⟨q, d, a, g, t, m⟩) = W
  have hW : W = q.code ++ 0x22#6 ++ d ++ a ++ g ++ t.code ++ m ++ 0xb#5 := hW'.symm
  have wf0_5 : W.extractLsb' 0 5 = 0xb#5 := by rw [hW]; simp (disch := decide) only [ex_hi, ex_lo, ex_all, Nat.reduceSub]
  have wf20_4 : W.extractLsb' 20 4 = d := by rw [hW]; simp (disch := decide) only [ex_hi, ex_lo, ex_all, Nat.reduceSub]
  have wf16_4 : W.extractLsb' 16 4 = a := by rw [hW]; simp (disch := decide) only [ex_hi, ex_lo, ex_all, Nat.reduceSub]
  have wf11_5 : W.extractLsb' 11 5 = g := by rw [hW]; simp (disch := decide) only [ex_hi, ex_lo, ex_all, Nat.reduceSub]
  have wf7_4 : W.extractLsb' 7 4 = t.code := by rw [hW]; simp (disch := decide) only [ex_hi, ex_lo, ex_all, Nat.reduceSub]
  have wf5_2 : W.extractLsb' 5 2 = m := by rw [hW]; simp (disch := decide) only [ex_hi, ex_lo, ex_all, Nat.reduceSub]
  have wf24_6 : W.extractLsb' 24 6 = 0x22#6 := by rw [hW]; simp (disch := decide) only [ex_hi, ex_lo, ex_all, Nat.reduceSub]
  have wf30_2 : W.extractLsb' 30 2 = q.code := by rw [hW]; simp (disch := decide) only [ex_hi, ex_lo, ex_all, Nat.reduceSub]
  exact roundTrip_one hW' rfl rfl wf24_6 rfl wf30_2 (by
    rw [decodeOne_22 _ _ wf24_6]
    simp only [decodeVsc, ↓reduceIte, BitVec.reduceEq, and_false, false_and, and_self, not_true_eq_false, and_true, true_and, wf0_5, wf20_4, wf16_4, wf11_5, wf7_4, ETy.ofCode_code, wf5_2])

theorem RoundTrip.vsplat (o : VSp) : RoundTrip.Statement (.vsplat o) := by
  obtain ⟨q, d, g, t, m⟩ := o
  generalize hW' : encode0 (.vsplat ⟨q, d, g, t, m⟩) = W
  have hW : W = q.code ++ 0x22#6 ++ d ++ 0x0#4 ++ g ++ t.code ++ m ++ 0xc#5 := hW'.symm
  have wf0_5 : W.extractLsb' 0 5 = 0xc#5 := by rw [hW]; simp (disch := decide) only [ex_hi, ex_lo, ex_all, Nat.reduceSub]
  have wf16_4 : W.extractLsb' 16 4 = 0x0#4 := by rw [hW]; simp (disch := decide) only [ex_hi, ex_lo, ex_all, Nat.reduceSub]
  have wf20_4 : W.extractLsb' 20 4 = d := by rw [hW]; simp (disch := decide) only [ex_hi, ex_lo, ex_all, Nat.reduceSub]
  have wf11_5 : W.extractLsb' 11 5 = g := by rw [hW]; simp (disch := decide) only [ex_hi, ex_lo, ex_all, Nat.reduceSub]
  have wf7_4 : W.extractLsb' 7 4 = t.code := by rw [hW]; simp (disch := decide) only [ex_hi, ex_lo, ex_all, Nat.reduceSub]
  have wf5_2 : W.extractLsb' 5 2 = m := by rw [hW]; simp (disch := decide) only [ex_hi, ex_lo, ex_all, Nat.reduceSub]
  have wf24_6 : W.extractLsb' 24 6 = 0x22#6 := by rw [hW]; simp (disch := decide) only [ex_hi, ex_lo, ex_all, Nat.reduceSub]
  have wf30_2 : W.extractLsb' 30 2 = q.code := by rw [hW]; simp (disch := decide) only [ex_hi, ex_lo, ex_all, Nat.reduceSub]
  exact roundTrip_one hW' rfl rfl wf24_6 rfl wf30_2 (by
    rw [decodeOne_22 _ _ wf24_6]
    simp only [decodeVsc, ↓reduceIte, BitVec.reduceEq, and_false, false_and, and_self, not_true_eq_false, and_true, true_and, wf0_5, wf16_4, wf20_4, wf11_5, wf7_4, ETy.ofCode_code, wf5_2])

theorem RoundTrip.vslup (o : VS) : RoundTrip.Statement (.vslup o) := by
  obtain ⟨q, d, a, g, t, m⟩ := o
  generalize hW' : encode0 (.vslup ⟨q, d, a, g, t, m⟩) = W
  have hW : W = q.code ++ 0x22#6 ++ d ++ a ++ g ++ t.code ++ m ++ 0xd#5 := hW'.symm
  have wf0_5 : W.extractLsb' 0 5 = 0xd#5 := by rw [hW]; simp (disch := decide) only [ex_hi, ex_lo, ex_all, Nat.reduceSub]
  have wf20_4 : W.extractLsb' 20 4 = d := by rw [hW]; simp (disch := decide) only [ex_hi, ex_lo, ex_all, Nat.reduceSub]
  have wf16_4 : W.extractLsb' 16 4 = a := by rw [hW]; simp (disch := decide) only [ex_hi, ex_lo, ex_all, Nat.reduceSub]
  have wf11_5 : W.extractLsb' 11 5 = g := by rw [hW]; simp (disch := decide) only [ex_hi, ex_lo, ex_all, Nat.reduceSub]
  have wf7_4 : W.extractLsb' 7 4 = t.code := by rw [hW]; simp (disch := decide) only [ex_hi, ex_lo, ex_all, Nat.reduceSub]
  have wf5_2 : W.extractLsb' 5 2 = m := by rw [hW]; simp (disch := decide) only [ex_hi, ex_lo, ex_all, Nat.reduceSub]
  have wf24_6 : W.extractLsb' 24 6 = 0x22#6 := by rw [hW]; simp (disch := decide) only [ex_hi, ex_lo, ex_all, Nat.reduceSub]
  have wf30_2 : W.extractLsb' 30 2 = q.code := by rw [hW]; simp (disch := decide) only [ex_hi, ex_lo, ex_all, Nat.reduceSub]
  exact roundTrip_one hW' rfl rfl wf24_6 rfl wf30_2 (by
    rw [decodeOne_22 _ _ wf24_6]
    simp only [decodeVsc, ↓reduceIte, BitVec.reduceEq, and_false, false_and, and_self, not_true_eq_false, and_true, true_and, wf0_5, wf20_4, wf16_4, wf11_5, wf7_4, ETy.ofCode_code, wf5_2])

theorem RoundTrip.vrotup (o : VS) : RoundTrip.Statement (.vrotup o) := by
  obtain ⟨q, d, a, g, t, m⟩ := o
  generalize hW' : encode0 (.vrotup ⟨q, d, a, g, t, m⟩) = W
  have hW : W = q.code ++ 0x22#6 ++ d ++ a ++ g ++ t.code ++ m ++ 0x1d#5 := hW'.symm
  have wf0_5 : W.extractLsb' 0 5 = 0x1d#5 := by rw [hW]; simp (disch := decide) only [ex_hi, ex_lo, ex_all, Nat.reduceSub]
  have wf20_4 : W.extractLsb' 20 4 = d := by rw [hW]; simp (disch := decide) only [ex_hi, ex_lo, ex_all, Nat.reduceSub]
  have wf16_4 : W.extractLsb' 16 4 = a := by rw [hW]; simp (disch := decide) only [ex_hi, ex_lo, ex_all, Nat.reduceSub]
  have wf11_5 : W.extractLsb' 11 5 = g := by rw [hW]; simp (disch := decide) only [ex_hi, ex_lo, ex_all, Nat.reduceSub]
  have wf7_4 : W.extractLsb' 7 4 = t.code := by rw [hW]; simp (disch := decide) only [ex_hi, ex_lo, ex_all, Nat.reduceSub]
  have wf5_2 : W.extractLsb' 5 2 = m := by rw [hW]; simp (disch := decide) only [ex_hi, ex_lo, ex_all, Nat.reduceSub]
  have wf24_6 : W.extractLsb' 24 6 = 0x22#6 := by rw [hW]; simp (disch := decide) only [ex_hi, ex_lo, ex_all, Nat.reduceSub]
  have wf30_2 : W.extractLsb' 30 2 = q.code := by rw [hW]; simp (disch := decide) only [ex_hi, ex_lo, ex_all, Nat.reduceSub]
  exact roundTrip_one hW' rfl rfl wf24_6 rfl wf30_2 (by
    rw [decodeOne_22 _ _ wf24_6]
    simp only [decodeVsc, ↓reduceIte, BitVec.reduceEq, and_false, false_and, and_self, not_true_eq_false, and_true, true_and, wf0_5, wf20_4, wf16_4, wf11_5, wf7_4, ETy.ofCode_code, wf5_2])

theorem RoundTrip.vsldn (o : VS) : RoundTrip.Statement (.vsldn o) := by
  obtain ⟨q, d, a, g, t, m⟩ := o
  generalize hW' : encode0 (.vsldn ⟨q, d, a, g, t, m⟩) = W
  have hW : W = q.code ++ 0x22#6 ++ d ++ a ++ g ++ t.code ++ m ++ 0xe#5 := hW'.symm
  have wf0_5 : W.extractLsb' 0 5 = 0xe#5 := by rw [hW]; simp (disch := decide) only [ex_hi, ex_lo, ex_all, Nat.reduceSub]
  have wf20_4 : W.extractLsb' 20 4 = d := by rw [hW]; simp (disch := decide) only [ex_hi, ex_lo, ex_all, Nat.reduceSub]
  have wf16_4 : W.extractLsb' 16 4 = a := by rw [hW]; simp (disch := decide) only [ex_hi, ex_lo, ex_all, Nat.reduceSub]
  have wf11_5 : W.extractLsb' 11 5 = g := by rw [hW]; simp (disch := decide) only [ex_hi, ex_lo, ex_all, Nat.reduceSub]
  have wf7_4 : W.extractLsb' 7 4 = t.code := by rw [hW]; simp (disch := decide) only [ex_hi, ex_lo, ex_all, Nat.reduceSub]
  have wf5_2 : W.extractLsb' 5 2 = m := by rw [hW]; simp (disch := decide) only [ex_hi, ex_lo, ex_all, Nat.reduceSub]
  have wf24_6 : W.extractLsb' 24 6 = 0x22#6 := by rw [hW]; simp (disch := decide) only [ex_hi, ex_lo, ex_all, Nat.reduceSub]
  have wf30_2 : W.extractLsb' 30 2 = q.code := by rw [hW]; simp (disch := decide) only [ex_hi, ex_lo, ex_all, Nat.reduceSub]
  exact roundTrip_one hW' rfl rfl wf24_6 rfl wf30_2 (by
    rw [decodeOne_22 _ _ wf24_6]
    simp only [decodeVsc, ↓reduceIte, BitVec.reduceEq, and_false, false_and, and_self, not_true_eq_false, and_true, true_and, wf0_5, wf20_4, wf16_4, wf11_5, wf7_4, ETy.ofCode_code, wf5_2])

theorem RoundTrip.vrotdn (o : VS) : RoundTrip.Statement (.vrotdn o) := by
  obtain ⟨q, d, a, g, t, m⟩ := o
  generalize hW' : encode0 (.vrotdn ⟨q, d, a, g, t, m⟩) = W
  have hW : W = q.code ++ 0x22#6 ++ d ++ a ++ g ++ t.code ++ m ++ 0x1e#5 := hW'.symm
  have wf0_5 : W.extractLsb' 0 5 = 0x1e#5 := by rw [hW]; simp (disch := decide) only [ex_hi, ex_lo, ex_all, Nat.reduceSub]
  have wf20_4 : W.extractLsb' 20 4 = d := by rw [hW]; simp (disch := decide) only [ex_hi, ex_lo, ex_all, Nat.reduceSub]
  have wf16_4 : W.extractLsb' 16 4 = a := by rw [hW]; simp (disch := decide) only [ex_hi, ex_lo, ex_all, Nat.reduceSub]
  have wf11_5 : W.extractLsb' 11 5 = g := by rw [hW]; simp (disch := decide) only [ex_hi, ex_lo, ex_all, Nat.reduceSub]
  have wf7_4 : W.extractLsb' 7 4 = t.code := by rw [hW]; simp (disch := decide) only [ex_hi, ex_lo, ex_all, Nat.reduceSub]
  have wf5_2 : W.extractLsb' 5 2 = m := by rw [hW]; simp (disch := decide) only [ex_hi, ex_lo, ex_all, Nat.reduceSub]
  have wf24_6 : W.extractLsb' 24 6 = 0x22#6 := by rw [hW]; simp (disch := decide) only [ex_hi, ex_lo, ex_all, Nat.reduceSub]
  have wf30_2 : W.extractLsb' 30 2 = q.code := by rw [hW]; simp (disch := decide) only [ex_hi, ex_lo, ex_all, Nat.reduceSub]
  exact roundTrip_one hW' rfl rfl wf24_6 rfl wf30_2 (by
    rw [decodeOne_22 _ _ wf24_6]
    simp only [decodeVsc, ↓reduceIte, BitVec.reduceEq, and_false, false_and, and_self, not_true_eq_false, and_true, true_and, wf0_5, wf20_4, wf16_4, wf11_5, wf7_4, ETy.ofCode_code, wf5_2])

theorem RoundTrip.vget (o : VG) : RoundTrip.Statement (.vget o) := by
  obtain ⟨q, a, g, t⟩ := o
  generalize hW' : encode0 (.vget ⟨q, a, g, t⟩) = W
  have hW : W = q.code ++ 0x22#6 ++ 0x0#4 ++ a ++ g ++ t.code ++ 0xf#7 := hW'.symm
  have wf0_5 : W.extractLsb' 0 5 = 15#5 := by rw [hW]; simp (disch := decide) only [ex_hi, ex_lo, ex_all, Nat.reduceSub]; rfl
  have wf20_4 : W.extractLsb' 20 4 = 0x0#4 := by rw [hW]; simp (disch := decide) only [ex_hi, ex_lo, ex_all, Nat.reduceSub]
  have wf0_7 : W.extractLsb' 0 7 = 0xf#7 := by rw [hW]; simp (disch := decide) only [ex_hi, ex_lo, ex_all, Nat.reduceSub]
  have wf16_4 : W.extractLsb' 16 4 = a := by rw [hW]; simp (disch := decide) only [ex_hi, ex_lo, ex_all, Nat.reduceSub]
  have wf11_5 : W.extractLsb' 11 5 = g := by rw [hW]; simp (disch := decide) only [ex_hi, ex_lo, ex_all, Nat.reduceSub]
  have wf7_4 : W.extractLsb' 7 4 = t.code := by rw [hW]; simp (disch := decide) only [ex_hi, ex_lo, ex_all, Nat.reduceSub]
  have wf24_6 : W.extractLsb' 24 6 = 0x22#6 := by rw [hW]; simp (disch := decide) only [ex_hi, ex_lo, ex_all, Nat.reduceSub]
  have wf30_2 : W.extractLsb' 30 2 = q.code := by rw [hW]; simp (disch := decide) only [ex_hi, ex_lo, ex_all, Nat.reduceSub]
  exact roundTrip_one hW' rfl rfl wf24_6 rfl wf30_2 (by
    rw [decodeOne_22 _ _ wf24_6]
    simp only [decodeVsc, ↓reduceIte, BitVec.reduceEq, and_false, false_and, and_self, not_true_eq_false, and_true, true_and, wf0_5, wf20_4, wf0_7, wf16_4, wf11_5, wf7_4, ETy.ofCode_code])

theorem RoundTrip.vcvt (o : Cvt) : RoundTrip.Statement (.vcvt o) := by
  obtain ⟨q, d, a, s, t, m, r⟩ := o
  generalize hW' : encode0 (.vcvt ⟨q, d, a, s, t, m, r⟩) = W
  have hW : W = q.code ++ 0x23#6 ++ d ++ a ++ s.code ++ t.code ++ m ++ 0x0#3 ++ r.code := hW'.symm
  have wf3_3 : W.extractLsb' 3 3 = 0x0#3 := by rw [hW]; simp (disch := decide) only [ex_hi, ex_lo, ex_all, Nat.reduceSub]
  have wf20_4 : W.extractLsb' 20 4 = d := by rw [hW]; simp (disch := decide) only [ex_hi, ex_lo, ex_all, Nat.reduceSub]
  have wf16_4 : W.extractLsb' 16 4 = a := by rw [hW]; simp (disch := decide) only [ex_hi, ex_lo, ex_all, Nat.reduceSub]
  have wf12_4 : W.extractLsb' 12 4 = s.code := by rw [hW]; simp (disch := decide) only [ex_hi, ex_lo, ex_all, Nat.reduceSub]
  have wf8_4 : W.extractLsb' 8 4 = t.code := by rw [hW]; simp (disch := decide) only [ex_hi, ex_lo, ex_all, Nat.reduceSub]
  have wf6_2 : W.extractLsb' 6 2 = m := by rw [hW]; simp (disch := decide) only [ex_hi, ex_lo, ex_all, Nat.reduceSub]
  have wf0_3 : W.extractLsb' 0 3 = r.code := by rw [hW]; simp (disch := decide) only [ex_hi, ex_lo, ex_all, Nat.reduceSub]
  have wf24_6 : W.extractLsb' 24 6 = 0x23#6 := by rw [hW]; simp (disch := decide) only [ex_hi, ex_lo, ex_all, Nat.reduceSub]
  have wf30_2 : W.extractLsb' 30 2 = q.code := by rw [hW]; simp (disch := decide) only [ex_hi, ex_lo, ex_all, Nat.reduceSub]
  exact roundTrip_one hW' rfl rfl wf24_6 rfl wf30_2 (by
    rw [decodeOne_23 _ _ wf24_6]
    simp only [decodeVconv, ↓reduceIte, BitVec.reduceEq, and_false, false_and, and_self, not_true_eq_false, and_true, true_and, wf3_3, wf20_4, wf16_4, wf12_4, ETy.ofCode_code, wf8_4, wf6_2, wf0_3, Rm.ofCode_code, Option.map_some])

theorem RoundTrip.vcvts (o : Cvt) : RoundTrip.Statement (.vcvts o) := by
  obtain ⟨q, d, a, s, t, m, r⟩ := o
  generalize hW' : encode0 (.vcvts ⟨q, d, a, s, t, m, r⟩) = W
  have hW : W = q.code ++ 0x23#6 ++ d ++ a ++ s.code ++ t.code ++ m ++ 0x1#3 ++ r.code := hW'.symm
  have wf3_3 : W.extractLsb' 3 3 = 0x1#3 := by rw [hW]; simp (disch := decide) only [ex_hi, ex_lo, ex_all, Nat.reduceSub]
  have wf20_4 : W.extractLsb' 20 4 = d := by rw [hW]; simp (disch := decide) only [ex_hi, ex_lo, ex_all, Nat.reduceSub]
  have wf16_4 : W.extractLsb' 16 4 = a := by rw [hW]; simp (disch := decide) only [ex_hi, ex_lo, ex_all, Nat.reduceSub]
  have wf12_4 : W.extractLsb' 12 4 = s.code := by rw [hW]; simp (disch := decide) only [ex_hi, ex_lo, ex_all, Nat.reduceSub]
  have wf8_4 : W.extractLsb' 8 4 = t.code := by rw [hW]; simp (disch := decide) only [ex_hi, ex_lo, ex_all, Nat.reduceSub]
  have wf6_2 : W.extractLsb' 6 2 = m := by rw [hW]; simp (disch := decide) only [ex_hi, ex_lo, ex_all, Nat.reduceSub]
  have wf0_3 : W.extractLsb' 0 3 = r.code := by rw [hW]; simp (disch := decide) only [ex_hi, ex_lo, ex_all, Nat.reduceSub]
  have wf24_6 : W.extractLsb' 24 6 = 0x23#6 := by rw [hW]; simp (disch := decide) only [ex_hi, ex_lo, ex_all, Nat.reduceSub]
  have wf30_2 : W.extractLsb' 30 2 = q.code := by rw [hW]; simp (disch := decide) only [ex_hi, ex_lo, ex_all, Nat.reduceSub]
  exact roundTrip_one hW' rfl rfl wf24_6 rfl wf30_2 (by
    rw [decodeOne_23 _ _ wf24_6]
    simp only [decodeVconv, ↓reduceIte, BitVec.reduceEq, and_false, false_and, and_self, not_true_eq_false, and_true, true_and, wf3_3, wf20_4, wf16_4, wf12_4, ETy.ofCode_code, wf8_4, wf6_2, wf0_3, Rm.ofCode_code, Option.map_some])

theorem RoundTrip.vbpack16 (o : Pack) : RoundTrip.Statement (.vbpack16 o) := by
  obtain ⟨q, d, a, s, t, r⟩ := o
  generalize hW' : encode0 (.vbpack16 ⟨q, d, a, s, t, r⟩) = W
  have hW : W = q.code ++ 0x23#6 ++ d ++ a ++ s.code ++ t.code ++ 0x2#5 ++ r.code := hW'.symm
  have wf3_3 : W.extractLsb' 3 3 = 2#3 := by rw [hW]; simp (disch := decide) only [ex_hi, ex_lo, ex_all, Nat.reduceSub]; rfl
  have wf3_5 : W.extractLsb' 3 5 = 0x2#5 := by rw [hW]; simp (disch := decide) only [ex_hi, ex_lo, ex_all, Nat.reduceSub]
  have wf20_4 : W.extractLsb' 20 4 = d := by rw [hW]; simp (disch := decide) only [ex_hi, ex_lo, ex_all, Nat.reduceSub]
  have wf16_4 : W.extractLsb' 16 4 = a := by rw [hW]; simp (disch := decide) only [ex_hi, ex_lo, ex_all, Nat.reduceSub]
  have wf12_4 : W.extractLsb' 12 4 = s.code := by rw [hW]; simp (disch := decide) only [ex_hi, ex_lo, ex_all, Nat.reduceSub]
  have wf8_4 : W.extractLsb' 8 4 = t.code := by rw [hW]; simp (disch := decide) only [ex_hi, ex_lo, ex_all, Nat.reduceSub]
  have wf0_3 : W.extractLsb' 0 3 = r.code := by rw [hW]; simp (disch := decide) only [ex_hi, ex_lo, ex_all, Nat.reduceSub]
  have wf24_6 : W.extractLsb' 24 6 = 0x23#6 := by rw [hW]; simp (disch := decide) only [ex_hi, ex_lo, ex_all, Nat.reduceSub]
  have wf30_2 : W.extractLsb' 30 2 = q.code := by rw [hW]; simp (disch := decide) only [ex_hi, ex_lo, ex_all, Nat.reduceSub]
  exact roundTrip_one hW' rfl rfl wf24_6 rfl wf30_2 (by
    rw [decodeOne_23 _ _ wf24_6]
    simp only [decodeVconv, ↓reduceIte, BitVec.reduceEq, and_false, false_and, and_self, not_true_eq_false, and_true, true_and, wf3_3, wf3_5, wf20_4, wf16_4, wf12_4, ETy.ofCode_code, wf8_4, wf0_3, Rm.ofCode_code, Option.map_some])

theorem RoundTrip.vbpack32 (o : Pack) : RoundTrip.Statement (.vbpack32 o) := by
  obtain ⟨q, d, a, s, t, r⟩ := o
  generalize hW' : encode0 (.vbpack32 ⟨q, d, a, s, t, r⟩) = W
  have hW : W = q.code ++ 0x23#6 ++ d ++ a ++ s.code ++ t.code ++ 0x3#5 ++ r.code := hW'.symm
  have wf3_3 : W.extractLsb' 3 3 = 3#3 := by rw [hW]; simp (disch := decide) only [ex_hi, ex_lo, ex_all, Nat.reduceSub]; rfl
  have wf3_5 : W.extractLsb' 3 5 = 0x3#5 := by rw [hW]; simp (disch := decide) only [ex_hi, ex_lo, ex_all, Nat.reduceSub]
  have wf20_4 : W.extractLsb' 20 4 = d := by rw [hW]; simp (disch := decide) only [ex_hi, ex_lo, ex_all, Nat.reduceSub]
  have wf16_4 : W.extractLsb' 16 4 = a := by rw [hW]; simp (disch := decide) only [ex_hi, ex_lo, ex_all, Nat.reduceSub]
  have wf12_4 : W.extractLsb' 12 4 = s.code := by rw [hW]; simp (disch := decide) only [ex_hi, ex_lo, ex_all, Nat.reduceSub]
  have wf8_4 : W.extractLsb' 8 4 = t.code := by rw [hW]; simp (disch := decide) only [ex_hi, ex_lo, ex_all, Nat.reduceSub]
  have wf0_3 : W.extractLsb' 0 3 = r.code := by rw [hW]; simp (disch := decide) only [ex_hi, ex_lo, ex_all, Nat.reduceSub]
  have wf24_6 : W.extractLsb' 24 6 = 0x23#6 := by rw [hW]; simp (disch := decide) only [ex_hi, ex_lo, ex_all, Nat.reduceSub]
  have wf30_2 : W.extractLsb' 30 2 = q.code := by rw [hW]; simp (disch := decide) only [ex_hi, ex_lo, ex_all, Nat.reduceSub]
  exact roundTrip_one hW' rfl rfl wf24_6 rfl wf30_2 (by
    rw [decodeOne_23 _ _ wf24_6]
    simp only [decodeVconv, ↓reduceIte, BitVec.reduceEq, and_false, false_and, and_self, not_true_eq_false, and_true, true_and, wf3_3, wf3_5, wf20_4, wf16_4, wf12_4, ETy.ofCode_code, wf8_4, wf0_3, Rm.ofCode_code, Option.map_some])

theorem RoundTrip.vbpack64 (o : Pack) : RoundTrip.Statement (.vbpack64 o) := by
  obtain ⟨q, d, a, s, t, r⟩ := o
  generalize hW' : encode0 (.vbpack64 ⟨q, d, a, s, t, r⟩) = W
  have hW : W = q.code ++ 0x23#6 ++ d ++ a ++ s.code ++ t.code ++ 0x4#5 ++ r.code := hW'.symm
  have wf3_3 : W.extractLsb' 3 3 = 4#3 := by rw [hW]; simp (disch := decide) only [ex_hi, ex_lo, ex_all, Nat.reduceSub]; rfl
  have wf3_5 : W.extractLsb' 3 5 = 0x4#5 := by rw [hW]; simp (disch := decide) only [ex_hi, ex_lo, ex_all, Nat.reduceSub]
  have wf20_4 : W.extractLsb' 20 4 = d := by rw [hW]; simp (disch := decide) only [ex_hi, ex_lo, ex_all, Nat.reduceSub]
  have wf16_4 : W.extractLsb' 16 4 = a := by rw [hW]; simp (disch := decide) only [ex_hi, ex_lo, ex_all, Nat.reduceSub]
  have wf12_4 : W.extractLsb' 12 4 = s.code := by rw [hW]; simp (disch := decide) only [ex_hi, ex_lo, ex_all, Nat.reduceSub]
  have wf8_4 : W.extractLsb' 8 4 = t.code := by rw [hW]; simp (disch := decide) only [ex_hi, ex_lo, ex_all, Nat.reduceSub]
  have wf0_3 : W.extractLsb' 0 3 = r.code := by rw [hW]; simp (disch := decide) only [ex_hi, ex_lo, ex_all, Nat.reduceSub]
  have wf24_6 : W.extractLsb' 24 6 = 0x23#6 := by rw [hW]; simp (disch := decide) only [ex_hi, ex_lo, ex_all, Nat.reduceSub]
  have wf30_2 : W.extractLsb' 30 2 = q.code := by rw [hW]; simp (disch := decide) only [ex_hi, ex_lo, ex_all, Nat.reduceSub]
  exact roundTrip_one hW' rfl rfl wf24_6 rfl wf30_2 (by
    rw [decodeOne_23 _ _ wf24_6]
    simp only [decodeVconv, ↓reduceIte, BitVec.reduceEq, and_false, false_and, and_self, not_true_eq_false, and_true, true_and, wf3_3, wf3_5, wf20_4, wf16_4, wf12_4, ETy.ofCode_code, wf8_4, wf0_3, Rm.ofCode_code, Option.map_some])

theorem RoundTrip.vbunpack16 (o : Cvt) : RoundTrip.Statement (.vbunpack16 o) := by
  obtain ⟨q, d, a, s, t, m, r⟩ := o
  generalize hW' : encode0 (.vbunpack16 ⟨q, d, a, s, t, m, r⟩) = W
  have hW : W = q.code ++ 0x23#6 ++ d ++ a ++ s.code ++ t.code ++ m ++ 0x5#3 ++ r.code := hW'.symm
  have wf3_3 : W.extractLsb' 3 3 = 0x5#3 := by rw [hW]; simp (disch := decide) only [ex_hi, ex_lo, ex_all, Nat.reduceSub]
  have wn3_5_2 : ¬ W.extractLsb' 3 5 = 2#5 := slice_ne (t := 0) wf3_3 (by decide) (by decide)
  have wn3_5_3 : ¬ W.extractLsb' 3 5 = 3#5 := slice_ne (t := 0) wf3_3 (by decide) (by decide)
  have wn3_5_4 : ¬ W.extractLsb' 3 5 = 4#5 := slice_ne (t := 0) wf3_3 (by decide) (by decide)
  have wf20_4 : W.extractLsb' 20 4 = d := by rw [hW]; simp (disch := decide) only [ex_hi, ex_lo, ex_all, Nat.reduceSub]
  have wf16_4 : W.extractLsb' 16 4 = a := by rw [hW]; simp (disch := decide) only [ex_hi, ex_lo, ex_all, Nat.reduceSub]
  have wf12_4 : W.extractLsb' 12 4 = s.code := by rw [hW]; simp (disch := decide) only [ex_hi, ex_lo, ex_all, Nat.reduceSub]
  have wf8_4 : W.extractLsb' 8 4 = t.code := by rw [hW]; simp (disch := decide) only [ex_hi, ex_lo, ex_all, Nat.reduceSub]
  have wf6_2 : W.extractLsb' 6 2 = m := by rw [hW]; simp (disch := decide) only [ex_hi, ex_lo, ex_all, Nat.reduceSub]
  have wf0_3 : W.extractLsb' 0 3 = r.code := by rw [hW]; simp (disch := decide) only [ex_hi, ex_lo, ex_all, Nat.reduceSub]
  have wf24_6 : W.extractLsb' 24 6 = 0x23#6 := by rw [hW]; simp (disch := decide) only [ex_hi, ex_lo, ex_all, Nat.reduceSub]
  have wf30_2 : W.extractLsb' 30 2 = q.code := by rw [hW]; simp (disch := decide) only [ex_hi, ex_lo, ex_all, Nat.reduceSub]
  exact roundTrip_one hW' rfl rfl wf24_6 rfl wf30_2 (by
    rw [decodeOne_23 _ _ wf24_6]
    simp only [decodeVconv, ↓reduceIte, BitVec.reduceEq, and_false, false_and, and_self, not_true_eq_false, and_true, true_and, wf3_3, wn3_5_2, wn3_5_3, wn3_5_4, wf20_4, wf16_4, wf12_4, ETy.ofCode_code, wf8_4, wf6_2, wf0_3, Rm.ofCode_code, Option.map_some])

theorem RoundTrip.vbunpack32 (o : Cvt) : RoundTrip.Statement (.vbunpack32 o) := by
  obtain ⟨q, d, a, s, t, m, r⟩ := o
  generalize hW' : encode0 (.vbunpack32 ⟨q, d, a, s, t, m, r⟩) = W
  have hW : W = q.code ++ 0x23#6 ++ d ++ a ++ s.code ++ t.code ++ m ++ 0x6#3 ++ r.code := hW'.symm
  have wf3_3 : W.extractLsb' 3 3 = 0x6#3 := by rw [hW]; simp (disch := decide) only [ex_hi, ex_lo, ex_all, Nat.reduceSub]
  have wn3_5_2 : ¬ W.extractLsb' 3 5 = 2#5 := slice_ne (t := 0) wf3_3 (by decide) (by decide)
  have wn3_5_3 : ¬ W.extractLsb' 3 5 = 3#5 := slice_ne (t := 0) wf3_3 (by decide) (by decide)
  have wn3_5_4 : ¬ W.extractLsb' 3 5 = 4#5 := slice_ne (t := 0) wf3_3 (by decide) (by decide)
  have wf20_4 : W.extractLsb' 20 4 = d := by rw [hW]; simp (disch := decide) only [ex_hi, ex_lo, ex_all, Nat.reduceSub]
  have wf16_4 : W.extractLsb' 16 4 = a := by rw [hW]; simp (disch := decide) only [ex_hi, ex_lo, ex_all, Nat.reduceSub]
  have wf12_4 : W.extractLsb' 12 4 = s.code := by rw [hW]; simp (disch := decide) only [ex_hi, ex_lo, ex_all, Nat.reduceSub]
  have wf8_4 : W.extractLsb' 8 4 = t.code := by rw [hW]; simp (disch := decide) only [ex_hi, ex_lo, ex_all, Nat.reduceSub]
  have wf6_2 : W.extractLsb' 6 2 = m := by rw [hW]; simp (disch := decide) only [ex_hi, ex_lo, ex_all, Nat.reduceSub]
  have wf0_3 : W.extractLsb' 0 3 = r.code := by rw [hW]; simp (disch := decide) only [ex_hi, ex_lo, ex_all, Nat.reduceSub]
  have wf24_6 : W.extractLsb' 24 6 = 0x23#6 := by rw [hW]; simp (disch := decide) only [ex_hi, ex_lo, ex_all, Nat.reduceSub]
  have wf30_2 : W.extractLsb' 30 2 = q.code := by rw [hW]; simp (disch := decide) only [ex_hi, ex_lo, ex_all, Nat.reduceSub]
  exact roundTrip_one hW' rfl rfl wf24_6 rfl wf30_2 (by
    rw [decodeOne_23 _ _ wf24_6]
    simp only [decodeVconv, ↓reduceIte, BitVec.reduceEq, and_false, false_and, and_self, not_true_eq_false, and_true, true_and, wf3_3, wn3_5_2, wn3_5_3, wn3_5_4, wf20_4, wf16_4, wf12_4, ETy.ofCode_code, wf8_4, wf6_2, wf0_3, Rm.ofCode_code, Option.map_some])

theorem RoundTrip.vbunpack64 (o : Cvt) : RoundTrip.Statement (.vbunpack64 o) := by
  obtain ⟨q, d, a, s, t, m, r⟩ := o
  generalize hW' : encode0 (.vbunpack64 ⟨q, d, a, s, t, m, r⟩) = W
  have hW : W = q.code ++ 0x23#6 ++ d ++ a ++ s.code ++ t.code ++ m ++ 0x7#3 ++ r.code := hW'.symm
  have wf3_3 : W.extractLsb' 3 3 = 0x7#3 := by rw [hW]; simp (disch := decide) only [ex_hi, ex_lo, ex_all, Nat.reduceSub]
  have wn3_5_2 : ¬ W.extractLsb' 3 5 = 2#5 := slice_ne (t := 0) wf3_3 (by decide) (by decide)
  have wn3_5_3 : ¬ W.extractLsb' 3 5 = 3#5 := slice_ne (t := 0) wf3_3 (by decide) (by decide)
  have wn3_5_4 : ¬ W.extractLsb' 3 5 = 4#5 := slice_ne (t := 0) wf3_3 (by decide) (by decide)
  have wf20_4 : W.extractLsb' 20 4 = d := by rw [hW]; simp (disch := decide) only [ex_hi, ex_lo, ex_all, Nat.reduceSub]
  have wf16_4 : W.extractLsb' 16 4 = a := by rw [hW]; simp (disch := decide) only [ex_hi, ex_lo, ex_all, Nat.reduceSub]
  have wf12_4 : W.extractLsb' 12 4 = s.code := by rw [hW]; simp (disch := decide) only [ex_hi, ex_lo, ex_all, Nat.reduceSub]
  have wf8_4 : W.extractLsb' 8 4 = t.code := by rw [hW]; simp (disch := decide) only [ex_hi, ex_lo, ex_all, Nat.reduceSub]
  have wf6_2 : W.extractLsb' 6 2 = m := by rw [hW]; simp (disch := decide) only [ex_hi, ex_lo, ex_all, Nat.reduceSub]
  have wf0_3 : W.extractLsb' 0 3 = r.code := by rw [hW]; simp (disch := decide) only [ex_hi, ex_lo, ex_all, Nat.reduceSub]
  have wf24_6 : W.extractLsb' 24 6 = 0x23#6 := by rw [hW]; simp (disch := decide) only [ex_hi, ex_lo, ex_all, Nat.reduceSub]
  have wf30_2 : W.extractLsb' 30 2 = q.code := by rw [hW]; simp (disch := decide) only [ex_hi, ex_lo, ex_all, Nat.reduceSub]
  exact roundTrip_one hW' rfl rfl wf24_6 rfl wf30_2 (by
    rw [decodeOne_23 _ _ wf24_6]
    simp only [decodeVconv, ↓reduceIte, BitVec.reduceEq, and_false, false_and, and_self, not_true_eq_false, and_true, true_and, wf3_3, wn3_5_2, wn3_5_3, wn3_5_4, wf20_4, wf16_4, wf12_4, ETy.ofCode_code, wf8_4, wf6_2, wf0_3, Rm.ofCode_code, Option.map_some])

theorem RoundTrip.vmov (o : V2) : RoundTrip.Statement (.vmov o) := by
  obtain ⟨q, d, a, t, m⟩ := o
  generalize hW' : encode0 (.vmov ⟨q, d, a, t, m⟩) = W
  have hW : W = q.code ++ 0x24#6 ++ d ++ a ++ 0x0#4 ++ t.code ++ m ++ 0x0#6 := hW'.symm
  have wf12_4 : W.extractLsb' 12 4 = 0x0#4 := by rw [hW]; simp (disch := decide) only [ex_hi, ex_lo, ex_all, Nat.reduceSub]
  have wf0_6 : W.extractLsb' 0 6 = 0x0#6 := by rw [hW]; simp (disch := decide) only [ex_hi, ex_lo, ex_all, Nat.reduceSub]
  have wf20_4 : W.extractLsb' 20 4 = d := by rw [hW]; simp (disch := decide) only [ex_hi, ex_lo, ex_all, Nat.reduceSub]
  have wf16_4 : W.extractLsb' 16 4 = a := by rw [hW]; simp (disch := decide) only [ex_hi, ex_lo, ex_all, Nat.reduceSub]
  have wf8_4 : W.extractLsb' 8 4 = t.code := by rw [hW]; simp (disch := decide) only [ex_hi, ex_lo, ex_all, Nat.reduceSub]
  have wf6_2 : W.extractLsb' 6 2 = m := by rw [hW]; simp (disch := decide) only [ex_hi, ex_lo, ex_all, Nat.reduceSub]
  have wf24_6 : W.extractLsb' 24 6 = 0x24#6 := by rw [hW]; simp (disch := decide) only [ex_hi, ex_lo, ex_all, Nat.reduceSub]
  have wf30_2 : W.extractLsb' 30 2 = q.code := by rw [hW]; simp (disch := decide) only [ex_hi, ex_lo, ex_all, Nat.reduceSub]
  exact roundTrip_one hW' rfl rfl wf24_6 rfl wf30_2 (by
    rw [decodeOne_24 _ _ wf24_6]
    simp only [decodeVperm, ↓reduceIte, BitVec.reduceEq, and_false, false_and, and_self, not_true_eq_false, and_true, true_and, wf12_4, wf0_6, wf20_4, wf16_4, wf8_4, ETy.ofCode_code, wf6_2])

theorem RoundTrip.vmerge (o : V3) : RoundTrip.Statement (.vmerge o) := by
  obtain ⟨q, d, a, b, t, m⟩ := o
  generalize hW' : encode0 (.vmerge ⟨q, d, a, b, t, m⟩) = W
  have hW : W = q.code ++ 0x24#6 ++ d ++ a ++ b ++ t.code ++ m ++ 0x1#6 := hW'.symm
  have wf0_6 : W.extractLsb' 0 6 = 0x1#6 := by rw [hW]; simp (disch := decide) only [ex_hi, ex_lo, ex_all, Nat.reduceSub]
  have wf20_4 : W.extractLsb' 20 4 = d := by rw [hW]; simp (disch := decide) only [ex_hi, ex_lo, ex_all, Nat.reduceSub]
  have wf16_4 : W.extractLsb' 16 4 = a := by rw [hW]; simp (disch := decide) only [ex_hi, ex_lo, ex_all, Nat.reduceSub]
  have wf12_4 : W.extractLsb' 12 4 = b := by rw [hW]; simp (disch := decide) only [ex_hi, ex_lo, ex_all, Nat.reduceSub]
  have wf8_4 : W.extractLsb' 8 4 = t.code := by rw [hW]; simp (disch := decide) only [ex_hi, ex_lo, ex_all, Nat.reduceSub]
  have wf6_2 : W.extractLsb' 6 2 = m := by rw [hW]; simp (disch := decide) only [ex_hi, ex_lo, ex_all, Nat.reduceSub]
  have wf24_6 : W.extractLsb' 24 6 = 0x24#6 := by rw [hW]; simp (disch := decide) only [ex_hi, ex_lo, ex_all, Nat.reduceSub]
  have wf30_2 : W.extractLsb' 30 2 = q.code := by rw [hW]; simp (disch := decide) only [ex_hi, ex_lo, ex_all, Nat.reduceSub]
  exact roundTrip_one hW' rfl rfl wf24_6 rfl wf30_2 (by
    rw [decodeOne_24 _ _ wf24_6]
    simp only [decodeVperm, ↓reduceIte, BitVec.reduceEq, and_false, false_and, and_self, not_true_eq_false, and_true, true_and, wf0_6, wf20_4, wf16_4, wf12_4, wf8_4, ETy.ofCode_code, wf6_2])

theorem RoundTrip.vperm (o : V3) : RoundTrip.Statement (.vperm o) := by
  obtain ⟨q, d, a, b, t, m⟩ := o
  generalize hW' : encode0 (.vperm ⟨q, d, a, b, t, m⟩) = W
  have hW : W = q.code ++ 0x24#6 ++ d ++ a ++ b ++ t.code ++ m ++ 0x2#6 := hW'.symm
  have wf0_6 : W.extractLsb' 0 6 = 0x2#6 := by rw [hW]; simp (disch := decide) only [ex_hi, ex_lo, ex_all, Nat.reduceSub]
  have wf20_4 : W.extractLsb' 20 4 = d := by rw [hW]; simp (disch := decide) only [ex_hi, ex_lo, ex_all, Nat.reduceSub]
  have wf16_4 : W.extractLsb' 16 4 = a := by rw [hW]; simp (disch := decide) only [ex_hi, ex_lo, ex_all, Nat.reduceSub]
  have wf12_4 : W.extractLsb' 12 4 = b := by rw [hW]; simp (disch := decide) only [ex_hi, ex_lo, ex_all, Nat.reduceSub]
  have wf8_4 : W.extractLsb' 8 4 = t.code := by rw [hW]; simp (disch := decide) only [ex_hi, ex_lo, ex_all, Nat.reduceSub]
  have wf6_2 : W.extractLsb' 6 2 = m := by rw [hW]; simp (disch := decide) only [ex_hi, ex_lo, ex_all, Nat.reduceSub]
  have wf24_6 : W.extractLsb' 24 6 = 0x24#6 := by rw [hW]; simp (disch := decide) only [ex_hi, ex_lo, ex_all, Nat.reduceSub]
  have wf30_2 : W.extractLsb' 30 2 = q.code := by rw [hW]; simp (disch := decide) only [ex_hi, ex_lo, ex_all, Nat.reduceSub]
  exact roundTrip_one hW' rfl rfl wf24_6 rfl wf30_2 (by
    rw [decodeOne_24 _ _ wf24_6]
    simp only [decodeVperm, ↓reduceIte, BitVec.reduceEq, and_false, false_and, and_self, not_true_eq_false, and_true, true_and, wf0_6, wf20_4, wf16_4, wf12_4, wf8_4, ETy.ofCode_code, wf6_2])

theorem RoundTrip.vcompress (o : V2) : RoundTrip.Statement (.vcompress o) := by
  obtain ⟨q, d, a, t, m⟩ := o
  generalize hW' : encode0 (.vcompress ⟨q, d, a, t, m⟩) = W
  have hW : W = q.code ++ 0x24#6 ++ d ++ a ++ 0x0#4 ++ t.code ++ m ++ 0x3#6 := hW'.symm
  have wf0_6 : W.extractLsb' 0 6 = 0x3#6 := by rw [hW]; simp (disch := decide) only [ex_hi, ex_lo, ex_all, Nat.reduceSub]
  have wf12_4 : W.extractLsb' 12 4 = 0x0#4 := by rw [hW]; simp (disch := decide) only [ex_hi, ex_lo, ex_all, Nat.reduceSub]
  have wf20_4 : W.extractLsb' 20 4 = d := by rw [hW]; simp (disch := decide) only [ex_hi, ex_lo, ex_all, Nat.reduceSub]
  have wf16_4 : W.extractLsb' 16 4 = a := by rw [hW]; simp (disch := decide) only [ex_hi, ex_lo, ex_all, Nat.reduceSub]
  have wf8_4 : W.extractLsb' 8 4 = t.code := by rw [hW]; simp (disch := decide) only [ex_hi, ex_lo, ex_all, Nat.reduceSub]
  have wf6_2 : W.extractLsb' 6 2 = m := by rw [hW]; simp (disch := decide) only [ex_hi, ex_lo, ex_all, Nat.reduceSub]
  have wf24_6 : W.extractLsb' 24 6 = 0x24#6 := by rw [hW]; simp (disch := decide) only [ex_hi, ex_lo, ex_all, Nat.reduceSub]
  have wf30_2 : W.extractLsb' 30 2 = q.code := by rw [hW]; simp (disch := decide) only [ex_hi, ex_lo, ex_all, Nat.reduceSub]
  exact roundTrip_one hW' rfl rfl wf24_6 rfl wf30_2 (by
    rw [decodeOne_24 _ _ wf24_6]
    simp only [decodeVperm, ↓reduceIte, BitVec.reduceEq, and_false, false_and, and_self, not_true_eq_false, and_true, true_and, wf0_6, wf12_4, wf20_4, wf16_4, wf8_4, ETy.ofCode_code, wf6_2])

theorem RoundTrip.vexpand (o : V2) : RoundTrip.Statement (.vexpand o) := by
  obtain ⟨q, d, a, t, m⟩ := o
  generalize hW' : encode0 (.vexpand ⟨q, d, a, t, m⟩) = W
  have hW : W = q.code ++ 0x24#6 ++ d ++ a ++ 0x0#4 ++ t.code ++ m ++ 0x4#6 := hW'.symm
  have wf0_6 : W.extractLsb' 0 6 = 0x4#6 := by rw [hW]; simp (disch := decide) only [ex_hi, ex_lo, ex_all, Nat.reduceSub]
  have wf12_4 : W.extractLsb' 12 4 = 0x0#4 := by rw [hW]; simp (disch := decide) only [ex_hi, ex_lo, ex_all, Nat.reduceSub]
  have wf20_4 : W.extractLsb' 20 4 = d := by rw [hW]; simp (disch := decide) only [ex_hi, ex_lo, ex_all, Nat.reduceSub]
  have wf16_4 : W.extractLsb' 16 4 = a := by rw [hW]; simp (disch := decide) only [ex_hi, ex_lo, ex_all, Nat.reduceSub]
  have wf8_4 : W.extractLsb' 8 4 = t.code := by rw [hW]; simp (disch := decide) only [ex_hi, ex_lo, ex_all, Nat.reduceSub]
  have wf6_2 : W.extractLsb' 6 2 = m := by rw [hW]; simp (disch := decide) only [ex_hi, ex_lo, ex_all, Nat.reduceSub]
  have wf24_6 : W.extractLsb' 24 6 = 0x24#6 := by rw [hW]; simp (disch := decide) only [ex_hi, ex_lo, ex_all, Nat.reduceSub]
  have wf30_2 : W.extractLsb' 30 2 = q.code := by rw [hW]; simp (disch := decide) only [ex_hi, ex_lo, ex_all, Nat.reduceSub]
  exact roundTrip_one hW' rfl rfl wf24_6 rfl wf30_2 (by
    rw [decodeOne_24 _ _ wf24_6]
    simp only [decodeVperm, ↓reduceIte, BitVec.reduceEq, and_false, false_and, and_self, not_true_eq_false, and_true, true_and, wf0_6, wf12_4, wf20_4, wf16_4, wf8_4, ETy.ofCode_code, wf6_2])

theorem RoundTrip.vgather (o : V2) : RoundTrip.Statement (.vgather o) := by
  obtain ⟨q, d, a, t, m⟩ := o
  generalize hW' : encode0 (.vgather ⟨q, d, a, t, m⟩) = W
  have hW : W = q.code ++ 0x24#6 ++ d ++ a ++ 0x0#4 ++ t.code ++ m ++ 0x5#6 := hW'.symm
  have wf0_6 : W.extractLsb' 0 6 = 0x5#6 := by rw [hW]; simp (disch := decide) only [ex_hi, ex_lo, ex_all, Nat.reduceSub]
  have wf12_4 : W.extractLsb' 12 4 = 0x0#4 := by rw [hW]; simp (disch := decide) only [ex_hi, ex_lo, ex_all, Nat.reduceSub]
  have wf20_4 : W.extractLsb' 20 4 = d := by rw [hW]; simp (disch := decide) only [ex_hi, ex_lo, ex_all, Nat.reduceSub]
  have wf16_4 : W.extractLsb' 16 4 = a := by rw [hW]; simp (disch := decide) only [ex_hi, ex_lo, ex_all, Nat.reduceSub]
  have wf8_4 : W.extractLsb' 8 4 = t.code := by rw [hW]; simp (disch := decide) only [ex_hi, ex_lo, ex_all, Nat.reduceSub]
  have wf6_2 : W.extractLsb' 6 2 = m := by rw [hW]; simp (disch := decide) only [ex_hi, ex_lo, ex_all, Nat.reduceSub]
  have wf24_6 : W.extractLsb' 24 6 = 0x24#6 := by rw [hW]; simp (disch := decide) only [ex_hi, ex_lo, ex_all, Nat.reduceSub]
  have wf30_2 : W.extractLsb' 30 2 = q.code := by rw [hW]; simp (disch := decide) only [ex_hi, ex_lo, ex_all, Nat.reduceSub]
  exact roundTrip_one hW' rfl rfl wf24_6 rfl wf30_2 (by
    rw [decodeOne_24 _ _ wf24_6]
    simp only [decodeVperm, ↓reduceIte, BitVec.reduceEq, and_false, false_and, and_self, not_true_eq_false, and_true, true_and, wf0_6, wf12_4, wf20_4, wf16_4, wf8_4, ETy.ofCode_code, wf6_2])

theorem RoundTrip.vscatter (o : VSc) : RoundTrip.Statement (.vscatter o) := by
  obtain ⟨q, a, b, t, m⟩ := o
  generalize hW' : encode0 (.vscatter ⟨q, a, b, t, m⟩) = W
  have hW : W = q.code ++ 0x24#6 ++ 0x0#4 ++ a ++ b ++ t.code ++ m ++ 0x6#6 := hW'.symm
  have wf0_6 : W.extractLsb' 0 6 = 0x6#6 := by rw [hW]; simp (disch := decide) only [ex_hi, ex_lo, ex_all, Nat.reduceSub]
  have wf20_4 : W.extractLsb' 20 4 = 0x0#4 := by rw [hW]; simp (disch := decide) only [ex_hi, ex_lo, ex_all, Nat.reduceSub]
  have wf16_4 : W.extractLsb' 16 4 = a := by rw [hW]; simp (disch := decide) only [ex_hi, ex_lo, ex_all, Nat.reduceSub]
  have wf12_4 : W.extractLsb' 12 4 = b := by rw [hW]; simp (disch := decide) only [ex_hi, ex_lo, ex_all, Nat.reduceSub]
  have wf8_4 : W.extractLsb' 8 4 = t.code := by rw [hW]; simp (disch := decide) only [ex_hi, ex_lo, ex_all, Nat.reduceSub]
  have wf6_2 : W.extractLsb' 6 2 = m := by rw [hW]; simp (disch := decide) only [ex_hi, ex_lo, ex_all, Nat.reduceSub]
  have wf24_6 : W.extractLsb' 24 6 = 0x24#6 := by rw [hW]; simp (disch := decide) only [ex_hi, ex_lo, ex_all, Nat.reduceSub]
  have wf30_2 : W.extractLsb' 30 2 = q.code := by rw [hW]; simp (disch := decide) only [ex_hi, ex_lo, ex_all, Nat.reduceSub]
  exact roundTrip_one hW' rfl rfl wf24_6 rfl wf30_2 (by
    rw [decodeOne_24 _ _ wf24_6]
    simp only [decodeVperm, ↓reduceIte, BitVec.reduceEq, and_false, false_and, and_self, not_true_eq_false, and_true, true_and, wf0_6, wf20_4, wf16_4, wf12_4, wf8_4, ETy.ofCode_code, wf6_2])

theorem RoundTrip.vzip (o : VZ) : RoundTrip.Statement (.vzip o) := by
  obtain ⟨q, d, a, b, t⟩ := o
  generalize hW' : encode0 (.vzip ⟨q, d, a, b, t⟩) = W
  have hW : W = q.code ++ 0x24#6 ++ d ++ a ++ b ++ t.code ++ 0x7#8 := hW'.symm
  have wf0_6 : W.extractLsb' 0 6 = 7#6 := by rw [hW]; simp (disch := decide) only [ex_hi, ex_lo, ex_all, Nat.reduceSub]; rfl
  have wf0_8 : W.extractLsb' 0 8 = 0x7#8 := by rw [hW]; simp (disch := decide) only [ex_hi, ex_lo, ex_all, Nat.reduceSub]
  have wf20_4 : W.extractLsb' 20 4 = d := by rw [hW]; simp (disch := decide) only [ex_hi, ex_lo, ex_all, Nat.reduceSub]
  have wf16_4 : W.extractLsb' 16 4 = a := by rw [hW]; simp (disch := decide) only [ex_hi, ex_lo, ex_all, Nat.reduceSub]
  have wf12_4 : W.extractLsb' 12 4 = b := by rw [hW]; simp (disch := decide) only [ex_hi, ex_lo, ex_all, Nat.reduceSub]
  have wf8_4 : W.extractLsb' 8 4 = t.code := by rw [hW]; simp (disch := decide) only [ex_hi, ex_lo, ex_all, Nat.reduceSub]
  have wf24_6 : W.extractLsb' 24 6 = 0x24#6 := by rw [hW]; simp (disch := decide) only [ex_hi, ex_lo, ex_all, Nat.reduceSub]
  have wf30_2 : W.extractLsb' 30 2 = q.code := by rw [hW]; simp (disch := decide) only [ex_hi, ex_lo, ex_all, Nat.reduceSub]
  exact roundTrip_one hW' rfl rfl wf24_6 rfl wf30_2 (by
    rw [decodeOne_24 _ _ wf24_6]
    simp only [decodeVperm, ↓reduceIte, BitVec.reduceEq, and_false, false_and, and_self, not_true_eq_false, and_true, true_and, wf0_6, wf0_8, wf20_4, wf16_4, wf12_4, wf8_4, ETy.ofCode_code])

theorem RoundTrip.vunzip (o : VU) : RoundTrip.Statement (.vunzip o) := by
  obtain ⟨q, d, a, t⟩ := o
  generalize hW' : encode0 (.vunzip ⟨q, d, a, t⟩) = W
  have hW : W = q.code ++ 0x24#6 ++ d ++ a ++ 0x0#4 ++ t.code ++ 0x8#8 := hW'.symm
  have wf0_6 : W.extractLsb' 0 6 = 8#6 := by rw [hW]; simp (disch := decide) only [ex_hi, ex_lo, ex_all, Nat.reduceSub]; rfl
  have wf0_8 : W.extractLsb' 0 8 = 0x8#8 := by rw [hW]; simp (disch := decide) only [ex_hi, ex_lo, ex_all, Nat.reduceSub]
  have wf12_4 : W.extractLsb' 12 4 = 0x0#4 := by rw [hW]; simp (disch := decide) only [ex_hi, ex_lo, ex_all, Nat.reduceSub]
  have wf20_4 : W.extractLsb' 20 4 = d := by rw [hW]; simp (disch := decide) only [ex_hi, ex_lo, ex_all, Nat.reduceSub]
  have wf16_4 : W.extractLsb' 16 4 = a := by rw [hW]; simp (disch := decide) only [ex_hi, ex_lo, ex_all, Nat.reduceSub]
  have wf8_4 : W.extractLsb' 8 4 = t.code := by rw [hW]; simp (disch := decide) only [ex_hi, ex_lo, ex_all, Nat.reduceSub]
  have wf24_6 : W.extractLsb' 24 6 = 0x24#6 := by rw [hW]; simp (disch := decide) only [ex_hi, ex_lo, ex_all, Nat.reduceSub]
  have wf30_2 : W.extractLsb' 30 2 = q.code := by rw [hW]; simp (disch := decide) only [ex_hi, ex_lo, ex_all, Nat.reduceSub]
  exact roundTrip_one hW' rfl rfl wf24_6 rfl wf30_2 (by
    rw [decodeOne_24 _ _ wf24_6]
    simp only [decodeVperm, ↓reduceIte, BitVec.reduceEq, and_false, false_and, and_self, not_true_eq_false, and_true, true_and, wf0_6, wf0_8, wf12_4, wf20_4, wf16_4, wf8_4, ETy.ofCode_code])

theorem RoundTrip.vrev (o : V2) : RoundTrip.Statement (.vrev o) := by
  obtain ⟨q, d, a, t, m⟩ := o
  generalize hW' : encode0 (.vrev ⟨q, d, a, t, m⟩) = W
  have hW : W = q.code ++ 0x24#6 ++ d ++ a ++ 0x0#4 ++ t.code ++ m ++ 0x9#6 := hW'.symm
  have wf0_6 : W.extractLsb' 0 6 = 0x9#6 := by rw [hW]; simp (disch := decide) only [ex_hi, ex_lo, ex_all, Nat.reduceSub]
  have wn0_8_7 : ¬ W.extractLsb' 0 8 = 7#8 := slice_ne (t := 0) wf0_6 (by decide) (by decide)
  have wn0_8_8 : ¬ W.extractLsb' 0 8 = 8#8 := slice_ne (t := 0) wf0_6 (by decide) (by decide)
  have wf12_4 : W.extractLsb' 12 4 = 0x0#4 := by rw [hW]; simp (disch := decide) only [ex_hi, ex_lo, ex_all, Nat.reduceSub]
  have wf20_4 : W.extractLsb' 20 4 = d := by rw [hW]; simp (disch := decide) only [ex_hi, ex_lo, ex_all, Nat.reduceSub]
  have wf16_4 : W.extractLsb' 16 4 = a := by rw [hW]; simp (disch := decide) only [ex_hi, ex_lo, ex_all, Nat.reduceSub]
  have wf8_4 : W.extractLsb' 8 4 = t.code := by rw [hW]; simp (disch := decide) only [ex_hi, ex_lo, ex_all, Nat.reduceSub]
  have wf6_2 : W.extractLsb' 6 2 = m := by rw [hW]; simp (disch := decide) only [ex_hi, ex_lo, ex_all, Nat.reduceSub]
  have wf24_6 : W.extractLsb' 24 6 = 0x24#6 := by rw [hW]; simp (disch := decide) only [ex_hi, ex_lo, ex_all, Nat.reduceSub]
  have wf30_2 : W.extractLsb' 30 2 = q.code := by rw [hW]; simp (disch := decide) only [ex_hi, ex_lo, ex_all, Nat.reduceSub]
  exact roundTrip_one hW' rfl rfl wf24_6 rfl wf30_2 (by
    rw [decodeOne_24 _ _ wf24_6]
    simp only [decodeVperm, ↓reduceIte, BitVec.reduceEq, and_false, false_and, and_self, not_true_eq_false, and_true, true_and, wf0_6, wn0_8_7, wn0_8_8, wf12_4, wf20_4, wf16_4, wf8_4, ETy.ofCode_code, wf6_2])

theorem RoundTrip.vrsum (o : V2C) : RoundTrip.Statement (.vrsum o) := by
  obtain ⟨q, d, a, t, m, c⟩ := o
  generalize hW' : encode0 (.vrsum ⟨q, d, a, t, m, c⟩) = W
  have hW : W = q.code ++ 0x25#6 ++ d ++ a ++ 0x0#4 ++ t.code ++ m ++ 0x0#3 ++ c := hW'.symm
  have wf12_4 : W.extractLsb' 12 4 = 0x0#4 := by rw [hW]; simp (disch := decide) only [ex_hi, ex_lo, ex_all, Nat.reduceSub]
  have wf3_3 : W.extractLsb' 3 3 = 0x0#3 := by rw [hW]; simp (disch := decide) only [ex_hi, ex_lo, ex_all, Nat.reduceSub]
  have wf20_4 : W.extractLsb' 20 4 = d := by rw [hW]; simp (disch := decide) only [ex_hi, ex_lo, ex_all, Nat.reduceSub]
  have wf16_4 : W.extractLsb' 16 4 = a := by rw [hW]; simp (disch := decide) only [ex_hi, ex_lo, ex_all, Nat.reduceSub]
  have wf8_4 : W.extractLsb' 8 4 = t.code := by rw [hW]; simp (disch := decide) only [ex_hi, ex_lo, ex_all, Nat.reduceSub]
  have wf6_2 : W.extractLsb' 6 2 = m := by rw [hW]; simp (disch := decide) only [ex_hi, ex_lo, ex_all, Nat.reduceSub]
  have wf0_3 : W.extractLsb' 0 3 = c := by rw [hW]; simp (disch := decide) only [ex_hi, ex_lo, ex_all, Nat.reduceSub]
  have wf24_6 : W.extractLsb' 24 6 = 0x25#6 := by rw [hW]; simp (disch := decide) only [ex_hi, ex_lo, ex_all, Nat.reduceSub]
  have wf30_2 : W.extractLsb' 30 2 = q.code := by rw [hW]; simp (disch := decide) only [ex_hi, ex_lo, ex_all, Nat.reduceSub]
  exact roundTrip_one hW' rfl rfl wf24_6 rfl wf30_2 (by
    rw [decodeOne_25 _ _ wf24_6]
    simp only [decodeVred, ↓reduceIte, BitVec.reduceEq, and_false, false_and, and_self, not_true_eq_false, and_true, true_and, wf12_4, wf3_3, wf20_4, wf16_4, wf8_4, ETy.ofCode_code, wf6_2, wf0_3])

theorem RoundTrip.vrmin (o : V2C) : RoundTrip.Statement (.vrmin o) := by
  obtain ⟨q, d, a, t, m, c⟩ := o
  generalize hW' : encode0 (.vrmin ⟨q, d, a, t, m, c⟩) = W
  have hW : W = q.code ++ 0x25#6 ++ d ++ a ++ 0x0#4 ++ t.code ++ m ++ 0x1#3 ++ c := hW'.symm
  have wf3_3 : W.extractLsb' 3 3 = 0x1#3 := by rw [hW]; simp (disch := decide) only [ex_hi, ex_lo, ex_all, Nat.reduceSub]
  have wf12_4 : W.extractLsb' 12 4 = 0x0#4 := by rw [hW]; simp (disch := decide) only [ex_hi, ex_lo, ex_all, Nat.reduceSub]
  have wf20_4 : W.extractLsb' 20 4 = d := by rw [hW]; simp (disch := decide) only [ex_hi, ex_lo, ex_all, Nat.reduceSub]
  have wf16_4 : W.extractLsb' 16 4 = a := by rw [hW]; simp (disch := decide) only [ex_hi, ex_lo, ex_all, Nat.reduceSub]
  have wf8_4 : W.extractLsb' 8 4 = t.code := by rw [hW]; simp (disch := decide) only [ex_hi, ex_lo, ex_all, Nat.reduceSub]
  have wf6_2 : W.extractLsb' 6 2 = m := by rw [hW]; simp (disch := decide) only [ex_hi, ex_lo, ex_all, Nat.reduceSub]
  have wf0_3 : W.extractLsb' 0 3 = c := by rw [hW]; simp (disch := decide) only [ex_hi, ex_lo, ex_all, Nat.reduceSub]
  have wf24_6 : W.extractLsb' 24 6 = 0x25#6 := by rw [hW]; simp (disch := decide) only [ex_hi, ex_lo, ex_all, Nat.reduceSub]
  have wf30_2 : W.extractLsb' 30 2 = q.code := by rw [hW]; simp (disch := decide) only [ex_hi, ex_lo, ex_all, Nat.reduceSub]
  exact roundTrip_one hW' rfl rfl wf24_6 rfl wf30_2 (by
    rw [decodeOne_25 _ _ wf24_6]
    simp only [decodeVred, ↓reduceIte, BitVec.reduceEq, and_false, false_and, and_self, not_true_eq_false, and_true, true_and, wf3_3, wf12_4, wf20_4, wf16_4, wf8_4, ETy.ofCode_code, wf6_2, wf0_3])

theorem RoundTrip.vrmax (o : V2C) : RoundTrip.Statement (.vrmax o) := by
  obtain ⟨q, d, a, t, m, c⟩ := o
  generalize hW' : encode0 (.vrmax ⟨q, d, a, t, m, c⟩) = W
  have hW : W = q.code ++ 0x25#6 ++ d ++ a ++ 0x0#4 ++ t.code ++ m ++ 0x2#3 ++ c := hW'.symm
  have wf3_3 : W.extractLsb' 3 3 = 0x2#3 := by rw [hW]; simp (disch := decide) only [ex_hi, ex_lo, ex_all, Nat.reduceSub]
  have wf12_4 : W.extractLsb' 12 4 = 0x0#4 := by rw [hW]; simp (disch := decide) only [ex_hi, ex_lo, ex_all, Nat.reduceSub]
  have wf20_4 : W.extractLsb' 20 4 = d := by rw [hW]; simp (disch := decide) only [ex_hi, ex_lo, ex_all, Nat.reduceSub]
  have wf16_4 : W.extractLsb' 16 4 = a := by rw [hW]; simp (disch := decide) only [ex_hi, ex_lo, ex_all, Nat.reduceSub]
  have wf8_4 : W.extractLsb' 8 4 = t.code := by rw [hW]; simp (disch := decide) only [ex_hi, ex_lo, ex_all, Nat.reduceSub]
  have wf6_2 : W.extractLsb' 6 2 = m := by rw [hW]; simp (disch := decide) only [ex_hi, ex_lo, ex_all, Nat.reduceSub]
  have wf0_3 : W.extractLsb' 0 3 = c := by rw [hW]; simp (disch := decide) only [ex_hi, ex_lo, ex_all, Nat.reduceSub]
  have wf24_6 : W.extractLsb' 24 6 = 0x25#6 := by rw [hW]; simp (disch := decide) only [ex_hi, ex_lo, ex_all, Nat.reduceSub]
  have wf30_2 : W.extractLsb' 30 2 = q.code := by rw [hW]; simp (disch := decide) only [ex_hi, ex_lo, ex_all, Nat.reduceSub]
  exact roundTrip_one hW' rfl rfl wf24_6 rfl wf30_2 (by
    rw [decodeOne_25 _ _ wf24_6]
    simp only [decodeVred, ↓reduceIte, BitVec.reduceEq, and_false, false_and, and_self, not_true_eq_false, and_true, true_and, wf3_3, wf12_4, wf20_4, wf16_4, wf8_4, ETy.ofCode_code, wf6_2, wf0_3])

theorem RoundTrip.vrsumw (o : V2C) : RoundTrip.Statement (.vrsumw o) := by
  obtain ⟨q, d, a, t, m, c⟩ := o
  generalize hW' : encode0 (.vrsumw ⟨q, d, a, t, m, c⟩) = W
  have hW : W = q.code ++ 0x25#6 ++ d ++ a ++ 0x0#4 ++ t.code ++ m ++ 0x3#3 ++ c := hW'.symm
  have wf3_3 : W.extractLsb' 3 3 = 0x3#3 := by rw [hW]; simp (disch := decide) only [ex_hi, ex_lo, ex_all, Nat.reduceSub]
  have wf12_4 : W.extractLsb' 12 4 = 0x0#4 := by rw [hW]; simp (disch := decide) only [ex_hi, ex_lo, ex_all, Nat.reduceSub]
  have wf20_4 : W.extractLsb' 20 4 = d := by rw [hW]; simp (disch := decide) only [ex_hi, ex_lo, ex_all, Nat.reduceSub]
  have wf16_4 : W.extractLsb' 16 4 = a := by rw [hW]; simp (disch := decide) only [ex_hi, ex_lo, ex_all, Nat.reduceSub]
  have wf8_4 : W.extractLsb' 8 4 = t.code := by rw [hW]; simp (disch := decide) only [ex_hi, ex_lo, ex_all, Nat.reduceSub]
  have wf6_2 : W.extractLsb' 6 2 = m := by rw [hW]; simp (disch := decide) only [ex_hi, ex_lo, ex_all, Nat.reduceSub]
  have wf0_3 : W.extractLsb' 0 3 = c := by rw [hW]; simp (disch := decide) only [ex_hi, ex_lo, ex_all, Nat.reduceSub]
  have wf24_6 : W.extractLsb' 24 6 = 0x25#6 := by rw [hW]; simp (disch := decide) only [ex_hi, ex_lo, ex_all, Nat.reduceSub]
  have wf30_2 : W.extractLsb' 30 2 = q.code := by rw [hW]; simp (disch := decide) only [ex_hi, ex_lo, ex_all, Nat.reduceSub]
  exact roundTrip_one hW' rfl rfl wf24_6 rfl wf30_2 (by
    rw [decodeOne_25 _ _ wf24_6]
    simp only [decodeVred, ↓reduceIte, BitVec.reduceEq, and_false, false_and, and_self, not_true_eq_false, and_true, true_and, wf3_3, wf12_4, wf20_4, wf16_4, wf8_4, ETy.ofCode_code, wf6_2, wf0_3])

theorem RoundTrip.vdot (o : V3C) : RoundTrip.Statement (.vdot o) := by
  obtain ⟨q, d, a, b, t, m, c⟩ := o
  generalize hW' : encode0 (.vdot ⟨q, d, a, b, t, m, c⟩) = W
  have hW : W = q.code ++ 0x25#6 ++ d ++ a ++ b ++ t.code ++ m ++ 0x4#3 ++ c := hW'.symm
  have wf3_3 : W.extractLsb' 3 3 = 0x4#3 := by rw [hW]; simp (disch := decide) only [ex_hi, ex_lo, ex_all, Nat.reduceSub]
  have wf20_4 : W.extractLsb' 20 4 = d := by rw [hW]; simp (disch := decide) only [ex_hi, ex_lo, ex_all, Nat.reduceSub]
  have wf16_4 : W.extractLsb' 16 4 = a := by rw [hW]; simp (disch := decide) only [ex_hi, ex_lo, ex_all, Nat.reduceSub]
  have wf12_4 : W.extractLsb' 12 4 = b := by rw [hW]; simp (disch := decide) only [ex_hi, ex_lo, ex_all, Nat.reduceSub]
  have wf8_4 : W.extractLsb' 8 4 = t.code := by rw [hW]; simp (disch := decide) only [ex_hi, ex_lo, ex_all, Nat.reduceSub]
  have wf6_2 : W.extractLsb' 6 2 = m := by rw [hW]; simp (disch := decide) only [ex_hi, ex_lo, ex_all, Nat.reduceSub]
  have wf0_3 : W.extractLsb' 0 3 = c := by rw [hW]; simp (disch := decide) only [ex_hi, ex_lo, ex_all, Nat.reduceSub]
  have wf24_6 : W.extractLsb' 24 6 = 0x25#6 := by rw [hW]; simp (disch := decide) only [ex_hi, ex_lo, ex_all, Nat.reduceSub]
  have wf30_2 : W.extractLsb' 30 2 = q.code := by rw [hW]; simp (disch := decide) only [ex_hi, ex_lo, ex_all, Nat.reduceSub]
  exact roundTrip_one hW' rfl rfl wf24_6 rfl wf30_2 (by
    rw [decodeOne_25 _ _ wf24_6]
    simp only [decodeVred, ↓reduceIte, BitVec.reduceEq, and_false, false_and, and_self, not_true_eq_false, and_true, true_and, wf3_3, wf20_4, wf16_4, wf12_4, wf8_4, ETy.ofCode_code, wf6_2, wf0_3])

theorem RoundTrip.vdota (o : V3C) : RoundTrip.Statement (.vdota o) := by
  obtain ⟨q, d, a, b, t, m, c⟩ := o
  generalize hW' : encode0 (.vdota ⟨q, d, a, b, t, m, c⟩) = W
  have hW : W = q.code ++ 0x25#6 ++ d ++ a ++ b ++ t.code ++ m ++ 0x5#3 ++ c := hW'.symm
  have wf3_3 : W.extractLsb' 3 3 = 0x5#3 := by rw [hW]; simp (disch := decide) only [ex_hi, ex_lo, ex_all, Nat.reduceSub]
  have wf20_4 : W.extractLsb' 20 4 = d := by rw [hW]; simp (disch := decide) only [ex_hi, ex_lo, ex_all, Nat.reduceSub]
  have wf16_4 : W.extractLsb' 16 4 = a := by rw [hW]; simp (disch := decide) only [ex_hi, ex_lo, ex_all, Nat.reduceSub]
  have wf12_4 : W.extractLsb' 12 4 = b := by rw [hW]; simp (disch := decide) only [ex_hi, ex_lo, ex_all, Nat.reduceSub]
  have wf8_4 : W.extractLsb' 8 4 = t.code := by rw [hW]; simp (disch := decide) only [ex_hi, ex_lo, ex_all, Nat.reduceSub]
  have wf6_2 : W.extractLsb' 6 2 = m := by rw [hW]; simp (disch := decide) only [ex_hi, ex_lo, ex_all, Nat.reduceSub]
  have wf0_3 : W.extractLsb' 0 3 = c := by rw [hW]; simp (disch := decide) only [ex_hi, ex_lo, ex_all, Nat.reduceSub]
  have wf24_6 : W.extractLsb' 24 6 = 0x25#6 := by rw [hW]; simp (disch := decide) only [ex_hi, ex_lo, ex_all, Nat.reduceSub]
  have wf30_2 : W.extractLsb' 30 2 = q.code := by rw [hW]; simp (disch := decide) only [ex_hi, ex_lo, ex_all, Nat.reduceSub]
  exact roundTrip_one hW' rfl rfl wf24_6 rfl wf30_2 (by
    rw [decodeOne_25 _ _ wf24_6]
    simp only [decodeVred, ↓reduceIte, BitVec.reduceEq, and_false, false_and, and_self, not_true_eq_false, and_true, true_and, wf3_3, wf20_4, wf16_4, wf12_4, wf8_4, ETy.ofCode_code, wf6_2, wf0_3])

theorem RoundTrip.vdot2 (o : V3C) : RoundTrip.Statement (.vdot2 o) := by
  obtain ⟨q, d, a, b, t, m, c⟩ := o
  generalize hW' : encode0 (.vdot2 ⟨q, d, a, b, t, m, c⟩) = W
  have hW : W = q.code ++ 0x25#6 ++ d ++ a ++ b ++ t.code ++ m ++ 0x6#3 ++ c := hW'.symm
  have wf3_3 : W.extractLsb' 3 3 = 0x6#3 := by rw [hW]; simp (disch := decide) only [ex_hi, ex_lo, ex_all, Nat.reduceSub]
  have wf20_4 : W.extractLsb' 20 4 = d := by rw [hW]; simp (disch := decide) only [ex_hi, ex_lo, ex_all, Nat.reduceSub]
  have wf16_4 : W.extractLsb' 16 4 = a := by rw [hW]; simp (disch := decide) only [ex_hi, ex_lo, ex_all, Nat.reduceSub]
  have wf12_4 : W.extractLsb' 12 4 = b := by rw [hW]; simp (disch := decide) only [ex_hi, ex_lo, ex_all, Nat.reduceSub]
  have wf8_4 : W.extractLsb' 8 4 = t.code := by rw [hW]; simp (disch := decide) only [ex_hi, ex_lo, ex_all, Nat.reduceSub]
  have wf6_2 : W.extractLsb' 6 2 = m := by rw [hW]; simp (disch := decide) only [ex_hi, ex_lo, ex_all, Nat.reduceSub]
  have wf0_3 : W.extractLsb' 0 3 = c := by rw [hW]; simp (disch := decide) only [ex_hi, ex_lo, ex_all, Nat.reduceSub]
  have wf24_6 : W.extractLsb' 24 6 = 0x25#6 := by rw [hW]; simp (disch := decide) only [ex_hi, ex_lo, ex_all, Nat.reduceSub]
  have wf30_2 : W.extractLsb' 30 2 = q.code := by rw [hW]; simp (disch := decide) only [ex_hi, ex_lo, ex_all, Nat.reduceSub]
  exact roundTrip_one hW' rfl rfl wf24_6 rfl wf30_2 (by
    rw [decodeOne_25 _ _ wf24_6]
    simp only [decodeVred, ↓reduceIte, BitVec.reduceEq, and_false, false_and, and_self, not_true_eq_false, and_true, true_and, wf3_3, wf20_4, wf16_4, wf12_4, wf8_4, ETy.ofCode_code, wf6_2, wf0_3])

theorem RoundTrip.vdot2a (o : V3C) : RoundTrip.Statement (.vdot2a o) := by
  obtain ⟨q, d, a, b, t, m, c⟩ := o
  generalize hW' : encode0 (.vdot2a ⟨q, d, a, b, t, m, c⟩) = W
  have hW : W = q.code ++ 0x25#6 ++ d ++ a ++ b ++ t.code ++ m ++ 0x7#3 ++ c := hW'.symm
  have wf3_3 : W.extractLsb' 3 3 = 0x7#3 := by rw [hW]; simp (disch := decide) only [ex_hi, ex_lo, ex_all, Nat.reduceSub]
  have wf20_4 : W.extractLsb' 20 4 = d := by rw [hW]; simp (disch := decide) only [ex_hi, ex_lo, ex_all, Nat.reduceSub]
  have wf16_4 : W.extractLsb' 16 4 = a := by rw [hW]; simp (disch := decide) only [ex_hi, ex_lo, ex_all, Nat.reduceSub]
  have wf12_4 : W.extractLsb' 12 4 = b := by rw [hW]; simp (disch := decide) only [ex_hi, ex_lo, ex_all, Nat.reduceSub]
  have wf8_4 : W.extractLsb' 8 4 = t.code := by rw [hW]; simp (disch := decide) only [ex_hi, ex_lo, ex_all, Nat.reduceSub]
  have wf6_2 : W.extractLsb' 6 2 = m := by rw [hW]; simp (disch := decide) only [ex_hi, ex_lo, ex_all, Nat.reduceSub]
  have wf0_3 : W.extractLsb' 0 3 = c := by rw [hW]; simp (disch := decide) only [ex_hi, ex_lo, ex_all, Nat.reduceSub]
  have wf24_6 : W.extractLsb' 24 6 = 0x25#6 := by rw [hW]; simp (disch := decide) only [ex_hi, ex_lo, ex_all, Nat.reduceSub]
  have wf30_2 : W.extractLsb' 30 2 = q.code := by rw [hW]; simp (disch := decide) only [ex_hi, ex_lo, ex_all, Nat.reduceSub]
  exact roundTrip_one hW' rfl rfl wf24_6 rfl wf30_2 (by
    rw [decodeOne_25 _ _ wf24_6]
    simp only [decodeVred, ↓reduceIte, BitVec.reduceEq, and_false, false_and, and_self, not_true_eq_false, and_true, true_and, wf3_3, wf20_4, wf16_4, wf12_4, wf8_4, ETy.ofCode_code, wf6_2, wf0_3])

theorem RoundTrip.vrcp (o : V2) : RoundTrip.Statement (.vrcp o) := by
  obtain ⟨q, d, a, t, m⟩ := o
  generalize hW' : encode0 (.vrcp ⟨q, d, a, t, m⟩) = W
  have hW : W = q.code ++ 0x26#6 ++ d ++ a ++ 0x0#4 ++ t.code ++ m ++ 0x0#6 := hW'.symm
  have wf12_4 : W.extractLsb' 12 4 = 0x0#4 := by rw [hW]; simp (disch := decide) only [ex_hi, ex_lo, ex_all, Nat.reduceSub]
  have wf0_6 : W.extractLsb' 0 6 = 0x0#6 := by rw [hW]; simp (disch := decide) only [ex_hi, ex_lo, ex_all, Nat.reduceSub]
  have wf20_4 : W.extractLsb' 20 4 = d := by rw [hW]; simp (disch := decide) only [ex_hi, ex_lo, ex_all, Nat.reduceSub]
  have wf16_4 : W.extractLsb' 16 4 = a := by rw [hW]; simp (disch := decide) only [ex_hi, ex_lo, ex_all, Nat.reduceSub]
  have wf8_4 : W.extractLsb' 8 4 = t.code := by rw [hW]; simp (disch := decide) only [ex_hi, ex_lo, ex_all, Nat.reduceSub]
  have wf6_2 : W.extractLsb' 6 2 = m := by rw [hW]; simp (disch := decide) only [ex_hi, ex_lo, ex_all, Nat.reduceSub]
  have wf24_6 : W.extractLsb' 24 6 = 0x26#6 := by rw [hW]; simp (disch := decide) only [ex_hi, ex_lo, ex_all, Nat.reduceSub]
  have wf30_2 : W.extractLsb' 30 2 = q.code := by rw [hW]; simp (disch := decide) only [ex_hi, ex_lo, ex_all, Nat.reduceSub]
  exact roundTrip_one hW' rfl rfl wf24_6 rfl wf30_2 (by
    rw [decodeOne_26 _ _ wf24_6]
    simp only [decodeVsfu, ↓reduceIte, BitVec.reduceEq, and_false, false_and, and_self, not_true_eq_false, and_true, true_and, wf12_4, wf0_6, wf20_4, wf16_4, wf8_4, ETy.ofCode_code, wf6_2])

theorem RoundTrip.vrsq (o : V2) : RoundTrip.Statement (.vrsq o) := by
  obtain ⟨q, d, a, t, m⟩ := o
  generalize hW' : encode0 (.vrsq ⟨q, d, a, t, m⟩) = W
  have hW : W = q.code ++ 0x26#6 ++ d ++ a ++ 0x0#4 ++ t.code ++ m ++ 0x1#6 := hW'.symm
  have wf0_6 : W.extractLsb' 0 6 = 0x1#6 := by rw [hW]; simp (disch := decide) only [ex_hi, ex_lo, ex_all, Nat.reduceSub]
  have wf12_4 : W.extractLsb' 12 4 = 0x0#4 := by rw [hW]; simp (disch := decide) only [ex_hi, ex_lo, ex_all, Nat.reduceSub]
  have wf20_4 : W.extractLsb' 20 4 = d := by rw [hW]; simp (disch := decide) only [ex_hi, ex_lo, ex_all, Nat.reduceSub]
  have wf16_4 : W.extractLsb' 16 4 = a := by rw [hW]; simp (disch := decide) only [ex_hi, ex_lo, ex_all, Nat.reduceSub]
  have wf8_4 : W.extractLsb' 8 4 = t.code := by rw [hW]; simp (disch := decide) only [ex_hi, ex_lo, ex_all, Nat.reduceSub]
  have wf6_2 : W.extractLsb' 6 2 = m := by rw [hW]; simp (disch := decide) only [ex_hi, ex_lo, ex_all, Nat.reduceSub]
  have wf24_6 : W.extractLsb' 24 6 = 0x26#6 := by rw [hW]; simp (disch := decide) only [ex_hi, ex_lo, ex_all, Nat.reduceSub]
  have wf30_2 : W.extractLsb' 30 2 = q.code := by rw [hW]; simp (disch := decide) only [ex_hi, ex_lo, ex_all, Nat.reduceSub]
  exact roundTrip_one hW' rfl rfl wf24_6 rfl wf30_2 (by
    rw [decodeOne_26 _ _ wf24_6]
    simp only [decodeVsfu, ↓reduceIte, BitVec.reduceEq, and_false, false_and, and_self, not_true_eq_false, and_true, true_and, wf0_6, wf12_4, wf20_4, wf16_4, wf8_4, ETy.ofCode_code, wf6_2])

theorem RoundTrip.vrefRcp (o : V3) : RoundTrip.Statement (.vrefRcp o) := by
  obtain ⟨q, d, a, b, t, m⟩ := o
  generalize hW' : encode0 (.vrefRcp ⟨q, d, a, b, t, m⟩) = W
  have hW : W = q.code ++ 0x26#6 ++ d ++ a ++ b ++ t.code ++ m ++ 0x2#6 := hW'.symm
  have wf0_6 : W.extractLsb' 0 6 = 0x2#6 := by rw [hW]; simp (disch := decide) only [ex_hi, ex_lo, ex_all, Nat.reduceSub]
  have wf20_4 : W.extractLsb' 20 4 = d := by rw [hW]; simp (disch := decide) only [ex_hi, ex_lo, ex_all, Nat.reduceSub]
  have wf16_4 : W.extractLsb' 16 4 = a := by rw [hW]; simp (disch := decide) only [ex_hi, ex_lo, ex_all, Nat.reduceSub]
  have wf12_4 : W.extractLsb' 12 4 = b := by rw [hW]; simp (disch := decide) only [ex_hi, ex_lo, ex_all, Nat.reduceSub]
  have wf8_4 : W.extractLsb' 8 4 = t.code := by rw [hW]; simp (disch := decide) only [ex_hi, ex_lo, ex_all, Nat.reduceSub]
  have wf6_2 : W.extractLsb' 6 2 = m := by rw [hW]; simp (disch := decide) only [ex_hi, ex_lo, ex_all, Nat.reduceSub]
  have wf24_6 : W.extractLsb' 24 6 = 0x26#6 := by rw [hW]; simp (disch := decide) only [ex_hi, ex_lo, ex_all, Nat.reduceSub]
  have wf30_2 : W.extractLsb' 30 2 = q.code := by rw [hW]; simp (disch := decide) only [ex_hi, ex_lo, ex_all, Nat.reduceSub]
  exact roundTrip_one hW' rfl rfl wf24_6 rfl wf30_2 (by
    rw [decodeOne_26 _ _ wf24_6]
    simp only [decodeVsfu, ↓reduceIte, BitVec.reduceEq, and_false, false_and, and_self, not_true_eq_false, and_true, true_and, wf0_6, wf20_4, wf16_4, wf12_4, wf8_4, ETy.ofCode_code, wf6_2])

theorem RoundTrip.vrefRsq (o : V3) : RoundTrip.Statement (.vrefRsq o) := by
  obtain ⟨q, d, a, b, t, m⟩ := o
  generalize hW' : encode0 (.vrefRsq ⟨q, d, a, b, t, m⟩) = W
  have hW : W = q.code ++ 0x26#6 ++ d ++ a ++ b ++ t.code ++ m ++ 0x3#6 := hW'.symm
  have wf0_6 : W.extractLsb' 0 6 = 0x3#6 := by rw [hW]; simp (disch := decide) only [ex_hi, ex_lo, ex_all, Nat.reduceSub]
  have wf20_4 : W.extractLsb' 20 4 = d := by rw [hW]; simp (disch := decide) only [ex_hi, ex_lo, ex_all, Nat.reduceSub]
  have wf16_4 : W.extractLsb' 16 4 = a := by rw [hW]; simp (disch := decide) only [ex_hi, ex_lo, ex_all, Nat.reduceSub]
  have wf12_4 : W.extractLsb' 12 4 = b := by rw [hW]; simp (disch := decide) only [ex_hi, ex_lo, ex_all, Nat.reduceSub]
  have wf8_4 : W.extractLsb' 8 4 = t.code := by rw [hW]; simp (disch := decide) only [ex_hi, ex_lo, ex_all, Nat.reduceSub]
  have wf6_2 : W.extractLsb' 6 2 = m := by rw [hW]; simp (disch := decide) only [ex_hi, ex_lo, ex_all, Nat.reduceSub]
  have wf24_6 : W.extractLsb' 24 6 = 0x26#6 := by rw [hW]; simp (disch := decide) only [ex_hi, ex_lo, ex_all, Nat.reduceSub]
  have wf30_2 : W.extractLsb' 30 2 = q.code := by rw [hW]; simp (disch := decide) only [ex_hi, ex_lo, ex_all, Nat.reduceSub]
  exact roundTrip_one hW' rfl rfl wf24_6 rfl wf30_2 (by
    rw [decodeOne_26 _ _ wf24_6]
    simp only [decodeVsfu, ↓reduceIte, BitVec.reduceEq, and_false, false_and, and_self, not_true_eq_false, and_true, true_and, wf0_6, wf20_4, wf16_4, wf12_4, wf8_4, ETy.ofCode_code, wf6_2])

theorem RoundTrip.vsqrt (o : V2) : RoundTrip.Statement (.vsqrt o) := by
  obtain ⟨q, d, a, t, m⟩ := o
  generalize hW' : encode0 (.vsqrt ⟨q, d, a, t, m⟩) = W
  have hW : W = q.code ++ 0x26#6 ++ d ++ a ++ 0x0#4 ++ t.code ++ m ++ 0x4#6 := hW'.symm
  have wf0_6 : W.extractLsb' 0 6 = 0x4#6 := by rw [hW]; simp (disch := decide) only [ex_hi, ex_lo, ex_all, Nat.reduceSub]
  have wf12_4 : W.extractLsb' 12 4 = 0x0#4 := by rw [hW]; simp (disch := decide) only [ex_hi, ex_lo, ex_all, Nat.reduceSub]
  have wf20_4 : W.extractLsb' 20 4 = d := by rw [hW]; simp (disch := decide) only [ex_hi, ex_lo, ex_all, Nat.reduceSub]
  have wf16_4 : W.extractLsb' 16 4 = a := by rw [hW]; simp (disch := decide) only [ex_hi, ex_lo, ex_all, Nat.reduceSub]
  have wf8_4 : W.extractLsb' 8 4 = t.code := by rw [hW]; simp (disch := decide) only [ex_hi, ex_lo, ex_all, Nat.reduceSub]
  have wf6_2 : W.extractLsb' 6 2 = m := by rw [hW]; simp (disch := decide) only [ex_hi, ex_lo, ex_all, Nat.reduceSub]
  have wf24_6 : W.extractLsb' 24 6 = 0x26#6 := by rw [hW]; simp (disch := decide) only [ex_hi, ex_lo, ex_all, Nat.reduceSub]
  have wf30_2 : W.extractLsb' 30 2 = q.code := by rw [hW]; simp (disch := decide) only [ex_hi, ex_lo, ex_all, Nat.reduceSub]
  exact roundTrip_one hW' rfl rfl wf24_6 rfl wf30_2 (by
    rw [decodeOne_26 _ _ wf24_6]
    simp only [decodeVsfu, ↓reduceIte, BitVec.reduceEq, and_false, false_and, and_self, not_true_eq_false, and_true, true_and, wf0_6, wf12_4, wf20_4, wf16_4, wf8_4, ETy.ofCode_code, wf6_2])

theorem RoundTrip.vexp2 (o : V2) : RoundTrip.Statement (.vexp2 o) := by
  obtain ⟨q, d, a, t, m⟩ := o
  generalize hW' : encode0 (.vexp2 ⟨q, d, a, t, m⟩) = W
  have hW : W = q.code ++ 0x26#6 ++ d ++ a ++ 0x0#4 ++ t.code ++ m ++ 0x5#6 := hW'.symm
  have wf0_6 : W.extractLsb' 0 6 = 0x5#6 := by rw [hW]; simp (disch := decide) only [ex_hi, ex_lo, ex_all, Nat.reduceSub]
  have wf12_4 : W.extractLsb' 12 4 = 0x0#4 := by rw [hW]; simp (disch := decide) only [ex_hi, ex_lo, ex_all, Nat.reduceSub]
  have wf20_4 : W.extractLsb' 20 4 = d := by rw [hW]; simp (disch := decide) only [ex_hi, ex_lo, ex_all, Nat.reduceSub]
  have wf16_4 : W.extractLsb' 16 4 = a := by rw [hW]; simp (disch := decide) only [ex_hi, ex_lo, ex_all, Nat.reduceSub]
  have wf8_4 : W.extractLsb' 8 4 = t.code := by rw [hW]; simp (disch := decide) only [ex_hi, ex_lo, ex_all, Nat.reduceSub]
  have wf6_2 : W.extractLsb' 6 2 = m := by rw [hW]; simp (disch := decide) only [ex_hi, ex_lo, ex_all, Nat.reduceSub]
  have wf24_6 : W.extractLsb' 24 6 = 0x26#6 := by rw [hW]; simp (disch := decide) only [ex_hi, ex_lo, ex_all, Nat.reduceSub]
  have wf30_2 : W.extractLsb' 30 2 = q.code := by rw [hW]; simp (disch := decide) only [ex_hi, ex_lo, ex_all, Nat.reduceSub]
  exact roundTrip_one hW' rfl rfl wf24_6 rfl wf30_2 (by
    rw [decodeOne_26 _ _ wf24_6]
    simp only [decodeVsfu, ↓reduceIte, BitVec.reduceEq, and_false, false_and, and_self, not_true_eq_false, and_true, true_and, wf0_6, wf12_4, wf20_4, wf16_4, wf8_4, ETy.ofCode_code, wf6_2])

theorem RoundTrip.vexp (o : V2) : RoundTrip.Statement (.vexp o) := by
  obtain ⟨q, d, a, t, m⟩ := o
  generalize hW' : encode0 (.vexp ⟨q, d, a, t, m⟩) = W
  have hW : W = q.code ++ 0x26#6 ++ d ++ a ++ 0x0#4 ++ t.code ++ m ++ 0x6#6 := hW'.symm
  have wf0_6 : W.extractLsb' 0 6 = 0x6#6 := by rw [hW]; simp (disch := decide) only [ex_hi, ex_lo, ex_all, Nat.reduceSub]
  have wf12_4 : W.extractLsb' 12 4 = 0x0#4 := by rw [hW]; simp (disch := decide) only [ex_hi, ex_lo, ex_all, Nat.reduceSub]
  have wf20_4 : W.extractLsb' 20 4 = d := by rw [hW]; simp (disch := decide) only [ex_hi, ex_lo, ex_all, Nat.reduceSub]
  have wf16_4 : W.extractLsb' 16 4 = a := by rw [hW]; simp (disch := decide) only [ex_hi, ex_lo, ex_all, Nat.reduceSub]
  have wf8_4 : W.extractLsb' 8 4 = t.code := by rw [hW]; simp (disch := decide) only [ex_hi, ex_lo, ex_all, Nat.reduceSub]
  have wf6_2 : W.extractLsb' 6 2 = m := by rw [hW]; simp (disch := decide) only [ex_hi, ex_lo, ex_all, Nat.reduceSub]
  have wf24_6 : W.extractLsb' 24 6 = 0x26#6 := by rw [hW]; simp (disch := decide) only [ex_hi, ex_lo, ex_all, Nat.reduceSub]
  have wf30_2 : W.extractLsb' 30 2 = q.code := by rw [hW]; simp (disch := decide) only [ex_hi, ex_lo, ex_all, Nat.reduceSub]
  exact roundTrip_one hW' rfl rfl wf24_6 rfl wf30_2 (by
    rw [decodeOne_26 _ _ wf24_6]
    simp only [decodeVsfu, ↓reduceIte, BitVec.reduceEq, and_false, false_and, and_self, not_true_eq_false, and_true, true_and, wf0_6, wf12_4, wf20_4, wf16_4, wf8_4, ETy.ofCode_code, wf6_2])

theorem RoundTrip.vlog2 (o : V2) : RoundTrip.Statement (.vlog2 o) := by
  obtain ⟨q, d, a, t, m⟩ := o
  generalize hW' : encode0 (.vlog2 ⟨q, d, a, t, m⟩) = W
  have hW : W = q.code ++ 0x26#6 ++ d ++ a ++ 0x0#4 ++ t.code ++ m ++ 0x7#6 := hW'.symm
  have wf0_6 : W.extractLsb' 0 6 = 0x7#6 := by rw [hW]; simp (disch := decide) only [ex_hi, ex_lo, ex_all, Nat.reduceSub]
  have wf12_4 : W.extractLsb' 12 4 = 0x0#4 := by rw [hW]; simp (disch := decide) only [ex_hi, ex_lo, ex_all, Nat.reduceSub]
  have wf20_4 : W.extractLsb' 20 4 = d := by rw [hW]; simp (disch := decide) only [ex_hi, ex_lo, ex_all, Nat.reduceSub]
  have wf16_4 : W.extractLsb' 16 4 = a := by rw [hW]; simp (disch := decide) only [ex_hi, ex_lo, ex_all, Nat.reduceSub]
  have wf8_4 : W.extractLsb' 8 4 = t.code := by rw [hW]; simp (disch := decide) only [ex_hi, ex_lo, ex_all, Nat.reduceSub]
  have wf6_2 : W.extractLsb' 6 2 = m := by rw [hW]; simp (disch := decide) only [ex_hi, ex_lo, ex_all, Nat.reduceSub]
  have wf24_6 : W.extractLsb' 24 6 = 0x26#6 := by rw [hW]; simp (disch := decide) only [ex_hi, ex_lo, ex_all, Nat.reduceSub]
  have wf30_2 : W.extractLsb' 30 2 = q.code := by rw [hW]; simp (disch := decide) only [ex_hi, ex_lo, ex_all, Nat.reduceSub]
  exact roundTrip_one hW' rfl rfl wf24_6 rfl wf30_2 (by
    rw [decodeOne_26 _ _ wf24_6]
    simp only [decodeVsfu, ↓reduceIte, BitVec.reduceEq, and_false, false_and, and_self, not_true_eq_false, and_true, true_and, wf0_6, wf12_4, wf20_4, wf16_4, wf8_4, ETy.ofCode_code, wf6_2])

theorem RoundTrip.vtanh (o : V2) : RoundTrip.Statement (.vtanh o) := by
  obtain ⟨q, d, a, t, m⟩ := o
  generalize hW' : encode0 (.vtanh ⟨q, d, a, t, m⟩) = W
  have hW : W = q.code ++ 0x26#6 ++ d ++ a ++ 0x0#4 ++ t.code ++ m ++ 0x8#6 := hW'.symm
  have wf0_6 : W.extractLsb' 0 6 = 0x8#6 := by rw [hW]; simp (disch := decide) only [ex_hi, ex_lo, ex_all, Nat.reduceSub]
  have wf12_4 : W.extractLsb' 12 4 = 0x0#4 := by rw [hW]; simp (disch := decide) only [ex_hi, ex_lo, ex_all, Nat.reduceSub]
  have wf20_4 : W.extractLsb' 20 4 = d := by rw [hW]; simp (disch := decide) only [ex_hi, ex_lo, ex_all, Nat.reduceSub]
  have wf16_4 : W.extractLsb' 16 4 = a := by rw [hW]; simp (disch := decide) only [ex_hi, ex_lo, ex_all, Nat.reduceSub]
  have wf8_4 : W.extractLsb' 8 4 = t.code := by rw [hW]; simp (disch := decide) only [ex_hi, ex_lo, ex_all, Nat.reduceSub]
  have wf6_2 : W.extractLsb' 6 2 = m := by rw [hW]; simp (disch := decide) only [ex_hi, ex_lo, ex_all, Nat.reduceSub]
  have wf24_6 : W.extractLsb' 24 6 = 0x26#6 := by rw [hW]; simp (disch := decide) only [ex_hi, ex_lo, ex_all, Nat.reduceSub]
  have wf30_2 : W.extractLsb' 30 2 = q.code := by rw [hW]; simp (disch := decide) only [ex_hi, ex_lo, ex_all, Nat.reduceSub]
  exact roundTrip_one hW' rfl rfl wf24_6 rfl wf30_2 (by
    rw [decodeOne_26 _ _ wf24_6]
    simp only [decodeVsfu, ↓reduceIte, BitVec.reduceEq, and_false, false_and, and_self, not_true_eq_false, and_true, true_and, wf0_6, wf12_4, wf20_4, wf16_4, wf8_4, ETy.ofCode_code, wf6_2])

theorem RoundTrip.vsig (o : V2) : RoundTrip.Statement (.vsig o) := by
  obtain ⟨q, d, a, t, m⟩ := o
  generalize hW' : encode0 (.vsig ⟨q, d, a, t, m⟩) = W
  have hW : W = q.code ++ 0x26#6 ++ d ++ a ++ 0x0#4 ++ t.code ++ m ++ 0x9#6 := hW'.symm
  have wf0_6 : W.extractLsb' 0 6 = 0x9#6 := by rw [hW]; simp (disch := decide) only [ex_hi, ex_lo, ex_all, Nat.reduceSub]
  have wf12_4 : W.extractLsb' 12 4 = 0x0#4 := by rw [hW]; simp (disch := decide) only [ex_hi, ex_lo, ex_all, Nat.reduceSub]
  have wf20_4 : W.extractLsb' 20 4 = d := by rw [hW]; simp (disch := decide) only [ex_hi, ex_lo, ex_all, Nat.reduceSub]
  have wf16_4 : W.extractLsb' 16 4 = a := by rw [hW]; simp (disch := decide) only [ex_hi, ex_lo, ex_all, Nat.reduceSub]
  have wf8_4 : W.extractLsb' 8 4 = t.code := by rw [hW]; simp (disch := decide) only [ex_hi, ex_lo, ex_all, Nat.reduceSub]
  have wf6_2 : W.extractLsb' 6 2 = m := by rw [hW]; simp (disch := decide) only [ex_hi, ex_lo, ex_all, Nat.reduceSub]
  have wf24_6 : W.extractLsb' 24 6 = 0x26#6 := by rw [hW]; simp (disch := decide) only [ex_hi, ex_lo, ex_all, Nat.reduceSub]
  have wf30_2 : W.extractLsb' 30 2 = q.code := by rw [hW]; simp (disch := decide) only [ex_hi, ex_lo, ex_all, Nat.reduceSub]
  exact roundTrip_one hW' rfl rfl wf24_6 rfl wf30_2 (by
    rw [decodeOne_26 _ _ wf24_6]
    simp only [decodeVsfu, ↓reduceIte, BitVec.reduceEq, and_false, false_and, and_self, not_true_eq_false, and_true, true_and, wf0_6, wf12_4, wf20_4, wf16_4, wf8_4, ETy.ofCode_code, wf6_2])

theorem RoundTrip.mand (o : M3) : RoundTrip.Statement (.mand o) := by
  obtain ⟨q, d, a, b⟩ := o
  generalize hW' : encode0 (.mand ⟨q, d, a, b⟩) = W
  have hW : W = q.code ++ 0x27#6 ++ 0x0#2 ++ d ++ 0x0#2 ++ a ++ 0x0#2 ++ b ++ 0x0#12 := hW'.symm
  have wf22_2 : W.extractLsb' 22 2 = 0x0#2 := by rw [hW]; simp (disch := decide) only [ex_hi, ex_lo, ex_all, Nat.reduceSub]
  have wf18_2 : W.extractLsb' 18 2 = 0x0#2 := by rw [hW]; simp (disch := decide) only [ex_hi, ex_lo, ex_all, Nat.reduceSub]
  have wf14_2 : W.extractLsb' 14 2 = 0x0#2 := by rw [hW]; simp (disch := decide) only [ex_hi, ex_lo, ex_all, Nat.reduceSub]
  have wf0_12 : W.extractLsb' 0 12 = 0x0#12 := by rw [hW]; simp (disch := decide) only [ex_hi, ex_lo, ex_all, Nat.reduceSub]
  have wf20_2 : W.extractLsb' 20 2 = d := by rw [hW]; simp (disch := decide) only [ex_hi, ex_lo, ex_all, Nat.reduceSub]
  have wf16_2 : W.extractLsb' 16 2 = a := by rw [hW]; simp (disch := decide) only [ex_hi, ex_lo, ex_all, Nat.reduceSub]
  have wf12_2 : W.extractLsb' 12 2 = b := by rw [hW]; simp (disch := decide) only [ex_hi, ex_lo, ex_all, Nat.reduceSub]
  have wf24_6 : W.extractLsb' 24 6 = 0x27#6 := by rw [hW]; simp (disch := decide) only [ex_hi, ex_lo, ex_all, Nat.reduceSub]
  have wf30_2 : W.extractLsb' 30 2 = q.code := by rw [hW]; simp (disch := decide) only [ex_hi, ex_lo, ex_all, Nat.reduceSub]
  exact roundTrip_one hW' rfl rfl wf24_6 rfl wf30_2 (by
    rw [decodeOne_27 _ _ wf24_6]
    simp only [decodeVmask, ↓reduceIte, BitVec.reduceEq, and_false, false_and, and_self, not_true_eq_false, and_true, true_and, wf22_2, wf18_2, wf14_2, wf0_12, wf20_2, wf16_2, wf12_2])

theorem RoundTrip.mor (o : M3) : RoundTrip.Statement (.mor o) := by
  obtain ⟨q, d, a, b⟩ := o
  generalize hW' : encode0 (.mor ⟨q, d, a, b⟩) = W
  have hW : W = q.code ++ 0x27#6 ++ 0x0#2 ++ d ++ 0x0#2 ++ a ++ 0x0#2 ++ b ++ 0x1#12 := hW'.symm
  have wf0_12 : W.extractLsb' 0 12 = 0x1#12 := by rw [hW]; simp (disch := decide) only [ex_hi, ex_lo, ex_all, Nat.reduceSub]
  have wf22_2 : W.extractLsb' 22 2 = 0x0#2 := by rw [hW]; simp (disch := decide) only [ex_hi, ex_lo, ex_all, Nat.reduceSub]
  have wf18_2 : W.extractLsb' 18 2 = 0x0#2 := by rw [hW]; simp (disch := decide) only [ex_hi, ex_lo, ex_all, Nat.reduceSub]
  have wf14_2 : W.extractLsb' 14 2 = 0x0#2 := by rw [hW]; simp (disch := decide) only [ex_hi, ex_lo, ex_all, Nat.reduceSub]
  have wf20_2 : W.extractLsb' 20 2 = d := by rw [hW]; simp (disch := decide) only [ex_hi, ex_lo, ex_all, Nat.reduceSub]
  have wf16_2 : W.extractLsb' 16 2 = a := by rw [hW]; simp (disch := decide) only [ex_hi, ex_lo, ex_all, Nat.reduceSub]
  have wf12_2 : W.extractLsb' 12 2 = b := by rw [hW]; simp (disch := decide) only [ex_hi, ex_lo, ex_all, Nat.reduceSub]
  have wf24_6 : W.extractLsb' 24 6 = 0x27#6 := by rw [hW]; simp (disch := decide) only [ex_hi, ex_lo, ex_all, Nat.reduceSub]
  have wf30_2 : W.extractLsb' 30 2 = q.code := by rw [hW]; simp (disch := decide) only [ex_hi, ex_lo, ex_all, Nat.reduceSub]
  exact roundTrip_one hW' rfl rfl wf24_6 rfl wf30_2 (by
    rw [decodeOne_27 _ _ wf24_6]
    simp only [decodeVmask, ↓reduceIte, BitVec.reduceEq, and_false, false_and, and_self, not_true_eq_false, and_true, true_and, wf0_12, wf22_2, wf18_2, wf14_2, wf20_2, wf16_2, wf12_2])

theorem RoundTrip.mxor (o : M3) : RoundTrip.Statement (.mxor o) := by
  obtain ⟨q, d, a, b⟩ := o
  generalize hW' : encode0 (.mxor ⟨q, d, a, b⟩) = W
  have hW : W = q.code ++ 0x27#6 ++ 0x0#2 ++ d ++ 0x0#2 ++ a ++ 0x0#2 ++ b ++ 0x2#12 := hW'.symm
  have wf0_12 : W.extractLsb' 0 12 = 0x2#12 := by rw [hW]; simp (disch := decide) only [ex_hi, ex_lo, ex_all, Nat.reduceSub]
  have wf22_2 : W.extractLsb' 22 2 = 0x0#2 := by rw [hW]; simp (disch := decide) only [ex_hi, ex_lo, ex_all, Nat.reduceSub]
  have wf18_2 : W.extractLsb' 18 2 = 0x0#2 := by rw [hW]; simp (disch := decide) only [ex_hi, ex_lo, ex_all, Nat.reduceSub]
  have wf14_2 : W.extractLsb' 14 2 = 0x0#2 := by rw [hW]; simp (disch := decide) only [ex_hi, ex_lo, ex_all, Nat.reduceSub]
  have wf20_2 : W.extractLsb' 20 2 = d := by rw [hW]; simp (disch := decide) only [ex_hi, ex_lo, ex_all, Nat.reduceSub]
  have wf16_2 : W.extractLsb' 16 2 = a := by rw [hW]; simp (disch := decide) only [ex_hi, ex_lo, ex_all, Nat.reduceSub]
  have wf12_2 : W.extractLsb' 12 2 = b := by rw [hW]; simp (disch := decide) only [ex_hi, ex_lo, ex_all, Nat.reduceSub]
  have wf24_6 : W.extractLsb' 24 6 = 0x27#6 := by rw [hW]; simp (disch := decide) only [ex_hi, ex_lo, ex_all, Nat.reduceSub]
  have wf30_2 : W.extractLsb' 30 2 = q.code := by rw [hW]; simp (disch := decide) only [ex_hi, ex_lo, ex_all, Nat.reduceSub]
  exact roundTrip_one hW' rfl rfl wf24_6 rfl wf30_2 (by
    rw [decodeOne_27 _ _ wf24_6]
    simp only [decodeVmask, ↓reduceIte, BitVec.reduceEq, and_false, false_and, and_self, not_true_eq_false, and_true, true_and, wf0_12, wf22_2, wf18_2, wf14_2, wf20_2, wf16_2, wf12_2])

theorem RoundTrip.mandn (o : M3) : RoundTrip.Statement (.mandn o) := by
  obtain ⟨q, d, a, b⟩ := o
  generalize hW' : encode0 (.mandn ⟨q, d, a, b⟩) = W
  have hW : W = q.code ++ 0x27#6 ++ 0x0#2 ++ d ++ 0x0#2 ++ a ++ 0x0#2 ++ b ++ 0x3#12 := hW'.symm
  have wf0_12 : W.extractLsb' 0 12 = 0x3#12 := by rw [hW]; simp (disch := decide) only [ex_hi, ex_lo, ex_all, Nat.reduceSub]
  have wf22_2 : W.extractLsb' 22 2 = 0x0#2 := by rw [hW]; simp (disch := decide) only [ex_hi, ex_lo, ex_all, Nat.reduceSub]
  have wf18_2 : W.extractLsb' 18 2 = 0x0#2 := by rw [hW]; simp (disch := decide) only [ex_hi, ex_lo, ex_all, Nat.reduceSub]
  have wf14_2 : W.extractLsb' 14 2 = 0x0#2 := by rw [hW]; simp (disch := decide) only [ex_hi, ex_lo, ex_all, Nat.reduceSub]
  have wf20_2 : W.extractLsb' 20 2 = d := by rw [hW]; simp (disch := decide) only [ex_hi, ex_lo, ex_all, Nat.reduceSub]
  have wf16_2 : W.extractLsb' 16 2 = a := by rw [hW]; simp (disch := decide) only [ex_hi, ex_lo, ex_all, Nat.reduceSub]
  have wf12_2 : W.extractLsb' 12 2 = b := by rw [hW]; simp (disch := decide) only [ex_hi, ex_lo, ex_all, Nat.reduceSub]
  have wf24_6 : W.extractLsb' 24 6 = 0x27#6 := by rw [hW]; simp (disch := decide) only [ex_hi, ex_lo, ex_all, Nat.reduceSub]
  have wf30_2 : W.extractLsb' 30 2 = q.code := by rw [hW]; simp (disch := decide) only [ex_hi, ex_lo, ex_all, Nat.reduceSub]
  exact roundTrip_one hW' rfl rfl wf24_6 rfl wf30_2 (by
    rw [decodeOne_27 _ _ wf24_6]
    simp only [decodeVmask, ↓reduceIte, BitVec.reduceEq, and_false, false_and, and_self, not_true_eq_false, and_true, true_and, wf0_12, wf22_2, wf18_2, wf14_2, wf20_2, wf16_2, wf12_2])

theorem RoundTrip.mnot (o : M2) : RoundTrip.Statement (.mnot o) := by
  obtain ⟨q, d, a⟩ := o
  generalize hW' : encode0 (.mnot ⟨q, d, a⟩) = W
  have hW : W = q.code ++ 0x27#6 ++ 0x0#2 ++ d ++ 0x0#2 ++ a ++ 0x4#16 := hW'.symm
  have wf0_12 : W.extractLsb' 0 12 = 4#12 := by rw [hW]; simp (disch := decide) only [ex_hi, ex_lo, ex_all, Nat.reduceSub]; rfl
  have wf22_2 : W.extractLsb' 22 2 = 0x0#2 := by rw [hW]; simp (disch := decide) only [ex_hi, ex_lo, ex_all, Nat.reduceSub]
  have wf18_2 : W.extractLsb' 18 2 = 0x0#2 := by rw [hW]; simp (disch := decide) only [ex_hi, ex_lo, ex_all, Nat.reduceSub]
  have wf0_16 : W.extractLsb' 0 16 = 0x4#16 := by rw [hW]; simp (disch := decide) only [ex_hi, ex_lo, ex_all, Nat.reduceSub]
  have wf20_2 : W.extractLsb' 20 2 = d := by rw [hW]; simp (disch := decide) only [ex_hi, ex_lo, ex_all, Nat.reduceSub]
  have wf16_2 : W.extractLsb' 16 2 = a := by rw [hW]; simp (disch := decide) only [ex_hi, ex_lo, ex_all, Nat.reduceSub]
  have wf24_6 : W.extractLsb' 24 6 = 0x27#6 := by rw [hW]; simp (disch := decide) only [ex_hi, ex_lo, ex_all, Nat.reduceSub]
  have wf30_2 : W.extractLsb' 30 2 = q.code := by rw [hW]; simp (disch := decide) only [ex_hi, ex_lo, ex_all, Nat.reduceSub]
  exact roundTrip_one hW' rfl rfl wf24_6 rfl wf30_2 (by
    rw [decodeOne_27 _ _ wf24_6]
    simp only [decodeVmask, ↓reduceIte, BitVec.reduceEq, and_false, false_and, and_self, not_true_eq_false, and_true, true_and, wf0_12, wf22_2, wf18_2, wf0_16, wf20_2, wf16_2])

theorem RoundTrip.mmov (o : M2) : RoundTrip.Statement (.mmov o) := by
  obtain ⟨q, d, a⟩ := o
  generalize hW' : encode0 (.mmov ⟨q, d, a⟩) = W
  have hW : W = q.code ++ 0x27#6 ++ 0x0#2 ++ d ++ 0x0#2 ++ a ++ 0x5#16 := hW'.symm
  have wf0_12 : W.extractLsb' 0 12 = 5#12 := by rw [hW]; simp (disch := decide) only [ex_hi, ex_lo, ex_all, Nat.reduceSub]; rfl
  have wf0_16 : W.extractLsb' 0 16 = 0x5#16 := by rw [hW]; simp (disch := decide) only [ex_hi, ex_lo, ex_all, Nat.reduceSub]
  have wf22_2 : W.extractLsb' 22 2 = 0x0#2 := by rw [hW]; simp (disch := decide) only [ex_hi, ex_lo, ex_all, Nat.reduceSub]
  have wf18_2 : W.extractLsb' 18 2 = 0x0#2 := by rw [hW]; simp (disch := decide) only [ex_hi, ex_lo, ex_all, Nat.reduceSub]
  have wf20_2 : W.extractLsb' 20 2 = d := by rw [hW]; simp (disch := decide) only [ex_hi, ex_lo, ex_all, Nat.reduceSub]
  have wf16_2 : W.extractLsb' 16 2 = a := by rw [hW]; simp (disch := decide) only [ex_hi, ex_lo, ex_all, Nat.reduceSub]
  have wf24_6 : W.extractLsb' 24 6 = 0x27#6 := by rw [hW]; simp (disch := decide) only [ex_hi, ex_lo, ex_all, Nat.reduceSub]
  have wf30_2 : W.extractLsb' 30 2 = q.code := by rw [hW]; simp (disch := decide) only [ex_hi, ex_lo, ex_all, Nat.reduceSub]
  exact roundTrip_one hW' rfl rfl wf24_6 rfl wf30_2 (by
    rw [decodeOne_27 _ _ wf24_6]
    simp only [decodeVmask, ↓reduceIte, BitVec.reduceEq, and_false, false_and, and_self, not_true_eq_false, and_true, true_and, wf0_12, wf0_16, wf22_2, wf18_2, wf20_2, wf16_2])

theorem RoundTrip.mfirst (o : M2T) : RoundTrip.Statement (.mfirst o) := by
  obtain ⟨q, d, a, t⟩ := o
  generalize hW' : encode0 (.mfirst ⟨q, d, a, t⟩) = W
  have hW : W = q.code ++ 0x27#6 ++ 0x0#2 ++ d ++ 0x0#2 ++ a ++ 0x0#4 ++ t.code ++ 0x6#8 := hW'.symm
  have wf0_8 : W.extractLsb' 0 8 = 0x6#8 := by rw [hW]; simp (disch := decide) only [ex_hi, ex_lo, ex_all, Nat.reduceSub]
  have wn0_12_0 : ¬ W.extractLsb' 0 12 = 0#12 := slice_ne (t := 0) wf0_8 (by decide) (by decide)
  have wn0_12_1 : ¬ W.extractLsb' 0 12 = 1#12 := slice_ne (t := 0) wf0_8 (by decide) (by decide)
  have wn0_12_2 : ¬ W.extractLsb' 0 12 = 2#12 := slice_ne (t := 0) wf0_8 (by decide) (by decide)
  have wn0_12_3 : ¬ W.extractLsb' 0 12 = 3#12 := slice_ne (t := 0) wf0_8 (by decide) (by decide)
  have wn0_16_4 : ¬ W.extractLsb' 0 16 = 4#16 := slice_ne (t := 0) wf0_8 (by decide) (by decide)
  have wn0_16_5 : ¬ W.extractLsb' 0 16 = 5#16 := slice_ne (t := 0) wf0_8 (by decide) (by decide)
  have wf22_2 : W.extractLsb' 22 2 = 0x0#2 := by rw [hW]; simp (disch := decide) only [ex_hi, ex_lo, ex_all, Nat.reduceSub]
  have wf18_2 : W.extractLsb' 18 2 = 0x0#2 := by rw [hW]; simp (disch := decide) only [ex_hi, ex_lo, ex_all, Nat.reduceSub]
  have wf12_4 : W.extractLsb' 12 4 = 0x0#4 := by rw [hW]; simp (disch := decide) only [ex_hi, ex_lo, ex_all, Nat.reduceSub]
  have wf20_2 : W.extractLsb' 20 2 = d := by rw [hW]; simp (disch := decide) only [ex_hi, ex_lo, ex_all, Nat.reduceSub]
  have wf16_2 : W.extractLsb' 16 2 = a := by rw [hW]; simp (disch := decide) only [ex_hi, ex_lo, ex_all, Nat.reduceSub]
  have wf8_4 : W.extractLsb' 8 4 = t.code := by rw [hW]; simp (disch := decide) only [ex_hi, ex_lo, ex_all, Nat.reduceSub]
  have wf24_6 : W.extractLsb' 24 6 = 0x27#6 := by rw [hW]; simp (disch := decide) only [ex_hi, ex_lo, ex_all, Nat.reduceSub]
  have wf30_2 : W.extractLsb' 30 2 = q.code := by rw [hW]; simp (disch := decide) only [ex_hi, ex_lo, ex_all, Nat.reduceSub]
  exact roundTrip_one hW' rfl rfl wf24_6 rfl wf30_2 (by
    rw [decodeOne_27 _ _ wf24_6]
    simp only [decodeVmask, ↓reduceIte, BitVec.reduceEq, and_false, false_and, and_self, not_true_eq_false, and_true, true_and, wn0_12_0, wn0_12_1, wn0_12_2, wn0_12_3, wn0_16_4, wn0_16_5, wf22_2, wf18_2, wf12_4, wf0_8, wf20_2, wf16_2, wf8_4, ETy.ofCode_code])

theorem RoundTrip.viota (o : VIo) : RoundTrip.Statement (.viota o) := by
  obtain ⟨q, d, t, m⟩ := o
  generalize hW' : encode0 (.viota ⟨q, d, t, m⟩) = W
  have hW : W = q.code ++ 0x27#6 ++ d ++ 0x0#8 ++ t.code ++ m ++ 0x7#6 := hW'.symm
  have wf0_6 : W.extractLsb' 0 6 = 0x7#6 := by rw [hW]; simp (disch := decide) only [ex_hi, ex_lo, ex_all, Nat.reduceSub]
  have wn0_12_0 : ¬ W.extractLsb' 0 12 = 0#12 := slice_ne (t := 0) wf0_6 (by decide) (by decide)
  have wn0_12_1 : ¬ W.extractLsb' 0 12 = 1#12 := slice_ne (t := 0) wf0_6 (by decide) (by decide)
  have wn0_12_2 : ¬ W.extractLsb' 0 12 = 2#12 := slice_ne (t := 0) wf0_6 (by decide) (by decide)
  have wn0_12_3 : ¬ W.extractLsb' 0 12 = 3#12 := slice_ne (t := 0) wf0_6 (by decide) (by decide)
  have wn0_16_4 : ¬ W.extractLsb' 0 16 = 4#16 := slice_ne (t := 0) wf0_6 (by decide) (by decide)
  have wn0_16_5 : ¬ W.extractLsb' 0 16 = 5#16 := slice_ne (t := 0) wf0_6 (by decide) (by decide)
  have wn0_8_6 : ¬ W.extractLsb' 0 8 = 6#8 := slice_ne (t := 0) wf0_6 (by decide) (by decide)
  have wf12_8 : W.extractLsb' 12 8 = 0x0#8 := by rw [hW]; simp (disch := decide) only [ex_hi, ex_lo, ex_all, Nat.reduceSub]
  have wf20_4 : W.extractLsb' 20 4 = d := by rw [hW]; simp (disch := decide) only [ex_hi, ex_lo, ex_all, Nat.reduceSub]
  have wf8_4 : W.extractLsb' 8 4 = t.code := by rw [hW]; simp (disch := decide) only [ex_hi, ex_lo, ex_all, Nat.reduceSub]
  have wf6_2 : W.extractLsb' 6 2 = m := by rw [hW]; simp (disch := decide) only [ex_hi, ex_lo, ex_all, Nat.reduceSub]
  have wf24_6 : W.extractLsb' 24 6 = 0x27#6 := by rw [hW]; simp (disch := decide) only [ex_hi, ex_lo, ex_all, Nat.reduceSub]
  have wf30_2 : W.extractLsb' 30 2 = q.code := by rw [hW]; simp (disch := decide) only [ex_hi, ex_lo, ex_all, Nat.reduceSub]
  exact roundTrip_one hW' rfl rfl wf24_6 rfl wf30_2 (by
    rw [decodeOne_27 _ _ wf24_6]
    simp only [decodeVmask, ↓reduceIte, BitVec.reduceEq, and_false, false_and, and_self, not_true_eq_false, and_true, true_and, wn0_12_0, wn0_12_1, wn0_12_2, wn0_12_3, wn0_16_4, wn0_16_5, wn0_8_6, wf12_8, wf0_6, wf20_4, wf8_4, ETy.ofCode_code, wf6_2])

theorem RoundTrip.vmpopc (o : VPc) : RoundTrip.Statement (.vmpopc o) := by
  obtain ⟨q, d, a, t⟩ := o
  generalize hW' : encode0 (.vmpopc ⟨q, d, a, t⟩) = W
  have hW : W = q.code ++ 0x27#6 ++ d ++ 0x0#2 ++ a ++ 0x0#4 ++ t.code ++ 0x8#8 := hW'.symm
  have wf0_8 : W.extractLsb' 0 8 = 0x8#8 := by rw [hW]; simp (disch := decide) only [ex_hi, ex_lo, ex_all, Nat.reduceSub]
  have wn0_12_0 : ¬ W.extractLsb' 0 12 = 0#12 := slice_ne (t := 0) wf0_8 (by decide) (by decide)
  have wn0_12_1 : ¬ W.extractLsb' 0 12 = 1#12 := slice_ne (t := 0) wf0_8 (by decide) (by decide)
  have wn0_12_2 : ¬ W.extractLsb' 0 12 = 2#12 := slice_ne (t := 0) wf0_8 (by decide) (by decide)
  have wn0_12_3 : ¬ W.extractLsb' 0 12 = 3#12 := slice_ne (t := 0) wf0_8 (by decide) (by decide)
  have wn0_16_4 : ¬ W.extractLsb' 0 16 = 4#16 := slice_ne (t := 0) wf0_8 (by decide) (by decide)
  have wn0_16_5 : ¬ W.extractLsb' 0 16 = 5#16 := slice_ne (t := 0) wf0_8 (by decide) (by decide)
  have wf0_6 : W.extractLsb' 0 6 = 8#6 := by rw [hW]; simp (disch := decide) only [ex_hi, ex_lo, ex_all, Nat.reduceSub]; rfl
  have wf18_2 : W.extractLsb' 18 2 = 0x0#2 := by rw [hW]; simp (disch := decide) only [ex_hi, ex_lo, ex_all, Nat.reduceSub]
  have wf12_4 : W.extractLsb' 12 4 = 0x0#4 := by rw [hW]; simp (disch := decide) only [ex_hi, ex_lo, ex_all, Nat.reduceSub]
  have wf20_4 : W.extractLsb' 20 4 = d := by rw [hW]; simp (disch := decide) only [ex_hi, ex_lo, ex_all, Nat.reduceSub]
  have wf16_2 : W.extractLsb' 16 2 = a := by rw [hW]; simp (disch := decide) only [ex_hi, ex_lo, ex_all, Nat.reduceSub]
  have wf8_4 : W.extractLsb' 8 4 = t.code := by rw [hW]; simp (disch := decide) only [ex_hi, ex_lo, ex_all, Nat.reduceSub]
  have wf24_6 : W.extractLsb' 24 6 = 0x27#6 := by rw [hW]; simp (disch := decide) only [ex_hi, ex_lo, ex_all, Nat.reduceSub]
  have wf30_2 : W.extractLsb' 30 2 = q.code := by rw [hW]; simp (disch := decide) only [ex_hi, ex_lo, ex_all, Nat.reduceSub]
  exact roundTrip_one hW' rfl rfl wf24_6 rfl wf30_2 (by
    rw [decodeOne_27 _ _ wf24_6]
    simp only [decodeVmask, ↓reduceIte, BitVec.reduceEq, and_false, false_and, and_self, not_true_eq_false, and_true, true_and, wn0_12_0, wn0_12_1, wn0_12_2, wn0_12_3, wn0_16_4, wn0_16_5, wf0_8, wf0_6, wf18_2, wf12_4, wf20_4, wf16_2, wf8_4, ETy.ofCode_code])

theorem RoundTrip.vmtov (o : VMv) : RoundTrip.Statement (.vmtov o) := by
  obtain ⟨q, d, a, t, m⟩ := o
  generalize hW' : encode0 (.vmtov ⟨q, d, a, t, m⟩) = W
  have hW : W = q.code ++ 0x27#6 ++ d ++ 0x0#2 ++ a ++ 0x0#4 ++ t.code ++ m ++ 0x9#6 := hW'.symm
  have wf0_6 : W.extractLsb' 0 6 = 0x9#6 := by rw [hW]; simp (disch := decide) only [ex_hi, ex_lo, ex_all, Nat.reduceSub]
  have wn0_12_0 : ¬ W.extractLsb' 0 12 = 0#12 := slice_ne (t := 0) wf0_6 (by decide) (by decide)
  have wn0_12_1 : ¬ W.extractLsb' 0 12 = 1#12 := slice_ne (t := 0) wf0_6 (by decide) (by decide)
  have wn0_12_2 : ¬ W.extractLsb' 0 12 = 2#12 := slice_ne (t := 0) wf0_6 (by decide) (by decide)
  have wn0_12_3 : ¬ W.extractLsb' 0 12 = 3#12 := slice_ne (t := 0) wf0_6 (by decide) (by decide)
  have wn0_16_4 : ¬ W.extractLsb' 0 16 = 4#16 := slice_ne (t := 0) wf0_6 (by decide) (by decide)
  have wn0_16_5 : ¬ W.extractLsb' 0 16 = 5#16 := slice_ne (t := 0) wf0_6 (by decide) (by decide)
  have wn0_8_6 : ¬ W.extractLsb' 0 8 = 6#8 := slice_ne (t := 0) wf0_6 (by decide) (by decide)
  have wn0_8_8 : ¬ W.extractLsb' 0 8 = 8#8 := slice_ne (t := 0) wf0_6 (by decide) (by decide)
  have wf18_2 : W.extractLsb' 18 2 = 0x0#2 := by rw [hW]; simp (disch := decide) only [ex_hi, ex_lo, ex_all, Nat.reduceSub]
  have wf12_4 : W.extractLsb' 12 4 = 0x0#4 := by rw [hW]; simp (disch := decide) only [ex_hi, ex_lo, ex_all, Nat.reduceSub]
  have wf20_4 : W.extractLsb' 20 4 = d := by rw [hW]; simp (disch := decide) only [ex_hi, ex_lo, ex_all, Nat.reduceSub]
  have wf16_2 : W.extractLsb' 16 2 = a := by rw [hW]; simp (disch := decide) only [ex_hi, ex_lo, ex_all, Nat.reduceSub]
  have wf8_4 : W.extractLsb' 8 4 = t.code := by rw [hW]; simp (disch := decide) only [ex_hi, ex_lo, ex_all, Nat.reduceSub]
  have wf6_2 : W.extractLsb' 6 2 = m := by rw [hW]; simp (disch := decide) only [ex_hi, ex_lo, ex_all, Nat.reduceSub]
  have wf24_6 : W.extractLsb' 24 6 = 0x27#6 := by rw [hW]; simp (disch := decide) only [ex_hi, ex_lo, ex_all, Nat.reduceSub]
  have wf30_2 : W.extractLsb' 30 2 = q.code := by rw [hW]; simp (disch := decide) only [ex_hi, ex_lo, ex_all, Nat.reduceSub]
  exact roundTrip_one hW' rfl rfl wf24_6 rfl wf30_2 (by
    rw [decodeOne_27 _ _ wf24_6]
    simp only [decodeVmask, ↓reduceIte, BitVec.reduceEq, and_false, false_and, and_self, not_true_eq_false, and_true, true_and, wn0_12_0, wn0_12_1, wn0_12_2, wn0_12_3, wn0_16_4, wn0_16_5, wn0_8_6, wf0_6, wn0_8_8, wf18_2, wf12_4, wf20_4, wf16_2, wf8_4, ETy.ofCode_code, wf6_2])

theorem RoundTrip.vvtom (o : VTm) : RoundTrip.Statement (.vvtom o) := by
  obtain ⟨q, d, a, t, m⟩ := o
  generalize hW' : encode0 (.vvtom ⟨q, d, a, t, m⟩) = W
  have hW : W = q.code ++ 0x27#6 ++ 0x0#2 ++ d ++ a ++ 0x0#4 ++ t.code ++ m ++ 0xa#6 := hW'.symm
  have wf0_6 : W.extractLsb' 0 6 = 0xa#6 := by rw [hW]; simp (disch := decide) only [ex_hi, ex_lo, ex_all, Nat.reduceSub]
  have wn0_12_0 : ¬ W.extractLsb' 0 12 = 0#12 := slice_ne (t := 0) wf0_6 (by decide) (by decide)
  have wn0_12_1 : ¬ W.extractLsb' 0 12 = 1#12 := slice_ne (t := 0) wf0_6 (by decide) (by decide)
  have wn0_12_2 : ¬ W.extractLsb' 0 12 = 2#12 := slice_ne (t := 0) wf0_6 (by decide) (by decide)
  have wn0_12_3 : ¬ W.extractLsb' 0 12 = 3#12 := slice_ne (t := 0) wf0_6 (by decide) (by decide)
  have wn0_16_4 : ¬ W.extractLsb' 0 16 = 4#16 := slice_ne (t := 0) wf0_6 (by decide) (by decide)
  have wn0_16_5 : ¬ W.extractLsb' 0 16 = 5#16 := slice_ne (t := 0) wf0_6 (by decide) (by decide)
  have wn0_8_6 : ¬ W.extractLsb' 0 8 = 6#8 := slice_ne (t := 0) wf0_6 (by decide) (by decide)
  have wn0_8_8 : ¬ W.extractLsb' 0 8 = 8#8 := slice_ne (t := 0) wf0_6 (by decide) (by decide)
  have wf22_2 : W.extractLsb' 22 2 = 0x0#2 := by rw [hW]; simp (disch := decide) only [ex_hi, ex_lo, ex_all, Nat.reduceSub]
  have wf12_4 : W.extractLsb' 12 4 = 0x0#4 := by rw [hW]; simp (disch := decide) only [ex_hi, ex_lo, ex_all, Nat.reduceSub]
  have wf20_2 : W.extractLsb' 20 2 = d := by rw [hW]; simp (disch := decide) only [ex_hi, ex_lo, ex_all, Nat.reduceSub]
  have wf16_4 : W.extractLsb' 16 4 = a := by rw [hW]; simp (disch := decide) only [ex_hi, ex_lo, ex_all, Nat.reduceSub]
  have wf8_4 : W.extractLsb' 8 4 = t.code := by rw [hW]; simp (disch := decide) only [ex_hi, ex_lo, ex_all, Nat.reduceSub]
  have wf6_2 : W.extractLsb' 6 2 = m := by rw [hW]; simp (disch := decide) only [ex_hi, ex_lo, ex_all, Nat.reduceSub]
  have wf24_6 : W.extractLsb' 24 6 = 0x27#6 := by rw [hW]; simp (disch := decide) only [ex_hi, ex_lo, ex_all, Nat.reduceSub]
  have wf30_2 : W.extractLsb' 30 2 = q.code := by rw [hW]; simp (disch := decide) only [ex_hi, ex_lo, ex_all, Nat.reduceSub]
  exact roundTrip_one hW' rfl rfl wf24_6 rfl wf30_2 (by
    rw [decodeOne_27 _ _ wf24_6]
    simp only [decodeVmask, ↓reduceIte, BitVec.reduceEq, and_false, false_and, and_self, not_true_eq_false, and_true, true_and, wn0_12_0, wn0_12_1, wn0_12_2, wn0_12_3, wn0_16_4, wn0_16_5, wn0_8_6, wf0_6, wn0_8_8, wf22_2, wf12_4, wf20_2, wf16_4, wf8_4, ETy.ofCode_code, wf6_2])

theorem RoundTrip.vany (o : MPr) : RoundTrip.Statement (.vany o) := by
  obtain ⟨q, d, a, t⟩ := o
  generalize hW' : encode0 (.vany ⟨q, d, a, t⟩) = W
  have hW : W = q.code ++ 0x27#6 ++ 0x0#1 ++ d ++ 0x0#2 ++ a ++ 0x0#4 ++ t.code ++ 0xb#8 := hW'.symm
  have wf0_8 : W.extractLsb' 0 8 = 0xb#8 := by rw [hW]; simp (disch := decide) only [ex_hi, ex_lo, ex_all, Nat.reduceSub]
  have wn0_12_0 : ¬ W.extractLsb' 0 12 = 0#12 := slice_ne (t := 0) wf0_8 (by decide) (by decide)
  have wn0_12_1 : ¬ W.extractLsb' 0 12 = 1#12 := slice_ne (t := 0) wf0_8 (by decide) (by decide)
  have wn0_12_2 : ¬ W.extractLsb' 0 12 = 2#12 := slice_ne (t := 0) wf0_8 (by decide) (by decide)
  have wn0_12_3 : ¬ W.extractLsb' 0 12 = 3#12 := slice_ne (t := 0) wf0_8 (by decide) (by decide)
  have wn0_16_4 : ¬ W.extractLsb' 0 16 = 4#16 := slice_ne (t := 0) wf0_8 (by decide) (by decide)
  have wn0_16_5 : ¬ W.extractLsb' 0 16 = 5#16 := slice_ne (t := 0) wf0_8 (by decide) (by decide)
  have wf0_6 : W.extractLsb' 0 6 = 11#6 := by rw [hW]; simp (disch := decide) only [ex_hi, ex_lo, ex_all, Nat.reduceSub]; rfl
  have wf23_1 : W.extractLsb' 23 1 = 0x0#1 := by rw [hW]; simp (disch := decide) only [ex_hi, ex_lo, ex_all, Nat.reduceSub]
  have wf18_2 : W.extractLsb' 18 2 = 0x0#2 := by rw [hW]; simp (disch := decide) only [ex_hi, ex_lo, ex_all, Nat.reduceSub]
  have wf12_4 : W.extractLsb' 12 4 = 0x0#4 := by rw [hW]; simp (disch := decide) only [ex_hi, ex_lo, ex_all, Nat.reduceSub]
  have wf20_3 : W.extractLsb' 20 3 = d := by rw [hW]; simp (disch := decide) only [ex_hi, ex_lo, ex_all, Nat.reduceSub]
  have wf16_2 : W.extractLsb' 16 2 = a := by rw [hW]; simp (disch := decide) only [ex_hi, ex_lo, ex_all, Nat.reduceSub]
  have wf8_4 : W.extractLsb' 8 4 = t.code := by rw [hW]; simp (disch := decide) only [ex_hi, ex_lo, ex_all, Nat.reduceSub]
  have wf24_6 : W.extractLsb' 24 6 = 0x27#6 := by rw [hW]; simp (disch := decide) only [ex_hi, ex_lo, ex_all, Nat.reduceSub]
  have wf30_2 : W.extractLsb' 30 2 = q.code := by rw [hW]; simp (disch := decide) only [ex_hi, ex_lo, ex_all, Nat.reduceSub]
  exact roundTrip_one hW' rfl rfl wf24_6 rfl wf30_2 (by
    rw [decodeOne_27 _ _ wf24_6]
    simp only [decodeVmask, ↓reduceIte, BitVec.reduceEq, and_false, false_and, and_self, not_true_eq_false, and_true, true_and, wn0_12_0, wn0_12_1, wn0_12_2, wn0_12_3, wn0_16_4, wn0_16_5, wf0_8, wf0_6, wf23_1, wf18_2, wf12_4, wf20_3, wf16_2, wf8_4, ETy.ofCode_code])

theorem RoundTrip.vall (o : MPr) : RoundTrip.Statement (.vall o) := by
  obtain ⟨q, d, a, t⟩ := o
  generalize hW' : encode0 (.vall ⟨q, d, a, t⟩) = W
  have hW : W = q.code ++ 0x27#6 ++ 0x0#1 ++ d ++ 0x0#2 ++ a ++ 0x0#4 ++ t.code ++ 0xc#8 := hW'.symm
  have wf0_8 : W.extractLsb' 0 8 = 0xc#8 := by rw [hW]; simp (disch := decide) only [ex_hi, ex_lo, ex_all, Nat.reduceSub]
  have wn0_12_0 : ¬ W.extractLsb' 0 12 = 0#12 := slice_ne (t := 0) wf0_8 (by decide) (by decide)
  have wn0_12_1 : ¬ W.extractLsb' 0 12 = 1#12 := slice_ne (t := 0) wf0_8 (by decide) (by decide)
  have wn0_12_2 : ¬ W.extractLsb' 0 12 = 2#12 := slice_ne (t := 0) wf0_8 (by decide) (by decide)
  have wn0_12_3 : ¬ W.extractLsb' 0 12 = 3#12 := slice_ne (t := 0) wf0_8 (by decide) (by decide)
  have wn0_16_4 : ¬ W.extractLsb' 0 16 = 4#16 := slice_ne (t := 0) wf0_8 (by decide) (by decide)
  have wn0_16_5 : ¬ W.extractLsb' 0 16 = 5#16 := slice_ne (t := 0) wf0_8 (by decide) (by decide)
  have wf0_6 : W.extractLsb' 0 6 = 12#6 := by rw [hW]; simp (disch := decide) only [ex_hi, ex_lo, ex_all, Nat.reduceSub]; rfl
  have wf23_1 : W.extractLsb' 23 1 = 0x0#1 := by rw [hW]; simp (disch := decide) only [ex_hi, ex_lo, ex_all, Nat.reduceSub]
  have wf18_2 : W.extractLsb' 18 2 = 0x0#2 := by rw [hW]; simp (disch := decide) only [ex_hi, ex_lo, ex_all, Nat.reduceSub]
  have wf12_4 : W.extractLsb' 12 4 = 0x0#4 := by rw [hW]; simp (disch := decide) only [ex_hi, ex_lo, ex_all, Nat.reduceSub]
  have wf20_3 : W.extractLsb' 20 3 = d := by rw [hW]; simp (disch := decide) only [ex_hi, ex_lo, ex_all, Nat.reduceSub]
  have wf16_2 : W.extractLsb' 16 2 = a := by rw [hW]; simp (disch := decide) only [ex_hi, ex_lo, ex_all, Nat.reduceSub]
  have wf8_4 : W.extractLsb' 8 4 = t.code := by rw [hW]; simp (disch := decide) only [ex_hi, ex_lo, ex_all, Nat.reduceSub]
  have wf24_6 : W.extractLsb' 24 6 = 0x27#6 := by rw [hW]; simp (disch := decide) only [ex_hi, ex_lo, ex_all, Nat.reduceSub]
  have wf30_2 : W.extractLsb' 30 2 = q.code := by rw [hW]; simp (disch := decide) only [ex_hi, ex_lo, ex_all, Nat.reduceSub]
  exact roundTrip_one hW' rfl rfl wf24_6 rfl wf30_2 (by
    rw [decodeOne_27 _ _ wf24_6]
    simp only [decodeVmask, ↓reduceIte, BitVec.reduceEq, and_false, false_and, and_self, not_true_eq_false, and_true, true_and, wn0_12_0, wn0_12_1, wn0_12_2, wn0_12_3, wn0_16_4, wn0_16_5, wf0_8, wf0_6, wf23_1, wf18_2, wf12_4, wf20_3, wf16_2, wf8_4, ETy.ofCode_code])

theorem RoundTrip.vchain (o : ChainO) : RoundTrip.Statement (.vchain o) := by
  obtain ⟨q, d, a, b, td, ta, tb, desc⟩ := o
  generalize hW' : encode0 (.vchain ⟨q, d, a, b, td, ta, tb, desc⟩) = W
  have hW : W = q.code ++ 0x28#6 ++ d ++ a ++ b ++ 0x0#9 := hW'.symm
  have wf0_9 : W.extractLsb' 0 9 = 0x0#9 := by rw [hW]; simp (disch := decide) only [ex_hi, ex_lo, ex_all, Nat.reduceSub]
  have wf19_5 : W.extractLsb' 19 5 = d := by rw [hW]; simp (disch := decide) only [ex_hi, ex_lo, ex_all, Nat.reduceSub]
  have wf14_5 : W.extractLsb' 14 5 = a := by rw [hW]; simp (disch := decide) only [ex_hi, ex_lo, ex_all, Nat.reduceSub]
  have wf9_5 : W.extractLsb' 9 5 = b := by rw [hW]; simp (disch := decide) only [ex_hi, ex_lo, ex_all, Nat.reduceSub]
  have wf24_6 : W.extractLsb' 24 6 = 0x28#6 := by rw [hW]; simp (disch := decide) only [ex_hi, ex_lo, ex_all, Nat.reduceSub]
  have wf30_2 : W.extractLsb' 30 2 = q.code := by rw [hW]; simp (disch := decide) only [ex_hi, ex_lo, ex_all, Nat.reduceSub]
  generalize hX' : (encodeExt (.vchain ⟨q, d, a, b, td, ta, tb, desc⟩)).getD 0 = X
  have hX : X = bit td ++ bit ta ++ bit tb ++ 0#14 ++ desc := hX'.symm
  have xf15_14 : X.extractLsb' 15 14 = 0#14 := by rw [hX]; simp (disch := decide) only [ex_hi, ex_lo, ex_all, Nat.reduceSub]
  have xb31 : X.getLsbD 31 = td := by rw [hX]; simp (disch := decide) only [gl_hi, gl_lo, bit_get, Nat.reduceSub]
  have xb30 : X.getLsbD 30 = ta := by rw [hX]; simp (disch := decide) only [gl_hi, gl_lo, bit_get, Nat.reduceSub]
  have xb29 : X.getLsbD 29 = tb := by rw [hX]; simp (disch := decide) only [gl_hi, gl_lo, bit_get, Nat.reduceSub]
  have xf0_15 : X.extractLsb' 0 15 = desc := by rw [hX]; simp (disch := decide) only [ex_hi, ex_lo, ex_all, Nat.reduceSub]
  exact roundTrip_two hW' hX' rfl rfl wf24_6 rfl (fun h => nomatch h) wf30_2 (by
    rw [decodeTwo_28 _ _ _ wf24_6]
    simp only [decodeVchain, ↓reduceIte, BitVec.reduceEq, and_false, false_and, and_self, not_true_eq_false, and_true, true_and, wf0_9, xf15_14, wf19_5, wf14_5, wf9_5, xb31, xb30, xb29, xf0_15])

theorem RoundTrip.rinj (o : RinjO) : RoundTrip.Statement (.rinj o) := by
  obtain ⟨q, d, a, b, ta, tb, td, fam⟩ := o
  generalize hW' : encode0 (.rinj ⟨q, d, a, b, ta, tb, td, fam⟩) = W
  have hW : W = q.code ++ 0x30#6 ++ d ++ a ++ b ++ 0x0#9 := hW'.symm
  have wf0_9 : W.extractLsb' 0 9 = 0x0#9 := by rw [hW]; simp (disch := decide) only [ex_hi, ex_lo, ex_all, Nat.reduceSub]
  have wf19_5 : W.extractLsb' 19 5 = d := by rw [hW]; simp (disch := decide) only [ex_hi, ex_lo, ex_all, Nat.reduceSub]
  have wf14_5 : W.extractLsb' 14 5 = a := by rw [hW]; simp (disch := decide) only [ex_hi, ex_lo, ex_all, Nat.reduceSub]
  have wf9_5 : W.extractLsb' 9 5 = b := by rw [hW]; simp (disch := decide) only [ex_hi, ex_lo, ex_all, Nat.reduceSub]
  have wf24_6 : W.extractLsb' 24 6 = 0x30#6 := by rw [hW]; simp (disch := decide) only [ex_hi, ex_lo, ex_all, Nat.reduceSub]
  have wf30_2 : W.extractLsb' 30 2 = q.code := by rw [hW]; simp (disch := decide) only [ex_hi, ex_lo, ex_all, Nat.reduceSub]
  generalize hX' : (encodeExt (.rinj ⟨q, d, a, b, ta, tb, td, fam⟩)).getD 0 = X
  have hX : X = bit ta ++ bit tb ++ bit td ++ fam ++ 0#28 := hX'.symm
  have xf0_28 : X.extractLsb' 0 28 = 0#28 := by rw [hX]; simp (disch := decide) only [ex_hi, ex_lo, ex_all, Nat.reduceSub]
  have xb31 : X.getLsbD 31 = ta := by rw [hX]; simp (disch := decide) only [gl_hi, gl_lo, bit_get, Nat.reduceSub]
  have xb30 : X.getLsbD 30 = tb := by rw [hX]; simp (disch := decide) only [gl_hi, gl_lo, bit_get, Nat.reduceSub]
  have xb29 : X.getLsbD 29 = td := by rw [hX]; simp (disch := decide) only [gl_hi, gl_lo, bit_get, Nat.reduceSub]
  have xf28_1 : X.extractLsb' 28 1 = fam := by rw [hX]; simp (disch := decide) only [ex_hi, ex_lo, ex_all, Nat.reduceSub]
  exact roundTrip_two hW' hX' rfl rfl wf24_6 rfl (fun h => nomatch h) wf30_2 (by
    rw [decodeTwo_30 _ _ _ wf24_6]
    simp only [decodeRing, ↓reduceIte, BitVec.reduceEq, and_false, false_and, and_self, not_true_eq_false, and_true, true_and, wf0_9, xf0_28, wf19_5, wf14_5, wf9_5, xb31, xb30, xb29, xf28_1])

theorem RoundTrip.rinjr (o : RinjrO) : RoundTrip.Statement (.rinjr o) := by
  obtain ⟨q, d, a, b, ta, tb, td, fam, cluster, station⟩ := o
  generalize hW' : encode0 (.rinjr ⟨q, d, a, b, ta, tb, td, fam, cluster, station⟩) = W
  have hW : W = q.code ++ 0x30#6 ++ d ++ a ++ b ++ 0x1#9 := hW'.symm
  have wf0_9 : W.extractLsb' 0 9 = 0x1#9 := by rw [hW]; simp (disch := decide) only [ex_hi, ex_lo, ex_all, Nat.reduceSub]
  have wf19_5 : W.extractLsb' 19 5 = d := by rw [hW]; simp (disch := decide) only [ex_hi, ex_lo, ex_all, Nat.reduceSub]
  have wf14_5 : W.extractLsb' 14 5 = a := by rw [hW]; simp (disch := decide) only [ex_hi, ex_lo, ex_all, Nat.reduceSub]
  have wf9_5 : W.extractLsb' 9 5 = b := by rw [hW]; simp (disch := decide) only [ex_hi, ex_lo, ex_all, Nat.reduceSub]
  have wf24_6 : W.extractLsb' 24 6 = 0x30#6 := by rw [hW]; simp (disch := decide) only [ex_hi, ex_lo, ex_all, Nat.reduceSub]
  have wf30_2 : W.extractLsb' 30 2 = q.code := by rw [hW]; simp (disch := decide) only [ex_hi, ex_lo, ex_all, Nat.reduceSub]
  generalize hX' : (encodeExt (.rinjr ⟨q, d, a, b, ta, tb, td, fam, cluster, station⟩)).getD 0 = X
  have hX : X = bit ta ++ bit tb ++ bit td ++ fam ++ cluster ++ station ++ 0#12 := hX'.symm
  have xf0_12 : X.extractLsb' 0 12 = 0#12 := by rw [hX]; simp (disch := decide) only [ex_hi, ex_lo, ex_all, Nat.reduceSub]
  have xb31 : X.getLsbD 31 = ta := by rw [hX]; simp (disch := decide) only [gl_hi, gl_lo, bit_get, Nat.reduceSub]
  have xb30 : X.getLsbD 30 = tb := by rw [hX]; simp (disch := decide) only [gl_hi, gl_lo, bit_get, Nat.reduceSub]
  have xb29 : X.getLsbD 29 = td := by rw [hX]; simp (disch := decide) only [gl_hi, gl_lo, bit_get, Nat.reduceSub]
  have xf28_1 : X.extractLsb' 28 1 = fam := by rw [hX]; simp (disch := decide) only [ex_hi, ex_lo, ex_all, Nat.reduceSub]
  have xf18_10 : X.extractLsb' 18 10 = cluster := by rw [hX]; simp (disch := decide) only [ex_hi, ex_lo, ex_all, Nat.reduceSub]
  have xf12_6 : X.extractLsb' 12 6 = station := by rw [hX]; simp (disch := decide) only [ex_hi, ex_lo, ex_all, Nat.reduceSub]
  exact roundTrip_two hW' hX' rfl rfl wf24_6 rfl (fun h => nomatch h) wf30_2 (by
    rw [decodeTwo_30 _ _ _ wf24_6]
    simp only [decodeRing, ↓reduceIte, BitVec.reduceEq, and_false, false_and, and_self, not_true_eq_false, and_true, true_and, wf0_9, xf0_12, wf19_5, wf14_5, wf9_5, xb31, xb30, xb29, xf28_1, xf18_10, xf12_6])

theorem RoundTrip.rpark (o : RparkO) : RoundTrip.Statement (.rpark o) := by
  obtain ⟨q, d, fam⟩ := o
  generalize hW' : encode0 (.rpark ⟨q, d, fam⟩) = W
  have hW : W = q.code ++ 0x30#6 ++ d ++ 0#10 ++ 0x2#9 := hW'.symm
  have wf0_9 : W.extractLsb' 0 9 = 0x2#9 := by rw [hW]; simp (disch := decide) only [ex_hi, ex_lo, ex_all, Nat.reduceSub]
  have wf9_10 : W.extractLsb' 9 10 = 0#10 := by rw [hW]; simp (disch := decide) only [ex_hi, ex_lo, ex_all, Nat.reduceSub]
  have wf19_5 : W.extractLsb' 19 5 = d := by rw [hW]; simp (disch := decide) only [ex_hi, ex_lo, ex_all, Nat.reduceSub]
  have wf24_6 : W.extractLsb' 24 6 = 0x30#6 := by rw [hW]; simp (disch := decide) only [ex_hi, ex_lo, ex_all, Nat.reduceSub]
  have wf30_2 : W.extractLsb' 30 2 = q.code := by rw [hW]; simp (disch := decide) only [ex_hi, ex_lo, ex_all, Nat.reduceSub]
  generalize hX' : (encodeExt (.rpark ⟨q, d, fam⟩)).getD 0 = X
  have hX : X = 0#3 ++ fam ++ 0#28 := hX'.symm
  have xf29_3 : X.extractLsb' 29 3 = 0#3 := by rw [hX]; simp (disch := decide) only [ex_hi, ex_lo, ex_all, Nat.reduceSub]
  have xf0_28 : X.extractLsb' 0 28 = 0#28 := by rw [hX]; simp (disch := decide) only [ex_hi, ex_lo, ex_all, Nat.reduceSub]
  have xf28_1 : X.extractLsb' 28 1 = fam := by rw [hX]; simp (disch := decide) only [ex_hi, ex_lo, ex_all, Nat.reduceSub]
  exact roundTrip_two hW' hX' rfl rfl wf24_6 rfl (fun h => nomatch h) wf30_2 (by
    rw [decodeTwo_30 _ _ _ wf24_6]
    simp only [decodeRing, ↓reduceIte, BitVec.reduceEq, and_false, false_and, and_self, not_true_eq_false, and_true, true_and, wf0_9, wf9_10, xf29_3, xf0_28, wf19_5, xf28_1])

theorem RoundTrip.runpark (o : RunpO) : RoundTrip.Statement (.runpark o) := by
  obtain ⟨q, d, fam, slot⟩ := o
  generalize hW' : encode0 (.runpark ⟨q, d, fam, slot⟩) = W
  have hW : W = q.code ++ 0x30#6 ++ d ++ 0#10 ++ 0x3#9 := hW'.symm
  have wf0_9 : W.extractLsb' 0 9 = 0x3#9 := by rw [hW]; simp (disch := decide) only [ex_hi, ex_lo, ex_all, Nat.reduceSub]
  have wf9_10 : W.extractLsb' 9 10 = 0#10 := by rw [hW]; simp (disch := decide) only [ex_hi, ex_lo, ex_all, Nat.reduceSub]
  have wf19_5 : W.extractLsb' 19 5 = d := by rw [hW]; simp (disch := decide) only [ex_hi, ex_lo, ex_all, Nat.reduceSub]
  have wf24_6 : W.extractLsb' 24 6 = 0x30#6 := by rw [hW]; simp (disch := decide) only [ex_hi, ex_lo, ex_all, Nat.reduceSub]
  have wf30_2 : W.extractLsb' 30 2 = q.code := by rw [hW]; simp (disch := decide) only [ex_hi, ex_lo, ex_all, Nat.reduceSub]
  generalize hX' : (encodeExt (.runpark ⟨q, d, fam, slot⟩)).getD 0 = X
  have hX : X = 0#3 ++ fam ++ 0#27 ++ slot := hX'.symm
  have xf29_3 : X.extractLsb' 29 3 = 0#3 := by rw [hX]; simp (disch := decide) only [ex_hi, ex_lo, ex_all, Nat.reduceSub]
  have xf1_27 : X.extractLsb' 1 27 = 0#27 := by rw [hX]; simp (disch := decide) only [ex_hi, ex_lo, ex_all, Nat.reduceSub]
  have xf28_1 : X.extractLsb' 28 1 = fam := by rw [hX]; simp (disch := decide) only [ex_hi, ex_lo, ex_all, Nat.reduceSub]
  have xf0_1 : X.extractLsb' 0 1 = slot := by rw [hX]; simp (disch := decide) only [ex_hi, ex_lo, ex_all, Nat.reduceSub]
  exact roundTrip_two hW' hX' rfl rfl wf24_6 rfl (fun h => nomatch h) wf30_2 (by
    rw [decodeTwo_30 _ _ _ wf24_6]
    simp only [decodeRing, ↓reduceIte, BitVec.reduceEq, and_false, false_and, and_self, not_true_eq_false, and_true, true_and, wf0_9, wf9_10, xf29_3, xf1_27, wf19_5, xf28_1, xf0_1])

theorem RoundTrip.rtire (o : RtireO) : RoundTrip.Statement (.rtire o) := by
  obtain ⟨q, d, fam, place⟩ := o
  generalize hW' : encode0 (.rtire ⟨q, d, fam, place⟩) = W
  have hW : W = q.code ++ 0x30#6 ++ d ++ 0#10 ++ 0x4#9 := hW'.symm
  have wf0_9 : W.extractLsb' 0 9 = 0x4#9 := by rw [hW]; simp (disch := decide) only [ex_hi, ex_lo, ex_all, Nat.reduceSub]
  have wf9_10 : W.extractLsb' 9 10 = 0#10 := by rw [hW]; simp (disch := decide) only [ex_hi, ex_lo, ex_all, Nat.reduceSub]
  have wf19_5 : W.extractLsb' 19 5 = d := by rw [hW]; simp (disch := decide) only [ex_hi, ex_lo, ex_all, Nat.reduceSub]
  have wf24_6 : W.extractLsb' 24 6 = 0x30#6 := by rw [hW]; simp (disch := decide) only [ex_hi, ex_lo, ex_all, Nat.reduceSub]
  have wf30_2 : W.extractLsb' 30 2 = q.code := by rw [hW]; simp (disch := decide) only [ex_hi, ex_lo, ex_all, Nat.reduceSub]
  generalize hX' : (encodeExt (.rtire ⟨q, d, fam, place⟩)).getD 0 = X
  have hX : X = 0#3 ++ fam ++ 0#26 ++ place := hX'.symm
  have xf29_3 : X.extractLsb' 29 3 = 0#3 := by rw [hX]; simp (disch := decide) only [ex_hi, ex_lo, ex_all, Nat.reduceSub]
  have xf2_26 : X.extractLsb' 2 26 = 0#26 := by rw [hX]; simp (disch := decide) only [ex_hi, ex_lo, ex_all, Nat.reduceSub]
  have xf28_1 : X.extractLsb' 28 1 = fam := by rw [hX]; simp (disch := decide) only [ex_hi, ex_lo, ex_all, Nat.reduceSub]
  have xf0_2 : X.extractLsb' 0 2 = place := by rw [hX]; simp (disch := decide) only [ex_hi, ex_lo, ex_all, Nat.reduceSub]
  exact roundTrip_two hW' hX' rfl rfl wf24_6 rfl (fun h => nomatch h) wf30_2 (by
    rw [decodeTwo_30 _ _ _ wf24_6]
    simp only [decodeRing, ↓reduceIte, BitVec.reduceEq, and_false, false_and, and_self, not_true_eq_false, and_true, true_and, wf0_9, wf9_10, xf29_3, xf2_26, wf19_5, xf28_1, xf0_2])

theorem RoundTrip.rstat (o : XD) : RoundTrip.Statement (.rstat o) := by
  obtain ⟨q, d⟩ := o
  generalize hW' : encode0 (.rstat ⟨q, d⟩) = W
  have hW : W = q.code ++ 0x30#6 ++ d ++ 0#10 ++ 0x5#9 := hW'.symm
  have wf0_9 : W.extractLsb' 0 9 = 0x5#9 := by rw [hW]; simp (disch := decide) only [ex_hi, ex_lo, ex_all, Nat.reduceSub]
  have wf9_10 : W.extractLsb' 9 10 = 0#10 := by rw [hW]; simp (disch := decide) only [ex_hi, ex_lo, ex_all, Nat.reduceSub]
  have wf19_5 : W.extractLsb' 19 5 = d := by rw [hW]; simp (disch := decide) only [ex_hi, ex_lo, ex_all, Nat.reduceSub]
  have wf24_6 : W.extractLsb' 24 6 = 0x30#6 := by rw [hW]; simp (disch := decide) only [ex_hi, ex_lo, ex_all, Nat.reduceSub]
  have wf30_2 : W.extractLsb' 30 2 = q.code := by rw [hW]; simp (disch := decide) only [ex_hi, ex_lo, ex_all, Nat.reduceSub]
  generalize hX' : (encodeExt (.rstat ⟨q, d⟩)).getD 0 = X
  have hX : X = 0#32 := hX'.symm
  have xf0_32 : X.extractLsb' 0 32 = 0#32 := by rw [hX]; simp (disch := decide) only [ex_hi, ex_lo, ex_all, Nat.reduceSub]
  exact roundTrip_two hW' hX' rfl rfl wf24_6 rfl (fun h => nomatch h) wf30_2 (by
    rw [decodeTwo_30 _ _ _ wf24_6]
    simp only [decodeRing, ↓reduceIte, BitVec.reduceEq, and_false, false_and, and_self, not_true_eq_false, and_true, true_and, wf0_9, wf9_10, xf0_32, wf19_5])

theorem RoundTrip.rwait (o : XD) : RoundTrip.Statement (.rwait o) := by
  obtain ⟨q, d⟩ := o
  generalize hW' : encode0 (.rwait ⟨q, d⟩) = W
  have hW : W = q.code ++ 0x30#6 ++ d ++ 0#10 ++ 0x6#9 := hW'.symm
  have wf0_9 : W.extractLsb' 0 9 = 0x6#9 := by rw [hW]; simp (disch := decide) only [ex_hi, ex_lo, ex_all, Nat.reduceSub]
  have wf9_10 : W.extractLsb' 9 10 = 0#10 := by rw [hW]; simp (disch := decide) only [ex_hi, ex_lo, ex_all, Nat.reduceSub]
  have wf19_5 : W.extractLsb' 19 5 = d := by rw [hW]; simp (disch := decide) only [ex_hi, ex_lo, ex_all, Nat.reduceSub]
  have wf24_6 : W.extractLsb' 24 6 = 0x30#6 := by rw [hW]; simp (disch := decide) only [ex_hi, ex_lo, ex_all, Nat.reduceSub]
  have wf30_2 : W.extractLsb' 30 2 = q.code := by rw [hW]; simp (disch := decide) only [ex_hi, ex_lo, ex_all, Nat.reduceSub]
  generalize hX' : (encodeExt (.rwait ⟨q, d⟩)).getD 0 = X
  have hX : X = 0#32 := hX'.symm
  have xf0_32 : X.extractLsb' 0 32 = 0#32 := by rw [hX]; simp (disch := decide) only [ex_hi, ex_lo, ex_all, Nat.reduceSub]
  exact roundTrip_two hW' hX' rfl rfl wf24_6 rfl (fun h => nomatch h) wf30_2 (by
    rw [decodeTwo_30 _ _ _ wf24_6]
    simp only [decodeRing, ↓reduceIte, BitVec.reduceEq, and_false, false_and, and_self, not_true_eq_false, and_true, true_and, wf0_9, wf9_10, xf0_32, wf19_5])

theorem RoundTrip.rstart (o : XQ) : RoundTrip.Statement (.rstart o) := by
  obtain ⟨q⟩ := o
  generalize hW' : encode0 (.rstart ⟨q⟩) = W
  have hW : W = q.code ++ 0x30#6 ++ 0#15 ++ 0x7#9 := hW'.symm
  have wf0_9 : W.extractLsb' 0 9 = 0x7#9 := by rw [hW]; simp (disch := decide) only [ex_hi, ex_lo, ex_all, Nat.reduceSub]
  have wf9_15 : W.extractLsb' 9 15 = 0#15 := by rw [hW]; simp (disch := decide) only [ex_hi, ex_lo, ex_all, Nat.reduceSub]
  have wf24_6 : W.extractLsb' 24 6 = 0x30#6 := by rw [hW]; simp (disch := decide) only [ex_hi, ex_lo, ex_all, Nat.reduceSub]
  have wf30_2 : W.extractLsb' 30 2 = q.code := by rw [hW]; simp (disch := decide) only [ex_hi, ex_lo, ex_all, Nat.reduceSub]
  generalize hX' : (encodeExt (.rstart ⟨q⟩)).getD 0 = X
  have hX : X = 0#32 := hX'.symm
  have xf0_32 : X.extractLsb' 0 32 = 0#32 := by rw [hX]; simp (disch := decide) only [ex_hi, ex_lo, ex_all, Nat.reduceSub]
  exact roundTrip_two hW' hX' rfl rfl wf24_6 rfl (fun h => nomatch h) wf30_2 (by
    rw [decodeTwo_30 _ _ _ wf24_6]
    simp only [decodeRing, ↓reduceIte, BitVec.reduceEq, and_false, false_and, and_self, not_true_eq_false, and_true, true_and, wf0_9, wf9_15, xf0_32])

theorem RoundTrip.rreset (o : XQ) : RoundTrip.Statement (.rreset o) := by
  obtain ⟨q⟩ := o
  generalize hW' : encode0 (.rreset ⟨q⟩) = W
  have hW : W = q.code ++ 0x30#6 ++ 0#15 ++ 0x8#9 := hW'.symm
  have wf0_9 : W.extractLsb' 0 9 = 0x8#9 := by rw [hW]; simp (disch := decide) only [ex_hi, ex_lo, ex_all, Nat.reduceSub]
  have wf9_15 : W.extractLsb' 9 15 = 0#15 := by rw [hW]; simp (disch := decide) only [ex_hi, ex_lo, ex_all, Nat.reduceSub]
  have wf24_6 : W.extractLsb' 24 6 = 0x30#6 := by rw [hW]; simp (disch := decide) only [ex_hi, ex_lo, ex_all, Nat.reduceSub]
  have wf30_2 : W.extractLsb' 30 2 = q.code := by rw [hW]; simp (disch := decide) only [ex_hi, ex_lo, ex_all, Nat.reduceSub]
  generalize hX' : (encodeExt (.rreset ⟨q⟩)).getD 0 = X
  have hX : X = 0#32 := hX'.symm
  have xf0_32 : X.extractLsb' 0 32 = 0#32 := by rw [hX]; simp (disch := decide) only [ex_hi, ex_lo, ex_all, Nat.reduceSub]
  exact roundTrip_two hW' hX' rfl rfl wf24_6 rfl (fun h => nomatch h) wf30_2 (by
    rw [decodeTwo_30 _ _ _ wf24_6]
    simp only [decodeRing, ↓reduceIte, BitVec.reduceEq, and_false, false_and, and_self, not_true_eq_false, and_true, true_and, wf0_9, wf9_15, xf0_32])

theorem RoundTrip.rmode (o : RmodeO) : RoundTrip.Statement (.rmode o) := by
  obtain ⟨q, mode, record⟩ := o
  generalize hW' : encode0 (.rmode ⟨q, mode, record⟩) = W
  have hW : W = q.code ++ 0x30#6 ++ 0#15 ++ 0x9#9 := hW'.symm
  have wf0_9 : W.extractLsb' 0 9 = 0x9#9 := by rw [hW]; simp (disch := decide) only [ex_hi, ex_lo, ex_all, Nat.reduceSub]
  have wf9_15 : W.extractLsb' 9 15 = 0#15 := by rw [hW]; simp (disch := decide) only [ex_hi, ex_lo, ex_all, Nat.reduceSub]
  have wf24_6 : W.extractLsb' 24 6 = 0x30#6 := by rw [hW]; simp (disch := decide) only [ex_hi, ex_lo, ex_all, Nat.reduceSub]
  have wf30_2 : W.extractLsb' 30 2 = q.code := by rw [hW]; simp (disch := decide) only [ex_hi, ex_lo, ex_all, Nat.reduceSub]
  generalize hX' : (encodeExt (.rmode ⟨q, mode, record⟩)).getD 0 = X
  have hX : X = 0#30 ++ bit record ++ mode := hX'.symm
  have xf2_30 : X.extractLsb' 2 30 = 0#30 := by rw [hX]; simp (disch := decide) only [ex_hi, ex_lo, ex_all, Nat.reduceSub]
  have xb1 : X.getLsbD 1 = record := by rw [hX]; simp (disch := decide) only [gl_hi, gl_lo, bit_get, Nat.reduceSub]
  have xf0_1 : X.extractLsb' 0 1 = mode := by rw [hX]; simp (disch := decide) only [ex_hi, ex_lo, ex_all, Nat.reduceSub]
  exact roundTrip_two hW' hX' rfl rfl wf24_6 rfl (fun h => nomatch h) wf30_2 (by
    rw [decodeTwo_30 _ _ _ wf24_6]
    simp only [decodeRing, ↓reduceIte, BitVec.reduceEq, and_false, false_and, and_self, not_true_eq_false, and_true, true_and, wf0_9, wf9_15, xf2_30, xb1, xf0_1])

theorem RoundTrip.tileDeparture (k : ClusterId) (fam : Fam) (st : BitVec 6) : RoundTrip.Statement (.tileDeparture k fam st) := fun h => nomatch h

theorem RoundTrip.beat (k : ClusterId) : RoundTrip.Statement (.beat k) := fun h => nomatch h

theorem RoundTrip.tileArrival (k : ClusterId) (fam : Fam) (st : BitVec 6) : RoundTrip.Statement (.tileArrival k fam st) := fun h => nomatch h

theorem RoundTrip.heldMeetingTaken (k : ClusterId) (st : BitVec 6) : RoundTrip.Statement (.heldMeetingTaken k st) := fun h => nomatch h

theorem RoundTrip.queuedTileEntry (k : ClusterId) (fam : Fam) (st : BitVec 6) : RoundTrip.Statement (.queuedTileEntry k fam st) := fun h => nomatch h

theorem RoundTrip.spentTileToLayby (k : ClusterId) (fam : Fam) (st : BitVec 6) : RoundTrip.Statement (.spentTileToLayby k fam st) := fun h => nomatch h

theorem RoundTrip.spentTileRetire (k : ClusterId) (fam : Fam) : RoundTrip.Statement (.spentTileRetire k fam) := fun h => nomatch h

theorem RoundTrip.wakeExpiry (k : ClusterId) (fam : Fam) (st : BitVec 6) : RoundTrip.Statement (.wakeExpiry k fam st) := fun h => nomatch h

theorem RoundTrip.ringDone (k : ClusterId) : RoundTrip.Statement (.ringDone k) := fun h => nomatch h

theorem RoundTrip.ringFault (k : ClusterId) : RoundTrip.Statement (.ringFault k) := fun h => nomatch h

theorem RoundTrip.jwr (o : XA) : RoundTrip.Statement (.jwr o) := by
  obtain ⟨q, a, ta⟩ := o
  generalize hW' : encode0 (.jwr ⟨q, a, ta⟩) = W
  have hW : W = q.code ++ 0x31#6 ++ 0#5 ++ a ++ 0#5 ++ 0x0#9 := hW'.symm
  have wf0_9 : W.extractLsb' 0 9 = 0x0#9 := by rw [hW]; simp (disch := decide) only [ex_hi, ex_lo, ex_all, Nat.reduceSub]
  have wf19_5 : W.extractLsb' 19 5 = 0#5 := by rw [hW]; simp (disch := decide) only [ex_hi, ex_lo, ex_all, Nat.reduceSub]
  have wf9_5 : W.extractLsb' 9 5 = 0#5 := by rw [hW]; simp (disch := decide) only [ex_hi, ex_lo, ex_all, Nat.reduceSub]
  have wf14_5 : W.extractLsb' 14 5 = a := by rw [hW]; simp (disch := decide) only [ex_hi, ex_lo, ex_all, Nat.reduceSub]
  have wf24_6 : W.extractLsb' 24 6 = 0x31#6 := by rw [hW]; simp (disch := decide) only [ex_hi, ex_lo, ex_all, Nat.reduceSub]
  have wf30_2 : W.extractLsb' 30 2 = q.code := by rw [hW]; simp (disch := decide) only [ex_hi, ex_lo, ex_all, Nat.reduceSub]
  generalize hX' : (encodeExt (.jwr ⟨q, a, ta⟩)).getD 0 = X
  have hX : X = bit ta ++ 0#31 := hX'.symm
  have xf0_31 : X.extractLsb' 0 31 = 0#31 := by rw [hX]; simp (disch := decide) only [ex_hi, ex_lo, ex_all, Nat.reduceSub]
  have xb31 : X.getLsbD 31 = ta := by rw [hX]; simp (disch := decide) only [gl_hi, gl_lo, bit_get, Nat.reduceSub]
  exact roundTrip_two hW' hX' rfl rfl wf24_6 rfl (fun h => nomatch h) wf30_2 (by
    rw [decodeTwo_31 _ _ _ wf24_6]
    simp only [decodeJunc, ↓reduceIte, BitVec.reduceEq, and_false, false_and, and_self, not_true_eq_false, and_true, true_and, wf0_9, wf19_5, wf9_5, xf0_31, wf14_5, xb31])

theorem RoundTrip.jrd (o : JrdO) : RoundTrip.Statement (.jrd o) := by
  obtain ⟨q, a, ta, entry⟩ := o
  generalize hW' : encode0 (.jrd ⟨q, a, ta, entry⟩) = W
  have hW : W = q.code ++ 0x31#6 ++ 0#5 ++ a ++ 0#5 ++ 0x1#9 := hW'.symm
  have wf0_9 : W.extractLsb' 0 9 = 0x1#9 := by rw [hW]; simp (disch := decide) only [ex_hi, ex_lo, ex_all, Nat.reduceSub]
  have wf19_5 : W.extractLsb' 19 5 = 0#5 := by rw [hW]; simp (disch := decide) only [ex_hi, ex_lo, ex_all, Nat.reduceSub]
  have wf9_5 : W.extractLsb' 9 5 = 0#5 := by rw [hW]; simp (disch := decide) only [ex_hi, ex_lo, ex_all, Nat.reduceSub]
  have wf14_5 : W.extractLsb' 14 5 = a := by rw [hW]; simp (disch := decide) only [ex_hi, ex_lo, ex_all, Nat.reduceSub]
  have wf24_6 : W.extractLsb' 24 6 = 0x31#6 := by rw [hW]; simp (disch := decide) only [ex_hi, ex_lo, ex_all, Nat.reduceSub]
  have wf30_2 : W.extractLsb' 30 2 = q.code := by rw [hW]; simp (disch := decide) only [ex_hi, ex_lo, ex_all, Nat.reduceSub]
  generalize hX' : (encodeExt (.jrd ⟨q, a, ta, entry⟩)).getD 0 = X
  have hX : X = bit ta ++ 0#25 ++ entry := hX'.symm
  have xf6_25 : X.extractLsb' 6 25 = 0#25 := by rw [hX]; simp (disch := decide) only [ex_hi, ex_lo, ex_all, Nat.reduceSub]
  have xb31 : X.getLsbD 31 = ta := by rw [hX]; simp (disch := decide) only [gl_hi, gl_lo, bit_get, Nat.reduceSub]
  have xf0_6 : X.extractLsb' 0 6 = entry := by rw [hX]; simp (disch := decide) only [ex_hi, ex_lo, ex_all, Nat.reduceSub]
  exact roundTrip_two hW' hX' rfl rfl wf24_6 rfl (fun h => nomatch h) wf30_2 (by
    rw [decodeTwo_31 _ _ _ wf24_6]
    simp only [decodeJunc, ↓reduceIte, BitVec.reduceEq, and_false, false_and, and_self, not_true_eq_false, and_true, true_and, wf0_9, wf19_5, wf9_5, xf6_25, wf14_5, xb31, xf0_6])

theorem RoundTrip.join (o : ConvO) : RoundTrip.Statement (.join o) := by
  obtain ⟨q, id⟩ := o
  generalize hW' : encode0 (.join ⟨q, id⟩) = W
  have hW : W = q.code ++ 0x32#6 ++ 0#15 ++ 0x0#9 := hW'.symm
  have wf0_9 : W.extractLsb' 0 9 = 0x0#9 := by rw [hW]; simp (disch := decide) only [ex_hi, ex_lo, ex_all, Nat.reduceSub]
  have wf9_15 : W.extractLsb' 9 15 = 0#15 := by rw [hW]; simp (disch := decide) only [ex_hi, ex_lo, ex_all, Nat.reduceSub]
  have wf24_6 : W.extractLsb' 24 6 = 0x32#6 := by rw [hW]; simp (disch := decide) only [ex_hi, ex_lo, ex_all, Nat.reduceSub]
  have wf30_2 : W.extractLsb' 30 2 = q.code := by rw [hW]; simp (disch := decide) only [ex_hi, ex_lo, ex_all, Nat.reduceSub]
  generalize hX' : (encodeExt (.join ⟨q, id⟩)).getD 0 = X
  have hX : X = 0#20 ++ id := hX'.symm
  have xf12_20 : X.extractLsb' 12 20 = 0#20 := by rw [hX]; simp (disch := decide) only [ex_hi, ex_lo, ex_all, Nat.reduceSub]
  have xf0_12 : X.extractLsb' 0 12 = id := by rw [hX]; simp (disch := decide) only [ex_hi, ex_lo, ex_all, Nat.reduceSub]
  exact roundTrip_two hW' hX' rfl rfl wf24_6 rfl (fun h => nomatch h) wf30_2 (by
    rw [decodeTwo_32 _ _ _ wf24_6]
    simp only [decodeConvoy, ↓reduceIte, BitVec.reduceEq, and_false, false_and, and_self, not_true_eq_false, and_true, true_and, wf0_9, wf9_15, xf12_20, xf0_12])

theorem RoundTrip.leave (o : ConvO) : RoundTrip.Statement (.leave o) := by
  obtain ⟨q, id⟩ := o
  generalize hW' : encode0 (.leave ⟨q, id⟩) = W
  have hW : W = q.code ++ 0x32#6 ++ 0#15 ++ 0x1#9 := hW'.symm
  have wf0_9 : W.extractLsb' 0 9 = 0x1#9 := by rw [hW]; simp (disch := decide) only [ex_hi, ex_lo, ex_all, Nat.reduceSub]
  have wf9_15 : W.extractLsb' 9 15 = 0#15 := by rw [hW]; simp (disch := decide) only [ex_hi, ex_lo, ex_all, Nat.reduceSub]
  have wf24_6 : W.extractLsb' 24 6 = 0x32#6 := by rw [hW]; simp (disch := decide) only [ex_hi, ex_lo, ex_all, Nat.reduceSub]
  have wf30_2 : W.extractLsb' 30 2 = q.code := by rw [hW]; simp (disch := decide) only [ex_hi, ex_lo, ex_all, Nat.reduceSub]
  generalize hX' : (encodeExt (.leave ⟨q, id⟩)).getD 0 = X
  have hX : X = 0#20 ++ id := hX'.symm
  have xf12_20 : X.extractLsb' 12 20 = 0#20 := by rw [hX]; simp (disch := decide) only [ex_hi, ex_lo, ex_all, Nat.reduceSub]
  have xf0_12 : X.extractLsb' 0 12 = id := by rw [hX]; simp (disch := decide) only [ex_hi, ex_lo, ex_all, Nat.reduceSub]
  exact roundTrip_two hW' hX' rfl rfl wf24_6 rfl (fun h => nomatch h) wf30_2 (by
    rw [decodeTwo_32 _ _ _ wf24_6]
    simp only [decodeConvoy, ↓reduceIte, BitVec.reduceEq, and_false, false_and, and_self, not_true_eq_false, and_true, true_and, wf0_9, wf9_15, xf12_20, xf0_12])

theorem RoundTrip.bar (o : BarO) : RoundTrip.Statement (.bar o) := by
  obtain ⟨q, d, smask, scope, id⟩ := o
  generalize hW' : encode0 (.bar ⟨q, d, smask, scope, id⟩) = W
  have hW : W = q.code ++ 0x32#6 ++ d ++ 0#10 ++ 0x2#9 := hW'.symm
  have wf0_9 : W.extractLsb' 0 9 = 0x2#9 := by rw [hW]; simp (disch := decide) only [ex_hi, ex_lo, ex_all, Nat.reduceSub]
  have wf9_10 : W.extractLsb' 9 10 = 0#10 := by rw [hW]; simp (disch := decide) only [ex_hi, ex_lo, ex_all, Nat.reduceSub]
  have wf19_5 : W.extractLsb' 19 5 = d := by rw [hW]; simp (disch := decide) only [ex_hi, ex_lo, ex_all, Nat.reduceSub]
  have wf24_6 : W.extractLsb' 24 6 = 0x32#6 := by rw [hW]; simp (disch := decide) only [ex_hi, ex_lo, ex_all, Nat.reduceSub]
  have wf30_2 : W.extractLsb' 30 2 = q.code := by rw [hW]; simp (disch := decide) only [ex_hi, ex_lo, ex_all, Nat.reduceSub]
  generalize hX' : (encodeExt (.bar ⟨q, d, smask, scope, id⟩)).getD 0 = X
  have hX : X = 0#12 ++ smask ++ scope ++ id := hX'.symm
  have xf20_12 : X.extractLsb' 20 12 = 0#12 := by rw [hX]; simp (disch := decide) only [ex_hi, ex_lo, ex_all, Nat.reduceSub]
  have xf15_5 : X.extractLsb' 15 5 = smask := by rw [hX]; simp (disch := decide) only [ex_hi, ex_lo, ex_all, Nat.reduceSub]
  have xf12_3 : X.extractLsb' 12 3 = scope := by rw [hX]; simp (disch := decide) only [ex_hi, ex_lo, ex_all, Nat.reduceSub]
  have xf0_12 : X.extractLsb' 0 12 = id := by rw [hX]; simp (disch := decide) only [ex_hi, ex_lo, ex_all, Nat.reduceSub]
  exact roundTrip_two hW' hX' rfl rfl wf24_6 rfl (fun h => nomatch h) wf30_2 (by
    rw [decodeTwo_32 _ _ _ wf24_6]
    simp only [decodeConvoy, ↓reduceIte, BitVec.reduceEq, and_false, false_and, and_self, not_true_eq_false, and_true, true_and, wf0_9, wf9_10, xf20_12, wf19_5, xf15_5, xf12_3, xf0_12])

theorem RoundTrip.generationComplete (l : Nat) (die : BitVec 4) (id : BitVec 12) : RoundTrip.Statement (.generationComplete l die id) := fun h => nomatch h

theorem RoundTrip.abort (o : XQ) : RoundTrip.Statement (.abort o) := by
  obtain ⟨q⟩ := o
  generalize hW' : encode0 (.abort ⟨q⟩) = W
  have hW : W = q.code ++ 0x32#6 ++ 0#15 ++ 0x3#9 := hW'.symm
  have wf0_9 : W.extractLsb' 0 9 = 0x3#9 := by rw [hW]; simp (disch := decide) only [ex_hi, ex_lo, ex_all, Nat.reduceSub]
  have wf9_15 : W.extractLsb' 9 15 = 0#15 := by rw [hW]; simp (disch := decide) only [ex_hi, ex_lo, ex_all, Nat.reduceSub]
  have wf24_6 : W.extractLsb' 24 6 = 0x32#6 := by rw [hW]; simp (disch := decide) only [ex_hi, ex_lo, ex_all, Nat.reduceSub]
  have wf30_2 : W.extractLsb' 30 2 = q.code := by rw [hW]; simp (disch := decide) only [ex_hi, ex_lo, ex_all, Nat.reduceSub]
  generalize hX' : (encodeExt (.abort ⟨q⟩)).getD 0 = X
  have hX : X = 0#32 := hX'.symm
  have xf0_32 : X.extractLsb' 0 32 = 0#32 := by rw [hX]; simp (disch := decide) only [ex_hi, ex_lo, ex_all, Nat.reduceSub]
  exact roundTrip_two hW' hX' rfl rfl wf24_6 rfl (fun h => nomatch h) wf30_2 (by
    rw [decodeTwo_32 _ _ _ wf24_6]
    simp only [decodeConvoy, ↓reduceIte, BitVec.reduceEq, and_false, false_and, and_self, not_true_eq_false, and_true, true_and, wf0_9, wf9_15, xf0_32])

theorem RoundTrip.abortLineArrival (l : Nat) (k : ClusterId) : RoundTrip.Statement (.abortLineArrival l k) := fun h => nomatch h

theorem RoundTrip.abchk (o : XQ) : RoundTrip.Statement (.abchk o) := by
  obtain ⟨q⟩ := o
  generalize hW' : encode0 (.abchk ⟨q⟩) = W
  have hW : W = q.code ++ 0x32#6 ++ 0#15 ++ 0x4#9 := hW'.symm
  have wf0_9 : W.extractLsb' 0 9 = 0x4#9 := by rw [hW]; simp (disch := decide) only [ex_hi, ex_lo, ex_all, Nat.reduceSub]
  have wf9_15 : W.extractLsb' 9 15 = 0#15 := by rw [hW]; simp (disch := decide) only [ex_hi, ex_lo, ex_all, Nat.reduceSub]
  have wf24_6 : W.extractLsb' 24 6 = 0x32#6 := by rw [hW]; simp (disch := decide) only [ex_hi, ex_lo, ex_all, Nat.reduceSub]
  have wf30_2 : W.extractLsb' 30 2 = q.code := by rw [hW]; simp (disch := decide) only [ex_hi, ex_lo, ex_all, Nat.reduceSub]
  generalize hX' : (encodeExt (.abchk ⟨q⟩)).getD 0 = X
  have hX : X = 0#32 := hX'.symm
  have xf0_32 : X.extractLsb' 0 32 = 0#32 := by rw [hX]; simp (disch := decide) only [ex_hi, ex_lo, ex_all, Nat.reduceSub]
  exact roundTrip_two hW' hX' rfl rfl wf24_6 rfl (fun h => nomatch h) wf30_2 (by
    rw [decodeTwo_32 _ _ _ wf24_6]
    simp only [decodeConvoy, ↓reduceIte, BitVec.reduceEq, and_false, false_and, and_self, not_true_eq_false, and_true, true_and, wf0_9, wf9_15, xf0_32])

theorem RoundTrip.sstep (o : XD) : RoundTrip.Statement (.sstep o) := by
  obtain ⟨q, d⟩ := o
  generalize hW' : encode0 (.sstep ⟨q, d⟩) = W
  have hW : W = q.code ++ 0x32#6 ++ d ++ 0#10 ++ 0x5#9 := hW'.symm
  have wf0_9 : W.extractLsb' 0 9 = 0x5#9 := by rw [hW]; simp (disch := decide) only [ex_hi, ex_lo, ex_all, Nat.reduceSub]
  have wf9_10 : W.extractLsb' 9 10 = 0#10 := by rw [hW]; simp (disch := decide) only [ex_hi, ex_lo, ex_all, Nat.reduceSub]
  have wf19_5 : W.extractLsb' 19 5 = d := by rw [hW]; simp (disch := decide) only [ex_hi, ex_lo, ex_all, Nat.reduceSub]
  have wf24_6 : W.extractLsb' 24 6 = 0x32#6 := by rw [hW]; simp (disch := decide) only [ex_hi, ex_lo, ex_all, Nat.reduceSub]
  have wf30_2 : W.extractLsb' 30 2 = q.code := by rw [hW]; simp (disch := decide) only [ex_hi, ex_lo, ex_all, Nat.reduceSub]
  generalize hX' : (encodeExt (.sstep ⟨q, d⟩)).getD 0 = X
  have hX : X = 0#32 := hX'.symm
  have xf0_32 : X.extractLsb' 0 32 = 0#32 := by rw [hX]; simp (disch := decide) only [ex_hi, ex_lo, ex_all, Nat.reduceSub]
  exact roundTrip_two hW' hX' rfl rfl wf24_6 rfl (fun h => nomatch h) wf30_2 (by
    rw [decodeTwo_32 _ _ _ wf24_6]
    simp only [decodeConvoy, ↓reduceIte, BitVec.reduceEq, and_false, false_and, and_self, not_true_eq_false, and_true, true_and, wf0_9, wf9_10, xf0_32, wf19_5])

theorem RoundTrip.sstepComplete (l : Nat) (gang : Nat) : RoundTrip.Statement (.sstepComplete l gang) := fun h => nomatch h

theorem RoundTrip.trig (o : XQ) : RoundTrip.Statement (.trig o) := by
  obtain ⟨q⟩ := o
  generalize hW' : encode0 (.trig ⟨q⟩) = W
  have hW : W = q.code ++ 0x32#6 ++ 0#15 ++ 0x6#9 := hW'.symm
  have wf0_9 : W.extractLsb' 0 9 = 0x6#9 := by rw [hW]; simp (disch := decide) only [ex_hi, ex_lo, ex_all, Nat.reduceSub]
  have wf9_15 : W.extractLsb' 9 15 = 0#15 := by rw [hW]; simp (disch := decide) only [ex_hi, ex_lo, ex_all, Nat.reduceSub]
  have wf24_6 : W.extractLsb' 24 6 = 0x32#6 := by rw [hW]; simp (disch := decide) only [ex_hi, ex_lo, ex_all, Nat.reduceSub]
  have wf30_2 : W.extractLsb' 30 2 = q.code := by rw [hW]; simp (disch := decide) only [ex_hi, ex_lo, ex_all, Nat.reduceSub]
  generalize hX' : (encodeExt (.trig ⟨q⟩)).getD 0 = X
  have hX : X = 0#32 := hX'.symm
  have xf0_32 : X.extractLsb' 0 32 = 0#32 := by rw [hX]; simp (disch := decide) only [ex_hi, ex_lo, ex_all, Nat.reduceSub]
  exact roundTrip_two hW' hX' rfl rfl wf24_6 rfl (fun h => nomatch h) wf30_2 (by
    rw [decodeTwo_32 _ _ _ wf24_6]
    simp only [decodeConvoy, ↓reduceIte, BitVec.reduceEq, and_false, false_and, and_self, not_true_eq_false, and_true, true_and, wf0_9, wf9_15, xf0_32])

theorem RoundTrip.alease (o : AleaseO) : RoundTrip.Statement (.alease o) := by
  obtain ⟨q, d, a, ta, chain⟩ := o
  generalize hW' : encode0 (.alease ⟨q, d, a, ta, chain⟩) = W
  have hW : W = q.code ++ 0x38#6 ++ d ++ a ++ 0#5 ++ 0x0#9 := hW'.symm
  have wf0_9 : W.extractLsb' 0 9 = 0x0#9 := by rw [hW]; simp (disch := decide) only [ex_hi, ex_lo, ex_all, Nat.reduceSub]
  have wf9_5 : W.extractLsb' 9 5 = 0#5 := by rw [hW]; simp (disch := decide) only [ex_hi, ex_lo, ex_all, Nat.reduceSub]
  have wf19_5 : W.extractLsb' 19 5 = d := by rw [hW]; simp (disch := decide) only [ex_hi, ex_lo, ex_all, Nat.reduceSub]
  have wf14_5 : W.extractLsb' 14 5 = a := by rw [hW]; simp (disch := decide) only [ex_hi, ex_lo, ex_all, Nat.reduceSub]
  have wf24_6 : W.extractLsb' 24 6 = 0x38#6 := by rw [hW]; simp (disch := decide) only [ex_hi, ex_lo, ex_all, Nat.reduceSub]
  have wf30_2 : W.extractLsb' 30 2 = q.code := by rw [hW]; simp (disch := decide) only [ex_hi, ex_lo, ex_all, Nat.reduceSub]
  generalize hX' : (encodeExt (.alease ⟨q, d, a, ta, chain⟩)).getD 0 = X
  have hX : X = bit ta ++ 0#29 ++ chain := hX'.symm
  have xf2_29 : X.extractLsb' 2 29 = 0#29 := by rw [hX]; simp (disch := decide) only [ex_hi, ex_lo, ex_all, Nat.reduceSub]
  have xb31 : X.getLsbD 31 = ta := by rw [hX]; simp (disch := decide) only [gl_hi, gl_lo, bit_get, Nat.reduceSub]
  have xf0_2 : X.extractLsb' 0 2 = chain := by rw [hX]; simp (disch := decide) only [ex_hi, ex_lo, ex_all, Nat.reduceSub]
  exact roundTrip_two hW' hX' rfl rfl wf24_6 rfl (fun h => nomatch h) wf30_2 (by
    rw [decodeTwo_38 _ _ _ wf24_6]
    simp only [decodeOpt, ↓reduceIte, BitVec.reduceEq, and_false, false_and, and_self, not_true_eq_false, and_true, true_and, wf0_9, wf9_5, xf2_29, wf19_5, wf14_5, xb31, xf0_2])

theorem RoundTrip.afree (o : XA) : RoundTrip.Statement (.afree o) := by
  obtain ⟨q, a, ta⟩ := o
  generalize hW' : encode0 (.afree ⟨q, a, ta⟩) = W
  have hW : W = q.code ++ 0x38#6 ++ 0#5 ++ a ++ 0#5 ++ 0x1#9 := hW'.symm
  have wf0_9 : W.extractLsb' 0 9 = 0x1#9 := by rw [hW]; simp (disch := decide) only [ex_hi, ex_lo, ex_all, Nat.reduceSub]
  have wf19_5 : W.extractLsb' 19 5 = 0#5 := by rw [hW]; simp (disch := decide) only [ex_hi, ex_lo, ex_all, Nat.reduceSub]
  have wf9_5 : W.extractLsb' 9 5 = 0#5 := by rw [hW]; simp (disch := decide) only [ex_hi, ex_lo, ex_all, Nat.reduceSub]
  have wf14_5 : W.extractLsb' 14 5 = a := by rw [hW]; simp (disch := decide) only [ex_hi, ex_lo, ex_all, Nat.reduceSub]
  have wf24_6 : W.extractLsb' 24 6 = 0x38#6 := by rw [hW]; simp (disch := decide) only [ex_hi, ex_lo, ex_all, Nat.reduceSub]
  have wf30_2 : W.extractLsb' 30 2 = q.code := by rw [hW]; simp (disch := decide) only [ex_hi, ex_lo, ex_all, Nat.reduceSub]
  generalize hX' : (encodeExt (.afree ⟨q, a, ta⟩)).getD 0 = X
  have hX : X = bit ta ++ 0#31 := hX'.symm
  have xf0_31 : X.extractLsb' 0 31 = 0#31 := by rw [hX]; simp (disch := decide) only [ex_hi, ex_lo, ex_all, Nat.reduceSub]
  have xb31 : X.getLsbD 31 = ta := by rw [hX]; simp (disch := decide) only [gl_hi, gl_lo, bit_get, Nat.reduceSub]
  exact roundTrip_two hW' hX' rfl rfl wf24_6 rfl (fun h => nomatch h) wf30_2 (by
    rw [decodeTwo_38 _ _ _ wf24_6]
    simp only [decodeOpt, ↓reduceIte, BitVec.reduceEq, and_false, false_and, and_self, not_true_eq_false, and_true, true_and, wf0_9, wf19_5, wf9_5, xf0_31, wf14_5, xb31])

theorem RoundTrip.opass (o : XHAB) : RoundTrip.Statement (.opass o) := by
  obtain ⟨q, d, a, b, ta, tb, inb⟩ := o
  generalize hW' : encode0 (.opass ⟨q, d, a, b, ta, tb, inb⟩) = W
  have hW : W = q.code ++ 0x38#6 ++ 0#2 ++ d ++ a ++ b ++ 0x2#9 := hW'.symm
  have wf0_9 : W.extractLsb' 0 9 = 0x2#9 := by rw [hW]; simp (disch := decide) only [ex_hi, ex_lo, ex_all, Nat.reduceSub]
  have wf22_2 : W.extractLsb' 22 2 = 0#2 := by rw [hW]; simp (disch := decide) only [ex_hi, ex_lo, ex_all, Nat.reduceSub]
  have wf19_3 : W.extractLsb' 19 3 = d := by rw [hW]; simp (disch := decide) only [ex_hi, ex_lo, ex_all, Nat.reduceSub]
  have wf14_5 : W.extractLsb' 14 5 = a := by rw [hW]; simp (disch := decide) only [ex_hi, ex_lo, ex_all, Nat.reduceSub]
  have wf9_5 : W.extractLsb' 9 5 = b := by rw [hW]; simp (disch := decide) only [ex_hi, ex_lo, ex_all, Nat.reduceSub]
  have wf24_6 : W.extractLsb' 24 6 = 0x38#6 := by rw [hW]; simp (disch := decide) only [ex_hi, ex_lo, ex_all, Nat.reduceSub]
  have wf30_2 : W.extractLsb' 30 2 = q.code := by rw [hW]; simp (disch := decide) only [ex_hi, ex_lo, ex_all, Nat.reduceSub]
  generalize hX' : (encodeExt (.opass ⟨q, d, a, b, ta, tb, inb⟩)).getD 0 = X
  have hX : X = bit ta ++ bit tb ++ bit inb ++ 0#29 := hX'.symm
  have xf0_29 : X.extractLsb' 0 29 = 0#29 := by rw [hX]; simp (disch := decide) only [ex_hi, ex_lo, ex_all, Nat.reduceSub]
  have xb31 : X.getLsbD 31 = ta := by rw [hX]; simp (disch := decide) only [gl_hi, gl_lo, bit_get, Nat.reduceSub]
  have xb30 : X.getLsbD 30 = tb := by rw [hX]; simp (disch := decide) only [gl_hi, gl_lo, bit_get, Nat.reduceSub]
  have xb29 : X.getLsbD 29 = inb := by rw [hX]; simp (disch := decide) only [gl_hi, gl_lo, bit_get, Nat.reduceSub]
  exact roundTrip_two hW' hX' rfl rfl wf24_6 rfl (fun h => nomatch h) wf30_2 (by
    rw [decodeTwo_38 _ _ _ wf24_6]
    simp only [decodeOpt, ↓reduceIte, BitVec.reduceEq, and_false, false_and, and_self, not_true_eq_false, and_true, true_and, wf0_9, wf22_2, xf0_29, wf19_3, wf14_5, wf9_5, xb31, xb30, xb29])

theorem RoundTrip.opassr (o : XHAB) : RoundTrip.Statement (.opassr o) := by
  obtain ⟨q, d, a, b, ta, tb, inb⟩ := o
  generalize hW' : encode0 (.opassr ⟨q, d, a, b, ta, tb, inb⟩) = W
  have hW : W = q.code ++ 0x38#6 ++ 0#2 ++ d ++ a ++ b ++ 0x3#9 := hW'.symm
  have wf0_9 : W.extractLsb' 0 9 = 0x3#9 := by rw [hW]; simp (disch := decide) only [ex_hi, ex_lo, ex_all, Nat.reduceSub]
  have wf22_2 : W.extractLsb' 22 2 = 0#2 := by rw [hW]; simp (disch := decide) only [ex_hi, ex_lo, ex_all, Nat.reduceSub]
  have wf19_3 : W.extractLsb' 19 3 = d := by rw [hW]; simp (disch := decide) only [ex_hi, ex_lo, ex_all, Nat.reduceSub]
  have wf14_5 : W.extractLsb' 14 5 = a := by rw [hW]; simp (disch := decide) only [ex_hi, ex_lo, ex_all, Nat.reduceSub]
  have wf9_5 : W.extractLsb' 9 5 = b := by rw [hW]; simp (disch := decide) only [ex_hi, ex_lo, ex_all, Nat.reduceSub]
  have wf24_6 : W.extractLsb' 24 6 = 0x38#6 := by rw [hW]; simp (disch := decide) only [ex_hi, ex_lo, ex_all, Nat.reduceSub]
  have wf30_2 : W.extractLsb' 30 2 = q.code := by rw [hW]; simp (disch := decide) only [ex_hi, ex_lo, ex_all, Nat.reduceSub]
  generalize hX' : (encodeExt (.opassr ⟨q, d, a, b, ta, tb, inb⟩)).getD 0 = X
  have hX : X = bit ta ++ bit tb ++ bit inb ++ 0#29 := hX'.symm
  have xf0_29 : X.extractLsb' 0 29 = 0#29 := by rw [hX]; simp (disch := decide) only [ex_hi, ex_lo, ex_all, Nat.reduceSub]
  have xb31 : X.getLsbD 31 = ta := by rw [hX]; simp (disch := decide) only [gl_hi, gl_lo, bit_get, Nat.reduceSub]
  have xb30 : X.getLsbD 30 = tb := by rw [hX]; simp (disch := decide) only [gl_hi, gl_lo, bit_get, Nat.reduceSub]
  have xb29 : X.getLsbD 29 = inb := by rw [hX]; simp (disch := decide) only [gl_hi, gl_lo, bit_get, Nat.reduceSub]
  exact roundTrip_two hW' hX' rfl rfl wf24_6 rfl (fun h => nomatch h) wf30_2 (by
    rw [decodeTwo_38 _ _ _ wf24_6]
    simp only [decodeOpt, ↓reduceIte, BitVec.reduceEq, and_false, false_and, and_self, not_true_eq_false, and_true, true_and, wf0_9, wf22_2, xf0_29, wf19_3, wf14_5, wf9_5, xb31, xb30, xb29])

theorem RoundTrip.oprobe (o : XHAB) : RoundTrip.Statement (.oprobe o) := by
  obtain ⟨q, d, a, b, ta, tb, inb⟩ := o
  generalize hW' : encode0 (.oprobe ⟨q, d, a, b, ta, tb, inb⟩) = W
  have hW : W = q.code ++ 0x38#6 ++ 0#2 ++ d ++ a ++ b ++ 0x4#9 := hW'.symm
  have wf0_9 : W.extractLsb' 0 9 = 0x4#9 := by rw [hW]; simp (disch := decide) only [ex_hi, ex_lo, ex_all, Nat.reduceSub]
  have wf22_2 : W.extractLsb' 22 2 = 0#2 := by rw [hW]; simp (disch := decide) only [ex_hi, ex_lo, ex_all, Nat.reduceSub]
  have wf19_3 : W.extractLsb' 19 3 = d := by rw [hW]; simp (disch := decide) only [ex_hi, ex_lo, ex_all, Nat.reduceSub]
  have wf14_5 : W.extractLsb' 14 5 = a := by rw [hW]; simp (disch := decide) only [ex_hi, ex_lo, ex_all, Nat.reduceSub]
  have wf9_5 : W.extractLsb' 9 5 = b := by rw [hW]; simp (disch := decide) only [ex_hi, ex_lo, ex_all, Nat.reduceSub]
  have wf24_6 : W.extractLsb' 24 6 = 0x38#6 := by rw [hW]; simp (disch := decide) only [ex_hi, ex_lo, ex_all, Nat.reduceSub]
  have wf30_2 : W.extractLsb' 30 2 = q.code := by rw [hW]; simp (disch := decide) only [ex_hi, ex_lo, ex_all, Nat.reduceSub]
  generalize hX' : (encodeExt (.oprobe ⟨q, d, a, b, ta, tb, inb⟩)).getD 0 = X
  have hX : X = bit ta ++ bit tb ++ bit inb ++ 0#29 := hX'.symm
  have xf0_29 : X.extractLsb' 0 29 = 0#29 := by rw [hX]; simp (disch := decide) only [ex_hi, ex_lo, ex_all, Nat.reduceSub]
  have xb31 : X.getLsbD 31 = ta := by rw [hX]; simp (disch := decide) only [gl_hi, gl_lo, bit_get, Nat.reduceSub]
  have xb30 : X.getLsbD 30 = tb := by rw [hX]; simp (disch := decide) only [gl_hi, gl_lo, bit_get, Nat.reduceSub]
  have xb29 : X.getLsbD 29 = inb := by rw [hX]; simp (disch := decide) only [gl_hi, gl_lo, bit_get, Nat.reduceSub]
  exact roundTrip_two hW' hX' rfl rfl wf24_6 rfl (fun h => nomatch h) wf30_2 (by
    rw [decodeTwo_38 _ _ _ wf24_6]
    simp only [decodeOpt, ↓reduceIte, BitVec.reduceEq, and_false, false_and, and_self, not_true_eq_false, and_true, true_and, wf0_9, wf22_2, xf0_29, wf19_3, wf14_5, wf9_5, xb31, xb30, xb29])

theorem RoundTrip.passGrant (m : MeshId) : RoundTrip.Statement (.passGrant m) := fun h => nomatch h

theorem RoundTrip.passEnd (m : MeshId) : RoundTrip.Statement (.passEnd m) := fun h => nomatch h

theorem RoundTrip.passCommit (m : MeshId) : RoundTrip.Statement (.passCommit m) := fun h => nomatch h

theorem RoundTrip.bankLoadComplete (m : MeshId) : RoundTrip.Statement (.bankLoadComplete m) := fun h => nomatch h

theorem RoundTrip.autoProbe (m : MeshId) : RoundTrip.Statement (.autoProbe m) := fun h => nomatch h

theorem RoundTrip.thermalUnlock (m : MeshId) : RoundTrip.Statement (.thermalUnlock m) := fun h => nomatch h

theorem RoundTrip.thermalRelock (m : MeshId) : RoundTrip.Statement (.thermalRelock m) := fun h => nomatch h

theorem RoundTrip.phld (o : XHAB) : RoundTrip.Statement (.phld o) := by
  obtain ⟨q, d, a, b, ta, tb, inb⟩ := o
  generalize hW' : encode0 (.phld ⟨q, d, a, b, ta, tb, inb⟩) = W
  have hW : W = q.code ++ 0x39#6 ++ 0#2 ++ d ++ a ++ b ++ 0x0#9 := hW'.symm
  have wf0_9 : W.extractLsb' 0 9 = 0x0#9 := by rw [hW]; simp (disch := decide) only [ex_hi, ex_lo, ex_all, Nat.reduceSub]
  have wf22_2 : W.extractLsb' 22 2 = 0#2 := by rw [hW]; simp (disch := decide) only [ex_hi, ex_lo, ex_all, Nat.reduceSub]
  have wf19_3 : W.extractLsb' 19 3 = d := by rw [hW]; simp (disch := decide) only [ex_hi, ex_lo, ex_all, Nat.reduceSub]
  have wf14_5 : W.extractLsb' 14 5 = a := by rw [hW]; simp (disch := decide) only [ex_hi, ex_lo, ex_all, Nat.reduceSub]
  have wf9_5 : W.extractLsb' 9 5 = b := by rw [hW]; simp (disch := decide) only [ex_hi, ex_lo, ex_all, Nat.reduceSub]
  have wf24_6 : W.extractLsb' 24 6 = 0x39#6 := by rw [hW]; simp (disch := decide) only [ex_hi, ex_lo, ex_all, Nat.reduceSub]
  have wf30_2 : W.extractLsb' 30 2 = q.code := by rw [hW]; simp (disch := decide) only [ex_hi, ex_lo, ex_all, Nat.reduceSub]
  generalize hX' : (encodeExt (.phld ⟨q, d, a, b, ta, tb, inb⟩)).getD 0 = X
  have hX : X = bit ta ++ bit tb ++ bit inb ++ 0#29 := hX'.symm
  have xf0_29 : X.extractLsb' 0 29 = 0#29 := by rw [hX]; simp (disch := decide) only [ex_hi, ex_lo, ex_all, Nat.reduceSub]
  have xb31 : X.getLsbD 31 = ta := by rw [hX]; simp (disch := decide) only [gl_hi, gl_lo, bit_get, Nat.reduceSub]
  have xb30 : X.getLsbD 30 = tb := by rw [hX]; simp (disch := decide) only [gl_hi, gl_lo, bit_get, Nat.reduceSub]
  have xb29 : X.getLsbD 29 = inb := by rw [hX]; simp (disch := decide) only [gl_hi, gl_lo, bit_get, Nat.reduceSub]
  exact roundTrip_two hW' hX' rfl rfl wf24_6 rfl (fun h => nomatch h) wf30_2 (by
    rw [decodeTwo_39 _ _ _ wf24_6]
    simp only [decodePhase, ↓reduceIte, BitVec.reduceEq, and_false, false_and, and_self, not_true_eq_false, and_true, true_and, wf0_9, wf22_2, xf0_29, wf19_3, wf14_5, wf9_5, xb31, xb30, xb29])

theorem RoundTrip.phdec (o : XHAB) : RoundTrip.Statement (.phdec o) := by
  obtain ⟨q, d, a, b, ta, tb, inb⟩ := o
  generalize hW' : encode0 (.phdec ⟨q, d, a, b, ta, tb, inb⟩) = W
  have hW : W = q.code ++ 0x39#6 ++ 0#2 ++ d ++ a ++ b ++ 0x1#9 := hW'.symm
  have wf0_9 : W.extractLsb' 0 9 = 0x1#9 := by rw [hW]; simp (disch := decide) only [ex_hi, ex_lo, ex_all, Nat.reduceSub]
  have wf22_2 : W.extractLsb' 22 2 = 0#2 := by rw [hW]; simp (disch := decide) only [ex_hi, ex_lo, ex_all, Nat.reduceSub]
  have wf19_3 : W.extractLsb' 19 3 = d := by rw [hW]; simp (disch := decide) only [ex_hi, ex_lo, ex_all, Nat.reduceSub]
  have wf14_5 : W.extractLsb' 14 5 = a := by rw [hW]; simp (disch := decide) only [ex_hi, ex_lo, ex_all, Nat.reduceSub]
  have wf9_5 : W.extractLsb' 9 5 = b := by rw [hW]; simp (disch := decide) only [ex_hi, ex_lo, ex_all, Nat.reduceSub]
  have wf24_6 : W.extractLsb' 24 6 = 0x39#6 := by rw [hW]; simp (disch := decide) only [ex_hi, ex_lo, ex_all, Nat.reduceSub]
  have wf30_2 : W.extractLsb' 30 2 = q.code := by rw [hW]; simp (disch := decide) only [ex_hi, ex_lo, ex_all, Nat.reduceSub]
  generalize hX' : (encodeExt (.phdec ⟨q, d, a, b, ta, tb, inb⟩)).getD 0 = X
  have hX : X = bit ta ++ bit tb ++ bit inb ++ 0#29 := hX'.symm
  have xf0_29 : X.extractLsb' 0 29 = 0#29 := by rw [hX]; simp (disch := decide) only [ex_hi, ex_lo, ex_all, Nat.reduceSub]
  have xb31 : X.getLsbD 31 = ta := by rw [hX]; simp (disch := decide) only [gl_hi, gl_lo, bit_get, Nat.reduceSub]
  have xb30 : X.getLsbD 30 = tb := by rw [hX]; simp (disch := decide) only [gl_hi, gl_lo, bit_get, Nat.reduceSub]
  have xb29 : X.getLsbD 29 = inb := by rw [hX]; simp (disch := decide) only [gl_hi, gl_lo, bit_get, Nat.reduceSub]
  exact roundTrip_two hW' hX' rfl rfl wf24_6 rfl (fun h => nomatch h) wf30_2 (by
    rw [decodeTwo_39 _ _ _ wf24_6]
    simp only [decodePhase, ↓reduceIte, BitVec.reduceEq, and_false, false_and, and_self, not_true_eq_false, and_true, true_and, wf0_9, wf22_2, xf0_29, wf19_3, wf14_5, wf9_5, xb31, xb30, xb29])

theorem RoundTrip.decompositionComplete (die : BitVec 4) (engine : BitVec 4) : RoundTrip.Statement (.decompositionComplete die engine) := fun h => nomatch h

theorem RoundTrip.phadj (o : XHAB) : RoundTrip.Statement (.phadj o) := by
  obtain ⟨q, d, a, b, ta, tb, inb⟩ := o
  generalize hW' : encode0 (.phadj ⟨q, d, a, b, ta, tb, inb⟩) = W
  have hW : W = q.code ++ 0x39#6 ++ 0#2 ++ d ++ a ++ b ++ 0x2#9 := hW'.symm
  have wf0_9 : W.extractLsb' 0 9 = 0x2#9 := by rw [hW]; simp (disch := decide) only [ex_hi, ex_lo, ex_all, Nat.reduceSub]
  have wf22_2 : W.extractLsb' 22 2 = 0#2 := by rw [hW]; simp (disch := decide) only [ex_hi, ex_lo, ex_all, Nat.reduceSub]
  have wf19_3 : W.extractLsb' 19 3 = d := by rw [hW]; simp (disch := decide) only [ex_hi, ex_lo, ex_all, Nat.reduceSub]
  have wf14_5 : W.extractLsb' 14 5 = a := by rw [hW]; simp (disch := decide) only [ex_hi, ex_lo, ex_all, Nat.reduceSub]
  have wf9_5 : W.extractLsb' 9 5 = b := by rw [hW]; simp (disch := decide) only [ex_hi, ex_lo, ex_all, Nat.reduceSub]
  have wf24_6 : W.extractLsb' 24 6 = 0x39#6 := by rw [hW]; simp (disch := decide) only [ex_hi, ex_lo, ex_all, Nat.reduceSub]
  have wf30_2 : W.extractLsb' 30 2 = q.code := by rw [hW]; simp (disch := decide) only [ex_hi, ex_lo, ex_all, Nat.reduceSub]
  generalize hX' : (encodeExt (.phadj ⟨q, d, a, b, ta, tb, inb⟩)).getD 0 = X
  have hX : X = bit ta ++ bit tb ++ bit inb ++ 0#29 := hX'.symm
  have xf0_29 : X.extractLsb' 0 29 = 0#29 := by rw [hX]; simp (disch := decide) only [ex_hi, ex_lo, ex_all, Nat.reduceSub]
  have xb31 : X.getLsbD 31 = ta := by rw [hX]; simp (disch := decide) only [gl_hi, gl_lo, bit_get, Nat.reduceSub]
  have xb30 : X.getLsbD 30 = tb := by rw [hX]; simp (disch := decide) only [gl_hi, gl_lo, bit_get, Nat.reduceSub]
  have xb29 : X.getLsbD 29 = inb := by rw [hX]; simp (disch := decide) only [gl_hi, gl_lo, bit_get, Nat.reduceSub]
  exact roundTrip_two hW' hX' rfl rfl wf24_6 rfl (fun h => nomatch h) wf30_2 (by
    rw [decodeTwo_39 _ _ _ wf24_6]
    simp only [decodePhase, ↓reduceIte, BitVec.reduceEq, and_false, false_and, and_self, not_true_eq_false, and_true, true_and, wf0_9, wf22_2, xf0_29, wf19_3, wf14_5, wf9_5, xb31, xb30, xb29])

theorem RoundTrip.phwr (o : XHAB) : RoundTrip.Statement (.phwr o) := by
  obtain ⟨q, d, a, b, ta, tb, inb⟩ := o
  generalize hW' : encode0 (.phwr ⟨q, d, a, b, ta, tb, inb⟩) = W
  have hW : W = q.code ++ 0x39#6 ++ 0#2 ++ d ++ a ++ b ++ 0x3#9 := hW'.symm
  have wf0_9 : W.extractLsb' 0 9 = 0x3#9 := by rw [hW]; simp (disch := decide) only [ex_hi, ex_lo, ex_all, Nat.reduceSub]
  have wf22_2 : W.extractLsb' 22 2 = 0#2 := by rw [hW]; simp (disch := decide) only [ex_hi, ex_lo, ex_all, Nat.reduceSub]
  have wf19_3 : W.extractLsb' 19 3 = d := by rw [hW]; simp (disch := decide) only [ex_hi, ex_lo, ex_all, Nat.reduceSub]
  have wf14_5 : W.extractLsb' 14 5 = a := by rw [hW]; simp (disch := decide) only [ex_hi, ex_lo, ex_all, Nat.reduceSub]
  have wf9_5 : W.extractLsb' 9 5 = b := by rw [hW]; simp (disch := decide) only [ex_hi, ex_lo, ex_all, Nat.reduceSub]
  have wf24_6 : W.extractLsb' 24 6 = 0x39#6 := by rw [hW]; simp (disch := decide) only [ex_hi, ex_lo, ex_all, Nat.reduceSub]
  have wf30_2 : W.extractLsb' 30 2 = q.code := by rw [hW]; simp (disch := decide) only [ex_hi, ex_lo, ex_all, Nat.reduceSub]
  generalize hX' : (encodeExt (.phwr ⟨q, d, a, b, ta, tb, inb⟩)).getD 0 = X
  have hX : X = bit ta ++ bit tb ++ bit inb ++ 0#29 := hX'.symm
  have xf0_29 : X.extractLsb' 0 29 = 0#29 := by rw [hX]; simp (disch := decide) only [ex_hi, ex_lo, ex_all, Nat.reduceSub]
  have xb31 : X.getLsbD 31 = ta := by rw [hX]; simp (disch := decide) only [gl_hi, gl_lo, bit_get, Nat.reduceSub]
  have xb30 : X.getLsbD 30 = tb := by rw [hX]; simp (disch := decide) only [gl_hi, gl_lo, bit_get, Nat.reduceSub]
  have xb29 : X.getLsbD 29 = inb := by rw [hX]; simp (disch := decide) only [gl_hi, gl_lo, bit_get, Nat.reduceSub]
  exact roundTrip_two hW' hX' rfl rfl wf24_6 rfl (fun h => nomatch h) wf30_2 (by
    rw [decodeTwo_39 _ _ _ wf24_6]
    simp only [decodePhase, ↓reduceIte, BitVec.reduceEq, and_false, false_and, and_self, not_true_eq_false, and_true, true_and, wf0_9, wf22_2, xf0_29, wf19_3, wf14_5, wf9_5, xb31, xb30, xb29])

theorem RoundTrip.phrd (o : XHAB) : RoundTrip.Statement (.phrd o) := by
  obtain ⟨q, d, a, b, ta, tb, inb⟩ := o
  generalize hW' : encode0 (.phrd ⟨q, d, a, b, ta, tb, inb⟩) = W
  have hW : W = q.code ++ 0x39#6 ++ 0#2 ++ d ++ a ++ b ++ 0x4#9 := hW'.symm
  have wf0_9 : W.extractLsb' 0 9 = 0x4#9 := by rw [hW]; simp (disch := decide) only [ex_hi, ex_lo, ex_all, Nat.reduceSub]
  have wf22_2 : W.extractLsb' 22 2 = 0#2 := by rw [hW]; simp (disch := decide) only [ex_hi, ex_lo, ex_all, Nat.reduceSub]
  have wf19_3 : W.extractLsb' 19 3 = d := by rw [hW]; simp (disch := decide) only [ex_hi, ex_lo, ex_all, Nat.reduceSub]
  have wf14_5 : W.extractLsb' 14 5 = a := by rw [hW]; simp (disch := decide) only [ex_hi, ex_lo, ex_all, Nat.reduceSub]
  have wf9_5 : W.extractLsb' 9 5 = b := by rw [hW]; simp (disch := decide) only [ex_hi, ex_lo, ex_all, Nat.reduceSub]
  have wf24_6 : W.extractLsb' 24 6 = 0x39#6 := by rw [hW]; simp (disch := decide) only [ex_hi, ex_lo, ex_all, Nat.reduceSub]
  have wf30_2 : W.extractLsb' 30 2 = q.code := by rw [hW]; simp (disch := decide) only [ex_hi, ex_lo, ex_all, Nat.reduceSub]
  generalize hX' : (encodeExt (.phrd ⟨q, d, a, b, ta, tb, inb⟩)).getD 0 = X
  have hX : X = bit ta ++ bit tb ++ bit inb ++ 0#29 := hX'.symm
  have xf0_29 : X.extractLsb' 0 29 = 0#29 := by rw [hX]; simp (disch := decide) only [ex_hi, ex_lo, ex_all, Nat.reduceSub]
  have xb31 : X.getLsbD 31 = ta := by rw [hX]; simp (disch := decide) only [gl_hi, gl_lo, bit_get, Nat.reduceSub]
  have xb30 : X.getLsbD 30 = tb := by rw [hX]; simp (disch := decide) only [gl_hi, gl_lo, bit_get, Nat.reduceSub]
  have xb29 : X.getLsbD 29 = inb := by rw [hX]; simp (disch := decide) only [gl_hi, gl_lo, bit_get, Nat.reduceSub]
  exact roundTrip_two hW' hX' rfl rfl wf24_6 rfl (fun h => nomatch h) wf30_2 (by
    rw [decodeTwo_39 _ _ _ wf24_6]
    simp only [decodePhase, ↓reduceIte, BitVec.reduceEq, and_false, false_and, and_self, not_true_eq_false, and_true, true_and, wf0_9, wf22_2, xf0_29, wf19_3, wf14_5, wf9_5, xb31, xb30, xb29])

theorem RoundTrip.ostat (o : XDA) : RoundTrip.Statement (.ostat o) := by
  obtain ⟨q, d, a, ta⟩ := o
  generalize hW' : encode0 (.ostat ⟨q, d, a, ta⟩) = W
  have hW : W = q.code ++ 0x39#6 ++ d ++ a ++ 0#5 ++ 0x5#9 := hW'.symm
  have wf0_9 : W.extractLsb' 0 9 = 0x5#9 := by rw [hW]; simp (disch := decide) only [ex_hi, ex_lo, ex_all, Nat.reduceSub]
  have wf9_5 : W.extractLsb' 9 5 = 0#5 := by rw [hW]; simp (disch := decide) only [ex_hi, ex_lo, ex_all, Nat.reduceSub]
  have wf19_5 : W.extractLsb' 19 5 = d := by rw [hW]; simp (disch := decide) only [ex_hi, ex_lo, ex_all, Nat.reduceSub]
  have wf14_5 : W.extractLsb' 14 5 = a := by rw [hW]; simp (disch := decide) only [ex_hi, ex_lo, ex_all, Nat.reduceSub]
  have wf24_6 : W.extractLsb' 24 6 = 0x39#6 := by rw [hW]; simp (disch := decide) only [ex_hi, ex_lo, ex_all, Nat.reduceSub]
  have wf30_2 : W.extractLsb' 30 2 = q.code := by rw [hW]; simp (disch := decide) only [ex_hi, ex_lo, ex_all, Nat.reduceSub]
  generalize hX' : (encodeExt (.ostat ⟨q, d, a, ta⟩)).getD 0 = X
  have hX : X = bit ta ++ 0#31 := hX'.symm
  have xf0_31 : X.extractLsb' 0 31 = 0#31 := by rw [hX]; simp (disch := decide) only [ex_hi, ex_lo, ex_all, Nat.reduceSub]
  have xb31 : X.getLsbD 31 = ta := by rw [hX]; simp (disch := decide) only [gl_hi, gl_lo, bit_get, Nat.reduceSub]
  exact roundTrip_two hW' hX' rfl rfl wf24_6 rfl (fun h => nomatch h) wf30_2 (by
    rw [decodeTwo_39 _ _ _ wf24_6]
    simp only [decodePhase, ↓reduceIte, BitVec.reduceEq, and_false, false_and, and_self, not_true_eq_false, and_true, true_and, wf0_9, wf9_5, xf0_31, wf19_5, wf14_5, xb31])

theorem RoundTrip.chainEntryComplete (k : ClusterId) (chain : BitVec 2) : RoundTrip.Statement (.chainEntryComplete k chain) := fun h => nomatch h

theorem RoundTrip.vrdac (o : VaccO) : RoundTrip.Statement (.vrdac o) := by
  obtain ⟨q, d, a, b, ta, tb⟩ := o
  generalize hW' : encode0 (.vrdac ⟨q, d, a, b, ta, tb⟩) = W
  have hW : W = q.code ++ 0x29#6 ++ 0#1 ++ d ++ a ++ b ++ 0x0#9 := hW'.symm
  have wf0_9 : W.extractLsb' 0 9 = 0x0#9 := by rw [hW]; simp (disch := decide) only [ex_hi, ex_lo, ex_all, Nat.reduceSub]
  have wf23_1 : W.extractLsb' 23 1 = 0#1 := by rw [hW]; simp (disch := decide) only [ex_hi, ex_lo, ex_all, Nat.reduceSub]
  have wf19_4 : W.extractLsb' 19 4 = d := by rw [hW]; simp (disch := decide) only [ex_hi, ex_lo, ex_all, Nat.reduceSub]
  have wf14_5 : W.extractLsb' 14 5 = a := by rw [hW]; simp (disch := decide) only [ex_hi, ex_lo, ex_all, Nat.reduceSub]
  have wf9_5 : W.extractLsb' 9 5 = b := by rw [hW]; simp (disch := decide) only [ex_hi, ex_lo, ex_all, Nat.reduceSub]
  have wf24_6 : W.extractLsb' 24 6 = 0x29#6 := by rw [hW]; simp (disch := decide) only [ex_hi, ex_lo, ex_all, Nat.reduceSub]
  have wf30_2 : W.extractLsb' 30 2 = q.code := by rw [hW]; simp (disch := decide) only [ex_hi, ex_lo, ex_all, Nat.reduceSub]
  generalize hX' : (encodeExt (.vrdac ⟨q, d, a, b, ta, tb⟩)).getD 0 = X
  have hX : X = bit ta ++ bit tb ++ 0#1 ++ 0#29 := hX'.symm
  have xf29_1 : X.extractLsb' 29 1 = 0#1 := by rw [hX]; simp (disch := decide) only [ex_hi, ex_lo, ex_all, Nat.reduceSub]
  have xf0_29 : X.extractLsb' 0 29 = 0#29 := by rw [hX]; simp (disch := decide) only [ex_hi, ex_lo, ex_all, Nat.reduceSub]
  have xb31 : X.getLsbD 31 = ta := by rw [hX]; simp (disch := decide) only [gl_hi, gl_lo, bit_get, Nat.reduceSub]
  have xb30 : X.getLsbD 30 = tb := by rw [hX]; simp (disch := decide) only [gl_hi, gl_lo, bit_get, Nat.reduceSub]
  exact roundTrip_two hW' hX' rfl rfl wf24_6 rfl (fun h => nomatch h) wf30_2 (by
    rw [decodeTwo_29 _ _ _ wf24_6]
    simp only [decodeVacc, ↓reduceIte, BitVec.reduceEq, and_false, false_and, and_self, not_true_eq_false, and_true, true_and, wf0_9, wf23_1, xf29_1, xf0_29, wf19_4, wf14_5, wf9_5, xb31, xb30])

theorem RoundTrip.vrdacSnoop (o : VaccO) : RoundTrip.Statement (.vrdacSnoop o) := by
  obtain ⟨q, d, a, b, ta, tb⟩ := o
  generalize hW' : encode0 (.vrdacSnoop ⟨q, d, a, b, ta, tb⟩) = W
  have hW : W = q.code ++ 0x29#6 ++ 0#1 ++ d ++ a ++ b ++ 0x0#9 := hW'.symm
  have wf0_9 : W.extractLsb' 0 9 = 0x0#9 := by rw [hW]; simp (disch := decide) only [ex_hi, ex_lo, ex_all, Nat.reduceSub]
  have wf23_1 : W.extractLsb' 23 1 = 0#1 := by rw [hW]; simp (disch := decide) only [ex_hi, ex_lo, ex_all, Nat.reduceSub]
  have wf19_4 : W.extractLsb' 19 4 = d := by rw [hW]; simp (disch := decide) only [ex_hi, ex_lo, ex_all, Nat.reduceSub]
  have wf14_5 : W.extractLsb' 14 5 = a := by rw [hW]; simp (disch := decide) only [ex_hi, ex_lo, ex_all, Nat.reduceSub]
  have wf9_5 : W.extractLsb' 9 5 = b := by rw [hW]; simp (disch := decide) only [ex_hi, ex_lo, ex_all, Nat.reduceSub]
  have wf24_6 : W.extractLsb' 24 6 = 0x29#6 := by rw [hW]; simp (disch := decide) only [ex_hi, ex_lo, ex_all, Nat.reduceSub]
  have wf30_2 : W.extractLsb' 30 2 = q.code := by rw [hW]; simp (disch := decide) only [ex_hi, ex_lo, ex_all, Nat.reduceSub]
  generalize hX' : (encodeExt (.vrdacSnoop ⟨q, d, a, b, ta, tb⟩)).getD 0 = X
  have hX : X = bit ta ++ bit tb ++ 1#1 ++ 0#29 := hX'.symm
  have xf29_1 : X.extractLsb' 29 1 = 1#1 := by rw [hX]; simp (disch := decide) only [ex_hi, ex_lo, ex_all, Nat.reduceSub]
  have xf0_29 : X.extractLsb' 0 29 = 0#29 := by rw [hX]; simp (disch := decide) only [ex_hi, ex_lo, ex_all, Nat.reduceSub]
  have xb31 : X.getLsbD 31 = ta := by rw [hX]; simp (disch := decide) only [gl_hi, gl_lo, bit_get, Nat.reduceSub]
  have xb30 : X.getLsbD 30 = tb := by rw [hX]; simp (disch := decide) only [gl_hi, gl_lo, bit_get, Nat.reduceSub]
  exact roundTrip_two hW' hX' rfl rfl wf24_6 rfl (fun h => nomatch h) wf30_2 (by
    rw [decodeTwo_29 _ _ _ wf24_6]
    simp only [decodeVacc, ↓reduceIte, BitVec.reduceEq, and_false, false_and, and_self, not_true_eq_false, and_true, true_and, wf0_9, wf23_1, xf29_1, xf0_29, wf19_4, wf14_5, wf9_5, xb31, xb30])

theorem RoundTrip.vwrac (o : VaccO) : RoundTrip.Statement (.vwrac o) := by
  obtain ⟨q, d, a, b, ta, tb⟩ := o
  generalize hW' : encode0 (.vwrac ⟨q, d, a, b, ta, tb⟩) = W
  have hW : W = q.code ++ 0x29#6 ++ 0#1 ++ d ++ a ++ b ++ 0x1#9 := hW'.symm
  have wf0_9 : W.extractLsb' 0 9 = 0x1#9 := by rw [hW]; simp (disch := decide) only [ex_hi, ex_lo, ex_all, Nat.reduceSub]
  have wf23_1 : W.extractLsb' 23 1 = 0#1 := by rw [hW]; simp (disch := decide) only [ex_hi, ex_lo, ex_all, Nat.reduceSub]
  have wf19_4 : W.extractLsb' 19 4 = d := by rw [hW]; simp (disch := decide) only [ex_hi, ex_lo, ex_all, Nat.reduceSub]
  have wf14_5 : W.extractLsb' 14 5 = a := by rw [hW]; simp (disch := decide) only [ex_hi, ex_lo, ex_all, Nat.reduceSub]
  have wf9_5 : W.extractLsb' 9 5 = b := by rw [hW]; simp (disch := decide) only [ex_hi, ex_lo, ex_all, Nat.reduceSub]
  have wf24_6 : W.extractLsb' 24 6 = 0x29#6 := by rw [hW]; simp (disch := decide) only [ex_hi, ex_lo, ex_all, Nat.reduceSub]
  have wf30_2 : W.extractLsb' 30 2 = q.code := by rw [hW]; simp (disch := decide) only [ex_hi, ex_lo, ex_all, Nat.reduceSub]
  generalize hX' : (encodeExt (.vwrac ⟨q, d, a, b, ta, tb⟩)).getD 0 = X
  have hX : X = bit ta ++ bit tb ++ 0#30 := hX'.symm
  have xf0_30 : X.extractLsb' 0 30 = 0#30 := by rw [hX]; simp (disch := decide) only [ex_hi, ex_lo, ex_all, Nat.reduceSub]
  have xb31 : X.getLsbD 31 = ta := by rw [hX]; simp (disch := decide) only [gl_hi, gl_lo, bit_get, Nat.reduceSub]
  have xb30 : X.getLsbD 30 = tb := by rw [hX]; simp (disch := decide) only [gl_hi, gl_lo, bit_get, Nat.reduceSub]
  exact roundTrip_two hW' hX' rfl rfl wf24_6 rfl (fun h => nomatch h) wf30_2 (by
    rw [decodeTwo_29 _ _ _ wf24_6]
    simp only [decodeVacc, ↓reduceIte, BitVec.reduceEq, and_false, false_and, and_self, not_true_eq_false, and_true, true_and, wf0_9, wf23_1, xf0_30, wf19_4, wf14_5, wf9_5, xb31, xb30])

theorem RoundTrip.aclr (o : AclrO) : RoundTrip.Statement (.aclr o) := by
  obtain ⟨q, a, b, ta, tb, nrows⟩ := o
  generalize hW' : encode0 (.aclr ⟨q, a, b, ta, tb, nrows⟩) = W
  have hW : W = q.code ++ 0x29#6 ++ 0#5 ++ a ++ b ++ 0x2#9 := hW'.symm
  have wf0_9 : W.extractLsb' 0 9 = 0x2#9 := by rw [hW]; simp (disch := decide) only [ex_hi, ex_lo, ex_all, Nat.reduceSub]
  have wf19_5 : W.extractLsb' 19 5 = 0#5 := by rw [hW]; simp (disch := decide) only [ex_hi, ex_lo, ex_all, Nat.reduceSub]
  have wf14_5 : W.extractLsb' 14 5 = a := by rw [hW]; simp (disch := decide) only [ex_hi, ex_lo, ex_all, Nat.reduceSub]
  have wf9_5 : W.extractLsb' 9 5 = b := by rw [hW]; simp (disch := decide) only [ex_hi, ex_lo, ex_all, Nat.reduceSub]
  have wf24_6 : W.extractLsb' 24 6 = 0x29#6 := by rw [hW]; simp (disch := decide) only [ex_hi, ex_lo, ex_all, Nat.reduceSub]
  have wf30_2 : W.extractLsb' 30 2 = q.code := by rw [hW]; simp (disch := decide) only [ex_hi, ex_lo, ex_all, Nat.reduceSub]
  generalize hX' : (encodeExt (.aclr ⟨q, a, b, ta, tb, nrows⟩)).getD 0 = X
  have hX : X = bit ta ++ bit tb ++ 0#21 ++ nrows := hX'.symm
  have xf9_21 : X.extractLsb' 9 21 = 0#21 := by rw [hX]; simp (disch := decide) only [ex_hi, ex_lo, ex_all, Nat.reduceSub]
  have xb31 : X.getLsbD 31 = ta := by rw [hX]; simp (disch := decide) only [gl_hi, gl_lo, bit_get, Nat.reduceSub]
  have xb30 : X.getLsbD 30 = tb := by rw [hX]; simp (disch := decide) only [gl_hi, gl_lo, bit_get, Nat.reduceSub]
  have xf0_9 : X.extractLsb' 0 9 = nrows := by rw [hX]; simp (disch := decide) only [ex_hi, ex_lo, ex_all, Nat.reduceSub]
  exact roundTrip_two hW' hX' rfl rfl wf24_6 rfl (fun h => nomatch h) wf30_2 (by
    rw [decodeTwo_29 _ _ _ wf24_6]
    simp only [decodeVacc, ↓reduceIte, BitVec.reduceEq, and_false, false_and, and_self, not_true_eq_false, and_true, true_and, wf0_9, wf19_5, xf9_21, wf14_5, wf9_5, xb31, xb30, xf0_9])

theorem RoundTrip.gld (o : GldO) : RoundTrip.Statement (.gld o) := by
  obtain ⟨q, d, a, ta, off⟩ := o
  generalize hW' : encode0 (.gld ⟨q, d, a, ta, off⟩) = W
  have hW : W = q.code ++ 0x1a#6 ++ d ++ a ++ 0#5 ++ 0x0#9 := hW'.symm
  have wf0_9 : W.extractLsb' 0 9 = 0x0#9 := by rw [hW]; simp (disch := decide) only [ex_hi, ex_lo, ex_all, Nat.reduceSub]
  have wf9_5 : W.extractLsb' 9 5 = 0#5 := by rw [hW]; simp (disch := decide) only [ex_hi, ex_lo, ex_all, Nat.reduceSub]
  have wf19_5 : W.extractLsb' 19 5 = d := by rw [hW]; simp (disch := decide) only [ex_hi, ex_lo, ex_all, Nat.reduceSub]
  have wf14_5 : W.extractLsb' 14 5 = a := by rw [hW]; simp (disch := decide) only [ex_hi, ex_lo, ex_all, Nat.reduceSub]
  have wf24_6 : W.extractLsb' 24 6 = 0x1a#6 := by rw [hW]; simp (disch := decide) only [ex_hi, ex_lo, ex_all, Nat.reduceSub]
  have wf30_2 : W.extractLsb' 30 2 = q.code := by rw [hW]; simp (disch := decide) only [ex_hi, ex_lo, ex_all, Nat.reduceSub]
  generalize hX' : (encodeExt (.gld ⟨q, d, a, ta, off⟩)).getD 0 = X
  have hX : X = bit ta ++ 0#7 ++ off := hX'.symm
  have xf24_7 : X.extractLsb' 24 7 = 0#7 := by rw [hX]; simp (disch := decide) only [ex_hi, ex_lo, ex_all, Nat.reduceSub]
  have xb31 : X.getLsbD 31 = ta := by rw [hX]; simp (disch := decide) only [gl_hi, gl_lo, bit_get, Nat.reduceSub]
  have xf0_24 : X.extractLsb' 0 24 = off := by rw [hX]; simp (disch := decide) only [ex_hi, ex_lo, ex_all, Nat.reduceSub]
  exact roundTrip_two hW' hX' rfl rfl wf24_6 rfl (fun _ _ => rfl) wf30_2 (by
    rw [decodeTwo_1a _ _ _ wf24_6]
    simp only [decodeGmem, ↓reduceIte, BitVec.reduceEq, and_false, false_and, and_self, not_true_eq_false, and_true, true_and, wf0_9, wf9_5, xf24_7, wf19_5, wf14_5, xb31, xf0_24])

theorem RoundTrip.gst (o : GstO) : RoundTrip.Statement (.gst o) := by
  obtain ⟨q, d, a, ta, td, off⟩ := o
  generalize hW' : encode0 (.gst ⟨q, d, a, ta, td, off⟩) = W
  have hW : W = q.code ++ 0x1a#6 ++ d ++ a ++ 0#5 ++ 0x1#9 := hW'.symm
  have wf0_9 : W.extractLsb' 0 9 = 0x1#9 := by rw [hW]; simp (disch := decide) only [ex_hi, ex_lo, ex_all, Nat.reduceSub]
  have wf9_5 : W.extractLsb' 9 5 = 0#5 := by rw [hW]; simp (disch := decide) only [ex_hi, ex_lo, ex_all, Nat.reduceSub]
  have wf19_5 : W.extractLsb' 19 5 = d := by rw [hW]; simp (disch := decide) only [ex_hi, ex_lo, ex_all, Nat.reduceSub]
  have wf14_5 : W.extractLsb' 14 5 = a := by rw [hW]; simp (disch := decide) only [ex_hi, ex_lo, ex_all, Nat.reduceSub]
  have wf24_6 : W.extractLsb' 24 6 = 0x1a#6 := by rw [hW]; simp (disch := decide) only [ex_hi, ex_lo, ex_all, Nat.reduceSub]
  have wf30_2 : W.extractLsb' 30 2 = q.code := by rw [hW]; simp (disch := decide) only [ex_hi, ex_lo, ex_all, Nat.reduceSub]
  generalize hX' : (encodeExt (.gst ⟨q, d, a, ta, td, off⟩)).getD 0 = X
  have hX : X = bit ta ++ bit td ++ 0#6 ++ off := hX'.symm
  have xf24_6 : X.extractLsb' 24 6 = 0#6 := by rw [hX]; simp (disch := decide) only [ex_hi, ex_lo, ex_all, Nat.reduceSub]
  have xb31 : X.getLsbD 31 = ta := by rw [hX]; simp (disch := decide) only [gl_hi, gl_lo, bit_get, Nat.reduceSub]
  have xb30 : X.getLsbD 30 = td := by rw [hX]; simp (disch := decide) only [gl_hi, gl_lo, bit_get, Nat.reduceSub]
  have xf0_24 : X.extractLsb' 0 24 = off := by rw [hX]; simp (disch := decide) only [ex_hi, ex_lo, ex_all, Nat.reduceSub]
  exact roundTrip_two hW' hX' rfl rfl wf24_6 rfl (fun _ _ => rfl) wf30_2 (by
    rw [decodeTwo_1a _ _ _ wf24_6]
    simp only [decodeGmem, ↓reduceIte, BitVec.reduceEq, and_false, false_and, and_self, not_true_eq_false, and_true, true_and, wf0_9, wf9_5, xf24_6, wf19_5, wf14_5, xb31, xb30, xf0_24])

theorem RoundTrip.gldv (o : GvO) : RoundTrip.Statement (.gldv o) := by
  obtain ⟨q, d, a, ta, space, off⟩ := o
  generalize hW' : encode0 (.gldv ⟨q, d, a, ta, space, off⟩) = W
  have hW : W = q.code ++ 0x1a#6 ++ 0#1 ++ d ++ a ++ 0#5 ++ 0x2#9 := hW'.symm
  have wf0_9 : W.extractLsb' 0 9 = 0x2#9 := by rw [hW]; simp (disch := decide) only [ex_hi, ex_lo, ex_all, Nat.reduceSub]
  have wf23_1 : W.extractLsb' 23 1 = 0#1 := by rw [hW]; simp (disch := decide) only [ex_hi, ex_lo, ex_all, Nat.reduceSub]
  have wf9_5 : W.extractLsb' 9 5 = 0#5 := by rw [hW]; simp (disch := decide) only [ex_hi, ex_lo, ex_all, Nat.reduceSub]
  have wf19_4 : W.extractLsb' 19 4 = d := by rw [hW]; simp (disch := decide) only [ex_hi, ex_lo, ex_all, Nat.reduceSub]
  have wf14_5 : W.extractLsb' 14 5 = a := by rw [hW]; simp (disch := decide) only [ex_hi, ex_lo, ex_all, Nat.reduceSub]
  have wf24_6 : W.extractLsb' 24 6 = 0x1a#6 := by rw [hW]; simp (disch := decide) only [ex_hi, ex_lo, ex_all, Nat.reduceSub]
  have wf30_2 : W.extractLsb' 30 2 = q.code := by rw [hW]; simp (disch := decide) only [ex_hi, ex_lo, ex_all, Nat.reduceSub]
  generalize hX' : (encodeExt (.gldv ⟨q, d, a, ta, space, off⟩)).getD 0 = X
  have hX : X = bit ta ++ 0#1 ++ space ++ 0#5 ++ off := hX'.symm
  have xf30_1 : X.extractLsb' 30 1 = 0#1 := by rw [hX]; simp (disch := decide) only [ex_hi, ex_lo, ex_all, Nat.reduceSub]
  have xf24_5 : X.extractLsb' 24 5 = 0#5 := by rw [hX]; simp (disch := decide) only [ex_hi, ex_lo, ex_all, Nat.reduceSub]
  have xb31 : X.getLsbD 31 = ta := by rw [hX]; simp (disch := decide) only [gl_hi, gl_lo, bit_get, Nat.reduceSub]
  have xf29_1 : X.extractLsb' 29 1 = space := by rw [hX]; simp (disch := decide) only [ex_hi, ex_lo, ex_all, Nat.reduceSub]
  have xf0_24 : X.extractLsb' 0 24 = off := by rw [hX]; simp (disch := decide) only [ex_hi, ex_lo, ex_all, Nat.reduceSub]
  exact roundTrip_two hW' hX' rfl rfl wf24_6 rfl (fun _ _ => rfl) wf30_2 (by
    rw [decodeTwo_1a _ _ _ wf24_6]
    simp only [decodeGmem, ↓reduceIte, BitVec.reduceEq, and_false, false_and, and_self, not_true_eq_false, and_true, true_and, wf0_9, wf23_1, wf9_5, xf30_1, xf24_5, wf19_4, wf14_5, xb31, xf29_1, xf0_24])

theorem RoundTrip.gstv (o : GvO) : RoundTrip.Statement (.gstv o) := by
  obtain ⟨q, d, a, ta, space, off⟩ := o
  generalize hW' : encode0 (.gstv ⟨q, d, a, ta, space, off⟩) = W
  have hW : W = q.code ++ 0x1a#6 ++ 0#1 ++ d ++ a ++ 0#5 ++ 0x3#9 := hW'.symm
  have wf0_9 : W.extractLsb' 0 9 = 0x3#9 := by rw [hW]; simp (disch := decide) only [ex_hi, ex_lo, ex_all, Nat.reduceSub]
  have wf23_1 : W.extractLsb' 23 1 = 0#1 := by rw [hW]; simp (disch := decide) only [ex_hi, ex_lo, ex_all, Nat.reduceSub]
  have wf9_5 : W.extractLsb' 9 5 = 0#5 := by rw [hW]; simp (disch := decide) only [ex_hi, ex_lo, ex_all, Nat.reduceSub]
  have wf19_4 : W.extractLsb' 19 4 = d := by rw [hW]; simp (disch := decide) only [ex_hi, ex_lo, ex_all, Nat.reduceSub]
  have wf14_5 : W.extractLsb' 14 5 = a := by rw [hW]; simp (disch := decide) only [ex_hi, ex_lo, ex_all, Nat.reduceSub]
  have wf24_6 : W.extractLsb' 24 6 = 0x1a#6 := by rw [hW]; simp (disch := decide) only [ex_hi, ex_lo, ex_all, Nat.reduceSub]
  have wf30_2 : W.extractLsb' 30 2 = q.code := by rw [hW]; simp (disch := decide) only [ex_hi, ex_lo, ex_all, Nat.reduceSub]
  generalize hX' : (encodeExt (.gstv ⟨q, d, a, ta, space, off⟩)).getD 0 = X
  have hX : X = bit ta ++ 0#1 ++ space ++ 0#5 ++ off := hX'.symm
  have xf30_1 : X.extractLsb' 30 1 = 0#1 := by rw [hX]; simp (disch := decide) only [ex_hi, ex_lo, ex_all, Nat.reduceSub]
  have xf24_5 : X.extractLsb' 24 5 = 0#5 := by rw [hX]; simp (disch := decide) only [ex_hi, ex_lo, ex_all, Nat.reduceSub]
  have xb31 : X.getLsbD 31 = ta := by rw [hX]; simp (disch := decide) only [gl_hi, gl_lo, bit_get, Nat.reduceSub]
  have xf29_1 : X.extractLsb' 29 1 = space := by rw [hX]; simp (disch := decide) only [ex_hi, ex_lo, ex_all, Nat.reduceSub]
  have xf0_24 : X.extractLsb' 0 24 = off := by rw [hX]; simp (disch := decide) only [ex_hi, ex_lo, ex_all, Nat.reduceSub]
  exact roundTrip_two hW' hX' rfl rfl wf24_6 rfl (fun _ _ => rfl) wf30_2 (by
    rw [decodeTwo_1a _ _ _ wf24_6]
    simp only [decodeGmem, ↓reduceIte, BitVec.reduceEq, and_false, false_and, and_self, not_true_eq_false, and_true, true_and, wf0_9, wf23_1, wf9_5, xf30_1, xf24_5, wf19_4, wf14_5, xb31, xf29_1, xf0_24])

theorem RoundTrip.gldt (o : GtO) : RoundTrip.Statement (.gldt o) := by
  obtain ⟨q, d, a, b, ta, tb, t⟩ := o
  generalize hW' : encode0 (.gldt ⟨q, d, a, b, ta, tb, t⟩) = W
  have hW : W = q.code ++ 0x1a#6 ++ 0#1 ++ d ++ a ++ b ++ 0x4#9 := hW'.symm
  have wf0_9 : W.extractLsb' 0 9 = 0x4#9 := by rw [hW]; simp (disch := decide) only [ex_hi, ex_lo, ex_all, Nat.reduceSub]
  have wf23_1 : W.extractLsb' 23 1 = 0#1 := by rw [hW]; simp (disch := decide) only [ex_hi, ex_lo, ex_all, Nat.reduceSub]
  have wf19_4 : W.extractLsb' 19 4 = d := by rw [hW]; simp (disch := decide) only [ex_hi, ex_lo, ex_all, Nat.reduceSub]
  have wf14_5 : W.extractLsb' 14 5 = a := by rw [hW]; simp (disch := decide) only [ex_hi, ex_lo, ex_all, Nat.reduceSub]
  have wf9_5 : W.extractLsb' 9 5 = b := by rw [hW]; simp (disch := decide) only [ex_hi, ex_lo, ex_all, Nat.reduceSub]
  have wf24_6 : W.extractLsb' 24 6 = 0x1a#6 := by rw [hW]; simp (disch := decide) only [ex_hi, ex_lo, ex_all, Nat.reduceSub]
  have wf30_2 : W.extractLsb' 30 2 = q.code := by rw [hW]; simp (disch := decide) only [ex_hi, ex_lo, ex_all, Nat.reduceSub]
  generalize hX' : (encodeExt (.gldt ⟨q, d, a, b, ta, tb, t⟩)).getD 0 = X
  have hX : X = bit ta ++ bit tb ++ 0#26 ++ t.code := hX'.symm
  have xf4_26 : X.extractLsb' 4 26 = 0#26 := by rw [hX]; simp (disch := decide) only [ex_hi, ex_lo, ex_all, Nat.reduceSub]
  have xb31 : X.getLsbD 31 = ta := by rw [hX]; simp (disch := decide) only [gl_hi, gl_lo, bit_get, Nat.reduceSub]
  have xb30 : X.getLsbD 30 = tb := by rw [hX]; simp (disch := decide) only [gl_hi, gl_lo, bit_get, Nat.reduceSub]
  have xf0_4 : X.extractLsb' 0 4 = t.code := by rw [hX]; simp (disch := decide) only [ex_hi, ex_lo, ex_all, Nat.reduceSub]
  exact roundTrip_two hW' hX' rfl rfl wf24_6 rfl (fun _ _ => rfl) wf30_2 (by
    rw [decodeTwo_1a _ _ _ wf24_6]
    simp only [decodeGmem, ↓reduceIte, BitVec.reduceEq, and_false, false_and, and_self, not_true_eq_false, and_true, true_and, wf0_9, wf23_1, xf4_26, wf19_4, wf14_5, wf9_5, xb31, xb30, xf0_4, ETy.ofCode_code])

theorem RoundTrip.gstt (o : GtO) : RoundTrip.Statement (.gstt o) := by
  obtain ⟨q, d, a, b, ta, tb, t⟩ := o
  generalize hW' : encode0 (.gstt ⟨q, d, a, b, ta, tb, t⟩) = W
  have hW : W = q.code ++ 0x1a#6 ++ 0#1 ++ d ++ a ++ b ++ 0x5#9 := hW'.symm
  have wf0_9 : W.extractLsb' 0 9 = 0x5#9 := by rw [hW]; simp (disch := decide) only [ex_hi, ex_lo, ex_all, Nat.reduceSub]
  have wf23_1 : W.extractLsb' 23 1 = 0#1 := by rw [hW]; simp (disch := decide) only [ex_hi, ex_lo, ex_all, Nat.reduceSub]
  have wf19_4 : W.extractLsb' 19 4 = d := by rw [hW]; simp (disch := decide) only [ex_hi, ex_lo, ex_all, Nat.reduceSub]
  have wf14_5 : W.extractLsb' 14 5 = a := by rw [hW]; simp (disch := decide) only [ex_hi, ex_lo, ex_all, Nat.reduceSub]
  have wf9_5 : W.extractLsb' 9 5 = b := by rw [hW]; simp (disch := decide) only [ex_hi, ex_lo, ex_all, Nat.reduceSub]
  have wf24_6 : W.extractLsb' 24 6 = 0x1a#6 := by rw [hW]; simp (disch := decide) only [ex_hi, ex_lo, ex_all, Nat.reduceSub]
  have wf30_2 : W.extractLsb' 30 2 = q.code := by rw [hW]; simp (disch := decide) only [ex_hi, ex_lo, ex_all, Nat.reduceSub]
  generalize hX' : (encodeExt (.gstt ⟨q, d, a, b, ta, tb, t⟩)).getD 0 = X
  have hX : X = bit ta ++ bit tb ++ 0#26 ++ t.code := hX'.symm
  have xf4_26 : X.extractLsb' 4 26 = 0#26 := by rw [hX]; simp (disch := decide) only [ex_hi, ex_lo, ex_all, Nat.reduceSub]
  have xb31 : X.getLsbD 31 = ta := by rw [hX]; simp (disch := decide) only [gl_hi, gl_lo, bit_get, Nat.reduceSub]
  have xb30 : X.getLsbD 30 = tb := by rw [hX]; simp (disch := decide) only [gl_hi, gl_lo, bit_get, Nat.reduceSub]
  have xf0_4 : X.extractLsb' 0 4 = t.code := by rw [hX]; simp (disch := decide) only [ex_hi, ex_lo, ex_all, Nat.reduceSub]
  exact roundTrip_two hW' hX' rfl rfl wf24_6 rfl (fun _ _ => rfl) wf30_2 (by
    rw [decodeTwo_1a _ _ _ wf24_6]
    simp only [decodeGmem, ↓reduceIte, BitVec.reduceEq, and_false, false_and, and_self, not_true_eq_false, and_true, true_and, wf0_9, wf23_1, xf4_26, wf19_4, wf14_5, wf9_5, xb31, xb30, xf0_4, ETy.ofCode_code])

theorem RoundTrip.gred (o : GredO) : RoundTrip.Statement (.gred o) := by
  obtain ⟨q, a, b, ta, tb, op, sz⟩ := o
  generalize hW' : encode0 (.gred ⟨q, a, b, ta, tb, op, sz⟩) = W
  have hW : W = q.code ++ 0x1a#6 ++ 0#5 ++ a ++ b ++ 0x6#9 := hW'.symm
  have wf0_9 : W.extractLsb' 0 9 = 0x6#9 := by rw [hW]; simp (disch := decide) only [ex_hi, ex_lo, ex_all, Nat.reduceSub]
  have wf19_5 : W.extractLsb' 19 5 = 0#5 := by rw [hW]; simp (disch := decide) only [ex_hi, ex_lo, ex_all, Nat.reduceSub]
  have wf14_5 : W.extractLsb' 14 5 = a := by rw [hW]; simp (disch := decide) only [ex_hi, ex_lo, ex_all, Nat.reduceSub]
  have wf9_5 : W.extractLsb' 9 5 = b := by rw [hW]; simp (disch := decide) only [ex_hi, ex_lo, ex_all, Nat.reduceSub]
  have wf24_6 : W.extractLsb' 24 6 = 0x1a#6 := by rw [hW]; simp (disch := decide) only [ex_hi, ex_lo, ex_all, Nat.reduceSub]
  have wf30_2 : W.extractLsb' 30 2 = q.code := by rw [hW]; simp (disch := decide) only [ex_hi, ex_lo, ex_all, Nat.reduceSub]
  generalize hX' : (encodeExt (.gred ⟨q, a, b, ta, tb, op, sz⟩)).getD 0 = X
  have hX : X = bit ta ++ bit tb ++ 0#15 ++ op ++ sz ++ 0#10 := hX'.symm
  have xf15_15 : X.extractLsb' 15 15 = 0#15 := by rw [hX]; simp (disch := decide) only [ex_hi, ex_lo, ex_all, Nat.reduceSub]
  have xf0_10 : X.extractLsb' 0 10 = 0#10 := by rw [hX]; simp (disch := decide) only [ex_hi, ex_lo, ex_all, Nat.reduceSub]
  have xb31 : X.getLsbD 31 = ta := by rw [hX]; simp (disch := decide) only [gl_hi, gl_lo, bit_get, Nat.reduceSub]
  have xb30 : X.getLsbD 30 = tb := by rw [hX]; simp (disch := decide) only [gl_hi, gl_lo, bit_get, Nat.reduceSub]
  have xf11_4 : X.extractLsb' 11 4 = op := by rw [hX]; simp (disch := decide) only [ex_hi, ex_lo, ex_all, Nat.reduceSub]
  have xf10_1 : X.extractLsb' 10 1 = sz := by rw [hX]; simp (disch := decide) only [ex_hi, ex_lo, ex_all, Nat.reduceSub]
  exact roundTrip_two hW' hX' rfl rfl wf24_6 rfl (fun _ _ => rfl) wf30_2 (by
    rw [decodeTwo_1a _ _ _ wf24_6]
    simp only [decodeGmem, ↓reduceIte, BitVec.reduceEq, and_false, false_and, and_self, not_true_eq_false, and_true, true_and, wf0_9, wf19_5, xf15_15, xf0_10, wf14_5, wf9_5, xb31, xb30, xf11_4, xf10_1])

theorem RoundTrip.reductionPerform (c : CoreId) : RoundTrip.Statement (.reductionPerform c) := fun h => nomatch h

theorem RoundTrip.gsend (o : GsendO) : RoundTrip.Statement (.gsend o) := by
  obtain ⟨q, a, chan⟩ := o
  generalize hW' : encode0 (.gsend ⟨q, a, chan⟩) = W
  have hW : W = q.code ++ 0x1a#6 ++ 0#6 ++ a ++ 0#5 ++ 0x7#9 := hW'.symm
  have wf0_9 : W.extractLsb' 0 9 = 0x7#9 := by rw [hW]; simp (disch := decide) only [ex_hi, ex_lo, ex_all, Nat.reduceSub]
  have wf18_6 : W.extractLsb' 18 6 = 0#6 := by rw [hW]; simp (disch := decide) only [ex_hi, ex_lo, ex_all, Nat.reduceSub]
  have wf9_5 : W.extractLsb' 9 5 = 0#5 := by rw [hW]; simp (disch := decide) only [ex_hi, ex_lo, ex_all, Nat.reduceSub]
  have wf14_4 : W.extractLsb' 14 4 = a := by rw [hW]; simp (disch := decide) only [ex_hi, ex_lo, ex_all, Nat.reduceSub]
  have wf24_6 : W.extractLsb' 24 6 = 0x1a#6 := by rw [hW]; simp (disch := decide) only [ex_hi, ex_lo, ex_all, Nat.reduceSub]
  have wf30_2 : W.extractLsb' 30 2 = q.code := by rw [hW]; simp (disch := decide) only [ex_hi, ex_lo, ex_all, Nat.reduceSub]
  generalize hX' : (encodeExt (.gsend ⟨q, a, chan⟩)).getD 0 = X
  have hX : X = 0#28 ++ chan := hX'.symm
  have xf4_28 : X.extractLsb' 4 28 = 0#28 := by rw [hX]; simp (disch := decide) only [ex_hi, ex_lo, ex_all, Nat.reduceSub]
  have xf0_4 : X.extractLsb' 0 4 = chan := by rw [hX]; simp (disch := decide) only [ex_hi, ex_lo, ex_all, Nat.reduceSub]
  exact roundTrip_two hW' hX' rfl rfl wf24_6 rfl (fun _ _ => rfl) wf30_2 (by
    rw [decodeTwo_1a _ _ _ wf24_6]
    simp only [decodeGmem, ↓reduceIte, BitVec.reduceEq, and_false, false_and, and_self, not_true_eq_false, and_true, true_and, wf0_9, wf18_6, wf9_5, xf4_28, wf14_4, xf0_4])

theorem RoundTrip.grecv (o : GrecvO) : RoundTrip.Statement (.grecv o) := by
  obtain ⟨q, d, chan⟩ := o
  generalize hW' : encode0 (.grecv ⟨q, d, chan⟩) = W
  have hW : W = q.code ++ 0x1a#6 ++ 0#1 ++ d ++ 0#10 ++ 0x8#9 := hW'.symm
  have wf0_9 : W.extractLsb' 0 9 = 0x8#9 := by rw [hW]; simp (disch := decide) only [ex_hi, ex_lo, ex_all, Nat.reduceSub]
  have wf23_1 : W.extractLsb' 23 1 = 0#1 := by rw [hW]; simp (disch := decide) only [ex_hi, ex_lo, ex_all, Nat.reduceSub]
  have wf9_10 : W.extractLsb' 9 10 = 0#10 := by rw [hW]; simp (disch := decide) only [ex_hi, ex_lo, ex_all, Nat.reduceSub]
  have wf19_4 : W.extractLsb' 19 4 = d := by rw [hW]; simp (disch := decide) only [ex_hi, ex_lo, ex_all, Nat.reduceSub]
  have wf24_6 : W.extractLsb' 24 6 = 0x1a#6 := by rw [hW]; simp (disch := decide) only [ex_hi, ex_lo, ex_all, Nat.reduceSub]
  have wf30_2 : W.extractLsb' 30 2 = q.code := by rw [hW]; simp (disch := decide) only [ex_hi, ex_lo, ex_all, Nat.reduceSub]
  generalize hX' : (encodeExt (.grecv ⟨q, d, chan⟩)).getD 0 = X
  have hX : X = 0#28 ++ chan := hX'.symm
  have xf4_28 : X.extractLsb' 4 28 = 0#28 := by rw [hX]; simp (disch := decide) only [ex_hi, ex_lo, ex_all, Nat.reduceSub]
  have xf0_4 : X.extractLsb' 0 4 = chan := by rw [hX]; simp (disch := decide) only [ex_hi, ex_lo, ex_all, Nat.reduceSub]
  exact roundTrip_two hW' hX' rfl rfl wf24_6 rfl (fun _ _ => rfl) wf30_2 (by
    rw [decodeTwo_1a _ _ _ wf24_6]
    simp only [decodeGmem, ↓reduceIte, BitVec.reduceEq, and_false, false_and, and_self, not_true_eq_false, and_true, true_and, wf0_9, wf23_1, wf9_10, xf4_28, wf19_4, xf0_4])

theorem RoundTrip.gpfill (o : GpfO) : RoundTrip.Statement (.gpfill o) := by
  obtain ⟨q, a, b, ta, tb, nch⟩ := o
  generalize hW' : encode0 (.gpfill ⟨q, a, b, ta, tb, nch⟩) = W
  have hW : W = q.code ++ 0x1a#6 ++ 0#5 ++ a ++ b ++ 0x9#9 := hW'.symm
  have wf0_9 : W.extractLsb' 0 9 = 0x9#9 := by rw [hW]; simp (disch := decide) only [ex_hi, ex_lo, ex_all, Nat.reduceSub]
  have wf19_5 : W.extractLsb' 19 5 = 0#5 := by rw [hW]; simp (disch := decide) only [ex_hi, ex_lo, ex_all, Nat.reduceSub]
  have wf14_5 : W.extractLsb' 14 5 = a := by rw [hW]; simp (disch := decide) only [ex_hi, ex_lo, ex_all, Nat.reduceSub]
  have wf9_5 : W.extractLsb' 9 5 = b := by rw [hW]; simp (disch := decide) only [ex_hi, ex_lo, ex_all, Nat.reduceSub]
  have wf24_6 : W.extractLsb' 24 6 = 0x1a#6 := by rw [hW]; simp (disch := decide) only [ex_hi, ex_lo, ex_all, Nat.reduceSub]
  have wf30_2 : W.extractLsb' 30 2 = q.code := by rw [hW]; simp (disch := decide) only [ex_hi, ex_lo, ex_all, Nat.reduceSub]
  generalize hX' : (encodeExt (.gpfill ⟨q, a, b, ta, tb, nch⟩)).getD 0 = X
  have hX : X = bit ta ++ bit tb ++ 0#22 ++ nch := hX'.symm
  have xf8_22 : X.extractLsb' 8 22 = 0#22 := by rw [hX]; simp (disch := decide) only [ex_hi, ex_lo, ex_all, Nat.reduceSub]
  have xb31 : X.getLsbD 31 = ta := by rw [hX]; simp (disch := decide) only [gl_hi, gl_lo, bit_get, Nat.reduceSub]
  have xb30 : X.getLsbD 30 = tb := by rw [hX]; simp (disch := decide) only [gl_hi, gl_lo, bit_get, Nat.reduceSub]
  have xf0_8 : X.extractLsb' 0 8 = nch := by rw [hX]; simp (disch := decide) only [ex_hi, ex_lo, ex_all, Nat.reduceSub]
  exact roundTrip_two hW' hX' rfl rfl wf24_6 rfl (fun _ _ => rfl) wf30_2 (by
    rw [decodeTwo_1a _ _ _ wf24_6]
    simp only [decodeGmem, ↓reduceIte, BitVec.reduceEq, and_false, false_and, and_self, not_true_eq_false, and_true, true_and, wf0_9, wf19_5, xf8_22, wf14_5, wf9_5, xb31, xb30, xf0_8])

theorem RoundTrip.ginj (o : RinjrO) : RoundTrip.Statement (.ginj o) := by
  obtain ⟨q, d, a, b, ta, tb, td, fam, cluster, station⟩ := o
  generalize hW' : encode0 (.ginj ⟨q, d, a, b, ta, tb, td, fam, cluster, station⟩) = W
  have hW : W = q.code ++ 0x1a#6 ++ d ++ a ++ b ++ 0xa#9 := hW'.symm
  have wf0_9 : W.extractLsb' 0 9 = 0xa#9 := by rw [hW]; simp (disch := decide) only [ex_hi, ex_lo, ex_all, Nat.reduceSub]
  have wf19_5 : W.extractLsb' 19 5 = d := by rw [hW]; simp (disch := decide) only [ex_hi, ex_lo, ex_all, Nat.reduceSub]
  have wf14_5 : W.extractLsb' 14 5 = a := by rw [hW]; simp (disch := decide) only [ex_hi, ex_lo, ex_all, Nat.reduceSub]
  have wf9_5 : W.extractLsb' 9 5 = b := by rw [hW]; simp (disch := decide) only [ex_hi, ex_lo, ex_all, Nat.reduceSub]
  have wf24_6 : W.extractLsb' 24 6 = 0x1a#6 := by rw [hW]; simp (disch := decide) only [ex_hi, ex_lo, ex_all, Nat.reduceSub]
  have wf30_2 : W.extractLsb' 30 2 = q.code := by rw [hW]; simp (disch := decide) only [ex_hi, ex_lo, ex_all, Nat.reduceSub]
  generalize hX' : (encodeExt (.ginj ⟨q, d, a, b, ta, tb, td, fam, cluster, station⟩)).getD 0 = X
  have hX : X = bit ta ++ bit tb ++ bit td ++ fam ++ cluster ++ station ++ 0#12 := hX'.symm
  have xf0_12 : X.extractLsb' 0 12 = 0#12 := by rw [hX]; simp (disch := decide) only [ex_hi, ex_lo, ex_all, Nat.reduceSub]
  have xb31 : X.getLsbD 31 = ta := by rw [hX]; simp (disch := decide) only [gl_hi, gl_lo, bit_get, Nat.reduceSub]
  have xb30 : X.getLsbD 30 = tb := by rw [hX]; simp (disch := decide) only [gl_hi, gl_lo, bit_get, Nat.reduceSub]
  have xb29 : X.getLsbD 29 = td := by rw [hX]; simp (disch := decide) only [gl_hi, gl_lo, bit_get, Nat.reduceSub]
  have xf28_1 : X.extractLsb' 28 1 = fam := by rw [hX]; simp (disch := decide) only [ex_hi, ex_lo, ex_all, Nat.reduceSub]
  have xf18_10 : X.extractLsb' 18 10 = cluster := by rw [hX]; simp (disch := decide) only [ex_hi, ex_lo, ex_all, Nat.reduceSub]
  have xf12_6 : X.extractLsb' 12 6 = station := by rw [hX]; simp (disch := decide) only [ex_hi, ex_lo, ex_all, Nat.reduceSub]
  exact roundTrip_two hW' hX' rfl rfl wf24_6 rfl (fun _ _ => rfl) wf30_2 (by
    rw [decodeTwo_1a _ _ _ wf24_6]
    simp only [decodeGmem, ↓reduceIte, BitVec.reduceEq, and_false, false_and, and_self, not_true_eq_false, and_true, true_and, wf0_9, xf0_12, wf19_5, wf14_5, wf9_5, xb31, xb30, xb29, xf28_1, xf18_10, xf12_6])

theorem RoundTrip.tmld (o : TmO) : RoundTrip.Statement (.tmld o) := by
  obtain ⟨q, d, a, ta, td, map⟩ := o
  generalize hW' : encode0 (.tmld ⟨q, d, a, ta, td, map⟩) = W
  have hW : W = q.code ++ 0x1b#6 ++ d ++ a ++ 0#5 ++ 0x0#9 := hW'.symm
  have wf0_9 : W.extractLsb' 0 9 = 0x0#9 := by rw [hW]; simp (disch := decide) only [ex_hi, ex_lo, ex_all, Nat.reduceSub]
  have wf9_5 : W.extractLsb' 9 5 = 0#5 := by rw [hW]; simp (disch := decide) only [ex_hi, ex_lo, ex_all, Nat.reduceSub]
  have wf19_5 : W.extractLsb' 19 5 = d := by rw [hW]; simp (disch := decide) only [ex_hi, ex_lo, ex_all, Nat.reduceSub]
  have wf14_5 : W.extractLsb' 14 5 = a := by rw [hW]; simp (disch := decide) only [ex_hi, ex_lo, ex_all, Nat.reduceSub]
  have wf24_6 : W.extractLsb' 24 6 = 0x1b#6 := by rw [hW]; simp (disch := decide) only [ex_hi, ex_lo, ex_all, Nat.reduceSub]
  have wf30_2 : W.extractLsb' 30 2 = q.code := by rw [hW]; simp (disch := decide) only [ex_hi, ex_lo, ex_all, Nat.reduceSub]
  generalize hX' : (encodeExt (.tmld ⟨q, d, a, ta, td, map⟩)).getD 0 = X
  have hX : X = bit ta ++ bit td ++ 0#24 ++ map := hX'.symm
  have xf6_24 : X.extractLsb' 6 24 = 0#24 := by rw [hX]; simp (disch := decide) only [ex_hi, ex_lo, ex_all, Nat.reduceSub]
  have xb31 : X.getLsbD 31 = ta := by rw [hX]; simp (disch := decide) only [gl_hi, gl_lo, bit_get, Nat.reduceSub]
  have xb30 : X.getLsbD 30 = td := by rw [hX]; simp (disch := decide) only [gl_hi, gl_lo, bit_get, Nat.reduceSub]
  have xf0_6 : X.extractLsb' 0 6 = map := by rw [hX]; simp (disch := decide) only [ex_hi, ex_lo, ex_all, Nat.reduceSub]
  exact roundTrip_two hW' hX' rfl rfl wf24_6 rfl (fun _ _ => rfl) wf30_2 (by
    rw [decodeTwo_1b _ _ _ wf24_6]
    simp only [decodeTmap, ↓reduceIte, BitVec.reduceEq, and_false, false_and, and_self, not_true_eq_false, and_true, true_and, wf0_9, wf9_5, xf6_24, wf19_5, wf14_5, xb31, xb30, xf0_6])

theorem RoundTrip.tmst (o : TmO) : RoundTrip.Statement (.tmst o) := by
  obtain ⟨q, d, a, ta, td, map⟩ := o
  generalize hW' : encode0 (.tmst ⟨q, d, a, ta, td, map⟩) = W
  have hW : W = q.code ++ 0x1b#6 ++ d ++ a ++ 0#5 ++ 0x1#9 := hW'.symm
  have wf0_9 : W.extractLsb' 0 9 = 0x1#9 := by rw [hW]; simp (disch := decide) only [ex_hi, ex_lo, ex_all, Nat.reduceSub]
  have wf9_5 : W.extractLsb' 9 5 = 0#5 := by rw [hW]; simp (disch := decide) only [ex_hi, ex_lo, ex_all, Nat.reduceSub]
  have wf19_5 : W.extractLsb' 19 5 = d := by rw [hW]; simp (disch := decide) only [ex_hi, ex_lo, ex_all, Nat.reduceSub]
  have wf14_5 : W.extractLsb' 14 5 = a := by rw [hW]; simp (disch := decide) only [ex_hi, ex_lo, ex_all, Nat.reduceSub]
  have wf24_6 : W.extractLsb' 24 6 = 0x1b#6 := by rw [hW]; simp (disch := decide) only [ex_hi, ex_lo, ex_all, Nat.reduceSub]
  have wf30_2 : W.extractLsb' 30 2 = q.code := by rw [hW]; simp (disch := decide) only [ex_hi, ex_lo, ex_all, Nat.reduceSub]
  generalize hX' : (encodeExt (.tmst ⟨q, d, a, ta, td, map⟩)).getD 0 = X
  have hX : X = bit ta ++ bit td ++ 0#24 ++ map := hX'.symm
  have xf6_24 : X.extractLsb' 6 24 = 0#24 := by rw [hX]; simp (disch := decide) only [ex_hi, ex_lo, ex_all, Nat.reduceSub]
  have xb31 : X.getLsbD 31 = ta := by rw [hX]; simp (disch := decide) only [gl_hi, gl_lo, bit_get, Nat.reduceSub]
  have xb30 : X.getLsbD 30 = td := by rw [hX]; simp (disch := decide) only [gl_hi, gl_lo, bit_get, Nat.reduceSub]
  have xf0_6 : X.extractLsb' 0 6 = map := by rw [hX]; simp (disch := decide) only [ex_hi, ex_lo, ex_all, Nat.reduceSub]
  exact roundTrip_two hW' hX' rfl rfl wf24_6 rfl (fun _ _ => rfl) wf30_2 (by
    rw [decodeTwo_1b _ _ _ wf24_6]
    simp only [decodeTmap, ↓reduceIte, BitVec.reduceEq, and_false, false_and, and_self, not_true_eq_false, and_true, true_and, wf0_9, wf9_5, xf6_24, wf19_5, wf14_5, xb31, xb30, xf0_6])

theorem RoundTrip.tmwr (o : TmwO) : RoundTrip.Statement (.tmwr o) := by
  obtain ⟨q, a, ta, map⟩ := o
  generalize hW' : encode0 (.tmwr ⟨q, a, ta, map⟩) = W
  have hW : W = q.code ++ 0x1b#6 ++ 0#5 ++ a ++ 0#5 ++ 0x2#9 := hW'.symm
  have wf0_9 : W.extractLsb' 0 9 = 0x2#9 := by rw [hW]; simp (disch := decide) only [ex_hi, ex_lo, ex_all, Nat.reduceSub]
  have wf19_5 : W.extractLsb' 19 5 = 0#5 := by rw [hW]; simp (disch := decide) only [ex_hi, ex_lo, ex_all, Nat.reduceSub]
  have wf9_5 : W.extractLsb' 9 5 = 0#5 := by rw [hW]; simp (disch := decide) only [ex_hi, ex_lo, ex_all, Nat.reduceSub]
  have wf14_5 : W.extractLsb' 14 5 = a := by rw [hW]; simp (disch := decide) only [ex_hi, ex_lo, ex_all, Nat.reduceSub]
  have wf24_6 : W.extractLsb' 24 6 = 0x1b#6 := by rw [hW]; simp (disch := decide) only [ex_hi, ex_lo, ex_all, Nat.reduceSub]
  have wf30_2 : W.extractLsb' 30 2 = q.code := by rw [hW]; simp (disch := decide) only [ex_hi, ex_lo, ex_all, Nat.reduceSub]
  generalize hX' : (encodeExt (.tmwr ⟨q, a, ta, map⟩)).getD 0 = X
  have hX : X = bit ta ++ 0#25 ++ map := hX'.symm
  have xf6_25 : X.extractLsb' 6 25 = 0#25 := by rw [hX]; simp (disch := decide) only [ex_hi, ex_lo, ex_all, Nat.reduceSub]
  have xb31 : X.getLsbD 31 = ta := by rw [hX]; simp (disch := decide) only [gl_hi, gl_lo, bit_get, Nat.reduceSub]
  have xf0_6 : X.extractLsb' 0 6 = map := by rw [hX]; simp (disch := decide) only [ex_hi, ex_lo, ex_all, Nat.reduceSub]
  exact roundTrip_two hW' hX' rfl rfl wf24_6 rfl (fun _ _ => rfl) wf30_2 (by
    rw [decodeTwo_1b _ _ _ wf24_6]
    simp only [decodeTmap, ↓reduceIte, BitVec.reduceEq, and_false, false_and, and_self, not_true_eq_false, and_true, true_and, wf0_9, wf19_5, wf9_5, xf6_25, wf14_5, xb31, xf0_6])

theorem RoundTrip.translationFault (ag : Agent) : RoundTrip.Statement (.translationFault ag) := fun h => nomatch h

theorem RoundTrip.lineAllocate (r : LineReq) : RoundTrip.Statement (.lineAllocate r) := fun h => nomatch h

theorem RoundTrip.dstat (o : XD) : RoundTrip.Statement (.dstat o) := by
  obtain ⟨q, d⟩ := o
  generalize hW' : encode0 (.dstat ⟨q, d⟩) = W
  have hW : W = q.code ++ 0x3e#6 ++ d ++ 0#10 ++ 0x0#9 := hW'.symm
  have wf0_9 : W.extractLsb' 0 9 = 0x0#9 := by rw [hW]; simp (disch := decide) only [ex_hi, ex_lo, ex_all, Nat.reduceSub]
  have wf9_10 : W.extractLsb' 9 10 = 0#10 := by rw [hW]; simp (disch := decide) only [ex_hi, ex_lo, ex_all, Nat.reduceSub]
  have wf19_5 : W.extractLsb' 19 5 = d := by rw [hW]; simp (disch := decide) only [ex_hi, ex_lo, ex_all, Nat.reduceSub]
  have wf24_6 : W.extractLsb' 24 6 = 0x3e#6 := by rw [hW]; simp (disch := decide) only [ex_hi, ex_lo, ex_all, Nat.reduceSub]
  have wf30_2 : W.extractLsb' 30 2 = q.code := by rw [hW]; simp (disch := decide) only [ex_hi, ex_lo, ex_all, Nat.reduceSub]
  generalize hX' : (encodeExt (.dstat ⟨q, d⟩)).getD 0 = X
  have hX : X = 0#32 := hX'.symm
  have xf0_32 : X.extractLsb' 0 32 = 0#32 := by rw [hX]; simp (disch := decide) only [ex_hi, ex_lo, ex_all, Nat.reduceSub]
  exact roundTrip_two hW' hX' rfl rfl wf24_6 rfl (fun h => nomatch h) wf30_2 (by
    rw [decodeTwo_3e _ _ _ wf24_6]
    simp only [decodeDet, ↓reduceIte, BitVec.reduceEq, and_false, false_and, and_self, not_true_eq_false, and_true, true_and, wf0_9, wf9_10, xf0_32, wf19_5])

theorem RoundTrip.dclr (o : XQ) : RoundTrip.Statement (.dclr o) := by
  obtain ⟨q⟩ := o
  generalize hW' : encode0 (.dclr ⟨q⟩) = W
  have hW : W = q.code ++ 0x3e#6 ++ 0#15 ++ 0x1#9 := hW'.symm
  have wf0_9 : W.extractLsb' 0 9 = 0x1#9 := by rw [hW]; simp (disch := decide) only [ex_hi, ex_lo, ex_all, Nat.reduceSub]
  have wf9_15 : W.extractLsb' 9 15 = 0#15 := by rw [hW]; simp (disch := decide) only [ex_hi, ex_lo, ex_all, Nat.reduceSub]
  have wf24_6 : W.extractLsb' 24 6 = 0x3e#6 := by rw [hW]; simp (disch := decide) only [ex_hi, ex_lo, ex_all, Nat.reduceSub]
  have wf30_2 : W.extractLsb' 30 2 = q.code := by rw [hW]; simp (disch := decide) only [ex_hi, ex_lo, ex_all, Nat.reduceSub]
  generalize hX' : (encodeExt (.dclr ⟨q⟩)).getD 0 = X
  have hX : X = 0#32 := hX'.symm
  have xf0_32 : X.extractLsb' 0 32 = 0#32 := by rw [hX]; simp (disch := decide) only [ex_hi, ex_lo, ex_all, Nat.reduceSub]
  exact roundTrip_two hW' hX' rfl rfl wf24_6 rfl (fun h => nomatch h) wf30_2 (by
    rw [decodeTwo_3e _ _ _ wf24_6]
    simp only [decodeDet, ↓reduceIte, BitVec.reduceEq, and_false, false_and, and_self, not_true_eq_false, and_true, true_and, wf0_9, wf9_15, xf0_32])

theorem RoundTrip.dmark (o : XA) : RoundTrip.Statement (.dmark o) := by
  obtain ⟨q, a, ta⟩ := o
  generalize hW' : encode0 (.dmark ⟨q, a, ta⟩) = W
  have hW : W = q.code ++ 0x3e#6 ++ 0#5 ++ a ++ 0#5 ++ 0x2#9 := hW'.symm
  have wf0_9 : W.extractLsb' 0 9 = 0x2#9 := by rw [hW]; simp (disch := decide) only [ex_hi, ex_lo, ex_all, Nat.reduceSub]
  have wf19_5 : W.extractLsb' 19 5 = 0#5 := by rw [hW]; simp (disch := decide) only [ex_hi, ex_lo, ex_all, Nat.reduceSub]
  have wf9_5 : W.extractLsb' 9 5 = 0#5 := by rw [hW]; simp (disch := decide) only [ex_hi, ex_lo, ex_all, Nat.reduceSub]
  have wf14_5 : W.extractLsb' 14 5 = a := by rw [hW]; simp (disch := decide) only [ex_hi, ex_lo, ex_all, Nat.reduceSub]
  have wf24_6 : W.extractLsb' 24 6 = 0x3e#6 := by rw [hW]; simp (disch := decide) only [ex_hi, ex_lo, ex_all, Nat.reduceSub]
  have wf30_2 : W.extractLsb' 30 2 = q.code := by rw [hW]; simp (disch := decide) only [ex_hi, ex_lo, ex_all, Nat.reduceSub]
  generalize hX' : (encodeExt (.dmark ⟨q, a, ta⟩)).getD 0 = X
  have hX : X = bit ta ++ 0#31 := hX'.symm
  have xf0_31 : X.extractLsb' 0 31 = 0#31 := by rw [hX]; simp (disch := decide) only [ex_hi, ex_lo, ex_all, Nat.reduceSub]
  have xb31 : X.getLsbD 31 = ta := by rw [hX]; simp (disch := decide) only [gl_hi, gl_lo, bit_get, Nat.reduceSub]
  exact roundTrip_two hW' hX' rfl rfl wf24_6 rfl (fun h => nomatch h) wf30_2 (by
    rw [decodeTwo_3e _ _ _ wf24_6]
    simp only [decodeDet, ↓reduceIte, BitVec.reduceEq, and_false, false_and, and_self, not_true_eq_false, and_true, true_and, wf0_9, wf19_5, wf9_5, xf0_31, wf14_5, xb31])

theorem RoundTrip.ddrain (o : XQ) : RoundTrip.Statement (.ddrain o) := by
  obtain ⟨q⟩ := o
  generalize hW' : encode0 (.ddrain ⟨q⟩) = W
  have hW : W = q.code ++ 0x3e#6 ++ 0#15 ++ 0x3#9 := hW'.symm
  have wf0_9 : W.extractLsb' 0 9 = 0x3#9 := by rw [hW]; simp (disch := decide) only [ex_hi, ex_lo, ex_all, Nat.reduceSub]
  have wf9_15 : W.extractLsb' 9 15 = 0#15 := by rw [hW]; simp (disch := decide) only [ex_hi, ex_lo, ex_all, Nat.reduceSub]
  have wf24_6 : W.extractLsb' 24 6 = 0x3e#6 := by rw [hW]; simp (disch := decide) only [ex_hi, ex_lo, ex_all, Nat.reduceSub]
  have wf30_2 : W.extractLsb' 30 2 = q.code := by rw [hW]; simp (disch := decide) only [ex_hi, ex_lo, ex_all, Nat.reduceSub]
  generalize hX' : (encodeExt (.ddrain ⟨q⟩)).getD 0 = X
  have hX : X = 0#32 := hX'.symm
  have xf0_32 : X.extractLsb' 0 32 = 0#32 := by rw [hX]; simp (disch := decide) only [ex_hi, ex_lo, ex_all, Nat.reduceSub]
  exact roundTrip_two hW' hX' rfl rfl wf24_6 rfl (fun h => nomatch h) wf30_2 (by
    rw [decodeTwo_3e _ _ _ wf24_6]
    simp only [decodeDet, ↓reduceIte, BitVec.reduceEq, and_false, false_and, and_self, not_true_eq_false, and_true, true_and, wf0_9, wf9_15, xf0_32])

theorem RoundTrip.logDrain (die : BitVec 4) : RoundTrip.Statement (.logDrain die) := fun h => nomatch h

theorem RoundTrip.replayDivergence (c : CoreId) : RoundTrip.Statement (.replayDivergence c) := fun h => nomatch h

theorem RoundTrip.doorbell (die : BitVec 4) (queue : BitVec 8) (tail : BitVec 16) : RoundTrip.Statement (.doorbell die queue tail) := fun h => nomatch h

theorem RoundTrip.kickTake (die : BitVec 4) : RoundTrip.Statement (.kickTake die) := fun h => nomatch h

theorem RoundTrip.gangPlace (die : BitVec 4) : RoundTrip.Statement (.gangPlace die) := fun h => nomatch h

theorem RoundTrip.priorityAgeing (l : Nat) : RoundTrip.Statement (.priorityAgeing l) := fun h => nomatch h

theorem RoundTrip.preemptionStop (l : Nat) : RoundTrip.Statement (.preemptionStop l) := fun h => nomatch h

theorem RoundTrip.launchRestore (l : Nat) : RoundTrip.Statement (.launchRestore l) := fun h => nomatch h

theorem RoundTrip.superstepRollback (l : Nat) (gang : Nat) : RoundTrip.Statement (.superstepRollback l gang) := fun h => nomatch h

theorem RoundTrip.thirdRun (l : Nat) (gang : Nat) : RoundTrip.Statement (.thirdRun l gang) := fun h => nomatch h

theorem RoundTrip.heldBufferFull (l : Nat) : RoundTrip.Statement (.heldBufferFull l) := fun h => nomatch h

theorem RoundTrip.llimExpiry (l : Nat) : RoundTrip.Statement (.llimExpiry l) := fun h => nomatch h

theorem RoundTrip.quantumExpiry (l : Nat) : RoundTrip.Statement (.quantumExpiry l) := fun h => nomatch h

theorem RoundTrip.schedulerTakeover (die : BitVec 4) : RoundTrip.Statement (.schedulerTakeover die) := fun h => nomatch h

theorem RoundTrip.launchComplete (l : Nat) : RoundTrip.Statement (.launchComplete l) := fun h => nomatch h

theorem RoundTrip.partCreate (cmd : PkgCmd) : RoundTrip.Statement (.partCreate cmd) := fun h => nomatch h

theorem RoundTrip.partDestroy (cmd : PkgCmd) : RoundTrip.Statement (.partDestroy cmd) := fun h => nomatch h

theorem RoundTrip.vfSet (cmd : PkgCmd) : RoundTrip.Statement (.vfSet cmd) := fun h => nomatch h

theorem RoundTrip.faultReply (cmd : PkgCmd) : RoundTrip.Statement (.faultReply cmd) := fun h => nomatch h

theorem RoundTrip.preempt (cmd : PkgCmd) : RoundTrip.Statement (.preempt cmd) := fun h => nomatch h

theorem RoundTrip.unitReturn (cmd : PkgCmd) : RoundTrip.Statement (.unitReturn cmd) := fun h => nomatch h

theorem RoundTrip.extend (cmd : PkgCmd) : RoundTrip.Statement (.extend cmd) := fun h => nomatch h

theorem RoundTrip.sealJoin (cmd : PkgCmd) (peer : SealPeer) : RoundTrip.Statement (.sealJoin cmd peer) := fun h => nomatch h

theorem RoundTrip.restore (cmd : PkgCmd) : RoundTrip.Statement (.restore cmd) := fun h => nomatch h

theorem RoundTrip.pcast (o : XHA) : RoundTrip.Statement (.pcast o) := by
  obtain ⟨q, d, a, ta, inb⟩ := o
  generalize hW' : encode0 (.pcast ⟨q, d, a, ta, inb⟩) = W
  have hW : W = q.code ++ 0x3c#6 ++ 0#2 ++ d ++ a ++ 0#5 ++ 0x0#9 := hW'.symm
  have wf0_9 : W.extractLsb' 0 9 = 0x0#9 := by rw [hW]; simp (disch := decide) only [ex_hi, ex_lo, ex_all, Nat.reduceSub]
  have wf22_2 : W.extractLsb' 22 2 = 0#2 := by rw [hW]; simp (disch := decide) only [ex_hi, ex_lo, ex_all, Nat.reduceSub]
  have wf9_5 : W.extractLsb' 9 5 = 0#5 := by rw [hW]; simp (disch := decide) only [ex_hi, ex_lo, ex_all, Nat.reduceSub]
  have wf19_3 : W.extractLsb' 19 3 = d := by rw [hW]; simp (disch := decide) only [ex_hi, ex_lo, ex_all, Nat.reduceSub]
  have wf14_5 : W.extractLsb' 14 5 = a := by rw [hW]; simp (disch := decide) only [ex_hi, ex_lo, ex_all, Nat.reduceSub]
  have wf24_6 : W.extractLsb' 24 6 = 0x3c#6 := by rw [hW]; simp (disch := decide) only [ex_hi, ex_lo, ex_all, Nat.reduceSub]
  have wf30_2 : W.extractLsb' 30 2 = q.code := by rw [hW]; simp (disch := decide) only [ex_hi, ex_lo, ex_all, Nat.reduceSub]
  generalize hX' : (encodeExt (.pcast ⟨q, d, a, ta, inb⟩)).getD 0 = X
  have hX : X = bit ta ++ 0#1 ++ bit inb ++ 0#29 := hX'.symm
  have xf30_1 : X.extractLsb' 30 1 = 0#1 := by rw [hX]; simp (disch := decide) only [ex_hi, ex_lo, ex_all, Nat.reduceSub]
  have xf0_29 : X.extractLsb' 0 29 = 0#29 := by rw [hX]; simp (disch := decide) only [ex_hi, ex_lo, ex_all, Nat.reduceSub]
  have xb31 : X.getLsbD 31 = ta := by rw [hX]; simp (disch := decide) only [gl_hi, gl_lo, bit_get, Nat.reduceSub]
  have xb29 : X.getLsbD 29 = inb := by rw [hX]; simp (disch := decide) only [gl_hi, gl_lo, bit_get, Nat.reduceSub]
  exact roundTrip_two hW' hX' rfl rfl wf24_6 rfl (fun h => nomatch h) wf30_2 (by
    rw [decodeTwo_3c _ _ _ wf24_6]
    simp only [decodePkg, ↓reduceIte, BitVec.reduceEq, and_false, false_and, and_self, not_true_eq_false, and_true, true_and, wf0_9, wf22_2, wf9_5, xf30_1, xf0_29, wf19_3, wf14_5, xb31, xb29])

theorem RoundTrip.pctr (o : XD) : RoundTrip.Statement (.pctr o) := by
  obtain ⟨q, d⟩ := o
  generalize hW' : encode0 (.pctr ⟨q, d⟩) = W
  have hW : W = q.code ++ 0x3c#6 ++ d ++ 0#10 ++ 0x1#9 := hW'.symm
  have wf0_9 : W.extractLsb' 0 9 = 0x1#9 := by rw [hW]; simp (disch := decide) only [ex_hi, ex_lo, ex_all, Nat.reduceSub]
  have wf9_10 : W.extractLsb' 9 10 = 0#10 := by rw [hW]; simp (disch := decide) only [ex_hi, ex_lo, ex_all, Nat.reduceSub]
  have wf19_5 : W.extractLsb' 19 5 = d := by rw [hW]; simp (disch := decide) only [ex_hi, ex_lo, ex_all, Nat.reduceSub]
  have wf24_6 : W.extractLsb' 24 6 = 0x3c#6 := by rw [hW]; simp (disch := decide) only [ex_hi, ex_lo, ex_all, Nat.reduceSub]
  have wf30_2 : W.extractLsb' 30 2 = q.code := by rw [hW]; simp (disch := decide) only [ex_hi, ex_lo, ex_all, Nat.reduceSub]
  generalize hX' : (encodeExt (.pctr ⟨q, d⟩)).getD 0 = X
  have hX : X = 0#32 := hX'.symm
  have xf0_32 : X.extractLsb' 0 32 = 0#32 := by rw [hX]; simp (disch := decide) only [ex_hi, ex_lo, ex_all, Nat.reduceSub]
  exact roundTrip_two hW' hX' rfl rfl wf24_6 rfl (fun h => nomatch h) wf30_2 (by
    rw [decodeTwo_3c _ _ _ wf24_6]
    simp only [decodePkg, ↓reduceIte, BitVec.reduceEq, and_false, false_and, and_self, not_true_eq_false, and_true, true_and, wf0_9, wf9_10, xf0_32, wf19_5])

theorem RoundTrip.pquote (o : XHA) : RoundTrip.Statement (.pquote o) := by
  obtain ⟨q, d, a, ta, inb⟩ := o
  generalize hW' : encode0 (.pquote ⟨q, d, a, ta, inb⟩) = W
  have hW : W = q.code ++ 0x3c#6 ++ 0#2 ++ d ++ a ++ 0#5 ++ 0x2#9 := hW'.symm
  have wf0_9 : W.extractLsb' 0 9 = 0x2#9 := by rw [hW]; simp (disch := decide) only [ex_hi, ex_lo, ex_all, Nat.reduceSub]
  have wf22_2 : W.extractLsb' 22 2 = 0#2 := by rw [hW]; simp (disch := decide) only [ex_hi, ex_lo, ex_all, Nat.reduceSub]
  have wf9_5 : W.extractLsb' 9 5 = 0#5 := by rw [hW]; simp (disch := decide) only [ex_hi, ex_lo, ex_all, Nat.reduceSub]
  have wf19_3 : W.extractLsb' 19 3 = d := by rw [hW]; simp (disch := decide) only [ex_hi, ex_lo, ex_all, Nat.reduceSub]
  have wf14_5 : W.extractLsb' 14 5 = a := by rw [hW]; simp (disch := decide) only [ex_hi, ex_lo, ex_all, Nat.reduceSub]
  have wf24_6 : W.extractLsb' 24 6 = 0x3c#6 := by rw [hW]; simp (disch := decide) only [ex_hi, ex_lo, ex_all, Nat.reduceSub]
  have wf30_2 : W.extractLsb' 30 2 = q.code := by rw [hW]; simp (disch := decide) only [ex_hi, ex_lo, ex_all, Nat.reduceSub]
  generalize hX' : (encodeExt (.pquote ⟨q, d, a, ta, inb⟩)).getD 0 = X
  have hX : X = bit ta ++ 0#1 ++ bit inb ++ 0#29 := hX'.symm
  have xf30_1 : X.extractLsb' 30 1 = 0#1 := by rw [hX]; simp (disch := decide) only [ex_hi, ex_lo, ex_all, Nat.reduceSub]
  have xf0_29 : X.extractLsb' 0 29 = 0#29 := by rw [hX]; simp (disch := decide) only [ex_hi, ex_lo, ex_all, Nat.reduceSub]
  have xb31 : X.getLsbD 31 = ta := by rw [hX]; simp (disch := decide) only [gl_hi, gl_lo, bit_get, Nat.reduceSub]
  have xb29 : X.getLsbD 29 = inb := by rw [hX]; simp (disch := decide) only [gl_hi, gl_lo, bit_get, Nat.reduceSub]
  exact roundTrip_two hW' hX' rfl rfl wf24_6 rfl (fun h => nomatch h) wf30_2 (by
    rw [decodeTwo_3c _ _ _ wf24_6]
    simp only [decodePkg, ↓reduceIte, BitVec.reduceEq, and_false, false_and, and_self, not_true_eq_false, and_true, true_and, wf0_9, wf22_2, wf9_5, xf30_1, xf0_29, wf19_3, wf14_5, xb31, xb29])

theorem RoundTrip.cowPrecopy (part : BitVec 4) (page : Nat) : RoundTrip.Statement (.cowPrecopy part page) := fun h => nomatch h

theorem RoundTrip.pourDrain (part : BitVec 4) : RoundTrip.Statement (.pourDrain part) := fun h => nomatch h

theorem RoundTrip.castComplete (part : BitVec 4) : RoundTrip.Statement (.castComplete part) := fun h => nomatch h

theorem RoundTrip.securityAlarm (sensor : BitVec 2) : RoundTrip.Statement (.securityAlarm sensor) := fun h => nomatch h

theorem RoundTrip.bringUp : RoundTrip.Statement (.bringUp) := fun h => nomatch h

theorem RoundTrip.powerCapThrottle (watts : Nat) : RoundTrip.Statement (.powerCapThrottle watts) := fun h => nomatch h

theorem RoundTrip.powerRestoreClocks (watts : Nat) : RoundTrip.Statement (.powerRestoreClocks watts) := fun h => nomatch h

theorem RoundTrip.fput (o : FputO) : RoundTrip.Statement (.fput o) := by
  obtain ⟨q, d, a, b, ta, tb, inb, ord, sp, len⟩ := o
  generalize hW' : encode0 (.fput ⟨q, d, a, b, ta, tb, inb, ord, sp, len⟩) = W
  have hW : W = q.code ++ 0x3d#6 ++ 0#2 ++ d ++ a ++ b ++ 0x0#9 := hW'.symm
  have wf0_9 : W.extractLsb' 0 9 = 0x0#9 := by rw [hW]; simp (disch := decide) only [ex_hi, ex_lo, ex_all, Nat.reduceSub]
  have wf22_2 : W.extractLsb' 22 2 = 0#2 := by rw [hW]; simp (disch := decide) only [ex_hi, ex_lo, ex_all, Nat.reduceSub]
  have wf19_3 : W.extractLsb' 19 3 = d := by rw [hW]; simp (disch := decide) only [ex_hi, ex_lo, ex_all, Nat.reduceSub]
  have wf14_5 : W.extractLsb' 14 5 = a := by rw [hW]; simp (disch := decide) only [ex_hi, ex_lo, ex_all, Nat.reduceSub]
  have wf9_5 : W.extractLsb' 9 5 = b := by rw [hW]; simp (disch := decide) only [ex_hi, ex_lo, ex_all, Nat.reduceSub]
  have wf24_6 : W.extractLsb' 24 6 = 0x3d#6 := by rw [hW]; simp (disch := decide) only [ex_hi, ex_lo, ex_all, Nat.reduceSub]
  have wf30_2 : W.extractLsb' 30 2 = q.code := by rw [hW]; simp (disch := decide) only [ex_hi, ex_lo, ex_all, Nat.reduceSub]
  generalize hX' : (encodeExt (.fput ⟨q, d, a, b, ta, tb, inb, ord, sp, len⟩)).getD 0 = X
  have hX : X = bit ta ++ bit tb ++ bit inb ++ bit ord ++ sp ++ 0#2 ++ len := hX'.symm
  have xf23_2 : X.extractLsb' 23 2 = 0#2 := by rw [hX]; simp (disch := decide) only [ex_hi, ex_lo, ex_all, Nat.reduceSub]
  have xb31 : X.getLsbD 31 = ta := by rw [hX]; simp (disch := decide) only [gl_hi, gl_lo, bit_get, Nat.reduceSub]
  have xb30 : X.getLsbD 30 = tb := by rw [hX]; simp (disch := decide) only [gl_hi, gl_lo, bit_get, Nat.reduceSub]
  have xb29 : X.getLsbD 29 = inb := by rw [hX]; simp (disch := decide) only [gl_hi, gl_lo, bit_get, Nat.reduceSub]
  have xb28 : X.getLsbD 28 = ord := by rw [hX]; simp (disch := decide) only [gl_hi, gl_lo, bit_get, Nat.reduceSub]
  have xf25_3 : X.extractLsb' 25 3 = sp := by rw [hX]; simp (disch := decide) only [ex_hi, ex_lo, ex_all, Nat.reduceSub]
  have xf0_23 : X.extractLsb' 0 23 = len := by rw [hX]; simp (disch := decide) only [ex_hi, ex_lo, ex_all, Nat.reduceSub]
  exact roundTrip_two hW' hX' rfl rfl wf24_6 rfl (fun h => nomatch h) wf30_2 (by
    rw [decodeTwo_3d _ _ _ wf24_6]
    simp only [decodeFab, ↓reduceIte, BitVec.reduceEq, and_false, false_and, and_self, not_true_eq_false, and_true, true_and, wf0_9, wf22_2, xf23_2, wf19_3, wf14_5, wf9_5, xb31, xb30, xb29, xb28, xf25_3, xf0_23])

theorem RoundTrip.fget (o : FgetO) : RoundTrip.Statement (.fget o) := by
  obtain ⟨q, d, a, b, ta, tb, inb, sp, len⟩ := o
  generalize hW' : encode0 (.fget ⟨q, d, a, b, ta, tb, inb, sp, len⟩) = W
  have hW : W = q.code ++ 0x3d#6 ++ 0#2 ++ d ++ a ++ b ++ 0x1#9 := hW'.symm
  have wf0_9 : W.extractLsb' 0 9 = 0x1#9 := by rw [hW]; simp (disch := decide) only [ex_hi, ex_lo, ex_all, Nat.reduceSub]
  have wf22_2 : W.extractLsb' 22 2 = 0#2 := by rw [hW]; simp (disch := decide) only [ex_hi, ex_lo, ex_all, Nat.reduceSub]
  have wf19_3 : W.extractLsb' 19 3 = d := by rw [hW]; simp (disch := decide) only [ex_hi, ex_lo, ex_all, Nat.reduceSub]
  have wf14_5 : W.extractLsb' 14 5 = a := by rw [hW]; simp (disch := decide) only [ex_hi, ex_lo, ex_all, Nat.reduceSub]
  have wf9_5 : W.extractLsb' 9 5 = b := by rw [hW]; simp (disch := decide) only [ex_hi, ex_lo, ex_all, Nat.reduceSub]
  have wf24_6 : W.extractLsb' 24 6 = 0x3d#6 := by rw [hW]; simp (disch := decide) only [ex_hi, ex_lo, ex_all, Nat.reduceSub]
  have wf30_2 : W.extractLsb' 30 2 = q.code := by rw [hW]; simp (disch := decide) only [ex_hi, ex_lo, ex_all, Nat.reduceSub]
  generalize hX' : (encodeExt (.fget ⟨q, d, a, b, ta, tb, inb, sp, len⟩)).getD 0 = X
  have hX : X = bit ta ++ bit tb ++ bit inb ++ 0#1 ++ sp ++ 0#2 ++ len := hX'.symm
  have xf28_1 : X.extractLsb' 28 1 = 0#1 := by rw [hX]; simp (disch := decide) only [ex_hi, ex_lo, ex_all, Nat.reduceSub]
  have xf23_2 : X.extractLsb' 23 2 = 0#2 := by rw [hX]; simp (disch := decide) only [ex_hi, ex_lo, ex_all, Nat.reduceSub]
  have xb31 : X.getLsbD 31 = ta := by rw [hX]; simp (disch := decide) only [gl_hi, gl_lo, bit_get, Nat.reduceSub]
  have xb30 : X.getLsbD 30 = tb := by rw [hX]; simp (disch := decide) only [gl_hi, gl_lo, bit_get, Nat.reduceSub]
  have xb29 : X.getLsbD 29 = inb := by rw [hX]; simp (disch := decide) only [gl_hi, gl_lo, bit_get, Nat.reduceSub]
  have xf25_3 : X.extractLsb' 25 3 = sp := by rw [hX]; simp (disch := decide) only [ex_hi, ex_lo, ex_all, Nat.reduceSub]
  have xf0_23 : X.extractLsb' 0 23 = len := by rw [hX]; simp (disch := decide) only [ex_hi, ex_lo, ex_all, Nat.reduceSub]
  exact roundTrip_two hW' hX' rfl rfl wf24_6 rfl (fun h => nomatch h) wf30_2 (by
    rw [decodeTwo_3d _ _ _ wf24_6]
    simp only [decodeFab, ↓reduceIte, BitVec.reduceEq, and_false, false_and, and_self, not_true_eq_false, and_true, true_and, wf0_9, wf22_2, xf28_1, xf23_2, wf19_3, wf14_5, wf9_5, xb31, xb30, xb29, xf25_3, xf0_23])

theorem RoundTrip.fsend (o : FsendO) : RoundTrip.Statement (.fsend o) := by
  obtain ⟨q, d, a, b, ta, tb, inb, ord, tag⟩ := o
  generalize hW' : encode0 (.fsend ⟨q, d, a, b, ta, tb, inb, ord, tag⟩) = W
  have hW : W = q.code ++ 0x3d#6 ++ 0#2 ++ d ++ a ++ b ++ 0x2#9 := hW'.symm
  have wf0_9 : W.extractLsb' 0 9 = 0x2#9 := by rw [hW]; simp (disch := decide) only [ex_hi, ex_lo, ex_all, Nat.reduceSub]
  have wf22_2 : W.extractLsb' 22 2 = 0#2 := by rw [hW]; simp (disch := decide) only [ex_hi, ex_lo, ex_all, Nat.reduceSub]
  have wf19_3 : W.extractLsb' 19 3 = d := by rw [hW]; simp (disch := decide) only [ex_hi, ex_lo, ex_all, Nat.reduceSub]
  have wf14_5 : W.extractLsb' 14 5 = a := by rw [hW]; simp (disch := decide) only [ex_hi, ex_lo, ex_all, Nat.reduceSub]
  have wf9_5 : W.extractLsb' 9 5 = b := by rw [hW]; simp (disch := decide) only [ex_hi, ex_lo, ex_all, Nat.reduceSub]
  have wf24_6 : W.extractLsb' 24 6 = 0x3d#6 := by rw [hW]; simp (disch := decide) only [ex_hi, ex_lo, ex_all, Nat.reduceSub]
  have wf30_2 : W.extractLsb' 30 2 = q.code := by rw [hW]; simp (disch := decide) only [ex_hi, ex_lo, ex_all, Nat.reduceSub]
  generalize hX' : (encodeExt (.fsend ⟨q, d, a, b, ta, tb, inb, ord, tag⟩)).getD 0 = X
  have hX : X = bit ta ++ bit tb ++ bit inb ++ bit ord ++ 0#12 ++ tag := hX'.symm
  have xf16_12 : X.extractLsb' 16 12 = 0#12 := by rw [hX]; simp (disch := decide) only [ex_hi, ex_lo, ex_all, Nat.reduceSub]
  have xb31 : X.getLsbD 31 = ta := by rw [hX]; simp (disch := decide) only [gl_hi, gl_lo, bit_get, Nat.reduceSub]
  have xb30 : X.getLsbD 30 = tb := by rw [hX]; simp (disch := decide) only [gl_hi, gl_lo, bit_get, Nat.reduceSub]
  have xb29 : X.getLsbD 29 = inb := by rw [hX]; simp (disch := decide) only [gl_hi, gl_lo, bit_get, Nat.reduceSub]
  have xb28 : X.getLsbD 28 = ord := by rw [hX]; simp (disch := decide) only [gl_hi, gl_lo, bit_get, Nat.reduceSub]
  have xf0_16 : X.extractLsb' 0 16 = tag := by rw [hX]; simp (disch := decide) only [ex_hi, ex_lo, ex_all, Nat.reduceSub]
  exact roundTrip_two hW' hX' rfl rfl wf24_6 rfl (fun h => nomatch h) wf30_2 (by
    rw [decodeTwo_3d _ _ _ wf24_6]
    simp only [decodeFab, ↓reduceIte, BitVec.reduceEq, and_false, false_and, and_self, not_true_eq_false, and_true, true_and, wf0_9, wf22_2, xf16_12, wf19_3, wf14_5, wf9_5, xb31, xb30, xb29, xb28, xf0_16])

theorem RoundTrip.frecv (o : FrecvO) : RoundTrip.Statement (.frecv o) := by
  obtain ⟨q, d, b, queue, nb⟩ := o
  generalize hW' : encode0 (.frecv ⟨q, d, b, queue, nb⟩) = W
  have hW : W = q.code ++ 0x3d#6 ++ d ++ 0#5 ++ b ++ 0x3#9 := hW'.symm
  have wf0_9 : W.extractLsb' 0 9 = 0x3#9 := by rw [hW]; simp (disch := decide) only [ex_hi, ex_lo, ex_all, Nat.reduceSub]
  have wf14_5 : W.extractLsb' 14 5 = 0#5 := by rw [hW]; simp (disch := decide) only [ex_hi, ex_lo, ex_all, Nat.reduceSub]
  have wf19_5 : W.extractLsb' 19 5 = d := by rw [hW]; simp (disch := decide) only [ex_hi, ex_lo, ex_all, Nat.reduceSub]
  have wf9_5 : W.extractLsb' 9 5 = b := by rw [hW]; simp (disch := decide) only [ex_hi, ex_lo, ex_all, Nat.reduceSub]
  have wf24_6 : W.extractLsb' 24 6 = 0x3d#6 := by rw [hW]; simp (disch := decide) only [ex_hi, ex_lo, ex_all, Nat.reduceSub]
  have wf30_2 : W.extractLsb' 30 2 = q.code := by rw [hW]; simp (disch := decide) only [ex_hi, ex_lo, ex_all, Nat.reduceSub]
  generalize hX' : (encodeExt (.frecv ⟨q, d, b, queue, nb⟩)).getD 0 = X
  have hX : X = 0#18 ++ queue ++ 0#7 ++ bit nb := hX'.symm
  have xf14_18 : X.extractLsb' 14 18 = 0#18 := by rw [hX]; simp (disch := decide) only [ex_hi, ex_lo, ex_all, Nat.reduceSub]
  have xf1_7 : X.extractLsb' 1 7 = 0#7 := by rw [hX]; simp (disch := decide) only [ex_hi, ex_lo, ex_all, Nat.reduceSub]
  have xf8_6 : X.extractLsb' 8 6 = queue := by rw [hX]; simp (disch := decide) only [ex_hi, ex_lo, ex_all, Nat.reduceSub]
  have xb0 : X.getLsbD 0 = nb := by rw [hX]; simp (disch := decide) only [gl_hi, gl_lo, bit_get, Nat.reduceSub]
  exact roundTrip_two hW' hX' rfl rfl wf24_6 rfl (fun h => nomatch h) wf30_2 (by
    rw [decodeTwo_3d _ _ _ wf24_6]
    simp only [decodeFab, ↓reduceIte, BitVec.reduceEq, and_false, false_and, and_self, not_true_eq_false, and_true, true_and, wf0_9, wf14_5, xf14_18, xf1_7, wf19_5, wf9_5, xf8_6, xb0])

theorem RoundTrip.fcut (o : FcutO) : RoundTrip.Statement (.fcut o) := by
  obtain ⟨q, a, b, ta, tb⟩ := o
  generalize hW' : encode0 (.fcut ⟨q, a, b, ta, tb⟩) = W
  have hW : W = q.code ++ 0x3d#6 ++ 0#5 ++ a ++ b ++ 0x4#9 := hW'.symm
  have wf0_9 : W.extractLsb' 0 9 = 0x4#9 := by rw [hW]; simp (disch := decide) only [ex_hi, ex_lo, ex_all, Nat.reduceSub]
  have wf19_5 : W.extractLsb' 19 5 = 0#5 := by rw [hW]; simp (disch := decide) only [ex_hi, ex_lo, ex_all, Nat.reduceSub]
  have wf14_5 : W.extractLsb' 14 5 = a := by rw [hW]; simp (disch := decide) only [ex_hi, ex_lo, ex_all, Nat.reduceSub]
  have wf9_5 : W.extractLsb' 9 5 = b := by rw [hW]; simp (disch := decide) only [ex_hi, ex_lo, ex_all, Nat.reduceSub]
  have wf24_6 : W.extractLsb' 24 6 = 0x3d#6 := by rw [hW]; simp (disch := decide) only [ex_hi, ex_lo, ex_all, Nat.reduceSub]
  have wf30_2 : W.extractLsb' 30 2 = q.code := by rw [hW]; simp (disch := decide) only [ex_hi, ex_lo, ex_all, Nat.reduceSub]
  generalize hX' : (encodeExt (.fcut ⟨q, a, b, ta, tb⟩)).getD 0 = X
  have hX : X = bit ta ++ bit tb ++ 0#30 := hX'.symm
  have xf0_30 : X.extractLsb' 0 30 = 0#30 := by rw [hX]; simp (disch := decide) only [ex_hi, ex_lo, ex_all, Nat.reduceSub]
  have xb31 : X.getLsbD 31 = ta := by rw [hX]; simp (disch := decide) only [gl_hi, gl_lo, bit_get, Nat.reduceSub]
  have xb30 : X.getLsbD 30 = tb := by rw [hX]; simp (disch := decide) only [gl_hi, gl_lo, bit_get, Nat.reduceSub]
  exact roundTrip_two hW' hX' rfl rfl wf24_6 rfl (fun h => nomatch h) wf30_2 (by
    rw [decodeTwo_3d _ _ _ wf24_6]
    simp only [decodeFab, ↓reduceIte, BitVec.reduceEq, and_false, false_and, and_self, not_true_eq_false, and_true, true_and, wf0_9, wf19_5, xf0_30, wf14_5, wf9_5, xb31, xb30])

theorem RoundTrip.fwin (o : FwinO) : RoundTrip.Statement (.fwin o) := by
  obtain ⟨q, a, ta, window⟩ := o
  generalize hW' : encode0 (.fwin ⟨q, a, ta, window⟩) = W
  have hW : W = q.code ++ 0x3d#6 ++ 0#5 ++ a ++ 0#5 ++ 0x5#9 := hW'.symm
  have wf0_9 : W.extractLsb' 0 9 = 0x5#9 := by rw [hW]; simp (disch := decide) only [ex_hi, ex_lo, ex_all, Nat.reduceSub]
  have wf19_5 : W.extractLsb' 19 5 = 0#5 := by rw [hW]; simp (disch := decide) only [ex_hi, ex_lo, ex_all, Nat.reduceSub]
  have wf9_5 : W.extractLsb' 9 5 = 0#5 := by rw [hW]; simp (disch := decide) only [ex_hi, ex_lo, ex_all, Nat.reduceSub]
  have wf14_5 : W.extractLsb' 14 5 = a := by rw [hW]; simp (disch := decide) only [ex_hi, ex_lo, ex_all, Nat.reduceSub]
  have wf24_6 : W.extractLsb' 24 6 = 0x3d#6 := by rw [hW]; simp (disch := decide) only [ex_hi, ex_lo, ex_all, Nat.reduceSub]
  have wf30_2 : W.extractLsb' 30 2 = q.code := by rw [hW]; simp (disch := decide) only [ex_hi, ex_lo, ex_all, Nat.reduceSub]
  generalize hX' : (encodeExt (.fwin ⟨q, a, ta, window⟩)).getD 0 = X
  have hX : X = bit ta ++ 0#23 ++ window := hX'.symm
  have xf8_23 : X.extractLsb' 8 23 = 0#23 := by rw [hX]; simp (disch := decide) only [ex_hi, ex_lo, ex_all, Nat.reduceSub]
  have xb31 : X.getLsbD 31 = ta := by rw [hX]; simp (disch := decide) only [gl_hi, gl_lo, bit_get, Nat.reduceSub]
  have xf0_8 : X.extractLsb' 0 8 = window := by rw [hX]; simp (disch := decide) only [ex_hi, ex_lo, ex_all, Nat.reduceSub]
  exact roundTrip_two hW' hX' rfl rfl wf24_6 rfl (fun h => nomatch h) wf30_2 (by
    rw [decodeTwo_3d _ _ _ wf24_6]
    simp only [decodeFab, ↓reduceIte, BitVec.reduceEq, and_false, false_and, and_self, not_true_eq_false, and_true, true_and, wf0_9, wf19_5, wf9_5, xf8_23, wf14_5, xb31, xf0_8])

theorem RoundTrip.fctlPolicy (o : FctlO) : RoundTrip.Statement (.fctlPolicy o) := by
  obtain ⟨q, a, ta, port⟩ := o
  generalize hW' : encode0 (.fctlPolicy ⟨q, a, ta, port⟩) = W
  have hW : W = q.code ++ 0x3d#6 ++ 0#5 ++ a ++ 0#5 ++ 0x6#9 := hW'.symm
  have wf0_9 : W.extractLsb' 0 9 = 0x6#9 := by rw [hW]; simp (disch := decide) only [ex_hi, ex_lo, ex_all, Nat.reduceSub]
  have wf19_5 : W.extractLsb' 19 5 = 0#5 := by rw [hW]; simp (disch := decide) only [ex_hi, ex_lo, ex_all, Nat.reduceSub]
  have wf9_5 : W.extractLsb' 9 5 = 0#5 := by rw [hW]; simp (disch := decide) only [ex_hi, ex_lo, ex_all, Nat.reduceSub]
  have wf14_5 : W.extractLsb' 14 5 = a := by rw [hW]; simp (disch := decide) only [ex_hi, ex_lo, ex_all, Nat.reduceSub]
  have wf24_6 : W.extractLsb' 24 6 = 0x3d#6 := by rw [hW]; simp (disch := decide) only [ex_hi, ex_lo, ex_all, Nat.reduceSub]
  have wf30_2 : W.extractLsb' 30 2 = q.code := by rw [hW]; simp (disch := decide) only [ex_hi, ex_lo, ex_all, Nat.reduceSub]
  generalize hX' : (encodeExt (.fctlPolicy ⟨q, a, ta, port⟩)).getD 0 = X
  have hX : X = bit ta ++ 0#24 ++ port ++ 0#4 := hX'.symm
  have xf7_24 : X.extractLsb' 7 24 = 0#24 := by rw [hX]; simp (disch := decide) only [ex_hi, ex_lo, ex_all, Nat.reduceSub]
  have xf0_4 : X.extractLsb' 0 4 = 0#4 := by rw [hX]; simp (disch := decide) only [ex_hi, ex_lo, ex_all, Nat.reduceSub]
  have xb31 : X.getLsbD 31 = ta := by rw [hX]; simp (disch := decide) only [gl_hi, gl_lo, bit_get, Nat.reduceSub]
  have xf4_3 : X.extractLsb' 4 3 = port := by rw [hX]; simp (disch := decide) only [ex_hi, ex_lo, ex_all, Nat.reduceSub]
  exact roundTrip_two hW' hX' rfl rfl wf24_6 rfl (fun h => nomatch h) wf30_2 (by
    rw [decodeTwo_3d _ _ _ wf24_6]
    simp only [decodeFab, ↓reduceIte, BitVec.reduceEq, and_false, false_and, and_self, not_true_eq_false, and_true, true_and, wf0_9, wf19_5, wf9_5, xf7_24, xf0_4, wf14_5, xb31, xf4_3])

theorem RoundTrip.fctlExcise (o : FctlO) : RoundTrip.Statement (.fctlExcise o) := by
  obtain ⟨q, a, ta, port⟩ := o
  generalize hW' : encode0 (.fctlExcise ⟨q, a, ta, port⟩) = W
  have hW : W = q.code ++ 0x3d#6 ++ 0#5 ++ a ++ 0#5 ++ 0x6#9 := hW'.symm
  have wf0_9 : W.extractLsb' 0 9 = 0x6#9 := by rw [hW]; simp (disch := decide) only [ex_hi, ex_lo, ex_all, Nat.reduceSub]
  have wf19_5 : W.extractLsb' 19 5 = 0#5 := by rw [hW]; simp (disch := decide) only [ex_hi, ex_lo, ex_all, Nat.reduceSub]
  have wf9_5 : W.extractLsb' 9 5 = 0#5 := by rw [hW]; simp (disch := decide) only [ex_hi, ex_lo, ex_all, Nat.reduceSub]
  have wf14_5 : W.extractLsb' 14 5 = a := by rw [hW]; simp (disch := decide) only [ex_hi, ex_lo, ex_all, Nat.reduceSub]
  have wf24_6 : W.extractLsb' 24 6 = 0x3d#6 := by rw [hW]; simp (disch := decide) only [ex_hi, ex_lo, ex_all, Nat.reduceSub]
  have wf30_2 : W.extractLsb' 30 2 = q.code := by rw [hW]; simp (disch := decide) only [ex_hi, ex_lo, ex_all, Nat.reduceSub]
  generalize hX' : (encodeExt (.fctlExcise ⟨q, a, ta, port⟩)).getD 0 = X
  have hX : X = bit ta ++ 0#24 ++ port ++ 1#4 := hX'.symm
  have xf0_4 : X.extractLsb' 0 4 = 1#4 := by rw [hX]; simp (disch := decide) only [ex_hi, ex_lo, ex_all, Nat.reduceSub]
  have xf7_24 : X.extractLsb' 7 24 = 0#24 := by rw [hX]; simp (disch := decide) only [ex_hi, ex_lo, ex_all, Nat.reduceSub]
  have xb31 : X.getLsbD 31 = ta := by rw [hX]; simp (disch := decide) only [gl_hi, gl_lo, bit_get, Nat.reduceSub]
  have xf4_3 : X.extractLsb' 4 3 = port := by rw [hX]; simp (disch := decide) only [ex_hi, ex_lo, ex_all, Nat.reduceSub]
  exact roundTrip_two hW' hX' rfl rfl wf24_6 rfl (fun h => nomatch h) wf30_2 (by
    rw [decodeTwo_3d _ _ _ wf24_6]
    simp only [decodeFab, ↓reduceIte, BitVec.reduceEq, and_false, false_and, and_self, not_true_eq_false, and_true, true_and, wf0_9, wf19_5, wf9_5, xf0_4, xf7_24, wf14_5, xb31, xf4_3])

theorem RoundTrip.fctlReadmit (o : FctlO) : RoundTrip.Statement (.fctlReadmit o) := by
  obtain ⟨q, a, ta, port⟩ := o
  generalize hW' : encode0 (.fctlReadmit ⟨q, a, ta, port⟩) = W
  have hW : W = q.code ++ 0x3d#6 ++ 0#5 ++ a ++ 0#5 ++ 0x6#9 := hW'.symm
  have wf0_9 : W.extractLsb' 0 9 = 0x6#9 := by rw [hW]; simp (disch := decide) only [ex_hi, ex_lo, ex_all, Nat.reduceSub]
  have wf19_5 : W.extractLsb' 19 5 = 0#5 := by rw [hW]; simp (disch := decide) only [ex_hi, ex_lo, ex_all, Nat.reduceSub]
  have wf9_5 : W.extractLsb' 9 5 = 0#5 := by rw [hW]; simp (disch := decide) only [ex_hi, ex_lo, ex_all, Nat.reduceSub]
  have wf14_5 : W.extractLsb' 14 5 = a := by rw [hW]; simp (disch := decide) only [ex_hi, ex_lo, ex_all, Nat.reduceSub]
  have wf24_6 : W.extractLsb' 24 6 = 0x3d#6 := by rw [hW]; simp (disch := decide) only [ex_hi, ex_lo, ex_all, Nat.reduceSub]
  have wf30_2 : W.extractLsb' 30 2 = q.code := by rw [hW]; simp (disch := decide) only [ex_hi, ex_lo, ex_all, Nat.reduceSub]
  generalize hX' : (encodeExt (.fctlReadmit ⟨q, a, ta, port⟩)).getD 0 = X
  have hX : X = bit ta ++ 0#24 ++ port ++ 2#4 := hX'.symm
  have xf0_4 : X.extractLsb' 0 4 = 2#4 := by rw [hX]; simp (disch := decide) only [ex_hi, ex_lo, ex_all, Nat.reduceSub]
  have xf7_24 : X.extractLsb' 7 24 = 0#24 := by rw [hX]; simp (disch := decide) only [ex_hi, ex_lo, ex_all, Nat.reduceSub]
  have xb31 : X.getLsbD 31 = ta := by rw [hX]; simp (disch := decide) only [gl_hi, gl_lo, bit_get, Nat.reduceSub]
  have xf4_3 : X.extractLsb' 4 3 = port := by rw [hX]; simp (disch := decide) only [ex_hi, ex_lo, ex_all, Nat.reduceSub]
  exact roundTrip_two hW' hX' rfl rfl wf24_6 rfl (fun h => nomatch h) wf30_2 (by
    rw [decodeTwo_3d _ _ _ wf24_6]
    simp only [decodeFab, ↓reduceIte, BitVec.reduceEq, and_false, false_and, and_self, not_true_eq_false, and_true, true_and, wf0_9, wf19_5, wf9_5, xf0_4, xf7_24, wf14_5, xb31, xf4_3])

theorem RoundTrip.fpstat (o : FpstO) : RoundTrip.Statement (.fpstat o) := by
  obtain ⟨q, d, port⟩ := o
  generalize hW' : encode0 (.fpstat ⟨q, d, port⟩) = W
  have hW : W = q.code ++ 0x3d#6 ++ d ++ 0#10 ++ 0x7#9 := hW'.symm
  have wf0_9 : W.extractLsb' 0 9 = 0x7#9 := by rw [hW]; simp (disch := decide) only [ex_hi, ex_lo, ex_all, Nat.reduceSub]
  have wf9_10 : W.extractLsb' 9 10 = 0#10 := by rw [hW]; simp (disch := decide) only [ex_hi, ex_lo, ex_all, Nat.reduceSub]
  have wf19_5 : W.extractLsb' 19 5 = d := by rw [hW]; simp (disch := decide) only [ex_hi, ex_lo, ex_all, Nat.reduceSub]
  have wf24_6 : W.extractLsb' 24 6 = 0x3d#6 := by rw [hW]; simp (disch := decide) only [ex_hi, ex_lo, ex_all, Nat.reduceSub]
  have wf30_2 : W.extractLsb' 30 2 = q.code := by rw [hW]; simp (disch := decide) only [ex_hi, ex_lo, ex_all, Nat.reduceSub]
  generalize hX' : (encodeExt (.fpstat ⟨q, d, port⟩)).getD 0 = X
  have hX : X = 0#29 ++ port := hX'.symm
  have xf3_29 : X.extractLsb' 3 29 = 0#29 := by rw [hX]; simp (disch := decide) only [ex_hi, ex_lo, ex_all, Nat.reduceSub]
  have xf0_3 : X.extractLsb' 0 3 = port := by rw [hX]; simp (disch := decide) only [ex_hi, ex_lo, ex_all, Nat.reduceSub]
  exact roundTrip_two hW' hX' rfl rfl wf24_6 rfl (fun h => nomatch h) wf30_2 (by
    rw [decodeTwo_3d _ _ _ wf24_6]
    simp only [decodeFab, ↓reduceIte, BitVec.reduceEq, and_false, false_and, and_self, not_true_eq_false, and_true, true_and, wf0_9, wf9_10, xf3_29, wf19_5, xf0_3])

theorem RoundTrip.fabricPacketSend (die : BitVec 4) : RoundTrip.Statement (.fabricPacketSend die) := fun h => nomatch h

theorem RoundTrip.fabricAck (p : Packet) : RoundTrip.Statement (.fabricAck p) := fun h => nomatch h

theorem RoundTrip.orderedArrival (port : BitVec 3) (p : Packet) : RoundTrip.Statement (.orderedArrival port p) := fun h => nomatch h

theorem RoundTrip.orderedDelivery : RoundTrip.Statement (.orderedDelivery) := fun h => nomatch h

theorem RoundTrip.unorderedArrival (p : Packet) : RoundTrip.Statement (.unorderedArrival p) := fun h => nomatch h

theorem RoundTrip.milestoneReceive (port : BitVec 3) (stamp : Nat) : RoundTrip.Statement (.milestoneReceive port stamp) := fun h => nomatch h

theorem RoundTrip.waymark (port : BitVec 3) : RoundTrip.Statement (.waymark port) := fun h => nomatch h

theorem RoundTrip.milestoneSend (port : BitVec 3) : RoundTrip.Statement (.milestoneSend port) := fun h => nomatch h

theorem RoundTrip.flitReplay (port : PortLoss) : RoundTrip.Statement (.flitReplay port) := fun h => nomatch h

theorem RoundTrip.laneFail (port : PortLoss) (lane : BitVec 7) : RoundTrip.Statement (.laneFail port lane) := fun h => nomatch h

theorem RoundTrip.linkDown (port : PortLoss) : RoundTrip.Statement (.linkDown port) := fun h => nomatch h

theorem RoundTrip.routeRecompute : RoundTrip.Statement (.routeRecompute) := fun h => nomatch h

theorem RoundTrip.stalledWatermark (port : BitVec 3) : RoundTrip.Statement (.stalledWatermark port) := fun h => nomatch h

theorem RoundTrip.portReadmit (port : BitVec 3) : RoundTrip.Statement (.portReadmit port) := fun h => nomatch h

theorem RoundTrip.timestampExchange (peer : ClockPeer) (offset : Int) : RoundTrip.Statement (.timestampExchange peer offset) := fun h => nomatch h

theorem RoundTrip.reservedWord (w0 : Word) (w1 : Word) (value : Word) : RoundTrip.Statement (.reservedWord w0 w1 value) := fun h => nomatch h

theorem RoundTrip.checkWindowExpiry (unit : CheckUnit) : RoundTrip.Statement (.checkWindowExpiry unit) := fun h => nomatch h

theorem RoundTrip.translationChange (part : BitVec 4) (va : Nat) (len : Nat) : RoundTrip.Statement (.translationChange part va len) := fun h => nomatch h

theorem RoundTrip.schedulerPairFailure (die : BitVec 4) : RoundTrip.Statement (.schedulerPairFailure die) := fun h => nomatch h

theorem RoundTrip.portUp (port : BitVec 3) (nbr : BitVec 20) : RoundTrip.Statement (.portUp port nbr) := fun h => nomatch h

end Sys2Proof.Laws
end

