-- ==== Sys2Proof/Safety.lean ====
section
/-! DEFINITION. What counts as a safe run: every step answers a next state, and the byte memory and the
tables beside it stay in canonical form. And the words the statements are made in: when a unit may take its
effect, and how its result is put away. -/

namespace Sys2Proof.Machine

/-- The byte memory and the tables beside it are in canonical form. -/
def State.canonical (s : State) : Bool :=
  s.mem.wf && Tab.wf false s.taint && Tab.wf false s.uncorr && Tab.wf false s.poison
    && Tab.wf false s.dirty && Tab.wf none s.tags && Tab.wf Core.blank s.cores

/-- A step from s is safe: it answers a next state. -/
def SafeStep (s : State) : Prop := ∃ t, step s = .next t

/-- The issuing core may take the effect of a unit of len words with sequencing part q: it runs a task, no checker's
mismatch awaits it, and the unit itself carries no trap (R24, R29, R148). -/
abbrev State.ready (s : State) (len : Nat) (q : Seq) : Prop :=
  s.me.canIssue = true ∧ s.scalarCheck = none ∧ s.me.unitTrap len q = none

/-- A g register is full (R17). -/
abbrev State.fullG (s : State) (n : BitVec 5) : Prop := (s.me.greg n).fill = .full
/-- No producer is outstanding into a g register (R18). -/
abbrev State.freeG (s : State) (n : BitVec 5) : Prop := (s.me.greg n).fill ≠ .pending

/-- After a unit of len words whose effect left the core's state as k: its sequencing part (R24). -/
abbrev State.putCore (s : State) (len : Nat) (q : Seq) (k : Core) : Out := .next ((s.setMe k).finish len q id)

/-- The outcome of a one-word unit that writes a value with its taint to a g register (R19, R24, R93). -/
abbrev State.putG (s : State) (q : Seq) (d : BitVec 5) (v : DWord) (t : Bool) : Out :=
  s.putCore (len1 q) q (s.me.writeG d v t)

/-- The same for a predicate. -/
abbrev State.putP (s : State) (q : Seq) (d : BitVec 3) (v t : Bool) : Out :=
  s.putCore (len1 q) q (s.me.writeP d v t)

/-- What an instruction's program sees of a core's registers and flags is the same in both. -/
def sameRegs (k k' : Core) : Prop :=
  k'.g = k.g ∧ k'.v = k.v ∧ k'.m = k.m ∧ k'.p = k.p ∧ k'.h = k.h ∧ k'.w = k.w ∧ k'.fx = k.fx ∧
    k'.fxTaint = k.fxTaint ∧ k'.lfsr = k.lfsr

/-- The special registers of a core (TASK's fields but CT, the coordinates, RLI, ROLE and SHARE, the inbox, the
cycle count's bases) and its queues are the same in both. -/
def sameSpecials (k k' : Core) : Prop :=
  k'.src = k.src ∧ k'.je = k.je ∧ k'.rli = k.rli ∧ k'.seqn = k.seqn ∧ k'.ci = k.ci ∧ k'.cj = k.cj ∧ k'.ck = k.ck ∧
    k'.role = k.role ∧ k'.maxlg = k.maxlg ∧ k'.weight = k.weight ∧ k'.service = k.service ∧
    k'.inbox = k.inbox ∧ k'.cycleBase = k.cycleBase ∧ k'.taskStart = k.taskStart ∧
    k'.vq = k.vq ∧ k'.inflight = k.inflight ∧ k'.arrivals = k.arrivals ∧ k'.ports = k.ports

/-- THE FRAME of an instruction that only writes the g register g and the predicate p, one or none of them: memory and
its taint, every other core, and every register of this core but those; TRAPINFO changes only if the unit trapped. -/
def State.sameBut (s t : State) (g : Option (BitVec 5)) (p : Option (BitVec 3)) : Prop :=
  t.cur = s.cur ∧ t.mem = s.mem ∧ t.taint = s.taint ∧ (∀ c, coreNum c ≠ coreNum s.cur → t.core c = s.core c) ∧
    (∀ n, g ≠ some n → t.me.greg n = s.me.greg n) ∧ (∀ n, p ≠ some n → t.me.preg n = s.me.preg n) ∧
    t.me.v = s.me.v ∧ t.me.m = s.me.m ∧ t.me.h = s.me.h ∧ t.me.w = s.me.w ∧ sameSpecials s.me t.me ∧
    (t.me.park = none → t.me.tiPc = s.me.tiPc ∧ t.me.tiValid = s.me.tiValid ∧ t.me.tiCause = s.me.tiCause ∧
      t.me.tiAttempt = s.me.tiAttempt)

/-- Every byte of memory outside the n bytes at a, and its taint, is the same in both states. -/
def sameBytesBut (s t : State) (a n : Nat) : Prop :=
  ∀ x, x < a ∨ a + n ≤ x → t.mem.read x = s.mem.read x ∧ Tab.get false t.taint x = Tab.get false s.taint x

/-- No die has ended its share of a launch otherwise than well (R369). -/
abbrev Launch.sharesDone (x : Launch) : Prop := ∀ p ∈ x.shares, ∀ y, p.2 = some y → y.status = 0

/-- No partition has a cast in flight, so that no write stages a page (R410). -/
abbrev State.noCast (s : State) : Prop := ∀ x ∈ s.parts, ∀ y, x.2 = some y → y.cast = none

/-- A dword of a yard. -/
abbrev State.yardDword (s : State) (k : ClusterId) (a : Nat) : Nat := natOfBytes (s.mem.readN (yardBase k + a) 8)

/-! ### Vector instructions -/

/-- The core's queue has a place for a vector instruction, and its head has taken its VACC cut if it needs one
(R136, R307). -/
abbrev State.queueRoom (s : State) : Prop :=
  s.me.vq.length < 8 ∧ ∀ e, s.me.vq.head? = some e → e.op.kind.isVacc = true → e.cut ≠ none

/-- The queue entry of a vector instruction with the given g operands, as it stands at its push (R136, R149). -/
abbrev State.newEntry (s : State) (op : VOp) (a b d : Option (BitVec 5)) : VEntry :=
  let val (x : Option (BitVec 5)) : DWord := match x with
    | some n => s.me.gv n
    | none => 0
  let tn (x : Option (BitVec 5)) : Bool := match x with
    | some n => s.me.gt n
    | none => false
  { op := op, pc := s.me.pc, w0 := s.me.uw0, w1 := s.me.uw1, ga := val a, gb := val b, gd := val d,
    taintA := tn a, taintB := tn b, taintD := tn d, ct := s.me.ct, cut := none, since := none, aged := false,
    snap := s.me.toRegs, undo := [], stores := 0, taken := [], num := s.me.accesses, ring := s.ringLoad s.cur }

/-- A one-word vector instruction, with the g operand b if it has one, completes by joining the queue's end: it is
ready, there is room, its register groups may be used as they stand, and its g operand is full. -/
abbrev State.queues (s : State) (q : Seq) (i : Instr) (op : VOp) (b : Option (BitVec 5)) : Prop :=
  s.ready (len1 q) q → s.queueRoom → s.me.vopTrap op = none → (∀ n, b = some n → s.fullG n) →
    exec i s = s.putCore (len1 q) q { s.me with vq := s.me.vq ++ [s.newEntry op none b none],
                                                accesses := s.me.accesses + 1 }

/-- Element i of width w of a vector register (R69). -/
abbrev elemOf (w : Nat) (v : VWord) (i : Nat) : Nat := v.toNat / 2 ^ (i * w) % 2 ^ w

/-- Element i of a result: f where the mask is set, the old element elsewhere (R155). -/
abbrev lanes (w : Nat) (m : MWord) (old r : VWord) (f : Nat → Nat) : Prop :=
  ∀ i < 4096 / w, elemOf w r i = if m.getLsbD i then f i else elemOf w old i

end Sys2Proof.Machine
end

