-- ==== Sys2Proof/Certificates/Slice0/Obligations.lean ====
section
/-! DEFINITION. The statements made of the machine for the provers. Each says of the instructions it names when
they complete and with what next state, or what every step keeps. -/

noncomputable section

open Sys2Proof Sys2Proof.Machine

/-! ### Scalar instructions -/

/-- With its sources full and no producer outstanding into its destination, an integer instruction writes the
result of R94, at width 64 or, with W32, at width 32 and sign-extended (R95), tainted as its sources (R19). -/
def Sys2Proof.Claims.IntegerArithmeticResults : Prop :=
  ∀ (s : State) (o : R3W), s.ready (len1 o.q) o.q → s.fullG o.a → s.fullG o.b → s.freeG o.d →
    let put (f : (w : Nat) → BitVec w → BitVec w → BitVec w) : Out :=
      s.putG o.q o.d
        (if o.w then (f 32 ((s.me.gv o.a).setWidth 32) ((s.me.gv o.b).setWidth 32)).signExtend 64
         else f 64 (s.me.gv o.a) (s.me.gv o.b))
        (s.me.gt o.a || s.me.gt o.b)
    exec (.add o) s = put (fun w a b => BitVec.ofNat w (a.toNat + b.toNat)) ∧
    exec (.sub o) s = put (fun w a b => BitVec.ofInt w (a.toInt - b.toInt)) ∧
    exec (.mul o) s = put (fun w a b => BitVec.ofNat w (a.toNat * b.toNat)) ∧
    exec (.and o) s = put (fun _ a b => a &&& b) ∧
    exec (.or o) s = put (fun _ a b => a ||| b) ∧
    exec (.xor o) s = put (fun _ a b => a ^^^ b) ∧
    exec (.andn o) s = put (fun _ a b => a &&& ~~~b) ∧
    exec (.min o) s = put (fun _ a b => if a.toInt ≤ b.toInt then a else b) ∧
    exec (.max o) s = put (fun _ a b => if a.toInt ≤ b.toInt then b else a) ∧
    exec (.minu o) s = put (fun w a b => BitVec.ofNat w (min a.toNat b.toNat)) ∧
    exec (.maxu o) s = put (fun w a b => BitVec.ofNat w (max a.toNat b.toNat))

/-- The immediate forms take IMM14 sign-extended to 64 bits (R97); li loads its sign-extended immediate, and lih
replaces one 16-bit slot and keeps every other bit (R99). -/
def Sys2Proof.Claims.ImmediateResults : Prop :=
  ∀ (s : State),
    (∀ (o : RI), s.ready (len1 o.q) o.q → s.fullG o.a → s.freeG o.d →
      let a := s.me.gv o.a
      let i : DWord := o.i.signExtend 64
      exec (.addi o) s = s.putG o.q o.d (BitVec.ofInt 64 (a.toInt + o.i.toInt)) (s.me.gt o.a) ∧
      exec (.andi o) s = s.putG o.q o.d (a &&& i) (s.me.gt o.a) ∧
      exec (.ori o) s = s.putG o.q o.d (a ||| i) (s.me.gt o.a) ∧
      exec (.xori o) s = s.putG o.q o.d (a ^^^ i) (s.me.gt o.a)) ∧
    (∀ (o : LiO), s.ready (len1 o.q) o.q → s.freeG o.d →
      exec (.li o) s = s.putG o.q o.d (BitVec.ofInt 64 o.i.toInt) false) ∧
    (∀ (o : LihO), s.ready (len1 o.q) o.q → s.fullG o.d →
      ∃ v : DWord, exec (.lih o) s = s.putG o.q o.d v (s.me.gt o.d) ∧
        ∀ n < 64, v.getLsbD n =
          if n / 16 = o.k.toNat then o.h.getLsbD (n % 16) else (s.me.gv o.d).getLsbD n)

/-- Integer and immediate instructions write the stated result, as the parts named below state. -/
def Obligations.IntegerResults : Prop :=
  Claims.IntegerArithmeticResults ∧ Claims.ImmediateResults

/-- The shifts and the rotate take their count modulo the width, the low bits of B (R94, R95). -/
def Sys2Proof.Claims.ShiftResults : Prop :=
  ∀ (s : State) (o : R3W), s.ready (len1 o.q) o.q → s.fullG o.a → s.fullG o.b → s.freeG o.d →
    let put (f : (w : Nat) → BitVec w → Nat → BitVec w) : Out :=
      s.putG o.q o.d
        (if o.w then (f 32 ((s.me.gv o.a).setWidth 32) ((s.me.gv o.b).toNat % 32)).signExtend 64
         else f 64 (s.me.gv o.a) ((s.me.gv o.b).toNat % 64))
        (s.me.gt o.a || s.me.gt o.b)
    exec (.shl o) s = put (fun w a n => BitVec.ofNat w (a.toNat * 2 ^ n)) ∧
    exec (.shr o) s = put (fun w a n => BitVec.ofNat w (a.toNat / 2 ^ n)) ∧
    exec (.sra o) s = put (fun w a n => BitVec.ofInt w (a.toInt / 2 ^ n)) ∧
    exec (.rol o) s = put (fun _ a n => a.rotateLeft n)

/-- The shifts by an immediate have the effect of the register shift with n = N; a W32 form with N of 32 or more
traps ILLEGAL_OPERAND (R98); that its value is 0 is the model's choice, which R98 does not
state: log entry 69. -/
def Sys2Proof.Claims.ImmediateShiftResults : Prop :=
  ∀ (s : State) (o : ShI), s.ready (len1 o.q) o.q →
    let put (f : (w : Nat) → BitVec w → Nat → BitVec w) : Out :=
      s.putG o.q o.d
        (if o.w then (f 32 ((s.me.gv o.a).setWidth 32) o.n.toNat).signExtend 64
         else f 64 (s.me.gv o.a) o.n.toNat)
        (s.me.gt o.a)
    (s.fullG o.a → s.freeG o.d → (o.w = true → o.n.toNat < 32) →
      exec (.shli o) s = put (fun w a n => BitVec.ofNat w (a.toNat * 2 ^ n)) ∧
      exec (.shri o) s = put (fun w a n => BitVec.ofNat w (a.toNat / 2 ^ n)) ∧
      exec (.srai o) s = put (fun w a n => BitVec.ofInt w (a.toInt / 2 ^ n)) ∧
      exec (.roli o) s = put (fun _ a n => a.rotateLeft n)) ∧
    (o.w = true → 32 ≤ o.n.toNat →
      ∀ i ∈ [Instr.shli o, .shri o, .srai o, .roli o],
        exec i s = .next (s.takeTrap ⟨.illegalOperand, 0⟩))

/-- Shifts and rotates, by a register and by an immediate, as the parts named below state (log entry 69). -/
def Obligations.ShiftInstructionResults : Prop :=
  Claims.ShiftResults ∧ Claims.ImmediateShiftResults

/-- The high halves of the signed and of the natural product (R94). -/
def Sys2Proof.Claims.WideProductResults : Prop :=
  ∀ (s : State) (o : R3), s.ready (len1 o.q) o.q → s.fullG o.a → s.fullG o.b → s.freeG o.d →
    exec (.mulh o) s = s.putG o.q o.d
      (BitVec.ofInt 64 ((s.me.gv o.a).toInt * (s.me.gv o.b).toInt / 2 ^ 64)) (s.me.gt o.a || s.me.gt o.b) ∧
    exec (.mulhu o) s = s.putG o.q o.d
      (BitVec.ofNat 64 ((s.me.gv o.a).toNat * (s.me.gv o.b).toNat / 2 ^ 64)) (s.me.gt o.a || s.me.gt o.b)

/-- Division never traps: a zero divisor and the one signed quotient out of range give the values of R96, at width
64 or 32, and the rest divides toward zero. -/
def Sys2Proof.Claims.DivisionResults : Prop :=
  ∀ (s : State) (o : R3W), s.ready (len1 o.q) o.q → s.fullG o.a → s.fullG o.b → s.freeG o.d →
    let w : Nat := if o.w then 32 else 64
    let sv (n : BitVec 5) : Int := if o.w then ((s.me.gv n).setWidth 32).toInt else (s.me.gv n).toInt
    let nv (n : BitVec 5) : Nat := (s.me.gv n).toNat % 2 ^ w
    let put (q : Int) : Out :=
      s.putG o.q o.d (if o.w then (BitVec.ofInt 32 q).signExtend 64 else BitVec.ofInt 64 q)
        (s.me.gt o.a || s.me.gt o.b)
    let a := sv o.a
    let b := sv o.b
    (b = 0 → exec (.div o) s = put (-1) ∧ exec (.rem o) s = put a) ∧
    (a = -2 ^ (w - 1) → b = -1 → exec (.div o) s = put (-2 ^ (w - 1)) ∧ exec (.rem o) s = put 0) ∧
    (b ≠ 0 → ¬(a = -2 ^ (w - 1) ∧ b = -1) →
      exec (.div o) s = put (a.tdiv b) ∧ exec (.rem o) s = put (a - b * a.tdiv b)) ∧
    exec (.divu o) s = put (if nv o.b = 0 then 2 ^ w - 1 else (nv o.a / nv o.b : Nat)) ∧
    exec (.remu o) s = put (if nv o.b = 0 then (nv o.a : Nat) else (nv o.a % nv o.b : Nat))

/-- clz, ctz and popc count over the 64 bits of A, or over its low 32 with W32; a zero operand gives the width
(R94, R95). -/
def Sys2Proof.Claims.BitCountResults : Prop :=
  ∀ (s : State) (o : R2W), s.ready (len1 o.q) o.q → s.fullG o.a → s.freeG o.d →
    let w : Nat := if o.w then 32 else 64
    let a : Nat := (s.me.gv o.a).toNat % 2 ^ w
    let put (n : Nat) : Out := s.putG o.q o.d (BitVec.ofNat 64 n) (s.me.gt o.a)
    (∃ n, exec (.clz o) s = put n ∧ n ≤ w ∧ a < 2 ^ (w - n) ∧ (n < w → 2 ^ (w - n - 1) ≤ a)) ∧
    (∃ n, exec (.ctz o) s = put n ∧ n ≤ w ∧ a % 2 ^ n = 0 ∧ (n < w → a.testBit n = true)) ∧
    exec (.popc o) s = put ((List.range w).countP fun i => a.testBit i)

/-- High products, division with its corner values, and bit counts, as the parts named below state. -/
def Obligations.ProductAndDivisionResults : Prop :=
  Claims.WideProductResults ∧ Claims.DivisionResults ∧ Claims.BitCountResults

/-- Moving a fat pointer by a signed byte offset keeps its tag; a carry into the tag or a borrow from it traps
FORMAT with the pointer as value. The tag is not decoded (R101). -/
def Sys2Proof.Claims.PointerMoves : Prop :=
  ∀ (s : State),
    (∀ (o : R3), s.ready (len1 o.q) o.q → s.fullG o.a → s.fullG o.b →
      let p := s.me.gv o.a
      let va : Int := (p.toNat % 2 ^ 56 : Nat) + (s.me.gv o.b).toInt
      (0 ≤ va → va < 2 ^ 56 → s.freeG o.d → exec (.adda o) s =
        s.putG o.q o.d (BitVec.ofInt 64 ((p.toNat / 2 ^ 56 * 2 ^ 56 : Nat) + va)) (s.me.gt o.a || s.me.gt o.b)) ∧
      (va < 0 ∨ 2 ^ 56 ≤ va → exec (.adda o) s = .next (s.takeTrap ⟨.format, p⟩))) ∧
    (∀ (o : RI), s.ready (len1 o.q) o.q → s.fullG o.a →
      let p := s.me.gv o.a
      let va : Int := (p.toNat % 2 ^ 56 : Nat) + o.i.toInt
      (0 ≤ va → va < 2 ^ 56 → s.freeG o.d → exec (.addai o) s =
        s.putG o.q o.d (BitVec.ofInt 64 ((p.toNat / 2 ^ 56 * 2 ^ 56 : Nat) + va)) (s.me.gt o.a)) ∧
      (va < 0 ∨ 2 ^ 56 ≤ va → exec (.addai o) s = .next (s.takeTrap ⟨.format, p⟩)))

/-- ptag, pfmt and pva join a tag and an address and take them apart (R102). -/
def Sys2Proof.Claims.PointerTags : Prop :=
  ∀ (s : State),
    (∀ (o : R3), s.ready (len1 o.q) o.q → s.fullG o.a → s.fullG o.b → s.freeG o.d →
      exec (.ptag o) s = s.putG o.q o.d
        (BitVec.ofNat 64 ((s.me.gv o.b).toNat % 2 ^ 8 * 2 ^ 56 + (s.me.gv o.a).toNat % 2 ^ 56))
        (s.me.gt o.a || s.me.gt o.b)) ∧
    (∀ (o : R2), s.ready (len1 o.q) o.q → s.fullG o.a → s.freeG o.d →
      exec (.pfmt o) s = s.putG o.q o.d (BitVec.ofNat 64 ((s.me.gv o.a).toNat / 2 ^ 56)) (s.me.gt o.a) ∧
      exec (.pva o) s = s.putG o.q o.d (BitVec.ofNat 64 ((s.me.gv o.a).toNat % 2 ^ 56)) (s.me.gt o.a))

/-- Fat pointers: moving the address under the tag, joining and splitting tags, as the parts named below state. -/
def Obligations.PointerResults : Prop :=
  Claims.PointerMoves ∧ Claims.PointerTags

/-- A compare writes its predicate with the condition of R100: signed or natural, at width 64, or 32 with W32; the
immediate forms compare with the sign-extended immediate. -/
def Sys2Proof.Claims.CompareResults : Prop :=
  ∀ (s : State),
    (∀ (o : C3W), s.ready (len1 o.q) o.q → s.fullG o.a → s.fullG o.b →
      let sv (n : BitVec 5) : Int := if o.w then ((s.me.gv n).setWidth 32).toInt else (s.me.gv n).toInt
      let nv (n : BitVec 5) : Nat := (s.me.gv n).toNat % 2 ^ (if o.w then 32 else 64)
      let put (b : Bool) : Out := s.putP o.q o.d b (s.me.gt o.a || s.me.gt o.b)
      exec (.cmpEq o) s = put (decide (nv o.a = nv o.b)) ∧
      exec (.cmpNe o) s = put (decide (nv o.a ≠ nv o.b)) ∧
      exec (.cmpLt o) s = put (decide (sv o.a < sv o.b)) ∧
      exec (.cmpLe o) s = put (decide (sv o.a ≤ sv o.b)) ∧
      exec (.cmpLtu o) s = put (decide (nv o.a < nv o.b)) ∧
      exec (.cmpLeu o) s = put (decide (nv o.a ≤ nv o.b))) ∧
    (∀ (o : CI), s.ready (len1 o.q) o.q → s.fullG o.a →
      let a := s.me.gv o.a
      let put (b : Bool) : Out := s.putP o.q o.d b (s.me.gt o.a)
      exec (.cmpiEq o) s = put (decide (a.toInt = o.i.toInt)) ∧
      exec (.cmpiNe o) s = put (decide (a.toInt ≠ o.i.toInt)) ∧
      exec (.cmpiLt o) s = put (decide (a.toInt < o.i.toInt)) ∧
      exec (.cmpiLtu o) s = put (decide (a.toNat < (o.i.signExtend 64).toNat)))

/-- The predicate instructions (R108); sel's predicate is data: its taint enters the result. -/
def Sys2Proof.Claims.PredicateResults : Prop :=
  ∀ (s : State),
    (∀ (o : P3), s.ready (len1 o.q) o.q →
      let a := s.me.preg o.a
      let b := s.me.preg o.b
      let put (v : Bool) : Out := s.putP o.q o.d v (a.taint || b.taint)
      exec (.pand o) s = put (a.val && b.val) ∧ exec (.por o) s = put (a.val || b.val) ∧
      exec (.pxor o) s = put (a.val ^^ b.val) ∧ exec (.pandn o) s = put (a.val && !b.val)) ∧
    (∀ (o : P2), s.ready (len1 o.q) o.q →
      exec (.pnot o) s = s.putP o.q o.d (!(s.me.preg o.a).val) (s.me.preg o.a).taint ∧
      exec (.pmov o) s = s.putP o.q o.d (s.me.preg o.a).val (s.me.preg o.a).taint) ∧
    (∀ (o : GP), s.ready (len1 o.q) o.q → s.fullG o.a →
      exec (.gtop o) s = s.putP o.q o.d (decide (s.me.gv o.a ≠ 0)) (s.me.gt o.a)) ∧
    (∀ (o : PG), s.ready (len1 o.q) o.q → s.freeG o.d →
      exec (.ptog o) s = s.putG o.q o.d (if (s.me.preg o.a).val then 1 else 0) (s.me.preg o.a).taint) ∧
    (∀ (o : R3), s.ready (len1 o.q) o.q → s.fullG o.a → s.fullG o.b → s.freeG o.d →
      exec (.sel o) s = s.putG o.q o.d (if (s.me.preg 0).val then s.me.gv o.a else s.me.gv o.b)
        (s.me.gt o.a || s.me.gt o.b || (s.me.preg 0).taint))

/-- Compares and predicate instructions, as the parts named below state. -/
def Obligations.CompareAndPredicateResults : Prop :=
  Claims.CompareResults ∧ Claims.PredicateResults

/-- The rounding F32 instructions: the exact value of R104 is rounded once into the destination; with RM = rs it
uses the LFSR after one step, which it leaves so, and the result is tainted (R82, R84), once every earlier vector
instruction of the core that uses rs has taken its steps; its flags are raised, tainted
with its sources (R89). -/
def Sys2Proof.Claims.FloatRoundingResults : Prop :=
  ∀ (s : State) (d : BitVec 5) (rm : Rm) (q : Seq), s.ready (len1 q) q → s.freeG d →
    (rm = .rs → s.me.rsPending = false) →
    let lf := if rm = .rs then lfsrStep s.me.lfsr else s.me.lfsr
    let r := if rm = .rs then lf.toNat else 0
    let f (n : BitVec 5) : Val := decodeVal .f32 ((s.me.gv n).toNat % 2 ^ 32)
    let put (x : Nat × Fx) (fx : Fx) (t : Bool) : Out :=
      s.putCore (len1 q) q { (s.me.writeG d (BitVec.ofNat 64 x.1) (t || rm == .rs)).raise (fx ||| x.2) t with lfsr := lf }
    let f32 (x : Val × Fx) (t : Bool) : Out := put (encodeVal .f32 rm false r x.1) x.2 t
    (∀ (a b : BitVec 5) (ta tb : Bool), s.fullG a → s.fullG b →
      let o : F3 := { q := q, d := d, a := a, b := b, r := rm, ta := ta, tb := tb }
      let t := s.me.gt a || s.me.gt b
      exec (.fadd o) s = f32 (Val.add rm (f a) (f b)) t ∧
      exec (.fsub o) s = f32 (Val.add rm (f a) (f b).neg) t ∧
      exec (.fmul o) s = f32 (Val.mul (f a) (f b)) t ∧
      (s.fullG d → exec (.fma o) s = f32 (Val.fma rm (f a) (f b) (f d)) (t || s.me.gt d))) ∧
    (∀ (a : BitVec 5) (ta : Bool), s.fullG a →
      let o : F2 := { q := q, d := d, a := a, r := rm, ta := ta }
      exec (.fitof o) s = f32 (Val.ofInt (s.me.gv a).toInt, Fx.none) (s.me.gt a) ∧
      exec (.fftoi o) s = put (encodeRange 64 (-2 ^ 63) (2 ^ 63 - 1) rm r (f a)) Fx.none (s.me.gt a))

/-- The F32 instructions that do not round: minimum and maximum (R91), sign operations, the approximations and their
refinements (R106, R107), the class (R105); bits [63:32] of a result are zero, and the flags are those of R105. -/
def Sys2Proof.Claims.FloatExactResults : Prop :=
  ∀ (s : State),
    let c (n : BitVec 5) : Nat := (s.me.gv n).toNat % 2 ^ 32
    let f (n : BitVec 5) : Val := decodeVal .f32 (c n)
    let put (q : Seq) (d : BitVec 5) (x : Nat × Fx) (t : Bool) : Out :=
      s.putCore (len1 q) q ((s.me.writeG d (BitVec.ofNat 64 (x.1 % 2 ^ 32)) t).raise x.2 t)
    (∀ (o : R3), s.ready (len1 o.q) o.q → s.fullG o.a → s.fullG o.b → s.freeG o.d →
      let t := s.me.gt o.a || s.me.gt o.b
      let lo := Val.minmax false (f o.a) (f o.b)
      let hi := Val.minmax true (f o.a) (f o.b)
      exec (.fmin o) s = put o.q o.d ((encodeRne .f32 lo.1).1, lo.2) t ∧
      exec (.fmax o) s = put o.q o.d ((encodeRne .f32 hi.1).1, hi.2) t ∧
      exec (.frefRcp o) s = put o.q o.d (refine .f32 false (c o.a) (c o.b)) t ∧
      exec (.frefRsq o) s = put o.q o.d (refine .f32 true (c o.a) (c o.b)) t) ∧
    (∀ (o : R2), s.ready (len1 o.q) o.q → s.fullG o.a → s.freeG o.d →
      let t := s.me.gt o.a
      let nan := (f o.a).isNan
      exec (.fabs o) s = put o.q o.d ((if nan then 0x7FC00000 else c o.a % 2 ^ 31), Fx.none) t ∧
      exec (.fneg o) s = put o.q o.d ((if nan then 0x7FC00000 else (c o.a + 2 ^ 31) % 2 ^ 32), Fx.none) t ∧
      exec (.frcp o) s = put o.q o.d (approx .f32 false (c o.a)) t ∧
      exec (.frsq o) s = put o.q o.d (approx .f32 true (c o.a)) t ∧
      (∃ k, exec (.fclass o) s = put o.q o.d (2 ^ k, Fx.none) t ∧ k ≤ 8 ∧ (k = 8 ↔ nan = true) ∧
        (k = 0 ↔ f o.a = .inf true) ∧ (k = 7 ↔ f o.a = .inf false) ∧
        (k = 3 ↔ c o.a = 2 ^ 31) ∧ (k = 4 ↔ c o.a = 0) ∧
        (k = 2 ↔ 2 ^ 31 < c o.a ∧ c o.a < 2 ^ 31 + 2 ^ 23) ∧ (k = 5 ↔ 0 < c o.a ∧ c o.a < 2 ^ 23) ∧
        (k ≤ 3 → 2 ^ 31 ≤ c o.a) ∧ (4 ≤ k → k ≤ 7 → c o.a < 2 ^ 31)))

/-- The F32 compares write their predicate and raise NV for an unordered lt or le only (R105). -/
def Sys2Proof.Claims.FloatCompareResults : Prop :=
  ∀ (s : State) (o : C3), s.ready (len1 o.q) o.q → s.fullG o.a → s.fullG o.b →
    let x := decodeVal .f32 ((s.me.gv o.a).toNat % 2 ^ 32)
    let y := decodeVal .f32 ((s.me.gv o.b).toNat % 2 ^ 32)
    let t := s.me.gt o.a || s.me.gt o.b
    let un := x = .nan ∨ y = .nan
    let put (b : Bool) (fx : Fx) : Out := s.putCore (len1 o.q) o.q ((s.me.writeP o.d b t).raise fx t)
    (un → exec (.feq o) s = put false 0 ∧ exec (.flt o) s = put false Fx.nv ∧
      exec (.fle o) s = put false Fx.nv ∧ exec (.fun o) s = put true 0) ∧
    (¬un → exec (.feq o) s = put (decide (Val.cmp x y = .eq)) 0 ∧
      exec (.flt o) s = put (decide (Val.cmp x y = .lt)) 0 ∧
      exec (.fle o) s = put (decide (Val.cmp x y ≠ .gt)) 0 ∧ exec (.fun o) s = put false 0)

/-- Scalar floating point: values, rounding, flags and taint, as the parts named below state. -/
def Obligations.FloatResults : Prop :=
  Claims.FloatRoundingResults ∧ Claims.FloatExactResults ∧ Claims.FloatCompareResults

/-! ### Sequencing and flow -/

/-- The sequencing part of a unit, shown on nop, which has no other effect (R24, R26, R116): NEXT and a branch that is
not taken go on after the unit; a taken transfer goes to its target; a call pushes the address after the unit, a
return pops it; a decision on a tainted predicate or way register sets TASK.CT (R20). The loops a transfer pops are those of
R30: the innermost ones of the current frame that do not hold the target. A target outside the code image traps CODE_RANGE
with the target as value; for one below address 0 the negative number in 64 bits is the model's choice: log entry 69. -/
def Sys2Proof.Claims.SequencingParts : Prop :=
  ∀ (s : State) (q : Seq), s.ready (len2 q) q →
    let k := s.me
    let nxt : Nat := k.pc.toNat + 4 * len2 q
    let sa : Int := (nxt : Int) - 4
    let inside (t : Int) : Prop := 0 ≤ t ∧ t + 4 ≤ (s.codeLen s.cur : Int)
    let put (k : Core) : Prop := exec (.nop ⟨q⟩) s = .next (s.setMe k)
    let trap (k : Core) (c : Cause) (v : DWord) : Prop := exec (.nop ⟨q⟩) s = .next ((s.setMe k).takeTrap ⟨c, v⟩)
    let popped (frame : Nat) (t : Int) (ls ls' : List LoopEntry) : Prop :=
      ∃ out, ls = ls' ++ out ∧
        (∀ e ∈ out, e.frame = frame ∧ ¬((e.start.toNat : Int) ≤ t ∧ t ≤ e.last.toNat)) ∧
        ∀ e, ls'.getLast? = some e → ¬(e.frame = frame ∧ ¬((e.start.toNat : Int) ≤ t ∧ t ≤ e.last.toNat))
    let go (k : Core) (t : Int) : Prop := ∃ ls, popped k.rstack.length t k.loops ls ∧
      put { k with loops := ls, pc := BitVec.ofInt 32 t }
    match q with
    | .next => k.rpt = none → put { k with pc := BitVec.ofNat 32 nxt }
    | .jump off =>
      let t := sa + 4 * off.toInt
      (inside t → go k t) ∧ (¬inside t → trap k .codeRange (BitVec.ofInt 64 t))
    | .brT p off =>
      let t := sa + 4 * off.toInt
      let k' := { k with ct := k.ct || (k.preg p).taint }
      ((k.preg p).val = false → put { k' with pc := BitVec.ofNat 32 nxt }) ∧
      ((k.preg p).val = true → inside t → go k' t) ∧
      ((k.preg p).val = true → ¬inside t → trap k' .codeRange (BitVec.ofInt 64 t))
    | .brF p off =>
      let t := sa + 4 * off.toInt
      let k' := { k with ct := k.ct || (k.preg p).taint }
      ((k.preg p).val = true → put { k' with pc := BitVec.ofNat 32 nxt }) ∧
      ((k.preg p).val = false → inside t → go k' t) ∧
      ((k.preg p).val = false → ¬inside t → trap k' .codeRange (BitVec.ofInt 64 t))
    | .call off =>
      let t := sa + 4 * off.toInt
      (inside t → put { k with rstack := k.rstack ++ [BitVec.ofNat 32 nxt], pc := BitVec.ofInt 32 t }) ∧
      (¬inside t → trap k .codeRange (BitVec.ofInt 64 t))
    | .ret => ∀ t rs, k.rstack = rs ++ [t] → (∀ e ∈ k.loops, e.frame ≤ rs.length) → inside t.toNat →
      ∃ ls, popped rs.length t.toNat k.loops ls ∧ put { k with rstack := rs, loops := ls, pc := t }
    | .jumpw y =>
      let w := k.wreg y
      let k' := { k with ct := k.ct || w.taint }
      (w.val.toNat % 4 ≠ 0 → trap k' .alignment (w.val.zeroExtend 64)) ∧
      (w.val.toNat % 4 = 0 → inside w.val.toNat → go k' w.val.toNat) ∧
      (w.val.toNat % 4 = 0 → ¬inside w.val.toNat → trap k' .codeRange (w.val.zeroExtend 64))
    | .callw y =>
      let w := k.wreg y
      let k' := { k with ct := k.ct || w.taint }
      (w.val.toNat % 4 ≠ 0 → trap k' .alignment (w.val.zeroExtend 64)) ∧
      (w.val.toNat % 4 = 0 → inside w.val.toNat →
        put { k' with rstack := k.rstack ++ [BitVec.ofNat 32 nxt], pc := w.val }) ∧
      (w.val.toNat % 4 = 0 → ¬inside w.val.toNat → trap k' .codeRange (w.val.zeroExtend 64))
    | .skip =>
      let k' := { k with ct := k.ct || (k.preg 0).taint }
      ((k.preg 0).val = false → put { k' with pc := BitVec.ofNat 32 nxt }) ∧
      ((k.preg 0).val = true → s.unitRange s.cur nxt = none →
        (s.codeWord s.cur nxt).extractLsb' 30 2 ≠ 1 → k.loops = [] →
        put { k' with pc := BitVec.ofNat 32 (nxt + 4 * s.unitLen s.cur nxt) })
    | .lend => ∀ e ls c, k.loops = ls ++ [e] → e.last.toNat = nxt - 4 → c = (k.lcreg ls.length).val - 1 →
      (c ≠ 0 → put { (k.writeLc ls.length { k.lcreg ls.length with val := c }) with pc := e.start }) ∧
      (c = 0 → (∀ e', ls.getLast? = some e' → e'.last.toNat ≠ nxt - 4) →
        put { (k.writeLc ls.length { k.lcreg ls.length with val := 0 }) with
          loops := ls, pc := BitVec.ofNat 32 nxt })

/-- A call onto a full return stack and a return from an empty one trap STACK with the depth as value, before the
unit's instruction has any effect (R24, R27). -/
def Sys2Proof.Claims.ReturnStackLimits : Prop :=
  ∀ (s : State) (q : Seq), s.me.canIssue = true → s.scalarCheck = none →
    s.me.frameBreach s.me.pc.toNat (len2 q) (q == .lend) = false →
    (8 ≤ s.me.rstack.length → (∃ off, q = .call off) ∨ (∃ y, q = .callw y) →
      exec (.nop ⟨q⟩) s = .next (s.takeTrap ⟨.stack, BitVec.ofNat 64 s.me.rstack.length⟩)) ∧
    (s.me.rstack = [] → q = .ret → exec (.nop ⟨q⟩) s = .next (s.takeTrap ⟨.stack, 0⟩))

/-- A unit with a source empty stalls, changing nothing, or traps EMPTY_READ with class 1 and its number where the
encoding's trap bit is set (R17, R48); a destination with a producer outstanding stalls too (R18). -/
def Sys2Proof.Claims.EmptySourcesStall : Prop :=
  ∀ (s : State) (o : R3W), s.ready (len1 o.q) o.q → ¬s.fullG o.a →
    ∀ i ∈ [Instr.add o, .sub o, .mul o, .div o, .rem o, .shl o, .min o, .maxu o],
      (o.ta = true → exec i s = .next (s.takeTrap ⟨.emptyRead, BitVec.ofNat 64 (0x100 + o.a.toNat)⟩)) ∧
      (o.ta = false → (s.fullG o.b ∨ o.tb = false) → exec i s = .next s)

/-- Sequencing parts, the return stack, and units that stall on empty registers, as the parts named below state (log
entry 69). -/
def Obligations.SequencingAndStalls : Prop :=
  Claims.SequencingParts ∧ Claims.ReturnStackLimits ∧ Claims.EmptySourcesStall

/-- A loop with a count pushes its entry at the next depth, sets that depth's counter, tainted as the count, and goes
on at its body; a count of zero skips the body and pushes nothing; a count of 2^32 or more traps ILLEGAL_OPERAND,
below the ILLEGAL_FRAME of a body that is not properly nested (R28, R37, R110, R111). -/
def Sys2Proof.Claims.LoopEntry : Prop :=
  ∀ (s : State) (len : BitVec 16), s.ready 2 .next → s.me.rpt = none → len ≠ 0 →
    let k := s.me
    let b := k.pc.toNat + 8
    let e := b + 4 * len.toNat - 4
    let d := k.loops.length
    let free : Prop := d < 4 ∧ ∀ i, k.loops.getLast? = some i → i.frame = k.rstack.length → i.start.toNat ≤ b →
      b ≤ i.last.toNat → e ≤ i.last.toNat
    let skipped (k : Core) : Out := .next (s.setMe { k with pc := BitVec.ofNat 32 (b + 4 * len.toNat) })
    let entered (k : Core) (c : Nat) (t : Bool) : Out := .next (s.setMe
      { (k.writeLc d ⟨BitVec.ofNat 32 c, t || k.ct⟩) with
        loops := k.loops ++ [⟨BitVec.ofNat 32 b, BitVec.ofNat 32 e, k.rstack.length⟩], pc := BitVec.ofNat 32 b })
    (∀ (cnt : BitVec 16), (cnt = 0 → exec (.loop ⟨.next, cnt, len⟩) s = skipped k) ∧
      (cnt ≠ 0 → free → exec (.loop ⟨.next, cnt, len⟩) s = entered k cnt.toNat false)) ∧
    (∀ (a : BitVec 5) (ta : Bool), s.fullG a →
      let c := (k.gv a).toNat
      let k' := { k with ct := k.ct || k.gt a }
      (c = 0 → exec (.loopReg ⟨.next, a, ta, len⟩) s = skipped k') ∧
      (c ≠ 0 → c < 2 ^ 32 → free → exec (.loopReg ⟨.next, a, ta, len⟩) s = entered k' c (k.gt a)) ∧
      (2 ^ 32 ≤ c → 4 ≤ d ∨ free → exec (.loopReg ⟨.next, a, ta, len⟩) s = .next (s.takeTrap ⟨.illegalOperand, 1⟩)) ∧
      (2 ^ 32 ≤ c → d < 4 → ¬free →
        exec (.loopReg ⟨.next, a, ta, len⟩) s = .next (s.takeTrap ⟨.illegalFrame, BitVec.ofNat 64 k.pc.toNat⟩)))

/-- A repeat frame of 1 to 16 words, all inside the image, each of the majors of R31 with SEQ NEXT, none the last word
of the enclosing body, is entered with its count; a count of zero skips it. -/
def Sys2Proof.Claims.RepeatFrames : Prop :=
  ∀ (s : State) (f : BitVec 5), s.ready 2 .next → s.me.rpt = none → 1 ≤ f.toNat → f.toNat ≤ 16 →
    let k := s.me
    let b := k.pc.toNat + 8
    let e := b + 4 * f.toNat
    e ≤ s.codeLen s.cur →
    (∀ i < f.toNat,
      let w := s.codeWord s.cur (b + 4 * i)
      let m := (w.extractLsb' 24 6).toNat
      w.extractLsb' 30 2 = 0 ∧ (1 ≤ m ∧ m ≤ 0x0C ∨ 0x20 ≤ m ∧ m ≤ 0x27) ∧
      ∀ x, k.loops.getLast? = some x → ¬(x.frame = k.rstack.length ∧ x.last.toNat = b + 4 * i)) →
    let skipped (k : Core) : Out := .next (s.setMe { k with pc := BitVec.ofNat 32 e })
    let entered (k : Core) (c : Nat) : Out := .next (s.setMe
      { k with rpt := some ⟨BitVec.ofNat 32 b, BitVec.ofNat 32 e, c⟩, pc := BitVec.ofNat 32 b })
    (∀ (cnt : BitVec 16), exec (.rpt ⟨.next, cnt, f⟩) s = if cnt = 0 then skipped k else entered k cnt.toNat) ∧
    (∀ (a : BitVec 5) (ta : Bool), s.fullG a →
      let c := (k.gv a).toNat
      let k' := { k with ct := k.ct || k.gt a }
      (c = 0 → exec (.rptReg ⟨.next, a, ta, f⟩) s = skipped k') ∧
      (c ≠ 0 → c < 2 ^ 32 → exec (.rptReg ⟨.next, a, ta, f⟩) s = entered k' c) ∧
      (2 ^ 32 ≤ c → exec (.rptReg ⟨.next, a, ta, f⟩) s = .next (s.takeTrap ⟨.illegalOperand, 1⟩)))

/-- A unit inside a repeat frame's last word returns to the frame's start while repetitions remain, and leaves the
frame after the last of them (R31). -/
def Sys2Proof.Claims.RepeatEnd : Prop :=
  ∀ (s : State) (o : R3W) (r : RptFrame), s.me.rpt = some r → s.ready 1 .next → s.fullG o.a → s.fullG o.b →
    s.freeG o.d → o.q = .next → o.w = false →
    let k := s.me.writeG o.d (s.me.gv o.a + s.me.gv o.b) (s.me.gt o.a || s.me.gt o.b)
    let nxt := s.me.pc.toNat + 4
    (r.after.toNat = nxt → 1 < r.left →
      exec (.add o) s = .next (s.setMe { k with rpt := some { r with left := r.left - 1 }, pc := r.start })) ∧
    (r.after.toNat = nxt → r.left ≤ 1 →
      exec (.add o) s = .next (s.setMe { k with rpt := none, pc := BitVec.ofNat 32 nxt })) ∧
    (r.after.toNat ≠ nxt → exec (.add o) s = .next (s.setMe { k with pc := BitVec.ofNat 32 nxt }))

/-- Hardware loops and repeat frames: entry, skip and end, as the parts named below state. -/
def Obligations.LoopsAndRepeatFrames : Prop :=
  Claims.LoopEntry ∧ Claims.RepeatFrames ∧ Claims.RepeatEnd

/-- setw and getw move a code address with its taint (R113); ifence discards every code word the core holds (R124);
yield lowers the core's queue head for one arbitration, and under round-robin does nothing (R114, R141). -/
def Sys2Proof.Claims.WaysAndFetch : Prop :=
  ∀ (s : State),
    (∀ (o : SetwI), s.ready (len2 o.q) o.q →
      exec (.setw o) s = if o.addr.toNat % 4 = 0 then s.putCore (len2 o.q) o.q (s.me.writeW o.d o.addr false)
        else .next (s.takeTrap ⟨.illegalOperand, 0⟩)) ∧
    (∀ (o : SetwR), s.ready (len2 o.q) o.q → s.fullG o.a →
      let v := (s.me.gv o.a).toNat
      exec (.setwReg o) s = if v < 2 ^ 32 ∧ v % 4 = 0
        then s.putCore (len2 o.q) o.q (s.me.writeW o.d (BitVec.ofNat 32 v) (s.me.gt o.a))
        else .next (s.takeTrap ⟨.illegalOperand, 1⟩)) ∧
    (∀ (o : GetwO), s.ready (len2 o.q) o.q → s.freeG o.d →
      exec (.getw o) s = s.putCore (len2 o.q) o.q
        (s.me.writeG o.d (BitVec.ofNat 64 (s.me.wreg o.a).val.toNat) (s.me.wreg o.a).taint)) ∧
    (∀ (o : XQ), s.ready (len2 o.q) o.q →
      exec (.ifence o) s = s.putCore (len2 o.q) o.q { s.me with istore := [] } ∧
      exec (.yield o) s = if (s.svu s.cur.unit).rr then .next (s.finish (len2 o.q) o.q id)
        else s.putCore (len2 o.q) o.q { s.me with yielded := true })

/-- done evaluates its sequencing part and ends the task: the core runs nothing, its return stack, loop stack and
repeat frame are gone, and its registers, queue and inbox stand (R21, R115). -/
def Sys2Proof.Claims.TaskEnd : Prop :=
  ∀ (s : State) (o : XQ), s.ready (len2 o.q) o.q → o.q = .next → s.me.rpt = none →
    ∃ t, exec (.done o) s = .next t ∧
      t.me = { s.me with pc := BitVec.ofNat 32 (s.me.pc.toNat + 8), running := false, rstack := [], loops := [], rpt := none } ∧
      (∀ c, coreNum c ≠ coreNum s.cur → t.core c = s.core c) ∧ t.mem = s.mem ∧ t.taint = s.taint

/-- At a task boundary a core starts its launch body if it has not run it: the start address of the launch record,
the coordinate (rank, gang, 0), SRC 2, an empty control state and one task more in SEQN; its registers stand (R11,
R12, R14, R16); a third run shows the index of the gang it repeats (R387, and log entry 35 on its number). A raised abort line is sampled first
(R230). -/
def Sys2Proof.Claims.LaunchBodyStarts : Prop :=
  ∀ (s : State) (c : CoreId), s.atBoundary c = true → (s.core c).bodyPending = true → s.aborted c = false →
    let r := (s.launchOf c).rcd
    let k := s.core c
    ∃ t, exec (.taskStart c) s = .next t ∧
      t.core c = { k with
        bodyPending := false, running := true, phase := .idle, seqn := k.seqn + 1, src := 2, je := 0, rli := 0,
        ci := BitVec.ofNat 32 k.rank, cj := BitVec.ofNat 32 ((s.gangOf c).thirdOf.getD k.gang % max 1 r.gangs), ck := 0,
        ct := false,
        pc := if c.isRamp then r.rampBody else r.body, rstack := [], loops := [], rpt := none,
        taskStart := s.clock, wdogResumed := false, taskRing := none } ∧
      (∀ c', coreNum c' ≠ coreNum c → t.core c' = s.core c') ∧ t.mem = s.mem

/-- A core with its body run and no created task begins the next entry of its routine list, with SRC 0 and its index
in TASK.RLI; with no entry left it idles (R11, R12, R14). The lists come from outside the machine: log entry 39. -/
def Sys2Proof.Claims.RoutineStarts : Prop :=
  ∀ (s : State) (c : CoreId), s.atBoundary c = true → (s.core c).bodyPending = false → (s.core c).stationQ = [] →
    let k := s.core c
    (k.routines[k.rliNext]? = none → exec (.taskStart c) s = .next s) ∧
    (∀ x, k.routines[k.rliNext]? = some x → s.aborted c = false → ∃ t, exec (.taskStart c) s = .next t ∧
      t.core c = { k with
        rliNext := k.rliNext + 1, running := true, phase := .idle, seqn := k.seqn + 1, src := 0, je := 0,
        rli := BitVec.ofNat 16 k.rliNext, ci := x.i, cj := x.j, ck := x.k, ct := false, pc := x.start, rstack := [],
        loops := [], rpt := none, taskStart := s.clock, wdogResumed := false,
        taskRing := none } ∧
      (∀ c', coreNum c' ≠ coreNum c → t.core c' = s.core c') ∧ t.mem = s.mem)

/-- Way registers, ifence, yield, done and the start of a task, as the parts named below state (log entry 35, log
entry 39). -/
def Obligations.WaysAndTaskBoundaries : Prop :=
  Claims.WaysAndFetch ∧ Claims.TaskEnd ∧ Claims.LaunchBodyStarts ∧ Claims.RoutineStarts

/-- TAKING A TRAP (R33 to R35), shown on the trap instruction (R119) and on a unit that the decoder rejects (R50,
R51): the task ends, TRAPINFO records the cause and the unit's address with its VALID bit, ATTEMPT counts on only past
the same trap (the model's reading, log entry 61), the fault message goes to the die supervisor's mailbox, the core parks, and every register, other core and byte of memory
stands as it was. -/
def Obligations.TrapsAreTaken : Prop :=
  ∀ (s : State),
    let message (pc w0 w1 : Word) (c : Cause) (v : DWord) : Park :=
      { cause := c, value := v, pc := pc, w0 := w0, w1 := w1, seqn := s.me.seqn, second := false }
    let taken (t : State) (p : Park) : Prop :=
      t.me = { s.me with running := false, park := some p, phase := .idle, tiPc := p.pc, tiValid := true,
                         tiAttempt := if s.me.tiValid && s.me.tiPc == p.pc && s.me.tiCause == p.cause.code
                           then s.me.tiAttempt else 0,
                         tiCause := p.cause.code, pendingTrap := none, lateTrap := none } ∧
      (∀ c, coreNum c ≠ coreNum s.cur → t.core c = s.core c) ∧
      (∀ a, t.mem.read a = s.mem.read a) ∧ t.taint = s.taint ∧
      Tab.get [] t.supMail s.cur.die.toNat =
        Tab.get [] s.supMail s.cur.die.toNat ++ [.trap s.cur p (s.launchIx s.cur)]
    (∀ (o : TrapO), s.ready (len2 o.q) o.q → ∃ t, exec (.trap o) s = .next t ∧
      taken t (message s.me.pc s.me.uw0 s.me.uw1 .software (o.imm.zeroExtend 64))) ∧
    (∀ (w0 w1 v : Word), s.me.canIssue = true → s.scalarCheck = none →
      ∃ t, exec (.reservedWord w0 w1 v) s = .next t ∧
        taken t (message s.me.pc w0 w1 .reservedCode (v.zeroExtend 64)))

/-- mfs returns the register's fields, reserved bits 0, tainted where R120 says so; LFSR once every earlier vector
instruction that uses rs has taken its steps, STATUS once every earlier one has raised its flags (R82, R89). -/
def Sys2Proof.Claims.SystemRegisterReads : Prop :=
  ∀ (s : State) (o : MfsO), s.ready (len2 o.q) o.q → s.freeG o.d →
    (o.n = 0x005 → s.me.rsPending = false) → (o.n = 0x006 → s.me.flagsPending = false) →
    let k := s.me
    let read (v : DWord) (t : Bool) : Prop := exec (.mfs o) s = s.putCore (len2 o.q) o.q (k.writeG o.d v t)
    let nat (n : Nat) : DWord := BitVec.ofNat 64 n
    (o.n = 0x000 → read (k.seqn ++ 0#6 ++ k.rli ++ k.je ++ 0#1 ++ BitVec.ofBool k.ct ++ k.src)
      (!s.cur.isRamp && (s.cluster s.cur.cluster).ring.everElastic)) ∧
    (o.n = 0x001 → read (k.ci.zeroExtend 64) false) ∧
    (o.n = 0x002 → read (k.cj.zeroExtend 64) false) ∧
    (o.n = 0x003 → read (k.ck.zeroExtend 64) false) ∧
    (o.n = 0x004 → read (k.tiPc ++ 0#15 ++ BitVec.ofBool k.tiValid ++ k.tiAttempt ++ k.tiCause) false) ∧
    (o.n = 0x005 → read (k.lfsr.zeroExtend 64) true) ∧
    (o.n = 0x006 → read (k.fx.zeroExtend 64) (decide (k.fxTaint ≠ 0))) ∧
    (o.n = 0x008 → read (nat (16 * k.maxlg.toNat + k.role.toNat)) false) ∧
    (o.n = 0x009 → read (k.service ++ 0#28 ++ k.weight) true) ∧
    (o.n = 0x00A → read (nat ((s.svu s.cur.unit).rr.toNat * 2 ^ 16 + (s.svu s.cur.unit).age.toNat)) false) ∧
    (o.n = 0x00B → read (nat ((s.gangOf s.cur).rr.toNat * 2 + (s.gangOf s.cur).det.toNat)) false) ∧
    (o.n = 0x00C → read ((s.gangOf s.cur).sstep.zeroExtend 64) false) ∧
    (o.n = 0x00D → ∃ v, read v false) ∧
    (o.n = 0x010 → ∀ d cl st, s.cur = .ord d cl st → (s.launchOf s.cur).rcd.red = false →
      read (nat (d.toNat * 65536 + cl.toNat * 64 + st.toNat + d.toNat * 2 ^ 21 + cl.toNat * 2 ^ 25
        + st.toNat * 2 ^ 35 + (s.launchOf s.cur).rcd.priv.toNat * 2 ^ 42)) (!(s.launchOf s.cur).rcd.pinned)) ∧
    (o.n = 0x010 → ∀ d i, s.cur = .ramp d i → (s.launchOf s.cur).rcd.red = false →
      read (nat (0x100000 + 128 * d.toNat + i.toNat + d.toNat * 2 ^ 21 + i.toNat * 2 ^ 25 + 2 ^ 41
        + (s.launchOf s.cur).rcd.priv.toNat * 2 ^ 42)) true) ∧
    (o.n = 0x011 → read (nat (k.cycleSaved + (s.clock - k.cycleBase))) true) ∧
    (o.n = 0x012 → read (nat s.ftime) true)

/-- mts writes the writable fields of its register; a reserved value traps ILLEGAL_OPERAND with value 1, and AGE or
MODE at level 0 PRIVILEGE with the register's number (R83, R120, R143, R146, R350). -/
def Sys2Proof.Claims.SystemRegisterWrites : Prop :=
  ∀ (s : State) (o : MtsO), s.ready (len2 o.q) o.q → s.fullG o.a →
    (o.n = 0x005 → s.me.rsPending = false) → (o.n = 0x006 → s.me.flagsPending = false) →
    let k := s.me
    let v := k.gv o.a
    let put (k : Core) : Prop := exec (.mts o) s = s.putCore (len2 o.q) o.q k
    let trap (c : Cause) (x : DWord) : Prop := exec (.mts o) s = .next (s.takeTrap ⟨c, x⟩)
    let level1 := (s.launchOf s.cur).rcd.priv
    (o.n = 0x005 → put { k with lfsr := if v.setWidth 32 = 0#32 then 1 else v.setWidth 32 }) ∧
    (o.n = 0x006 → put { k with fx := v.setWidth 5, fxTaint := if k.gt o.a || k.ct then 31 else 0 }) ∧
    (o.n = 0x008 →
      let lg := v.toNat / 16 % 8
      let r := v.toNat % 4
      if 1 ≤ lg ∧ lg ≤ 4 ∧ r ≠ 3 then put { k with maxlg := BitVec.ofNat 3 lg, role := BitVec.ofNat 2 r }
      else trap .illegalOperand 1) ∧
    (o.n = 0x009 → if v.toNat % 16 = 0 then trap .illegalOperand 1 else put { k with weight := v.setWidth 4 }) ∧
    (o.n = 0x00A → level1 = false → trap .privilege 0x00A) ∧
    (o.n = 0x00B → level1 = false → trap .privilege 0x00B) ∧
    (o.n = 0x00A → level1 = true → exec (.mts o) s = .next
      ((s.modSvu s.cur.unit fun u => { u with age := v.setWidth 16, rr := v.getLsbD 16 }).finish (len2 o.q) o.q id)) ∧
    (o.n = 0x00B → level1 = true →
      let rr := v.toNat / 2 % 4
      (rr = 3 ∨ (rr = 2 ↔ (s.gangOf s.cur).rr ≠ 2) → trap .illegalOperand 1) ∧
      (rr ≠ 3 → (rr = 2 ↔ (s.gangOf s.cur).rr = 2) → (s.gangOf s.cur).pendingMode = none →
        exec (.mts o) s = .next ((s.modGangOf s.cur fun g =>
          { g with pendingMode := some (v.setWidth 3, coreNum s.cur) }).finish (len2 o.q) o.q id)))

/-- mfs, mts and capr complete: for every core that is ready, every register they name and every full source, on the
conditions of R82, R89, R120 and R123 alone, each answers the next state with its result put away and its sequencing
part taken. mfs reads any register; mts writes one whose value has no reserved field, AGE and MODE at level 1; capr
reads any aligned offset. -/
def Sys2Proof.Claims.SystemInstructionsComplete : Prop :=
  ∀ (s : State) (q : Seq), s.ready (len2 q) q →
    let quiet (n : BitVec 12) : Prop := (n = 0x005 → s.me.rsPending = false) ∧ (n = 0x006 → s.me.flagsPending = false)
    (∀ (d : BitVec 5) (n : BitVec 12), s.freeG d → quiet n →
      exec (.mfs ⟨q, d, n⟩) s = .next ((s.setMe (s.me.writeG d (s.sysreg s.cur n).1 (s.sysreg s.cur n).2)).finish
        (len2 q) q id)) ∧
    (∀ (a : BitVec 5) (ta : Bool) (n : BitVec 12), s.fullG a → quiet n →
      let v := s.me.gv a
      let lg := v.toNat / 16 % 8
      let rr := v.toNat / 2 % 4
      (n = 0x008 → 1 ≤ lg ∧ lg ≤ 4 ∧ v.toNat % 4 ≠ 3) → (n = 0x009 → v.toNat % 16 ≠ 0) →
      (n = 0x00A ∨ n = 0x00B → (s.launchOf s.cur).rcd.priv = true) →
      (n = 0x00B → rr ≠ 3 ∧ (rr = 2 ↔ (s.gangOf s.cur).rr = 2)) →
      ∃ t : State, exec (.mts ⟨q, a, ta, n⟩) s = .next (t.finish (len2 q) q id) ∧ t.cur = s.cur ∧ t.mem = s.mem ∧
        t.me.g = s.me.g ∧ t.me.pc = s.me.pc ∧ t.me.park = s.me.park) ∧
    (∀ (d a : BitVec 5) (ta : Bool), s.freeG d → s.fullG a → (s.me.gv a).toNat % 8 = 0 →
      exec (.capr ⟨q, d, a, ta⟩) s = .next ((s.setMe (s.me.writeG d
        (BitVec.ofNat 64 ((layCap 0 (s.viewOf s.cur)).getD ((s.me.gv a).toNat / 8) 0)) (s.me.gt a))).finish (len2 q) q id))

/-- capr writes the word of its view at an aligned offset, 0 beyond the view's end, and traps ALIGNMENT with the
offset otherwise (R123). The package record comes first, at offset 0 (R401, R446). -/
def Sys2Proof.Claims.CapabilityReads : Prop :=
  ∀ (s : State) (o : XDA), s.ready (len2 o.q) o.q → s.fullG o.a →
    let off := (s.me.gv o.a).toNat
    (off % 8 ≠ 0 → exec (.capr o) s = .next (s.takeTrap ⟨.alignment, s.me.gv o.a⟩)) ∧
    (off % 8 = 0 → s.freeG o.d → ∃ v, exec (.capr o) s = s.putCore (len2 o.q) o.q (s.me.writeG o.d v (s.me.gt o.a)) ∧
      (8 * (layCap 0 (s.viewOf s.cur)).length ≤ off → v = 0) ∧
      (off = 8 → v.setWidth 20 = Config.packageId))

/-- System registers and the capability space: mfs, mts and capr complete; reads, writes, privilege, as the parts
named below state. -/
def Obligations.SystemRegisters : Prop :=
  Claims.SystemRegisterReads ∧ Claims.SystemRegisterWrites ∧ Claims.SystemInstructionsComplete ∧ Claims.CapabilityReads

/-! ### Vector instructions -/

/-- Each integer vector instruction joins the core's queue with its function, its registers, its type and its mask
(R136, R159). -/
def Sys2Proof.Claims.IntegerVectorsQueue : Prop :=
  ∀ (s : State),
    (∀ (o : V3),
      s.queues o.q (.vadd o) ⟨.int .add false, o.d.toNat, o.a.toNat, o.b.toNat, o.t, o.t, o.m, .rne, 0, 0⟩ none ∧
      s.queues o.q (.vsub o) ⟨.int .sub false, o.d.toNat, o.a.toNat, o.b.toNat, o.t, o.t, o.m, .rne, 0, 0⟩ none ∧
      s.queues o.q (.vmul o) ⟨.int .mul false, o.d.toNat, o.a.toNat, o.b.toNat, o.t, o.t, o.m, .rne, 0, 0⟩ none ∧
      s.queues o.q (.vmulh o) ⟨.int .mulh false, o.d.toNat, o.a.toNat, o.b.toNat, o.t, o.t, o.m, .rne, 0, 0⟩ none ∧
      s.queues o.q (.vmac o) ⟨.int .mac false, o.d.toNat, o.a.toNat, o.b.toNat, o.t, o.t, o.m, .rne, 0, 0⟩ none ∧
      s.queues o.q (.vadds o) ⟨.int .add true, o.d.toNat, o.a.toNat, o.b.toNat, o.t, o.t, o.m, .rne, 0, 0⟩ none ∧
      s.queues o.q (.vsubs o) ⟨.int .sub true, o.d.toNat, o.a.toNat, o.b.toNat, o.t, o.t, o.m, .rne, 0, 0⟩ none ∧
      s.queues o.q (.vmuls o) ⟨.int .mul true, o.d.toNat, o.a.toNat, o.b.toNat, o.t, o.t, o.m, .rne, 0, 0⟩ none ∧
      s.queues o.q (.vmacs o) ⟨.int .mac true, o.d.toNat, o.a.toNat, o.b.toNat, o.t, o.t, o.m, .rne, 0, 0⟩ none ∧
      s.queues o.q (.vmin o) ⟨.int .min false, o.d.toNat, o.a.toNat, o.b.toNat, o.t, o.t, o.m, .rne, 0, 0⟩ none ∧
      s.queues o.q (.vmax o) ⟨.int .max false, o.d.toNat, o.a.toNat, o.b.toNat, o.t, o.t, o.m, .rne, 0, 0⟩ none ∧
      s.queues o.q (.vand o) ⟨.int .and false, o.d.toNat, o.a.toNat, o.b.toNat, o.t, o.t, o.m, .rne, 0, 0⟩ none ∧
      s.queues o.q (.vor o) ⟨.int .or false, o.d.toNat, o.a.toNat, o.b.toNat, o.t, o.t, o.m, .rne, 0, 0⟩ none ∧
      s.queues o.q (.vxor o) ⟨.int .xor false, o.d.toNat, o.a.toNat, o.b.toNat, o.t, o.t, o.m, .rne, 0, 0⟩ none ∧
      s.queues o.q (.vandn o) ⟨.int .andn false, o.d.toNat, o.a.toNat, o.b.toNat, o.t, o.t, o.m, .rne, 0, 0⟩ none ∧
      s.queues o.q (.vshl o) ⟨.int .shl false, o.d.toNat, o.a.toNat, o.b.toNat, o.t, o.t, o.m, .rne, 0, 0⟩ none ∧
      s.queues o.q (.vshr o) ⟨.int .shr false, o.d.toNat, o.a.toNat, o.b.toNat, o.t, o.t, o.m, .rne, 0, 0⟩ none ∧
      s.queues o.q (.vaddw o) ⟨.intW .add, o.d.toNat, o.a.toNat, o.b.toNat, o.t, o.t, o.m, .rne, 0, 0⟩ none ∧
      s.queues o.q (.vsubw o) ⟨.intW .sub, o.d.toNat, o.a.toNat, o.b.toNat, o.t, o.t, o.m, .rne, 0, 0⟩ none ∧
      s.queues o.q (.vmulw o) ⟨.intW .mul, o.d.toNat, o.a.toNat, o.b.toNat, o.t, o.t, o.m, .rne, 0, 0⟩ none ∧
      s.queues o.q (.vmacw o) ⟨.intW .mac, o.d.toNat, o.a.toNat, o.b.toNat, o.t, o.t, o.m, .rne, 0, 0⟩ none) ∧
    (∀ (o : V2),
      s.queues o.q (.vabs o) ⟨.int .abs false, o.d.toNat, o.a.toNat, 0, o.t, o.t, o.m, .rne, 0, 0⟩ none ∧
      s.queues o.q (.vneg o) ⟨.int .neg false, o.d.toNat, o.a.toNat, 0, o.t, o.t, o.m, .rne, 0, 0⟩ none) ∧
    (∀ (o : VC3),
      s.queues o.q (.vcmpEq o) ⟨.intCmp .eq, o.d.toNat, o.a.toNat, o.b.toNat, o.t, o.t, o.m, .rne, 0, 0⟩ none ∧
      s.queues o.q (.vcmpNe o) ⟨.intCmp .ne, o.d.toNat, o.a.toNat, o.b.toNat, o.t, o.t, o.m, .rne, 0, 0⟩ none ∧
      s.queues o.q (.vcmpLt o) ⟨.intCmp .lt, o.d.toNat, o.a.toNat, o.b.toNat, o.t, o.t, o.m, .rne, 0, 0⟩ none ∧
      s.queues o.q (.vcmpLe o) ⟨.intCmp .le, o.d.toNat, o.a.toNat, o.b.toNat, o.t, o.t, o.m, .rne, 0, 0⟩ none)

/-- Each floating vector instruction joins the core's queue with its function, its registers, its type, its mask and
its rounding mode (R136, R160, R161, R171, R172). -/
def Sys2Proof.Claims.FloatVectorsQueue : Prop :=
  ∀ (s : State),
    (∀ (o : V3R),
      s.queues o.q (.vfadd o) ⟨.flt .add, o.d.toNat, o.a.toNat, o.b.toNat, o.t, o.t, o.m, o.r, 0, 0⟩ none ∧
      s.queues o.q (.vfsub o) ⟨.flt .sub, o.d.toNat, o.a.toNat, o.b.toNat, o.t, o.t, o.m, o.r, 0, 0⟩ none ∧
      s.queues o.q (.vfmul o) ⟨.flt .mul, o.d.toNat, o.a.toNat, o.b.toNat, o.t, o.t, o.m, o.r, 0, 0⟩ none ∧
      s.queues o.q (.vfma o) ⟨.flt .fma, o.d.toNat, o.a.toNat, o.b.toNat, o.t, o.t, o.m, o.r, 0, 0⟩ none ∧
      s.queues o.q (.vfmulw o) ⟨.fltW .mul, o.d.toNat, o.a.toNat, o.b.toNat, o.t, o.t, o.m, o.r, 0, 0⟩ none ∧
      s.queues o.q (.vfmaw o) ⟨.fltW .fma, o.d.toNat, o.a.toNat, o.b.toNat, o.t, o.t, o.m, o.r, 0, 0⟩ none ∧
      s.queues o.q (.vfmul2 o) ⟨.fmul2, o.d.toNat, o.a.toNat, o.b.toNat, o.t, o.t, o.m, o.r, 0, 0⟩ none) ∧
    (∀ (o : V3),
      s.queues o.q (.vfmin o) ⟨.flt .min, o.d.toNat, o.a.toNat, o.b.toNat, o.t, o.t, o.m, .rne, 0, 0⟩ none ∧
      s.queues o.q (.vfmax o) ⟨.flt .max, o.d.toNat, o.a.toNat, o.b.toNat, o.t, o.t, o.m, .rne, 0, 0⟩ none ∧
      s.queues o.q (.vrefRcp o) ⟨.refine false, o.d.toNat, o.a.toNat, o.b.toNat, o.t, o.t, o.m, .rne, 0, 0⟩ none ∧
      s.queues o.q (.vrefRsq o) ⟨.refine true, o.d.toNat, o.a.toNat, o.b.toNat, o.t, o.t, o.m, .rne, 0, 0⟩ none) ∧
    (∀ (o : V2),
      s.queues o.q (.vfabs o) ⟨.flt .abs, o.d.toNat, o.a.toNat, 0, o.t, o.t, o.m, .rne, 0, 0⟩ none ∧
      s.queues o.q (.vfneg o) ⟨.flt .neg, o.d.toNat, o.a.toNat, 0, o.t, o.t, o.m, .rne, 0, 0⟩ none ∧
      s.queues o.q (.vrcp o) ⟨.approx false, o.d.toNat, o.a.toNat, 0, o.t, o.t, o.m, .rne, 0, 0⟩ none ∧
      s.queues o.q (.vrsq o) ⟨.approx true, o.d.toNat, o.a.toNat, 0, o.t, o.t, o.m, .rne, 0, 0⟩ none ∧
      s.queues o.q (.vsqrt o) ⟨.fn .sqrt, o.d.toNat, o.a.toNat, 0, o.t, o.t, o.m, .rne, 0, 0⟩ none ∧
      s.queues o.q (.vexp2 o) ⟨.fn .exp2, o.d.toNat, o.a.toNat, 0, o.t, o.t, o.m, .rne, 0, 0⟩ none ∧
      s.queues o.q (.vexp o) ⟨.fn .exp, o.d.toNat, o.a.toNat, 0, o.t, o.t, o.m, .rne, 0, 0⟩ none ∧
      s.queues o.q (.vlog2 o) ⟨.fn .log2, o.d.toNat, o.a.toNat, 0, o.t, o.t, o.m, .rne, 0, 0⟩ none ∧
      s.queues o.q (.vtanh o) ⟨.fn .tanh, o.d.toNat, o.a.toNat, 0, o.t, o.t, o.m, .rne, 0, 0⟩ none ∧
      s.queues o.q (.vsig o) ⟨.fn .sig, o.d.toNat, o.a.toNat, 0, o.t, o.t, o.m, .rne, 0, 0⟩ none) ∧
    (∀ (o : VC3),
      s.queues o.q (.vfcmpEq o) ⟨.fltCmp .eq, o.d.toNat, o.a.toNat, o.b.toNat, o.t, o.t, o.m, .rne, 0, 0⟩ none ∧
      s.queues o.q (.vfcmpLt o) ⟨.fltCmp .lt, o.d.toNat, o.a.toNat, o.b.toNat, o.t, o.t, o.m, .rne, 0, 0⟩ none ∧
      s.queues o.q (.vfcmpLe o) ⟨.fltCmp .le, o.d.toNat, o.a.toNat, o.b.toNat, o.t, o.t, o.m, .rne, 0, 0⟩ none ∧
      s.queues o.q (.vfcmpUn o) ⟨.fltCmp .un, o.d.toNat, o.a.toNat, o.b.toNat, o.t, o.t, o.m, .rne, 0, 0⟩ none)

/-- Each vector-scalar instruction joins the core's queue with the value and taint of its g operand at the push
(R136, R162); vget names its g destination (R163). -/
def Sys2Proof.Claims.VectorScalarsQueue : Prop :=
  ∀ (s : State),
    (∀ (o : VS),
      s.queues o.q (.vaddVs o) ⟨.vs .add false, o.d.toNat, o.a.toNat, 0, o.t, o.t, o.m, .rne, 0, 0⟩ (some o.g) ∧
      s.queues o.q (.vaddsVs o) ⟨.vs .add true, o.d.toNat, o.a.toNat, 0, o.t, o.t, o.m, .rne, 0, 0⟩ (some o.g) ∧
      s.queues o.q (.vsubVs o) ⟨.vs .sub false, o.d.toNat, o.a.toNat, 0, o.t, o.t, o.m, .rne, 0, 0⟩ (some o.g) ∧
      s.queues o.q (.vsubsVs o) ⟨.vs .sub true, o.d.toNat, o.a.toNat, 0, o.t, o.t, o.m, .rne, 0, 0⟩ (some o.g) ∧
      s.queues o.q (.vrsubVs o) ⟨.vs .rsub false, o.d.toNat, o.a.toNat, 0, o.t, o.t, o.m, .rne, 0, 0⟩ (some o.g) ∧
      s.queues o.q (.vrsubsVs o) ⟨.vs .rsub true, o.d.toNat, o.a.toNat, 0, o.t, o.t, o.m, .rne, 0, 0⟩ (some o.g) ∧
      s.queues o.q (.vmulVs o) ⟨.vs .mul false, o.d.toNat, o.a.toNat, 0, o.t, o.t, o.m, .rne, 0, 0⟩ (some o.g) ∧
      s.queues o.q (.vmulsVs o) ⟨.vs .mul true, o.d.toNat, o.a.toNat, 0, o.t, o.t, o.m, .rne, 0, 0⟩ (some o.g) ∧
      s.queues o.q (.vmacVs o) ⟨.vs .mac false, o.d.toNat, o.a.toNat, 0, o.t, o.t, o.m, .rne, 0, 0⟩ (some o.g) ∧
      s.queues o.q (.vmacsVs o) ⟨.vs .mac true, o.d.toNat, o.a.toNat, 0, o.t, o.t, o.m, .rne, 0, 0⟩ (some o.g) ∧
      s.queues o.q (.vminVs o) ⟨.vs .min false, o.d.toNat, o.a.toNat, 0, o.t, o.t, o.m, .rne, 0, 0⟩ (some o.g) ∧
      s.queues o.q (.vmaxVs o) ⟨.vs .max false, o.d.toNat, o.a.toNat, 0, o.t, o.t, o.m, .rne, 0, 0⟩ (some o.g) ∧
      s.queues o.q (.vandVs o) ⟨.vs .and false, o.d.toNat, o.a.toNat, 0, o.t, o.t, o.m, .rne, 0, 0⟩ (some o.g) ∧
      s.queues o.q (.vorVs o) ⟨.vs .or false, o.d.toNat, o.a.toNat, 0, o.t, o.t, o.m, .rne, 0, 0⟩ (some o.g) ∧
      s.queues o.q (.vxorVs o) ⟨.vs .xor false, o.d.toNat, o.a.toNat, 0, o.t, o.t, o.m, .rne, 0, 0⟩ (some o.g) ∧
      s.queues o.q (.vshlVs o) ⟨.vs .shl false, o.d.toNat, o.a.toNat, 0, o.t, o.t, o.m, .rne, 0, 0⟩ (some o.g) ∧
      s.queues o.q (.vshrVs o) ⟨.vs .shr false, o.d.toNat, o.a.toNat, 0, o.t, o.t, o.m, .rne, 0, 0⟩ (some o.g) ∧
      s.queues o.q (.vslup o) ⟨.slide true false, o.d.toNat, o.a.toNat, 0, o.t, o.t, o.m, .rne, 0, 0⟩ (some o.g) ∧
      s.queues o.q (.vsldn o) ⟨.slide false false, o.d.toNat, o.a.toNat, 0, o.t, o.t, o.m, .rne, 0, 0⟩ (some o.g) ∧
      s.queues o.q (.vrotup o) ⟨.slide true true, o.d.toNat, o.a.toNat, 0, o.t, o.t, o.m, .rne, 0, 0⟩ (some o.g) ∧
      s.queues o.q (.vrotdn o) ⟨.slide false true, o.d.toNat, o.a.toNat, 0, o.t, o.t, o.m, .rne, 0, 0⟩ (some o.g)) ∧
    (∀ (o : VSp), s.queues o.q (.vsplat o) ⟨.splat, o.d.toNat, 0, 0, o.t, o.t, o.m, .rne, 0, 0⟩ (some o.g)) ∧
    (∀ (o : VG), s.queues o.q (.vget o) ⟨.get, o.g.toNat, o.a.toNat, 0, o.t, o.t, 0, .rne, 0, 0⟩ none)

/-- Arithmetic vector instructions join the vector queue as encoded, as the parts named below state. -/
def Obligations.ArithmeticVectorsQueue : Prop :=
  Claims.IntegerVectorsQueue ∧ Claims.FloatVectorsQueue ∧ Claims.VectorScalarsQueue

/-- Conversions, packs and permutes join the core's queue with both their types, their block length and their
registers (R136, R164 to R169). -/
def Sys2Proof.Claims.ConversionsAndPermutesQueue : Prop :=
  ∀ (s : State),
    (∀ (o : Cvt),
      s.queues o.q (.vcvt o) ⟨.cvt false, o.d.toNat, o.a.toNat, 0, o.t, o.s, o.m, o.r, 0, 0⟩ none ∧
      s.queues o.q (.vcvts o) ⟨.cvt true, o.d.toNat, o.a.toNat, 0, o.t, o.s, o.m, o.r, 0, 0⟩ none ∧
      s.queues o.q (.vbunpack16 o) ⟨.unpack, o.d.toNat, o.a.toNat, 0, o.t, o.s, o.m, o.r, 16, 0⟩ none ∧
      s.queues o.q (.vbunpack32 o) ⟨.unpack, o.d.toNat, o.a.toNat, 0, o.t, o.s, o.m, o.r, 32, 0⟩ none ∧
      s.queues o.q (.vbunpack64 o) ⟨.unpack, o.d.toNat, o.a.toNat, 0, o.t, o.s, o.m, o.r, 64, 0⟩ none) ∧
    (∀ (o : Pack),
      s.queues o.q (.vbpack16 o) ⟨.pack, o.d.toNat, o.a.toNat, 0, o.t, o.s, 0, o.r, 16, 0⟩ none ∧
      s.queues o.q (.vbpack32 o) ⟨.pack, o.d.toNat, o.a.toNat, 0, o.t, o.s, 0, o.r, 32, 0⟩ none ∧
      s.queues o.q (.vbpack64 o) ⟨.pack, o.d.toNat, o.a.toNat, 0, o.t, o.s, 0, o.r, 64, 0⟩ none) ∧
    (∀ (o : V2),
      s.queues o.q (.vmov o) ⟨.mov, o.d.toNat, o.a.toNat, 0, o.t, o.t, o.m, .rne, 0, 0⟩ none ∧
      s.queues o.q (.vcompress o) ⟨.compress, o.d.toNat, o.a.toNat, 0, o.t, o.t, o.m, .rne, 0, 0⟩ none ∧
      s.queues o.q (.vexpand o) ⟨.expand, o.d.toNat, o.a.toNat, 0, o.t, o.t, o.m, .rne, 0, 0⟩ none ∧
      s.queues o.q (.vgather o) ⟨.gather, o.d.toNat, o.a.toNat, 0, o.t, o.t, o.m, .rne, 0, 0⟩ none ∧
      s.queues o.q (.vrev o) ⟨.rev, o.d.toNat, o.a.toNat, 0, o.t, o.t, o.m, .rne, 0, 0⟩ none) ∧
    (∀ (o : V3),
      s.queues o.q (.vmerge o) ⟨.merge, o.d.toNat, o.a.toNat, o.b.toNat, o.t, o.t, o.m, .rne, 0, 0⟩ none ∧
      s.queues o.q (.vperm o) ⟨.perm, o.d.toNat, o.a.toNat, o.b.toNat, o.t, o.t, o.m, .rne, 0, 0⟩ none) ∧
    (∀ (o : VSc), s.queues o.q (.vscatter o) ⟨.scatter, 0, o.a.toNat, o.b.toNat, o.t, o.t, o.m, .rne, 0, 0⟩ none) ∧
    (∀ (o : VZ), s.queues o.q (.vzip o) ⟨.zip, o.d.toNat, o.a.toNat, o.b.toNat, o.t, o.t, 0, .rne, 0, 0⟩ none) ∧
    (∀ (o : VU), s.queues o.q (.vunzip o) ⟨.unzip, o.d.toNat, o.a.toNat, 0, o.t, o.t, 0, .rne, 0, 0⟩ none)

/-- Reductions and mask instructions join the core's queue with their group code, their masks and their
destination (R136, R170, R173); vany and vall stall there, and their unit goes on with its sequencing part once they
have completed (R24, R144). -/
def Sys2Proof.Claims.ReductionsAndMasksQueue : Prop :=
  ∀ (s : State),
    (∀ (o : V2C),
      s.queues o.q (.vrsum o) ⟨.red .sum, o.d.toNat, o.a.toNat, 0, o.t, o.t, o.m, .rne, o.c.toNat, 0⟩ none ∧
      s.queues o.q (.vrmin o) ⟨.red .min, o.d.toNat, o.a.toNat, 0, o.t, o.t, o.m, .rne, o.c.toNat, 0⟩ none ∧
      s.queues o.q (.vrmax o) ⟨.red .max, o.d.toNat, o.a.toNat, 0, o.t, o.t, o.m, .rne, o.c.toNat, 0⟩ none ∧
      s.queues o.q (.vrsumw o) ⟨.red .sumw, o.d.toNat, o.a.toNat, 0, o.t, o.t, o.m, .rne, o.c.toNat, 0⟩ none) ∧
    (∀ (o : V3C),
      s.queues o.q (.vdot o) ⟨.red .dot, o.d.toNat, o.a.toNat, o.b.toNat, o.t, o.t, o.m, .rne, o.c.toNat, 0⟩ none ∧
      s.queues o.q (.vdota o) ⟨.red .dota, o.d.toNat, o.a.toNat, o.b.toNat, o.t, o.t, o.m, .rne, o.c.toNat, 0⟩ none ∧
      s.queues o.q (.vdot2 o) ⟨.red .dot2, o.d.toNat, o.a.toNat, o.b.toNat, o.t, o.t, o.m, .rne, o.c.toNat, 0⟩ none ∧
      s.queues o.q (.vdot2a o) ⟨.red .dot2a, o.d.toNat, o.a.toNat, o.b.toNat, o.t, o.t, o.m, .rne, o.c.toNat, 0⟩ none) ∧
    (∀ (o : M3),
      s.queues o.q (.mand o) ⟨.mask .and, o.d.toNat, o.a.toNat, o.b.toNat, .i4, .i4, 0, .rne, 0, 0⟩ none ∧
      s.queues o.q (.mor o) ⟨.mask .or, o.d.toNat, o.a.toNat, o.b.toNat, .i4, .i4, 0, .rne, 0, 0⟩ none ∧
      s.queues o.q (.mxor o) ⟨.mask .xor, o.d.toNat, o.a.toNat, o.b.toNat, .i4, .i4, 0, .rne, 0, 0⟩ none ∧
      s.queues o.q (.mandn o) ⟨.mask .andn, o.d.toNat, o.a.toNat, o.b.toNat, .i4, .i4, 0, .rne, 0, 0⟩ none) ∧
    (∀ (o : M2),
      s.queues o.q (.mnot o) ⟨.mask .not, o.d.toNat, o.a.toNat, 0, .i4, .i4, 0, .rne, 0, 0⟩ none ∧
      s.queues o.q (.mmov o) ⟨.mask .mov, o.d.toNat, o.a.toNat, 0, .i4, .i4, 0, .rne, 0, 0⟩ none) ∧
    (∀ (o : M2T), s.queues o.q (.mfirst o) ⟨.mfirst, o.d.toNat, o.a.toNat, 0, o.t, o.t, 0, .rne, 0, 0⟩ none) ∧
    (∀ (o : VIo), s.queues o.q (.viota o) ⟨.iota, o.d.toNat, 0, 0, o.t, o.t, o.m, .rne, 0, 0⟩ none) ∧
    (∀ (o : VPc), s.queues o.q (.vmpopc o) ⟨.popc, o.d.toNat, o.a.toNat, 0, o.t, o.t, 0, .rne, 0, 0⟩ none) ∧
    (∀ (o : VMv), s.queues o.q (.vmtov o) ⟨.mtov, o.d.toNat, o.a.toNat, 0, o.t, o.t, o.m, .rne, 0, 0⟩ none) ∧
    (∀ (o : VTm), s.queues o.q (.vvtom o) ⟨.vtom, o.d.toNat, o.a.toNat, 0, o.t, o.t, o.m, .rne, 0, 0⟩ none) ∧
    (∀ (o : MPr), s.ready (len1 o.q) o.q →
      (s.me.phase = .vmove → ∀ i ∈ [Instr.vany o, .vall o], exec i s = s.putCore (len1 o.q) o.q { s.me with phase := .idle }) ∧
      (s.me.phase ≠ .vmove → s.queueRoom → ∀ x ∈ [(Instr.vany o, VKind.any), (.vall o, .all)],
        let op : VOp := ⟨x.2, o.d.toNat, o.a.toNat, 0, o.t, o.t, 0, .rne, 0, 0⟩
        s.me.vopTrap op = none → exec x.1 s = .next (s.setMe { s.me with
          vq := s.me.vq ++ [s.newEntry op none none none], accesses := s.me.accesses + 1, phase := .vmove })))

/-- A vchain and the VACC instructions join the queue with their three, or two, g operands (R136, R174, R306): a
VACC instruction that finds the queue empty takes its cut at once, from the chain of its lease (R307). -/
def Sys2Proof.Claims.ChainsAndAccumulatorsQueue : Prop :=
  ∀ (s : State) (q : Seq) (d : BitVec 4) (a b : BitVec 5) (ta tb : Bool),
    s.ready (len2 q) q → s.queueRoom → s.fullG a → s.fullG b →
    let put (e : VEntry) : Out := s.putCore (len2 q) q { s.me with vq := s.me.vq ++ [e], accesses := s.me.accesses + 1 }
    let op (k : VKind) (n : Nat) (c : Nat) : VOp := ⟨k, n, n, 0, .f32, .f32, 0, .rne, c, 0⟩
    let vacc (o : VOp) : VEntry := { s.newEntry o (some a) (some b) none with
      cut := if s.me.vq.isEmpty then some (s.leaseNext s.cur (s.me.gv a)) else none }
    let o : VaccO := ⟨q, d, a, b, ta, tb⟩
    (s.me.vopTrap (op (.rdac false) d.toNat 0) = none → exec (.vrdac o) s = put (vacc (op (.rdac false) d.toNat 0))) ∧
    (s.me.vopTrap (op (.rdac true) d.toNat 0) = none → exec (.vrdacSnoop o) s = put (vacc (op (.rdac true) d.toNat 0))) ∧
    (s.me.vopTrap (op .wrac d.toNat 0) = none → exec (.vwrac o) s = put (vacc (op .wrac d.toNat 0))) ∧
    (∀ n : BitVec 9, 1 ≤ n.toNat → n.toNat ≤ 256 →
      exec (.aclr ⟨q, a, b, ta, tb, n⟩) s = put (vacc (op .aclr 0 n.toNat))) ∧
    (∀ (g : BitVec 5) (td : Bool) (desc : BitVec 15), s.fullG g →
      exec (.vchain ⟨q, g, a, b, td, ta, tb, desc⟩) s =
        put (s.newEntry ⟨.chain, 0, 0, 0, .i8, .i8, 0, .rne, desc.toNat, 0⟩ (some a) (some b) (some g)))

/-- Conversions, permutes, reductions, masks, chains and VACC join the vector queue, as the parts named below state.
-/
def Obligations.OtherVectorsQueue : Prop :=
  Claims.ConversionsAndPermutesQueue ∧ Claims.ReductionsAndMasksQueue ∧ Claims.ChainsAndAccumulatorsQueue

/-- What a granted integer vector instruction computes, lane by lane, at each integer type (R155, R159): active lanes
take the function of their elements, modulo 2^w, or saturated to the type's range, and inactive lanes keep VD. -/
def Sys2Proof.Claims.IntegerLaneResults : Prop :=
  ∀ (k : Core) (e : VEntry) (tn : Bool) (f : IFn) (sat : Bool), e.op.kind = .int f sat → e.op.t.isInt = true →
    k.portOf e.op.a = none → k.portOf e.op.b = none → k.portOf e.op.d = none →
    let w := e.op.t.width
    let v (n : Nat) : VWord := (k.vreg (BitVec.ofNat 4 n)).val
    let x (n i : Nat) : Nat := elemOf w (v n) i
    let sv (y : Nat) : Int := if e.op.t.isSigned then (if y < 2 ^ (w - 1) then y else y - 2 ^ w) else y
    let wrap (z : Int) : Nat := (z % 2 ^ w).toNat
    let sat' (z : Int) : Nat := wrap (max (intLo e.op.t) (min (intHi e.op.t) z))
    let fits (z : Int) : Nat := if sat then sat' z else wrap z
    let a (i : Nat) : Int := sv (x e.op.a i)
    let b (i : Nat) : Int := sv (x e.op.b i)
    ∃ r, k.vecRun e tn = ([.v e.op.d r tn], Fx.none, k.lfsr) ∧
      (f = .add → lanes w (k.mreg e.op.m).val (v e.op.d) r fun i => fits (a i + b i)) ∧
      (f = .sub → lanes w (k.mreg e.op.m).val (v e.op.d) r fun i => fits (a i - b i)) ∧
      (f = .mul → lanes w (k.mreg e.op.m).val (v e.op.d) r fun i => fits (a i * b i)) ∧
      (f = .mac → lanes w (k.mreg e.op.m).val (v e.op.d) r fun i => fits (sv (x e.op.d i) + a i * b i)) ∧
      (f = .mulh → lanes w (k.mreg e.op.m).val (v e.op.d) r fun i => wrap (a i * b i / 2 ^ w)) ∧
      (f = .min → lanes w (k.mreg e.op.m).val (v e.op.d) r fun i => wrap (min (a i) (b i))) ∧
      (f = .max → lanes w (k.mreg e.op.m).val (v e.op.d) r fun i => wrap (max (a i) (b i))) ∧
      (f = .and → lanes w (k.mreg e.op.m).val (v e.op.d) r fun i => x e.op.a i &&& x e.op.b i) ∧
      (f = .or → lanes w (k.mreg e.op.m).val (v e.op.d) r fun i => x e.op.a i ||| x e.op.b i) ∧
      (f = .xor → lanes w (k.mreg e.op.m).val (v e.op.d) r fun i => x e.op.a i ^^^ x e.op.b i) ∧
      (f = .shl → lanes w (k.mreg e.op.m).val (v e.op.d) r fun i => wrap (a i * 2 ^ (x e.op.b i % w))) ∧
      (f = .shr → lanes w (k.mreg e.op.m).val (v e.op.d) r fun i => wrap (a i / 2 ^ (x e.op.b i % w))) ∧
      (f = .abs → lanes w (k.mreg e.op.m).val (v e.op.d) r fun i => wrap (a i).natAbs) ∧
      (f = .neg → lanes w (k.mreg e.op.m).val (v e.op.d) r fun i => wrap (-(a i)))

/-- A granted vector instruction whose results are due fills its destinations: its registers become full with their
taint, its flags are raised, and it leaves the unit; a store writes its 512 bytes then, and no other byte changes;
before they are due nothing happens, nor while a global store must wait for the side log (R89, R138, R207, R336). -/
def Sys2Proof.Claims.VectorsComplete : Prop :=
  ∀ (s : State) (c : CoreId) (n : Nat) (i : InFlight), (s.core c).inflight[n]? = some i →
    (s.clock < i.due ∨ s.storeHeldUp c i = true → exec (.vectorComplete c n) s = .next s) ∧
    (i.due ≤ s.clock → s.storeHeldUp c i = false → ∃ t, exec (.vectorComplete c n) s = .next t ∧
      (t.core c).inflight = ((s.core c).inflight.eraseIdx n).map
        (fun j => { j with ent := { j.ent with snap := j.ent.snap.vcomplete i } }) ∧
      (t.core c).fx = (s.core c).fx ||| i.flags ∧
      (∀ d x tn, i.writes = [.v d x tn] → (s.core c).portOf d = none → d < 16 →
        (t.core c).vreg (BitVec.ofNat 4 d) = ⟨x, .full, tn⟩ ∧ (t.core c).g = (s.core c).g ∧
        (t.core c).m = (s.core c).m ∧ (t.core c).p = (s.core c).p) ∧
      (∀ d x tn, i.writes = [.m d x tn] → 0 < d → d < 4 → (t.core c).mreg (BitVec.ofNat 2 d) = ⟨x, .full, tn⟩ ∧
        (t.core c).v = (s.core c).v) ∧
      (∀ d x tn, i.writes = [.g d x tn] → 0 < d → d < 32 → (t.core c).greg (BitVec.ofNat 5 d) = ⟨x, .full, tn⟩) ∧
      (∀ d x tn, i.writes = [.p d x tn] → d < 7 → (t.core c).preg (BitVec.ofNat 3 d) = ⟨x, tn⟩) ∧
      ((∀ w ∈ i.writes, w.isStore = false) → t.mem = s.mem) ∧
      (∀ a bs, bs.length = 512 → ∀ x ∈ [(storeWords .loc a bs, localBase c), (storeWords (.yard c.cluster) a bs, yardBase c.cluster)],
        i.writes = x.1 → (∀ j < 512, t.mem.read (x.2 + a + j) = (bs.map Prod.fst).getD j 0) ∧
          ∀ b, b < x.2 + a ∨ x.2 + a + 512 ≤ b → t.mem.read b = s.mem.read b) ∧
      ∀ c', coreNum c' ≠ coreNum c → t.core c' = s.core c')

/-- Integer lanes computed under masks, and vector completion, as the parts named below state. -/
def Obligations.VectorLanesAndCompletion : Prop :=
  Claims.IntegerLaneResults ∧ Claims.VectorsComplete

/-! ### Local memory, yard and vector memory -/

/-- ld and st on an aligned address of the own local memory (R178, R179): ld reads the eight bytes at G[A] + 8 × OFF,
little-endian, tainted if one of them or the address is, and a word that is uncorrectable traps; st writes those eight
bytes and no other, tainted as the source or TASK.CT. An address outside the 32 KiB traps ILLEGAL_OPERAND, a misaligned one
ALIGNMENT. Registers other than ld's destination stand. Tracking (R353) is off in these clauses. -/
def Sys2Proof.Claims.LocalLoadsAndStores : Prop :=
  ∀ (s : State) (o : Mem), s.ready (len1 o.q) o.q → s.fullG o.b →
    let ea : Int := (s.me.gv o.b).toNat + 8 * o.o.toInt
    let a := localBase s.cur + ea.toNat
    (ea < 0 ∨ 0x8000 < ea + 8 → ∀ i ∈ [Instr.ld o, .st o], exec i s = .next (s.takeTrap ⟨.illegalOperand, 1⟩)) ∧
    (0 ≤ ea → ea + 8 ≤ 0x8000 → ea % 8 ≠ 0 →
      ∀ i ∈ [Instr.ld o, .st o], exec i s = .next (s.takeTrap ⟨.alignment, BitVec.ofInt 64 ea⟩)) ∧
    (0 ≤ ea → ea + 8 ≤ 0x8000 → ea % 8 = 0 → s.me.vecTouchesLocal ea.toNat 8 = false → (s.gangOf s.cur).det = false →
      let broken := Tab.get false s.uncorr a || Tab.get false s.poison a
      (broken = true → exec (.ld o) s = .next (s.takeTrap ⟨.localUncorrectable, BitVec.ofInt 64 ea⟩)) ∧
      (broken = false → s.freeG o.d → ∃ (v : DWord) (t : Bool), exec (.ld o) s = s.putG o.q o.d v t ∧
        (∀ i < 8, v.extractLsb' (8 * i) 8 = s.mem.read (a + i)) ∧
        (t = true ↔ s.me.gt o.b = true ∨ ∃ i < 8, Tab.get false s.taint (a + i) = true)) ∧
      (s.fullG o.d → ∃ t : State, exec (.st o) s = .next t ∧
        (∀ i < 8, t.mem.read (a + i) = (s.me.gv o.d).extractLsb' (8 * i) 8 ∧
          Tab.get false t.taint (a + i) = (s.me.gt o.d || s.me.ct)) ∧
        sameBytesBut s t a 8 ∧ sameRegs s.me t.me))

/-- ldy and sty do the same on the yard of the core's cluster (R178, R179): a store is issued and reaches memory when
its bank performs it, its own core's loads seeing it before (R126, R180), but not while a vector instruction queued
before it may still trap and discard it (R149); a ramp core has no yard (R313). -/
def Sys2Proof.Claims.YardLoadsAndStores : Prop :=
  ∀ (s : State) (o : Mem), s.ready (len1 o.q) o.q →
    let ea : Int := (s.me.gv o.b).toNat + 8 * o.o.toInt
    let a := yardBase s.cur.cluster + ea.toNat
    (s.cur.isRamp = true → ∀ i ∈ [Instr.ldy o, .sty o], exec i s = .next (s.takeTrap ⟨.illegalOperand, 1⟩)) ∧
    (s.cur.isRamp = false → s.fullG o.b →
      (ea < 0 ∨ 0x80000 < ea + 8 → ∀ i ∈ [Instr.ldy o, .sty o], exec i s = .next (s.takeTrap ⟨.illegalOperand, 1⟩)) ∧
      (0 ≤ ea → ea + 8 ≤ 0x80000 → ea % 8 ≠ 0 →
        ∀ i ∈ [Instr.ldy o, .sty o], exec i s = .next (s.takeTrap ⟨.alignment, BitVec.ofInt 64 ea⟩)) ∧
      (0 ≤ ea → ea + 8 ≤ 0x80000 → ea % 8 = 0 → s.me.vecTouchesYard ea.toNat 8 = false → s.freeG o.d →
        (∀ ys y, s.me.ystores = ys ++ [y] → y.addr = ea.toNat →
          exec (.ldy o) s = s.putG o.q o.d y.val (y.taint || s.me.gt o.b)) ∧
        ((∀ y ∈ s.me.ystores, y.addr ≠ ea.toNat) → (s.gangOf s.cur).det = false →
          Tab.get false s.uncorr a = false → Tab.get false s.poison a = false →
          ∃ (v : DWord) (t : Bool), exec (.ldy o) s = s.putG o.q o.d v t ∧
            (∀ i < 8, v.extractLsb' (8 * i) 8 = s.mem.read (a + i)) ∧
            (t = true ↔ s.me.gt o.b = true ∨ ∃ i < 8, Tab.get false s.taint (a + i) = true))) ∧
      (0 ≤ ea → ea + 8 ≤ 0x80000 → ea % 8 = 0 → s.me.vecTouchesYard ea.toNat 8 = false → s.fullG o.d →
        ∃ t : State, exec (.sty o) s = .next t ∧
          t.me.ystores = s.me.ystores ++ [⟨ea.toNat, s.me.gv o.d, s.me.gt o.d || s.me.ct, s.me.accesses, s.ringLoad s.cur⟩] ∧
          t.mem = s.mem ∧ t.taint = s.taint ∧ sameRegs s.me t.me)) ∧
    (∀ (c : CoreId) (y : YardStore) (ys : List YardStore), (s.core c).ystores = y :: ys → (s.gangOf c).det = false →
      s.storeHeld c = false →
      let b := yardBase c.cluster + y.addr
      ∃ t : State, exec (.yardStorePerform c) s = .next t ∧ (t.core c).ystores = ys ∧ sameRegs (s.core c) (t.core c) ∧
        (∀ i < 8, t.mem.read (b + i) = y.val.extractLsb' (8 * i) 8 ∧ Tab.get false t.taint (b + i) = y.taint) ∧
        sameBytesBut s t b 8)

/-- Loads and stores of local memory and the yard, and their frame, as the parts named below state. -/
def Obligations.LocalAndYardAccesses : Prop :=
  Claims.LocalLoadsAndStores ∧ Claims.YardLoadsAndStores

/-- A vector load or store reads its base and checks its address at the push, a multiple of 64 inside the space, and joins
the queue with that address (R136, R178, R180); a ramp core has no yard (R313). -/
def Sys2Proof.Claims.VectorMemoryQueues : Prop :=
  ∀ (s : State) (o : VMem), s.ready (len1 o.q) o.q →
    let ea : Int := (s.me.gv o.b).toNat + 512 * o.o.toInt
    let op (k : VKind) : VOp := ⟨k, o.d.toNat, o.d.toNat, 0, .i8, .i8, 0, .rne, 0, ea.toNat⟩
    (s.cur.isRamp = true → ∀ i ∈ [Instr.ldvy o, .stvy o], exec i s = .next (s.takeTrap ⟨.illegalOperand, 1⟩)) ∧
    (s.fullG o.b → s.queueRoom →
      ∀ x ∈ [(Instr.ldv o, VKind.ldv, (0x8000 : Int)), (.stv o, .stv, 0x8000), (.ldvy o, .ldvy, 0x80000),
          (.stvy o, .stvy, 0x80000)],
        (x.2.2 = 0x80000 → s.cur.isRamp = false) → s.me.vopTrap (op x.2.1) = none →
        (ea < 0 ∨ x.2.2 < ea + 512 → exec x.1 s = .next (s.takeTrap ⟨.illegalOperand, 1⟩)) ∧
        (0 ≤ ea → ea + 512 ≤ x.2.2 → ea % 64 ≠ 0 →
          exec x.1 s = .next (s.takeTrap ⟨.alignment, BitVec.ofInt 64 ea⟩)) ∧
        (0 ≤ ea → ea + 512 ≤ x.2.2 → ea % 64 = 0 → exec x.1 s = s.putCore (len1 o.q) o.q
          { s.me with vq := s.me.vq ++ [s.newEntry (op x.2.1) (some o.b) none none], accesses := s.me.accesses + 1 }))

/-- A scrubber's visit to a word of local memory or of a yard marks it poisoned if it is uncorrectable and leaves
everything else as it is (R129, R233). -/
def Sys2Proof.Claims.ScrubbersPoison : Prop :=
  ∀ (s : State) (c : CoreId) (k : ClusterId) (w : BitVec 12) (v : BitVec 16),
    let visit (i : Instr) (a : Nat) : Prop := ∃ t : State, exec i s = .next t ∧
      (∀ x, Tab.get false t.poison x = (Tab.get false s.poison x || (x == a && Tab.get false s.uncorr a))) ∧
      t = { s with poison := t.poison }
    visit (.localScrub c w) (localBase c + 8 * w.toNat) ∧ visit (.yardScrub k v) (yardBase k + 8 * v.toNat)

/-- Vector loads and stores join the queue; scrubbers poison bad words, as the parts named below state. -/
def Obligations.VectorMemoryAndScrubbing : Prop :=
  Claims.VectorMemoryQueues ∧ Claims.ScrubbersPoison

/-- cpy appends one command to the cluster's copy engine under the engine's next number and marks H[D] empty (R183,
R185, R187); LEN 0 and an address outside its space trap first. -/
def Obligations.CopyAppends : Prop :=
  ∀ (s : State) (o : CpyO), s.ready (len2 o.q) o.q →
    (o.len = 0 → exec (.cpy o) s = .next (s.takeTrap ⟨.illegalOperand, 0⟩)) ∧
    (o.len ≠ 0 → s.fullG o.a → s.fullG o.b →
      let src := s.me.gv o.a
      let dst := s.me.gv o.b
      let n := o.len.toNat
      let inside (sp : BitVec 2) (v : Nat) : Prop :=
        (sp = 0 → v + n ≤ 2 ^ 15) ∧ (sp = 1 → v + n ≤ 2 ^ 19) ∧
        (sp = 2 → v < 2 ^ 21 ∧ v % 2 ^ 15 + n ≤ 2 ^ 15)
      let at_ (sp : BitVec 2) (v : DWord) : Nat := if sp = 3 then v.toNat % 2 ^ 56 else v.toNat
      let null (sp : BitVec 2) (v : DWord) : Prop := sp = 3 ∧ v.toNat / 2 ^ 58 = 63
      (¬inside o.ssp src.toNat → exec (.cpy o) s = .next (s.takeTrap ⟨.illegalOperand, 1⟩)) ∧
      (inside o.ssp src.toNat → ¬inside o.dsp dst.toNat → exec (.cpy o) s = .next (s.takeTrap ⟨.illegalOperand, 2⟩)) ∧
      (inside o.ssp src.toNat → inside o.dsp dst.toNat → null o.ssp src →
        exec (.cpy o) s = .next (s.takeTrap ⟨.format, src⟩)) ∧
      (inside o.ssp src.toNat → inside o.dsp dst.toNat → ¬null o.ssp src → null o.dsp dst →
        exec (.cpy o) s = .next (s.takeTrap ⟨.format, dst⟩)) ∧
      (inside o.ssp src.toNat → inside o.dsp dst.toNat → ¬null o.ssp src → ¬null o.dsp dst →
        let k := s.cluster s.cur.cluster
        (s.me.hreg o.d).fill ≠ .pending → k.copies.length < 64 → (s.gangOf s.cur).rr = 0 →
        s.me.rowWaits s.cur.station.toNat o.ssp o.dsp ⟨at_ o.ssp src, at_ o.dsp dst, n⟩ = false →
        ∃ (t : State) (cmd : CopyCmd), exec (.cpy o) s = .next t ∧ (t.cluster s.cur.cluster).copies = k.copies ++ [cmd] ∧
          (t.cluster s.cur.cluster).copyNext = (k.copyNext + 1) % 2 ^ 32 ∧
          cmd.seq = k.copyNext ∧ cmd.core = s.cur ∧ cmd.h = some o.d ∧ cmd.inb = o.inb ∧ cmd.ssp = o.ssp ∧
          cmd.dsp = o.dsp ∧ cmd.rows = [⟨at_ o.ssp src, at_ o.dsp dst, n⟩] ∧ cmd.row = 0 ∧ cmd.done = 0 ∧
          cmd.taint = (s.me.gt o.a || s.me.gt o.b || s.me.ct) ∧ cmd.status = none ∧ cmd.doneWord = none ∧
          t.me.hreg o.d = { s.me.hreg o.d with fill := .pending } ∧
          (∀ h, h ≠ o.d → t.me.hreg h = s.me.hreg h) ∧ t.me.owed = s.me.owed + o.inb.toNat ∧
          t.me.g = s.me.g ∧ t.mem = s.mem))

/-- cpyt reads its descriptor of 64 local bytes and appends one command with its rows in ascending order (R188). -/
def Sys2Proof.Claims.StridedCopies : Prop :=
  ∀ (s : State) (o : CpytO), s.ready (len2 o.q) o.q → s.fullG o.a → (s.gangOf s.cur).rr = 0 →
    (s.gangOf s.cur).det = false → s.me.phase = .idle →
    let k := s.cluster s.cur.cluster
    let v := (s.me.gv o.a).toNat
    (v % 8 ≠ 0 → exec (.cpyt o) s = .next (s.takeTrap ⟨.alignment, s.me.gv o.a⟩)) ∧
    (v % 8 = 0 → 2 ^ 15 < v + 64 → exec (.cpyt o) s = .next (s.takeTrap ⟨.illegalOperand, 1⟩)) ∧
    (v % 8 = 0 → v + 64 ≤ 2 ^ 15 → s.me.vecTouchesLocal v 64 = false → s.bad (localBase s.cur + v) 64 = none →
      let word (a n : Nat) : Nat := natOfBytes (s.mem.readN (localBase s.cur + v + a) n)
      let signed (x : Nat) : Int := if x < 2 ^ 63 then x else (x : Int) - 2 ^ 64
      let len := word 16 4
      let rows := word 20 4
      let ssp := BitVec.ofNat 2 (word 40 1)
      let dsp := BitVec.ofNat 2 (word 40 1 / 8)
      let start (sp : BitVec 2) (x : Nat) : Int := if sp = 3 then (x % 2 ^ 56 : Nat) else x
      let src (r : Nat) : Int := start ssp (word 0 8) + r * signed (word 24 8)
      let dst (r : Nat) : Int := start dsp (word 8 8) + r * signed (word 32 8)
      let inside (sp : BitVec 2) (x : Int) : Prop := 0 ≤ x ∧
        (sp = 0 → x + len ≤ 2 ^ 15) ∧ (sp = 1 → x + len ≤ 2 ^ 19) ∧
        (sp = 2 → x < 2 ^ 21 ∧ x % 2 ^ 15 + len ≤ 2 ^ 15) ∧ (sp = 3 → x + len ≤ 2 ^ 56)
      1 ≤ len → len ≤ 2 ^ 20 → 1 ≤ rows → rows ≤ 65535 → word 40 1 % 8 ≤ 3 → word 40 1 / 8 ≤ 3 → word 41 23 = 0 →
      (ssp = 3 → word 0 8 / 2 ^ 58 ≠ 63) → (dsp = 3 → word 8 8 / 2 ^ 58 ≠ 63) →
      (∀ r < rows, inside ssp (src r) ∧ inside dsp (dst r) ∧
        s.me.rowWaits s.cur.station.toNat ssp dsp ⟨(src r).toNat, (dst r).toNat, len⟩ = false) →
      (s.me.hreg o.d).fill ≠ .pending → k.copies.length < 64 →
      ∃ (t : State) (cmd : CopyCmd), exec (.cpyt o) s = .next t ∧ (t.cluster s.cur.cluster).copies = k.copies ++ [cmd] ∧
        cmd.seq = k.copyNext ∧ cmd.core = s.cur ∧ cmd.h = some o.d ∧ cmd.inb = o.inb ∧ cmd.ssp = ssp ∧ cmd.dsp = dsp ∧
        cmd.rows.length = rows ∧ (∀ r < rows, cmd.rows[r]? = some ⟨(src r).toNat, (dst r).toNat, len⟩) ∧
        t.me.hreg o.d = { s.me.hreg o.d with fill := .pending } ∧ t.me.g = s.me.g ∧ t.mem = s.mem)

/-- cpyc reads a run of records in the own yard, each naming the next, and appends one command for each in the run's
order; each writes its record's done word, and only the last fills H[D] and may post to the inbox (R189). -/
def Sys2Proof.Claims.ChainedCopies : Prop :=
  ∀ (s : State) (o : CpycO) (m : Nat) (at_ : Nat → Nat), s.ready (len2 o.q) o.q → s.fullG o.a →
    (s.gangOf s.cur).rr = 0 → (s.gangOf s.cur).det = false → s.me.ystores = [] →
    s.me.vecTouchesYard 0 0x80000 = false → s.me.phase = .idle → 1 ≤ m → m ≤ 64 → at_ 0 = (s.me.gv o.a).toNat →
    let k := s.cluster s.cur.cluster
    let word (j a n : Nat) : Nat := natOfBytes (s.mem.readN (yardBase s.cur.cluster + at_ j + a) n)
    let len (j : Nat) := word j 16 4 % 2 ^ 23
    let ssp (j : Nat) := BitVec.ofNat 2 (word j 16 4 / 2 ^ 26)
    let dsp (j : Nat) := BitVec.ofNat 2 (word j 16 4 / 2 ^ 23)
    let place (sp : BitVec 2) (x : Nat) : Nat := if sp = 3 then x % 2 ^ 56 else x
    let row (j : Nat) : CopyRow := ⟨place (ssp j) (word j 0 8), place (dsp j) (word j 8 8), len j⟩
    let good (sp : BitVec 2) (x n : Nat) : Prop :=
      (sp = 0 → x + n ≤ 2 ^ 15) ∧ (sp = 1 → x + n ≤ 2 ^ 19) ∧ (sp = 2 → x < 2 ^ 21 ∧ x % 2 ^ 15 + n ≤ 2 ^ 15) ∧
      (sp = 3 → x / 2 ^ 58 ≠ 63)
    (∀ j < m, at_ j % 32 = 0 ∧ at_ j + 32 ≤ 2 ^ 19 ∧ s.bad (yardBase s.cur.cluster + at_ j) 32 = none ∧
      word j 16 4 / 2 ^ 26 % 8 ≤ 3 ∧ word j 16 4 / 2 ^ 23 % 8 ≤ 3 ∧ word j 16 4 / 2 ^ 30 = 0 ∧ 1 ≤ len j ∧
      good (ssp j) (word j 0 8) (len j) ∧ good (dsp j) (word j 8 8) (len j) ∧
      s.me.rowWaits s.cur.station.toNat (ssp j) (dsp j) (row j) = false ∧
      word j 20 4 / 2 ^ 19 % 2 ^ 12 = 0 ∧
      (j + 1 < m → word j 20 4 = 2 ^ 31 + at_ (j + 1)) ∧ (j + 1 = m → word j 20 4 < 2 ^ 31)) →
    (s.me.hreg o.d).fill ≠ .pending → k.copies.length + m ≤ 64 → k.copyNext < 2 ^ 32 →
    ∃ (t : State) (cmds : List CopyCmd), exec (.cpyc o) s = .next t ∧ (t.cluster s.cur.cluster).copies = k.copies ++ cmds ∧ cmds.length = m ∧
      (∀ j < m, ∃ c, cmds[j]? = some c ∧ c.seq = (k.copyNext + j) % 2 ^ 32 ∧ c.core = s.cur ∧ c.ssp = ssp j ∧
        c.dsp = dsp j ∧ c.rows = [row j] ∧ c.doneWord = some (at_ j + 24) ∧
        (j + 1 < m → c.h = none ∧ c.inb = false) ∧
        (j + 1 = m → c.h = some o.d ∧ c.inb = (word j 16 4).testBit 29)) ∧
      t.me.hreg o.d = { s.me.hreg o.d with fill := .pending } ∧ t.me.g = s.me.g ∧ t.mem = s.mem

/-- cpyt and cpyc append their rows and records, as the parts named below state. -/
def Obligations.StridedAndChainedCopies : Prop :=
  Claims.StridedCopies ∧ Claims.ChainedCopies

/-- A unit of a copy command moves the bytes up to the next multiple of 64 of its destination, with their taint and
the command's, and the unit that ends the last row ends the command OK; a raised abort line ends it ABORTED, a
cancellation CANCELLED before its first unit and PARTIAL after (R182, R186, R196, R231). The command stands at a unit
boundary with nothing of it unseen (R341), and a unit that targets HBM gets its line (R329). -/
def Sys2Proof.Claims.CopyUnits : Prop :=
  ∀ (s : State) (k : ClusterId) (cmd : CopyCmd) (rest : List CopyCmd),
    (s.cluster k).copies = cmd :: rest → (∀ c ∈ rest, c.seq ≠ cmd.seq) → cmd.status = none → cmd.token = none →
    cmd.buf = [] → cmd.late = [] → cmd.pin = none →
    let i := Instr.copyUnit k cmd.seq
    let ended (st : BitVec 8) : Prop := ∃ t : State, exec i s = .next t ∧ t.mem = s.mem ∧ t.cores = s.cores ∧
      (t.cluster k).copies = { cmd with status := some st } :: rest
    ((s.cluster k).abortLine = true → ended 5) ∧
    ((s.cluster k).abortLine = false → cmd.cancelled = true → ended (if cmd.started then 8 else 2)) ∧
    (∀ r f g, (s.cluster k).abortLine = false → cmd.cancelled = false →
      cmd.rows[cmd.row]? = some r → cmd.done < r.len → (s.gangOf cmd.core).det = false →
      let src := r.src + cmd.done
      let dst := r.dst + cmd.done
      let n := min (64 - dst % 64) (r.len - cmd.done)
      -- where the bytes stand: an HBM address as it translates (a source in one line), any other in its memory
      let stands (sp : BitVec 2) (x a : Nat) (acc : Access) : Prop :=
        (sp ≠ 3 → a = copyFlat cmd.core sp x) ∧
        (sp = 3 → s.xlate (s.launchIx cmd.core) x acc = .ok a ∧ x / 64 = (x + n - 1) / 64 ∧
          sideHit (s.cluster k).copyLog x n = false)
      stands cmd.ssp src f 0 → stands cmd.dsp dst g 1 →
      (cmd.dsp = 3 → (s.launchOf cmd.core).rcd.red = false ∧ s.noCast ∧
        ((s.allocate ⟨k.die, inRdc k.die g, g / 64, false⟩).die k.die).lineWaits.contains
          ⟨k.die, inRdc k.die g, g / 64, false⟩ = false) →
      s.bad f n = none → s.badPartial g n = none →
      ∃ t : State, exec i s = .next t ∧
        (∀ i < n, t.mem.read (g + i) = s.mem.read (f + i) ∧
          Tab.get false t.taint (g + i) = (Tab.get false s.taint (f + i) || cmd.taint)) ∧
        sameBytesBut s t g n ∧
        ∃ c, (t.cluster k).copies = c :: rest ∧ c.seq = cmd.seq ∧
          (cmd.done + n < r.len → c.row = cmd.row ∧ c.done = cmd.done + n ∧ c.status = none) ∧
          (cmd.done + n = r.len → cmd.row + 1 < cmd.rows.length → c.row = cmd.row + 1 ∧ c.done = 0 ∧ c.status = none) ∧
          (cmd.done + n = r.len → cmd.row + 1 = cmd.rows.length → c.status = some 0))

/-- The oldest command that has ended leaves the engine: its handle becomes full with KIND 1, the cluster, its number
and its status, its message is posted, and its done word is written; while it runs nothing happens (R132, R181, R187,
R189). -/
def Sys2Proof.Claims.CopyCompletes : Prop :=
  ∀ (s : State) (k : ClusterId) (cmd : CopyCmd) (rest : List CopyCmd), (s.cluster k).copies = cmd :: rest →
    (cmd.status = none → exec (.copyComplete k) s = .next s) ∧
    (∀ st, cmd.status = some st → cmd.seq < 2 ^ 32 → cmd.late = [] → (∀ e ∈ (s.cluster k).copyLog, e.seq ≠ cmd.seq) →
      (s.gangOf cmd.core).det = false →
      let c := s.core cmd.core
      let w : DWord := BitVec.ofNat 64 (1 * 2 ^ 60 + k.cl.toNat * 2 ^ 48 + cmd.seq * 2 ^ 16 + st.toNat * 2 ^ 8)
      ∃ t : State, exec (.copyComplete k) s = .next t ∧ (t.cluster k).copies = rest ∧
        (∀ h, cmd.h = some h → (c.hreg h).fill = .pending →
          ((t.core cmd.core).hreg h).val = w ∧ ((t.core cmd.core).hreg h).fill = .full) ∧
        (cmd.inb = false → (t.core cmd.core).inbox = c.inbox) ∧
        (cmd.inb = true → c.inbox.length < 16 → c.held = [] →
          ∃ m, (t.core cmd.core).inbox = c.inbox ++ [m] ∧ m.hw = w ∧ m.val = 0) ∧
        (cmd.doneWord = none → t.mem = s.mem) ∧
        (∀ a, cmd.doneWord = some a →
          natOfBytes (t.mem.readN (yardBase k + a) 8) = cmd.seq + st.toNat * 2 ^ 32 + 2 ^ 40 ∧
          sameBytesBut s t (yardBase k + a) 8) ∧
        (t.core cmd.core).g = c.g ∧ (t.core cmd.core).v = c.v)

/-- A copy engine’s units and completions, as the parts named below state. -/
def Obligations.CopyEngineProgress : Prop :=
  Claims.CopyUnits ∧ Claims.CopyCompletes

/-! ### Atomics, handles, inbox, fences, streams -/

/-- aop sends one atomic to its line's home slice: the operands are read, G[D] and H[HE] become empty, and the
instruction completes; with acquire order it lasts until the atomic is performed (R190, R191). FP32 add at 8 bytes,
a null pointer and a misaligned address trap. A ramp core translates in the unit, which a fault holds and a final
refusal traps (R333, R335), and follows its own queued accesses to the line (R342). -/
def Sys2Proof.Claims.AtomicsIssue : Prop :=
  ∀ (s : State) (o : AopO), s.ready (len2 o.q) o.q →
    let k := s.me
    let p := k.gv o.a
    let va := p.toNat % 2 ^ 56
    let size := if o.sz = 1 then 8 else 4
    (∀ n : DWord, k.phase = .capture n → (∀ x ∈ k.atomics, x.num ≠ n.toNat) →
      exec (.aop o) s = .next (((s.acquireAt s.cur o.scope o.smask).modMe fun k => { k with phase := .idle }).finish
        (len2 o.q) o.q id)) ∧
    (∀ n, k.phase = .refused n → exec (.aop o) s = .next (s.takeTrap ⟨.xlateError, BitVec.ofNat 64 n⟩)) ∧
    (k.phase = .idle →
      (o.op = 10 → o.sz = 1 → exec (.aop o) s = .next (s.takeTrap ⟨.illegalOperand, 0⟩)) ∧
      (¬(o.op = 10 ∧ o.sz = 1) → s.fullG o.a → (o.op ≠ 11 → s.fullG o.b) → (o.op = 1 → s.fullG o.d) →
        (p.toNat / 2 ^ 58 = 63 → exec (.aop o) s = .next (s.takeTrap ⟨.format, p⟩)) ∧
        (p.toNat / 2 ^ 58 ≠ 63 → va % size ≠ 0 →
          exec (.aop o) s = .next (s.takeTrap ⟨.alignment, BitVec.ofNat 64 va⟩)) ∧
        (p.toNat / 2 ^ 58 ≠ 63 → va % size = 0 → s.freeG o.d → (k.hreg o.he).fill ≠ .pending →
          k.vecPending (fun v => v.touchesHbm va 1) = false →
          (o.ord.getLsbD 1 = true → k.performedAt s.cur o.scope o.smask = true) →
          (s.cur.isRamp = true → ∀ e, s.coreXlate s.cur (s.launchIx s.cur) va 2 = .error e →
            ∃ (t : State) (tok : Nat), exec (.aop o) s = .next t ∧ t.me = { k with phase := .xlate tok } ∧ t.mem = s.mem) ∧
          ((s.cur.isRamp = true → ∃ pa, s.coreXlate s.cur (s.launchIx s.cur) va 2 = .ok pa) →
          ∃ (t : State) (x : AtomicOp), exec (.aop o) s = .next t ∧ t.me.atomics = k.atomics ++ [x] ∧
            x.num = k.atomicCount ∧ x.reduction = false ∧ x.va = va ∧ x.op = o.op ∧ x.wide = (o.sz == 1) ∧
            x.d = o.d ∧ x.he = o.he ∧ x.inb = o.inb ∧ x.ct = k.ct ∧ x.token = none ∧ x.status = none ∧
            (o.op ≠ 11 → x.b = k.gv o.b ∧ x.taintB = k.gt o.b) ∧ (o.op = 1 → x.c = k.gv o.d ∧ x.taintC = k.gt o.d) ∧
            (o.d ≠ 0 → (t.me.greg o.d).fill = .pending) ∧ (t.me.hreg o.he).fill = .pending ∧
            (∀ g, g ≠ o.d → t.me.greg g = k.greg g) ∧ (∀ h, h ≠ o.he → t.me.hreg h = k.hreg h) ∧
            t.me.owed = k.owed + o.inb.toNat ∧ t.mem = s.mem ∧
            (o.ord.getLsbD 0 = true → t.me.phase = .capture (BitVec.ofNat 64 x.num) ∧ t.me.pc = k.pc)))))

/-- An atomic is performed at its home slice indivisibly (R191, R192): memory takes the new value of the operation table,
an FP32 sum rounded to nearest even for fadd, the old value sign-extended and the completion word, with KIND 2, the slice, the atomic's number and OK, go on their
way to G[D] and H[HE], all tainted; every other byte stands. The core does not record or replay, its launch is not redundant,
and tracking is off in this clause. -/
def Sys2Proof.Claims.AtomicResults : Prop :=
  ∀ (s : State) (c : CoreId) (x : AtomicOp) (rest : List AtomicOp) (pa : Nat), (s.core c).atomics = x :: rest →
    (∀ y ∈ rest, y.num ≠ x.num) → x.reduction = false → x.status = none → x.token = none →
    sideHit (s.core c).sideLog x.va x.size = false → (s.gangOf c).rr = 0 → (s.gangOf c).det = false →
    (s.launchOf c).rcd.red = false → (x.pa = none → s.xlate (s.launchIx c) x.va 2 = .ok pa) →
    (∀ p, x.pa = some p → p = pa) → s.bad pa x.size = none →
    s.noCast →
    let n := if x.wide then 8 else 4
    let w := 8 * n
    let old := natOfBytes (s.mem.readN pa n)
    let b := x.b.toNat % 2 ^ w
    let sg (v : Nat) : Int := if v < 2 ^ (w - 1) then v else (v : Int) - 2 ^ w
    let becomes (v : Nat) : Prop := ∃ t : State, exec (.atomicPerform c x.num) s = .next t ∧
      natOfBytes (t.mem.readN pa n) = v ∧ (∀ a, a < pa ∨ pa + n ≤ a → t.mem.read a = s.mem.read a) ∧
      (t.core c).atomics = rest ∧
      (t.core c).arrivals = (s.core c).arrivals ++ [.g x.d (BitVec.ofInt 64 (sg old)) true,
        .h x.he (BitVec.ofNat 64 (2 * 2 ^ 60 + homeInst pa % 4096 * 2 ^ 48 + x.num % 2 ^ 32 * 2 ^ 16)) true] ∧
      (t.core c).g = (s.core c).g ∧ (t.core c).h = (s.core c).h
    (x.op = 0 → becomes b) ∧
    (x.op = 1 → becomes (if x.c.toNat % 2 ^ w = old then b else old)) ∧
    (x.op = 2 → becomes ((old + b) % 2 ^ w)) ∧
    (x.op = 3 → becomes (old &&& b)) ∧ (x.op = 4 → becomes (old ||| b)) ∧ (x.op = 5 → becomes (old ^^^ b)) ∧
    (x.op = 6 → becomes (if sg b < sg old then b else old)) ∧ (x.op = 7 → becomes (if sg old < sg b then b else old)) ∧
    (x.op = 8 → becomes (min old b)) ∧ (x.op = 9 → becomes (max old b)) ∧
    (x.op = 10 → x.wide = false →
      becomes ((encodeRne .f32 (Val.add .rne (decodeVal .f32 old) (decodeVal .f32 b)).1).1 % 2 ^ w)) ∧
    (x.op = 11 → becomes old)

/-- Atomics: issue, and the result at the home slice, as the parts named below state. -/
def Obligations.Atomics : Prop :=
  Claims.AtomicsIssue ∧ Claims.AtomicResults

/-- The oldest result on its way to a register of a core fills it, an empty one alone, and no other (R17). -/
def Sys2Proof.Claims.ProducersFill : Prop :=
  ∀ (s : State) (c : CoreId) (rest : List Arrival),
    let k := s.core c
    ((s.core c).arrivals = [] → exec (.producerFill c) s = .next s) ∧
    (∀ n v t, k.arrivals = .g n v t :: rest → n ≠ 0 → (k.greg n).fill = .pending →
      ∃ u : State, exec (.producerFill c) s = .next u ∧ (u.core c).greg n = ⟨v, .full, t⟩ ∧
        (∀ m, m ≠ n → (u.core c).greg m = k.greg m) ∧ (u.core c).arrivals = rest ∧ (u.core c).v = k.v ∧
        (u.core c).h = k.h ∧ u.mem = s.mem) ∧
    (∀ n v t, k.arrivals = .v n v t :: rest → (k.vreg n).fill = .pending →
      ∃ u : State, exec (.producerFill c) s = .next u ∧ (u.core c).vreg n = ⟨v, .full, t⟩ ∧
        (∀ m, m ≠ n → (u.core c).vreg m = k.vreg m) ∧ (u.core c).arrivals = rest ∧ (u.core c).g = k.g ∧
        (u.core c).h = k.h ∧ u.mem = s.mem) ∧
    (∀ n v t, k.arrivals = .h n v t :: rest → (k.hreg n).fill = .pending →
      ∃ u : State, exec (.producerFill c) s = .next u ∧
        (u.core c).hreg n = ⟨v, .full, t || k.hCancelled.getLsbD n.toNat⟩ ∧
        (∀ m, m ≠ n → (u.core c).hreg m = k.hreg m) ∧ (u.core c).arrivals = rest ∧ (u.core c).g = k.g ∧
        (u.core c).v = k.v ∧ u.mem = s.mem)

/-- hwait, hmov and htest (R194, R195, R197): a full handle is copied with its taint, and a ramp core drops its L1 copies;
an empty one holds hwait and hmov, or traps where the encoding asks; hwait samples the abort line, and acquires host
memory at system scope where its mask says so (R347); htest gives whether
the handle is full, tainted while a producer has been issued since it was last waited for. -/
def Sys2Proof.Claims.HandleReads : Prop :=
  ∀ (s : State),
    let k := s.me
    let read (n : BitVec 3) : Core := { k with
      hIssued := k.hIssued &&& ~~~(1#8 <<< n.toNat), l1 := if s.cur.isRamp then [] else k.l1 }
    let full (n : BitVec 3) : Prop := (k.hreg n).fill = .full
    (∀ o : HwaitO, s.ready (len2 o.q) o.q →
      (s.aborted s.cur = true → exec (.hwait o) s = .next (s.takeTrap ⟨.aborted, 3⟩)) ∧
      (s.aborted s.cur = false → full o.a → s.freeG o.d → exec (.hwait o) s =
        (if o.scope = 5 ∧ o.smask.getLsbD 4 = true then s.seeHost else s).putCore (len2 o.q) o.q ((read o.a).writeG o.d (k.hreg o.a).val (k.hreg o.a).taint)) ∧
      (s.aborted s.cur = false → ¬full o.a → o.ta = false → exec (.hwait o) s = .next s) ∧
      (s.aborted s.cur = false → ¬full o.a → o.ta = true →
        exec (.hwait o) s = .next (s.takeTrap ⟨.emptyRead, BitVec.ofNat 64 (0x300 + o.a.toNat)⟩))) ∧
    (∀ o : HmovO, s.ready (len2 o.q) o.q → full o.a → (k.hreg o.d).fill ≠ .pending →
      exec (.hmovH o) s = s.putCore (len2 o.q) o.q ((read o.a).writeH o.d (k.hreg o.a).val (k.hreg o.a).taint)) ∧
    (∀ o : HmovG, s.ready (len2 o.q) o.q → s.fullG o.a → (k.hreg o.d).fill ≠ .pending →
      exec (.hmovG o) s = s.putCore (len2 o.q) o.q (k.writeH o.d (k.gv o.a) (k.gt o.a))) ∧
    (∀ o : HtestO, s.ready (len2 o.q) o.q → (s.gangOf s.cur).rr = 0 →
      exec (.htest o) s = s.putCore (len2 o.q) o.q
        (k.writeP o.d ((k.hreg o.a).fill == .full) (k.hIssued.getLsbD o.a.toNat)))

/-- hcancel without an outstanding producer does nothing; with one, the copy and fabric commands that would fill the
handle complete CANCELLED if they have not started, a copy that has started stops at its next unit, and the fill is
tainted (R196, R436). -/
def Sys2Proof.Claims.HandleCancels : Prop :=
  ∀ (s : State) (o : HcanO), s.ready (len2 o.q) o.q →
    let mine (c : CoreId) (h : Option (BitVec 3)) : Bool := s.cur == c && h == some o.a
    ((s.me.hreg o.a).fill ≠ .pending → exec (.hcancel o) s = .next (s.finish (len2 o.q) o.q id)) ∧
    ((s.me.hreg o.a).fill = .pending → ∃ t : State, exec (.hcancel o) s = .next t ∧
      t.me.hCancelled = s.me.hCancelled ||| (1#8 <<< o.a.toNat) ∧ sameRegs s.me t.me ∧ t.mem = s.mem ∧
      (s.cur.isRamp = false → (t.cluster s.cur.cluster).copies = (s.cluster s.cur.cluster).copies.map fun x =>
        if mine x.core x.h then { x with hTaint := true, cancelled := true,
                                         status := if x.status.isNone && !x.started then some 2 else x.status }
        else x) ∧
      (t.die s.cur.die).fab = (s.die s.cur.die).fab.map fun x =>
        if mine x.core x.h then { x with hTaint := true,
                                         status := if x.sent || x.status.isSome then x.status else some 2 }
        else x)

/-- Results that arrive, and the handle instructions, as the parts named below state. -/
def Obligations.FillsAndHandles : Prop :=
  Claims.ProducersFill ∧ Claims.HandleReads ∧ Claims.HandleCancels

/-- inbox takes the oldest message into G[D] and G[B], tainted unless it is the only one owed, is itself untainted and the form
waits: that is the model's reading of R198, log entry 34. An empty inbox gives two zeros without waiting, or waits, or traps when
nothing is owed (R132, R133, R198). The core does not record or replay here. -/
def Sys2Proof.Claims.InboxReads : Prop :=
  ∀ (s : State) (o : InboxO), s.ready (len2 o.q) o.q → (s.gangOf s.cur).rr = 0 →
    let k := s.me
    (o.d = o.b → o.d ≠ 0 → exec (.inbox o) s = .next (s.takeTrap ⟨.illegalOperand, 2⟩)) ∧
    (¬(o.d = o.b ∧ o.d ≠ 0) → s.freeG o.d → s.freeG o.b →
      (∀ m ms, k.inbox = m :: ms →
        let t := m.taint || k.owed != 1 || o.nb
        exec (.inbox o) s = s.putCore (len2 o.q) o.q
          ((({ k with inbox := ms ++ k.held.take 1, held := k.held.tail, owed := k.owed - 1,
                      l1 := if s.cur.isRamp then [] else k.l1 } : Core).writeG o.d m.hw t).writeG o.b m.val t)) ∧
      (k.inbox = [] → o.nb = true → exec (.inbox o) s = s.putCore (len2 o.q) o.q
        ((k.writeG o.d 0 (k.owed != 0)).writeG o.b 0 (k.owed != 0))) ∧
      (k.inbox = [] → o.nb = false → k.owed = 0 → exec (.inbox o) s = .next (s.takeTrap ⟨.illegalOperand, 0⟩)) ∧
      (k.inbox = [] → o.nb = false → k.owed ≠ 0 → s.aborted s.cur = true →
        exec (.inbox o) s = .next (s.takeTrap ⟨.aborted, 3⟩)) ∧
      (k.inbox = [] → o.nb = false → k.owed ≠ 0 → s.aborted s.cur = false → exec (.inbox o) s = .next s))

/-- The fences (R199): an acquire waits for the core's earlier reads and drops a ramp core's L1 copies where HBM is in
its mask, and at system scope sees the host's writes where host memory is; a release waits until its earlier accesses of
the mask are performed, but at core scope, which holds no other observer, only for the side log (R336, R338, R344); a
full fence does both. And empty
(R200): the register's full bit goes, its value and taint stand. -/
def Sys2Proof.Claims.FencesAndEmpties : Prop :=
  ∀ (s : State),
    let k := s.me
    (∀ o : FenceO, s.ready (len2 o.q) o.q →
      let go (t : State) : Out := .next (t.finish (len2 o.q) o.q id)
      let mine : State := if s.cur.isRamp && o.smask.getLsbD 2 then s.setMe { k with l1 := [] } else s
      let acquired : State := if o.scope = 5 ∧ o.smask.getLsbD 4 = true then mine.seeHost else mine
      let reads : Prop := o.smask ≠ 0 → k.vq = [] ∧ k.inflight = [] ∧ k.atomics = []
      let writes : Prop := k.vq = [] ∧ k.inflight = [] ∧ (o.smask.getLsbD 1 = true → k.ystores = []) ∧
        (o.smask.getLsbD 2 = true → k.atomics = [] ∧ k.sideLog = [])
      (reads → exec (.fenceAcq o) s = go acquired) ∧ (writes → exec (.fenceRel o) s = go s) ∧
      (reads → writes → exec (.fenceFull o) s = go acquired) ∧
      (o.smask.getLsbD 2 = true → k.atomics ≠ [] →
        (∀ i ∈ [Instr.fenceAcq o, .fenceFull o], exec i s = .next s) ∧
        (2 ≤ o.scope.toNat ∨ (o.scope = 1 ∧ s.cur.isRamp = false) → exec (.fenceRel o) s = .next s)) ∧
      (o.scope = 0 → (o.smask.getLsbD 2 = true → k.sideLog = []) → exec (.fenceRel o) s = go s)) ∧
    (∀ o : XD, s.ready (len2 o.q) o.q → s.freeG o.d →
      exec (.emptyG o) s = s.putCore (len2 o.q) o.q (k.setGreg o.d { k.greg o.d with fill := .empty })) ∧
    (∀ o : EmptyV, s.ready (len2 o.q) o.q →
      (k.portOf o.d.toNat ≠ none → exec (.emptyV o) s = .next (s.takeTrap ⟨.illegalOperand, 3⟩)) ∧
      (k.portOf o.d.toNat = none → k.vecNames o.d.toNat = false → (k.vreg o.d).fill ≠ .pending →
        exec (.emptyV o) s = s.putCore (len2 o.q) o.q (k.setVreg o.d { k.vreg o.d with fill := .empty }))) ∧
    (∀ o : EmptyH, s.ready (len2 o.q) o.q → (k.hreg o.d).fill ≠ .pending →
      exec (.emptyH o) s = s.putCore (len2 o.q) o.q (k.setHreg o.d { k.hreg o.d with fill := .empty }))

/-- The inbox, fences and empty, as the parts named below state (log entry 34). -/
def Obligations.InboxAndFences : Prop :=
  Claims.InboxReads ∧ Claims.FencesAndEmpties

/-! ### The vector unit's events -/

/-- bind on a free port register: a yard ring's descriptor is checked, its FLAGS bit is set, and the port shows the
register's value with nothing buffered (R201, R202); a ramp channel that no port holds is bound the same way (R203); a
register already bound traps with position 3. -/
def Sys2Proof.Claims.StreamBinds : Prop :=
  ∀ (s : State) (o : BindO), s.ready (len2 o.q) o.q → s.me.vecNames (12 + o.n.toNat) = false →
    let k := s.me
    let r := k.vreg (BitVec.ofNat 4 (12 + o.n.toNat))
    let cl := s.cur.cluster
    (k.portOf (12 + o.n.toNat) ≠ none → exec (.bind o) s = .next (s.takeTrap ⟨.illegalOperand, 3⟩)) ∧
    (k.portOf (12 + o.n.toNat) = none → s.fullG o.a → s.fullG o.b → r.fill ≠ .pending →
      let a := (k.gv o.a).toNat
      let b := (k.gv o.b).toNat
      let base := a % 2 ^ 19
      let lg := a / 2 ^ 20 % 16
      let ringGood : Prop := a / 2 ^ 19 % 2 = 0 ∧ a / 2 ^ 24 = 0 ∧ lg ≤ 9 ∧ base % 512 = 0 ∧ base + 512 * 2 ^ lg ≤ 2 ^ 19
      let ctlGood : Prop := b < 2 ^ 19 ∧ b % 32 = 0 ∧ (b + 32 ≤ base ∨ base + 512 * 2 ^ lg ≤ b)
      (o.kind.toNat < 2 →
        (¬ringGood → exec (.bind o) s = .next (s.takeTrap ⟨.illegalOperand, 1⟩)) ∧
        (ringGood → ¬ctlGood → exec (.bind o) s = .next (s.takeTrap ⟨.illegalOperand, 2⟩)) ∧
        (ringGood → ctlGood → k.ystores = [] → k.vecTouchesYard b 32 = false → s.bad (yardBase cl + b) 32 = none →
          let bit := if o.kind = 0 then 2 else 1
          (s.yardDword cl (b + 16) / bit % 2 = 1 ∨ s.yardDword cl (b + 24) ≠ 0 →
            exec (.bind o) s = .next (s.takeTrap ⟨.illegalOperand, 2⟩)) ∧
          (s.yardDword cl (b + 16) / bit % 2 = 0 → s.yardDword cl (b + 24) = 0 →
            ∃ t : State, exec (.bind o) s = .next t ∧
              t.me.portOf (12 + o.n.toNat) = some {
                kind := if o.kind = 0 then .yin else .yout, base := base,
                log2n := lg, ctl := b, ramp := 0, chan := 0, buf := [], last := r.val, lastTaint := r.taint } ∧
              t.yardDword cl (b + 16) = s.yardDword cl (b + 16) + bit ∧
              sameBytesBut s t (yardBase cl + b + 16) 8 ∧ sameRegs k t.me))) ∧
      (2 ≤ o.kind.toNat → a / 2 ^ 7 % 2 = 0 → a / 2 ^ 12 = 0 → b = 0 →
        s.channelPort s.cur.die (BitVec.ofNat 7 a) (BitVec.ofNat 4 (a / 2 ^ 8)) = none →
        ∃ t : State, exec (.bind o) s = .next t ∧
          t.me.portOf (12 + o.n.toNat) = some {
            kind := if o.kind = 2 then .rin else .rout, base := 0, log2n := 0,
            ctl := 0, ramp := BitVec.ofNat 7 a, chan := BitVec.ofNat 4 (a / 2 ^ 8), buf := [], last := r.val,
            lastTaint := r.taint } ∧ t.mem = s.mem ∧ sameRegs k t.me))

/-- unbind of an unbound register gives 0; an output port waits until its elements have left; a released port's register
holds the last element that passed, full, G[D] counts what an input channel still held, and a yard ring's FLAGS bit is
cleared (R135, R204). -/
def Sys2Proof.Claims.StreamUnbinds : Prop :=
  ∀ (s : State) (o : UnbindO), s.ready (len2 o.q) o.q → s.freeG o.d → s.me.vecNames (12 + o.n.toNat) = false →
    let k := s.me
    let cl := s.cur.cluster
    (k.portOf (12 + o.n.toNat) = none → exec (.unbind o) s = s.putCore (len2 o.q) o.q (k.writeG o.d 0 false)) ∧
    (∀ p, k.portOf (12 + o.n.toNat) = some p →
      ((p.kind = .yout ∨ p.kind = .rout) → p.buf ≠ [] → exec (.unbind o) s = .next s) ∧
      (¬((p.kind = .yout ∨ p.kind = .rout) ∧ p.buf ≠ []) → ∃ t : State, exec (.unbind o) s = .next t ∧
        t.me.portOf (12 + o.n.toNat) = none ∧
        t.me.vreg (BitVec.ofNat 4 (12 + o.n.toNat)) = ⟨p.last, .full, p.lastTaint⟩ ∧
        (∀ n, n ≠ BitVec.ofNat 4 (12 + o.n.toNat) → t.me.vreg n = k.vreg n) ∧
        t.me.greg o.d = (k.writeG o.d (BitVec.ofNat 64 (if p.kind = .rin then p.buf.length else 0))
          (p.kind == .rin)).greg o.d ∧ (∀ g, g ≠ o.d → t.me.greg g = k.greg g) ∧
        ((p.kind = .rin ∨ p.kind = .rout) → t.mem = s.mem) ∧
        (∀ bit, (p.kind = .yout ∧ bit = 1) ∨ (p.kind = .yin ∧ bit = 2) →
          t.yardDword cl (p.ctl + 16) = s.yardDword cl (p.ctl + 16)
            - bit * (s.yardDword cl (p.ctl + 16) / bit % 2) ∧
          sameBytesBut s t (yardBase cl + p.ctl + 16) 8)))

/-- An output port with an element and room in its ring writes it at WCOUNT's place and then counts it; an input port with
room reads ahead the next counted element, tainted as its bytes and the counts are; neither moves otherwise (R202).
Tracking (R353) is off in the clauses that move an element. -/
def Sys2Proof.Claims.StreamElements : Prop :=
  ∀ (s : State) (c : CoreId) (n : BitVec 2) (p : Port), (s.core c).portOf (12 + n.toNat) = some p →
    let cl := c.cluster
    let wc := s.yardDword cl p.ctl
    let rc := s.yardDword cl (p.ctl + 8)
    (p.kind = .yout → (s.gangOf c).det = false → ∀ x rest, p.buf = x :: rest →
      (rc + 2 ^ p.log2n ≤ wc → exec (.youtElementWrite c n) s = .next s) ∧
      (wc < rc + 2 ^ p.log2n → wc + 1 < 2 ^ 64 → (p.ctl + 32 ≤ p.base ∨ p.base + 512 * 2 ^ p.log2n ≤ p.ctl) →
        let a := yardBase cl + p.base + 512 * (wc % 2 ^ p.log2n)
        ∃ t : State, exec (.youtElementWrite c n) s = .next t ∧
          (∀ i < 512, t.mem.read (a + i) = x.1.extractLsb' (8 * i) 8 ∧ Tab.get false t.taint (a + i) = x.2) ∧
          t.yardDword cl p.ctl = wc + 1 ∧ (t.core c).portOf (12 + n.toNat) = some { p with buf := rest } ∧
          sameRegs (s.core c) (t.core c) ∧
          ∀ y, (y < a ∨ a + 512 ≤ y) → (y < yardBase cl + p.ctl ∨ yardBase cl + p.ctl + 8 ≤ y) →
            t.mem.read y = s.mem.read y)) ∧
    (p.kind = .yin → (s.gangOf c).det = false →
      let i := rc + p.buf.length
      let a := yardBase cl + p.base + 512 * (i % 2 ^ p.log2n)
      (2 ≤ p.buf.length ∨ wc ≤ i → exec (.yinReadAhead c n) s = .next s) ∧
      (p.buf.length < 2 → i < wc → s.bad a 512 = none →
        ∃ (t : State) (v : VWord) (tn : Bool), exec (.yinReadAhead c n) s = .next t ∧
          (t.core c).portOf (12 + n.toNat) = some { p with buf := p.buf ++ [(v, tn)] } ∧
          (∀ j < 512, v.extractLsb' (8 * j) 8 = s.mem.read (a + j)) ∧
          (tn = true ↔ (∃ j < 512, Tab.get false s.taint (a + j) = true) ∨
            ∃ j < 16, Tab.get false s.taint (yardBase cl + p.ctl + j) = true) ∧ t.mem = s.mem ∧
          sameRegs (s.core c) (t.core c)))

/-- Stream ports: bind, unbind and element transfer, as the parts named below state. -/
def Obligations.StreamPorts : Prop :=
  Claims.StreamBinds ∧ Claims.StreamUnbinds ∧ Claims.StreamElements

/-- One arbitration of an idle unit with one eligible head grants it min(4, MAXLG) lane groups for the cycles its bytes
need, leaves its destination empty and its result due after its latency, and counts SERVICE (R137, R138, R139, R156); shown on
an integer instruction. -/
def Sys2Proof.Claims.VectorGrants : Prop :=
  ∀ (s : State) (u : SvuId) (c : CoreId) (e : VEntry) (f : IFn) (sat : Bool), c ∈ u.cores →
    (∀ d ∈ u.cores, d ≠ c → (s.core d).vq = []) → (∀ d ∈ u.cores, (s.core d).inflight = []) →
    (s.core c).vq = [e] → e.op.kind = .int f sat → e.op.t.isInt = true → s.eligible c e = true → s.checkFail = none →
    (s.core c).portOf e.op.a = none → (s.core c).portOf e.op.b = none → (s.core c).portOf e.op.d = none →
    e.op.d < 16 → (c.isRamp = false → 1 ≤ (s.core c).maxlg.toNat ∧ (s.core c).maxlg.toNat ≤ 4) →
    let n := if c.isRamp then 4 else (s.core c).maxlg.toNat
    let hold := (512 + 16 * n - 1) / (16 * n)
    ∃ (t : State) (i : InFlight), exec (.vectorGrant u) s = .next t ∧ (t.core c).vq = [] ∧ (t.core c).inflight = [i] ∧
      i.ent.op = e.op ∧ i.lanes = n ∧ i.freeAt = s.clock + hold ∧ i.due = s.clock + hold + 1 - 1 ∧
      i.writes = ((s.core c).vecRun e ((s.core c).entryTaint e)).1 ∧
      ((t.core c).vreg (BitVec.ofNat 4 e.op.d)).fill = .pending ∧
      (∀ m, m.toNat ≠ e.op.d → (t.core c).vreg m = (s.core c).vreg m) ∧
      (t.core c).service.toNat = min ((s.core c).service.toNat + n * hold) (2 ^ 32 - 1) ∧
      (t.core c).g = (s.core c).g ∧ (t.core c).m = (s.core c).m ∧ (t.svu u).lastSlot = some c.slot ∧ t.mem = s.mem

/-- An eligible head counts the cycles it has waited and is aged while they reach the unit's AGE now in force, unless AGE is
0; a head that is not eligible does not age (R139). -/
def Sys2Proof.Claims.HeadsAge : Prop :=
  ∀ (s : State) (c : CoreId),
    ((s.core c).vq = [] → exec (.headAged c) s = .next s) ∧
    (∀ e es, (s.core c).vq = e :: es →
      (s.eligible c e = false → exec (.headAged c) s = .next s) ∧
      (s.eligible c e = true →
        let since := e.since.getD s.clock
        let age := (s.svu c.unit).age.toNat
        let e' : VEntry := { e with since := some since, aged := age != 0 && decide (since + age ≤ s.clock) }
        exec (.headAged c) s = .next (s.setCore c { s.core c with vq := e' :: es })))

/-- A trap of a vector instruction is delivered at the core's next unit boundary: the registers, the local bytes, the yard
stores not yet performed and the station queue are those at the trapping unit, and the trap of that unit is taken (R33, R34, R149); that a created
task taken meanwhile goes back to the front of the station queue is the model's choice: log entry 18. -/
def Sys2Proof.Claims.VectorTrapsDelivered : Prop :=
  ∀ (s : State) (c : CoreId),
    ((s.core c).pendingTrap = none → exec (.vectorTrapDelivery c) s = .next s) ∧
    ((s.core c).midUnit = true → exec (.vectorTrapDelivery c) s = .next s) ∧
    (∀ x e, (s.core c).pendingTrap = some (x, e) → (s.core c).park = none → (s.core c).midUnit = false → x.cause ≠ .pipeCheck →
      let p : Park := { cause := x.cause, value := x.value, pc := e.pc, w0 := e.w0, w1 := e.w1, seqn := e.snap.seqn,
                        second := false }
      ∃ t : State, exec (.vectorTrapDelivery c) s = .next t ∧ (t.core c).park = some p ∧
        (t.core c).running = false ∧ (t.core c).pendingTrap = none ∧ (t.core c).tiPc = e.pc ∧
        (t.core c).tiValid = true ∧ (t.core c).tiCause = x.cause.code ∧
        (t.core c).g = e.snap.g ∧ (t.core c).v = e.snap.v ∧ (t.core c).m = e.snap.m ∧ (t.core c).p = e.snap.p ∧
        (t.core c).h = e.snap.h ∧ (t.core c).w = e.snap.w ∧ (t.core c).lfsr = e.snap.lfsr ∧ (t.core c).fx = e.snap.fx ∧
        (t.core c).ystores = (s.core c).ystores.take ((s.core c).ystores.length - e.stores) ∧
        (t.core c).stationQ = e.taken ++ (s.core c).stationQ ∧
        (∀ (us : List UndoWord) (u : UndoWord), e.undo = us ++ [u] →
          ∀ j < u.bytes.length, t.mem.read (localBase c + u.addr + j) = (u.bytes.map Prod.fst).getD j 0) ∧
        (∀ y, (∀ u ∈ e.undo, y < localBase c + u.addr ∨ localBase c + u.addr + u.bytes.length ≤ y) →
          t.mem.read y = s.mem.read y) ∧
        Tab.get [] t.supMail c.die.toNat = Tab.get [] s.supMail c.die.toNat ++ [.trap c p (s.launchIx c)])

/-- Arbitration of a shared vector unit, ageing, and late traps, as the parts named below state (log entry 18). -/
def Obligations.SharedVectorUnit : Prop :=
  Claims.VectorGrants ∧ Claims.HeadsAge ∧ Claims.VectorTrapsDelivered

/-! ### The supervisor, the watchdog and the end of a core's part -/

/-- What a supervisor does with a parked core of a running launch (R35, R36, R38, R119, R150): the action is POLICY's for the
cause, or the cause's default where that is 0, and a second PIPE_CHECK in its window kills. Kill ends the launch KILLED, the
dies that finished before it having finished DONE; retry runs the trapping unit again, or the wait inside it that a
watchdog ended, and resume goes on after it, both counting ATTEMPT; leave ends the core's part, its inbox discarded. A core that is
not parked is left alone. -/
def Sys2Proof.Claims.SupervisorActions : Prop :=
  ∀ (s : State) (c : CoreId),
    ((s.core c).park = none → ∀ i ∈ [Instr.supervisorKill c, .supervisorRetry c, .supervisorResume c, .supervisorLeave c],
      exec i s = .next s) ∧
    (∀ p, (s.core c).park = some p → (s.launchOf c).state = .running →
      let k := s.core c
      let l := s.launchIx c
      let field := (s.launchOf c).rcd.policy.toNat / 2 ^ (3 * (p.cause.code.toNat - 1)) % 8
      let named := if field = 0 then
          (if p.cause ∈ [Cause.pipeCheck, .localUncorrectable, .yardUncorrectable, .hbmUncorrectable] then 2
           else if p.cause = .aborted then 5 else if p.cause = .dualMismatch then 6 else 1)
        else field
      let action := if p.second then 1 else if p.cause = .watchdog ∧ named = 4 ∧ k.wdogResumed = true then 1 else named
      let again (pc : Word) (ph : Phase) (dog : Bool) : Core := { k with
        pc := pc, park := none, phase := ph, running := p.cause != .dualMismatch || (s.gangOf c).arrived.contains c,
        tiAttempt := if k.tiAttempt = 255 then 255 else k.tiAttempt + 1,
        taskStart := if p.cause = .watchdog then s.clock else k.taskStart, wdogResumed := dog }
      (action = 1 → (∀ d y, Tab.get none (s.launch l).shares d = some y → y.status = 0) →
        ∃ t : State, exec (.supervisorKill c) s = .next t ∧ (t.launch l).state = .ended 1 ∧
        t.mem = s.mem ∧ t.cores = s.cores) ∧
      (action = 3 → (∀ e ∈ k.sideLog, e.refused = none) → ∃ t : State, exec (.supervisorRetry c) s = .next t ∧
        t.core c = again k.pc k.phase k.wdogResumed ∧ t.mem = s.mem) ∧
      (action = 4 → ∀ n, s.seqAt c = some (n, .next) → k.rpt = none → k.frameBreach k.pc.toNat n false = false →
        ∃ t : State, exec (.supervisorResume c) s = .next t ∧
          t.core c = again (BitVec.ofNat 32 (k.pc.toNat + 4 * n)) .idle (p.cause == .watchdog || k.wdogResumed) ∧
          t.mem = s.mem) ∧
      (action = 5 → (∃ d ∈ (s.gangOf c).members, coreNum d ≠ coreNum c ∧ s.ended d = false) →
        (s.launchOf c).rcd.red = false → ∃ t : State, exec (.supervisorLeave c) s = .next t ∧
          t.core c = { k with park := none, running := false, left := true, phase := .idle, stationQ := [],
                              routines := [], inbox := [], held := [] } ∧
          t.mem = s.mem) ∧
      (∀ i a, (i, a) ∈ [(Instr.supervisorKill c, 1), (.supervisorRetry c, 3), (.supervisorResume c, 4),
        (.supervisorLeave c, 5)] → action ≠ a → exec i s = .next s))

/-- The watchdog traps a task whose cycles have reached the launch's limit, with the cycles as value, and no other, unless a
trap of higher rank is due (R36, R37), ATTEMPT going on where the last trap had the same PC and cause, which is the model's
reading: log entry 61; a core's part ends when R22 lets it, and not before, its inbox discarded
(R132); a word of the code image reaches the core's instruction store, in place of another where its 2,048 words are
taken (R125). -/
def Sys2Proof.Claims.TaskEvents : Prop :=
  ∀ (s : State) (c : CoreId),
    let k := s.core c
    let limit := (s.launchOf c).rcd.wdog
    let due : Prop := k.running = true ∧ k.park = none ∧ k.pendingTrap = none ∧ k.lateTrap = none ∧
      (s.launchOf c).state = .running ∧ limit ≠ 0 ∧ limit ≤ s.clock - k.taskStart
    (¬due → exec (.watchdog c) s = .next s) ∧
    (due → ∃ (t : State) (w0 w1 : Word), exec (.watchdog c) s = .next t ∧
      t.core c = { k with
        running := false, tiPc := k.pc, tiValid := true, tiCause := 0x0F,
        tiAttempt := if k.tiValid && k.tiPc == k.pc && k.tiCause == 0x0F then k.tiAttempt else 0,
        park := some { cause := .watchdog, value := BitVec.ofNat 64 (s.clock - k.taskStart), pc := k.pc, w0 := w0,
                       w1 := w1, seqn := k.seqn, second := false } } ∧ t.mem = s.mem) ∧
    (s.partDone c = false → exec (.corePartEnd c) s = .next s) ∧
    (s.partDone c = true → (∃ d ∈ (s.gangOf c).members, coreNum d ≠ coreNum c ∧ s.ended d = false) →
      (s.launchOf c).rcd.red = false → ∃ t : State, exec (.corePartEnd c) s = .next t ∧
        t.core c = { k with partEnded := true, inbox := [], held := [] } ∧ t.mem = s.mem) ∧
    (∀ a : Word, a.toNat + 4 ≤ s.codeLen c →
      ∃ t : State, exec (.codeFetchFill c a) s = .next t ∧ t.mem = s.mem ∧
        Tab.get none (t.core c).istore a.toNat = some (s.imageWord c a.toNat) ∧
        (∀ b, b ≠ a.toNat → Tab.get none (t.core c).istore b = Tab.get none k.istore b ∨
          2048 ≤ k.istore.length ∧ Tab.get none (t.core c).istore b = none)) ∧
    (∀ a : Word, s.codeLen c < a.toNat + 4 → exec (.codeFetchFill c a) s = .next s)

/-- The supervisor’s actions, the watchdog, a core’s end and code fetch, as the parts named below state (log entry
61). -/
def Obligations.SupervisorAndTaskEvents : Prop :=
  Claims.SupervisorActions ∧ Claims.TaskEvents

/-- join, leave and bar (R226 to R228, R249 to R251): an undeclared convoy and one the core has not joined trap; a join
enters the members, mustering the convoy when they reach EXPECT; a leave withdraws; bar arrives, waits, and gives the
generation number when its generation completes. -/
def Sys2Proof.Claims.Convoys : Prop :=
  ∀ (s : State),
    let c := s.cur
    let l := s.launchIx c
    let at_ (id : BitVec 12) : Option Convoy := Tab.get none (s.launchOf c).convoys (c.die.toNat * 4096 + id.toNat)
    let now (t : State) (id : BitVec 12) : Option Convoy := Tab.get none (t.launch l).convoys (c.die.toNat * 4096 + id.toNat)
    (∀ o : ConvO, s.ready (len2 o.q) o.q →
      (o.id = 0 ∨ at_ o.id = none → ∀ i ∈ [Instr.join o, .leave o],
        exec i s = .next (s.takeTrap ⟨.illegalOperand, 0⟩)) ∧
      (∀ v, o.id ≠ 0 → at_ o.id = some v →
        (∃ (t : State) (w : Convoy), exec (.join o) s = .next t ∧ now t o.id = some w ∧ t.mem = s.mem ∧
          sameRegs s.me t.me ∧ (c ∈ v.members → w = v) ∧
          (c ∉ v.members → w.members = v.members ++ [c] ∧
            w.mustered = (v.mustered || decide (v.expect ≤ v.members.length + 1)) ∧ w.gen = v.gen ∧
            w.arrived = v.arrived ∧
            w.required = (if v.isOpen && !v.mustered then v.required ++ [c] else v.required))) ∧
        ∃ (t : State) (w : Convoy), exec (.leave o) s = .next t ∧ now t o.id = some w ∧ t.mem = s.mem ∧
          sameRegs s.me t.me ∧ w.members = v.members.erase c ∧ w.required = v.required.erase c ∧
          w.arrived = v.arrived.erase c ∧ w.gen = v.gen ∧
          w.mustered = (v.mustered && !(v.members.erase c).isEmpty))) ∧
    (∀ o : BarO, s.ready (len2 o.q) o.q →
      (∀ v, s.me.phase = .idle → o.id ≠ 0 → at_ o.id = some v → c ∈ v.members → s.aborted c = false →
        s.me.performedAt c o.scope o.smask = true → ∃ (t : State) (w : Convoy), exec (.bar o) s = .next t ∧
          now t o.id = some w ∧ t.me = { s.me with phase := .bar o.id.toNat v.gen.toNat } ∧ t.mem = s.mem ∧
          w.gen = v.gen ∧ w.members = v.members ∧
          (v.isOpen = false → w.isOpen = true ∧ w.required = v.members ∧ w.arrived = [c]) ∧
          (v.isOpen = true → c ∈ v.required → w.arrived = v.arrived ++ [c]) ∧
          (v.isOpen = true → c ∉ v.required → w.nextArrived = v.nextArrived ++ [c])) ∧
      (∀ v, s.me.phase = .idle → o.id ≠ 0 → at_ o.id = some v → c ∉ v.members →
        exec (.bar o) s = .next (s.takeTrap ⟨.illegalOperand, 0⟩)) ∧
      (∀ a b, s.me.phase = .bar a b → s.aborted c = true → exec (.bar o) s = .next (s.takeTrap ⟨.aborted, 1⟩)) ∧
      (∀ a b, s.me.phase = .bar a b → s.aborted c = false → exec (.bar o) s = .next s) ∧
      (∀ n, s.me.phase = .barDone n → s.freeG o.d → exec (.bar o) s =
        (if o.scope = 5 ∧ o.smask.getLsbD 4 = true then s.seeHost else s).putCore (len2 o.q) o.q
        (({ s.me with phase := .idle, l1 := if c.isRamp && o.smask.getLsbD 2 then [] else s.me.l1 } : Core).writeG o.d
          (BitVec.ofNat 64 n.toNat) false)))

/-- A generation completes when its convoy is mustered and every required member has arrived: GEN counts, its waiting
members are released with the new number, and arrivals made in the next generation open it (R228). -/
def Sys2Proof.Claims.Generations : Prop :=
  ∀ (s : State) (l : Nat) (d : BitVec 4) (id : BitVec 12) (v : Convoy),
    Tab.get none (s.launch l).convoys (d.toNat * 4096 + id.toNat) = some v →
    let done : Prop := v.isOpen = true ∧ v.mustered = true ∧ ∀ c ∈ v.required, c ∈ v.arrived
    (¬done → exec (.generationComplete l d id) s = .next s) ∧
    (done → ∃ (t : State) (w : Convoy), exec (.generationComplete l d id) s = .next t ∧
      Tab.get none (t.launch l).convoys (d.toNat * 4096 + id.toNat) = some w ∧
      w.gen = v.gen + 1 ∧ w.members = v.members ∧ w.mustered = true ∧ w.arrived = v.nextArrived ∧ w.nextArrived = [] ∧
      w.isOpen = !v.nextArrived.isEmpty ∧ t.mem = s.mem ∧
      (∀ c ∈ v.arrived, ∀ a b, (s.core c).phase = .bar a b →
        t.core c = { s.core c with phase := .barDone (v.gen + 1) }) ∧
      ∀ c, (∀ a ∈ v.arrived, coreNum a ≠ coreNum c) → t.core c = s.core c)

/-- Convoys: join, leave, bar and the completion of a generation, as the parts named below state. -/
def Obligations.ConvoysAndGenerations : Prop :=
  Claims.Convoys ∧ Claims.Generations

/-- abort raises its launch's line and goes on; the line reaches a cluster of the launch, whose station queues are
discarded; abchk traps where the line has arrived and does nothing elsewhere (R229 to R231, R252). -/
def Sys2Proof.Claims.AbortLine : Prop :=
  ∀ (s : State),
    (∀ (o : XQ) (x : Launch), s.ready (len2 o.q) o.q → Tab.get none s.launches (s.launchIx s.cur) = some x →
      ∃ t : State, exec (.abort o) s = .next t ∧ t.launchOf s.cur = { x with abort := true } ∧ sameRegs s.me t.me ∧
        t.mem = s.mem) ∧
    (∀ o : XQ, s.ready (len2 o.q) o.q →
      exec (.abchk o) s = if s.aborted s.cur then .next (s.takeTrap ⟨.aborted, 2⟩)
        else .next (s.finish (len2 o.q) o.q id)) ∧
    (∀ l k, ((s.launch l).abort = false ∨ s.clusterLaunch k ≠ l ∨ (s.cluster k).abortLine = true) →
      exec (.abortLineArrival l k) s = .next s) ∧
    (∀ l k, (s.launch l).abort = true → s.clusterLaunch k = l → (s.cluster k).abortLine = false →
      ∃ t : State, exec (.abortLineArrival l k) s = .next t ∧ (t.cluster k).abortLine = true ∧
        (∀ st : BitVec 6, (t.core (.ord k.die k.cl st)).stationQ = [] ∧
          sameRegs (s.core (.ord k.die k.cl st)) (t.core (.ord k.die k.cl st))) ∧ t.mem = s.mem)

/-- sstep arrives at its gang's barrier once the core's producers have filled and its accesses are performed, waits, and gives
the completed superstep's number; trig marks its core (R253, R255). A barrier at which every member has arrived or ended
completes: SSTEPNO counts, shadows empty, every member's registers are its checkpoint, and the waiting members go on; it
does not complete before. -/
def Sys2Proof.Claims.SuperstepBarrier : Prop :=
  ∀ (s : State),
    (∀ o : XD, s.ready (len2 o.q) o.q →
      let c := s.cur
      (∀ n, s.me.phase = .sstepDone n → s.freeG o.d → exec (.sstep o) s = s.putCore (len2 o.q) o.q
        (({ s.me with phase := .idle } : Core).writeG o.d (BitVec.ofNat 64 n.toNat) false)) ∧
      (s.me.phase = .sstep → exec (.sstep o) s = if s.aborted c then .next (s.takeTrap ⟨.aborted, 1⟩) else .next s) ∧
      (s.me.phase = .idle → s.aborted c = true → exec (.sstep o) s = .next (s.takeTrap ⟨.aborted, 1⟩)) ∧
      (∀ x, s.me.phase = .idle → s.aborted c = false → s.producersDone c = true → s.me.performed 7 = true →
        (c.isRamp = false → (s.cluster c.cluster).ring.state ≠ .running) →
        Tab.get none s.launches (s.launchIx c) = some x → s.me.gang < x.gangs.length →
        ∃ t : State, exec (.sstep o) s = .next t ∧ t.me = { s.me with phase := .sstep } ∧
          (t.gangOf c).arrived = (s.gangOf c).arrived ++ [c] ∧ t.mem = s.mem)) ∧
    (∀ (o : XQ) (x : Launch), s.ready (len2 o.q) o.q → s.me.performed 6 = true →
      Tab.get none s.launches (s.launchIx s.cur) = some x → s.me.gang < x.gangs.length →
      ∃ t : State, exec (.trig o) s = .next t ∧ s.cur ∈ (t.gangOf s.cur).triggered ∧ sameRegs s.me t.me ∧ t.mem = s.mem) ∧
    (∀ (l g : Nat) (x : Launch) (y : Gang), Tab.get none s.launches l = some x → x.gangs[g]? = some y →
      x.rcd.red = false → y.partner = false → y.thirdOf = none → y.disagree = [] →
      let ready : Prop := y.placed = true ∧ y.arrived ≠ [] ∧ ∀ c ∈ y.members, c ∈ y.arrived ∨ s.ended c = true
      (¬ready → exec (.sstepComplete l g) s = .next s) ∧
      (ready → y.rolling = none → x.cutSteps = [] → s.noCast → (∀ c ∈ y.members, c ∈ y.allCores) →
        ∃ t : State, exec (.sstepComplete l g) s = .next t ∧ t.mem = s.mem ∧
          ((t.launch l).gang g).sstep = y.sstep + 1 ∧ ((t.launch l).gang g).arrived = [] ∧
          (∀ c ∈ y.members, (t.core c).ckpt = some (s.core c).toRegs ∧ (t.core c).shadow = [] ∧
            (t.core c).toRegs = (s.core c).toRegs ∧
            ((s.core c).phase = .sstep → (t.core c).phase = .sstepDone (y.sstep + 1)))))

/-- The abort line and the superstep barrier, as the parts named below state. -/
def Obligations.AbortsAndSupersteps : Prop :=
  Claims.AbortLine ∧ Claims.SuperstepBarrier

/-! ### The carriageway -/

/-- rinj at the own station, rinjr at a station of a cluster of the launch (R209, R211, R239 to R241): the payload's 1,024
local bytes, the header and the coordinate become a tile, which takes the through position if it is free and no queued tile
stands to enter it, else the lowest free lay-by slot, queued, or waits in the instruction, as it does for a queued tile that
enters first; the first injection of a load starts it. A header with HOPS 0 or a
reserved bit, and a tainted or malformed coordinate, trap. -/
def Obligations.TilesInjected : Prop :=
  ∀ (s : State) (q : Seq) (a b d : BitVec 5) (ta tb td : Bool) (fam : BitVec 1) (cl : BitVec 10) (st : BitVec 6),
    s.ready (len2 q) q → s.me.phase = .idle → s.fullG a → s.fullG b → s.fullG d →
    (s.occupies ⟨s.cur.die, cl⟩ = false →
      exec (.rinjr ⟨q, d, a, b, ta, tb, td, fam, cl, st⟩) s = .next (s.takeTrap ⟨.illegalOperand, 0⟩)) ∧
    ∀ x ∈ [(Instr.rinj ⟨q, d, a, b, ta, tb, td, fam⟩, s.cur.cluster, s.cur.station),
        (.rinjr ⟨q, d, a, b, ta, tb, td, fam, cl, st⟩, ⟨s.cur.die, cl⟩, st)],
      (x.1 = .rinjr ⟨q, d, a, b, ta, tb, td, fam, cl, st⟩ → s.occupies ⟨s.cur.die, cl⟩ = true) →
      let f : Fam := if fam = 0 then .a else .b
      let y := s.cluster x.2.1
      let p := y.ring.places f x.2.2.toNat
      let addr := (s.me.gv a).toNat
      let hw := s.me.gv b
      let cw := s.me.gv d
      let starts := y.ring.state = .idle ∨ y.ring.state = .done
      (0x7C00 < addr → exec x.1 s = .next (s.takeTrap ⟨.illegalOperand, 1⟩)) ∧
      (addr ≤ 0x7C00 → addr % 64 ≠ 0 → exec x.1 s = .next (s.takeTrap ⟨.alignment, BitVec.ofNat 64 addr⟩)) ∧
      (addr ≤ 0x7C00 → addr % 64 = 0 →
        (hw.extractLsb' 56 8 ≠ 0 ∨ hw.extractLsb' 48 8 = 0 ∨ s.me.gt b = true ∨ s.me.ct = true) →
        exec x.1 s = .next (s.takeTrap ⟨.illegalOperand, 2⟩)) ∧
      (addr ≤ 0x7C00 → addr % 64 = 0 → hw.extractLsb' 56 8 = 0 → hw.extractLsb' 48 8 ≠ 0 → s.me.gt b = false →
        s.me.ct = false →
        (cw.extractLsb' 48 16 ≠ 0 ∨ s.me.gt d = true → exec x.1 s = .next (s.takeTrap ⟨.illegalOperand, 3⟩)) ∧
        (cw.extractLsb' 48 16 = 0 → s.me.gt d = false → ¬starts → y.ring.inj = 65535 → y.abortLine = false →
          exec x.1 s = .next (s.takeTrap ⟨.illegalOperand, 0⟩)) ∧
        (cw.extractLsb' 48 16 = 0 → s.me.gt d = false → (¬starts → y.ring.inj ≠ 65535) →
          s.me.vecTouchesLocal addr 1024 = false → s.bad (localBase s.cur + addr) 1024 = none →
          (s.gangOf s.cur).det = false → y.abortLine = false →
          ∃ (t : State) (n : Tile), exec x.1 s = .next t ∧ t.mem = s.mem ∧ sameRegs s.me t.me ∧
            n.hdr = { tag := hw.extractLsb' 0 32, toll := hw.extractLsb' 32 16, hops := hw.extractLsb' 48 8,
                      origin := x.2.2, fam := f, i := cw.extractLsb' 0 16, j := cw.extractLsb' 16 16,
                      k := cw.extractLsb' 32 16, seq := BitVec.ofNat 32 p.injected } ∧
            (∀ i < 1024, n.pay.bytes.extractLsb' (8 * i) 8 = s.mem.read (localBase s.cur + addr + i)) ∧
            let placed (w : Places) : Prop := (t.cluster x.2.1).ring.places f x.2.2.toNat = w ∧
              (t.cluster x.2.1).ring.inj = (if y.ring.state = .idle ∨ y.ring.state = .done then 0 else y.ring.inj) + 1 ∧
              (t.cluster x.2.1).ring.state = (if y.ring.state = .idle ∨ y.ring.state = .done then .loading
                else y.ring.state)
            let q' : Places := { p with injected := p.injected + 1 }
            let first : Bool := s.entryDue x.2.1 f x.2.2.toNat
            let through : Prop := y.ring.throughFree f x.2.2.toNat = true ∧
              ∀ u, p.lay0 ≠ some (u, .queued) ∧ p.lay1 ≠ some (u, .queued)
            (first = false → through → placed { q' with through := some n }) ∧
            (first = false → ¬through → p.lay0 = none → placed { q' with lay0 := some (n, .queued) }) ∧
            (first = false → ¬through → p.lay0 ≠ none → p.lay1 = none →
              placed { q' with lay1 := some (n, .queued) }) ∧
            (first = true ∨ (¬through ∧ p.lay0 ≠ none ∧ p.lay1 ≠ none) →
              t.me = { s.me with phase := .tile n.pay } ∧ t.clusters = s.clusters)))

/-- rpark moves the through tile into the lowest free lay-by slot, parked; runpark makes a parked tile queued; rtire
retires the tile of a place; each gives the found word of its tile, tainted while the ring is RUNNING, and 0 where there is
none to move (R242, R243). A queued tile that stands to enter its through position goes first (R211); on a beat-locked
running ring with tiles on links they wait for the beat boundary. -/
def Sys2Proof.Claims.RingRequests : Prop :=
  ∀ (s : State) (q : Seq) (d : BitVec 5) (fam : BitVec 1) (slot : BitVec 1) (place : BitVec 2), s.ready (len2 q) q →
    s.freeG d → s.me.phase = .idle →
    let k := s.cur.cluster
    let st := s.cur.station.toNat
    let f : Fam := if fam = 0 then .a else .b
    let r := (s.cluster k).ring
    let p := r.places f st
    let park := Instr.rpark ⟨q, d, fam⟩
    let unpark := Instr.runpark ⟨q, d, fam, slot⟩
    let retire := Instr.rtire ⟨q, d, fam, place⟩
    let found (t : Tile) : DWord := BitVec.ofNat 64 (2 ^ 63 + (if t.hdr.fam = .b then 2 ^ 62 else 0)
      + t.hdr.origin.toNat * 2 ^ 56 + t.hdr.hops.toNat * 2 ^ 48 + t.hdr.toll.toNat * 2 ^ 32 + t.hdr.tag.toNat)
    let locked : Prop := r.state = .running ∧ r.fault = false ∧ r.elastic = false ∧ r.flying ≠ []
    let gives (i : Instr) (w : DWord) (g : Places → Prop) : Prop := ∃ t : State, exec i s = .next t ∧
      t.me.greg d = (s.me.writeG d w (r.state == .running)).greg d ∧ (∀ n, n ≠ d → t.me.greg n = s.me.greg n) ∧
      g ((t.cluster k).ring.places f st) ∧ t.mem = s.mem
    (s.entryDue k f st = true → ∀ i ∈ [park, unpark, retire], exec i s = .next s) ∧
    (s.entryDue k f st = false → locked → ∀ x ∈ [(park, (2 : BitVec 9), (0 : BitVec 2)), (unpark, 3, slot.zeroExtend 2), (retire, 4, place)],
      ∃ t : State, exec x.1 s = .next t ∧ t.me = { s.me with phase := .ringOp } ∧
        (t.cluster k).ring.reqs = r.reqs ++ [⟨s.cur.station, x.2.1, f, x.2.2⟩] ∧ t.mem = s.mem) ∧
    (s.entryDue k f st = false → ¬locked → (r.elastic && r.record) = false →
      (p.through = none → gives park 0 fun w => w = p) ∧
      (∀ t, p.through = some t → r.inHeld t = false → p.lay0 = none →
        gives park (found t) fun w => w = { p with through := none, lay0 := some (t, .parked) }) ∧
      (∀ t, p.through = some t → r.inHeld t = false → p.lay0 ≠ none → p.lay1 = none →
        gives park (found t) fun w => w = { p with through := none, lay1 := some (t, .parked) }) ∧
      (∀ t, p.through = some t → (r.inHeld t = true ∨ (p.lay0 ≠ none ∧ p.lay1 ≠ none)) → gives park 0 fun w => w = p) ∧
      (∀ t, slot = 0 → p.lay0 = some (t, .parked) → r.inHeld t = false →
        gives unpark (found t) fun w => w = { p with lay0 := some (t, .queued) }) ∧
      (∀ t, slot = 1 → p.lay1 = some (t, .parked) → r.inHeld t = false →
        gives unpark (found t) fun w => w = { p with lay1 := some (t, .queued) }) ∧
      (slot = 0 → (∀ t, p.lay0 ≠ some (t, .parked)) → gives unpark 0 fun w => w = p) ∧
      (∀ t, place = 0 → p.through = some t → t.hdr.fam = f → r.inHeld t = false → (s.gangOf (k.station 0)).rr = 0 →
        gives retire (found t) fun w => w.through = none) ∧
      (place = 0 → p.through = none → gives retire 0 fun w => w = p))

/-- rstat, rwait, rstart, rreset and rmode (R222, R223, R244, R245). -/
def Sys2Proof.Claims.RingControl : Prop :=
  ∀ (s : State),
    let k := s.cur.cluster
    let r := (s.cluster k).ring
    let code : Nat := match r.state with | .idle => 0 | .loading => 1 | .running => 2 | .done => 3
    let status : DWord := BitVec.ofNat 64 (r.inj * 2 ^ 48 + r.ret * 2 ^ 32 + r.short * 2 ^ 16 + r.aborted.toNat * 2 ^ 10
      + r.fault.toNat * 2 ^ 9 + r.record.toNat * 2 ^ 8 + r.elastic.toNat * 2 ^ 7 + code * 2 ^ 4)
    let becomes (i : Instr) (g : Ring → Prop) : Prop := ∃ t : State, exec i s = .next t ∧ g (t.cluster k).ring ∧
      (t.cluster k).jt = (s.cluster k).jt ∧ t.mem = s.mem ∧ sameRegs s.me t.me
    (∀ o : XD, s.ready (len2 o.q) o.q → s.freeG o.d →
      exec (.rstat o) s = s.putCore (len2 o.q) o.q (s.me.writeG o.d status true) ∧
      (s.aborted s.cur = true → exec (.rwait o) s = .next (s.takeTrap ⟨.aborted, 1⟩)) ∧
      (s.aborted s.cur = false → r.state = .idle →
        exec (.rwait o) s = s.putCore (len2 o.q) o.q (s.me.writeG o.d status true)) ∧
      (s.aborted s.cur = false → r.state = .done → s.tasksPerformed s.cur = true →
        exec (.rwait o) s = s.putCore (len2 o.q) o.q
          (({ s.me with sawLoad := r.loads } : Core).writeG o.d status false)) ∧
      (s.aborted s.cur = false → r.state = .loading ∨ r.state = .running → exec (.rwait o) s = .next s)) ∧
    (∀ o : XQ, s.ready (len2 o.q) o.q →
      becomes (.rstart o) (fun r' => r'.state = (if r.state = .loading then .running else r.state) ∧
        r'.placesA = r.placesA ∧ r'.placesB = r.placesB ∧ r'.inj = r.inj ∧ r'.ret = r.ret) ∧
      (r.state = .running → exec (.rreset o) s = .next (s.takeTrap ⟨.illegalOperand, 0⟩)) ∧
      (r.state = .loading ∨ r.state = .done → becomes (.rreset o) fun r' =>
        r'.state = .idle ∧ r'.inj = 0 ∧ r'.ret = 0 ∧ r'.short = 0 ∧ r'.aborted = false ∧ r'.fault = false ∧
        r'.held = [] ∧ r'.elastic = r.elastic ∧ r'.record = r.record ∧
        ∀ f, ∀ n < 64, (r'.places f n).live = [] ∧ (r'.places f n).injected = (r.places f n).injected)) ∧
    (∀ o : RmodeO, s.ready (len2 o.q) o.q →
      (r.state = .running → exec (.rmode o) s = .next (s.takeTrap ⟨.illegalOperand, 0⟩)) ∧
      (r.state ≠ .running → becomes (.rmode o) fun r' => r'.elastic = (o.mode == 1) ∧
        r'.record = o.record ∧ r'.state = r.state ∧ r'.inj = r.inj ∧ r'.ret = r.ret ∧ r'.placesA = r.placesA ∧
        r'.placesB = r.placesB))

/-- The ring’s other instructions, as the parts named below state. -/
def Obligations.RingInstructions : Prop :=
  Claims.RingRequests ∧ Claims.RingControl

/-- jwr writes the junction entry that a record of 32 local bytes names, refusing a running ring, a malformed record and
tainted operands; jrd stores an entry's record, tainted unless the ring runs (R216, R246 to R248). -/
def Sys2Proof.Claims.JunctionTable : Prop :=
  ∀ (s : State) (a : BitVec 5) (ta : Bool), s.fullG a →
    let k := s.cur.cluster
    let v := (s.me.gv a).toNat
    let m := localBase s.cur + v
    let word (x n : Nat) : Nat := natOfBytes (s.mem.readN (m + x) n)
    (∀ q, s.ready (len2 q) q →
      (0x7FE0 < v → exec (.jwr ⟨q, a, ta⟩) s = .next (s.takeTrap ⟨.illegalOperand, 1⟩)) ∧
      (v ≤ 0x7FE0 → v % 32 ≠ 0 → exec (.jwr ⟨q, a, ta⟩) s = .next (s.takeTrap ⟨.alignment, s.me.gv a⟩)) ∧
      (v ≤ 0x7FE0 → v % 32 = 0 → s.me.vecTouchesLocal v 32 = false → s.bad m 32 = none →
        (s.gangOf s.cur).det = false →
        let good : Prop := word 20 1 < 4 ∧ word 21 1 < 64 ∧ word 22 10 = 0 ∧ word 16 4 % 4 = 0
        let clean : Prop := (∀ i < 32, Tab.get false s.taint (m + i) = false) ∧ s.me.gt a = false ∧ s.me.ct = false
        (¬good ∨ ¬clean → exec (.jwr ⟨q, a, ta⟩) s = .next (s.takeTrap ⟨.illegalOperand, 1⟩)) ∧
        (good → clean → (s.cluster k).ring.state = .running →
          exec (.jwr ⟨q, a, ta⟩) s = .next (s.takeTrap ⟨.illegalOperand, 0⟩)) ∧
        (good → clean → (s.cluster k).ring.state ≠ .running →
          ∃ t : State, exec (.jwr ⟨q, a, ta⟩) s = .next t ∧ t.mem = s.mem ∧ sameRegs s.me t.me ∧
            Tab.get none (t.cluster k).jt (word 21 1) = some {
              atag := BitVec.ofNat 32 (word 0 4), amask := BitVec.ofNat 32 (word 4 4),
              btag := BitVec.ofNat 32 (word 8 4), bmask := BitVec.ofNat 32 (word 12 4),
              start := BitVec.ofNat 32 (word 16 4), valid := (word 20 1).testBit 0, keq := (word 20 1).testBit 1 } ∧
            ∀ n, n ≠ word 21 1 → Tab.get none (t.cluster k).jt n = Tab.get none (s.cluster k).jt n))) ∧
    (∀ q (n : BitVec 6) e, s.ready (len2 q) q → v ≤ 0x7FE0 → v % 32 = 0 → s.me.vecTouchesLocal v 32 = false →
      (s.gangOf s.cur).det = false → Tab.get none (s.cluster k).jt n.toNat = some e →
      ∃ t : State, exec (.jrd ⟨q, a, ta, n⟩) s = .next t ∧ sameBytesBut s t m 32 ∧ sameRegs s.me t.me ∧
        (t.cluster k).jt = (s.cluster k).jt ∧
        (let back (x n : Nat) : Nat := natOfBytes (t.mem.readN (m + x) n)
         back 0 4 = e.atag.toNat ∧ back 4 4 = e.amask.toNat ∧ back 8 4 = e.btag.toNat ∧ back 12 4 = e.bmask.toNat ∧
         back 16 4 = e.start.toNat ∧ back 20 1 = e.valid.toNat + 2 * e.keq.toNat ∧ back 21 1 = n.toNat ∧ back 22 10 = 0) ∧
        ∀ i < 32, Tab.get false t.taint (m + i) = (s.me.gt a || s.me.ct || (s.cluster k).ring.state != .running))

/-- An A tile that arrives where a B tile stands in the lay-by meets it (R217 to R220): the lowest entry that matches their
tags and, with KEQ, their K coordinates creates a task in the station's queue, with the entry's start, the coordinate (A's
I, B's J, A's K), the entry's number and both payloads, and takes one from the A tile's TOLL. -/
def Sys2Proof.Claims.MeetingsCreateTasks : Prop :=
  ∀ (s : State) (k : ClusterId) (st : BitVec 6) (l : LinkTile) (b : Tile) (c : LayCond) (e : JEntry) (n : Nat),
    let x := s.cluster k
    let src := (st.toNat + 63) % 64
    let here := x.ring.places .b st.toNat
    let own := x.ring.places .a st.toNat
    let core := s.core (.ord k.die k.cl st)
    let m (e : JEntry) : Bool := e.valid && ((l.tile.hdr.tag ^^^ e.atag) &&& e.amask == 0)
      && ((b.hdr.tag ^^^ e.btag) &&& e.bmask == 0) && (!e.keq || l.tile.hdr.k == b.hdr.k)
    (x.ring.places .a src).link = some l → x.ring.flying = [(.a, src, l)] → l.notices = 0 →
    l.tile.hdr.fam = .a → b.hdr.fam = .b → 2 ≤ l.tile.hdr.toll.toNat →
    (∀ i < 64, ∀ y ∈ (x.ring.places .a i).present, l.tile.same y = false) →
    here = { Places.none with lay0 := some (b, c), injected := here.injected } →
    own = { Places.none with injected := own.injected } →
    x.ring.state = .running → x.ring.fault = false → x.ring.elastic = true → x.ring.record = false → x.ring.held = [] →
    l.left + 17 ≤ s.clock → s.entriesMade k = true → x.abortLine = false → core.stationQ.length < 2 →
    n < 64 → Tab.get none x.jt n = some e → m e = true → (∀ i < n, ∀ e', Tab.get none x.jt i = some e' → m e' = false) →
    ∃ t : State, exec (.tileArrival k .a st) s = .next t ∧
      (t.core (.ord k.die k.cl st)).stationQ = core.stationQ ++ [{
        start := e.start, i := l.tile.hdr.i, j := b.hdr.j,
        k := l.tile.hdr.k, je := BitVec.ofNat 6 n, payA := l.tile.pay, payB := b.pay }] ∧
      (∃ a, ((t.cluster k).ring.places .a st.toNat).through = some a ∧
        a = { l.tile with hdr := { l.tile.hdr with toll := l.tile.hdr.toll - 1 } }) ∧
      (t.cluster k).ring.places .b st.toNat = here ∧ t.mem = s.mem

/-- The junction table, and meetings that create tasks, as the parts named below state. -/
def Obligations.JunctionsAndMeetings : Prop :=
  Claims.JunctionTable ∧ Claims.MeetingsCreateTasks

/-- A through tile with HOPS left and a free place ahead departs, with every other that may in that cycle (R208, R210,
R213 to R215): HOPS is one less, a wake copy stays, and the tile is on the link since this cycle; in beat-locked mode at the
beat, when nothing of the beat before it is left to do. A spent tile stays, one that a replay keeps for its recorded
meeting too (R361). A pre-empted launch's tiles do not depart. -/
def Sys2Proof.Claims.TilesDepart : Prop :=
  ∀ (s : State) (k : ClusterId),
    let r := (s.cluster k).ring
    let left (t : State) (f : Fam) (st : Nat) : Prop := ∀ p x, p = r.places f st → p.through = some x →
      let y : Tile := { x with hdr := { x.hdr with hops := x.hdr.hops - 1 } }
      (t.cluster k).ring.places f st =
        { p with through := none, wake := some ⟨y, s.clock⟩, link := some ⟨y, s.clock, 0⟩ }
    let ahead (f : Fam) (st : Nat) : Nat := if f = .a then (st + 1) % 64 else (st + 63) % 64
    (∀ (f : Fam) (st : BitVec 6), r.state = .running → r.fault = false → r.elastic = true → s.clusterRuns k = true →
      r.settled s.clock = true → s.entriesMade k = true → s.staysFor k f st.toNat = false →
      r.wants f st.toNat = true → (r.places f (ahead f st.toNat)).through = none →
      ∃ t : State, exec (.tileDeparture k f st) s = .next t ∧ left t f st.toNat ∧ t.mem = s.mem ∧
        ∀ g n, ((t.cluster k).ring.places g n = r.places g n ∨
            (r.wants g n = true ∧ s.staysFor k g n = false ∧ left t g n)) ∧
          (n < 64 → r.wants g n = true → s.staysFor k g n = false → (r.places g (ahead g n)).through = none →
            left t g n)) ∧
    (∀ (f : Fam) (st : BitVec 6), r.wants f st.toNat = false ∨ r.elastic = false ∨ s.clusterRuns k = false ∨
      r.moving = false → exec (.tileDeparture k f st) s = .next s) ∧
    (r.state = .running → r.fault = false → r.elastic = false → s.clusterRuns k = true → r.beatReady = true →
      ∃ t : State, exec (.beat k) s = .next t ∧ t.mem = s.mem ∧
        ∀ f, ∀ n < 64, (r.wants f n = true → (r.places f (ahead f n)).through = none → left t f n) ∧
          (r.wants f n = false → (t.cluster k).ring.places f n = r.places f n)) ∧
    (r.elastic = true ∨ s.clusterRuns k = false ∨ r.moving = false ∨ r.beatReady = false →
      exec (.beat k) s = .next s)

/-- A tile arrives 17 cycles after its departure, not before; where the junction table holds nothing it takes the through
position of its station and creates no task (R208, R219). -/
def Sys2Proof.Claims.TilesArrive : Prop :=
  ∀ (s : State) (k : ClusterId) (f : Fam) (st : BitVec 6) (l : LinkTile),
    let r := (s.cluster k).ring
    let src := if f = .a then (st.toNat + 63) % 64 else (st.toNat + 1) % 64
    (r.places f src).link = some l →
    (s.clock < l.left + 17 → exec (.tileArrival k f st) s = .next s) ∧
    (r.state = .running → r.fault = false → l.left + 17 ≤ s.clock → s.entriesMade k = true →
      (∀ x ∈ r.flying, l.left ≤ x.2.2.left) → (∀ x ∈ r.flying, x.2.2.notices = 0) → r.reqs = [] → (s.cluster k).jt = [] → (s.gangOf (k.station 0)).rr = 0 →
      ∃ t : State, exec (.tileArrival k f st) s = .next t ∧
        ((t.cluster k).ring.places f st.toNat).through = some l.tile ∧
        ((t.cluster k).ring.places f src).link = none ∧ t.cores = s.cores ∧ t.mem = s.mem)

/-- The other events of a carriageway: a held meeting is taken when its station's queue has room, a queued tile enters a free
through position, a spent tile moves into the lay-by or retires when no tile of the other family can meet it, a wake copy
expires, the ring is done when every tile has retired and its tasks have run, and a fault stops it (R210, R211, R213, R218,
R221, R222, R234). -/
def Sys2Proof.Claims.RingHousekeeping : Prop :=
  ∀ (s : State) (k : ClusterId) (f : Fam) (st : BitVec 6),
    let r := (s.cluster k).ring
    let n := st.toNat
    let p := r.places f n
    let moving : Prop := r.state = .running ∧ r.fault = false
    let becomes (i : Instr) (g : Ring → Prop) : Prop :=
      ∃ t : State, exec i s = .next t ∧ g (t.cluster k).ring ∧ t.mem = s.mem ∧ t.cores = s.cores
    (¬moving → ∀ i ∈ [Instr.heldMeetingTaken k st, .spentTileToLayby k f st, .spentTileRetire k f, .ringDone k],
      exec i s = .next s) ∧
    (∀ m ms, moving → (r.elastic && r.record) = false → Tab.get [] r.held n = m :: ms →
      (2 ≤ (s.core (.ord k.die k.cl st)).stationQ.length → exec (.heldMeetingTaken k st) s = .next s) ∧
      (∀ e, (s.core (.ord k.die k.cl st)).stationQ.length < 2 → Tab.get none (s.cluster k).jt m.entry = some e →
        ∃ t : State, exec (.heldMeetingTaken k st) s = .next t ∧
          (t.core (.ord k.die k.cl st)).stationQ = (s.core (.ord k.die k.cl st)).stationQ ++
            [{ start := e.start, i := m.a.hdr.i, j := m.b.hdr.j, k := m.a.hdr.k, je := BitVec.ofNat 6 m.entry,
               payA := m.a.pay, payB := m.b.pay }] ∧
          m ∉ Tab.get [] (t.cluster k).ring.held n ∧ t.mem = s.mem)) ∧
    (∀ t, r.fault = false → (r.elastic && r.record) = false → r.throughFree f n = true →
      (p.lay0 = some (t, .queued) → becomes (.queuedTileEntry k f st) fun r' =>
        r'.places f n = { p with through := some t, lay0 := none }) ∧
      ((∀ u, p.lay0 ≠ some (u, .queued)) → p.lay1 = some (t, .queued) → becomes (.queuedTileEntry k f st) fun r' =>
        r'.places f n = { p with through := some t, lay1 := none })) ∧
    (r.throughFree f n = false → exec (.queuedTileEntry k f st) s = .next s) ∧
    (∀ t, moving → r.settled s.clock = true → p.through = some t → t.hdr.hops = 0 →
      (p.lay0 = none → becomes (.spentTileToLayby k f st) fun r' =>
        r'.places f n = { p with through := none, lay0 := some (t, .spent) }) ∧
      (p.lay0 ≠ none → p.lay1 = none → becomes (.spentTileToLayby k f st) fun r' =>
        r'.places f n = { p with through := none, lay1 := some (t, .spent) }) ∧
      (p.lay0 ≠ none → p.lay1 ≠ none → exec (.spentTileToLayby k f st) s = .next s)) ∧
    (∀ t, moving → r.retiring f = [t] → (s.gangOf (k.station 0)).rr = 0 → t.hdr.fam = f →
      becomes (.spentTileRetire k f) fun r' => r'.ret = r.ret + 1 ∧
        ∀ u ∈ r'.live f, t.same u = false) ∧
    (moving → r.retiring f = [] → exec (.spentTileRetire k f) s = .next s) ∧
    (∀ w, p.wake = some w →
      (s.clock ≤ w.left + 17 → exec (.wakeExpiry k f st) s = .next s) ∧
      (w.left + 17 < s.clock → (∀ x ∈ r.flying, w.left < x.2.2.left) →
        becomes (.wakeExpiry k f st) fun r' => r'.places f n = { p with wake := none })) ∧
    (let empty : Prop := r.inj = r.ret ∧ r.inj ≠ 0 ∧ r.startedTasks = [] ∧
        ∀ x : BitVec 6, (s.core (.ord k.die k.cl x)).stationQ = []
     (moving → empty → becomes (.ringDone k) fun r' => r' = { r with state := .done }) ∧
     (¬empty → exec (.ringDone k) s = .next s)) ∧
    (∀ x ∈ r.live f, r.fault = false → ∃ t : State, exec (.ringFault k) s = .next t ∧
      (t.cluster k).ring = { r with fault := true } ∧ t.mem = s.mem ∧
      Tab.get [] t.supMail k.die.toNat = Tab.get [] s.supMail k.die.toNat ++ [.ringFault k])

/-- Tiles depart, arrive, wait, expire and retire, as the parts named below state. -/
def Obligations.CarriagewayEvents : Prop :=
  Claims.TilesDepart ∧ Claims.TilesArrive ∧ Claims.RingHousekeeping

/-! ### The optical units -/

/-- alease claims a free window of the mesh of its operand's lease, or with operand 0 of the mesh with the most free windows
(the lowest number among equals), binds it to its chain, and gives the tainted lease word; it waits while no window is
free, its operand judged once. afree waits for the entries into its window, appended or judged and waiting for room, that have
not completed, then frees it and discards its contents; a lease operand that
is not live traps (R275, R287, R288, R290, R291). -/
def Sys2Proof.Claims.Leases : Prop :=
  ∀ (s : State),
    let c := s.cur
    let free (m : MeshId) : Nat := (List.range 16).countP fun w => (Tab.get none (s.mesh m).leases w).isNone
    (∀ o : AleaseO, s.ready (len2 o.q) o.q → s.fullG o.a → (s.gangOf c).rr = 0 → s.freeG o.d →
      let v := s.me.gv o.a
      (s.me.phase = .idle → v ≠ 0 → s.liveLease c v = none →
        exec (.alease o) s = .next (s.takeTrap ⟨.illegalOperand, 1⟩)) ∧
      (∀ m : MeshId,
        let beside : Prop := s.me.phase = .claim (some m) ∨
          (s.me.phase = .idle ∧ v ≠ 0 ∧ ∃ l, s.liveLease c v = some l ∧ l.mesh = m)
        let freest : Prop := (s.me.phase = .claim none ∨ (s.me.phase = .idle ∧ v = 0)) ∧ m.die = c.die ∧
          ∀ n : MeshId, n.die = c.die → free n < free m ∨ (free n = free m ∧ m.mesh ≤ n.mesh)
        beside ∨ freest →
        (free m = 0 → ∃ t : State, exec (.alease o) s = .next t ∧ t.meshes = s.meshes ∧ t.mem = s.mem ∧
          (beside → t.me = { s.me with phase := .claim (some m) }) ∧
          (freest → t.me = { s.me with phase := .claim none })) ∧
        (0 < free m → ∃ (t : State) (w : Nat), exec (.alease o) s = .next t ∧ w < 16 ∧
          Tab.get none (s.mesh m).leases w = none ∧
          Tab.get none (t.mesh m).leases w = some ⟨s.launchIx c, c.cluster.cl, o.chain, false⟩ ∧
          (∀ u, u ≠ w → Tab.get none (t.mesh m).leases u = Tab.get none (s.mesh m).leases u) ∧
          t.me.g = (s.me.writeG o.d (BitVec.ofNat 64 (2 ^ 26 + c.cluster.cl.toNat * 2 ^ 16 + m.mesh.toNat * 2 ^ 11 +
            w * 2 ^ 7 + o.chain.toNat * 2 ^ 5)) true).g ∧ t.me.p = s.me.p ∧ t.me.h = s.me.h ∧ t.mem = s.mem))) ∧
    (∀ o : XA, s.ready (len2 o.q) o.q → s.fullG o.a →
      (s.me.phase = .idle → s.liveLease c (s.me.gv o.a) = none →
        exec (.afree o) s = .next (s.takeTrap ⟨.illegalOperand, 1⟩)) ∧
      (∀ l, s.me.phase = .idle → s.liveLease c (s.me.gv o.a) = some l →
        ∃ t : State, exec (.afree o) s = .next t ∧ t.me = { s.me with phase := .afree } ∧
          t.liveLease c (s.me.gv o.a) = none ∧ t.mem = s.mem) ∧
      (s.me.phase = .afree →
        let m : MeshId := ⟨c.die, (s.me.gv o.a).extractLsb' 11 5⟩
        let w := (s.me.gv o.a).extractLsb' 7 4
        let into (e : ChainEntry) : Prop := e.mesh = m ∧ e.win = w ∧ ∀ st, e.stageOf ≠ .finished st
        let busy : Prop := (∃ e ∈ (s.chain c.cluster ((s.me.gv o.a).extractLsb' 5 2).toNat).ents, into e) ∨
          ∃ (st : BitVec 6) (n : BitVec 2) (e : ChainEntry),
            (s.core (.ord c.die c.cluster.cl st)).phase = .append n e ∧ into e
        (busy → exec (.afree o) s = .next s) ∧
        (¬busy → ∃ t : State, exec (.afree o) s = .next t ∧ Tab.get none (t.mesh m).leases w.toNat = none ∧
          (∀ x ∈ (t.mesh m).wins, x.1 / 2 ^ 14 ≠ w.toNat) ∧ sameRegs s.me t.me ∧ t.mem = s.mem)))

/-- oprobe appends a probe of the image its second operand names, once H[D] may be filled; ostat gives the status word of its lease's mesh, tainted,
and clears CLIP (R283, R295, R305). -/
def Sys2Proof.Claims.ProbesAndMeshStatus : Prop :=
  ∀ (s : State),
    (∀ o : XHAB, s.ready (len2 o.q) o.q → s.me.phase = .idle → s.fullG o.a → s.fullG o.b → (s.gangOf s.cur).rr = 0 →
      let v := s.me.gv o.b
      let waits : Prop := (s.me.hreg o.d).fill = .pending
      (waits → exec (.oprobe o) s = .next s) ∧
      (¬waits → 4096 ≤ v.toNat → exec (.oprobe o) s = .next (s.takeTrap ⟨.illegalOperand, 2⟩)) ∧
      (¬waits → v.toNat < 4096 → s.liveLease s.cur (s.me.gv o.a) = none →
        exec (.oprobe o) s = .next (s.takeTrap ⟨.illegalOperand, 1⟩)) ∧
      (∀ l, ¬waits → v.toNat < 4096 → s.liveLease s.cur (s.me.gv o.a) = some l →
        (s.chain s.cur.cluster l.chain.toNat).ents.length < 64 →
        let ch := s.chain s.cur.cluster l.chain.toNat
        ∃ (t : State) (e : ChainEntry), exec (.oprobe o) s = .next t ∧
          (t.chain s.cur.cluster l.chain.toNat).ents = ch.ents ++ [e] ∧
          (t.chain s.cur.cluster l.chain.toNat).next = ch.next + 1 ∧ e.seq = ch.next ∧ e.kind = .probe ∧
          e.core = s.cur ∧ e.h = o.d ∧ e.inb = o.inb ∧ e.mesh = l.mesh ∧ e.image.toNat = v.toNat ∧
          e.stageOf = .waiting ∧ t.me.hreg o.d = { s.me.hreg o.d with fill := .pending } ∧
          t.me.owed = s.me.owed + o.inb.toNat ∧ t.me.g = s.me.g ∧ t.mem = s.mem)) ∧
    (∀ o : XDA, s.ready (len2 o.q) o.q → s.fullG o.a → s.freeG o.d →
      (s.liveLease s.cur (s.me.gv o.a) = none → exec (.ostat o) s = .next (s.takeTrap ⟨.illegalOperand, 1⟩)) ∧
      (∀ l, s.liveLease s.cur (s.me.gv o.a) = some l → ∃ (t : State) (w : DWord), exec (.ostat o) s = .next t ∧
        t.me.g = (s.me.writeG o.d w true).g ∧ (t.mesh l.mesh).clip = 0 ∧
        ((s.mesh l.mesh).clip < 2 ^ 16 → (s.mesh l.mesh).unconf < 16 → (s.mesh l.mesh).dlast < 1024 →
          (∀ b im, (s.mesh l.mesh).bank b = some im → im.dpeak < 1024) →
          (w.extractLsb' 12 16).toNat = (s.mesh l.mesh).clip ∧ (w.extractLsb' 8 4).toNat = (s.mesh l.mesh).unconf ∧
          (w.extractLsb' 54 10).toNat = (s.mesh l.mesh).dlast ∧ w.extractLsb' 28 8 = (s.mesh l.mesh).temp ∧ (w.extractLsb' 0 5).toNat = (s.mesh l.mesh).freeWins.length ∧
          ∀ im, (s.mesh l.mesh).act = some im → (w.extractLsb' 44 10).toNat = im.dpeak ∧ w.extractLsb' 36 8 = im.ebc ∧
            w.getLsbD 5 = im.guard) ∧
        t.me.p = s.me.p ∧ t.me.h = s.me.h ∧ t.mem = s.mem))

/-- A probe of the active bank that finds the image within its bound, its thermal loop locked, closes the open group for commit
and clears the fence; any other fences the image and ends the group and the image's queued passes DRIFT. A thermal error
beyond the limit unlocks the loop and is such a fault of the active image; a relock, once the error is within the limit,
only ends the unlock (R277, R279, R280, R282). The probe's detected codes are values the hardware measures: log entry 3. -/
def Sys2Proof.Claims.DriftFences : Prop :=
  ∀ (s : State) (m : MeshId),
    let x := s.mesh m
    let beyond : Prop := (s.thermLim m.die).toNat < x.temp.toInt.natAbs
    (∀ im, x.act = some im → x.running = none → x.probeDue = true → (∀ e ∈ im.expect, -512 ≤ e ∧ e ≤ 511) →
      ∃ (t : State) (d : Nat), exec (.autoProbe m) s = .next t ∧ d ≤ 1023 ∧ (t.mesh m).dlast = d ∧
        (t.mesh m).sinceProbe = 0 ∧ (t.mesh m).latch = [] ∧ t.mem = s.mem ∧ (t.mesh m).wins = x.wins ∧
        let good : Prop := d ^ 16 * 2 ^ im.ebc.toNat ≤ 2 ^ 160 ∧ x.unlocked = false ∧ ¬beyond
        (good → (t.mesh m).ended = x.ended ++ x.latch ∧ (t.mesh m).unconf = 0 ∧ (t.mesh m).isFenced im.gran = false) ∧
        (¬good → (t.mesh m).ended = x.ended ∧ (t.mesh m).isFenced im.gran = true ∧
          ∀ r ∈ x.latch, ∀ e, s.entry m.die r = some e → ∃ f, t.entry m.die r = some f ∧ f.stageOf = .finished 1)) ∧
    (x.running.isSome = true ∨ x.act = none → exec (.autoProbe m) s = .next s) ∧
    (∀ im, x.act = some im → x.unlocked = false → beyond → ∃ t : State, exec (.thermalUnlock m) s = .next t ∧
      (t.mesh m).unlocked = true ∧ (t.mesh m).driftOf im.gran = .thermal ∧ (t.mesh m).isFenced im.gran = true ∧
      (t.mesh m).latch = [] ∧ t.mem = s.mem) ∧
    (x.unlocked = true ∨ ¬beyond → exec (.thermalUnlock m) s = .next s) ∧
    (¬beyond → ∃ t : State, exec (.thermalRelock m) s = .next t ∧ (t.mesh m).unlocked = false ∧
      (t.mesh m).drift = x.drift ∧ t.mem = s.mem) ∧
    (beyond → exec (.thermalRelock m) s = .next s)

/-- Accumulator leases, probes, mesh status, drift and the thermal loop, as the parts named below state (log entry 3).
-/
def Obligations.LeasesProbesAndDrift : Prop :=
  Claims.Leases ∧ Claims.ProbesAndMeshStatus ∧ Claims.DriftFences

/-- opass, opassr and the PHASE commands wait while H[D] is still to be filled (R17), are checked in R293's order, then append one entry with their descriptor's fields
to the lease's chain under its next number and mark H[D] empty (R292, R293, R297, R298). -/
def Obligations.ChainAppends : Prop :=
  ∀ (s : State) (o : XHAB) (i : Instr) (kind : ChainKind),
    (i, kind) ∈ [(Instr.opass o, ChainKind.pass), (.opassr o, .passRev), (.phld o, .phld), (.phdec o, .phdec),
      (.phadj o, .phadj), (.phwr o, .phwr), (.phrd o, .phrd)] →
    s.ready (len2 o.q) o.q → s.me.phase = .idle → s.fullG o.a → s.fullG o.b → (s.gangOf s.cur).rr = 0 → (s.gangOf s.cur).det = false →
    let v := (s.me.gv o.b).toNat
    let base := localBase s.cur + v
    let word (a n : Nat) : Nat := natOfBytes (s.mem.readN (base + a) n)
    let depOk (a : Nat) : Prop := word a 8 / 2 ^ 45 = 0
    let isPass := kind = .pass ∨ kind = .passRev
    let noImage := kind = .phld ∨ kind = .phdec
    let n := word 3 1 + 1
    let slot := word 4 2 % 2 ^ 13
    let mode := word 6 1
    let passOk : Prop := word 0 2 < 4096 ∧ word 2 1 + n ≤ 256 ∧ word 4 2 < 2 ^ 14 ∧ slot + n ≤ 7680 ∧ mode < 128 ∧
      mode / 4 % 16 ≤ 9 ∧ (mode.testBit 1 = false → mode / 4 % 16 = 0) ∧ word 7 1 = 0 ∧ word 8 4 < 2 ^ 19 ∧
      word 8 4 % 64 = 0 ∧ word 12 4 = 0 ∧ depOk 16 ∧ depOk 24 ∧
      (mode.testBit 6 = false → word 8 4 = 0) ∧
      (mode.testBit 6 = true → slot % 8 = 0 ∧ slot + 8 * ((n + 7) / 8) ≤ 7680 ∧ word 8 4 + 576 * ((n + 7) / 8) ≤ 2 ^ 19)
    let first := word 4 2
    let count := word 6 2
    let flags := word 8 1
    let trim := flags.testBit 0
    let phaseOk : Prop := word 0 2 < 4096 ∧ word 2 2 < 4096 ∧ flags < 32 ∧ word 9 7 = 0 ∧ depOk 24 ∧
      (noImage → word 0 2 = 0 ∧ first = 0 ∧ count = 0 ∧ trim = false) ∧
      (¬noImage → first < 8192 ∧ 1 ≤ count ∧ first + count ≤ 8192) ∧
      (kind = .phrd ∨ (¬noImage ∧ trim = true) → word 2 2 = 0) ∧ (kind ≠ .phdec → flags < 2) ∧
      (kind ≠ .phld → word 16 8 % 64 = 0 ∧ word 16 8 + (if kind = .phdec then 16384 else
        if kind = .phadj then count else 2 * count) ≤ 2 ^ 19 ∧ word 16 8 < 2 ^ 19)
    let ok : Prop := (isPass → passOk) ∧ (¬isPass → phaseOk)
    let waits : Prop := (s.me.hreg o.d).fill = .pending
    (waits → exec i s = .next s) ∧
    (¬waits → v % 32 ≠ 0 → exec i s = .next (s.takeTrap ⟨.alignment, s.me.gv o.b⟩)) ∧
    (¬waits → v % 32 = 0 → 0x7FE0 < v → exec i s = .next (s.takeTrap ⟨.illegalOperand, 2⟩)) ∧
    (¬waits → v % 32 = 0 → v ≤ 0x7FE0 → s.me.vecTouchesLocal v 32 = false → s.bad base 32 = none →
      (¬ok → exec i s = .next (s.takeTrap ⟨.illegalOperand, 2⟩)) ∧
      (ok → s.liveLease s.cur (s.me.gv o.a) = none → exec i s = .next (s.takeTrap ⟨.illegalOperand, 1⟩)) ∧
      (∀ l, ok → s.liveLease s.cur (s.me.gv o.a) = some l →
        let k := s.cur.cluster
        let ch := s.chain k l.chain.toNat
        (kind = .phld → word 16 8 / 2 ^ 58 = 63 →
          exec i s = .next (s.takeTrap ⟨.format, BitVec.ofNat 64 (word 16 8)⟩)) ∧
        ((kind = .phld → word 16 8 / 2 ^ 58 ≠ 63) → ch.ents.length < 64 →
          ∃ (t : State) (e : ChainEntry), exec i s = .next t ∧ (t.chain k l.chain.toNat).ents = ch.ents ++ [e] ∧
            (t.chain k l.chain.toNat).next = ch.next + 1 ∧ e.seq = ch.next ∧ e.kind = kind ∧ e.core = s.cur ∧
            e.h = o.d ∧ e.inb = o.inb ∧ e.mesh = l.mesh ∧ e.win.toNat = l.win % 16 ∧ e.image.toNat = word 0 2 ∧
            e.stageOf = (if isPass ∧ (s.mesh l.mesh).isFenced (BitVec.ofNat 12 (word 0 2)) = true then .finished 1 else .waiting) ∧
            (isPass → e.row0 = word 2 1 ∧ e.n = n ∧ e.slot = slot ∧ e.bank = (word 4 2).testBit 13 ∧
              e.set = mode.testBit 0 ∧ e.grid = mode.testBit 1 ∧ e.shift = mode / 4 % 16 ∧ e.stage = mode.testBit 6 ∧
              e.addr = word 8 4) ∧
            (¬isPass → e.target.toNat = word 2 2 ∧ e.first = first ∧ e.count = count ∧ e.trim = trim ∧
              e.guard = flags.testBit 1 ∧ e.pint = flags / 4 ∧ e.addr = word 16 8 % 2 ^ 56) ∧
            t.me.hreg o.d = { s.me.hreg o.d with fill := .pending } ∧ t.me.owed = s.me.owed + o.inb.toNat ∧
            t.me.g = s.me.g ∧ t.mem = s.mem)))

/-- At a pass boundary the scheduler ranks the ready entries: the aged ones first, by longest wait, then those whose image the
active bank holds, then the inactive bank's, then the rest, ties in cyclic (cluster, chain) order (R278). Where the first of
them needs a load, the load begins; the first that can run is granted, here a pass on the active bank, and every other ready
entry counts one more grant it was passed over for. A finished load swaps nothing, stands in the inactive bank with its
codes in the bank's registers, and a record that fails its checks marks the image bad and leaves the registers (R260, R264,
R276). A write to granules that a load reads holds the mesh (log entry 70). -/
def Sys2Proof.Claims.PassGrants : Prop :=
  ∀ (s : State) (m : MeshId),
    let x := s.mesh m
    let rs := s.readyFor m
    let cls (z : Mesh) (e : ChainEntry) : Nat :=
      if 16 ≤ e.readyGrants then 0
      else match e.needs with
        | none => 3
        | some g => if z.isBad g then 3 else if z.bankHolds z.active g then 1 else if z.bankHolds (!z.active) g then 2 else 3
    let wait (e : ChainEntry) : Nat := if 16 ≤ e.readyGrants then e.readyGrants else 0
    let turn (r : EntryRef) : Nat := (r.cluster.toNat * 4 + r.chain.toNat + 4096 - (x.lastGrant + 1)) % 4096
    let before (z : Mesh) (v w : EntryRef × ChainEntry) : Prop :=
      cls z v.2 < cls z w.2 ∨ (cls z v.2 = cls z w.2 ∧
        (wait w.2 < wait v.2 ∨ (wait v.2 = wait w.2 ∧ turn v.1 < turn w.1)))
    -- the first in rank of the entries that satisfy a property
    let leads (z : Mesh) (f : EntryRef × ChainEntry → Prop) (y : EntryRef × ChainEntry) : Prop :=
      f y ∧ ∃ pre post, rs = pre ++ y :: post ∧ (∀ w ∈ pre, f w → before z y w) ∧ (∀ w ∈ post, f w → ¬before z w y)
    let begins (g : BitVec 12) : Prop := x.loading = none ∧
      ∃ y, leads x (fun _ => True) y ∧ x.canRun y.2 = false ∧ y.2.needs = some g
    let loads (g : BitVec 12) : Mesh := { x.setBank (!x.active) none with loading := some g }
    let now (z : Mesh) : Prop := (z = x ∧ ∀ g, ¬begins g) ∨ ∃ g, begins g ∧ z = loads g
    let i := Instr.passGrant m
    (x.running.isSome = true ∨ rs = [] → exec i s = .next s) ∧
    (x.running = none → x.probeDue = false → x.latch = [] → x.lastGrant < 4096 → (∀ y ∈ rs, y.2.readyGrants ≤ 2 ^ 40) →
      (rs.map Prod.fst).Nodup →
      ((∀ g, ¬begins g) → (∀ y ∈ rs, x.canRun y.2 = false) → exec i s = .next s) ∧
      (∀ g, begins g → (∀ y ∈ rs, (loads g).canRun y.2 = false) → ∃ t : State, exec i s = .next t ∧
        (t.mesh m).loading = some g ∧ (t.mesh m).bank (!x.active) = none ∧
        (t.mesh m).bank x.active = x.bank x.active ∧ (t.mesh m).active = x.active ∧ (t.mesh m).running = none ∧
        t.clusters = s.clusters ∧ t.mem = s.mem) ∧
      (∀ z r e im, now z → leads z (fun w => z.canRun w.2 = true) (r, e) →
        e.isPass = true → e.stage = false → z.act = some im → im.gran = e.image → im.named = true →
        z.isBad e.image = false → s.entry m.die r = some e → ∃ t : State, exec i s = .next t ∧
          (t.mesh m).running = some r ∧ (t.mesh m).active = x.active ∧ (t.mesh m).loading = z.loading ∧
          (∀ b, (t.mesh m).bank b = z.bank b) ∧ (t.mesh m).grants = x.grants + 1 ∧ (t.mesh m).wins = x.wins ∧
          (t.mesh m).lastGrant = r.cluster.toNat * 4 + r.chain.toNat ∧
          t.entry m.die r = some { e with stageOf := .granted, ebc := im.ebc, guard := im.guard, begun := true } ∧
          (∀ y ∈ rs, y.1 ≠ r → ∀ f, s.entry m.die y.1 = some f →
            t.entry m.die y.1 = some { f with readyGrants := f.readyGrants + 1 }) ∧
          t.mem = s.mem ∧ t.cores = s.cores) ∧
      (∀ y, x.loading ≠ none → leads x (fun w => x.canRun w.2 = true) y → y.2.writesBank = true →
        s.loadReads m y.2.target.toNat 28 = true → exec i s = .next s)) ∧
    (x.loading = none → exec (.bankLoadComplete m) s = .next s) ∧
    (∀ g, x.loading = some g → (∀ k n, ∀ e ∈ (s.chain k n).ents, e.ending = none) →
      ∃ t : State, exec (.bankLoadComplete m) s = .next t ∧ (t.mesh m).loading = none ∧
      (t.mesh m).active = x.active ∧ (t.mesh m).bank x.active = x.bank x.active ∧
      (t.mesh m).codes x.active = x.codes x.active ∧
      let a := wbufBase m + 512 * g.toNat
      let len := natOfBytes (s.mem.readN a 4)
      let im := if 2 ^ 21 < 512 * g.toNat + len ∨ s.bad a len ≠ none then none else loadRecord g (s.mem.readN a len)
      (t.mesh m).bank (!x.active) = im.map Prod.fst ∧
      (im = none → (t.mesh m).isBad g = true ∧ (t.mesh m).codes (!x.active) = x.codes (!x.active)) ∧
      (∀ y c, im = some (y, c) → (t.mesh m).bad = x.bad ∧ (t.mesh m).codes (!x.active) = c) ∧ t.mem = s.mem)

/-- A pass that ends is converted and waits to be committed, or in guard mode waits for the probe that closes its group; a
fenced image's pass ends DRIFT, one over a bad word UNCORRECTABLE. A commit sets or adds the outputs of the oldest ended
pass whose turn in its chain has come to its window's rows, all tainted, and completes DONE; rows with poison refuse an addition (R270, R271, R276, R277,
R280, R284). The detected codes are values the hardware measures: log entry 3. -/
def Sys2Proof.Claims.PassOutcomes : Prop :=
  ∀ (s : State) (m : MeshId),
    let x := s.mesh m
    (x.running = none → exec (.passEnd m) s = .next s) ∧
    (∀ r e im, x.running = some r → s.entry m.die r = some e → x.act = some im →
      e.n ≤ 256 → e.rows = [] → e.scales = [] → e.spoilt = false →
      let b := passBase m e.bank
      let bad : Prop := s.bad (b + 64 * e.slot) (64 * e.n) ≠ none ∨ s.bad (b + 491520 + 4 * e.slot) (4 * e.n) ≠ none
      ∃ (t : State) (f : ChainEntry), exec (.passEnd m) s = .next t ∧ t.entry m.die r = some f ∧ t.mem = s.mem ∧
        (t.mesh m).running = none ∧ (t.mesh m).wins = x.wins ∧ f.seq = e.seq ∧ f.win = e.win ∧ f.row0 = e.row0 ∧
        f.n = e.n ∧
        (bad → f.stageOf = .finished 4) ∧
        (¬bad → x.isFenced e.image = true → f.stageOf = .finished 1) ∧
        (¬bad → x.isFenced e.image = false → f.stageOf = .latched ∧ f.out.length = 64 * e.n ∧
          (t.mesh m).sinceProbe = x.sinceProbe + e.n ∧
          (im.guard = true → (t.mesh m).latch = x.latch ++ [r] ∧ (t.mesh m).ended = x.ended) ∧
          (im.guard = false → (t.mesh m).latch = x.latch ∧ (t.mesh m).ended = x.ended ++ [r]))) ∧
    ((∀ r ∈ x.ended, s.chainTurn m.die r = false) → exec (.passCommit m) s = .next s) ∧
    (∀ before r rest e, x.ended = before ++ r :: rest → (∀ y ∈ before, s.chainTurn m.die y = false) →
      s.chainTurn m.die r = true → s.entry m.die r = some e → s.heldByVacc ⟨m.die, r.cluster⟩ e = true →
      exec (.passCommit m) s = .next s) ∧
    (∀ before r rest e, x.ended = before ++ r :: rest → (∀ y ∈ before, s.chainTurn m.die y = false) →
      s.chainTurn m.die r = true → s.entry m.die r = some e → s.heldByVacc ⟨m.die, r.cluster⟩ e = false →
      e.out.length = 64 * e.n →
      let old (row col : Nat) : WinElem := Tab.get WinElem.zero x.wins (winKey e.win.toNat (e.row0 + row) col)
      let poison : Prop := ∃ row < e.n, ∃ col < 64, (old row col).poison = true
      ∃ (t : State) (f : ChainEntry), exec (.passCommit m) s = .next t ∧ (t.mesh m).ended = before ++ rest ∧
        t.entry m.die r = some f ∧ t.mem = s.mem ∧
        (e.set = false → poison → f.stageOf = .finished 4 ∧ (t.mesh m).wins = x.wins) ∧
        (e.set = true ∨ ¬poison → f.stageOf = .finished 0 ∧
          (∀ row < e.n, ∀ col < 64, ∀ v, e.out[64 * row + col]? = some v →
            Tab.get WinElem.zero (t.mesh m).wins (winKey e.win.toNat (e.row0 + row) col) =
              if e.set then ⟨v, true, false⟩ else
                ⟨BitVec.ofNat 32 (encodeRne .f32 (Val.add .rne (decodeVal .f32 (old row col).val.toNat)
                  (decodeVal .f32 v.toNat)).1).1, true, false⟩) ∧
          (∀ key, (∀ row < e.n, ∀ col < 64, key ≠ winKey e.win.toNat (e.row0 + row) col) →
            Tab.get WinElem.zero (t.mesh m).wins key = Tab.get WinElem.zero x.wins key))) ∧
    (∀ (k : ClusterId) (n : BitVec 2) (e : ChainEntry) (rest : List ChainEntry) (st : BitVec 8),
      (s.chain k n.toNat).ents = e :: rest → e.stageOf = .finished st → e.seq < 2 ^ 32 →
      let c := s.core e.core
      let kind : Nat := if e.kind = .pass ∨ e.kind = .passRev then 3 else if e.kind = .probe then 7 else 4
      let w : DWord := BitVec.ofNat 64 (kind * 2 ^ 60 + (k.cl.toNat * 4 + n.toNat) * 2 ^ 48 + e.seq * 2 ^ 16 +
        st.toNat * 2 ^ 8 + e.ebc.toNat)
      ∃ t : State, exec (.chainEntryComplete k n) s = .next t ∧
        (t.chain k n.toNat).ents = rest ∧ (t.chain k n.toNat).next = (s.chain k n.toNat).next ∧ t.mem = s.mem ∧
        ((c.hreg e.h).fill = .pending →
          ((t.core e.core).hreg e.h).val = w ∧ ((t.core e.core).hreg e.h).fill = .full) ∧
        (e.inb = false → (t.core e.core).inbox = c.inbox) ∧
        (e.inb = true → c.inbox.length < 16 → c.held = [] →
          ∃ m, (t.core e.core).inbox = c.inbox ++ [m] ∧ m.hw = w ∧ m.val = 0) ∧ (t.core e.core).g = c.g) ∧
    (∀ (k : ClusterId) (n : BitVec 2), ((s.chain k n.toNat).ents = [] ∨
        (∃ e rest, (s.chain k n.toNat).ents = e :: rest ∧ (∀ st, e.stageOf ≠ .finished st) ∧
          (e.started = true ∨ (s.cluster k).abortLine = false))) → exec (.chainEntryComplete k n) s = .next s)

/-- A decomposition engine with nothing to do leaves the machine as it is, one whose image a load is reading waits, and otherwise
the image is written, its image's bad mark goes and its drift state stays, the engine is free and the entry ends DONE
(R265, R267, R280, R301); an engine that a phadj or phwr took is only freed (R303). The image's phases are a free value of
the model: log entry 4. -/
def Sys2Proof.Claims.DecompositionEnds : Prop :=
  ∀ (s : State) (d : BitVec 4) (n : BitVec 4),
    (Tab.get none (s.die d).engines n.toNat = none → exec (.decompositionComplete d n) s = .next s) ∧
    (∀ r e, Tab.get none (s.die d).engines n.toNat = some r → s.entry d r = some e →
      e.kind = .phdec → (s.mesh e.mesh).loading = some e.target → exec (.decompositionComplete d n) s = .next s) ∧
    (∀ r e, Tab.get none (s.die d).engines n.toNat = some r → s.entry d r = some e →
      e.kind ≠ .phdec → ∃ t : State, exec (.decompositionComplete d n) s = .next t ∧
        Tab.get none (t.die d).engines n.toNat = none ∧ t.clusters = s.clusters ∧ t.meshes = s.meshes ∧ t.mem = s.mem) ∧
    (∀ r e, Tab.get none (s.die d).engines n.toNat = some r → s.entry d r = some e → e.kind = .phdec → e.mesh.die = d →
      ((s.mesh e.mesh).loading = none ∨ ∃ g, (s.mesh e.mesh).loading = some g ∧
        g.toNat + max 1 ((natOfBytes (s.mem.readN (wbufBase e.mesh + 512 * g.toNat) 4) + 511) / 512) ≤ e.target.toNat) → ∃ (t : State) (f : ChainEntry), exec (.decompositionComplete d n) s = .next t ∧
        Tab.get none (t.die d).engines n.toNat = none ∧ t.entry d r = some f ∧ f.stageOf = .finished 0 ∧
        (t.mesh e.mesh).isBad e.target = false ∧ (t.mesh e.mesh).drift = (s.mesh e.mesh).drift ∧
        (t.mesh e.mesh).wins = (s.mesh e.mesh).wins ∧ t.cores = s.cores ∧
        ∀ a, a < wbufBase e.mesh + 512 * e.target.toNat → t.mem.read a = s.mem.read a)

/-- The pass scheduler, pass outcomes, commits, and decompositions, as the parts named below state (log entry 70, log
entry 3, log entry 4). -/
def Obligations.OpticalPasses : Prop :=
  Claims.PassGrants ∧ Claims.PassOutcomes ∧ Claims.DecompositionEnds

/-! ### Ramp cores and global memory -/

/-- gld and gst (R315, R325, R335, R336): the address is checked for its format, its range and its alignment; a load gives
the eight bytes of its line as its L1 copy has them, else of the line at home, which enters the L1; a load whose
translation faults holds its unit with the fault raised; a store writes its eight bytes at home and nothing else, and
one whose translation faults goes into the side log and completes. -/
def Obligations.GlobalLoadsAndStores : Prop :=
  ∀ (s : State) (q : Seq) (d a : BitVec 5) (ta td : Bool) (off : BitVec 24), s.ready (len2 q) q → s.fullG a →
    let p := s.me.gv a
    let ea : Int := (p.toNat % 2 ^ 56 : Nat) + off.toInt
    let va := ea.toNat
    let l := s.launchIx s.cur
    let line := l1Key (s.partOf l) (va / 64)
    let load := Instr.gld ⟨q, d, a, ta, off⟩
    let store := Instr.gst ⟨q, d, a, ta, td, off⟩
    (∀ i ∈ [load, store], (i = store → s.fullG d) →
      (p.toNat / 2 ^ 58 = 63 → exec i s = .next (s.takeTrap ⟨.format, p⟩)) ∧
      (p.toNat / 2 ^ 58 ≠ 63 → (ea < 0 ∨ 2 ^ 56 < ea + 8) → exec i s = .next (s.takeTrap ⟨.illegalOperand, 1⟩)) ∧
      (p.toNat / 2 ^ 58 ≠ 63 → 0 ≤ ea → ea + 8 ≤ 2 ^ 56 → va % 8 ≠ 0 →
        exec i s = .next (s.takeTrap ⟨.alignment, BitVec.ofNat 64 va⟩))) ∧
    (p.toNat / 2 ^ 58 ≠ 63 → 0 ≤ ea → ea + 8 ≤ 2 ^ 56 → va % 8 = 0 → s.me.hbmWaits va 8 = false →
      s.me.phase = .idle → sideHit s.me.sideLog va 8 = false → (s.gangOf s.cur).det = false →
      (∀ x, s.freeG d → Tab.get none s.me.l1 line = some x → ∃ (t : State) (tn : Bool), exec load s = .next t ∧
        t.me.g = (s.me.writeG d (x.bytes.extractLsb' (8 * (va % 64)) 64) tn).g ∧ t.me.p = s.me.p ∧ t.mem = s.mem) ∧
      (∀ pa, s.freeG d → Tab.get none s.me.l1 line = none → s.coreXlate s.cur l (va / 64 * 64) 0 = .ok pa →
        s.bad pa 64 = none →
        ∃ (t : State) (tn : Bool) (x : L1Line), exec load s = .next t ∧
          t.me.g = (s.me.writeG d (BitVec.ofNat 64 (natOfBytes (s.mem.readN (pa + va % 64) 8))) tn).g ∧
          t.me.p = s.me.p ∧ t.mem = s.mem ∧ Tab.get none t.me.l1 line = some x ∧ x.pa = pa ∧
          x.bytes.toNat = natOfBytes (s.mem.readN pa 64)) ∧
      (∀ e, s.freeG d → Tab.get none s.me.l1 line = none → s.coreXlate s.cur l (va / 64 * 64) 0 = .error e →
        ∃ (t : State) (f : XFault), exec load s = .next t ∧ t.xfaults = s.xfaults ++ [f] ∧
          t.me = { s.me with phase := .xlate f.token } ∧ f.va = va ∧ f.access = 0 ∧ f.ag = .core s.cur ∧
          f.kind = e.kind ∧ f.posted = false ∧ t.mem = s.mem) ∧
      (∀ pa, s.fullG d → s.storeWaits s.cur va 8 = false → s.coreXlate s.cur l va 1 = .ok pa → (s.launch l).rcd.red = false → s.noCast →
        s.badPartial pa 8 = none → ∃ t : State, exec store s = .next t ∧
          natOfBytes (t.mem.readN pa 8) = (s.me.gv d).toNat ∧ sameBytesBut s t pa 8 ∧
          (∀ i < 8, Tab.get false t.taint (pa + i) = (s.me.gt d || s.me.ct)) ∧ sameRegs s.me t.me) ∧
      (∀ e, s.fullG d → s.storeWaits s.cur va 8 = false → s.coreXlate s.cur l va 1 = .error e →
        (s.launch l).rcd.red = false → ∃ (t : State) (y : SideEntry),
        exec store s = .next t ∧ t.me.sideLog = s.me.sideLog ++ [y] ∧ y.va = va ∧ y.atomic = none ∧
          natOfBytes (y.bytes.map Prod.fst) = (s.me.gv d).toNat ∧ y.refused = none ∧ t.mem = s.mem ∧
          sameRegs s.me t.me))

/-- gldv, gstv, gldt and gstt check their addresses at the push and join the vector queue with them (R315, R316). -/
def Sys2Proof.Claims.GlobalVectorsQueue : Prop :=
  ∀ (s : State), s.queueRoom →
    (∀ o : GvO, s.ready (len2 o.q) o.q → s.fullG o.a →
      let p := s.me.gv o.a
      let ea : Int := (if o.space = 0 then p.toNat % 2 ^ 56 else p.toNat % 2 ^ 19 : Nat) + o.off.toInt
      let k : ClusterId := ⟨s.cur.die, p.extractLsb' 19 10⟩
      ∀ x ∈ [(Instr.gldv o, VKind.gldv), (.gstv o, .gstv)],
        let op := gmemOp x.2 o.d .i8 (if o.space = 0 then 0 else 1 + k.cl.toNat) ea.toNat
        let bad : Prop := if o.space = 0 then ea < 0 ∨ 2 ^ 56 < ea + 512
          else p.toNat / 2 ^ 29 ≠ 0 ∨ s.occupies k = false ∨ ea < 0 ∨ 2 ^ 19 < ea + 512
        let null : Prop := o.space = 0 ∧ p.toNat / 2 ^ 58 = 63
        (null → exec x.1 s = .next (s.takeTrap ⟨.format, p⟩)) ∧
        (¬null → bad → exec x.1 s = .next (s.takeTrap ⟨.illegalOperand, 1⟩)) ∧
        (¬null → ¬bad → ea.toNat % 64 ≠ 0 →
          exec x.1 s = .next (s.takeTrap ⟨.alignment, BitVec.ofNat 64 ea.toNat⟩)) ∧
        (¬null → ¬bad → ea.toNat % 64 = 0 → s.me.vopTrap op = none →
          exec x.1 s = s.putCore (len2 o.q) o.q
            { s.me with vq := s.me.vq ++ [s.newEntry op (some o.a) none none], accesses := s.me.accesses + 1 })) ∧
    (∀ o : GtO, s.ready (len2 o.q) o.q → s.fullG o.a → s.fullG o.b →
      let p := s.me.gv o.a
      let f := p.toNat / 2 ^ 58
      let blk := p.toNat / 2 ^ 56 % 4
      let va := p.toNat % 2 ^ 56
      let n := (s.me.gv o.b).toNat
      let names (c : Nat) : Prop := ETy.ofCode (BitVec.ofNat 4 c) = o.t
      let chunk := 17 ≤ f
      let tagOk : Prop := (f = 0 ∧ blk = 0) ∨ (1 ≤ f ∧ f ≤ 16 ∧ blk = 0 ∧ names (f - 1)) ∨
        (17 ≤ f ∧ f ≤ 31 ∧ blk ≠ 3 ∧ names (f - 17))
      let bits := if chunk then 8 * 576 * n else n * o.t.width
      let at_ := va + bits / 8
      let unit := if chunk then 64 else if f = 0 ∨ o.t.width = 4 then 1 else o.t.width / 8
      ∀ x ∈ [(Instr.gldt o, VKind.gldt), (.gstt o, .gstt)],
        let op := gmemOp x.2 o.d o.t (if chunk then 1 else 0) at_
        (¬tagOk → exec x.1 s = .next (s.takeTrap ⟨.format, p⟩)) ∧
        (tagOk → 2 ^ 56 < at_ + (if chunk then 576 else 512) → exec x.1 s = .next (s.takeTrap ⟨.illegalOperand, 2⟩)) ∧
        (tagOk → at_ + (if chunk then 576 else 512) ≤ 2 ^ 56 → chunk → o.d.toNat % 2 = 1 →
          exec x.1 s = .next (s.takeTrap ⟨.illegalOperand, 3⟩)) ∧
        (tagOk → at_ + (if chunk then 576 else 512) ≤ 2 ^ 56 → (chunk → o.d.toNat % 2 = 0) →
          (va % unit ≠ 0 → exec x.1 s = .next (s.takeTrap ⟨.alignment, BitVec.ofNat 64 va⟩)) ∧
          (va % unit = 0 → (bits % 8 ≠ 0 ∨ at_ % 64 ≠ 0) →
            exec x.1 s = .next (s.takeTrap ⟨.alignment, BitVec.ofNat 64 at_⟩)) ∧
          (va % unit = 0 → bits % 8 = 0 → at_ % 64 = 0 → s.me.vopTrap op = none →
            exec x.1 s = s.putCore (len2 o.q) o.q
              { s.me with vq := s.me.vq ++ [s.newEntry op (some o.a) (some o.b) none],
                          accesses := s.me.accesses + 1 })))

/-- gred, its address translated, sends a reduction to its line's home slice and writes no register; one that faults enters
the side log, or holds its unit while there is no room for it (R336); the codes of swap, compare-and-swap and read, and FP32
add at 8 bytes, trap. Performed, it leaves the operation's result at its address and nothing else (R317). -/
def Sys2Proof.Claims.Reductions : Prop :=
  (∀ (s : State) (o : GredO), s.ready (len2 o.q) o.q →
    let k := s.me
    let p := k.gv o.a
    let va := p.toNat % 2 ^ 56
    let n := if o.sz = 1 then 8 else 4
    let refused : Prop := o.op.toNat < 2 ∨ o.op = 11 ∨ (o.op = 10 ∧ o.sz = 1)
    (refused → exec (.gred o) s = .next (s.takeTrap ⟨.illegalOperand, 0⟩)) ∧
    (¬refused → s.fullG o.a → s.fullG o.b →
      (p.toNat / 2 ^ 58 = 63 → exec (.gred o) s = .next (s.takeTrap ⟨.format, p⟩)) ∧
      (p.toNat / 2 ^ 58 ≠ 63 → va % n ≠ 0 →
        exec (.gred o) s = .next (s.takeTrap ⟨.alignment, BitVec.ofNat 64 va⟩)) ∧
      (p.toNat / 2 ^ 58 ≠ 63 → va % n = 0 → k.vq = [] → k.inflight = [] →
        let asks (x : AtomicOp) : Prop := x.reduction = true ∧ x.va = va ∧ x.op = o.op ∧ x.wide = (o.sz == 1) ∧
          x.b = k.gv o.b ∧ x.taintB = k.gt o.b ∧ x.ct = k.ct ∧ x.token = none ∧ x.status = none ∧
          ∀ y ∈ k.atomics, y.num ≠ x.num
        (∀ pa, s.coreXlate s.cur (s.launchIx s.cur) va 2 = .ok pa →
          ∃ (t : State) (x : AtomicOp), exec (.gred o) s = .next t ∧ t.me.atomics = k.atomics ++ [x] ∧ asks x ∧
            x.pa = some pa ∧ sameRegs k t.me ∧ t.mem = s.mem) ∧
        (∀ e, s.coreXlate s.cur (s.launchIx s.cur) va 2 = .error e →
          let first : Prop := k.sideLog.length < 64 ∧ (∀ y ∈ k.atomics, y.va / 64 ≠ va / 64) ∧ sideHit k.sideLog va n = false
          (¬first → exec (.gred o) s = .next s) ∧
          (first → ∃ (t : State) (y : SideEntry) (x : AtomicOp), exec (.gred o) s = .next t ∧
            t.me.sideLog = k.sideLog ++ [y] ∧ y.va = va ∧ y.bytes = [] ∧ y.atomic = some x ∧ asks x ∧ y.refused = none ∧
            t.me.atomics = k.atomics ∧ sameRegs k t.me ∧ t.mem = s.mem))))) ∧
  (∀ (s : State) (c : CoreId), (∀ x ∈ (s.core c).atomics, x.reduction = false) →
    exec (.reductionPerform c) s = .next s) ∧
  (∀ (s : State) (c : CoreId) (x : AtomicOp) (rest : List AtomicOp) (pa : Nat), (s.core c).atomics = x :: rest →
    (∀ y ∈ rest, y.num ≠ x.num) → x.reduction = true → sideHit (s.core c).sideLog x.va x.size = false →
    (s.gangOf c).rr = 0 → (s.gangOf c).det = false → (s.launchOf c).rcd.red = false →
    (x.pa = none → s.xlate (s.launchIx c) x.va 2 = .ok pa) → (∀ p, x.pa = some p → p = pa) → s.bad pa x.size = none →
    s.noCast →
    let n := if x.wide then 8 else 4
    let w := 8 * n
    let old := natOfBytes (s.mem.readN pa n)
    let b := x.b.toNat % 2 ^ w
    let sg (v : Nat) : Int := if v < 2 ^ (w - 1) then v else (v : Int) - 2 ^ w
    let becomes (v : Nat) : Prop := ∃ t : State, exec (.reductionPerform c) s = .next t ∧
      natOfBytes (t.mem.readN pa n) = v ∧ (∀ a, a < pa ∨ pa + n ≤ a → t.mem.read a = s.mem.read a) ∧
      (t.core c).atomics = rest ∧ (t.core c).arrivals = (s.core c).arrivals ∧ sameRegs (s.core c) (t.core c)
    (x.op = 2 → becomes ((old + b) % 2 ^ w)) ∧
    (x.op = 3 → becomes (old &&& b)) ∧ (x.op = 4 → becomes (old ||| b)) ∧ (x.op = 5 → becomes (old ^^^ b)) ∧
    (x.op = 6 → becomes (if sg b < sg old then b else old)) ∧ (x.op = 7 → becomes (if sg old < sg b then b else old)) ∧
    (x.op = 8 → becomes (min old b)) ∧ (x.op = 9 → becomes (max old b)) ∧
    (x.op = 10 → x.wide = false →
      becomes ((encodeRne .f32 (Val.add .rne (decodeVal .f32 old) (decodeVal .f32 b)).1).1 % 2 ^ w)))

/-- Global vector accesses join the queue; gred reduces at the home slice, as the parts named below state. -/
def Obligations.GlobalVectorsAndReductions : Prop :=
  Claims.GlobalVectorsQueue ∧ Claims.Reductions

/-- gsend gives the element of a full vector register to the rin port bound to its channel, gpfill copies chunks of local
memory into sample slots of a pass SRAM, and grecv takes the oldest element of a rout port, which is on its way to its
register when the instruction completes; each waits while its port has no room or nothing (R318, R319). -/
def Sys2Proof.Claims.ChannelsAndPassSram : Prop :=
  ∀ (s : State) (die : BitVec 4) (ramp : BitVec 7), s.cur = .ramp die ramp →
    (∀ o : GsendO, s.ready (len2 o.q) o.q →
      (s.channelPort die ramp o.chan = none → exec (.gsend o) s =
        .next (if s.aborted s.cur then s.takeTrap ⟨.aborted, 3⟩ else s)) ∧
      (∀ c n p, s.channelPort die ramp o.chan = some (c, n, p) →
        (p.kind = .rout → exec (.gsend o) s = .next (s.takeTrap ⟨.illegalOperand, 0⟩)) ∧
        (p.kind = .rin → s.aborted s.cur = true → exec (.gsend o) s = .next (s.takeTrap ⟨.aborted, 3⟩)) ∧
        (p.kind = .rin → s.aborted s.cur = false → 2 ≤ p.buf.length → exec (.gsend o) s = .next s) ∧
        (p.kind = .rin → s.aborted s.cur = false → p.buf.length < 2 → s.me.vecNames o.a.toNat = false →
          (s.me.vreg o.a).fill = .full → coreNum c ≠ coreNum s.cur → ∃ t : State, exec (.gsend o) s = .next t ∧
            Tab.get none (t.core c).ports n = some { p with buf := p.buf ++ [((s.me.vreg o.a).val, (s.me.vreg o.a).taint)] } ∧
            sameRegs s.me t.me ∧ t.mem = s.mem))) ∧
    (∀ o : GrecvO, s.ready (len2 o.q) o.q →
      (∀ c n p, s.channelPort die ramp o.chan = some (c, n, p) →
        (p.kind = .rin → exec (.grecv o) s = .next (s.takeTrap ⟨.illegalOperand, 0⟩)) ∧
        (p.kind = .rout → s.aborted s.cur = true → exec (.grecv o) s = .next (s.takeTrap ⟨.aborted, 3⟩)) ∧
        (p.kind = .rout → s.aborted s.cur = false → p.buf = [] → exec (.grecv o) s = .next s) ∧
        (∀ x rest, p.kind = .rout → s.aborted s.cur = false → p.buf = x :: rest → s.me.vecNames o.d.toNat = false →
          (s.me.vreg o.d).fill ≠ .pending → coreNum c ≠ coreNum s.cur → ∃ t : State, exec (.grecv o) s = .next t ∧
            Tab.get none (t.core c).ports n = some { p with buf := rest } ∧ (t.me.vreg o.d).fill = .pending ∧
            t.me.arrivals = s.me.arrivals ++ [.v o.d x.1 (x.2 || s.me.ct)] ∧ (∀ v, v ≠ o.d → t.me.vreg v = s.me.vreg v) ∧
            t.me.g = s.me.g ∧ t.mem = s.mem))) ∧
    (∀ o : GpfO, s.ready (len2 o.q) o.q → s.fullG o.a → s.fullG o.b →
      let n := o.nch.toNat + 1
      let a := (s.me.gv o.a).toNat
      let w := s.me.gv o.b
      let slot := w.toNat / 64 % 2 ^ 13
      let slotsOk : Prop := w.toNat < 2 ^ 19 ∧ slot % 8 = 0 ∧ slot + 8 * n ≤ 7680
      let base := passBase ⟨die, w.extractLsb' 0 5⟩ (w.getLsbD 5)
      (a % 64 ≠ 0 → exec (.gpfill o) s = .next (s.takeTrap ⟨.alignment, BitVec.ofNat 64 a⟩)) ∧
      (a % 64 = 0 → 2 ^ 15 < a + 576 * n → exec (.gpfill o) s = .next (s.takeTrap ⟨.illegalOperand, 1⟩)) ∧
      (a % 64 = 0 → a + 576 * n ≤ 2 ^ 15 → ¬slotsOk → exec (.gpfill o) s = .next (s.takeTrap ⟨.illegalOperand, 2⟩)) ∧
      (a % 64 = 0 → a + 576 * n ≤ 2 ^ 15 → slotsOk → s.me.vecTouchesLocal a (576 * n) = false →
        s.bad (localBase s.cur + a) (576 * n) = none → (s.gangOf s.cur).det = false →
        ∃ t : State, exec (.gpfill o) s = .next t ∧ sameRegs s.me t.me ∧
          (∀ k < n, ∀ i < 512, t.mem.read (base + 64 * (slot + 8 * k) + i) =
            s.mem.read (localBase s.cur + a + 576 * k + i)) ∧
          (∀ k < n, ∀ i < 32, t.mem.read (base + 491520 + 4 * (slot + 8 * k) + i) =
            s.mem.read (localBase s.cur + a + 576 * k + 512 + i)) ∧
          (∀ x, (x < base + 64 * slot ∨ base + 64 * (slot + 8 * n) ≤ x) →
            (x < base + 491520 + 4 * slot ∨ base + 491520 + 4 * (slot + 8 * n) ≤ x) → t.mem.read x = s.mem.read x)))

/-- ginj copies 1,024 bytes of HBM into a tile at a station of a cluster of its die that its launch occupies: a cluster it does
not occupy, a null or misaligned pointer, and a header or coordinate that rinj refuses trap (R320). That a range past
2^56 traps ILLEGAL_OPERAND 1 is the model’s choice: log entry 41. -/
def Sys2Proof.Claims.HbmInjections : Prop :=
  ∀ (s : State) (o : RinjrO), s.ready (len2 o.q) o.q → s.fullG o.a → s.fullG o.b → s.fullG o.d → s.me.phase = .idle →
    let k : ClusterId := ⟨s.cur.die, o.cluster⟩
    let y := s.cluster k
    let f : Fam := if o.fam = 0 then .a else .b
    let p := s.me.gv o.a
    let va := p.toNat % 2 ^ 56
    let hw := s.me.gv o.b
    let cw := s.me.gv o.d
    let headOk : Prop := hw.extractLsb' 56 8 = 0 ∧ hw.extractLsb' 48 8 ≠ 0 ∧ s.me.gt o.b = false ∧ s.me.ct = false
    let coordOk : Prop := cw.extractLsb' 48 16 = 0 ∧ s.me.gt o.d = false
    (s.occupies k = false → exec (.ginj o) s = .next (s.takeTrap ⟨.illegalOperand, 0⟩)) ∧
    (s.occupies k = true → p.toNat / 2 ^ 58 = 63 → exec (.ginj o) s = .next (s.takeTrap ⟨.format, p⟩)) ∧
    (s.occupies k = true → p.toNat / 2 ^ 58 ≠ 63 → va % 64 ≠ 0 →
      exec (.ginj o) s = .next (s.takeTrap ⟨.alignment, BitVec.ofNat 64 va⟩)) ∧
    (s.occupies k = true → p.toNat / 2 ^ 58 ≠ 63 → va % 64 = 0 → 2 ^ 56 < va + 1024 →
      exec (.ginj o) s = .next (s.takeTrap ⟨.illegalOperand, 1⟩)) ∧
    (s.occupies k = true → p.toNat / 2 ^ 58 ≠ 63 → va % 64 = 0 → va + 1024 ≤ 2 ^ 56 →
      (¬headOk → exec (.ginj o) s = .next (s.takeTrap ⟨.illegalOperand, 2⟩)) ∧
      (headOk → ¬coordOk → exec (.ginj o) s = .next (s.takeTrap ⟨.illegalOperand, 3⟩)) ∧
      (∀ home : Nat → Nat, headOk → coordOk → y.abortLine = false → (y.ring.state = .idle ∨ y.ring.state = .done ∨ y.ring.inj < 65535) →
        s.me.hbmWaits va 1024 = false → sideHit s.me.sideLog va 1024 = false → s.me.l1 = [] →
        (∀ a, s.tlbHit s.cur (s.launchIx s.cur) a 0 = none) → (s.gangOf s.cur).det = false →
        (∀ j < 16, s.xlate (s.launchIx s.cur) (va + 64 * j) 0 = .ok (home j) ∧ s.bad (home j) 64 = none) →
        y.ring.throughFree f o.station.toNat = true →
        (∀ u, (y.ring.places f o.station.toNat).lay0 ≠ some (u, .queued) ∧
          (y.ring.places f o.station.toNat).lay1 ≠ some (u, .queued)) →
        ∃ (t : State) (n : Tile), exec (.ginj o) s = .next t ∧ t.mem = s.mem ∧ sameRegs s.me t.me ∧
          ((t.cluster k).ring.places f o.station.toNat).through = some n ∧ n.hdr.tag = hw.extractLsb' 0 32 ∧
          n.hdr.toll = hw.extractLsb' 32 16 ∧ n.hdr.hops = hw.extractLsb' 48 8 ∧ n.hdr.origin = o.station ∧
          n.hdr.i = cw.extractLsb' 0 16 ∧ n.hdr.j = cw.extractLsb' 16 16 ∧ n.hdr.k = cw.extractLsb' 32 16 ∧
          ∀ j < 16, ∀ b < 64, n.pay.bytes.extractLsb' (8 * (64 * j + b)) 8 = s.mem.read (home j + b)))

/-- Ramp channels, filling of pass SRAM, and injection from HBM, as the parts named below state (log entry 41). -/
def Obligations.ChannelsPassSramAndInjection : Prop :=
  Claims.ChannelsAndPassSram ∧ Claims.HbmInjections

/-- tmwr loads a map entry from 128 local bytes, untainted ones only. tmld writes every element of the walk to local memory,
HBM's bytes where its coordinates are inside the tensor and zeros where not, and zeros after each row; tmst stores
the inside elements from local memory. An empty entry, a misaligned local address and a range past 0x7FFF trap (R321 to R324). -/
def Obligations.TensorMaps : Prop :=
  ∀ (s : State),
    (∀ o : TmwO, s.ready (len2 o.q) o.q → s.fullG o.a →
      let a := (s.me.gv o.a).toNat
      let m := tensorMap (s.mem.readN (localBase s.cur + a) 128)
      (a % 64 ≠ 0 → exec (.tmwr o) s = .next (s.takeTrap ⟨.alignment, BitVec.ofNat 64 a⟩)) ∧
      (a % 64 = 0 → 0x7F80 < a → exec (.tmwr o) s = .next (s.takeTrap ⟨.illegalOperand, 1⟩)) ∧
      (a % 64 = 0 → a ≤ 0x7F80 → s.me.vecTouchesLocal a 128 = false → s.bad (localBase s.cur + a) 128 = none →
        (s.gangOf s.cur).det = false →
        let clean : Prop := s.me.gt o.a = false ∧ s.me.ct = false ∧ ∀ i < 128, Tab.get false s.taint (localBase s.cur + a + i) = false
        ((m = none ∨ ¬clean) → exec (.tmwr o) s = .next (s.takeTrap ⟨.illegalOperand, 1⟩)) ∧
        (m ≠ none → clean → exec (.tmwr o) s = s.putCore (len2 o.q) o.q
          { s.me with tmaps := Tab.put none s.me.tmaps o.map.toNat m }))) ∧
    (∀ (o : TmO) (m : TensorMap), s.ready (len2 o.q) o.q → s.fullG o.a → s.fullG o.d → s.me.phase = .idle →
      s.me.tmap o.map = m →
      let d := (s.me.gv o.d).toNat
      let n := m.rows * m.rowLen
      let x := s.me.gv o.a
      let l := s.launchIx s.cur
      let here := localBase s.cur
      (∀ i ∈ [Instr.tmld o, .tmst o],
        (m.rank = 0 → exec i s = .next (s.takeTrap ⟨.illegalOperand, 0⟩)) ∧
        (m.rank ≠ 0 → d % 8 ≠ 0 → exec i s = .next (s.takeTrap ⟨.alignment, BitVec.ofNat 64 d⟩)) ∧
        (m.rank ≠ 0 → d % 8 = 0 → 2 ^ 15 < d + m.rows * m.rowBytes →
          exec i s = .next (s.takeTrap ⟨.illegalOperand, 3⟩))) ∧
      (m.rank ≠ 0 → m.ok = true → d % 8 = 0 → d + m.rows * m.rowBytes ≤ 2 ^ 15 →
        s.me.vecTouchesLocal d (m.rows * m.rowBytes) = false → s.me.hbmBusy = false → s.me.sideLog = [] →
        (s.gangOf s.cur).det = false →
        (∀ i < n, m.inside x i = true → 0 ≤ m.elemAddr x i ∧ m.elemAddr x i + m.esize ≤ 2 ^ 56) →
        (∀ home : Nat → Nat, s.me.l1 = [] → (∀ va, s.tlbHit s.cur l va 0 = none) → s.bad (here + d) (m.rows * m.rowBytes) = none →
          (∀ i < n, m.inside x i = true → ∀ b < m.esize, let y := ((m.elemAddr x i).toNat + b) / 64
            s.xlate l (64 * y) 0 = .ok (home y) ∧ s.bad (home y) 64 = none) →
          ∃ t : State, exec (.tmld o) s = .next t ∧ sameRegs s.me t.me ∧ sameBytesBut s t (here + d) (m.rows * m.rowBytes) ∧
            (∀ i < n, m.inside x i = true → ∀ b < m.esize, let y := (m.elemAddr x i).toNat + b
              t.mem.read (here + m.localAddr d i + b) = s.mem.read (home (y / 64) + y % 64)) ∧
            (∀ i < n, m.inside x i = false →
              natOfBytes (t.mem.readN (here + m.localAddr d i) m.esize) = zeroCode m.ty) ∧
            (∀ r < m.rows, ∀ b, m.rowLen * m.esize ≤ b → b < m.rowBytes →
              t.mem.read (here + d + r * m.rowBytes + b) = 0)) ∧
        (∀ home : Nat → Nat, (s.launch l).rcd.red = false → s.noCast → (∀ va, s.tlbHit s.cur l va 1 = none) →
          s.bad (here + d) (m.rows * m.rowBytes) = none →
          (∀ i < n, m.inside x i = true → (m.elemAddr x i).toNat % 64 + m.esize ≤ 64 ∧ s.badPartial (home i) m.esize = none ∧
            ∀ mem : Memory, (∀ a, (∀ j < n, m.inside x j = true → a < home j ∨ home j + m.esize ≤ a) → mem.read a = s.mem.read a) →
              ({ s with mem := mem } : State).xlate l (m.elemAddr x i).toNat 1 = .ok (home i)) →
          ∃ t : State, exec (.tmst o) s = .next t ∧ sameRegs s.me t.me ∧
            (∀ a, (∀ j < n, m.inside x j = true → a < home j ∨ home j + m.esize ≤ a) → t.mem.read a = s.mem.read a) ∧
            (∀ i < n, m.inside x i = true →
              (∀ j < n, i < j → m.inside x j = true → home j + m.esize ≤ home i ∨ home i + m.esize ≤ home j) →
              ∀ b < m.esize, t.mem.read (home i + b) = s.mem.read (here + m.localAddr d i + b)))))

/-- The oldest unposted fault of an agent goes to its owner, the hypervisor for stage 2 and the partition's system software for
stage 1; a change of a translation drops the partition's L1 copies of the lines it covers and its TLB entries; an allocated line is
pinned in its set, the unpinned way least recently used making room in a full one, or waits while the set has no unpinned
way, and an unpin drops a pin (R325, R326, R329, R333, R334). -/
def Obligations.TranslationEvents : Prop :=
  ∀ (s : State),
    (∀ ag, (∀ f ∈ s.xfaults, f.ag = ag → f.posted = true) → exec (.translationFault ag) s = .next s) ∧
    (∀ ag f, s.xfaults.find? (fun f => f.ag == ag && !f.posted) = some f → ∃ t : State,
      exec (.translationFault ag) s = .next t ∧
      t.xfaults = s.xfaults.map (fun y => if y.token = f.token then { y with posted := true } else y) ∧
      let m : Mail := .xlate f.va f.gpa f.stage2 f.nested f.kind f.level f.access f.ag f.part f.token
      (f.stage2 = true → t.hypMail = s.hypMail ++ [m] ∧ t.sysMail = s.sysMail) ∧
      (f.stage2 = false → t.hypMail = s.hypMail ∧ Tab.get [] t.sysMail f.part.toNat = Tab.get [] s.sysMail f.part.toNat ++ [m]) ∧
      t.cores = s.cores ∧ t.mem = s.mem) ∧
    (∀ part va len, ∃ t : State, exec (.translationChange part va len) s = .next t ∧ t.mem = s.mem ∧
      ∀ (die : BitVec 4) (i : BitVec 7), let c := CoreId.ramp die i
        (Tab.wf none (s.core c).l1 = true → ∀ n x, Tab.get none (s.core c).l1 n = some x →
          let a := n % 2 ^ 50 * 64
          Tab.get none (t.core c).l1 n = if x.part = part ∧ a < va + len ∧ va < a + 64 then none else some x) ∧
        (∀ n e, e ∈ Tab.get [] (t.die die).tlbs n → e ∈ Tab.get [] (s.die die).tlbs n ∧
          ¬((Tab.get Vf.blank s.vfs e.vf).part = part ∧ e.page * 4096 < va + len ∧ va < e.page * 4096 + 4096)) ∧
        sameRegs (s.core c) (t.core c)) ∧
    (∀ r : LineReq, let n := setOf r.rdc r.line
      let old := (s.die r.die).set r.rdc n
      let next (t : State) := (t.die r.die).set r.rdc n
      let here : Prop := (r.rdc = true ↔ BitVec.ofNat 4 (r.line * 64 / 2 ^ 40) ≠ r.die)
      (¬here → exec (.lineAllocate r) s = .next s) ∧
      (here → r.unpin = false → (s.die r.die).lineWaits = [] → (∀ x ∈ old, x.line ≠ r.line) →
        (old.length < 16 → ∃ t : State, exec (.lineAllocate r) s = .next t ∧
          next t = old ++ [⟨r.line, 1, s.clock⟩] ∧ (t.die r.die).lineWaits = [] ∧ t.mem = s.mem ∧ t.cores = s.cores) ∧
        (∀ i w, 16 ≤ old.length → old[i]? = some w → w.pins = 0 →
          (∀ j v, old[j]? = some v → v.pins = 0 → w.used ≤ v.used ∧ (v.used = w.used → i ≤ j)) →
          ∃ t : State, exec (.lineAllocate r) s = .next t ∧ next t = old.set i ⟨r.line, 1, s.clock⟩ ∧
            (t.die r.die).lineWaits = [] ∧ t.mem = s.mem ∧ t.cores = s.cores) ∧
        (16 ≤ old.length → (∀ x ∈ old, x.pins ≠ 0) → ∃ t : State, exec (.lineAllocate r) s = .next t ∧
          next t = old ∧ (t.die r.die).lineWaits = [r] ∧ t.mem = s.mem ∧ t.cores = s.cores)) ∧
      (here → r.unpin = true → (s.die r.die).lineWaits = [] → ∃ t : State, exec (.lineAllocate r) s = .next t ∧
        next t = old.map (fun x => if x.line = r.line then { x with pins := x.pins - 1 } else x) ∧
        t.mem = s.mem ∧ t.cores = s.cores))

/-! ### Record and replay -/

/-- dstat gives the die's DSTAT of the launch, tainted; dclr clears its conflict and host-taint fields; dmark logs a marker
under recording and only goes on when off; ddrain waits until every entry that the die, for any of its launches, logged
before it has drained (R355, R359, R363, R364). -/
def Sys2Proof.Claims.DeterminismState : Prop :=
  ∀ (s : State),
    let c := s.cur
    let l := s.launchIx c
    let d := (s.launchOf c).dstat c.die
    let log := (s.launchOf c).log c.die
    (∀ o : XD, s.ready (len2 o.q) o.q → s.freeG o.d → ∃ w : DWord,
      exec (.dstat o) s = s.putCore (len2 o.q) o.q (s.me.writeG o.d w true) ∧ w.getLsbD 63 = d.conf ∧
      w.getLsbD 62 = d.trunc ∧ w.getLsbD 61 = d.rpend ∧ w.getLsbD 60 = d.hostt ∧ w.extractLsb' 58 2 = d.space ∧
      w.extractLsb' 56 2 = 0 ∧ w.extractLsb' 0 56 = d.addr) ∧
    (∀ (o : XQ) (x : Launch), s.ready (len2 o.q) o.q → Tab.get none s.launches l = some x →
      ∃ t : State, exec (.dclr o) s = .next t ∧
        (t.launch l).dstat c.die = { d with conf := false, hostt := false, space := 0, addr := 0 } ∧
        (∀ e, e ≠ c.die → (t.launch l).dstat e = x.dstat e) ∧ sameRegs s.me t.me ∧ t.mem = s.mem) ∧
    (∀ o : XA, s.ready (len2 o.q) o.q → s.fullG o.a →
      ((s.gangOf c).rr = 0 → ∃ t : State, exec (.dmark o) s = .next t ∧ sameRegs s.me t.me ∧ t.mem = s.mem ∧
        t.launches = s.launches) ∧
      (∀ x, (s.gangOf c).rr = 1 → Tab.get none s.launches l = some x → log.stopped = false → s.buffered c.die < 8192 →
        ∃ (t : State) (e : LogEntry), exec (.dmark o) s = .next t ∧ ((t.launch l).log c.die).buffer = log.buffer ++ [e] ∧
          ((t.launch l).log c.die).next = log.next + 1 ∧ e.index = log.next ∧ e.kind = 10 ∧ e.unit = coreNum c ∧
          e.pc = s.me.pc ∧ e.va = s.me.gv o.a ∧ e.vb = 0 ∧ sameRegs s.me t.me ∧ t.mem = s.mem) ∧
      ((s.gangOf c).rr = 1 → log.stopped = false → 8192 ≤ s.buffered c.die → exec (.dmark o) s = .next s)) ∧
    (∀ o : XQ, s.ready (len2 o.q) o.q →
      let logOf (m : Nat) : DieLog := (s.launch m).log c.die
      let written (xs : List (Nat × Nat)) : Prop := ∀ x ∈ xs, (logOf x.1).stopped = true ∨ x.2 ≤ (logOf x.1).drained
      let all : List (Nat × Nat) := s.launches.map fun x => (x.1, (logOf x.1).next)
      let goes : Prop := exec (.ddrain o) s = s.putCore (len2 o.q) o.q { s.me with phase := .idle }
      ((s.gangOf c).rr ≠ 1 → goes) ∧
      ((s.gangOf c).rr = 1 → s.me.phase = .idle → (written all → goes) ∧
        (¬written all → exec (.ddrain o) s = .next (s.setMe { s.me with phase := .ddrain all }))) ∧
      (∀ xs, (s.gangOf c).rr = 1 → s.me.phase = .ddrain xs → (written xs → goes) ∧
        (¬written xs → exec (.ddrain o) s = .next (s.setMe s.me))))

/-- The oldest buffered entry of a die's log goes to its 32 bytes of the log region; one that does not fit stops the recording
and sets TRUNC (R359, R360). A divergence traps its core with its record sent to the supervisor (R362). The even
split of the region over the dies is a reading: log entry 11. -/
def Sys2Proof.Claims.LogsDrain : Prop :=
  ∀ (s : State),
    (∀ d, (∀ p ∈ s.launches, ((s.launch p.1).log d).buffer = []) → exec (.logDrain d) s = .next s) ∧
    (∀ d l e es x, (s.launches.map Prod.fst).find? (fun n => !((s.launch n).log d).buffer.isEmpty) = some l →
      Tab.get none s.launches l = some x → (x.log d).buffer = e :: es →
      let base := (x.rcd.logPart d).1
      let size := (x.rcd.logPart d).2
      (32 * (e.index + 1) ≤ size → ∃ t : State, exec (.logDrain d) s = .next t ∧
        ((t.launch l).log d).buffer = es ∧ ((t.launch l).log d).drained = (x.log d).drained + 1 ∧
        (∀ pa, s.noCast → base % 32 = 0 → s.xlate l (base + 32 * e.index) 1 = .ok pa → s.badPartial pa 32 = none →
          t.mem.readN pa 32 = bytesOfNat 4 e.index ++ bytesOfNat 4 (e.kind % 256 + e.unit % 2 ^ 21 * 2 ^ 8) ++
            bytesOfNat 4 e.pc.toNat ++ bytesOfNat 4 e.sstep.toNat ++ bytesOfNat 8 e.va.toNat ++ bytesOfNat 8 e.vb.toNat ∧
          ∀ a, a < pa ∨ pa + 32 ≤ a → t.mem.read a = s.mem.read a)) ∧
      (size < 32 * (e.index + 1) → ∃ t : State, exec (.logDrain d) s = .next t ∧ ((t.launch l).log d).buffer = [] ∧
        ((t.launch l).log d).stopped = true ∧ ((t.launch l).dstat d).trunc = true ∧ t.mem = s.mem)) ∧
    (∀ c, (s.core c).lateTrap = none → exec (.replayDivergence c) s = .next s) ∧
    (∀ c t pc, (s.core c).lateTrap = some (t, pc) → t.cause = .replayDiverge → (s.core c).park = none →
      ∃ (u : State) (p : Park), exec (.replayDivergence c) s = .next u ∧ (u.core c).park = some p ∧
        p.cause = .replayDiverge ∧ p.value = t.value ∧ p.pc = pc ∧ (u.core c).running = false ∧
        (u.core c).lateTrap = none ∧ (u.core c).tiPc = pc ∧ (u.core c).tiCause = 0x0D ∧ u.mem = s.mem ∧
        ∀ d, (s.launchOf c).divergeOf c t.value = some d → .diverge d ∈ Tab.get [] u.supMail c.die.toNat)

/-- DET instructions, the log’s drain and divergence, as the parts named below state (log entry 11). -/
def Obligations.DeterminismAndRecords : Prop :=
  Claims.DeterminismState ∧ Claims.LogsDrain

/-! ### Submission, placement, the end of launches -/

/-- A doorbell stores its queue's tail and sets its bit; the scheduler clears the next set bit in cyclic order and takes the
queue's entries up to its tail, each a new launch with the entry's identifier and tag, accepted or ended with the first check
that fails; a dependence that is met at acceptance starts the ageing, and one that has failed ends the launch (R367, R368,
R375). No second PIPE_CHECK stands in a mailbox for a launch that is not there yet. -/
def Sys2Proof.Claims.KicksTaken : Prop :=
  ∀ (s : State) (d : BitVec 4),
    let queue (t : State) (q : Nat) : Option Queue := Tab.get none (t.die d).queues q
    (∀ q tail, queue s q.toNat = none → exec (.doorbell d q tail) s = .next s) ∧
    (∀ (q : BitVec 8) (tail : BitVec 16) x, queue s q.toNat = some x → ∃ t : State, exec (.doorbell d q tail) s = .next t ∧
      queue t q.toNat = some { x with tail := tail.toNat % 2 ^ x.log2n } ∧
      (∀ p, p ≠ q.toNat → queue t p = queue s p) ∧
      (∀ p < 256, (t.die d).kicks.getLsbD p = (p == q.toNat || (s.die d).kicks.getLsbD p)) ∧
      t.launches = s.launches ∧ t.mem = s.mem) ∧
    (s.schedules d = false ∨ (s.die d).nextKick = none → exec (.kickTake d) s = .next s) ∧
    (∀ q x, s.schedules d = true → (s.die d).nextKick = some q → queue s q = some x →
      let n := (x.tail + 2 ^ x.log2n - x.head) % 2 ^ x.log2n
      let l := s.nextLaunch
      let asked (t : State) : Prop := (t.die d).kicks.getLsbD q = false ∧ (t.die d).lastQueue = q
      x.head < 2 ^ x.log2n → (∀ i < n, ∀ e, s.secondChecks (l + i) e = []) → ∃ t : State, exec (.kickTake d) s = .next t ∧
        asked t ∧ t.nextLaunch = l + n ∧ queue t q = some { x with head := (x.head + n) % 2 ^ x.log2n } ∧
        t.mem = s.mem ∧ t.cores = s.cores ∧
        (∀ m < l, ∀ z, Tab.get none s.launches m = some z →
          let now := z.state = .waiting ∧ z.depMet = false ∧ s.depState m = .met
          (n ≠ 0 → now → Tab.get none t.launches m = some z ∨
            Tab.get none t.launches m = some { z with depMet := true, waitFrom := s.clock }) ∧
          (n = 0 ∨ ¬now → Tab.get none t.launches m = some z)) ∧
        ∀ i < n,
          let fresh : Launch := { Launch.blank with die := d, queue := BitVec.ofNat 8 q }
          let new : State := { s with launches := Tab.put none s.launches (l + i) (some fresh) }
          let e := new.readVa (l + i) (x.base + 32 * ((x.head + i) % 2 ^ x.log2n)) 32
          let va := natOfBytes (e.take 8)
          let f : ImageBytes := fun a n => new.readVa (l + i) (va + a) n
          ∃ y : Launch, Tab.get none t.launches (l + i) = some y ∧
            y.die = d ∧ y.queue = BitVec.ofNat 8 q ∧ y.id.toNat = natOfBytes ((e.drop 12).take 4) ∧
            y.compTag.toNat = natOfBytes ((e.drop 16).take 8) ∧ y.reported = false ∧
            (imageInfo f va = none → y.state = .ended 3) ∧
            (∀ xs im, imageInfo f va = some (xs, im) →
              let rcd := new.recordOf (l + i) f xs (natOfBytes ((e.drop 8).take 2))
              (rcd = none → y.state = .ended 4) ∧
              (∀ r, rcd = some r → y.rcd = r ∧ y.gangs.length = r.gangs * (if r.red then 2 else 1) ∧
                ((∃ g < r.gangs, s.placeable r g = false) → y.state = .ended 5) ∧
                ((∀ g < r.gangs, s.placeable r g = true) →
                  (r.depValid = false → y.state = .waiting ∧ y.depMet = true) ∧
                  (r.depValid = true →
                    (t.depState (l + i) = .waits → y.state = .waiting ∧ y.depMet = false) ∧
                    (t.depState (l + i) = .met → y.state = .waiting ∧ y.depMet = true ∧ y.waitFrom = s.clock) ∧
                    (t.depState (l + i) = .failed → y.state = .ended 6))))))

/-- Of the launches that wait, each of one gang, GANG_PLACE takes the one of highest effective priority, of lowest ticket among
equals (R370), and puts its gang on the lowest good clusters of its die: rank r on
station r mod 64 of cluster r/64, every member about to run the launch body, its registers as at launch start, its
LFSR seeded, its local memory zeroed where the image has no local data (R14, R83, R131, R371, R372). Ageing raises the boost
of a waiting launch by the intervals it has waited (R370). -/
def Sys2Proof.Claims.GangsPlaced : Prop :=
  ∀ (s : State) (die : BitVec 4),
    (s.schedules die = false → exec (.gangPlace die) s = .next s) ∧
    (∀ (l : Nat) (x : Launch), s.schedules die = true → s.noCast → Tab.wf none s.launches = true →
      Tab.get none s.launches l = some x →
      (∀ m z, Tab.get none s.launches m = some z → z.state = .waiting ∧ z.depMet = true ∧ z.firstPlaced = none ∧
        z.reported = false ∧ z.rcd.gangs = 1 ∧ z.rcd.red = false ∧ z.rcd.dieOf 0 = die ∧ s.placementHeld m = false ∧
        ∃ y, z.gangs = [y] ∧ y.placed = false ∧ y.done = false ∧ y.partner = false ∧ y.thirdOf = none ∧ y.clusters = [] ∧
          y.ramps = []) →
      let eff (z : Launch) : Nat := min 7 (z.rcd.prio + (s.clock - z.waitFrom) / (1600 * max 1 s.conf.ageInt))
      let ticket (z : Launch) : Nat := Tab.get 0 z.tickets die.toNat
      (∀ m z, m ≠ l → Tab.get none s.launches m = some z → eff z < eff x ∨ (eff z = eff x ∧ ticket x < ticket z)) →
      x.rcd.prio < 8 → x.rcd.pinned = false → x.rcd.ramps = 0 →
      1 ≤ x.rcd.gangSize → x.rcd.clustersPer ≤ (s.goodClusters die).length →
      let cs := (s.goodClusters die).take x.rcd.clustersPer
      ∃ (t : State) (g : Gang), exec (.gangPlace die) s = .next t ∧ (t.launch l).gang 0 = g ∧
        (∀ m z, m ≠ l → Tab.get none s.launches m = some z → ∃ z', Tab.get none t.launches m = some z' ∧
          z'.state = .waiting ∧ z'.gangs = z.gangs) ∧
        (t.launch l).state = .running ∧ (t.launch l).firstPlaced = some s.clock ∧ g.placed = true ∧
        g.clusters = cs.map (die.toNat * 1024 + ·) ∧ g.members.length = x.rcd.gangSize ∧
        ∀ r < x.rcd.gangSize, ∃ c : CoreId, g.members[r]? = some c ∧
          c = .ord die (BitVec.ofNat 10 (cs.getD (r / 64) 0)) (BitVec.ofNat 6 r) ∧
          (t.core c).launch = some l ∧ (t.core c).gang = 0 ∧ (t.core c).rank = r ∧ (t.core c).bodyPending = true ∧
          (t.core c).park = none ∧ (t.core c).g = Core.blank.g ∧
          (t.core c).lfsr = (if x.rcd.seed = BitVec.ofNat 32 (coreNum c) then 1
            else x.rcd.seed ^^^ BitVec.ofNat 32 (coreNum c)) ∧
          (x.img.localData = [] → ∀ i < 2 ^ 15, t.mem.read (localBase c + i) = 0 ∧
            Tab.get false t.taint (localBase c + i) = false)) ∧
    (∀ l x, Tab.get none s.launches l = some x → ∃ t : State, exec (.priorityAgeing l) s = .next t ∧
      (t.launch l) = { x with
        boost := if (x.depMet = true ∧ (x.state = .waiting ∨ x.state = .stopped)) ∨ (x.state = .running ∧ ∃ g ∈ x.gangs, g.placed = false)
          then (s.clock - x.waitFrom) / (1600 * max 1 s.conf.ageInt) else x.boost } ∧ t.mem = s.mem ∧ t.cores = s.cores)

/-- Kicks become launches, and gangs are placed, as the parts named below state. -/
def Obligations.KicksAndPlacement : Prop :=
  Claims.KicksTaken ∧ Claims.GangsPlaced

/-- A launch that has held clusters for its LLIM is killed, one that has run its quantum is noted, and neither before. A
launch that is to be stopped stops, is captured once it has drained, with every core's state in its image and the cores
free, and is restored from it with their counts of cycles going on; an image that cannot be read ends it IMAGE_LOST (R365, R376,
R377, R378, R380). -/
def Sys2Proof.Claims.LaunchesStop : Prop :=
  ∀ (s : State) (l : Nat) (x : Launch), Tab.get none s.launches l = some x →
    let alive := x.state = .running ∨ x.state = .stopping
    let due : Prop := alive ∧ x.rcd.llim ≠ 0 ∧ x.rcd.llim * 1600 ≤ x.heldTime + (s.clock - x.placedAt)
    (¬due → exec (.llimExpiry l) s = .next s) ∧
    (due → x.sharesDone → ∃ t : State, exec (.llimExpiry l) s = .next t ∧ (t.launch l).state = .ended 1 ∧
      ((∀ d, s.killTraps l d = []) → ∃ p, (t.launch l).deciding = some (.ord 0 0 0, p) ∧ p.cause = .watchdog ∧ p.pc = 0) ∧
      t.cores = s.cores ∧ t.mem = s.mem) ∧
    (let up : Prop := x.state = .running ∧ s.conf.quantum * 1600 ≤ s.clock - x.placedAt;
      (¬up → exec (.quantumExpiry l) s = .next s) ∧
      (up → ∃ t : State, exec (.quantumExpiry l) s = .next t ∧ t.launch l = { x with quantumUp := true } ∧
        t.cores = s.cores ∧ t.mem = s.mem)) ∧
    let works : Prop := s.schedules x.home = true ∧ ∀ d ∈ x.rcd.dieList, s.schedules d = true
    let still : Prop := ∀ g ∈ x.gangs, g.rolling = none
    (¬works ∨ (x.state = .running ∧ (s.toStop l = false ∨ ¬still)) ∨
      (x.state = .stopping ∧ s.drained l = false) ∨ ¬alive → exec (.preemptionStop l) s = .next s) ∧
    (works → x.state = .running → s.toStop l = true → still → ∃ t : State,
      exec (.preemptionStop l) s = .next t ∧ t.launch l = { x with state := .stopping } ∧ t.cores = s.cores ∧ t.mem = s.mem) ∧
    (let cores := x.liveGangs.flatMap Gang.allCores;
      works → x.state = .stopping → s.drained l = true → (∀ c ∈ cores, (s.core c).lateTrap = none) →
      ∃ t : State, exec (.preemptionStop l) s = .next t ∧ (t.launch l).state = .stopped ∧ (t.launch l).stoppedAt = s.clock ∧
        (t.launch l).heldTime = x.heldTime + (s.clock - x.placedAt) ∧ (∀ a, 2 ^ 44 ≤ a → t.mem.read a = s.mem.read a) ∧
        ∀ c ∈ cores, t.core c = { Core.blank with checkAt := (s.core c).checkAt } ∧
          (coreNum c, { s.core c with
            cycleSaved := (s.core c).cycleSaved + (s.clock - (s.core c).cycleBase), l1 := [], istore := [],
            inflight := [], vq := [] }) ∈ (t.launch l).savedCores) ∧
    (let turn : Prop := s.schedules x.home = true ∧ s.canRestore l = true ∧ s.placementHeld l = false ∧ s.restoreTurn l = true;
      (¬turn → exec (.launchRestore l) s = .next s) ∧
      (turn → s.imageLost l = true → x.sharesDone → ∃ t : State, exec (.launchRestore l) s = .next t ∧ (t.launch l).state = .ended 7 ∧
        t.cores = s.cores ∧ t.mem = s.mem) ∧
      (turn → s.imageLost l = false → (∀ y ∈ x.savedCores, y.2.sideLog = [] ∧ coreNum (coreOfNum y.1) = y.1) →
        (x.savedCores.map Prod.fst).Nodup →
        ∃ t : State, exec (.launchRestore l) s = .next t ∧ (t.launch l).state = .running ∧
          (t.launch l).placedAt = s.clock ∧ ∀ y ∈ x.savedCores, t.core (coreOfNum y.1) =
            { y.2 with
              cycleBase := s.clock, taskStart := y.2.taskStart + (s.clock - x.stoppedAt)
              checkAt := (s.core (coreOfNum y.1)).checkAt }))

/-- A launch that has ended, or whose gangs have, gets one completion record with its identifier, its status and its tag, once;
during a takeover on any of its dies it is held until none of them is in one. A takeover needs a standby core, and after both cores fail the die's
launches end DIE_LOST (R383, R384, R388, R389). -/
def Sys2Proof.Claims.LaunchesComplete : Prop :=
  ∀ (s : State),
    (∀ l x, Tab.get none s.launches l = some x → (x.finalStatus = none ∨ x.reported = true) →
      exec (.launchComplete l) s = .next s) ∧
    (∀ l x st, Tab.get none s.launches l = some x → x.finalStatus = some st → x.reported = false → x.sharesDone →
      ((∃ d ∈ x.home :: x.rcd.dieList, (s.die d).takeover = true) → l ∉ (s.die x.home).heldDone → ∃ t : State,
        exec (.launchComplete l) s = .next t ∧
        (t.launch l).state = .ended st ∧ (t.die x.home).heldDone = (s.die x.home).heldDone ++ [l] ∧
        t.completions = s.completions ∧ t.mem = s.mem) ∧
      (∀ q, (∀ d ∈ x.home :: x.rcd.dieList, (s.die d).takeover = false) → Tab.get none (s.die x.die).queues x.queue.toNat = some q → s.noCast →
        ∃ (t : State) (r : BitVec 1024), exec (.launchComplete l) s = .next t ∧ (t.launch l).state = .ended st ∧
          (t.launch l).reported = true ∧ t.completions = s.completions ++ [(x.die.toNat, x.queue.toNat, r)] ∧
          t.notified = s.notified ++ [(x.die, x.queue)] ∧ r.extractLsb' 0 32 = x.id ∧ r.extractLsb' 32 8 = st ∧
          r.extractLsb' 192 64 = x.compTag ∧
          ∃ y, Tab.get none (t.die x.die).queues x.queue.toNat = some y ∧ y.ctail = (q.ctail + 1) % 2 ^ q.log2n)) ∧
    (∀ d, (s.broughtUp = false ∨ (s.die d).schedDead = true ∨ ((s.die d).takeover = false ∧ (s.die d).cores < 2)) →
      exec (.schedulerTakeover d) s = .next s) ∧
    (∀ d, s.broughtUp = true → (s.die d).schedDead = false → (s.die d).takeover = false → 2 ≤ (s.die d).cores →
      ∃ t : State, exec (.schedulerTakeover d) s = .next t ∧ t.die d = { s.die d with takeover := true, cores := 1 } ∧
        t.schedules d = false ∧ t.launches = s.launches ∧ t.mem = s.mem) ∧
    (∀ d, s.broughtUp = true → (s.die d).schedDead = false → (s.die d).takeover = true →
      ∃ t : State, exec (.schedulerTakeover d) s = .next t ∧ (t.die d).takeover = false ∧ (t.die d).heldDone = [] ∧
        t.schedules d = true ∧
        ∀ l x st, Tab.get none s.launches l = some x → x.state = .ended st → d ∈ x.home :: x.rcd.dieList →
          (∀ e ∈ x.home :: x.rcd.dieList, e ≠ d → (s.die e).takeover = false) → (t.launch l).reported = true) ∧
    (∀ d, ∃ t : State, exec (.schedulerPairFailure d) s = .next t ∧ (t.die d).schedDead = true ∧ t.schedules d = false ∧
      ∀ l x, Tab.get none s.launches l = some x → x.home = d → (t.launch l).reported = true ∧
        (x.reported = false → x.sharesDone → (∀ st, x.state ≠ .ended st) → (t.launch l).state = .ended 0x0A))

/-- Limits, pre-emption, images, completion and takeover of launches, as the parts named below state. -/
def Obligations.LaunchesEnd : Prop :=
  Claims.LaunchesStop ∧ Claims.LaunchesComplete

/-- A rank-1 cause whose action is rollback, or a ring fault, stops a gang, cancels its commands not started, and puts it back
to its last barrier once started units have finished: every member's registers and shadowed lines as they were, its queues
empty, ROLLBACKS counted, once more for every further such fault; a non-replayable superstep, or one rolled back ROLLMAX
times, ends the launch CAST_NEEDED, with the faulted cluster named for a ring fault, and a raised abort line ABORTED (R9,
R234, R381, R382). A second PIPE_CHECK that awaits its kill is not rolled back: the launch is killed (R38, R366). -/
def Sys2Proof.Claims.GangsRollBack : Prop :=
  ∀ (s : State) (l g : Nat) (x : Launch), Tab.get none s.launches l = some x → x.rcd.red = false → g < x.gangs.length →
    let y := x.gang g
    let wanted : Prop := x.state = .running ∧ y.placed = true ∧ y.done = false ∧
      ((s.rollbackFor l g).isSome = true ∨ s.gangRingFault l g = true)
    let finished : Bool := (s.cancelUnstarted l g).unitsFinished l g
    let count : Nat := y.rollbacks + match y.rolling with
      | none => 0
      | some old => ((s.faulted l g).filter fun c => !old.contains c).length
    let calm : Prop := ∀ d ∈ x.rcd.dieList, s.secondChecks l d = []
    (¬wanted → exec (.superstepRollback l g) s = .next s) ∧
    (wanted → x.abort = true → ∃ t : State, exec (.superstepRollback l g) s = .next t ∧ (t.launch l).state = .ended 2 ∧
      t.cores = s.cores ∧ t.mem = s.mem) ∧
    (wanted → x.abort = false → (∃ d ∈ x.rcd.dieList, s.secondChecks l d ≠ []) → x.sharesDone → ∃ t : State,
      exec (.superstepRollback l g) s = .next t ∧ (t.launch l).state = .ended 1 ∧ t.cores = s.cores ∧ t.mem = s.mem) ∧
    (wanted → x.abort = false → calm → finished = false → ∃ t : State, exec (.superstepRollback l g) s = .next t ∧
      ((t.launch l).gang g).rolling.isSome = true ∧ ((t.launch l).gang g).rollbacks = count ∧
      (∀ k ∈ y.clusterIds, (t.cluster k).copies = (s.cluster k).copies.filter fun c => c.started) ∧
      t.cores = s.cores ∧ t.mem = s.mem) ∧
    (wanted → x.abort = false → calm → finished = true → (y.nonReplayable = true ∨ x.rcd.rollMax ≤ count) → x.sharesDone →
      ∃ t : State, exec (.superstepRollback l g) s = .next t ∧ (t.launch l).state = .ended 8 ∧
        (t.launch l).deciding = s.rollbackFor l g ∧ t.cores = s.cores ∧ t.mem = s.mem ∧
        (s.rollbackFor l g = none → ∃ k ∈ y.clusterIds, (s.cluster k).ring.fault = true ∧
          (t.launch l).units = [(unitWord 3 k.num).toNat])) ∧
    (wanted → x.abort = false → calm → finished = true → y.nonReplayable = false → count < x.rcd.rollMax →
      (∀ c ∈ y.members, c ∈ y.allCores) →
      (∀ c ∈ y.allCores, Tab.wf none (s.core c).shadow = true ∧ ∀ p ∈ (s.core c).shadow, p.1 < 512) →
      (∀ k ∈ y.clusterIds, ∀ p ∈ (s.cluster k).shadow, p.1 < 8192) →
      ∃ t : State, exec (.superstepRollback l g) s = .next t ∧ ((t.launch l).gang g).rollbacks = count + 1 ∧
        ((t.launch l).gang g).rolling = none ∧ ((t.launch l).gang g).arrived = [] ∧ ((t.launch l).gang g).sstep = y.sstep ∧
        ∀ c ∈ y.members, (∀ r, (s.core c).ckpt = some r → (t.core c).toRegs = r) ∧ (t.core c).park = none ∧
          (t.core c).vq = [] ∧ (t.core c).atomics = [] ∧ (t.core c).shadow = [] ∧
          ∀ n z, Tab.get none (s.core c).shadow n = some z → ∀ i < 64,
            t.mem.read (localBase c + 64 * n + i) = z.bytes.extractLsb' (8 * i) 8 ∧
            Tab.get false t.taint (localBase c + 64 * n + i) = z.taint.getLsbD i)

/-- A disagreement of a redundant gang asks for a third run once its members are parked for one, where the superstep can be
run again, and kills the launch with both cores named where not; the third run's signature names the wrong copy's core, which
is quarantined, or neither, and the launch ends DUAL_FAIL with all three suspect. A full half of the held-write buffer is
performed at once, and the superstep is non-replayable (R386, R387, R390). The 16-byte header of a held write (log entry 24), the
numbers of partner gangs (log entry 35) and opposite verdicts in one cluster (log entry 67) are the model's choices. -/
def Sys2Proof.Claims.RedundantRuns : Prop :=
  ∀ (s : State) (l g : Nat) (x : Launch), Tab.get none s.launches l = some x → g < x.rcd.gangs → g < x.gangs.length →
    let y := x.gang g
    let p := x.gang (g + x.rcd.gangs)
    (x.state ≠ .running ∨ s.wantsThird l g = false → exec (.thirdRun l g) s = .next s) ∧
    (x.state = .running → s.wantsThird l g = true →
      (x.thirdRun g = none → y.nonReplayable = false → p.nonReplayable = false → ∃ t : State,
        exec (.thirdRun l g) s = .next t ∧ t.launch l = { x with
          gangs := x.gangs ++ [{ Gang.blank with thirdOf := some g, det := y.det, rr := y.rr }] } ∧ t.cores = s.cores ∧
        t.mem = s.mem) ∧
      (∀ r rs a b, x.thirdRun g = none → (y.nonReplayable = true ∨ p.nonReplayable = true) → y.disagree = r :: rs →
        y.members[r]? = some a → p.members[r]? = some b → x.sharesDone → (∀ d, s.secondChecks l d = []) →
        (∀ q, (s.core a).park = some q → q.second = false) → ∃ t : State, exec (.thirdRun l g) s = .next t ∧
          (t.launch l).state = .ended 1 ∧ (t.launch l).units = [(coreUnit a).toNat, (coreUnit b).toNat] ∧ t.mem = s.mem) ∧
      (∀ n, x.thirdRun g = some n → ((x.gang n).placed = false ∨
          (s.barrierReady (x.gang n) = false ∧ s.gangEnded (x.gang n) = false)) → exec (.thirdRun l g) s = .next s) ∧
      (∀ n r a b c, x.thirdRun g = some n → (x.gang n).placed = true →
        (s.barrierReady (x.gang n) = true ∨ s.gangEnded (x.gang n) = true) → y.disagree = [r] →
        y.members[r]? = some a → p.members[r]? = some b → (x.gang n).members[r]? = some c →
        let sig (e : CoreId) : BitVec 64 := (s.core e).signature
        ∃ t : State, exec (.thirdRun l g) s = .next t ∧
          (sig c = sig a → coreUnit b ∈ t.quarantine) ∧ (sig c ≠ sig a → sig c = sig b → coreUnit a ∈ t.quarantine) ∧
          (sig c ≠ sig a → sig c ≠ sig b → x.sharesDone → (∀ u ∈ [a, b, c], coreUnit u ∈ t.suspects) ∧ (t.launch l).state = .ended 9 ∧
            (t.launch l).units = [(coreUnit a).toNat, (coreUnit b).toNat, (coreUnit c).toNat]))) ∧
    (let full (n : Nat) : Bool := x.rcd.redSize / 2 < (x.gang n).held.foldl (fun m h => m + (16 + h.bytes.length)) 0 + 80;
      ((x.rcd.red = false ∨ ∀ n < 2 * x.rcd.gangs, full n = false) → exec (.heldBufferFull l) s = .next s) ∧
      (x.rcd.red = true → full g = true → (∀ n < g, full n = false) → y.thirdOf = none →
        (∀ h ∈ y.held, (s.core h.core).sideLog.length + y.held.length ≤ 64 ∧
          (s.cluster h.core.cluster).copyLog.length + y.held.length ≤ 64) → ∃ t : State, exec (.heldBufferFull l) s = .next t ∧
        ((t.launch l).gang g).held = [] ∧ ((t.launch l).gang g).nonReplayable = true))

/-- Superstep rollback and redundant runs, as the parts named below state (log entry 24, log entry 35, log entry 67).
-/
def Obligations.RollbackAndRedundancy : Prop :=
  Claims.GangsRollBack ∧ Claims.RedundantRuns

/-! ### The package interface, power and bring-up -/

/-- A package command whose issuer is not entitled is answered DENIED, and one with another OP or a set reserved byte BADARG;
nothing else changes. The answer waits behind those that are not yet given, as answers come in command order (R395, R396,
R397). That DENIED comes before BADARG, and that a key holder's SEAL_JOIN without a peer is DENIED, is the model's reading: log
entry 54. -/
def Sys2Proof.Claims.CommandsRefused : Prop :=
  ∀ (s : State) (c : PkgCmd) (peer : SealPeer),
    let answered (n : Nat) : State :=
      if s.answers = [] then { s with responses := s.responses ++ [⟨c.op, c.part, n, c.ctag, 0⟩] }
      else { s with answers := s.answers ++ [.inr ⟨c.op, c.part, n, c.ctag, 0⟩] }
    let owns (d : Nat) : Prop := 16 ≤ d ∨ ((s.part c.part).map (fun x : Part => x.dies)).any (fun m => m.getLsbD d) = true
    let used (xs : List (Nat × Nat)) : Prop := c.num 2 2 < 16 ∧
      ∀ i, 8 ≤ i → i < 128 → (∀ u ∈ xs, i < u.1 ∨ u.1 + u.2 ≤ i) → c.num i 1 = 0
    let refuses (i : Instr) (op : Nat) (entitled : Prop) (xs : List (Nat × Nat)) : Prop :=
      (¬entitled → exec i s = .next (answered 1)) ∧ (entitled → c.op ≠ op ∨ ¬used xs → exec i s = .next (answered 2))
    let hyp : Prop := c.issuer = none
    let mine : Prop := c.issuer = some c.part
    refuses (.partCreate c) 1 hyp [(8, 2), (16, 8)] ∧ refuses (.partDestroy c) 2 hyp [] ∧
    refuses (.vfSet c) 3 hyp [(8, 3), (16, 8)] ∧ refuses (.preempt c) 5 (mine ∧ owns (c.num 8 1)) [(8, 1), (12, 4)] ∧
    refuses (.unitReturn c) 6 hyp [(8, 4)] ∧ refuses (.extend c) 7 mine [(8, 64)] ∧
    refuses (.sealJoin c peer) 8 (mine ∧ ((c.num 8 4).testBit 24 = true ∨ ∀ x, s.part c.part = some x → x.tsk = none)) [(8, 4)] ∧
    refuses (.faultReply c) 4 (match s.xfaults.find? fun f => f.token == c.num 8 8 && f.posted with
      | some f => if f.stage2 = true then hyp else mine ∧ f.part = c.part
      | none => hyp ∨ mine) [(8, 9)]

/-- PART_CREATE gives dies that no partition owns to a new one, with its stage-2 root, an empty measurement and no key; VF_SET
assigns a virtual function of an owned die; PART_DESTROY ends the partition's launches that have not ended DIE_LOST, each of
whose dies that had its share done had it DONE, zeroes its dies' memory and frees them. Arguments outside their limits are BADARG, taken dies BUSY; here no earlier answer waits (R399, R400). -/
def Sys2Proof.Claims.PartitionCommands : Prop :=
  ∀ (s : State) (c : PkgCmd), c.issuer = none → s.answers = [] →
    let answers (i : Instr) (n : Nat) : Prop := exec i s = .next { s with
      responses := s.responses ++ [⟨c.op, c.part, n, c.ctag, 0⟩] }
    let ok (t : State) : Prop := t.responses = s.responses ++ [⟨c.op, c.part, 0, c.ctag, 0⟩]
    let root := c.num 16 8
    (c.op = 1 → c.restZero [(8, 2), (16, 8)] = true →
      let dies := BitVec.ofNat 16 (c.num 8 2)
      let fits : Prop := root % 4096 = 0 ∧ root < 2 ^ 44
      (¬fits → answers (.partCreate c) 2) ∧
      (fits → (s.part c.part ≠ none ∨ dies &&& s.ownedDies ≠ 0) → answers (.partCreate c) 3) ∧
      (fits → s.part c.part = none → dies &&& s.ownedDies = 0 → ∃ t : State, exec (.partCreate c) s = .next t ∧ ok t ∧
        t.part c.part = some ⟨dies, root, 0, none, none, none⟩ ∧ (∀ p, p ≠ c.part → t.part p = s.part p) ∧
        t.mem = s.mem ∧ t.cores = s.cores)) ∧
    (c.op = 3 → c.restZero [(8, 3), (16, 8)] = true →
      let d := c.num 8 1
      let v := c.num 9 1
      let fits : Prop := d < 16 ∧ v < 32 ∧ c.num 10 1 < 2 ∧ root % 4096 = 0 ∧ root < 2 ^ 48 ∧ (s.ownedBy c.part).getLsbD d = true
      (¬fits → answers (.vfSet c) 2) ∧
      (fits → ∃ t : State, exec (.vfSet c) s = .next t ∧ ok t ∧
        Tab.get Vf.blank t.vfs (32 * d + v) = ⟨c.part, root, c.num 10 1 == 1, true⟩ ∧
        (∀ n, n ≠ 32 * d + v → Tab.get Vf.blank t.vfs n = Tab.get Vf.blank s.vfs n) ∧ t.mem = s.mem ∧ t.cores = s.cores)) ∧
    (c.op = 2 → c.restZero [] = true →
      (s.part c.part = none → answers (.partDestroy c) 2) ∧
      (∀ x, s.part c.part = some x → ∃ t : State, exec (.partDestroy c) s = .next t ∧ ok t ∧ t.part c.part = none ∧
        (∀ a, x.dies.getLsbD (dieOfFlat a) = true → t.mem.read a = 0 ∧ Tab.get false t.taint a = false) ∧
        ∀ l y, Tab.get none s.launches l = some y → s.partOf l = c.part → (t.launch l).reported = true ∧
          (y.reported = false → y.sharesDone → (∀ st, y.state ≠ .ended st) → (t.launch l).state = .ended 0x0A)))

/-- PREEMPT marks the running launch it names; UNIT_RETURN takes a unit out of quarantine; EXTEND extends the partition's measurement
and erases its key; SEAL_JOIN makes a key, or takes the peer's with the larger counter, and is refused while a cast is in flight
and by a peer that cannot be reached or fails its checks: a partition of this package is asked here, one of another package by
its report over the nonce. What is not there is NOTFOUND (R376, R390, R405 to R408). What the report must hold is the model's
reading: log entry 54. -/
def Sys2Proof.Claims.OwnerCommands : Prop :=
  ∀ (s : State) (c : PkgCmd) (peer : SealPeer), s.answers = [] →
    let answers (i : Instr) (n : Nat) : Prop := exec i s = .next { s with
      responses := s.responses ++ [⟨c.op, c.part, n, c.ctag, 0⟩] }
    let ok (t : State) : Prop := t.responses = s.responses ++ [⟨c.op, c.part, 0, c.ctag, 0⟩]
    let mine : Prop := c.issuer = some c.part
    (mine → c.op = 5 → c.restZero [(8, 1), (12, 4)] = true → ∀ d : BitVec 4, c.num 8 1 = d.toNat →
      (s.ownedBy c.part).getLsbD d.toNat = true →
      let named (p : Nat × Option Launch) : Bool := match p.2 with
        | some y => y.die == d && y.id.toNat == c.num 12 4 && y.state == .running && s.partOf p.1 == c.part
        | none => false
      (s.launches.find? named = none → answers (.preempt c) 10) ∧
      (∀ l x, s.launches.find? named = some (l, some x) → Tab.get none s.launches l = some x →
        ∃ t : State, exec (.preempt c) s = .next t ∧ ok t ∧ t.launch l = { x with preemptAsked := true } ∧ t.mem = s.mem ∧
          t.cores = s.cores)) ∧
    (c.issuer = none → c.op = 6 → c.restZero [(8, 4)] = true →
      let u := BitVec.ofNat 24 (c.num 8 4)
      (2 ^ 24 ≤ c.num 8 4 → answers (.unitReturn c) 2) ∧
      (c.num 8 4 < 2 ^ 24 → u ∉ s.quarantine → answers (.unitReturn c) 10) ∧
      (c.num 8 4 < 2 ^ 24 → u ∈ s.quarantine → ∃ t : State, exec (.unitReturn c) s = .next t ∧ ok t ∧
        t.quarantine = s.quarantine.erase u ∧ t.mem = s.mem ∧ t.cores = s.cores)) ∧
    (mine → c.op = 7 → c.restZero [(8, 64)] = true →
      (s.part c.part = none → answers (.extend c) 2) ∧
      (∀ x, s.part c.part = some x → ∃ t : State, exec (.extend c) s = .next t ∧ ok t ∧
        t.part c.part = some { x with pmr := extendPmr x.pmr (bytesOfNat 64 (c.num 8 64)), tsk := none } ∧
        t.counters = s.counters ∧ t.mem = s.mem)) ∧
    (∀ x, mine → c.op = 8 → c.restZero [(8, 4)] = true → s.part c.part = some x →
      let joins := (c.num 8 4).testBit 24
      let busy := x.cast.isSome || x.restoring.isSome
      let own := Tab.get 0 s.counters c.part.toNat
      (joins = true ∨ x.tsk = none) → c.num 8 4 < 2 ^ 25 →
      (busy = true → answers (.sealJoin c peer) 3) ∧
      (busy = false → joins = false → ∃ t : State, exec (.sealJoin c peer) s = .next t ∧ ok t ∧
        t.part c.part = some { x with tsk := some peer.fresh } ∧ t.counters = s.counters ∧ t.mem = s.mem) ∧
      (busy = false → joins = true →
        let joined (k : BitVec 256) (n : DWord) : Prop := ∃ t : State, exec (.sealJoin c peer) s = .next t ∧ ok t ∧
          t.part c.part = some { x with tsk := some k } ∧
          (Tab.get 0 t.counters c.part.toNat).toNat = max own.toNat n.toNat ∧ t.mem = s.mem
        let q := c.peerOf.2
        let rep := peer.report
        (c.peerOf.1 = Config.packageId →
          (s.part q = none → answers (.sealJoin c peer) 8) ∧
          (∀ y, s.part q = some y →
            ((s.attests = false ∨ x.pmr ≠ y.pmr) → answers (.sealJoin c peer) 8) ∧
            (s.attests = true → x.pmr = y.pmr →
              (y.tsk = none → answers (.sealJoin c peer) 4) ∧
              (∀ k, y.tsk = some k → joined k (Tab.get 0 s.counters q.toNat))))) ∧
        (c.peerOf.1 ≠ Config.packageId →
          let passes : Prop := peer.reached = true ∧ peer.verified = true ∧ s.attests = true ∧
            rep.extractLsb' 0 512 = peer.nonce ∧ rep.extractLsb' 512 512 = x.pmr ∧
            rep.extractLsb' 1600 20 = c.peerOf.1 ∧ rep.extractLsb' 1620 4 = q ∧ rep.extractLsb' 1624 8 = 0
          (¬passes → answers (.sealJoin c peer) 8) ∧
          (passes → (peer.answer = none → answers (.sealJoin c peer) 4) ∧
            (∀ k n, peer.answer = some (k, n) → joined k n)))))

/-- Package commands: refusals, partitions and owners, as the parts named below state (log entry 54). -/
def Obligations.PackageCommands : Prop :=
  Claims.CommandsRefused ∧ Claims.PartitionCommands ∧ Claims.OwnerCommands

/-- FAULT_REPLY by the owner of a posted record consumes it: a retry lets a core's held unit go on, a decline makes it trap
XLATE_ERROR and ends a RESTORE XLATE, every page it had written zeroed; no such record is NOTFOUND, and another partition's is
not its to answer (R333 to R335, R397, R413; DENIED before NOTFOUND there is log entry 54). -/
def Sys2Proof.Claims.FaultReplies : Prop :=
  ∀ (s : State) (c : PkgCmd), c.op = 4 → c.restZero [(8, 9)] = true →
    let named := s.xfaults.find? fun f => f.token == c.num 8 8 && f.posted
    let answers (n : Nat) : Prop := s.answers = [] → exec (.faultReply c) s = .next { s with
      responses := s.responses ++ [⟨c.op, c.part, n, c.ctag, 0⟩] }
    (named = none → (c.issuer = none ∨ c.issuer = some c.part) → answers 10) ∧
    (∀ f, named = some f → f.part ≠ c.part →
      (f.stage2 = true → c.issuer = none → answers 10) ∧ ((f.stage2 = false ∨ c.issuer ≠ none) → answers 1)) ∧
    (∀ f, named = some f → f.part = c.part → (if f.stage2 then c.issuer = none else c.issuer = some c.part) →
      (2 ≤ c.num 16 1 → answers 2) ∧
      (∀ (x : Part) (cmd : PkgCmd) (done : List Nat), c.num 16 1 = 1 → f.ag = .pour → s.part c.part = some x →
        x.restoring = some (cmd, f.token, done) → cmd.part = c.part → s.answers = [.inl c.part] → ∃ t : State,
        exec (.faultReply c) s = .next t ∧ t.answers = [] ∧
        t.responses = s.responses ++ [⟨cmd.op, cmd.part, 9, cmd.ctag, 0⟩, ⟨c.op, c.part, 0, c.ctag, 0⟩] ∧
        t.part c.part = some { x with restoring := none } ∧ t.counters = s.counters ∧
        (∀ h ∈ done, ∀ b < 4096, t.mem.read (h + b) = 0 ∧ Tab.get false t.taint (h + b) = false) ∧
        ∀ a, (∀ h ∈ done, a < h ∨ h + 4096 ≤ a) → t.mem.read a = s.mem.read a) ∧
      (∀ u : CoreId, s.answers = [] → c.num 16 1 < 2 → f.ag = .core u → f.vec = false →
        (∀ e ∈ (s.core u).sideLog, e.token ≠ f.token) → ∃ t : State, exec (.faultReply c) s = .next t ∧
        t.responses = s.responses ++ [⟨c.op, c.part, 0, c.ctag, 0⟩] ∧
        (∀ x ∈ t.xfaults, x.token ≠ f.token) ∧ t.mem = s.mem ∧ sameRegs (s.core u) (t.core u) ∧
        ((s.core u).phase = .xlate f.token → (t.core u).phase = if c.num 16 1 = 0 then .idle else .refused f.va) ∧
        (c.num 16 1 = 0 → ∀ o ∈ (t.core u).atomics, o.token ≠ some f.token)))

/-- RESTORE (R413): without a right to the virtual function it is DENIED, with a cast in flight BUSY, without a key NOKEY; a cast
whose header does not open is TAG, one of another measurement PMR, one older than the counter STALE. One whose every check
passes has its pages written, with the taint of the sealed bytes, and takes its number into the counter, its response carrying
SSTEP, CUTSTEP and TAG; one whose second segment is missing or does not verify ends TAG with the pages of the first zeroed and
the counter as it was. The layout of the sealed bytes is a reading: log entry 51. -/
def Sys2Proof.Claims.CastsRestored : Prop :=
  ∀ (s : State) (c : PkgCmd), s.answers = [] →
    let v := Tab.get Vf.blank s.vfs (32 * (c.num 8 1 % 16) + c.num 9 1)
    let va := c.num 16 8
    let len := c.num 24 8
    let answers (n : Nat) : Prop := exec (.restore c) s = .next { s with
      responses := s.responses ++ [⟨c.op, c.part, n, c.ctag, 0⟩] }
    (c.issuer ≠ some c.part → answers 1) ∧
    (∀ x, c.issuer = some c.part → c.op = 9 → c.restZero [(8, 2), (16, 16)] = true → c.num 8 1 < 16 → c.num 9 1 < 32 →
      s.part c.part = some x → va + len ≤ 2 ^ 56 →
      ((v.assigned = false ∨ v.part ≠ c.part) → answers 1) ∧
      (v.assigned = true → v.part = c.part →
        ((x.cast.isSome = true ∨ x.restoring.isSome = true) → answers 3) ∧
        (x.cast = none → x.restoring = none →
          (x.tsk = none → answers 4) ∧
          (∀ key, x.tsk = some key →
            (len < 128 → answers 5) ∧
            (∀ hd h bs t, 128 ≤ len → s.vfRead v (lineParts va 112) = .ok (some hd) → castHead hd = some h →
              128 + 16 * h.nrange ≤ len → s.vfRead v (lineParts (va + 112) (16 * h.nrange + 16)) = .ok (some bs) →
              let k := castKey key h.pmr h.c h.pkg
              let table := bs.take (16 * h.nrange)
              (gcmOpen k (castIv h.c headerIndex) (hd ++ table) [] (bs.drop (16 * h.nrange)) = none → answers 5) ∧
              (gcmOpen k (castIv h.c headerIndex) (hd ++ table) [] (bs.drop (16 * h.nrange)) ≠ none →
                rangeTable table h.nrange = some t →
                let own := Tab.get 0 s.counters c.part.toNat
                (h.pmr ≠ x.pmr → answers 6) ∧ (h.pmr = x.pmr → h.c.toNat < own.toNat → answers 7) ∧
                (∀ (sealed plain : List Byte) (home : Nat → Nat), h.pmr = x.pmr → own.toNat ≤ h.c.toNat →
                  let pages := rangePages t
                  let n := min 16 pages.length
                  let size := 4096 * n
                  let off := 128 + 16 * h.nrange
                  let next := off + size + size / 8 + 16
                  let off_ (a : Nat) : Prop := ∀ j < n, a < home j ∨ home j + 4096 ≤ a
                  1 ≤ pages.length → next ≤ len → (t.map Prod.snd).sum / 4096 = pages.length → s.noCast →
                  s.vfRead v (lineParts (va + off) (size + size / 8 + 16)) = .ok (some sealed) →
                  gcmOpen k (castIv h.c 0) [] (sealed.take (size + size / 8)) (sealed.drop (size + size / 8)) = some plain →
                  plain.length = size + size / 8 →
                  (∀ i < n, ∀ j < n, i ≠ j → home i + 4096 ≤ home j ∨ home j + 4096 ≤ home i) →
                  (∀ i < n, ∀ p, pages[i]? = some p → ∀ mem : Memory, (∀ a, off_ a → mem.read a = s.mem.read a) →
                    translate mem v.s1root (s.s2root v.part) p 1 = .ok (home i)) →
                  (pages.length ≤ 16 → ∃ u : State, exec (.restore c) s = .next u ∧
                    u.responses = s.responses ++ [⟨c.op, c.part, 0, c.ctag,
                      BitVec.ofNat 192 (h.sstep.toNat + h.cutStep.toNat * 2 ^ 64 + h.tag.toNat * 2 ^ 128)⟩] ∧
                    Tab.get 0 u.counters c.part.toNat = h.c ∧
                    (∀ i < n, ∀ b < 4096, plain[4096 * i + b]? = some (u.mem.read (home i + b)) ∧
                      Tab.get false u.taint (home i + b) =
                        (plain.getD (size + (4096 * i + b) / 8) 0).getLsbD ((4096 * i + b) % 8)) ∧
                    ∀ a, off_ a → u.mem.read a = s.mem.read a) ∧
                  (16 < pages.length →
                    let more := 4096 * min 16 (pages.length - 16)
                    let all := more + more / 8
                    (len < next + all + 16 ∨ ∀ w : State, w.parts = s.parts → (∀ a, off_ a → w.mem.read a = s.mem.read a) →
                      w.vfRead v (lineParts (va + next) (all + 16)) = .ok none ∨
                      ∃ bs, w.vfRead v (lineParts (va + next) (all + 16)) = .ok (some bs) ∧
                        gcmOpen k (castIv h.c 1) [] (bs.take all) (bs.drop all) = none) →
                    ∃ u : State, exec (.restore c) s = .next u ∧
                      u.responses = s.responses ++ [⟨c.op, c.part, 5, c.ctag, 0⟩] ∧ u.counters = s.counters ∧
                      (∀ i < n, ∀ b < 4096, u.mem.read (home i + b) = 0 ∧ Tab.get false u.taint (home i + b) = false) ∧
                      ∀ a, off_ a → u.mem.read a = s.mem.read a))))))))

/-- Fault replies and the restore of a cast, as the parts named below state (log entry 54, log entry 51). -/
def Obligations.FaultRepliesAndRestore : Prop :=
  Claims.FaultReplies ∧ Claims.CastsRestored

/-- Bring-up takes a store written since, needs it verified, without which only the recovery interface answers; it zeroes the
HBM and starts the schedulers, once; FTIME is the grandmaster's, and 1 GiB of die 0's HBM is set aside (R403, R415, R421, R431;
where it stands is the implementation's choice, log entry 74). -/
def Sys2Proof.Claims.BringUp : Prop :=
  ∀ (s : State),
    let store := s.newStore.getD s.conf
    (s.broughtUp = true → exec .bringUp s = .next s) ∧
    (s.broughtUp = false → store.verified = false → exec .bringUp s = .fault .recoveryInterface) ∧
    (s.broughtUp = false → store.verified = true → ∃ t : State, exec .bringUp s = .next t ∧ t.broughtUp = true ∧
      t.conf = store ∧ t.newStore = none ∧ t.ftimeBase = Config.grandmasterTime ∧ t.ftimeAt = s.clock ∧ t.ftimeSlow = false ∧
      (∃ base, t.fabReserve = some base ∧ base % 4096 = 0 ∧ base + 2 ^ 30 ≤ 2 ^ 40) ∧
      (∀ a, t.mem.read a = if a < 2 ^ 44 then 0 else s.mem.read a) ∧
      (∀ a < 2 ^ 44, Tab.get false t.taint a = false ∧ Tab.get false t.poison a = false) ∧
      t.fports = s.fports ∧
      t.cores = s.cores ∧ t.launches = s.launches)

/-- A sensor's event is logged among the last sixteen and has its class's effects and those below: class 1 ends every launch that
has not ended DIE_LOST, where each die that had its share done had it DONE, and abandons the casts, class 2 erases keys and memory, class 3 ends attestation; the counters stand (R411, R446).
The power cap moves the clocks a step down or up, and a check window runs out after CHECKWIN cycles (R150, R416). -/
def Sys2Proof.Claims.AlarmsAndPower : Prop :=
  ∀ (s : State),
    (∀ sensor : BitVec 2,
      let cls := s.conf.alarmCls.toNat / 4 ^ sensor.toNat % 4
      ∃ t : State, exec (.securityAlarm sensor) s = .next t ∧ t.counters = s.counters ∧
        (∃ e, t.alarms.getLast? = some e ∧ e.sensor = sensor ∧ e.cls.toNat = cls) ∧ t.alarms.length ≤ 16 ∧
        (cls = 0 → t = { s with alarms := t.alarms }) ∧
        (1 ≤ cls → (∀ l x, Tab.get none s.launches l = some x → (t.launch l).reported = true ∧
            (x.reported = false → x.sharesDone → (∀ st, x.state ≠ .ended st) → (t.launch l).state = .ended 0x0A)) ∧
          ∀ p x, t.part p = some x → x.cast = none) ∧
        (2 ≤ cls → (∀ p x, t.part p = some x → x.tsk = none ∧ x.restoring = none) ∧
          ∀ a, dieOfFlat a < 16 → t.mem.read a = 0) ∧
        (cls = 1 → ∀ p, (t.part p).bind (·.tsk) = (s.part p).bind (·.tsk)) ∧
        t.attests = (s.attests && cls != 3)) ∧
    (∀ w, exec (.powerCapThrottle w) s = .next (if s.conf.powerCap ≤ w then { s with throttle := s.throttle + 1 } else s)) ∧
    (∀ w, exec (.powerRestoreClocks w) s = .next (if w < s.conf.powerCap then { s with throttle := s.throttle - 1 } else s)) ∧
    (∀ c, ((∀ n, (s.core c).checkAt = some n → s.clock < n + s.conf.checkWin) → exec (.checkWindowExpiry (.core c)) s = .next s) ∧
      (∀ n, (s.core c).checkAt = some n → n + s.conf.checkWin ≤ s.clock → ∃ t : State,
        exec (.checkWindowExpiry (.core c)) s = .next t ∧ t.core c = { s.core c with checkAt := none } ∧ t.mem = s.mem)) ∧
    (∀ u, ((∀ n, (s.svu u).checkAt = some n → s.clock < n + s.conf.checkWin) → exec (.checkWindowExpiry (.svu u)) s = .next s) ∧
      (∀ n, (s.svu u).checkAt = some n → n + s.conf.checkWin ≤ s.clock → ∃ t : State,
        exec (.checkWindowExpiry (.svu u)) s = .next t ∧ t.svu u = { s.svu u with checkAt := none } ∧ t.mem = s.mem ∧
        t.cores = s.cores))

/-- Bring-up, security alarms, power cap and check windows, as the parts named below state (log entry 74). -/
def Obligations.BringUpAlarmsAndPower : Prop :=
  Claims.BringUp ∧ Claims.AlarmsAndPower

/-! ### Casts -/

/-- pctr gives the partition's counter, tainted. pcast checks its descriptor at issue, a null pointer in it being FORMAT, and hands a cast to the pour engine, or
completes CANCELLED with one in flight and PERMISSION without a sealing key. pquote writes a report of 512 tainted bytes
over the nonce at its yard address, or ends PERMISSION where the package no longer attests (R406, R412). That PERMISSION,
ILLEGAL_OPERAND 1 for a pquote of a ramp core and FORMAT for a null pointer in the descriptor are the model's choices: log entry
53. -/
def Obligations.PackageInstructions : Prop :=
  ∀ (s : State),
    let c := s.cur
    let l := s.launchIx c
    let p := s.partOf l
    (∀ o : XD, s.ready (len2 o.q) o.q → s.freeG o.d →
      exec (.pctr o) s = s.putCore (len2 o.q) o.q (s.me.writeG o.d (Tab.get 0 s.counters p.toNat) true)) ∧
    (∀ (o : XHA) (x : Launch), s.ready (len2 o.q) o.q → s.fullG o.a → Tab.get none s.launches l = some x →
      let a := (s.me.gv o.a).toNat
      let at_ (kind st : Nat) : DWord := BitVec.ofNat 64 (6 * 2 ^ 60 + (p.toNat * 256 + kind) * 2 ^ 48 +
        x.pkgCount % 2 ^ 32 * 2 ^ 16 + st * 2 ^ 8)
      let ends (t : State) (kind st : Nat) : Prop := (t.me.hreg o.d).fill = .full ∧ (t.me.hreg o.d).val = at_ kind st ∧
        (t.launch l).pkgCount = x.pkgCount + 1 ∧ t.me.g = s.me.g
      (∀ i ∈ [Instr.pcast o, .pquote o], a % 64 ≠ 0 → exec i s = .next (s.takeTrap ⟨.alignment, BitVec.ofNat 64 a⟩)) ∧
      (a % 64 = 0 → 0x7FC0 < a → exec (.pcast o) s = .next (s.takeTrap ⟨.illegalOperand, 1⟩)) ∧
      (a % 64 = 0 → (c.isRamp = true ∨ 2 ^ 19 < a + 512) → exec (.pquote o) s = .next (s.takeTrap ⟨.illegalOperand, 1⟩)) ∧
      (a % 64 = 0 → a ≤ 0x7FC0 → (s.me.hreg o.d).fill ≠ .pending → s.me.vecTouchesLocal a 64 = false →
        s.bad (localBase c + a) 64 = none → (s.gangOf c).det = false →
        let desc := castDesc (s.mem.readN (localBase c + a) 64)
        let clean : Prop := s.me.ct = false ∧ ∀ i < 64, Tab.get false s.taint (localBase c + a + i) = false
        (¬clean → exec (.pcast o) s = .next (s.takeTrap ⟨.illegalOperand, 1⟩)) ∧
        (∀ t, desc = .error t → clean → exec (.pcast o) s = .next (s.takeTrap t) ∧ (t = ⟨.illegalOperand, 1⟩ ∨
          ∃ j ∈ [0, 40], let w := natOfBytes (((s.mem.readN (localBase c + a) 64).drop j).take 8)
            w / 2 ^ 58 = 63 ∧ t = ⟨.format, BitVec.ofNat 64 w⟩)) ∧
        (∀ k, desc = .ok k → clean →
          (s.castBusy p = true → ∃ t : State, exec (.pcast o) s = .next t ∧ ends t 0 2 ∧ t.parts = s.parts ∧ t.mem = s.mem) ∧
          (s.castBusy p = false → (s.part p).bind (·.tsk) = none → ∃ t : State, exec (.pcast o) s = .next t ∧ ends t 0 6 ∧
            t.parts = s.parts ∧ t.mem = s.mem) ∧
          (∀ y, s.castBusy p = false → s.part p = some y → y.tsk ≠ none → ∃ (t : State) (z : Cast),
            exec (.pcast o) s = .next t ∧ t.part p = some { y with cast := some z } ∧
            z = { k with
              core := c, launch := l, gang := s.me.gang, h := o.d, inb := o.inb, seq := x.pkgCount, taint := s.me.gt o.a } ∧
            t.me.hreg o.d = { s.me.hreg o.d with fill := .pending } ∧ t.me.owed = s.me.owed + o.inb.toNat ∧
            t.me.g = s.me.g ∧ t.mem = s.mem))) ∧
      (a % 64 = 0 → c.isRamp = false → a + 512 ≤ 2 ^ 19 → (s.me.hreg o.d).fill ≠ .pending → s.me.ystores = [] →
        s.me.vecTouchesYard a 512 = false → (s.gangOf c).det = false → x.rcd.red = false →
        let base := yardBase c.cluster + a
        (s.bad base 64 ≠ none → ∃ t : State, exec (.pquote o) s = .next t ∧ ends t 1 4 ∧ t.mem = s.mem) ∧
        (s.bad base 64 = none → s.attests = false → ∃ t : State, exec (.pquote o) s = .next t ∧ ends t 1 6 ∧ t.mem = s.mem) ∧
        (s.bad base 64 = none → s.attests = true → ∃ t : State, exec (.pquote o) s = .next t ∧ ends t 1 0 ∧
          t.mem.readN base 64 = s.mem.readN base 64 ∧
          natOfBytes (t.mem.readN (base + 64) 64) = (((s.part p).map (fun y : Part => y.pmr)).getD 0).toNat ∧
          natOfBytes (t.mem.readN (base + 128) 64) = s.pmrPlat.toNat ∧
          natOfBytes (t.mem.readN (base + 192) 8) = (Tab.get 0 s.counters p.toNat).toNat ∧
          (∀ i < 512, Tab.get false t.taint (base + i) = true) ∧ sameBytesBut s t base 512)))

/-- Before a marked page is written its pre-image is kept, once. The pour engine sends the header and table of a cast that has
been cut, then segment after segment, and waits for lines it cannot pin and at a translation fault. Without a route, or past the
end of the window offsets, the cast ends PERMISSION (the model's choice: log entry 53), and a page with a bad line ends it
UNCORRECTABLE, the counter as it was. With the last byte acknowledged the counter takes the cast's number and the handle fills, in
one step (R410, R412). A full staging reserve takes the pre-image all the same: log entry 27. -/
def Obligations.CastsDrain : Prop :=
  ∀ (s : State) (p : BitVec 4),
    ((s.part p).bind (·.cast) = none → ∀ page, exec (.cowPrecopy p page) s = .next s ∧ exec (.pourDrain p) s = .next s ∧
      exec (.castComplete p) s = .next s) ∧
    (∀ y k, s.part p = some y → y.cast = some k →
      (∀ page, (s.castPage k page = false ∨ ∃ z ∈ k.staged, z.1 = page) → exec (.cowPrecopy p page) s = .next s) ∧
      (∀ page, s.castPage k page = true → (∀ z ∈ k.staged, z.1 ≠ page) → ∃ t : State,
        exec (.cowPrecopy p page) s = .next t ∧
        t.part p = some { y with cast := some { k with staged := k.staged ++
          [(page, if (s.bad (page * 4096) 4096).isSome then none else some (s.peek (page * 4096) 4096))] } } ∧
        t.cores = s.cores) ∧
      ((k.cut = false ∨ k.drained = true ∨ s.pourWaits p = true) → exec (.pourDrain p) s = .next s) ∧
      (k.cut = true → k.drained = false → s.pourWaits p = false →
        let place := k.destVa % 2 ^ 36 + k.offset
        let ends (st : Nat) : Prop := ∃ t : State, exec (.pourDrain p) s = .next t ∧
          t.part p = some { y with cast := none } ∧ t.counters = s.counters ∧ t.mem = s.mem ∧
          ((s.core k.core).launch = some k.launch → ((s.core k.core).hreg k.h).fill = .pending →
            ((t.core k.core).hreg k.h).fill = .full ∧ ((t.core k.core).hreg k.h).val = BitVec.ofNat 64
              (6 * 2 ^ 60 + p.toNat * 256 * 2 ^ 48 + k.seq % 2 ^ 32 * 2 ^ 16 + st * 2 ^ 8))
        let sends (m : Nat) (bs : List Byte) (c : Cast) : Prop :=
          (s.hasRoute k.destPkg = true → place + bs.length ≤ 2 ^ 36 → ∃ t : State, exec (.pourDrain p) s = .next t ∧
            t.part p = some { y with cast := some { c with
              next := m, offset := k.offset + bs.length, unacked := k.unacked + (bs.length + 4079) / 4080 } } ∧ t.mem = s.mem) ∧
          (s.hasRoute k.destPkg = false ∨ 2 ^ 36 < place + bs.length → ends 6)
        (k.next = 0 → sends 1 (k.headBytes p) k) ∧
        (k.next ≠ 0 →
          let pages := segmentPages k.table (k.next - 1)
          (pages = [] → ∃ t : State, exec (.pourDrain p) s = .next t ∧
            t.part p = some { y with cast := some { k with drained := true } } ∧ t.mem = s.mem) ∧
          (pages ≠ [] → s.pourBlocked k pages = true → exec (.pourDrain p) s = .next s) ∧
          (∀ e va, pages ≠ [] → s.pourBlocked k pages = false → s.pourPages k pages = .fault e va → ∃ (t : State) (f : XFault), exec (.pourDrain p) s = .next t ∧
            t.xfaults = s.xfaults ++ [f] ∧ f.va = va ∧ f.ag = .pour ∧ f.access = 0 ∧ f.posted = false ∧ t.parts = s.parts) ∧
          (∀ va u, pages ≠ [] → s.pourBlocked k pages = false → s.pourPages k pages = .bad va u → ends 4) ∧
          (∀ bs u, pages ≠ [] → s.pourBlocked k pages = false → s.pourPages k pages = .ok bs u →
            let rest := u.physPages k.launch ((rangePages k.table).drop (16 * k.next))
            sends (k.next + 1) (k.sealSegment (k.next - 1) bs)
              (k.unmark pages ((u.physPages k.launch pages).filter fun a => !rest.contains a))))) ∧
      (¬(k.cut = true ∧ k.drained = true ∧ k.unacked = 0) → exec (.castComplete p) s = .next s) ∧
      (k.cut = true → k.drained = true → k.unacked = 0 → ∃ t : State, exec (.castComplete p) s = .next t ∧
        Tab.get 0 t.counters p.toNat = k.c ∧ t.part p = some { y with cast := none } ∧ t.mem = s.mem ∧
        ((s.core k.core).launch = some k.launch → ((s.core k.core).hreg k.h).fill = .pending →
          ((t.core k.core).hreg k.h).fill = .full ∧ ((t.core k.core).hreg k.h).val = BitVec.ofNat 64
            (6 * 2 ^ 60 + p.toNat * 256 * 2 ^ 48 + k.seq % 2 ^ 32 * 2 ^ 16))))

/-! ### The fabric -/

/-- fput, fget and fsend append one command each to the die's fabric engine under its next number and mark H[D] empty; their
own side is checked for its space, its length and its range (R425, R435 to R438). The traps' order is the order stated. -/
def Sys2Proof.Claims.FabricAppends : Prop :=
  ∀ (s : State) (q : Seq) (d : BitVec 3) (a b : BitVec 5) (ta tb inb ord : Bool) (sp : BitVec 3) (len : BitVec 23)
    (tag : BitVec 16), s.ready (len2 q) q → s.fullG a → s.fullG b →
    let e := s.die s.cur.die
    let put := Instr.fput ⟨q, d, a, b, ta, tb, inb, ord, sp, len⟩
    let get := Instr.fget ⟨q, d, a, b, ta, tb, inb, sp, len⟩
    let send := Instr.fsend ⟨q, d, a, b, ta, tb, inb, ord, tag⟩
    let n := len.toNat
    let appended (i : Instr) (p : FabCmd → Prop) : Prop := ∃ (t : State) (c : FabCmd), exec i s = .next t ∧
      (t.die s.cur.die).fab = e.fab ++ [c] ∧ (t.die s.cur.die).fabNext = (e.fabNext + 1) % 2 ^ 32 ∧ p c ∧
      c.seq = e.fabNext ∧ c.core = s.cur ∧ c.launch = s.launchIx s.cur ∧ c.h = some d ∧ c.inb = inb ∧ c.sent = false ∧
      c.status = none ∧ c.token = none ∧ t.me.hreg d = { s.me.hreg d with fill := .pending } ∧
      t.me.owed = s.me.owed + inb.toNat ∧ t.me.g = s.me.g ∧ t.mem = s.mem
    (∀ x ∈ [(put, s.me.gv a, 1), (get, s.me.gv b, 2)],
      let v : DWord := x.2.1
      let badSpace : Prop := 4 ≤ sp.toNat ∨ sp = 2 ∨ (s.cur.isRamp = true ∧ sp = 1) ∨ len = 0
      let inside : Prop := (sp = 0 → v.toNat + n ≤ 2 ^ 15) ∧ (sp = 1 → v.toNat + n ≤ 2 ^ 19)
      let null : Prop := sp = 3 ∧ v.toNat / 2 ^ 58 = 63
      (badSpace → exec x.1 s = .next (s.takeTrap ⟨.illegalOperand, 0⟩)) ∧
      (¬badSpace → ¬inside → exec x.1 s = .next (s.takeTrap ⟨.illegalOperand, x.2.2⟩)) ∧
      (¬badSpace → inside → null → exec x.1 s = .next (s.takeTrap ⟨.format, v⟩)) ∧
      (¬badSpace → inside → ¬null → (s.me.hreg d).fill ≠ .pending → e.fab.length < 256 →
        (sp = 0 → s.me.vecTouchesLocal v.toNat n = false) →
        appended x.1 fun c => c.kind = (if x.2.2 = 1 then 0 else 1) ∧ c.ordered = (ord && x.2.2 == 1) ∧ c.sp = sp ∧
          c.src = v ∧ c.peer = (if x.2.2 = 1 then s.me.gv b else s.me.gv a) ∧ c.len = n)) ∧
    ((s.me.gv a).toNat % 2 ^ 36 ≠ 0 → exec send s = .next (s.takeTrap ⟨.illegalOperand, 1⟩)) ∧
    ((s.me.gv a).toNat % 2 ^ 36 = 0 → (s.me.hreg d).fill ≠ .pending → e.fab.length < 256 →
      appended send fun c => c.kind = 2 ∧ c.ordered = ord ∧ c.peer = s.me.gv a ∧ c.value = s.me.gv b ∧ c.tag = tag ∧
        c.len = 16)

/-- frecv takes the oldest message of its queue as a pair of registers, tainted where it is late, where a window that feeds the
queue admits several packages, and where the messages received in the gang's superstep up to it came from several; an empty
queue gives tainted zeros without waiting, or waits and samples the abort line; one register for both traps. fcut names a
collective step once for its gang, a redundant copy's being its primary's, and appends its broadcast; a null group pointer is
FORMAT (R79, R431, R434, R438, R439, R442). -/
def Sys2Proof.Claims.FabricReceives : Prop :=
  ∀ (s : State),
    let d := s.cur.die
    (∀ o : FrecvO, s.ready (len2 o.q) o.q →
      let q := Tab.get [] (s.die d).rq o.queue.toNat
      (o.d = o.b → o.d ≠ 0 → exec (.frecv o) s = .next (s.takeTrap ⟨.illegalOperand, 2⟩)) ∧
      ((o.d ≠ o.b ∨ o.d = 0) → s.freeG o.d → s.freeG o.b →
        (q = [] → o.nb = false → exec (.frecv o) s = .next (if s.aborted s.cur then s.takeTrap ⟨.aborted, 3⟩ else s)) ∧
        (q = [] → o.nb = true → ∃ t : State, exec (.frecv o) s = .next t ∧
          t.me.g = ((s.me.writeG o.d 0 true).writeG o.b 0 true).g ∧ t.mem = s.mem) ∧
        (∀ m rest, q = m :: rest →
          let feedsMany : Prop := ∃ w ∈ s.windows, ∃ z, w.2 = some z ∧ z.valid = true ∧ z.isQueue = true ∧ z.die = d ∧
            z.queue.toNat = o.queue.toNat ∧ z.srcLo ≠ z.srcHi
          let came := Tab.get [] (s.die d).rqSources o.queue.toNat
          let here := (came.take (came.length - q.length + 1)).drop
            (Tab.get 0 (s.gangOf s.cur).rqMark (d.toNat * 64 + o.queue.toNat))
          ∃ (t : State) (tn : Bool), exec (.frecv o) s = .next t ∧
          (tn = true ↔ m.late = true ∨ feedsMany ∨ ∃ a ∈ here, ∃ b ∈ here, a ≠ b) ∧
          Tab.get [] (t.die d).rq o.queue.toNat = rest ∧
          t.me.g = ((s.me.writeG o.d (BitVec.ofNat 64 (m.src.toNat * 2 ^ 44 + m.late.toNat * 2 ^ 43 +
            m.ordered.toNat * 2 ^ 42 + m.tag.toNat)) tn).writeG o.b m.value (tn || m.taint)).g ∧
          (m.ordered = true → s.cur.isRamp = true → t.me.l1 = []) ∧ t.mem = s.mem))) ∧
    (∀ (o : FcutO) (x : Launch), s.ready (len2 o.q) o.q → s.fullG o.a → s.fullG o.b →
      Tab.get none s.launches (s.launchIx s.cur) = some x →
      let n := s.me.gv o.a
      let gang := x.primaryOf s.me.gang
      let named : Prop := ∃ y ∈ x.cutSteps, y.step = n ∧ y.gang = gang
      let null : Prop := (s.me.gv o.b).toNat / 2 ^ 58 = 63
      (n = 0 → exec (.fcut o) s = .next (s.takeTrap ⟨.illegalOperand, 1⟩)) ∧
      (n ≠ 0 → null → exec (.fcut o) s = .next (s.takeTrap ⟨.format, s.me.gv o.b⟩)) ∧
      (n ≠ 0 → ¬null → named → ∃ t : State, exec (.fcut o) s = .next t ∧ (t.die d).fab = (s.die d).fab ∧
        (t.launchOf s.cur).cutSteps = x.cutSteps ∧ sameRegs s.me t.me ∧ t.mem = s.mem) ∧
      (n ≠ 0 → ¬null → ¬named → (s.die d).fab.length < 256 → ∃ (t : State) (c : FabCmd), exec (.fcut o) s = .next t ∧
        (t.launchOf s.cur).cutSteps = x.cutSteps ++ [⟨n, gang, s.cur, none, false⟩] ∧
        (t.die d).fab = (s.die d).fab ++ [c] ∧ c.kind = 3 ∧ c.ordered = true ∧ c.value = n ∧ c.peer = s.me.gv o.b ∧
        c.h = none ∧ c.seq = (s.die d).fabNext ∧ sameRegs s.me t.me ∧ t.mem = s.mem))

/-- The engine broadcasts an fcut's marker: a fifth step still uncut in the launch, a record that an uncorrectable line keeps from
being read, and one that breaks R434 end the launch KILLED with cause ILLEGAL_OPERAND; a translation fault holds the command; else
every participant is sent an ordered marker with the step's number and one stamp (R434, R439). -/
def Sys2Proof.Claims.FabricCuts : Prop :=
  ∀ (s : State) (d : BitVec 4) (c : FabCmd) (x : Launch), (s.die d).fab = [c] → c.status = none → c.data = none →
    c.token = none → c.sent = false → c.kind = 3 → c.ordered = true → c.h = none → (s.gangOf c.core).det = false →
    Tab.get none s.launches c.launch = some x →
    let send := Instr.fabricPacketSend d
    let kills : Prop := ∃ t : State, exec send s = .next t ∧ (t.die d).fab = [] ∧ t.mem = s.mem ∧
      (x.sharesDone → (∀ st, x.state ≠ .ended st) → (t.launch c.launch).state = .ended 1 ∧
        ((∀ k, s.killTraps c.launch k = []) → ∃ p, (t.launch c.launch).deciding = some (c.core, p) ∧
          p.cause = .illegalOperand))
    let fifth : Prop := ∃ five : List DWord, five.length = 5 ∧ five.Nodup ∧
      ∀ n ∈ five, ∃ y ∈ x.cutSteps, y.taken = false ∧ y.step = n
    let va := vaOf c.peer
    (fifth → kills) ∧
    (¬fifth →
      (∀ e a, s.hbmRead c.launch c.core va 8 = .fault e a → ∃ (t : State) (f : XFault), exec send s = .next t ∧
        t.xfaults = s.xfaults ++ [f] ∧ f.ag = .fabric d ∧ f.va = a ∧ f.access = 0 ∧
        (t.die d).fab = [{ c with token := some f.token }] ∧ t.mem = s.mem) ∧
      (∀ a u, s.hbmRead c.launch c.core va 8 = .bad a u → kills) ∧
      (∀ hd u, s.hbmRead c.launch c.core va 8 = .ok hd u →
        let n := natOfBytes (hd.map Prod.fst)
        ((n = 0 ∨ 1048576 < n) → kills) ∧
        (1 ≤ n → n ≤ 1048576 → (∀ a w, u.hbmRead c.launch c.core (va + 8) (4 * n) = .bad a w → kills) ∧
          ∀ bs w, u.hbmRead c.launch c.core (va + 8) (4 * n) = .ok bs w →
            let ids := (List.range n).map fun i =>
              BitVec.ofNat 20 (natOfBytes (((bs.drop (4 * i)).take 4).map Prod.fst))
            let marker (m : Packet) (q : BitVec 20) : Prop := m.op = 5 ∧ m.ordered = true ∧ m.dst = q ∧
              m.src = Config.packageId ∧ m.seq = c.value ∧ m.stamp = s.ftime ∧ m.spart = s.partOf c.launch
            (Config.packageId ∉ ids → kills) ∧
            (Config.packageId ∈ ids → ∃ t : State, exec send s = .next t ∧ (t.die d).fab = [] ∧ t.mem = s.mem ∧
              (t.launch c.launch).cutSteps = x.cutSteps.map (fun y =>
                if y.step = c.value ∧ y.core = c.core then { y with group := some ids.eraseDups } else y) ∧
              (∃ m ∈ t.odb, marker m Config.packageId) ∧
              ∀ q ∈ ids, ∀ port, q ≠ Config.packageId → Config.route s.routeEpoch q = some port →
                (s.fport port).linkUp = true → (s.fport port).failed = false → ∃ m, (port, m) ∈ t.outbox ∧ marker m q))))

/-- Fabric instructions append commands, receive messages and cut, as the parts named below state. -/
def Obligations.FabricCommandsIssue : Prop :=
  Claims.FabricAppends ∧ Claims.FabricReceives ∧ Claims.FabricCuts

/-- fwin and the forms of fctl need a level-1 launch and trap PRIVILEGE without; fwin replaces a window by an untainted, well-formed
record of its own partition's; the forms of fctl set the policy, excise a port and readmit an excised one; fpstat gives a
port's state, neighbour and age, tainted, the age being 0 where no milestone has been received (R423, R433, R435, R440). That
fwin judges the record's taint and not its pointer's is the model's reading: log entry 52. -/
def Sys2Proof.Claims.FabricControl : Prop :=
  ∀ (s : State),
    let priv := (s.launchOf s.cur).rcd.priv
    let denied (i : Instr) : Prop := exec i s = .next (s.takeTrap ⟨.privilege, s.me.uw0.setWidth 64⟩)
    (∀ o : FwinO, s.ready (len2 o.q) o.q →
      let a := (s.me.gv o.a).toNat
      let part := s.partOf (s.launchIx s.cur)
      let rcd := windowRec (s.mem.readN (localBase s.cur + a) 32) part
      let clean : Prop := ∀ i < 32, Tab.get false s.taint (localBase s.cur + a + i) = false
      let own : Prop := ∀ w, s.window o.window = some w → w.part = part
      (priv = false → denied (.fwin o)) ∧
      (priv = true → s.fullG o.a →
        (a % 32 ≠ 0 → exec (.fwin o) s = .next (s.takeTrap ⟨.alignment, BitVec.ofNat 64 a⟩)) ∧
        (a % 32 = 0 → 0x7FE0 < a → exec (.fwin o) s = .next (s.takeTrap ⟨.illegalOperand, 1⟩)) ∧
        (a % 32 = 0 → a ≤ 0x7FE0 → s.me.vecTouchesLocal a 32 = false → s.bad (localBase s.cur + a) 32 = none →
          (s.gangOf s.cur).det = false →
          ((rcd = none ∨ ¬clean ∨ ¬own) → exec (.fwin o) s = .next (s.takeTrap ⟨.illegalOperand, 1⟩)) ∧
          (rcd ≠ none → clean → own → ∃ t : State, exec (.fwin o) s = .next t ∧ t.window o.window = rcd ∧
            (∀ w, w ≠ o.window → t.window w = s.window w) ∧ sameRegs s.me t.me ∧ t.mem = s.mem)))) ∧
    (∀ o : FctlO, s.ready (len2 o.q) o.q →
      let v := s.me.gv o.a
      (priv = false → denied (.fctlPolicy o) ∧ denied (.fctlExcise o) ∧ denied (.fctlReadmit o)) ∧
      (priv = true → s.fullG o.a →
        (4 ≤ v.toNat → exec (.fctlPolicy o) s = .next (s.takeTrap ⟨.illegalOperand, 1⟩)) ∧
        (v.toNat < 4 → ∃ t : State, exec (.fctlPolicy o) s = .next t ∧ t.autoEx = v.getLsbD 0 ∧ t.lateDrop = v.getLsbD 1 ∧
          sameRegs s.me t.me ∧ t.mem = s.mem) ∧
        (∃ t : State, exec (.fctlExcise o) s = .next t ∧ t.fport o.port = { s.fport o.port with state := .excised } ∧
          (∀ p, p ≠ o.port → t.fport p = s.fport p) ∧ sameRegs s.me t.me ∧ t.mem = s.mem) ∧
        ∃ t : State, exec (.fctlReadmit o) s = .next t ∧
          t.fport o.port = (if (s.fport o.port).state = .excised then { s.fport o.port with
            state := if (s.fport o.port).linkUp then .up else .down } else s.fport o.port) ∧
          (∀ p, p ≠ o.port → t.fport p = s.fport p) ∧ sameRegs s.me t.me ∧ t.mem = s.mem)) ∧
    (∀ o : FpstO, s.ready (len2 o.q) o.q → s.freeG o.d → ∃ (t : State) (w : DWord), exec (.fpstat o) s = .next t ∧
      t.me.g = (s.me.writeG o.d w true).g ∧ t.mem = s.mem ∧
      ((s.fport o.port).advancedAt = none → w.extractLsb' 32 32 = 0) ∧
      (∀ n, (s.fport o.port).advancedAt = some n → (w.extractLsb' 32 32).toNat = min (2 ^ 32 - 1) (s.ftime - n)) ∧
      w.extractLsb' 12 20 = (s.fport o.port).nbr ∧ (w.extractLsb' 0 12).toNat = (match (s.fport o.port).state with
        | .down => 0 | .training => 1 | .up => 2 | .excised => 3 | .stalled => 4))

/-- Ports and milestones (R417, R418, R421, R422, R428, R429, R430, R432, R433): a port comes up with its neighbour and goes DOWN when
its link, its last lane or its sixteenth replay of a microsecond fails: the last packets it sent, as many as were not received,
wait for new tables with what waited there; a received milestone only rises; a stalled one is noted; an excised port is readmitted
once its milestone has reached the delivered frontier, and none before a packet has been delivered (log entry 52). Fabric time
never goes back, and is steered to the grandmaster's (the rate is log entry 74's); new routing tables let go what the old ones
did not route. -/
def Sys2Proof.Claims.FabricPorts : Prop :=
  ∀ (s : State) (p : BitVec 3),
    let x := s.fport p
    let fault (t : State) (kind : Nat) : Prop := .fabric kind p x.nbr x.mile s.ftime ∈ Tab.get [] t.supMail 0
    let downAs : PortState := if s.autoEx = true ∨ x.state = .excised then .excised else .down
    let keeps (t : State) : Prop := t.mem = s.mem ∧ t.cores = s.cores ∧ ∀ q, q ≠ p → t.fport q = s.fport q
    (∀ nbr, (x.linkUp = true ∨ s.broughtUp = false → exec (.portUp p nbr) s = .next s) ∧
      (x.linkUp = false → s.broughtUp = true → ∃ t : State, exec (.portUp p nbr) s = .next t ∧ keeps t ∧
        (t.fport p).linkUp = true ∧ (t.fport p).nbr = nbr ∧ (t.fport p).advancedAt = x.advancedAt ∧
        (t.fport p).state = (if x.state = .excised then .excised else .up) ∧
        (x.failed = false → (t.fport p).replay = [] ∧ t.outbox = s.outbox ++ x.replay.map fun y => (p, y)) ∧
        (x.failed = true → (t.fport p).replay = x.replay ∧ t.outbox = s.outbox))) ∧
    (∀ lost : Nat, (x.linkUp = false → exec (.linkDown ⟨p, lost⟩) s = .next s ∧ exec (.flitReplay ⟨p, lost⟩) s = .next s) ∧
    (x.linkUp = true → ∃ (t : State) (back : List Packet), exec (.linkDown ⟨p, lost⟩) s = .next t ∧ keeps t ∧ fault t 2 ∧
      t.fport p = { x with linkUp := false, failed := true, state := downAs, replays := [], replay := back ++ x.replay } ∧
      s.outbox.filter (fun y => y.1 == p) = t.outbox.filter (fun y => y.1 == p) ++ back.map (fun y => (p, y)) ∧
      s.outbox.filter (fun y => y.1 != p) = t.outbox.filter (fun y => y.1 != p) ∧
      back.length ≤ lost ∧ (back.map Packet.flits).sum ≤ 1024 ∧
      ∀ y, (t.outbox.filter (fun y => y.1 == p)).getLast? = some y → lost ≤ back.length ∨
        1024 < y.2.flits + (back.map Packet.flits).sum) ∧
    (∀ lane : BitVec 7, ∃ t : State, exec (.laneFail ⟨p, lost⟩ lane) s = .next t ∧ keeps t ∧ (t.fport p).lanes.getLsbD lane.toNat = false ∧
      (∀ n < 128, n ≠ lane.toNat → (t.fport p).lanes.getLsbD n = x.lanes.getLsbD n) ∧
      ((t.fport p).lanes ≠ 0 → (t.fport p).linkUp = x.linkUp ∧ (t.fport p).state = x.state) ∧
      ((t.fport p).lanes = 0 → (t.fport p).linkUp = false ∧ (x.linkUp = true → fault t 2))) ∧
    (x.linkUp = true → ∃ t : State, exec (.flitReplay ⟨p, lost⟩) s = .next t ∧ keeps t ∧
      let recent := x.replays.countP fun n => s.clock < n + 1600
      (recent < 15 → (t.fport p).linkUp = true ∧ (t.fport p).state = x.state) ∧
      (15 ≤ recent → (t.fport p).linkUp = false ∧ fault t 2))) ∧
    (∀ stamp, (x.linkUp = false ∨ stamp ≤ x.mile → exec (.milestoneReceive p stamp) s = .next s) ∧
      (x.linkUp = true → x.mile < stamp → ∃ t : State, exec (.milestoneReceive p stamp) s = .next t ∧ keeps t ∧
        t.fport p = { x with
          mile := stamp, advancedAt := some s.ftime, state := if x.state = .stalled then .up else x.state })) ∧
    (∀ y ∈ [(Instr.milestoneSend p, x.linkUp = true ∧ 256 ≤ x.dataSince ∧ x.sentMile < s.milestone p),
        (.waymark p, x.linkUp = true ∧ x.replay = [] ∧ x.sentAt + 4 * s.conf.beacon ≤ s.ftime)],
      (¬y.2 → exec y.1 s = .next s) ∧
      (y.2 → ∃ t : State, exec y.1 s = .next t ∧ keeps t ∧
        t.fport p = { x with sentMile := max x.sentMile (s.milestone p), sentAt := s.ftime, dataSince := 0 })) ∧
    (let stalls : Prop := x.state = .up ∧ x.advancedAt.getD x.upAt + 4 * s.conf.stall ≤ s.ftime;
      (¬stalls → exec (.stalledWatermark p) s = .next s) ∧
      (stalls → ∃ t : State, exec (.stalledWatermark p) s = .next t ∧ keeps t ∧ fault t 1 ∧
        t.fport p = { x with state := if s.autoEx then .excised else .stalled })) ∧
    (let back : Prop := x.state = .excised ∧ x.linkUp = true ∧ ∃ k, s.delivered = some k ∧ k.1 ≤ x.mile;
      (¬back → exec (.portReadmit p) s = .next s) ∧
      (back → ∃ t : State, exec (.portReadmit p) s = .next t ∧ keeps t ∧ fault t 6 ∧
        t.fport p = { x with state := .up })) ∧
    (∀ n, s.ftime ≤ ({ s with clock := s.clock + n } : State).ftime) ∧
    (∀ (grand : BitVec 20) (offset : Int),
      (x.linkUp = false ∨ Config.packageId.toNat ≤ grand.toNat → exec (.timestampExchange ⟨p, grand⟩ offset) s = .next s) ∧
      (x.linkUp = true → grand.toNat < Config.packageId.toNat → ∃ t : State,
        exec (.timestampExchange ⟨p, grand⟩ offset) s = .next t ∧ t.ftime = s.ftime + offset.toNat ∧
        (t.ftimeSlow = true ↔ offset < 0) ∧ t.mem = s.mem ∧ t.cores = s.cores ∧ t.fports = s.fports ∧
        (4 < offset.natAbs → .fabric 3 p x.nbr x.mile t.ftime ∈ Tab.get [] t.supMail 0) ∧
        (offset.natAbs ≤ 4 → t.supMail = s.supMail))) ∧
    ∃ t : State, exec .routeRecompute s = .next t ∧ t.routeEpoch = s.routeEpoch + 1 ∧ t.mem = s.mem ∧ t.cores = s.cores ∧
      ((∀ q, (s.fport q).replay = []) →
        (s.unrouted = [] → t.outbox = s.outbox ∧ ∀ q, t.fport q = { s.fport q with failed := false }) ∧
        ∀ (y : Packet) (port : BitVec 3), s.unrouted = [y] → y.dst ≠ Config.packageId →
          Config.route (s.routeEpoch + 1) y.dst = some port → (s.fport port).linkUp = true →
          t.outbox = s.outbox ++ [(port, y)] ∧ t.unrouted = [])

/-- Windows, policy, ports and milestones of the fabric, as the parts named below state (log entry 52, log entry 74).
-/
def Obligations.FabricControlAndPorts : Prop :=
  Claims.FabricControl ∧ Claims.FabricPorts

/-- The engine of a die sends the packets of its first command that may go: at most 4,080 bytes each, stamped with the fabric
time and numbered on if ordered, unstamped if not; a target without a route ends the command PERMISSION. Each answer counts,
and the last ends the command with the worst status, filling its handle in turn (R419, R420, R422, R425, R426, R436). -/
def Sys2Proof.Claims.FabricCommandsRun : Prop :=
  ∀ (s : State) (d : BitVec 4) (c : FabCmd), (s.die d).fab = [c] → c.status = none → c.seq < 2 ^ 32 → c.data = none →
    (s.launch c.launch).rcd.red = false →
    let dst := c.peer.extractLsb' 44 20
    ((c.sent = true ∧ (c.kind ≠ 1 ∨ (c.unit = none ∧ 1 ≤ c.unacked))) ∨ c.token ≠ none →
      exec (.fabricPacketSend d) s = .next s) ∧
    (c.sent = false → c.token = none → c.ordered = false ∨ (s.launch c.launch).cutSteps = [] → c.kind.toNat < 3 →
      (c.kind = 0 → c.sp.toNat < 2 ∧ s.bad (copyFlat c.core (c.sp.setWidth 2) c.src.toNat) c.len = none ∧
        (s.gangOf c.core).det = false) →
      (s.hasRoute dst = false → ∃ t : State, exec (.fabricPacketSend d) s = .next t ∧ (t.die d).fab = [] ∧
        t.outbox = s.outbox ∧ t.mem = s.mem) ∧
      (∀ port, dst ≠ Config.packageId → Config.route s.routeEpoch dst = some port → (s.fport port).linkUp = true →
        (s.fport port).failed = false →
        let size := if c.kind = 2 then 16 else c.len
        let n := (size + 4079) / 4080
        ∃ (t : State) (ps : List Packet), exec (.fabricPacketSend d) s = .next t ∧ ps.length = n ∧
          t.outbox = s.outbox ++ ps.map (fun p => (port, p)) ∧ t.mem = s.mem ∧ t.cores = s.cores ∧
          (t.die d).fab = [{ c with sent := true, unacked := n, stamp := some s.ftime }] ∧
          ∀ i < n, ∃ p, ps[i]? = some p ∧ p.dst = dst ∧ p.src = Config.packageId ∧ p.ordered = c.ordered ∧
            p.window = c.peer.extractLsb' 36 8 ∧ p.seq.toNat = c.seq ∧ p.spart = s.partOf c.launch ∧
            p.offset = c.peer.extractLsb' 0 36 + BitVec.ofNat 36 (4080 * i) ∧ p.len = min 4080 (size - 4080 * i) ∧
            (c.ordered = true → p.stamp = s.ftime ∧
              p.sseq.toNat = d.toNat * 4096 + ((s.die d).ordCount + i) % 4096) ∧
            (c.ordered = false → p.stamp = 0) ∧
            (c.kind = 0 → p.op = 0 ∧ p.data.map Prod.fst =
              (s.mem.readN (copyFlat c.core (c.sp.setWidth 2) c.src.toNat + 4080 * i) p.len)) ∧
            (c.kind = 1 → p.op = 1 ∧ p.data = []) ∧
            (c.kind = 2 → p.op = 3 ∧ natOfBytes (p.data.map Prod.fst) = c.tag.toNat + c.value.toNat * 2 ^ 64))) ∧
    (∀ p, p.op ≠ 2 → p.op ≠ 4 → exec (.fabricAck p) s = .next s) ∧
    (∀ p : Packet, p.op = 4 → p.dst = Config.packageId → p.src ≠ Config.packageId → p.agent = d.toNat → p.seq.toNat = c.seq →
      c.sent = true → c.token = none → c.unit = none →
      (2 ≤ c.unacked → ∃ t : State, exec (.fabricAck p) s = .next t ∧
        (t.die d).fab = [{ c with unacked := c.unacked - 1, statuses := c.statuses ++ [p.status] }] ∧ t.cores = s.cores) ∧
      (∀ h, c.unacked = 1 → c.h = some h → (s.core c.core).launch = some c.launch → ((s.core c.core).hreg h).fill = .pending →
        let xs := c.statuses ++ [p.status]
        let st := if 6 ∈ xs then 6 else if 3 ∈ xs then 3 else if 4 ∈ xs then 4 else if 7 ∈ xs then 7 else 0
        ∃ t : State, exec (.fabricAck p) s = .next t ∧ (t.die d).fab = [] ∧ t.mem = s.mem ∧
          ((t.core c.core).hreg h).fill = .full ∧ ((t.core c.core).hreg h).val =
            BitVec.ofNat 64 (5 * 2 ^ 60 + d.toNat * 2 ^ 48 + c.seq * 2 ^ 16 + st * 2 ^ 8)))

/-- The engine of a die completes its work whatever else it holds. Gets that waited go on; then the first command that may go is
sent: a get's requests, a message, a put's bytes read from the core's own SRAM, or data held until redundant copies agreed, and
the command counts the packets out; a redundant copy's data is held in its place and its command done (log entry 24); without a
route it ends PERMISSION. An acknowledgement counts. Get data is kept, and written to the command's destination in ascending
units of at most 64 bytes, each once all its bytes are there, with their aligned words' taint, and without effect on any other
byte; a bad unit ends the writing (R186, R386, R422, R426, R436, R437). -/
def Sys2Proof.Claims.FabricEnginesComplete : Prop :=
  ∀ (s : State) (d : BitVec 4) (c : FabCmd),
    (let send := Instr.fabricPacketSend d
      let s0 := (s.drainFab d 256).storeGets d
      (s0.die d).fab.find? (s0.fabReady d) = none → exec send s = .next s0) ∧
    (let send := Instr.fabricPacketSend d
      let i := s
      let s := (i.drainFab d 256).storeGets d
      (s.die d).fab.find? (s.fabReady d) = some c →
      let p := s.fabPacket d c
      let routed : Prop := s.hasRoute (c.peer.extractLsb' 44 20) = true
      let red := (s.launch c.launch).rcd.red
      let sent (ps : List Packet) : State := (s.inject' d c.ordered ps).modFab d c.seq fun x => { x with
        sent := true, unacked := ps.length, stamp := some s.ftime }
      let data (bs : TBytes) : Prop :=
        (red = true → c.data = none → exec send i = .next ((s.holdWrite c.core
          ⟨c.core, none, 2 ^ 61 + c.peer.toNat, bs, none, some c, none⟩).finishFab d c.seq 0)) ∧
        (red = false ∨ c.data ≠ none → routed → exec send i = .next (sent
          (if c.kind = 0 then dataPackets p bs else [{ p with op := 3, len := 16, data := bs }]))) ∧
        (red = false ∨ c.data ≠ none → ¬routed → exec send i = .next (s.finishFab d c.seq 6))
      (∀ bs, c.data = some bs → data bs) ∧
      (c.data = none → c.kind = 2 → data (bytesOf 8 c.tag.toNat c.dataTaint ++ bytesOf 8 c.value.toNat c.dataTaint)) ∧
      (let a := copyFlat c.core (c.sp.setWidth 2) c.src.toNat;
        c.data = none → c.kind = 0 → c.sp.toNat < 2 → (s.gangOf c.core).det = false →
        (s.bad a c.len = none → data (addTaint c.dataTaint (s.peek a c.len))) ∧
        (s.bad a c.len ≠ none → exec send i = .next (s.finishFab d c.seq 4))) ∧
      (c.data = none → c.kind = 1 →
        (routed → exec send i = .next (sent ((packetParts c.len).map fun x => { p with
          op := 1, offset := p.offset + BitVec.ofNat 36 x.1, len := x.2 }))) ∧
        (¬routed → exec send i = .next (s.finishFab d c.seq 6)))) ∧
    ∀ p : Packet, p.dst = Config.packageId → p.src ≠ Config.packageId → p.agent = d.toNat →
      let fab := (s.die d).fab
      fab.find? (fun x => x.seq == p.seq.toNat && x.sent && x.status.isNone) = some c →
      let s1 : State := { s with loopIn := s.loopIn.erase p }
      let counted (n : BitVec 8) : Prop := exec (.fabricAck p) s = .next (s1.countAnswer d p.seq.toNat n)
      (p.op = 4 → counted p.status) ∧
      (p.op = 2 → (p.status ≠ 0 ∨ (s.core c.core).launch ≠ some c.launch) → counted p.status) ∧
      (p.op = 2 → p.status = 0 → (s.core c.core).launch = some c.launch → (fab.map FabCmd.seq).Nodup →
        let got := { c with
          unacked := c.unacked - 1
          parts := c.parts ++ [((p.offset - c.peer.extractLsb' 0 36).toNat, addTaint c.dataTaint (wordTaint p.data))] }
        let base := if c.sp = 3 then c.src.toNat % 2 ^ 56 else c.src.toNat
        (got.unit = none ∨ c.token ≠ none → ∃ t : State, exec (.fabricAck p) s = .next t ∧ t.mem = s.mem ∧
          t.taint = s.taint) ∧
        (∀ a us, got.unit = some (a, us) → a = base + c.done ∧ us.length = min (64 - a % 64) (c.len - c.done) ∧
          (∀ j < us.length, us[j]? = got.arrived (c.done + j)) ∧
          (let x := copyFlat c.core (c.sp.setWidth 2) a;
            c.token = none → c.sp.toNat < 2 → (s.gangOf c.core).det = false →
            (s.badPartial x us.length = none → ({ got with done := c.done + us.length } : FabCmd).unit = none →
              ∃ t : State, exec (.fabricAck p) s = .next t ∧ t.mem.readN x us.length = us.map Prod.fst ∧
              (∀ (i : Nat) z, us[i]? = some z → Tab.get false t.taint (x + i) = z.2) ∧ sameBytesBut s t x us.length) ∧
            (s.badPartial x us.length ≠ none → ∃ t : State, exec (.fabricAck p) s = .next t ∧ t.mem = s.mem ∧
              (2 ≤ c.unacked → { got with halted := true, statuses := c.statuses ++ [4] } ∈ (t.die d).fab))) ∧
          (c.token = none → c.sp = 3 → s.unitWaits d c a = true → ∃ t : State, exec (.fabricAck p) s = .next t ∧
            t.mem = s.mem ∧ t.taint = s.taint) ∧
          (∀ u : State, c.token = none → c.sp = 3 → s.unitWaits d c a = false →
            ((s1.modFab d p.seq.toNat fun _ => got).setRing c.core c.ring).hbmWritePart c.launch c.core none a us = .ok u →
            ({ got with done := c.done + us.length } : FabCmd).unit = none → ∃ t : State, exec (.fabricAck p) s = .next t ∧
              t.mem = u.mem ∧ t.taint = u.taint))) ∧
      (let y := { c with unacked := c.unacked - 1, statuses := c.statuses ++ [p.status] };
        2 ≤ c.unacked → (fab.map FabCmd.seq).Nodup → ((s1.countAnswer d p.seq.toNat p.status).die d).fab =
          fab.map fun x => if x.seq = c.seq then y else x)

/-- The fabric engine sends packets, takes answers and ends commands, as the parts named below state (log entry 24).
-/
def Obligations.FabricCommandsRun : Prop :=
  Claims.FabricCommandsRun ∧ Claims.FabricEnginesComplete

/-- An ordered packet that arrives waits in the delivery buffer in the order of keys, or is found late and dropped where the policy
says so; the lowest key is delivered once the frontier has passed its stamp, and not before; an unordered packet is performed on
arrival; a put waits for lines it cannot pin, a message for room in its queue. A put writes its bytes through its window and nothing else, a message joins its queue, a packet that no window admits
is refused and changes no memory, and one for elsewhere goes on, a sealing exchange's too. With the buffer and its reserve full a
port accepts no ordered packet, with a fault of kind 5 (R408, R419, R423, R424, R427, R430, R431, R433). -/
def Obligations.PacketsArrive : Prop :=
  ∀ (s : State) (p : Packet),
    let goesOn (i : Instr) : Prop := ∀ out, Config.route s.routeEpoch p.dst = some out → (s.fport out).linkUp = true →
      (s.fport out).failed = false →
      ∃ t : State, exec i s = .next t ∧ t.outbox = s.outbox ++ [(out, p)] ∧ t.mem = s.mem ∧ t.cores = s.cores
    -- a packet performed at its target
    let performed (i : Instr) : Prop :=
      (∀ w, s.window p.window = some w → w.admits p = true →
        (p.op = 3 → ∃ (t : State) (m : FabMsg), exec i s = .next t ∧
          Tab.get [] (t.die w.die).rq w.queue.toNat = Tab.get [] (s.die w.die).rq w.queue.toNat ++ [m] ∧ m.src = p.src ∧
          m.tag = p.tag ∧ m.ordered = p.ordered ∧ m.late = false ∧
          m.value = BitVec.ofNat 64 (natOfBytes (((p.data.drop 8).take 8).map Prod.fst)) ∧ t.mem = s.mem ∧
          t.cores = s.cores) ∧
        (∀ pa, p.op = 0 → p.len = p.data.length → 1 ≤ p.len → s.noCast → (w.base + p.offset.toNat) % 64 + p.len ≤ 64 →
          let v := Tab.get Vf.blank s.vfs (32 * w.die.toNat + w.vf.toNat)
          translate s.mem v.s1root (s.s2root w.part) (w.base + p.offset.toNat) 1 = .ok pa → s.badPartial pa p.len = none →
          s.putWaits p = false → ∃ t : State, exec i s = .next t ∧ t.mem.readN pa p.len = p.data.map Prod.fst ∧
            (∀ a, a < pa ∨ pa + p.len ≤ a → t.mem.read a = s.mem.read a) ∧ t.cores = s.cores)) ∧
      ((p.op = 0 ∨ p.op = 1 ∨ p.op = 3 ∨ p.op = 7) → (∀ w, s.window p.window = some w → w.admits p = false) →
        ∃ t : State, exec i s = .next t ∧ t.mem = s.mem ∧ t.cores = s.cores ∧
          ∀ out, p.src ≠ Config.packageId → Config.route s.routeEpoch p.src = some out → (s.fport out).linkUp = true →
            (s.fport out).failed = false → ∃ a, t.outbox = s.outbox ++ [(out, a)] ∧ a.status = 6 ∧ a.dst = p.src ∧ a.seq = p.seq)
    (∀ port, ((s.fport port).linkUp = false ∨ p.ordered = false ∨ p.src = Config.packageId ∨ p.isRequest = false) →
      exec (.orderedArrival port p) s = .next s) ∧
    (∀ port, (s.fport port).linkUp = true → p.ordered = true → p.src ≠ Config.packageId → p.isRequest = true →
      let fits : Prop := s.odbBytes + 144 * p.flits ≤ 2 ^ 23 + 2 ^ 30
      (¬fits → ∃ t : State, exec (.orderedArrival port p) s = .next t ∧ t.odb = s.odb ∧ t.outbox = s.outbox ∧ t.mem = s.mem ∧
        .fabric 5 port (s.fport port).nbr (s.fport port).mile s.ftime ∈ Tab.get [] t.supMail 0) ∧
      (p.dst ≠ Config.packageId → fits → goesOn (.orderedArrival port p)) ∧
      (p.dst = Config.packageId → s.isLate p = false → fits →
        exec (.orderedArrival port p) s = .next { s with odb := insertPacket p s.odb }) ∧
      (p.dst = Config.packageId → fits → s.isLate p = true → s.queueFull p = false → s.putWaits p = false → s.lateDrop = true →
        ∃ t : State,
        exec (.orderedArrival port p) s = .next t ∧ t.mem = s.mem ∧ t.odb = s.odb ∧
        .fabric 4 port p.src p.stamp s.ftime ∈ Tab.get [] t.supMail 0)) ∧
    (s.odb = [] → exec .orderedDelivery s = .next s) ∧
    (∀ rest, s.odb = p :: rest →
      let held : Prop := s.frontier ≤ p.stamp ∨ (∃ w ∈ s.waitPkts, w.1.ordered = true) ∨ s.queueFull p = true ∨
        s.putWaits p = true ∨ s.heldByCut p.stamp = true
      (held → exec .orderedDelivery s = .next s) ∧
      (¬held → (∃ t : State, exec .orderedDelivery s = .next t ∧
          t.delivered = some (p.stamp, p.src.toNat, p.sseq.toNat)) ∧ performed .orderedDelivery)) ∧
    let joins : Prop := p.op = 6 ∧ p.ordered = false ∧ p.src ≠ Config.packageId ∧ p.dst ≠ Config.packageId
    (joins → goesOn (.unorderedArrival p)) ∧
    (p.ordered = true ∨ (p.isRequest = false ∧ ¬joins) ∨
      (p.dst = Config.packageId ∧ (s.queueFull p = true ∨ s.putWaits p = true)) → exec (.unorderedArrival p) s = .next s) ∧
    (p.ordered = false → p.isRequest = true → (p.dst = Config.packageId → s.queueFull p = false ∧ s.putWaits p = false) →
      (p.src = Config.packageId → p ∉ s.loopIn → exec (.unorderedArrival p) s = .next s) ∧
      (p.src ≠ Config.packageId → p.dst ≠ Config.packageId → goesOn (.unorderedArrival p)) ∧
      ((p.src = Config.packageId → p ∈ s.loopIn) → p.dst = Config.packageId → performed (.unorderedArrival p)))

/-! ### The machine as a whole -/

/-- DECODE AND ENCODE AGREE: a well-formed instruction's words decode to it, all of them, whatever follows, on every kind of
core that has it (R23, R38 to R51). -/
def Obligations.DecodeEncode : Prop :=
  ∀ (i : Instr) (ramp : Bool) (rest : List Word), i.seq.isSome = true → i.wf = true → i.availableOn ramp = true →
    decode ramp (encode i ++ rest) = .ok (i, (encode i).length)

/-- Words written out from the encodings of the spec decode to the instructions they stand for, and words that R50 names
are refused. -/
def Obligations.DecodeWords : Prop :=
  decode false [0x08080014] = .ok (.li ⟨.next, 1, 20⟩, 1) ∧
  decode false [0x0790400A] = .ok (.cmpiLt ⟨.next, 2, 1, 10⟩, 1) ∧
  decode false [0x0D000008, 0] = .ok (.done ⟨.next⟩, 2) ∧
  decode true [0x3C380001, 0] = .ok (.pctr ⟨.next, 7⟩, 2) ∧
  (∀ ramp, decode ramp [0] = .error .word0 ∧ decode ramp [0xFFFFFFFF, 0, 0] = .error .word0) ∧
  (∀ x : Word, decode false [0x1A000000, x] = .error .word0 ∧ decode false [0x1B000000, x] = .error .word0)

/-- A STEP RUNS THE DECODED INSTRUCTION. The clock counts one and eligible queue heads start to wait; then, with no turn of
the environment pending, a core that runs a task executes at its boundary the instruction its next words decode to, their
first two noted for a fault message; an instruction whose effect leaves the core waits for earlier vector instructions that
may still trap; words the decoder rejects execute RESERVED_WORD; a word outside the image traps CODE_RANGE, and one the
instruction store lacks is fetched. A core that runs no task starts one, a vector trap that awaits delivery comes first, and
a parked core, or one outside every running launch, does nothing. A turn comes before all that. That a step is one cycle (log
entry 14), the agenda and its turns (log entry 15), and which instructions wait for a vector trap (log entry 18) are the model's
choices. -/
def Obligations.StepRunsDecoded : Prop :=
  ∀ (s : State),
    let s1 : State := ({ s with clock := s.clock + 1 } : State).markHeads
    let c := s1.cur
    let a := s1.me.pc.toNat
    let ws : List Word := [s1.codeWord c a, s1.codeWord c (a + 4), s1.codeWord c (a + 8)]
    let n := s1.unitLen c a
    let noted (x : State) : State := x.modMe fun k => { k with
      uw0 := s1.codeWord c a, uw1 := if 1 < n then s1.codeWord c (a + 4) else 0 }
    let idle : Prop := s1.agenda = [] ∧ s1.broughtUp = true
    let among : Prop := idle ∧ s1.me.launch ≠ none ∧ s1.me.park = none ∧ s1.me.left = false ∧
      (s1.launchOf c).state = .running ∧ (s1.gangOf c).rolling = none
    let free : Prop := among ∧ s1.me.pendingTrap = none ∧ s1.me.lateTrap = none
    let runs : Prop := free ∧ s1.me.running = true
    let inside : Prop := ∀ j < n, a + 4 * j + 4 ≤ s1.codeLen c
    let stored : Prop := ∀ j < n, Tab.get none s1.me.istore (a + 4 * j) ≠ none
    (runs → inside → stored → ∀ i m, decode c.isRamp ws = .ok (i, m) →
      (s1.holdsOutward i = false → step s = exec i (noted (s1.dropCheck i))) ∧
      (s1.holdsOutward i = true → step s = .next s1)) ∧
    (runs → inside → stored → ∀ e, decode c.isRamp ws = .error e → ∃ w1 v,
      step s = exec (.reservedWord (s1.codeWord c a) w1 v) (noted (s1.dropCheck (.reservedWord (s1.codeWord c a) w1 v)))) ∧
    (runs → ∀ j < n, (∀ k < j, a + 4 * k + 4 ≤ s1.codeLen c) → s1.codeLen c < a + 4 * j + 4 →
      step s = .next ((noted s1).takeTrap ⟨.codeRange, BitVec.ofNat 64 (a + 4 * j)⟩)) ∧
    (runs → inside → ∀ j < n, (∀ k < j, Tab.get none s1.me.istore (a + 4 * k) ≠ none) →
      Tab.get none s1.me.istore (a + 4 * j) = none → step s = exec (.codeFetchFill c (BitVec.ofNat 32 (a + 4 * j))) s1) ∧
    (free → s1.me.running = false → step s = exec (.taskStart c) s1) ∧
    (among → s1.me.pendingTrap ≠ none → step s = exec (.vectorTrapDelivery c) s1) ∧
    (idle → (s1.me.launch = none ∨ s1.me.park ≠ none ∨ s1.me.left = true ∨ (s1.launchOf c).state ≠ .running ∨
      (s1.gangOf c).rolling ≠ none) → step s = .next s1) ∧
    (s1.agenda = [] → s1.broughtUp = false → step s = exec .bringUp s1) ∧
    ∀ rest, (∀ e, s1.agenda = .event e :: rest → step s = exec e { s1 with agenda := rest }) ∧
      (∀ d, s1.agenda = .core d :: rest → step s = .next { s1 with agenda := rest, cur := d }) ∧
      (∀ w, s1.agenda = .wait w :: rest → step s = .next { s1 with agenda := rest, clock := s1.clock + w })

/-- Right after reset the package is not brought up, its ports are DOWN, its configuration store holds the defaults of R403,
every core is as R16, R35 and R143 say of their reset, and memory and the tables beside it are in canonical form. Memory
reading zero before bring-up zeroes the HBM is the model's choice (log entry 2), and so are the register values at package reset,
of which those rules speak at launch start (log entry 1). -/
def Obligations.ResetState : Prop :=
  State.reset.canonical = true ∧ State.reset.mem.wf = true ∧ State.reset.broughtUp = false ∧ (∀ a, State.reset.mem.read a = 0) ∧
  (∀ c, let k := State.reset.core c
  k.launch = none ∧ (∀ n, k.greg n = Reg.zero 64) ∧ (∀ n, n ≠ 7 → k.preg n = ⟨false, false⟩) ∧
    (∀ n, k.wreg n = TReg.zero) ∧ k.rstack = [] ∧ k.ct = false ∧ k.tiValid = false ∧ k.role = 1 ∧ k.maxlg = 4 ∧ k.weight = 1) ∧
  (∀ u, (State.reset.svu u).age = 64 ∧ (State.reset.svu u).rr = false) ∧
  (∀ p, (State.reset.fport p).state = .down) ∧
  (let x := State.reset.conf;
    x.checkWin = 2 ^ 30 ∧ x.ageInt = 1000 ∧ x.quantum = 1000 ∧ x.pourShare = 16 ∧ x.beacon = 64 ∧ x.stall = 20000) ∧
  step State.reset = exec .bringUp { State.reset with clock := 1 }

/-- NO INSTRUCTION IS REFUSED AND NO STEP STOPS: brought up, or with a store for bring-up that verifies, every step answers
a next state; only a store that fails verification stops bring-up, and the package offers its recovery interface (R403). -/
def Obligations.EveryStepAnswers : Prop :=
  (∀ s : State, (s.broughtUp = true ∨ (s.newStore.getD s.conf).verified = true) → SafeStep s) ∧
  ∀ (i : Instr) (s : State), i ≠ .bringUp → ∃ t, exec i s = .next t

/-- Reads of g0 give 0, of m0 all ones and of p7 true, full and untainted, whatever the state holds, and a write to one of
them changes nothing (R5). -/
def Obligations.FixedRegisters : Prop :=
  ∀ (k : Core),
    k.greg 0 = ⟨0, .full, false⟩ ∧ k.mreg 0 = ⟨BitVec.allOnes 1024, .full, false⟩ ∧ k.preg 7 = ⟨true, false⟩ ∧
    (∀ v t, k.writeG 0 v t = k ∧ ∀ n, n ≠ 0 → (k.writeG n v t).greg n = ⟨v, .full, t || k.ct⟩ ∧
      ∀ m, m ≠ n → (k.writeG n v t).greg m = k.greg m) ∧
    (∀ v t, k.writeP 7 v t = k ∧ ∀ n, n ≠ 7 → (k.writeP n v t).preg n = ⟨v, t || k.ct⟩ ∧
      ∀ m, m ≠ n → (k.writeP n v t).preg m = k.preg m) ∧
    (∀ r, k.setMreg 0 r = k ∧ ∀ n, n ≠ 0 → (k.setMreg n r).mreg n = r ∧ ∀ m, m ≠ n → (k.setMreg n r).mreg m = k.mreg m)

/-- FRAME of the scalar instructions: whatever they answer, traps included, memory, the other cores and every register but
the destination stand, and so do the special registers; only the rounded F32 instructions may raise flags, which stay once
raised, and only stochastic rounding steps LFSR (R83, R89). What the sequencing part may change (pc, stacks, counters,
TASK.CT) the frame leaves open. -/
def Obligations.ScalarFrame : Prop :=
  ∀ (s t : State),
    let quiet : Prop := t.me.fx = s.me.fx ∧ t.me.fxTaint = s.me.fxTaint ∧ t.me.lfsr = s.me.lfsr
    let flags : Prop := s.me.fx &&& t.me.fx = s.me.fx ∧ s.me.fxTaint &&& t.me.fxTaint = s.me.fxTaint
    let g (d : BitVec 5) (i : Instr) : Prop := exec i s = .next t → s.sameBut t (some d) none ∧ quiet
    let p (d : BitVec 3) (i : Instr) : Prop := exec i s = .next t → s.sameBut t none (some d) ∧ quiet
    let f (d : BitVec 5) (i : Instr) : Prop :=
      exec i s = .next t → s.sameBut t (some d) none ∧ flags ∧ t.me.lfsr = s.me.lfsr
    let r (d : BitVec 5) (rm : Rm) (i : Instr) : Prop :=
      exec i s = .next t → s.sameBut t (some d) none ∧ flags ∧ (rm ≠ .rs → t.me.lfsr = s.me.lfsr)
    (∀ o : R3W, ∀ i ∈ [Instr.add o, .sub o, .mul o, .div o, .divu o, .rem o, .remu o, .and o, .or o, .xor o, .andn o, .shl o,
      .shr o, .sra o, .rol o, .min o, .max o, .minu o, .maxu o], g o.d i) ∧
    (∀ o : R3, ∀ i ∈ [Instr.mulh o, .mulhu o, .adda o, .ptag o, .sel o], g o.d i) ∧
    (∀ o : R2W, ∀ i ∈ [Instr.clz o, .ctz o, .popc o], g o.d i) ∧
    (∀ o : R2, ∀ i ∈ [Instr.pfmt o, .pva o, .fclass o], g o.d i) ∧
    (∀ o : RI, ∀ i ∈ [Instr.addi o, .andi o, .ori o, .xori o, .addai o], g o.d i) ∧
    (∀ o : ShI, ∀ i ∈ [Instr.shli o, .shri o, .srai o, .roli o], g o.d i) ∧
    (∀ o, g o.d (.li o)) ∧ (∀ o, g o.d (.lih o)) ∧ (∀ o, g o.d (.ptog o)) ∧ (∀ o, g o.d (.getw o)) ∧ (∀ o, g o.d (.capr o)) ∧
    (∀ o : C3W, ∀ i ∈ [Instr.cmpEq o, .cmpNe o, .cmpLt o, .cmpLe o, .cmpLtu o, .cmpLeu o], p o.d i) ∧
    (∀ o : CI, ∀ i ∈ [Instr.cmpiEq o, .cmpiNe o, .cmpiLt o, .cmpiLtu o], p o.d i) ∧
    (∀ o : P3, ∀ i ∈ [Instr.pand o, .por o, .pxor o, .pandn o], p o.d i) ∧
    (∀ o : P2, ∀ i ∈ [Instr.pnot o, .pmov o], p o.d i) ∧ (∀ o, p o.d (.gtop o)) ∧
    (∀ o : R3, ∀ i ∈ [Instr.fmin o, .fmax o, .frefRcp o, .frefRsq o], f o.d i) ∧
    (∀ o : R2, ∀ i ∈ [Instr.fabs o, .fneg o, .frcp o, .frsq o], f o.d i) ∧
    (∀ o : F3, ∀ i ∈ [Instr.fadd o, .fsub o, .fmul o, .fma o], r o.d o.r i) ∧
    (∀ o : F2, ∀ i ∈ [Instr.fitof o, .fftoi o], r o.d o.r i) ∧
    ∀ o : C3, ∀ i ∈ [Instr.feq o, .flt o, .fle o, .fun o], exec i s = .next t →
      s.sameBut t none (some o.d) ∧ flags ∧ t.me.lfsr = s.me.lfsr

/-- THE MEMORY KEEPS ITS CANONICAL FORM: from every state whose byte memory has it, every step that answers a next state
leaves it so, whichever instruction or event the step runs. -/
def Obligations.MemoryStaysCanonical : Prop :=
  ∀ s t : State, s.mem.wf = true → step s = .next t → t.mem.wf = true

end
end

