-- ==== Sys2Proof/Laws/Table.lean ====
section
/-! SUPPORT. Laws of sparse tables and of the byte memory: what a read gives after a write, and that every write
keeps the canonical form. -/

namespace Sys2Proof.Machine

variable {α : Type}

/-! ### Reading after writing -/

theorem Tab.get_insert_self (d : α) (k : Nat) (v : α) (t : Tab α) : Tab.get d (Tab.insert k v t) k = v := by
  induction t with
  | nil => simp [Tab.insert, Tab.get]
  | cons x t ih =>
    obtain ⟨k', v'⟩ := x
    simp only [Tab.insert]
    split
    · simp [Tab.get]
    · split
      · simp [Tab.get]
      · rename_i h1 h2
        simp [Tab.get, Ne.symm h2, ih]

theorem Tab.get_insert_ne (d : α) {k n : Nat} (h : k ≠ n) (v : α) (t : Tab α) :
    Tab.get d (Tab.insert k v t) n = Tab.get d t n := by
  induction t with
  | nil => simp [Tab.insert, Tab.get, h]
  | cons x t ih =>
    obtain ⟨k', v'⟩ := x
    simp only [Tab.insert]
    split
    · simp [Tab.get, h]
    · split
      · rename_i h1 h2
        subst h2
        simp [Tab.get, h]
      · simp [Tab.get, ih]

theorem Tab.get_erase_self (d : α) (k : Nat) (t : Tab α) : Tab.get d (Tab.erase k t) k = d := by
  induction t with
  | nil => rfl
  | cons x t ih =>
    obtain ⟨k', v'⟩ := x
    simp only [Tab.erase]
    split
    · exact ih
    · rename_i h
      simp [Tab.get, h, ih]

theorem Tab.get_erase_ne (d : α) {k n : Nat} (h : k ≠ n) (t : Tab α) :
    Tab.get d (Tab.erase k t) n = Tab.get d t n := by
  induction t with
  | nil => rfl
  | cons x t ih =>
    obtain ⟨k', v'⟩ := x
    simp only [Tab.erase]
    split
    · rename_i h'
      subst h'
      simp [Tab.get, h, ih]
    · simp [Tab.get, ih]

/-- Inserting again at a key replaces what stands there. -/
theorem Tab.insert_insert_self (k : Nat) (v w : α) (t : Tab α) :
    Tab.insert k w (Tab.insert k v t) = Tab.insert k w t := by
  induction t with
  | nil => simp [Tab.insert]
  | cons x t ih =>
    obtain ⟨k', v'⟩ := x
    simp only [Tab.insert]
    split
    · simp [Tab.insert]
    · split
      · simp [Tab.insert]
      · rename_i h1 h2
        simp [Tab.insert, h1, h2, ih]

/-- Removing a key undoes an insertion at it. -/
theorem Tab.erase_insert_self (k : Nat) (v : α) (t : Tab α) : Tab.erase k (Tab.insert k v t) = Tab.erase k t := by
  induction t with
  | nil => simp [Tab.insert, Tab.erase]
  | cons x t ih =>
    obtain ⟨k', v'⟩ := x
    simp only [Tab.insert]
    split
    · rename_i h
      simp [Tab.erase]
    · split
      · rename_i h; subst h; simp [Tab.erase]
      · rename_i h1 h2
        simp [Tab.erase, ih]

variable [DecidableEq α]

/-- A read of the key just written gives the value written. -/
@[simp] theorem Tab.get_put_self (d : α) (t : Tab α) (k : Nat) (v : α) : Tab.get d (Tab.put d t k v) k = v := by
  unfold Tab.put
  split
  · rename_i h; rw [h]; exact Tab.get_erase_self d k t
  · exact Tab.get_insert_self d k v t

/-- A write leaves every other key alone. -/
theorem Tab.get_put_ne (d : α) (t : Tab α) {k n : Nat} (h : k ≠ n) (v : α) :
    Tab.get d (Tab.put d t k v) n = Tab.get d t n := by
  unfold Tab.put
  split
  · exact Tab.get_erase_ne d h t
  · exact Tab.get_insert_ne d h v t

/-- A read after a write, either way. -/
theorem Tab.get_put (d : α) (t : Tab α) (k n : Nat) (v : α) :
    Tab.get d (Tab.put d t k v) n = if k = n then v else Tab.get d t n := by
  split
  · rename_i h; subst h; exact Tab.get_put_self d t k v
  · rename_i h; exact Tab.get_put_ne d t h v

/-! ### The canonical form -/

/-- Of two writes to a key the second stands, whatever the table's form, if the first wrote an entry. -/
theorem Tab.put_put (d : α) (t : Tab α) (k : Nat) {v : α} (hv : v ≠ d) (w : α) :
    Tab.put d (Tab.put d t k v) k w = Tab.put d t k w := by
  simp only [Tab.put, if_neg hv]
  split
  · exact Tab.erase_insert_self k v t
  · exact Tab.insert_insert_self k v w t

theorem Tab.wfFrom_mono (d : α) {a b : Nat} (h : a ≤ b) (t : Tab α) (w : Tab.wfFrom d b t = true) :
    Tab.wfFrom d a t = true := by
  cases t with
  | nil => rfl
  | cons x t =>
    obtain ⟨k, v⟩ := x
    simp only [Tab.wfFrom, Bool.and_eq_true, decide_eq_true_eq] at w ⊢
    exact ⟨⟨by omega, w.1.2⟩, w.2⟩

theorem Tab.wfFrom_insert (d : α) {v : α} (hv : v ≠ d) (k : Nat) (t : Tab α) :
    ∀ lo, lo ≤ k → Tab.wfFrom d lo t = true → Tab.wfFrom d lo (Tab.insert k v t) = true := by
  induction t with
  | nil => intro lo h _; simp [Tab.insert, Tab.wfFrom, h, hv]
  | cons x t ih =>
    obtain ⟨k', v'⟩ := x
    intro lo h w
    simp only [Tab.wfFrom, Bool.and_eq_true, decide_eq_true_eq] at w
    simp only [Tab.insert]
    split
    · rename_i h1
      simp only [Tab.wfFrom, Bool.and_eq_true, decide_eq_true_eq]
      exact ⟨⟨h, hv⟩, ⟨by omega, w.1.2⟩, w.2⟩
    · split
      · rename_i h1 h2
        subst h2
        simp only [Tab.wfFrom, Bool.and_eq_true, decide_eq_true_eq]
        exact ⟨⟨h, hv⟩, w.2⟩
      · rename_i h1 h2
        simp only [Tab.wfFrom, Bool.and_eq_true, decide_eq_true_eq]
        exact ⟨w.1, ih (k' + 1) (by omega) w.2⟩

theorem Tab.wfFrom_filter (d : α) (p : Nat × α → Bool) (t : Tab α) :
    ∀ lo, Tab.wfFrom d lo t = true → Tab.wfFrom d lo (t.filter p) = true := by
  induction t with
  | nil => intro lo h; exact h
  | cons x t ih =>
    obtain ⟨k, v⟩ := x
    intro lo w
    simp only [Tab.wfFrom, Bool.and_eq_true, decide_eq_true_eq] at w
    simp only [List.filter]
    split
    · simp only [Tab.wfFrom, Bool.and_eq_true, decide_eq_true_eq]
      exact ⟨w.1, ih _ w.2⟩
    · exact Tab.wfFrom_mono d (by omega) _ (ih _ w.2)

omit [DecidableEq α] in
theorem Tab.erase_eq_filter (k : Nat) (t : Tab α) : Tab.erase k t = t.filter fun x => x.1 != k := by
  induction t with
  | nil => rfl
  | cons x t ih =>
    obtain ⟨k', v'⟩ := x
    simp only [Tab.erase, List.filter]
    split
    · rename_i h; simp [h, ih]
    · rename_i h
      have h' : (k' != k) = true := by simpa using h
      simp [h', ih]

/-- Dropping entries keeps the canonical form. -/
@[simp] theorem Tab.wf_filter {d : α} {t : Tab α} (p : Nat × α → Bool) (w : Tab.wf d t = true) :
    Tab.wf d (t.filter p) = true := Tab.wfFrom_filter d p t 0 w

/-- A write keeps the canonical form. -/
@[simp] theorem Tab.wf_put {d : α} {t : Tab α} (k : Nat) (v : α) (w : Tab.wf d t = true) :
    Tab.wf d (Tab.put d t k v) = true := by
  unfold Tab.put
  split
  · rw [Tab.erase_eq_filter]; exact Tab.wf_filter _ w
  · rename_i h; exact Tab.wfFrom_insert d h k t 0 (Nat.zero_le k) w

/-- Writes at consecutive keys keep it. -/
@[simp] theorem Tab.wf_putN {d : α} (vs : List α) :
    ∀ {t : Tab α} (k : Nat), Tab.wf d t = true → Tab.wf d (Tab.putN d t k vs) = true := by
  induction vs with
  | nil => intro t k w; exact w
  | cons v vs ih => intro t k w; exact ih (k + 1) (Tab.wf_put k v w)

/-- What consecutive writes leave at any key. -/
theorem Tab.get_putN (d : α) (vs : List α) : ∀ (t : Tab α) (k n : Nat),
    Tab.get d (Tab.putN d t k vs) n = if k ≤ n then (vs[n - k]?).getD (Tab.get d t n) else Tab.get d t n := by
  induction vs with
  | nil => intro t k n; simp [Tab.putN]
  | cons v vs ih =>
    intro t k n
    simp only [Tab.putN, ih, Tab.get_put]
    by_cases h : k = n
    · subst h; simp [show ¬ k + 1 ≤ k by omega]
    · by_cases h1 : k ≤ n
      · have h2 : n - k = (n - (k + 1)) + 1 := by omega
        simp [h, h1, show k + 1 ≤ n by omega, h2]
      · simp [h, h1, show ¬ k + 1 ≤ n by omega]

/-! ### Memory -/

/-- A read of the byte just written gives it. -/
@[simp] theorem Memory.read_write_self (m : Memory) (a : Nat) (b : Byte) : (m.write a b).read a = b :=
  Tab.get_put_self _ m a b

/-- A write leaves every other byte alone. -/
theorem Memory.read_write_ne (m : Memory) {a x : Nat} (h : a ≠ x) (b : Byte) : (m.write a b).read x = m.read x :=
  Tab.get_put_ne _ m h b

/-- A write keeps the canonical form. -/
@[simp] theorem Memory.wf_write {m : Memory} (a : Nat) (b : Byte) (w : m.wf = true) : (m.write a b).wf = true :=
  Tab.wf_put a b w

theorem Memory.writeN_eq (m : Memory) (a : Nat) (bs : List Byte) : m.writeN a bs = Tab.putN Memory.blank m a bs := by
  induction bs generalizing m a with
  | nil => rfl
  | cons b bs ih => exact ih _ _

/-- Writing bytes keeps the canonical form. -/
@[simp] theorem Memory.wf_writeN {m : Memory} (a : Nat) (bs : List Byte) (w : m.wf = true) :
    (m.writeN a bs).wf = true := by
  rw [Memory.writeN_eq]; exact Tab.wf_putN bs a w

/-- Dropping bytes keeps the canonical form. -/
@[simp] theorem Memory.wf_filter {m : Memory} (p : Nat × Byte → Bool) (w : m.wf = true) :
    Memory.wf (m.filter p) = true := Tab.wf_filter p w

/-- What writing bytes from a up leaves at any address. -/
theorem Memory.read_writeN (m : Memory) (a : Nat) (bs : List Byte) (x : Nat) :
    (m.writeN a bs).read x = if a ≤ x then (bs[x - a]?).getD (m.read x) else m.read x := by
  rw [Memory.writeN_eq]; exact Tab.get_putN _ bs m a x

/-- A byte outside the bytes written reads as before. -/
theorem Memory.read_writeN_outside (m : Memory) (a : Nat) (bs : List Byte) {x : Nat}
    (h : x < a ∨ a + bs.length ≤ x) : (m.writeN a bs).read x = m.read x := by
  rw [Memory.read_writeN]
  split
  · rw [List.getElem?_eq_none (by omega)]; rfl
  · rfl

/-- Empty memory is canonical. -/
theorem Memory.wf_nil : Memory.wf [] = true := rfl

end Sys2Proof.Machine
end

