-- ==== Sys2Proof/Laws/State.lean ====
section
/-! SUPPORT. What every update of the state leaves alone, field by field, and what reading back gives. -/

namespace Sys2Proof.Machine

/-! ### setCore -/

@[simp] theorem State.setCore_clock (s : State) (c : CoreId) (k : Core) : (s.setCore c k).clock = s.clock := rfl
@[simp] theorem State.setCore_ftimeBase (s : State) (c : CoreId) (k : Core) : (s.setCore c k).ftimeBase = s.ftimeBase := rfl
@[simp] theorem State.setCore_ftimeAt (s : State) (c : CoreId) (k : Core) : (s.setCore c k).ftimeAt = s.ftimeAt := rfl
@[simp] theorem State.setCore_ftimeSlow (s : State) (c : CoreId) (k : Core) : (s.setCore c k).ftimeSlow = s.ftimeSlow := rfl
@[simp] theorem State.setCore_agenda (s : State) (c : CoreId) (k : Core) : (s.setCore c k).agenda = s.agenda := rfl
@[simp] theorem State.setCore_cur (s : State) (c : CoreId) (k : Core) : (s.setCore c k).cur = s.cur := rfl
@[simp] theorem State.setCore_free (s : State) (c : CoreId) (k : Core) : (s.setCore c k).free = s.free := rfl
@[simp] theorem State.setCore_mem (s : State) (c : CoreId) (k : Core) : (s.setCore c k).mem = s.mem := rfl
@[simp] theorem State.setCore_taint (s : State) (c : CoreId) (k : Core) : (s.setCore c k).taint = s.taint := rfl
@[simp] theorem State.setCore_uncorr (s : State) (c : CoreId) (k : Core) : (s.setCore c k).uncorr = s.uncorr := rfl
@[simp] theorem State.setCore_poison (s : State) (c : CoreId) (k : Core) : (s.setCore c k).poison = s.poison := rfl
@[simp] theorem State.setCore_dirty (s : State) (c : CoreId) (k : Core) : (s.setCore c k).dirty = s.dirty := rfl
@[simp] theorem State.setCore_tags (s : State) (c : CoreId) (k : Core) : (s.setCore c k).tags = s.tags := rfl
@[simp] theorem State.setCore_svus (s : State) (c : CoreId) (k : Core) : (s.setCore c k).svus = s.svus := rfl
@[simp] theorem State.setCore_clusters (s : State) (c : CoreId) (k : Core) : (s.setCore c k).clusters = s.clusters := rfl
@[simp] theorem State.setCore_meshes (s : State) (c : CoreId) (k : Core) : (s.setCore c k).meshes = s.meshes := rfl
@[simp] theorem State.setCore_dies (s : State) (c : CoreId) (k : Core) : (s.setCore c k).dies = s.dies := rfl
@[simp] theorem State.setCore_launches (s : State) (c : CoreId) (k : Core) : (s.setCore c k).launches = s.launches := rfl
@[simp] theorem State.setCore_nextLaunch (s : State) (c : CoreId) (k : Core) : (s.setCore c k).nextLaunch = s.nextLaunch := rfl
@[simp] theorem State.setCore_parts (s : State) (c : CoreId) (k : Core) : (s.setCore c k).parts = s.parts := rfl
@[simp] theorem State.setCore_counters (s : State) (c : CoreId) (k : Core) : (s.setCore c k).counters = s.counters := rfl
@[simp] theorem State.setCore_wrapped (s : State) (c : CoreId) (k : Core) : (s.setCore c k).wrapped = s.wrapped := rfl
@[simp] theorem State.setCore_vfs (s : State) (c : CoreId) (k : Core) : (s.setCore c k).vfs = s.vfs := rfl
@[simp] theorem State.setCore_conf (s : State) (c : CoreId) (k : Core) : (s.setCore c k).conf = s.conf := rfl
@[simp] theorem State.setCore_newStore (s : State) (c : CoreId) (k : Core) : (s.setCore c k).newStore = s.newStore := rfl
@[simp] theorem State.setCore_host (s : State) (c : CoreId) (k : Core) : (s.setCore c k).host = s.host := rfl
@[simp] theorem State.setCore_hostWrites (s : State) (c : CoreId) (k : Core) : (s.setCore c k).hostWrites = s.hostWrites := rfl
@[simp] theorem State.setCore_pmrPlat (s : State) (c : CoreId) (k : Core) : (s.setCore c k).pmrPlat = s.pmrPlat := rfl
@[simp] theorem State.setCore_attests (s : State) (c : CoreId) (k : Core) : (s.setCore c k).attests = s.attests := rfl
@[simp] theorem State.setCore_broughtUp (s : State) (c : CoreId) (k : Core) : (s.setCore c k).broughtUp = s.broughtUp := rfl
@[simp] theorem State.setCore_quarantine (s : State) (c : CoreId) (k : Core) : (s.setCore c k).quarantine = s.quarantine := rfl
@[simp] theorem State.setCore_suspects (s : State) (c : CoreId) (k : Core) : (s.setCore c k).suspects = s.suspects := rfl
@[simp] theorem State.setCore_alarms (s : State) (c : CoreId) (k : Core) : (s.setCore c k).alarms = s.alarms := rfl
@[simp] theorem State.setCore_xfaults (s : State) (c : CoreId) (k : Core) : (s.setCore c k).xfaults = s.xfaults := rfl
@[simp] theorem State.setCore_nextToken (s : State) (c : CoreId) (k : Core) : (s.setCore c k).nextToken = s.nextToken := rfl
@[simp] theorem State.setCore_supMail (s : State) (c : CoreId) (k : Core) : (s.setCore c k).supMail = s.supMail := rfl
@[simp] theorem State.setCore_sysMail (s : State) (c : CoreId) (k : Core) : (s.setCore c k).sysMail = s.sysMail := rfl
@[simp] theorem State.setCore_hypMail (s : State) (c : CoreId) (k : Core) : (s.setCore c k).hypMail = s.hypMail := rfl
@[simp] theorem State.setCore_responses (s : State) (c : CoreId) (k : Core) : (s.setCore c k).responses = s.responses := rfl
@[simp] theorem State.setCore_answers (s : State) (c : CoreId) (k : Core) : (s.setCore c k).answers = s.answers := rfl
@[simp] theorem State.setCore_completions (s : State) (c : CoreId) (k : Core) : (s.setCore c k).completions = s.completions := rfl
@[simp] theorem State.setCore_notified (s : State) (c : CoreId) (k : Core) : (s.setCore c k).notified = s.notified := rfl
@[simp] theorem State.setCore_fports (s : State) (c : CoreId) (k : Core) : (s.setCore c k).fports = s.fports := rfl
@[simp] theorem State.setCore_windows (s : State) (c : CoreId) (k : Core) : (s.setCore c k).windows = s.windows := rfl
@[simp] theorem State.setCore_autoEx (s : State) (c : CoreId) (k : Core) : (s.setCore c k).autoEx = s.autoEx := rfl
@[simp] theorem State.setCore_lateDrop (s : State) (c : CoreId) (k : Core) : (s.setCore c k).lateDrop = s.lateDrop := rfl
@[simp] theorem State.setCore_outbox (s : State) (c : CoreId) (k : Core) : (s.setCore c k).outbox = s.outbox := rfl
@[simp] theorem State.setCore_odb (s : State) (c : CoreId) (k : Core) : (s.setCore c k).odb = s.odb := rfl
@[simp] theorem State.setCore_fabReserve (s : State) (c : CoreId) (k : Core) : (s.setCore c k).fabReserve = s.fabReserve := rfl
@[simp] theorem State.setCore_delivered (s : State) (c : CoreId) (k : Core) : (s.setCore c k).delivered = s.delivered := rfl
@[simp] theorem State.setCore_markers (s : State) (c : CoreId) (k : Core) : (s.setCore c k).markers = s.markers := rfl
@[simp] theorem State.setCore_waitPkts (s : State) (c : CoreId) (k : Core) : (s.setCore c k).waitPkts = s.waitPkts := rfl
@[simp] theorem State.setCore_loopIn (s : State) (c : CoreId) (k : Core) : (s.setCore c k).loopIn = s.loopIn := rfl
@[simp] theorem State.setCore_unrouted (s : State) (c : CoreId) (k : Core) : (s.setCore c k).unrouted = s.unrouted := rfl
@[simp] theorem State.setCore_routeEpoch (s : State) (c : CoreId) (k : Core) : (s.setCore c k).routeEpoch = s.routeEpoch := rfl
@[simp] theorem State.setCore_throttle (s : State) (c : CoreId) (k : Core) : (s.setCore c k).throttle = s.throttle := rfl
@[simp] theorem State.setCore_checkFail (s : State) (c : CoreId) (k : Core) : (s.setCore c k).checkFail = s.checkFail := rfl

/-! ### modCore -/

@[simp] theorem State.modCore_clock (s : State) (c : CoreId) (f : Core → Core) : (s.modCore c f).clock = s.clock := rfl
@[simp] theorem State.modCore_ftimeBase (s : State) (c : CoreId) (f : Core → Core) : (s.modCore c f).ftimeBase = s.ftimeBase := rfl
@[simp] theorem State.modCore_ftimeAt (s : State) (c : CoreId) (f : Core → Core) : (s.modCore c f).ftimeAt = s.ftimeAt := rfl
@[simp] theorem State.modCore_ftimeSlow (s : State) (c : CoreId) (f : Core → Core) : (s.modCore c f).ftimeSlow = s.ftimeSlow := rfl
@[simp] theorem State.modCore_agenda (s : State) (c : CoreId) (f : Core → Core) : (s.modCore c f).agenda = s.agenda := rfl
@[simp] theorem State.modCore_cur (s : State) (c : CoreId) (f : Core → Core) : (s.modCore c f).cur = s.cur := rfl
@[simp] theorem State.modCore_free (s : State) (c : CoreId) (f : Core → Core) : (s.modCore c f).free = s.free := rfl
@[simp] theorem State.modCore_mem (s : State) (c : CoreId) (f : Core → Core) : (s.modCore c f).mem = s.mem := rfl
@[simp] theorem State.modCore_taint (s : State) (c : CoreId) (f : Core → Core) : (s.modCore c f).taint = s.taint := rfl
@[simp] theorem State.modCore_uncorr (s : State) (c : CoreId) (f : Core → Core) : (s.modCore c f).uncorr = s.uncorr := rfl
@[simp] theorem State.modCore_poison (s : State) (c : CoreId) (f : Core → Core) : (s.modCore c f).poison = s.poison := rfl
@[simp] theorem State.modCore_dirty (s : State) (c : CoreId) (f : Core → Core) : (s.modCore c f).dirty = s.dirty := rfl
@[simp] theorem State.modCore_tags (s : State) (c : CoreId) (f : Core → Core) : (s.modCore c f).tags = s.tags := rfl
@[simp] theorem State.modCore_svus (s : State) (c : CoreId) (f : Core → Core) : (s.modCore c f).svus = s.svus := rfl
@[simp] theorem State.modCore_clusters (s : State) (c : CoreId) (f : Core → Core) : (s.modCore c f).clusters = s.clusters := rfl
@[simp] theorem State.modCore_meshes (s : State) (c : CoreId) (f : Core → Core) : (s.modCore c f).meshes = s.meshes := rfl
@[simp] theorem State.modCore_dies (s : State) (c : CoreId) (f : Core → Core) : (s.modCore c f).dies = s.dies := rfl
@[simp] theorem State.modCore_launches (s : State) (c : CoreId) (f : Core → Core) : (s.modCore c f).launches = s.launches := rfl
@[simp] theorem State.modCore_nextLaunch (s : State) (c : CoreId) (f : Core → Core) : (s.modCore c f).nextLaunch = s.nextLaunch := rfl
@[simp] theorem State.modCore_parts (s : State) (c : CoreId) (f : Core → Core) : (s.modCore c f).parts = s.parts := rfl
@[simp] theorem State.modCore_counters (s : State) (c : CoreId) (f : Core → Core) : (s.modCore c f).counters = s.counters := rfl
@[simp] theorem State.modCore_wrapped (s : State) (c : CoreId) (f : Core → Core) : (s.modCore c f).wrapped = s.wrapped := rfl
@[simp] theorem State.modCore_vfs (s : State) (c : CoreId) (f : Core → Core) : (s.modCore c f).vfs = s.vfs := rfl
@[simp] theorem State.modCore_conf (s : State) (c : CoreId) (f : Core → Core) : (s.modCore c f).conf = s.conf := rfl
@[simp] theorem State.modCore_newStore (s : State) (c : CoreId) (f : Core → Core) : (s.modCore c f).newStore = s.newStore := rfl
@[simp] theorem State.modCore_host (s : State) (c : CoreId) (f : Core → Core) : (s.modCore c f).host = s.host := rfl
@[simp] theorem State.modCore_hostWrites (s : State) (c : CoreId) (f : Core → Core) : (s.modCore c f).hostWrites = s.hostWrites := rfl
@[simp] theorem State.modCore_pmrPlat (s : State) (c : CoreId) (f : Core → Core) : (s.modCore c f).pmrPlat = s.pmrPlat := rfl
@[simp] theorem State.modCore_attests (s : State) (c : CoreId) (f : Core → Core) : (s.modCore c f).attests = s.attests := rfl
@[simp] theorem State.modCore_broughtUp (s : State) (c : CoreId) (f : Core → Core) : (s.modCore c f).broughtUp = s.broughtUp := rfl
@[simp] theorem State.modCore_quarantine (s : State) (c : CoreId) (f : Core → Core) : (s.modCore c f).quarantine = s.quarantine := rfl
@[simp] theorem State.modCore_suspects (s : State) (c : CoreId) (f : Core → Core) : (s.modCore c f).suspects = s.suspects := rfl
@[simp] theorem State.modCore_alarms (s : State) (c : CoreId) (f : Core → Core) : (s.modCore c f).alarms = s.alarms := rfl
@[simp] theorem State.modCore_xfaults (s : State) (c : CoreId) (f : Core → Core) : (s.modCore c f).xfaults = s.xfaults := rfl
@[simp] theorem State.modCore_nextToken (s : State) (c : CoreId) (f : Core → Core) : (s.modCore c f).nextToken = s.nextToken := rfl
@[simp] theorem State.modCore_supMail (s : State) (c : CoreId) (f : Core → Core) : (s.modCore c f).supMail = s.supMail := rfl
@[simp] theorem State.modCore_sysMail (s : State) (c : CoreId) (f : Core → Core) : (s.modCore c f).sysMail = s.sysMail := rfl
@[simp] theorem State.modCore_hypMail (s : State) (c : CoreId) (f : Core → Core) : (s.modCore c f).hypMail = s.hypMail := rfl
@[simp] theorem State.modCore_responses (s : State) (c : CoreId) (f : Core → Core) : (s.modCore c f).responses = s.responses := rfl
@[simp] theorem State.modCore_answers (s : State) (c : CoreId) (f : Core → Core) : (s.modCore c f).answers = s.answers := rfl
@[simp] theorem State.modCore_completions (s : State) (c : CoreId) (f : Core → Core) : (s.modCore c f).completions = s.completions := rfl
@[simp] theorem State.modCore_notified (s : State) (c : CoreId) (f : Core → Core) : (s.modCore c f).notified = s.notified := rfl
@[simp] theorem State.modCore_fports (s : State) (c : CoreId) (f : Core → Core) : (s.modCore c f).fports = s.fports := rfl
@[simp] theorem State.modCore_windows (s : State) (c : CoreId) (f : Core → Core) : (s.modCore c f).windows = s.windows := rfl
@[simp] theorem State.modCore_autoEx (s : State) (c : CoreId) (f : Core → Core) : (s.modCore c f).autoEx = s.autoEx := rfl
@[simp] theorem State.modCore_lateDrop (s : State) (c : CoreId) (f : Core → Core) : (s.modCore c f).lateDrop = s.lateDrop := rfl
@[simp] theorem State.modCore_outbox (s : State) (c : CoreId) (f : Core → Core) : (s.modCore c f).outbox = s.outbox := rfl
@[simp] theorem State.modCore_odb (s : State) (c : CoreId) (f : Core → Core) : (s.modCore c f).odb = s.odb := rfl
@[simp] theorem State.modCore_fabReserve (s : State) (c : CoreId) (f : Core → Core) : (s.modCore c f).fabReserve = s.fabReserve := rfl
@[simp] theorem State.modCore_delivered (s : State) (c : CoreId) (f : Core → Core) : (s.modCore c f).delivered = s.delivered := rfl
@[simp] theorem State.modCore_markers (s : State) (c : CoreId) (f : Core → Core) : (s.modCore c f).markers = s.markers := rfl
@[simp] theorem State.modCore_waitPkts (s : State) (c : CoreId) (f : Core → Core) : (s.modCore c f).waitPkts = s.waitPkts := rfl
@[simp] theorem State.modCore_loopIn (s : State) (c : CoreId) (f : Core → Core) : (s.modCore c f).loopIn = s.loopIn := rfl
@[simp] theorem State.modCore_unrouted (s : State) (c : CoreId) (f : Core → Core) : (s.modCore c f).unrouted = s.unrouted := rfl
@[simp] theorem State.modCore_routeEpoch (s : State) (c : CoreId) (f : Core → Core) : (s.modCore c f).routeEpoch = s.routeEpoch := rfl
@[simp] theorem State.modCore_throttle (s : State) (c : CoreId) (f : Core → Core) : (s.modCore c f).throttle = s.throttle := rfl
@[simp] theorem State.modCore_checkFail (s : State) (c : CoreId) (f : Core → Core) : (s.modCore c f).checkFail = s.checkFail := rfl

/-! ### setMe -/

@[simp] theorem State.setMe_clock (s : State) (k : Core) : (s.setMe k).clock = s.clock := rfl
@[simp] theorem State.setMe_ftimeBase (s : State) (k : Core) : (s.setMe k).ftimeBase = s.ftimeBase := rfl
@[simp] theorem State.setMe_ftimeAt (s : State) (k : Core) : (s.setMe k).ftimeAt = s.ftimeAt := rfl
@[simp] theorem State.setMe_ftimeSlow (s : State) (k : Core) : (s.setMe k).ftimeSlow = s.ftimeSlow := rfl
@[simp] theorem State.setMe_agenda (s : State) (k : Core) : (s.setMe k).agenda = s.agenda := rfl
@[simp] theorem State.setMe_cur (s : State) (k : Core) : (s.setMe k).cur = s.cur := rfl
@[simp] theorem State.setMe_free (s : State) (k : Core) : (s.setMe k).free = s.free := rfl
@[simp] theorem State.setMe_mem (s : State) (k : Core) : (s.setMe k).mem = s.mem := rfl
@[simp] theorem State.setMe_taint (s : State) (k : Core) : (s.setMe k).taint = s.taint := rfl
@[simp] theorem State.setMe_uncorr (s : State) (k : Core) : (s.setMe k).uncorr = s.uncorr := rfl
@[simp] theorem State.setMe_poison (s : State) (k : Core) : (s.setMe k).poison = s.poison := rfl
@[simp] theorem State.setMe_dirty (s : State) (k : Core) : (s.setMe k).dirty = s.dirty := rfl
@[simp] theorem State.setMe_tags (s : State) (k : Core) : (s.setMe k).tags = s.tags := rfl
@[simp] theorem State.setMe_svus (s : State) (k : Core) : (s.setMe k).svus = s.svus := rfl
@[simp] theorem State.setMe_clusters (s : State) (k : Core) : (s.setMe k).clusters = s.clusters := rfl
@[simp] theorem State.setMe_meshes (s : State) (k : Core) : (s.setMe k).meshes = s.meshes := rfl
@[simp] theorem State.setMe_dies (s : State) (k : Core) : (s.setMe k).dies = s.dies := rfl
@[simp] theorem State.setMe_launches (s : State) (k : Core) : (s.setMe k).launches = s.launches := rfl
@[simp] theorem State.setMe_nextLaunch (s : State) (k : Core) : (s.setMe k).nextLaunch = s.nextLaunch := rfl
@[simp] theorem State.setMe_parts (s : State) (k : Core) : (s.setMe k).parts = s.parts := rfl
@[simp] theorem State.setMe_counters (s : State) (k : Core) : (s.setMe k).counters = s.counters := rfl
@[simp] theorem State.setMe_wrapped (s : State) (k : Core) : (s.setMe k).wrapped = s.wrapped := rfl
@[simp] theorem State.setMe_vfs (s : State) (k : Core) : (s.setMe k).vfs = s.vfs := rfl
@[simp] theorem State.setMe_conf (s : State) (k : Core) : (s.setMe k).conf = s.conf := rfl
@[simp] theorem State.setMe_newStore (s : State) (k : Core) : (s.setMe k).newStore = s.newStore := rfl
@[simp] theorem State.setMe_host (s : State) (k : Core) : (s.setMe k).host = s.host := rfl
@[simp] theorem State.setMe_hostWrites (s : State) (k : Core) : (s.setMe k).hostWrites = s.hostWrites := rfl
@[simp] theorem State.setMe_pmrPlat (s : State) (k : Core) : (s.setMe k).pmrPlat = s.pmrPlat := rfl
@[simp] theorem State.setMe_attests (s : State) (k : Core) : (s.setMe k).attests = s.attests := rfl
@[simp] theorem State.setMe_broughtUp (s : State) (k : Core) : (s.setMe k).broughtUp = s.broughtUp := rfl
@[simp] theorem State.setMe_quarantine (s : State) (k : Core) : (s.setMe k).quarantine = s.quarantine := rfl
@[simp] theorem State.setMe_suspects (s : State) (k : Core) : (s.setMe k).suspects = s.suspects := rfl
@[simp] theorem State.setMe_alarms (s : State) (k : Core) : (s.setMe k).alarms = s.alarms := rfl
@[simp] theorem State.setMe_xfaults (s : State) (k : Core) : (s.setMe k).xfaults = s.xfaults := rfl
@[simp] theorem State.setMe_nextToken (s : State) (k : Core) : (s.setMe k).nextToken = s.nextToken := rfl
@[simp] theorem State.setMe_supMail (s : State) (k : Core) : (s.setMe k).supMail = s.supMail := rfl
@[simp] theorem State.setMe_sysMail (s : State) (k : Core) : (s.setMe k).sysMail = s.sysMail := rfl
@[simp] theorem State.setMe_hypMail (s : State) (k : Core) : (s.setMe k).hypMail = s.hypMail := rfl
@[simp] theorem State.setMe_responses (s : State) (k : Core) : (s.setMe k).responses = s.responses := rfl
@[simp] theorem State.setMe_answers (s : State) (k : Core) : (s.setMe k).answers = s.answers := rfl
@[simp] theorem State.setMe_completions (s : State) (k : Core) : (s.setMe k).completions = s.completions := rfl
@[simp] theorem State.setMe_notified (s : State) (k : Core) : (s.setMe k).notified = s.notified := rfl
@[simp] theorem State.setMe_fports (s : State) (k : Core) : (s.setMe k).fports = s.fports := rfl
@[simp] theorem State.setMe_windows (s : State) (k : Core) : (s.setMe k).windows = s.windows := rfl
@[simp] theorem State.setMe_autoEx (s : State) (k : Core) : (s.setMe k).autoEx = s.autoEx := rfl
@[simp] theorem State.setMe_lateDrop (s : State) (k : Core) : (s.setMe k).lateDrop = s.lateDrop := rfl
@[simp] theorem State.setMe_outbox (s : State) (k : Core) : (s.setMe k).outbox = s.outbox := rfl
@[simp] theorem State.setMe_odb (s : State) (k : Core) : (s.setMe k).odb = s.odb := rfl
@[simp] theorem State.setMe_fabReserve (s : State) (k : Core) : (s.setMe k).fabReserve = s.fabReserve := rfl
@[simp] theorem State.setMe_delivered (s : State) (k : Core) : (s.setMe k).delivered = s.delivered := rfl
@[simp] theorem State.setMe_markers (s : State) (k : Core) : (s.setMe k).markers = s.markers := rfl
@[simp] theorem State.setMe_waitPkts (s : State) (k : Core) : (s.setMe k).waitPkts = s.waitPkts := rfl
@[simp] theorem State.setMe_loopIn (s : State) (k : Core) : (s.setMe k).loopIn = s.loopIn := rfl
@[simp] theorem State.setMe_unrouted (s : State) (k : Core) : (s.setMe k).unrouted = s.unrouted := rfl
@[simp] theorem State.setMe_routeEpoch (s : State) (k : Core) : (s.setMe k).routeEpoch = s.routeEpoch := rfl
@[simp] theorem State.setMe_throttle (s : State) (k : Core) : (s.setMe k).throttle = s.throttle := rfl
@[simp] theorem State.setMe_checkFail (s : State) (k : Core) : (s.setMe k).checkFail = s.checkFail := rfl

/-! ### modMe -/

@[simp] theorem State.modMe_clock (s : State) (f : Core → Core) : (s.modMe f).clock = s.clock := rfl
@[simp] theorem State.modMe_ftimeBase (s : State) (f : Core → Core) : (s.modMe f).ftimeBase = s.ftimeBase := rfl
@[simp] theorem State.modMe_ftimeAt (s : State) (f : Core → Core) : (s.modMe f).ftimeAt = s.ftimeAt := rfl
@[simp] theorem State.modMe_ftimeSlow (s : State) (f : Core → Core) : (s.modMe f).ftimeSlow = s.ftimeSlow := rfl
@[simp] theorem State.modMe_agenda (s : State) (f : Core → Core) : (s.modMe f).agenda = s.agenda := rfl
@[simp] theorem State.modMe_cur (s : State) (f : Core → Core) : (s.modMe f).cur = s.cur := rfl
@[simp] theorem State.modMe_free (s : State) (f : Core → Core) : (s.modMe f).free = s.free := rfl
@[simp] theorem State.modMe_mem (s : State) (f : Core → Core) : (s.modMe f).mem = s.mem := rfl
@[simp] theorem State.modMe_taint (s : State) (f : Core → Core) : (s.modMe f).taint = s.taint := rfl
@[simp] theorem State.modMe_uncorr (s : State) (f : Core → Core) : (s.modMe f).uncorr = s.uncorr := rfl
@[simp] theorem State.modMe_poison (s : State) (f : Core → Core) : (s.modMe f).poison = s.poison := rfl
@[simp] theorem State.modMe_dirty (s : State) (f : Core → Core) : (s.modMe f).dirty = s.dirty := rfl
@[simp] theorem State.modMe_tags (s : State) (f : Core → Core) : (s.modMe f).tags = s.tags := rfl
@[simp] theorem State.modMe_svus (s : State) (f : Core → Core) : (s.modMe f).svus = s.svus := rfl
@[simp] theorem State.modMe_clusters (s : State) (f : Core → Core) : (s.modMe f).clusters = s.clusters := rfl
@[simp] theorem State.modMe_meshes (s : State) (f : Core → Core) : (s.modMe f).meshes = s.meshes := rfl
@[simp] theorem State.modMe_dies (s : State) (f : Core → Core) : (s.modMe f).dies = s.dies := rfl
@[simp] theorem State.modMe_launches (s : State) (f : Core → Core) : (s.modMe f).launches = s.launches := rfl
@[simp] theorem State.modMe_nextLaunch (s : State) (f : Core → Core) : (s.modMe f).nextLaunch = s.nextLaunch := rfl
@[simp] theorem State.modMe_parts (s : State) (f : Core → Core) : (s.modMe f).parts = s.parts := rfl
@[simp] theorem State.modMe_counters (s : State) (f : Core → Core) : (s.modMe f).counters = s.counters := rfl
@[simp] theorem State.modMe_wrapped (s : State) (f : Core → Core) : (s.modMe f).wrapped = s.wrapped := rfl
@[simp] theorem State.modMe_vfs (s : State) (f : Core → Core) : (s.modMe f).vfs = s.vfs := rfl
@[simp] theorem State.modMe_conf (s : State) (f : Core → Core) : (s.modMe f).conf = s.conf := rfl
@[simp] theorem State.modMe_newStore (s : State) (f : Core → Core) : (s.modMe f).newStore = s.newStore := rfl
@[simp] theorem State.modMe_host (s : State) (f : Core → Core) : (s.modMe f).host = s.host := rfl
@[simp] theorem State.modMe_hostWrites (s : State) (f : Core → Core) : (s.modMe f).hostWrites = s.hostWrites := rfl
@[simp] theorem State.modMe_pmrPlat (s : State) (f : Core → Core) : (s.modMe f).pmrPlat = s.pmrPlat := rfl
@[simp] theorem State.modMe_attests (s : State) (f : Core → Core) : (s.modMe f).attests = s.attests := rfl
@[simp] theorem State.modMe_broughtUp (s : State) (f : Core → Core) : (s.modMe f).broughtUp = s.broughtUp := rfl
@[simp] theorem State.modMe_quarantine (s : State) (f : Core → Core) : (s.modMe f).quarantine = s.quarantine := rfl
@[simp] theorem State.modMe_suspects (s : State) (f : Core → Core) : (s.modMe f).suspects = s.suspects := rfl
@[simp] theorem State.modMe_alarms (s : State) (f : Core → Core) : (s.modMe f).alarms = s.alarms := rfl
@[simp] theorem State.modMe_xfaults (s : State) (f : Core → Core) : (s.modMe f).xfaults = s.xfaults := rfl
@[simp] theorem State.modMe_nextToken (s : State) (f : Core → Core) : (s.modMe f).nextToken = s.nextToken := rfl
@[simp] theorem State.modMe_supMail (s : State) (f : Core → Core) : (s.modMe f).supMail = s.supMail := rfl
@[simp] theorem State.modMe_sysMail (s : State) (f : Core → Core) : (s.modMe f).sysMail = s.sysMail := rfl
@[simp] theorem State.modMe_hypMail (s : State) (f : Core → Core) : (s.modMe f).hypMail = s.hypMail := rfl
@[simp] theorem State.modMe_responses (s : State) (f : Core → Core) : (s.modMe f).responses = s.responses := rfl
@[simp] theorem State.modMe_answers (s : State) (f : Core → Core) : (s.modMe f).answers = s.answers := rfl
@[simp] theorem State.modMe_completions (s : State) (f : Core → Core) : (s.modMe f).completions = s.completions := rfl
@[simp] theorem State.modMe_notified (s : State) (f : Core → Core) : (s.modMe f).notified = s.notified := rfl
@[simp] theorem State.modMe_fports (s : State) (f : Core → Core) : (s.modMe f).fports = s.fports := rfl
@[simp] theorem State.modMe_windows (s : State) (f : Core → Core) : (s.modMe f).windows = s.windows := rfl
@[simp] theorem State.modMe_autoEx (s : State) (f : Core → Core) : (s.modMe f).autoEx = s.autoEx := rfl
@[simp] theorem State.modMe_lateDrop (s : State) (f : Core → Core) : (s.modMe f).lateDrop = s.lateDrop := rfl
@[simp] theorem State.modMe_outbox (s : State) (f : Core → Core) : (s.modMe f).outbox = s.outbox := rfl
@[simp] theorem State.modMe_odb (s : State) (f : Core → Core) : (s.modMe f).odb = s.odb := rfl
@[simp] theorem State.modMe_fabReserve (s : State) (f : Core → Core) : (s.modMe f).fabReserve = s.fabReserve := rfl
@[simp] theorem State.modMe_delivered (s : State) (f : Core → Core) : (s.modMe f).delivered = s.delivered := rfl
@[simp] theorem State.modMe_markers (s : State) (f : Core → Core) : (s.modMe f).markers = s.markers := rfl
@[simp] theorem State.modMe_waitPkts (s : State) (f : Core → Core) : (s.modMe f).waitPkts = s.waitPkts := rfl
@[simp] theorem State.modMe_loopIn (s : State) (f : Core → Core) : (s.modMe f).loopIn = s.loopIn := rfl
@[simp] theorem State.modMe_unrouted (s : State) (f : Core → Core) : (s.modMe f).unrouted = s.unrouted := rfl
@[simp] theorem State.modMe_routeEpoch (s : State) (f : Core → Core) : (s.modMe f).routeEpoch = s.routeEpoch := rfl
@[simp] theorem State.modMe_throttle (s : State) (f : Core → Core) : (s.modMe f).throttle = s.throttle := rfl
@[simp] theorem State.modMe_checkFail (s : State) (f : Core → Core) : (s.modMe f).checkFail = s.checkFail := rfl

/-! ### modCluster -/

@[simp] theorem State.modCluster_clock (s : State) (k : ClusterId) (f : Cluster → Cluster) : (s.modCluster k f).clock = s.clock := rfl
@[simp] theorem State.modCluster_ftimeBase (s : State) (k : ClusterId) (f : Cluster → Cluster) : (s.modCluster k f).ftimeBase = s.ftimeBase := rfl
@[simp] theorem State.modCluster_ftimeAt (s : State) (k : ClusterId) (f : Cluster → Cluster) : (s.modCluster k f).ftimeAt = s.ftimeAt := rfl
@[simp] theorem State.modCluster_ftimeSlow (s : State) (k : ClusterId) (f : Cluster → Cluster) : (s.modCluster k f).ftimeSlow = s.ftimeSlow := rfl
@[simp] theorem State.modCluster_agenda (s : State) (k : ClusterId) (f : Cluster → Cluster) : (s.modCluster k f).agenda = s.agenda := rfl
@[simp] theorem State.modCluster_cur (s : State) (k : ClusterId) (f : Cluster → Cluster) : (s.modCluster k f).cur = s.cur := rfl
@[simp] theorem State.modCluster_free (s : State) (k : ClusterId) (f : Cluster → Cluster) : (s.modCluster k f).free = s.free := rfl
@[simp] theorem State.modCluster_mem (s : State) (k : ClusterId) (f : Cluster → Cluster) : (s.modCluster k f).mem = s.mem := rfl
@[simp] theorem State.modCluster_taint (s : State) (k : ClusterId) (f : Cluster → Cluster) : (s.modCluster k f).taint = s.taint := rfl
@[simp] theorem State.modCluster_uncorr (s : State) (k : ClusterId) (f : Cluster → Cluster) : (s.modCluster k f).uncorr = s.uncorr := rfl
@[simp] theorem State.modCluster_poison (s : State) (k : ClusterId) (f : Cluster → Cluster) : (s.modCluster k f).poison = s.poison := rfl
@[simp] theorem State.modCluster_dirty (s : State) (k : ClusterId) (f : Cluster → Cluster) : (s.modCluster k f).dirty = s.dirty := rfl
@[simp] theorem State.modCluster_tags (s : State) (k : ClusterId) (f : Cluster → Cluster) : (s.modCluster k f).tags = s.tags := rfl
@[simp] theorem State.modCluster_cores (s : State) (k : ClusterId) (f : Cluster → Cluster) : (s.modCluster k f).cores = s.cores := rfl
@[simp] theorem State.modCluster_svus (s : State) (k : ClusterId) (f : Cluster → Cluster) : (s.modCluster k f).svus = s.svus := rfl
@[simp] theorem State.modCluster_meshes (s : State) (k : ClusterId) (f : Cluster → Cluster) : (s.modCluster k f).meshes = s.meshes := rfl
@[simp] theorem State.modCluster_dies (s : State) (k : ClusterId) (f : Cluster → Cluster) : (s.modCluster k f).dies = s.dies := rfl
@[simp] theorem State.modCluster_launches (s : State) (k : ClusterId) (f : Cluster → Cluster) : (s.modCluster k f).launches = s.launches := rfl
@[simp] theorem State.modCluster_nextLaunch (s : State) (k : ClusterId) (f : Cluster → Cluster) : (s.modCluster k f).nextLaunch = s.nextLaunch := rfl
@[simp] theorem State.modCluster_parts (s : State) (k : ClusterId) (f : Cluster → Cluster) : (s.modCluster k f).parts = s.parts := rfl
@[simp] theorem State.modCluster_counters (s : State) (k : ClusterId) (f : Cluster → Cluster) : (s.modCluster k f).counters = s.counters := rfl
@[simp] theorem State.modCluster_wrapped (s : State) (k : ClusterId) (f : Cluster → Cluster) : (s.modCluster k f).wrapped = s.wrapped := rfl
@[simp] theorem State.modCluster_vfs (s : State) (k : ClusterId) (f : Cluster → Cluster) : (s.modCluster k f).vfs = s.vfs := rfl
@[simp] theorem State.modCluster_conf (s : State) (k : ClusterId) (f : Cluster → Cluster) : (s.modCluster k f).conf = s.conf := rfl
@[simp] theorem State.modCluster_newStore (s : State) (k : ClusterId) (f : Cluster → Cluster) : (s.modCluster k f).newStore = s.newStore := rfl
@[simp] theorem State.modCluster_host (s : State) (k : ClusterId) (f : Cluster → Cluster) : (s.modCluster k f).host = s.host := rfl
@[simp] theorem State.modCluster_hostWrites (s : State) (k : ClusterId) (f : Cluster → Cluster) : (s.modCluster k f).hostWrites = s.hostWrites := rfl
@[simp] theorem State.modCluster_pmrPlat (s : State) (k : ClusterId) (f : Cluster → Cluster) : (s.modCluster k f).pmrPlat = s.pmrPlat := rfl
@[simp] theorem State.modCluster_attests (s : State) (k : ClusterId) (f : Cluster → Cluster) : (s.modCluster k f).attests = s.attests := rfl
@[simp] theorem State.modCluster_broughtUp (s : State) (k : ClusterId) (f : Cluster → Cluster) : (s.modCluster k f).broughtUp = s.broughtUp := rfl
@[simp] theorem State.modCluster_quarantine (s : State) (k : ClusterId) (f : Cluster → Cluster) : (s.modCluster k f).quarantine = s.quarantine := rfl
@[simp] theorem State.modCluster_suspects (s : State) (k : ClusterId) (f : Cluster → Cluster) : (s.modCluster k f).suspects = s.suspects := rfl
@[simp] theorem State.modCluster_alarms (s : State) (k : ClusterId) (f : Cluster → Cluster) : (s.modCluster k f).alarms = s.alarms := rfl
@[simp] theorem State.modCluster_xfaults (s : State) (k : ClusterId) (f : Cluster → Cluster) : (s.modCluster k f).xfaults = s.xfaults := rfl
@[simp] theorem State.modCluster_nextToken (s : State) (k : ClusterId) (f : Cluster → Cluster) : (s.modCluster k f).nextToken = s.nextToken := rfl
@[simp] theorem State.modCluster_supMail (s : State) (k : ClusterId) (f : Cluster → Cluster) : (s.modCluster k f).supMail = s.supMail := rfl
@[simp] theorem State.modCluster_sysMail (s : State) (k : ClusterId) (f : Cluster → Cluster) : (s.modCluster k f).sysMail = s.sysMail := rfl
@[simp] theorem State.modCluster_hypMail (s : State) (k : ClusterId) (f : Cluster → Cluster) : (s.modCluster k f).hypMail = s.hypMail := rfl
@[simp] theorem State.modCluster_responses (s : State) (k : ClusterId) (f : Cluster → Cluster) : (s.modCluster k f).responses = s.responses := rfl
@[simp] theorem State.modCluster_answers (s : State) (k : ClusterId) (f : Cluster → Cluster) : (s.modCluster k f).answers = s.answers := rfl
@[simp] theorem State.modCluster_completions (s : State) (k : ClusterId) (f : Cluster → Cluster) : (s.modCluster k f).completions = s.completions := rfl
@[simp] theorem State.modCluster_notified (s : State) (k : ClusterId) (f : Cluster → Cluster) : (s.modCluster k f).notified = s.notified := rfl
@[simp] theorem State.modCluster_fports (s : State) (k : ClusterId) (f : Cluster → Cluster) : (s.modCluster k f).fports = s.fports := rfl
@[simp] theorem State.modCluster_windows (s : State) (k : ClusterId) (f : Cluster → Cluster) : (s.modCluster k f).windows = s.windows := rfl
@[simp] theorem State.modCluster_autoEx (s : State) (k : ClusterId) (f : Cluster → Cluster) : (s.modCluster k f).autoEx = s.autoEx := rfl
@[simp] theorem State.modCluster_lateDrop (s : State) (k : ClusterId) (f : Cluster → Cluster) : (s.modCluster k f).lateDrop = s.lateDrop := rfl
@[simp] theorem State.modCluster_outbox (s : State) (k : ClusterId) (f : Cluster → Cluster) : (s.modCluster k f).outbox = s.outbox := rfl
@[simp] theorem State.modCluster_odb (s : State) (k : ClusterId) (f : Cluster → Cluster) : (s.modCluster k f).odb = s.odb := rfl
@[simp] theorem State.modCluster_fabReserve (s : State) (k : ClusterId) (f : Cluster → Cluster) : (s.modCluster k f).fabReserve = s.fabReserve := rfl
@[simp] theorem State.modCluster_delivered (s : State) (k : ClusterId) (f : Cluster → Cluster) : (s.modCluster k f).delivered = s.delivered := rfl
@[simp] theorem State.modCluster_markers (s : State) (k : ClusterId) (f : Cluster → Cluster) : (s.modCluster k f).markers = s.markers := rfl
@[simp] theorem State.modCluster_waitPkts (s : State) (k : ClusterId) (f : Cluster → Cluster) : (s.modCluster k f).waitPkts = s.waitPkts := rfl
@[simp] theorem State.modCluster_loopIn (s : State) (k : ClusterId) (f : Cluster → Cluster) : (s.modCluster k f).loopIn = s.loopIn := rfl
@[simp] theorem State.modCluster_unrouted (s : State) (k : ClusterId) (f : Cluster → Cluster) : (s.modCluster k f).unrouted = s.unrouted := rfl
@[simp] theorem State.modCluster_routeEpoch (s : State) (k : ClusterId) (f : Cluster → Cluster) : (s.modCluster k f).routeEpoch = s.routeEpoch := rfl
@[simp] theorem State.modCluster_throttle (s : State) (k : ClusterId) (f : Cluster → Cluster) : (s.modCluster k f).throttle = s.throttle := rfl
@[simp] theorem State.modCluster_checkFail (s : State) (k : ClusterId) (f : Cluster → Cluster) : (s.modCluster k f).checkFail = s.checkFail := rfl

/-! ### modSvu -/

@[simp] theorem State.modSvu_clock (s : State) (u : SvuId) (f : Svu → Svu) : (s.modSvu u f).clock = s.clock := rfl
@[simp] theorem State.modSvu_ftimeBase (s : State) (u : SvuId) (f : Svu → Svu) : (s.modSvu u f).ftimeBase = s.ftimeBase := rfl
@[simp] theorem State.modSvu_ftimeAt (s : State) (u : SvuId) (f : Svu → Svu) : (s.modSvu u f).ftimeAt = s.ftimeAt := rfl
@[simp] theorem State.modSvu_ftimeSlow (s : State) (u : SvuId) (f : Svu → Svu) : (s.modSvu u f).ftimeSlow = s.ftimeSlow := rfl
@[simp] theorem State.modSvu_agenda (s : State) (u : SvuId) (f : Svu → Svu) : (s.modSvu u f).agenda = s.agenda := rfl
@[simp] theorem State.modSvu_cur (s : State) (u : SvuId) (f : Svu → Svu) : (s.modSvu u f).cur = s.cur := rfl
@[simp] theorem State.modSvu_free (s : State) (u : SvuId) (f : Svu → Svu) : (s.modSvu u f).free = s.free := rfl
@[simp] theorem State.modSvu_mem (s : State) (u : SvuId) (f : Svu → Svu) : (s.modSvu u f).mem = s.mem := rfl
@[simp] theorem State.modSvu_taint (s : State) (u : SvuId) (f : Svu → Svu) : (s.modSvu u f).taint = s.taint := rfl
@[simp] theorem State.modSvu_uncorr (s : State) (u : SvuId) (f : Svu → Svu) : (s.modSvu u f).uncorr = s.uncorr := rfl
@[simp] theorem State.modSvu_poison (s : State) (u : SvuId) (f : Svu → Svu) : (s.modSvu u f).poison = s.poison := rfl
@[simp] theorem State.modSvu_dirty (s : State) (u : SvuId) (f : Svu → Svu) : (s.modSvu u f).dirty = s.dirty := rfl
@[simp] theorem State.modSvu_tags (s : State) (u : SvuId) (f : Svu → Svu) : (s.modSvu u f).tags = s.tags := rfl
@[simp] theorem State.modSvu_cores (s : State) (u : SvuId) (f : Svu → Svu) : (s.modSvu u f).cores = s.cores := rfl
@[simp] theorem State.modSvu_clusters (s : State) (u : SvuId) (f : Svu → Svu) : (s.modSvu u f).clusters = s.clusters := rfl
@[simp] theorem State.modSvu_meshes (s : State) (u : SvuId) (f : Svu → Svu) : (s.modSvu u f).meshes = s.meshes := rfl
@[simp] theorem State.modSvu_dies (s : State) (u : SvuId) (f : Svu → Svu) : (s.modSvu u f).dies = s.dies := rfl
@[simp] theorem State.modSvu_launches (s : State) (u : SvuId) (f : Svu → Svu) : (s.modSvu u f).launches = s.launches := rfl
@[simp] theorem State.modSvu_nextLaunch (s : State) (u : SvuId) (f : Svu → Svu) : (s.modSvu u f).nextLaunch = s.nextLaunch := rfl
@[simp] theorem State.modSvu_parts (s : State) (u : SvuId) (f : Svu → Svu) : (s.modSvu u f).parts = s.parts := rfl
@[simp] theorem State.modSvu_counters (s : State) (u : SvuId) (f : Svu → Svu) : (s.modSvu u f).counters = s.counters := rfl
@[simp] theorem State.modSvu_wrapped (s : State) (u : SvuId) (f : Svu → Svu) : (s.modSvu u f).wrapped = s.wrapped := rfl
@[simp] theorem State.modSvu_vfs (s : State) (u : SvuId) (f : Svu → Svu) : (s.modSvu u f).vfs = s.vfs := rfl
@[simp] theorem State.modSvu_conf (s : State) (u : SvuId) (f : Svu → Svu) : (s.modSvu u f).conf = s.conf := rfl
@[simp] theorem State.modSvu_newStore (s : State) (u : SvuId) (f : Svu → Svu) : (s.modSvu u f).newStore = s.newStore := rfl
@[simp] theorem State.modSvu_host (s : State) (u : SvuId) (f : Svu → Svu) : (s.modSvu u f).host = s.host := rfl
@[simp] theorem State.modSvu_hostWrites (s : State) (u : SvuId) (f : Svu → Svu) : (s.modSvu u f).hostWrites = s.hostWrites := rfl
@[simp] theorem State.modSvu_pmrPlat (s : State) (u : SvuId) (f : Svu → Svu) : (s.modSvu u f).pmrPlat = s.pmrPlat := rfl
@[simp] theorem State.modSvu_attests (s : State) (u : SvuId) (f : Svu → Svu) : (s.modSvu u f).attests = s.attests := rfl
@[simp] theorem State.modSvu_broughtUp (s : State) (u : SvuId) (f : Svu → Svu) : (s.modSvu u f).broughtUp = s.broughtUp := rfl
@[simp] theorem State.modSvu_quarantine (s : State) (u : SvuId) (f : Svu → Svu) : (s.modSvu u f).quarantine = s.quarantine := rfl
@[simp] theorem State.modSvu_suspects (s : State) (u : SvuId) (f : Svu → Svu) : (s.modSvu u f).suspects = s.suspects := rfl
@[simp] theorem State.modSvu_alarms (s : State) (u : SvuId) (f : Svu → Svu) : (s.modSvu u f).alarms = s.alarms := rfl
@[simp] theorem State.modSvu_xfaults (s : State) (u : SvuId) (f : Svu → Svu) : (s.modSvu u f).xfaults = s.xfaults := rfl
@[simp] theorem State.modSvu_nextToken (s : State) (u : SvuId) (f : Svu → Svu) : (s.modSvu u f).nextToken = s.nextToken := rfl
@[simp] theorem State.modSvu_supMail (s : State) (u : SvuId) (f : Svu → Svu) : (s.modSvu u f).supMail = s.supMail := rfl
@[simp] theorem State.modSvu_sysMail (s : State) (u : SvuId) (f : Svu → Svu) : (s.modSvu u f).sysMail = s.sysMail := rfl
@[simp] theorem State.modSvu_hypMail (s : State) (u : SvuId) (f : Svu → Svu) : (s.modSvu u f).hypMail = s.hypMail := rfl
@[simp] theorem State.modSvu_responses (s : State) (u : SvuId) (f : Svu → Svu) : (s.modSvu u f).responses = s.responses := rfl
@[simp] theorem State.modSvu_answers (s : State) (u : SvuId) (f : Svu → Svu) : (s.modSvu u f).answers = s.answers := rfl
@[simp] theorem State.modSvu_completions (s : State) (u : SvuId) (f : Svu → Svu) : (s.modSvu u f).completions = s.completions := rfl
@[simp] theorem State.modSvu_notified (s : State) (u : SvuId) (f : Svu → Svu) : (s.modSvu u f).notified = s.notified := rfl
@[simp] theorem State.modSvu_fports (s : State) (u : SvuId) (f : Svu → Svu) : (s.modSvu u f).fports = s.fports := rfl
@[simp] theorem State.modSvu_windows (s : State) (u : SvuId) (f : Svu → Svu) : (s.modSvu u f).windows = s.windows := rfl
@[simp] theorem State.modSvu_autoEx (s : State) (u : SvuId) (f : Svu → Svu) : (s.modSvu u f).autoEx = s.autoEx := rfl
@[simp] theorem State.modSvu_lateDrop (s : State) (u : SvuId) (f : Svu → Svu) : (s.modSvu u f).lateDrop = s.lateDrop := rfl
@[simp] theorem State.modSvu_outbox (s : State) (u : SvuId) (f : Svu → Svu) : (s.modSvu u f).outbox = s.outbox := rfl
@[simp] theorem State.modSvu_odb (s : State) (u : SvuId) (f : Svu → Svu) : (s.modSvu u f).odb = s.odb := rfl
@[simp] theorem State.modSvu_fabReserve (s : State) (u : SvuId) (f : Svu → Svu) : (s.modSvu u f).fabReserve = s.fabReserve := rfl
@[simp] theorem State.modSvu_delivered (s : State) (u : SvuId) (f : Svu → Svu) : (s.modSvu u f).delivered = s.delivered := rfl
@[simp] theorem State.modSvu_markers (s : State) (u : SvuId) (f : Svu → Svu) : (s.modSvu u f).markers = s.markers := rfl
@[simp] theorem State.modSvu_waitPkts (s : State) (u : SvuId) (f : Svu → Svu) : (s.modSvu u f).waitPkts = s.waitPkts := rfl
@[simp] theorem State.modSvu_loopIn (s : State) (u : SvuId) (f : Svu → Svu) : (s.modSvu u f).loopIn = s.loopIn := rfl
@[simp] theorem State.modSvu_unrouted (s : State) (u : SvuId) (f : Svu → Svu) : (s.modSvu u f).unrouted = s.unrouted := rfl
@[simp] theorem State.modSvu_routeEpoch (s : State) (u : SvuId) (f : Svu → Svu) : (s.modSvu u f).routeEpoch = s.routeEpoch := rfl
@[simp] theorem State.modSvu_throttle (s : State) (u : SvuId) (f : Svu → Svu) : (s.modSvu u f).throttle = s.throttle := rfl
@[simp] theorem State.modSvu_checkFail (s : State) (u : SvuId) (f : Svu → Svu) : (s.modSvu u f).checkFail = s.checkFail := rfl

/-! ### modMesh -/

@[simp] theorem State.modMesh_clock (s : State) (m : MeshId) (f : Mesh → Mesh) : (s.modMesh m f).clock = s.clock := rfl
@[simp] theorem State.modMesh_ftimeBase (s : State) (m : MeshId) (f : Mesh → Mesh) : (s.modMesh m f).ftimeBase = s.ftimeBase := rfl
@[simp] theorem State.modMesh_ftimeAt (s : State) (m : MeshId) (f : Mesh → Mesh) : (s.modMesh m f).ftimeAt = s.ftimeAt := rfl
@[simp] theorem State.modMesh_ftimeSlow (s : State) (m : MeshId) (f : Mesh → Mesh) : (s.modMesh m f).ftimeSlow = s.ftimeSlow := rfl
@[simp] theorem State.modMesh_agenda (s : State) (m : MeshId) (f : Mesh → Mesh) : (s.modMesh m f).agenda = s.agenda := rfl
@[simp] theorem State.modMesh_cur (s : State) (m : MeshId) (f : Mesh → Mesh) : (s.modMesh m f).cur = s.cur := rfl
@[simp] theorem State.modMesh_free (s : State) (m : MeshId) (f : Mesh → Mesh) : (s.modMesh m f).free = s.free := rfl
@[simp] theorem State.modMesh_mem (s : State) (m : MeshId) (f : Mesh → Mesh) : (s.modMesh m f).mem = s.mem := rfl
@[simp] theorem State.modMesh_taint (s : State) (m : MeshId) (f : Mesh → Mesh) : (s.modMesh m f).taint = s.taint := rfl
@[simp] theorem State.modMesh_uncorr (s : State) (m : MeshId) (f : Mesh → Mesh) : (s.modMesh m f).uncorr = s.uncorr := rfl
@[simp] theorem State.modMesh_poison (s : State) (m : MeshId) (f : Mesh → Mesh) : (s.modMesh m f).poison = s.poison := rfl
@[simp] theorem State.modMesh_dirty (s : State) (m : MeshId) (f : Mesh → Mesh) : (s.modMesh m f).dirty = s.dirty := rfl
@[simp] theorem State.modMesh_tags (s : State) (m : MeshId) (f : Mesh → Mesh) : (s.modMesh m f).tags = s.tags := rfl
@[simp] theorem State.modMesh_cores (s : State) (m : MeshId) (f : Mesh → Mesh) : (s.modMesh m f).cores = s.cores := rfl
@[simp] theorem State.modMesh_svus (s : State) (m : MeshId) (f : Mesh → Mesh) : (s.modMesh m f).svus = s.svus := rfl
@[simp] theorem State.modMesh_clusters (s : State) (m : MeshId) (f : Mesh → Mesh) : (s.modMesh m f).clusters = s.clusters := rfl
@[simp] theorem State.modMesh_dies (s : State) (m : MeshId) (f : Mesh → Mesh) : (s.modMesh m f).dies = s.dies := rfl
@[simp] theorem State.modMesh_launches (s : State) (m : MeshId) (f : Mesh → Mesh) : (s.modMesh m f).launches = s.launches := rfl
@[simp] theorem State.modMesh_nextLaunch (s : State) (m : MeshId) (f : Mesh → Mesh) : (s.modMesh m f).nextLaunch = s.nextLaunch := rfl
@[simp] theorem State.modMesh_parts (s : State) (m : MeshId) (f : Mesh → Mesh) : (s.modMesh m f).parts = s.parts := rfl
@[simp] theorem State.modMesh_counters (s : State) (m : MeshId) (f : Mesh → Mesh) : (s.modMesh m f).counters = s.counters := rfl
@[simp] theorem State.modMesh_wrapped (s : State) (m : MeshId) (f : Mesh → Mesh) : (s.modMesh m f).wrapped = s.wrapped := rfl
@[simp] theorem State.modMesh_vfs (s : State) (m : MeshId) (f : Mesh → Mesh) : (s.modMesh m f).vfs = s.vfs := rfl
@[simp] theorem State.modMesh_conf (s : State) (m : MeshId) (f : Mesh → Mesh) : (s.modMesh m f).conf = s.conf := rfl
@[simp] theorem State.modMesh_newStore (s : State) (m : MeshId) (f : Mesh → Mesh) : (s.modMesh m f).newStore = s.newStore := rfl
@[simp] theorem State.modMesh_host (s : State) (m : MeshId) (f : Mesh → Mesh) : (s.modMesh m f).host = s.host := rfl
@[simp] theorem State.modMesh_hostWrites (s : State) (m : MeshId) (f : Mesh → Mesh) : (s.modMesh m f).hostWrites = s.hostWrites := rfl
@[simp] theorem State.modMesh_pmrPlat (s : State) (m : MeshId) (f : Mesh → Mesh) : (s.modMesh m f).pmrPlat = s.pmrPlat := rfl
@[simp] theorem State.modMesh_attests (s : State) (m : MeshId) (f : Mesh → Mesh) : (s.modMesh m f).attests = s.attests := rfl
@[simp] theorem State.modMesh_broughtUp (s : State) (m : MeshId) (f : Mesh → Mesh) : (s.modMesh m f).broughtUp = s.broughtUp := rfl
@[simp] theorem State.modMesh_quarantine (s : State) (m : MeshId) (f : Mesh → Mesh) : (s.modMesh m f).quarantine = s.quarantine := rfl
@[simp] theorem State.modMesh_suspects (s : State) (m : MeshId) (f : Mesh → Mesh) : (s.modMesh m f).suspects = s.suspects := rfl
@[simp] theorem State.modMesh_alarms (s : State) (m : MeshId) (f : Mesh → Mesh) : (s.modMesh m f).alarms = s.alarms := rfl
@[simp] theorem State.modMesh_xfaults (s : State) (m : MeshId) (f : Mesh → Mesh) : (s.modMesh m f).xfaults = s.xfaults := rfl
@[simp] theorem State.modMesh_nextToken (s : State) (m : MeshId) (f : Mesh → Mesh) : (s.modMesh m f).nextToken = s.nextToken := rfl
@[simp] theorem State.modMesh_supMail (s : State) (m : MeshId) (f : Mesh → Mesh) : (s.modMesh m f).supMail = s.supMail := rfl
@[simp] theorem State.modMesh_sysMail (s : State) (m : MeshId) (f : Mesh → Mesh) : (s.modMesh m f).sysMail = s.sysMail := rfl
@[simp] theorem State.modMesh_hypMail (s : State) (m : MeshId) (f : Mesh → Mesh) : (s.modMesh m f).hypMail = s.hypMail := rfl
@[simp] theorem State.modMesh_responses (s : State) (m : MeshId) (f : Mesh → Mesh) : (s.modMesh m f).responses = s.responses := rfl
@[simp] theorem State.modMesh_answers (s : State) (m : MeshId) (f : Mesh → Mesh) : (s.modMesh m f).answers = s.answers := rfl
@[simp] theorem State.modMesh_completions (s : State) (m : MeshId) (f : Mesh → Mesh) : (s.modMesh m f).completions = s.completions := rfl
@[simp] theorem State.modMesh_notified (s : State) (m : MeshId) (f : Mesh → Mesh) : (s.modMesh m f).notified = s.notified := rfl
@[simp] theorem State.modMesh_fports (s : State) (m : MeshId) (f : Mesh → Mesh) : (s.modMesh m f).fports = s.fports := rfl
@[simp] theorem State.modMesh_windows (s : State) (m : MeshId) (f : Mesh → Mesh) : (s.modMesh m f).windows = s.windows := rfl
@[simp] theorem State.modMesh_autoEx (s : State) (m : MeshId) (f : Mesh → Mesh) : (s.modMesh m f).autoEx = s.autoEx := rfl
@[simp] theorem State.modMesh_lateDrop (s : State) (m : MeshId) (f : Mesh → Mesh) : (s.modMesh m f).lateDrop = s.lateDrop := rfl
@[simp] theorem State.modMesh_outbox (s : State) (m : MeshId) (f : Mesh → Mesh) : (s.modMesh m f).outbox = s.outbox := rfl
@[simp] theorem State.modMesh_odb (s : State) (m : MeshId) (f : Mesh → Mesh) : (s.modMesh m f).odb = s.odb := rfl
@[simp] theorem State.modMesh_fabReserve (s : State) (m : MeshId) (f : Mesh → Mesh) : (s.modMesh m f).fabReserve = s.fabReserve := rfl
@[simp] theorem State.modMesh_delivered (s : State) (m : MeshId) (f : Mesh → Mesh) : (s.modMesh m f).delivered = s.delivered := rfl
@[simp] theorem State.modMesh_markers (s : State) (m : MeshId) (f : Mesh → Mesh) : (s.modMesh m f).markers = s.markers := rfl
@[simp] theorem State.modMesh_waitPkts (s : State) (m : MeshId) (f : Mesh → Mesh) : (s.modMesh m f).waitPkts = s.waitPkts := rfl
@[simp] theorem State.modMesh_loopIn (s : State) (m : MeshId) (f : Mesh → Mesh) : (s.modMesh m f).loopIn = s.loopIn := rfl
@[simp] theorem State.modMesh_unrouted (s : State) (m : MeshId) (f : Mesh → Mesh) : (s.modMesh m f).unrouted = s.unrouted := rfl
@[simp] theorem State.modMesh_routeEpoch (s : State) (m : MeshId) (f : Mesh → Mesh) : (s.modMesh m f).routeEpoch = s.routeEpoch := rfl
@[simp] theorem State.modMesh_throttle (s : State) (m : MeshId) (f : Mesh → Mesh) : (s.modMesh m f).throttle = s.throttle := rfl
@[simp] theorem State.modMesh_checkFail (s : State) (m : MeshId) (f : Mesh → Mesh) : (s.modMesh m f).checkFail = s.checkFail := rfl

/-! ### modDie -/

@[simp] theorem State.modDie_clock (s : State) (d : BitVec 4) (f : Die → Die) : (s.modDie d f).clock = s.clock := rfl
@[simp] theorem State.modDie_ftimeBase (s : State) (d : BitVec 4) (f : Die → Die) : (s.modDie d f).ftimeBase = s.ftimeBase := rfl
@[simp] theorem State.modDie_ftimeAt (s : State) (d : BitVec 4) (f : Die → Die) : (s.modDie d f).ftimeAt = s.ftimeAt := rfl
@[simp] theorem State.modDie_ftimeSlow (s : State) (d : BitVec 4) (f : Die → Die) : (s.modDie d f).ftimeSlow = s.ftimeSlow := rfl
@[simp] theorem State.modDie_agenda (s : State) (d : BitVec 4) (f : Die → Die) : (s.modDie d f).agenda = s.agenda := rfl
@[simp] theorem State.modDie_cur (s : State) (d : BitVec 4) (f : Die → Die) : (s.modDie d f).cur = s.cur := rfl
@[simp] theorem State.modDie_free (s : State) (d : BitVec 4) (f : Die → Die) : (s.modDie d f).free = s.free := rfl
@[simp] theorem State.modDie_mem (s : State) (d : BitVec 4) (f : Die → Die) : (s.modDie d f).mem = s.mem := rfl
@[simp] theorem State.modDie_taint (s : State) (d : BitVec 4) (f : Die → Die) : (s.modDie d f).taint = s.taint := rfl
@[simp] theorem State.modDie_uncorr (s : State) (d : BitVec 4) (f : Die → Die) : (s.modDie d f).uncorr = s.uncorr := rfl
@[simp] theorem State.modDie_poison (s : State) (d : BitVec 4) (f : Die → Die) : (s.modDie d f).poison = s.poison := rfl
@[simp] theorem State.modDie_dirty (s : State) (d : BitVec 4) (f : Die → Die) : (s.modDie d f).dirty = s.dirty := rfl
@[simp] theorem State.modDie_tags (s : State) (d : BitVec 4) (f : Die → Die) : (s.modDie d f).tags = s.tags := rfl
@[simp] theorem State.modDie_cores (s : State) (d : BitVec 4) (f : Die → Die) : (s.modDie d f).cores = s.cores := rfl
@[simp] theorem State.modDie_svus (s : State) (d : BitVec 4) (f : Die → Die) : (s.modDie d f).svus = s.svus := rfl
@[simp] theorem State.modDie_clusters (s : State) (d : BitVec 4) (f : Die → Die) : (s.modDie d f).clusters = s.clusters := rfl
@[simp] theorem State.modDie_meshes (s : State) (d : BitVec 4) (f : Die → Die) : (s.modDie d f).meshes = s.meshes := rfl
@[simp] theorem State.modDie_launches (s : State) (d : BitVec 4) (f : Die → Die) : (s.modDie d f).launches = s.launches := rfl
@[simp] theorem State.modDie_nextLaunch (s : State) (d : BitVec 4) (f : Die → Die) : (s.modDie d f).nextLaunch = s.nextLaunch := rfl
@[simp] theorem State.modDie_parts (s : State) (d : BitVec 4) (f : Die → Die) : (s.modDie d f).parts = s.parts := rfl
@[simp] theorem State.modDie_counters (s : State) (d : BitVec 4) (f : Die → Die) : (s.modDie d f).counters = s.counters := rfl
@[simp] theorem State.modDie_wrapped (s : State) (d : BitVec 4) (f : Die → Die) : (s.modDie d f).wrapped = s.wrapped := rfl
@[simp] theorem State.modDie_vfs (s : State) (d : BitVec 4) (f : Die → Die) : (s.modDie d f).vfs = s.vfs := rfl
@[simp] theorem State.modDie_conf (s : State) (d : BitVec 4) (f : Die → Die) : (s.modDie d f).conf = s.conf := rfl
@[simp] theorem State.modDie_newStore (s : State) (d : BitVec 4) (f : Die → Die) : (s.modDie d f).newStore = s.newStore := rfl
@[simp] theorem State.modDie_host (s : State) (d : BitVec 4) (f : Die → Die) : (s.modDie d f).host = s.host := rfl
@[simp] theorem State.modDie_hostWrites (s : State) (d : BitVec 4) (f : Die → Die) : (s.modDie d f).hostWrites = s.hostWrites := rfl
@[simp] theorem State.modDie_pmrPlat (s : State) (d : BitVec 4) (f : Die → Die) : (s.modDie d f).pmrPlat = s.pmrPlat := rfl
@[simp] theorem State.modDie_attests (s : State) (d : BitVec 4) (f : Die → Die) : (s.modDie d f).attests = s.attests := rfl
@[simp] theorem State.modDie_broughtUp (s : State) (d : BitVec 4) (f : Die → Die) : (s.modDie d f).broughtUp = s.broughtUp := rfl
@[simp] theorem State.modDie_quarantine (s : State) (d : BitVec 4) (f : Die → Die) : (s.modDie d f).quarantine = s.quarantine := rfl
@[simp] theorem State.modDie_suspects (s : State) (d : BitVec 4) (f : Die → Die) : (s.modDie d f).suspects = s.suspects := rfl
@[simp] theorem State.modDie_alarms (s : State) (d : BitVec 4) (f : Die → Die) : (s.modDie d f).alarms = s.alarms := rfl
@[simp] theorem State.modDie_xfaults (s : State) (d : BitVec 4) (f : Die → Die) : (s.modDie d f).xfaults = s.xfaults := rfl
@[simp] theorem State.modDie_nextToken (s : State) (d : BitVec 4) (f : Die → Die) : (s.modDie d f).nextToken = s.nextToken := rfl
@[simp] theorem State.modDie_supMail (s : State) (d : BitVec 4) (f : Die → Die) : (s.modDie d f).supMail = s.supMail := rfl
@[simp] theorem State.modDie_sysMail (s : State) (d : BitVec 4) (f : Die → Die) : (s.modDie d f).sysMail = s.sysMail := rfl
@[simp] theorem State.modDie_hypMail (s : State) (d : BitVec 4) (f : Die → Die) : (s.modDie d f).hypMail = s.hypMail := rfl
@[simp] theorem State.modDie_responses (s : State) (d : BitVec 4) (f : Die → Die) : (s.modDie d f).responses = s.responses := rfl
@[simp] theorem State.modDie_answers (s : State) (d : BitVec 4) (f : Die → Die) : (s.modDie d f).answers = s.answers := rfl
@[simp] theorem State.modDie_completions (s : State) (d : BitVec 4) (f : Die → Die) : (s.modDie d f).completions = s.completions := rfl
@[simp] theorem State.modDie_notified (s : State) (d : BitVec 4) (f : Die → Die) : (s.modDie d f).notified = s.notified := rfl
@[simp] theorem State.modDie_fports (s : State) (d : BitVec 4) (f : Die → Die) : (s.modDie d f).fports = s.fports := rfl
@[simp] theorem State.modDie_windows (s : State) (d : BitVec 4) (f : Die → Die) : (s.modDie d f).windows = s.windows := rfl
@[simp] theorem State.modDie_autoEx (s : State) (d : BitVec 4) (f : Die → Die) : (s.modDie d f).autoEx = s.autoEx := rfl
@[simp] theorem State.modDie_lateDrop (s : State) (d : BitVec 4) (f : Die → Die) : (s.modDie d f).lateDrop = s.lateDrop := rfl
@[simp] theorem State.modDie_outbox (s : State) (d : BitVec 4) (f : Die → Die) : (s.modDie d f).outbox = s.outbox := rfl
@[simp] theorem State.modDie_odb (s : State) (d : BitVec 4) (f : Die → Die) : (s.modDie d f).odb = s.odb := rfl
@[simp] theorem State.modDie_fabReserve (s : State) (d : BitVec 4) (f : Die → Die) : (s.modDie d f).fabReserve = s.fabReserve := rfl
@[simp] theorem State.modDie_delivered (s : State) (d : BitVec 4) (f : Die → Die) : (s.modDie d f).delivered = s.delivered := rfl
@[simp] theorem State.modDie_markers (s : State) (d : BitVec 4) (f : Die → Die) : (s.modDie d f).markers = s.markers := rfl
@[simp] theorem State.modDie_waitPkts (s : State) (d : BitVec 4) (f : Die → Die) : (s.modDie d f).waitPkts = s.waitPkts := rfl
@[simp] theorem State.modDie_loopIn (s : State) (d : BitVec 4) (f : Die → Die) : (s.modDie d f).loopIn = s.loopIn := rfl
@[simp] theorem State.modDie_unrouted (s : State) (d : BitVec 4) (f : Die → Die) : (s.modDie d f).unrouted = s.unrouted := rfl
@[simp] theorem State.modDie_routeEpoch (s : State) (d : BitVec 4) (f : Die → Die) : (s.modDie d f).routeEpoch = s.routeEpoch := rfl
@[simp] theorem State.modDie_throttle (s : State) (d : BitVec 4) (f : Die → Die) : (s.modDie d f).throttle = s.throttle := rfl
@[simp] theorem State.modDie_checkFail (s : State) (d : BitVec 4) (f : Die → Die) : (s.modDie d f).checkFail = s.checkFail := rfl

/-! ### post -/

@[simp] theorem State.post_clock (s : State) (d : BitVec 4) (m : Mail) : (s.post d m).clock = s.clock := rfl
@[simp] theorem State.post_ftimeBase (s : State) (d : BitVec 4) (m : Mail) : (s.post d m).ftimeBase = s.ftimeBase := rfl
@[simp] theorem State.post_ftimeAt (s : State) (d : BitVec 4) (m : Mail) : (s.post d m).ftimeAt = s.ftimeAt := rfl
@[simp] theorem State.post_ftimeSlow (s : State) (d : BitVec 4) (m : Mail) : (s.post d m).ftimeSlow = s.ftimeSlow := rfl
@[simp] theorem State.post_agenda (s : State) (d : BitVec 4) (m : Mail) : (s.post d m).agenda = s.agenda := rfl
@[simp] theorem State.post_cur (s : State) (d : BitVec 4) (m : Mail) : (s.post d m).cur = s.cur := rfl
@[simp] theorem State.post_free (s : State) (d : BitVec 4) (m : Mail) : (s.post d m).free = s.free := rfl
@[simp] theorem State.post_mem (s : State) (d : BitVec 4) (m : Mail) : (s.post d m).mem = s.mem := rfl
@[simp] theorem State.post_taint (s : State) (d : BitVec 4) (m : Mail) : (s.post d m).taint = s.taint := rfl
@[simp] theorem State.post_uncorr (s : State) (d : BitVec 4) (m : Mail) : (s.post d m).uncorr = s.uncorr := rfl
@[simp] theorem State.post_poison (s : State) (d : BitVec 4) (m : Mail) : (s.post d m).poison = s.poison := rfl
@[simp] theorem State.post_dirty (s : State) (d : BitVec 4) (m : Mail) : (s.post d m).dirty = s.dirty := rfl
@[simp] theorem State.post_tags (s : State) (d : BitVec 4) (m : Mail) : (s.post d m).tags = s.tags := rfl
@[simp] theorem State.post_cores (s : State) (d : BitVec 4) (m : Mail) : (s.post d m).cores = s.cores := rfl
@[simp] theorem State.post_svus (s : State) (d : BitVec 4) (m : Mail) : (s.post d m).svus = s.svus := rfl
@[simp] theorem State.post_clusters (s : State) (d : BitVec 4) (m : Mail) : (s.post d m).clusters = s.clusters := rfl
@[simp] theorem State.post_meshes (s : State) (d : BitVec 4) (m : Mail) : (s.post d m).meshes = s.meshes := rfl
@[simp] theorem State.post_dies (s : State) (d : BitVec 4) (m : Mail) : (s.post d m).dies = s.dies := rfl
@[simp] theorem State.post_launches (s : State) (d : BitVec 4) (m : Mail) : (s.post d m).launches = s.launches := rfl
@[simp] theorem State.post_nextLaunch (s : State) (d : BitVec 4) (m : Mail) : (s.post d m).nextLaunch = s.nextLaunch := rfl
@[simp] theorem State.post_parts (s : State) (d : BitVec 4) (m : Mail) : (s.post d m).parts = s.parts := rfl
@[simp] theorem State.post_counters (s : State) (d : BitVec 4) (m : Mail) : (s.post d m).counters = s.counters := rfl
@[simp] theorem State.post_wrapped (s : State) (d : BitVec 4) (m : Mail) : (s.post d m).wrapped = s.wrapped := rfl
@[simp] theorem State.post_vfs (s : State) (d : BitVec 4) (m : Mail) : (s.post d m).vfs = s.vfs := rfl
@[simp] theorem State.post_conf (s : State) (d : BitVec 4) (m : Mail) : (s.post d m).conf = s.conf := rfl
@[simp] theorem State.post_newStore (s : State) (d : BitVec 4) (m : Mail) : (s.post d m).newStore = s.newStore := rfl
@[simp] theorem State.post_host (s : State) (d : BitVec 4) (m : Mail) : (s.post d m).host = s.host := rfl
@[simp] theorem State.post_hostWrites (s : State) (d : BitVec 4) (m : Mail) : (s.post d m).hostWrites = s.hostWrites := rfl
@[simp] theorem State.post_pmrPlat (s : State) (d : BitVec 4) (m : Mail) : (s.post d m).pmrPlat = s.pmrPlat := rfl
@[simp] theorem State.post_attests (s : State) (d : BitVec 4) (m : Mail) : (s.post d m).attests = s.attests := rfl
@[simp] theorem State.post_broughtUp (s : State) (d : BitVec 4) (m : Mail) : (s.post d m).broughtUp = s.broughtUp := rfl
@[simp] theorem State.post_quarantine (s : State) (d : BitVec 4) (m : Mail) : (s.post d m).quarantine = s.quarantine := rfl
@[simp] theorem State.post_suspects (s : State) (d : BitVec 4) (m : Mail) : (s.post d m).suspects = s.suspects := rfl
@[simp] theorem State.post_alarms (s : State) (d : BitVec 4) (m : Mail) : (s.post d m).alarms = s.alarms := rfl
@[simp] theorem State.post_xfaults (s : State) (d : BitVec 4) (m : Mail) : (s.post d m).xfaults = s.xfaults := rfl
@[simp] theorem State.post_nextToken (s : State) (d : BitVec 4) (m : Mail) : (s.post d m).nextToken = s.nextToken := rfl
@[simp] theorem State.post_sysMail (s : State) (d : BitVec 4) (m : Mail) : (s.post d m).sysMail = s.sysMail := rfl
@[simp] theorem State.post_hypMail (s : State) (d : BitVec 4) (m : Mail) : (s.post d m).hypMail = s.hypMail := rfl
@[simp] theorem State.post_responses (s : State) (d : BitVec 4) (m : Mail) : (s.post d m).responses = s.responses := rfl
@[simp] theorem State.post_answers (s : State) (d : BitVec 4) (m : Mail) : (s.post d m).answers = s.answers := rfl
@[simp] theorem State.post_completions (s : State) (d : BitVec 4) (m : Mail) : (s.post d m).completions = s.completions := rfl
@[simp] theorem State.post_notified (s : State) (d : BitVec 4) (m : Mail) : (s.post d m).notified = s.notified := rfl
@[simp] theorem State.post_fports (s : State) (d : BitVec 4) (m : Mail) : (s.post d m).fports = s.fports := rfl
@[simp] theorem State.post_windows (s : State) (d : BitVec 4) (m : Mail) : (s.post d m).windows = s.windows := rfl
@[simp] theorem State.post_autoEx (s : State) (d : BitVec 4) (m : Mail) : (s.post d m).autoEx = s.autoEx := rfl
@[simp] theorem State.post_lateDrop (s : State) (d : BitVec 4) (m : Mail) : (s.post d m).lateDrop = s.lateDrop := rfl
@[simp] theorem State.post_outbox (s : State) (d : BitVec 4) (m : Mail) : (s.post d m).outbox = s.outbox := rfl
@[simp] theorem State.post_odb (s : State) (d : BitVec 4) (m : Mail) : (s.post d m).odb = s.odb := rfl
@[simp] theorem State.post_fabReserve (s : State) (d : BitVec 4) (m : Mail) : (s.post d m).fabReserve = s.fabReserve := rfl
@[simp] theorem State.post_delivered (s : State) (d : BitVec 4) (m : Mail) : (s.post d m).delivered = s.delivered := rfl
@[simp] theorem State.post_markers (s : State) (d : BitVec 4) (m : Mail) : (s.post d m).markers = s.markers := rfl
@[simp] theorem State.post_waitPkts (s : State) (d : BitVec 4) (m : Mail) : (s.post d m).waitPkts = s.waitPkts := rfl
@[simp] theorem State.post_loopIn (s : State) (d : BitVec 4) (m : Mail) : (s.post d m).loopIn = s.loopIn := rfl
@[simp] theorem State.post_unrouted (s : State) (d : BitVec 4) (m : Mail) : (s.post d m).unrouted = s.unrouted := rfl
@[simp] theorem State.post_routeEpoch (s : State) (d : BitVec 4) (m : Mail) : (s.post d m).routeEpoch = s.routeEpoch := rfl
@[simp] theorem State.post_throttle (s : State) (d : BitVec 4) (m : Mail) : (s.post d m).throttle = s.throttle := rfl
@[simp] theorem State.post_checkFail (s : State) (d : BitVec 4) (m : Mail) : (s.post d m).checkFail = s.checkFail := rfl

/-! ### modLaunch -/

@[simp] theorem State.modLaunch_clock (s : State) (l : Nat) (f : Launch → Launch) : (s.modLaunch l f).clock = s.clock := by
  unfold State.modLaunch; split <;> rfl
@[simp] theorem State.modLaunch_ftimeBase (s : State) (l : Nat) (f : Launch → Launch) : (s.modLaunch l f).ftimeBase = s.ftimeBase := by
  unfold State.modLaunch; split <;> rfl
@[simp] theorem State.modLaunch_ftimeAt (s : State) (l : Nat) (f : Launch → Launch) : (s.modLaunch l f).ftimeAt = s.ftimeAt := by
  unfold State.modLaunch; split <;> rfl
@[simp] theorem State.modLaunch_ftimeSlow (s : State) (l : Nat) (f : Launch → Launch) : (s.modLaunch l f).ftimeSlow = s.ftimeSlow := by
  unfold State.modLaunch; split <;> rfl
@[simp] theorem State.modLaunch_agenda (s : State) (l : Nat) (f : Launch → Launch) : (s.modLaunch l f).agenda = s.agenda := by
  unfold State.modLaunch; split <;> rfl
@[simp] theorem State.modLaunch_cur (s : State) (l : Nat) (f : Launch → Launch) : (s.modLaunch l f).cur = s.cur := by
  unfold State.modLaunch; split <;> rfl
@[simp] theorem State.modLaunch_free (s : State) (l : Nat) (f : Launch → Launch) : (s.modLaunch l f).free = s.free := by
  unfold State.modLaunch; split <;> rfl
@[simp] theorem State.modLaunch_mem (s : State) (l : Nat) (f : Launch → Launch) : (s.modLaunch l f).mem = s.mem := by
  unfold State.modLaunch; split <;> rfl
@[simp] theorem State.modLaunch_taint (s : State) (l : Nat) (f : Launch → Launch) : (s.modLaunch l f).taint = s.taint := by
  unfold State.modLaunch; split <;> rfl
@[simp] theorem State.modLaunch_uncorr (s : State) (l : Nat) (f : Launch → Launch) : (s.modLaunch l f).uncorr = s.uncorr := by
  unfold State.modLaunch; split <;> rfl
@[simp] theorem State.modLaunch_poison (s : State) (l : Nat) (f : Launch → Launch) : (s.modLaunch l f).poison = s.poison := by
  unfold State.modLaunch; split <;> rfl
@[simp] theorem State.modLaunch_dirty (s : State) (l : Nat) (f : Launch → Launch) : (s.modLaunch l f).dirty = s.dirty := by
  unfold State.modLaunch; split <;> rfl
@[simp] theorem State.modLaunch_tags (s : State) (l : Nat) (f : Launch → Launch) : (s.modLaunch l f).tags = s.tags := by
  unfold State.modLaunch; split <;> rfl
@[simp] theorem State.modLaunch_cores (s : State) (l : Nat) (f : Launch → Launch) : (s.modLaunch l f).cores = s.cores := by
  unfold State.modLaunch; split <;> rfl
@[simp] theorem State.modLaunch_svus (s : State) (l : Nat) (f : Launch → Launch) : (s.modLaunch l f).svus = s.svus := by
  unfold State.modLaunch; split <;> rfl
@[simp] theorem State.modLaunch_clusters (s : State) (l : Nat) (f : Launch → Launch) : (s.modLaunch l f).clusters = s.clusters := by
  unfold State.modLaunch; split <;> rfl
@[simp] theorem State.modLaunch_meshes (s : State) (l : Nat) (f : Launch → Launch) : (s.modLaunch l f).meshes = s.meshes := by
  unfold State.modLaunch; split <;> rfl
@[simp] theorem State.modLaunch_dies (s : State) (l : Nat) (f : Launch → Launch) : (s.modLaunch l f).dies = s.dies := by
  unfold State.modLaunch; split <;> rfl
@[simp] theorem State.modLaunch_nextLaunch (s : State) (l : Nat) (f : Launch → Launch) : (s.modLaunch l f).nextLaunch = s.nextLaunch := by
  unfold State.modLaunch; split <;> rfl
@[simp] theorem State.modLaunch_parts (s : State) (l : Nat) (f : Launch → Launch) : (s.modLaunch l f).parts = s.parts := by
  unfold State.modLaunch; split <;> rfl
@[simp] theorem State.modLaunch_counters (s : State) (l : Nat) (f : Launch → Launch) : (s.modLaunch l f).counters = s.counters := by
  unfold State.modLaunch; split <;> rfl
@[simp] theorem State.modLaunch_wrapped (s : State) (l : Nat) (f : Launch → Launch) : (s.modLaunch l f).wrapped = s.wrapped := by
  unfold State.modLaunch; split <;> rfl
@[simp] theorem State.modLaunch_vfs (s : State) (l : Nat) (f : Launch → Launch) : (s.modLaunch l f).vfs = s.vfs := by
  unfold State.modLaunch; split <;> rfl
@[simp] theorem State.modLaunch_conf (s : State) (l : Nat) (f : Launch → Launch) : (s.modLaunch l f).conf = s.conf := by
  unfold State.modLaunch; split <;> rfl
@[simp] theorem State.modLaunch_newStore (s : State) (l : Nat) (f : Launch → Launch) : (s.modLaunch l f).newStore = s.newStore := by
  unfold State.modLaunch; split <;> rfl
@[simp] theorem State.modLaunch_host (s : State) (l : Nat) (f : Launch → Launch) : (s.modLaunch l f).host = s.host := by
  unfold State.modLaunch; split <;> rfl
@[simp] theorem State.modLaunch_hostWrites (s : State) (l : Nat) (f : Launch → Launch) : (s.modLaunch l f).hostWrites = s.hostWrites := by
  unfold State.modLaunch; split <;> rfl
@[simp] theorem State.modLaunch_pmrPlat (s : State) (l : Nat) (f : Launch → Launch) : (s.modLaunch l f).pmrPlat = s.pmrPlat := by
  unfold State.modLaunch; split <;> rfl
@[simp] theorem State.modLaunch_attests (s : State) (l : Nat) (f : Launch → Launch) : (s.modLaunch l f).attests = s.attests := by
  unfold State.modLaunch; split <;> rfl
@[simp] theorem State.modLaunch_broughtUp (s : State) (l : Nat) (f : Launch → Launch) : (s.modLaunch l f).broughtUp = s.broughtUp := by
  unfold State.modLaunch; split <;> rfl
@[simp] theorem State.modLaunch_quarantine (s : State) (l : Nat) (f : Launch → Launch) : (s.modLaunch l f).quarantine = s.quarantine := by
  unfold State.modLaunch; split <;> rfl
@[simp] theorem State.modLaunch_suspects (s : State) (l : Nat) (f : Launch → Launch) : (s.modLaunch l f).suspects = s.suspects := by
  unfold State.modLaunch; split <;> rfl
@[simp] theorem State.modLaunch_alarms (s : State) (l : Nat) (f : Launch → Launch) : (s.modLaunch l f).alarms = s.alarms := by
  unfold State.modLaunch; split <;> rfl
@[simp] theorem State.modLaunch_xfaults (s : State) (l : Nat) (f : Launch → Launch) : (s.modLaunch l f).xfaults = s.xfaults := by
  unfold State.modLaunch; split <;> rfl
@[simp] theorem State.modLaunch_nextToken (s : State) (l : Nat) (f : Launch → Launch) : (s.modLaunch l f).nextToken = s.nextToken := by
  unfold State.modLaunch; split <;> rfl
@[simp] theorem State.modLaunch_supMail (s : State) (l : Nat) (f : Launch → Launch) : (s.modLaunch l f).supMail = s.supMail := by
  unfold State.modLaunch; split <;> rfl
@[simp] theorem State.modLaunch_sysMail (s : State) (l : Nat) (f : Launch → Launch) : (s.modLaunch l f).sysMail = s.sysMail := by
  unfold State.modLaunch; split <;> rfl
@[simp] theorem State.modLaunch_hypMail (s : State) (l : Nat) (f : Launch → Launch) : (s.modLaunch l f).hypMail = s.hypMail := by
  unfold State.modLaunch; split <;> rfl
@[simp] theorem State.modLaunch_responses (s : State) (l : Nat) (f : Launch → Launch) : (s.modLaunch l f).responses = s.responses := by
  unfold State.modLaunch; split <;> rfl
@[simp] theorem State.modLaunch_answers (s : State) (l : Nat) (f : Launch → Launch) : (s.modLaunch l f).answers = s.answers := by
  unfold State.modLaunch; split <;> rfl
@[simp] theorem State.modLaunch_completions (s : State) (l : Nat) (f : Launch → Launch) : (s.modLaunch l f).completions = s.completions := by
  unfold State.modLaunch; split <;> rfl
@[simp] theorem State.modLaunch_notified (s : State) (l : Nat) (f : Launch → Launch) : (s.modLaunch l f).notified = s.notified := by
  unfold State.modLaunch; split <;> rfl
@[simp] theorem State.modLaunch_fports (s : State) (l : Nat) (f : Launch → Launch) : (s.modLaunch l f).fports = s.fports := by
  unfold State.modLaunch; split <;> rfl
@[simp] theorem State.modLaunch_windows (s : State) (l : Nat) (f : Launch → Launch) : (s.modLaunch l f).windows = s.windows := by
  unfold State.modLaunch; split <;> rfl
@[simp] theorem State.modLaunch_autoEx (s : State) (l : Nat) (f : Launch → Launch) : (s.modLaunch l f).autoEx = s.autoEx := by
  unfold State.modLaunch; split <;> rfl
@[simp] theorem State.modLaunch_lateDrop (s : State) (l : Nat) (f : Launch → Launch) : (s.modLaunch l f).lateDrop = s.lateDrop := by
  unfold State.modLaunch; split <;> rfl
@[simp] theorem State.modLaunch_outbox (s : State) (l : Nat) (f : Launch → Launch) : (s.modLaunch l f).outbox = s.outbox := by
  unfold State.modLaunch; split <;> rfl
@[simp] theorem State.modLaunch_odb (s : State) (l : Nat) (f : Launch → Launch) : (s.modLaunch l f).odb = s.odb := by
  unfold State.modLaunch; split <;> rfl
@[simp] theorem State.modLaunch_fabReserve (s : State) (l : Nat) (f : Launch → Launch) : (s.modLaunch l f).fabReserve = s.fabReserve := by
  unfold State.modLaunch; split <;> rfl
@[simp] theorem State.modLaunch_delivered (s : State) (l : Nat) (f : Launch → Launch) : (s.modLaunch l f).delivered = s.delivered := by
  unfold State.modLaunch; split <;> rfl
@[simp] theorem State.modLaunch_markers (s : State) (l : Nat) (f : Launch → Launch) : (s.modLaunch l f).markers = s.markers := by
  unfold State.modLaunch; split <;> rfl
@[simp] theorem State.modLaunch_waitPkts (s : State) (l : Nat) (f : Launch → Launch) : (s.modLaunch l f).waitPkts = s.waitPkts := by
  unfold State.modLaunch; split <;> rfl
@[simp] theorem State.modLaunch_loopIn (s : State) (l : Nat) (f : Launch → Launch) : (s.modLaunch l f).loopIn = s.loopIn := by
  unfold State.modLaunch; split <;> rfl
@[simp] theorem State.modLaunch_unrouted (s : State) (l : Nat) (f : Launch → Launch) : (s.modLaunch l f).unrouted = s.unrouted := by
  unfold State.modLaunch; split <;> rfl
@[simp] theorem State.modLaunch_routeEpoch (s : State) (l : Nat) (f : Launch → Launch) : (s.modLaunch l f).routeEpoch = s.routeEpoch := by
  unfold State.modLaunch; split <;> rfl
@[simp] theorem State.modLaunch_throttle (s : State) (l : Nat) (f : Launch → Launch) : (s.modLaunch l f).throttle = s.throttle := by
  unfold State.modLaunch; split <;> rfl
@[simp] theorem State.modLaunch_checkFail (s : State) (l : Nat) (f : Launch → Launch) : (s.modLaunch l f).checkFail = s.checkFail := by
  unfold State.modLaunch; split <;> rfl

/-! ### modGangOf, nonReplay -/

@[simp] theorem State.modGangOf_clock (s : State) (c : CoreId) (f : Gang → Gang) : (s.modGangOf c f).clock = s.clock := State.modLaunch_clock _ _ _
@[simp] theorem State.modGangOf_ftimeBase (s : State) (c : CoreId) (f : Gang → Gang) : (s.modGangOf c f).ftimeBase = s.ftimeBase := State.modLaunch_ftimeBase _ _ _
@[simp] theorem State.modGangOf_ftimeAt (s : State) (c : CoreId) (f : Gang → Gang) : (s.modGangOf c f).ftimeAt = s.ftimeAt := State.modLaunch_ftimeAt _ _ _
@[simp] theorem State.modGangOf_ftimeSlow (s : State) (c : CoreId) (f : Gang → Gang) : (s.modGangOf c f).ftimeSlow = s.ftimeSlow := State.modLaunch_ftimeSlow _ _ _
@[simp] theorem State.modGangOf_agenda (s : State) (c : CoreId) (f : Gang → Gang) : (s.modGangOf c f).agenda = s.agenda := State.modLaunch_agenda _ _ _
@[simp] theorem State.modGangOf_cur (s : State) (c : CoreId) (f : Gang → Gang) : (s.modGangOf c f).cur = s.cur := State.modLaunch_cur _ _ _
@[simp] theorem State.modGangOf_free (s : State) (c : CoreId) (f : Gang → Gang) : (s.modGangOf c f).free = s.free := State.modLaunch_free _ _ _
@[simp] theorem State.modGangOf_mem (s : State) (c : CoreId) (f : Gang → Gang) : (s.modGangOf c f).mem = s.mem := State.modLaunch_mem _ _ _
@[simp] theorem State.modGangOf_taint (s : State) (c : CoreId) (f : Gang → Gang) : (s.modGangOf c f).taint = s.taint := State.modLaunch_taint _ _ _
@[simp] theorem State.modGangOf_uncorr (s : State) (c : CoreId) (f : Gang → Gang) : (s.modGangOf c f).uncorr = s.uncorr := State.modLaunch_uncorr _ _ _
@[simp] theorem State.modGangOf_poison (s : State) (c : CoreId) (f : Gang → Gang) : (s.modGangOf c f).poison = s.poison := State.modLaunch_poison _ _ _
@[simp] theorem State.modGangOf_dirty (s : State) (c : CoreId) (f : Gang → Gang) : (s.modGangOf c f).dirty = s.dirty := State.modLaunch_dirty _ _ _
@[simp] theorem State.modGangOf_tags (s : State) (c : CoreId) (f : Gang → Gang) : (s.modGangOf c f).tags = s.tags := State.modLaunch_tags _ _ _
@[simp] theorem State.modGangOf_cores (s : State) (c : CoreId) (f : Gang → Gang) : (s.modGangOf c f).cores = s.cores := State.modLaunch_cores _ _ _
@[simp] theorem State.modGangOf_svus (s : State) (c : CoreId) (f : Gang → Gang) : (s.modGangOf c f).svus = s.svus := State.modLaunch_svus _ _ _
@[simp] theorem State.modGangOf_clusters (s : State) (c : CoreId) (f : Gang → Gang) : (s.modGangOf c f).clusters = s.clusters := State.modLaunch_clusters _ _ _
@[simp] theorem State.modGangOf_meshes (s : State) (c : CoreId) (f : Gang → Gang) : (s.modGangOf c f).meshes = s.meshes := State.modLaunch_meshes _ _ _
@[simp] theorem State.modGangOf_dies (s : State) (c : CoreId) (f : Gang → Gang) : (s.modGangOf c f).dies = s.dies := State.modLaunch_dies _ _ _
@[simp] theorem State.modGangOf_nextLaunch (s : State) (c : CoreId) (f : Gang → Gang) : (s.modGangOf c f).nextLaunch = s.nextLaunch := State.modLaunch_nextLaunch _ _ _
@[simp] theorem State.modGangOf_parts (s : State) (c : CoreId) (f : Gang → Gang) : (s.modGangOf c f).parts = s.parts := State.modLaunch_parts _ _ _
@[simp] theorem State.modGangOf_counters (s : State) (c : CoreId) (f : Gang → Gang) : (s.modGangOf c f).counters = s.counters := State.modLaunch_counters _ _ _
@[simp] theorem State.modGangOf_wrapped (s : State) (c : CoreId) (f : Gang → Gang) : (s.modGangOf c f).wrapped = s.wrapped := State.modLaunch_wrapped _ _ _
@[simp] theorem State.modGangOf_vfs (s : State) (c : CoreId) (f : Gang → Gang) : (s.modGangOf c f).vfs = s.vfs := State.modLaunch_vfs _ _ _
@[simp] theorem State.modGangOf_conf (s : State) (c : CoreId) (f : Gang → Gang) : (s.modGangOf c f).conf = s.conf := State.modLaunch_conf _ _ _
@[simp] theorem State.modGangOf_newStore (s : State) (c : CoreId) (f : Gang → Gang) : (s.modGangOf c f).newStore = s.newStore := State.modLaunch_newStore _ _ _
@[simp] theorem State.modGangOf_host (s : State) (c : CoreId) (f : Gang → Gang) : (s.modGangOf c f).host = s.host := State.modLaunch_host _ _ _
@[simp] theorem State.modGangOf_hostWrites (s : State) (c : CoreId) (f : Gang → Gang) : (s.modGangOf c f).hostWrites = s.hostWrites := State.modLaunch_hostWrites _ _ _
@[simp] theorem State.modGangOf_pmrPlat (s : State) (c : CoreId) (f : Gang → Gang) : (s.modGangOf c f).pmrPlat = s.pmrPlat := State.modLaunch_pmrPlat _ _ _
@[simp] theorem State.modGangOf_attests (s : State) (c : CoreId) (f : Gang → Gang) : (s.modGangOf c f).attests = s.attests := State.modLaunch_attests _ _ _
@[simp] theorem State.modGangOf_broughtUp (s : State) (c : CoreId) (f : Gang → Gang) : (s.modGangOf c f).broughtUp = s.broughtUp := State.modLaunch_broughtUp _ _ _
@[simp] theorem State.modGangOf_quarantine (s : State) (c : CoreId) (f : Gang → Gang) : (s.modGangOf c f).quarantine = s.quarantine := State.modLaunch_quarantine _ _ _
@[simp] theorem State.modGangOf_suspects (s : State) (c : CoreId) (f : Gang → Gang) : (s.modGangOf c f).suspects = s.suspects := State.modLaunch_suspects _ _ _
@[simp] theorem State.modGangOf_alarms (s : State) (c : CoreId) (f : Gang → Gang) : (s.modGangOf c f).alarms = s.alarms := State.modLaunch_alarms _ _ _
@[simp] theorem State.modGangOf_xfaults (s : State) (c : CoreId) (f : Gang → Gang) : (s.modGangOf c f).xfaults = s.xfaults := State.modLaunch_xfaults _ _ _
@[simp] theorem State.modGangOf_nextToken (s : State) (c : CoreId) (f : Gang → Gang) : (s.modGangOf c f).nextToken = s.nextToken := State.modLaunch_nextToken _ _ _
@[simp] theorem State.modGangOf_supMail (s : State) (c : CoreId) (f : Gang → Gang) : (s.modGangOf c f).supMail = s.supMail := State.modLaunch_supMail _ _ _
@[simp] theorem State.modGangOf_sysMail (s : State) (c : CoreId) (f : Gang → Gang) : (s.modGangOf c f).sysMail = s.sysMail := State.modLaunch_sysMail _ _ _
@[simp] theorem State.modGangOf_hypMail (s : State) (c : CoreId) (f : Gang → Gang) : (s.modGangOf c f).hypMail = s.hypMail := State.modLaunch_hypMail _ _ _
@[simp] theorem State.modGangOf_responses (s : State) (c : CoreId) (f : Gang → Gang) : (s.modGangOf c f).responses = s.responses := State.modLaunch_responses _ _ _
@[simp] theorem State.modGangOf_answers (s : State) (c : CoreId) (f : Gang → Gang) : (s.modGangOf c f).answers = s.answers := State.modLaunch_answers _ _ _
@[simp] theorem State.modGangOf_completions (s : State) (c : CoreId) (f : Gang → Gang) : (s.modGangOf c f).completions = s.completions := State.modLaunch_completions _ _ _
@[simp] theorem State.modGangOf_notified (s : State) (c : CoreId) (f : Gang → Gang) : (s.modGangOf c f).notified = s.notified := State.modLaunch_notified _ _ _
@[simp] theorem State.modGangOf_fports (s : State) (c : CoreId) (f : Gang → Gang) : (s.modGangOf c f).fports = s.fports := State.modLaunch_fports _ _ _
@[simp] theorem State.modGangOf_windows (s : State) (c : CoreId) (f : Gang → Gang) : (s.modGangOf c f).windows = s.windows := State.modLaunch_windows _ _ _
@[simp] theorem State.modGangOf_autoEx (s : State) (c : CoreId) (f : Gang → Gang) : (s.modGangOf c f).autoEx = s.autoEx := State.modLaunch_autoEx _ _ _
@[simp] theorem State.modGangOf_lateDrop (s : State) (c : CoreId) (f : Gang → Gang) : (s.modGangOf c f).lateDrop = s.lateDrop := State.modLaunch_lateDrop _ _ _
@[simp] theorem State.modGangOf_outbox (s : State) (c : CoreId) (f : Gang → Gang) : (s.modGangOf c f).outbox = s.outbox := State.modLaunch_outbox _ _ _
@[simp] theorem State.modGangOf_odb (s : State) (c : CoreId) (f : Gang → Gang) : (s.modGangOf c f).odb = s.odb := State.modLaunch_odb _ _ _
@[simp] theorem State.modGangOf_fabReserve (s : State) (c : CoreId) (f : Gang → Gang) : (s.modGangOf c f).fabReserve = s.fabReserve := State.modLaunch_fabReserve _ _ _
@[simp] theorem State.modGangOf_delivered (s : State) (c : CoreId) (f : Gang → Gang) : (s.modGangOf c f).delivered = s.delivered := State.modLaunch_delivered _ _ _
@[simp] theorem State.modGangOf_markers (s : State) (c : CoreId) (f : Gang → Gang) : (s.modGangOf c f).markers = s.markers := State.modLaunch_markers _ _ _
@[simp] theorem State.modGangOf_waitPkts (s : State) (c : CoreId) (f : Gang → Gang) : (s.modGangOf c f).waitPkts = s.waitPkts := State.modLaunch_waitPkts _ _ _
@[simp] theorem State.modGangOf_loopIn (s : State) (c : CoreId) (f : Gang → Gang) : (s.modGangOf c f).loopIn = s.loopIn := State.modLaunch_loopIn _ _ _
@[simp] theorem State.modGangOf_unrouted (s : State) (c : CoreId) (f : Gang → Gang) : (s.modGangOf c f).unrouted = s.unrouted := State.modLaunch_unrouted _ _ _
@[simp] theorem State.modGangOf_routeEpoch (s : State) (c : CoreId) (f : Gang → Gang) : (s.modGangOf c f).routeEpoch = s.routeEpoch := State.modLaunch_routeEpoch _ _ _
@[simp] theorem State.modGangOf_throttle (s : State) (c : CoreId) (f : Gang → Gang) : (s.modGangOf c f).throttle = s.throttle := State.modLaunch_throttle _ _ _
@[simp] theorem State.modGangOf_checkFail (s : State) (c : CoreId) (f : Gang → Gang) : (s.modGangOf c f).checkFail = s.checkFail := State.modLaunch_checkFail _ _ _
@[simp] theorem State.nonReplay_clock (s : State) (c : CoreId) : (s.nonReplay c).clock = s.clock := State.modLaunch_clock _ _ _
@[simp] theorem State.nonReplay_ftimeBase (s : State) (c : CoreId) : (s.nonReplay c).ftimeBase = s.ftimeBase := State.modLaunch_ftimeBase _ _ _
@[simp] theorem State.nonReplay_ftimeAt (s : State) (c : CoreId) : (s.nonReplay c).ftimeAt = s.ftimeAt := State.modLaunch_ftimeAt _ _ _
@[simp] theorem State.nonReplay_ftimeSlow (s : State) (c : CoreId) : (s.nonReplay c).ftimeSlow = s.ftimeSlow := State.modLaunch_ftimeSlow _ _ _
@[simp] theorem State.nonReplay_agenda (s : State) (c : CoreId) : (s.nonReplay c).agenda = s.agenda := State.modLaunch_agenda _ _ _
@[simp] theorem State.nonReplay_cur (s : State) (c : CoreId) : (s.nonReplay c).cur = s.cur := State.modLaunch_cur _ _ _
@[simp] theorem State.nonReplay_free (s : State) (c : CoreId) : (s.nonReplay c).free = s.free := State.modLaunch_free _ _ _
@[simp] theorem State.nonReplay_mem (s : State) (c : CoreId) : (s.nonReplay c).mem = s.mem := State.modLaunch_mem _ _ _
@[simp] theorem State.nonReplay_taint (s : State) (c : CoreId) : (s.nonReplay c).taint = s.taint := State.modLaunch_taint _ _ _
@[simp] theorem State.nonReplay_uncorr (s : State) (c : CoreId) : (s.nonReplay c).uncorr = s.uncorr := State.modLaunch_uncorr _ _ _
@[simp] theorem State.nonReplay_poison (s : State) (c : CoreId) : (s.nonReplay c).poison = s.poison := State.modLaunch_poison _ _ _
@[simp] theorem State.nonReplay_dirty (s : State) (c : CoreId) : (s.nonReplay c).dirty = s.dirty := State.modLaunch_dirty _ _ _
@[simp] theorem State.nonReplay_tags (s : State) (c : CoreId) : (s.nonReplay c).tags = s.tags := State.modLaunch_tags _ _ _
@[simp] theorem State.nonReplay_cores (s : State) (c : CoreId) : (s.nonReplay c).cores = s.cores := State.modLaunch_cores _ _ _
@[simp] theorem State.nonReplay_svus (s : State) (c : CoreId) : (s.nonReplay c).svus = s.svus := State.modLaunch_svus _ _ _
@[simp] theorem State.nonReplay_clusters (s : State) (c : CoreId) : (s.nonReplay c).clusters = s.clusters := State.modLaunch_clusters _ _ _
@[simp] theorem State.nonReplay_meshes (s : State) (c : CoreId) : (s.nonReplay c).meshes = s.meshes := State.modLaunch_meshes _ _ _
@[simp] theorem State.nonReplay_dies (s : State) (c : CoreId) : (s.nonReplay c).dies = s.dies := State.modLaunch_dies _ _ _
@[simp] theorem State.nonReplay_nextLaunch (s : State) (c : CoreId) : (s.nonReplay c).nextLaunch = s.nextLaunch := State.modLaunch_nextLaunch _ _ _
@[simp] theorem State.nonReplay_parts (s : State) (c : CoreId) : (s.nonReplay c).parts = s.parts := State.modLaunch_parts _ _ _
@[simp] theorem State.nonReplay_counters (s : State) (c : CoreId) : (s.nonReplay c).counters = s.counters := State.modLaunch_counters _ _ _
@[simp] theorem State.nonReplay_wrapped (s : State) (c : CoreId) : (s.nonReplay c).wrapped = s.wrapped := State.modLaunch_wrapped _ _ _
@[simp] theorem State.nonReplay_vfs (s : State) (c : CoreId) : (s.nonReplay c).vfs = s.vfs := State.modLaunch_vfs _ _ _
@[simp] theorem State.nonReplay_conf (s : State) (c : CoreId) : (s.nonReplay c).conf = s.conf := State.modLaunch_conf _ _ _
@[simp] theorem State.nonReplay_newStore (s : State) (c : CoreId) : (s.nonReplay c).newStore = s.newStore := State.modLaunch_newStore _ _ _
@[simp] theorem State.nonReplay_host (s : State) (c : CoreId) : (s.nonReplay c).host = s.host := State.modLaunch_host _ _ _
@[simp] theorem State.nonReplay_hostWrites (s : State) (c : CoreId) : (s.nonReplay c).hostWrites = s.hostWrites := State.modLaunch_hostWrites _ _ _
@[simp] theorem State.nonReplay_pmrPlat (s : State) (c : CoreId) : (s.nonReplay c).pmrPlat = s.pmrPlat := State.modLaunch_pmrPlat _ _ _
@[simp] theorem State.nonReplay_attests (s : State) (c : CoreId) : (s.nonReplay c).attests = s.attests := State.modLaunch_attests _ _ _
@[simp] theorem State.nonReplay_broughtUp (s : State) (c : CoreId) : (s.nonReplay c).broughtUp = s.broughtUp := State.modLaunch_broughtUp _ _ _
@[simp] theorem State.nonReplay_quarantine (s : State) (c : CoreId) : (s.nonReplay c).quarantine = s.quarantine := State.modLaunch_quarantine _ _ _
@[simp] theorem State.nonReplay_suspects (s : State) (c : CoreId) : (s.nonReplay c).suspects = s.suspects := State.modLaunch_suspects _ _ _
@[simp] theorem State.nonReplay_alarms (s : State) (c : CoreId) : (s.nonReplay c).alarms = s.alarms := State.modLaunch_alarms _ _ _
@[simp] theorem State.nonReplay_xfaults (s : State) (c : CoreId) : (s.nonReplay c).xfaults = s.xfaults := State.modLaunch_xfaults _ _ _
@[simp] theorem State.nonReplay_nextToken (s : State) (c : CoreId) : (s.nonReplay c).nextToken = s.nextToken := State.modLaunch_nextToken _ _ _
@[simp] theorem State.nonReplay_supMail (s : State) (c : CoreId) : (s.nonReplay c).supMail = s.supMail := State.modLaunch_supMail _ _ _
@[simp] theorem State.nonReplay_sysMail (s : State) (c : CoreId) : (s.nonReplay c).sysMail = s.sysMail := State.modLaunch_sysMail _ _ _
@[simp] theorem State.nonReplay_hypMail (s : State) (c : CoreId) : (s.nonReplay c).hypMail = s.hypMail := State.modLaunch_hypMail _ _ _
@[simp] theorem State.nonReplay_responses (s : State) (c : CoreId) : (s.nonReplay c).responses = s.responses := State.modLaunch_responses _ _ _
@[simp] theorem State.nonReplay_answers (s : State) (c : CoreId) : (s.nonReplay c).answers = s.answers := State.modLaunch_answers _ _ _
@[simp] theorem State.nonReplay_completions (s : State) (c : CoreId) : (s.nonReplay c).completions = s.completions := State.modLaunch_completions _ _ _
@[simp] theorem State.nonReplay_notified (s : State) (c : CoreId) : (s.nonReplay c).notified = s.notified := State.modLaunch_notified _ _ _
@[simp] theorem State.nonReplay_fports (s : State) (c : CoreId) : (s.nonReplay c).fports = s.fports := State.modLaunch_fports _ _ _
@[simp] theorem State.nonReplay_windows (s : State) (c : CoreId) : (s.nonReplay c).windows = s.windows := State.modLaunch_windows _ _ _
@[simp] theorem State.nonReplay_autoEx (s : State) (c : CoreId) : (s.nonReplay c).autoEx = s.autoEx := State.modLaunch_autoEx _ _ _
@[simp] theorem State.nonReplay_lateDrop (s : State) (c : CoreId) : (s.nonReplay c).lateDrop = s.lateDrop := State.modLaunch_lateDrop _ _ _
@[simp] theorem State.nonReplay_outbox (s : State) (c : CoreId) : (s.nonReplay c).outbox = s.outbox := State.modLaunch_outbox _ _ _
@[simp] theorem State.nonReplay_odb (s : State) (c : CoreId) : (s.nonReplay c).odb = s.odb := State.modLaunch_odb _ _ _
@[simp] theorem State.nonReplay_fabReserve (s : State) (c : CoreId) : (s.nonReplay c).fabReserve = s.fabReserve := State.modLaunch_fabReserve _ _ _
@[simp] theorem State.nonReplay_delivered (s : State) (c : CoreId) : (s.nonReplay c).delivered = s.delivered := State.modLaunch_delivered _ _ _
@[simp] theorem State.nonReplay_markers (s : State) (c : CoreId) : (s.nonReplay c).markers = s.markers := State.modLaunch_markers _ _ _
@[simp] theorem State.nonReplay_waitPkts (s : State) (c : CoreId) : (s.nonReplay c).waitPkts = s.waitPkts := State.modLaunch_waitPkts _ _ _
@[simp] theorem State.nonReplay_loopIn (s : State) (c : CoreId) : (s.nonReplay c).loopIn = s.loopIn := State.modLaunch_loopIn _ _ _
@[simp] theorem State.nonReplay_unrouted (s : State) (c : CoreId) : (s.nonReplay c).unrouted = s.unrouted := State.modLaunch_unrouted _ _ _
@[simp] theorem State.nonReplay_routeEpoch (s : State) (c : CoreId) : (s.nonReplay c).routeEpoch = s.routeEpoch := State.modLaunch_routeEpoch _ _ _
@[simp] theorem State.nonReplay_throttle (s : State) (c : CoreId) : (s.nonReplay c).throttle = s.throttle := State.modLaunch_throttle _ _ _
@[simp] theorem State.nonReplay_checkFail (s : State) (c : CoreId) : (s.nonReplay c).checkFail = s.checkFail := State.modLaunch_checkFail _ _ _

/-! ### poke -/

@[simp] theorem State.poke_clock (s : State) (a : Nat) (bs : TBytes) : (s.poke a bs).clock = s.clock := rfl
@[simp] theorem State.poke_ftimeBase (s : State) (a : Nat) (bs : TBytes) : (s.poke a bs).ftimeBase = s.ftimeBase := rfl
@[simp] theorem State.poke_ftimeAt (s : State) (a : Nat) (bs : TBytes) : (s.poke a bs).ftimeAt = s.ftimeAt := rfl
@[simp] theorem State.poke_ftimeSlow (s : State) (a : Nat) (bs : TBytes) : (s.poke a bs).ftimeSlow = s.ftimeSlow := rfl
@[simp] theorem State.poke_agenda (s : State) (a : Nat) (bs : TBytes) : (s.poke a bs).agenda = s.agenda := rfl
@[simp] theorem State.poke_cur (s : State) (a : Nat) (bs : TBytes) : (s.poke a bs).cur = s.cur := rfl
@[simp] theorem State.poke_free (s : State) (a : Nat) (bs : TBytes) : (s.poke a bs).free = s.free := rfl
@[simp] theorem State.poke_tags (s : State) (a : Nat) (bs : TBytes) : (s.poke a bs).tags = s.tags := rfl
@[simp] theorem State.poke_cores (s : State) (a : Nat) (bs : TBytes) : (s.poke a bs).cores = s.cores := rfl
@[simp] theorem State.poke_svus (s : State) (a : Nat) (bs : TBytes) : (s.poke a bs).svus = s.svus := rfl
@[simp] theorem State.poke_clusters (s : State) (a : Nat) (bs : TBytes) : (s.poke a bs).clusters = s.clusters := rfl
@[simp] theorem State.poke_meshes (s : State) (a : Nat) (bs : TBytes) : (s.poke a bs).meshes = s.meshes := rfl
@[simp] theorem State.poke_dies (s : State) (a : Nat) (bs : TBytes) : (s.poke a bs).dies = s.dies := rfl
@[simp] theorem State.poke_launches (s : State) (a : Nat) (bs : TBytes) : (s.poke a bs).launches = s.launches := rfl
@[simp] theorem State.poke_nextLaunch (s : State) (a : Nat) (bs : TBytes) : (s.poke a bs).nextLaunch = s.nextLaunch := rfl
@[simp] theorem State.poke_parts (s : State) (a : Nat) (bs : TBytes) : (s.poke a bs).parts = s.parts := rfl
@[simp] theorem State.poke_counters (s : State) (a : Nat) (bs : TBytes) : (s.poke a bs).counters = s.counters := rfl
@[simp] theorem State.poke_wrapped (s : State) (a : Nat) (bs : TBytes) : (s.poke a bs).wrapped = s.wrapped := rfl
@[simp] theorem State.poke_vfs (s : State) (a : Nat) (bs : TBytes) : (s.poke a bs).vfs = s.vfs := rfl
@[simp] theorem State.poke_conf (s : State) (a : Nat) (bs : TBytes) : (s.poke a bs).conf = s.conf := rfl
@[simp] theorem State.poke_newStore (s : State) (a : Nat) (bs : TBytes) : (s.poke a bs).newStore = s.newStore := rfl
@[simp] theorem State.poke_host (s : State) (a : Nat) (bs : TBytes) : (s.poke a bs).host = s.host := rfl
@[simp] theorem State.poke_hostWrites (s : State) (a : Nat) (bs : TBytes) : (s.poke a bs).hostWrites = s.hostWrites := rfl
@[simp] theorem State.poke_pmrPlat (s : State) (a : Nat) (bs : TBytes) : (s.poke a bs).pmrPlat = s.pmrPlat := rfl
@[simp] theorem State.poke_attests (s : State) (a : Nat) (bs : TBytes) : (s.poke a bs).attests = s.attests := rfl
@[simp] theorem State.poke_broughtUp (s : State) (a : Nat) (bs : TBytes) : (s.poke a bs).broughtUp = s.broughtUp := rfl
@[simp] theorem State.poke_quarantine (s : State) (a : Nat) (bs : TBytes) : (s.poke a bs).quarantine = s.quarantine := rfl
@[simp] theorem State.poke_suspects (s : State) (a : Nat) (bs : TBytes) : (s.poke a bs).suspects = s.suspects := rfl
@[simp] theorem State.poke_alarms (s : State) (a : Nat) (bs : TBytes) : (s.poke a bs).alarms = s.alarms := rfl
@[simp] theorem State.poke_xfaults (s : State) (a : Nat) (bs : TBytes) : (s.poke a bs).xfaults = s.xfaults := rfl
@[simp] theorem State.poke_nextToken (s : State) (a : Nat) (bs : TBytes) : (s.poke a bs).nextToken = s.nextToken := rfl
@[simp] theorem State.poke_supMail (s : State) (a : Nat) (bs : TBytes) : (s.poke a bs).supMail = s.supMail := rfl
@[simp] theorem State.poke_sysMail (s : State) (a : Nat) (bs : TBytes) : (s.poke a bs).sysMail = s.sysMail := rfl
@[simp] theorem State.poke_hypMail (s : State) (a : Nat) (bs : TBytes) : (s.poke a bs).hypMail = s.hypMail := rfl
@[simp] theorem State.poke_responses (s : State) (a : Nat) (bs : TBytes) : (s.poke a bs).responses = s.responses := rfl
@[simp] theorem State.poke_answers (s : State) (a : Nat) (bs : TBytes) : (s.poke a bs).answers = s.answers := rfl
@[simp] theorem State.poke_completions (s : State) (a : Nat) (bs : TBytes) : (s.poke a bs).completions = s.completions := rfl
@[simp] theorem State.poke_notified (s : State) (a : Nat) (bs : TBytes) : (s.poke a bs).notified = s.notified := rfl
@[simp] theorem State.poke_fports (s : State) (a : Nat) (bs : TBytes) : (s.poke a bs).fports = s.fports := rfl
@[simp] theorem State.poke_windows (s : State) (a : Nat) (bs : TBytes) : (s.poke a bs).windows = s.windows := rfl
@[simp] theorem State.poke_autoEx (s : State) (a : Nat) (bs : TBytes) : (s.poke a bs).autoEx = s.autoEx := rfl
@[simp] theorem State.poke_lateDrop (s : State) (a : Nat) (bs : TBytes) : (s.poke a bs).lateDrop = s.lateDrop := rfl
@[simp] theorem State.poke_outbox (s : State) (a : Nat) (bs : TBytes) : (s.poke a bs).outbox = s.outbox := rfl
@[simp] theorem State.poke_odb (s : State) (a : Nat) (bs : TBytes) : (s.poke a bs).odb = s.odb := rfl
@[simp] theorem State.poke_fabReserve (s : State) (a : Nat) (bs : TBytes) : (s.poke a bs).fabReserve = s.fabReserve := rfl
@[simp] theorem State.poke_delivered (s : State) (a : Nat) (bs : TBytes) : (s.poke a bs).delivered = s.delivered := rfl
@[simp] theorem State.poke_markers (s : State) (a : Nat) (bs : TBytes) : (s.poke a bs).markers = s.markers := rfl
@[simp] theorem State.poke_waitPkts (s : State) (a : Nat) (bs : TBytes) : (s.poke a bs).waitPkts = s.waitPkts := rfl
@[simp] theorem State.poke_loopIn (s : State) (a : Nat) (bs : TBytes) : (s.poke a bs).loopIn = s.loopIn := rfl
@[simp] theorem State.poke_unrouted (s : State) (a : Nat) (bs : TBytes) : (s.poke a bs).unrouted = s.unrouted := rfl
@[simp] theorem State.poke_routeEpoch (s : State) (a : Nat) (bs : TBytes) : (s.poke a bs).routeEpoch = s.routeEpoch := rfl
@[simp] theorem State.poke_throttle (s : State) (a : Nat) (bs : TBytes) : (s.poke a bs).throttle = s.throttle := rfl
@[simp] theorem State.poke_checkFail (s : State) (a : Nat) (bs : TBytes) : (s.poke a bs).checkFail = s.checkFail := rfl

@[simp] theorem State.poke_mem (s : State) (a : Nat) (bs : TBytes) :
    (s.poke a bs).mem = s.mem.writeN a (bs.map Prod.fst) := rfl

/-! ### Reading back -/

@[simp] theorem State.core_setCore (s : State) (c : CoreId) (k : Core) : (s.setCore c k).core c = k :=
  Tab.get_put_self _ _ _ _

theorem State.core_setCore_ne (s : State) {c d : CoreId} (h : coreNum c ≠ coreNum d) (k : Core) :
    (s.setCore c k).core d = s.core d := Tab.get_put_ne _ _ h _

@[simp] theorem State.me_setMe (s : State) (k : Core) : (s.setMe k).me = k := State.core_setCore s s.cur k
@[simp] theorem State.me_modMe (s : State) (f : Core → Core) : (s.modMe f).me = f s.me :=
  State.core_setCore s s.cur _
@[simp] theorem State.setMe_setMe_me (s : State) (k k' : Core) : ((s.setMe k).setMe k').me = k' := State.me_setMe _ _

@[simp] theorem State.cluster_modCluster (s : State) (k : ClusterId) (f : Cluster → Cluster) :
    (s.modCluster k f).cluster k = f (s.cluster k) := Tab.get_put_self _ _ _ _
@[simp] theorem State.svu_modSvu (s : State) (u : SvuId) (f : Svu → Svu) :
    (s.modSvu u f).svu u = f (s.svu u) := Tab.get_put_self _ _ _ _
@[simp] theorem State.mesh_modMesh (s : State) (m : MeshId) (f : Mesh → Mesh) :
    (s.modMesh m f).mesh m = f (s.mesh m) := Tab.get_put_self _ _ _ _
@[simp] theorem State.die_modDie (s : State) (d : BitVec 4) (f : Die → Die) :
    (s.modDie d f).die d = f (s.die d) := Tab.get_put_self _ _ _ _

/-- Module-wide numbers name cores without repeats. -/
theorem coreOfNum_coreNum (c : CoreId) : coreOfNum (coreNum c) = c := by
  cases c with
  | ord d c st =>
    have h1 := d.isLt; have h2 := c.isLt; have h3 := st.isLt
    have h : ¬ 0x100000 ≤ coreNum (.ord d c st) := by simp only [coreNum]; omega
    unfold coreOfNum
    rw [if_neg h]
    congr 1 <;> apply BitVec.eq_of_toNat_eq <;> simp only [coreNum, BitVec.toNat_ofNat] <;> omega
  | ramp d i =>
    have h1 := d.isLt; have h2 := i.isLt
    have h : 0x100000 ≤ coreNum (.ramp d i) := by simp only [coreNum]; omega
    unfold coreOfNum
    rw [if_pos h]
    congr 1 <;> apply BitVec.eq_of_toNat_eq <;> simp only [coreNum, BitVec.toNat_ofNat] <;> omega

theorem coreNum_inj {c d : CoreId} (h : coreNum c = coreNum d) : c = d := by
  rw [← coreOfNum_coreNum c, h, coreOfNum_coreNum]

/-- Another core is left as it was. -/
theorem State.core_setCore_other (s : State) {c d : CoreId} (h : c ≠ d) (k : Core) :
    (s.setCore c k).core d = s.core d := s.core_setCore_ne (fun e => h (coreNum_inj e)) k

/-! ### Registers -/

@[simp] theorem Core.greg_zero (k : Core) : k.greg 0 = Reg.zero 64 := rfl

/-- Writing g0 does nothing (R93). -/
@[simp] theorem Core.setGreg_zero (k : Core) (r : Reg DWord) : k.setGreg 0 r = k := rfl

/-- A register just written reads what was written. -/
theorem Core.greg_setGreg_self (k : Core) {n : BitVec 5} (h : n ≠ 0) (r : Reg DWord) : (k.setGreg n r).greg n = r := by
  unfold Core.setGreg Core.greg
  rw [if_neg h, if_neg h]
  exact Tab.get_put_self _ _ _ _

/-- Every other register reads as before. -/
theorem Core.greg_setGreg_ne (k : Core) {n m : BitVec 5} (h : n ≠ m) (r : Reg DWord) :
    (k.setGreg n r).greg m = k.greg m := by
  unfold Core.setGreg
  split
  · rfl
  · have hn : n.toNat ≠ m.toNat := fun e => h (BitVec.eq_of_toNat_eq e)
    simp only [Core.greg]
    split
    · rfl
    · exact Tab.get_put_ne _ _ hn _

/-! ### Memory operations -/

/-- Writing keeps the byte memory canonical. -/
theorem State.poke_wf {s : State} (a : Nat) (bs : TBytes) (h : s.mem.wf = true) : (s.poke a bs).mem.wf = true :=
  Memory.wf_writeN a _ h

/-- Putting a pre-image back keeps it. -/
theorem State.putLine_wf {s : State} (a : Nat) (l : ShadowLine) (h : s.mem.wf = true) :
    (s.putLine a l).mem.wf = true := State.poke_wf a _ h

/-- What a write leaves at any address. -/
theorem State.read_poke (s : State) (a : Nat) (bs : TBytes) (x : Nat) :
    (s.poke a bs).mem.read x = if a ≤ x then ((bs.map Prod.fst)[x - a]?).getD (s.mem.read x) else s.mem.read x :=
  Memory.read_writeN _ _ _ _

/-- A byte outside the bytes written reads as before. -/
theorem State.read_poke_outside (s : State) (a : Nat) (bs : TBytes) {x : Nat} (h : x < a ∨ a + bs.length ≤ x) :
    (s.poke a bs).mem.read x = s.mem.read x :=
  Memory.read_writeN_outside _ _ _ (by simpa using h)

end Sys2Proof.Machine
end

