-- ==== Sys2Proof/Laws/Unit.lean ====
section
/-! SUPPORT. What a unit does, said once for each way its body can end, and what the operand forms answer. -/

namespace Sys2Proof.Machine

/-! ### unitThen -/

variable {len : Nat} {q : Seq} {post : State → State} {body : State → Res} {s t : State}

/-- A unit whose body is done: its effect, its sequencing part, what it leaves for last. -/
theorem unitThen_done (h : s.me.canIssue = true) (hc : s.scalarCheck = none) (hu : s.me.unitTrap len q = none)
    (hb : body s = .done t) : unitThen len q post body s = .next (t.finish len q post) := by
  simp [unitThen, h, hc, hu, hb]

/-- A unit whose body traps. -/
theorem unitThen_trap {x : Trap} (h : s.me.canIssue = true) (hc : s.scalarCheck = none)
    (hu : s.me.unitTrap len q = none) (hb : body s = .trap x) :
    unitThen len q post body s = .next (s.takeTrap x) := by
  simp [unitThen, h, hc, hu, hb]

/-- A unit whose body traps after a part of its effect. -/
theorem unitThen_trapIn {x : Trap} (h : s.me.canIssue = true) (hc : s.scalarCheck = none)
    (hu : s.me.unitTrap len q = none) (hb : body s = .trapIn t x) :
    unitThen len q post body s = .next (t.takeTrap x) := by
  simp [unitThen, h, hc, hu, hb]

/-- A unit whose body waits changes nothing. -/
theorem unitThen_wait (h : s.me.canIssue = true) (hc : s.scalarCheck = none) (hu : s.me.unitTrap len q = none)
    (hb : body s = .wait) : unitThen len q post body s = .next s := by
  simp [unitThen, h, hc, hu, hb]

/-- A unit whose body goes on waiting with something done. -/
theorem unitThen_stall (h : s.me.canIssue = true) (hc : s.scalarCheck = none) (hu : s.me.unitTrap len q = none)
    (hb : body s = .stall t) : unitThen len q post body s = .next t := by
  simp [unitThen, h, hc, hu, hb]

/-- A unit whose body sets the pc itself. -/
theorem unitThen_jump {pc : Word} (h : s.me.canIssue = true) (hc : s.scalarCheck = none)
    (hu : s.me.unitTrap len q = none) (hb : body s = .jump t pc) :
    unitThen len q post body s = .next (post (t.modMe fun k => { k with pc := pc })) := by
  simp [unitThen, h, hc, hu, hb]

/-- A core that cannot issue does nothing. -/
theorem unitThen_idle (h : s.me.canIssue = false) : unitThen len q post body s = .next s := by
  simp [unitThen, h]

/-- A unit always answers a next state. -/
theorem unitThen_next (len : Nat) (q : Seq) (post : State → State) (body : State → Res) (s : State) :
    ∃ t, unitThen len q post body s = .next t := by
  unfold unitThen
  split
  · exact ⟨_, rfl⟩
  · split
    · exact ⟨_, rfl⟩
    · split <;> first | exact ⟨_, rfl⟩ | (split <;> exact ⟨_, rfl⟩)

/-- As unitThen_done, for a unit with nothing left for last. -/
theorem unit_done (h : s.me.canIssue = true) (hc : s.scalarCheck = none) (hu : s.me.unitTrap len q = none)
    (hb : body s = .done t) : unit len q body s = .next (t.finish len q id) := unitThen_done h hc hu hb

theorem unit_trap {x : Trap} (h : s.me.canIssue = true) (hc : s.scalarCheck = none)
    (hu : s.me.unitTrap len q = none) (hb : body s = .trap x) : unit len q body s = .next (s.takeTrap x) :=
  unitThen_trap h hc hu hb

theorem unit_next (len : Nat) (q : Seq) (body : State → Res) (s : State) : ∃ t, unit len q body s = .next t :=
  unitThen_next len q id body s

/-! ### Operands -/

/-- Sources that are all full raise no trap. -/
theorem Core.findSome_srcTrap (k : Core) (xs : List Src) (h : xs.all k.srcFull = true) :
    xs.findSome? k.srcTrap = none := by
  induction xs with
  | nil => rfl
  | cons x xs ih =>
    simp only [List.all_cons, Bool.and_eq_true] at h
    simp [List.findSome?, Core.srcTrap, h.1, ih h.2]

/-- With every source full, an instruction goes on. -/
theorem Core.need_full {k : Core} {xs : List Src} {r : Res} (h : xs.all k.srcFull = true) : k.need xs r = r := by
  simp [Core.need, k.findSome_srcTrap xs h, h]

/-- With a source empty and no trap bit on an empty one, it waits. -/
theorem Core.need_wait {k : Core} {xs : List Src} {r : Res} (h : xs.all k.srcFull = false)
    (ht : xs.findSome? k.srcTrap = none) : k.need xs r = .wait := by
  simp [Core.need, h, ht]

/-- A result reaches a g register that no producer is outstanding into. -/
theorem State.toG_done {s : State} {d : BitVec 5} {v : DWord} {t : Bool} (h : (s.me.greg d).fill ≠ .pending) :
    s.toG d v t = .done (s.setMe (s.me.writeG d v t)) := by
  simp [State.toG, h]

theorem State.toGF_done {s : State} {d : BitVec 5} {v : DWord} {t : Bool} {f : Fx}
    (h : (s.me.greg d).fill ≠ .pending) :
    s.toGF d v t f = .done (s.setMe ((s.me.writeG d v t).raise f t)) := by
  simp [State.toGF, h]

/-- It waits for the producer otherwise (R18). -/
theorem State.toG_wait {s : State} {d : BitVec 5} {v : DWord} {t : Bool} (h : (s.me.greg d).fill = .pending) :
    s.toG d v t = .wait := by
  simp [State.toG, h]

/-! ### Straight-line sequencing -/

/-- A core that runs a task is listed. -/
theorem Core.ne_blank {k : Core} (h : k.running = true) : k ≠ Core.blank := by
  intro e; rw [e] at h; cases h

/-- Of two replacements of the issuing core the second stands. -/
theorem State.setMe_setMe {s : State} {k : Core} (h : k.running = true) (k' : Core) :
    (s.setMe k).setMe k' = s.setMe k' := by
  simp [State.setMe, State.setCore, Tab.put_put _ _ _ (Core.ne_blank h)]


/-- A unit that goes on to the next one, outside a repeat frame, only moves the pc. -/
theorem State.finish_next {s : State} {len : Nat} (h : s.me.rpt = none) :
    s.finish len .next id = s.setMe { s.me with pc := BitVec.ofNat 32 (s.me.pc.toNat + 4 * len) } := by
  simp [State.finish, State.sequence, h]

/-- The same after an effect that left the core as k. -/
theorem State.finish_core {s : State} {len : Nat} {k : Core} (hr : k.running = true) (h : k.rpt = none) :
    (s.setMe k).finish len .next id = s.setMe { k with pc := BitVec.ofNat 32 (k.pc.toNat + 4 * len) } := by
  rw [State.finish_next (by simpa using h)]
  simp [State.setMe_setMe hr]

end Sys2Proof.Machine
end

