-- ==== Sys2Proof/Laws/Scalar.lean ====
section
/-! SUPPORT. What the shared forms of the scalar instructions answer, said once each. -/

namespace Sys2Proof.Machine

variable {s : State} {q : Seq} {d : BitVec 5} {xs : List Src}

/-- A ready unit whose body is done. -/
theorem State.ready.done {len : Nat} {body : State → Res} {t : State} (h : s.ready len q) (hb : body s = .done t) :
    unit len q body s = .next (t.finish len q id) := unit_done h.1 h.2.1 h.2.2 hb

/-- A ready unit whose body leaves the core as k. -/
theorem State.ready.core {len : Nat} {body : State → Res} {k : Core} (h : s.ready len q)
    (hb : body s = .done (s.setMe k)) : unit len q body s = s.putCore len q k := h.done hb

/-- A ready unit whose body traps. -/
theorem State.ready.trap {len : Nat} {body : State → Res} {x : Trap} (h : s.ready len q) (hb : body s = .trap x) :
    unit len q body s = .next (s.takeTrap x) := unit_trap h.1 h.2.1 h.2.2 hb

theorem srcFull_g {k : Core} {n : BitVec 5} {t : Bool} (h : (k.greg n).fill = .full) :
    k.srcFull (.g n t) = true := by simp [Core.srcFull, h]

theorem srcFull_h {k : Core} {n : BitVec 3} {t : Bool} (h : (k.hreg n).fill = .full) :
    k.srcFull (.h n t) = true := by simp [Core.srcFull, h]

/-- The three ways a list of full sources is met with. -/
theorem full1 {k : Core} {a : BitVec 5} {ta : Bool} (h : (k.greg a).fill = .full) :
    ([.g a ta] : List Src).all k.srcFull = true := by simp [srcFull_g h]

theorem full2 {k : Core} {a b : BitVec 5} {ta tb : Bool} (h : (k.greg a).fill = .full)
    (h' : (k.greg b).fill = .full) : ([.g a ta, .g b tb] : List Src).all k.srcFull = true := by
  simp [srcFull_g h, srcFull_g h']

theorem full3 {k : Core} {a b c : BitVec 5} {ta tb tc : Bool} (h : (k.greg a).fill = .full)
    (h' : (k.greg b).fill = .full) (h'' : (k.greg c).fill = .full) :
    ([.g a ta, .g b tb, .g c tc] : List Src).all k.srcFull = true := by
  simp [srcFull_g h, srcFull_g h', srcFull_g h'']

@[simp] theorem taints_one (k : Core) (a : BitVec 5) (ta : Bool) : k.taints [.g a ta] = k.gt a := by
  simp [Core.taints, Core.srcTaint]

@[simp] theorem taints_two (k : Core) (a b : BitVec 5) (ta tb : Bool) :
    k.taints [.g a ta, .g b tb] = (k.gt a || k.gt b) := by simp [Core.taints, Core.srcTaint]

@[simp] theorem taints_three (k : Core) (a b c : BitVec 5) (ta tb tc : Bool) :
    k.taints [.g a ta, .g b tb, .g c tc] = (k.gt a || k.gt b || k.gt c) := by
  simp [Core.taints, Core.srcTaint, Bool.or_assoc]

@[simp] theorem taints_none (k : Core) : k.taints [] = false := rfl

/-- What an instruction that writes one g register answers. -/
theorem scalarG_done {f : Core → DWord} (h : s.ready (len1 q) q) (hx : xs.all s.me.srcFull = true)
    (hd : s.freeG d) : scalarG q d xs f s = s.putG q d (f s.me) (s.me.taints xs) :=
  h.core (by rw [Core.need_full hx, State.toG_done hd])

/-- What an instruction that writes one predicate answers. -/
theorem scalarP_done {f : Core → Bool} {d : BitVec 3} (h : s.ready (len1 q) q) (hx : xs.all s.me.srcFull = true) :
    scalarP q d xs f s = s.putP q d (f s.me) (s.me.taints xs) :=
  h.core (by rw [Core.need_full hx]; rfl)

theorem int3_done {o : R3W} {f : (w : Nat) → BitVec w → BitVec w → BitVec w} (h : s.ready (len1 o.q) o.q)
    (ha : s.fullG o.a) (hb : s.fullG o.b) (hd : s.freeG o.d) :
    int3 o f s = s.putG o.q o.d (intOp o.w f (s.me.gv o.a) (s.me.gv o.b)) (s.me.gt o.a || s.me.gt o.b) := by
  rw [int3, scalarG_done h (full2 ha hb) hd, taints_two]

theorem reg3_done {o : R3} {f : DWord → DWord → DWord} (h : s.ready (len1 o.q) o.q)
    (ha : s.fullG o.a) (hb : s.fullG o.b) (hd : s.freeG o.d) :
    reg3 o f s = s.putG o.q o.d (f (s.me.gv o.a) (s.me.gv o.b)) (s.me.gt o.a || s.me.gt o.b) := by
  rw [reg3, scalarG_done h (full2 ha hb) hd, taints_two]

theorem int2_done {o : R2W} {f : (w : Nat) → BitVec w → BitVec w} (h : s.ready (len1 o.q) o.q)
    (ha : s.fullG o.a) (hd : s.freeG o.d) :
    int2 o f s = s.putG o.q o.d (intOp o.w (fun w x _ => f w x) (s.me.gv o.a) 0) (s.me.gt o.a) := by
  rw [int2, scalarG_done h (full1 ha) hd, taints_one]

theorem reg2_done {o : R2} {f : DWord → DWord} (h : s.ready (len1 o.q) o.q) (ha : s.fullG o.a)
    (hd : s.freeG o.d) : reg2 o f s = s.putG o.q o.d (f (s.me.gv o.a)) (s.me.gt o.a) := by
  rw [reg2, scalarG_done h (full1 ha) hd, taints_one]

theorem cmp3_done {o : C3W} {f : (w : Nat) → BitVec w → BitVec w → Bool} (h : s.ready (len1 o.q) o.q)
    (ha : s.fullG o.a) (hb : s.fullG o.b) :
    cmp3 o f s = s.putP o.q o.d (intCmp o.w f (s.me.gv o.a) (s.me.gv o.b)) (s.me.gt o.a || s.me.gt o.b) := by
  rw [cmp3, scalarP_done h (full2 ha hb), taints_two]

theorem immG_done {o : RI} {f : DWord → DWord → DWord} (h : s.ready (len1 o.q) o.q) (ha : s.fullG o.a)
    (hd : s.freeG o.d) : immG o f s = s.putG o.q o.d (f (s.me.gv o.a) (sx14 o.i)) (s.me.gt o.a) := by
  rw [immG, Src.g0, scalarG_done h (full1 ha) hd, taints_one]

theorem immP_done {o : CI} {f : DWord → DWord → Bool} (h : s.ready (len1 o.q) o.q) (ha : s.fullG o.a) :
    immP o f s = s.putP o.q o.d (f (s.me.gv o.a) (sx14 o.i)) (s.me.gt o.a) := by
  rw [immP, Src.g0, scalarP_done h (full1 ha), taints_one]

theorem immShift_done {o : ShI} {f : (w : Nat) → BitVec w → BitVec w → BitVec w} (h : s.ready (len1 o.q) o.q)
    (ha : s.fullG o.a) (hd : s.freeG o.d) (hn : o.w = true → o.n.toNat < 32) :
    immShift o f s = s.putG o.q o.d (intOp o.w f (s.me.gv o.a) (o.n.zeroExtend 64)) (s.me.gt o.a) := by
  refine h.core ?_
  have : (o.w && decide (32 ≤ o.n.toNat)) = false := by
    cases hw : o.w <;> simp
    exact hn hw
  simp only [this]
  simp only [Bool.false_eq_true, if_false]
  rw [Src.g0, Core.need_full (full1 ha), State.toG_done hd]

theorem immShift_trap {o : ShI} {f : (w : Nat) → BitVec w → BitVec w → BitVec w} (h : s.ready (len1 o.q) o.q)
    (hw : o.w = true) (hn : 32 ≤ o.n.toNat) : immShift o f s = .next (s.takeTrap (illegal 0)) :=
  h.trap (by simp [hw, hn])

theorem ptrMove_done {p off : Core → DWord} {v : DWord} (h : s.ready (len1 q) q)
    (hx : xs.all s.me.srcFull = true) (hd : s.freeG d) (hv : movePtr (p s.me) (off s.me).toInt = some v) :
    ptrMove q d xs p off s = s.putG q d v (s.me.taints xs) :=
  h.core (by rw [Core.need_full hx, hv]; exact State.toG_done hd)

theorem ptrMove_trap {p off : Core → DWord} (h : s.ready (len1 q) q) (hx : xs.all s.me.srcFull = true)
    (hv : movePtr (p s.me) (off s.me).toInt = none) :
    ptrMove q d xs p off s = .next (s.takeTrap (formatTrap (p s.me))) :=
  h.trap (by rw [Core.need_full hx, hv])

theorem fpG_done {f : Core → Nat × Fx} (h : s.ready (len1 q) q) (hx : xs.all s.me.srcFull = true)
    (hd : s.freeG d) :
    fpG q d xs f s = s.putCore (len1 q) q
      ((s.me.writeG d (f32Res (f s.me).1) (s.me.taints xs)).raise (f s.me).2 (s.me.taints xs)) :=
  h.core (by rw [Core.need_full hx]; exact State.toGF_done hd)

theorem fpP_done {o : C3} {f : Val → Val → Bool × Fx} (h : s.ready (len1 o.q) o.q) (ha : s.fullG o.a)
    (hb : s.fullG o.b) :
    fpP o f s = s.putCore (len1 o.q) o.q
      ((s.me.writeP o.d (f (f32Val (s.me.gv o.a)) (f32Val (s.me.gv o.b))).1 (s.me.gt o.a || s.me.gt o.b)).raise
        (f (f32Val (s.me.gv o.a)) (f32Val (s.me.gv o.b))).2 (s.me.gt o.a || s.me.gt o.b)) :=
  h.core (by simp only []; rw [Core.need_full (full2 ha hb), taints_two])

theorem fpRound_done {rm : Rm} {f : Core → Val × Fx} {enc : Rm → Nat → Val → Nat × Fx}
    (h : s.ready (len1 q) q) (hx : xs.all s.me.srcFull = true) (hd : s.freeG d)
    (hv : rm = .rs → s.me.rsPending = false) :
    fpRound q d rm xs f enc s =
      (let lf := if rm = .rs then lfsrStep s.me.lfsr else s.me.lfsr
       let c := enc rm (if rm = .rs then lf.toNat else 0) (f s.me).1
       s.putCore (len1 q) q
        { (s.me.writeG d (BitVec.ofNat 64 c.1) (s.me.taints xs || rm == .rs)).raise ((f s.me).2 ||| c.2)
            (s.me.taints xs) with lfsr := lf }) := by
  refine h.core ?_
  rw [Core.need_full hx]
  have : ((rm == Rm.rs) && s.me.rsPending) = false := by
    cases hr : (rm == Rm.rs) <;> simp
    exact hv (by simpa using hr)
  simp only [this]
  simp [hd]

theorem pred3_done {o : P3} {f : Bool → Bool → Bool} (h : s.ready (len1 o.q) o.q) :
    pred3 o f s = s.putP o.q o.d (f (s.me.preg o.a).val (s.me.preg o.b).val)
      ((s.me.preg o.a).taint || (s.me.preg o.b).taint) := h.core rfl

theorem pred2_done {o : P2} {f : Bool → Bool} (h : s.ready (len1 o.q) o.q) :
    pred2 o f s = s.putP o.q o.d (f (s.me.preg o.a).val) (s.me.preg o.a).taint := h.core rfl

end Sys2Proof.Machine
end

