-- ==== Sys2Proof/Laws/Frame.lean ====
section
/-! SUPPORT. What memory accesses read and write byte by byte, and what taking a trap and sequencing leave alone. -/

namespace Sys2Proof.Machine

/-- An address outside its space. -/
theorem checkAddr_out {ea : Int} {sz al lim : Nat} (h : ea < 0 ∨ (lim:Int) < ea + sz) : checkAddr ea sz al lim = .error (illegal 1) := by
  simp only [checkAddr]; rw [if_pos]; simpa using h
/-- A misaligned one. -/
theorem checkAddr_al {ea : Int} {sz al lim : Nat} (h0 : 0 ≤ ea) (h : ea + sz ≤ lim) (h1 : ea % al ≠ 0) : checkAddr ea sz al lim = .error ⟨.alignment, BitVec.ofInt 64 ea⟩ := by
  obtain ⟨n, rfl⟩ := Int.eq_ofNat_of_zero_le h0
  simp only [checkAddr]; rw [if_neg (by simp; omega), if_pos (by simp; intro h; apply h1; exact_mod_cast h)]
  simp [alignTrap]
/-- One that may be accessed (R178). -/
theorem checkAddr_ok {ea : Int} {sz al lim : Nat} (h0 : 0 ≤ ea) (h : ea + sz ≤ lim) (h1 : ea % al = 0) : checkAddr ea sz al lim = .ok ea.toNat := by
  obtain ⟨n, rfl⟩ := Int.eq_ofNat_of_zero_le h0
  simp only [checkAddr]; rw [if_neg (by simp; omega), if_neg (by simp; exact_mod_cast h1)]
  

/-- An aligned dword of local memory or a yard is one word. -/
theorem bad8 {s : State} {a : Nat} (h : a % 8 = 0) (hh : 2 ^ 44 ≤ a) : s.bad a 8 = if Tab.get false s.uncorr a || Tab.get false s.poison a then some a else none := by
  have e : errUnit a = 8 := by simp [errUnit, isHbm]; omega
  have b : basesIn 8 a 8 = [a] := by
    obtain ⟨n, rfl⟩ : ∃ n, a = 8 * n := ⟨a / 8, by omega⟩
    have : (8 * n + 8 - 1) / 8 - (8 * n) / 8 + 1 = 1 := by omega
    unfold basesIn; rw [this]; simp [List.range_succ, Nat.mul_comm]
  simp only [State.bad, e, b, List.find?]
  split <;> simp_all

/-- The bytes read, one by one. -/
theorem readN_eq (m : Memory) (a n : Nat) : m.readN a n = (List.range n).map fun i => m.read (a + i) := by
  induction n generalizing a with
  | zero => rfl
  | succ n ih => simp [Memory.readN, ih, List.range_succ_eq_map, Function.comp_def]; intro i _; congr 1; omega
/-- The taint bits read, one by one. -/
theorem getN_eq (t : Tab Bool) (a n : Nat) : Tab.getN false t a n = (List.range n).map fun i => Tab.get false t (a + i) := by
  induction n generalizing a with
  | zero => rfl
  | succ n ih => simp [Tab.getN, ih, List.range_succ_eq_map, Function.comp_def]; intro i _; congr 1; omega

/-- A read with tracking off. -/
theorem readT_off {s : State} {c : CoreId} {a n va : Nat} (h : (s.gangOf c).det = false) : s.readT c a n va = (s.peek a n, s) := by
  simp [State.readT, State.track, State.firstConflict, h, addTaint]

/-- Byte i of a dword read. -/
theorem natOf8 (f : Nat → Byte) (i : Nat) (h : i < 8) : (BitVec.ofNat 64 (natOfBytes ((List.range 8).map f))).extractLsb' (8*i) 8 = f i := by
  have e : (List.range 8).map f = [f 0, f 1, f 2, f 3, f 4, f 5, f 6, f 7] := by simp [List.range_succ]
  rw [e]; simp only [natOfBytes]
  apply BitVec.eq_of_toNat_eq
  simp only [BitVec.extractLsb'_toNat, BitVec.toNat_ofNat, Nat.shiftRight_eq_div_pow]
  have := (f 0).isLt; have := (f 1).isLt; have := (f 2).isLt; have := (f 3).isLt; have := (f 4).isLt; have := (f 5).isLt; have := (f 6).isLt; have := (f 7).isLt
  have : i = 0 ∨ i = 1 ∨ i = 2 ∨ i = 3 ∨ i = 4 ∨ i = 5 ∨ i = 6 ∨ i = 7 := by omega
  rcases this with rfl|rfl|rfl|rfl|rfl|rfl|rfl|rfl <;> norm_num <;> omega

/-- A dword as read, byte by byte. -/
theorem peek8 (s : State) (a : Nat) : (∀ i < 8, (BitVec.ofNat 64 (valOf (s.peek a 8))).extractLsb' (8 * i) 8 = s.mem.read (a + i)) ∧
    (anyTaint (s.peek a 8) = true ↔ ∃ i < 8, Tab.get false s.taint (a + i) = true) := by
  constructor
  · intro i hi
    have : (s.peek a 8).map Prod.fst = (List.range 8).map fun i => s.mem.read (a + i) := by
      simp [State.peek, readN_eq, getN_eq, List.zip_map']
    rw [valOf, this]; exact natOf8 _ i hi
  · simp [State.peek, readN_eq, getN_eq, anyTaint, List.zip_map', List.any_map]

/-- Local memories are aligned and not HBM. -/
theorem localBase_mod (c : CoreId) : localBase c % 8 = 0 ∧ 2 ^ 44 ≤ localBase c := by
  unfold localBase; omega
/-- Yards are. -/
theorem yardBase_mod (c : ClusterId) : yardBase c % 8 = 0 ∧ 2 ^ 44 ≤ yardBase c := by
  unfold yardBase; omega

/-- Byte i of a dword written. -/
theorem bytes8 (v : DWord) (i : Nat) (h : i < 8) (t : Bool) : (bytesOf 8 v.toNat t)[i]? = some (v.extractLsb' (8*i) 8, t) := by
  have : i = 0 ∨ i = 1 ∨ i = 2 ∨ i = 3 ∨ i = 4 ∨ i = 5 ∨ i = 6 ∨ i = 7 := by omega
  rcases this with rfl|rfl|rfl|rfl|rfl|rfl|rfl|rfl <;> simp [bytesOf, bytesOfNat] <;> apply BitVec.eq_of_toNat_eq <;> simp [Nat.shiftRight_eq_div_pow] <;> omega

/-- Copying pre-images leaves memory alone. -/
theorem shadowLocal_mem (s : State) (c : CoreId) (a n : Nat) : (s.shadowLocal c a n).mem = s.mem ∧ (s.shadowLocal c a n).taint = s.taint ∧
   (s.shadowLocal c a n).cur = s.cur := by
  unfold State.shadowLocal
  split
  · simp
  · dsimp only
    split <;> simp [State.nonReplay, State.modGangOf, State.modLaunch] <;> split <;> simp
/-- So does noting what a late trap restores. -/
theorem noteUndo_mem (s : State) (c : CoreId) (a n : Nat) : (s.noteUndo c a n).mem = s.mem ∧ (s.noteUndo c a n).taint = s.taint ∧ (s.noteUndo c a n).cur = s.cur := by
  unfold State.noteUndo
  dsimp only
  split <;> simp

/-- sameRegs is reflexive. -/
theorem sameRegs.refl (k : Core) : sameRegs k k := by simp [sameRegs]
/-- And transitive. -/
theorem sameRegs.trans {a b c : Core} (h : sameRegs a b) (h' : sameRegs b c) : sameRegs a c := by
  simp_all [sameRegs]

/-- The end of a ring task concerns no core's registers. -/
theorem ringTaskEnd_me (s : State) (c d : CoreId) : (s.ringTaskEnd c).core d = s.core d := by
  unfold State.ringTaskEnd; split <;> rfl
/-- Nor does a check window. -/
theorem startWindow_fr (s : State) (c : CoreId) (n : Nat) : (s.startWindow c n).mem = s.mem ∧ (s.startWindow c n).taint = s.taint ∧ (s.startWindow c n).cur = s.cur ∧ ∀ d, sameRegs (s.core d) ((s.startWindow c n).core d) := by
  unfold State.startWindow
  split
  · refine ⟨by simp, by simp, by simp, fun d => ?_⟩
    by_cases h : coreNum c = coreNum d <;> simp [State.modCore, State.setCore, State.core, Tab.get_put, h, sameRegs]
  · exact ⟨rfl, rfl, rfl, fun d => sameRegs.refl _⟩

/-- TAKING A TRAP leaves memory and every core's registers alone (R33). -/
theorem trapAt_fr (s : State) (c : CoreId) (pc w0 w1 : Word) (t : Trap) : (s.trapAt c pc w0 w1 t).mem = s.mem ∧ (s.trapAt c pc w0 w1 t).taint = s.taint ∧ (s.trapAt c pc w0 w1 t).cur = s.cur ∧ ∀ d, sameRegs (s.core d) ((s.trapAt c pc w0 w1 t).core d) := by
  unfold State.trapAt
  dsimp only
  have h : ∀ u, u = (if t.cause = .pipeCheck then s.startWindow c t.value.toNat else s) →
      u.mem = s.mem ∧ u.taint = s.taint ∧ u.cur = s.cur ∧ ∀ d, sameRegs (s.core d) (u.core d) := by
    rintro u rfl
    split
    · exact startWindow_fr ..
    · exact ⟨rfl, rfl, rfl, fun d => sameRegs.refl _⟩
  generalize hu : (if t.cause = .pipeCheck then s.startWindow c t.value.toNat else s) = u
  replace h := h u hu.symm
  have hm : (u.ringTaskEnd c).mem = u.mem ∧ (u.ringTaskEnd c).taint = u.taint ∧ (u.ringTaskEnd c).cur = u.cur := by unfold State.ringTaskEnd; split <;> simp
  refine ⟨by simp [State.post, hm, h], by simp [State.post, hm, h], by simp [State.post, hm, h], fun d => ?_⟩
  refine sameRegs.trans (h.2.2.2 d) ?_
  by_cases hd : coreNum c = coreNum d
  · have hc : u.core c = u.core d := by simp [State.core, hd]
    simp [State.post, State.core, State.setCore, Tab.get_put, hd, sameRegs]
  · have : (u.ringTaskEnd c).core d = u.core d := ringTaskEnd_me ..
    simp only [State.core] at this
    simp [State.post, State.core, State.setCore, Tab.get_put, hd, sameRegs, this]

/-- The same for the issuing core. -/
theorem takeTrap_fr (s : State) (t : Trap) : (s.takeTrap t).mem = s.mem ∧ (s.takeTrap t).taint = s.taint ∧ (s.takeTrap t).cur = s.cur ∧ ∀ d, sameRegs (s.core d) ((s.takeTrap t).core d) := trapAt_fr ..

/-- Nor does the loop-end check. -/
theorem loopEnd_fr (k : Core) (a b c : Nat) : sameRegs k (k.loopEnd a b c).1 := by
  unfold Core.loopEnd
  split
  · exact sameRegs.refl _
  · split
    · exact sameRegs.refl _
    · exact ⟨rfl, rfl, rfl, rfl, rfl, rfl, rfl, rfl, rfl⟩

/-- A sequencing part changes only the issuing core's control state. -/
theorem sequence_fr (s : State) (u len : Nat) (q : Seq) : ∃ k x, s.sequence u len q = (s.setMe k, x) ∧ sameRegs s.me k := by
  have le : ∀ (k : Core) a b c, sameRegs s.me k → sameRegs s.me (k.loopEnd a b c).1 := fun k a b c h => sameRegs.trans h (loopEnd_fr ..)
  have rr : sameRegs s.me s.me := sameRegs.refl _
  unfold State.sequence
  cases q <;> dsimp only <;> (repeat' split) <;>
    first
    | exact ⟨_, _, rfl, ⟨rfl, rfl, rfl, rfl, rfl, rfl, rfl, rfl, rfl⟩⟩
    | exact ⟨_, _, rfl, le _ _ _ _ ⟨rfl, rfl, rfl, rfl, rfl, rfl, rfl, rfl, rfl⟩⟩

/-- What follows an effect leaves memory and registers alone (R24). -/
theorem finish_fr (s : State) (len : Nat) (q : Seq) : (s.finish len q id).mem = s.mem ∧ (s.finish len q id).taint = s.taint ∧ (s.finish len q id).cur = s.cur ∧ sameRegs s.me (s.finish len q id).me := by
  obtain ⟨k, x, h, hk⟩ := sequence_fr s s.me.pc.toNat len q
  unfold State.finish
  simp only [h]
  cases x
  · exact ⟨rfl, rfl, rfl, by simpa using hk⟩
  · rename_i t
    have := takeTrap_fr (s.setMe k) t
    refine ⟨by simp [this.1], by simp [this.2.1], by simp [this.2.2.1], ?_⟩
    have h3 := this.2.2.2 s.cur
    simp only [State.me, this.2.2.1]
    refine sameRegs.trans hk ?_
    have hk' : (s.setMe k).core s.cur = k := by simp [State.setMe]
    rwa [hk'] at h3

end Sys2Proof.Machine
end

