-- ==== Sys2Proof/Tests/Slice0.lean ====
section
/-! SUPPORT. Tests of the model: the checks of WellFormed, words of the spec decoded, the spec's worked examples, and for
each statement a state and operands that meet its hypotheses. -/

set_option linter.unusedSimpArgs false
set_option Elab.async false

noncomputable section

namespace Sys2Proof.Tests

open Sys2Proof Sys2Proof.Machine

/-- The next state of an outcome. -/
def nextOf : Out → State
  | .next s => s
  | _ => State.reset
/-- One core of a one-core launch at address 0 of a code image of 12 bytes, its store holding the unit's words. -/
def base : State := State.reset.withFetchWord 32 0
/-- The same for a ramp core. -/
def rbase : State := State.reset.placeUnit [0x1A000000, 0, 0]
/-- A g register's value after an outcome. -/
def gOf (o : Out) (n : BitVec 5) : DWord := (nextOf o).me.gv n
/-- The cause of the trap an outcome takes. -/
def causeOf (o : Out) : Option (Cause × DWord) := (nextOf o).me.park.map fun p => (p.cause, p.value)
/-- A state with values in g registers. -/
def gs (s : State) (xs : List (BitVec 5 × DWord)) : State := s.modMe fun k => xs.foldl (fun k x => k.writeG x.1 x.2 false) k

/-- All of them. -/
def oks (xs : List Bool) : Bool := xs.all id

/-! ### Words of the spec -/

/-- add g3, g1, g2 by R41 and R94. -/
theorem test_decode_add : decode false [0x01184400] = .ok (.add ⟨.next, 3, 1, 2, false, false, false⟩, 1) := by decide +kernel
/-- sub.w g3, g1, g2 by R41 and R94. -/
theorem test_decode_sub_w : decode false [0x01184409] = .ok (.sub ⟨.next, 3, 1, 2, false, false, true⟩, 1) := by decide +kernel
/-- addi g1, g1, -5 | br.t p2, top: the worked example of R61. -/
theorem test_decode_addi_seqw : decode false [0xC2087FFB, 0x287FFFFF] = .ok (.addi ⟨.brT 2 0x7FFFFF, 1, 1, 0x3FFB⟩, 2) := by decide +kernel
/-- cmpi.lt p2, g1, 10 (R100). -/
theorem test_decode_cmpi : decode false [0x0790400A] = .ok (.cmpiLt ⟨.next, 2, 1, 10⟩, 1) := by decide +kernel
/-- shri.w g3, g1, 5 by R42 and R98. -/
theorem test_decode_shri_w : decode false [0x06184145] = .ok (.shri ⟨.next, 3, 1, true, 5⟩, 1) := by decide +kernel
/-- li g1, 20: the worked example. -/
theorem test_decode_li : decode false [0x08080014] = .ok (.li ⟨.next, 1, 20⟩, 1) := by decide +kernel
/-- lih g1, 1, 0x4040 (R107). -/
theorem test_decode_lih : decode false [0x090A4040] = .ok (.lih ⟨.next, 1, 1, 0x4040⟩, 1) := by decide +kernel
/-- frcp g2, g1 (R107). -/
theorem test_decode_frcp : decode false [0x0B1041C0] = .ok (.frcp ⟨.next, 2, 1, false⟩, 1) := by decide +kernel
/-- fref.rcp g3, g1, g2 (R107). -/
theorem test_decode_frefRcp : decode false [0x0B1845D0] = .ok (.frefRcp ⟨.next, 3, 1, 2, false, false⟩, 1) := by decide +kernel
/-- pxor p1, p2, p3 by R41 and R108. -/
theorem test_decode_pxor : decode false [0x0C088610] = .ok (.pxor ⟨.next, 1, 2, 3⟩, 1) := by decide +kernel
/-- loop 3, 2 (R111). -/
theorem test_decode_loop : decode false [0x0D000000, 0x00030002] = .ok (.loop ⟨.next, 3, 2⟩, 2) := by decide +kernel
/-- yield, of the issue program. -/
theorem test_decode_yield : decode false [0x0D000007, 0x00000000] = .ok (.yield ⟨.next⟩, 2) := by decide +kernel
/-- done (R115). -/
theorem test_decode_done : decode false [0x0D000008, 0x00000000] = .ok (.done ⟨.next⟩, 2) := by decide +kernel
/-- mfs g4, AGE by R118. -/
theorem test_decode_mfs : decode false [0x0E200001, 0x0000000A] = .ok (.mfs ⟨.next, 4, 0x00A⟩, 2) := by decide +kernel
/-- ld g4, 24(g5): the worked example. -/
theorem test_decode_ld : decode false [0x10214003] = .ok (.ld ⟨.next, 4, 5, 3⟩, 1) := by decide +kernel
/-- stvy v3, 512(g2) by R44. -/
theorem test_decode_stvy : decode false [0x16988001] = .ok (.stvy ⟨.next, 3, 2, 1⟩, 1) := by decide +kernel
/-- cpy.inb h1, g2, g3, yard, local, 32. -/
theorem test_decode_cpy_inb : decode false [0x17088600, 0x24000020] = .ok (.cpy ⟨.next, 1, 2, 3, false, false, true, 1, 0, 32⟩, 2) := by decide +kernel
/-- inbox g4, g5. -/
theorem test_decode_inbox : decode false [0x18200A05, 0x00000000] = .ok (.inbox ⟨.next, 4, 5, false⟩, 2) := by decide +kernel
/-- hwait g6, h2, cluster, 0x01. -/
theorem test_decode_hwait : decode false [0x18308000, 0x00000021] = .ok (.hwait ⟨.next, 6, 2, false, 1, 1⟩, 2) := by decide +kernel
/-- unbind g6, sp2 by R201. -/
theorem test_decode_unbind : decode false [0x19308001, 0x00000000] = .ok (.unbind ⟨.next, 6, 2⟩, 2) := by decide +kernel
/-- gldv.y v0, 0(g5), of the convolution program. -/
theorem test_decode_gldv : decode true [0x1A014002, 0x20000000] = .ok (.gldv ⟨.next, 0, 5, false, 1, 0⟩, 2) := by decide +kernel
/-- tmld g4, g3, conv, of the convolution program. -/
theorem test_decode_tmld : decode true [0x1B20C000, 0x00000000] = .ok (.tmld ⟨.next, 4, 3, false, false, 0⟩, 2) := by decide +kernel
/-- vadd.i8 v1, v2, v3. -/
theorem test_decode_vadd : decode false [0x20123200] = .ok (.vadd ⟨.next, 1, 2, 3, .i8, 0⟩, 1) := by decide +kernel
/-- vfma.f32.rtz v2, v0, v1, m1. -/
theorem test_decode_vfma : decode false [0x21201E59] = .ok (.vfma ⟨.next, 2, 0, 1, .f32, 1, .rtz⟩, 1) := by decide +kernel
/-- vmul.vs.i16 v5, v6, g9. -/
theorem test_decode_vmulVs : decode false [0x22564A03] = .ok (.vmulVs ⟨.next, 5, 6, 9, .i16, 0⟩, 1) := by decide +kernel
/-- vbpack16.e4m3.bf16 v8, v4. -/
theorem test_decode_vbpack16 : decode false [0x2384D910] = .ok (.vbpack16 ⟨.next, 8, 4, .bf16, .e4m3, .rne⟩, 1) := by decide +kernel
/-- vperm.i8 v1, v2, v3, m1 by R43 and R168. -/
theorem test_decode_vperm : decode false [0x24123242] = .ok (.vperm ⟨.next, 1, 2, 3, .i8, 1⟩, 1) := by decide +kernel
/-- vdot.f32 v7, v2, v3. -/
theorem test_decode_vdot : decode false [0x25723E20] = .ok (.vdot ⟨.next, 7, 2, 3, .f32, 0, 0⟩, 1) := by decide +kernel
/-- vsqrt.f32 v4, v2 by R43 and R171. -/
theorem test_decode_vsqrt : decode false [0x26420E04] = .ok (.vsqrt ⟨.next, 4, 2, .f32, 0⟩, 1) := by decide +kernel
/-- vany.i4 p3, m2. -/
theorem test_decode_mprs : decode false [0x2732000B] = .ok (.vany ⟨.next, 3, 2, .i4⟩, 1) := by decide +kernel
/-- vchain g2, g1, g3, 8 by R174. -/
theorem test_decode_vchain : decode false [0x28104600, 0x00000008] = .ok (.vchain ⟨.next, 2, 1, 3, false, false, false, 8⟩, 2) := by decide +kernel
/-- vrdac.snoop v4, g1, g5. -/
theorem test_decode_vrdacSnoop : decode false [0x29204A00, 0x20000000] = .ok (.vrdacSnoop ⟨.next, 4, 1, 5, false, false⟩, 2) := by decide +kernel
/-- rinj.b g3, g1, g2. -/
theorem test_decode_rinjB : decode false [0x30184400, 0x10000000] = .ok (.rinj ⟨.next, 3, 1, 2, false, false, false, 1⟩, 2) := by decide +kernel
/-- rinjr.b g3, g10, g2, 5, 12, of the ring product program. -/
theorem test_decode_rinjr : decode true [0x301A8401, 0x1014C000] = .ok (.rinjr ⟨.next, 3, 10, 2, false, false, false, 1, 5, 12⟩, 2) := by decide +kernel
/-- jwr g5. -/
theorem test_decode_jwr : decode false [0x31014000, 0x00000000] = .ok (.jwr ⟨.next, 5, false⟩, 2) := by decide +kernel
/-- bar g6, 2, die, 0x02. -/
theorem test_decode_bar : decode false [0x32300002, 0x00012002] = .ok (.bar ⟨.next, 6, 2, 2, 2⟩, 2) := by decide +kernel
/-- sstep g7. -/
theorem test_decode_sstep : decode false [0x32380005, 0x00000000] = .ok (.sstep ⟨.next, 7⟩, 2) := by decide +kernel
/-- alease g1, g0, 0. -/
theorem test_decode_alease : decode false [0x38080000, 0x00000000] = .ok (.alease ⟨.next, 1, 0, false, 0⟩, 2) := by decide +kernel
/-- opass h2, g1, g3. -/
theorem test_decode_opass : decode false [0x38104602, 0x00000000] = .ok (.opass ⟨.next, 2, 1, 3, false, false, false⟩, 2) := by decide +kernel
/-- phdec h0, g1, g2. -/
theorem test_decode_phdec : decode false [0x39004401, 0x00000000] = .ok (.phdec ⟨.next, 0, 1, 2, false, false, false⟩, 2) := by decide +kernel
/-- pcast h2, g5 (R412). -/
theorem test_decode_pcast : decode false [0x3C114000, 0x00000000] = .ok (.pcast ⟨.next, 2, 5, false, false⟩, 2) := by decide +kernel
/-- fput.o h1, g2, g3, local, 64. -/
theorem test_decode_fput : decode false [0x3D088600, 0x10000040] = .ok (.fput ⟨.next, 1, 2, 3, false, false, false, true, 0, 64⟩, 2) := by decide +kernel
/-- fcut g6, g7. -/
theorem test_decode_fcut : decode false [0x3D018E04, 0x00000000] = .ok (.fcut ⟨.next, 6, 7, false, false⟩, 2) := by decide +kernel
/-- dmark g7 (R363). -/
theorem test_decode_dmark : decode false [0x3E01C002, 0x00000000] = .ok (.dmark ⟨.next, 7, false⟩, 2) := by decide +kernel
/-- Bit [23] of LDV's D, an unused EXT32, a TA bit on a predicate and a reserved FN are refused (R48, R49). -/
theorem test_decode_reserved : decode false [0x12800000] = .error .word0 ∧ decode false [0x0D000008, 1] = .error .ext ∧
    decode false [0x0C000004] = .error .word0 ∧ decode false [0x01000110] = .error .word0 := by decide +kernel
/-- A sequencing word of a reserved kind is refused with its unit (R24). -/
theorem test_decode_seq : decode false [0xC8000000, 0xE0000000] = .error .seq := by decide +kernel
/-! ### What WellFormed refuses -/

/-- R159. -/
theorem test_wf_vadd : Instr.wf (.vadd ⟨.next, 1, 2, 3, .f32, 0⟩) = false := by decide
/-- R159. -/
theorem test_wf_vneg : Instr.wf (.vneg ⟨.next, 1, 2, .f16, 0⟩) = false := by decide
/-- R159. -/
theorem test_wf_vabs : Instr.wf (.vabs ⟨.next, 1, 2, .n8, 0⟩) = false := by decide
/-- R159. -/
theorem test_wf_vaddw : Instr.wf (.vaddw ⟨.next, 2, 2, 3, .i32, 0⟩) = false := by decide
/-- R159. -/
theorem test_wf_vcmp : Instr.wf (.vcmpEq ⟨.next, 1, 2, 3, .bf16, 0⟩) = false := by decide
/-- R160. -/
theorem test_wf_vfadd : Instr.wf (.vfadd ⟨.next, 1, 2, 3, .e4m3, 0, .rne⟩) = false := by decide
/-- R160. -/
theorem test_wf_vfmulw : Instr.wf (.vfmulw ⟨.next, 2, 2, 3, .f32, 0, .rne⟩) = false := by decide
/-- R161. -/
theorem test_wf_vfmin : Instr.wf (.vfmin ⟨.next, 1, 2, 3, .i8, 0⟩) = false := by decide
/-- R161. -/
theorem test_wf_vfabs : Instr.wf (.vfabs ⟨.next, 1, 2, .x8, 0⟩) = false := by decide
/-- R161. -/
theorem test_wf_vfcmp : Instr.wf (.vfcmpUn ⟨.next, 1, 2, 3, .i8, 0⟩) = false := by decide
/-- R162. -/
theorem test_wf_vaddVs : Instr.wf (.vaddVs ⟨.next, 1, 2, 3, .x8, 0⟩) = false := by decide
/-- R162. -/
theorem test_wf_vandVs : Instr.wf (.vandVs ⟨.next, 1, 2, 3, .f32, 0⟩) = false := by decide
/-- R165. -/
theorem test_wf_vcvt : Instr.wf (.vcvt ⟨.next, 1, 2, .i4, .f32, 0, .rne⟩) = false := by decide
/-- R166. -/
theorem test_wf_vbpack : Instr.wf (.vbpack16 ⟨.next, 1, 2, .e4m3, .e4m3, .rne⟩) = false := by decide
/-- R167. -/
theorem test_wf_vbunpack : Instr.wf (.vbunpack16 ⟨.next, 1, 2, .x8, .f32, 0, .rne⟩) = false := by decide
/-- R169. -/
theorem test_wf_vgather : Instr.wf (.vgather ⟨.next, 1, 2, .i4, 0⟩) = false := by decide
/-- R169. -/
theorem test_wf_vscatter : Instr.wf (.vscatter ⟨.next, 1, 2, .i4, 0⟩) = false := by decide
/-- R170. -/
theorem test_wf_vrsum : Instr.wf (.vrsum ⟨.next, 1, 2, .x8, 0, 0⟩) = false := by decide
/-- R170. -/
theorem test_wf_vrsumw : Instr.wf (.vrsumw ⟨.next, 1, 2, .i32, 0, 0⟩) = false := by decide
/-- R170. -/
theorem test_wf_vdot : Instr.wf (.vdot ⟨.next, 1, 2, 3, .i32, 0, 0⟩) = false := by decide
/-- R170. -/
theorem test_wf_vdot2 : Instr.wf (.vdot2 ⟨.next, 1, 2, 3, .i8, 0, 0⟩) = false := by decide
/-- R171. -/
theorem test_wf_vsqrt : Instr.wf (.vsqrt ⟨.next, 1, 2, .i8, 0⟩) = false := by decide
/-- R171. -/
theorem test_wf_vref : Instr.wf (.vrefRcp ⟨.next, 1, 2, 3, .i8, 0⟩) = false := by decide
/-- R173. -/
theorem test_wf_viota : Instr.wf (.viota ⟨.next, 1, .f32, 0⟩) = false := by decide
/-- R173. -/
theorem test_wf_vmtov : Instr.wf (.vmtov ⟨.next, 1, 1, .x8, 0⟩) = false := by decide
/-- R173. -/
theorem test_wf_vvtom : Instr.wf (.vvtom ⟨.next, 1, 1, .x8, 0⟩) = false := by decide
/-- R190. -/
theorem test_wf_aop_load : Instr.wf (.aop ⟨.next, 1, 2, 3, false, false, false, false, 0, 0, 0, 0, 11, 0⟩) = false := by decide
/-- R120. -/
theorem test_wf_mfs : Instr.wf (.mfs ⟨.next, 1, 0x007⟩) = false := by decide
/-- R120. -/
theorem test_wf_mts : Instr.wf (.mts ⟨.next, 1, false, 0x000⟩) = false := by decide
/-- R190. -/
theorem test_wf_aop_scope : Instr.wf (.aop ⟨.next, 1, 2, 3, false, false, false, false, 0, 1, 6, 0, 0, 0⟩) = false := by decide
/-- R193. -/
theorem test_wf_hwait : Instr.wf (.hwait ⟨.next, 1, 2, false, 7, 0⟩) = false := by decide
/-- R193. -/
theorem test_wf_fence : Instr.wf (.fenceAcq ⟨.next, 6, 1⟩) = false := by decide
/-- R237. -/
theorem test_wf_bar : Instr.wf (.bar ⟨.next, 1, 0, 6, 0⟩) = false := by decide
/-- R243. -/
theorem test_wf_rtire : Instr.wf (.rtire ⟨.next, 1, 0, 3⟩) = false := by decide
/-- R317. -/
theorem test_wf_gred : Instr.wf (.gred ⟨.next, 1, 2, false, false, 12, 0⟩) = false := by decide
/-- Forms of the other kind of core (R50). -/
theorem test_wf_ramp : Instr.availableOn true (.rstart ⟨.next⟩) = false ∧ Instr.availableOn false (.tmwr ⟨.next, 1, false, 0⟩) = false := by decide

/-! ### The spec's worked examples -/

/-- A dword's bytes put into memory at a flat address, untainted. -/
def put8 (s : State) (a : Nat) (v : DWord) : State := s.poke a (bytesOf 8 v.toNat false)
/-- A local dword. -/
def local8 (s : State) (a : Nat) : DWord := BitVec.ofNat 64 (natOfBytes (s.mem.readN (localBase s.cur + a) 8))
/-- Dwords of the own local memory. -/
def locals (s : State) (xs : List (Nat × DWord)) : State := xs.foldl (fun s x => put8 s (localBase s.cur + x.1) x.2) s
/-- Dwords of the own yard. -/
def yards (s : State) (xs : List (Nat × DWord)) : State := xs.foldl (fun s x => put8 s (yardBase s.cur.cluster + x.1) x.2) s
/-- The unit of the issuing core. -/
def u0 : SvuId := .shared ⟨0, 0⟩ 0
/-- The yard's dword at an address. -/
def yard8 (s : State) (a : Nat) : DWord := BitVec.ofNat 64 (natOfBytes (s.mem.readN (yardBase s.cur.cluster + a) 8))
/-- The oldest copy's next unit moved, n times. -/
def copyUnits : Nat → State → State
  | 0, s => s
  | n + 1, s => copyUnits n (nextOf (exec (.copyUnit ⟨0, 0⟩ 0) s))

/-- A copy of eight bytes to the last dword of the yard; and the traps at the edges. -/
theorem witness_CopyAppends :
    (let s := gs (locals base [(0x7FF8, 0x55)]) [(1, 0x7FF8), (2, 0x7FFF8), (4, 0x7FF9)]
     let c : CpyO := ⟨.next, 1, 1, 2, false, false, false, 0, 1, 8⟩
     oks [s.ready (len2 .next) .next, s.fullG 1, s.fullG 2, (s.cluster ⟨0, 0⟩).copies.length == 0, (s.gangOf s.cur).rr == 0,
       (s.me.hreg 1).fill != .pending, s.me.rowWaits 0 0 1 ⟨0x7FF8, 0x7FFF8, 8⟩ == false,
       ((nextOf (exec (.cpy c) s)).cluster ⟨0, 0⟩).copies.length == 1,
       causeOf (exec (.cpy { c with len := 0 }) s) == some (.illegalOperand, 0),
       causeOf (exec (.cpy { c with a := 4 }) s) == some (.illegalOperand, 1),
       causeOf (exec (.cpy { c with len := 9 }) s) == some (.illegalOperand, 1),
       causeOf (exec (.cpy { c with b := 2, dsp := 0 }) s) == some (.illegalOperand, 2),
       causeOf (exec (.cpy { c with ssp := 3 }) (gs s [(1, 0xFC00000000000000)])) == some (.format, 0xFC00000000000000),
       causeOf (exec (.cpy { c with dsp := 3 }) (gs s [(2, 0xFC00000000000000)])) == some (.format, 0xFC00000000000000)])
      = true := by decide +kernel
/-- The command's one unit, its end and its handle: KIND 1, cluster 0, number 0, OK. -/
theorem witness_CopyEngineProgress :
    (let s := gs (locals base [(0x7FF8, 0x55)]) [(1, 0x7FF8), (2, 0x7FFF8)]
     let t := nextOf (exec (.cpy ⟨.next, 1, 1, 2, false, false, true, 0, 1, 8⟩) s)
     let u := copyUnits 1 t
     let v := nextOf (exec (.copyComplete ⟨0, 0⟩) u)
     oks [(t.cluster ⟨0, 0⟩).abortLine == false, yard8 u 0x7FFF8 == 0x55,
       ((u.cluster ⟨0, 0⟩).copies.map (·.status)) == [some 0], (v.me.hreg 1).val == 0x1000000000000000,
       (v.me.hreg 1).fill == .full, v.me.inbox.length == 1, (nextOf (exec (.copyComplete ⟨0, 0⟩) t)).me.inbox.length == 0,
       ((nextOf (exec (.copyUnit ⟨0, 0⟩ 0) (t.modCluster ⟨0, 0⟩ fun k => { k with abortLine := true }))).cluster
         ⟨0, 0⟩).copies.map (·.status) == [some 5],
       ((nextOf (exec (.copyUnit ⟨0, 0⟩ 0) (t.modCluster ⟨0, 0⟩ fun k =>
         { k with copies := k.copies.map fun c => { c with cancelled := true } }))).cluster
         ⟨0, 0⟩).copies.map (·.status) == [some 2]]) = true := by decide +kernel
/-- A strided copy of two rows of eight bytes: descriptor at local 0, source rows 16 apart, destination rows 8 apart. -/
theorem witness_StridedAndChainedCopies_strided :
    (let s := gs (locals base [(0, 0x100), (8, 0x200), (16, 0x0000000200000008), (24, 16), (32, 8), (40, 8),
       (0x100, 1), (0x110, 2)]) [(1, 0), (2, 4), (4, 0x7FC8)]
     let t := nextOf (exec (.cpyt ⟨.next, 1, 1, false, false⟩) s)
     let u := copyUnits 2 t
     oks [s.ready (len2 .next) .next, s.fullG 1, (s.gangOf s.cur).rr == 0, (s.gangOf s.cur).det == false,
       s.me.vecTouchesLocal 0 64 == false, s.bad (localBase s.cur) 64 == none,
       causeOf (exec (.cpyt ⟨.next, 1, 2, false, false⟩) s) == some (.alignment, 4),
       causeOf (exec (.cpyt ⟨.next, 1, 4, false, false⟩) s) == some (.illegalOperand, 1),
       (t.cluster ⟨0, 0⟩).copies.map (·.rows) == [[⟨0x100, 0x200, 8⟩, ⟨0x110, 0x208, 8⟩]],
       yard8 u 0x200 == 1, yard8 u 0x208 == 2, (u.cluster ⟨0, 0⟩).copies.map (·.status) == [some 0]]) = true := by
  decide +kernel
/-- Two chained records of the yard, at 0 and 32, each copying eight bytes of local memory to the yard. -/
theorem witness_StridedAndChainedCopies_chained :
    (let rec0 : DWord := BitVec.ofNat 64 ((8 + 1 * 2 ^ 23) + (2 ^ 31 + 32) * 2 ^ 32)
     let rec1 : DWord := BitVec.ofNat 64 (8 + 1 * 2 ^ 23)
     let s := gs (yards (locals base [(0x100, 1), (0x110, 2)])
       [(0, 0x100), (8, 0x200), (16, rec0), (32, 0x110), (40, 0x208), (48, rec1)]) [(1, 0)]
     let t := nextOf (exec (.cpyc ⟨.next, 1, 1, false⟩) s)
     oks [s.ready (len2 .next) .next, s.me.ystores.length == 0, s.me.vecTouchesYard 0 0x80000 == false,
       s.bad (yardBase s.cur.cluster) 32 == none, (t.cluster ⟨0, 0⟩).copies.map (·.seq) == [0, 1],
       (t.cluster ⟨0, 0⟩).copies.map (·.rows) == [[⟨0x100, 0x200, 8⟩], [⟨0x110, 0x208, 8⟩]],
       (t.cluster ⟨0, 0⟩).copies.map (·.doneWord) == [some 24, some 56],
       (t.cluster ⟨0, 0⟩).copies.map (·.h) == [none, some 1]]) = true := by decide +kernel

/-- A state whose launch runs in a partition that maps the first GiB of its addresses to themselves. -/
def mapped (s : State) : State :=
  let s : State := { s with
    parts := Tab.put none s.parts 0 (some ⟨1, 0x10000, 0, none, none, none⟩)
    vfs := Tab.put Vf.blank s.vfs 0 { Vf.blank with part := 0, s1root := 0x12000, assigned := true } }
  [(0x10000, 0x11003), (0x11000, 0xD), (0x12000, 0x13003), (0x13000, 0x14003), (0x14000, 0xD)].foldl
    (fun s x => put8 s x.1 x.2) s
/-- A dword of HBM. -/
def hbm8 (s : State) (a : Nat) : DWord := BitVec.ofNat 64 (natOfBytes (s.mem.readN a 8))

/-- The table of R95 and R96: minu.w, div, rem and their W32 forms. -/
theorem test_r96_table :
    (let s := gs base [(1, 0x80000000), (2, 0xFFFFFFFF), (4, -7), (5, 2), (6, 5)]
     gOf (exec (.minu ⟨.next, 3, 1, 2, false, false, true⟩) s) 3 = 0xFFFFFFFF80000000 ∧
     gOf (exec (.div ⟨.next, 3, 4, 5, false, false, false⟩) s) 3 = -3 ∧
     gOf (exec (.rem ⟨.next, 3, 4, 5, false, false, false⟩) s) 3 = -1 ∧
     gOf (exec (.div ⟨.next, 3, 6, 0, false, false, false⟩) s) 3 = 0xFFFFFFFFFFFFFFFF ∧
     gOf (exec (.rem ⟨.next, 3, 6, 0, false, false, false⟩) s) 3 = 5 ∧
     gOf (exec (.div ⟨.next, 3, 1, 2, false, false, true⟩) s) 3 = 0xFFFFFFFF80000000 ∧
     gOf (exec (.rem ⟨.next, 3, 1, 2, false, false, true⟩) s) 3 = 0 ∧
     gOf (exec (.divu ⟨.next, 3, 2, 0, false, false, true⟩) s) 3 = 0xFFFFFFFFFFFFFFFF) := by decide +kernel

/-- R99: li g1, 0 then lih g1, 1, 0x4040 leave the F32 value 3.0. -/
theorem test_r99_lih : gOf (exec (.lih ⟨.next, 1, 1, 0x4040⟩) (nextOf (exec (.li ⟨.next, 1, 0⟩) base))) 1 = 0x40400000 := by
  decide +kernel

/-- The examples of R101. -/
theorem test_r101_addai :
    causeOf (exec (.addai ⟨.next, 1, 2, 8⟩) (gs base [(2, 0x3CFFFFFFFFFFFFF8)])) = some (.format, 0x3CFFFFFFFFFFFFF8) ∧
    gOf (exec (.addai ⟨.next, 1, 2, 4⟩) (gs base [(2, 0x3CFFFFFFFFFFFFF8)])) 1 = 0x3CFFFFFFFFFFFFFC ∧
    gOf (exec (.addai ⟨.next, 1, 2, 8⟩) (gs base [(2, 0x3C00FFFFFFFFFFF8)])) 1 = 0x3C01000000000000 := by decide +kernel

/-- The routine of R107: 1/3 in three steps, each raising NX. -/
theorem test_r107_third :
    (let s := nextOf (exec (.frcp ⟨.next, 2, 1, false⟩) (gs base [(1, 0x40400000)]))
     let t := nextOf (exec (.frefRcp ⟨.next, 3, 1, 2, false, false⟩) s)
     let u := nextOf (exec (.frefRcp ⟨.next, 4, 1, 3, false, false⟩) t)
     u.me.gv 2 = 0x3EAAB000 ∧ u.me.gv 3 = 0x3EAAAAAA ∧ u.me.gv 4 = 0x3EAAAAAB ∧ u.me.fx = 1 ∧ u.me.gt 4 = false) := by
  decide +kernel

/-- The chain to E4M3 at the end of its chapter: four BF16 values doubled, one added, negative ones cut to zero. -/
theorem test_chain_example :
    (let s := gs (locals base [(0, 0x3DCC437AC0403FC0), (16, 0x0002809D), (24, 0x4000000000000004), (32, 0x3F80000000000001),
        (40, 7)]) [(1, 0), (2, 8), (3, 4)]
     let t := nextOf (exec (.vectorGrant u0) (nextOf (exec (.vchain ⟨.next, 2, 1, 3, false, false, false, 16⟩) s)))
     let d := nextOf (exec (.vectorComplete t.cur 0) { t with clock := 100000 })
     local8 d 8 = 0x3A7E0048 ∧ d.me.fx = 5 ∧ d.me.gv 2 = 8 ∧ d.me.inflight = []) := by decide +kernel

/-! ### Witnesses: scalar instructions -/

/-- A state with values in g1, g2 and g3. -/
def sA : State := gs base [(1, 0x40400000), (2, 0x40000000), (3, 7)]

/-- Operands that meet the hypotheses of the scalar statements. -/
theorem witness_IntegerResults : sA.ready (len1 .next) .next ∧ sA.fullG 1 ∧ sA.fullG 2 ∧ sA.freeG 3 ∧ sA.fullG 3 := by decide
theorem witness_ShiftInstructionResults : sA.ready (len1 .next) .next ∧ sA.fullG 1 ∧ sA.freeG 3 ∧
    causeOf (exec (.shli ⟨.next, 3, 1, true, 32⟩) sA) = some (.illegalOperand, 0) ∧
    gOf (exec (.shli ⟨.next, 3, 2, true, 31⟩) sA) 3 = 0 ∧ gOf (exec (.srai ⟨.next, 3, 2, false, 63⟩) sA) 3 = 0 := by
  decide +kernel
/-- Each corner of the division clauses, at width 64 and 32. -/
theorem witness_ProductAndDivisionResults :
    (let s := gs base [(1, 0x8000000000000000), (2, -1), (4, 0x80000000), (5, 0xFFFFFFFF)]
     s.ready (len1 .next) .next ∧ s.fullG 1 ∧ s.fullG 2 ∧ s.freeG 3 ∧ s.fullG 4 ∧ s.fullG 5 ∧
     (s.me.gv 1).toInt = -2 ^ 63 ∧ (s.me.gv 2).toInt = -1 ∧ ((s.me.gv 4).setWidth 32).toInt = -2 ^ 31 ∧
     ((s.me.gv 5).setWidth 32).toInt = -1 ∧ (s.me.gv 0).toInt = 0 ∧
     gOf (exec (.div ⟨.next, 3, 1, 2, false, false, false⟩) s) 3 = 0x8000000000000000 ∧
     gOf (exec (.mulh ⟨.next, 3, 1, 2, false, false⟩) s) 3 = 0 ∧
     gOf (exec (.clz ⟨.next, 3, 0, false, true⟩) s) 3 = 32) := by decide +kernel
/-- The pointer clauses at the edges of the address. -/
theorem witness_PointerResults :
    (let s := gs base [(1, 0x3CFFFFFFFFFFFFF8), (2, 8), (4, 7), (5, -1), (6, 0x3C00000000000000)]
     s.ready (len1 .next) .next ∧ s.fullG 1 ∧ s.fullG 2 ∧ s.freeG 3 ∧
     gOf (exec (.adda ⟨.next, 3, 1, 4, false, false⟩) s) 3 = 0x3CFFFFFFFFFFFFFF ∧
     causeOf (exec (.adda ⟨.next, 3, 1, 2, false, false⟩) s) = some (.format, 0x3CFFFFFFFFFFFFF8) ∧
     causeOf (exec (.adda ⟨.next, 3, 6, 5, false, false⟩) s) = some (.format, 0x3C00000000000000) ∧
     gOf (exec (.ptag ⟨.next, 3, 2, 4, false, false⟩) s) 3 = 0x0700000000000008) := by decide +kernel
theorem witness_CompareAndPredicateResults : sA.ready (len1 .next) .next ∧ sA.fullG 1 ∧ sA.fullG 2 ∧ sA.freeG 3 ∧
    ((nextOf (exec (.cmpiLtu ⟨.next, 2, 1, 0x3FFF⟩) sA)).me.preg 2).val = true ∧
    ((nextOf (exec (.cmpiLt ⟨.next, 2, 1, 0x3FFF⟩) sA)).me.preg 2).val = false ∧
    gOf (exec (.sel ⟨.next, 3, 1, 2, false, false⟩) sA) 3 = 0x40000000 := by decide +kernel
/-- 3 + 2, with stochastic rounding too, and an unordered compare. -/
theorem witness_FloatResults : sA.ready (len1 .next) .next ∧ sA.fullG 1 ∧ sA.fullG 2 ∧ sA.freeG 3 ∧ sA.fullG 3 ∧
    sA.me.vbusy = false ∧ gOf (exec (.fadd ⟨.next, 3, 1, 2, .rne, false, false⟩) sA) 3 = 0x40A00000 ∧
    (nextOf (exec (.fadd ⟨.next, 3, 1, 2, .rs, false, false⟩) sA)).me.gt 3 = true ∧
    (let s := gs base [(1, 0x7FC00000), (2, 0x40000000)]
     decodeVal .f32 ((s.me.gv 1).toNat % 2 ^ 32) = .nan ∧
     (nextOf (exec (.flt ⟨.next, 1, 1, 2, false, false⟩) s)).me.fx = Fx.nv ∧
     ((nextOf (exec (.fun ⟨.next, 1, 1, 2, false, false⟩) s)).me.preg 1).val = true) := by decide +kernel

/-! ### Witnesses: sequencing, flow, traps and system registers -/

/-- A state whose return stack and loop stack hold an entry. -/
def sB : State := base.modMe fun k => { k with rstack := [8], loops := [⟨0, 8, 1⟩] }
/-- What a transfer riding on nop does: its pc, or its trap. -/
def ride (q : Seq) (s : State) (pc : Word) (tr : Option (Cause × DWord)) : Bool :=
  let o := exec (.nop ⟨q⟩) s
  (nextOf o).me.pc == pc && causeOf o == tr

/-- Targets at both ends of the image of 12 bytes, in it and just outside. -/
theorem witness_SequencingParts :
    base.ready (len2 .next) .next ∧ base.ready (len2 (.jump 0)) (.jump 0) ∧ base.ready (len2 (.brT 7 0)) (.brT 7 0) ∧
    base.ready (len2 (.call 0)) (.call 0) ∧ base.ready (len2 (.jumpw 3)) (.jumpw 3) ∧ base.ready (len2 (.callw 3)) (.callw 3) ∧
    base.me.rpt = none := by decide +kernel
theorem witness_SequencingParts_targets : ride (.jump 0) base 8 none ∧ ride (.jump (-2)) base 0 none ∧
    ride (.jump 1) base 0 (some (.codeRange, 12)) ∧ ride (.jump (-3)) base 0 (some (.codeRange, -4)) ∧
    ride (.brT 7 0) base 8 none ∧ ride (.brT 0 0) base 12 none ∧ ride (.brF 0 0) base 8 none ∧
    ride (.call 0) base 8 none ∧ ride (.callw 3) (base.modMe fun k => k.writeW 3 8 false) 8 none ∧
    ride (.jumpw 3) (base.modMe fun k => k.writeW 3 6 false) 0 (some (.alignment, 6)) := by decide +kernel
/-- A return, a loop end with repetitions left and its last one, and a skip. -/
theorem witness_SequencingParts_stacks :
    (sB.modMe fun k => { k with loops := [] }).ready (len2 .ret) .ret ∧
    ride .ret (sB.modMe fun k => { k with loops := [] }) 8 none ∧
    (let s := base.modMe fun k => ({ k with loops := [⟨0, 4, 0⟩] } : Core).writeLc 0 ⟨2, false⟩
     s.ready (len2 .lend) .lend ∧ ride .lend s 0 none ∧
     ride .lend (nextOf (exec (.nop ⟨.lend⟩) s)) 8 none) ∧
    (let s := base.modMe fun k => k.writeP 0 true false
     s.ready (len2 .skip) .skip ∧ (s.me.preg 0).val = true ∧ s.unitRange s.cur 8 = none ∧ ride .skip s 12 none) := by
  decide +kernel
/-- A full return stack, and an empty one. -/
theorem witness_ReturnStackLimits :
    base.me.canIssue = true ∧ base.scalarCheck = none ∧ base.me.frameBreach 0 (len2 .ret) false = false ∧
    ride .ret base 0 (some (.stack, 0)) ∧
    ride (.call 0) (base.modMe fun k => { k with rstack := List.replicate 8 0 }) 0 (some (.stack, 8)) ∧
    ride (.call 0) (base.modMe fun k => { k with rstack := List.replicate 7 0 }) 8 none := by decide +kernel
/-- An empty source, and the trap bit. -/
theorem witness_EmptySourcesStall :
    (let s := base.modMe fun k => k.setGreg 1 ⟨0, .empty, false⟩
     s.ready (len1 .next) .next ∧ ¬s.fullG 1 ∧ s.fullG 2 ∧
     causeOf (exec (.add ⟨.next, 3, 1, 2, true, false, false⟩) s) = some (.emptyRead, 0x101) ∧
     causeOf (exec (.add ⟨.next, 3, 1, 2, false, false, false⟩) s) = none) := by decide +kernel
/-- Loops: the least and the greatest count, none, and one past the greatest. -/
theorem witness_LoopsAndRepeatFrames_loop : base.ready 2 .next ∧ base.me.rpt = none ∧ base.me.loops.length < 4 ∧
    base.me.loops.getLast? = none ∧
    ((nextOf (exec (.loop ⟨.next, 1, 1⟩) base)).me.loops = [⟨8, 8, 0⟩]) ∧ (nextOf (exec (.loop ⟨.next, 0, 1⟩) base)).me.pc = 12 ∧
    causeOf (exec (.loopReg ⟨.next, 1, false, 1⟩) (gs base [(1, 0x100000000)])) = some (.illegalOperand, 1) ∧
    (nextOf (exec (.loopReg ⟨.next, 1, false, 1⟩) (gs base [(1, 0xFFFFFFFF)]))).me.pc = 8 := by decide +kernel
/-- A frame of the one word after a repeat at address 0: li g0, 0. -/
def sR : State := State.reset.placeUnit [0x0D000002, 0x00020001, 0x08000000]
theorem witness_LoopsAndRepeatFrames_frame : sR.ready 2 .next ∧ sR.me.rpt = none ∧ 8 + 4 ≤ sR.codeLen sR.cur ∧
    sR.codeWord sR.cur 8 = 0x08000000 ∧ sR.me.loops = [] ∧
    (nextOf (exec (.rpt ⟨.next, 2, 1⟩) sR)).me.rpt = some ⟨8, 12, 2⟩ ∧ (nextOf (exec (.rpt ⟨.next, 0, 1⟩) sR)).me.pc = 12 := by
  decide +kernel
/-- The last word of a frame with repetitions left, its last repetition, and a word before the last. -/
theorem witness_RepeatEnd :
    (let s := fun a n => (gs base [(1, 1)]).modMe fun k => { k with rpt := some ⟨0, a, n⟩ }
     (s 4 2).ready 1 .next ∧ (s 4 1).ready 1 .next ∧ (s 8 1).ready 1 .next ∧ (s 4 2).fullG 1 ∧ (s 4 2).freeG 3 ∧
     (nextOf (exec (.add ⟨.next, 3, 1, 1, false, false, false⟩) (s 4 2))).me.pc = 0 ∧
     (nextOf (exec (.add ⟨.next, 3, 1, 1, false, false, false⟩) (s 4 1))).me.pc = 4 ∧
     (nextOf (exec (.add ⟨.next, 3, 1, 1, false, false, false⟩) (s 4 1))).me.rpt = none) := by decide +kernel
/-- Way registers at both limits of an operand. -/
theorem witness_WaysAndTaskBoundaries : base.ready (len2 .next) .next ∧ base.me.rpt = none ∧ base.freeG 3 ∧
    (let s := gs base [(1, 0xFFFFFFFC), (2, 0x100000000)]
     s.fullG 1 ∧ ((nextOf (exec (.setwReg ⟨.next, 2, 1, false⟩) s)).me.wreg 2).val = 0xFFFFFFFC ∧
     causeOf (exec (.setwReg ⟨.next, 2, 2, false⟩) s) = some (.illegalOperand, 1) ∧
     causeOf (exec (.setw ⟨.next, 2, 2⟩) s) = some (.illegalOperand, 0) ∧
     (nextOf (exec (.done ⟨.next⟩) s)).me.running = false) := by decide +kernel
theorem witness_LaunchBodyStarts :
    (let s := base.modMe fun k => { k with running := false, bodyPending := true }
     s.atBoundary s.cur = true ∧ (s.core s.cur).bodyPending = true ∧ s.aborted s.cur = false ∧
     (nextOf (exec (.taskStart s.cur) s)).me.running = true) := by decide +kernel
/-- A core that receives a list of two routines (the environment's turn) and begins the second; and one with none left. -/
theorem witness_RoutineStarts :
    (let c := base.cur
     let s := (base.modMe fun k => { k with running := false, bodyPending := false }).turn (.routines c [⟨8, 1, 2, 3⟩, ⟨4, 5, 6, 7⟩])
     let one := s.1.modMe fun k => { k with rliNext := 1 }
     let t := nextOf (exec (.taskStart c) one)
     oks [one.atBoundary c, (one.core c).bodyPending == false, (one.core c).stationQ.isEmpty, one.aborted c == false, t.me.running,
       t.me.pc == 4, t.me.ci == 5, t.me.cj == 6, t.me.ck == 7, t.me.src == 0, t.me.rli == 1, (nextOf (exec (.taskStart c) s.1)).me.pc == 8,
       (nextOf (exec (.taskStart c) (nextOf (exec (.taskStart c) (t.modMe fun k => { k with running := false }))))).me.running == false]) = true := by
  decide +kernel
theorem witness_TrapsAreTaken : base.ready (len2 .next) .next ∧ base.me.canIssue = true ∧ base.scalarCheck = none ∧
    causeOf (exec (.trap ⟨.next, 7⟩) base) = some (.software, 7) ∧
    causeOf (exec (.reservedWord 0 0 0) base) = some (.reservedCode, 0) := by decide +kernel
/-- Every register number of R120, read; and the values at the edges of ROLE, SHARE and MODE, written. -/
theorem witness_SystemRegisters : base.ready (len2 .next) .next ∧ base.freeG 3 ∧ base.me.vbusy = false ∧
    (base.launchOf base.cur).rcd.red = false ∧ base.cur = .ord 0 0 0 ∧ rbase.cur = .ramp 0 0 ∧
    gOf (exec (.mfs ⟨.next, 3, 0x008⟩) base) 3 = 0x41 ∧ gOf (exec (.mfs ⟨.next, 3, 0x00A⟩) base) 3 = 64 ∧
    gOf (exec (.mfs ⟨.next, 3, 0x005⟩) base) 3 = 1 := by decide +kernel
theorem witness_SystemRegisterWrites :
    (let s := gs base [(1, 0x42), (2, 0x43), (4, 0x50), (5, 16)]
     s.ready (len2 .next) .next ∧ s.fullG 1 ∧ s.me.vbusy = false ∧ (s.launchOf s.cur).rcd.priv = false ∧
     (nextOf (exec (.mts ⟨.next, 1, false, 0x008⟩) s)).me.role = 2 ∧
     causeOf (exec (.mts ⟨.next, 2, false, 0x008⟩) s) = some (.illegalOperand, 1) ∧
     causeOf (exec (.mts ⟨.next, 4, false, 0x008⟩) s) = some (.illegalOperand, 1) ∧
     causeOf (exec (.mts ⟨.next, 5, false, 0x009⟩) s) = some (.illegalOperand, 1) ∧
     causeOf (exec (.mts ⟨.next, 1, false, 0x00A⟩) s) = some (.privilege, 0x00A)) := by decide +kernel
/-- A level-1 launch, for AGE and MODE. -/
def base1 : State := base.modLaunch 0 fun l => { l with rcd := { l.rcd with priv := true } }
theorem witness_SystemRegisterWrites_level1 :
    (let s := gs base1 [(1, 0x10007), (2, 6), (4, 2)]
     s.ready (len2 .next) .next ∧ s.fullG 1 ∧ (s.launchOf s.cur).rcd.priv = true ∧ (s.gangOf s.cur).pendingMode = none ∧
     ((nextOf (exec (.mts ⟨.next, 1, false, 0x00A⟩) s)).svu u0).age = 7 ∧
     causeOf (exec (.mts ⟨.next, 2, false, 0x00B⟩) s) = some (.illegalOperand, 1) ∧
     ((nextOf (exec (.mts ⟨.next, 4, false, 0x00B⟩) s)).gangOf s.cur).pendingMode ≠ none) := by decide +kernel
/-- mfs, mts and capr complete: the registers they wait for are settled, and the values at the edges of what mts may write. -/
theorem witness_SystemRegisters_complete :
    (let s := gs base1 [(1, 0x10), (2, 1), (4, 0xFFFFFFFFFFFFFFFF), (5, 8), (6, 0x42)]
     let mts (a : BitVec 5) (n : BitVec 12) : State := nextOf (exec (.mts ⟨.next, a, false, n⟩) s)
     s.ready (len2 .next) .next ∧ s.fullG 1 ∧ s.fullG 2 ∧ s.fullG 4 ∧ s.fullG 5 ∧ s.fullG 6 ∧ s.freeG 3 ∧ s.me.rsPending = false ∧
     s.me.flagsPending = false ∧ (s.launchOf s.cur).rcd.priv = true ∧ (s.gangOf s.cur).rr = 0 ∧
     (mts 1 0x008).me.pc = 8 ∧ (mts 1 0x008).me.maxlg = 1 ∧ (mts 6 0x008).me.role = 2 ∧ (mts 2 0x009).me.weight = 1 ∧
     (mts 4 0x00A).me.park = none ∧ (mts 0 0x00B).me.pc = 8 ∧ (mts 4 0x005).me.pc = 8 ∧ (mts 4 0x006).me.pc = 8 ∧
     (nextOf (exec (.mfs ⟨.next, 3, 0x00B⟩) s)).me.pc = 8 ∧ (s.me.gv 5).toNat % 8 = 0) := by decide +kernel
theorem witness_CapabilityReads :
    (let s := gs base [(1, 4), (2, 8)]
     s.ready (len2 .next) .next ∧ s.fullG 1 ∧ s.freeG 3 ∧ s.fullG 2 ∧ s.me.gv 2 = 8 ∧
     causeOf (exec (.capr ⟨.next, 3, 1, false⟩) s) = some (.alignment, 4)) := by decide +kernel

/-! ### Witnesses: vector instructions -/

/-- A state with i8 elements in v2 and v3: 127, -128, 5 and 1, -1, 3. -/
def sV : State := base.modMe fun k =>
  (k.setVreg 2 ⟨packV 8 [127, 0x80, 5], .full, false⟩).setVreg 3 ⟨packV 8 [1, 0xFF, 3], .full, false⟩
/-- An instruction queued, granted and completed. -/
def vrun (i : Instr) (s : State) : State :=
  let t := nextOf (exec (.vectorGrant u0) (nextOf (exec i s)))
  nextOf (exec (.vectorComplete t.cur 0) { t with clock := 1000000 })
/-- The first elements of a vector register. -/
def vel (s : State) (d : BitVec 4) (w n : Nat) : List Nat := (List.range n).map fun i => elemOf w (s.me.vreg d).val i

theorem witness_ArithmeticVectorsQueue : sV.ready (len1 .next) .next ∧ sV.queueRoom ∧
    sV.me.vopTrap ⟨.int .add false, 1, 2, 3, .i8, .i8, 0, .rne, 0, 0⟩ = none ∧
    sV.me.vopTrap ⟨.flt .add, 1, 2, 3, .f32, .f32, 0, .rne, 0, 0⟩ = none ∧ sV.fullG 9 ∧
    (nextOf (exec (.vmulVs ⟨.next, 5, 6, 9, .i16, 0⟩) sV)).me.vq.length = 1 := by decide +kernel
theorem witness_OtherVectorsQueue : sV.ready (len2 .next) .next ∧ sV.queueRoom ∧ sV.fullG 1 ∧ sV.fullG 2 ∧
    sV.me.vopTrap ⟨.red .sum, 1, 2, 0, .i8, .i8, 0, .rne, 0, 0⟩ = none ∧
    sV.me.vopTrap ⟨.rdac false, 4, 4, 0, .f32, .f32, 0, .rne, 0, 0⟩ = none ∧
    (nextOf (exec (.aclr ⟨.next, 1, 2, false, false, 256⟩) sV)).me.vq.length = 1 := by decide +kernel
/-- Lanes at the edges of i8, modular and saturated, and under a mask. -/
theorem witness_VectorLanesAndCompletion :
    (vel (vrun (.vadd ⟨.next, 1, 2, 3, .i8, 0⟩) sV) 1 8 3 = [0x80, 0x7F, 8]) ∧
    (vel (vrun (.vadds ⟨.next, 1, 2, 3, .i8, 0⟩) sV) 1 8 3 = [0x7F, 0x80, 8]) ∧
    (vel (vrun (.vmulh ⟨.next, 1, 2, 2, .i8, 0⟩) sV) 1 8 3 = [63, 64, 0]) ∧
    (vel (vrun (.vabs ⟨.next, 1, 2, .i8, 0⟩) sV) 1 8 3 = [127, 0x80, 5]) ∧
    (vel (vrun (.vadd ⟨.next, 1, 2, 3, .i8, 1⟩) (sV.modMe fun k => k.setMreg 1 ⟨4, .full, false⟩)) 1 8 3 = [0, 0, 8]) := by
  decide +kernel
/-- A granted instruction before its results are due, and when they are. -/
theorem witness_VectorsComplete :
    (let s := nextOf (exec (.vectorGrant u0) (nextOf (exec (.vadd ⟨.next, 1, 2, 3, .i8, 0⟩) sV)))
     oks [(s.me.inflight[0]?).isSome, (s.me.inflight[0]?.map fun i => decide (s.clock < i.due)) == some true,
       (s.me.inflight[0]?.map (·.writes.length)) == some 1,
       (nextOf (exec (.vectorComplete s.cur 0) s)).me.inflight.length == 1,
       (vrun (.vadd ⟨.next, 1, 2, 3, .i8, 0⟩) sV).me.inflight.length == 0]) = true := by decide +kernel

/-! ### Witnesses: local memory, yard and copies -/

/-- Addresses at every edge of local memory. -/
theorem witness_LocalLoadsAndStores :
    (let s := gs (locals base [(0x7FF8, 0x1122334455667788)]) [(1, 0x7FF8), (2, 0x8000), (4, 0x7FF1), (5, 0x99)]
     oks [s.ready (len1 .next) .next, s.fullG 1, s.freeG 3, s.me.vecTouchesLocal 0x7FF8 8 == false,
       (s.gangOf s.cur).det == false, gOf (exec (.ld ⟨.next, 3, 1, 0⟩) s) 3 == 0x1122334455667788,
       causeOf (exec (.ld ⟨.next, 3, 2, 0⟩) s) == some (.illegalOperand, 1),
       causeOf (exec (.ld ⟨.next, 3, 0, -1⟩) s) == some (.illegalOperand, 1),
       causeOf (exec (.st ⟨.next, 3, 4, 0⟩) s) == some (.alignment, 0x7FF1),
       local8 (nextOf (exec (.st ⟨.next, 5, 1, -1⟩) s)) 0x7FF0 == 0x99,
       causeOf (exec (.ld ⟨.next, 3, 1, 0⟩) { s with poison := Tab.put false s.poison (localBase s.cur + 0x7FF8) true })
         == some (.localUncorrectable, 0x7FF8)]) = true := by decide +kernel
/-- The same of the yard, with a store that a load sees before its bank performs it, and after. -/
theorem witness_YardLoadsAndStores :
    (let s := gs (yards base [(0, 7)]) [(1, 0x7FFF8), (2, 0x80000), (4, 0x7FFF1), (5, 0x99)]
     let t := nextOf (exec (.sty ⟨.next, 5, 1, 0⟩) s)
     oks [s.ready (len1 .next) .next, s.cur.isRamp == false, rbase.ready (len1 .next) .next, rbase.cur.isRamp == true,
       causeOf (exec (.sty ⟨.next, 3, 1, 0⟩) rbase) == some (.illegalOperand, 1),
       gOf (exec (.ldy ⟨.next, 3, 0, 0⟩) s) 3 == 7, causeOf (exec (.ldy ⟨.next, 3, 2, 0⟩) s) == some (.illegalOperand, 1),
       causeOf (exec (.ldy ⟨.next, 3, 4, 0⟩) s) == some (.alignment, 0x7FFF1), t.me.ystores.length == 1,
       gOf (exec (.ldy ⟨.next, 3, 1, 0⟩) t) 3 == 0x99,
       gOf (exec (.ldy ⟨.next, 3, 1, 0⟩) (nextOf (exec (.yardStorePerform t.cur) t))) 3 == 0x99]) = true := by
  decide +kernel
/-- The edges of a vector access, and a word a scrubber visits. -/
theorem witness_VectorMemoryAndScrubbing :
    (let s := gs base [(1, 0x7E00), (2, 0x7E40), (4, 0x7DC1)]
     oks [s.ready (len1 .next) .next, s.queueRoom, s.fullG 1, s.me.vopTrap ⟨.ldv, 1, 1, 0, .i8, .i8, 0, .rne, 0, 0x7E00⟩ == none,
       (nextOf (exec (.ldv ⟨.next, 1, 1, 0⟩) s)).me.vq.length == 1,
       causeOf (exec (.stv ⟨.next, 1, 2, 0⟩) s) == some (.illegalOperand, 1),
       causeOf (exec (.ldv ⟨.next, 1, 4, 0⟩) s) == some (.alignment, 0x7DC1),
       causeOf (exec (.ldvy ⟨.next, 1, 0, 0⟩) rbase) == some (.illegalOperand, 1),
       Tab.get false (nextOf (exec (.localScrub s.cur 1)
         { s with uncorr := Tab.put false [] (localBase s.cur + 8) true })).poison (localBase s.cur + 8)]) = true := by
  decide +kernel

/-! ### Witnesses: atomics, handles, inbox, fences and streams -/


/-- An add of 5 to the dword at 0x20000, from its issue to its performance and its fills; and the traps at its edges. -/
theorem witness_Atomics :
    (let s := gs (put8 (mapped base) 0x20000 7) [(1, 0x20000), (2, 5), (4, 0x20004), (5, 0xFC00000000000000)]
     let o : AopO := ⟨.next, 3, 1, 2, false, false, false, false, 1, 0, 0, 0, 2, 1⟩
     let t := nextOf (exec (.aop o) s)
     let u := nextOf (exec (.atomicPerform t.cur 0) t)
     let v := nextOf (exec (.producerFill u.cur) u)
     oks [s.ready (len2 .next) .next, s.fullG 1, s.fullG 2, s.freeG 3, s.me.phase == .idle, (s.me.hreg 1).fill != .pending,
       t.me.atomics.length == 1, t.me.atomics.map (·.token) == [none], (t.gangOf t.cur).rr == 0, (t.gangOf t.cur).det == false,
       (t.launchOf t.cur).rcd.red == false, t.xlate (t.launchIx t.cur) 0x20000 2 == .ok 0x20000, t.bad 0x20000 8 == none,
       decide t.noCast, hbm8 u 0x20000 == 12, u.me.arrivals.length == 2, v.me.gv 3 == 7, v.me.gt 3, v.me.arrivals.length == 1,
       causeOf (exec (.aop { o with op := 10 }) s) == some (.illegalOperand, 0),
       causeOf (exec (.aop { o with a := 5 }) s) == some (.format, 0xFC00000000000000),
       causeOf (exec (.aop { o with a := 4 }) s) == some (.alignment, 0x20004),
       (nextOf (exec (.aop { o with ord := 1, scope := 3, smask := 4 }) s)).me.phase == .capture 0]) = true := by decide +kernel
/-- A core with a result on its way to g3, to v2 and to h1. -/
theorem witness_FillsAndHandles_fills :
    (let s := fun x => (base.modMe fun k => ({ k with arrivals := [x] } : Core).pendG 3)
     let v := fun x => ((s x).modMe fun k => (k.setVreg 2 ⟨0, .pending, false⟩).setHreg 1 ⟨0, .pending, false⟩)
     oks [((s (.g 3 9 true)).me.greg 3).fill == .pending, gOf (exec (.producerFill base.cur) (s (.g 3 9 true))) 3 == 9,
       ((nextOf (exec (.producerFill base.cur) (v (.v 2 1 false)))).me.vreg 2).fill == .full,
       ((nextOf (exec (.producerFill base.cur) (v (.h 1 5 false)))).me.hreg 1).val == 5]) = true := by decide +kernel
/-- Full, empty and awaited handles, and a raised abort line. -/
theorem witness_FillsAndHandles_reads :
    (let s := base.modMe fun k => (k.writeH 2 0x77 false).setHreg 4 ⟨0, .empty, false⟩
     let ab := s.modCluster ⟨0, 0⟩ fun k => { k with abortLine := true }
     oks [s.ready (len2 .next) .next, s.aborted s.cur == false, ab.aborted s.cur, (s.me.hreg 2).fill == .full, s.freeG 6,
       (s.gangOf s.cur).rr == 0, gOf (exec (.hwait ⟨.next, 6, 2, false, 1, 1⟩) s) 6 == 0x77,
       causeOf (exec (.hwait ⟨.next, 6, 2, false, 1, 1⟩) ab) == some (.aborted, 3),
       causeOf (exec (.hwait ⟨.next, 6, 4, true, 1, 1⟩) s) == some (.emptyRead, 0x304),
       (nextOf (exec (.hwait ⟨.next, 6, 4, false, 1, 1⟩) s)).me.pc == 0,
       ((nextOf (exec (.htest ⟨.next, 1, 2⟩) s)).me.preg 1).val, !((nextOf (exec (.htest ⟨.next, 1, 4⟩) s)).me.preg 1).val,
       ((nextOf (exec (.hmovH ⟨.next, 5, 2, false⟩) s)).me.hreg 5).val == 0x77]) = true := by decide +kernel
/-- A copy that has not started is cancelled through its handle. -/
theorem witness_FillsAndHandles_cancels :
    (let s := nextOf (exec (.cpy ⟨.next, 1, 1, 2, false, false, false, 0, 1, 8⟩) (gs base [(1, 0), (2, 0)]))
     let t := nextOf (exec (.hcancel ⟨.next, 1⟩) s)
     oks [s.ready (len2 .next) .next, (s.me.hreg 1).fill == .pending, (s.me.hreg 2).fill != .pending,
       (t.cluster ⟨0, 0⟩).copies.map (·.status) == [some 2], t.me.hCancelled == 2]) = true := by decide +kernel
/-- An inbox with a message, an empty one with and without messages owed, and with the abort line raised. -/
theorem witness_InboxAndFences_inbox :
    (let m : InboxMsg := { hw := 5, val := 6, taint := false }
     let s := base.modMe fun k => { k with inbox := [m], owed := 1 }
     let w := base.modMe fun k => { k with owed := 1 }
     let ab := w.modCluster ⟨0, 0⟩ fun k => { k with abortLine := true }
     oks [s.ready (len2 .next) .next, (s.gangOf s.cur).rr == 0, s.freeG 4, s.freeG 5,
       gOf (exec (.inbox ⟨.next, 4, 5, false⟩) s) 4 == 5, gOf (exec (.inbox ⟨.next, 4, 5, false⟩) s) 5 == 6,
       (nextOf (exec (.inbox ⟨.next, 4, 5, false⟩) s)).me.gt 4 == false,
       causeOf (exec (.inbox ⟨.next, 4, 4, false⟩) s) == some (.illegalOperand, 2),
       gOf (exec (.inbox ⟨.next, 4, 5, true⟩) w) 4 == 0, (nextOf (exec (.inbox ⟨.next, 4, 5, true⟩) w)).me.gt 4,
       causeOf (exec (.inbox ⟨.next, 4, 5, false⟩) base) == some (.illegalOperand, 0),
       causeOf (exec (.inbox ⟨.next, 4, 5, false⟩) ab) == some (.aborted, 3),
       (nextOf (exec (.inbox ⟨.next, 4, 5, false⟩) w)).me.pc == 0]) = true := by decide +kernel
/-- Fences with nothing outstanding and with an atomic outstanding; and empty. -/
theorem witness_InboxAndFences_fences :
    (let s := nextOf (exec (.aop ⟨.next, 3, 1, 2, false, false, false, false, 1, 0, 0, 0, 2, 1⟩) (gs base [(1, 0x20000)]))
     oks [base.ready (len2 .next) .next, base.me.vq.length == 0, base.me.atomics.length == 0, s.me.atomics.length == 1,
       (nextOf (exec (.fenceFull ⟨.next, 5, 31⟩) base)).me.pc == 8, (nextOf (exec (.fenceAcq ⟨.next, 5, 4⟩) s)).me.pc == 8,
       (nextOf (exec (.fenceRel ⟨.next, 5, 3⟩) s)).me.pc == 16,
       ((nextOf (exec (.emptyG ⟨.next, 4⟩) base)).me.greg 4).fill == .empty, base.me.vecNames 2 == false,
       ((nextOf (exec (.emptyV ⟨.next, 2⟩) base)).me.vreg 2).fill == .empty,
       ((nextOf (exec (.emptyH ⟨.next, 2⟩) base)).me.hreg 2).fill == .empty]) = true := by decide +kernel

/-- v12 bound as an output, and v13 as an input, of the ring of one element at yard 0x200 with its descriptor at 0. -/
def sS : State :=
  let s := nextOf (exec (.bind ⟨.next, 0, 1, 2, false, false, 1⟩) (gs base [(1, 0x200), (2, 0)]))
  nextOf (exec (.bind ⟨.next, 1, 1, 2, false, false, 0⟩) s)
/-- Rings at the edges of the yard, a register already bound, and a ramp channel. -/
theorem witness_StreamPorts_binds :
    (let s := gs base [(1, 0x200), (2, 0), (4, 0x7FE00), (5, 0x100200), (6, 0x80200), (7, 0x7FFE0), (8, 0x200), (9, 0x300)]
     let b : BindO := ⟨.next, 2, 1, 2, false, false, 1⟩
     oks [s.ready (len2 .next) .next, s.me.vecNames 14 == false, s.me.portOf 14 == none, s.fullG 1, s.fullG 2,
       s.me.vecTouchesYard 0 32 == false, s.bad (yardBase ⟨0, 0⟩) 32 == none, ((nextOf (exec (.bind b) s)).me.portOf 14).isSome,
       ((nextOf (exec (.bind { b with a := 4 }) s)).me.portOf 14).isSome,
       ((nextOf (exec (.bind { b with a := 5, b := 7 }) s)).me.portOf 14).isSome,
       causeOf (exec (.bind { b with a := 6 }) s) == some (.illegalOperand, 1),
       causeOf (exec (.bind { b with b := 8 }) s) == some (.illegalOperand, 2),
       causeOf (exec (.bind { b with a := 9 }) s) == some (.illegalOperand, 1),
       causeOf (exec (.bind { b with n := 0 }) sS) == some (.illegalOperand, 3),
       ((nextOf (exec (.bind { b with kind := 2, a := 0, b := 0 }) s)).me.portOf 14).isSome]) = true := by decide +kernel
/-- An element passes from the output port to the ring and on to the input port; then both are released. -/
theorem witness_StreamPorts_elements :
    (let s := sS.modMe fun k => { k with ports := k.ports.map fun x =>
        if x.1 = 0 then (x.1, x.2.map fun p => { p with buf := [(0x77, false)] }) else x }
     let t := nextOf (exec (.youtElementWrite s.cur 0) s)
     let u := nextOf (exec (.yinReadAhead t.cur 1) t)
     let e := fun x => nextOf (exec (.unbind ⟨.next, 6, x⟩) u)
     oks [sS.me.portOf 12 != none, (s.me.portOf 12).map (·.buf.length) == some 1, yard8 t 0 == 1, yard8 t 0x200 == 0x77,
       (u.me.portOf 13).map (·.buf.map (·.1)) == some [0x77], (e 0).me.portOf 12 == none, (e 1).me.portOf 13 == none,
       gOf (exec (.unbind ⟨.next, 6, 0⟩) base) 6 == 0, (nextOf (exec (.unbind ⟨.next, 6, 0⟩) s)).me.pc == s.me.pc,
       yard8 (e 0) 16 == 2]) = true := by decide +kernel

/-- A unit with one eligible head, granted; a head that waits; and a trap noted and delivered. -/
theorem witness_SharedVectorUnit :
    (let s := nextOf (exec (.vadd ⟨.next, 1, 2, 3, .i8, 0⟩) sV)
     let t := nextOf (exec (.vectorGrant u0) s)
     let a := nextOf (exec (.headAged s.cur) s)
     let b := nextOf (exec (.headAged s.cur) { a with clock := a.clock + 64 })
     let x := s.modMe fun k => { k with pendingTrap := k.vq.head?.map fun e => (illegal 1, e) }
     oks [decide (s.cur ∈ u0.cores), u0.cores.all fun d => d == s.cur || (s.core d).vq.length == 0,
       u0.cores.all fun d => (s.core d).inflight.length == 0, s.me.vq.all fun e => s.eligible s.cur e, s.checkFail == none,
       s.me.portOf 1 == none, t.me.inflight.map (·.lanes) == [4], t.me.service == 32, (t.me.vreg 1).fill == .pending,
       a.me.vq.map (·.aged) == [false], b.me.vq.map (·.aged) == [true],
       x.me.park == none, causeOf (exec (.vectorTrapDelivery s.cur) x) == some (.illegalOperand, 1),
       (nextOf (exec (.vectorTrapDelivery s.cur) x)).me.tiPc == 0]) = true := by decide +kernel

/-! ### Witnesses: supervisor, convoys and supersteps -/

/-- A state whose task trap 7 is at address 0, taken, under a policy for SOFTWARE. -/
def sT (policy : Nat) : State :=
  let s := (State.reset.placeUnit [0x0E000000, 7, 0]).modLaunch 0 fun l =>
    { l with rcd := { l.rcd with policy := BitVec.ofNat 64 (policy * 2 ^ 48) },
             gangs := l.gangs.map fun g => { g with members := [.ord 0 0 0, .ord 0 0 1] } }
  nextOf (exec (.trap ⟨.next, 7⟩) s)
/-- Each action, by policy or by default; and a core that is not parked. -/
theorem witness_SupervisorAndTaskEvents_actions :
    (let c : CoreId := .ord 0 0 0
     let other (s : State) : State := s.modCore (.ord 0 0 1) fun k => { k with launch := some 0 }
     oks [base.me.park == none, (sT 0).me.park.isSome, ((sT 0).launchOf c).state == .running,
       ((nextOf (exec (.supervisorKill c) (sT 0))).launch 0).state == .ended 1,
       (nextOf (exec (.supervisorRetry c) (sT 3))).me.running, (nextOf (exec (.supervisorRetry c) (sT 3))).me.pc == 0,
       (nextOf (exec (.supervisorRetry c) (sT 3))).me.tiAttempt == 1, (sT 3).me.sideLog.length == 0,
       (sT 4).seqAt c == some (2, .next), (sT 4).me.frameBreach 0 2 false == false,
       (nextOf (exec (.supervisorResume c) (sT 4))).me.pc == 8, (other (sT 5)).ended (.ord 0 0 1) == false,
       (nextOf (exec (.supervisorLeave c) (other (sT 5)))).me.left,
       (nextOf (exec (.supervisorLeave c) (sT 0))).me.left == false]) = true := by decide +kernel
/-- The watchdog at its limit and one cycle before; a core done with its part; the ends of the code image. -/
theorem witness_SupervisorAndTaskEvents_events :
    (let c : CoreId := .ord 0 0 0
     let s := base.modLaunch 0 fun l => { l with rcd := { l.rcd with wdog := 10 } }
     let e := base.modMe fun k => { k with running := false }
     let two := (e.modLaunch 0 fun l => { l with gangs := l.gangs.map fun g => { g with members := [c, .ord 0 0 1] } }).modCore
       (.ord 0 0 1) fun k => { k with launch := some 0 }
     oks [causeOf (exec (.watchdog c) { s with clock := 10 }) == some (.watchdog, 10),
       causeOf (exec (.watchdog c) { s with clock := 9 }) == none, base.partDone c == false, two.partDone c,
       two.ended (.ord 0 0 1) == false, (nextOf (exec (.corePartEnd c) two)).me.partEnded,
       Tab.get none (nextOf (exec (.codeFetchFill c 8) { base with mem := [] })).me.istore 8 == some 0,
       base.codeLen c == 12, Tab.get none (nextOf (exec (.codeFetchFill c 12) base)).me.istore 12 == none]) = true := by
  decide +kernel

/-- A launch with convoy 2 of its die declared, EXPECT 1. -/
def sC : State := base.modLaunch 0 fun l => { l with convoys := Tab.put none [] 2 (some ⟨1, [], false, 0, false, [], [], []⟩) }
/-- Joined, arrived at bar, the generation complete, and bar over. -/
theorem witness_ConvoysAndGenerations :
    (let c : CoreId := .ord 0 0 0
     let v (s : State) : Option Convoy := Tab.get none (s.launch 0).convoys 2
     let j := nextOf (exec (.join ⟨.next, 2⟩) sC)
     let b := nextOf (exec (.bar ⟨.next, 6, 0, 1, 2⟩) j)
     let d := nextOf (exec (.generationComplete 0 0 2) b)
     let ab := b.modCluster ⟨0, 0⟩ fun k => { k with abortLine := true }
     oks [sC.ready (len2 .next) .next, (v sC).isSome, Tab.get none (sC.launchOf c).convoys 3 == none, sC.aborted c == false,
       causeOf (exec (.join ⟨.next, 3⟩) sC) == some (.illegalOperand, 0), causeOf (exec (.leave ⟨.next, 0⟩) sC) == some (.illegalOperand, 0),
       (v j).map (·.members) == some [c], (v j).map (·.mustered) == some true, j.me.performed 0,
       causeOf (exec (.bar ⟨.next, 6, 0, 1, 2⟩) sC) == some (.illegalOperand, 0), b.me.phase == .bar 2 0,
       (v b).map (·.arrived) == some [c], d.me.phase == .barDone 1, gOf (exec (.bar ⟨.next, 6, 0, 1, 2⟩) d) 6 == 1,
       causeOf (exec (.bar ⟨.next, 6, 0, 1, 2⟩) ab) == some (.aborted, 1),
       (v (nextOf (exec (.leave ⟨.next, 2⟩) j))).map (·.members) == some [], (v (nextOf (exec (.generationComplete 0 0 2) j))) == v j])
      = true := by decide +kernel
/-- abort, its arrival at the cluster, and abchk there and before. -/
theorem witness_AbortsAndSupersteps_abort :
    (let s := nextOf (exec (.abort ⟨.next⟩) base)
     let t := nextOf (exec (.abortLineArrival 0 ⟨0, 0⟩) s)
     oks [base.ready (len2 .next) .next, (Tab.get none base.launches (base.launchIx base.cur)).isSome, (s.launch 0).abort,
       s.clusterLaunch ⟨0, 0⟩ == 0, (s.cluster ⟨0, 0⟩).abortLine == false, (t.cluster ⟨0, 0⟩).abortLine,
       causeOf (exec (.abchk ⟨.next⟩) s) == none, causeOf (exec (.abchk ⟨.next⟩) t) == some (.aborted, 2),
       (nextOf (exec (.abortLineArrival 0 ⟨0, 0⟩) base)).clusters == base.clusters]) = true := by decide +kernel
/-- sstep's arrival, the barrier's completion and its number; and trig. -/
theorem witness_AbortsAndSupersteps_sstep :
    (let s := nextOf (exec (.sstep ⟨.next, 7⟩) base)
     let t := nextOf (exec (.sstepComplete 0 0) s)
     oks [base.ready (len2 .next) .next, base.me.phase == .idle, base.producersDone base.cur, base.me.performed 7,
       (base.cluster ⟨0, 0⟩).ring.state != .running, base.me.gang < (base.launch 0).gangs.length, base.aborted base.cur == false,
       s.me.phase == .sstep, (s.gangOf s.cur).arrived == [s.cur], (s.launch 0).cutSteps == [], decide s.noCast,
       (base.launch 0).rcd.red == false, t.me.phase == .sstepDone 1, t.me.ckpt == some s.me.toRegs, t.freeG 7,
       gOf (exec (.sstep ⟨.next, 7⟩) t) 7 == 1, ((nextOf (exec (.sstepComplete 0 0) base)).gangOf base.cur).sstep == 0,
       ((nextOf (exec (.trig ⟨.next⟩) base)).gangOf base.cur).triggered == [base.cur]]) = true := by decide +kernel

/-! ### Witnesses: the carriageway -/

/-- A tile of a family, TAG 1, TOLL 4, with some HOPS. -/
def tile (f : Fam) (hops : BitVec 8) : Tile := ⟨⟨1, 4, hops, 0, f, 3, 5, 7, 0⟩, ⟨0, 0, 0⟩⟩
/-- A state whose cluster's ring is running in elastic mode with places at station 0 and 1 of family A. -/
def sRing (a0 b1 : Places) : State := base.modCluster ⟨0, 0⟩ fun k =>
  { k with ring := { Ring.idle with state := .running, elastic := true, inj := 1, placesA := Tab.put Places.none [] 0 a0,
                                    placesB := Tab.put Places.none [] 1 b1 } }
/-- The places of a family at a station of the cluster. -/
def places (s : State) (f : Fam) (n : Nat) : Places := (s.cluster ⟨0, 0⟩).ring.places f n

/-- The example header and coordinate of the encodings, injected twice, three times and again; and each trap. -/
theorem witness_TilesInjected :
    (let s := gs base [(1, 0x7C00), (2, 0x0020000401010101), (3, 0x0000000700000003), (4, 0x7C40), (5, 0x7BF8),
       (6, 0x0000000401010101), (7, 0x0001000700000003), (8, 0x0120000401010101)]
     let o : RinjO := ⟨.next, 3, 1, 2, false, false, false, 0⟩
     let i := fun (s : State) => nextOf (exec (.rinj o) s)
     oks [s.ready (len2 .next) .next, s.me.phase == .idle, s.fullG 1, s.occupies ⟨0, 0⟩, s.occupies ⟨0, 1⟩ == false,
       s.me.vecTouchesLocal 0x7C00 1024 == false, s.bad (localBase s.cur + 0x7C00) 1024 == none,
       (places (i s) .a 0).through.map (·.hdr.hops) == some 0x20, (places (i (i s)) .a 0).lay0.isSome,
       (places (i (i (i s))) .a 0).lay1.isSome, (i (i (i (i s)))).me.phase == .tile ⟨0, 0, 0⟩,
       causeOf (exec (.rinj { o with a := 4 }) s) == some (.illegalOperand, 1),
       causeOf (exec (.rinj { o with a := 5 }) s) == some (.alignment, 0x7BF8),
       causeOf (exec (.rinj { o with b := 6 }) s) == some (.illegalOperand, 2),
       causeOf (exec (.rinj { o with b := 8 }) s) == some (.illegalOperand, 2),
       causeOf (exec (.rinj { o with d := 7 }) s) == some (.illegalOperand, 3),
       causeOf (exec (.rinj o) (s.modCluster ⟨0, 0⟩ fun k => { k with ring := { k.ring with state := .loading, inj := 65535 } }))
         == some (.illegalOperand, 0),
       causeOf (exec (.rinjr ⟨.next, 3, 1, 2, false, false, false, 0, 1, 0⟩) s) == some (.illegalOperand, 0)]) = true := by
  decide +kernel
/-- rpark, runpark and rtire with a through tile, and with none; and on a beat-locked ring with a tile on a link. -/
theorem witness_RingInstructions_requests :
    (let t := tile .a 2
     let s := sRing { Places.none with through := some t } .none
     let e := sRing .none .none
     let u := nextOf (exec (.rpark ⟨.next, 9, 0⟩) s)
     let lk := (sRing { Places.none with link := some ⟨t, 0, 0⟩ } .none).modCluster ⟨0, 0⟩ fun k =>
       { k with ring := { k.ring with elastic := false } }
     oks [s.ready (len2 .next) .next, s.freeG 9, s.me.phase == .idle, (s.cluster ⟨0, 0⟩).ring.inHeld t == false,
       (s.gangOf s.cur).rr == 0, (places u .a 0).lay0 == some (t, .parked), gOf (exec (.rpark ⟨.next, 9, 0⟩) s) 9 == 0x8002000400000001,
       gOf (exec (.rpark ⟨.next, 9, 0⟩) e) 9 == 0,
       (places (nextOf (exec (.runpark ⟨.next, 9, 0, 0⟩) u)) .a 0).lay0 == some (t, .queued),
       (places (nextOf (exec (.rtire ⟨.next, 9, 0, 0⟩) s)) .a 0).through == none,
       (lk.cluster ⟨0, 0⟩).ring.flying != [], (nextOf (exec (.rpark ⟨.next, 9, 0⟩) lk)).me.phase == .ringOp]) = true := by
  decide +kernel
/-- The ring's states under rstat, rwait, rstart, rreset and rmode. -/
theorem witness_RingInstructions_control :
    (let st (x : RingState) : State := base.modCluster ⟨0, 0⟩ fun k => { k with ring := { k.ring with state := x, inj := 3 } }
     let ab := base.modCluster ⟨0, 0⟩ fun k => { k with abortLine := true }
     oks [base.ready (len2 .next) .next, base.freeG 4, gOf (exec (.rstat ⟨.next, 4⟩) (st .loading)) 4 == 0x0003000000000010,
       causeOf (exec (.rwait ⟨.next, 4⟩) ab) == some (.aborted, 1), gOf (exec (.rwait ⟨.next, 4⟩) base) 4 == 0,
       (st .done).tasksPerformed base.cur, gOf (exec (.rwait ⟨.next, 4⟩) (st .done)) 4 == 0x0003000000000030,
       (nextOf (exec (.rwait ⟨.next, 4⟩) (st .running))).me.pc == 0,
       ((nextOf (exec (.rstart ⟨.next⟩) (st .loading))).cluster ⟨0, 0⟩).ring.state == .running,
       causeOf (exec (.rreset ⟨.next⟩) (st .running)) == some (.illegalOperand, 0),
       ((nextOf (exec (.rreset ⟨.next⟩) (st .done))).cluster ⟨0, 0⟩).ring.state == .idle,
       causeOf (exec (.rmode ⟨.next, 1, false⟩) (st .running)) == some (.illegalOperand, 0),
       ((nextOf (exec (.rmode ⟨.next, 1, true⟩) (st .done))).cluster ⟨0, 0⟩).ring.record]) = true := by decide +kernel
/-- A junction record at the last place of local memory, good and bad, written and read back. -/
theorem witness_JunctionsAndMeetings_table :
    (let r (w : DWord) : State := gs (locals base [(0x7FE0, 0xFF00000001), (0x7FE8, 0xFF00000002), (0x7FF0, w)])
       [(1, 0x7FE0), (2, 0x7FE8), (3, 0x7FD0)]
     let good := r 0x3F0100000040
     let t := nextOf (exec (.jwr ⟨.next, 1, false⟩) good)
     let u := nextOf (exec (.jrd ⟨.next, 3, false, 63⟩) (gs t [(3, 0)]))
     oks [good.fullG 1, good.ready (len2 .next) .next, good.me.vecTouchesLocal 0x7FE0 32 == false,
       good.bad (localBase good.cur + 0x7FE0) 32 == none, (good.gangOf good.cur).det == false,
       (Tab.get none (t.cluster ⟨0, 0⟩).jt 63).map (·.start) == some 0x40,
       causeOf (exec (.jwr ⟨.next, 1, false⟩) (r 0x400100000040)) == some (.illegalOperand, 1),
       causeOf (exec (.jwr ⟨.next, 2, false⟩) good) == some (.illegalOperand, 1),
       causeOf (exec (.jwr ⟨.next, 3, false⟩) good) == some (.alignment, 0x7FD0),
       causeOf (exec (.jwr ⟨.next, 1, false⟩) (good.modCluster ⟨0, 0⟩ fun k => { k with ring := { k.ring with state := .running } }))
         == some (.illegalOperand, 0),
       local8 u 0 == 0xFF00000001, local8 u 16 == 0x3F0100000040]) = true := by decide +kernel
/-- An A tile that arrives at station 1 meets the B tile that lies there. -/
theorem witness_JunctionsAndMeetings_meeting :
    (let a := tile .a 2
     let b := tile .b 0
     let l : LinkTile := ⟨a, 0, 0⟩
     let s := (sRing { Places.none with link := some l } { Places.none with lay0 := some (b, .parked) }).modCluster ⟨0, 0⟩ fun k =>
       { k with jt := Tab.put none [] 5 (some ⟨1, 0xFF, 1, 0xFF, 0x40, true, true⟩) }
     let t := nextOf (exec (.tileArrival ⟨0, 0⟩ .a 1) { s with clock := 17 })
     oks [(places s .a 0).link == some l, s.entriesMade ⟨0, 0⟩, (s.cluster ⟨0, 0⟩).ring.flying == [(.a, 0, l)], a.same b == false,
       (s.cluster ⟨0, 0⟩).abortLine == false, ((t.core (.ord 0 0 1)).stationQ.map (·.start)) == [0x40],
       ((t.core (.ord 0 0 1)).stationQ.map (·.je)) == [5], (places t .a 1).through.map (·.hdr.toll) == some 3]) = true := by
  decide +kernel
/-- A departure, its arrival 17 cycles later and not before, and the beat of a locked ring. -/
theorem witness_CarriagewayEvents_moves :
    (let s := sRing { Places.none with through := some (tile .a 2) } .none
     let t := nextOf (exec (.tileDeparture ⟨0, 0⟩ .a 0) s)
     let lk := s.modCluster ⟨0, 0⟩ fun k => { k with ring := { k.ring with elastic := false } }
     let r := (s.cluster ⟨0, 0⟩).ring
     oks [s.clusterRuns ⟨0, 0⟩, r.settled s.clock, r.wants .a 0, r.wants .a 1 == false, (r.places .a 1).through == none,
       (places t .a 0).link.isSome, (places t .a 0).wake.isSome, (lk.cluster ⟨0, 0⟩).ring.beatReady,
       (places (nextOf (exec (.beat ⟨0, 0⟩) lk)) .a 0).link.isSome, (places (nextOf (exec (.beat ⟨0, 0⟩) s)) .a 0).link == none,
       (places (nextOf (exec (.tileArrival ⟨0, 0⟩ .a 1) { t with clock := 16 })) .a 1).through == none,
       (places (nextOf (exec (.tileArrival ⟨0, 0⟩ .a 1) { t with clock := 17 })) .a 1).through.map (·.hdr.hops) == some 1]) = true := by
  decide +kernel
/-- The other events of a carriageway, each where it acts and where it does not. -/
theorem witness_CarriagewayEvents_housekeeping :
    (let k : ClusterId := ⟨0, 0⟩
     let q := sRing { Places.none with lay0 := some (tile .a 2, .queued) } .none
     let q1 := sRing { Places.none with lay1 := some (tile .a 2, .queued) } .none
     let sp := sRing { Places.none with through := some (tile .a 0) } .none
     let w := sRing { Places.none with wake := some ⟨tile .a 1, 0⟩ } .none
     let dn := (sRing .none .none).modCluster k fun x => { x with ring := { x.ring with ret := 1 } }
     let h := (sRing .none .none).modCluster k fun x => { x with
       jt := Tab.put none [] 5 (some ⟨1, 0xFF, 1, 0xFF, 0x40, true, true⟩)
       ring := { x.ring with held := Tab.put [] [] 1 [⟨tile .a 2, tile .b 2, false, false, 5⟩] } }
     oks [(q.cluster k).ring.settled q.clock, (q.cluster k).ring.throughFree .a 0, (sp.cluster k).ring.throughFree .a 0 == false,
       (places (nextOf (exec (.queuedTileEntry k .a 0) q)) .a 0).through.isSome,
       (places (nextOf (exec (.queuedTileEntry k .a 0) q1)) .a 0).through.isSome,
       (places (nextOf (exec (.spentTileToLayby k .a 0) sp)) .a 0).lay0 == some (tile .a 0, .spent),
       (sp.cluster k).ring.retiring .a == [tile .a 0], ((nextOf (exec (.spentTileRetire k .a) sp)).cluster k).ring.ret == 1,
       ((nextOf (exec (.spentTileRetire k .a) q)).cluster k).ring.ret == 0,
       (places (nextOf (exec (.wakeExpiry k .a 0) { w with clock := 18 })) .a 0).wake == none,
       (places (nextOf (exec (.wakeExpiry k .a 0) { w with clock := 17 })) .a 0).wake.isSome,
       ((nextOf (exec (.ringDone k) dn)).cluster k).ring.state == .done, ((nextOf (exec (.ringDone k) q)).cluster k).ring.state == .running,
       ((nextOf (exec (.heldMeetingTaken k 1) h)).core (.ord 0 0 1)).stationQ.length == 1,
       ((nextOf (exec (.ringFault k) q)).cluster k).ring.fault]) = true := by decide +kernel


/-! ### Witnesses: leases, pass chains and meshes -/

/-- Mesh 0 of die 0. -/
def m0 : MeshId := ⟨0, 0⟩
/-- A lease of window 0 of mesh 0 in g1, its word 1 × 2^26. (Which free window alease takes is a free value.) -/
def sL : State := gs (base.modMesh ⟨0, 0⟩ fun x => { x with leases := [(0, some ⟨0, 0, 0, false⟩)] }) [(1, 0x4000000)]
/-- A state with free windows, one whose mesh has none, lease words that are not live, and a lease freed. -/
theorem witness_LeasesProbesAndDrift_leases :
    (let full := base.modMesh m0 fun x => { x with leases := (List.range 16).map fun w => (w, some ⟨0, 0, 0, false⟩) }
     let f1 := nextOf (exec (.afree ⟨.next, 1, false⟩) sL)
     let f2 := nextOf (exec (.afree ⟨.next, 1, false⟩) f1)
     let by_ (v : DWord) (s : State) : Out := exec (.alease ⟨.next, 2, 5, false, 3⟩) (gs s [(5, v)])
     let none_ := (List.range 32).foldl (fun s n => s.modMesh ⟨0, BitVec.ofNat 5 n⟩ fun x => { x with
       leases := (List.range 16).map fun w => (w, some ⟨0, 0, 0, false⟩) }) base
     let wait := nextOf (by_ 0x4000000 full)
     oks [base.ready (len2 .next) .next, base.fullG 0, (base.gangOf base.cur).rr == 0, base.freeG 1, sL.me.gv 1 == 0x4000000,
       (sL.liveLease sL.cur 0x4000000).isSome, (sL.mesh m0).freeWins.length == 15,
       causeOf (by_ 0x4000001 sL) == some (.illegalOperand, 1), wait.me.pc == full.me.pc, wait.me.phase == .claim (some m0), none_.freestMesh 0 == m0,
       (nextOf (by_ 0 none_)).me.phase == .claim none, (nextOf (by_ 0 wait)).me.phase == .claim (some m0),
       full.freestMesh 0 == ⟨0, 1⟩, base.freestMesh 0 == ⟨0, 0⟩,
       causeOf (exec (.afree ⟨.next, 2, false⟩) sL) == some (.illegalOperand, 1), sL.me.phase == .idle, f1.me.phase == .afree,
       (f1.liveLease f1.cur 0x4000000).isNone, Tab.get none (f2.mesh m0).leases 0 == none]) = true := by decide +kernel
/-- One pass of row 0 and sample slot 8, appended through the descriptor at 0x40. -/
def sPass : State := nextOf (exec (.opass ⟨.next, 2, 1, 3, false, false, false⟩)
  (locals (gs sL [(3, 0x40)]) [(0x40, 0x0001000800000000)]))
/-- A pass and a load of an image appended; descriptors misaligned, past the end, and with a reserved field. -/
theorem witness_ChainAppends :
    (let s := locals (gs sL [(3, 0x40), (4, 0x48), (5, 0x7FE0), (6, 0x8000)]) [(0x40, 0x0001000800000000), (0x7FE0, 1 <<< 12)]
     let o (b : BitVec 5) : XHAB := ⟨.next, 2, 1, b, false, false, true⟩
     let l := locals s [(0x40, 0), (0x50, 0x10000)]
     let e (s : State) : Option (Nat × ChainKind × Nat × Nat × Bool) :=
       (s.chain ⟨0, 0⟩ 0).ents.head?.map fun e => (e.seq, e.kind, e.slot, e.addr, e.set)
     oks [s.ready (len2 .next) .next, s.me.phase == .idle, (s.gangOf s.cur).rr == 0, s.fullG 1, s.fullG 3, (s.gangOf s.cur).det == false, s.me.vecTouchesLocal 0x40 32 == false,
       s.bad (localBase s.cur + 0x40) 32 == none, (s.liveLease s.cur (s.me.gv 1)).isSome, (s.me.hreg 2).fill != .pending,
       e (nextOf (exec (.opass (o 3)) s)) == some (0, .pass, 8, 0, true), ((nextOf (exec (.opass (o 3)) s)).me.hreg 2).fill == .pending,
       (nextOf (exec (.opass (o 3)) s)).me.owed == 1, e (nextOf (exec (.phld (o 3)) l)) == some (0, .phld, 0, 0x10000, false),
       causeOf (exec (.opass (o 4)) s) == some (.alignment, 0x48), causeOf (exec (.opassr (o 6)) s) == some (.illegalOperand, 2),
       causeOf (exec (.opassr (o 5)) s) == some (.illegalOperand, 2), causeOf (exec (.phld (o 3)) s) == some (.illegalOperand, 2),
       causeOf (exec (.opass ⟨.next, 2, 4, 3, false, false, false⟩) s) == some (.illegalOperand, 1),
       causeOf (exec (.phld (o 3)) (locals l [(0x50, 0xFC00000000000000)])) == some (.format, 0xFC00000000000000)]) = true := by
  decide +kernel
/-- A probe appended and one of an image number out of range; the status of a leased mesh. -/
theorem witness_LeasesProbesAndDrift_status :
    (let s := (gs sL [(3, 4095), (4, 4096)]).modMesh m0 fun x => { x with clip := 7 }
     let o (a b : BitVec 5) : XHAB := ⟨.next, 2, a, b, false, false, false⟩
     let t := nextOf (exec (.oprobe (o 1 3)) s)
     let u := nextOf (exec (.ostat ⟨.next, 9, 1, false⟩) (s.modMesh m0 fun x => { x with temp := 0xE0 }))
     oks [s.fullG 3, s.fullG 1, s.freeG 9, (s.me.hreg 2).fill != .pending, (s.mesh m0).unconf == 0, (s.mesh m0).dlast == 0,
       (u.me.gv 9).extractLsb' 12 16 == 7, (u.me.gv 9).extractLsb' 28 8 == 0xE0, (u.mesh m0).clip == 0, (t.chain ⟨0, 0⟩ 0).ents.map (fun e => (e.kind, e.image)) == [(.probe, 4095)],
       causeOf (exec (.oprobe (o 1 4)) s) == some (.illegalOperand, 2), causeOf (exec (.oprobe (o 3 3)) s) == some (.illegalOperand, 1),
       causeOf (exec (.ostat ⟨.next, 9, 3, false⟩) s) == some (.illegalOperand, 1),
       (s.liveLease s.cur (s.me.gv 1)).isSome, (s.mesh m0).clip == 7]) = true := by decide +kernel
/-- An image in bank 0. -/
def im0 (guard : Bool) : BankImage := ⟨0, 0, 0, 3, guard, 0, [], 0, true, true⟩
/-- A pass granted, ended, committed to its window and completed; without its image, the load starts and fails. -/
theorem witness_OpticalPasses :
    (let s := sPass.modMesh m0 fun x => { x with bank0 := some (im0 false) }
     let r : EntryRef := ⟨0, 0, 0⟩
     let g := nextOf (exec (.passGrant m0) s)
     let e := nextOf (exec (.passEnd m0) g)
     let c := nextOf (exec (.passCommit m0) e)
     let d := nextOf (exec (.chainEntryComplete ⟨0, 0⟩ 0) c)
     let l := nextOf (exec (.passGrant m0) sPass)
     let b := nextOf (exec (.bankLoadComplete m0) l)
     oks [(s.readyFor m0).map (·.1) == [r], (s.mesh m0).running.isNone, (s.mesh m0).probeDue == false, (s.mesh m0).latch == [],
       (s.mesh m0).loading == none, (s.mesh m0).act.isSome, (s.mesh m0).isBad 0 == false, (s.entry 0 r).isSome,
       (s.entry 0 r).map (fun e => (e.kind, e.stage, e.n, e.rows, e.scales, e.spoilt)) == some (.pass, false, 1, [], [], false), e.chainTurn 0 r,
       (s.mesh m0).act.map (·.named) == some true, (base.readyFor m0).length == 0, (g.mesh m0).running == some r, (g.entry 0 r).map (·.stageOf) == some .granted,
       (e.entry 0 r).map (·.stageOf) == some .latched, (e.entry 0 r).map (·.out.length) == some 64, (e.mesh m0).ended == [r],
       (e.entry 0 r).map (e.heldByVacc ⟨0, 0⟩) == some false, (c.entry 0 r).map (·.stageOf) == some (.finished 0),
       (c.mesh m0).ended.length == 0, (d.me.hreg 2).val == 0x3000000000000000, (d.me.hreg 2).fill == .full,
       (sPass.mesh m0).holds 0 == none, (l.mesh m0).loading == some 0, (b.mesh m0).isBad 0, (b.mesh m0).bank1 == none]) = true := by
  decide +kernel
/-- In guard mode the pass waits for the probe; a fenced image's pass ends DRIFT, one over a bad word UNCORRECTABLE; and a
poisoned row refuses an addition. -/
theorem witness_OpticalPasses_refused :
    (let r : EntryRef := ⟨0, 0, 0⟩
     let run (s : State) : State := s.modMesh m0 fun x => { x with running := some r, bank0 := some (im0 true) }
     let st (s : State) : Option ChainStage := (s.entry 0 r).map (·.stageOf)
     let e := nextOf (exec (.passEnd m0) (run sPass))
     let f := nextOf (exec (.passEnd m0) ((run sPass).modMesh m0 fun x => { x with drift := Tab.put .clear [] 0 .fenced }))
     let p := (e.modMesh m0 fun x => { x with ended := [r], latch := [], wins := Tab.put WinElem.zero [] (winKey 0 0 5) ⟨0, true, true⟩ }).modEntry
       0 r fun y => { y with set := false }
     oks [(e.mesh m0).latch == [r], st e == some .latched, st f == some (.finished 1), st (nextOf (exec (.passCommit m0) p)) == some (.finished 4),
       (p.mesh m0).act.isSome]) = true := by decide +kernel
/-- Two entries of one class, an aged one, and an aged one whose image is not there: its load begins, and the other runs. -/
theorem witness_OpticalPasses_ranks :
    (let s := sPass.modMesh m0 fun x => { x with bank0 := some (im0 false) }
     let two (f : ChainEntry → ChainEntry) : State := s.modChain ⟨0, 0⟩ 1 fun c => { c with ents := (s.chain ⟨0, 0⟩ 0).ents.map f, next := 1 }
     let a : EntryRef := ⟨0, 0, 0⟩
     let b : EntryRef := ⟨0, 1, 0⟩
     let run (s : State) : State := nextOf (exec (.passGrant m0) s)
     let tie := run (two id)
     let old := run (two fun e => { e with readyGrants := 16 })
     let far := two fun e => { e with readyGrants := 17, image := 5 }
     let load := run far
     oks [((two id).readyFor m0).map (·.1) == [a, b], (tie.mesh m0).running == some a, (tie.entry 0 b).map (·.readyGrants) == some 1,
       (old.mesh m0).running == some b, (old.entry 0 a).map (·.readyGrants) == some 1, (far.entry 0 b).map (far.mesh m0).canRun == some false,
       (load.mesh m0).loading == some 5, (load.mesh m0).running == some a, (load.entry 0 b).map (·.readyGrants) == some 18]) = true := by decide +kernel
/-- An unlocked laser fences its image and the lock is restored. -/
theorem witness_LeasesProbesAndDrift_fences :
    (let s := base.modMesh m0 fun x => { x with bank0 := some (im0 true), temp := 33 }
     let t := nextOf (exec (.thermalUnlock m0) s)
     let u := nextOf (exec (.thermalRelock m0) (t.modMesh m0 fun x => { x with temp := 0xE0 }))
     let cool := s.modMesh m0 fun x => { x with temp := 32 }
     oks [(s.mesh m0).act.map (fun im => im.expect.length) == some 0, (s.mesh m0).unlocked == false,
       ((nextOf (exec (.thermalUnlock m0) cool)).mesh m0).unlocked == false, ((nextOf (exec (.thermalRelock m0) t)).mesh m0).unlocked,
       (s.mesh m0).act.isSome, (s.mesh m0).running.isNone, (t.mesh m0).unlocked, (t.mesh m0).isFenced 0,
       (u.mesh m0).unlocked == false, (u.mesh m0).isFenced 0]) = true := by decide +kernel
/-- An engine without work, one with a block, and one that a load makes wait; a probe that is due. -/
theorem witness_OpticalPasses_engines :
    (let s := base.modMesh m0 fun x => { x with bank0 := some (im0 true), temp := 33 }
     let due := s.modMesh m0 fun x => { x with sinceProbe := 2 ^ 20 }
     let w := sPass.modDie 0 fun x => { x with engines := Tab.put none [] 0 (some ⟨0, 0, 0⟩) }
     let dec := w.modEntry 0 ⟨0, 0, 0⟩ fun y => { y with kind := .phdec }
     let load := dec.modMesh m0 fun x => { x with loading := some 0 }
     oks [(dec.entry 0 ⟨0, 0, 0⟩).map (fun e => (e.kind, e.mesh)) == some (.phdec, m0), (dec.mesh m0).loading.isNone,
       (dec.entry 0 ⟨0, 0, 0⟩).map (·.target) == (load.mesh m0).loading, (load.mesh m0).loading.isSome,
       Tab.get none ((nextOf (exec (.decompositionComplete 0 0) w)).die 0).engines 0 == none,
       (Tab.get none (w.die 0).engines 0).isSome, (w.entry 0 ⟨0, 0, 0⟩).isSome, (w.mesh m0).loading.isNone,
       (due.mesh m0).probeDue, Tab.get none (s.die 0).engines 0 == none]) = true := by decide +kernel

/-! ### Witnesses: ramp cores and global memory -/

/-- A ramp core in a partition that maps the first GiB to itself, with pointers in g1 to g4. -/
def sG : State := gs (put8 (mapped rbase) 0x20008 0x1122334455667788) [(1, 0x20000), (2, 5), (4, 0x20004), (5, 0xFC00000000000000),
  (6, 0xFFFFFFFFFFFFF8), (7, 0xFFFFFFFFFFFFFC), (8, 0x2000000000)]
/-- Loads and stores at 0x20008, of an L1 line, at the end of the address space, misaligned, through a null pointer, and
at an address that is not mapped. -/
theorem witness_GlobalLoadsAndStores :
    (let ld (a : BitVec 5) (off : BitVec 24) : Instr := .gld ⟨.next, 3, a, false, off⟩
     let st (a : BitVec 5) (off : BitVec 24) : Instr := .gst ⟨.next, 2, a, false, false, off⟩
     let t := nextOf (exec (ld 1 8) sG)
     let u := nextOf (exec (st 1 8) sG)
     oks [sG.ready (len2 .next) .next, sG.fullG 1, sG.fullG 2, sG.freeG 3, sG.me.hbmWaits 0x20008 8 == false, sG.me.phase == .idle,
       sideHit sG.me.sideLog 0x20008 8 == false, (sG.gangOf sG.cur).det == false, Tab.get none sG.me.l1 (0x20008 / 64) == none,
       sG.xlate (sG.launchIx sG.cur) 0x20000 0 == .ok 0x20000, sG.xlate (sG.launchIx sG.cur) 0x20008 1 == .ok 0x20008,
       sG.bad 0x20000 64 == none, sG.badPartial 0x20008 8 == none, (sG.launchOf sG.cur).rcd.red == false, decide sG.noCast,
       sG.storeWaits sG.cur 0x20008 8 == false, sG.coreXlate sG.cur 0 0x20000 0 == .ok 0x20000, sG.coreXlate sG.cur 0 0x20008 1 == .ok 0x20008, t.me.gv 3 == 0x1122334455667788,
       (Tab.get none t.me.l1 (0x20008 / 64)).map (·.pa) == some 0x20000, gOf (exec (ld 1 8) { t with mem := [] }) 3 == 0x1122334455667788,
       hbm8 u 0x20008 == 5, hbm8 u 0x20000 == 0, (nextOf (exec (ld 8 0) sG)).xfaults.length == 1,
       (nextOf (exec (st 8 0) sG)).me.sideLog.length == 1, causeOf (exec (ld 5 8) sG) == some (.format, 0xFC00000000000000),
       causeOf (exec (st 5 8) sG) == some (.format, 0xFC00000000000000), causeOf (exec (ld 6 8) sG) == some (.illegalOperand, 1),
       causeOf (exec (ld 2 0xFFFFF0) sG) == some (.illegalOperand, 1), causeOf (exec (st 7 0) sG) == some (.illegalOperand, 1),
       causeOf (exec (ld 4 0) sG) == some (.alignment, 0x20004), (nextOf (exec (ld 6 0) sG)).me.phase != .idle]) = true := by
  decide +kernel
/-- The L1 copy is read after the line has been loaded. -/
theorem witness_GlobalLoadsAndStores_l1 :
    (let t := nextOf (exec (.gld ⟨.next, 3, 1, false, 8⟩) sG)
     oks [(Tab.get none t.me.l1 (0x20008 / 64)).isSome, gOf (exec (.gld ⟨.next, 3, 1, false, 0⟩)
       (t.modMe fun k => { k with running := true })) 3 == 0]) = true := by decide +kernel
/-- Vector loads and stores pushed, of memory, of a yard and of tensor formats; and the checks before the push. -/
theorem witness_GlobalVectorsAndReductions_push :
    (let s := gs sG [(1, 0x20000), (4, 0x20020), (9, 0x20000000), (10, 0xFFFFFFFFFFFE00), (11, 0x400000000020000), (12, 0x4C00000000020000),
       (13, 0x0100000000020000), (14, 64), (15, 0x7FE00)]
     let gv (a : BitVec 5) (sp : BitVec 1) : GvO := ⟨.next, 2, a, false, sp, 0⟩
     let gt (d : BitVec 4) (a b : BitVec 5) : GtO := ⟨.next, d, a, b, false, false, .i8⟩
     let push (o : Out) : Nat := (nextOf o).me.vq.length
     oks [s.queueRoom, s.fullG 1, s.me.vopTrap (gmemOp .gldv 2 .i8 0 0x20000) == none, push (exec (.gldv (gv 1 0)) s) == 1,
       push (exec (.gstv (gv 1 0)) s) == 1, push (exec (.gldv (gv 10 0)) s) == 1, causeOf (exec (.gldv (gv 5 0)) s) == some (.format, 0xFC00000000000000),
       causeOf (exec (.gldv { gv 10 0 with off := 64 }) s) == some (.illegalOperand, 1), causeOf (exec (.gldv (gv 4 0)) s) == some (.alignment, 0x20020),
       causeOf (exec (.gstv (gv 9 1)) s) == some (.illegalOperand, 1), s.occupies ⟨0, 0⟩ == false,
       push (exec (.gldt (gt 2 1 14)) s) == 1, causeOf (exec (.gldt (gt 2 13 14)) s) == some (.format, 0x0100000000020000),
       causeOf (exec (.gldt (gt 2 5 14)) s) == some (.format, 0xFC00000000000000),
       push (exec (.gldt (gt 2 12 0)) s) + push (exec (.gldt (gt 3 1 14)) s) == 2]) = true := by decide +kernel
/-- A reduction sent and performed: an add, an and, a signed minimum and an FP32 add; and the ones refused. -/
theorem witness_GlobalVectorsAndReductions_reductions :
    (let s := gs sG [(2, 0xFFFFFFFFFFFFFFF0)]
     let o (op : BitVec 4) (sz : BitVec 1) (a : BitVec 5) : Instr := .gred ⟨.next, a, 2, false, false, op, sz⟩
     let run (op : BitVec 4) (sz : BitVec 1) : State :=
       let t := nextOf (exec (o op sz 1) (put8 s 0x20000 100))
       nextOf (exec (.reductionPerform t.cur) t)
     let t := nextOf (exec (o 2 1 1) s)
     oks [s.ready (len2 .next) .next, s.me.vq.length == 0, s.me.inflight.length == 0, t.me.atomics.map (·.reduction) == [true],
       s.me.atomics.length == 0, sideHit s.me.sideLog 0x20000 8 == false, (s.gangOf s.cur).rr == 0, s.xlate (s.launchIx s.cur) 0x20000 2 == .ok 0x20000,
       hbm8 (run 2 1) 0x20000 == 84, hbm8 (run 3 1) 0x20000 == 96, hbm8 (run 6 1) 0x20000 == 0xFFFFFFFFFFFFFFF0, hbm8 (run 2 0) 0x20000 == 84,
       hbm8 (run 8 1) 0x20000 == 100, hbm8 (run 9 0) 0x20000 == 0xFFFFFFF0,
       causeOf (exec (o 1 1 1) s) == some (.illegalOperand, 0), causeOf (exec (o 11 0 1) s) == some (.illegalOperand, 0),
       causeOf (exec (o 10 1 1) s) == some (.illegalOperand, 0), causeOf (exec (o 10 0 1) s) == none,
       causeOf (exec (o 2 1 4) s) == some (.alignment, 0x20004), causeOf (exec (o 2 0 4) s) == none,
       causeOf (exec (o 2 1 5) s) == some (.format, 0xFC00000000000000)]) = true := by decide +kernel
/-- Channel 3 of ramp core 0 bound to port 12 of core 0 0 0: room, no room, something to take, nothing, and no port bound. -/
theorem witness_ChannelsPassSramAndInjection_channels :
    (let c : CoreId := .ord 0 0 0
     let w (kind : PortKind) (buf : List (BitVec 4096 × Bool)) : State := sG.modCore c fun k =>
       { k with launch := some 0, ports := Tab.put none [] 0 (some ⟨kind, 0, 0, 0, 0, 3, buf, 0, false⟩) }
     let v (s : State) : State := s.modMe fun k => k.setVreg 2 ⟨7, .full, false⟩
     let len (o : Out) : Option Nat := (Tab.get none ((nextOf o).core c).ports 0).map (·.buf.length)
     let send : Instr := .gsend ⟨.next, 2, 3⟩
     let recv : Instr := .grecv ⟨.next, 4, 3⟩
     oks [(v (w .rin [])).ready (len2 .next) .next, ((w .rin []).channelPort 0 0 3).isSome, ((w .rin []).channelPort 0 0 4).isNone,
       sG.aborted sG.cur == false, len (exec send (v (w .rin []))) == some 1, len (exec send (v (w .rin [(1, false), (2, false)]))) == some 2,
       causeOf (exec send (v (w .rout []))) == some (.illegalOperand, 0), causeOf (exec recv (w .rin [])) == some (.illegalOperand, 0),
       len (exec recv (w .rout [(1, false)])) == some 0, (nextOf (exec recv (w .rout [(1, false)]))).me.arrivals.length == 1,
       (nextOf (exec recv (w .rout []))).me.pc == sG.me.pc]) = true := by decide +kernel
/-- Pass SRAM filled with one chunk; and the checks of its operands. -/
theorem witness_ChannelsPassSramAndInjection_fill :
    (let s := gs (locals sG [(0x40, 0x99), (0x240, 0x77)]) [(1, 0x40), (2, 8 * 64), (4, 0x41), (5, 0x7E00), (6, 64), (7, 2 ^ 19)]
     let o (a b : BitVec 5) : Instr := .gpfill ⟨.next, a, b, false, false, 0⟩
     let t := nextOf (exec (o 1 2) s)
     oks [s.me.vecTouchesLocal 0x40 576 == false, s.bad (localBase s.cur + 0x40) 576 == none, (s.gangOf s.cur).det == false,
       hbm8 t (passBase m0 false + 512) == 0x99, hbm8 t (passBase m0 false + 491520 + 32) == 0x77,
       causeOf (exec (o 4 2) s) == some (.alignment, 0x41), causeOf (exec (o 5 2) s) == some (.illegalOperand, 1),
       causeOf (exec (o 1 6) s) == some (.illegalOperand, 2), causeOf (exec (o 1 7) s) == some (.illegalOperand, 2)]) = true := by
  decide +kernel
/-- A tile injected from HBM into a cluster that the launch occupies; and the operands it refuses. -/
theorem witness_ChannelsPassSramAndInjection_ginj :
    (let u := (gs sG [(2, 0x0001000400000001), (3, 0x000700050003), (9, 1), (10, 0x0001000000050003), (11, 0xFFFFFFFFFFFC00)]).modCore (.ord 0 0 0)
       fun k => { k with launch := some 0 }
     let o (cl : BitVec 10) (a b d : BitVec 5) : Instr := .ginj ⟨.next, d, a, b, false, false, false, 0, cl, 0⟩
     let t := nextOf (exec (o 0 1 2 3) u)
     let p := ((t.cluster ⟨0, 0⟩).ring.places .a 0).through
     oks [u.occupies ⟨0, 0⟩, u.fullG 1, u.fullG 2, u.fullG 3, u.me.phase == .idle, (u.cluster ⟨0, 0⟩).abortLine == false,
       (u.cluster ⟨0, 0⟩).ring.state == .idle, (u.die 0).tlbs.length == 0, u.me.sideLog.length == 0, u.me.hbmWaits 0x20000 1024 == false, u.me.l1.length == 0, u.xlate (u.launchIx u.cur) 0x20000 0 == .ok 0x20000,
       (u.cluster ⟨0, 0⟩).ring.throughFree .a 0, p.map (·.hdr.tag) == some 1, p.map (·.hdr.j) == some 5,
       p.map (fun n => n.pay.bytes.extractLsb' 64 64) == some 0x1122334455667788,
       causeOf (exec (o 5 1 2 3) u) == some (.illegalOperand, 0), causeOf (exec (o 0 5 2 3) u) == some (.format, 0xFC00000000000000),
       causeOf (exec (o 0 4 2 3) u) == some (.alignment, 0x20004), causeOf (exec (o 0 1 9 3) u) == some (.illegalOperand, 2),
       causeOf (exec (o 0 1 2 10) u) == some (.illegalOperand, 3), causeOf (exec (o 0 11 9 3) u) == some (.illegalOperand, 2)]) = true := by
  decide +kernel
/-- A map of two rows of four bytes over a tensor of six, at 0x20000. -/
def sTm : State :=
  gs (locals (put8 sG 0x20000 0x0807060504030201) [(0x400, 0x0C00000000020000), (0x408, 0x0001010201010401), (0x410, 8),
    (0x418, 0x0000000100000006), (0x420, 0x0000000100000001), (0x440, 0x04000001)])
    [(1, 0x400), (2, 0x100), (4, 0x408), (5, 0x101), (6, 0x7FF8), (7, 0x7FC0), (8, 0x480)]
/-- The map loaded, walked in and walked out; and the operands the walks refuse. -/
theorem witness_TensorMaps :
    (let wr (a : BitVec 5) : Instr := .tmwr ⟨.next, a, false, 3⟩
     let t := nextOf (exec (wr 1) sTm)
     let o (d : BitVec 5) (n : BitVec 6) : TmO := ⟨.next, d, 0, false, false, n⟩
     let m := t.me.tmap 3
     let u := nextOf (exec (.tmld (o 2 3)) t)
     let v := nextOf (exec (.tmst (o 2 3)) (locals t [(0x100, 0x14131211), (0x108, 0x18171615)]))
     oks [sTm.fullG 1, sTm.me.vecTouchesLocal 0x400 128 == false, sTm.bad (localBase sTm.cur + 0x400) 128 == none, m.ok, m.rank == 1,
       m.rows == 2, m.rowLen == 4, (List.range 8).map (m.inside 0) == [true, true, true, true, true, true, false, false], m.elemAddr 0 5 == 0x20005,
       t.me.hbmBusy == false, t.me.sideLog.length == 0, t.me.l1.length == 0, (t.die 0).tlbs.length == 0, t.me.phase == .idle, local8 u 0x100 == 0x04030201, local8 u 0x108 == 0x0605,
       hbm8 v 0x20000 == 0x0807161514131211, decide t.noCast, (t.launchOf t.cur).rcd.red == false,
       causeOf (exec (wr 4) sTm) == some (.alignment, 0x408), causeOf (exec (wr 7) sTm) == some (.illegalOperand, 1),
       causeOf (exec (wr 8) sTm) == some (.illegalOperand, 1), causeOf (exec (.tmld (o 2 4)) t) == some (.illegalOperand, 0),
       causeOf (exec (.tmst (o 5 3)) t) == some (.alignment, 0x101), causeOf (exec (.tmst (o 6 3)) t) == some (.illegalOperand, 3)]) = true := by
  decide +kernel
/-- A translation fault posted to the partition's owner; a translation changed under an L1 copy; lines pinned, waiting in
a full set, and unpinned. -/
theorem witness_TranslationEvents :
    (let f := nextOf (exec (.gld ⟨.next, 3, 8, false, 0⟩) sG)
     let p := nextOf (exec (.translationFault (.core f.cur)) f)
     let l := nextOf (exec (.gld ⟨.next, 3, 1, false, 8⟩) sG)
     let r : LineReq := ⟨0, false, 5, false⟩
     let n := setOf false 5
     let full (pins : Nat) := rbase.modDie 0 fun d => d.putSet false n ((List.range 16).map fun i => ⟨i + 100, if i = 3 then pins else 1, 0⟩)
     oks [f.xfaults.map (·.posted) == [false], p.xfaults.map (·.posted) == [true], (Tab.get [] p.sysMail 0).length == 1,
       (Tab.get none (nextOf (exec (.translationChange 0 0x20000 64) l)).me.l1 (0x20000 / 64)) == none,
       (Tab.get none (nextOf (exec (.translationChange 0 0x20040 64) l)).me.l1 (0x20000 / 64)).isSome,
       ((nextOf (exec (.lineAllocate r) rbase)).die 0).set false n == [⟨5, 1, 0⟩], (exec (.lineAllocate { r with rdc := true }) rbase |> nextOf).dies == rbase.dies,
       (rbase.die 0).lineWaits.length == 0,
       ((nextOf (exec (.lineAllocate r) (full 1))).die 0).lineWaits == [r], (((nextOf (exec (.lineAllocate r) (full 0))).die 0).set false n)[3]? == some ⟨5, 1, 0⟩,
       ((nextOf (exec (.lineAllocate { r with unpin := true }) (nextOf (exec (.lineAllocate r) rbase)))).die 0).set false n == [⟨5, 0, 0⟩]])
      = true := by decide +kernel

/-! ### Witnesses: record and replay, submission, placement and the end of launches -/

/-- A recording gang with a log region of 64 bytes at 0x20000. -/
def sD (rr : BitVec 2) : State := (mapped base).modLaunch 0 fun l =>
  { l with rcd := { l.rcd with logBase := 0x20000, logSize := 64, rr := rr, dies := 1 },
           gangs := l.gangs.map fun g => { g with rr := rr } }
/-- DSTAT read and cleared, a marker logged, and the wait for the drain. -/
theorem witness_DeterminismAndRecords_state :
    (let s := gs ((sD 1).modLaunch 0 fun l => { l with dstats := Tab.put DStat.zero [] 0 ⟨true, true, false, true, 2, 5⟩ }) [(1, 9)]
     let o : XA := ⟨.next, 1, false⟩
     let t := nextOf (exec (.dmark o) s)
     let w := nextOf (exec (.ddrain ⟨.next⟩) t)
     let v := nextOf (exec (.logDrain 0) w)
     oks [s.ready (len2 .next) .next, s.freeG 3, s.fullG 1, gOf (exec (.dstat ⟨.next, 3⟩) s) 3 == 0xD800000000000005,
       ((nextOf (exec (.dclr ⟨.next⟩) s)).launch 0).dstat 0 == ⟨false, true, false, false, 0, 0⟩, (s.gangOf s.cur).rr == 1,
       ((s.launch 0).log 0).stopped == false, s.buffered 0 == 0, ((t.launch 0).log 0).buffer.map (fun e => (e.kind, e.va)) == [(10, 9)],
       ((nextOf (exec (.dmark o) (gs (sD 0) [(1, 9)]))).launch 0).logs.length == 0, t.me.phase == .idle, w.me.phase == .ddrain [(0, 1)],
       w.me.pc == t.me.pc, ((v.launch 0).log 0).drained == 1, (nextOf (exec (.ddrain ⟨.next⟩) v)).me.pc == 16,
       (nextOf (exec (.ddrain ⟨.next⟩) (sD 0))).me.pc == 8]) = true := by decide +kernel
/-- The first entry drained to its place, and one past the region's end, which stops the recording; a divergence taken. -/
theorem witness_DeterminismAndRecords_drains :
    (let s := nextOf (exec (.dmark ⟨.next, 1, false⟩) (gs (sD 1) [(1, 9)]))
     let far := s.modLaunch 0 fun l => l.modLog 0 fun d => { d with buffer := d.buffer.map fun e => { e with index := 2 } }
     let at_ (s : State) : Nat := ((s.launch 0).rcd.logPart 0).2
     let c := s.cur
     let late := s.modMe fun k => { k with lateTrap := some (⟨.replayDiverge, 3⟩, 8) }
     oks [at_ s == 64, ((s.launch 0).rcd.logPart 0).1 % 32 == 0, s.badPartial 0x20000 32 == none, s.buffered 0 == 1, decide s.noCast, s.xlate 0 0x20000 1 == .ok 0x20000, hbm8 (nextOf (exec (.logDrain 0) s)) 0x20010 == 9,
       ((nextOf (exec (.logDrain 0) s)).launch 0).log 0 == { DieLog.start with next := 1, drained := 1 },
       (((nextOf (exec (.logDrain 0) far)).launch 0).log 0).stopped, ((nextOf (exec (.logDrain 0) far)).launch 0).dstat 0 == ⟨false, true, false, false, 0, 0⟩,
       s.me.lateTrap == none, late.me.park == none, (nextOf (exec (.replayDivergence c) late)).me.park.map (·.value) == some 3,
       base.launches.all fun p => ((base.launch p.1).log 0).buffer.isEmpty]) = true := by decide +kernel
/-- A launch image of 352 bytes: one word of code, one launch record of one gang of two cores, its seed 7. -/
def image : List Byte :=
  let ws : List (Nat × DWord) := [(0, 0x0002000154415349), (2, 1), (3, 128), (4, 4), (6, 0x0000000100000008), (7, 192), (8, 160),
    (25, 2), (26, 1), (30, 7)]
  (List.range 44).flatMap fun i => bytesOfNat 8 ((ws.lookup i).getD 0).toNat
/-- A machine brought up with queue 0 of die 0, its ring of two entries at 0x38000. -/
def sK : State :=
  ({ mapped State.reset with broughtUp := true } : State).modDie 0 fun d =>
    { d with queues := Tab.put none [] 0 (some ⟨0x38000, 1, 0, 0, 0x3C000, 0⟩) }
/-- The doorbell rung. -/
def sKr : State := nextOf (exec (.doorbell 0 0 1) sK)
/-- The queue's entry taken; its image, all zero, is refused. An image that is not, and its launch record. -/
theorem witness_KicksAndPlacement_kicks :
    (let t := nextOf (exec (.kickTake 0) sKr)
     let info (bs : List Byte) : Option (List Section × ImageInfo) := imageInfo (fun a n => (bs.drop a).take n) 0x30000
     let r := launchFields ((image.drop 192).take 160) 4 0
     oks [sK.schedules 0, (sK.die 0).nextKick == none, (sKr.die 0).nextKick == some 0, (t.die 0).kicks == 0, (t.launch 0).state == .ended 3,
       t.nextLaunch == 1, (Tab.get none (t.die 0).queues 0).map (·.head) == some 1, (Tab.get none sK.launches 0).isNone,
       (info image).map (·.2.codeVa) == some 0x30080, (info (image.set 4 2)).isNone, (info (image.set 48 11)).isNone,
       (info image).map (fun x => segmentEnd x.1) == some 0, r.ok 0, r.seed == 7, r.gangSize == 2, r.dieOf 0 == 0,
       sK.placeable r 0]) = true := by decide +kernel
/-- Two entries taken at once, neither of them an image. -/
theorem witness_KicksAndPlacement_entries :
    (let s := sK.modDie 0 fun d => { d with queues := Tab.put none [] 0 (some ⟨0x38000, 2, 3, 0, 0x3C000, 0⟩) }
     let t := nextOf (exec (.kickTake 0) (nextOf (exec (.doorbell 0 0 1) s)))
     oks [t.nextLaunch == 2, (t.launch 0).state == .ended 3, (t.launch 1).state == .ended 3, s.secondChecks 0 0 == [], s.secondChecks 1 0 == [],
       (Tab.get none (t.die 0).queues 0).map (·.head) == some 1, s.dies.length == 1]) = true := by decide +kernel
/-- Of two waiting launches the one of higher priority is placed. -/
theorem witness_KicksAndPlacement_priority :
    (let r := launchFields ((image.drop 192).take 160) 4 0
     let w (p : Nat) : Launch := { Launch.blank with rcd := { r with prio := p }, state := .waiting, depMet := true, gangs := [Gang.blank] }
     let s := { sK with nextLaunch := 2, launches := Tab.put none (Tab.put none [] 0 (some (w 1))) 1 (some (w 2)) }
     let t := nextOf (exec (.gangPlace 0) s)
     oks [Tab.wf none s.launches, s.schedules 0, s.placementHeld 0 == false, s.placementHeld 1 == false, decide s.noCast,
       decide (1 ≤ (s.goodClusters 0).length), (t.launch 1).state == .running, (t.launch 0).state == .waiting,
       ((t.launch 1).gang 0).members.length == 2]) = true := by decide +kernel
/-- A waiting launch of that record: its gang placed on cluster 0, two cores about to run the body, their LFSRs seeded. -/
theorem witness_KicksAndPlacement_placed :
    (let r := launchFields ((image.drop 192).take 160) 4 0
     let s := { sK with nextLaunch := 1, launches := Tab.put none [] 0 (some { Launch.blank with
       rcd := r, state := .waiting, depMet := true, gangs := [Gang.blank] }) }
     let t := nextOf (exec (.gangPlace 0) s)
     let c (r : BitVec 6) : CoreId := .ord 0 0 r
     oks [s.schedules 0, s.launches.map Prod.fst == [0], (s.launch 0).depMet, (s.launch 0).firstPlaced.isNone, (s.launch 0).reported == false,
       ((s.launch 0).gang 0).placed == false, (s.launch 0).rcd.dieOf 0 == 0, s.placementHeld 0 == false, decide s.noCast,
       (s.launch 0).rcd.clustersPer == 1, (t.launch 0).state == .running, ((t.launch 0).gang 0).members == [c 0, c 1],
       (t.core (c 1)).bodyPending, (t.core (c 1)).lfsr == 6, (t.core (c 0)).lfsr == 7, (t.core (c 1)).rank == 1,
       ((nextOf (exec (.priorityAgeing 0) { s with clock := 1600000 })).launch 0).boost == 1]) = true := by decide +kernel
/-- A launch at its LLIM, at its quantum, asked to stop and drained; a stopped one restored. -/
theorem witness_LaunchesEnd_stops :
    (let s := { (mapped base).modLaunch 0 (fun l => { l with rcd := { l.rcd with llim := 2, imgBase := 0x40000, imgSize := 4096, dies := 1 }, preemptAsked := true }) with
       broughtUp := true }
     let late (n : Nat) : State := { s with clock := n }
     let st (i : Instr) (s : State) : LState := ((nextOf (exec i s)).launch 0).state
     let t := nextOf (exec (.preemptionStop 0) s)
     let u := { s with cores := [], launches := Tab.put none [] 0 (some { s.launch 0 with
       state := .stopped, depMet := true, savedCores := [(coreNum s.cur, s.me)], imageLen := 64, stoppedAt := 20 }) }
     let v := nextOf (exec (.launchRestore 0) { u with clock := 50 })
     let w := t.modLaunch 0 fun l => { l with preemptAsked := true }
     oks [(s.launch 0).state == .running, (s.launch 0).shares.length == 0, s.killTraps 0 0 == [], (s.launch 0).gangs.all (·.rolling == none),
       ((s.launch 0).rcd.dieList.all s.schedules), w.me.lateTrap == none, (w.launch 0).state == .stopping, u.placementHeld 0 == false,
       (s.launch 0).placedAt == 0, st (.llimExpiry 0) (late 3200) == .ended 1,
       st (.llimExpiry 0) (late 3199) == .running, ((nextOf (exec (.quantumExpiry 0) (late 1600000))).launch 0).quantumUp,
       ((nextOf (exec (.quantumExpiry 0) (late 1599999))).launch 0).quantumUp == false, s.schedules (s.launch 0).home, s.toStop 0,
       (t.launch 0).state == .stopping, t.drained 0, (u.launch 0).state == .stopped,
       u.canRestore 0, u.restoreTurn 0, u.imageLost 0 == false, (v.launch 0).state == .running, (v.launch 0).placedAt == 50, v.me.running,
       ((u.launch 0).savedCores.map Prod.fst).Nodup, (u.launch 0).savedCores.all fun y => y.2.sideLog.isEmpty && coreNum (coreOfNum y.1) == y.1]) = true := by
  decide +kernel
/-- A launch with its gang done: its record written once. -/
theorem witness_LaunchesEnd_completes :
    (let s := { (mapped base).modLaunch 0 (fun l => { l with id := 42, compTag := 77, gangs := l.gangs.map fun g => { g with done := true } }) with
       broughtUp := true }
     let s := s.modDie 0 fun d => { d with queues := Tab.put none [] 0 (some ⟨0x38000, 1, 0, 0, 0x3C000, 0⟩), cores := 2 }
     let t := nextOf (exec (.launchComplete 0) s)
     oks [(s.launch 0).shares.length == 0, (base.launch 0).finalStatus == none, (s.launch 0).finalStatus == some 0, (s.launch 0).reported == false, decide s.noCast,
       (s.die 0).takeover == false, (t.launch 0).reported, t.notified == [(0, 0)], t.completions.map (fun x => (x.2.2.extractLsb' 0 32)) == [42],
       (Tab.get none (t.die 0).queues 0).map (·.ctail) == some 1, (nextOf (exec (.launchComplete 0) t)).completions == t.completions])
      = true := by decide +kernel
/-- The same record held during a takeover, written at its end; and both cores of a die's scheduler lost. -/
theorem witness_LaunchesEnd_takeover :
    (let s := { (mapped base).modLaunch 0 (fun l => { l with id := 42, compTag := 77, gangs := l.gangs.map fun g => { g with done := true } }) with
       broughtUp := true }
     let s := s.modDie 0 fun d => { d with queues := Tab.put none [] 0 (some ⟨0x38000, 1, 0, 0, 0x3C000, 0⟩), cores := 2 }
     let k := nextOf (exec (.schedulerTakeover 0) s)
     let h := nextOf (exec (.launchComplete 0) k)
     let e := nextOf (exec (.schedulerTakeover 0) h)
     let f := nextOf (exec (.schedulerPairFailure 0) { base with broughtUp := true })
     let far := (s.modLaunch 0 fun l => { l with rcd := { l.rcd with dies := 3 } }).modDie 1 fun d => { d with takeover := true }
     oks [(s.die 0).schedDead == false, (k.die 0).takeover, k.schedules 0 == false, (h.die 0).heldDone == [0], h.completions.length == 0,
       (e.launch 0).reported, e.schedules 0, (nextOf (exec (.schedulerTakeover 0) State.reset)).dies == State.reset.dies, (f.die 0).schedDead,
       (f.launch 0).state == .ended 10, (f.launch 0).reported, s.takenOver (far.launch 0) == false, far.takenOver (far.launch 0),
       ((nextOf (exec (.launchComplete 0) far)).die 0).heldDone == [0]]) = true := by decide +kernel
/-- A gang rolled back to its checkpoint, with a shadowed line restored; one that has none to go back to, and an aborted one. -/
theorem witness_RollbackAndRedundancy_rollback :
    (let p := gs (sT 2) [(1, 5)]
     let s := (p.modLaunch 0 fun l => { l with rcd := { l.rcd with rollMax := 3, dies := 1 } }).modMe fun k => { k with ckpt := some base.me.toRegs, shadow := [(3, some ⟨0x55, 0, 0, 0⟩)] }
     let stuck := s.modLaunch 0 fun l => { l with gangs := l.gangs.map fun g => { g with nonReplayable := true } }
     let ab := s.modLaunch 0 fun l => { l with abort := true }
     let st (s : State) : LState := ((nextOf (exec (.superstepRollback 0 0) s)).launch 0).state
     let q : Park := ⟨.pipeCheck, 0, 0, 0, 0, 0, true⟩
     let two := { s.modCore (.ord 0 0 1) fun k => { k with launch := some 0, park := some q } with supMail := Tab.put [] s.supMail 0 [.trap (.ord 0 0 1) q 0] }
     let t := nextOf (exec (.superstepRollback 0 0) s)
     oks [(s.rollbackFor 0 0).isSome, (base.rollbackFor 0 0).isNone, s.gangRingFault 0 0 == false, ((s.launch 0).gang 0).placed,
       ((s.launch 0).gang 0).done == false, (s.cancelUnstarted 0 0).unitsFinished 0 0, ((s.launch 0).gang 0).rolling == none,
       (s.launch 0).shares.length == 0, ((s.launch 0).gang 0).members.all fun c => ((s.launch 0).gang 0).allCores.contains c,
       ((s.launch 0).gang 0).allCores.all fun c => Tab.wf none (s.core c).shadow && (s.core c).shadow.all fun p => decide (p.1 < 512),
       ((s.launch 0).gang 0).clusterIds.all fun k => (s.cluster k).shadow.isEmpty,       (s.launch 0).rcd.red == false, (s.launch 0).rcd.rollMax != 0,
       ((t.launch 0).gang 0).rollbacks == 1, t.me.park.isNone, t.me.gv 1 == 0, t.me.toRegs == base.me.toRegs, local8 t 0xC0 == 0x55, t.me.shadow.length == 0,
       st stuck == .ended 8, st ab == .ended 2, Tab.wf none s.me.shadow, s.secondChecks 0 0 == [], (two.secondChecks 0 0).length == 1,
       st two == .ended 1]) = true := by decide +kernel
/-- A redundant launch: gang 0 on core 0, its partner on core 1, in disagreement at rank 0, both parked. -/
def sRed : State :=
  let p : Park := ⟨.dualMismatch, 1, 0, 0, 0, 0, false⟩
  let s := base.modLaunch 0 fun l => { l with
    rcd := { l.rcd with red := true, gangs := 1, redSize := 200 }
    gangs := [{ Gang.blank with placed := true, members := [.ord 0 0 0], disagree := [0] },
              { Gang.blank with placed := true, partner := true, members := [.ord 0 0 1] }] }
  (s.modMe fun k => { k with park := some p }).modCore (.ord 0 0 1) fun k => { k with launch := some 0, gang := 1, park := some p }
/-- The third run asked for, awaited and settled; a superstep that cannot be run again; a held-write buffer half full. -/
theorem witness_RollbackAndRedundancy_redundant :
    (let stuck := sRed.modLaunch 0 fun l => { l with gangs := l.gangs.map fun g => { g with nonReplayable := true } }
     let t := nextOf (exec (.thirdRun 0 0) sRed)
     let run := (t.modLaunch 0 fun l => l.modGang 2 fun g => { g with placed := true, members := [.ord 0 0 2], arrived := [.ord 0 0 2] }).modCore
       (.ord 0 0 2) fun k => { k with launch := some 0, gang := 2 }
     let h : HeldWrite := ⟨.ord 0 0 0, none, 0x20000, List.replicate 8 (0, false), none, none, none⟩
     let held := base.modLaunch 0 fun l => { l with
       rcd := { l.rcd with red := true, gangs := 1, redSize := 200 }
       gangs := l.gangs.map fun g => { g with held := [h] } }
     let f := nextOf (exec (.heldBufferFull 0) held)
     oks [(sRed.launch 0).shares.length == 0, (Tab.get [] sRed.supMail 0).length == 0, sRed.me.park.map (·.second) == some false,
       ((run.launch 0).gang 0).disagree == [0], ((held.launch 0).gang 0).thirdOf == none, held.me.sideLog.length == 0,
       (held.cluster ⟨0, 0⟩).copyLog.length == 0, sRed.wantsThird 0 0, base.wantsThird 0 0 == false, ((sRed.launch 0).thirdRun 0).isNone, (t.launch 0).gangs.length == 3,
       (t.launch 0).thirdRun 0 == some 2, t.barrierReady ((t.launch 0).gang 2) == false, (run.launch 0).thirdRun 0 == some 2,
       run.wantsThird 0 0, run.barrierReady ((run.launch 0).gang 2), ((run.launch 0).gang 2).placed,
       ((nextOf (exec (.thirdRun 0 0) stuck)).launch 0).units == [2 ^ 21, 2 ^ 21 + 1], (f.launch 0).gangs.map (·.held.length) == [0],
       (f.launch 0).gangs.map (·.nonReplayable) == [true]]) = true := by decide +kernel

/-! ### Witnesses: the package interface, casts, bring-up and power -/

/-- A command with its fields at their byte offsets. -/
def cmd (issuer : Option (BitVec 4)) (xs : List (Nat × Nat)) : PkgCmd :=
  ⟨issuer, BitVec.ofNat 1024 (xs.foldl (fun n x => n + x.2 * 2 ^ (8 * x.1)) 0)⟩
/-- The statuses of the responses. -/
def answers (o : Out) : List Nat := (nextOf o).responses.map (·.status)
/-- A report over nonce 7 of partition 2 of package q, its measurement 0. -/
def report (q : BitVec 20) : BitVec 4096 :=
  (0 : BitVec 2472) ++ (2 : BitVec 4) ++ q ++ (0 : BitVec 576) ++ (0 : BitVec 512) ++ (7 : BitVec 512)
/-- What a SEAL_JOIN's peer brings: that report, and key 5 with counter 9 or none. -/
def peer (reached holds : Bool) (q : BitVec 20) : SealPeer :=
  ⟨6, 7, reached, true, report q, if holds then some (5, 9) else none⟩
/-- A machine with partition 1 on die 3, without a key. -/
def sP : State := { State.reset with parts := Tab.put none [] 1 (some ⟨8, 0x5000, 0, none, none, none⟩) }
/-- Each command by an issuer that is not entitled, with another OP, and with a reserved byte set. -/
theorem witness_PackageCommands_refused :
    (let hyp (xs : List (Nat × Nat)) : PkgCmd := cmd none xs
     let own (xs : List (Nat × Nat)) : PkgCmd := cmd (some 1) ((2, 1) :: xs)
     let p := peer true true 0
     let r (f : PkgCmd → Instr) (bad wrong : PkgCmd) : Bool := answers (exec (f bad) sP) == [1] && answers (exec (f wrong) sP) == [2]
     let wait : State := { sP with answers := [.inl 1] }
     oks [sP.answers == [], (nextOf (exec (.partCreate (own [(0, 1)])) wait)).responses == [],
       (nextOf (exec (.partCreate (own [(0, 1)])) wait)).answers.length == 2, r .partCreate (own [(0, 1)]) (hyp [(0, 2)]), r .partDestroy (own [(0, 2)]) (hyp [(0, 2), (8, 1)]), r .vfSet (own [(0, 3)]) (hyp [(0, 3), (11, 1)]),
       r .preempt (hyp [(0, 5)]) (own [(0, 5), (8, 3), (9, 1)]), r .unitReturn (own [(0, 6)]) (hyp [(0, 7)]), r .extend (hyp [(0, 7)]) (own [(0, 7), (100, 1)]),
       r (.sealJoin · p) (hyp [(0, 8)]) (own [(0, 8), (12, 1)]), r .faultReply (cmd (some 2) [(0, 4), (2, 1)]) (hyp [(0, 4), (127, 1)])]) = true := by
  decide +kernel
/-- A partition created, with a misaligned root, and on a die that is taken; a virtual function set; a partition that is not there. -/
theorem witness_PackageCommands_partitions :
    (let c (xs : List (Nat × Nat)) : PkgCmd := cmd none xs
     let s := State.reset
     let t := nextOf (exec (.partCreate (c [(0, 1), (2, 1), (8, 8), (16, 0x5000)])) s)
     let v := nextOf (exec (.vfSet (c [(0, 3), (2, 1), (8, 3), (9, 31), (10, 1), (16, 0x7000)])) t)
     oks [s.answers == [], (s.part 1).isNone, s.ownedDies == 0, t.part 1 == some ⟨8, 0x5000, 0, none, none, none⟩, t.responses.map (·.status) == [0],
       answers (exec (.partCreate (c [(0, 1), (8, 8), (16, 0x5001)])) s) == [2], answers (exec (.partCreate (c [(0, 1), (8, 9)])) t) == [0, 3],
       answers (exec (.partCreate (c [(0, 1), (8, 9), (16, 2 ^ 44)])) t) == [0, 2], (t.ownedBy 1).getLsbD 3,
       Tab.get Vf.blank v.vfs 127 == ⟨1, 0x7000, true, true⟩, answers (exec (.vfSet (c [(0, 3), (2, 1), (8, 3), (9, 32)])) t) == [0, 2],
       answers (exec (.vfSet (c [(0, 3), (2, 1), (8, 2)])) t) == [0, 2], answers (exec (.partDestroy (c [(0, 2)])) t) == [0, 2],
       (c [(0, 2), (2, 1)]).restZero [], answers (exec (.partDestroy (c [(0, 2), (2, 1)])) sP) == [0],
       ((nextOf (exec (.partDestroy (c [(0, 2), (2, 1)])) sP)).part 1).isNone]) = true := by decide +kernel
/-- A launch to pre-empt and none; a unit returned and one not quarantined; a measurement extended; keys made, joined and refused. -/
theorem witness_PackageCommands_owner :
    (let c (xs : List (Nat × Nat)) : PkgCmd := cmd (some 1) ((2, 1) :: xs)
     let s := { sP with
       quarantine := [5], vfs := Tab.put Vf.blank [] 96 ⟨1, 0, true, true⟩
       launches := [(0, some { Launch.blank with die := 3, id := 42, state := .running, queue := 0 })] }
     let u (n : Nat) : Instr := .unitReturn (cmd none [(0, 6), (8, n)])
     let j (flag : Nat) (p : SealPeer) (s : State) : Out := exec (.sealJoin (c [(0, 8), (8, flag)]) p) s
     let tsk (o : Out) : Option (BitVec 256) := ((nextOf o).part 1).bind (·.tsk)
     oks [s.answers == [], (s.ownedBy 1).getLsbD 3, s.partOf 0 == 1, ((nextOf (exec (.preempt (c [(0, 5), (8, 3), (12, 42)])) s)).launch 0).preemptAsked,
       answers (exec (.preempt (c [(0, 5), (8, 3), (12, 41)])) s) == [10], answers (exec (u 5) s) == [0], answers (exec (u 6) s) == [10],
       answers (exec (u (2 ^ 24)) s) == [2], (c [(0, 7)]).restZero [(8, 64)], (s.part 1).isSome, answers (exec (.extend (cmd (some 2) [(0, 7), (2, 2)])) s) == [2],
tsk (j 0 (peer false false 0) s) == some 6, s.attests]) = true := by decide +kernel
/-- Partition 1's command to join partition 2 of package q. -/
def joinCmd (q : BitVec 20) : PkgCmd :=
  ⟨some 1, (0 : BitVec 935) ++ (1 : BitVec 1) ++ (2 : BitVec 4) ++ q ++ (65544 : BitVec 64)⟩
/-- A field of a command is a slice of its bytes. -/
theorem num_eq (c : PkgCmd) (a n : Nat) : c.num a n = (c.bytes.extractLsb' (8 * a) (8 * n)).toNat := by
  simp [PkgCmd.num, BitVec.extractLsb'_toNat, Nat.shiftRight_eq_div_pow]
/-- The fields of a join, whatever the package's number. -/
theorem witness_PackageCommands_joins (q : BitVec 20) : (joinCmd q).issuer = some (joinCmd q).part ∧ (joinCmd q).op = 8 ∧
    (joinCmd q).restZero [(8, 4)] = true ∧ ((joinCmd q).num 8 4).testBit 24 = true ∧ (joinCmd q).num 8 4 < 2 ^ 25 ∧
    (joinCmd q).peerOf = (q, 2) := by
  have low (a n : Nat) (h : a + n ≤ 64) : (joinCmd q).bytes.extractLsb' a n = (65544 : BitVec 64).extractLsb' a n := by
    apply BitVec.eq_of_getLsbD_eq
    intro i hi
    simp only [joinCmd, BitVec.getLsbD_extractLsb', BitVec.getLsbD_append]
    rw [if_pos (by omega)]
  have arg : (joinCmd q).bytes.extractLsb' 64 32 = (0 : BitVec 7) ++ (1 : BitVec 1) ++ (2 : BitVec 4) ++ q := by
    apply BitVec.eq_of_getLsbD_eq
    intro i hi
    simp only [joinCmd, BitVec.getLsbD_extractLsb', BitVec.getLsbD_append, hi, decide_true, Bool.true_and]
    rw [if_neg (by omega), show 64 + i - 64 = i by omega]
    split
    · rfl
    · split
      · rfl
      · split <;> simp
  have num8 : (joinCmd q).num 8 4 = 2 ^ 24 + (2 * 2 ^ 20 + q.toNat) := by
    rw [num_eq]
    refine (congrArg BitVec.toNat arg).trans ?_
    rw [BitVec.toNat_append, show ((0 : BitVec 7) ++ (1 : BitVec 1) ++ (2 : BitVec 4)).toNat = 18 by decide,
      ← Nat.shiftLeft_add_eq_or_of_lt q.isLt]
    omega
  have part : (joinCmd q).part = 1 := (low 16 4 (by omega)).trans (by decide)
  refine ⟨by rw [part]; rfl, ?_, ?_, ?_, ?_, ?_⟩
  · simp only [PkgCmd.op, num_eq]; rw [low 0 16 (by omega)]; decide
  · simp only [PkgCmd.restZero, Bool.and_eq_true, decide_eq_true_eq, List.all_eq_true, List.mem_range]
    refine ⟨?_, fun i hi => ?_⟩
    · rw [num_eq, low 16 16 (by omega)]; decide
    · by_cases h : i < 4
      · simp; left; omega
      · have z : (joinCmd q).num (i + 8) 1 = 0 := by
          rw [num_eq]
          have e : (joinCmd q).bytes.extractLsb' (8 * (i + 8)) (8 * 1) = 0#(8 * 1) := by
            apply BitVec.eq_of_getLsbD_eq
            intro j hj
            simp only [joinCmd, BitVec.getLsbD_extractLsb', BitVec.getLsbD_append]
            rw [if_neg (by omega), if_neg (by omega), if_neg (by omega), if_neg (by omega)]
            simp
          rw [e]; rfl
        simp [z]
  · rw [num8, Nat.testBit_two_pow_add_eq, Nat.testBit_lt_two_pow (by omega)]; rfl
  · omega
  · simp only [PkgCmd.peerOf, Prod.mk.injEq]
    constructor <;> apply BitVec.eq_of_getLsbD_eq <;> intro i hi <;>
      simp only [joinCmd, BitVec.getLsbD_extractLsb', BitVec.getLsbD_append, hi, decide_true, Bool.true_and]
    · rw [if_neg (by omega), if_pos (by omega), show 64 + i - 64 = i by omega]
    · rw [if_neg (by omega), if_neg (by omega), if_pos (by omega), show 84 + i - 64 - 20 = i by omega]
/-- What its report holds. -/
theorem witness_PackageCommands_report (q : BitVec 20) : (report q).extractLsb' 0 512 = (peer true true q).nonce ∧
    (report q).extractLsb' 512 512 = (0 : BitVec 512) ∧ (report q).extractLsb' 1600 20 = q ∧
    (report q).extractLsb' 1620 4 = (2 : BitVec 4) ∧ (report q).extractLsb' 1624 8 = (0 : BitVec 8) := by
  refine ⟨?_, ?_, ?_, ?_, ?_⟩ <;> apply BitVec.eq_of_getLsbD_eq <;> intro i hi <;>
    simp only [report, peer, BitVec.getLsbD_extractLsb', BitVec.getLsbD_append, hi, decide_true, Bool.true_and]
  · rw [if_pos (by omega), Nat.zero_add]
  · rw [if_neg (by omega), if_pos (by omega)]; simp
  · rw [if_neg (by omega), if_neg (by omega), if_neg (by omega), if_pos (by omega), show 1600 + i - 512 - 512 - 576 = i by omega]
  · rw [if_neg (by omega), if_neg (by omega), if_neg (by omega), if_neg (by omega), if_pos (by omega),
      show 1620 + i - 512 - 512 - 576 - 20 = i by omega]
  · rw [if_neg (by omega), if_neg (by omega), if_neg (by omega), if_neg (by omega), if_neg (by omega)]; simp
/-- A package that is not this one. -/
theorem witness_PackageCommands_other : ∃ q : BitVec 20, q ≠ Config.packageId := by
  by_cases h : Config.packageId = 0
  · exact ⟨1, by rw [h]; decide⟩
  · exact ⟨0, fun e => h e.symm⟩
/-- What a partition of this package gives: its key and counter, no key, another measurement, and none there. -/
theorem witness_PackageCommands_local :
    (let s (k : Option (BitVec 256)) (m : BitVec 512) : State := { sP with counters := Tab.put 0 [] 2 9, parts := Tab.put none sP.parts 2 (some ⟨4, 0, m, k, none, none⟩) }
     let is (x : SealAnswer) (n : Nat) : Bool := match x with | .error e => e == n | .ok _ => false
     oks [match (s (some 5) 0).sealLocal 1 2 with | .ok x => x == (5, 9) | .error _ => false, is ((s none 0).sealLocal 1 2) 4,
       is ((s (some 5) 1).sealLocal 1 2) 8, is (sP.sealLocal 1 2) 8, sP.attests, sP.castBusy 1 == false]) = true := by decide +kernel
/-- A posted fault answered with a retry and with a decline; a wrong action, a wrong token, and the right's owner. -/
theorem witness_FaultRepliesAndRestore_faults :
    (let f := nextOf (exec (.gld ⟨.next, 3, 8, false, 0⟩) sG)
     let s := nextOf (exec (.translationFault (.core f.cur)) f)
     let n := (s.xfaults.map (·.token)).headD 0
     let c (x a : Nat) : Instr := .faultReply (cmd (some 0) [(0, 4), (8, x), (16, a)])
     let ph (o : Out) : Phase := ((nextOf o).core f.cur).phase
     oks [s.answers == [], s.xfaults.map (·.posted) == [true], s.xfaults.map (·.stage2) == [false], s.me.phase == .xlate n, ph (exec (c n 0) s) == .idle,
       ph (exec (c n 1) s) == .refused 0x2000000000, answers (exec (c n 2) s) == [2], answers (exec (c (n + 1) 0) s) == [10],
       answers (exec (c n 0) s) == [0], s.me.sideLog.length == 0, answers (exec (.faultReply (cmd (some 0) [(0, 4), (8, n), (16, 1)]))
         { s with xfaults := s.xfaults.map fun f => { f with part := 1 } }) == [1]]) = true := by decide +kernel
/-- A held RESTORE whose owner declines its fault: both are answered, in order. -/
theorem witness_FaultRepliesAndRestore_declined :
    (let r := cmd (some 1) [(0, 9), (2, 1), (4, 3)]
     let f : XFault := { token := 4, ag := .pour, va := 0, gpa := 0, stage2 := false, nested := false, kind := 0, level := 4, access := 0, part := 1, posted := true, vec := false }
     let s := { sP with mem := [(0x50010, 7)], xfaults := [f], answers := [.inl 1], parts := Tab.put none [] 1 (some ⟨8, 0x5000, 0, none, none, some (r, 4, [0x50000])⟩) }
     let t := nextOf (exec (.faultReply (cmd (some 1) [(0, 4), (2, 1), (8, 4), (16, 1)])) s)
     oks [t.responses.map (fun x => (x.op, x.status, x.ctag.toNat)) == [(9, 9, 3), (4, 0, 0)], t.answers == [], r.part == 1]) = true := by decide +kernel
/-- A RESTORE by another partition, of another's function, with a cast in flight, without a key, and of too few bytes. -/
theorem witness_FaultRepliesAndRestore_restore :
    (let s := { sP with vfs := Tab.put Vf.blank [] 96 ⟨1, 0, true, true⟩ }
     let keyed := { s with parts := Tab.put none [] 1 (some ⟨8, 0x5000, 0, some 5, none, none⟩) }
     let c (who : BitVec 4) (vf len : Nat) : Instr := .restore (cmd (some who) [(0, 9), (2, 1), (8, 3), (9, vf), (24, len)])
     oks [keyed.answers == [], answers (exec (c 2 0 0) s) == [1], answers (exec (c 1 1 0) s) == [1], answers (exec (c 1 0 0) s) == [4], answers (exec (c 1 0 127) keyed) == [5],
       (s.part 1).isSome, (cmd (some 1) [(0, 9), (2, 1), (8, 3), (24, 127)]).restZero [(8, 2), (16, 16)]]) = true := by decide +kernel
/-- A store that failed, one that verified, one written since, and one with an item out of its range. -/
theorem witness_BringUpAlarmsAndPower :
    (let t := nextOf (exec .bringUp State.reset)
     let fail := { State.reset with conf := { ConfStore.default with sign := .sotaryn false } }
     let new (c : ConfStore) : State := { State.reset with newStore := some c }
     oks [State.reset.broughtUp == false, t.broughtUp, (match exec .bringUp fail with | .fault .recoveryInterface => true | _ => false),
       (nextOf (exec .bringUp (new { ConfStore.default with powerCap := 9000 }))).conf.powerCap == 9000,
       (match exec .bringUp (new { ConfStore.default with pourShare := 65 }) with | .fault .recoveryInterface => true | _ => false), t.fport 0 == State.reset.fport 0,
       ((t.turn (.train 0)).1.fport 0).state == .training,
       (nextOf (exec .bringUp t)).clock == t.clock]) = true := by decide +kernel
/-- An alarm of each class; the cap and a check window at their edges. -/
theorem witness_BringUpAlarmsAndPower_alarms :
    (let s := base
     let al (n : BitVec 8) : State := nextOf (exec (.securityAlarm 0) { s with conf := { ConfStore.default with alarmCls := n } })
     let c : CoreId := s.cur
     let w := s.modMe fun k => { k with checkAt := some 5 }
     let win (n : Nat) : Option Nat := ((nextOf (exec (.checkWindowExpiry (.core c)) { w with clock := n })).core c).checkAt
     let v := s.modSvu u0 fun x => { x with checkAt := some 5 }
     oks [(al 0).alarms.length == 1, ((al 0).launch 0).reported == false, ((al 1).launch 0).reported,
       (al 2).attests, (al 3).attests == false, (al 3).alarms.map (·.cls) == [3], (nextOf (exec (.powerCapThrottle 10000) s)).throttle == 1,
       (nextOf (exec (.powerCapThrottle 9999) s)).throttle == 0, (nextOf (exec (.powerRestoreClocks 9999) { s with throttle := 1 })).throttle == 0,
       (nextOf (exec (.powerRestoreClocks 10000) { s with throttle := 1 })).throttle == 1, win (5 + 2 ^ 30) == none, win (4 + 2 ^ 30) == some 5,
       ((nextOf (exec (.checkWindowExpiry (.svu u0)) { v with clock := 5 + 2 ^ 30 })).svu u0).checkAt == none]) = true := by decide +kernel
/-- A core of a partition that holds a key, g1 to g5 the addresses of a cast descriptor at 0x40 and of places for a report. -/
def sQ : State :=
  let s := gs (locals (mapped base) [(0x40, 0x20000), (0x48, 1), (0x50, 0x30000), (0x58, 5), (0x60, 6), (0x68, 0x40000), (0x70, 65536)])
    [(1, 0x40), (2, 0x48), (3, 0x7FC0), (4, 0x8000), (5, 0x7FE00), (6, 0x7FE40)]
  { s with parts := Tab.put none s.parts 0 (some ⟨1, 0x10000, 7, some 9, none, none⟩), counters := Tab.put 0 [] 0 3 }
/-- The counter read; a cast issued, cancelled and refused; a report written and refused; and the operands that trap. -/
theorem witness_PackageInstructions :
    (let o (a : BitVec 5) : XHA := ⟨.next, 2, a, false, false⟩
     let t := nextOf (exec (.pcast (o 1)) sQ)
     let busy : State := { sQ with parts := t.parts }
     let nokey : State := { sQ with parts := Tab.put none sQ.parts 0 (some ⟨1, 0x10000, 7, none, none, none⟩) }
     let w (x : Out) : DWord := ((nextOf x).me.hreg 2).val
     let null := locals sQ [(0x40, 0xFC00000000020000)]
     oks [(castDesc (null.mem.readN (localBase sQ.cur + 0x40) 64)).toOption.isNone, causeOf (exec (.pcast (o 1)) null) == some (.format, 0xFC00000000020000),
       causeOf (exec (.pcast (o 1)) (locals sQ [(0x48, 0)])) == some (.illegalOperand, 1),
       sQ.ready (len2 .next) .next, sQ.fullG 1, sQ.freeG 7, gOf (exec (.pctr ⟨.next, 7⟩) sQ) 7 == 3, sQ.partOf 0 == 0, sQ.me.ct == false,
       (castDesc (sQ.mem.readN (localBase sQ.cur + 0x40) 64)).toOption.isSome, sQ.castBusy 0 == false, ((t.part 0).bind (·.cast)).isSome, (t.me.hreg 2).fill == .pending,
       w (exec (.pcast (o 1)) busy) == 0x6000000000000200, w (exec (.pcast (o 1)) nokey) == 0x6000000000000600,
       causeOf (exec (.pcast (o 2)) sQ) == some (.alignment, 0x48), causeOf (exec (.pquote (o 2)) sQ) == some (.alignment, 0x48),
       causeOf (exec (.pcast (o 4)) sQ) == some (.illegalOperand, 1), causeOf (exec (.pcast (o 3)) sQ) == some (.illegalOperand, 1),
       causeOf (exec (.pquote (o 6)) sQ) == some (.illegalOperand, 1), causeOf (exec (.pquote ⟨.next, 2, 1, false, false⟩) (gs (mapped rbase) [(1, 0)])) ==
         some (.illegalOperand, 1), w (exec (.pquote (o 5)) { sQ with attests := false }) == 0x6001000000000600,
       sQ.attests, sQ.me.ystores.length == 0]) = true := by decide +kernel
/-- A cut cast of one page: pre-images kept once, the wait of one that is not cut, and completion with nothing left. -/
theorem witness_CastsDrain :
    (let s := nextOf (exec (.pcast ⟨.next, 2, 1, false, false⟩) sQ)
     let with_ (f : Cast → Cast) : State := { s with parts := Tab.put none s.parts 0 (some ⟨1, 0x10000, 7, some 9, ((s.part 0).bind (·.cast)).map f, none⟩) }
     let cut := with_ fun k => { k with cut := true, marked := [0x20], table := [(0x20000, 4096)], c := 4 }
     let cast (s : State) : Option Cast := (s.part 0).bind (·.cast)
     let c1 := nextOf (exec (.cowPrecopy 0 0x20) cut)
     let dry := with_ fun k => { k with cut := true, drained := true, c := 4 }
     let e := nextOf (exec (.castComplete 0) dry)
     let last := with_ fun k => { k with cut := true, next := 2, table := [(0x20000, 4096)] }
     let k0 := (cast cut).map fun k => s.pourBlocked k [0x20000]
     oks [k0 == some false, (cast base).isNone, (cast cut).isSome, (cast c1).map (fun k => k.staged.map (·.1)) == some [0x20],
       (cast (nextOf (exec (.cowPrecopy 0 0x20) c1))).map (·.staged.length) == some 1, (cast (nextOf (exec (.cowPrecopy 0 0x21) cut))).map (·.staged.length) == some 0,
       (cast (nextOf (exec (.pourDrain 0) s))).map (·.next) == some 0, cut.pourWaits 0 == false, segmentPages [(0x20000, 4096)] 1 == [],
       (cast (nextOf (exec (.pourDrain 0) last))).map (·.drained) == some true, Tab.get 0 e.counters 0 == 4, (cast e).isNone,
       (e.me.hreg 2).val == 0x6000000000000000, (e.me.hreg 2).fill == .full, (s.core s.cur).launch == some 0]) = true := by decide +kernel

/-! ### Witness: a cast that restores -/

/-- The exclusive or of lists of bytes is as long as the shorter. -/
theorem length_xorBytes (a b : List Byte) : (xorBytes a b).length = min a.length b.length := by simp [xorBytes]
/-- A block of the hash takes eight words to eight. -/
theorem length_shaBlock {h : List (BitVec 64)} (hh : h.length = 8) (b : List Byte) : (shaBlock h b).length = 8 := by
  have step (xs : List (BitVec 64)) : ∀ v : List (BitVec 64), v.length = 8 → (xs.foldl shaRound v).length = 8 := by
    induction xs with
    | nil => intro v hv; exact hv
    | cons x xs ih => intro v _; exact ih _ rfl
  simp only [shaBlock, List.length_map, List.length_zip, hh]
  rw [step _ h hh]; rfl
/-- A digest has 64 bytes. -/
theorem length_sha512 (bs : List Byte) : (sha512 bs).length = 64 := by
  have blocks (n : Nat) : ∀ (h : List (BitVec 64)) (m : List Byte), h.length = 8 → (shaBlocks n h m).length = 8 := by
    induction n with
    | zero => intro h m hh; exact hh
    | succ n ih => intro h m hh; exact ih _ _ (length_shaBlock hh _)
  have flat (ws : List (BitVec 64)) : (ws.flatMap fun w => (bytesOfNat 8 w.toNat).reverse).length = 8 * ws.length := by
    induction ws with
    | nil => rfl
    | cons w ws ih => simp only [List.flatMap_cons, List.length_append, ih, List.length_reverse, List.length_cons]; simp [bytesOfNat]; omega
  simp only [sha512]
  rw [flat, blocks _ _ _ (by simp [shaInit, primes80])]
/-- The round keys of a key of 32 bytes have 16 bytes each. -/
theorem length_aesKey {key : List Byte} (hk : key.length = 32) {n : Nat} (hn : n < 15) :
    ((aesKeys aesTable key).getD n []).length = 16 := by
  have grow (t : List Byte) (m : Nat) : ∀ (i : Nat) (rc : Byte) (w : List (List Byte)), 8 ≤ w.length → (∀ x ∈ w, x.length = 4) →
      (aesExpand t m i rc w).length = m + w.length ∧ ∀ x ∈ aesExpand t m i rc w, x.length = 4 := by
    induction m with
    | zero => intro i rc w _ h; exact ⟨by simp [aesExpand], h⟩
    | succ m ih =>
      intro i rc w hw h
      have at_ (j : Nat) (hj : j < 8) : (w.getD j []).length = 4 := by
        rw [List.getD_eq_getElem _ _ (by omega)]; exact h _ (List.getElem_mem _)
      have h0 := at_ 0 (by omega)
      have h7 := at_ 7 (by omega)
      simp only [aesExpand]
      refine (ih _ _ _ (by simp; omega) ?_).imp (fun e => by rw [e]; simp; omega) id
      intro x hx
      rcases List.mem_cons.1 hx with rfl | hx
      · rw [length_xorBytes, h7]
        generalize w.getD 0 [] = y at h0 ⊢
        split
        · rw [length_xorBytes]; simp [h0]
        · split <;> simp [h0]
      · exact h x hx
  have w0 : ∀ x ∈ ((List.range 8).map fun i => (key.drop (4 * i)).take 4).reverse, x.length = 4 := by
    intro x hx
    simp only [List.mem_reverse, List.mem_map, List.mem_range] at hx
    obtain ⟨i, hi, rfl⟩ := hx
    simp [hk]; omega
  obtain ⟨hl, hm⟩ := grow aesTable 52 8 1 _ (by simp) w0
  simp only [List.length_reverse, List.length_map, List.length_range] at hl
  simp only [aesKeys]
  rw [List.getD_eq_getElem _ _ (by simpa using hn)]
  simp only [List.getElem_map, List.getElem_range]
  generalize hw : (aesExpand aesTable 52 8 1 _).reverse = w at *
  have hl' : w.length = 60 := by rw [← hw]; simpa using hl
  have hm' : ∀ x ∈ w, x.length = 4 := by rw [← hw]; intro x hx; exact hm x (by simpa using hx)
  rw [List.length_flatten]
  have four : ((w.drop (4 * n)).take 4).map List.length = List.replicate 4 4 := by
    apply List.eq_replicate_iff.2
    refine ⟨by simp [hl']; omega, fun x hx => ?_⟩
    obtain ⟨y, hy, rfl⟩ := List.mem_map.1 hx
    exact hm' y (List.mem_of_mem_drop (List.mem_of_mem_take hy))
  rw [four]; rfl
/-- A block encrypts to 16 bytes. -/
theorem length_aesBlock {key : List Byte} (hk : key.length = 32) (b : List Byte) :
    (aesBlock aesTable (aesKeys aesTable key) b).length = 16 := by
  simp only [aesBlock]
  rw [length_xorBytes, length_aesKey hk (by omega)]
  simp [aesShift]
/-- The last element's tail of counter mode, block by block: as many bytes as it was given. -/
theorem length_ctrMode {key : List Byte} (hk : key.length = 32) (iv : List Byte) (c n : Nat) {bs : List Byte}
    (h : bs.length = 16 * n) : (ctrMode aesTable (aesKeys aesTable key) iv c bs).length = bs.length := by
  have e : (bs.length + 15) / 16 = n := by omega
  simp only [ctrMode, e]
  have go (m : Nat) : m ≤ n → ((List.range m).flatMap fun i =>
      xorBytes ((bs.drop (16 * i)).take 16) (aesBlock aesTable (aesKeys aesTable key) (iv ++ bytesBig 4 (c + i)))).length = 16 * m := by
    induction m with
    | zero => simp
    | succ m ih =>
      intro hm
      simp only [List.range_succ, List.flatMap_append, List.length_append, ih (by omega), List.flatMap_cons, List.flatMap_nil,
        List.append_nil, length_xorBytes, length_aesBlock hk, List.length_take, List.length_drop]
      omega
  rw [go n (by omega), h]
/-- A sealing key's content key has 32 bytes. -/
theorem length_castKey (k : BitVec 256) (p : BitVec 512) (c : DWord) (g : BitVec 20) : (castKey k p c g).length = 32 := by
  simp [castKey, hkdf512, hmac512, length_sha512]
/-- The tag of a ciphertext opens it. -/
theorem gcm_open_tag (key iv aad ct : List Byte) :
    gcmOpen key iv aad ct (gcmTag aesTable (aesKeys aesTable key) iv aad ct) = some (ctrMode aesTable (aesKeys aesTable key) iv 2 ct) := by
  simp [gcmOpen]

/-- A memory that holds the tables of `mapped` maps the first GiB to itself. -/
theorem translate_mapped {m : Memory} (h : ∀ a < 0x15000, m.read a = (mapped State.reset).mem.read a) {va : Nat}
    (hv : va < 2 ^ 30) {acc : Nat} (ha : acc < 2) : translate m 0x12000 0x10000 va acc = .ok va := by
  have word (a : Nat) (ha : a + 8 ≤ 0x15000) : natOfBytes (m.readN a 8) = natOfBytes ((mapped State.reset).mem.readN a 8) := by
    simp only [Memory.readN]
    rw [h a (by omega), h (a + 1) (by omega), h (a + 1 + 1) (by omega), h (a + 1 + 1 + 1) (by omega),
      h (a + 1 + 1 + 1 + 1) (by omega), h (a + 1 + 1 + 1 + 1 + 1) (by omega), h (a + 1 + 1 + 1 + 1 + 1 + 1) (by omega),
      h (a + 1 + 1 + 1 + 1 + 1 + 1 + 1) (by omega)]
  have at_ (a : Nat) (ha : a + 8 ≤ 0x15000) (v : Nat) (e : natOfBytes ((mapped State.reset).mem.readN a 8) = v) :
      natOfBytes (m.readN a 8) = v := (word a ha).trans e
  have e0 := at_ 0x10000 (by omega) 0x11003 (by decide +kernel)
  have e1 := at_ 0x11000 (by omega) 0xD (by decide +kernel)
  have e2 := at_ 0x12000 (by omega) 0x13003 (by decide +kernel)
  have e3 := at_ 0x13000 (by omega) 0x14003 (by decide +kernel)
  have e4 := at_ 0x14000 (by omega) 0xD (by decide +kernel)
  have w2 (g : Nat) (hg : g < 2 ^ 30) : walk2 m g 4 0x10000 = .ok ⟨g, true, true, 0, 1⟩ := by
    have i0 : pteIndex 4 0 g = 0 := by simp [pteIndex]; omega
    have i1 : pteIndex 4 1 g = 0 := by simp [pteIndex]; omega
    have d0 : decodePte 4 0 0x11003 = .ok (.table 0x11000) := by decide
    have d1 : decodePte 4 1 0xD = .ok (.leaf 0 true true 0) := by decide
    have gm : g % 1073741824 = g := by omega
    have pg : populated g = true := by simp [populated]; omega
    simp [walk2, i0, i1, e0, e1, d0, d1, gm, pg, show populated 0x10000 = true by decide, show populated 0x11000 = true by decide]
  have i0 : pteIndex 5 0 va = 0 := by simp [pteIndex]; omega
  have i1 : pteIndex 5 1 va = 0 := by simp [pteIndex]; omega
  have i2 : pteIndex 5 2 va = 0 := by simp [pteIndex]; omega
  have d0 : decodePte 5 0 0x13003 = .ok (.table 0x13000) := by decide
  have d1 : decodePte 5 1 0x14003 = .ok (.table 0x14000) := by decide
  have d2 : decodePte 5 2 0xD = .ok (.leaf 0 true true 0) := by decide
  have vm : va % 1073741824 = va := by omega
  have w1 : walk1 m 0x10000 va 5 0x12000 = .ok ⟨va, true, true, 0, 2⟩ := by
    simp [walk1, i0, i1, i2, w2 0x12000 (by omega), w2 0x13000 (by omega), w2 0x14000 (by omega), e2, e3, e4, d0, d1, d2, vm]
    omega
  simp [Sys2Proof.Machine.translate, w1, w2 va hv]
/-- n bytes and m bytes after them are n + m bytes. -/
theorem readN_add (m : Memory) (a n k : Nat) : m.readN a (n + k) = m.readN a n ++ m.readN (a + n) k := by
  induction n generalizing a with
  | zero => simp [Memory.readN]
  | succ n ih => rw [Nat.add_right_comm]; simp only [Memory.readN, List.cons_append, ih]; rw [show a + 1 + n = a + (n + 1) by omega]
/-- Whether parts follow each other from an address. -/
def follows : Nat → List (Nat × Nat) → Bool
  | _, [] => true
  | a, (b, n) :: ps => a == b && follows (a + n) ps
/-- Such parts, read one after the other, are one range. -/
theorem readN_parts (m : Memory) (ps : List (Nat × Nat)) (a : Nat) (h : follows a ps = true) :
    (ps.flatMap fun x => m.readN x.1 x.2) = m.readN a (ps.map Prod.snd).sum := by
  induction ps generalizing a with
  | nil => rfl
  | cons p ps ih =>
    simp only [follows, Bool.and_eq_true, beq_iff_eq] at h
    obtain ⟨rfl, h⟩ := h
    simp only [List.flatMap_cons, List.map_cons, List.sum_cons, readN_add, ih _ h]
/-- What has been written is read. -/
theorem readN_writeN (m : Memory) (a : Nat) (bs : List Byte) (x n : Nat) (h : a ≤ x) (hn : x + n ≤ a + bs.length) :
    (m.writeN a bs).readN x n = (bs.drop (x - a)).take n := by
  induction n generalizing x with
  | zero => simp [Memory.readN]
  | succ n ih =>
    simp only [Memory.readN]
    rw [ih (x + 1) (by omega) (by omega), Memory.read_writeN, if_pos h]
    rw [List.drop_eq_getElem_cons (by omega : x - a < bs.length), List.take_succ_cons, show x + 1 - a = x - a + 1 by omega]
    congr 1
    rw [List.getElem?_eq_getElem (by omega)]; rfl
/-- A virtual function of the mapped partition reads the bytes of its first GiB as memory holds them. -/
theorem vfRead_mapped {s : State} {v : Vf} (h : ∀ a < 0x15000, s.mem.read a = (mapped State.reset).mem.read a)
    (hv : v.s1root = 0x12000) (hr : s.s2root v.part = 0x10000) (hu : s.uncorr = []) (hp : s.poison = []) (a n : Nat)
    (hf : follows a (lineParts a n) = true) (hs : ((lineParts a n).map Prod.snd).sum = n)
    (hb : (lineParts a n).all (fun x => decide (x.1 < 2 ^ 30)) = true) :
    s.vfRead v (lineParts a n) = .ok (some (s.mem.readN a n)) := by
  have go (ps : List (Nat × Nat)) (hb : ps.all (fun x => decide (x.1 < 2 ^ 30)) = true) :
      s.vfRead v ps = .ok (some (ps.flatMap fun x => s.mem.readN x.1 x.2)) := by
    induction ps with
    | nil => rfl
    | cons p ps ih =>
      obtain ⟨b, k⟩ := p
      simp only [List.all_cons, Bool.and_eq_true, decide_eq_true_eq] at hb
      have bad : (s.bad b k).isSome = false := by simp [State.bad, hu, hp, Tab.get]
      simp [State.vfRead, State.vfXlate, hv, hr, translate_mapped h hb.1 (by omega : 0 < 2), ih hb.2, bad]
  rw [go _ hb, readN_parts _ _ _ hf, hs]

/-- The header of a cast of one range. -/
def castHd : List Byte :=
  [0x43, 0x41, 0x53, 0x54] ++ bytesOfNat 4 1 ++ List.replicate 64 0 ++ bytesOfNat 8 4 ++ bytesOfNat 4 7 ++ bytesOfNat 4 3
    ++ List.replicate 16 0 ++ bytesOfNat 4 1 ++ List.replicate 4 0
/-- Its range table: n pages at 0x100000. -/
def castTb (n : Nat) : List Byte := bytesOfNat 8 0x100000 ++ bytesOfNat 8 (4096 * n)
/-- Its content key. -/
def castK : List Byte := castKey 5 0 4 7
/-- The tag of associated data and ciphertext under that key. -/
def castTag (i : Nat) (aad ct : List Byte) : List Byte := gcmTag aesTable (aesKeys aesTable castK) (castIv 4 i) aad ct
/-- A machine whose HBM holds that cast at 0x400000, its segment of p pages all zero before sealing undone. -/
def sRes (n p : Nat) : State :=
  let s := mapped State.reset
  { s with
    parts := Tab.put none [] 0 (some ⟨1, 0x10000, 0, some 5, none, none⟩)
    mem := (s.mem.writeN 0x400000 (castHd ++ castTb n ++ castTag headerIndex (castHd ++ castTb n) [])).writeN
      (0x400000 + 144 + 4608 * p) (castTag 0 [] (List.replicate (4608 * p) 0)) }
/-- A tag has 16 bytes. -/
theorem length_castTag (i : Nat) (aad ct : List Byte) : (castTag i aad ct).length = 16 := by
  have h (b : List Byte) : (aesBlock aesTable (aesKeys aesTable castK) b).length = 16 := length_aesBlock (length_castKey 5 0 4 7) b
  simp only [castTag, gcmTag, length_xorBytes, h]
  simp [bytesBig, bytesOfNat]
/-- Past its last entry a table reads as blank. -/
theorem get_past (d : Byte) (t : Tab Byte) {b a : Nat} (h : t.all (fun x => decide (x.1 < b)) = true) (ha : b ≤ a) : Tab.get d t a = d := by
  induction t with
  | nil => rfl
  | cons x t ih =>
    simp only [List.all_cons, Bool.and_eq_true, decide_eq_true_eq] at h
    simp only [Tab.get]
    rw [if_neg (by omega), ih h.2]

/-- The memory of that machine, at its tables, at the head of the cast, and at its segment. -/
theorem sRes_reads {n p : Nat} (hp : p ≤ 16) :
    (∀ a < 0x400000, (sRes n p).mem.read a = (mapped State.reset).mem.read a) ∧
    (sRes n p).mem.readN 0x400000 112 = castHd ∧
    (sRes n p).mem.readN 0x400070 32 = castTb n ++ castTag headerIndex (castHd ++ castTb n) [] ∧
    (sRes n p).mem.readN 0x400090 (4608 * p + 16) = List.replicate (4608 * p) 0 ++ castTag 0 [] (List.replicate (4608 * p) 0) := by
  have l1 : castHd.length = 112 := by decide
  have l2 : (castTb n).length = 16 := by simp [castTb, bytesOfNat]
  have l3 := length_castTag headerIndex (castHd ++ castTb n) []
  have l4 := length_castTag 0 [] (List.replicate (4608 * p) 0)
  -- the head is not touched by the segment's tag
  have head (a k : Nat) (h : a + k ≤ 0x400090) : (sRes n p).mem.readN a k =
      ((mapped State.reset).mem.writeN 0x400000 (castHd ++ castTb n ++ castTag headerIndex (castHd ++ castTb n) [])).readN a k := by
    induction k generalizing a with
    | zero => simp only [Memory.readN]
    | succ k ih =>
      simp only [Memory.readN]
      rw [ih (a + 1) (by omega)]
      simp only [sRes]
      rw [Memory.read_writeN_outside _ _ _ (by omega)]
  refine ⟨fun a ha => ?_, ?_, ?_, ?_⟩
  · simp only [sRes]
    rw [Memory.read_writeN_outside _ _ _ (by omega), Memory.read_writeN_outside _ _ _ (by omega)]
  · rw [head _ _ (by omega), readN_writeN _ _ _ _ _ (by omega) (by simp [l1, l2, l3])]
    simp [l1]
  · rw [head _ _ (by omega), readN_writeN _ _ _ _ _ (by omega) (by simp [l1, l2, l3])]
    simp [l1, l2, l3]
  · rw [readN_add]
    refine congrArg₂ (· ++ ·) ?_ ?_
    · have zero (k : Nat) : ∀ a, 0x400090 ≤ a → a + k ≤ 0x400090 + 4608 * p → (sRes n p).mem.readN a k = List.replicate k 0 := by
        induction k with
        | zero => intro a _ _; simp [Memory.readN]
        | succ k ih =>
          intro a h h'
          simp only [Memory.readN, List.replicate_succ, ih (a + 1) (by omega) (by omega), List.cons.injEq, and_true]
          simp only [sRes]
          rw [Memory.read_writeN_outside _ _ _ (by omega), Memory.read_writeN_outside _ _ _ (by simp [l1, l2, l3]; omega)]
          exact get_past _ _ (b := 0x400090) (by decide +kernel) h
      exact zero _ _ (by omega) (by omega)
    · simp only [sRes]
      rw [readN_writeN _ _ _ _ _ (by omega) (by omega), show 0x400090 + 4608 * p - (0x400000 + 144 + 4608 * p) = 0 by omega,
        List.drop_zero, List.take_of_length_le (by omega)]
/-- The hypotheses of a RESTORE whose first segment passes: with one page it is the whole cast, with seventeen the second
segment is missing. -/
theorem witness_FaultRepliesAndRestore_passes (n p : Nat) (hn : (n, p) = (1, 1) ∨ (n, p) = (17, 16)) :
    let s := sRes n p
    let c := cmd (some 0) [(0, 9), (16, 0x400000), (24, 160 + 4608 * p)]
    let v := Tab.get Vf.blank s.vfs (32 * (c.num 8 1 % 16) + c.num 9 1)
    let va := c.num 16 8
    let len := c.num 24 8
    let h : CastHead := ⟨0, 4, 7, 3, 0, 0, 1⟩
    let bs := castTb n ++ castTag headerIndex (castHd ++ castTb n) []
    let t := [(0x100000, 4096 * n)]
    let size := 4096 * min 16 (rangePages t).length
    let sealed := List.replicate (4608 * p) 0 ++ castTag 0 [] (List.replicate (4608 * p) 0)
    s.answers = [] ∧ c.issuer = some c.part ∧ c.op = 9 ∧ c.restZero [(8, 2), (16, 16)] = true ∧ c.num 8 1 < 16 ∧ c.num 9 1 < 32 ∧
    s.part c.part = some ⟨1, 0x10000, 0, some 5, none, none⟩ ∧ va + len ≤ 2 ^ 56 ∧ v.assigned = true ∧ v.part = c.part ∧
    128 ≤ len ∧ s.vfRead v (lineParts va 112) = .ok (some castHd) ∧ castHead castHd = some h ∧
    128 + 16 * h.nrange ≤ len ∧ s.vfRead v (lineParts (va + 112) (16 * h.nrange + 16)) = .ok (some bs) ∧
    castK = castKey 5 h.pmr h.c h.pkg ∧
    gcmOpen castK (castIv h.c headerIndex) (castHd ++ bs.take (16 * h.nrange)) [] (bs.drop (16 * h.nrange)) ≠ none ∧
    rangeTable (bs.take (16 * h.nrange)) h.nrange = some t ∧ (Tab.get 0 s.counters c.part.toNat).toNat ≤ h.c.toNat ∧
    (rangePages t).length = n ∧ size + size / 8 = 4608 * p ∧ 144 + 4608 * p + 16 = len ∧ (t.map Prod.snd).sum / 4096 = n ∧ s.noCast ∧
    s.vfRead v (lineParts (va + 144) (4608 * p + 16)) = .ok (some sealed) ∧
    (∃ plain, gcmOpen castK (castIv h.c 0) [] (sealed.take (4608 * p)) (sealed.drop (4608 * p)) = some plain ∧
      plain.length = 4608 * p) ∧
    ∀ i < p, (rangePages t)[i]? = some (0x100000 + 4096 * i) ∧ ∀ mem : Memory,
      (∀ a, (∀ j < p, a < 0x100000 + 4096 * j ∨ 0x100000 + 4096 * j + 4096 ≤ a) → mem.read a = s.mem.read a) →
      translate mem v.s1root (s.s2root v.part) (0x100000 + 4096 * i) 1 = .ok (0x100000 + 4096 * i) := by
  intro s c v va len h bs t size sealed
  have hp : p ≤ 16 := by rcases hn with h | h <;> simp at h <;> omega
  obtain ⟨r0, r1, r2, r3⟩ := sRes_reads (n := n) hp
  have l2 : (castTb n).length = 16 := by simp [castTb, bytesOfNat]
  have ev : v = { Vf.blank with part := 0, s1root := 0x12000, assigned := true } := by
    rcases hn with h | h <;> simp at h <;> obtain ⟨rfl, rfl⟩ := h <;> decide +kernel
  have eva : va = 0x400000 := by rcases hn with h | h <;> simp at h <;> obtain ⟨rfl, rfl⟩ := h <;> decide +kernel
  have elen : len = 160 + 4608 * p := by rcases hn with h | h <;> simp at h <;> obtain ⟨rfl, rfl⟩ := h <;> decide +kernel
  have read (a k : Nat) (hf : follows a (lineParts a k) = true) (hs : ((lineParts a k).map Prod.snd).sum = k)
      (hb : (lineParts a k).all (fun x => decide (x.1 < 2 ^ 30)) = true) : s.vfRead v (lineParts a k) = .ok (some (s.mem.readN a k)) :=
    vfRead_mapped (fun a ha => r0 a (by omega)) (by rw [ev]) (by rw [ev]; rfl) rfl rfl a k hf hs hb
  have rh : s.vfRead v (lineParts 0x400000 112) = .ok (some castHd) := by
    rw [read _ _ (by decide +kernel) (by decide +kernel) (by decide +kernel), r1]
  have rt : s.vfRead v (lineParts 0x400070 32) = .ok (some bs) := by
    rw [read _ _ (by decide +kernel) (by decide +kernel) (by decide +kernel), r2]
  have rs : s.vfRead v (lineParts 0x400090 (4608 * p + 16)) = .ok (some sealed) := by
    rw [show sealed = s.mem.readN 0x400090 (4608 * p + 16) from r3.symm]
    rcases hn with h | h <;> simp at h <;> obtain ⟨rfl, rfl⟩ := h <;>
      exact read _ _ (by decide +kernel) (by decide +kernel) (by decide +kernel)
  have open_ : gcmOpen castK (castIv h.c headerIndex) (castHd ++ bs.take (16 * h.nrange)) [] (bs.drop (16 * h.nrange)) ≠ none := by
    simp only [bs, h, Nat.mul_one]
    rw [List.take_left' l2, List.drop_left' l2]
    simp only [castTag]
    rw [gcm_open_tag]; simp
  have seal_ : gcmOpen castK (castIv h.c 0) [] (sealed.take (4608 * p)) (sealed.drop (4608 * p)) = some
      (ctrMode aesTable (aesKeys aesTable castK) (castIv 4 0) 2 (List.replicate (4608 * p) 0)) := by
    simp only [sealed]
    rw [List.take_left' (List.length_replicate ..), List.drop_left' (List.length_replicate ..)]
    simp only [castTag]
    rw [gcm_open_tag]
  rw [eva, elen]
  have lens : (ctrMode aesTable (aesKeys aesTable castK) (castIv 4 0) 2 (List.replicate (4608 * p) 0)).length = 4608 * p := by
    rw [length_ctrMode (key := castK) (length_castKey 5 0 4 7) _ _ (288 * p) (by rw [List.length_replicate]; omega), List.length_replicate]
  have range : rangeTable (bs.take (16 * h.nrange)) h.nrange = some t := by
    simp only [bs, h, Nat.mul_one]
    rw [List.take_left' l2]
    rcases hn with h | h <;> simp at h <;> obtain ⟨rfl, rfl⟩ := h <;> decide +kernel
  have mapd : ∀ i < p, (rangePages t)[i]? = some (0x100000 + 4096 * i) ∧ ∀ mem : Memory,
      (∀ a, (∀ j < p, a < 0x100000 + 4096 * j ∨ 0x100000 + 4096 * j + 4096 ≤ a) → mem.read a = s.mem.read a) →
      translate mem v.s1root (s.s2root v.part) (0x100000 + 4096 * i) 1 = .ok (0x100000 + 4096 * i) := by
    intro i hi
    refine ⟨?_, fun mem hm => ?_⟩
    · have hn' : i < n := by rcases hn with h | h <;> simp at h <;> omega
      simp [rangePages, t, hn']
    · rw [ev]
      exact translate_mapped (fun a ha => (hm a fun j _ => by omega).trans (r0 a (by omega))) (by omega) (by omega)
  have rest : c.issuer = some c.part ∧ c.op = 9 ∧ c.restZero [(8, 2), (16, 16)] = true ∧ c.num 8 1 < 16 ∧ c.num 9 1 < 32 ∧
      c.part = 0 := by
    rcases hn with h | h <;> simp at h <;> obtain ⟨rfl, rfl⟩ := h <;> decide +kernel
  have part : s.part 0 = some ⟨1, 0x10000, 0, some 5, none, none⟩ := rfl
  have size_ : (rangePages t).length = n ∧ size + size / 8 = 4608 * p ∧ (t.map Prod.snd).sum / 4096 = n := by
    rcases hn with h | h <;> simp at h <;> obtain ⟨rfl, rfl⟩ := h <;> decide +kernel
  have cast : s.noCast := by
    intro x hx y hy
    rw [show s.parts = [(0, some ⟨1, 0x10000, 0, some 5, none, none⟩)] from rfl, List.mem_singleton] at hx
    subst hx; cases hy; rfl
  have head_ : castHead castHd = some h := by decide +kernel
  obtain ⟨q1, q2, q3, q4, q5, q6⟩ := rest
  rw [q6] at q1 ⊢
  exact ⟨rfl, q1, q2, q3, q4, q5, part, by omega, by rw [ev], by rw [ev], by omega, rh, head_, by simp only [h]; omega, rt, rfl, open_,
    range, Nat.zero_le _, size_.1, size_.2.1, by omega, size_.2.2, cast, rs, ⟨_, seal_, lens⟩, mapd⟩

/-- A cast of one page that has been cut, for this package itself, with next as what it sends next. -/
def castTo (next : Nat) : Cast :=
  { core := .ord 0 0 0, launch := 0, gang := 0, h := 2, inb := false, seq := 0, taint := false, ranges := 0x20000, nrange := 1
    destPkg := Config.packageId, destVa := 0, cutStep := 0, tag := 0, stage := 0x40000, stageSize := 65536, cut := true, c := 4, sstep := 0
    table := [(0x20000, 4096)], marked := [0x20], late := [], staged := [], tsk := 9, pmr := 7, next := next, offset := 0, unacked := 0
    drained := false }
/-- A machine with that cast in flight. -/
def sSend (next : Nat) : State := { mapped base with parts := Tab.put none [] 0 (some ⟨1, 0x10000, 7, some 9, some (castTo next), none⟩) }
/-- A tag is no longer than 16 bytes. -/
theorem length_tag (keys : List (List Byte)) (iv aad ct : List Byte) : (gcmTag aesTable keys iv aad ct).length ≤ 16 := by
  simp only [gcmTag, length_xorBytes]
  exact Nat.le_trans (Nat.min_le_left _ _) (by simp [bytesBig, bytesOfNat])
/-- Its header and its segment go out: a route to the package itself, and the bytes within the window's offsets. -/
theorem witness_CastsDrain_sends (n : Nat) (hn : n = 0 ∨ n = 1) :
    let s := sSend n
    let k := castTo n
    s.part 0 = some ⟨1, 0x10000, 7, some 9, some k, none⟩ ∧ k.cut = true ∧ k.drained = false ∧ s.pourWaits 0 = false ∧ k.next = n ∧
    s.hasRoute k.destPkg = true ∧ (n = 0 → k.destVa % 2 ^ 36 + k.offset + (k.headBytes 0).length ≤ 2 ^ 36) ∧
    (n = 1 → segmentPages k.table 0 = [0x20000] ∧ s.pourBlocked k [0x20000] = false ∧
      ∃ bs u, s.pourPages k [0x20000] = .ok bs u ∧ k.destVa % 2 ^ 36 + k.offset + (k.sealSegment 0 bs).length ≤ 2 ^ 36) := by
  intro s k
  have rt : s.hasRoute k.destPkg = true := by simp [State.hasRoute, k, castTo]
  refine ⟨rfl, rfl, rfl, ?_, rfl, rt, fun h => ?_, fun h => ?_⟩
  · rcases hn with rfl | rfl <;> decide +kernel
  · have t := length_tag (aesKeys aesTable k.key) (castIv k.c headerIndex) (castHeader 0 k ++ tableBytes k.table)
      (ctrMode aesTable (aesKeys aesTable k.key) (castIv k.c headerIndex) 2 [])
    simp only [Cast.headBytes, gcmSeal, List.length_append] at *
    have l : (castHeader 0 k).length ≤ 200 := by simp [castHeader, bytesOfNat]
    have m : (tableBytes k.table).length ≤ 200 := by simp [tableBytes, k, castTo, bytesOfNat]
    rw [show k.destVa = 0 from rfl, show k.offset = 0 from rfl]
    omega
  · subst h
    refine ⟨by decide +kernel, by decide +kernel, ?_⟩
    have ok : (match (sSend 1).pourPages (castTo 1) [0x20000] with | .ok bs _ => bs.length == 4096 | _ => false) = true := by decide +kernel
    revert ok
    cases e : (sSend 1).pourPages (castTo 1) [0x20000] with
    | ok bs u =>
      intro hl
      refine ⟨bs, u, rfl, ?_⟩
      simp only [beq_iff_eq] at hl
      have t := length_tag (aesKeys aesTable k.key) (castIv k.c 0) []
        (ctrMode aesTable (aesKeys aesTable k.key) (castIv k.c 0) 2 (bs.map Prod.fst ++ taintBytes bs))
      have l : (ctrMode aesTable (aesKeys aesTable k.key) (castIv k.c 0) 2 (bs.map Prod.fst ++ taintBytes bs)).length = 4608 :=
        (length_ctrMode (length_castKey ..) (castIv k.c 0) 2 288 (by simp [taintBytes, hl])).trans (by simp [taintBytes, hl])
      simp only [Cast.sealSegment, gcmSeal, List.length_append] at *
      rw [l, show k.destVa = 0 from rfl, show k.offset = 0 from rfl]
      omega
    | _ => intro h; simp at h

/-! ### Witness: an fcut whose marker is broadcast -/

/-- Using a way changes a die's caches only. -/
theorem useWay_dies {s t : State} {d : BitVec 4} {r : Bool} {l n : Nat} (h : s.useWay d r l n = some t) :
    t = { s with dies := t.dies } := by
  simp only [State.useWay, Option.map_eq_some_iff] at h
  obtain ⟨x, _, rfl⟩ := h
  split
  · split <;> rfl
  · rfl
/-- A read's way through the caches changes nothing else. -/
theorem cacheAccess_dies (s : State) (d : BitVec 4) (pa : Nat) :
    s.cacheAccess d pa false = { s with dies := (s.cacheAccess d pa false).dies } := by
  have one : ∃ ds, (s.useWay (homeDie pa) false (pa / 64) 0).getD s = { s with dies := ds } := by
    cases h : s.useWay (homeDie pa) false (pa / 64) 0 with
    | none => exact ⟨s.dies, rfl⟩
    | some t => exact ⟨t.dies, useWay_dies h⟩
  obtain ⟨ds, e⟩ := one
  simp only [State.cacheAccess, e, Bool.false_eq_true, if_false]
  split
  · rfl
  · split
    · rename_i t h
      rw [useWay_dies h]; rfl
    · rfl
/-- An entry that a table's first part has not is the second's. -/
theorem get_append (d : Byte) (t u : Tab Byte) {a : Nat} (h : t.all (fun x => x.1 != a) = true) : Tab.get d (t ++ u) a = Tab.get d u a := by
  induction t with
  | nil => rfl
  | cons x t ih =>
    simp only [List.all_cons, Bool.and_eq_true, bne_iff_ne] at h
    simp only [List.cons_append, Tab.get]
    rw [if_neg h.1, ih h.2]
/-- An entry that its second part has not is the first's. -/
theorem get_append_left (d : Byte) (t u : Tab Byte) {a : Nat} (h : u.all (fun x => x.1 != a) = true) : Tab.get d (t ++ u) a = Tab.get d t a := by
  induction t with
  | nil =>
    induction u with
    | nil => rfl
    | cons x u ih =>
      simp only [List.all_cons, Bool.and_eq_true, bne_iff_ne] at h
      simp only [List.nil_append, Tab.get] at *
      rw [if_neg h.1]; exact ih h.2
  | cons x t ih =>
    simp only [List.cons_append, Tab.get, ih]
/-- A group record of one entry of four bytes at 0x20000. -/
def group (b0 b1 b2 b3 : Byte) : Memory := [(0x20000, 1), (0x20008, b0), (0x20009, b1), (0x2000A, b2), (0x2000B, b3)]
/-- An fcut of step 5 at the engine of die 0. -/
def cutCmd : FabCmd :=
  { seq := 0, core := .ord 0 0 0, launch := 0, h := none, inb := false, kind := 3, ordered := true, sp := 0, src := 0, peer := 0x20000
    len := 0, tag := 0, value := 5, taint := false, dataTaint := false, hTaint := false, stamp := none, sent := false, token := none
    unacked := 0, statuses := [], parts := [], done := 0, halted := false, status := none, begun := false, data := none, ring := none }
/-- A machine with that command, a launch that has named the steps, and that record. -/
def sCut (steps : List DWord) (m : Memory) : State :=
  let s := (mapped State.reset).modDie 0 fun d => { d with fab := [cutCmd] }
  { s with
    mem := s.mem ++ m
    launches := [(0, some { Launch.blank with state := .running, gangs := [Gang.blank], cutSteps := steps.map fun n => ⟨n, 0, .ord 0 0 0, none, false⟩ })] }
/-- That machine with step 5 named and a full record, and other caches. -/
def cutAt (b0 b1 b2 b3 : Byte) (ds : Tab Die) : State := { sCut [5] (group b0 b1 b2 b3) with dies := ds }
/-- Reading within its line for the engine. -/
theorem cut_reads (b0 b1 b2 b3 : Byte) (a n : Nat) (ha : a < 2 ^ 30) (hl : lineParts a n = [(a, n)]) (ds : Tab Die) :
    ∃ ds', (cutAt b0 b1 b2 b3 ds).hbmRead 0 (.ord 0 0 0) a n =
      .ok (((sCut [5] (group b0 b1 b2 b3)).mem.readN a n).zip (Tab.getN false [] a n)) (cutAt b0 b1 b2 b3 ds') := by
  generalize hs : cutAt b0 b1 b2 b3 ds = s
  have e : ∀ D, ({ s with dies := D } : State) = cutAt b0 b1 b2 b3 D := by intro D; rw [← hs]; rfl
  have mem : s.mem = (sCut [5] (group b0 b1 b2 b3)).mem := by rw [← hs]; rfl
  have low : ∀ x < 0x15000, s.mem.read x = (mapped State.reset).mem.read x := by
    intro x hx
    rw [mem]
    exact get_append_left _ _ _ (by simp [group]; omega)
  have vf : s.vfOf 0 = { Vf.blank with part := 0, s1root := 0x12000, assigned := true } := by
    rw [← hs]; exact (by decide +kernel : (sCut [5] []).vfOf 0 = { Vf.blank with part := 0, s1root := 0x12000, assigned := true })
  have root : s.s2root 0 = 0x10000 := by
    rw [← hs]; exact (by decide +kernel : (sCut [5] []).s2root 0 = 0x10000)
  have x : s.xlate 0 a 0 = .ok a := by
    simp only [State.xlate, vf, root]
    exact translate_mapped low ha (by omega)
  have c := cacheAccess_dies s 0 a
  have u : s.uncorr = [] := by
    rw [← hs]; exact (by decide +kernel : (sCut [5] []).uncorr = [])
  have p : s.poison = [] := by
    rw [← hs]; exact (by decide +kernel : (sCut [5] []).poison = [])
  have tt : s.taint = [] := by
    rw [← hs]; exact (by decide +kernel : (sCut [5] []).taint = [])
  have det : (s.gangOf (.ord 0 0 0)).det = false := by
    rw [← hs]; exact (by decide +kernel : ((sCut [5] []).gangOf (.ord 0 0 0)).det = false)
  refine ⟨(s.cacheAccess 0 a false).dies, ?_⟩
  have bad : ({ s with dies := (s.cacheAccess 0 a false).dies } : State).bad a n = none := by
    unfold State.bad
    rw [List.find?_eq_none]
    intro y _
    show ¬ (Tab.get false s.uncorr y || Tab.get false s.poison y) = true
    rw [u, p]; simp [Tab.get]
  have pk : ({ s with dies := (s.cacheAccess 0 a false).dies } : State).peek a n =
      ((sCut [5] (group b0 b1 b2 b3)).mem.readN a n).zip (Tab.getN false [] a n) := by
    show (s.mem.readN a n).zip (Tab.getN false s.taint a n) = _
    rw [mem, tt]
  have fc : ({ s with dies := (s.cacheAccess 0 a false).dies } : State).firstConflict (.ord 0 0 0) none a n = none := by
    unfold State.firstConflict
    refine if_neg ?_
    show ¬ (s.gangOf (.ord 0 0 0)).det = true
    rw [det]; simp
  simp only [State.hbmRead, hl, hbmReadParts, State.hbmReadPart, x, State.hbmReadAt, CoreId.die]
  rw [c]
  simp only [bad, State.readT, State.track, fc]
  rw [pk, e]
  simp [addTaint]
/-- The machine with a record that names this package alone. -/
def sSelf (ds : Tab Die) : State :=
  let b (i : Nat) : Byte := BitVec.ofNat 8 (Config.packageId.toNat / 256 ^ i)
  cutAt (b 0) (b 1) (b 2) (b 3) ds
/-- An fcut whose record names this package has both its reads done and its package among the participants. -/
theorem witness_FabricCommandsIssue_cuts (ds : Tab Die) :
    ∃ hd u bs w, (sSelf ds).hbmRead 0 (.ord 0 0 0) (vaOf 0x20000) 8 = .ok hd u ∧ natOfBytes (hd.map Prod.fst) = 1 ∧
      u.hbmRead 0 (.ord 0 0 0) (vaOf 0x20000 + 8) (4 * 1) = .ok bs w ∧
      Config.packageId = BitVec.ofNat 20 (natOfBytes (((bs.drop (4 * 0)).take 4).map Prod.fst)) := by
  have hv : vaOf 0x20000 = 0x20000 := by decide
  obtain ⟨ds1, e1⟩ := cut_reads _ _ _ _ 0x20000 8 (by omega) (by decide) ds
  obtain ⟨ds2, e2⟩ := cut_reads _ _ _ _ 0x20008 4 (by omega) (by decide) ds1
  have at_ (g : Memory) (a : Nat) (h : (mapped State.reset).mem.all (fun x => x.1 != a) = true) :
      (sCut [5] g).mem.read a = Tab.get Memory.blank g a := get_append _ _ _ h
  rw [hv]
  refine ⟨_, _, _, _, e1, ?_, e2, ?_⟩
  · simp only [Memory.readN, at_ _ 0x20000 (by decide +kernel), at_ _ (0x20000 + 1) (by decide +kernel),
      at_ _ (0x20000 + 1 + 1) (by decide +kernel), at_ _ (0x20000 + 1 + 1 + 1) (by decide +kernel),
      at_ _ (0x20000 + 1 + 1 + 1 + 1) (by decide +kernel), at_ _ (0x20000 + 1 + 1 + 1 + 1 + 1) (by decide +kernel),
      at_ _ (0x20000 + 1 + 1 + 1 + 1 + 1 + 1) (by decide +kernel), at_ _ (0x20000 + 1 + 1 + 1 + 1 + 1 + 1 + 1) (by decide +kernel)]
    simp [group, Tab.get, Tab.getN, Memory.blank, natOfBytes]
  · simp only [Memory.readN, at_ _ 0x20008 (by decide +kernel), at_ _ (0x20008 + 1) (by decide +kernel),
      at_ _ (0x20008 + 1 + 1) (by decide +kernel), at_ _ (0x20008 + 1 + 1 + 1) (by decide +kernel)]
    apply BitVec.eq_of_toNat_eq
    simp [group, Tab.get, Tab.getN, natOfBytes]
    omega
/-- A fifth step not taken and a record of no entries end the launch, an unmapped pointer faults, and the command's state. -/
theorem witness_FabricCommandsIssue_kills :
    (let five := sCut [1, 2, 3, 4, 5] []
     let z := sCut [5] []
     let f := z.modDie 0 fun d => { d with fab := [{ cutCmd with peer := 0x80000000 }] }
     let run (s : State) : State := nextOf (exec (.fabricPacketSend 0) s)
     oks [(five.launch 0).cutSteps.length == 5, ((run five).launch 0).state == .ended 1, ((run z).launch 0).state == .ended 1,
       ((run z).launch 0).deciding.map (·.2.cause) == some .illegalOperand, (run f).xfaults.length == 1, ((run z).die 0).fab.length == 0,
       ((run f).die 0).fab.length == 1]) = true := by decide +kernel

/-! ### Witnesses: the fabric -/

/-- A core with offsets and values for fabric commands in g1 to g8. -/
def sF : State := gs base [(1, 0x7FF8), (2, 0x1000000000), (3, 5), (4, 0x7FF9), (5, 0xFC00000000000000), (6, 0x7FFF8), (7, 2 ^ 36)]
/-- A put, a get and a message appended; lengths, spaces and ranges at their edges. -/
theorem witness_FabricCommandsIssue_appends :
    (let put (a : BitVec 5) (sp : BitVec 3) (n : BitVec 23) : Instr := .fput ⟨.next, 2, a, 2, false, false, true, true, sp, n⟩
     let get (b : BitVec 5) (sp : BitVec 3) (n : BitVec 23) : Instr := .fget ⟨.next, 2, 2, b, false, false, false, sp, n⟩
     let send (a : BitVec 5) : Instr := .fsend ⟨.next, 2, a, 3, false, false, false, false, 9⟩
     let fab (i : Instr) : List (BitVec 3 × Nat) := ((nextOf (exec i sF)).die 0).fab.map fun c => (c.kind, c.len)
     oks [sF.ready (len2 .next) .next, sF.fullG 1, sF.fullG 2, (sF.me.hreg 2).fill != .pending, (sF.die 0).fab.length == 0,
       sF.me.vecTouchesLocal 0x7FF8 8 == false, fab (put 1 0 8) == [(0, 8)], fab (get 6 1 8) == [(1, 8)], fab (send 7) == [(2, 16)],
       (nextOf (exec (put 1 0 8) sF)).me.owed == 1, causeOf (exec (put 1 0 0) sF) == some (.illegalOperand, 0),
       causeOf (exec (put 1 2 8) sF) == some (.illegalOperand, 0), causeOf (exec (get 1 4 8) sF) == some (.illegalOperand, 0),
       causeOf (exec (put 1 0 9) sF) == some (.illegalOperand, 1), causeOf (exec (get 6 1 9) sF) == some (.illegalOperand, 2),
       causeOf (exec (put 5 3 8) sF) == some (.format, 0xFC00000000000000), causeOf (exec (send 3) sF) == some (.illegalOperand, 1),
       fab (put 6 3 8) == [(0, 8)]]) = true := by decide +kernel
/-- A message taken, none to take with and without waiting; one register twice; a step named and named again. -/
theorem witness_FabricCommandsIssue_receives :
    (let m : FabMsg := ⟨7, false, true, 3, 0x55, false, 0⟩
     let s := sF.modDie 0 fun d => { d with rq := Tab.put [] [] 4 [m] }
     let r (d b : BitVec 5) (nb : Bool) : Instr := .frecv ⟨.next, d, b, 4, nb⟩
     let c (a : BitVec 5) : Instr := .fcut ⟨.next, a, 2, false, false⟩
     let t := nextOf (exec (c 3) sF)
     oks [(sF.launchOf sF.cur).cutSteps.length == 0, causeOf (exec (.fcut ⟨.next, 3, 5, false, false⟩) sF) == some (.format, 0xFC00000000000000),
       (sF.aborted sF.cur) == false, sF.freeG 8, sF.freeG 9, gOf (exec (r 8 9 false) s) 8 == 0x0000740000000003, gOf (exec (r 8 9 false) s) 9 == 0x55,
       (nextOf (exec (r 8 9 true) sF)).me.pc == 8, (nextOf (exec (r 8 9 false) sF)).me.pc == 0, causeOf (exec (r 8 8 true) s) == some (.illegalOperand, 2),
       causeOf (exec (r 0 0 true) s) == none, causeOf (exec (c 9) sF) == some (.illegalOperand, 1), (t.launch 0).cutSteps.length == 1,
       (t.die 0).fab.map (·.kind) == [3], ((nextOf (exec (c 3) (gs t [(3, 5)]))).die 0).fab.length == 1]) = true := by decide +kernel
/-- Messages: of the one source of a queue, of one of two sources, late, and of a queue whose window admits several. -/
theorem witness_FabricCommandsIssue_taints :
    (let m : FabMsg := ⟨7, false, false, 3, 0x55, false, 0⟩
     let s (late : Bool) (came : List (BitVec 20)) (w : Tab (Option Window)) : State :=
       { sF.modDie 0 fun d => { d with rq := Tab.put [] [] 4 [{ m with late := late }], rqSources := Tab.put [] [] 4 came } with windows := w }
     let w (hi : BitVec 20) : Tab (Option Window) := Tab.put none [] 3 (some ⟨0, 0, 0, 0, true, false, false, true, 0, 4, 7, hi, 0⟩)
     let t (s : State) : Bool := (nextOf (exec (.frecv ⟨.next, 8, 9, 4, false⟩) s)).me.gt 9
     oks [t (s false [7] (w 7)) == false, t (s false [7, 8] []), t (s true [7] []), t (s false [7] (w 8)),
       Tab.get 0 (sF.gangOf sF.cur).rqMark 4 == 0]) = true := by decide +kernel
/-- Windows, policies and ports under a privileged launch and another. -/
theorem witness_FabricControlAndPorts_control :
    (let s := gs (locals base1 [(0x40, 0x20000), (0x48, 0x1000), (0x50, 0xE0), (0x60, 0x00000000000FFFFF)]) [(1, 0x40), (2, 0x41), (3, 0x7FF8), (4, 0x7FE0), (5, 4), (6, 3)]
     let w (a : BitVec 5) : Instr := .fwin ⟨.next, a, false, 255⟩
     let f (a : BitVec 5) : FctlO := ⟨.next, a, false, 7⟩
     let t := nextOf (exec (.fctlExcise (f 1)) s)
     let foreign : State := { s with windows := Tab.put none [] 255 (some ⟨1, 0, 0, 0, false, false, false, false, 0, 0, 0, 0, 0⟩) }
     oks [s.ready (len2 .next) .next, (s.launchOf s.cur).rcd.priv, (base.launchOf base.cur).rcd.priv == false, s.me.vecTouchesLocal 0x40 32 == false,
       s.bad (localBase s.cur + 0x40) 32 == none, (s.gangOf s.cur).det == false, ((nextOf (exec (w 1) s)).window 255).map (·.base) == some 0x20000,
       causeOf (exec (w 1) sF) == some (.privilege, 0), causeOf (exec (w 2) s) == some (.alignment, 0x41), causeOf (exec (w 3) s) == some (.alignment, 0x7FF8),
       causeOf (exec (w 1) (locals s [(0x50, 0x200)])) == some (.illegalOperand, 1), causeOf (exec (w 1) foreign) == some (.illegalOperand, 1),
       causeOf (exec (.fctlPolicy (f 1)) sF) == some (.privilege, 0), causeOf (exec (.fctlPolicy (f 5)) s) == some (.illegalOperand, 1),
       (nextOf (exec (.fctlPolicy (f 6)) s)).lateDrop, (t.fport 7).state == .excised, ((nextOf (exec (.fctlReadmit (f 1)) t)).fport 7).state == .down,
       s.freeG 8, (gOf (exec (.fpstat ⟨.next, 8, 7⟩) t) 8).extractLsb' 0 12 == 3]) = true := by decide +kernel
/-- A port up, down, without lanes, replayed sixteen times, stalled, excised and readmitted; its milestones; fabric time. -/
theorem witness_FabricControlAndPorts_ports :
    (let u := nextOf (exec (.portUp 1 42) base)
     let s := { u with clock := 100000 }
     let run (i : Instr) (s : State) : FPort := (nextOf (exec i s)).fport 1
     let lanes (n : BitVec 128) : State := s.modFport 1 fun x => { x with lanes := n }
     let busy (n : Nat) : State := s.modFport 1 fun x => { x with replays := List.replicate n s.clock }
     let ex := { s.modFport 1 fun x => { x with state := .excised } with delivered := some (0, 0, 0) }
     let w := { s with outbox := [(1, ⟨90, 1, 2, 0, true, 0, 0, 3, 8, 8, 6, 4, 0, 0, 0, []⟩)] }
     oks [base.broughtUp, (base.fport 1).linkUp == false, (u.fport 1).state == .up, (u.fport 1).nbr == 42, (run (.linkDown ⟨1, 0⟩) s).state == .down,
       (run (.linkDown ⟨1, 0⟩) ex).state == .excised, (run (.laneFail ⟨1, 0⟩ 3) (lanes 8)).linkUp == false, (run (.laneFail ⟨1, 0⟩ 3) (lanes 12)).linkUp,
       (run (.flitReplay ⟨1, 0⟩) (busy 14)).linkUp, (run (.flitReplay ⟨1, 0⟩) (busy 15)).linkUp == false, (run (.milestoneReceive 1 9) s).mile == 9,
       (run (.milestoneReceive 1 0) s) == s.fport 1, (run (.stalledWatermark 1) s).state == .stalled, (run (.stalledWatermark 1) u).state == .up,
       (run (.portReadmit 1) ex).state == .up,
       (run (.portReadmit 1) { ex with delivered := none }).state == .excised, (run (.waymark 1) s).sentAt == s.ftime, (run (.milestoneSend 1) s) == s.fport 1,
       (run (.linkDown ⟨1, 1⟩) w).replay.length == 1, (nextOf (exec (.linkDown ⟨1, 1⟩) w)).outbox.length == 0,
       (s.fport 7).linkUp == false, (nextOf (exec .routeRecompute s)).routeEpoch == 1]) = true := by
  decide +kernel
/-- Every package but the lowest-numbered has one that may be its grandmaster. -/
theorem witness_FabricControlAndPorts_grand : Config.packageId = 0 ∨ ∃ grand : BitVec 20, grand.toNat < Config.packageId.toNat := by
  by_cases h : Config.packageId = 0
  · exact .inl h
  · exact .inr ⟨0, by
      have : Config.packageId.toNat ≠ 0 := fun e => h (BitVec.eq_of_toNat_eq e)
      simpa using Nat.pos_of_ne_zero this⟩
/-- A packet with a window, from a package to this one. -/
def packet (op : BitVec 4) (ord : Bool) (n : Nat) : Packet :=
  ⟨90, Config.packageId + 1, Config.packageId, 0, ord, op, 0, 3, 8, n, 6, 4, 0, 0, 0, List.replicate n (1, false)⟩
/-- A state with window 3, which admits puts of 64 bytes (or messages into queue 2) from every package, and port 1 up. -/
def sW (isQ : Bool) : State :=
  { nextOf (exec (.portUp 1 42) (mapped base)) with
    clock := 100, windows := Tab.put none [] 3 (some ⟨0, 0x20000, 64, 0, true, true, true, isQ, 0, 2, 0, BitVec.allOnes 20, 0⟩) }
/-- The lines of a put of eight bytes can be pinned, whether its window admits it or not. -/
theorem witness_PacketsArrive_lines (ord : Bool) : (sW false).putWaits (packet 0 ord 8) = false := by
  have h : (match (sW false).windowXlate ⟨0, 0x20000, 64, 0, true, true, true, false, 0, 2, 0, BitVec.allOnes 20, 0⟩ 1
      (lineParts 0x20008 8) with
    | .ok xs => !(sW false).linesFree 0 (xs.map Prod.fst)
    | .error _ => false) = false := by decide +kernel
  have hw : (sW false).window 3 = some ⟨0, 0x20000, 64, 0, true, true, true, false, 0, 2, 0, BitVec.allOnes 20, 0⟩ := by
    decide +kernel
  simp only [State.putWaits, packet, hw, List.length_replicate]
  simp_all <;> exact fun _ => h
/-- A packet of another package for this one, admitted, and one past the window; the delivery buffer with one whose stamp is past. -/
theorem witness_PacketsArrive :
    (packet 0 false 8).dst = Config.packageId ∧ (packet 0 false 8).src ≠ Config.packageId ∧ (sW false).window 3 ≠ none ∧
    (let s := sW false
     let p := packet 0 true 8
     let d := (s.modFport 1 fun x => { x with mile := 91 })
     oks [(packet 0 false 8).isRequest, s.queueFull (packet 0 false 8) == false, (s.fport 1).linkUp, s.isLate p == false, ({ s with delivered := some (91, 0, 0) } : State).isLate (packet 0 true 8),
       s.odb.length == 0, decide s.noCast, s.xlate 0 0x20008 1 == .ok 0x20008, s.badPartial 0x20008 8 == none, d.frontier == 91, s.frontier == 0,
       d.waitPkts.length == 0, d.heldByCut 90 == false, d.odbBytes + 144 * p.flits ≤ 2 ^ 23 + 2 ^ 30]) = true :=
  ⟨rfl, by simp [packet], by decide +kernel, by decide +kernel⟩
/-- A command not sent and one that waits for its last answer; what another operation's packet does to it. -/
theorem witness_FabricCommandsRun :
    (let s := nextOf (exec (.fput ⟨.next, 2, 1, 2, false, false, false, false, 0, 8⟩) sF)
     let sent := s.modDie 0 fun d => { d with fab := d.fab.map fun c => { c with sent := true, unacked := 1 } }
     oks [(s.die 0).fab.map (·.sent) == [false], (s.die 0).fab.map (·.status) == [none], (s.die 0).fab.map (·.h) == [some 2], s.bad (localBase s.cur + 0x7FF8) 8 == none,
       (s.launch 0).cutSteps.length == 0, (s.me.hreg 2).fill == .pending, s.me.launch == some 0, (sent.die 0).fab.map (·.sent) == [true],
       ((nextOf (exec (.fabricPacketSend 0) sent)).outbox.length == 0), (nextOf (exec (.fabricAck (packet 3 false 16)) sent)).dies == sent.dies]) = true := by
  decide +kernel
/-- A put, a get and a message that may go, with and without data kept for it; and a command that waits for answers. -/
theorem witness_FabricCommandsRun_completes :
    (let app (i : Instr) : State := nextOf (exec i sF)
     let put := app (.fput ⟨.next, 2, 1, 2, false, false, false, false, 0, 8⟩)
     let get := app (.fget ⟨.next, 2, 2, 1, false, false, false, 0, 8⟩)
     let msg := app (.fsend ⟨.next, 2, 7, 3, false, false, false, false, 9⟩)
     let fab (s : State) (f : FabCmd → FabCmd) : State := s.modDie 0 fun d => { d with fab := d.fab.map f }
     let kept := fab put fun c => { c with data := some [(1, false)] }
     let red := msg.modLaunch 0 fun l => { l with rcd := { l.rcd with red := true } }
     let goes (s : State) (k : BitVec 3) : Bool := ((s.die 0).fab.find? (s.fabReady 0)).map (·.kind) == some k
     let w (n : Nat) := fab get fun c => { c with seq := 4, sent := true, unacked := n }
     let far := fab (mapped get) fun c => { c with seq := 4, sent := true, unacked := 2, sp := 3, src := 0x20000 }
     let p : Packet := { packet 2 false 8 with offset := 0 }
     let got (s : State) : Option FabCmd := (s.die 0).fab.head?.map fun c => { c with unacked := c.unacked - 1, parts := c.parts ++ [(0, wordTaint p.data)] }
     oks [goes put 0, goes get 1, goes msg 2, goes kept 0, goes red 2, (red.launch 0).rcd.red, (put.die 0).fab.head?.map (·.status) == some none,
       (put.launch 0).rcd.red == false, (put.gangOf put.cur).det == false, put.bad (localBase put.cur + 0x7FF8) 8 == none,
       ((w 2).die 0).fab.map (·.unacked) == [2], ((w 2).die 0).fab.find? (fun x => x.seq == p.seq.toNat && x.sent && x.status.isNone) == ((w 2).die 0).fab.head?,
       p.agent == 0, p.status == 0, ((w 2).core base.cur).launch == some 0, (w 2).badPartial (localBase base.cur + 0x7FF8) 8 == none,
       (0x7FF8 + (p.offset - 0).toNat) % 64 + p.data.length ≤ 64, (((w 2).die 0).fab.map FabCmd.seq) == [4],
       ((got (w 2)).bind FabCmd.unit).map (·.2.length) == some 8, (got far).bind FabCmd.unit == some (0x20000, wordTaint p.data),
       ((got far).map fun c => ({ c with done := 8 } : FabCmd).unit.isNone) == some true, (got far).map (far.unitWaits 0 · 0x20000) == some false,
        match far.hbmWritePart 0 base.cur none 0x20000 (wordTaint p.data) with | .ok _ => true | _ => false]) = true := by
  decide +kernel

/-! ### Witnesses: the machine as a whole -/

/-- A state that fetches li g1, 20 from address 0, one whose word is 0, one parked, and one whose agenda holds a turn. -/
theorem witness_StepRunsDecoded :
    (let s := State.reset.withFetchWord 32 0x08080014
     let z := State.reset.withFetchWord 32 0
     let p := s.modMe fun k => { k with park := some ⟨.software, 0, 0, 0, 0, 0, false⟩ }
     let t := { s with agenda := [.core (.ord 0 0 1), .wait 5, .event (.powerCapThrottle 0)] }
     oks [s.agenda == [], s.broughtUp, s.me.launch.isSome, s.me.park.isNone, s.me.running, (s.launchOf s.cur).state == .running,
       (s.gangOf s.cur).rolling == none,       s.me.pendingTrap == none, s.me.lateTrap == none, s.me.left == false, s.unitLen s.cur 0 == 1, s.codeLen s.cur == 12,
       (Tab.get none s.me.istore 0).isSome, decode false [s.codeWord s.cur 0] == .ok (.li ⟨.next, 1, 20⟩, 1),
       s.holdsOutward (.li ⟨.next, 1, 20⟩) == false, gOf (step s) 1 == 20, (nextOf (step s)).me.pc == 4, (nextOf (step s)).clock == s.clock + 1,
       (causeOf (step z)).map (·.1) == some .reservedCode, (nextOf (step p)).me == p.me, (nextOf (step t)).cur == .ord 0 0 1,
       (nextOf (step { t with agenda := t.agenda.drop 1 })).clock == t.clock + 6, (nextOf (step State.reset)).broughtUp,
       (causeOf (step (s.modMe fun k => { k with pc := 12 }))).map (·.1) == some .codeRange,
       (Tab.get none (nextOf (step (s.modMe fun k => { k with istore := [] }))).me.istore 0).isSome]) = true := by decide +kernel
/-- An instruction's words followed by others; a state brought up; one whose step changes memory and keeps its form. -/
theorem witness_DecodeEncodeEveryStepAnswersMemoryStaysCanonical :
    (let i : Instr := .cmpiLt ⟨.next, 2, 1, 10⟩
     let s := { mapped base with agenda := [.event (.gangPlace 0)] }
     oks [i.wf, i.seq.isSome, i.availableOn false, (encode i).length == 1, base.broughtUp, (State.reset.newStore.getD State.reset.conf).verified, s.mem.wf,
       (nextOf (step s)).mem.wf, (nextOf (step base)).clock == 1]) = true := by decide +kernel
/-- A scalar instruction answers a next state whose destination alone it wrote. -/
theorem witness_ScalarFrame :
    (let s := gs base [(1, 5), (2, 6)]
     let t := nextOf (exec (.add ⟨.next, 3, 1, 2, false, false, false⟩) s)
     oks [s.ready (len2 .next) .next, t.me.gv 3 == 11, t.me.gv 1 == 5, t.mem == s.mem, t.me.fx == s.me.fx]) = true := by decide +kernel
end Sys2Proof.Tests

end
end

/-! ## Scalar instructions: high products, division, bit counts and fat pointers (R94 to R96, R101, R102) -/

namespace Sys2Proof.Machine

/-! ### The integer operations at their width -/

/-- The width of an integer instruction, by its W32 bit (R95). -/
def opWidth (w32 : Bool) : Nat := if w32 then 32 else 64

/-- An integer operation works at its width on the low bits of its operands, and sign-extends the result (R95). -/
theorem intOp_eq_signExtend (w32 : Bool) (f : (w : Nat) → BitVec w → BitVec w → BitVec w) (a b : DWord) :
    intOp w32 f a b =
      (f (opWidth w32) (a.setWidth (opWidth w32)) (b.setWidth (opWidth w32))).signExtend 64 := by
  cases w32 with
  | true => rfl
  | false => simp [intOp, opWidth]

/-- The signed value of a register at the width of the instruction. -/
def opInt (w32 : Bool) (x : DWord) : Int := if w32 then (x.setWidth 32).toInt else x.toInt

/-- An integer result at the width of the instruction, sign-extended. -/
def opResult (w32 : Bool) (n : Int) : DWord :=
  if w32 then (BitVec.ofInt 32 n).signExtend 64 else BitVec.ofInt 64 n

theorem toInt_setWidth_opWidth (w32 : Bool) (x : DWord) : (x.setWidth (opWidth w32)).toInt = opInt w32 x := by
  cases w32 with
  | true => rfl
  | false => simp [opInt, opWidth]

theorem signExtend_ofInt_opWidth (w32 : Bool) (n : Int) :
    (BitVec.ofInt (opWidth w32) n).signExtend 64 = opResult w32 n := by
  cases w32 with
  | true => rfl
  | false => simp [opResult, opWidth]

/-- An operation on the signed values of its operands. -/
theorem intOp_ofInt_toInt (w32 : Bool) (f : Nat → Int → Int → Int) (a b : DWord) :
    intOp w32 (fun w x y => BitVec.ofInt w (f w x.toInt y.toInt)) a b =
      opResult w32 (f (opWidth w32) (opInt w32 a) (opInt w32 b)) := by
  rw [intOp_eq_signExtend, toInt_setWidth_opWidth, toInt_setWidth_opWidth, signExtend_ofInt_opWidth]

/-- An operation on the natural values of its operands. -/
theorem intOp_ofInt_toNat (w32 : Bool) (f : Nat → Nat → Nat → Int) (a b : DWord) :
    intOp w32 (fun w x y => BitVec.ofInt w (f w x.toNat y.toNat)) a b =
      opResult w32 (f (opWidth w32) (a.toNat % 2 ^ opWidth w32) (b.toNat % 2 ^ opWidth w32)) := by
  rw [intOp_eq_signExtend, BitVec.toNat_setWidth, BitVec.toNat_setWidth, signExtend_ofInt_opWidth]

/-- A count of bits of the operand, at most the width, is written as it is. -/
theorem intOp_count (w32 : Bool) (f : (w : Nat) → BitVec w → Nat) (hf : ∀ w x, f w x ≤ w) (a b : DWord) :
    intOp w32 (fun w x _ => BitVec.ofNat w (f w x)) a b =
      BitVec.ofNat 64 (f (opWidth w32) (a.setWidth (opWidth w32))) := by
  rw [intOp_eq_signExtend]
  have hle := hf (opWidth w32) (a.setWidth (opWidth w32))
  generalize f (opWidth w32) (a.setWidth (opWidth w32)) = n at hle
  cases w32 with
  | false => simp [opWidth]
  | true =>
    have hn : n ≤ 32 := hle
    have hmsb : (BitVec.ofNat 32 n).msb = false := by
      rw [BitVec.msb_eq_false_iff_two_mul_lt, BitVec.toNat_ofNat]; omega
    change (BitVec.ofNat 32 n).signExtend 64 = _
    rw [BitVec.signExtend_eq_setWidth_of_msb_false hmsb]
    apply BitVec.eq_of_toNat_eq
    simp only [BitVec.toNat_setWidth, BitVec.toNat_ofNat]
    omega

/-! ### Division (R96) -/

@[simp] theorem divInt_zero (w : Nat) (a : Int) : divInt w a 0 = -1 := by simp [divInt]

@[simp] theorem remInt_zero (w : Nat) (a : Int) : remInt w a 0 = a := by simp [remInt]

/-- The one signed quotient out of range. -/
theorem divInt_overflow (w : Nat) : divInt w (-2 ^ (w - 1)) (-1) = -2 ^ (w - 1) := by simp [divInt]

theorem remInt_overflow (w : Nat) : remInt w (-2 ^ (w - 1)) (-1) = 0 := by simp [remInt]

theorem divInt_of_inRange {w : Nat} {a b : Int} (hb : b ≠ 0) (h : ¬(a = -2 ^ (w - 1) ∧ b = -1)) :
    divInt w a b = a.tdiv b := by simpa [divInt, hb] using fun ha hb' => absurd ⟨ha, hb'⟩ h

theorem remInt_of_inRange {w : Nat} {a b : Int} (hb : b ≠ 0) (h : ¬(a = -2 ^ (w - 1) ∧ b = -1)) :
    remInt w a b = a - b * a.tdiv b := by simpa [remInt, hb] using fun ha hb' => absurd ⟨ha, hb'⟩ h

/-- The natural quotient at width w; all ones for a zero divisor. -/
def divNat (w a b : Nat) : Int := if b = 0 then 2 ^ w - 1 else (a / b : Nat)

/-- The natural remainder; the dividend for a zero divisor. -/
def remNat (a b : Nat) : Int := if b = 0 then (a : Nat) else (a % b : Nat)

theorem divU_eq_divNat (w : Nat) (a b : BitVec w) : divU w a b = BitVec.ofInt w (divNat w a.toNat b.toNat) := by
  by_cases hb : b = 0
  · subst hb
    have hcast : (2 ^ w - 1 : Int) = ((2 ^ w - 1 : Nat) : Int) := by
      rw [Nat.cast_sub Nat.one_le_two_pow]; norm_num
    have h0 : (0 : BitVec w).toNat = 0 := by simp
    rw [divU, if_pos rfl, divNat, if_pos h0, hcast, BitVec.ofInt_natCast]
    exact BitVec.eq_of_toNat_eq (by simp)
  · have hn : b.toNat ≠ 0 := (BitVec.toNat_pos_of_ne_zero hb).ne'
    rw [divU, divNat, if_neg hb, if_neg hn, BitVec.ofInt_natCast]

theorem remU_eq_remNat (w : Nat) (a b : BitVec w) : remU w a b = BitVec.ofInt w (remNat a.toNat b.toNat) := by
  by_cases hb : b = 0
  · subst hb; simp [remU, remNat]
  · have hn : b.toNat ≠ 0 := (BitVec.toNat_pos_of_ne_zero hb).ne'
    rw [remU, remNat, if_neg hb, if_neg hn, BitVec.ofInt_natCast]

theorem exec_div (o : R3W) (s : State) :
    exec (.div o) s = int3 o (fun w x y => BitVec.ofInt w (divInt w x.toInt y.toInt)) s := rfl

theorem exec_rem (o : R3W) (s : State) :
    exec (.rem o) s = int3 o (fun w x y => BitVec.ofInt w (remInt w x.toInt y.toInt)) s := rfl

theorem exec_divu (o : R3W) (s : State) :
    exec (.divu o) s = int3 o (fun w x y => BitVec.ofInt w (divNat w x.toNat y.toNat)) s := by
  simp only [← divU_eq_divNat]; rfl

theorem exec_remu (o : R3W) (s : State) :
    exec (.remu o) s = int3 o (fun w x y => BitVec.ofInt w (remNat x.toNat y.toNat)) s := by
  simp only [← remU_eq_remNat]; rfl

section
variable {s : State} {o : R3W} (h : s.ready (len1 o.q) o.q) (ha : s.fullG o.a) (hb : s.fullG o.b) (hd : s.freeG o.d)
include h ha hb hd

/-- What an instruction on signed values writes. -/
theorem int3_ofInt_toInt (f : Nat → Int → Int → Int) :
    int3 o (fun w x y => BitVec.ofInt w (f w x.toInt y.toInt)) s =
      s.putG o.q o.d (opResult o.w (f (opWidth o.w) (opInt o.w (s.me.gv o.a)) (opInt o.w (s.me.gv o.b))))
        (s.me.gt o.a || s.me.gt o.b) := by
  rw [int3_done h ha hb hd, intOp_ofInt_toInt]

/-- What an instruction on natural values writes. -/
theorem int3_ofInt_toNat (f : Nat → Nat → Nat → Int) :
    int3 o (fun w x y => BitVec.ofInt w (f w x.toNat y.toNat)) s =
      s.putG o.q o.d (opResult o.w (f (opWidth o.w) ((s.me.gv o.a).toNat % 2 ^ opWidth o.w)
        ((s.me.gv o.b).toNat % 2 ^ opWidth o.w))) (s.me.gt o.a || s.me.gt o.b) := by
  rw [int3_done h ha hb hd, intOp_ofInt_toNat]

end

theorem divisionResults : Claims.DivisionResults := by
  intro s o h ha hb hd w sv nv put a b
  have hdiv : exec (.div o) s = put (divInt w a b) :=
    (exec_div o s).trans (int3_ofInt_toInt h ha hb hd divInt)
  have hrem : exec (.rem o) s = put (remInt w a b) :=
    (exec_rem o s).trans (int3_ofInt_toInt h ha hb hd remInt)
  have hdivu : exec (.divu o) s = put (divNat w (nv o.a) (nv o.b)) :=
    (exec_divu o s).trans (int3_ofInt_toNat h ha hb hd divNat)
  have hremu : exec (.remu o) s = put (remNat (nv o.a) (nv o.b)) :=
    (exec_remu o s).trans (int3_ofInt_toNat h ha hb hd fun _ => remNat)
  refine ⟨fun h0 => ?_, fun hmin hneg => ?_, fun h0 hin => ?_, hdivu, hremu⟩
  · rw [hdiv, hrem, h0, divInt_zero, remInt_zero]; exact ⟨rfl, rfl⟩
  · rw [hdiv, hrem, hmin, hneg, divInt_overflow, remInt_overflow]; exact ⟨rfl, rfl⟩
  · rw [hdiv, hrem, divInt_of_inRange h0 hin, remInt_of_inRange h0 hin]; exact ⟨rfl, rfl⟩

/-! ### Bit counts (R94) -/

theorem clzBits_le (w : Nat) (x : BitVec w) : clzBits w x ≤ w := by
  unfold clzBits; split <;> omega

/-- The value lies below the first one bit's place and, unless it is 0, not below that bit. -/
theorem clzBits_bounds (w : Nat) (x : BitVec w) :
    x.toNat < 2 ^ (w - clzBits w x) ∧ (clzBits w x < w → 2 ^ (w - clzBits w x - 1) ≤ x.toNat) := by
  by_cases hx : x = 0
  · subst hx; simp [clzBits]
  · have hn : x.toNat ≠ 0 := (BitVec.toNat_pos_of_ne_zero hx).ne'
    have hlog : x.toNat.log2 < w := (Nat.log2_lt hn).2 x.isLt
    have hw : w - clzBits w x = x.toNat.log2 + 1 := by rw [clzBits, if_neg hx]; omega
    rw [hw]
    exact ⟨Nat.lt_log2_self, fun _ => Nat.log2_self_le hn⟩

theorem ctzFrom_le (x i n : Nat) : ctzFrom x i n ≤ n := by
  induction n generalizing i with
  | zero => simp [ctzFrom]
  | succ n ih =>
    have := ih (i + 1)
    rw [ctzFrom]; split <;> omega

/-- The bits from i up that ctzFrom counts are 0. -/
theorem testBit_of_lt_ctzFrom {x i n j : Nat} (hj : j < ctzFrom x i n) : x.testBit (i + j) = false := by
  induction n generalizing i j with
  | zero => simp [ctzFrom] at hj
  | succ n ih =>
    rw [ctzFrom] at hj
    split at hj
    · omega
    next h0 =>
      cases j with
      | zero => simpa using h0
      | succ j => rw [← Nat.add_assoc, Nat.add_right_comm]; exact ih (by omega)

/-- The bit at which ctzFrom stops is 1. -/
theorem testBit_ctzFrom {x i n : Nat} (h : ctzFrom x i n < n) : x.testBit (i + ctzFrom x i n) = true := by
  induction n generalizing i with
  | zero => omega
  | succ n ih =>
    rw [ctzFrom] at h ⊢
    split at h
    next h1 => simp [h1]
    next h0 =>
      rw [if_neg h0, ← Nat.add_assoc]
      exact ih (by omega)

theorem mod_two_pow_ctzFrom (x n : Nat) : x % 2 ^ ctzFrom x 0 n = 0 := by
  apply Nat.eq_of_testBit_eq
  intro j
  by_cases hj : j < ctzFrom x 0 n
  · have hbit : x.testBit j = false := by simpa using testBit_of_lt_ctzFrom hj
    simp [hbit]
  · simp [hj]

theorem popcount_eq_countP (x n : Nat) : popcount x n = (List.range n).countP fun i => x.testBit i := by
  induction n with
  | zero => rfl
  | succ n ih => simp [popcount, List.range_succ, ih, List.countP_singleton, Bool.toNat]

theorem popcount_le (x n : Nat) : popcount x n ≤ n := by
  rw [popcount_eq_countP]; exact List.countP_le_length.trans_eq List.length_range

/-- What an instruction that counts bits of its operand writes. -/
theorem int2_count {s : State} {o : R2W} (h : s.ready (len1 o.q) o.q) (ha : s.fullG o.a) (hd : s.freeG o.d)
    (f : (w : Nat) → BitVec w → Nat) (hf : ∀ w x, f w x ≤ w) :
    int2 o (fun w x => BitVec.ofNat w (f w x)) s =
      s.putG o.q o.d (BitVec.ofNat 64 (f (opWidth o.w) ((s.me.gv o.a).setWidth (opWidth o.w)))) (s.me.gt o.a) := by
  rw [int2_done h ha hd, intOp_count o.w f hf]

theorem exec_clz (o : R2W) (s : State) :
    exec (.clz o) s = int2 o (fun w x => BitVec.ofNat w (clzBits w x)) s := rfl

theorem exec_ctz (o : R2W) (s : State) :
    exec (.ctz o) s = int2 o (fun w x => BitVec.ofNat w (ctzFrom x.toNat 0 w)) s := rfl

theorem exec_popc (o : R2W) (s : State) :
    exec (.popc o) s = int2 o (fun w x => BitVec.ofNat w (popcount x.toNat w)) s := rfl

theorem bitCountResults : Claims.BitCountResults := by
  intro s o h ha hd w a put
  let x := (s.me.gv o.a).setWidth w
  have hx : x.toNat = a := BitVec.toNat_setWidth ..
  have hclz : exec (.clz o) s = put (clzBits w x) :=
    (exec_clz o s).trans (int2_count h ha hd clzBits clzBits_le)
  have hctz : exec (.ctz o) s = put (ctzFrom x.toNat 0 w) :=
    (exec_ctz o s).trans
      (int2_count h ha hd (fun w x => ctzFrom x.toNat 0 w) fun w x => ctzFrom_le x.toNat 0 w)
  have hpopc : exec (.popc o) s = put (popcount x.toNat w) :=
    (exec_popc o s).trans
      (int2_count h ha hd (fun w x => popcount x.toNat w) fun w x => popcount_le x.toNat w)
  rw [hx] at hctz hpopc
  refine ⟨⟨_, hclz, clzBits_le w x, ?_⟩, ⟨_, hctz, ctzFrom_le a 0 w, mod_two_pow_ctzFrom a w, fun hlt => ?_⟩, ?_⟩
  · exact hx ▸ clzBits_bounds w x
  · simpa using testBit_ctzFrom hlt
  · rw [hpopc, popcount_eq_countP]

/-! ### High products (R94) -/

theorem exec_mulh (o : R3) (s : State) :
    exec (.mulh o) s = reg3 o (fun a b => BitVec.ofInt 64 (a.toInt * b.toInt / 2 ^ 64)) s := rfl

theorem exec_mulhu (o : R3) (s : State) :
    exec (.mulhu o) s = reg3 o (fun a b => BitVec.ofNat 64 (a.toNat * b.toNat / 2 ^ 64)) s := rfl

theorem wideProductResults : Claims.WideProductResults := by
  intro s o h ha hb hd
  rw [exec_mulh, exec_mulhu, reg3_done h ha hb hd, reg3_done h ha hb hd]
  exact ⟨rfl, rfl⟩

/-- Settles O3: each instruction is its integer function at the operand width (`intOp_eq_signExtend`), and the
function's own cases give the values of R94 and R96. -/
theorem productAndDivisionResults : Obligations.ProductAndDivisionResults :=
  ⟨wideProductResults, divisionResults, bitCountResults⟩

/-! ### Fat pointers (R101, R102) -/

/-- A value moved above the 56 address bits, joined with an address. -/
theorem shiftLeft_or_ofNat (t : DWord) {n : Nat} (hn : n < 2 ^ 56) :
    t <<< 56 ||| BitVec.ofNat 64 n = BitVec.ofNat 64 (t.toNat * 2 ^ 56 + n) := by
  rw [← Nat.shiftLeft_eq, Nat.shiftLeft_add_eq_or_of_lt hn, BitVec.ofNat_or]
  congr 1

/-- The tag of a pointer in its place. -/
theorem and_tagMask (p : DWord) : p &&& 0xFF00000000000000#64 = (p >>> 56) <<< 56 := by
  have hmask : 0xFF00000000000000#64 = BitVec.allOnes 64 <<< 56 := by decide
  rw [hmask]
  ext i hi
  simp only [BitVec.getElem_and, BitVec.getElem_shiftLeft, BitVec.getElem_allOnes, BitVec.getElem_ushiftRight]
  by_cases hlow : i < 56
  · simp [hlow]
  · simp [hlow, Nat.add_sub_cancel' (Nat.le_of_not_lt hlow), BitVec.getLsbD_eq_getElem hi]

theorem toNat_ushiftRight_56 (p : DWord) : (p >>> 56).toNat = p.toNat / 2 ^ 56 := by
  rw [BitVec.toNat_ushiftRight, Nat.shiftRight_eq_div_pow]

/-- An address that stays within its 56 bits is put back under the tag (R101). -/
theorem movePtr_inRange {p : DWord} {off : Int} (h0 : 0 ≤ ((p.toNat % 2 ^ 56 : Nat) : Int) + off)
    (h1 : ((p.toNat % 2 ^ 56 : Nat) : Int) + off < 2 ^ 56) :
    movePtr p off = some (BitVec.ofInt 64
      ((p.toNat / 2 ^ 56 * 2 ^ 56 : Nat) + (((p.toNat % 2 ^ 56 : Nat) : Int) + off))) := by
  obtain ⟨n, hn⟩ := Int.eq_ofNat_of_zero_le h0
  rw [hn] at h1 ⊢
  have hlt : n < 2 ^ 56 := by exact_mod_cast h1
  have hin : ¬((decide ((n : Int) < 0) || decide (2 ^ 56 ≤ (n : Int))) = true) := by
    simp only [Bool.or_eq_true, decide_eq_true_iff]; omega
  rw [movePtr, vaOf, hn, if_neg hin, and_tagMask, dw, BitVec.ofInt_natCast, shiftLeft_or_ofNat _ hlt,
    toNat_ushiftRight_56, ← Int.natCast_add, BitVec.ofInt_natCast]

/-- A carry into the tag or a borrow from it (R101). -/
theorem movePtr_outOfRange {p : DWord} {off : Int}
    (h : ((p.toNat % 2 ^ 56 : Nat) : Int) + off < 0 ∨ 2 ^ 56 ≤ ((p.toNat % 2 ^ 56 : Nat) : Int) + off) :
    movePtr p off = none := by
  have hout : (decide (((p.toNat % 2 ^ 56 : Nat) : Int) + off < 0) ||
      decide (2 ^ 56 ≤ ((p.toNat % 2 ^ 56 : Nat) : Int) + off)) = true := by
    rw [Bool.or_eq_true, decide_eq_true_iff, decide_eq_true_iff]; exact h
  rw [movePtr, vaOf, if_pos hout]

theorem toInt_sx14 (i : BitVec 14) : (sx14 i).toInt = i.toInt := BitVec.toInt_signExtend_of_le (by decide)

theorem exec_adda (o : R3) (s : State) :
    exec (.adda o) s = ptrMove o.q o.d [.g o.a o.ta, .g o.b o.tb] (·.gv o.a) (·.gv o.b) s := rfl

theorem exec_addai (o : RI) (s : State) :
    exec (.addai o) s = ptrMove o.q o.d [.g o.a false] (·.gv o.a) (fun _ => sx14 o.i) s := rfl

theorem pointerMoves : Claims.PointerMoves := by
  intro s
  constructor
  · intro o h ha hb p va
    rw [exec_adda]
    constructor
    · intro h0 h1 hd
      rw [← taints_two s.me o.a o.b o.ta o.tb]
      exact ptrMove_done h (full2 ha hb) hd (movePtr_inRange h0 h1)
    · intro hout
      exact ptrMove_trap h (full2 ha hb) (movePtr_outOfRange hout)
  · intro o h ha p va
    rw [exec_addai]
    have hoff : va = ((p.toNat % 2 ^ 56 : Nat) : Int) + (sx14 o.i).toInt := by rw [toInt_sx14]
    rw [hoff]
    constructor
    · intro h0 h1 hd
      rw [← taints_one s.me o.a false]
      exact ptrMove_done h (full1 ha) hd (movePtr_inRange h0 h1)
    · intro hout
      exact ptrMove_trap h (full1 ha) (movePtr_outOfRange hout)

theorem setWidth_56_eq_ofNat (a : DWord) : (a.setWidth 56).setWidth 64 = BitVec.ofNat 64 (a.toNat % 2 ^ 56) := by
  apply BitVec.eq_of_toNat_eq; simp

/-- A tag of 8 bits above an address of 56. -/
theorem tag_or_address (a b : DWord) :
    ((b.setWidth 8).setWidth 64 <<< 56) ||| (a.setWidth 56).setWidth 64 =
      BitVec.ofNat 64 (b.toNat % 2 ^ 8 * 2 ^ 56 + a.toNat % 2 ^ 56) := by
  rw [setWidth_56_eq_ofNat, shiftLeft_or_ofNat _ (Nat.mod_lt _ (by decide)), BitVec.toNat_setWidth,
    BitVec.toNat_setWidth, Nat.mod_mod_of_dvd' (Nat.pow_dvd_pow 2 (by decide))]

theorem exec_ptag (o : R3) (s : State) :
    exec (.ptag o) s =
      reg3 o (fun a b => BitVec.ofNat 64 (b.toNat % 2 ^ 8 * 2 ^ 56 + a.toNat % 2 ^ 56)) s := by
  simp only [← tag_or_address]; rfl

theorem exec_pfmt (o : R2) (s : State) :
    exec (.pfmt o) s = reg2 o (fun a => BitVec.ofNat 64 (a.toNat / 2 ^ 56)) s := by
  simp only [← toNat_ushiftRight_56, BitVec.ofNat_toNat, BitVec.setWidth_eq]; rfl

theorem exec_pva (o : R2) (s : State) :
    exec (.pva o) s = reg2 o (fun a => BitVec.ofNat 64 (a.toNat % 2 ^ 56)) s := by
  simp only [← setWidth_56_eq_ofNat]; rfl

theorem pointerTags : Claims.PointerTags := by
  refine fun s => ⟨fun o h ha hb hd => ?_, fun o h ha hd => ⟨?_, ?_⟩⟩
  · rw [exec_ptag, reg3_done h ha hb hd]
  · rw [exec_pfmt, reg2_done h ha hd]
  · rw [exec_pva, reg2_done h ha hd]

/-- Settles O4: the moved address stays below the tag exactly when `movePtr` answers, and the joined bits do not
overlap. -/
theorem pointerResults : Obligations.PointerResults := ⟨pointerMoves, pointerTags⟩

end Sys2Proof.Machine
